-- ==== Sys2Proof/Word.lean ====
section
/-! DEFINITION. The widths of the manual's words (R7 to R9): bytes, 32-bit register words and 64-bit pairs,
and the sparse map that holds numbered things. -/

namespace Sys2Proof

/-- One byte, little-endian in every multi-byte field (R8). -/
abbrev Byte := BitVec 8

/-- One 32-bit register word or FP32 pattern (R7, R527). -/
abbrev Word := BitVec 32

/-- One aligned 64-bit pair of words (R527), a counter or a tally (R532, R150). -/
abbrev Word64 := BitVec 64

/-- Things by number: a list of (number, thing) pairs. Machine/Bits.lean keeps the numbers rising. -/
abbrev FMap (α : Type) := List (Nat × α)

end Sys2Proof
end

