-- ==== Sys2Proof/Syntax.lean ====
section
/-! DEFINITION. The commands of the part: one constructor of `Instr` for each row of the spec's table of
operations and events, and the types of their operands. A command is either something software or another
agent sends the part, or an event of one of the part's own engines; its operands carry what the part cannot
know from its own state (the requester, a time, a sensor's reading, another package's answer). -/

namespace Sys2Proof

/-- The privilege levels of a server core (R294). -/
inductive Priv where
  | user | supervisor | monitor
  deriving DecidableEq, Repr

/-- Who makes a register or memory access (R240, R294, R306, R511). -/
inductive Src where
  /-- Management controller `i`, 0 or 1; `secure` while its boot ROM or secure firmware runs (R179). -/
  | pmc (i : Nat) (secure : Bool)
  /-- The physical function of host link `link` (host die × 2 + link). -/
  | pf (link : Nat)
  /-- Virtual function `vf` of host link `link`. -/
  | vf (link vf : Nat)
  /-- Server core `core` of host die `host`. -/
  | core (host core : Nat) (priv : Priv)
  deriving DecidableEq, Repr

/-- The five message classes of the hub, in R38's order from the lowest. -/
inductive MsgClass where
  | request | snoop | response | writeback | completion
  deriving DecidableEq, Repr

/-- A hub packet (R31, R33): its class, its fold (none: the system share), source unit, destination tile
and output there, length and poison bit. -/
structure Packet where
  id : Nat
  cls : MsgClass
  fold : Option Nat
  src : Nat
  destTile : Nat
  destOut : Nat
  bytes : Nat
  poison : Bool
  urgent : Bool
  deriving DecidableEq, Repr

/-- An input or output of a hub, and the hub cycle in which something happens there (R38, R40). -/
structure HubAt where
  port : Nat
  now : Nat
  deriving DecidableEq, Repr

/-- A packet that a bridge retries, and the hub cycles that the retry adds (R36). -/
structure HubLate where
  id : Nat
  late : Nat
  deriving DecidableEq, Repr

/-- An array, or one of its four quarters (R111): die, logical pen, array number, and the quarter. -/
structure ArrayUnit where
  die : Nat
  pen : Nat
  arr : Nat
  quarter : Bool
  qid : Nat
  deriving DecidableEq, Repr

/-- A queue command: its context, queue and place in the queue (R145). -/
structure CmdId where
  ctx : Nat
  q : Nat
  seq : Nat
  deriving DecidableEq, Repr

/-- A prep core (R127). -/
structure PrepCore where
  die : Nat
  pen : Nat
  k : Nat
  deriving DecidableEq, Repr

/-- The issue ports of a prep core or list sequencer (R129): an array, a quarter, or the pen's hatch unit. -/
inductive IssuePort where
  | array (a : Nat)
  | quarter (a q : Nat)
  | hatch
  deriving DecidableEq, Repr

/-- The stipple key of a stochastic rounding (R87, R88). -/
structure SrKey where
  tensor : Nat
  purpose : Nat
  coord : Nat
  deriving DecidableEq, Repr

/-- What the error-correcting code of a store or a stack found at an access or a scrub (R173, R197). -/
inductive Ecc where
  | clean | corrected | uncorrectable
  deriving DecidableEq, Repr

/-- What the error-correcting codes of a home's tile find at a request (R285): nothing, a corrected error, or an
uncorrectable one in the home store's data, in the line's directory entry, or in the memory behind the home (R197,
R297). -/
inductive HomeEcc where
  | clean | corrected | data | directory | memory
  deriving DecidableEq, Repr

/-- How the requests of one row to memory and to other packages are answered: as this package's memory holds the data;
with another package's data (RDATA of R369), in the order of the lines asked for; with poison from the memory behind a
home; with an error from a lower tier, whose code of R17 it gives; or from a tile cache whose codes find something (R285):
at the home, and in a visitor copy. -/
inductive LineResp where
  | ok
  | remote (data : List Byte)
  | poison
  | error (code : Nat)
  | found (home : HomeEcc) (visitor : Ecc)
  deriving DecidableEq, Repr

/-- What a memory controller finds as it performs an access (R197, R199): an error of the data, or a command or address
parity error, which may have come back after three retries. -/
inductive MemEcc where
  | clean | corrected | uncorrectable
  | parity (again : Bool)
  deriving DecidableEq, Repr

/-- Why the stores of a C-die are cleared (R178). -/
inductive ClearCause where
  | packageReset | powerUp | foldReset | foldChange
  deriving DecidableEq, Repr

/-- Why the keep regions are wiped (R180). -/
inductive WipeCause where
  | tamper | lifeCycle
  deriving DecidableEq, Repr

/-- The atomic operations, in the order of R280. -/
inductive AtomOp where
  | add | fadd | and | or | xor | minS | minU | maxS | maxU | swap | cas
  deriving DecidableEq, Repr

/-- A unit that takes commands, is watched or asks lower tiers for lines (R149, R457, R576); `remote` is the engine
of a tile that serves inbound remote-window requests. -/
inductive UnitId where
  | array (u : ArrayUnit)
  | hatch (die pen : Nat)
  | vec (die pen : Nat)
  | list (die pen : Nat)
  | pen (die pen : Nat)
  | prep (core : PrepCore)
  | drover (tile engine : Nat)
  | etch (tile engine : Nat)
  | coll (tile engine : Nat)
  | frontEnd (tile : Nat)
  | remote (tile : Nat)
  deriving DecidableEq, Repr

/-- A translation stream (R247). -/
inductive StreamId where
  | queue (ctx q : Nat)
  | drover (tile engine : Nat)
  | hatch (die pen : Nat)
  | etch (tile engine : Nat)
  | coll (tile engine : Nat)
  | array (die pen arr : Nat)
  deriving DecidableEq, Repr

/-- A requester of the coherence protocol that keeps no copy (R276): a unit of a tile, or a host link. -/
inductive Requester where
  | unit (u : UnitId)
  | link (link : Nat)
  | remote (pkg tid : Nat)
  | pmc (i : Nat)
  deriving DecidableEq, Repr

/-- The requesters of a scratchpad store's port, in R166's order: the feed of the store's own array, hatch-unit reads; the
drain of array `a`, hatch-unit writes; Drover engine `engine`, PEN_RUN image loads, any other access through the hub; prep
core `k`, list reads; JTAG and IEEE 1687, sampling for fault capture, scrub and poison-marking writes. -/
inductive SpadWho where
  | feed | hatchRead
  | drain (a : Nat) | hatchWrite
  | drover (engine : Nat) | penRun | hub (n : Nat)
  | prep (k : Nat) | list
  | debug | capture | scrub | mark
  deriving DecidableEq, Repr

/-- One request waiting at a scratchpad store's port (R164 to R176): its requester, its place in the order of arrival at
the die's hub port (R168), the range within the store, what it writes, with the view (0 plain, 1 set, 2 clear) and the
packet's poison bit, whether a management controller issues it in its secure mode, and what the error code finds in
granule `eccAt` of its first line. The array's feed, the scrub and the poison-marking write of granule `off` / 8 find
their own place. -/
structure SpadReq where
  who : SpadWho
  arrived : Nat
  off : Nat
  len : Nat
  write : Option (List Byte)
  view : Nat
  poison : Bool
  secure : Bool
  ecc : Ecc
  eccAt : Nat
  deriving DecidableEq, Repr

/-- One access within a line at a memory controller (R184 to R201), at a hub input. -/
structure MemAccess where
  input : Nat
  pa : Nat
  len : Nat
  write : Option (List Byte)
  poison : Bool
  fold : Option Nat
  reclaim : Bool
  deriving DecidableEq, Repr

/-- A queue command, and how the requests of its row are answered. -/
structure CmdAns where
  id : CmdId
  resp : LineResp
  deriving DecidableEq, Repr

/-- A queue of a context, and how the requests of its row are answered. -/
structure QueueAns where
  q : Nat
  resp : LineResp
  deriving DecidableEq, Repr

/-- An array or quarter, and how the requests of its row are answered. -/
structure UnitAns where
  u : ArrayUnit
  resp : LineResp
  deriving DecidableEq, Repr

/-- A collective of a team by its CSEQ, and how the requests of its row are answered. -/
structure ColAt where
  cseq : Nat
  resp : LineResp
  deriving DecidableEq, Repr

/-- A line of an agent's cache, and what the cache's code finds as the agent reads it (R285). -/
structure LineAt where
  line : Nat
  ecc : Ecc
  deriving DecidableEq, Repr

/-- The operand address of an agent's atomic, what its cache's code finds there, and what the home's codes find should the
line have to be fetched (R281, R285). -/
structure AddrAt where
  addr : Nat
  ecc : Ecc
  home : HomeEcc
  deriving DecidableEq, Repr

/-- One hub cycle at a memory controller (R185): the accesses that arrive, and whether it performs one. It may take the lines
in any order: the number chooses among those of the fold whose turn it is. -/
structure MemCycle where
  arrivals : List MemAccess
  serve : Option Nat
  deriving DecidableEq, Repr

/-- The operands of an AtomH and the poison bit of their message (R273). -/
structure AtomArg where
  bytes : List Byte
  poison : Bool
  deriving DecidableEq, Repr

/-- How a server core makes an access (R293 to R297): its privilege, whether its page tables map the address WB, what the
codes at the line's home find, and whether the DDR5 channel of a tier F line has failed. -/
structure CoreHow where
  priv : Priv
  wb : Bool
  home : HomeEcc
  failed : Bool
  deriving DecidableEq, Repr

/-- A request of another package to one of this package's import entries (R256, R369). -/
structure RemoteReq where
  srcPkg : Nat
  srcFold : Nat
  tid : Nat
  imp : Nat
  off : Nat
  len : Nat
  view : Nat
  write : Option (List Byte)
  atom : Option (AtomOp × Nat × List Byte)
  poison : Bool
  deriving DecidableEq, Repr

/-- One microsecond's energy (R261, R444), in 2^-16 µJ: rail energy of each C-die, event energy by
(context, queue), and the package's measured input. -/
structure EnergySample where
  rails : List (Nat × Nat)
  events : List (Nat × Nat × Nat)
  input : Nat
  deriving DecidableEq, Repr

/-- How another host's memory answers an XHOST command (R314): the data of a read, with the poison bit of its TLPs, or how
many of its requests failed (R225). -/
inductive XhostResp where
  | ok (data : List Byte) (poison : Bool)
  | error (failed : Nat)
  | linkDown
  deriving DecidableEq, Repr

/-- The data of a write TLP, and its poison bit (R33, R304). -/
structure TlpData where
  bytes : List Byte
  poison : Bool
  deriving DecidableEq, Repr

/-- A flit of the Nareg fabric: the header fields of R356 (the CRC apart) and the payload. -/
structure Flit where
  ftype : Nat
  vc : Nat
  data : Bool
  poison : Bool
  lag : Bool
  lseq : Nat
  lack : Nat
  crdtVc : Nat
  crdt : Nat
  dstPkg : Nat
  srcPkg : Nat
  srcFold : Nat
  detour : Bool
  op : Nat
  tid : Nat
  operand : Nat
  viaPkg : Nat
  viaDone : Bool
  payload : List Byte
  deriving DecidableEq, Repr

/-- The dies that carry junction sensors (R441). -/
inductive TempUnit where
  | cdie (d : Nat)
  | tile (t : Nat)
  | host (h : Nat)
  deriving DecidableEq, Repr

/-- The cycle of an accumulator update, and the accumulator rows in which bits have flipped since the one before it: each
with whether the code cannot correct them (R109). -/
structure AccCyc where
  cyc : Nat
  flips : List (Nat × Bool)
  deriving DecidableEq, Repr

/-- A fault of fold reach (R463): its cause and unit codes as the fault log holds them (R480). -/
structure FaultTrigger where
  cause : Nat
  unit : Nat
  detail : Nat
  deriving DecidableEq, Repr

/-- The interconnect test's result for one repair group of one link (R565 to R567). -/
structure LinkTest where
  link : Nat
  group : Nat
  failed : List Nat
  deriving DecidableEq, Repr


/-- The commands, in the order of the spec's table. -/
inductive Instr where
  /-- REGISTER_WRITE (R526): A software write to a register field that has no behaviour row of its own, applied according to its access type, authority and lock. -/
  | registerWrite (src : Src) (addr width : Nat) (value : BitVec 64)
  /-- ABSENT_PAGE_ACCESS (R520): An access to an absent page reads zero, discards the write and is counted on the PKG page. -/
  | absentPageAccess (src : Src) (page off : Nat) (write : Bool)
  /-- PAGE_LOCK (R530): A write of 1 to CTL.LOCK locks the page's RWL fields until package reset. -/
  | pageLock (src : Src) (page : Nat)
  /-- CNT_CLEAR (R535): A write of CTL.CNT_CLEAR zeroes the page's sixteen counters and CNT_OVF, ahead of the increments of that cycle. -/
  | cntClear (src : Src) (page : Nat)
  /-- CNT_SNAP_TAKE (R533): A write of CNT_SNAP.TAKE latches all sixteen counters in one cycle and sets HELD. -/
  | cntSnapTake (src : Src) (page : Nat)
  /-- CNT_SNAP_RELEASE (R533): A write of CNT_SNAP.RELEASE clears HELD so that low-word reads copy the live counters again. -/
  | cntSnapRelease (src : Src) (page : Nat)
  /-- COUNTER_LOW_READ (R533): A read of a counter's low word copies the live counter into its latch, unless HELD is set, and returns bits [31:0]. -/
  | counterLowRead (src : Src) (page n : Nat)
  /-- PAIR_LO_WRITE (R536): A write of the _LO word of a 64-bit pair is held until the next write of its _HI word, which applies both together. -/
  | pairLoWrite (src : Src) (page off : Nat) (value : BitVec 32)
  /-- GROUP_PAGE_WRITE (R45): A write to a group page's CTL, ERRMASK, IRQEN or block-specific field is applied to each enabled member within authority, in ascending order. -/
  | groupPageWrite (src : Src) (page off : Nat) (value : BitVec 32)
  /-- GROUP_ERR_CLEAR (R46): A W1C to a group ERR register clears the written bits in every member within the writer's authority. -/
  | groupErrClear (src : Src) (page : Nat) (bits : BitVec 32)
  /-- POD_GROUP_WRITE (R49): A write to a pod or system group page is carried by the Bellwether over the rings and takes effect at a named Herd tick. -/
  | podGroupWrite (src : Src) (system : Bool) (off : Nat) (value : BitVec 32) (tick : Nat)
  /-- HUB_PACKET_ARRIVE (R31): A packet of one message class enters a hub input buffer, consuming credit for its class. -/
  | hubPacketArrive (tile : Nat) (input : HubAt) (pkt : Packet)
  /-- HUB_PACKET_GRANT (R38): In a hub cycle an output grants at most one eligible packet by urgency, class, fold share and input round robin. -/
  | hubPacketGrant (tile : Nat) (output : HubAt)
  /-- HUB_PACKET_URGENT (R40): A packet whose wait at an input reaches STARVE_LIMIT is marked urgent for the rest of its path. -/
  | hubPacketUrgent (tile id now : Nat)
  /-- HUB_STALL (R40): An urgent packet that waits a further STALL_MULT x STARVE_LIMIT hub cycles raises HUB_STALL to the tile's Sheepdog. -/
  | hubStall (tile id now : Nat)
  /-- BRIDGE_RETRY (R36): A panel bridge that detects a framing or CRC error retries the packet at link level, keeping order. -/
  | bridgeRetry (tile other : Nat) (id : HubLate)
  /-- BRIDGE_LOST (R37): A panel bridge that fails entirely has its traffic rerouted through the lower-numbered other tile, and the loss is logged. -/
  | bridgeLost (tile other : Nat)
  /-- HERD_TICK_EDGE (R502): At a Herd tick edge the part applies a due epoch switch, then due armed event entries, then tick-bound actions of other chapters, and distributes the edge to every unit. -/
  | herdTickEdge
  /-- PASS (R97): A pass descriptor at the head of an issue FIFO is checked and accepted onto its array or quarter. -/
  | pass (u : ArrayUnit)
  /-- STATIONARY_FETCH (R100): The staging buffer fetches the next step's stationary set and scales from the array store once the staged set has been broadcast. -/
  | stationaryFetch (u : ArrayUnit)
  /-- STATIONARY_ROW_BROADCAST (R102): A row of a staged stationary set is written into its bank when the bank interlock allows it. -/
  | stationaryRowBroadcast (u : ArrayUnit) (cyc : Nat)
  /-- WAVEFRONT_ENTER (R98): A wavefront enters row 0 when the stream buffer holds it and no interlock holds; otherwise the cycle is a bubble. -/
  | wavefrontEnter (u : ArrayUnit) (cyc : Nat)
  /-- ACCUMULATOR_UPDATE (R94): A wavefront reaches the accumulators and updates each unmasked column's accumulator from its summation groups. -/
  | accumulatorUpdate (u : ArrayUnit) (cyc : AccCyc)
  /-- DRAIN_ROW (R110): One accumulator row of a finished pass is narrowed and written to its destination store. -/
  | drainRow (u : ArrayUnit)
  /-- PASS_COMPLETE (R110): A pass whose last update and drain are done posts its completion with its status. -/
  | passComplete (u : ArrayUnit)
  /-- MXA_CFG_WRITE (R111): A write of MXA_CFG.QUARTER requests a change between full and quarter mode. -/
  | mxaCfgWrite (src : Src) (die pen arr : Nat) (quarter : Bool)
  /-- QUARTER_MODE_SWITCH (R111): A requested mode change takes effect when the array has no pass in flight, no drain running and is not held by a list. -/
  | quarterModeSwitch (die pen arr : Nat)
  /-- ARRAY_FREEZE (R113): A power throttle or duty cycle freezes the array at a cycle boundary with all state held. -/
  | arrayFreeze (die pen arr : Nat)
  /-- ARRAY_FREEZE_RELEASE (R113): A frozen array resumes from the same cycle. -/
  | arrayFreezeRelease (die pen arr cycles : Nat)
  /-- PREEMPT_SAVE (R115): After the tail of a stopped pass, the array writes its rows and flags to the save slot and then the resume record. -/
  | preemptSave (u : ArrayUnit)
  /-- RESUME_IN_PLACE (R577): A pass preempted without PREEMPT_RETURN is resumed on the same unit when its turn in the issue order comes. -/
  | resumeInPlace (u : UnitAns)
  /-- ARRAY_FAULT (R117): An array detects a fault in its own logic, stops and poisons the pass, completes it with FAULT_ABORT and starts its self-check. -/
  | arrayFault (u : ArrayUnit) (cause : Nat) (shared : Bool)
  /-- ARRAY_SELF_CHECK_END (R117): The 42,000-cycle self-check ends, returning the array to dispatch or setting OFFLINE. -/
  | arraySelfCheckEnd (u : ArrayUnit) (passed : Bool)
  /-- PEN_RUN (R127): PEN_RUN loads a program image into the named prep cores and starts each at ENTRY with ARG0 to ARG3. -/
  | penRun (c : CmdId)
  /-- PREP_INSTRUCTION (R127): A prep core executes one LPX instruction from its instruction buffer. -/
  | prepInstruction (core : PrepCore)
  /-- PREP_LOAD_STORE (R128): A prep core load or store reaches a pen or die store through the port, or stops the core when it falls outside. -/
  | prepLoadStore (core : PrepCore) (store : Bool) (off len reg : Nat)
  /-- PREP_VIEW_STORE (R172): A prep core performs a set-view or clear-view store, optionally fetching the prior 64-bit value. -/
  | prepViewStore (core : PrepCore) (clear fetch : Bool) (off len reg dst : Nat)
  /-- PREP_ISSUE_DESC (R129): A prep core writes a pass or hatch descriptor to an issue port, stalling while the FIFO is full. -/
  | prepIssueDesc (core : PrepCore) (port : IssuePort) (desc : BitVec 512)
  /-- PREP_COMPLETION_READ (R130): A prep core reads the oldest record of its completion FIFO, freeing an entry. -/
  | prepCompletionRead (core : PrepCore) (reg : Nat)
  /-- HALT (R131): A prep core ends its program with a status code; the PEN_RUN completes when every named core has halted. -/
  | halt (core : PrepCore) (code : Nat)
  /-- VADD (R133): Vector add of two FP32 registers per lane, rounded to nearest even. -/
  | vadd (core : PrepCore) (d a b : Nat)
  /-- VSUB (R133): Vector subtract per lane, rounded to nearest even. -/
  | vsub (core : PrepCore) (d a b : Nat)
  /-- VMUL (R133): Vector multiply per lane, rounded to nearest even. -/
  | vmul (core : PrepCore) (d a b : Nat)
  /-- VFMA (R133): Vector fused multiply-add per lane, rounded once. -/
  | vfma (core : PrepCore) (d a b c : Nat)
  /-- VMIN (R133): Vector minimum per lane under R56. -/
  | vmin (core : PrepCore) (d a b : Nat)
  /-- VMAX (R133): Vector maximum per lane under R56. -/
  | vmax (core : PrepCore) (d a b : Nat)
  /-- VDIV (R133): Vector divide per lane at 8 lanes per cycle. -/
  | vdiv (core : PrepCore) (d a b : Nat)
  /-- VSQRT (R133): Vector square root per lane at 8 lanes per cycle. -/
  | vsqrt (core : PrepCore) (d a : Nat)
  /-- VRCP (R133): Vector reciprocal per lane, correctly rounded. -/
  | vrcp (core : PrepCore) (d a : Nat)
  /-- VRSQRT (R133): Vector reciprocal square root per lane, correctly rounded. -/
  | vrsqrt (core : PrepCore) (d a : Nat)
  /-- VEXP (R133): Vector exponential per lane, correctly rounded. -/
  | vexp (core : PrepCore) (d a : Nat)
  /-- VLOG (R133): Vector natural logarithm per lane, correctly rounded. -/
  | vlog (core : PrepCore) (d a : Nat)
  /-- VTANH (R133): Vector hyperbolic tangent per lane, correctly rounded. -/
  | vtanh (core : PrepCore) (d a : Nat)
  /-- VLD_W (R133): Loads 32 elements of a format and widens them to FP32 under R64. -/
  | vldW (core : PrepCore) (d fmt off scaleOff : Nat) (tScale : BitVec 32) (sat : Bool)
  /-- VST_N (R133): Narrows 32 lanes to a format with the instruction's SAT and rounding and stores them. -/
  | vstN (core : PrepCore) (a fmt off scaleOff : Nat) (tScale : BitVec 32) (sat : Bool) (sr : Option SrKey)
  /-- VBENC (R133): Encodes 32 lanes as one MX block or four SB4 blocks. -/
  | vbenc (core : PrepCore) (a fmt off scaleOff : Nat) (tScale : BitVec 32) (sr : Option SrKey)
  /-- VBDEC (R133): Decodes one MX block or four SB4 blocks to 32 lanes. -/
  | vbdec (core : PrepCore) (d fmt off scaleOff : Nat) (tScale : BitVec 32)
  /-- VRSUM (R134): Sums the 32 lanes into lane 0 by a fixed five-level tree. -/
  | vrsum (core : PrepCore) (d a : Nat)
  /-- VTRN (R133): Transposes 32 registers as a 32 x 32 tile. -/
  | vtrn (core : PrepCore)
  /-- HATCH (R138): A hatch descriptor multiplies a weight matrix by up to eight vectors held in its buffer. -/
  | hatch (die pen : Nat)
  /-- HATCH_WEIGHT_LINE (R138): A weight line arrives at the hatch unit and its products update the FP32 accumulators; finished rows are written. -/
  | hatchWeightLine (die pen : Nat) (resp : LineResp)
  /-- NOP (R143): A queue command that does nothing except complete. -/
  | nop (c : CmdId)
  /-- DESC_LIST (R152): DESC_LIST checks every listed descriptor at acceptance and holds the named arrays until it completes. -/
  | descList (c : CmdId)
  /-- LIST_ISSUE_DESC (R152): The list sequencer issues the next descriptor of a running list to its unit's issue port. -/
  | listIssueDesc (die pen : Nat)
  /-- PREEMPT (R154): PREEMPT stops the named pass of the issuing context under R114 to R118. -/
  | preempt (c : CmdId)
  /-- RESUME (R120): RESUME reads a resume record and continues the saved pass on an array or quarter of the same shape. -/
  | resume (c : CmdAns)
  /-- TALLY_WAIT (R151): TALLY_WAIT holds its queue until the tally reaches the target. -/
  | tallyWait (c : CmdId)
  /-- TALLY_ADD (R150): TALLY_ADD adds an amount to a tally, regardless of generation, and releases any wait it satisfies. -/
  | tallyAdd (c : CmdId)
  /-- TALLY_SET (R150): TALLY_SET sets a tally's value and generation together. -/
  | tallySet (c : CmdId)
  /-- GEN_FENCE (R156): GEN_FENCE holds its queue until every older-generation command dispatched to the named group has posted. -/
  | genFence (c : CmdId)
  /-- RETIRE (R157): RETIRE completes with STATE_ERROR every unstarted command of the named generation in the named group. -/
  | retire (c : CmdId)
  /-- TALLY_ADD_REG (R145): A write of the TALLY_ADD register adds AMOUNT to a tally whatever its generation. -/
  | tallyAddReg (src : Src) (ctx tally : Nat) (amount : BitVec 32)
  /-- QUEUE_DOORBELL (R146): A write of QDB.TAIL advances the queue's tail or is discarded with DB_OVERRUN. -/
  | queueDoorbell (src : Src) (ctx q : Nat) (tail : BitVec 16)
  /-- QUEUE_ENABLE_WRITE (R146): A write of QCFG.ENABLE starts fetching, or stops fetching after the command in fetch. -/
  | queueEnableWrite (src : Src) (ctx q : Nat) (enable : Bool)
  /-- QUEUE_FETCH (R578): The front-end fetches a queue entry through its stream; a failed fetch completes the entry with its code. -/
  | queueFetch (ctx : Nat) (q : QueueAns)
  /-- QUEUE_DISPATCH (R147): The head command of a queue is dispatched once it is eligible and completion-ring room allows. -/
  | queueDispatch (ctx q : Nat)
  /-- UNIT_INPUT_GRANT (R149): A unit input grants one eligible queue head per hub cycle by ageing, class, fold share and round robin. -/
  | unitInputGrant (unit : UnitId)
  /-- QUEUE_AGED (R149): A queue head eligible and ungranted for longer than AGE_LIMIT becomes aged. -/
  | queueAged (ctx q waitedUs : Nat)
  /-- COMPLETION_POST (R148): A completed command's record is written to the completion ring in ring order once every earlier command has posted. -/
  | completionPost (ctx : Nat) (q : QueueAns)
  /-- CPL_ERR_RETRY (R579): A write of 1 to QSTS.CPL_ERR makes the front-end write the held completion record again. -/
  | cplErrRetry (src : Src) (ctx q : Nat)
  /-- SPAD_PORT_GRANT (R167): A store port grants one access per compute cycle by lock, starvation limits and class priority. -/
  | spadPortGrant (die store : Nat) (reqs : List SpadReq)
  /-- POISON_MARK_WRITE (R174): After an uncorrectable error the port sets the granule's poison bit by a class-5 write once granted. -/
  | poisonMarkWrite (die store gran : Nat)
  /-- SCRUB_LINE (R176): Every 4,096 cycles a store scrubs its next line, writing back corrected data or marking poison. -/
  | scrubLine (die store gran : Nat) (ecc : Ecc)
  /-- STORE_CLEAR (R178): A die's stores are written with zero at package reset, power-up, fold reset or fold change. -/
  | storeClear (die : Nat) (cause : ClearCause)
  /-- STORE_CLEAR_DONE (R178): The clearing of a die's stores ends and INIT_BUSY clears. -/
  | storeClearDone (die : Nat)
  /-- KEEP_WIPE (R180): TAMPER_N or a life-cycle change starts or restarts a wipe of every live die store's keep region. -/
  | keepWipe (cause : WipeCause)
  /-- KEEP_WIPE_DONE (R180): The keep-region wipe finishes its 1,024 lines. -/
  | keepWipeDone (die : Nat)
  /-- MEMC_ACCESS (R185): A memory controller performs a line access on a pseudo-channel and returns data, poison or acknowledgement. -/
  | memcAccess (stack : Nat) (acc : MemCycle) (ecc : MemEcc)
  /-- MEMC_CMD_TIMEOUT (R199): A stack command gets no response within 10 µs and its channel is marked bad. -/
  | memcCmdTimeout (stack chan : Nat)
  /-- MEMC_SCRUB (R198): Every 16 ms a controller scrubs the next line of each live pseudo-channel. -/
  | memcScrub (stack chan : Nat) (ecc : Ecc)
  /-- MEMC_REFRESH (R203): The controller issues per-bank refresh to a pseudo-channel at the rate its stack temperature requires. -/
  | memcRefresh (stack chan : Nat)
  /-- MEMC_THERM_READ (R204): Every 32 µs a controller reads its stack temperature and moves its thermal level. -/
  | memcThermRead (stack temp : Nat)
  /-- MEMMAP_LOCK (R189): A write of MEMMAP_CTL.LOCK builds the interleave tables and starts zeroing tier N. -/
  | memmapLock (src : Src)
  /-- TIER_N_ZERO_DONE (R202): Zeroing of every live channel ends and MEMMAP_STS.READY is set. -/
  | tierNZeroDone
  /-- ZSALT_WRITE (R190): A write of a zone's salt changes its key set and makes the zone's contents undefined. -/
  | zsaltWrite (src : Src) (m : Nat) (value : BitVec 32)
  /-- IMB_WINDOW_END (R195): An imbalance window ends; after IMB_HOLD imbalanced windows the monitor records an event. -/
  | imbWindowEnd
  /-- COPY (R217): COPY moves rows of bytes from a source to a destination with pitches and a view. -/
  | copy (c : CmdId)
  /-- FILL (R217): FILL writes rows with a 16-byte pattern. -/
  | fill (c : CmdId)
  /-- TILE (R220): TILE converts a tensor into engine-ready STAT or STREAM tiles. -/
  | tile (c : CmdId)
  /-- SCHED_RUN (R231): SCHED_RUN checks a tier schedule table and runs its entries ahead of compute. -/
  | schedRun (c : CmdAns)
  /-- SCHED_CANCEL (R234): SCHED_CANCEL stops further starts of the context's run with the named TAG. -/
  | schedCancel (c : CmdId)
  /-- PROMOTE (R228): PROMOTE takes a reference to a chunk and starts or waits for its copy up. -/
  | promote (c : CmdId)
  /-- RELEASE (R228): RELEASE drops one reference to a chunk. -/
  | release (c : CmdId)
  /-- EVICT (R228): EVICT asks for a chunk to be moved down, acting by its state and reference count. -/
  | evict (c : CmdId)
  /-- DROVER_LINE_RESPONSE (R213): A source line response arrives at a Drover engine and the destination lines it feeds are written. -/
  | droverLineResponse (tile engine : Nat) (resp : LineResp)
  /-- TIER_REQUEST_TIMEOUT (R225): A tier F or remote-window line request waits TIER_TMO µs without response, and its command heads for TIER_ERROR. -/
  | tierRequestTimeout (unit : UnitId)
  /-- CHUNK_COPY_UP_END (R228): A chunk's copy up ends, making it RESIDENT or restarting or returning it to LOW. -/
  | chunkCopyUpEnd (fold chunk : Nat) (code : Nat)
  /-- CHUNK_WRITEBACK_END (R228): A chunk's write-back ends, returning it to LOW or RESIDENT. -/
  | chunkWritebackEnd (fold chunk : Nat) (code : Nat)
  /-- SCHED_ENTRY_START (R232): A schedule entry starts once earlier entries have started, fewer than MAX_INFLIGHT are in flight and its start point is reached. -/
  | schedEntryStart (c : CmdId)
  /-- FOLD_ENABLE (R239): A write of FOLD_CTL.ENABLE = 1 enables a fold after its configuration checks pass. -/
  | foldEnable (src : Src) (fold : Nat)
  /-- FOLD_DISABLE (R239): A write of FOLD_CTL.ENABLE = 0 disables a fold unless one of its contexts is enabled. -/
  | foldDisable (src : Src) (fold : Nat)
  /-- CONTEXT_ENABLE (R241): A write of CTX_CFG.ENABLE = 1 enables a context when its fold is valid and enabled. -/
  | contextEnable (src : Src) (ctx : Nat)
  /-- CONTEXT_DISABLE (R241): A write of CTX_CFG.ENABLE = 0 stops the context's queues fetching. -/
  | contextDisable (src : Src) (ctx : Nat)
  /-- SEGMENT_TABLE_FILL (R247): A stream's segment-table read returns and the descriptors are checked and cached, letting the missed access translate. -/
  | segmentTableFill (stream : StreamId) (ctx : Nat) (resp : LineResp)
  /-- FAULT_RECORD_WRITE (R249): A fault record is written to the fold's fault ring when there is room, and the fold's interrupt is raised. -/
  | faultRecordWrite (fold slot : Nat) (failed : Bool)
  /-- FQBASE_WRITE (R249): A write of FOLD_FQBASE makes the part retry fault records that could not be written. -/
  | fqbaseWrite (src : Src) (fold : Nat) (hi : Bool) (value : BitVec 32)
  /-- FAULT_REPLY_REPLAY (R250): A FOLD_FAULTREPLY with DECLINE = 0 makes the slot's streams refetch the table and replay the stalled access. -/
  | faultReplyReplay (src : Src) (fold slot : Nat) (seq : BitVec 8)
  /-- FAULT_REPLY_DECLINE (R250): A FOLD_FAULTREPLY with DECLINE = 1 completes every stalled access on the slot with SEG_FAULT. -/
  | faultReplyDecline (src : Src) (fold slot : Nat) (seq : BitVec 8)
  /-- SEGMENT_INVALIDATE (R253): A write of CTX_SEGINV.GO broadcasts an invalidation of the context's cached segment tables. -/
  | segmentInvalidate (src : Src) (ctx : Nat)
  /-- SEGMENT_INVALIDATE_DONE (R253): An invalidation's conditions hold and CTX_SEGINV_STS.DONE advances. -/
  | segmentInvalidateDone (ctx : Nat)
  /-- REMOTE_REQUEST_ARRIVE (R256): A remote-window request arrives at the receiving package and is checked against the import table and performed or refused. -/
  | remoteRequestArrive (req : RemoteReq)
  /-- ENERGY_SAMPLE (R444): At the end of each 1 µs sample the part charges rail and event energy to fold, queue and SYSTEM accounts. -/
  | energySample (e : EnergySample)
  /-- RDS (R276): The home accepts an RdS request and grants a readable copy, snooping the owner when needed. -/
  | rds (agent line : Nat) (ecc : HomeEcc)
  /-- RDX (R276): The home accepts an RdX request and grants the sole copy, invalidating or snooping holders. -/
  | rdx (agent line : Nat) (ecc : HomeEcc)
  /-- RDCUR (R276): The home accepts an RdCur and returns the current value without recording a copy. -/
  | rdcur (who : Requester) (line : Nat) (ecc : HomeEcc)
  /-- WRFULL (R276): The home accepts a whole-line write, recalls copies and performs it in the home store. -/
  | wrfull (who : Requester) (line : Nat) (data : List Byte) (poison : Bool) (ecc : HomeEcc)
  /-- WRPART (R276): The home accepts a partial-line write, recalls copies and performs it in the home store. -/
  | wrpart (who : Requester) (line : Nat) (mask : List Bool) (data : List Byte) (poison : Bool) (ecc : HomeEcc)
  /-- ATOMH (R281): The home accepts a non-caching atomic and executes it in the home store after recalling copies. -/
  | atomh (who : Requester) (addr : Nat) (op : AtomOp) (size : Nat) (operands : AtomArg) (ecc : HomeEcc)
  /-- SNPS (R277): An agent answers an SnpS snoop from its line state. -/
  | snps (agent line : Nat) (ecc : Ecc)
  /-- SNPX (R277): An agent answers an SnpX snoop, giving up the line. -/
  | snpx (agent line : Nat) (ecc : Ecc)
  /-- SNPINV (R277): An agent answers an SnpInv snoop, returning dirty data to the home. -/
  | snpinv (agent line : Nat) (ecc : Ecc)
  /-- SNPCUR (R277): An agent answers an SnpCur snoop, forwarding a copy and keeping its state. -/
  | snpcur (agent line : Nat) (ecc : Ecc)
  /-- RSPI (R279): The home receives RspI and serves the transaction from the home store or the WbM. -/
  | rspi (agent line : Nat)
  /-- RSPS (R277): The home receives RspS and supplies the data itself. -/
  | rsps (agent line : Nat)
  /-- RSPFWD (R276): The home receives RspFwd and updates the directory with the agent's new state. -/
  | rspfwd (agent line : Nat)
  /-- RSPWBPEND (R279): The home receives RspWbPend and waits for the writer's WbM to serve the transaction. -/
  | rspwbpend (agent line : Nat)
  /-- DATAHOME (R277): The home receives dirty data answering a snoop and writes it to the home store. -/
  | datahome (agent line : Nat)
  /-- DATA (R276): A requester receives the line with its grant. -/
  | data (agent line : Nat)
  /-- WBM (R278): The home accepts a dirty eviction, writes the home store and sends or defers WbAck. -/
  | wbm (agent line : Nat)
  /-- CMP (R276): A requester receives Cmp, ending the transaction at the home and installing the line when Data is also held. -/
  | cmp (agent line : Nat)
  /-- WBACK (R270): An agent receives WbAck, moving the line from WB_PEND to I and regaining a credit. -/
  | wback (agent line : Nat)
  /-- DONE (R275): The home receives Done, ending an RdS or RdX transaction and freeing the line. -/
  | done (agent line : Nat)
  /-- AGENT_EVICT (R270): An agent evicts a line, silently when clean or by sending WbM when dirty. -/
  | agentEvict (agent : Nat) (line : LineAt)
  /-- AGENT_ATOMIC (R281): An agent executes its own atomic on a line it holds in E or M. -/
  | agentAtomic (agent : Nat) (addr : AddrAt) (op : AtomOp) (size : Nat) (operands : List Byte)
  /-- AGENT_DEAD (R286): An agent is declared dead, its ports sink packets and the reclaim walk starts. -/
  | agentDead (agent : Nat)
  /-- RECLAIM_DONE (R289): The directory walk after an agent's death ends and RECLAIM_BUSY clears. -/
  | reclaimDone (tile : Nat)
  /-- AGENT_REJOIN (R289): A write of COH_REJOIN readmits a dead agent with every line in I, or is ignored during reclaim. -/
  | agentRejoin (src : Src) (tile : Nat) (agents : BitVec 6)
  /-- LOCK_WAYS_WRITE (R290): A write of COH_CFG.LOCK_WAYS clears LOCK_READY and starts vacating and zeroing the locked ways. -/
  | lockWaysWrite (src : Src) (tile ways : Nat)
  /-- LOCK_REGION_READY (R290): The locked ways are zeroed and LOCK_READY is set. -/
  | lockRegionReady (tile : Nat)
  /-- CORE_LOAD (R296): A server-core load is performed or raises a synchronous host-access error. -/
  | coreLoad (host core : Nat) (how : CoreHow) (pa len : Nat)
  /-- CORE_STORE (R296): A server-core store is performed or raises a synchronous or asynchronous host-access error. -/
  | coreStore (host core : Nat) (how : CoreHow) (pa : Nat) (data : List Byte)
  /-- CORE_ATOMIC (R296): A server-core atomic is performed or raises a host-access error. -/
  | coreAtomic (host core : Nat) (how : CoreHow) (pa : Nat) (op : AtomOp) (size : Nat) (operands : List Byte)
  /-- CORE_ACCESS_TIMEOUT (R296): A core access gets no response within CORE_TMO and raises syndrome 0x07. -/
  | coreAccessTimeout (host core pa : Nat) (load : Bool)
  /-- BIAS_FLIP (R303): A write of HOSTP_BIASFLIP changes a granule's bias, with host dies flushing the granule for a flip to device-owned. -/
  | biasFlip (src : Src) (value : BitVec 32)
  /-- BIAS_FLIP_DONE (R303): The host dies finish flushing a granule and BUSY clears. -/
  | biasFlipDone
  /-- BAR0_ACCESS (R306): An inbound TLP to a PF or VF BAR0 reaches register or context pages with the function's authority. -/
  | bar0Access (link fn off width : Nat) (write : Option (BitVec 64))
  /-- BAR2_ACCESS (R308): An inbound TLP to a BAR2 window is translated with the BASE in force and performed or refused. -/
  | bar2Access (link fn off len : Nat) (write : Option TlpData)
  /-- RP_INBOUND_REQUEST (R308): An inbound request from a device below a root port is accepted in the peer aperture or DMA ranges, or refused. -/
  | rpInboundRequest (link addr len : Nat) (write : Option (List Byte)) (poison : Bool)
  /-- PEER_WINDOW_WRITE (R309): A data write through a peer window is written to tier N, or discarded with ERR when outside the range. -/
  | peerWindowWrite (link win off : Nat) (data : List Byte) (poison : Bool)
  /-- PEER_WINDOW_READ (R309): A read through a peer window with RD set returns tier N data. -/
  | peerWindowRead (link win off len : Nat)
  /-- PEER_DOORBELL (R310): A write to a peer window's doorbell page adds to a tally once every earlier write of the link has completed. -/
  | peerDoorbell (link win off : Nat) (data : List Byte)
  /-- CXL_MEM_REQUEST (R305): An M2S CXL.mem request is performed in the HDM range as a non-caching request with SYSTEM authority. -/
  | cxlMemRequest (link addr len : Nat) (write : Option (List Byte))
  /-- CXL_H2D_SNOOP (R305): An H2D snoop is answered with RspIHitI. -/
  | cxlH2dSnoop (link addr : Nat)
  /-- PERST (R308): PERST_N assertion or link-down resets a link's PCIe and CXL state and fails its XHOST commands. -/
  | perst (link : Nat) (asserted : Bool)
  /-- LINK_TRAIN (R569): An EP host link trains and answers configuration requests once the function is configured. -/
  | linkTrain (link width speed : Nat)
  /-- HOSTL_VF_ENABLE (R307): A write enabling a VF entry takes effect only when its contexts pass the checks. -/
  | hostlVfEnable (src : Src) (link vf : Nat) (value : BitVec 32)
  /-- HOSTL_PEER_ENABLE (R309): A write enabling a peer window takes effect only when its range and context pass the checks. -/
  | hostlPeerEnable (src : Src) (link win : Nat) (value : BitVec 32)
  /-- INLINE_WRITE (R313): INLINE_WRITE writes up to 192 payload bytes to a virtual address after checking both lines. -/
  | inlineWrite (c : CmdId)
  /-- XHOST_READ (R314): XHOST_READ moves bytes from external-host memory to local memory. -/
  | xhostRead (c : CmdId) (resp : XhostResp)
  /-- XHOST_WRITE (R314): XHOST_WRITE moves bytes from local memory to external-host memory. -/
  | xhostWrite (c : CmdId) (resp : XhostResp)
  /-- HOSTD_RESET (R315): A write of HOSTD_CTL.RESET or watchdog expiry resets a host die, declaring its agent dead and putting DDR5 in self-refresh. -/
  | hostdReset (src : Src) (host : Nat)
  /-- MONITOR_WATCHDOG (R315): A host die's monitor-level watchdog expires and resets the die. -/
  | monitorWatchdog (host : Nat)
  /-- HOSTD_RESET_EXIT (R317): A host die leaves reset and its controllers exit self-refresh and retrain. -/
  | hostdResetExit (host : Nat)
  /-- TIER_F_ZERO_DONE (R318): Zeroing of tier F outside the retained region ends, the retention descriptor is written and TIERF_READY is set. -/
  | tierFZeroDone
  /-- JOB_RING_DOORBELL (R326): A write of a job ring's doorbell advances its tail. -/
  | jobRingDoorbell (src : Src) (host ring : Nat) (tail : BitVec 16)
  /-- SAMPLE_BATCH (R329): A SAMPLE_BATCH job is fetched, checked and its positions started. -/
  | sampleBatch (host ring : Nat)
  /-- JOB_NOP (R328): A NOP sample job completes without action. -/
  | jobNop (host ring : Nat)
  /-- CANDIDATE_START (R327): A decoder grants a candidate from a job ring and reads its index entry and cache slot header. -/
  | candidateStart (host ring position : Nat)
  /-- CANDIDATE_DECODE_DONE (R334): A candidate's decode finishes, delivering an image or rejecting it with a cause. -/
  | candidateDecodeDone (host ring position : Nat)
  /-- CACHE_SLOT_CLAIM (R342): A decoded candidate claims a free cache slot by CAS and writes the image and header. -/
  | cacheSlotClaim (host ring position : Nat)
  /-- CROP (R337): Augmentation crop at a drawn offset. -/
  | crop (host ring position : Nat)
  /-- CENTER_CROP (R337): Augmentation crop at the centre. -/
  | centerCrop (host ring position : Nat)
  /-- FLIP_H (R337): Augmentation horizontal mirror when the draw bit is 1. -/
  | flipH (host ring position : Nat)
  /-- RESIZE (R338): Augmentation bilinear resize in fixed point. -/
  | resize (host ring position : Nat)
  /-- BRIGHT (R337): Augmentation adds a drawn brightness offset to every sample. -/
  | bright (host ring position : Nat)
  /-- TIME_CROP (R337): Augmentation keeps T frames from a drawn start frame. -/
  | timeCrop (host ring position : Nat)
  /-- NORM (R337): Augmentation normalises each channel and narrows to the output format. -/
  | norm (host ring position : Nat)
  /-- POSITION_WRITE (R331): A position's output slot and sample record are written and the job completes when all positions are done. -/
  | positionWrite (host ring position : Nat)
  /-- CACHE_GEN_WRITE (R343): A write of CACHE_CFG.GEN makes every cache slot free. -/
  | cacheGenWrite (src : Src) (host ring : Nat) (gen : BitVec 8)
  /-- INP_PTPSTEP (R346): A write of INP_PTPSTEP adds a signed step to the local PTP clock. -/
  | inpPtpstep (src : Src) (host : Nat) (step : BitVec 32)
  /-- SOURCE_DESCRIPTOR_READ (R348): A new frame descriptor of a source is read and classified to an instant or dropped. -/
  | sourceDescriptorRead (host source : Nat)
  /-- INSTANT_CLOSE (R349): A fusion instant closes, its fused record is written and the group's tally rises. -/
  | instantClose (host group : Nat)
  /-- GROUP_ENABLE (R350): A write enabling a sensor group takes effect when its checks pass. -/
  | groupEnable (src : Src) (host group : Nat) (value : BitVec 32)
  /-- SOURCE_ENABLE (R350): A write enabling a sensor source takes effect when its checks pass. -/
  | sourceEnable (src : Src) (host source : Nat) (value : BitVec 32)
  /-- FLIT_TRANSMIT (R367): A transmit port chooses and sends its next flit, holding credit for its VC. -/
  | flitTransmit (port : Nat)
  /-- FLIT_TRANSIT (R366): A flit passing through a package is routed to its next port without entering memory. -/
  | flitTransit (port : Nat) (flit : Flit)
  /-- FLIT_RECEIVE (R357): A receiver accepts a numbered flit in LSEQ order with good CRC, or discards it and sends NAK. -/
  | flitReceive (port : Nat) (flit : Flit) (crcOk : Bool)
  /-- ACK (R357): A LINK ACK flit reports LACK, releasing replay-buffer entries. -/
  | ack (port : Nat) (flit : Flit)
  /-- NAK (R357): A LINK NAK flit makes the transmitter resend from the flit after LACK. -/
  | nak (port : Nat) (flit : Flit)
  /-- CREDIT (R358): A LINK CREDIT flit returns credits for a VC. -/
  | credit (port vc credits : Nat)
  /-- ACK_TIMER (R357): A receiver with nothing else to send reports LACK in an ACK flit every 0.5 µs. -/
  | ackTimer (port : Nat)
  /-- RD (R369): A remote-window read request flit. -/
  | rd (flit : Flit)
  /-- WR (R369): A remote-window whole-line write request flit. -/
  | wr (flit : Flit)
  /-- WRPART_FLIT (R369): A remote-window partial write request flit. -/
  | wrpartFlit (flit : Flit)
  /-- ATOM (R370): A remote-window atomic request, answered from the ATOM table when repeated. -/
  | atom (flit : Flit)
  /-- RDATA (R369): A remote read response carrying the line. -/
  | rdata (flit : Flit)
  /-- WACK (R369): A remote write acknowledgement. -/
  | wack (flit : Flit)
  /-- AACK (R369): A remote atomic response carrying the prior value. -/
  | aack (flit : Flit)
  /-- REFUSE (R369): A remote response carrying the receiver's WINDOW_FAULT. -/
  | refuse (flit : Flit)
  /-- FAIL (R586): A remote response carrying ADDR_HOLE, TIER_ERROR or FOLD_RESET, treated as an error response. -/
  | fail (flit : Flit)
  /-- REQ_RESEND_TIMEOUT (R370): A REQ without response for XTMO µs is resent with the same TID, up to XRETRY times. -/
  | reqResendTimeout (tid : Nat)
  /-- ATOM_TABLE_EXPIRE (R370): An ATOM result entry is dropped after 1 ms. -/
  | atomTableExpire (srcPkg tid : Nat)
  /-- LANE_FAIL (R359): A receiver declares a physical lane failed, stops accepting flits and sends SPARE_REQ. -/
  | laneFail (port lane cause : Nat)
  /-- SPARE_REQ (R359): The peer transmitter receives SPARE_REQ, moves the logical lane to the spare and answers SPARE_ACK. -/
  | spareReq (port lane : Nat)
  /-- SPARE_ACK (R359): The receiver gets SPARE_ACK and begins aligning the spare lane. -/
  | spareAck (port : Nat)
  /-- SPARE_ALIGNED (R359): The spare lane is aligned and the receiver resumes with a NAK. -/
  | spareAligned (port : Nat)
  /-- PORT_DOWN (R360): A port goes down until package reset and traffic moves to the pair's other port. -/
  | portDown (port cause lane : Nat)
  /-- PAIR_RETIRE (R394): A write of 1 to a FAB_LINK.DOWN bit retires a port pair. -/
  | pairRetire (src : Src) (bits : BitVec 8)
  /-- TEAM_ENABLE (R377): A write enabling a team entry takes effect when its checks pass. -/
  | teamEnable (src : Src) (team : Nat) (value : BitVec 32)
  /-- ALLREDUCE (R382): ALLREDUCE gives every member the exact-record reduction of every contribution. -/
  | allreduce (c : CmdAns)
  /-- REDUCE_SCATTER (R382): REDUCE_SCATTER gives rank r shard r of the reduction. -/
  | reduceScatter (c : CmdAns)
  /-- ALLGATHER (R386): ALLGATHER gives every member every input in rank order, widened as requested. -/
  | allgather (c : CmdAns)
  /-- BROADCAST (R386): BROADCAST gives every member ROOT's input. -/
  | broadcast (c : CmdAns)
  /-- ALLTOALL (R387): ALLTOALL exchanges counts and places addressed slices at each receiver. -/
  | alltoall (c : CmdAns)
  /-- COLLECTIVE_LAUNCH (R381): A collective with LAUNCH begins sending at its Herd tick. -/
  | collectiveLaunch (team : Nat) (cseq : ColAt)
  /-- COL_DATA (R388): A collective data chunk arrives, is deduplicated, added or placed, and acknowledged. -/
  | colData (flit : Flit)
  /-- CHUNK_ACK (R388): A chunk acknowledgement arrives and stops that chunk's resend timer. -/
  | chunkAck (flit : Flit)
  /-- COUNTS (R387): An ALLTOALL COUNTS flit gives a receiver a sender's slice length. -/
  | counts (flit : Flit)
  /-- BEACON (R390): A BEACON flit carries the laggard mark for an active collective. -/
  | beacon (flit : Flit)
  /-- ABORT (R391): An ABORT flit completes the collective with PEER_FAILED and is forwarded once. -/
  | abort (flit : Flit)
  /-- CHUNK_RESEND_TIMEOUT (R388): A chunk without acknowledgement for XTMO µs is resent. -/
  | chunkResendTimeout (team cseq chunk : Nat)
  /-- BEACON_TIMER (R390): A laggard with no other flit for an active collective sends a BEACON every 10 µs. -/
  | beaconTimer (team cseq : Nat)
  /-- COLLECTIVE_DEADLINE (R389): A collective's deadline passes and the awaited member is declared failed. -/
  | collectiveDeadline (team cseq rank : Nat)
  /-- STEP_SET (R397): STEP_SET writes the context's step index now or stages it for a tick. -/
  | stepSet (c : CmdId)
  /-- STEP_SET_APPLY (R397): A staged STEP_SET is written when its tick edge reaches the home tile. -/
  | stepSetApply (ctx : Nat)
  /-- SEED_WRITE (R396): A write of CTX_SEED is applied while the context is disabled, otherwise refused with SEED_REFUSED. -/
  | seedWrite (src : Src) (ctx : Nat) (hi : Bool) (value : BitVec 32)
  /-- ETCH_RUN (R401): ETCH_RUN streams a shard through an Etch microprogram, or enters the run pool when it carries a wait condition. -/
  | etchRun (c : CmdAns)
  /-- ETCH_BLOCK (R404): An Etch unit processes one 64-element block through phases A, B and C and writes back its streams. -/
  | etchBlock (tile unit : Nat) (resp : LineResp)
  /-- ETCH_ADD (R406): Etch instruction ADD. -/
  | etchAdd (tile unit d a b : Nat)
  /-- ETCH_SUB (R406): Etch instruction SUB. -/
  | etchSub (tile unit d a b : Nat)
  /-- ETCH_MUL (R406): Etch instruction MUL. -/
  | etchMul (tile unit d a b : Nat)
  /-- ETCH_FMA (R406): Etch instruction FMA, rounded once. -/
  | etchFma (tile unit d a b c : Nat)
  /-- ETCH_MIN (R406): Etch instruction MIN. -/
  | etchMin (tile unit d a b : Nat)
  /-- ETCH_MAX (R406): Etch instruction MAX. -/
  | etchMax (tile unit d a b : Nat)
  /-- ETCH_DIV (R406): Etch instruction DIV. -/
  | etchDiv (tile unit d a b : Nat)
  /-- ETCH_SQRT (R406): Etch instruction SQRT. -/
  | etchSqrt (tile unit d a : Nat)
  /-- ETCH_RSQRT (R406): Etch instruction RSQRT. -/
  | etchRsqrt (tile unit d a : Nat)
  /-- ETCH_RCP (R406): Etch instruction RCP. -/
  | etchRcp (tile unit d a : Nat)
  /-- ETCH_ABS (R406): Etch instruction ABS. -/
  | etchAbs (tile unit d a : Nat)
  /-- ETCH_NEG (R406): Etch instruction NEG. -/
  | etchNeg (tile unit d a : Nat)
  /-- ETCH_SEL (R406): Etch instruction SEL. -/
  | etchSel (tile unit d a b c : Nat)
  /-- ETCH_SIGN (R406): Etch instruction SIGN. -/
  | etchSign (tile unit d a : Nat)
  /-- ETCH_MOV (R406): Etch instruction MOV. -/
  | etchMov (tile unit d a : Nat)
  /-- WSQ (R408): Etch instruction that adds the exact square of its operand to the run's norm record. -/
  | wsq (tile unit a : Nat)
  /-- BMAXABS (R406): Etch block instruction giving the largest magnitude over the block's lanes. -/
  | bmaxabs (tile unit d a : Nat)
  /-- BSUM (R406): Etch block instruction summing 64 lanes by a fixed tree. -/
  | bsum (tile unit d a : Nat)
  /-- RUN_POOL_READY (R413): A run-pool entry's wait condition is met and a free Etch unit takes it, or it completes with the failed collective's code. -/
  | runPoolReady (tile : Nat)
  /-- ETCH_COMBINE (R411): ETCH_COMBINE combines window records and writes the rounded FP32 result. -/
  | etchCombine (c : CmdAns)
  /-- STATE_EXPORT (R415): STATE_EXPORT writes an export image of a shard's elements and scales. -/
  | stateExport (c : CmdAns)
  /-- STATE_IMPORT (R416): STATE_IMPORT checks an export image and copies its overlap into a shard. -/
  | stateImport (c : CmdAns)
  /-- SEQ_RUN (R417): SEQ_RUN starts the context's pipeline sequencer for one step. -/
  | seqRun (c : CmdId)
  /-- SEQ_RELEASE_FORWARD (R418): The sequencer releases a forward pass when the activation budget allows. -/
  | seqReleaseForward (ctx : Nat)
  /-- SEQ_RELEASE_BACKWARD (R418): The sequencer releases the next backward pass once its forward pass is done. -/
  | seqReleaseBackward (ctx : Nat)
  /-- SEQ_EVAL_RELEASE (R420): The sequencer raises EVAL_TALLY once every backward pass and the optimiser signals are done, and completes. -/
  | seqEvalRelease (ctx : Nat)
  /-- OP_REQ_WRITE (R431): A write of PWR_DIE_CTL.OP_REQ requests an operating point, applied when nothing slower holds. -/
  | opReqWrite (src : Src) (die op : Nat)
  /-- VOLTAGE_STEP (R432): A die moving between operating points changes its voltage by 20 mV every 2 µs, switching frequency at the ends. -/
  | voltageStep (die : Nat)
  /-- DROOP (R433): A die's supply falls below threshold and it suppresses every fourth clock edge. -/
  | droop (die : Nat)
  /-- DROOP_END (R433): The supply stays above threshold for 64 cycles and full frequency returns. -/
  | droopEnd (die stretched : Nat)
  /-- PWR_ALERT (R434): PWR_ALERT_N sampled low forces every C-die to OP15 frequency and limits the server cores. -/
  | pwrAlert
  /-- PWR_ALERT_RELEASE (R435): PWR_ALERT_N high for 10 µs clears ALERT and sets CEIL_CAP to OP15. -/
  | pwrAlertRelease (us : Nat)
  /-- PWR_CAP_NEXT_WRITE (R436): A write of PWR_CAP_NEXT stages a clamped cap for its tick. -/
  | pwrCapNextWrite (src : Src) (watts : BitVec 12)
  /-- CAP_APPLY (R436): A pending cap becomes PWR_CAP at its tick edge and the cap loop decides at once. -/
  | capApply
  /-- CAP_DECISION (R437): Each period the cap loop moves CEIL_CAP or DUTY from the averaged package power. -/
  | capDecision (watts : Nat)
  /-- TEMP_SENSOR_READ (R441): Every 10 µs each die, tile and host die reads its hottest junction sensor. -/
  | tempSensorRead (unit : TempUnit) (temp : Nat)
  /-- THERMAL_CEILING_UPDATE (R441): Each period a C-die's thermal ceiling moves one step from its junction temperature. -/
  | thermalCeilingUpdate (die : Nat)
  /-- THERMAL_TRIP (R442): A trip reading stops all compute clocks, asserts THERM_TRIP_N and records PWR_TRIP. -/
  | thermalTrip (source unit temp : Nat)
  /-- CAL_WRITE (R447): A write of PWR_DIE_CTL.CAL runs the calibration load on a fold-free die, or is ignored and counted. -/
  | calWrite (src : Src) (die : Nat) (on : Bool)
  /-- MARGIN_WRITE (R448): A write of PWR_VMARGIN sets an operating point's voltage margin, limited to 0.95 V. -/
  | marginWrite (src : Src) (die op margin : Nat)
  /-- OP_RETIRE (R449): A write of PWR_OPRETIRE retires an operating point and every faster one. -/
  | opRetire (src : Src) (die : Nat) (bits : BitVec 15)
  /-- SLACK_REFRESH (R446): Every 1 µs the critical-path monitors refresh SLACK and LOW. -/
  | slackRefresh (die slack : Nat)
  /-- HOUR_TICK (R453): Each powered hour the part adds 1 to PWR_DIE_HOURS. -/
  | hourTick
  /-- QUEUE_WATCH_EXPIRE (R457): A held queue head or run-pool entry reaches QUEUE_MS and completes with TIMEOUT. -/
  | queueWatchExpire (c : CmdId)
  /-- STREAM_WATCH_EXPIRE (R457): A stalled translation stream reaches STREAM_MS and the access's command completes with TIMEOUT. -/
  | streamWatchExpire (stream : StreamId)
  /-- RUN_WATCH_EXPIRE (R457): A PEN_RUN reaches RUN_MS; its cores stop and it completes with TIMEOUT. -/
  | runWatchExpire (c : CmdId)
  /-- UNIT_WATCH_EXPIRE (R459): A unit makes no progress for UNIT_US; its command times out and the unit is reset and logged. -/
  | unitWatchExpire (unit : UnitId) (again : Bool)
  /-- AGENT_WATCH_EXPIRE (R457): An agent owes a snoop answer for AGENT_US and is declared dead. -/
  | agentWatchExpire (tile agent : Nat)
  /-- HUB_WATCH_EXPIRE (R461): An urgent stalled packet waits HUB_MS and raises a fold-reach or package-fatal fault. -/
  | hubWatchExpire (tile id : Nat)
  /-- LINK_WATCH_EXPIRE (R457): A port's LACK does not advance for LINK_MS and the port goes down. -/
  | linkWatchExpire (port : Nat)
  /-- DIE_OFFLINE_WRITE (R462): A write of FLT_OFFLINE takes a C-die offline and raises a fold-reach fault on its fold. -/
  | dieOfflineWrite (src : Src) (dies : BitVec 16)
  /-- FOLD_FATAL (R464): A fold-reach fault with AUTO = 0 stops the fold's queues and sets FLT_FOLDFATAL. -/
  | foldFatal (fold cause unit detail : Nat)
  /-- FOLD_RESET (R465): A fold-reach fault with AUTO = 1 or a write of FLT_FOLDRST starts a fold reset and its Stop phase. -/
  | foldReset (src : Src) (folds : BitVec 16) (trigger : Option FaultTrigger)
  /-- FOLD_ABORT_DONE (R465): Every unit running the fold's work has stopped, ending the Abort phase. -/
  | foldAbortDone (fold : Nat)
  /-- FOLD_CAPTURE_DONE (R471): The fold's capture area has been written or skipped. -/
  | foldCaptureDone (fold : Nat)
  /-- FOLD_DRAIN_DONE (R465): Every outstanding request of the fold has ended and its commands have posted FOLD_RESET. -/
  | foldDrainDone (fold : Nat)
  /-- DRAIN_LIMIT_EXPIRE (R468): DRAIN_LIMIT runs out and controllers remove the fold's queued requests as FOLD_RESET. -/
  | drainLimitExpire (fold removed : Nat)
  /-- FOLD_CLEAR_DONE (R466): The fold's stores are cleared and arrays checked; the fold is released and a FOLD_RESET entry logged. -/
  | foldClearDone (fold : Nat)
  /-- PACKAGE_FATAL (R474): A package-fatal fault asserts FAULT_N, freezes work, aborts collectives and interrupts the PMCs. -/
  | packageFatal (cause : Nat)
  /-- FATAL_TIMEOUT (R475): FATAL_MS passes without a PKG_RESET write and the part resets itself. -/
  | fatalTimeout
  /-- PKG_RESET_WRITE (R475): A PMC write of FLT_CTL.PKG_RESET resets the package after a fatal fault. -/
  | pkgResetWrite (src : Src)
  /-- TICK_FRAME (R492): A member receives a tick frame, checks its CRC, corrects its Herd counter and acts on barriers and message. -/
  | tickFrame (head : Bool) (frame : List Byte) (bad : Bool)
  /-- HERD_LOCK_LOSS (R497): A member loses input lock, holds its output clock and transmits HOLD. -/
  | herdLockLoss (head : Bool)
  /-- HERD_RELOCK (R497): A member regains input lock and slews its output phase to the recovered input. -/
  | herdRelock (head : Bool)
  /-- HOLD_RECEIVED (R498): The master receives HOLD or loses lock and starts its wait for a recount. -/
  | holdReceived (head : Bool)
  /-- RECOUNT_START (R498): The master sends a phase-1 RCNT frame at the first qualifying tick edge. -/
  | recountStart (head : Bool)
  /-- RECOUNT_PHASE1 (R499): A phase-1 RCNT frame gives each member its position and nominal delay sum, and returns to the master. -/
  | recountPhase1 (head : Bool) (frame : List Byte) (bad : Bool) (loop : Nat)
  /-- RECOUNT_PHASE2 (R499): A phase-2 RCNT frame gives each member its position delay; on its return tick frames resume. -/
  | recountPhase2 (head : Bool) (frame : List Byte) (bad : Bool)
  /-- STANDBY_TAKEOVER (R486): A standby member with no TICK or RCNT for 64 ticks becomes acting master. -/
  | standbyTakeover (head : Bool)
  /-- HOLDOVER_ENTER (R495): A package with no good tick frame for 4 ticks enters holdover. -/
  | holdoverEnter (head : Bool)
  /-- HERD_JOIN (R484): A write of HERD_CTL.JOIN asserts or drops HERD_EN, opening or closing the slot's bypass. -/
  | herdJoin (src : Src) (head join : Bool)
  /-- HERD_TIME_WRITE (R491): A master's write of HERD_TIME moves the counter, applying skipped events or leaving future ones waiting. -/
  | herdTimeWrite (src : Src) (value : BitVec 64)
  /-- EVENT_ARM (R501): A write of an event entry's CTRL with ARM = 1 arms it, or sets EVT_ERR when malformed. -/
  | eventArm (src : Src) (entry : Nat) (ctrl : BitVec 32)
  /-- EVENT_DISARM (R501): A W1C write to HERD_EVTVALID disarms event entries. -/
  | eventDisarm (src : Src) (bits : BitVec 32)
  /-- EVENT_REG_WRITE (R583): An armed REG_WRITE entry applies a masked register write with SYSTEM authority at its tick. -/
  | eventRegWrite (entry : Nat)
  /-- EVENT_TALLY_ADD (R501): An armed TALLY_ADD entry adds to a context's tally at its tick. -/
  | eventTallyAdd (entry : Nat)
  /-- EVENT_IRQ (R501): An armed IRQ entry raises an interrupt with its code at its tick. -/
  | eventIrq (entry : Nat)
  /-- BARRIER_ARRIVE (R503): A write of HERD_BAR_n.ARRIVE marks a barrier entry arrived. -/
  | barrierArrive (src : Src) (bar : Nat)
  /-- BARRIER_RELEASE (R503): At a barrier's release tick each member with an entry adds to its tally and clears ARRIVE. -/
  | barrierRelease (bid tick : Nat)
  /-- BARRIER_SLOT_EXPIRE (R503): A barrier slot not completed within 4,096 ticks is emptied by the master. -/
  | barrierSlotExpire (head : Bool) (slot : Nat)
  /-- MSG_SEND (R505): A write of HERD_MSGCTL.SEND inserts the outbox message into an empty MSG field. -/
  | msgSend (src : Src)
  /-- MSG_RETURN (R505): A message returns to its sender, which posts its STATE or resends it. -/
  | msgReturn (state : Nat) (bad : Bool)
  /-- MSG_IN_POP (R505): A write of IN_POP removes the oldest inbox entry. -/
  | msgInPop (src : Src)
  /-- MSG_REG_WRITE (R506): A REG_WRITE message is placed into a free event entry. -/
  | msgRegWrite (msg : List Byte)
  /-- MSG_REG_READ (R506): A REG_READ message is answered with register values and Herd time. -/
  | msgRegRead (msg : List Byte)
  /-- MSG_EVENT (R506): An EVENT message is placed into a free event entry. -/
  | msgEvent (msg : List Byte)
  /-- MSG_CAP (R506): A CAP message writes PWR_CAP_TICK then PWR_CAP_NEXT. -/
  | msgCap (msg : List Byte)
  /-- MSG_EPOCH (R506): An EPOCH message stages a configuration epoch switch. -/
  | msgEpoch (msg : List Byte)
  /-- MSG_DIGEST (R506): A DIGEST message reports an epoch's digest to the Bellwether. -/
  | msgDigest (msg : List Byte)
  /-- MSG_FENCE (R506): A FENCE message fences folds or the package. -/
  | msgFence (msg : List Byte)
  /-- MSG_UNFENCE (R506): An UNFENCE message clears fences. -/
  | msgUnfence (msg : List Byte)
  /-- MSG_FIRMWARE (R506): A firmware-type message is delivered to the inbox for the crook holder. -/
  | msgFirmware (msg : List Byte)
  /-- EPOCH_STAGE (R507): A write of HERD_EPOCH_TICK_HI.PEND stages an epoch switch and holds writes to covered fields. -/
  | epochStage (src : Src)
  /-- EPOCH_SWITCH (R509): At the switch tick the held writes apply, the epoch and digest are set and compared, and DIGEST is sent. -/
  | epochSwitch
  /-- HERD_FENCE_WRITE (R510): A write of HERD_FENCE fences or unfences folds or the package. -/
  | herdFenceWrite (src : Src) (folds : BitVec 16) (pkg : Bool)
  /-- CROOK_CAS (R511): A PMC's write of CROOK_CAS takes or releases the crook, or fails. -/
  | crookCas (pmc expect new : Nat)
  /-- RENEW (R511): The owner's write of CROOK_CTL.RENEW restarts the lease. -/
  | renew (pmc : Nat)
  /-- LEASE_EXPIRE (R511): The crook lease expires and OWNER becomes none. -/
  | leaseExpire
  /-- RAILCTL_FRAME (R546): A rail-control frame sets a C-die regulator's voltage, or is discarded on a bad CRC or reserved command. -/
  | railctlFrame (bus : Nat) (frame : BitVec 24)
  /-- POWER_UP (R551): PWR_ON high with AON settled starts the power-up sequence at step U1. -/
  | powerUp
  /-- POWER_UP_STEP_DONE (R551): A power-up step's rails are in window and the next step starts. -/
  | powerUpStepDone
  /-- RAIL_WINDOW_TIMEOUT (R552): A rail misses its window time or leaves it during power-up, and every rail is dropped. -/
  | railWindowTimeout (rail : Nat)
  /-- POWER_DOWN (R553): PWR_ON falling asserts internal reset and starts the power-down steps. -/
  | powerDown
  /-- POWER_DOWN_STEP_DONE (R553): A power-down step's rails are off and the next step starts. -/
  | powerDownStepDone
  /-- RAIL_OFF_TIMEOUT (R553): A rail not off within 5 ms of its step is a fault and the remaining enables drop. -/
  | railOffTimeout (rail : Nat)
  /-- RAIL_OUT_OF_WINDOW (R555): A rail out of window for 20 µs in service drops every rail and asserts FAULT_N. -/
  | railOutOfWindow (rail : Nat)
  /-- TAMPER (R180): TAMPER_N asserted wipes the keep regions and cancels retention of tier F. -/
  | tamper
  /-- PKG_RESET (R558): PKG_RESET_N asserted starts a package reset with rails kept up, keeping only the always-on domain and retained region. -/
  | pkgReset
  /-- BOOT_START (R568): PKG_RESET_N deasserted on a powered part starts both boot ROMs. -/
  | bootStart
  /-- BOOT_IMAGE_VERIFY (R563): A boot ROM reads and verifies an image from the flash slots and runs the first valid one, or enters recovery. -/
  | bootImageVerify (pmc chip slot : Nat) (image : List Byte) (sigOk keyOk : Bool)
  /-- RECOVERY_IMAGE (R563): A PMC in recovery receives a new image over PLDM, verifies it and writes it to slot B. -/
  | recoveryImage (pmc : Nat) (image : List Byte) (sigOk keyOk : Bool)
  /-- INTERCONNECT_TEST_DONE (R566): The interconnect test of every link ends, with spares steered and unrepaired groups acted on. -/
  | interconnectTestDone (results : List LinkTest)
  /-- HBM_TRAINING_DONE (R568): HBM4 training ends and failed pseudo-channels are set in MEMMAP_CHOUT. -/
  | hbmTrainingDone (failed : List Nat)
  /-- DDR5_TRAINING_DONE (R299): DDR5 training ends, used channels are chosen and PKG_TIERF is written, or boot fails. -/
  | ddr5TrainingDone (trained : List (Nat × Nat × Nat))
  /-- LCS_REQUEST (R560): A secure PMC write of PKG_LCS_REQ.GO stages a life-cycle change for the next package reset. -/
  | lcsRequest (src : Src) (target : Nat)
  /-- SVN_BUMP (R563): A write of PKG_LCS_REQ.SVN_BUMP raises SVN_MIN by 1 at the next package reset. -/
  | svnBump (src : Src)
  /-- NAREG_PORT_UP (R568): A Nareg port enabled by firmware finishes training and NP_STS.UP is set, about 250 ms after enable. -/
  | naregPortUp (port : Nat)
  /-- ALWAYS_ON_RAIL_FALL (R462): The AON rail falls, clearing the always-on domain: the fault log, FLT_OFFLINE, PWR_TRIP, HOSTP_RET and the THERM_TRIP_N assertion. -/
  | alwaysOnRailFall
  /-- INP_SOURCE_READ_TIMEOUT (R344): A source read of an input engine waits INP_CFG.TMO µs without a response, and its SAMPLE_BATCH heads for TIER_ERROR. -/
  | inpSourceReadTimeout (host ring position : Nat)
  /-- JTAG_DEBUG_ACCESS (R166): A JTAG or IEEE 1687 debug access reads or writes a store at class 5, with keep-region reads returning zero and poisoned reads logged. -/
  | jtagDebugAccess (die store off len : Nat) (write : Option (List Byte))
  /-- PMC_MEMORY_ACCESS (R179): A management controller reads or writes memory or a store, with keep-region access only in secure mode and guarded writes refused to a non-owner. -/
  | pmcMemoryAccess (pmc : Nat) (secure : Bool) (pa len : Nat) (write : Option (List Byte))
  /-- GROUP_PAGE_READ (R525): A read of a group page returns the combined or lowest-member value and sets or clears STS.DIFFER. -/
  | groupPageRead (src : Src) (page off : Nat)
  /-- PAIR_LO_READ (R536): A read of the _LO word of a 64-bit pair such as HERD_TIME, TALLY_VAL or an energy account latches its _HI word. -/
  | pairLoRead (src : Src) (page off : Nat)
  /-- HOST_DIE_RETRAIN_DONE (R317): The DDR5 controllers of a host die leaving reset finish their self-refresh exit and retraining, and its tier F lines are served again. -/
  | hostDieRetrainDone (host : Nat)
  deriving DecidableEq, Repr

end Sys2Proof
end

