-- ==== Sys2Proof/Decode.lean ====
section
/-! DEFINITION. The command a table word spells. The spec's table of operations and events gives no row any
bits (opcode_table.json: every `fields` list is empty), so there is no such word. -/

namespace Sys2Proof

/-- No row of the table has bits: no word spells a command. -/
def decodeTableWord (_nbits _w : Nat) : Option Instr := none

end Sys2Proof
end

