-- ==== Sys2Proof/Machine/Bits.lean ====
section
/-! DEFINITION. Bit fields, little-endian byte strings and the sparse map's operations (R7, R8). -/

namespace Sys2Proof.Machine

open Sys2Proof

/-- The thing at number `k`, if there is one. -/
def mget {α : Type} : FMap α → Nat → Option α
  | [], _ => none
  | (j, v) :: t, k => if j = k then some v else mget t k

/-- The thing at number `k`, or `d`. -/
def mgetD {α : Type} (m : FMap α) (k : Nat) (d : α) : α := (mget m k).getD d

/-- Put `v` at number `k`, keeping the numbers rising. -/
def mput {α : Type} : FMap α → Nat → α → FMap α
  | [], k, v => [(k, v)]
  | (j, w) :: t, k, v =>
    if k < j then (k, v) :: (j, w) :: t
    else if j = k then (k, v) :: t
    else (j, w) :: mput t k v

/-- Take number `k` out. -/
def mdel {α : Type} (m : FMap α) (k : Nat) : FMap α := m.filter fun p => p.1 != k

/-- Keep the entries whose number meets `p`. -/
def mkeep {α : Type} (m : FMap α) (p : Nat → Bool) : FMap α := m.filter fun e => p e.1

/-- Bits [hi:lo] of `x` (R7: bit 0 is least significant). -/
def bits (x hi lo : Nat) : Nat := x / 2 ^ lo % 2 ^ (hi + 1 - lo)

/-- `x` with bits [hi:lo] replaced by `v`. -/
def setBits (x hi lo v : Nat) : Nat :=
  x - bits x hi lo * 2 ^ lo + v % 2 ^ (hi + 1 - lo) * 2 ^ lo

/-- The number a little-endian byte string holds (R8). -/
def leNat : List Byte → Nat
  | [] => 0
  | b :: t => b.toNat + 256 * leNat t

/-- The `n` low bytes of `x`, little-endian (R8). -/
def leBytes : Nat → Nat → List Byte
  | 0, _ => []
  | n + 1, x => BitVec.ofNat 8 x :: leBytes n (x / 256)

/-- Bytes `off` to `off + n - 1` of a byte string, zero past its end. -/
def slice (bs : List Byte) (off n : Nat) : List Byte :=
  let t := (bs.drop off).take n
  t ++ List.replicate (n - t.length) 0

/-- The little-endian field of `n` bytes at offset `off`. -/
def field (bs : List Byte) (off n : Nat) : Nat := leNat (slice bs off n)

/-- Bit `i` as a number. -/
def bitN (b : Bool) : Nat := if b then 1 else 0

/-- The number of set bits among bits [n-1:0] of `x`. -/
def popcount : Nat → Nat → Nat
  | 0, _ => 0
  | n + 1, x => x % 2 + popcount n (x / 2)

/-- The positions of the set bits among bits [n-1:0] of `x`, ascending. -/
def setBitsOf (n x : Nat) : List Nat := (List.range n).filter fun i => x.testBit i

/-- `x` rounded up to a multiple of `m`. -/
def roundUp (x m : Nat) : Nat := (x + m - 1) / m * m

/-- `x` as an `n`-bit two's-complement number. -/
def toSigned (n x : Nat) : Int :=
  if x % 2 ^ n < 2 ^ (n - 1) then Int.ofNat (x % 2 ^ n) else Int.ofNat (x % 2 ^ n) - 2 ^ n

/-- The low `n` bits of an integer's two's complement. -/
def ofSigned (n : Nat) (x : Int) : Nat := (x % 2 ^ n).toNat

/-- Replace the element at place `i` (nothing past the end). -/
def lset {α : Type} : List α → Nat → α → List α
  | [], _, _ => []
  | _ :: t, 0, v => v :: t
  | a :: t, i + 1, v => a :: lset t i v

/-- The element at place `i`, or `d`. -/
def lget {α : Type} (l : List α) (i : Nat) (d : α) : α := l.getD i d

end Sys2Proof.Machine
end

