-- ==== Sys2Proof/Machine/Fp.lean ====
section
/-! DEFINITION. Exact values and the roundings of the part: decoding of every element and scale format
(R57 to R61), RNE and SR (R65, R66), narrowing (R67), FP32 arithmetic (R54 to R56) and the Stipple
generator (R87). Finite values are exact fractions; nothing rounds but where the manual says so. -/

namespace Sys2Proof.Machine

open Sys2Proof

/-- A real number, infinity or NaN; a finite value is ± n / d with d > 0, and a zero keeps its sign. -/
inductive FpV where
  | nan
  | inf (neg : Bool)
  | fin (neg : Bool) (n d : Nat)
  deriving DecidableEq, Repr

/-- A floating format: exponent bits, mantissa bits, bias, and how it spends its top exponent (R58). -/
structure FFmt where
  eb : Nat
  mb : Nat
  bias : Nat
  /-- infinity and NaN as in IEEE 754 -/
  ieee : Bool
  /-- E4M3: only the all-ones code is NaN -/
  topNan : Bool
  deriving DecidableEq, Repr

def fFP32 : FFmt := ⟨8, 23, 127, true, false⟩
def fBF16 : FFmt := ⟨8, 7, 127, true, false⟩
def fFP16 : FFmt := ⟨5, 10, 15, true, false⟩
def fE4M3 : FFmt := ⟨4, 3, 7, false, true⟩
def fE5M2 : FFmt := ⟨5, 2, 15, true, false⟩
def fE2M3 : FFmt := ⟨2, 3, 1, false, false⟩
def fE3M2 : FFmt := ⟨3, 2, 3, false, false⟩
def fE2M1 : FFmt := ⟨2, 1, 1, false, false⟩
/-- UE4M4 has no sign; its magnitudes are those of a 4-bit exponent, 4-bit mantissa format (R60). -/
def fUE4M4 : FFmt := ⟨4, 4, 7, false, true⟩

/-- Bits of a format below the sign. -/
def magBits (f : FFmt) : Nat := f.eb + f.mb

/-- The code of the largest finite magnitude (R58). -/
def maxFinite (f : FFmt) : Nat :=
  if f.ieee then (2 ^ f.eb - 1) * 2 ^ f.mb - 1
  else if f.topNan then 2 ^ magBits f - 2 else 2 ^ magBits f - 1

/-- The magnitude n/d of a magnitude code (R58). -/
def magValue (f : FFmt) (c : Nat) : Nat × Nat :=
  let e := c / 2 ^ f.mb
  let m := c % 2 ^ f.mb
  let sig := if e = 0 then m else m + 2 ^ f.mb
  let ee := max e 1
  if f.bias + f.mb ≤ ee then (sig * 2 ^ (ee - f.bias - f.mb), 1)
  else (sig, 2 ^ (f.bias + f.mb - ee))

/-- The value of a code (R55: every NaN encoding is read as NaN). -/
def decodeF (f : FFmt) (code : Nat) : FpV :=
  let c := code % 2 ^ magBits f
  let neg := (code / 2 ^ magBits f) % 2 == 1
  if c ≤ maxFinite f then .fin neg (magValue f c).1 (magValue f c).2
  else if f.ieee && c == maxFinite f + 1 then .inf neg
  else .nan

/-- The value of an FP32 pattern. -/
def ofFp32 (w : Word) : FpV := decodeF fFP32 w.toNat

/-- The quiet NaN the part produces (R55). -/
def nanCode (f : FFmt) : Nat :=
  if f.eb = 5 && f.mb = 2 then 0x7E
  else if f.ieee then (2 ^ f.eb - 1) * 2 ^ f.mb + 2 ^ (f.mb - 1)
  else 2 ^ magBits f - 1

/-- floor(log2 (n/d)) as an offset: the greatest k - 1024 with 2^(k-1024) ≤ n/d, for n > 0. -/
def log2Frac (n d : Nat) : Int :=
  let e := (Int.ofNat (Nat.log2 n)) - Int.ofNat (Nat.log2 d)
  let le := if 0 ≤ e then d * 2 ^ e.toNat ≤ n else d ≤ n * 2 ^ (-e).toNat
  if le then e else e - 1

/-- n/d divided by 2^e, as a fraction. -/
def scaleFrac (n d : Nat) (e : Int) : Nat × Nat :=
  if 0 ≤ e then (n, d * 2 ^ e.toNat) else (n * 2 ^ (-e).toNat, d)

/-- The exponent of the grid step of format `f` at magnitude n/d, past the top binade the top's (R65). -/
def stepExp (f : FFmt) (n d : Nat) : Int :=
  let emin : Int := 1 - Int.ofNat f.bias
  let emax : Int := Int.ofNat (maxFinite f / 2 ^ f.mb) - Int.ofNat f.bias
  let e := if n = 0 then emin else log2Frac n d
  min (max e emin) (max emax emin) - Int.ofNat f.mb

/-- The magnitude code of `q` grid steps of size 2^e. -/
def stepsToCode (f : FFmt) (e : Int) (q : Nat) : Nat :=
  (e + Int.ofNat f.mb - (1 - Int.ofNat f.bias)).toNat * 2 ^ f.mb + q

/-- Round a quotient to nearest, ties to even. -/
def rneDiv (n d : Nat) : Nat :=
  let q := n / d
  let r := n % d
  if 2 * r > d || (2 * r == d && q % 2 == 1) then q + 1 else q

/-- RNE of a magnitude on `f`'s grid, continued past the largest finite value (R65). -/
def rneMag (f : FFmt) (n d : Nat) : Nat :=
  let e := stepExp f n d
  let x := scaleFrac n d e
  stepsToCode f e (rneDiv x.1 x.2)

/-- SR of a magnitude with draw `u` (R66); a magnitude above the largest finite value rounds as RNE. -/
def srMag (f : FFmt) (n d u : Nat) : Nat :=
  let mx := magValue f (maxFinite f)
  if mx.1 * d < n * mx.2 then rneMag f n d
  else
    let e := stepExp f n d
    let x := scaleFrac n d e
    let q := x.1 / x.2
    let t := 65536 * (x.1 % x.2) / x.2
    stepsToCode f e (if t + u ≥ 65536 then q + 1 else q)

/-- A rounding: to nearest, or stochastic with a 16-bit draw. -/
inductive Rnd where
  | rne
  | sr (u : Nat)
  deriving DecidableEq, Repr

/-- Round a magnitude to a magnitude code that may exceed the largest finite one. -/
def roundMag (f : FFmt) (r : Rnd) (n d : Nat) : Nat :=
  match r with
  | .rne => rneMag f n d
  | .sr u => srMag f n d (u % 65536)

/-- The sign bit of a format's code. -/
def signCode (f : FFmt) (neg : Bool) : Nat := if neg then 2 ^ magBits f else 0

/-- A narrowing conversion to a plain format (R67): the code, and whether a finite input overflowed (R68). -/
def narrow (f : FFmt) (sat : Bool) (r : Rnd) (v : FpV) : Nat × Bool :=
  match v with
  | .nan => (nanCode f, false)
  | .inf neg =>
    if f.mb < 7 && sat then (signCode f neg + maxFinite f, false)   -- E4M3 and E5M2 saturate infinities
    else if f.ieee then (signCode f neg + (maxFinite f + 1), false)
    else (nanCode f, false)
  | .fin neg n d =>
    let c := roundMag f r n d
    if c ≤ maxFinite f then (signCode f neg + c, false)
    else if sat then (signCode f neg + maxFinite f, true)
    else if f.ieee then (signCode f neg + (maxFinite f + 1), true)
    else (nanCode f, true)

/-- Deliver an FP32 result: RNE with infinity on overflow (R54, R68). -/
def toFp32 (v : FpV) : Word := BitVec.ofNat 32 (narrow fFP32 false .rne v).1

/-! ## Exact arithmetic -/

def FpV.neg (v : FpV) : FpV :=
  match v with
  | .nan => .nan
  | .inf s => .inf (!s)
  | .fin s n d => .fin (!s) n d

/-- Exact sum; an exact zero from operands of opposite sign is +0 (R56). -/
def fpAdd (a b : FpV) : FpV :=
  match a, b with
  | .nan, _ => .nan
  | _, .nan => .nan
  | .inf s, .inf t => if s == t then .inf s else .nan
  | .inf s, _ => .inf s
  | _, .inf t => .inf t
  | .fin s n d, .fin t m e =>
    let x := n * e
    let y := m * d
    if s == t then .fin s (x + y) (d * e)
    else if x = y then .fin false 0 1
    else if x > y then .fin s (x - y) (d * e) else .fin t (y - x) (d * e)

/-- Exact product; ∞ × 0 is NaN. -/
def fpMul (a b : FpV) : FpV :=
  match a, b with
  | .nan, _ => .nan
  | _, .nan => .nan
  | .inf s, .inf t => .inf (s != t)
  | .inf s, .fin t m _ => if m = 0 then .nan else .inf (s != t)
  | .fin s n _, .inf t => if n = 0 then .nan else .inf (s != t)
  | .fin s n d, .fin t m e => .fin (s != t) (n * m) (d * e)

/-- Exact quotient under IEEE 754: 0/0 and ∞/∞ are NaN, x/0 is infinite. -/
def fpDiv (a b : FpV) : FpV :=
  match a, b with
  | .nan, _ => .nan
  | _, .nan => .nan
  | .inf _, .inf _ => .nan
  | .inf s, .fin t _ _ => .inf (s != t)
  | .fin s _ _, .inf t => .fin (s != t) 0 1
  | .fin s n d, .fin t m e =>
    if m = 0 then (if n = 0 then .nan else .inf (s != t)) else .fin (s != t) (n * e) (d * m)

/-- The integer square root, one bit of the answer per unit of fuel. -/
def isqrtGo : Nat → Nat → Nat → Nat
  | 0, _, r => r
  | k + 1, x, r =>
    let r' := r + 2 ^ k
    if r' * r' ≤ x then isqrtGo k x r' else isqrtGo k x r

/-- floor(sqrt x). -/
def isqrt (x : Nat) : Nat := isqrtGo (Nat.log2 x / 2 + 1) x 0

/-- RNE of the square root in FP32 (R54); −0 gives −0 and a negative operand NaN, as in IEEE 754. -/
def fpSqrt (a : FpV) : FpV :=
  match a with
  | .nan => .nan
  | .inf s => if s then .nan else .inf false
  | .fin s n d =>
    if n = 0 then .fin s 0 1
    else if s then .nan
    else
      -- the root lies in binade e/2; 2^(2k) x is an integer quotient with k = 23 - e/2 bits below the point
      let e := log2Frac n d / 2
      let k : Int := 23 - e
      let x := scaleFrac n d (-(2 * k))
      let q := isqrt (x.1 / x.2)
      let up := (2 * q + 1) * (2 * q + 1) * x.2 < 4 * x.1
      let r := if up then q + 1 else q
      let y := scaleFrac r 1 k
      .fin false y.1 y.2

def fp32Add (a b : Word) : Word := toFp32 (fpAdd (ofFp32 a) (ofFp32 b))
def fp32Sub (a b : Word) : Word := toFp32 (fpAdd (ofFp32 a) (ofFp32 b).neg)
def fp32Mul (a b : Word) : Word := toFp32 (fpMul (ofFp32 a) (ofFp32 b))
/-- One rounding of the exact a × b + c (R54). -/
def fp32Fma (a b c : Word) : Word := toFp32 (fpAdd (fpMul (ofFp32 a) (ofFp32 b)) (ofFp32 c))
def fp32Div (a b : Word) : Word := toFp32 (fpDiv (ofFp32 a) (ofFp32 b))
def fp32Sqrt (a : Word) : Word := toFp32 (fpSqrt (ofFp32 a))

/-- a < b on exact values, −0 below +0 (R56); false on NaN. -/
def fpLt (a b : FpV) : Bool :=
  match a, b with
  | .nan, _ => false
  | _, .nan => false
  | .inf s, .inf t => s && !t
  | .inf s, .fin _ _ _ => s
  | .fin _ _ _, .inf t => !t
  | .fin s n d, .fin t m e =>
    if n * e = 0 && m * d = 0 then s && !t
    else match s, t with
      | true, false => true
      | false, true => false
      | false, false => n * e < m * d
      | true, true => n * e > m * d

/-- NaN if either operand is NaN; otherwise the operand itself (R56). -/
def fp32Min (a b : Word) : Word :=
  match ofFp32 a, ofFp32 b with
  | .nan, _ => 0x7FC00000
  | _, .nan => 0x7FC00000
  | x, y => if fpLt y x then b else a

def fp32Max (a b : Word) : Word :=
  match ofFp32 a, ofFp32 b with
  | .nan, _ => 0x7FC00000
  | _, .nan => 0x7FC00000
  | x, y => if fpLt x y then b else a

/-- NaN pattern test. -/
def isNan32 (w : Word) : Bool := ofFp32 w == .nan

/-! ## The Stipple generator (R87) -/

def stippleMix (z : Word64) : Word64 :=
  let z := (z ^^^ (z >>> 30)) * 0xBF58476D1CE4E5B9
  let z := (z ^^^ (z >>> 27)) * 0x94D049BB133111EB
  z ^^^ (z >>> 31)

/-- stipple(seed, step, tensor, coord, purpose), modulo 2^64. -/
def stipple (seed step tensor coord purpose : Nat) : Word64 :=
  let a := stippleMix (BitVec.ofNat 64 seed ^^^ (BitVec.ofNat 64 step <<< 32) ^^^ BitVec.ofNat 64 tensor)
  let b := stippleMix (a ^^^ (BitVec.ofNat 64 purpose <<< 56) ^^^ BitVec.ofNat 64 coord)
  stippleMix (b + 0x9E3779B97F4A7C15)

/-- The 16 bits SR draws (R89). -/
def stippleU (seed step tensor coord purpose : Nat) : Nat :=
  (stipple seed step tensor coord purpose).toNat % 65536

end Sys2Proof.Machine
end

