-- ==== Sys2Proof/Machine/Window.lean ====
section
/-! DEFINITION. The window record (R82). -/

namespace Sys2Proof.Machine

open Sys2Proof

/-- A window record (R82); SUM is kept modulo 2^208. -/
structure WinRec where
  sum : Nat := 0
  under : Nat := 0
  nan : Bool := false
  pinf : Bool := false
  ninf : Bool := false
  ovp : Bool := false
  ovn : Bool := false
  deriving DecidableEq, Repr

end Sys2Proof.Machine
end

