-- ==== Sys2Proof/Machine/State.lean ====
section
/-! DEFINITION. The state of the part: every register field, counter and latch of the register pages, the
memory, and what each unit holds beside its registers. Structures stand in the order of the manual's
chapters; each field's default is its value at reset. -/

namespace Sys2Proof.Machine

open Sys2Proof

/-- Why the machine stops with a fault. -/
inductive Fault where
  /-- Raised by no command of this model: every behaviour the manual gives is a next state. Kept because the
  host's interface names the type; safe. -/
  | none
  deriving DecidableEq, Repr

/-- Why a command has no meaning. -/
inductive Refusal where
  /-- The dispatcher, for a command whose meaning has not been written; safe. -/
  | notModelled (mnemonic : String)
  deriving DecidableEq, Repr

/-! ## Registers, answers and outputs (chapter 17) -/

/-- What the fuses hold: the grade (R1, R122, R125), fixed at manufacture; the life-cycle state, a code of R559;
and the least security version (R562); in a B-grade part the disabled arrays, as physical (C-die, pen, array)
(R122); and the spare columns used by each store, by C-die × 128 + store (R177, R181). -/
structure Fuses where
  gradeB : Bool := false
  disabled : List (Nat × Nat × Nat) := []
  lcs : Nat := 2
  svnMin : Nat := 0
  spares : FMap Nat := []
  deriving DecidableEq, Repr

/-- The answer to the last read, or a failed access's code (R17). -/
structure Resp where
  data : List Byte := []
  poison : Bool := false
  code : Nat := 0
  /-- with a read of a pod or system page, the Herd time of the collection (R49) -/
  time : Option Nat := none
  deriving DecidableEq, Repr

/-- What the part sends out of the package, newest first in `State.out`. -/
inductive Output where
  /-- An interrupt to a management controller, from a page (R538). -/
  | irqPmc (pmc page : Nat)
  /-- A host die's interrupt number (R539). -/
  | irqHost (host vector : Nat)
  /-- A request of an engine through a remote window (R255): target package and import index, offset, length, the data of a
  write with its poison, and the source fold that the part stamps on it beside its own package number. -/
  | windowReq (pkg imp off len : Nat) (write : Option (List Byte)) (poison : Bool) (srcPkg srcFold : Nat)
  /-- A flit sent on a port (R355). -/
  | flit (port : Nat) (f : Flit)
  /-- Lane-local ordered sets of a port (R359). -/
  | spareReq (port lane : Nat)
  | spareAck (port : Nat)
  /-- XHOST requests to an external host's memory (R314). -/
  | xhostRead (link addr len : Nat) (cxl : Bool)
  | xhostWrite (link addr : Nat) (data : List Byte) (poison cxl : Bool)
  /-- The answer to an H2D snoop (R305). -/
  | rspIHitI (link addr : Nat)
  /-- A frame on a rail-control bus (R546). -/
  | railFrame (bus frame : Nat)
  /-- A Herd or head ring frame of a member or master (R489, R498). -/
  | ringFrame (head : Bool) (frame : List Byte)
  /-- The code of an event entry's interrupt (R501). -/
  | herdIrq (code : Nat)
  /-- HOLD in place of a symbol on a ring (R497). -/
  | ringHold (head : Bool)
  /-- The answer to a configuration or PLDM request of the board's management (R563). -/
  | recoveryReply (pmc : Nat) (accepted : Bool)
  /-- An MSI-X write: VF 0 is the physical function (R306, R539). -/
  | msix (link vf vector : Nat)
  deriving DecidableEq, Repr

/-- A completion status: the code of R17 and the detail field of R144. -/
structure Res where
  code : Nat := 0
  cond : Nat := 0
  note : Nat := 0
  deriving DecidableEq, Repr

/-! ## Accumulators and arrays (chapters 2 and 3) -/

/-- One accumulator: the FP32 sum, the error word and the two flags (R77, R80, R81). -/
structure Acc where
  acc : Word := 0
  err : Word := 0
  ovf : Bool := false
  inv : Bool := false
  deriving DecidableEq, Repr

/-- One accumulator row: its columns, and the row's poison mark (R107). -/
structure AccRow where
  cells : List Acc := []
  poison : Bool := false
  deriving DecidableEq, Repr

/-- Who issued a descriptor and is told when it ends (R130, R152, R154): a prep core, a pen's list, or a
RESUME command. -/
inductive Issuer where
  | core (c : PrepCore)
  | list (die pen : Nat)
  | cmd (c : CmdId)
  deriving DecidableEq, Repr

/-- A descriptor on its way: the 64 B, who issued it, its index there (R144), its context and generation; for a pass that
resumes, the save slot it resumes from and the resume record that RESUME has read and checked (R120; none yet for a pass
resumed in place, R577); and its number at its unit, in the order of issue. -/
structure Issue where
  desc : BitVec 512
  by_ : Issuer
  idx : Nat
  ctx : Nat
  gen : Nat
  slot : Option (Nat × List Byte) := none
  num : Nat := 0
  deriving DecidableEq, Repr

/-- A pass that is to resume in place (R577): it goes behind the FIFO entries with a lower number and behind the RESUMEs
that waited at the unit's input. -/
structure Again where
  iss : Issue
  cmds : List CmdId := []
  deriving DecidableEq, Repr

/-- A stationary set: its row data and scales (R96), whether any of it was poisoned, and how far it is. -/
structure StatSet where
  /-- the pass and step it was loaded for -/
  forPass : Nat := 0
  forStep : Nat := 0
  /-- that pass's context and format (R104) -/
  who : Nat × Nat := (0, 0)
  data : List Byte := []
  scales : List Byte := []
  poison : Bool := false
  /-- rows broadcast so far -/
  rows : Nat := 0
  /-- cycle in which row 0 was written -/
  row0 : Nat := 0
  /-- entry cycle of the last wavefront that used it (i_b of R102) -/
  lastEntry : Option Nat := none
  /-- the bank that was loaded last before it (R101, R115) -/
  before : Option Nat := none
  deriving DecidableEq, Repr

/-- A wavefront between row 0 and the accumulators: its pass, row, entry cycle, what it does to the row
first (R108), the summation groups of each unmasked column in ascending order, each with whether an element
or scale of it was NaN, and whether its operands were poisoned. -/
structure Wave where
  pass : Nat
  row : Nat
  entry : Nat
  init : Option AccRow
  groups : List (List (FpV × Bool))
  poison : Bool
  deriving DecidableEq, Repr

/-- One wavefront in a stream buffer (R100): its pass, step and vector, its elements and scales, and their poison. -/
structure FeedVec where
  pass : Nat
  s : Nat
  i : Nat
  data : List Byte
  scales : List Byte
  poison : Bool
  deriving DecidableEq, Repr

/-- A pass accepted onto an array or quarter (R97, R110, R114). -/
structure Pass where
  id : Nat
  iss : Issue
  fold : Nat
  /-- next step and vector to enter -/
  s : Nat := 0
  i : Nat := 0
  /-- the next step whose stationary set is to be fetched -/
  fetchStep : Nat := 0
  /-- the bank that the wavefronts of a reused set carry, once the first has entered (R104) -/
  bank : Option Nat := none
  /-- resumed from a save slot: its rows are not initialised again (R116) -/
  resumed : Bool := false
  /-- updates done so far -/
  updates : Nat := 0
  /-- rows drained so far -/
  drained : Nat := 0
  /-- conditions met (R22) -/
  conds : List Nat := []
  /-- flagged accumulators drained: OVF, then INV -/
  ovf : Nat := 0
  inv : Nat := 0
  /-- a stop under R114: the save area named at the decision, and the Herd time of the stop (R120) -/
  stop : Option (Nat × Nat) := none
  /-- a fault met its preemption save: its record is to be written with VALID = 0 (R118) -/
  dead : Bool := false
  /-- wavefronts that the feed has fetched or that have entered -/
  fed : Nat := 0
  /-- a preemption request has been decided, and is not revisited (R114) -/
  decided : Bool := false
  /-- wavefronts entered so far -/
  entered : Nat := 0
  deriving DecidableEq, Repr

/-- One array in full mode, or one quarter (R100 to R112). -/
structure ArrSt where
  fifo : List Issue := []
  passes : List Pass := []
  /-- the number of the next descriptor issued here -/
  nextPass : Nat := 0
  /-- accepted passes that a fault took back before they began, which go first (R117) -/
  back : List Issue := []
  /-- passes that resume in place, in order (R577) -/
  again : List Again := []
  /-- descriptors that ended without running and whose records wait for those of earlier ones (R130) -/
  late : List (Issue × Res) := []
  /-- the stream buffer, oldest first (R100) -/
  stream : List FeedVec := []
  bank0 : StatSet := {}
  bank1 : StatSet := {}
  bankLast : Option Nat := none
  /-- context and FMT_W of the set last loaded by an accepted pass (R104) -/
  lastLoad : Option (Nat × Nat) := none
  /-- the staging buffer (R100) -/
  staging : Option StatSet := none
  /-- the accumulator buffer: each row's words, flags and poison; the err word of row j of a compensated pass is the word
  of the row half the capacity above (R107) -/
  rows : FMap AccRow := []
  /-- what a row not listed holds: zero, or, after a switch of the mode, undefined contents with a tag (R111) -/
  blank : Option Nat := none
  /-- rows in which a bit error waits for the next access: whether it is uncorrectable (R109) -/
  flaws : FMap Bool := []
  /-- owner context and ACC_MODE of each row that a ZERO or LOAD has written (R108) -/
  owner : FMap (Nat × Nat) := []
  waves : List Wave := []
  lastEnter : Option Nat := none
  clk : Nat := 0
  deriving DecidableEq, Repr

/-- What an array's quarters share (R111, R113, R117). -/
structure ArrCtl where
  quarter : Bool := false
  frozen : Bool := false
  checking : Bool := false
  offline : Bool := false
  /-- unmasked products below a multiple of 256 (counter 12 of R124) -/
  prodRem : Nat := 0
  /-- the quarter whose stream buffer the feed served last, plus 1 (R112) -/
  feedRr : Nat := 0
  deriving DecidableEq, Repr

/-! ## Prep cores, vector, hatch and list units (chapter 4) -/

/-- A prep core's program state (R127, R130). The status fields of R159 are its page's registers. -/
structure PrepSt where
  regs : List Word64 := List.replicate 32 0
  ibuf : List Byte := []
  pc : Nat := 0
  cmd : CmdId := ⟨0, 0, 0⟩
  gen : Nat := 0
  issued : Nat := 0
  /-- completion-FIFO entries reserved and not yet posted -/
  reserved : Nat := 0
  /-- elements of this run that overflowed a conversion (R68) -/
  ovf : Nat := 0
  /-- job seed and step index in force when the PEN_RUN was accepted (R398) -/
  seed : Nat := 0
  step : Nat := 0
  cpl : List (List Byte) := []
  deriving DecidableEq, Repr

/-- A hatch descriptor that runs (R136 to R138): the vectors, their scales and poison as read into the
vector buffer, the weight row now streaming, its bytes so far and whether a line of it was poisoned. -/
structure HatchRun where
  iss : Issue
  fold : Nat
  vecs : List (List Byte)
  vscales : List (List Byte)
  vpoison : List Bool
  row : Nat := 0
  got : List Byte := []
  rowPoison : Bool := false
  conds : List Nat := []
  ovf : Nat := 0
  inv : Nat := 0
  deriving DecidableEq, Repr

/-- A hatch unit: its issue FIFO, the descriptor that runs, and the weight bytes below a multiple of 256 of
counter 1. -/
structure HatchSt where
  fifo : List Issue := []
  run : Option HatchRun := none
  /-- the number of the next descriptor issued here, and descriptors that ended without running and whose records wait for
  those of earlier ones (R130) -/
  nextNum : Nat := 0
  late : List (Issue × Res) := []
  byteRem : Nat := 0
  deriving DecidableEq, Repr

/-- A pen's list sequencer (R152). -/
structure ListSt where
  cmd : CmdId
  ctx : Nat
  gen : Nat
  descs : List (BitVec 512)
  next : Nat := 0
  /-- arrays held, one bit each -/
  held : Nat := 0
  /-- arrays that faulted, one bit each: their later descriptors abort -/
  faulted : Nat := 0
  /-- results so far: list index, code, COND -/
  results : List (Nat × Res) := []
  deriving DecidableEq, Repr

/-! ## Queues and commands (chapter 4) -/

/-- Where a queue command stands: fetched and not dispatched, waiting for its unit input's grant, dispatched
and not begun, running, or completed and not posted. -/
inductive Phase where
  | head | ready | granted | running | done
  deriving DecidableEq, Repr

/-- A queue command between its fetch and its completion record. -/
structure Cmd where
  id : CmdId
  /-- header and body (R142, R575), and the inline payload of an extended command (R312) -/
  word : BitVec 512
  payload : List Byte := []
  /-- index of its first queue entry -/
  entry : Nat := 0
  phase : Phase := .head
  /-- a TALLY_WAIT whose tally has reached its target while it waited (R151) -/
  met : Bool := false
  /-- Herd time of its completion (R144) -/
  time : Nat := 0
  /-- a fetch that failed: its code, and whether the header was read (R578) -/
  failed : Option (Nat × Bool) := none
  res : Res := {}
  stale : Bool := false
  signalled : Bool := false
  /-- order in which heads became eligible (R149) -/
  stamp : Nat := 0
  /-- parts of the command that have not ended, and the codes of R17 its parts have met -/
  left : Nat := 0
  codes : List Nat := []
  /-- engine that runs it, where one of several does -/
  engine : Nat := 0
  /-- what it was dispatched to: die and pen, and the tile of its pool -/
  die : Nat := 0
  pen : Nat := 0
  tile : Nat := 0
  deriving DecidableEq, Repr

/-- A queue's indices beside its registers (R146, R148, R579). -/
structure QueueSt where
  tail : Nat := 0
  /-- commands dispatched and completions posted, free-running -/
  disp : Nat := 0
  posted : Nat := 0
  /-- a completion record whose write failed -/
  held : Option (List Byte) := none
  deriving DecidableEq, Repr

/-- A tally (R150). -/
structure TallySt where
  val : Word64 := 0
  gen : Nat := 0
  ovf : Bool := false
  deriving DecidableEq, Repr

/-- An arbiter's deficit round robin (R38, R149, R258): the deficit of each fold (16 stands for the system
share), the fold being served, and the round-robin pointer of the last step within each fold. -/
structure Arb where
  deficit : FMap Int := []
  cur : Nat := 0
  rr : FMap Nat := []
  /-- consecutive class choices that requests have lost at a hub output (R38) -/
  lost : Nat := 0
  deriving DecidableEq, Repr

/-! ## Streams and fault slots (chapter 8) -/

/-- A stalled access: its context, segment, fault slot if one was free, virtual address, the cause and
cookie its record carries, or a move-filter hold with no slot (R248, R251). -/
structure Stall where
  ctx : Nat
  seg : Nat
  va : Nat
  slot : Option Nat
  cause : Nat
  cookie : Nat
  hold : Bool
  deriving DecidableEq, Repr

/-- A cached segment table (R247): its context, its 512 bytes, and what the check of its sixteen descriptors at the fill
found: 0, or the cause that makes a descriptor malformed (R245). -/
structure SegTbl where
  ctx : Nat
  bytes : List Byte
  bad : List Nat
  deriving DecidableEq, Repr

/-- Where a translation leads (R245): a physical address with the segment's BIAS bit, or a data offset `v` of the
compressed range at `base`. -/
inductive Place where
  | plain (pa : Nat) (bias : Bool)
  | comp (base v : Nat)
  deriving DecidableEq, Repr

/-- An access in flight past step 4 of R246, which completes under its old translation (R254); `old` once an invalidation
has dropped the table that gave it (R253). -/
structure Flight where
  ctx : Nat
  va : Nat
  place : Place
  old : Bool := false
  deriving DecidableEq, Repr

/-- A translation stream (R247): its cached tables, most recently used first, a fill it waits for and the virtual
address of the access that asked for it, a stall, the access that is to end, with its code, once that is known (R252,
R585, R250), and a translated access that waits. -/
structure StreamSt where
  cache : List SegTbl := []
  want : Option Nat := none
  wantVa : Nat := 0
  stall : Option Stall := none
  dead : Option (Nat × Nat) := none
  past : Option Flight := none
  deriving DecidableEq, Repr

/-- An allocated fault slot of a fold (R248, R249). -/
structure SlotSt where
  ctx : Nat
  seg : Nat
  seq : Nat
  va : Nat
  cause : Nat
  cookie : Nat
  time : Nat
  written : Bool
  /-- the record could not be written and waits for a write of FOLD_FQBASE -/
  held : Bool := false
  deriving DecidableEq, Repr

/-- A fold's fault slots and next sequence number. -/
structure FoldSt where
  slots : FMap SlotSt := []
  seq : Nat := 0
  deriving DecidableEq, Repr

/-! ## Scratchpad stores (chapter 5) -/

/-- What the error code finds in a granule whose bits have flipped (R173, R174): a single-bit error, an uncorrectable one
that no read has met, or one that has been met and waits for its poison-marking write. -/
inductive Flaw where
  | single | double | met
  deriving DecidableEq, Repr

/-- One store's port (R164 to R170): the locked access whose second cycle holds it, the rests of granted requests that
cross a line, the consecutive cycles each waiting requester has lost, the round-robin pointer of each class, the flawed
granules by aperture offset / 8 (R173, R174) and the line the next scrub visits (R176). -/
structure SpadSt where
  locked : Option SpadReq := none
  rest : List SpadReq := []
  lost : FMap Nat := []
  rr : FMap Nat := []
  flaws : FMap Flaw := []
  scrub : Nat := 0
  deriving DecidableEq, Repr

/-! ## Stacked memory (chapter 6) -/

/-- The memory controllers and the map (R185 to R204). -/
structure MemcSt where
  /-- accesses that wait at each controller, by stack, in order of arrival (R185) -/
  waiting : FMap (List MemAccess) := []
  /-- channels that the part itself maps out (R202) -/
  outs : List Nat := []
  /-- which draw of the random source the keys come from, and the words firmware wrote over it (R188) -/
  keyDraw : Nat := 0
  keys : FMap Nat := []
  /-- live channels in the order of gtable, and n of R186, as the build found them (R189) -/
  live : List Nat := []
  split : Nat := 0
  /-- recent uncorrectable errors: channel, line, Herd time (R199) -/
  ues : List (Nat × Nat × Nat) := []
  /-- each channel's last direction, 1 for writes, and its next line to scrub (R194, R198) -/
  lastDir : FMap Nat := []
  scrub : FMap Nat := []
  /-- the imbalance monitor: accesses of this window by channel; of the channel that was busiest in the
  window before, by zone and by fold; that channel; and the run of imbalanced windows (R195) -/
  imb : FMap Nat := []
  imbZone : FMap Nat := []
  imbFold : FMap Nat := []
  busiest : Option Nat := none
  run : Nat := 0
  deriving DecidableEq, Repr

/-! ## Moves and copies (chapters 7 and 9) -/

/-- A physical range under a chunk move (R229, R251): [lo, hi), and the fold and chunk that move. -/
structure MoveRange where
  lo : Nat
  hi : Nat
  fold : Nat
  chunk : Nat
  deriving DecidableEq, Repr

/-- A Drover engine's COPY, FILL or TILE: its command, whether it writes TILE's scales now, the next virtual
line, the conditions met, and the poisoned source lines met, by their virtual addresses (R213, R216, R220). -/
structure DrvRun where
  cmd : CmdId
  fold : Nat
  scales : Bool := false
  line : Nat := 0
  codes : List Nat := []
  seen : List Nat := []
  deriving DecidableEq, Repr

/-- Who asked for a chunk action: a queue command, or entry e of a schedule run (R228, R232). -/
inductive ChunkBy where
  | cmd (id : CmdId)
  | entry (run : CmdId) (e : Nat)
  deriving DecidableEq, Repr

/-- A chunk command that waits in a tile's wait list (R228). -/
structure ChunkWait where
  fold : Nat
  chunk : Nat
  tile : Nat
  evict : Bool
  writable : Bool
  ctx : Nat
  by_ : ChunkBy
  deriving DecidableEq, Repr

/-- A chunk move under way: up (a promotion) or down (a write-back), on an engine of a tile, for a holder; the
ranges it copies (R227 to R229). -/
structure ChunkMove where
  fold : Nat
  chunk : Nat
  up : Bool
  tile : Nat
  engine : Nat
  writable : Bool
  ctx : Nat
  by_ : ChunkBy
  low : Nat
  lowComp : Bool
  high : Nat
  len : Nat
  deriving DecidableEq, Repr

/-- A running tier schedule (R230 to R234): its entries, the next to start, those in flight, the results and
the late ones so far, and the SCHED_CANCELs that wait for its end. -/
structure SchedSt where
  id : CmdId
  fold : Nat
  tile : Nat
  entries : List (BitVec 256)
  next : Nat := 0
  inflight : List Nat := []
  results : List (Nat × Nat) := []
  late : List Nat := []
  cancelled : Bool := false
  cancellers : List CmdId := []
  deriving DecidableEq, Repr

/-- The state of an agent's copy of a line (R270); no copy is Invalid. -/
inductive CopySt where
  | shared | exclusive | modified | wbPend
  deriving DecidableEq, Repr

/-- An agent's copy of a line: its state, 256 bytes and poison bit. -/
structure Copy where
  st : CopySt
  data : List Byte
  poison : Bool
  deriving DecidableEq, Repr

/-- The snoops of R273. -/
inductive Snoop where
  | shared | sole | inv | cur
  deriving DecidableEq, Repr

/-- A request at a home (R273, R276); a whole-line write is a write with every byte enabled. -/
inductive CohReq where
  | rdS (agent : Nat)
  | rdX (agent : Nat)
  | rdCur (who : Requester)
  | write (who : Requester) (mask : List Bool) (data : List Byte) (poison : Bool)
  | atom (who : Requester) (addr : Nat) (op : AtomOp) (size : Nat) (operands : AtomArg)
  /-- the back-invalidation of R272 -/
  | backInv
  /-- the recovery of an uncorrectable directory entry (R285) -/
  | recover
  deriving DecidableEq, Repr

/-- A message on its way (R273), for one agent and one line; those that carry data carry its poison. -/
inductive CohMsg where
  | snoop (k : Snoop) (agent line : Nat)
  | rspI (agent line : Nat)
  | rspS (agent line : Nat)
  /-- the agent's new state: none for I -/
  | rspFwd (agent line : Nat) (st : Option CopySt)
  | rspWbPend (agent line : Nat)
  | dataHome (agent line : Nat) (data : List Byte) (poison : Bool)
  /-- to a caching requester, with grant S, E or M -/
  | data (agent line : Nat) (grant : CopySt) (data : List Byte) (poison : Bool)
  | wbM (agent line : Nat) (data : List Byte) (poison : Bool)
  | cmp (agent line : Nat)
  | wbAck (agent line : Nat)
  | done (agent line : Nat)
  deriving DecidableEq, Repr

/-- The transaction that makes a line busy (R275): its request, the agents whose answers it waits for, the
agent whose WbM it waits for (R279), what the answers said, the WbM data held for it with its writer (R278),
the data an owner sent a requester that keeps no copy, and whether it only waits for Done. -/
structure Txn where
  req : CohReq
  waiting : Nat := 0
  wbWait : Option Nat := none
  fwd : Bool := false
  kept : Bool := false
  wbm : Option (Nat × List Byte × Bool) := none
  got : Option (List Byte × Bool) := none
  granted : Bool := false
  deriving DecidableEq, Repr

/-- An agent's own RdS or RdX: the Data it holds, and whether its Cmp has come (R276). -/
structure CohWant where
  data : Option (CopySt × List Byte × Bool) := none
  cmp : Bool := false
  deriving DecidableEq, Repr

/-- The coherence state (chapter 9). -/
structure CohSt where
  /-- copies, by line × 8 + agent, line = physical address / 256 -/
  copies : FMap Copy := []
  /-- directory entries: recorded holders, one bit per agent, and whether one agent holds it exclusively; and
  when each was last used (R272) -/
  dir : FMap (Nat × Bool) := []
  used : FMap Nat := []
  clock : Nat := 0
  /-- the newest data of a line while no agent's copy and not the home holds it -/
  fly : FMap (List Byte × Bool) := []
  msgs : List CohMsg := []
  txns : FMap Txn := []
  /-- requests that wait at the home, in arrival order -/
  queue : List (Nat × CohReq) := []
  /-- requests that wait for a request credit or a tracker, in the order their sources made them (R274) -/
  held : List (Nat × CohReq × HomeEcc) := []
  /-- agents' outstanding requests, by line × 8 + agent -/
  wants : FMap CohWant := []
  /-- agents' atomics that wait for their line in E or M, by line × 8 + agent: address, operation, size and operands
  (R281) -/
  atoms : FMap (Nat × AtomOp × Nat × List Byte) := []
  /-- lines the home stores have held (R267) -/
  touched : FMap Unit := []
  deriving DecidableEq, Repr

/-! ## Host coupling (chapter 10) -/

/-- What an inbound write of a link does (R308, R310, R311): data into memory or a store, a doorbell's add, by context,
tally and amount, or a register of a BAR0 page, by its writer, page, offset, width and value. -/
inductive PeerWait where
  | data (pa : Nat) (bytes : List Byte) (poison : Bool)
  | bell (ctx tally amount : Nat)
  | reg (src : Src) (page off width value : Nat)
  deriving DecidableEq, Repr

/-- The host side (R293 to R319): device-owned granules, by tier × 2^20 + granule; the granule being flushed;
held inbound writes by link, oldest first; the links whose PERST_N is asserted; the links that trained as root ports
(R304); what the retention descriptor records. -/
structure HostSt where
  bias : FMap Unit := []
  flip : Option Nat := none
  peer : FMap (List PeerWait) := []
  perst : FMap Unit := []
  role : FMap Unit := []
  boots : Nat := 0
  cause : Nat := 0
  intact : Nat := 0
  keeps : Bool := false
  srEntry : Nat := 0
  srExit : Nat := 0
  /-- TAMPER_N has been asserted since the last package reset (R318) -/
  tampered : Bool := false
  deriving DecidableEq, Repr

/-! ## Input pipeline (chapter 11) -/

/-- An image: its size, bit depth, and for each frame its channels, each a row-major list of samples (R324);
after NORM, of element codes (R337). -/
structure Image where
  w : Nat
  h : Nat
  bd : Nat
  frames : List (List (List Nat))
  deriving DecidableEq, Repr

/-- Where a position stands: waiting for its candidate's grant, decoding, holding a decode that may claim a
cache slot, under augmentation, or ready to be written. -/
inductive PosStage where
  | start | decode | claim | ops | write
  deriving DecidableEq, Repr

/-- A position in progress (R327, R331, R333, R342): candidates rejected, the first cause, the candidate, its
image, the next operation, whether it came from the cache, the header word of a slot that was free, the
cause of a decode that failed, and the index entry read. -/
structure PosSt where
  p : Nat
  tries : Nat := 0
  cause : Nat := 0
  cand : Nat := 0
  stage : PosStage := .start
  img : Option Image := none
  op : Nat := 0
  cached : Bool := false
  free : Option Nat := none
  failed : Nat := 0
  entry : Nat := 0
  deriving DecidableEq, Repr

/-- A sample job (R328): the entry, its program, the next position to start, the positions in progress, what it
has met, and its result once it has ended, with the Herd time of the end (R144). -/
structure JobSt where
  desc : BitVec 1024
  prog : List Byte := []
  next : Nat := 0
  pos : List PosSt := []
  done : List Nat := []
  rejected : Nat := 0
  empties : Nat := 0
  ovf : Nat := 0
  tier : Bool := false
  res : Option Res := none
  time : Nat := 0
  deriving DecidableEq, Repr

/-- A job ring beside its registers (R326). -/
structure JobRing where
  tail : Nat := 0
  posted : Nat := 0
  jobs : List JobSt := []
  deriving DecidableEq, Repr

/-- A frame held for an instant (R348): place, length, sequence number and t_f - I_k. -/
structure HeldFrame where
  addr : Nat
  len : Nat
  seq : Nat
  dt : Int
  deriving DecidableEq, Repr

/-- A group (R348): the oldest instant not closed, late frames since the last record, and the frames held, by
instant × 8 + slot. -/
structure GroupSt where
  next : Nat := 0
  late : Nat := 0
  held : FMap HeldFrame := []
  deriving DecidableEq, Repr

/-- The input engines: rings by host die × 16 + ring, groups by host die × 8 + group; each die's local PTP
clock in 2^-32 ns. -/
structure InpSt where
  rings : FMap JobRing := []
  groups : FMap GroupSt := []
  ptp : FMap Int := []
  deriving DecidableEq, Repr

/-! ## Fabric and collectives (chapter 12) -/

/-- A port (R355 to R360): the next LSEQ to send, the replay buffer and what of it is to be sent again, credits
in use by VC; the LSEQ expected and whether a NAK is outstanding; the flit last NAKed here and how often in a
row; credits owed; waiting transit, local and LINK flits; whose turn it is; whether the receiver has stopped, the
lane its spare is to replace or replaces, whether that spare is lost; and the lane the transmitter moved. -/
structure PortSt where
  txSeq : Nat := 0
  replay : List Flit := []
  resend : List Flit := []
  used : FMap Nat := []
  rxNext : Nat := 0
  naking : Bool := false
  nakFlit : Option Nat := none
  nakRuns : Nat := 0
  owed : FMap Nat := []
  transit : List Flit := []
  loc : List Flit := []
  ctl : List Flit := []
  turn : Bool := false
  stopped : Bool := false
  swap : Option Nat := none
  spareLost : Bool := false
  txSpare : Option Nat := none
  deriving DecidableEq, Repr

/-- A remote-window request of a server core or controller that waits for its response (R370). -/
structure Outst where
  flit : Flit
  tries : Nat := 0
  src : Src
  pa : Nat
  load : Bool
  off : Nat
  len : Nat
  deriving DecidableEq, Repr

/-- The covered fields under which a collective runs, as they stood at its acceptance (R52, R507): FAB_SHAPE's EXTENT and
WRAP, its team entry's TEAM_ID, ORIGIN, EXTENT and PEER_FOLDS, and FAB_CTMO. -/
structure ColCfg where
  shape : Nat := 0
  wrap : Nat := 0
  teamId : Nat := 0
  origin : Nat := 0
  box : Nat := 0
  peers : Nat := 0
  tmo : Nat := 0
  grace : Nat := 0
  deriving DecidableEq, Repr

/-- A collective in flight (R381 to R391): its command, team entry, CSEQ, home tile and fold; whether it has
begun to send; for each chunk of a reduction the phases done, the partial records and whether they hold poison;
chunks received ahead of their phase; what has been received; finished chunks, with the bytes of a gather; sent
chunks not acknowledged; lengths by source; what it has met; times in µs; the fields it runs under; and the writes of
finished shards that its stream still holds, oldest first, as (address, bytes, poison) (R229). -/
structure ColSt where
  id : CmdId
  team : Nat
  cseq : Nat
  tile : Nat
  fold : Nat
  launched : Bool := false
  level : FMap Nat := []
  part : FMap (List WinRec) := []
  bad : FMap Unit := []
  early : List (Nat × Nat × List WinRec × Bool) := []
  seen : List (Nat × Nat × Nat) := []
  have_ : FMap (List Byte × Bool) := []
  unacked : List Flit := []
  lens : FMap Nat := []
  codes : List Nat := []
  under : Nat := 0
  last : Nat := 0
  lag : Option Nat := none
  cfg : ColCfg := {}
  todo : List (Nat × List Byte × Bool) := []
  deriving DecidableEq, Repr

/-- The fabric (chapter 12): ports; flits accepted and not yet handled, by port; admitted requests that wait,
with their target fold; outstanding requests by TID; the ATOM table by source package × 2^32 + TID; collectives
in flight; ABORTs of collectives not yet accepted, as (team entry, CSEQ). -/
structure FabSt where
  ports : FMap PortSt := []
  inbox : List (Nat × Flit) := []
  held : List (Nat × Flit × Nat) := []
  reqs : FMap Outst := []
  nextTid : Nat := 0
  atoms : FMap Flit := []
  cols : List ColSt := []
  aborted : List (Nat × Nat) := []
  deriving DecidableEq, Repr

/-! ## Training support (chapter 13) -/

/-- A waiting ETCH_RUN in a tile's run pool (R413): the keys in force at its acceptance, its wait condition
(1 tally, 2 collective), and, once it is ready, the code its wait ended with. -/
structure PoolRun where
  id : CmdId
  tile : Nat
  fold : Nat
  seed : Nat
  step : Nat
  kind : Nat
  tally : Nat
  value : Nat
  team : Nat
  cseq : Nat
  ready : Option Nat := none
  deriving DecidableEq, Repr

/-- An ETCH_RUN on a unit (R401 to R409): its keys; once `loaded`, the run descriptor, program words and
scalars with whether one was poisoned; the norm record; what it has met; the next block; and while a block is in
the registers, the next instruction, the element registers (64 lanes each), the block registers, and whether an
input line was poisoned or an input NaN; and whether any block's input was poisoned so far. -/
structure EtchRun where
  id : CmdId
  fold : Nat
  seed : Nat
  step : Nat
  loaded : Bool := false
  desc : List Byte := []
  prog : List Nat := []
  lens : Nat × Nat × Nat := (0, 0, 0)
  scal : List Word := []
  spoison : Bool := false
  norm : WinRec := {}
  codes : List Nat := []
  block : Nat := 0
  inBlock : Bool := false
  pc : Nat := 0
  elems : List (List Word) := []
  blk : List Word := []
  poison : Bool := false
  nanIn : Bool := false
  tainted : Bool := false
  deriving DecidableEq, Repr

/-- A running SEQ_RUN (R417, R418): the passes released, and the rises of DONE_F, DONE_B and OPT_TALLY since it
was accepted. -/
structure SeqSt where
  id : CmdId
  tF : Nat
  tB : Nat
  tO : Nat
  f : Nat := 0
  b : Nat := 0
  doneF : Nat := 0
  doneB : Nat := 0
  opt : Nat := 0
  deriving DecidableEq, Repr

/-- Training support: run pools, oldest first; runs by tile × 8 + unit; sequencers and pending STEP_SETs by
context; the last 16 completed collectives of each team entry, newest first, as (CSEQ, code) (R413). -/
structure TrnSt where
  pool : List PoolRun := []
  units : FMap EtchRun := []
  seqs : FMap SeqSt := []
  pend : FMap CmdId := []
  colDone : FMap (List (Nat × Nat)) := []
  deriving DecidableEq, Repr

/-! ## Power, faults and bring-up (chapters 14, 15 and 18) -/

/-- Power (R429 to R454): the fractions of the energy accounts in 2^-16 µJ; each die's voltage in mV and the
planned voltage its present step moves toward; a cap that waits, with its tick; the operating points in force
at each die's guard events; and the levels of THERM_TRIP_N and PWR_ALERT_N. -/
structure PwrSt where
  frac : FMap Nat := []
  volt : FMap Nat := []
  goal : FMap Nat := []
  capNext : Option (Nat × Nat) := none
  guards : FMap (List Nat) := []
  tripN : Bool := false
  alertLow : Bool := false
  deriving DecidableEq, Repr

/-- Phases of a fold reset after Stop (R465). -/
inductive RstPhase where
  | abort | drain | clear
  deriving DecidableEq, Repr

/-- A fold reset in progress: its phase, the trigger, FOLD_DIES and the Herd time at the trigger, whether capture
and drain have ended, and the engine records taken at Abort (R463 to R472). -/
structure FoldRst where
  phase : RstPhase := .abort
  cause : Nat
  unit : Nat
  detail : Nat
  dies : Nat
  time : Nat
  captured : Bool := false
  drained : Bool := false
  engines : List (List Byte) := []
  deriving DecidableEq, Repr

/-- Faults (chapter 15): fold resets; SYSTEM writes to a resetting fold's page, as (fold, offset, value) (R470);
each unit's last hang (R460); Herd time of a package-fatal fault; FAULT_N asserted by it. -/
structure RstSt where
  folds : FMap FoldRst := []
  writes : List (Nat × Nat × Nat) := []
  hangs : FMap Nat := []
  /-- requests that a fold reset ended and whose responses may still come, by `lateWindow` and `lateEngine` (R468) -/
  late : FMap Unit := []
  fatalAt : Nat := 0
  faultN : Bool := false
  deriving DecidableEq, Repr

/-- The sequencer (R551 to R557): rails down; power-up step 1 to 7; powered; power-down step 1 to 7; or off after a
fault until PWR_ON falls. -/
inductive SeqPhase where
  | off | up (step : Nat) | powered | down (step : Nat) | faulted
  deriving DecidableEq, Repr

/-- Bring-up (chapter 18): the sequencer, its enables and the rails not off, one bit each; FAULT_N asserted by
it; the latched Herd time; regulator voltages by die; how many slots each management controller has tried and
which are in recovery; flash slots by chip × 2 + slot; measurement 0; the test records of R571; and whether
PWR_ON fell during a power-up. -/
structure BootSt where
  seq : SeqPhase := .off
  en : Nat := 0
  hot : Nat := 0
  faultN : Bool := false
  latch : Nat := 0
  rails : FMap Nat := []
  tried : FMap Nat := []
  recovery : FMap Unit := []
  flash : FMap (List Byte) := []
  measure : Option (BitVec 384) := none
  ict : FMap (List Word) := []
  falling : Bool := false
  running : Bool := false
  deriving DecidableEq, Repr

/-! ## The hub (chapter 1) -/

/-- A packet that waits at an input of a hub, or is on its way there over a bridge (R31, R40): the input, the hub cycle
of its arrival, and the cycle from which it has been urgent at this input. -/
structure HubPkt where
  pkt : Packet
  input : Nat
  since : Nat
  urgentAt : Option Nat := none
  deriving DecidableEq, Repr

/-- A tile's hub: its cycle number as last named, waiting packets in order of arrival, the packets for which
HUB_STALL has been raised, and the cycle in which each output last granted a packet, and which (R30 to R40). -/
structure HubSt where
  clk : Nat := 0
  pkts : List HubPkt := []
  stalled : List Nat := []
  granted : FMap (Nat × Packet) := []
  deriving DecidableEq, Repr

/-! ## The Herd ring (chapter 16) -/

/-- A barrier slot at a master (R503): barrier, its arrivals and total as last returned, the tick of its claim,
and the release tick once it is complete. -/
structure SyncSlot where
  bid : Nat := 0
  arrived : Nat := 0
  total : Nat := 0
  since : Nat := 0
  rel : Option Nat := none
  deriving DecidableEq, Repr

/-- One ring port (R484 to R500): the role in force; the ticks of the last TICK or RCNT symbol and of the last
good tick frame; since when a master waits to recount; the recount's phase; whether HOLD is sent in place of
forwarding; SUM of phase 1; and at a master the barrier slots, the message that its next frame carries, and N, WMEAS
and WNOM for the phase-2 frame. At a member the three hold MASTER_PKG and HEAD_PKG of phase 1, and 0. -/
structure RingSt where
  acting : Nat := 0
  heard : Nat := 0
  good : Nat := 0
  wait : Option Nat := none
  phase : Nat := 0
  mute : Bool := false
  sum : Nat := 0
  slots : List SyncSlot := List.replicate 4 {}
  carry : List Byte := []
  p2 : Nat × Nat × Nat := (0, 0, 0)
  deriving DecidableEq, Repr

/-- A message this package sends (R505): its bytes, its ring, whether software's outbox holds it, whether it is
on the ring, and how often it has been sent again. -/
structure HerdMsg where
  bytes : List Byte
  head : Bool
  soft : Bool
  flying : Bool := false
  tries : Nat := 0
  deriving DecidableEq, Repr

/-- Herd time and the rings (chapter 16): delay-table entries by table × 256 + slot; event words by entry × 8 +
word; the two ring ports; barrier releases that wait for their tick; the outbox's words; the inbox, oldest first;
messages to send, oldest first; the staged epoch as (epoch,
tick, expected digest); held covered writes as (page, offset, value, mask); each controller's last crook outcome;
and whether the counter stands until ring time reaches it. -/
structure HerdSt where
  tbl : FMap Nat := []
  evt : FMap Nat := []
  herd : RingSt := {}
  head : RingSt := {}
  rel : List (Nat × Nat) := []
  outbox : FMap Nat := []
  inbox : List (List Byte) := []
  send : List HerdMsg := []
  stage : Option (Nat × Nat × Nat) := none
  held : List (Nat × Nat × Nat × Nat) := []
  cas : FMap Unit := []
  stopped : Bool := false
  /-- the last collection for the pod and system pages: its number among the free values, and its Herd time (R49) -/
  podAt : Nat := 0
  podTime : Nat := 0
  deriving DecidableEq, Repr

/-- The whole part. -/
structure State where
  /-- Commands waiting, first in, first out. -/
  pending : List Instr := []
  /-- Register fields that have been written, by page, word offset and low bit; the others hold their Reset value
  (R517, R521). -/
  regs : FMap Word64 := []
  /-- The sixteen counters of each page, by page × 16 + n (R532). -/
  cnt : FMap Word64 := []
  /-- Each counter's latch (R533). -/
  latch : FMap Word64 := []
  /-- A written _LO word held for its _HI word, by page × 1024 + word (R536). -/
  pairHeld : FMap Word := []
  /-- The _HI word latched by a read of its _LO word (R536). -/
  pairLatch : FMap Word := []
  /-- The carries of each group page's counters, by page × 16 + n (R534). -/
  grpCarry : FMap Unit := []
  fuse : Fuses := {}
  /-- Member packages and pods that the Bellwether serves on the pod and system pages (R523, R49). -/
  podMembers : Nat := 0
  sysMembers : Nat := 0
  /-- The answer to the last read. -/
  resp : Resp := {}
  /-- What the part has sent out, newest first. -/
  out : List Output := []
  /-- The model's own: the next index of free values (no part of the hardware). -/
  free : Nat := 0
  /-- Physical memory: bytes by address, rising, none that an unlisted address reads as (R13). -/
  mem : FMap Byte := []
  /-- Ranges [lo, hi) whose contents the manual leaves undefined, with a tag. -/
  undefs : List (Nat × Nat × Nat) := []
  /-- Poisoned granules, by address / 8 (R174, R197). -/
  poison : FMap Unit := []
  /-- The 64 entries of the always-on fault log (R480). -/
  fltLog : FMap (BitVec 128) := []
  /-- Arrays and quarters, by unit key; and what an array's quarters share, by array key. -/
  arrs : FMap ArrSt := []
  arrCtl : FMap ArrCtl := []
  /-- Prep cores by page slot; vector registers by (die × 9 + pen) × 128 + register. -/
  preps : FMap PrepSt := []
  vregs : FMap (List Word) := []
  hatches : FMap HatchSt := []
  lists : FMap ListSt := []
  /-- Queue commands in flight, in the order fetched. -/
  cmds : List Cmd := []
  queues : FMap QueueSt := []
  tallies : FMap TallySt := []
  /-- Arbiters of unit inputs, hub outputs, by arbiter key. -/
  arbs : FMap Arb := []
  stamp : Nat := 0
  streams : FMap StreamSt := []
  folds : FMap FoldSt := []
  spads : FMap SpadSt := []
  moving : List MoveRange := []
  /-- Drover engines by tile × 16 + engine; chunk moves; wait lists, oldest first; schedule runs. -/
  drvs : FMap DrvRun := []
  moves : List ChunkMove := []
  waits : List ChunkWait := []
  scheds : List SchedSt := []
  /-- Pages of units that are offline until package reset (R460). -/
  offline : FMap Unit := []
  memc : MemcSt := {}
  coh : CohSt := {}
  host : HostSt := {}
  inp : InpSt := {}
  fab : FabSt := {}
  trn : TrnSt := {}
  pwr : PwrSt := {}
  rst : RstSt := {}
  boot : BootSt := {}
  /-- Hubs by tile. -/
  hubs : FMap HubSt := []
  herd : HerdSt := {}
  deriving DecidableEq, Repr

/-- The part right after package reset. -/
def State.reset : State := {}

end Sys2Proof.Machine
end

