-- ==== Sys2Proof/Machine/Formats.lean ====
section
/-! DEFINITION. The format codes of R57, the elements and scales of block-scaled tensors (R59 to R64), block
encoding (R69 to R74), the exact sums of the array columns (R76 to R81) and the window record (R82 to R86). -/

namespace Sys2Proof.Machine

open Sys2Proof

/-- A format code of R57 that is not reserved. -/
def fmtKnown (c : Nat) : Bool := c ≤ 0x0D

/-- Bits of one element (R58). -/
def elemBits (c : Nat) : Nat :=
  match c with
  | 0x00 => 32 | 0x01 => 16 | 0x02 => 16 | 0x07 => 6 | 0x08 => 6 | 0x09 => 4 | 0x0B => 4 | _ => 8

/-- Elements in a block; 1 for a plain format (R57). -/
def blockElems (c : Nat) : Nat :=
  match c with
  | 0x05 => 32 | 0x06 => 32 | 0x07 => 32 | 0x08 => 32 | 0x09 => 32 | 0x0A => 32
  | 0x0B => 8 | 0x0C => 64 | 0x0D => 64 | _ => 1

/-- Bytes of one block scale; 0 for a plain format (R62). -/
def scaleBytes (c : Nat) : Nat :=
  if blockElems c = 1 then 0 else if c = 0x0C ∨ c = 0x0D then 2 else 1

/-- The operand class: products per cell per cycle; 0 where the arrays do not take the format (R57). -/
def fmtClass (c : Nat) : Nat :=
  match c with
  | 0x01 => 2 | 0x02 => 2 | 0x03 => 4 | 0x04 => 4 | 0x05 => 4 | 0x06 => 4 | 0x07 => 4 | 0x08 => 4
  | 0x0A => 4 | 0x09 => 8 | 0x0B => 8 | _ => 0

/-- A block-scaled format. -/
def isBlock (c : Nat) : Bool := blockElems c != 1

/-- The floating layout of a format's elements, where they have one (R58). -/
def elemFmt (c : Nat) : FFmt :=
  match c with
  | 0x00 => fFP32 | 0x01 => fBF16 | 0x02 => fFP16 | 0x03 => fE4M3 | 0x05 => fE4M3
  | 0x07 => fE2M3 | 0x08 => fE3M2 | 0x09 => fE2M1 | 0x0B => fE2M1 | _ => fE5M2

/-- ± n / d from a two's-complement integer over `d`. -/
def fromInt (x : Int) (d : Nat) : FpV := .fin (x < 0) x.natAbs d

/-- 2^k as an exact value. -/
def pow2V (k : Int) : FpV :=
  if 0 ≤ k then .fin false (2 ^ k.toNat) 1 else .fin false 1 (2 ^ (-k).toNat)

/-- The QM2 ratio of a code (R61). -/
def qm2V (c : Nat) : FpV :=
  let e := c / 8 % 32
  let m := c % 8
  if e = 0 then .fin false m (2 ^ 33) else .fin false ((8 + m) * 2 ^ e) (2 ^ 34)

/-- The value of one element code before its scale (R58, R59, R61). -/
def elemV (fmt code : Nat) : FpV :=
  match fmt with
  | 0x0A => fromInt (toSigned 8 code) 64
  | 0x0C => fromInt (toSigned 8 code) 128
  | 0x0D => qm2V code
  | _ => decodeF (elemFmt fmt) code

/-- The value of a scale code (R60). -/
def scaleV (fmt code : Nat) : FpV :=
  match fmt with
  | 0x0B => decodeF fUE4M4 code
  | 0x0C => decodeF fBF16 code
  | 0x0D => decodeF fBF16 code
  | _ => if code % 256 = 255 then .nan else pow2V (Int.ofNat (code % 256) - 127)

/-- The exact value of an element under its scale and tensor scale (R61, R64): a NaN scale or element is
NaN, and any finite element under a UE4M4 scale of 0 is +0. -/
def blockV (fmt scale : Nat) (tScale : Word) (code : Nat) : FpV :=
  if !isBlock fmt then elemV fmt code
  else
    let v := fpMul (scaleV fmt scale) (elemV fmt code)
    if fmt = 0x0B then
      match scaleV fmt scale, v with
      | .fin _ 0 _, _ => .fin false 0 1
      | _, v => fpMul (ofFp32 tScale) v
    else v

/-- Element `i` of a packed element array (R62). -/
def getElem (fmt : Nat) (bs : List Byte) (i : Nat) : Nat :=
  let w := elemBits fmt
  leNat (slice bs (i * w / 8) ((w + 7 + i * w % 8) / 8)) / 2 ^ (i * w % 8) % 2 ^ w

/-- Pack element codes (R62), the last byte filled with zeros. -/
def packElems (fmt : Nat) (cs : List Nat) : List Byte :=
  let w := elemBits fmt
  leBytes ((cs.length * w + 7) / 8) (cs.foldr (fun c acc => acc * 2 ^ w + c % 2 ^ w) 0)

/-! ## Encoding blocks -/

/-- An encoded block: scale code, element codes, RANGE_OVERFLOW, and the count QM2 reports (R73). -/
structure EncBlock where
  scale : Nat
  codes : List Nat
  overflow : Bool
  note : Nat
  deriving DecidableEq, Repr

/-- A block value that is not finite. -/
def nonFinite (v : FpV) : Bool := match v with | .fin _ _ _ => false | _ => true

/-- The larger of two finite magnitudes, as fractions. -/
def maxMag (a b : Nat × Nat) : Nat × Nat := if a.1 * b.2 < b.1 * a.2 then b else a

/-- The largest magnitude of a block, or of its positive elements only. -/
def blockMax (posOnly : Bool) (vs : List FpV) : Nat × Nat :=
  vs.foldl (fun m v => match v with
    | .fin s n d => if posOnly && s then m else maxMag m (n, d)
    | _ => m) (0, 1)

/-- emax of R69. -/
def emaxOf (fmt : Nat) : Int :=
  match fmt with
  | 0x05 => 8 | 0x06 => 15 | 0x07 => 2 | 0x08 => 4 | 0x09 => 2 | _ => 0

/-- Round x to an integer of magnitude at most `lim`, by RNE or SR. -/
def roundInt (r : Rnd) (n d lim : Nat) : Nat :=
  let q := match r with
    | .rne => rneDiv n d
    | .sr u =>
      if lim * d ≤ n then lim
      else if 65536 * (n % d) / d + u % 65536 ≥ 65536 then n / d + 1 else n / d
  min q lim

/-- One element rounded to its format's grid, limited to the largest finite magnitude (R69 step 4, R71
step 3, R74); a zero result is +0 (R56). -/
def encElem (fmt : Nat) (r : Rnd) (v : FpV) : Nat :=
  match v with
  | .fin s n d =>
    if fmt = 0x0A ∨ fmt = 0x0C then
      let q := roundInt r (if fmt = 0x0A then n * 64 else n * 128) d 127
      ofSigned 8 (if s then - Int.ofNat q else Int.ofNat q)
    else
      let f := elemFmt fmt
      let c := min (roundMag f r n d) (maxFinite f)
      if c = 0 then 0 else signCode f s + c
  | _ => 0

/-- The QM2 grid is that of a format with 5 exponent bits, 3 mantissa bits and bias 31 (R61). -/
def fQM2 : FFmt := ⟨5, 3, 31, false, false⟩

/-- The rounding of element `i`: RNE, or SR with the draw of its own coordinate (R74). -/
def rndAt (draws : Option (Nat → Nat)) (i : Nat) : Rnd :=
  match draws with
  | none => .rne
  | some u => .sr (u i)

/-- Map with the index. -/
def mapIdx {α β : Type} (f : Nat → α → β) : Nat → List α → List β
  | _, [] => []
  | i, a :: t => f i a :: mapIdx f (i + 1) t

/-- The smallest UE4M4 code whose value is at least n/d, or none above 480 (R71). -/
def ue4m4Ceil (n d : Nat) : Option Nat :=
  let e := stepExp fUE4M4 n d
  let x := scaleFrac n d e
  let q := (x.1 + x.2 - 1) / x.2
  let c := stepsToCode fUE4M4 e q
  if c ≤ 0xFE then some c else none

/-- The elements of a block that no scale can hold (R71, R72, R74): beyond 6 × T × 480 in SB4, 2^127 or more in QM1. -/
def overflowed (fmt : Nat) (tScale : Word) (vs : List FpV) : Nat :=
  let t : Nat × Nat := match ofFp32 tScale with | .fin _ n d => (n, d) | _ => (1, 1)
  if vs.any nonFinite then 0
  else (vs.filter fun v => match v with
    | .fin _ n d => (fmt == 0x0B && decide (2880 * t.1 * d < n * t.2)) || (fmt == 0x0C && decide (2 ^ 127 * d ≤ n))
    | _ => false).length

/-- Encode a block of values (R69, R71 to R74). -/
def encBlock (fmt : Nat) (tScale : Word) (draws : Option (Nat → Nat)) (vs : List FpV) : EncBlock :=
  let zeros := vs.map fun _ => 0
  let bad := vs.any nonFinite
  match fmt with
  | 0x0B =>
    if bad then ⟨0xFF, zeros, false, 0⟩
    else
      let t : Nat × Nat := match ofFp32 tScale with | .fin _ n d => (n, d) | _ => (1, 1)
      let m := blockMax false vs
      let rn := m.1 * t.2
      let rd := m.2 * 6 * t.1
      if m.1 = 0 then ⟨0, zeros, false, 0⟩
      else
        let b := (ue4m4Ceil rn rd).getD 0xFE
        let unit := fpMul (.fin false t.1 t.2) (decodeF fUE4M4 b)
        ⟨b, mapIdx (fun i v => encElem fmt (rndAt draws i) (fpDiv v unit)) 0 vs,
          (ue4m4Ceil rn rd).isNone, 0⟩
  | 0x0C =>
    if bad then ⟨0x7FC0, zeros, false, 0⟩
    else
      let m := blockMax false vs
      if m.1 = 0 then ⟨0, zeros, false, 0⟩
      else
        let k := min (max (log2Frac m.1 m.2 + 1) (-126)) 127
        ⟨((k + 127) * 128).toNat,
          mapIdx (fun i v => encElem fmt (rndAt draws i) (fpDiv v (pow2V k))) 0 vs,
          2 ^ 127 * m.2 ≤ m.1, 0⟩
  | 0x0D =>
    if bad then ⟨0x7FC0, zeros, false, 0⟩
    else
      let negs := (vs.filter fun v => match v with | .fin s _ _ => s | _ => false).length
      let m := blockMax true vs
      if m.1 = 0 then ⟨0, zeros, false, negs⟩
      else
        let k := min (max (log2Frac m.1 m.2) (-126)) 127
        ⟨((k + 127) * 128).toNat,
          mapIdx (fun i v => match fpDiv v (pow2V k) with
            | .fin false n d => min (roundMag fQM2 (rndAt draws i) n d) 0xFF
            | _ => 0) 0 vs,
          false, negs⟩
  | _ =>
    if bad then ⟨0xFF, zeros, false, 0⟩
    else
      let m := blockMax false vs
      if m.1 = 0 then ⟨0, zeros, false, 0⟩
      else
        let k := min (max (log2Frac m.1 m.2 - emaxOf fmt) (-127)) 127
        ⟨(k + 127).toNat,
          mapIdx (fun i v => encElem fmt (rndAt draws i) (fpDiv v (pow2V k))) 0 vs, false, 0⟩

/-- A tensor scale that R70 accepts: finite, positive and normal. -/
def sb4ScaleOk (w : Word) : Bool :=
  let e := w.toNat / 2 ^ 23
  1 ≤ e && e ≤ 254

/-! ## Column sums -/

/-- Elements of one summation group (R76). -/
def groupLen (fa fb : Nat) : Nat := if fa = 0x0B ∨ fb = 0x0B then 8 else 32

/-- G_k: the exact sum of a group's products under every scale (R77, R78). The elements carry their own
scales, so ∞ times a zero scale is ∞ × 0 and gives NaN, and a NaN scale gives NaN. -/
def groupSum (ps : List (FpV × FpV)) : FpV :=
  let prods := ps.map fun p => fpMul p.1 p.2
  if prods.any (· == .nan) then .nan
  else
    let pinf := prods.any (· == .inf false)
    let ninf := prods.any (· == .inf true)
    if pinf && ninf then .nan
    else if pinf then .inf false
    else if ninf then .inf true
    else
      match prods.foldl fpAdd (.fin false 0 1) with
      | .fin _ 0 _ => .fin false 0 1
      | v => v

/-- An operand element with every scale applied, for R78: an infinite element under a zero scale is NaN. -/
def operandV (fmt scale : Nat) (tScale : Word) (code : Nat) : FpV :=
  if !isBlock fmt then elemV fmt code
  else
    let v := fpMul (scaleV fmt scale) (elemV fmt code)
    if fmt = 0x0B then fpMul (ofFp32 tScale) v else v

/-- Add one group into an accumulator (R77, R80, R81); `comp` selects the compensated update. `elemNan`
says that an element or a scale of the group was NaN. -/
def accAdd (comp elemNan : Bool) (a : Acc) (g : FpV) : Acc :=
  let x := fpAdd (ofFp32 a.acc) g
  let r := toFp32 x
  let rv := ofFp32 r
  let fin0 := !nonFinite (ofFp32 a.acc) && !nonFinite g
  let isInf := match rv with | .inf _ => true | _ => false
  { acc := r
    err := if !comp then a.err
           else if nonFinite rv then 0
           else toFp32 (fpAdd (ofFp32 a.err) (fpAdd x rv.neg))
    ovf := a.ovf || (fin0 && isInf)
    inv := a.inv || (rv == .nan && ofFp32 a.acc != .nan && !elemNan) }

/-! ## The window record -/

/-- Contribute a value (R83). -/
def winAdd (w : WinRec) (v : FpV) : WinRec :=
  match v with
  | .nan => { w with nan := true }
  | .inf true => { w with ninf := true }
  | .inf false => { w with pinf := true }
  | .fin s n d =>
    if 2 ^ 63 * d ≤ n then (if s then { w with ovn := true } else { w with ovp := true })
    else
      let k := n * 2 ^ 128 / d
      if k = 0 then (if n = 0 then w else { w with under := min (w.under + 1) 0xFFFF })
      else { w with sum := (if s then w.sum + 2 ^ 208 - k else w.sum + k) % 2 ^ 208 }

/-- Combine two records (R84). -/
def winMerge (a b : WinRec) : WinRec :=
  { sum := (a.sum + b.sum) % 2 ^ 208
    under := min (a.under + b.under) 0xFFFF
    nan := a.nan || b.nan
    pinf := a.pinf || b.pinf
    ninf := a.ninf || b.ninf
    ovp := a.ovp || b.ovp
    ovn := a.ovn || b.ovn }

/-- The 32 bytes of a record (R82). -/
def winBytes (w : WinRec) : List Byte :=
  leBytes 32 (w.sum + w.under * 2 ^ 208 + bitN w.nan * 2 ^ 224 + bitN w.pinf * 2 ^ 225
    + bitN w.ninf * 2 ^ 226 + bitN w.ovp * 2 ^ 227 + bitN w.ovn * 2 ^ 228)

/-- A record read from its 32 bytes. -/
def winOfBytes (bs : List Byte) : WinRec :=
  let x := leNat bs
  { sum := x % 2 ^ 208
    under := bits x 223 208
    nan := x.testBit 224
    pinf := x.testBit 225
    ninf := x.testBit 226
    ovp := x.testBit 227
    ovn := x.testBit 228 }

/-- Read a record out to a target format with multiplier m (R86): the code and RANGE_OVERFLOW. -/
def winRead (f : FFmt) (sat : Bool) (m : Word) (w : WinRec) : Nat × Bool :=
  let mv := ofFp32 m
  let mneg := m.toNat ≥ 2 ^ 31
  let neg := w.sum ≥ 2 ^ 207
  let mag := if neg then 2 ^ 208 - w.sum else w.sum
  let ovfl (s : Bool) : Nat × Bool :=
    if sat then (signCode f (s != mneg) + maxFinite f, true)
    else if f.ieee then (signCode f (s != mneg) + (maxFinite f + 1), true)
    else (nanCode f, true)
  if w.nan || (w.pinf && w.ninf) || (w.ovp && w.ovn) then (nanCode f, false)
  else if w.pinf || w.ninf then narrow f sat .rne (.inf (w.ninf != mneg))
  else if w.ovp || w.ovn then ovfl w.ovn
  else if 2 ^ 191 ≤ mag then ovfl neg
  else if w.sum = 0 then (0, false)
  else narrow f sat .rne (fpMul mv (.fin neg mag (2 ^ 128)))

end Sys2Proof.Machine
end

