-- ==== Sys2Proof/Machine/Flags.lean ====
section
/-! DEFINITION. Completion status: the codes of R17, which of several conditions is reported (R22), the rank
of R573, the detail field of R144, and the check characters of the records (CRC-32C). -/

namespace Sys2Proof.Machine

open Sys2Proof

/-! The codes of R17. -/

def stSUCCESS : Nat := 0x00
def stNOTE : Nat := 0x01
def stPREEMPTED : Nat := 0x02
def stOVERFLOW : Nat := 0x03
def stSTATE : Nat := 0x08
def stBAD : Nat := 0x09
def stUNSUP : Nat := 0x0A
def stSEG : Nat := 0x10
def stPERM : Nat := 0x11
def stWINDOW : Nat := 0x12
def stHOLE : Nat := 0x13
def stPOISON : Nat := 0x18
def stTIER : Nat := 0x19
def stTIMEOUT : Nat := 0x20
def stPEER : Nat := 0x21
def stABORT : Nat := 0x22
def stFOLDRESET : Nat := 0x28
def stFENCED : Nat := 0x29

/-- The items of R22 in order; item i is entry i - 1. -/
def condOrder : List Nat :=
  [stFOLDRESET, stFENCED, stABORT, stPOISON, stTIER, stPEER, stTIMEOUT, stWINDOW, stPERM, stSEG, stHOLE,
    stOVERFLOW, stPREEMPTED, stNOTE]

/-- The order of R573, from the highest rank. -/
def rankOrder : List Nat :=
  [stFOLDRESET, stFENCED, stABORT, stPOISON, stTIER, stPEER, stTIMEOUT, stWINDOW, stPERM, stSEG, stHOLE,
    stBAD, stUNSUP, stSTATE, stOVERFLOW, stPREEMPTED, stNOTE, stSUCCESS]

/-- The highest-ranked code among several (R573). -/
def highest (cs : List Nat) : Nat := (rankOrder.find? fun c => cs.contains c).getD stSUCCESS

/-- COND: bit i - 1 is set when item i of the R22 list was met (R144). -/
def condBits (cs : List Nat) : Nat :=
  (mapIdxNat 0 condOrder).foldl (fun m ic => if cs.contains ic.2 then m + 2 ^ ic.1 else m) 0
where
  /-- Pair each entry with its place. -/
  mapIdxNat : Nat → List Nat → List (Nat × Nat)
    | _, [] => []
    | i, a :: t => (i, a) :: mapIdxNat (i + 1) t

/-- The status of a command that met the conditions `cs`, one entry each time one was met: the earliest item
of R22 is reported, and NOTE counts how often it was met, stopping at 0xFFFF (R144). -/
def resOf (cs : List Nat) : Res :=
  match condOrder.find? fun c => cs.contains c with
  | none => {}
  | some c => { code := c, cond := condBits cs, note := min (cs.filter (· == c)).length 0xFFFF }

/-- The status of a command that fails acceptance (R20, R21): it sets no COND bit (R573), and NOTE counts the one
failure under the reported code (R144, DESIGN CHOICE, notes/assumptions/127.md). -/
def reject (code : Nat) : Res := { code := code, note := 1 }

/-- The first failing acceptance check, in the order BAD_DESC, UNSUPPORTED, STATE_ERROR (R21). -/
def acceptance (bad unsup state : Bool) : Option Nat :=
  if bad then some stBAD else if unsup then some stUNSUP else if state then some stSTATE else none

/-! CRC-32C, the check of records and frames (R120, R319, R356). -/

/-- One bit of the reflected CRC-32C register. -/
def crcBit (c : Nat) : Nat := if c % 2 = 1 then (c / 2) ^^^ 0x82F63B78 else c / 2

/-- Eight bits. -/
def crcByte (c : Nat) (b : Byte) : Nat :=
  crcBit (crcBit (crcBit (crcBit (crcBit (crcBit (crcBit (crcBit (c ^^^ b.toNat))))))))

/-- CRC-32C over a byte string. -/
def crc32c (bs : List Byte) : Nat := (bs.foldl crcByte 0xFFFFFFFF) ^^^ 0xFFFFFFFF

end Sys2Proof.Machine
end

