-- ==== Sys2Proof/Config.lean ====
section
/-! DEFINITION. What the manual leaves to the implementation or leaves open, as constants without a body. -/

namespace Sys2Proof

/-- The byte at a physical address inside a range whose contents the manual leaves undefined; the first
argument numbers the range (notes/assumptions/4.md). -/
opaque Config.freeByte : Nat → Nat → Byte

/-- One instruction of the LPX set that touches only the core itself, whose encoding ships with the toolchain
(R127): from the instruction buffer, the byte offset of the instruction and the 32 registers, the next offset
and the registers after it; none for an undefined instruction (notes/assumptions/21.md). -/
opaque Config.lpxScalar : List Byte → Nat → List Word64 → Option (Nat × List Word64)

/-- The byte offset of the instruction after the one at an offset of the buffer (R127). -/
opaque Config.lpxNext : List Byte → Nat → Nat

/-- Buffers of a message class, beyond the first, at an input of a hub (R31), by input and class in R38's order: the manual
gives each class buffers of its own and not their number (notes/assumptions/104.md). -/
opaque Config.hubBuffers : Nat → Nat → Nat

/-- In one draw of the management controllers' random source, which of the words that R188 allows word `i` of key set `k`
is, by number k × 22 + i (notes/assumptions/23.md). -/
opaque Config.freeKey : Nat → Nat → BitVec 10

/-- The directory set of a line of a tile (R272): the manual gives the sets' number and ways, not the
selection (notes/assumptions/24.md). -/
opaque Config.dirSet : Nat → Nat

/-- Whether the home store still holds a line it has held before (R267): its replacement is not stated
(notes/assumptions/25.md). -/
opaque Config.homeHit : Nat → Bool

/-- The draws of the random source that picks intermediate packages, by draw and axis (R365). -/
opaque Config.freeVia : Nat → Nat → Nat

/-- A word of the pod and system pages as the crook holder combined it in a collection, by collection and word (R49, R506,
notes/assumptions/81.md). -/
opaque Config.podWord : Nat → Nat → Word

/-- Whether a package number is on this pod's ring: what lies beyond the ring (R505) is the pod's wiring, which no
register gives. -/
opaque Config.podMember : Nat → Bool

/-- Whether the boot flash holds a Llynox-signed RMA authorisation for this part (R560), at the n-th draw: the
flash's contents are the board's. -/
opaque Config.rmaAuth : Nat → Bool

/-- A JPEG component as its entropy coding gives it (R323, R325): sampling factors, blocks across, and the
dequantised coefficients, 64 a block, F(u, v) at 8 v + u. -/
structure JpegComp where
  hs : Nat := 1
  vs : Nat := 1
  across : Nat := 0
  coef : List Int := []
  deriving DecidableEq, Repr, Inhabited

/-- A parsed JPEG picture: a cause of R334 or 0, its size, components and whether an APP14 segment marks them
as RGB. -/
structure JpegRaw where
  cause : Nat := 0
  w : Nat := 0
  h : Nat := 0
  comps : List JpegComp := []
  rgb : Bool := false
  deriving DecidableEq, Repr, Inhabited

/-- A parsed PNG picture: colour type, bit depth, palette and the samples of its pixels in row order. -/
structure PngRaw where
  cause : Nat := 0
  w : Nat := 0
  h : Nat := 0
  colour : Nat := 0
  depth : Nat := 8
  palette : List (Nat × Nat × Nat) := []
  px : List Nat := []
  deriving DecidableEq, Repr, Inhabited

/-- A decoded video picture: its planes, luma first, at their own resolution, and whether it, or a picture decoded to
reach it, was concealed (R334, R335). -/
structure VideoPic where
  y : List Nat := []
  cb : List Nat := []
  cr : List Nat := []
  concealed : Bool := false
  deriving DecidableEq, Repr, Inhabited

/-- The pictures of a video segment from an output index on. -/
structure VideoRaw where
  cause : Nat := 0
  w : Nat := 0
  h : Nat := 0
  bd : Nat := 8
  mono : Bool := false
  pics : List VideoPic := []
  deriving DecidableEq, Repr, Inhabited

/-- What ITU-T T.81, ISO/IEC 15948 and the HEVC and AV1 specifications make of encoded bytes (R323, R324): the
manual takes these from the standards (notes/assumptions/27.md). -/
opaque Config.jpegParse : List Byte → JpegRaw
opaque Config.pngParse : List Byte → PngRaw
/-- From the kind (3 HEVC, 4 AV1), the bytes, and PIC. -/
opaque Config.videoParse : Nat → List Byte → Nat → VideoRaw

end Sys2Proof
end

