-- ==== Sys2Proof/Machine/Fields.lean ====
section
/-! DEFINITION. The register fields of every page of the part, one definition per field, named
REGISTER_FIELD as R25 writes them, and the table of them all. A field's row says the block type it
belongs to, its byte offset within the page, the stride and number of its copies, its bits, its access
type under R526 and its Reset value under R529. The rule named beside each field is the one that lays
it out. Fields whose Reset column says Fuses or Per page carry 0 here; Machine/Regs.lean gives
those values. -/

namespace Sys2Proof.Machine

/-- The access types of R526. -/
inductive Access where
  | rw | ro | wo | w1c | w1s | rwl | rws
  deriving DecidableEq, Repr

/-- One field of one register of one block type (R521 to R526). `blk` is the block-type code of R519
(0xFF for the common header of R521); copy i of the register lies at `off + i * stride`, i < `cnt`;
the field is bits [hi:lo] of the word (or 64-bit pair) at that offset. `sysOnly` marks fields that only
SYSTEM authority writes, `hwRec` the hardware-recorded RWS fields of R526, `native` the registers
that belong to a group page itself under R525. -/
structure Field where
  blk : Nat
  off : Nat
  stride : Nat
  cnt : Nat
  hi : Nat
  lo : Nat
  acc : Access
  rst : Nat
  sysOnly : Bool := false
  hwRec : Bool := false
  native : Bool := false
  deriving DecidableEq, Repr


/-- R41 -/
def F.HUB_ARB_CTL_STARVE_LIMIT : Field := .mk 0x10 0x100 0x0 1 15 0 .rwl 0x400 false false false
/-- R41 -/
def F.HUB_ARB_CTL_STALL_MULT : Field := .mk 0x10 0x100 0x0 1 19 16 .rwl 0x4 false false false
/-- R41 -/
def F.HUB_STS_URGENT_NOW : Field := .mk 0x10 0x104 0x0 1 11 0 .ro 0x0 false false false
/-- R41 -/
def F.HUB_STS_BRIDGE_DETOUR : Field := .mk 0x10 0x104 0x0 1 12 12 .rws 0x0 false true false
/-- R41 -/
def F.HUB_STS_LOST_BRIDGE : Field := .mk 0x10 0x104 0x0 1 15 13 .rws 0x0 false true false
/-- R123 -/
def F.MXA_CFG_QUARTER : Field := .mk 0x20 0x100 0x0 1 0 0 .rw 0x0 false false false
/-- R123 -/
def F.MXA_STS_BUSY : Field := .mk 0x20 0x104 0x0 1 0 0 .ro 0x0 false false false
/-- R123 -/
def F.MXA_STS_QUARTER_ACTIVE : Field := .mk 0x20 0x104 0x0 1 1 1 .ro 0x0 false false false
/-- R123 -/
def F.MXA_STS_FROZEN : Field := .mk 0x20 0x104 0x0 1 2 2 .ro 0x0 false false false
/-- R123 -/
def F.MXA_STS_CHECKING : Field := .mk 0x20 0x104 0x0 1 3 3 .ro 0x0 false false false
/-- R123 -/
def F.MXA_STS_OFFLINE : Field := .mk 0x20 0x104 0x0 1 4 4 .ro 0x0 false false false
/-- R123 -/
def F.MXA_STS_PREEMPT_PENDING : Field := .mk 0x20 0x104 0x0 1 5 5 .ro 0x0 false false false
/-- R123 -/
def F.MXA_STS_QBUSY : Field := .mk 0x20 0x104 0x0 1 9 6 .ro 0x0 false false false
/-- R123 -/
def F.MXA_STS_BANK_LAST : Field := .mk 0x20 0x104 0x0 1 10 10 .ro 0x0 false false false
/-- R123 -/
def F.MXA_FAULT_VALID : Field := .mk 0x20 0x108 0x0 1 0 0 .w1c 0x0 false false false
/-- R123 -/
def F.MXA_FAULT_CAUSE : Field := .mk 0x20 0x108 0x0 1 3 1 .ro 0x0 false false false
/-- R123 -/
def F.MXA_FAULT_QUARTER_ID : Field := .mk 0x20 0x108 0x0 1 5 4 .ro 0x0 false false false
/-- R123 -/
def F.MXA_FAULT_SHARED : Field := .mk 0x20 0x108 0x0 1 6 6 .ro 0x0 false false false
/-- R123 -/
def F.MXA_FAULT_CONTEXT : Field := .mk 0x20 0x108 0x0 1 15 7 .ro 0x0 false false false
/-- R125 -/
def F.MXA_PENMAP_LO_PHYS_PEN_0_7 : Field := .mk 0x20 0x100 0x0 1 31 0 .ro 0x76543210 false false true
/-- R125 -/
def F.MXA_PENMAP_HI_PHYS_PEN_8 : Field := .mk 0x20 0x104 0x0 1 3 0 .ro 0x8 false false true
/-- R125 -/
def F.MXA_DISABLED_PEN_HAS_OFF : Field := .mk 0x20 0x108 0x0 1 8 0 .ro 0x0 false false true
/-- R125 -/
def F.MXA_DISPOS_OFF_ARRAY : Field := .mk 0x20 0x10C 0x0 1 26 0 .ro 0x0 false false true
/-- R145 -/
def F.QBASE_LO_BASE_LO : Field := .mk 0x40 0x100 0x20 8 31 8 .rw 0x0 false false false
/-- R145 -/
def F.QBASE_HI_BASE_HI : Field := .mk 0x40 0x104 0x20 8 15 0 .rw 0x0 false false false
/-- R145 -/
def F.QCFG_ENABLE : Field := .mk 0x40 0x108 0x20 8 0 0 .rw 0x0 false false false
/-- R145 -/
def F.QCFG_SIZE_LOG2 : Field := .mk 0x40 0x108 0x20 8 4 1 .rw 0x4 false false false
/-- R145 -/
def F.QCFG_CLASS : Field := .mk 0x40 0x108 0x20 8 6 5 .rw 0x1 false false false
/-- R145 -/
def F.QCFG_AGE_LIMIT : Field := .mk 0x40 0x108 0x20 8 22 7 .rw 0x64 false false false
/-- R145 -/
def F.QCFG_HOME_TILE : Field := .mk 0x40 0x108 0x20 8 24 23 .rw 0x0 false false false
/-- R145 -/
def F.QDB_TAIL : Field := .mk 0x40 0x10C 0x20 8 15 0 .wo 0x0 false false false
/-- R145 -/
def F.QSTS_HEAD : Field := .mk 0x40 0x110 0x20 8 15 0 .ro 0x0 false false false
/-- R145 -/
def F.QSTS_DB_OVERRUN : Field := .mk 0x40 0x110 0x20 8 16 16 .w1c 0x0 false false false
/-- R145 -/
def F.QSTS_BLOCKED : Field := .mk 0x40 0x110 0x20 8 17 17 .ro 0x0 false false false
/-- R145 -/
def F.QSTS_AGED : Field := .mk 0x40 0x110 0x20 8 18 18 .ro 0x0 false false false
/-- R145 -/
def F.QSTS_CPL_ERR : Field := .mk 0x40 0x110 0x20 8 19 19 .w1c 0x0 false false false
/-- R145 -/
def F.QSTS_CPL_CODE : Field := .mk 0x40 0x110 0x20 8 27 20 .ro 0x0 false false false
/-- R145 -/
def F.CQHEAD : Field := .mk 0x40 0x114 0x20 8 15 0 .rw 0x0 false false false
/-- R145 -/
def F.CBASE_LO : Field := .mk 0x40 0x118 0x20 8 31 4 .rw 0x0 false false false
/-- R145 -/
def F.CBASE_HI : Field := .mk 0x40 0x11C 0x20 8 15 0 .rw 0x0 false false false
/-- R145 -/
def F.TALLY_VAL_VALUE : Field := .mk 0x40 0x200 0x10 64 63 0 .ro 0x0 false false false
/-- R145 -/
def F.TALLY_ADD_AMOUNT : Field := .mk 0x40 0x208 0x10 64 31 0 .wo 0x0 false false false
/-- R145 -/
def F.TALLY_GEN_GEN : Field := .mk 0x40 0x20C 0x10 64 7 0 .ro 0x0 false false false
/-- R145 -/
def F.TALLY_GEN_OVF : Field := .mk 0x40 0x20C 0x10 64 8 8 .w1c 0x0 false false false
/-- R159 -/
def F.PREP_STS_RUNNING : Field := .mk 0x21 0x100 0x0 1 0 0 .ro 0x0 false false false
/-- R159 -/
def F.PREP_STS_HALTED : Field := .mk 0x21 0x100 0x0 1 1 1 .ro 0x1 false false false
/-- R159 -/
def F.PREP_STS_HALT_CODE : Field := .mk 0x21 0x100 0x0 1 9 2 .ro 0x0 false false false
/-- R159 -/
def F.PREP_STS_CONTEXT : Field := .mk 0x21 0x100 0x0 1 18 10 .ro 0x0 false false false
/-- R159 -/
def F.PREP_STS_POISON : Field := .mk 0x21 0x100 0x0 1 19 19 .ro 0x0 false false false
/-- R159 -/
def F.PREP_FAULT_VALID : Field := .mk 0x21 0x104 0x0 1 0 0 .w1c 0x0 false false false
/-- R159 -/
def F.PREP_FAULT_CAUSE : Field := .mk 0x21 0x104 0x0 1 3 1 .ro 0x0 false false false
/-- R159 -/
def F.PREP_FAULT_PC : Field := .mk 0x21 0x104 0x0 1 15 4 .ro 0x0 false false false
/-- R159 -/
def F.PREP_FAULT_CONTEXT : Field := .mk 0x21 0x104 0x0 1 24 16 .ro 0x0 false false false
/-- R159 -/
def F.PREP_FADDR_OFFSET : Field := .mk 0x21 0x108 0x0 1 26 0 .ro 0x0 false false false
/-- R159 -/
def F.LIST_STS_ACTIVE : Field := .mk 0x21 0x180 0x0 1 0 0 .ro 0x0 false false true
/-- R159 -/
def F.LIST_STS_NEXT : Field := .mk 0x21 0x180 0x0 1 12 1 .ro 0x0 false false true
/-- R159 -/
def F.LIST_STS_CONTEXT : Field := .mk 0x21 0x180 0x0 1 21 13 .ro 0x0 false false true
/-- R159 -/
def F.LIST_STS_HELD : Field := .mk 0x21 0x180 0x0 1 29 22 .ro 0x0 false false true
/-- R160 -/
def F.VEC_STS_READY : Field := .mk 0x22 0x100 0x0 1 3 0 .ro 0x0 false false false
/-- R160 -/
def F.VEC_STS_WAITING : Field := .mk 0x22 0x100 0x0 1 7 4 .ro 0x0 false false false
/-- R161 -/
def F.HATCH_STS_BUSY : Field := .mk 0x23 0x100 0x0 1 0 0 .ro 0x0 false false false
/-- R161 -/
def F.HATCH_STS_FIFO_DEPTH : Field := .mk 0x23 0x100 0x0 1 3 1 .ro 0x0 false false false
/-- R161 -/
def F.HATCH_STS_CONTEXT : Field := .mk 0x23 0x100 0x0 1 12 4 .ro 0x0 false false false
/-- R161 -/
def F.HATCH_ERRLOG_VALID : Field := .mk 0x23 0x104 0x0 1 0 0 .w1c 0x0 false false false
/-- R161 -/
def F.HATCH_ERRLOG_CAUSE : Field := .mk 0x23 0x104 0x0 1 3 1 .ro 0x0 false false false
/-- R161 -/
def F.HATCH_ERRLOG_CONTEXT : Field := .mk 0x23 0x104 0x0 1 12 4 .ro 0x0 false false false
/-- R181 -/
def F.SPAD_ARB_CLASS34_LIMIT : Field := .mk 0x24 0x100 0x0 1 7 0 .rwl 0x1F false false false
/-- R181 -/
def F.SPAD_ARB_DEBUG_LIMIT : Field := .mk 0x24 0x100 0x0 1 15 8 .rwl 0xFF false false false
/-- R181 -/
def F.SPAD_ARB_SCRUB_EN : Field := .mk 0x24 0x100 0x0 1 16 16 .rwl 0x1 false false false
/-- R181 -/
def F.SPAD_STS_INIT_BUSY : Field := .mk 0x24 0x104 0x0 1 0 0 .ro 0x1 false false false
/-- R181 -/
def F.SPAD_STS_KEEP_WIPING : Field := .mk 0x24 0x104 0x0 1 1 1 .ro 0x0 false false false
/-- R181 -/
def F.SPAD_STS_WIPE_CAUSE : Field := .mk 0x24 0x104 0x0 1 3 2 .rws 0x0 false true false
/-- R181 -/
def F.SPAD_STS_WIPE_COUNT : Field := .mk 0x24 0x104 0x0 1 11 4 .rws 0x0 false true false
/-- R181 -/
def F.SPAD_ERRLOG_VALID : Field := .mk 0x24 0x108 0x0 1 0 0 .w1c 0x0 false false false
/-- R181 -/
def F.SPAD_ERRLOG_UE : Field := .mk 0x24 0x108 0x0 1 1 1 .ro 0x0 false false false
/-- R181 -/
def F.SPAD_ERRLOG_POISON_READ : Field := .mk 0x24 0x108 0x0 1 2 2 .ro 0x0 false false false
/-- R181 -/
def F.SPAD_ERRLOG_STORE : Field := .mk 0x24 0x108 0x0 1 9 3 .ro 0x0 false false false
/-- R181 -/
def F.SPAD_ERRLOG_CLASS : Field := .mk 0x24 0x108 0x0 1 12 10 .ro 0x0 false false false
/-- R181 -/
def F.SPAD_ERRADDR_GRANULE : Field := .mk 0x24 0x10C 0x0 1 23 0 .ro 0x0 false false false
/-- R181 -/
def F.SPAD_REPAIR_SPARES_USED : Field := .mk 0x24 0x200 0x4 11 31 0 .ro 0x0 false false false
/-- R206 -/
def F.MEMMAP_CTL_LOCK : Field := .mk 0x02 0x100 0x0 1 0 0 .w1s 0x0 false false false
/-- R206 -/
def F.MEMMAP_CTL_LOCAL_SPLIT : Field := .mk 0x02 0x100 0x0 1 6 1 .rwl 0x0 false false false
/-- R206 -/
def F.MEMMAP_CTL_KEY_FIXED : Field := .mk 0x02 0x100 0x0 1 7 7 .rwl 0x0 false false false
/-- R206 -/
def F.MEMMAP_STS_LIVE : Field := .mk 0x02 0x104 0x0 1 9 0 .ro 0x0 false false false
/-- R206 -/
def F.MEMMAP_STS_BUILT : Field := .mk 0x02 0x104 0x0 1 10 10 .ro 0x0 false false false
/-- R206 -/
def F.MEMMAP_STS_READY : Field := .mk 0x02 0x104 0x0 1 11 11 .ro 0x0 false false false
/-- R206 -/
def F.MEMMAP_TLIVE_TILE_LIVE : Field := .mk 0x02 0x108 0x0 1 31 0 .ro 0x0 false false false
/-- R206 -/
def F.MEMMAP_IMB_IMB_RATIO : Field := .mk 0x02 0x10C 0x0 1 7 0 .rw 0x30 false false false
/-- R206 -/
def F.MEMMAP_IMB_IMB_HOLD : Field := .mk 0x02 0x10C 0x0 1 23 8 .rw 0xE10 false false false
/-- R206 -/
def F.MEMMAP_IMB_IMB_WINDOW : Field := .mk 0x02 0x10C 0x0 1 27 24 .rw 0xA false false false
/-- R206 -/
def F.MEMMAP_IMB_IMB_EN : Field := .mk 0x02 0x10C 0x0 1 28 28 .rw 0x1 false false false
/-- R206 -/
def F.MEMMAP_IMBSTS_EVENT : Field := .mk 0x02 0x110 0x0 1 0 0 .w1c 0x0 false false false
/-- R206 -/
def F.MEMMAP_IMBSTS_HOT_CHAN : Field := .mk 0x02 0x110 0x0 1 10 1 .ro 0x0 false false false
/-- R206 -/
def F.MEMMAP_IMBSTS_HOT_ZONE : Field := .mk 0x02 0x110 0x0 1 16 11 .ro 0x0 false false false
/-- R206 -/
def F.MEMMAP_IMBSTS_HOT_FOLD : Field := .mk 0x02 0x110 0x0 1 20 17 .ro 0x0 false false false
/-- R206 -/
def F.MEMMAP_KEYSEL_SET : Field := .mk 0x02 0x114 0x0 1 2 0 .rw 0x0 false false false
/-- R206 -/
def F.MEMMAP_KEYSEL_INDEX : Field := .mk 0x02 0x114 0x0 1 7 3 .rw 0x0 false false false
/-- R206 -/
def F.MEMMAP_KEYDATA_KEY : Field := .mk 0x02 0x118 0x0 1 9 0 .ro 0x0 false false false
/-- R206 -/
def F.MEMMAP_TBLSEL_ENTRY : Field := .mk 0x02 0x11C 0x0 1 9 0 .rw 0x0 false false false
/-- R206 -/
def F.MEMMAP_TBLSEL_TABLE : Field := .mk 0x02 0x11C 0x0 1 12 10 .rw 0x0 false false false
/-- R206 -/
def F.MEMMAP_TBLDATA_CHAN : Field := .mk 0x02 0x120 0x0 1 9 0 .ro 0x3FF false false false
/-- R206 -/
def F.MEMMAP_ZSALT_SALT : Field := .mk 0x02 0x140 0x4 8 23 0 .rw 0xFAC688 false false false
/-- R206 -/
def F.MEMMAP_CHOUT_OUT : Field := .mk 0x02 0x180 0x4 24 31 0 .rwl 0x0 false false false
/-- R207 -/
def F.MEMC_BAD_LO_BAD : Field := .mk 0x13 0x100 0x0 1 31 0 .rws 0x0 false true false
/-- R207 -/
def F.MEMC_BAD_HI_BAD : Field := .mk 0x13 0x104 0x0 1 31 0 .rws 0x0 false true false
/-- R207 -/
def F.MEMC_THERM_TEMP : Field := .mk 0x13 0x108 0x0 1 7 0 .ro 0x0 false false false
/-- R207 -/
def F.MEMC_THERM_LEVEL : Field := .mk 0x13 0x108 0x0 1 9 8 .ro 0x0 false false false
/-- R207 -/
def F.MEMC_THERM_VALID : Field := .mk 0x13 0x108 0x0 1 10 10 .ro 0x0 false false false
/-- R207 -/
def F.MEMC_THRESH_WARN : Field := .mk 0x13 0x10C 0x0 1 7 0 .rwl 0x55 false false false
/-- R207 -/
def F.MEMC_THRESH_THROTTLE : Field := .mk 0x13 0x10C 0x0 1 15 8 .rwl 0x5F false false false
/-- R207 -/
def F.MEMC_THRESH_CRITICAL : Field := .mk 0x13 0x10C 0x0 1 23 16 .rwl 0x69 false false false
/-- R207 -/
def F.MEMC_THRESH_HYST : Field := .mk 0x13 0x10C 0x0 1 27 24 .rwl 0x3 false false false
/-- R207 -/
def F.MEMC_THR_RATE_RATE : Field := .mk 0x13 0x110 0x0 1 3 0 .rw 0x8 false false false
/-- R207 -/
def F.MEMC_ERRLOG_VALID : Field := .mk 0x13 0x114 0x0 1 0 0 .w1c 0x0 false false false
/-- R207 -/
def F.MEMC_ERRLOG_UE : Field := .mk 0x13 0x114 0x0 1 1 1 .ro 0x0 false false false
/-- R207 -/
def F.MEMC_ERRLOG_PC : Field := .mk 0x13 0x114 0x0 1 7 2 .ro 0x0 false false false
/-- R207 -/
def F.MEMC_ERRLOG_CAUSE : Field := .mk 0x13 0x114 0x0 1 10 8 .ro 0x0 false false false
/-- R207 -/
def F.MEMC_ERRADDR_LINE : Field := .mk 0x13 0x118 0x0 1 21 0 .ro 0x0 false false false
/-- R235 -/
def F.DRV_CFG_TIER_TMO : Field := .mk 0x14 0x100 0x0 1 15 0 .rwl 0x64 false false false
/-- R235 -/
def F.DRV_STS_BUSY : Field := .mk 0x14 0x104 0x0 1 0 0 .ro 0x0 false false false
/-- R235 -/
def F.DRV_STS_OPCODE : Field := .mk 0x14 0x104 0x0 1 8 1 .ro 0x0 false false false
/-- R235 -/
def F.DRV_STS_CONTEXT : Field := .mk 0x14 0x104 0x0 1 17 9 .ro 0x0 false false false
/-- R235 -/
def F.DRV_STS_FOLD : Field := .mk 0x14 0x104 0x0 1 21 18 .ro 0x0 false false false
/-- R235 -/
def F.DRV_ERRLOG_VALID : Field := .mk 0x14 0x108 0x0 1 0 0 .w1c 0x0 false false false
/-- R235 -/
def F.DRV_ERRLOG_CAUSE : Field := .mk 0x14 0x108 0x0 1 3 1 .ro 0x0 false false false
/-- R235 -/
def F.DRV_ERRLOG_CONTEXT : Field := .mk 0x14 0x108 0x0 1 12 4 .ro 0x0 false false false
/-- R235 -/
def F.DRV_ERRADDR_LO_ADDR_LO : Field := .mk 0x14 0x10C 0x0 1 31 0 .ro 0x0 false false false
/-- R235 -/
def F.DRV_ERRADDR_HI_ADDR_HI : Field := .mk 0x14 0x110 0x0 1 15 0 .ro 0x0 false false false
/-- R236 -/
def F.DRV_CHUNKTBL_LO_BASE_LO : Field := .mk 0x14 0x200 0x8 16 31 5 .rw 0x0 false false true
/-- R236 -/
def F.DRV_CHUNKTBL_HI_BASE_HI : Field := .mk 0x14 0x204 0x8 16 15 0 .rw 0x0 false false true
/-- R236 -/
def F.DRV_CHUNKTBL_HI_COUNT : Field := .mk 0x14 0x204 0x8 16 31 16 .rw 0x0 false false true
/-- R262 -/
def F.CTX_CFG_ENABLE : Field := .mk 0x40 0x600 0x0 1 0 0 .rw 0x0 false false false
/-- R262 -/
def F.CTX_CFG_DEBUG_PRIV : Field := .mk 0x40 0x600 0x0 1 1 1 .rw 0x0 true false false
/-- R262 -/
def F.CTX_CFG_FOLD : Field := .mk 0x40 0x600 0x0 1 5 2 .rw 0x0 true false false
/-- R262 -/
def F.CTX_CFG_FOLD_VALID : Field := .mk 0x40 0x600 0x0 1 6 6 .rw 0x0 true false false
/-- R262 -/
def F.CTX_SEGTBL_LO_BASE_LO : Field := .mk 0x40 0x604 0x0 1 31 9 .rw 0x0 false false false
/-- R262 -/
def F.CTX_SEGTBL_HI_BASE_HI : Field := .mk 0x40 0x608 0x0 1 15 0 .rw 0x0 false false false
/-- R262 -/
def F.CTX_SAVE_LO_SAVE_LO : Field := .mk 0x40 0x60C 0x0 1 31 12 .rw 0x0 false false false
/-- R262 -/
def F.CTX_SAVE_HI_SAVE_HI : Field := .mk 0x40 0x610 0x0 1 15 0 .rw 0x0 false false false
/-- R262 -/
def F.CTX_SAVE_HI_SAVE_VALID : Field := .mk 0x40 0x610 0x0 1 16 16 .rw 0x0 false false false
/-- R262 -/
def F.CTX_SEGINV_GO : Field := .mk 0x40 0x614 0x0 1 0 0 .wo 0x0 false false false
/-- R262 -/
def F.CTX_SEGINV_STS_ISSUED : Field := .mk 0x40 0x618 0x0 1 15 0 .ro 0x0 false false false
/-- R262 -/
def F.CTX_SEGINV_STS_DONE : Field := .mk 0x40 0x618 0x0 1 31 16 .ro 0x0 false false false
/-- R262 -/
def F.CTX_SEGERR_VALID : Field := .mk 0x40 0x61C 0x0 1 0 0 .w1c 0x0 false false false
/-- R262 -/
def F.CTX_SEGERR_SEG : Field := .mk 0x40 0x61C 0x0 1 4 1 .ro 0x0 false false false
/-- R262 -/
def F.CTX_SEGERR_CAUSE : Field := .mk 0x40 0x61C 0x0 1 7 5 .ro 0x0 false false false
/-- R263 -/
def F.FOLD_CTL_ENABLE : Field := .mk 0x41 0x100 0x0 1 0 0 .rw 0x0 true false false
/-- R263 -/
def F.FOLD_STS_ACTIVE : Field := .mk 0x41 0x104 0x0 1 0 0 .ro 0x0 true false false
/-- R263 -/
def F.FOLD_STS_CFG_ERR : Field := .mk 0x41 0x104 0x0 1 1 1 .w1c 0x0 true false false
/-- R263 -/
def F.FOLD_STS_CFG_CAUSE : Field := .mk 0x41 0x104 0x0 1 4 2 .ro 0x0 true false false
/-- R263 -/
def F.FOLD_STS_RESETTING : Field := .mk 0x41 0x104 0x0 1 5 5 .ro 0x0 true false false
/-- R263 -/
def F.FOLD_STS_FQ_ERR : Field := .mk 0x41 0x104 0x0 1 6 6 .w1c 0x0 false false false
/-- R263 -/
def F.FOLD_DIES_DIES : Field := .mk 0x41 0x108 0x0 1 15 0 .rw 0x0 true false false
/-- R263 -/
def F.FOLD_SHARE_SHARE : Field := .mk 0x41 0x10C 0x0 1 5 0 .rw 0x0 true false false
/-- R263 -/
def F.FOLD_SHARE_DRV_CAP : Field := .mk 0x41 0x10C 0x0 1 10 6 .rw 0x4 true false false
/-- R263 -/
def F.FOLD_WIN_LO_WINDOWS : Field := .mk 0x41 0x110 0x0 1 31 0 .rw 0x0 true false false
/-- R263 -/
def F.FOLD_WIN_HI_WINDOWS : Field := .mk 0x41 0x114 0x0 1 31 0 .rw 0x0 true false false
/-- R263 -/
def F.FOLD_FQBASE_LO_BASE_LO : Field := .mk 0x41 0x118 0x0 1 31 5 .rw 0x0 false false false
/-- R263 -/
def F.FOLD_FQBASE_HI_BASE_HI : Field := .mk 0x41 0x11C 0x0 1 15 0 .rw 0x0 false false false
/-- R263 -/
def F.FOLD_FQBASE_HI_LOG2 : Field := .mk 0x41 0x11C 0x0 1 19 16 .rw 0x6 false false false
/-- R263 -/
def F.FOLD_FQHEAD_HEAD : Field := .mk 0x41 0x120 0x0 1 15 0 .rw 0x0 false false false
/-- R263 -/
def F.FOLD_FQTAIL_TAIL : Field := .mk 0x41 0x124 0x0 1 15 0 .ro 0x0 true false false
/-- R263 -/
def F.FOLD_FAULTREPLY_SLOT : Field := .mk 0x41 0x128 0x0 1 4 0 .wo 0x0 false false false
/-- R263 -/
def F.FOLD_FAULTREPLY_SEQ : Field := .mk 0x41 0x128 0x0 1 15 8 .wo 0x0 false false false
/-- R263 -/
def F.FOLD_FAULTREPLY_DECLINE : Field := .mk 0x41 0x128 0x0 1 16 16 .wo 0x0 false false false
/-- R263 -/
def F.FOLD_REGION_LO_BASE : Field := .mk 0x41 0x140 0x8 8 26 0 .rw 0x0 true false false
/-- R263 -/
def F.FOLD_REGION_LO_VALID : Field := .mk 0x41 0x140 0x8 8 27 27 .rw 0x0 true false false
/-- R263 -/
def F.FOLD_REGION_HI_LIMIT : Field := .mk 0x41 0x144 0x8 8 26 0 .rw 0x0 true false false
/-- R263 -/
def F.FOLD_REGION_HI_COMP : Field := .mk 0x41 0x144 0x8 8 27 27 .rw 0x0 true false false
/-- R264 -/
def F.WIN_OUT_TGT_PKG : Field := .mk 0x04 0x100 0x8 64 14 0 .rw 0x0 false false false
/-- R264 -/
def F.WIN_OUT_TGT_IMPORT : Field := .mk 0x04 0x100 0x8 64 21 15 .rw 0x0 false false false
/-- R264 -/
def F.WIN_OUT_ENABLE : Field := .mk 0x04 0x100 0x8 64 31 31 .rw 0x0 false false false
/-- R264 -/
def F.WIN_IN_ENABLE : Field := .mk 0x04 0x300 0x10 128 0 0 .rw 0x0 false false false
/-- R264 -/
def F.WIN_IN_RD : Field := .mk 0x04 0x300 0x10 128 1 1 .rw 0x0 false false false
/-- R264 -/
def F.WIN_IN_WR : Field := .mk 0x04 0x300 0x10 128 2 2 .rw 0x0 false false false
/-- R264 -/
def F.WIN_IN_ATOM : Field := .mk 0x04 0x300 0x10 128 3 3 .rw 0x0 false false false
/-- R264 -/
def F.WIN_IN_SRC_FOLD : Field := .mk 0x04 0x300 0x10 128 7 4 .rw 0x0 false false false
/-- R264 -/
def F.WIN_IN_TGT_FOLD : Field := .mk 0x04 0x300 0x10 128 11 8 .rw 0x0 false false false
/-- R264 -/
def F.WIN_IN_SRC_PKG : Field := .mk 0x04 0x300 0x10 128 26 12 .rw 0x0 false false false
/-- R264 -/
def F.WIN_IN_PBASE_LO : Field := .mk 0x04 0x304 0x10 128 31 0 .rw 0x0 false false false
/-- R264 -/
def F.WIN_IN_PBASE_HI : Field := .mk 0x04 0x308 0x10 128 3 0 .rw 0x0 false false false
/-- R264 -/
def F.WIN_IN_LENGTH : Field := .mk 0x04 0x308 0x10 128 31 4 .rw 0x0 false false false
/-- R291 -/
def F.COH_CFG_VISIT_MODE : Field := .mk 0x12 0x100 0x0 1 1 0 .rwl 0x1 false false false
/-- R291 -/
def F.COH_CFG_LOCK_WAYS : Field := .mk 0x12 0x100 0x0 1 6 2 .rwl 0x0 false false false
/-- R291 -/
def F.COH_STS_DEAD : Field := .mk 0x12 0x104 0x0 1 5 0 .ro 0x0 false false false
/-- R291 -/
def F.COH_STS_RECLAIM_BUSY : Field := .mk 0x12 0x104 0x0 1 6 6 .ro 0x0 false false false
/-- R291 -/
def F.COH_STS_LOCK_READY : Field := .mk 0x12 0x104 0x0 1 7 7 .ro 0x0 false false false
/-- R291 -/
def F.COH_REJOIN_AGENT : Field := .mk 0x12 0x108 0x0 1 5 0 .w1s 0x0 false false false
/-- R291 -/
def F.COH_ERRLOG_VALID : Field := .mk 0x12 0x10C 0x0 1 0 0 .w1c 0x0 false false false
/-- R291 -/
def F.COH_ERRLOG_CAUSE : Field := .mk 0x12 0x10C 0x0 1 3 1 .ro 0x0 false false false
/-- R291 -/
def F.COH_ERRLOG_AGENT : Field := .mk 0x12 0x10C 0x0 1 6 4 .ro 0x0 false false false
/-- R291 -/
def F.COH_ERRADDR_LO_LINE_LO : Field := .mk 0x12 0x110 0x0 1 31 8 .ro 0x0 false false false
/-- R291 -/
def F.COH_ERRADDR_HI_LINE_HI : Field := .mk 0x12 0x114 0x0 1 15 0 .ro 0x0 false false false
/-- R320 -/
def F.HOSTD_CFG_CORE_TMO : Field := .mk 0x30 0x100 0x0 1 15 0 .rwl 0x3E8 false false false
/-- R320 -/
def F.HOSTD_STS_IN_RESET : Field := .mk 0x30 0x104 0x0 1 0 0 .ro 0x0 false false false
/-- R320 -/
def F.HOSTD_STS_SR_ACTIVE : Field := .mk 0x30 0x104 0x0 1 1 1 .ro 0x0 false false false
/-- R320 -/
def F.HOSTD_STS_CH_USED : Field := .mk 0x30 0x104 0x0 1 4 2 .ro 0x0 false false false
/-- R320 -/
def F.HOSTD_CTL_RESET : Field := .mk 0x30 0x108 0x0 1 0 0 .w1s 0x0 true false false
/-- R320 -/
def F.HOSTD_ERRLOG_VALID : Field := .mk 0x30 0x10C 0x0 1 0 0 .w1c 0x0 false false false
/-- R320 -/
def F.HOSTD_ERRLOG_SYND : Field := .mk 0x30 0x10C 0x0 1 4 1 .ro 0x0 false false false
/-- R320 -/
def F.HOSTD_ERRLOG_CORE : Field := .mk 0x30 0x10C 0x0 1 10 5 .ro 0x0 false false false
/-- R320 -/
def F.HOSTD_ERRLOG_ASYNC : Field := .mk 0x30 0x10C 0x0 1 11 11 .ro 0x0 false false false
/-- R320 -/
def F.HOSTD_ERRADDR_LO_ADDR_LO : Field := .mk 0x30 0x110 0x0 1 31 0 .ro 0x0 false false false
/-- R320 -/
def F.HOSTD_ERRADDR_HI_ADDR_HI : Field := .mk 0x30 0x114 0x0 1 15 0 .ro 0x0 false false false
/-- R320 -/
def F.HOSTD_AUTH_SYS : Field := .mk 0x30 0x200 0x4 48 0 0 .rw 0x1 false false false
/-- R320 -/
def F.HOSTD_AUTH_FOLD : Field := .mk 0x30 0x200 0x4 48 4 1 .rw 0x0 false false false
/-- R320 -/
def F.HOSTD_AUTH_FOLD_VALID : Field := .mk 0x30 0x200 0x4 48 5 5 .rw 0x0 false false false
/-- R321 -/
def F.HOSTP_BIASFLIP_GRANULE : Field := .mk 0x08 0x100 0x0 1 19 0 .wo 0x0 false false false
/-- R321 -/
def F.HOSTP_BIASFLIP_TIER : Field := .mk 0x08 0x100 0x0 1 20 20 .wo 0x0 false false false
/-- R321 -/
def F.HOSTP_BIASFLIP_OWNED : Field := .mk 0x08 0x100 0x0 1 21 21 .wo 0x0 false false false
/-- R321 -/
def F.HOSTP_BIASSTS_BUSY : Field := .mk 0x08 0x104 0x0 1 0 0 .ro 0x0 false false false
/-- R321 -/
def F.HOSTP_BIASSTS_DISCARD : Field := .mk 0x08 0x104 0x0 1 1 1 .w1c 0x0 false false false
/-- R321 -/
def F.HOSTP_BIASQ_QUERY : Field := .mk 0x08 0x108 0x0 1 20 0 .rw 0x0 false false false
/-- R321 -/
def F.HOSTP_BIASQ_OWNED : Field := .mk 0x08 0x108 0x0 1 21 21 .ro 0x0 false false false
/-- R321 -/
def F.HOSTP_RET_BASE : Field := .mk 0x08 0x110 0x0 1 10 0 .rws 0x0 false false false
/-- R321 -/
def F.HOSTP_RET_SIZE : Field := .mk 0x08 0x110 0x0 1 16 11 .rws 0x0 false false false
/-- R321 -/
def F.HOSTP_RET_EN : Field := .mk 0x08 0x110 0x0 1 17 17 .rws 0x0 false false false
/-- R321 -/
def F.HOSTP_RETSTS_DESC_VALID : Field := .mk 0x08 0x114 0x0 1 0 0 .ro 0x0 false false false
/-- R321 -/
def F.HOSTP_RETSTS_INTACT : Field := .mk 0x08 0x114 0x0 1 1 1 .ro 0x0 false false false
/-- R321 -/
def F.HOSTP_RETSTS_REFUSED : Field := .mk 0x08 0x114 0x0 1 2 2 .w1c 0x0 false false false
/-- R322 -/
def F.HOSTL_CFG_MODE : Field := .mk 0x31 0x100 0x0 1 0 0 .rwl 0x0 false false false
/-- R322 -/
def F.HOSTL_CFG_CXL_EN : Field := .mk 0x31 0x100 0x0 1 1 1 .rwl 0x0 false false false
/-- R322 -/
def F.HOSTL_CFG_UP : Field := .mk 0x31 0x100 0x0 1 2 2 .ro 0x0 false false false
/-- R322 -/
def F.HOSTL_CFG_WIDTH : Field := .mk 0x31 0x100 0x0 1 5 3 .ro 0x0 false false false
/-- R322 -/
def F.HOSTL_CFG_SPEED : Field := .mk 0x31 0x100 0x0 1 8 6 .ro 0x0 false false false
/-- R322 -/
def F.HOSTL_BAR2_BASE : Field := .mk 0x31 0x104 0x0 1 26 0 .rw 0x0 false false false
/-- R322 -/
def F.HOSTL_HDM_BASE_BASE : Field := .mk 0x31 0x108 0x0 1 19 0 .rwl 0x0 false false false
/-- R322 -/
def F.HOSTL_HDM_SIZE_SIZE : Field := .mk 0x31 0x10C 0x0 1 11 0 .rwl 0x0 false false false
/-- R322 -/
def F.HOSTL_DMA_LO_BASE : Field := .mk 0x31 0x110 0x8 4 26 0 .rw 0x0 false false false
/-- R322 -/
def F.HOSTL_DMA_LO_VALID : Field := .mk 0x31 0x110 0x8 4 27 27 .rw 0x0 false false false
/-- R322 -/
def F.HOSTL_DMA_HI_LIMIT : Field := .mk 0x31 0x114 0x8 4 26 0 .rw 0x0 false false false
/-- R322 -/
def F.HOSTL_PEERAP_BASE : Field := .mk 0x31 0x130 0x0 1 11 0 .rw 0x0 false false false
/-- R322 -/
def F.HOSTL_STS_CFG_ERR : Field := .mk 0x31 0x140 0x0 1 0 0 .w1c 0x0 false false false
/-- R322 -/
def F.HOSTL_STS_CAUSE : Field := .mk 0x31 0x140 0x0 1 3 1 .ro 0x0 false false false
/-- R322 -/
def F.HOSTL_VF_ENABLE : Field := .mk 0x31 0x400 0x8 64 0 0 .rw 0x0 false false false
/-- R322 -/
def F.HOSTL_VF_FOLD : Field := .mk 0x31 0x400 0x8 64 4 1 .rw 0x0 false false false
/-- R322 -/
def F.HOSTL_VF_FIRST_CTX : Field := .mk 0x31 0x400 0x8 64 13 5 .rw 0x0 false false false
/-- R322 -/
def F.HOSTL_VF_COUNT : Field := .mk 0x31 0x400 0x8 64 16 14 .rw 0x0 false false false
/-- R322 -/
def F.HOSTL_VF_WIN_BASE : Field := .mk 0x31 0x404 0x8 64 19 0 .rw 0x0 false false false
/-- R322 -/
def F.HOSTL_PEER_ENABLE : Field := .mk 0x31 0x800 0x10 16 0 0 .rw 0x0 false false false
/-- R322 -/
def F.HOSTL_PEER_RD : Field := .mk 0x31 0x800 0x10 16 1 1 .rw 0x0 false false false
/-- R322 -/
def F.HOSTL_PEER_WR : Field := .mk 0x31 0x800 0x10 16 2 2 .rw 0x0 false false false
/-- R322 -/
def F.HOSTL_PEER_FOLD : Field := .mk 0x31 0x800 0x10 16 6 3 .rw 0x0 false false false
/-- R322 -/
def F.HOSTL_PEER_CTX : Field := .mk 0x31 0x800 0x10 16 15 7 .rw 0x0 false false false
/-- R322 -/
def F.HOSTL_PEER_TALLY : Field := .mk 0x31 0x800 0x10 16 21 16 .rw 0x0 false false false
/-- R322 -/
def F.HOSTL_PEER_ERR : Field := .mk 0x31 0x800 0x10 16 22 22 .w1c 0x0 false false false
/-- R322 -/
def F.HOSTL_PEER_PBASE_LO : Field := .mk 0x31 0x804 0x10 16 31 0 .rw 0x0 false false false
/-- R322 -/
def F.HOSTL_PEER_PBASE_HI : Field := .mk 0x31 0x808 0x10 16 3 0 .rw 0x0 false false false
/-- R322 -/
def F.HOSTL_PEER_LENGTH : Field := .mk 0x31 0x808 0x10 16 23 4 .rw 0x0 false false false
/-- R351 -/
def F.INP_CFG_TMO : Field := .mk 0x32 0x100 0x0 1 15 0 .rwl 0x64 false false false
/-- R351 -/
def F.INP_STS_CFG_ERR : Field := .mk 0x32 0x104 0x0 1 0 0 .w1c 0x0 false false false
/-- R351 -/
def F.INP_STS_CAUSE : Field := .mk 0x32 0x104 0x0 1 2 1 .ro 0x0 false false false
/-- R351 -/
def F.INP_XTS_NS_NS : Field := .mk 0x32 0x108 0x0 1 31 0 .ro 0x0 false false false
/-- R351 -/
def F.INP_XTS_SEC_LO_SEC_LO : Field := .mk 0x32 0x10C 0x0 1 31 0 .ro 0x0 false false false
/-- R351 -/
def F.INP_XTS_SEC_HI_SEC_HI : Field := .mk 0x32 0x110 0x0 1 15 0 .ro 0x0 false false false
/-- R351 -/
def F.INP_PTPSTEP_STEP : Field := .mk 0x32 0x114 0x0 1 31 0 .wo 0x0 false false false
/-- R351 -/
def F.INP_PTPRATE_RATE : Field := .mk 0x32 0x118 0x0 1 31 0 .rw 0x0 false false false
/-- R351 -/
def F.RBASE_LO_BASE_LO : Field := .mk 0x32 0x200 0x40 16 31 7 .rw 0x0 false false false
/-- R351 -/
def F.RBASE_HI_BASE_HI : Field := .mk 0x32 0x204 0x40 16 15 0 .rw 0x0 false false false
/-- R351 -/
def F.RCFG_ENABLE : Field := .mk 0x32 0x208 0x40 16 0 0 .rw 0x0 false false false
/-- R351 -/
def F.RCFG_SIZE_LOG2 : Field := .mk 0x32 0x208 0x40 16 4 1 .rw 0x4 false false false
/-- R351 -/
def F.RDB_TAIL : Field := .mk 0x32 0x20C 0x40 16 15 0 .wo 0x0 false false false
/-- R351 -/
def F.RSTS_HEAD : Field := .mk 0x32 0x210 0x40 16 15 0 .ro 0x0 false false false
/-- R351 -/
def F.RSTS_DB_OVERRUN : Field := .mk 0x32 0x210 0x40 16 16 16 .w1c 0x0 false false false
/-- R351 -/
def F.RCQHEAD_CQHEAD : Field := .mk 0x32 0x214 0x40 16 15 0 .rw 0x0 false false false
/-- R351 -/
def F.RCBASE_LO_CBASE_LO : Field := .mk 0x32 0x218 0x40 16 31 4 .rw 0x0 false false false
/-- R351 -/
def F.RCBASE_HI_CBASE_HI : Field := .mk 0x32 0x21C 0x40 16 15 0 .rw 0x0 false false false
/-- R351 -/
def F.CACHE_LO_BASE_LO : Field := .mk 0x32 0x220 0x40 16 31 21 .rw 0x0 false false false
/-- R351 -/
def F.CACHE_HI_BASE_HI : Field := .mk 0x32 0x224 0x40 16 15 0 .rw 0x0 false false false
/-- R351 -/
def F.CACHE_HI_SLOT_LOG2 : Field := .mk 0x32 0x224 0x40 16 20 16 .rw 0x0 false false false
/-- R351 -/
def F.CACHE_CFG_SLOTS : Field := .mk 0x32 0x228 0x40 16 23 0 .rw 0x0 false false false
/-- R351 -/
def F.CACHE_CFG_GEN : Field := .mk 0x32 0x228 0x40 16 31 24 .rw 0x0 false false false
/-- R351 -/
def F.CACHE_DS_DATASET : Field := .mk 0x32 0x22C 0x40 16 31 0 .rw 0x0 false false false
/-- R351 -/
def F.SRC_CFG_ENABLE : Field := .mk 0x32 0x600 0x10 64 0 0 .rw 0x0 false false false
/-- R351 -/
def F.SRC_CFG_FOLD : Field := .mk 0x32 0x600 0x10 64 4 1 .rw 0x0 false false false
/-- R351 -/
def F.SRC_CFG_GROUP : Field := .mk 0x32 0x600 0x10 64 7 5 .rw 0x0 false false false
/-- R351 -/
def F.SRC_CFG_SLOT : Field := .mk 0x32 0x600 0x10 64 10 8 .rw 0x0 false false false
/-- R351 -/
def F.SRC_CFG_CTX : Field := .mk 0x32 0x600 0x10 64 19 11 .rw 0x0 false false false
/-- R351 -/
def F.SRC_CFG_TALLY : Field := .mk 0x32 0x600 0x10 64 25 20 .rw 0x0 false false false
/-- R351 -/
def F.SRC_RING_LO_BASE_LO : Field := .mk 0x32 0x604 0x10 64 31 5 .rw 0x0 false false false
/-- R351 -/
def F.SRC_RING_HI_BASE_HI : Field := .mk 0x32 0x608 0x10 64 15 0 .rw 0x0 false false false
/-- R351 -/
def F.SRC_RING_HI_LOG2 : Field := .mk 0x32 0x608 0x10 64 20 16 .rw 0x6 false false false
/-- R351 -/
def F.SRC_NEXT_NEXT : Field := .mk 0x32 0x60C 0x10 64 31 0 .ro 0x0 false false false
/-- R351 -/
def F.GRP_CFG_ENABLE : Field := .mk 0x32 0xA00 0x20 8 0 0 .rw 0x0 false false false
/-- R351 -/
def F.GRP_CFG_FOLD : Field := .mk 0x32 0xA00 0x20 8 4 1 .rw 0x0 false false false
/-- R351 -/
def F.GRP_CFG_CTX : Field := .mk 0x32 0xA00 0x20 8 13 5 .rw 0x0 false false false
/-- R351 -/
def F.GRP_CFG_TALLY : Field := .mk 0x32 0xA00 0x20 8 19 14 .rw 0x0 false false false
/-- R351 -/
def F.GRP_CFG_LOG2 : Field := .mk 0x32 0xA00 0x20 8 23 20 .rw 0x6 false false false
/-- R351 -/
def F.GRP_PERIOD_PERIOD : Field := .mk 0x32 0xA04 0x20 8 31 0 .rw 0x0 false false false
/-- R351 -/
def F.GRP_HALF_HALF : Field := .mk 0x32 0xA08 0x20 8 31 0 .rw 0x0 false false false
/-- R351 -/
def F.GRP_GRACE_GRACE : Field := .mk 0x32 0xA0C 0x20 8 31 0 .rw 0x0 false false false
/-- R351 -/
def F.GRP_START_LO_START_LO : Field := .mk 0x32 0xA10 0x20 8 31 0 .rw 0x0 false false false
/-- R351 -/
def F.GRP_START_HI_START_HI : Field := .mk 0x32 0xA14 0x20 8 31 0 .rw 0x0 false false false
/-- R351 -/
def F.GRP_OUT_LO_BASE_LO : Field := .mk 0x32 0xA18 0x20 8 31 8 .rw 0x0 false false false
/-- R351 -/
def F.GRP_OUT_HI_BASE_HI : Field := .mk 0x32 0xA1C 0x20 8 15 0 .rw 0x0 false false false
/-- R393 -/
def F.NP_CFG_ENABLE : Field := .mk 0x17 0x100 0x0 1 0 0 .rwl 0x0 false false false
/-- R393 -/
def F.NP_CFG_LANE_FAIL_THR : Field := .mk 0x17 0x100 0x0 1 7 1 .rwl 0x10 false false false
/-- R393 -/
def F.NP_CFG_MAX_RETRY : Field := .mk 0x17 0x100 0x0 1 11 8 .rwl 0x8 false false false
/-- R393 -/
def F.NP_STS_UP : Field := .mk 0x17 0x104 0x0 1 0 0 .ro 0x0 false false false
/-- R393 -/
def F.NP_STS_SPARED : Field := .mk 0x17 0x104 0x0 1 1 1 .ro 0x0 false false false
/-- R393 -/
def F.NP_STS_SPARE_LANE : Field := .mk 0x17 0x104 0x0 1 5 2 .ro 0xF false false false
/-- R393 -/
def F.NP_STS_DOWN : Field := .mk 0x17 0x104 0x0 1 6 6 .ro 0x0 false false false
/-- R393 -/
def F.NP_ERRLOG_VALID : Field := .mk 0x17 0x108 0x0 1 0 0 .w1c 0x0 false false false
/-- R393 -/
def F.NP_ERRLOG_CAUSE : Field := .mk 0x17 0x108 0x0 1 3 1 .ro 0x0 false false false
/-- R393 -/
def F.NP_ERRLOG_LANE : Field := .mk 0x17 0x108 0x0 1 7 4 .ro 0x0 false false false
/-- R394 -/
def F.FAB_COORD_COORD : Field := .mk 0x03 0x100 0x0 1 14 0 .rwl 0x0 false false false
/-- R394 -/
def F.FAB_SHAPE_EXTENT : Field := .mk 0x03 0x104 0x0 1 14 0 .rwl 0x0 false false false
/-- R394 -/
def F.FAB_SHAPE_WRAP : Field := .mk 0x03 0x104 0x0 1 18 15 .rwl 0x0 false false false
/-- R394 -/
def F.FAB_SHAPE_CLASS : Field := .mk 0x03 0x104 0x0 1 26 19 .rwl 0x0 false false false
/-- R394 -/
def F.FAB_ROUTE_DETOUR_EN : Field := .mk 0x03 0x108 0x0 1 0 0 .rwl 0x1 false false false
/-- R394 -/
def F.FAB_ROUTE_SPREAD_EN : Field := .mk 0x03 0x108 0x0 1 1 1 .rwl 0x1 false false false
/-- R394 -/
def F.FAB_LINK_DOWN : Field := .mk 0x03 0x10C 0x0 1 7 0 .rws 0x0 false false false
/-- R394 -/
def F.FAB_LINK_HALF : Field := .mk 0x03 0x10C 0x0 1 15 8 .ro 0x0 false false false
/-- R394 -/
def F.FAB_XPORT_XTMO : Field := .mk 0x03 0x110 0x0 1 7 0 .rwl 0x14 false false false
/-- R394 -/
def F.FAB_XPORT_XRETRY : Field := .mk 0x03 0x110 0x0 1 11 8 .rwl 0x3 false false false
/-- R394 -/
def F.FAB_CTMO_COLL_TMO : Field := .mk 0x03 0x114 0x0 1 15 0 .rwl 0x1F4 false false false
/-- R394 -/
def F.FAB_CTMO_GRACE_MAX : Field := .mk 0x03 0x114 0x0 1 23 16 .rwl 0x14 false false false
/-- R394 -/
def F.FAB_LAG_SW : Field := .mk 0x03 0x118 0x0 1 0 0 .rw 0x0 false false false
/-- R394 -/
def F.FAB_LAG_EN : Field := .mk 0x03 0x118 0x0 1 4 1 .rw 0x7 false false false
/-- R394 -/
def F.FAB_LAG_SRC : Field := .mk 0x03 0x118 0x0 1 8 5 .ro 0x0 false false false
/-- R394 -/
def F.FAB_LAG_LAGGARD : Field := .mk 0x03 0x118 0x0 1 9 9 .ro 0x0 false false false
/-- R394 -/
def F.FAB_STS_CFG_ERR : Field := .mk 0x03 0x11C 0x0 1 0 0 .w1c 0x0 false false false
/-- R394 -/
def F.FAB_STS_CAUSE : Field := .mk 0x03 0x11C 0x0 1 3 1 .ro 0x0 false false false
/-- R394 -/
def F.FAB_TEAM_ENABLE : Field := .mk 0x03 0x200 0x10 64 0 0 .rw 0x0 false false false
/-- R394 -/
def F.FAB_TEAM_FOLD : Field := .mk 0x03 0x200 0x10 64 4 1 .rw 0x0 false false false
/-- R394 -/
def F.FAB_TEAM_TEAM_ID : Field := .mk 0x03 0x200 0x10 64 20 5 .rw 0x0 false false false
/-- R394 -/
def F.FAB_TEAM_ORIGIN : Field := .mk 0x03 0x204 0x10 64 14 0 .rw 0x0 false false false
/-- R394 -/
def F.FAB_TEAM_EXTENT : Field := .mk 0x03 0x208 0x10 64 14 0 .rw 0x0 false false false
/-- R394 -/
def F.FAB_TEAM_CSEQ : Field := .mk 0x03 0x20C 0x10 64 15 0 .rw 0x0 false false false
/-- R394 -/
def F.FAB_TEAM_PEER_FOLDS : Field := .mk 0x03 0x20C 0x10 64 31 16 .rw 0x0 true false false
/-- R395 -/
def F.COLL_STS_BUSY : Field := .mk 0x16 0x100 0x0 1 0 0 .ro 0x0 false false false
/-- R395 -/
def F.COLL_STS_INFLIGHT : Field := .mk 0x16 0x100 0x0 1 4 1 .ro 0x0 false false false
/-- R395 -/
def F.COLL_ERRLOG_VALID : Field := .mk 0x16 0x104 0x0 1 0 0 .w1c 0x0 false false false
/-- R395 -/
def F.COLL_ERRLOG_CAUSE : Field := .mk 0x16 0x104 0x0 1 3 1 .ro 0x0 false false false
/-- R395 -/
def F.COLL_ERRLOG_TEAM : Field := .mk 0x16 0x104 0x0 1 9 4 .ro 0x0 false false false
/-- R395 -/
def F.COLL_ERRLOG_RANK : Field := .mk 0x16 0x104 0x0 1 24 10 .ro 0x0 false false false
/-- R426 -/
def F.CTX_SEED_LO_SEED_LO : Field := .mk 0x40 0x640 0x0 1 31 0 .rw 0x0 false false false
/-- R426 -/
def F.CTX_SEED_HI_SEED_HI : Field := .mk 0x40 0x644 0x0 1 31 0 .rw 0x0 false false false
/-- R426 -/
def F.CTX_STEP_STEP : Field := .mk 0x40 0x648 0x0 1 31 0 .ro 0x0 false false false
/-- R426 -/
def F.CTX_STEP_PEND_STEP : Field := .mk 0x40 0x64C 0x0 1 31 0 .ro 0x0 false false false
/-- R426 -/
def F.CTX_STEP_TICK_LO_TICK_LO : Field := .mk 0x40 0x650 0x0 1 31 0 .ro 0x0 false false false
/-- R426 -/
def F.CTX_STEP_TICK_HI_TICK_HI : Field := .mk 0x40 0x654 0x0 1 31 0 .ro 0x0 false false false
/-- R426 -/
def F.CTX_STEP_STS_PENDING : Field := .mk 0x40 0x658 0x0 1 0 0 .ro 0x0 false false false
/-- R426 -/
def F.CTX_STEP_STS_SEED_REFUSED : Field := .mk 0x40 0x658 0x0 1 1 1 .w1c 0x0 false false false
/-- R426 -/
def F.CTX_SEQ_STS_ACTIVE : Field := .mk 0x40 0x65C 0x0 1 0 0 .ro 0x0 false false false
/-- R426 -/
def F.CTX_SEQ_STS_ALT : Field := .mk 0x40 0x65C 0x0 1 1 1 .ro 0x0 false false false
/-- R426 -/
def F.CTX_SEQ_STS_F_REL : Field := .mk 0x40 0x65C 0x0 1 10 2 .ro 0x0 false false false
/-- R426 -/
def F.CTX_SEQ_STS_B_REL : Field := .mk 0x40 0x65C 0x0 1 19 11 .ro 0x0 false false false
/-- R427 -/
def F.ETCH_STS_BUSY : Field := .mk 0x15 0x100 0x0 1 0 0 .ro 0x0 false false false
/-- R427 -/
def F.ETCH_STS_OPCODE : Field := .mk 0x15 0x100 0x0 1 8 1 .ro 0x0 false false false
/-- R427 -/
def F.ETCH_STS_CONTEXT : Field := .mk 0x15 0x100 0x0 1 17 9 .ro 0x0 false false false
/-- R427 -/
def F.ETCH_STS_FOLD : Field := .mk 0x15 0x100 0x0 1 21 18 .ro 0x0 false false false
/-- R427 -/
def F.ETCH_ERRLOG_VALID : Field := .mk 0x15 0x104 0x0 1 0 0 .w1c 0x0 false false false
/-- R427 -/
def F.ETCH_ERRLOG_CAUSE : Field := .mk 0x15 0x104 0x0 1 3 1 .ro 0x0 false false false
/-- R427 -/
def F.ETCH_ERRLOG_CONTEXT : Field := .mk 0x15 0x104 0x0 1 12 4 .ro 0x0 false false false
/-- R427 -/
def F.ETCH_BLOCKS_BLOCKS : Field := .mk 0x15 0x108 0x0 1 31 0 .ro 0x0 false false false
/-- R452 -/
def F.PWR_CTL_PERIOD : Field := .mk 0x05 0x100 0x0 1 7 0 .rwl 0xA true false false
/-- R452 -/
def F.PWR_CTL_DUTY_FLOOR : Field := .mk 0x05 0x100 0x0 1 12 8 .rwl 0x4 true false false
/-- R452 -/
def F.PWR_CAP_CAP_W : Field := .mk 0x05 0x104 0x0 1 11 0 .ro 0xAF0 true false false
/-- R452 -/
def F.PWR_CAP_NEXT_CAP_W : Field := .mk 0x05 0x108 0x0 1 11 0 .wo 0x0 true false false
/-- R452 -/
def F.PWR_CAP_TICK_LO_TICK_LO : Field := .mk 0x05 0x10C 0x0 1 31 0 .rw 0x0 true false false
/-- R452 -/
def F.PWR_CAP_TICK_HI_TICK_HI : Field := .mk 0x05 0x110 0x0 1 31 0 .rw 0x0 true false false
/-- R452 -/
def F.PWR_STS_PENDING : Field := .mk 0x05 0x114 0x0 1 0 0 .ro 0x0 true false false
/-- R452 -/
def F.PWR_STS_CLAMPED : Field := .mk 0x05 0x114 0x0 1 1 1 .w1c 0x0 true false false
/-- R452 -/
def F.PWR_STS_LATE : Field := .mk 0x05 0x114 0x0 1 2 2 .w1c 0x0 true false false
/-- R452 -/
def F.PWR_STS_CAP_UNMET : Field := .mk 0x05 0x114 0x0 1 3 3 .ro 0x0 true false false
/-- R452 -/
def F.PWR_STS_ALERT : Field := .mk 0x05 0x114 0x0 1 4 4 .ro 0x0 true false false
/-- R452 -/
def F.PWR_STS_CEIL_CAP : Field := .mk 0x05 0x114 0x0 1 8 5 .ro 0x0 true false false
/-- R452 -/
def F.PWR_STS_DUTY : Field := .mk 0x05 0x114 0x0 1 13 9 .ro 0x10 true false false
/-- R452 -/
def F.PWR_PKG_W_AVG_W : Field := .mk 0x05 0x118 0x0 1 11 0 .ro 0x0 true false false
/-- R452 -/
def F.PWR_TRIP_VALID : Field := .mk 0x05 0x11C 0x0 1 0 0 .w1c 0x0 true false false
/-- R452 -/
def F.PWR_TRIP_SOURCE : Field := .mk 0x05 0x11C 0x0 1 3 1 .ro 0x0 true false false
/-- R452 -/
def F.PWR_TRIP_UNIT : Field := .mk 0x05 0x11C 0x0 1 7 4 .ro 0x0 true false false
/-- R452 -/
def F.PWR_TRIP_TEMP : Field := .mk 0x05 0x11C 0x0 1 15 8 .ro 0x0 true false false
/-- R452 -/
def F.PWR_ESYS_LO_ENERGY_LO : Field := .mk 0x05 0x120 0x0 1 31 0 .ro 0x0 true false false
/-- R452 -/
def F.PWR_ESYS_HI_ENERGY_HI : Field := .mk 0x05 0x124 0x0 1 31 0 .ro 0x0 true false false
/-- R453 -/
def F.PWR_DIE_CTL_OP_REQ : Field := .mk 0x25 0x100 0x0 1 3 0 .rw 0x0 false false false
/-- R453 -/
def F.PWR_DIE_CTL_TJ_THROTTLE : Field := .mk 0x25 0x100 0x0 1 11 4 .rwl 0x64 true false false
/-- R453 -/
def F.PWR_DIE_CTL_CAL : Field := .mk 0x25 0x100 0x0 1 12 12 .rw 0x0 true false false
/-- R453 -/
def F.PWR_DIE_CTL_DROOP_MV : Field := .mk 0x25 0x100 0x0 1 17 13 .rwl 0x8 true false false
/-- R453 -/
def F.PWR_DIE_STS_OP_NOW : Field := .mk 0x25 0x104 0x0 1 3 0 .ro 0xF true false false
/-- R453 -/
def F.PWR_DIE_STS_CEIL_THERM : Field := .mk 0x25 0x104 0x0 1 7 4 .ro 0x0 true false false
/-- R453 -/
def F.PWR_DIE_STS_CEIL_AGE : Field := .mk 0x25 0x104 0x0 1 11 8 .ro 0x0 true false false
/-- R453 -/
def F.PWR_DIE_STS_IN_TRANSITION : Field := .mk 0x25 0x104 0x0 1 12 12 .ro 0x0 true false false
/-- R453 -/
def F.PWR_DIE_STS_DROOP : Field := .mk 0x25 0x104 0x0 1 13 13 .ro 0x0 true false false
/-- R453 -/
def F.PWR_DIE_STS_TJ : Field := .mk 0x25 0x104 0x0 1 21 14 .ro 0x0 true false false
/-- R453 -/
def F.PWR_VMARGIN_LO_MARGIN : Field := .mk 0x25 0x108 0x0 1 31 0 .rw 0x0 true false false
/-- R453 -/
def F.PWR_VMARGIN_HI_MARGIN : Field := .mk 0x25 0x10C 0x0 1 31 0 .rw 0x0 true false false
/-- R453 -/
def F.PWR_OPRETIRE_RETIRED : Field := .mk 0x25 0x110 0x0 1 14 0 .rw 0x0 true false false
/-- R453 -/
def F.PWR_CPM_SLACK : Field := .mk 0x25 0x114 0x0 1 7 0 .ro 0x0 true false false
/-- R453 -/
def F.PWR_CPM_GUARD : Field := .mk 0x25 0x114 0x0 1 15 8 .rwl 0xA true false false
/-- R453 -/
def F.PWR_CPM_LOW : Field := .mk 0x25 0x114 0x0 1 23 16 .ro 0xFF true false false
/-- R453 -/
def F.PWR_DIE_HOURS_HOURS : Field := .mk 0x25 0x118 0x0 1 31 0 .rw 0x0 true false false
/-- R454 -/
def F.FOLD_ENERGY_LO_ENERGY_LO : Field := .mk 0x41 0x180 0x0 1 31 0 .ro 0x0 true false false
/-- R454 -/
def F.FOLD_ENERGY_HI_ENERGY_HI : Field := .mk 0x41 0x184 0x0 1 31 0 .ro 0x0 true false false
/-- R454 -/
def F.CTX_ENERGY_LO_ENERGY_LO : Field := .mk 0x40 0x680 0x8 8 31 0 .ro 0x0 false false false
/-- R454 -/
def F.CTX_ENERGY_HI_ENERGY_HI : Field := .mk 0x40 0x684 0x8 8 31 0 .ro 0x0 false false false
/-- R482 -/
def F.SHEEP_TMO0_QUEUE_MS : Field := .mk 0x11 0x100 0x0 1 15 0 .rwl 0x2710 true false false
/-- R482 -/
def F.SHEEP_TMO0_STREAM_MS : Field := .mk 0x11 0x100 0x0 1 31 16 .rwl 0x3E8 true false false
/-- R482 -/
def F.SHEEP_TMO1_RUN_MS : Field := .mk 0x11 0x104 0x0 1 15 0 .rwl 0x3E8 true false false
/-- R482 -/
def F.SHEEP_TMO1_UNIT_US : Field := .mk 0x11 0x104 0x0 1 31 16 .rwl 0x64 true false false
/-- R482 -/
def F.SHEEP_TMO2_AGENT_US : Field := .mk 0x11 0x108 0x0 1 15 0 .rwl 0x64 true false false
/-- R482 -/
def F.SHEEP_TMO2_HUB_MS : Field := .mk 0x11 0x108 0x0 1 23 16 .rwl 0xA true false false
/-- R482 -/
def F.SHEEP_TMO2_LINK_MS : Field := .mk 0x11 0x108 0x0 1 31 24 .rwl 0xA true false false
/-- R482 -/
def F.SHEEP_LAST_UNIT : Field := .mk 0x11 0x10C 0x0 1 31 0 .ro 0x0 true false false
/-- R483 -/
def F.FLT_CTL_AUTO : Field := .mk 0x06 0x100 0x0 1 0 0 .rw 0x1 true false false
/-- R483 -/
def F.FLT_CTL_SAMPLE : Field := .mk 0x06 0x100 0x0 1 4 1 .rwl 0x1 true false false
/-- R483 -/
def F.FLT_CTL_DRAIN_LIMIT : Field := .mk 0x06 0x100 0x0 1 10 5 .rwl 0x32 true false false
/-- R483 -/
def F.FLT_CTL_PKG_RESET : Field := .mk 0x06 0x100 0x0 1 11 11 .w1s 0x0 true false false
/-- R483 -/
def F.FLT_CTL_FATAL_MS : Field := .mk 0x06 0x100 0x0 1 27 12 .rwl 0x3E8 true false false
/-- R483 -/
def F.FLT_STS_PKG_FATAL : Field := .mk 0x06 0x104 0x0 1 0 0 .ro 0x0 true false false
/-- R483 -/
def F.FLT_STS_PKG_CAUSE : Field := .mk 0x06 0x104 0x0 1 8 1 .ro 0x0 true false false
/-- R483 -/
def F.FLT_STS_LOG_OVF : Field := .mk 0x06 0x104 0x0 1 9 9 .w1c 0x0 true false false
/-- R483 -/
def F.FLT_STS_CAP_SKIP : Field := .mk 0x06 0x104 0x0 1 10 10 .w1c 0x0 true false false
/-- R483 -/
def F.FLT_FOLDRST_FOLD : Field := .mk 0x06 0x108 0x0 1 15 0 .w1s 0x0 false false false
/-- R483 -/
def F.FLT_FOLDFATAL_FOLD : Field := .mk 0x06 0x10C 0x0 1 15 0 .w1c 0x0 true false false
/-- R483 -/
def F.FLT_OFFLINE_DIES : Field := .mk 0x06 0x110 0x0 1 15 0 .rws 0x0 true false false
/-- R483 -/
def F.FLT_LOGPTR_HEAD : Field := .mk 0x06 0x114 0x0 1 15 0 .rw 0x0 true false false
/-- R483 -/
def F.FLT_LOGPTR_TAIL : Field := .mk 0x06 0x114 0x0 1 31 16 .ro 0x0 true false false
/-- R483 -/
def F.FLT_LOGSEL_ENTRY : Field := .mk 0x06 0x118 0x0 1 5 0 .rw 0x0 true false false
/-- R483 -/
def F.FLT_LOGSEL_WORD : Field := .mk 0x06 0x118 0x0 1 7 6 .rw 0x0 true false false
/-- R483 -/
def F.FLT_LOGDATA_DATA : Field := .mk 0x06 0x11C 0x0 1 31 0 .ro 0x0 true false false
/-- R483 -/
def F.FLT_CAP_LO_BASE : Field := .mk 0x06 0x200 0x8 16 26 0 .rw 0x0 true false false
/-- R483 -/
def F.FLT_CAP_LO_VALID : Field := .mk 0x06 0x200 0x8 16 27 27 .rw 0x0 true false false
/-- R483 -/
def F.FLT_CAP_HI_SEQ : Field := .mk 0x06 0x204 0x8 16 15 0 .ro 0x0 true false false
/-- R515 -/
def F.HERD_CTL_ROLE : Field := .mk 0x07 0x100 0x0 1 1 0 .rwl 0x0 false false false
/-- R515 -/
def F.HERD_CTL_JOIN : Field := .mk 0x07 0x100 0x0 1 2 2 .rw 0x0 false false false
/-- R515 -/
def F.HERD_CTL_SLOT : Field := .mk 0x07 0x100 0x0 1 10 3 .rwl 0x0 false false false
/-- R515 -/
def F.HERD_CTL_NSLOTS : Field := .mk 0x07 0x100 0x0 1 18 11 .rwl 0x0 false false false
/-- R515 -/
def F.HEAD_CTL_ROLE : Field := .mk 0x07 0x104 0x0 1 1 0 .rwl 0x0 false false false
/-- R515 -/
def F.HEAD_CTL_JOIN : Field := .mk 0x07 0x104 0x0 1 2 2 .rw 0x0 false false false
/-- R515 -/
def F.HEAD_CTL_SLOT : Field := .mk 0x07 0x104 0x0 1 9 3 .rwl 0x0 false false false
/-- R515 -/
def F.HEAD_CTL_NSLOTS : Field := .mk 0x07 0x104 0x0 1 16 10 .rwl 0x0 false false false
/-- R515 -/
def F.HERD_STS_LOCKED : Field := .mk 0x07 0x108 0x0 1 0 0 .ro 0x0 false false false
/-- R515 -/
def F.HERD_STS_HOLDOVER : Field := .mk 0x07 0x108 0x0 1 1 1 .ro 0x1 false false false
/-- R515 -/
def F.HERD_STS_RECOUNTING : Field := .mk 0x07 0x108 0x0 1 2 2 .ro 0x0 false false false
/-- R515 -/
def F.HERD_STS_CAL_DEV : Field := .mk 0x07 0x108 0x0 1 3 3 .w1c 0x0 false false false
/-- R515 -/
def F.HERD_STS_MASTER_CONFLICT : Field := .mk 0x07 0x108 0x0 1 4 4 .w1c 0x0 false false false
/-- R515 -/
def F.HERD_STS_ACTING : Field := .mk 0x07 0x108 0x0 1 6 5 .ro 0x0 false false false
/-- R515 -/
def F.HERD_STS_POS : Field := .mk 0x07 0x108 0x0 1 14 7 .ro 0x0 false false false
/-- R515 -/
def F.HERD_STS_MEMBERS : Field := .mk 0x07 0x108 0x0 1 23 15 .ro 0x0 false false false
/-- R515 -/
def F.HERD_STS_EPOCH_PEND : Field := .mk 0x07 0x108 0x0 1 24 24 .ro 0x0 false false false
/-- R515 -/
def F.HERD_STS_EVT_ERR : Field := .mk 0x07 0x108 0x0 1 25 25 .w1c 0x0 false false false
/-- R515 -/
def F.HEAD_STS_LOCKED : Field := .mk 0x07 0x10C 0x0 1 0 0 .ro 0x0 false false false
/-- R515 -/
def F.HEAD_STS_HOLDOVER : Field := .mk 0x07 0x10C 0x0 1 1 1 .ro 0x1 false false false
/-- R515 -/
def F.HEAD_STS_POS : Field := .mk 0x07 0x10C 0x0 1 8 2 .ro 0x0 false false false
/-- R515 -/
def F.HEAD_STS_MEMBERS : Field := .mk 0x07 0x10C 0x0 1 16 9 .ro 0x0 false false false
/-- R515 -/
def F.HERD_DLY_POS_DLY : Field := .mk 0x07 0x110 0x0 1 15 0 .ro 0x0 false false false
/-- R515 -/
def F.HERD_DLY_HEAD_DLY : Field := .mk 0x07 0x110 0x0 1 31 16 .ro 0x0 false false false
/-- R515 -/
def F.HERD_LOOP_WMEAS : Field := .mk 0x07 0x114 0x0 1 15 0 .ro 0x0 false false false
/-- R515 -/
def F.HERD_LOOP_WNOM : Field := .mk 0x07 0x114 0x0 1 31 16 .ro 0x0 false false false
/-- R515 -/
def F.HERD_TIME_LO_TIME_LO : Field := .mk 0x07 0x118 0x0 1 31 0 .rw 0x0 false false false
/-- R515 -/
def F.HERD_TIME_HI_TIME_HI : Field := .mk 0x07 0x11C 0x0 1 31 0 .rw 0x0 false false false
/-- R515 -/
def F.HERD_MASTERS_MASTER_PKG : Field := .mk 0x07 0x120 0x0 1 14 0 .ro 0x0 false false false
/-- R515 -/
def F.HERD_MASTERS_HEAD_PKG : Field := .mk 0x07 0x120 0x0 1 29 15 .ro 0x0 false false false
/-- R515 -/
def F.HERD_TBLSEL_ENTRY : Field := .mk 0x07 0x124 0x0 1 7 0 .rw 0x0 false false false
/-- R515 -/
def F.HERD_TBLSEL_TABLE : Field := .mk 0x07 0x124 0x0 1 8 8 .rw 0x0 false false false
/-- R515 -/
def F.HERD_TBLDATA_LINK : Field := .mk 0x07 0x128 0x0 1 15 0 .rw 0x20 false false false
/-- R515 -/
def F.HERD_TBLDATA_BYP : Field := .mk 0x07 0x128 0x0 1 31 16 .rw 0x10 false false false
/-- R515 -/
def F.HERD_EPOCH_EPOCH : Field := .mk 0x07 0x12C 0x0 1 31 0 .ro 0x0 false false false
/-- R515 -/
def F.HERD_EPOCH_NEXT_NEXT : Field := .mk 0x07 0x130 0x0 1 31 0 .rw 0x0 false false false
/-- R515 -/
def F.HERD_EPOCH_TICK_LO_TICK_LO : Field := .mk 0x07 0x134 0x0 1 31 0 .rw 0x0 false false false
/-- R515 -/
def F.HERD_EPOCH_TICK_HI_TICK_HI : Field := .mk 0x07 0x138 0x0 1 30 0 .rw 0x0 false false false
/-- R515 -/
def F.HERD_EPOCH_TICK_HI_PEND : Field := .mk 0x07 0x138 0x0 1 31 31 .w1s 0x0 false false false
/-- R515 -/
def F.HERD_EXPECT_LO_EXPECT_LO : Field := .mk 0x07 0x13C 0x0 1 31 0 .rw 0x0 false false false
/-- R515 -/
def F.HERD_EXPECT_HI_EXPECT_HI : Field := .mk 0x07 0x140 0x0 1 31 0 .rw 0x0 false false false
/-- R515 -/
def F.HERD_DIGEST_LO_DIGEST_LO : Field := .mk 0x07 0x144 0x0 1 31 0 .ro 0x0 false false false
/-- R515 -/
def F.HERD_DIGEST_HI_DIGEST_HI : Field := .mk 0x07 0x148 0x0 1 31 0 .ro 0x0 false false false
/-- R515 -/
def F.HERD_FENCE_FOLDS : Field := .mk 0x07 0x14C 0x0 1 15 0 .rw 0x0 false false false
/-- R515 -/
def F.HERD_FENCE_PKG : Field := .mk 0x07 0x14C 0x0 1 16 16 .rw 0x0 false false false
/-- R515 -/
def F.HERD_FENCE_CAUSE : Field := .mk 0x07 0x14C 0x0 1 18 17 .ro 0x0 false false false
/-- R515 -/
def F.HERD_CFGW_WORD : Field := .mk 0x07 0x150 0x4 16 31 0 .rw 0x0 false false false
/-- R515 -/
def F.HERD_EVTSEL_ENTRY : Field := .mk 0x07 0x190 0x0 1 4 0 .rw 0x0 false false false
/-- R515 -/
def F.HERD_EVTSEL_WORD : Field := .mk 0x07 0x190 0x0 1 7 5 .rw 0x0 false false false
/-- R515 -/
def F.HERD_EVTDATA_DATA : Field := .mk 0x07 0x194 0x0 1 31 0 .rw 0x0 false false false
/-- R515 -/
def F.HERD_EVTVALID_ARMED : Field := .mk 0x07 0x198 0x0 1 31 0 .w1c 0x0 false false false
/-- R515 -/
def F.HERD_BAR_BID : Field := .mk 0x07 0x300 0x8 16 14 0 .rw 0x0 false false false
/-- R515 -/
def F.HERD_BAR_SCOPE : Field := .mk 0x07 0x300 0x8 16 15 15 .rw 0x0 false false false
/-- R515 -/
def F.HERD_BAR_CTX : Field := .mk 0x07 0x300 0x8 16 24 16 .rw 0x0 false false false
/-- R515 -/
def F.HERD_BAR_TALLY : Field := .mk 0x07 0x300 0x8 16 30 25 .rw 0x0 false false false
/-- R515 -/
def F.HERD_BAR_ARRIVE : Field := .mk 0x07 0x300 0x8 16 31 31 .w1s 0x0 false false false
/-- R515 -/
def F.HERD_BAR_TOTAL : Field := .mk 0x07 0x304 0x8 16 15 0 .rw 0x0 false false false
/-- R515 -/
def F.CROOK_STS_OWNER : Field := .mk 0x07 0x200 0x0 1 1 0 .ro 0x0 false false false
/-- R515 -/
def F.CROOK_STS_GEN : Field := .mk 0x07 0x200 0x0 1 17 2 .ro 0x0 false false false
/-- R515 -/
def F.CROOK_STS_LEASE_LEFT : Field := .mk 0x07 0x200 0x0 1 31 18 .ro 0x0 false false false
/-- R515 -/
def F.CROOK_CAS_EXPECT : Field := .mk 0x07 0x204 0x0 1 1 0 .rw 0x0 false false false
/-- R515 -/
def F.CROOK_CAS_NEW : Field := .mk 0x07 0x204 0x0 1 3 2 .rw 0x0 false false false
/-- R515 -/
def F.CROOK_CTL_RENEW : Field := .mk 0x07 0x208 0x0 1 0 0 .w1s 0x0 false false false
/-- R515 -/
def F.CROOK_CTL_LEASE_MS : Field := .mk 0x07 0x208 0x0 1 16 1 .rw 0x64 false false false
/-- R515 -/
def F.CROOK_REFUSED_PMC : Field := .mk 0x07 0x20C 0x0 1 1 0 .w1c 0x0 false false false
/-- R515 -/
def F.HERD_MSGSEL_ENTRY : Field := .mk 0x07 0x220 0x0 1 3 0 .rw 0x0 false false false
/-- R515 -/
def F.HERD_MSGSEL_WORD : Field := .mk 0x07 0x220 0x0 1 9 4 .rw 0x0 false false false
/-- R515 -/
def F.HERD_MSGSEL_BOX : Field := .mk 0x07 0x220 0x0 1 10 10 .rw 0x0 false false false
/-- R515 -/
def F.HERD_MSGDATA_DATA : Field := .mk 0x07 0x224 0x0 1 31 0 .rw 0x0 false false false
/-- R515 -/
def F.HERD_MSGCTL_SEND : Field := .mk 0x07 0x228 0x0 1 0 0 .w1s 0x0 false false false
/-- R515 -/
def F.HERD_MSGCTL_RING : Field := .mk 0x07 0x228 0x0 1 1 1 .rw 0x0 false false false
/-- R515 -/
def F.HERD_MSGCTL_OUT_STS : Field := .mk 0x07 0x228 0x0 1 3 2 .ro 0x0 false false false
/-- R515 -/
def F.HERD_MSGCTL_IN_COUNT : Field := .mk 0x07 0x228 0x0 1 8 4 .ro 0x0 false false false
/-- R515 -/
def F.HERD_MSGCTL_IN_POP : Field := .mk 0x07 0x228 0x0 1 9 9 .w1s 0x0 false false false
/-- R521 -/
def F.ID : Field := .mk 0xFF 0x000 0x0 1 31 0 .ro 0x0 false false false
/-- R521 -/
def F.VER_STEP : Field := .mk 0xFF 0x004 0x0 1 7 0 .ro 0x1 false false false
/-- R521 -/
def F.VER_LAYOUT : Field := .mk 0xFF 0x004 0x0 1 15 8 .ro 0x1 false false false
/-- R521 -/
def F.CAP_GROUP : Field := .mk 0xFF 0x008 0x0 1 0 0 .ro 0x0 false false false
/-- R521 -/
def F.CAP_REMOTE : Field := .mk 0xFF 0x008 0x0 1 1 1 .ro 0x0 false false false
/-- R521 -/
def F.CAP_LOCKABLE : Field := .mk 0xFF 0x008 0x0 1 2 2 .ro 0x0 false false false
/-- R521 -/
def F.CAP_BLOCK_CAP : Field := .mk 0xFF 0x008 0x0 1 31 16 .ro 0x0 false false false
/-- R521 -/
def F.CTL_CNT_FREEZE : Field := .mk 0xFF 0x010 0x0 1 0 0 .rw 0x0 false false false
/-- R521 -/
def F.CTL_CNT_CLEAR : Field := .mk 0xFF 0x010 0x0 1 1 1 .w1s 0x0 false false false
/-- R521 -/
def F.CTL_LOCK : Field := .mk 0xFF 0x010 0x0 1 31 31 .w1s 0x0 false false false
/-- R521 -/
def F.STS_BUSY : Field := .mk 0xFF 0x014 0x0 1 0 0 .ro 0x0 false false false
/-- R521 -/
def F.STS_OFFLINE : Field := .mk 0xFF 0x014 0x0 1 1 1 .ro 0x0 false false false
/-- R521 -/
def F.STS_IN_RESET : Field := .mk 0xFF 0x014 0x0 1 2 2 .ro 0x0 false false false
/-- R521 -/
def F.STS_DIFFER : Field := .mk 0xFF 0x014 0x0 1 3 3 .ro 0x0 false false false
/-- R521 -/
def F.ERR_LOCK_WR : Field := .mk 0xFF 0x018 0x0 1 0 0 .w1c 0x0 false false false
/-- R521 -/
def F.ERR_CNT_OVF : Field := .mk 0xFF 0x018 0x0 1 1 1 .w1c 0x0 false false false
/-- R521 -/
def F.ERR_LOGGED : Field := .mk 0xFF 0x018 0x0 1 2 2 .w1c 0x0 false false false
/-- R521 -/
def F.ERR_NARROW : Field := .mk 0xFF 0x018 0x0 1 3 3 .w1c 0x0 false false false
/-- R521 -/
def F.ERRMASK_MASK : Field := .mk 0xFF 0x01C 0x0 1 3 0 .rw 0x0 false false false
/-- R521 -/
def F.IRQEN_EN : Field := .mk 0xFF 0x020 0x0 1 15 0 .rw 0x0 false false false
/-- R521 -/
def F.IRQSTS_ERR : Field := .mk 0xFF 0x024 0x0 1 0 0 .w1c 0x0 false false false
/-- R521 -/
def F.IRQSTS_EVENT : Field := .mk 0xFF 0x024 0x0 1 1 1 .w1c 0x0 false false false
/-- R521 -/
def F.IRQSTS_QUEUE : Field := .mk 0xFF 0x024 0x0 1 15 8 .w1c 0x0 false false false
/-- R521 -/
def F.EPOCH : Field := .mk 0xFF 0x028 0x0 1 31 0 .ro 0x0 false false false
/-- R521 -/
def F.CNT_SNAP_TAKE : Field := .mk 0xFF 0x02C 0x0 1 0 0 .w1s 0x0 false false false
/-- R521 -/
def F.CNT_SNAP_HELD : Field := .mk 0xFF 0x02C 0x0 1 1 1 .ro 0x0 false false false
/-- R521 -/
def F.CNT_SNAP_RELEASE : Field := .mk 0xFF 0x02C 0x0 1 2 2 .w1s 0x0 false false false
/-- R521 -/
def F.CNT_OVF_OVF : Field := .mk 0xFF 0x030 0x0 1 15 0 .w1c 0x0 false false false
/-- R539 -/
def F.IRQ_ROUTE_BASE : Field := .mk 0x09 0x100 0x8 128 19 0 .rw 0x0 true false false
/-- R539 -/
def F.IRQ_ROUTE_SPAN : Field := .mk 0x09 0x100 0x8 128 24 20 .rw 0x0 true false false
/-- R539 -/
def F.IRQ_ROUTE_VALID : Field := .mk 0x09 0x100 0x8 128 31 31 .rw 0x0 true false false
/-- R539 -/
def F.IRQ_ROUTE_TARGET : Field := .mk 0x09 0x104 0x8 128 2 0 .rw 0x0 true false false
/-- R539 -/
def F.IRQ_ROUTE_VECTOR : Field := .mk 0x09 0x104 0x8 128 13 3 .rw 0x0 true false false
/-- R539 -/
def F.IRQ_ROUTE_LINK : Field := .mk 0x09 0x104 0x8 128 15 14 .rw 0x0 true false false
/-- R540 -/
def F.PKG_CAP_GRADE : Field := .mk 0x00 0x100 0x0 1 0 0 .ro 0x0 false false false
/-- R540 -/
def F.PKG_CAP_ARRAYS : Field := .mk 0x00 0x100 0x0 1 7 1 .ro 0x0 false false false
/-- R540 -/
def F.PKG_TIERF_SIZE_GIB : Field := .mk 0x00 0x104 0x0 1 11 0 .ro 0x0 false false false
/-- R540 -/
def F.PKG_TIERF_CHANNELS : Field := .mk 0x00 0x104 0x0 1 15 12 .ro 0x0 false false false
/-- R540 -/
def F.PKG_TIERF_VALID : Field := .mk 0x00 0x104 0x0 1 16 16 .ro 0x0 false false false
/-- R570 -/
def F.PKG_LCS_STATE : Field := .mk 0x00 0x108 0x0 1 2 0 .ro 0x0 false false false
/-- R570 -/
def F.PKG_LCS_SVN_MIN : Field := .mk 0x00 0x108 0x0 1 14 8 .ro 0x0 false false false
/-- R570 -/
def F.PKG_LCS_PEND_TARGET : Field := .mk 0x00 0x108 0x0 1 17 15 .ro 0x0 false false false
/-- R570 -/
def F.PKG_LCS_PENDING : Field := .mk 0x00 0x108 0x0 1 18 18 .ro 0x0 false false false
/-- R570 -/
def F.PKG_LCS_SVN_PEND : Field := .mk 0x00 0x108 0x0 1 19 19 .ro 0x0 false false false
/-- R570 -/
def F.PKG_LCS_REQ_TARGET : Field := .mk 0x00 0x10C 0x0 1 2 0 .wo 0x0 false false false
/-- R570 -/
def F.PKG_LCS_REQ_GO : Field := .mk 0x00 0x10C 0x0 1 3 3 .wo 0x0 false false false
/-- R570 -/
def F.PKG_LCS_REQ_SVN_BUMP : Field := .mk 0x00 0x10C 0x0 1 4 4 .wo 0x0 false false false
/-- R570 -/
def F.PKG_BOOT_PHASE : Field := .mk 0x00 0x110 0x0 1 3 0 .ro 0x0 false false false
/-- R570 -/
def F.PKG_BOOT_TIERF_READY : Field := .mk 0x00 0x110 0x0 1 4 4 .ro 0x0 false false false
/-- R570 -/
def F.PKG_BOOT_PMC_BOOTED : Field := .mk 0x00 0x110 0x0 1 6 5 .ro 0x0 false false false
/-- R570 -/
def F.PKG_BOOT_SLOT : Field := .mk 0x00 0x110 0x0 1 7 7 .ro 0x0 false false false
/-- R570 -/
def F.PKG_BOOT_FAIL_CAUSE : Field := .mk 0x00 0x110 0x0 1 11 8 .ro 0x0 false false false
/-- R570 -/
def F.PKG_RAILS_IN_WINDOW : Field := .mk 0x00 0x114 0x0 1 22 0 .ro 0x0 false false false
/-- R570 -/
def F.PKG_ICT_STS_DONE : Field := .mk 0x00 0x118 0x0 1 0 0 .ro 0x0 false false false
/-- R570 -/
def F.PKG_ICT_STS_UNREPAIRED : Field := .mk 0x00 0x118 0x0 1 1 1 .ro 0x0 false false false
/-- R570 -/
def F.PKG_ICT_STS_LINKS_SPARED : Field := .mk 0x00 0x118 0x0 1 7 2 .ro 0x0 false false false
/-- R570 -/
def F.PKG_ICT_SEL_LINK : Field := .mk 0x00 0x11C 0x0 1 5 0 .rw 0x0 false false false
/-- R570 -/
def F.PKG_ICT_SEL_WORD : Field := .mk 0x00 0x11C 0x0 1 7 6 .rw 0x0 false false false
/-- R570 -/
def F.PKG_ICT_DATA_DATA : Field := .mk 0x00 0x120 0x0 1 31 0 .ro 0x0 false false false

/-- Part 0 of the fields of block type 0x10. -/
def fieldsOf_10_0 : List Field :=
  [F.HUB_ARB_CTL_STARVE_LIMIT, F.HUB_ARB_CTL_STALL_MULT, F.HUB_STS_URGENT_NOW, F.HUB_STS_BRIDGE_DETOUR, F.HUB_STS_LOST_BRIDGE]

/-- Every field of block type 0x10. -/
def fieldsOf_10 : List Field := fieldsOf_10_0

/-- Part 0 of the fields of block type 0x20. -/
def fieldsOf_20_0 : List Field :=
  [F.MXA_CFG_QUARTER, F.MXA_STS_BUSY, F.MXA_STS_QUARTER_ACTIVE, F.MXA_STS_FROZEN, F.MXA_STS_CHECKING, F.MXA_STS_OFFLINE, F.MXA_STS_PREEMPT_PENDING, F.MXA_STS_QBUSY, F.MXA_STS_BANK_LAST, F.MXA_FAULT_VALID, F.MXA_FAULT_CAUSE, F.MXA_FAULT_QUARTER_ID, F.MXA_FAULT_SHARED, F.MXA_FAULT_CONTEXT, F.MXA_PENMAP_LO_PHYS_PEN_0_7, F.MXA_PENMAP_HI_PHYS_PEN_8, F.MXA_DISABLED_PEN_HAS_OFF, F.MXA_DISPOS_OFF_ARRAY]

/-- Every field of block type 0x20. -/
def fieldsOf_20 : List Field := fieldsOf_20_0

/-- Part 0 of the fields of block type 0x40. -/
def fieldsOf_40_0 : List Field :=
  [F.QBASE_LO_BASE_LO, F.QBASE_HI_BASE_HI, F.QCFG_ENABLE, F.QCFG_SIZE_LOG2, F.QCFG_CLASS, F.QCFG_AGE_LIMIT, F.QCFG_HOME_TILE, F.QDB_TAIL, F.QSTS_HEAD, F.QSTS_DB_OVERRUN, F.QSTS_BLOCKED, F.QSTS_AGED, F.QSTS_CPL_ERR, F.QSTS_CPL_CODE, F.CQHEAD, F.CBASE_LO, F.CBASE_HI, F.TALLY_VAL_VALUE, F.TALLY_ADD_AMOUNT, F.TALLY_GEN_GEN, F.TALLY_GEN_OVF, F.CTX_CFG_ENABLE, F.CTX_CFG_DEBUG_PRIV, F.CTX_CFG_FOLD]

/-- Part 1 of the fields of block type 0x40. -/
def fieldsOf_40_1 : List Field :=
  [F.CTX_CFG_FOLD_VALID, F.CTX_SEGTBL_LO_BASE_LO, F.CTX_SEGTBL_HI_BASE_HI, F.CTX_SAVE_LO_SAVE_LO, F.CTX_SAVE_HI_SAVE_HI, F.CTX_SAVE_HI_SAVE_VALID, F.CTX_SEGINV_GO, F.CTX_SEGINV_STS_ISSUED, F.CTX_SEGINV_STS_DONE, F.CTX_SEGERR_VALID, F.CTX_SEGERR_SEG, F.CTX_SEGERR_CAUSE, F.CTX_SEED_LO_SEED_LO, F.CTX_SEED_HI_SEED_HI, F.CTX_STEP_STEP, F.CTX_STEP_PEND_STEP, F.CTX_STEP_TICK_LO_TICK_LO, F.CTX_STEP_TICK_HI_TICK_HI, F.CTX_STEP_STS_PENDING, F.CTX_STEP_STS_SEED_REFUSED, F.CTX_SEQ_STS_ACTIVE, F.CTX_SEQ_STS_ALT, F.CTX_SEQ_STS_F_REL, F.CTX_SEQ_STS_B_REL]

/-- Part 2 of the fields of block type 0x40. -/
def fieldsOf_40_2 : List Field :=
  [F.CTX_ENERGY_LO_ENERGY_LO, F.CTX_ENERGY_HI_ENERGY_HI]

/-- Every field of block type 0x40. -/
def fieldsOf_40 : List Field := fieldsOf_40_0 ++ fieldsOf_40_1 ++ fieldsOf_40_2

/-- Part 0 of the fields of block type 0x21. -/
def fieldsOf_21_0 : List Field :=
  [F.PREP_STS_RUNNING, F.PREP_STS_HALTED, F.PREP_STS_HALT_CODE, F.PREP_STS_CONTEXT, F.PREP_STS_POISON, F.PREP_FAULT_VALID, F.PREP_FAULT_CAUSE, F.PREP_FAULT_PC, F.PREP_FAULT_CONTEXT, F.PREP_FADDR_OFFSET, F.LIST_STS_ACTIVE, F.LIST_STS_NEXT, F.LIST_STS_CONTEXT, F.LIST_STS_HELD]

/-- Every field of block type 0x21. -/
def fieldsOf_21 : List Field := fieldsOf_21_0

/-- Part 0 of the fields of block type 0x22. -/
def fieldsOf_22_0 : List Field :=
  [F.VEC_STS_READY, F.VEC_STS_WAITING]

/-- Every field of block type 0x22. -/
def fieldsOf_22 : List Field := fieldsOf_22_0

/-- Part 0 of the fields of block type 0x23. -/
def fieldsOf_23_0 : List Field :=
  [F.HATCH_STS_BUSY, F.HATCH_STS_FIFO_DEPTH, F.HATCH_STS_CONTEXT, F.HATCH_ERRLOG_VALID, F.HATCH_ERRLOG_CAUSE, F.HATCH_ERRLOG_CONTEXT]

/-- Every field of block type 0x23. -/
def fieldsOf_23 : List Field := fieldsOf_23_0

/-- Part 0 of the fields of block type 0x24. -/
def fieldsOf_24_0 : List Field :=
  [F.SPAD_ARB_CLASS34_LIMIT, F.SPAD_ARB_DEBUG_LIMIT, F.SPAD_ARB_SCRUB_EN, F.SPAD_STS_INIT_BUSY, F.SPAD_STS_KEEP_WIPING, F.SPAD_STS_WIPE_CAUSE, F.SPAD_STS_WIPE_COUNT, F.SPAD_ERRLOG_VALID, F.SPAD_ERRLOG_UE, F.SPAD_ERRLOG_POISON_READ, F.SPAD_ERRLOG_STORE, F.SPAD_ERRLOG_CLASS, F.SPAD_ERRADDR_GRANULE, F.SPAD_REPAIR_SPARES_USED]

/-- Every field of block type 0x24. -/
def fieldsOf_24 : List Field := fieldsOf_24_0

/-- Part 0 of the fields of block type 0x02. -/
def fieldsOf_02_0 : List Field :=
  [F.MEMMAP_CTL_LOCK, F.MEMMAP_CTL_LOCAL_SPLIT, F.MEMMAP_CTL_KEY_FIXED, F.MEMMAP_STS_LIVE, F.MEMMAP_STS_BUILT, F.MEMMAP_STS_READY, F.MEMMAP_TLIVE_TILE_LIVE, F.MEMMAP_IMB_IMB_RATIO, F.MEMMAP_IMB_IMB_HOLD, F.MEMMAP_IMB_IMB_WINDOW, F.MEMMAP_IMB_IMB_EN, F.MEMMAP_IMBSTS_EVENT, F.MEMMAP_IMBSTS_HOT_CHAN, F.MEMMAP_IMBSTS_HOT_ZONE, F.MEMMAP_IMBSTS_HOT_FOLD, F.MEMMAP_KEYSEL_SET, F.MEMMAP_KEYSEL_INDEX, F.MEMMAP_KEYDATA_KEY, F.MEMMAP_TBLSEL_ENTRY, F.MEMMAP_TBLSEL_TABLE, F.MEMMAP_TBLDATA_CHAN, F.MEMMAP_ZSALT_SALT, F.MEMMAP_CHOUT_OUT]

/-- Every field of block type 0x02. -/
def fieldsOf_02 : List Field := fieldsOf_02_0

/-- Part 0 of the fields of block type 0x13. -/
def fieldsOf_13_0 : List Field :=
  [F.MEMC_BAD_LO_BAD, F.MEMC_BAD_HI_BAD, F.MEMC_THERM_TEMP, F.MEMC_THERM_LEVEL, F.MEMC_THERM_VALID, F.MEMC_THRESH_WARN, F.MEMC_THRESH_THROTTLE, F.MEMC_THRESH_CRITICAL, F.MEMC_THRESH_HYST, F.MEMC_THR_RATE_RATE, F.MEMC_ERRLOG_VALID, F.MEMC_ERRLOG_UE, F.MEMC_ERRLOG_PC, F.MEMC_ERRLOG_CAUSE, F.MEMC_ERRADDR_LINE]

/-- Every field of block type 0x13. -/
def fieldsOf_13 : List Field := fieldsOf_13_0

/-- Part 0 of the fields of block type 0x14. -/
def fieldsOf_14_0 : List Field :=
  [F.DRV_CFG_TIER_TMO, F.DRV_STS_BUSY, F.DRV_STS_OPCODE, F.DRV_STS_CONTEXT, F.DRV_STS_FOLD, F.DRV_ERRLOG_VALID, F.DRV_ERRLOG_CAUSE, F.DRV_ERRLOG_CONTEXT, F.DRV_ERRADDR_LO_ADDR_LO, F.DRV_ERRADDR_HI_ADDR_HI, F.DRV_CHUNKTBL_LO_BASE_LO, F.DRV_CHUNKTBL_HI_BASE_HI, F.DRV_CHUNKTBL_HI_COUNT]

/-- Every field of block type 0x14. -/
def fieldsOf_14 : List Field := fieldsOf_14_0

/-- Part 0 of the fields of block type 0x41. -/
def fieldsOf_41_0 : List Field :=
  [F.FOLD_CTL_ENABLE, F.FOLD_STS_ACTIVE, F.FOLD_STS_CFG_ERR, F.FOLD_STS_CFG_CAUSE, F.FOLD_STS_RESETTING, F.FOLD_STS_FQ_ERR, F.FOLD_DIES_DIES, F.FOLD_SHARE_SHARE, F.FOLD_SHARE_DRV_CAP, F.FOLD_WIN_LO_WINDOWS, F.FOLD_WIN_HI_WINDOWS, F.FOLD_FQBASE_LO_BASE_LO, F.FOLD_FQBASE_HI_BASE_HI, F.FOLD_FQBASE_HI_LOG2, F.FOLD_FQHEAD_HEAD, F.FOLD_FQTAIL_TAIL, F.FOLD_FAULTREPLY_SLOT, F.FOLD_FAULTREPLY_SEQ, F.FOLD_FAULTREPLY_DECLINE, F.FOLD_REGION_LO_BASE, F.FOLD_REGION_LO_VALID, F.FOLD_REGION_HI_LIMIT, F.FOLD_REGION_HI_COMP, F.FOLD_ENERGY_LO_ENERGY_LO]

/-- Part 1 of the fields of block type 0x41. -/
def fieldsOf_41_1 : List Field :=
  [F.FOLD_ENERGY_HI_ENERGY_HI]

/-- Every field of block type 0x41. -/
def fieldsOf_41 : List Field := fieldsOf_41_0 ++ fieldsOf_41_1

/-- Part 0 of the fields of block type 0x04. -/
def fieldsOf_04_0 : List Field :=
  [F.WIN_OUT_TGT_PKG, F.WIN_OUT_TGT_IMPORT, F.WIN_OUT_ENABLE, F.WIN_IN_ENABLE, F.WIN_IN_RD, F.WIN_IN_WR, F.WIN_IN_ATOM, F.WIN_IN_SRC_FOLD, F.WIN_IN_TGT_FOLD, F.WIN_IN_SRC_PKG, F.WIN_IN_PBASE_LO, F.WIN_IN_PBASE_HI, F.WIN_IN_LENGTH]

/-- Every field of block type 0x04. -/
def fieldsOf_04 : List Field := fieldsOf_04_0

/-- Part 0 of the fields of block type 0x12. -/
def fieldsOf_12_0 : List Field :=
  [F.COH_CFG_VISIT_MODE, F.COH_CFG_LOCK_WAYS, F.COH_STS_DEAD, F.COH_STS_RECLAIM_BUSY, F.COH_STS_LOCK_READY, F.COH_REJOIN_AGENT, F.COH_ERRLOG_VALID, F.COH_ERRLOG_CAUSE, F.COH_ERRLOG_AGENT, F.COH_ERRADDR_LO_LINE_LO, F.COH_ERRADDR_HI_LINE_HI]

/-- Every field of block type 0x12. -/
def fieldsOf_12 : List Field := fieldsOf_12_0

/-- Part 0 of the fields of block type 0x30. -/
def fieldsOf_30_0 : List Field :=
  [F.HOSTD_CFG_CORE_TMO, F.HOSTD_STS_IN_RESET, F.HOSTD_STS_SR_ACTIVE, F.HOSTD_STS_CH_USED, F.HOSTD_CTL_RESET, F.HOSTD_ERRLOG_VALID, F.HOSTD_ERRLOG_SYND, F.HOSTD_ERRLOG_CORE, F.HOSTD_ERRLOG_ASYNC, F.HOSTD_ERRADDR_LO_ADDR_LO, F.HOSTD_ERRADDR_HI_ADDR_HI, F.HOSTD_AUTH_SYS, F.HOSTD_AUTH_FOLD, F.HOSTD_AUTH_FOLD_VALID]

/-- Every field of block type 0x30. -/
def fieldsOf_30 : List Field := fieldsOf_30_0

/-- Part 0 of the fields of block type 0x08. -/
def fieldsOf_08_0 : List Field :=
  [F.HOSTP_BIASFLIP_GRANULE, F.HOSTP_BIASFLIP_TIER, F.HOSTP_BIASFLIP_OWNED, F.HOSTP_BIASSTS_BUSY, F.HOSTP_BIASSTS_DISCARD, F.HOSTP_BIASQ_QUERY, F.HOSTP_BIASQ_OWNED, F.HOSTP_RET_BASE, F.HOSTP_RET_SIZE, F.HOSTP_RET_EN, F.HOSTP_RETSTS_DESC_VALID, F.HOSTP_RETSTS_INTACT, F.HOSTP_RETSTS_REFUSED]

/-- Every field of block type 0x08. -/
def fieldsOf_08 : List Field := fieldsOf_08_0

/-- Part 0 of the fields of block type 0x31. -/
def fieldsOf_31_0 : List Field :=
  [F.HOSTL_CFG_MODE, F.HOSTL_CFG_CXL_EN, F.HOSTL_CFG_UP, F.HOSTL_CFG_WIDTH, F.HOSTL_CFG_SPEED, F.HOSTL_BAR2_BASE, F.HOSTL_HDM_BASE_BASE, F.HOSTL_HDM_SIZE_SIZE, F.HOSTL_DMA_LO_BASE, F.HOSTL_DMA_LO_VALID, F.HOSTL_DMA_HI_LIMIT, F.HOSTL_PEERAP_BASE, F.HOSTL_STS_CFG_ERR, F.HOSTL_STS_CAUSE, F.HOSTL_VF_ENABLE, F.HOSTL_VF_FOLD, F.HOSTL_VF_FIRST_CTX, F.HOSTL_VF_COUNT, F.HOSTL_VF_WIN_BASE, F.HOSTL_PEER_ENABLE, F.HOSTL_PEER_RD, F.HOSTL_PEER_WR, F.HOSTL_PEER_FOLD, F.HOSTL_PEER_CTX]

/-- Part 1 of the fields of block type 0x31. -/
def fieldsOf_31_1 : List Field :=
  [F.HOSTL_PEER_TALLY, F.HOSTL_PEER_ERR, F.HOSTL_PEER_PBASE_LO, F.HOSTL_PEER_PBASE_HI, F.HOSTL_PEER_LENGTH]

/-- Every field of block type 0x31. -/
def fieldsOf_31 : List Field := fieldsOf_31_0 ++ fieldsOf_31_1

/-- Part 0 of the fields of block type 0x32. -/
def fieldsOf_32_0 : List Field :=
  [F.INP_CFG_TMO, F.INP_STS_CFG_ERR, F.INP_STS_CAUSE, F.INP_XTS_NS_NS, F.INP_XTS_SEC_LO_SEC_LO, F.INP_XTS_SEC_HI_SEC_HI, F.INP_PTPSTEP_STEP, F.INP_PTPRATE_RATE, F.RBASE_LO_BASE_LO, F.RBASE_HI_BASE_HI, F.RCFG_ENABLE, F.RCFG_SIZE_LOG2, F.RDB_TAIL, F.RSTS_HEAD, F.RSTS_DB_OVERRUN, F.RCQHEAD_CQHEAD, F.RCBASE_LO_CBASE_LO, F.RCBASE_HI_CBASE_HI, F.CACHE_LO_BASE_LO, F.CACHE_HI_BASE_HI, F.CACHE_HI_SLOT_LOG2, F.CACHE_CFG_SLOTS, F.CACHE_CFG_GEN, F.CACHE_DS_DATASET]

/-- Part 1 of the fields of block type 0x32. -/
def fieldsOf_32_1 : List Field :=
  [F.SRC_CFG_ENABLE, F.SRC_CFG_FOLD, F.SRC_CFG_GROUP, F.SRC_CFG_SLOT, F.SRC_CFG_CTX, F.SRC_CFG_TALLY, F.SRC_RING_LO_BASE_LO, F.SRC_RING_HI_BASE_HI, F.SRC_RING_HI_LOG2, F.SRC_NEXT_NEXT, F.GRP_CFG_ENABLE, F.GRP_CFG_FOLD, F.GRP_CFG_CTX, F.GRP_CFG_TALLY, F.GRP_CFG_LOG2, F.GRP_PERIOD_PERIOD, F.GRP_HALF_HALF, F.GRP_GRACE_GRACE, F.GRP_START_LO_START_LO, F.GRP_START_HI_START_HI, F.GRP_OUT_LO_BASE_LO, F.GRP_OUT_HI_BASE_HI]

/-- Every field of block type 0x32. -/
def fieldsOf_32 : List Field := fieldsOf_32_0 ++ fieldsOf_32_1

/-- Part 0 of the fields of block type 0x17. -/
def fieldsOf_17_0 : List Field :=
  [F.NP_CFG_ENABLE, F.NP_CFG_LANE_FAIL_THR, F.NP_CFG_MAX_RETRY, F.NP_STS_UP, F.NP_STS_SPARED, F.NP_STS_SPARE_LANE, F.NP_STS_DOWN, F.NP_ERRLOG_VALID, F.NP_ERRLOG_CAUSE, F.NP_ERRLOG_LANE]

/-- Every field of block type 0x17. -/
def fieldsOf_17 : List Field := fieldsOf_17_0

/-- Part 0 of the fields of block type 0x03. -/
def fieldsOf_03_0 : List Field :=
  [F.FAB_COORD_COORD, F.FAB_SHAPE_EXTENT, F.FAB_SHAPE_WRAP, F.FAB_SHAPE_CLASS, F.FAB_ROUTE_DETOUR_EN, F.FAB_ROUTE_SPREAD_EN, F.FAB_LINK_DOWN, F.FAB_LINK_HALF, F.FAB_XPORT_XTMO, F.FAB_XPORT_XRETRY, F.FAB_CTMO_COLL_TMO, F.FAB_CTMO_GRACE_MAX, F.FAB_LAG_SW, F.FAB_LAG_EN, F.FAB_LAG_SRC, F.FAB_LAG_LAGGARD, F.FAB_STS_CFG_ERR, F.FAB_STS_CAUSE, F.FAB_TEAM_ENABLE, F.FAB_TEAM_FOLD, F.FAB_TEAM_TEAM_ID, F.FAB_TEAM_ORIGIN, F.FAB_TEAM_EXTENT, F.FAB_TEAM_CSEQ]

/-- Part 1 of the fields of block type 0x03. -/
def fieldsOf_03_1 : List Field :=
  [F.FAB_TEAM_PEER_FOLDS]

/-- Every field of block type 0x03. -/
def fieldsOf_03 : List Field := fieldsOf_03_0 ++ fieldsOf_03_1

/-- Part 0 of the fields of block type 0x16. -/
def fieldsOf_16_0 : List Field :=
  [F.COLL_STS_BUSY, F.COLL_STS_INFLIGHT, F.COLL_ERRLOG_VALID, F.COLL_ERRLOG_CAUSE, F.COLL_ERRLOG_TEAM, F.COLL_ERRLOG_RANK]

/-- Every field of block type 0x16. -/
def fieldsOf_16 : List Field := fieldsOf_16_0

/-- Part 0 of the fields of block type 0x15. -/
def fieldsOf_15_0 : List Field :=
  [F.ETCH_STS_BUSY, F.ETCH_STS_OPCODE, F.ETCH_STS_CONTEXT, F.ETCH_STS_FOLD, F.ETCH_ERRLOG_VALID, F.ETCH_ERRLOG_CAUSE, F.ETCH_ERRLOG_CONTEXT, F.ETCH_BLOCKS_BLOCKS]

/-- Every field of block type 0x15. -/
def fieldsOf_15 : List Field := fieldsOf_15_0

/-- Part 0 of the fields of block type 0x05. -/
def fieldsOf_05_0 : List Field :=
  [F.PWR_CTL_PERIOD, F.PWR_CTL_DUTY_FLOOR, F.PWR_CAP_CAP_W, F.PWR_CAP_NEXT_CAP_W, F.PWR_CAP_TICK_LO_TICK_LO, F.PWR_CAP_TICK_HI_TICK_HI, F.PWR_STS_PENDING, F.PWR_STS_CLAMPED, F.PWR_STS_LATE, F.PWR_STS_CAP_UNMET, F.PWR_STS_ALERT, F.PWR_STS_CEIL_CAP, F.PWR_STS_DUTY, F.PWR_PKG_W_AVG_W, F.PWR_TRIP_VALID, F.PWR_TRIP_SOURCE, F.PWR_TRIP_UNIT, F.PWR_TRIP_TEMP, F.PWR_ESYS_LO_ENERGY_LO, F.PWR_ESYS_HI_ENERGY_HI]

/-- Every field of block type 0x05. -/
def fieldsOf_05 : List Field := fieldsOf_05_0

/-- Part 0 of the fields of block type 0x25. -/
def fieldsOf_25_0 : List Field :=
  [F.PWR_DIE_CTL_OP_REQ, F.PWR_DIE_CTL_TJ_THROTTLE, F.PWR_DIE_CTL_CAL, F.PWR_DIE_CTL_DROOP_MV, F.PWR_DIE_STS_OP_NOW, F.PWR_DIE_STS_CEIL_THERM, F.PWR_DIE_STS_CEIL_AGE, F.PWR_DIE_STS_IN_TRANSITION, F.PWR_DIE_STS_DROOP, F.PWR_DIE_STS_TJ, F.PWR_VMARGIN_LO_MARGIN, F.PWR_VMARGIN_HI_MARGIN, F.PWR_OPRETIRE_RETIRED, F.PWR_CPM_SLACK, F.PWR_CPM_GUARD, F.PWR_CPM_LOW, F.PWR_DIE_HOURS_HOURS]

/-- Every field of block type 0x25. -/
def fieldsOf_25 : List Field := fieldsOf_25_0

/-- Part 0 of the fields of block type 0x11. -/
def fieldsOf_11_0 : List Field :=
  [F.SHEEP_TMO0_QUEUE_MS, F.SHEEP_TMO0_STREAM_MS, F.SHEEP_TMO1_RUN_MS, F.SHEEP_TMO1_UNIT_US, F.SHEEP_TMO2_AGENT_US, F.SHEEP_TMO2_HUB_MS, F.SHEEP_TMO2_LINK_MS, F.SHEEP_LAST_UNIT]

/-- Every field of block type 0x11. -/
def fieldsOf_11 : List Field := fieldsOf_11_0

/-- Part 0 of the fields of block type 0x06. -/
def fieldsOf_06_0 : List Field :=
  [F.FLT_CTL_AUTO, F.FLT_CTL_SAMPLE, F.FLT_CTL_DRAIN_LIMIT, F.FLT_CTL_PKG_RESET, F.FLT_CTL_FATAL_MS, F.FLT_STS_PKG_FATAL, F.FLT_STS_PKG_CAUSE, F.FLT_STS_LOG_OVF, F.FLT_STS_CAP_SKIP, F.FLT_FOLDRST_FOLD, F.FLT_FOLDFATAL_FOLD, F.FLT_OFFLINE_DIES, F.FLT_LOGPTR_HEAD, F.FLT_LOGPTR_TAIL, F.FLT_LOGSEL_ENTRY, F.FLT_LOGSEL_WORD, F.FLT_LOGDATA_DATA, F.FLT_CAP_LO_BASE, F.FLT_CAP_LO_VALID, F.FLT_CAP_HI_SEQ]

/-- Every field of block type 0x06. -/
def fieldsOf_06 : List Field := fieldsOf_06_0

/-- Part 0 of the fields of block type 0x07. -/
def fieldsOf_07_0 : List Field :=
  [F.HERD_CTL_ROLE, F.HERD_CTL_JOIN, F.HERD_CTL_SLOT, F.HERD_CTL_NSLOTS, F.HEAD_CTL_ROLE, F.HEAD_CTL_JOIN, F.HEAD_CTL_SLOT, F.HEAD_CTL_NSLOTS, F.HERD_STS_LOCKED, F.HERD_STS_HOLDOVER, F.HERD_STS_RECOUNTING, F.HERD_STS_CAL_DEV, F.HERD_STS_MASTER_CONFLICT, F.HERD_STS_ACTING, F.HERD_STS_POS, F.HERD_STS_MEMBERS, F.HERD_STS_EPOCH_PEND, F.HERD_STS_EVT_ERR, F.HEAD_STS_LOCKED, F.HEAD_STS_HOLDOVER, F.HEAD_STS_POS, F.HEAD_STS_MEMBERS, F.HERD_DLY_POS_DLY, F.HERD_DLY_HEAD_DLY]

/-- Part 1 of the fields of block type 0x07. -/
def fieldsOf_07_1 : List Field :=
  [F.HERD_LOOP_WMEAS, F.HERD_LOOP_WNOM, F.HERD_TIME_LO_TIME_LO, F.HERD_TIME_HI_TIME_HI, F.HERD_MASTERS_MASTER_PKG, F.HERD_MASTERS_HEAD_PKG, F.HERD_TBLSEL_ENTRY, F.HERD_TBLSEL_TABLE, F.HERD_TBLDATA_LINK, F.HERD_TBLDATA_BYP, F.HERD_EPOCH_EPOCH, F.HERD_EPOCH_NEXT_NEXT, F.HERD_EPOCH_TICK_LO_TICK_LO, F.HERD_EPOCH_TICK_HI_TICK_HI, F.HERD_EPOCH_TICK_HI_PEND, F.HERD_EXPECT_LO_EXPECT_LO, F.HERD_EXPECT_HI_EXPECT_HI, F.HERD_DIGEST_LO_DIGEST_LO, F.HERD_DIGEST_HI_DIGEST_HI, F.HERD_FENCE_FOLDS, F.HERD_FENCE_PKG, F.HERD_FENCE_CAUSE, F.HERD_CFGW_WORD, F.HERD_EVTSEL_ENTRY]

/-- Part 2 of the fields of block type 0x07. -/
def fieldsOf_07_2 : List Field :=
  [F.HERD_EVTSEL_WORD, F.HERD_EVTDATA_DATA, F.HERD_EVTVALID_ARMED, F.HERD_BAR_BID, F.HERD_BAR_SCOPE, F.HERD_BAR_CTX, F.HERD_BAR_TALLY, F.HERD_BAR_ARRIVE, F.HERD_BAR_TOTAL, F.CROOK_STS_OWNER, F.CROOK_STS_GEN, F.CROOK_STS_LEASE_LEFT, F.CROOK_CAS_EXPECT, F.CROOK_CAS_NEW, F.CROOK_CTL_RENEW, F.CROOK_CTL_LEASE_MS, F.CROOK_REFUSED_PMC, F.HERD_MSGSEL_ENTRY, F.HERD_MSGSEL_WORD, F.HERD_MSGSEL_BOX, F.HERD_MSGDATA_DATA, F.HERD_MSGCTL_SEND, F.HERD_MSGCTL_RING, F.HERD_MSGCTL_OUT_STS]

/-- Part 3 of the fields of block type 0x07. -/
def fieldsOf_07_3 : List Field :=
  [F.HERD_MSGCTL_IN_COUNT, F.HERD_MSGCTL_IN_POP]

/-- Every field of block type 0x07. -/
def fieldsOf_07 : List Field := fieldsOf_07_0 ++ fieldsOf_07_1 ++ fieldsOf_07_2 ++ fieldsOf_07_3

/-- Part 0 of the fields of block type 0xFF. -/
def fieldsOf_FF_0 : List Field :=
  [F.ID, F.VER_STEP, F.VER_LAYOUT, F.CAP_GROUP, F.CAP_REMOTE, F.CAP_LOCKABLE, F.CAP_BLOCK_CAP, F.CTL_CNT_FREEZE, F.CTL_CNT_CLEAR, F.CTL_LOCK, F.STS_BUSY, F.STS_OFFLINE, F.STS_IN_RESET, F.STS_DIFFER, F.ERR_LOCK_WR, F.ERR_CNT_OVF, F.ERR_LOGGED, F.ERR_NARROW, F.ERRMASK_MASK, F.IRQEN_EN, F.IRQSTS_ERR, F.IRQSTS_EVENT, F.IRQSTS_QUEUE, F.EPOCH]

/-- Part 1 of the fields of block type 0xFF. -/
def fieldsOf_FF_1 : List Field :=
  [F.CNT_SNAP_TAKE, F.CNT_SNAP_HELD, F.CNT_SNAP_RELEASE, F.CNT_OVF_OVF]

/-- Every field of block type 0xFF. -/
def fieldsOf_FF : List Field := fieldsOf_FF_0 ++ fieldsOf_FF_1

/-- Part 0 of the fields of block type 0x09. -/
def fieldsOf_09_0 : List Field :=
  [F.IRQ_ROUTE_BASE, F.IRQ_ROUTE_SPAN, F.IRQ_ROUTE_VALID, F.IRQ_ROUTE_TARGET, F.IRQ_ROUTE_VECTOR, F.IRQ_ROUTE_LINK]

/-- Every field of block type 0x09. -/
def fieldsOf_09 : List Field := fieldsOf_09_0

/-- Part 0 of the fields of block type 0x00. -/
def fieldsOf_00_0 : List Field :=
  [F.PKG_CAP_GRADE, F.PKG_CAP_ARRAYS, F.PKG_TIERF_SIZE_GIB, F.PKG_TIERF_CHANNELS, F.PKG_TIERF_VALID, F.PKG_LCS_STATE, F.PKG_LCS_SVN_MIN, F.PKG_LCS_PEND_TARGET, F.PKG_LCS_PENDING, F.PKG_LCS_SVN_PEND, F.PKG_LCS_REQ_TARGET, F.PKG_LCS_REQ_GO, F.PKG_LCS_REQ_SVN_BUMP, F.PKG_BOOT_PHASE, F.PKG_BOOT_TIERF_READY, F.PKG_BOOT_PMC_BOOTED, F.PKG_BOOT_SLOT, F.PKG_BOOT_FAIL_CAUSE, F.PKG_RAILS_IN_WINDOW, F.PKG_ICT_STS_DONE, F.PKG_ICT_STS_UNREPAIRED, F.PKG_ICT_STS_LINKS_SPARED, F.PKG_ICT_SEL_LINK, F.PKG_ICT_SEL_WORD]

/-- Part 1 of the fields of block type 0x00. -/
def fieldsOf_00_1 : List Field :=
  [F.PKG_ICT_DATA_DATA]

/-- Every field of block type 0x00. -/
def fieldsOf_00 : List Field := fieldsOf_00_0 ++ fieldsOf_00_1

/-- The block-specific fields of a block type (R519), without the common header. -/
def blockFields (blk : Nat) : List Field :=
  match blk with
  | 0x10 => fieldsOf_10
  | 0x20 => fieldsOf_20
  | 0x40 => fieldsOf_40
  | 0x21 => fieldsOf_21
  | 0x22 => fieldsOf_22
  | 0x23 => fieldsOf_23
  | 0x24 => fieldsOf_24
  | 0x02 => fieldsOf_02
  | 0x13 => fieldsOf_13
  | 0x14 => fieldsOf_14
  | 0x41 => fieldsOf_41
  | 0x04 => fieldsOf_04
  | 0x12 => fieldsOf_12
  | 0x30 => fieldsOf_30
  | 0x08 => fieldsOf_08
  | 0x31 => fieldsOf_31
  | 0x32 => fieldsOf_32
  | 0x17 => fieldsOf_17
  | 0x03 => fieldsOf_03
  | 0x16 => fieldsOf_16
  | 0x15 => fieldsOf_15
  | 0x05 => fieldsOf_05
  | 0x25 => fieldsOf_25
  | 0x11 => fieldsOf_11
  | 0x06 => fieldsOf_06
  | 0x07 => fieldsOf_07
  | 0x09 => fieldsOf_09
  | 0x00 => fieldsOf_00
  | 0xFF => fieldsOf_FF
  | _ => []

end Sys2Proof.Machine
end

