-- ==== Sys2Proof/Machine/Ops.lean ====
section
/-! DEFINITION. The shared operations over the register pages, counters, interrupts, the fault log and the
physical memory: where a page lies and whom it belongs to (R517 to R520, R238, R240), how a field is read
and written (R521, R526, R529), how counters count and latch (R532 to R536), how an interrupt rises and is
delivered (R537, R538), where a physical address falls (R13, R14) and how its bytes and poison are held. -/

namespace Sys2Proof.Machine

open Sys2Proof

/-- What a command answers. -/
abbrev Out := Host.Outcome State Fault Refusal

/-! ## Pages -/

/-- The index of the page of block type `blk` at `slot` (R517). -/
def pageOf (blk slot : Nat) : Nat := blk * 4096 + slot

/-- The block-type code of a page index (R517). -/
def blkOf (page : Nat) : Nat := page / 4096

/-- The slot of a page index (R517). -/
def slotOf (page : Nat) : Nat := page % 4096

/-- The number of leaf slots of each block type (R519). -/
def leafCount (blk : Nat) : Nat :=
  match blk with
  | 0x00 => 1 | 0x02 => 1 | 0x03 => 1 | 0x04 => 1 | 0x05 => 1
  | 0x06 => 1 | 0x07 => 1 | 0x08 => 1 | 0x09 => 1
  | 0x10 => 4 | 0x11 => 4 | 0x12 => 4 | 0x13 => 12 | 0x14 => 64 | 0x15 => 32 | 0x16 => 8 | 0x17 => 16
  | 0x20 => 1152 | 0x21 => 576 | 0x22 => 144 | 0x23 => 144 | 0x24 => 16 | 0x25 => 16
  | 0x30 => 2 | 0x31 => 4 | 0x32 => 2 | 0x40 => 512 | 0x41 => 16
  | _ => 0

/-- The leaf slots per C-die of the block types that belong to a die (R519). -/
def perDie (blk : Nat) : Nat :=
  match blk with
  | 0x20 => 72 | 0x21 => 36 | 0x22 => 9 | 0x23 => 9 | 0x24 => 1 | 0x25 => 1 | _ => 0

/-- The leaf slots per tile of each block type that has tile groups (R43, R519). -/
def perTile (blk : Nat) : Nat :=
  match blk with
  | 0x13 => 3 | 0x14 => 16 | 0x15 => 8 | 0x16 => 2 | 0x17 => 4
  | b => 4 * perDie b

/-- The array numbers of a B-grade part's pens P5 to P8 stop at A6 (R44, R122). -/
def arrayExists (gradeB : Bool) (slot : Nat) : Bool :=
  slot < 1152 && !(gradeB && slot % 8 == 7 && slot % 72 / 8 ≥ 5)

/-- A leaf page of R519 exists, less the B-grade array slots of R44. -/
def leafExists (s : State) (page : Nat) : Bool :=
  slotOf page < leafCount (blkOf page) &&
    (blkOf page != 0x20 || arrayExists s.fuse.gradeB (slotOf page))

/-- The levels of group pages (R43, R518). -/
inductive GroupKind where
  | pen (d p : Nat) | die (d : Nat) | tile (t : Nat) | system | pod | package
  deriving DecidableEq, Repr

/-- The group a page index names, if R519 gives its block type that level. -/
def groupOf (page : Nat) : Option GroupKind :=
  let b := blkOf page
  let x := slotOf page
  if 0xE00 ≤ x && x < 0xF00 && x % 16 < 9 && (b == 0x20 || b == 0x21) then
    some (.pen ((x - 0xE00) / 16) (x % 16))
  else if 0xF00 ≤ x && x < 0xF10 && (b == 0x20 || b == 0x21 || b == 0x22 || b == 0x23) then
    some (.die (x - 0xF00))
  else if 0xFF0 ≤ x && x < 0xFF4 && perTile b != 0 then some (.tile (x - 0xFF0))
  else if x == 0xFFD && b == 0 then some .system
  else if x == 0xFFE && b == 0 then some .pod
  else if x == 0xFFF && (perTile b != 0 || b == 0x10 || b == 0x11 || b == 0x12 || b == 0x30 ||
      b == 0x31 || b == 0x41) then some .package
  else none

/-- A page of R519 that the part provides. -/
def pageExists (s : State) (page : Nat) : Bool := leafExists s page || (groupOf page).isSome

/-- First leaf slot and number of leaf slots below a group page. -/
def groupSpan (page : Nat) : Nat × Nat :=
  let b := blkOf page
  match groupOf page with
  | some (.pen d p) =>
    let n := perDie b / 9
    (d * perDie b + p * n, n)
  | some (.die d) => (d * perDie b, perDie b)
  | some (.tile t) => (t * perTile b, perTile b)
  | some .package => (0, leafCount b)
  | _ => (0, 0)

/-- The leaf pages below a group page, in ascending instance order (R45), absent arrays left out (R44). -/
def groupLeaves (s : State) (page : Nat) : List Nat :=
  let sp := groupSpan page
  ((List.range sp.2).map fun i => pageOf (blkOf page) (sp.1 + i)).filter (leafExists s)

/-- GROUPMAP of a group page (R523): FIRST, COUNT and STRIDE of its direct members. -/
def groupMap (s : State) (page : Nat) : Nat :=
  let b := blkOf page
  let enc (first count : Nat) := first + count * 0x1000 + 0x200000
  match groupOf page with
  | none => 0
  | some (.pen _ _) => enc (groupSpan page).1 (groupLeaves s page).length
  | some (.die d) =>
    if b == 0x20 || b == 0x21 then enc (0xE00 + d * 16) 9 else enc (groupSpan page).1 (perDie b)
  | some (.tile t) =>
    if b == 0x20 || b == 0x21 || b == 0x22 || b == 0x23 then enc (0xF00 + 4 * t) 4
    else enc (groupSpan page).1 (perTile b)
  | some .package => if perTile b != 0 then enc 0xFF0 4 else enc 0 (leafCount b)
  | some .pod => s.podMembers * 0x1000
  | some .system => s.sysMembers * 0x1000

/-! ## Fields -/

/-- The number under which the field of a page at word offset `off` and low bit `lo` is held. -/
def fieldKey (page off lo : Nat) : Nat := (page * 1024 + off / 4) * 32 + lo

/-- The width of a field. -/
def fieldWidth (f : Field) : Nat := f.hi + 1 - f.lo

/-- Read copy `i` of a field: what was written last, or its Reset value (R529). -/
def fgeti (s : State) (page : Nat) (f : Field) (i : Nat) : Nat :=
  match mget s.regs (fieldKey page (f.off + i * f.stride) f.lo) with
  | some v => v.toNat % 2 ^ fieldWidth f
  | none => f.rst

/-- Set copy `i` of a field, cut to its width. -/
def fputi (s : State) (page : Nat) (f : Field) (i v : Nat) : State :=
  let k := fieldKey page (f.off + i * f.stride) f.lo
  { s with regs := mput s.regs k (BitVec.ofNat 64 (v % 2 ^ fieldWidth f)) }

/-- Read a field. -/
def fget (s : State) (page : Nat) (f : Field) : Nat := fgeti s page f 0

/-- Set a field. -/
def fput (s : State) (page : Nat) (f : Field) (v : Nat) : State := fputi s page f 0 v

/-- A one-bit field is 1. -/
def fbit (s : State) (page : Nat) (f : Field) : Bool := fget s page f == 1

/-- A one-bit copy of a field is 1. -/
def fbiti (s : State) (page : Nat) (f : Field) (i : Nat) : Bool := fgeti s page f i == 1

/-- Set a one-bit field. -/
def fputb (s : State) (page : Nat) (f : Field) (b : Bool) : State := fput s page f (bitN b)

/-- Or bits into a field. -/
def forBits (s : State) (page : Nat) (f : Field) (v : Nat) : State :=
  fput s page f (fget s page f ||| v)

/-- The 48- or 64-bit value of a _LO and _HI pair whose LO field starts at bit `lo`. -/
def fpair (s : State) (page : Nat) (fl fh : Field) (i : Nat) : Nat :=
  fgeti s page fl i * 2 ^ fl.lo + fgeti s page fh i * 2 ^ 32

/-- Set a 64-bit _LO/_HI pair. -/
def fputPair (s : State) (page : Nat) (fl fh : Field) (i v : Nat) : State :=
  fputi (fputi s page fl i (v % 2 ^ 32)) page fh i (v / 2 ^ 32)

/-! The leaf pages of R519. -/

def pgPKG : Nat := pageOf 0x00 0
def pgMEMMAP : Nat := pageOf 0x02 0
def pgFAB : Nat := pageOf 0x03 0
def pgWIN : Nat := pageOf 0x04 0
def pgPWR : Nat := pageOf 0x05 0
def pgFLT : Nat := pageOf 0x06 0
def pgHERD : Nat := pageOf 0x07 0
def pgHOSTP : Nat := pageOf 0x08 0
def pgIRQ : Nat := pageOf 0x09 0
def pgHUB (t : Nat) : Nat := pageOf 0x10 t
def pgSHEEP (t : Nat) : Nat := pageOf 0x11 t
def pgCOH (t : Nat) : Nat := pageOf 0x12 t
def pgMEMC (stack : Nat) : Nat := pageOf 0x13 stack
def pgDRV (t e : Nat) : Nat := pageOf 0x14 (t * 16 + e)
def pgETCH (t u : Nat) : Nat := pageOf 0x15 (t * 8 + u)
def pgCOLL (t e : Nat) : Nat := pageOf 0x16 (t * 2 + e)
def pgNP (port : Nat) : Nat := pageOf 0x17 port
def pgMXA (d p a : Nat) : Nat := pageOf 0x20 (d * 72 + p * 8 + a)
def pgPREP (d p k : Nat) : Nat := pageOf 0x21 (d * 36 + p * 4 + k)
def pgVEC (d p : Nat) : Nat := pageOf 0x22 (d * 9 + p)
def pgHATCH (d p : Nat) : Nat := pageOf 0x23 (d * 9 + p)
def pgSPAD (d : Nat) : Nat := pageOf 0x24 d
def pgPWRDIE (d : Nat) : Nat := pageOf 0x25 d
def pgHOSTD (h : Nat) : Nat := pageOf 0x30 h
def pgHOSTL (link : Nat) : Nat := pageOf 0x31 link
def pgINP (h : Nat) : Nat := pageOf 0x32 h
def pgCTX (c : Nat) : Nat := pageOf 0x40 c
def pgFOLD (f : Nat) : Nat := pageOf 0x41 f
/-- The pen group page of the PREP block type, which carries LIST_STS (R519, R162). -/
def pgPENPREP (d p : Nat) : Nat := pageOf 0x21 (0xE00 + d * 16 + p)
/-- The package group page of DRV, which carries the chunk table's place (R236). -/
def pgDRVPKG : Nat := pageOf 0x14 0xFFF

/-! ## Counters, errors and interrupts -/

/-- A page is a group page of R43. -/
def isGroup (page : Nat) : Bool := (groupOf page).isSome

/-- The interrupt line of a page (R537). -/
def irqLine (s : State) (page : Nat) : Bool :=
  let sts := fget s page F.IRQSTS_ERR + 2 * fget s page F.IRQSTS_EVENT
    + 256 * fget s page F.IRQSTS_QUEUE
  sts &&& fget s page F.IRQEN_EN != 0

/-- Add an output to the list of what the part has sent out. -/
def emit (s : State) (o : Output) : State := { s with out := o :: s.out }

/-- Add `k` to counter `n` of a page and note a wrap in CNT_OVF (R532, R534); the interrupt that ERR.CNT_OVF
may raise is left to `bump`. -/
def bumpRaw (s : State) (page n k : Nat) : State :=
  if fbit s page F.CTL_CNT_FREEZE then s
  else
    let v := (mgetD s.cnt (page * 16 + n) 0).toNat + k
    let s := { s with cnt := mput s.cnt (page * 16 + n) (BitVec.ofNat 64 v) }
    if v < 2 ^ 64 then s
    else fput (forBits s page F.CNT_OVF_OVF (2 ^ n)) page F.ERR_CNT_OVF 1

/-- The VF entries of all links, as (link, vf), that are enabled (R306). -/
def enabledVfs (s : State) : List (Nat × Nat) :=
  ((List.range 4).flatMap fun l => (List.range 63).map fun v => (l, v + 1)).filter
    fun lv => fbiti s (pgHOSTL lv.1) F.HOSTL_VF_ENABLE lv.2

/-- The place of context `c` among the contexts of VF entry (link, vf) (R306). -/
def vfCtxIndex (s : State) (link vf c : Nat) : Option Nat :=
  let first := fgeti s (pgHOSTL link) F.HOSTL_VF_FIRST_CTX vf
  let count := fgeti s (pgHOSTL link) F.HOSTL_VF_COUNT vf + 1
  if first ≤ c && c < first + count then some (c - first) else none

/-- A link that is up (R322). -/
def linkUp (s : State) (link : Nat) : Bool := fbit s (pgHOSTL link) F.HOSTL_CFG_UP

/-- Send an MSI-X write on a link, or drop and count it when the link is down (R308). -/
def sendMsix (s : State) (link vf vector : Nat) : State :=
  if linkUp s link then emit s (.msix link vf vector) else bumpRaw s (pgHOSTL link) 7 1

/-- Deliver by the lowest-numbered valid routing entry whose range holds the page (R538, R539). -/
def routeIrq (s : State) (page : Nat) : State :=
  let hit := (List.range 128).find? fun n =>
    let span := min (fgeti s pgIRQ F.IRQ_ROUTE_SPAN n) 20
    fbiti s pgIRQ F.IRQ_ROUTE_VALID n && fgeti s pgIRQ F.IRQ_ROUTE_TARGET n ≤ 5 &&
      fgeti s pgIRQ F.IRQ_ROUTE_BASE n / 2 ^ span == page / 2 ^ span
  match hit with
  | none => bumpRaw s pgIRQ 1 1
  | some n =>
    let v := fgeti s pgIRQ F.IRQ_ROUTE_VECTOR n
    let s := bumpRaw s pgIRQ 0 1
    match fgeti s pgIRQ F.IRQ_ROUTE_TARGET n with
    | 0 => emit s (.irqPmc 0 page)
    | 1 => emit s (.irqPmc 1 page)
    | 2 => emit (emit s (.irqPmc 0 page)) (.irqPmc 1 page)
    | 3 => emit s (.irqHost 0 v)
    | 4 => emit s (.irqHost 1 v)
    | _ => sendMsix s (fgeti s pgIRQ F.IRQ_ROUTE_LINK n) 0 v

/-- The MSI-X vector of a VF that a context or fold page's interrupt goes to, if a VF maps it (R306,
R538); `q` is the queue whose completion raised it. -/
def vfVector (s : State) (page q : Nat) : Option (Nat × Nat × Nat) :=
  if blkOf page == 0x40 then
    (enabledVfs s).findSome? fun lv =>
      (vfCtxIndex s lv.1 lv.2 (slotOf page)).map fun i => (lv.1, lv.2, i * 8 + q)
  else if blkOf page == 0x41 then
    ((enabledVfs s).find? fun lv =>
      fgeti s (pgHOSTL lv.1) F.HOSTL_VF_FOLD lv.2 == slotOf page).map fun lv => (lv.1, lv.2, 64)
  else none

/-- Deliver one interrupt of a page (R538). -/
def deliverIrq (s : State) (page q : Nat) : State :=
  if isGroup page then s
  else match vfVector s page q with
    | some (l, v, vec) => sendMsix (bumpRaw s pgIRQ 0 1) l v vec
    | none => routeIrq s page

/-- Make a change to a page and deliver one interrupt if its line rises (R537). -/
def withIrq (s : State) (page q : Nat) (f : State → State) : State :=
  let t := f s
  if !irqLine s page && irqLine t page then deliverIrq t page q else t

/-- Raise the page's interrupt or event (IRQSTS.EVENT, R521). -/
def raiseEvent (s : State) (page : Nat) : State :=
  withIrq s page 0 fun s => fput s page F.IRQSTS_EVENT 1

/-- Bit numbers of ERR (R521). -/
def errField (bit : Nat) : Field :=
  match bit with
  | 0 => F.ERR_LOCK_WR | 1 => F.ERR_CNT_OVF | 2 => F.ERR_LOGGED | _ => F.ERR_NARROW

/-- Set an ERR bit; an unmasked bit that goes from 0 to 1 sets IRQSTS.ERR (R521). -/
def setErr (s : State) (page bit : Nat) : State :=
  let was := fbit s page (errField bit)
  let s := fput s page (errField bit) 1
  if was || (fget s page F.ERRMASK_MASK).testBit bit then s
  else withIrq s page 0 fun s => fput s page F.IRQSTS_ERR 1

/-- Count an event: add `k` to counter `n` of a page (R532), report a wrap in CNT_OVF and ERR (R534). -/
def bumpBy (s : State) (page n k : Nat) : State :=
  let t := bumpRaw s page n k
  if fbit t page F.ERR_CNT_OVF && !fbit s page F.ERR_CNT_OVF then
    setErr (fput t page F.ERR_CNT_OVF 0) page 1
  else t

/-- Count one event. -/
def bump (s : State) (page n : Nat) : State := bumpBy s page n 1

/-- The key in `RstSt.late` of a request through a window, by its TID, and of a Drover engine's request. -/
def lateWindow (tid : Nat) : Nat := tid * 2
def lateEngine (t e : Nat) : Nat := (t * 16 + e) * 2 + 1

/-- A late response to a request that a fold reset ended is discarded and counted on the fault page (R468, R483). -/
def lateReset (s : State) (k : Nat) : State :=
  if (mget s.rst.late k).isSome then
    bump { s with rst := { s.rst with late := mdel s.rst.late k } } pgFLT 7
  else s

/-- The value of counter `n` of a page. -/
def counter (s : State) (page n : Nat) : Nat := (mgetD s.cnt (page * 16 + n) 0).toNat

/-- The block's error log recorded an entry (R522). -/
def setLogged (s : State) (page : Nat) : State := setErr s page 2

/-- A thermal trip has stopped every compute and server-core clock (R442). -/
def clocksStopped (s : State) : Bool := s.pwr.tripN

/-! ## Authority -/

/-- The right under which an access acts (R238): SYSTEM, one fold, or none (R294). -/
inductive Auth where
  | sys | fold (f : Nat) | none
  deriving DecidableEq, Repr

/-- The authority an access carries (R240, R294, R306). -/
def authOf (s : State) (src : Src) : Auth :=
  match src with
  | .pmc _ _ => .sys
  | .pf _ => .sys
  | .vf link v =>
    if fbiti s (pgHOSTL link) F.HOSTL_VF_ENABLE v then .fold (fgeti s (pgHOSTL link) F.HOSTL_VF_FOLD v)
    else .none
  | .core h n priv =>
    if priv == .monitor && fbiti s (pgHOSTD h) F.HOSTD_AUTH_SYS n then .sys
    else if fbiti s (pgHOSTD h) F.HOSTD_AUTH_FOLD_VALID n then
      .fold (fgeti s (pgHOSTD h) F.HOSTD_AUTH_FOLD n)
    else .none

/-- The crook's owner: 0 none, 1 PMC0, 2 PMC1 (R511, R515). -/
def crookOwner (s : State) : Nat := fget s pgHERD F.CROOK_STS_OWNER

/-- Set a bit of CROOK_REFUSED, count it and interrupt that controller (R512, R516). -/
def crookRefuse (s : State) (pmc : Nat) : State :=
  emit (forBits (bump s pgHERD 14) pgHERD F.CROOK_REFUSED_PMC (2 ^ pmc)) (.irqPmc pmc pgHERD)

/-- A guarded write: performed unless it comes from a controller that does not hold the crook, which is told
so (R512). -/
def guarded (s : State) (src : Src) (f : State → State) : State :=
  match src with
  | .pmc i _ => if crookOwner s == i + 1 then f s else crookRefuse s i
  | _ => f s

/-- The fold a context belongs to (R241). -/
def ctxFold (s : State) (c : Nat) : Option Nat :=
  if fbit s (pgCTX c) F.CTX_CFG_FOLD_VALID then some (fget s (pgCTX c) F.CTX_CFG_FOLD) else none

/-- A fold is enabled (R239). -/
def foldActive (s : State) (f : Nat) : Bool := fbit s (pgFOLD f) F.FOLD_STS_ACTIVE

/-- A C-die belongs to the fold (R238). -/
def foldHasDie (s : State) (f d : Nat) : Bool :=
  foldActive s f && (fget s (pgFOLD f) F.FOLD_DIES_DIES).testBit d

/-- The fold that owns a C-die. -/
def dieFold (s : State) (d : Nat) : Option Nat := (List.range 16).find? fun f => foldHasDie s f d

/-- The windows of a fold (FOLD_WIN). -/
def foldWindows (s : State) (f : Nat) : Nat :=
  fget s (pgFOLD f) F.FOLD_WIN_LO_WINDOWS + fget s (pgFOLD f) F.FOLD_WIN_HI_WINDOWS * 2 ^ 32

/-- The C-die of a page of a die's units, leaf, pen group or C-die group. -/
def pageDie (page : Nat) : Option Nat :=
  let b := blkOf page
  if perDie b == 0 then none
  else match groupOf page with
    | some (.pen d _) => some d
    | some (.die d) => some d
    | some _ => none
    | none => if slotOf page < leafCount b then some (slotOf page / perDie b) else none

/-- Fold `f` has authority over a whole page (R240): its dies' units, its contexts, its own fold page. -/
def foldHasPage (s : State) (f page : Nat) : Bool :=
  match pageDie page with
  | some d => foldHasDie s f d
  | none =>
    if blkOf page == 0x40 then slotOf page < 512 && ctxFold s (slotOf page) == some f
    else page == pgFOLD f

/-- Authority over a whole page. -/
def hasPage (s : State) (a : Auth) (page : Nat) : Bool :=
  match a with
  | .sys => true
  | .fold f => foldHasPage s f page
  | .none => false

/-- A write outside the writer's authority is discarded and counted on the fold page (R240); a writer with
no fold has no fold page to count on (R294). -/
def denyWrite (s : State) (a : Auth) : State :=
  match a with
  | .fold f => bump s (pgFOLD f) 10
  | _ => s

/-- Perform a register write under authority over its page, guarded by the crook (R240, R512). -/
def withPage (s : State) (src : Src) (page : Nat) (f : State → State) : State :=
  let a := authOf s src
  if hasPage s a page then guarded s src f else denyWrite s a

/-- Perform a write that only SYSTEM authority may make. -/
def withSys (s : State) (src : Src) (f : State → State) : State :=
  let a := authOf s src
  if a == .sys then guarded s src f else denyWrite s a

/-! ## The physical address map -/

/-- Where a physical address falls (R13, R14). -/
inductive Region where
  | tierF
  | tierN
  | spad (die off : Nat)
  | lock (tile off : Nat)
  | window (w off : Nat)
  | regs (page off : Nat)
  | hole
  deriving DecidableEq, Repr

def tierNBase : Nat := 0x100000000000
def spadBase : Nat := 0x200000000000
def lockBase : Nat := 0x210000000000
def winBase : Nat := 0x400000000000
def regBase : Nat := 0xF00000000000
/-- The store bytes of one C-die aperture: 124 MiB (R14, R160). -/
def spadBytes : Nat := 124 * 2 ^ 20

/-- Installed tier F in bytes, none until the tier is ready (R14, R299, R540, R568). -/
def tierFBytes (s : State) : Nat :=
  if fbit s pgPKG F.PKG_BOOT_TIERF_READY then fget s pgPKG F.PKG_TIERF_SIZE_GIB * 2 ^ 30 else 0

/-- Live tier N in bytes: 1 GiB per live pseudo-channel, once the tier is ready (R13, R14, R189). -/
def tierNBytes (s : State) : Nat :=
  if fbit s pgMEMMAP F.MEMMAP_STS_READY then fget s pgMEMMAP F.MEMMAP_STS_LIVE * 2 ^ 30 else 0

/-- The region of a physical address (R13, R14). -/
def regionOf (s : State) (pa : Nat) : Region :=
  if pa < tierFBytes s then .tierF
  else if tierNBase ≤ pa && pa < tierNBase + tierNBytes s then .tierN
  else if spadBase ≤ pa && pa < spadBase + 0x80000000 then
    let o := (pa - spadBase) % 0x8000000
    if o < spadBytes then .spad ((pa - spadBase) / 0x8000000) o else .hole
  else if lockBase ≤ pa && pa < lockBase + 0x40000000 then
    .lock ((pa - lockBase) / 0x10000000) ((pa - lockBase) % 0x10000000)
  else if winBase ≤ pa && pa < winBase + 64 * 0x10000000000 then
    .window ((pa - winBase) / 0x10000000000) ((pa - winBase) % 0x10000000000)
  else if regBase ≤ pa && pa < regBase + 0x100000000 then
    .regs ((pa - regBase) / 4096) ((pa - regBase) % 4096)
  else .hole

/-! ## Memory -/

/-- An address lies in a range whose contents the manual leaves undefined; the answer is the range's tag. -/
def undefTag (us : List (Nat × Nat × Nat)) (pa : Nat) : Option Nat :=
  (us.find? fun u => u.1 ≤ pa && pa < u.2.1).map fun u => u.2.2

/-- What an unlisted byte reads as: zero (stores, tier N and tier F are all zeroed before use: R178, R202,
R318), or a free value where the manual leaves the contents undefined. -/
def blankByte (s : State) (pa : Nat) : Byte :=
  match undefTag s.undefs pa with
  | some g => Config.freeByte g pa
  | none => 0

/-- Read one byte of physical memory. -/
def readByte (s : State) (pa : Nat) : Byte := (mget s.mem pa).getD (blankByte s pa)

/-- Write one byte, keeping the list canonical: an address outside the undefined ranges lists no zero. -/
def writeCell (us : List (Nat × Nat × Nat)) (m : FMap Byte) (pa : Nat) (b : Byte) : FMap Byte :=
  if b == 0 && (undefTag us pa).isNone then mdel m pa else mput m pa b

/-- Write one byte of physical memory. -/
def writeByte (s : State) (pa : Nat) (b : Byte) : State :=
  { s with mem := writeCell s.undefs s.mem pa b }

/-- Read `n` bytes from `pa` up. -/
def readBytes (s : State) (pa n : Nat) : List Byte := (List.range n).map fun i => readByte s (pa + i)

/-- Write bytes from `pa` up. -/
def writeBytes (s : State) (pa : Nat) : List Byte → State
  | [] => s
  | b :: t => writeBytes (writeByte s pa b) (pa + 1) t

/-- Make a range's contents undefined: its bytes are forgotten and read as free values of a new tag. -/
def makeUndef (s : State) (lo hi : Nat) : State :=
  { s with mem := mkeep s.mem (fun a => a < lo || hi ≤ a)
           undefs := (lo, hi, s.free) :: s.undefs
           free := s.free + 1 }

/-- Zero a range of memory and clear its poison. -/
def zeroRange (s : State) (lo hi : Nat) : State :=
  { s with mem := (mkeep s.mem (fun a => a < lo || hi ≤ a))
           undefs := s.undefs.flatMap fun u =>
             (if u.1 < min u.2.1 lo then [(u.1, min u.2.1 lo, u.2.2)] else []) ++
             (if max u.1 hi < u.2.1 then [(max u.1 hi, u.2.1, u.2.2)] else [])
           poison := mkeep s.poison (fun g => g * 8 < lo || hi ≤ g * 8) }

/-- An address of the scratchpad apertures. -/
def isSpadPa (pa : Nat) : Bool := spadBase ≤ pa && pa < spadBase + 0x80000000

/-- The granule under which poison of an address is kept: 8 B in a scratchpad store (R174), the 256 B line
elsewhere (R197, R297). -/
def poisonKey (pa : Nat) : Nat := if isSpadPa pa then pa / 8 else pa / 256 * 32

/-- The byte at `pa` is poisoned. -/
def poisonAt (s : State) (pa : Nat) : Bool := (mget s.poison (poisonKey pa)).isSome

/-- Some byte of the range is poisoned. -/
def poisonIn (s : State) (pa n : Nat) : Bool := (List.range n).any fun i => poisonAt s (pa + i)

/-- Mark or clear the poison of the granule of an address. -/
def setPoison (s : State) (pa : Nat) (p : Bool) : State :=
  { s with poison := if p then mput s.poison (poisonKey pa) () else mdel s.poison (poisonKey pa) }

/-- Mark every granule of a range. -/
def poisonRange (s : State) (pa : Nat) : Nat → State
  | 0 => s
  | n + 1 => poisonRange (setPoison s (pa + n) true) pa n

/-- Every granule of [pa, pa+n) that the range covers whole loses its poison: 8 B granules in a store
(R174), whole lines elsewhere (R197). -/
def unpoisonWhole (s : State) (pa n : Nat) : State :=
  let g := if isSpadPa pa then 8 else 256
  let first := roundUp pa g
  let k := (pa + n - first) / g
  if pa + n < first then s
  else (List.range k).foldl (fun s i => setPoison s (first + i * g) false) s

/-- Store bytes with their poison bit (R33, R174, R197): poisoned data marks every granule it touches, and
unpoisoned data clears the granules it covers whole. -/
def storeBytes (s : State) (pa : Nat) (bs : List Byte) (p : Bool) : State :=
  let s := writeBytes s pa bs
  if p then poisonRange s pa bs.length else unpoisonWhole s pa bs.length

/-! ## The fault log and Herd time -/

/-- The package's Herd time: ticks since the epoch of the ring (R494), as HERD_TIME holds it. -/
def herdTime (s : State) : Nat := fpair s pgHERD F.HERD_TIME_LO_TIME_LO F.HERD_TIME_HI_TIME_HI 0

/-- Add an entry with a given time to the always-on fault log (R480): the oldest is overwritten when 64 are
unread. -/
def logFaultAt (s : State) (typ cause unit detail time : Nat) : State :=
  let tail := fget s pgFLT F.FLT_LOGPTR_TAIL
  let head := fget s pgFLT F.FLT_LOGPTR_HEAD
  let e := typ % 256 + cause % 256 * 2 ^ 8 + unit % 2 ^ 16 * 2 ^ 16 + detail % 2 ^ 32 * 2 ^ 32
    + time % 2 ^ 64 * 2 ^ 64
  let full := (tail + 2 ^ 16 - head) % 2 ^ 16 ≥ 64
  let s := { s with fltLog := mput s.fltLog (tail % 64) (BitVec.ofNat 128 e) }
  let s := bump (fput s pgFLT F.FLT_LOGPTR_TAIL (tail + 1)) pgFLT 10
  if full then
    bump (fput (fput s pgFLT F.FLT_LOGPTR_HEAD (head + 1)) pgFLT F.FLT_STS_LOG_OVF 1) pgFLT 11
  else s

/-- Add an entry at the present Herd time. -/
def logFault (s : State) (typ cause unit detail : Nat) : State := logFaultAt s typ cause unit detail (herdTime s)

/-- Draw a fresh index of free values. -/
def drawFree (s : State) : Nat × State := (s.free, { s with free := s.free + 1 })

/-- Answer a read on the requester's port. -/
def reply (s : State) (bs : List Byte) : State := { s with resp := { data := bs } }

end Sys2Proof.Machine
end

