-- ==== Sys2Proof/Machine/MemMap.lean ====
section
/-! DEFINITION. The map of tier N: regions, tables, keys and zones (R186 to R190), and what a bad
pseudo-channel does to an access (R199, R200). -/

namespace Sys2Proof.Machine

open Sys2Proof

/-- A word is the exclusive or of some of the words given, or zero: their span over GF(2). -/
def inSpan : List Nat → Nat → Bool
  | [], x => x == 0
  | w :: t, x => inSpan t x || inSpan t (x ^^^ w)

/-- The words that may follow in a key set (R188): with the nine words before, or with all when they are fewer, each is
linearly independent. A set that fails is redrawn, so these are the words that a draw can leave. -/
def keyChoices (before : List Nat) : List Nat := (List.range 1024).filter fun x => !inSpan (before.take 9) x

/-- The first words of key set `k` in draw `d`, the latest first (R188). -/
def drawnKeys (d k : Nat) : Nat → List Nat
  | 0 => []
  | n + 1 =>
    let ws := drawnKeys d k n
    let cs := keyChoices ws
    (cs[(Config.freeKey d (k * 22 + n)).toNat % cs.length]?).getD 0 :: ws

/-- Word `i` of key set `k` (R188): as drawn at package reset, or as firmware wrote it before LOCK. Nothing else changes a
key, and none changes while the part runs (R196): `keyWrite` refuses a write after LOCK, and a draw is made only where
`aonOnly` leaves the always-on domain alone. -/
def keyWord (s : State) (k i : Nat) : Nat :=
  match mget s.memc.keys (k * 22 + i) with
  | some w => w
  | none => ((drawnKeys s.memc.keyDraw k (i + 1)).head?).getD 0

/-- h(k, q) of R187. -/
def keyHash (s : State) (k q : Nat) : Nat :=
  (List.range 22).foldl (fun m i => if q.testBit i then m ^^^ keyWord s k i else m) 0

/-- The salt of zone z (R190). -/
def zoneSalt (s : State) (z : Nat) : Nat :=
  fgeti s pgMEMMAP F.MEMMAP_ZSALT_SALT (z / 8) / 2 ^ (3 * (z % 8)) % 8

/-- Live channels of a tile, in table order (R189). -/
def tileLive (s : State) (t : Nat) : List Nat := s.memc.live.filter fun c => c / 192 == t

/-- Lines that the global part of one channel holds. -/
def globalRows (s : State) : Nat := (64 - s.memc.split) * 65536
def localRows (s : State) : Nat := s.memc.split * 65536

/-- Lines of the global region. -/
def globalLines (s : State) : Nat := s.memc.live.length * globalRows s

/-- First line of tile t's local region (R186). -/
def localBase (s : State) (t : Nat) : Nat :=
  globalLines s + ((List.range t).map fun u => (tileLive s u).length * localRows s).foldl (· + ·) 0

/-- Where a tier N address lies (R187): channel, line within the channel, and zone. -/
def chanOf (s : State) (pa : Nat) : Option (Nat × Nat × Nat) :=
  let l := (pa - tierNBase) / 256
  let p := s.memc.live.length
  if p = 0 then none
  else if l < globalLines s then
    let q := l / p
    let z := q / 65536
    (s.memc.live[(l % p + keyHash s (zoneSalt s z) q) % p]?).map fun c => (c, q, z)
  else
    (List.range 4).findSome? fun t =>
      let tl := tileLive s t
      let b := localBase s t
      let n := tl.length
      if n ≠ 0 ∧ b ≤ l ∧ l < b + n * localRows s then
        let q := (l - b) / n
        let z := 63 - q / 65536
        (tl[((l - b) % n + keyHash s (zoneSalt s z) q) % n]?).map fun c => (c, globalRows s + q, z)
      else none

/-- The address of a line of a channel: the inverse of R187. -/
def paOfChan (s : State) (ch line : Nat) : Option Nat :=
  let back (tbl : List Nat) (b q z : Nat) : Option Nat :=
    match tbl.findIdx? (· == ch) with
    | none => none
    | some e =>
      let n := tbl.length
      let h := keyHash s (zoneSalt s z) q % n
      some (tierNBase + (b + q * n + (e + n - h) % n) * 256)
  if line < globalRows s then back s.memc.live 0 line (line / 65536)
  else
    let q := line - globalRows s
    back (tileLive s (ch / 192)) (localBase s (ch / 192)) q (63 - q / 65536)

/-- A pseudo-channel marked bad (R199). -/
def chanBad (s : State) (ch : Nat) : Bool :=
  let pg := pgMEMC (ch / 64)
  let p := ch % 64
  if p < 32 then (fget s pg F.MEMC_BAD_LO_BAD).testBit p else (fget s pg F.MEMC_BAD_HI_BAD).testBit (p - 32)

/-- A tier N address whose channel is bad: its reads return poison and its writes are discarded (R200). -/
def paBad (s : State) (pa : Nat) : Bool :=
  match chanOf s pa with
  | some c => chanBad s c.1
  | none => false

/-- A channel that the build leaves out (R202). -/
def chanOut (s : State) (ch : Nat) : Bool := (fgeti s pgMEMMAP F.MEMMAP_CHOUT_OUT (ch / 32)).testBit (ch % 32)

/-- The live channels in gtable order: pseudo-channel ascending, and within it stack ascending (R189). -/
def liveList (s : State) : List Nat :=
  ((List.range 64).flatMap fun p => (List.range 12).map fun st => st * 64 + p).filter fun c => !chanOut s c

/-- Entry e of table n: 0 gtable, 1 to 4 the local tables (R189, R206). -/
def tableEntry (s : State) (n e : Nat) : Nat :=
  if n = 0 then (s.memc.live[e]?).getD 0x3FF
  else if n ≤ 4 then ((tileLive s (n - 1))[e]?).getD 0x3FF
  else 0x3FF

/-- The address ranges of zone z (R190): its part of the global region, or of every tile's local region. -/
def zoneRanges (s : State) (z : Nat) : List (Nat × Nat) :=
  let p := s.memc.live.length
  (if z < 64 - s.memc.split then [(tierNBase + z * 65536 * p * 256, tierNBase + (z + 1) * 65536 * p * 256)] else [])
    ++ (if 63 - z < s.memc.split then
      (List.range 4).map fun t =>
        let n := (tileLive s t).length
        let b := localBase s t
        let j := 63 - z
        (tierNBase + (b + j * 65536 * n) * 256, tierNBase + (b + (j + 1) * 65536 * n) * 256)
    else [])

/-- Part of a poisoned line of tiers N and F is to be written: some line that the range covers in part is
poisoned (R197). -/
def partPoisoned (s : State) (pa n : Nat) : Bool :=
  (pa % 256 != 0 && poisonAt s pa) || ((pa + n) % 256 != 0 && poisonAt s (pa + n - 1))

end Sys2Proof.Machine
end

