-- ==== Sys2Proof/Machine/Port.lean ====
section
/-! DEFINITION. Accesses at the port of a scratchpad store (chapter 5), which every requester's row uses: where the
stores lie (R162), the classes of the requesters (R166), reads and writes line by line (R164) in their views (R171),
with error correction and poison (R173 to R175), the keep region (R179) and the counters (R182). -/

namespace Sys2Proof.Machine

open Sys2Proof

/-- Aperture offset and size of store `st` of a die: array stores, pen stores, the die store (R162). -/
def storeOff (st : Nat) : Nat :=
  if st < 72 then st * 0x100000 else if st < 81 then 0x4800000 + (st - 72) * 0x400000 else 0x6C00000
def storeSize (st : Nat) : Nat := if st < 72 then 0x100000 else if st < 81 then 0x400000 else 0x1000000

/-- The store that holds an aperture offset (R162). -/
def storeAt (off : Nat) : Nat :=
  if off < 0x4800000 then off / 0x100000
  else if off < 0x6C00000 then 72 + (off - 0x4800000) / 0x400000 else 81

/-- The physical address of an aperture offset of a die. -/
def aperPa (d off : Nat) : Nat := spadBase + d * 0x8000000 + off

def spadKey (d st : Nat) : Nat := d * 82 + st
def getSpad (s : State) (d st : Nat) : SpadSt := mgetD s.spads (spadKey d st) {}
def putSpad (s : State) (d st : Nat) (x : SpadSt) : State :=
  { s with spads := mput s.spads (spadKey d st) x }

/-- The class of a requester (R166). -/
def spadClass (w : SpadWho) : Nat :=
  match w with
  | .feed => 1 | .hatchRead => 1
  | .drain _ => 2 | .hatchWrite => 2
  | .drover _ => 3 | .penRun => 3 | .hub _ => 3
  | .prep _ => 4 | .list => 4
  | .debug => 5 | .capture => 5 | .scrub => 5 | .mark => 5

/-- A requester's number at its store, under which its lost cycles and its turn are held. -/
def spadNum (w : SpadWho) : Nat :=
  match w with
  | .feed => 0 | .hatchRead => 1
  | .drain a => 16 + a | .hatchWrite => 15
  | .drover e => 32 + e | .penRun => 31 | .hub n => 64 + n
  | .prep k => 4 + k | .list => 8
  | .debug => 9 | .capture => 10 | .scrub => 11 | .mark => 12

/-- An offset of the keep region of a die store (R162, R179). -/
def inKeep (off len : Nat) : Bool := off < 0x7C00000 && 0x7BC0000 < off + len

/-- The pieces of [pa, pa+n) within 256 B lines, ascending, as (address, length) (R164). -/
def linePieces (pa n : Nat) : List (Nat × Nat) :=
  if n = 0 then []
  else (List.range ((pa + n - 1) / 256 + 1 - pa / 256)).map fun i =>
    let lo := max pa ((pa / 256 + i) * 256)
    let hi := min (pa + n) ((pa / 256 + i + 1) * 256)
    (lo, hi - lo)

/-- An access of an aperture range waits: the die's stores are being cleared (R178), a locked access of another holds the
port (R170), or the keep region it touches is being wiped (R180). -/
def storeBusy (s : State) (d off n : Nat) : Bool :=
  fbit s (pgSPAD d) F.SPAD_STS_INIT_BUSY || (getSpad s d (storeAt off)).locked.isSome ||
    (inKeep off n && fbit s (pgSPAD d) F.SPAD_STS_KEEP_WIPING)

/-! ## Errors and poison -/

/-- Record an entry in SPAD_ERRLOG under its VALID rule (R173, R181); `off` is the granule's aperture offset. -/
def spadLog (s : State) (d st cls off : Nat) (ue poisonRead : Bool) : State :=
  let pg := pgSPAD d
  if fbit s pg F.SPAD_ERRLOG_VALID then s
  else
    let s := fputb (fput s pg F.SPAD_ERRLOG_VALID 1) pg F.SPAD_ERRLOG_UE ue
    let s := fputb s pg F.SPAD_ERRLOG_POISON_READ poisonRead
    let s := fput (fput s pg F.SPAD_ERRLOG_STORE st) pg F.SPAD_ERRLOG_CLASS cls
    setLogged (fput s pg F.SPAD_ERRADDR_GRANULE (off / 8)) pg

/-- The flawed granules that a range of an aperture touches, ascending; a granule is numbered by aperture offset / 8. -/
def flawsIn (x : SpadSt) (off n : Nat) : List (Nat × Flaw) :=
  x.flaws.filter fun p => p.1 * 8 < off + n && off < p.1 * 8 + 8

/-- The poisoned granules of a store that a physical range touches, ascending, by address / 8. -/
def poisonedIn (s : State) (pa n : Nat) : List Nat :=
  (s.poison.filter fun p => p.1 * 8 < pa + n && pa < p.1 * 8 + 8).map (·.1)

/-- Bits of a granule flip: the code will find them at the next access. Flips that the code cannot correct leave the
granule's bytes undefined (R173). -/
def addFlaw (s : State) (d st gran : Nat) (e : Ecc) : State :=
  let put (s : State) (f : Flaw) : State :=
    let x := getSpad s d st
    putSpad s d st { x with flaws := mput x.flaws gran f }
  let old := mget (getSpad s d st).flaws gran
  match e with
  | .clean => s
  | .corrected => if old.isSome then s else put s .single
  | .uncorrectable =>
    if old == some .double || old == some .met then s
    else put (makeUndef s (aperPa d (gran * 8)) (aperPa d (gran * 8 + 8))) .double

/-- A read meets the errors of its granules (R173): single-bit ones are corrected, uncorrectable ones wait for their
poison-marking write (R174); each is counted and logged. -/
def meetFlaw (cls d st : Nat) (s : State) (p : Nat × Flaw) : State :=
  let pg := pgSPAD d
  match p.2 with
  | .single => spadLog (bump s pg 0) d st cls (p.1 * 8) false false
  | _ =>
    let x := getSpad s d st
    spadLog (bump (putSpad s d st { x with flaws := mput x.flaws p.1 .met }) pg 1) d st cls (p.1 * 8) true false

/-- The granule cannot be read: it is poisoned, or its error is uncorrectable (R174). -/
def granBad (s : State) (d st gran : Nat) : Bool :=
  poisonAt s (aperPa d (gran * 8)) ||
    (match mget (getSpad s d st).flaws gran with | some .single => false | some _ => true | none => false)

/-! ## Reads -/

/-- What a read at a port gave: the bytes, whether they are poisoned, and whether the keep region refused it. -/
structure PortRd where
  data : List Byte := []
  poison : Bool := false
  refused : Bool := false
  deriving DecidableEq, Repr

/-- The requester may use a keep-region byte: a management controller in its secure mode, not by a debug port (R179). -/
def keepAllows (cls : Nat) (secure : Bool) : Bool := secure && cls != 5

/-- One read access within a line of a store (R173, R175, R179, R182); debug reads of poison are logged. -/
def lineRead (s : State) (d cls : Nat) (secure : Bool) (off n : Nat) : State × PortRd :=
  let st := storeAt off
  let pg := pgSPAD d
  let s := bump s pg 3
  if inKeep off n && !keepAllows cls secure then
    (bump s pg 12, { data := List.replicate n 0, refused := true })
  else
    let fs := flawsIn (getSpad s d st) off n
    let bad := poisonedIn s (aperPa d off) n
    let s := fs.foldl (meetFlaw cls d st) s
    let s := if bad.isEmpty then s else bumpBy s pg 2 bad.length
    let s := match bad.head? with
      | some g => if cls == 5 then spadLog s d st 5 (g * 8 - aperPa d 0) false true else s
      | none => s
    (s, { data := readBytes s (aperPa d off) n, poison := !bad.isEmpty || fs.any fun p => p.2 != .single })

/-- A read of an aperture range, one access per line in ascending order (R164). -/
def portRead (s : State) (d cls : Nat) (secure : Bool) (off n : Nat) : State × PortRd :=
  (linePieces off n).foldl (fun (acc : State × PortRd) l =>
    let r := lineRead acc.1 d cls secure l.1 l.2
    (r.1, { data := acc.2.data ++ r.2.data
            poison := acc.2.poison || r.2.poison
            refused := acc.2.refused || r.2.refused })) (s, {})

/-- A read of a physical range of the apertures by a requester class. -/
def paRead (s : State) (cls pa n : Nat) : State × PortRd :=
  portRead s ((pa - spadBase) / 0x8000000) cls false ((pa - spadBase) % 0x8000000) n

/-! ## Writes -/

/-- The byte that a view's write leaves (R171): plain, set (M OR D), clear (M AND NOT D). -/
def viewByte (view : Nat) (m d : Byte) : Byte :=
  if view = 0 then d else if view = 1 then m ||| d else m &&& ~~~ d

/-- A locked write access: in a view, or plain over part of a granule (R170). -/
def lockedWrite (view off n : Nat) : Bool := view != 0 || off % 8 != 0 || (off + n) % 8 != 0

/-- What a write at a port met: whether a poisoned granule kept its bytes, and whether the keep region refused it. -/
structure PortWr where
  met : Bool := false
  refused : Bool := false
  deriving DecidableEq, Repr

/-- Write the bytes that fall into one granule (R171, R174): the whole granule plainly, which clears poison and errors
unless the data is poisoned; else after a read of it, which leaves a poisoned or unreadable granule as it is. -/
def granWrite (d cls view : Nat) (p : Bool) (acc : State × Bool) (gran off : Nat) (bs : List Byte) : State × Bool :=
  let s := acc.1
  let st := storeAt (gran * 8)
  let pa := aperPa d off
  let unflaw (s : State) : State :=
    let x := getSpad s d st
    putSpad s d st { x with flaws := mdel x.flaws gran }
  if view = 0 ∧ off = gran * 8 ∧ bs.length = 8 then (setPoison (unflaw (writeBytes s pa bs)) pa p, acc.2)
  else
    let s := (flawsIn (getSpad s d st) off bs.length).foldl (meetFlaw cls d st) s
    if granBad s d st gran then (s, true)
    else
      let old := readBytes s pa bs.length
      let s := unflaw (writeBytes s pa ((old.zip bs).map fun e => viewByte view e.1 e.2))
      (if p then setPoison s pa true else s, acc.2)

/-- One write access within a line of a store (R170, R171, R174, R179, R182). -/
def lineStore (s : State) (d cls : Nat) (secure : Bool) (view off : Nat) (bs : List Byte) (p : Bool) : State × PortWr :=
  let n := bs.length
  let pg := pgSPAD d
  let s := bumpBy s pg 3 (if lockedWrite view off n then 2 else 1)
  if inKeep off n && !keepAllows cls secure then (bump s pg 12, { refused := true })
  else
    let s := if view = 0 then s else bump s pg 10
    let r := (List.range ((off + n + 7) / 8 - off / 8)).foldl (fun acc i =>
      let g := off / 8 + i
      let lo := max off (g * 8)
      let hi := min (off + n) (g * 8 + 8)
      granWrite d cls view p acc g lo (slice bs (lo - off) (hi - lo))) (s, false)
    (r.1, { met := r.2 })

/-- A write of an aperture range, one access per line in ascending order (R164). -/
def portWrite (s : State) (d cls : Nat) (secure : Bool) (view off : Nat) (bs : List Byte) (p : Bool) : State × PortWr :=
  (linePieces off bs.length).foldl (fun (acc : State × PortWr) l =>
    let r := lineStore acc.1 d cls secure view l.1 (slice bs (l.1 - off) l.2) p
    (r.1, { met := acc.2.met || r.2.met, refused := acc.2.refused || r.2.refused })) (s, {})

/-- A write of a physical range of the apertures by a requester class. -/
def paWrite (s : State) (cls view pa : Nat) (bs : List Byte) (p : Bool) : State × PortWr :=
  portWrite s ((pa - spadBase) / 0x8000000) cls false view ((pa - spadBase) % 0x8000000) bs p

end Sys2Proof.Machine
end

