-- ==== Sys2Proof/Machine/Lines.lean ====
section
/-! DEFINITION. Coherent lines (chapter 9): their homes and agents (R265 to R268), the copies and the current value of a
line, the home store (R267), the directory (R271, R272), the codes of the caches (R285), and the accesses that engines,
server cores and other requesters make of a line, each a transaction that runs at once (R268, R275 to R281, R302). -/

namespace Sys2Proof.Machine

open Sys2Proof

/-! ## Lines, homes and agents (R265 to R267) -/

def twoMiB : Nat := 2 ^ 21

def lineOf (pa : Nat) : Nat := pa / 256

def copyKey (line agent : Nat) : Nat := line * 8 + agent

/-- The bytes backed by the locked ways of a tile's lock region (R290). -/
def lockBacked (s : State) (t : Nat) : Nat :=
  min (fget s (pgCOH t) F.COH_CFG_LOCK_WAYS) 16 * 2 ^ 24

/-- The host die and channel place of a tier F address (R299). -/
def tierFHost (pa : Nat) : Nat := pa / 4096 % 2

/-- A tier F line whose host die is in reset or whose channels refresh themselves (R316). -/
def tierFDown (s : State) (pa : Nat) : Bool :=
  fbit s (pgHOSTD (tierFHost pa)) F.HOSTD_STS_IN_RESET ||
    fbit s (pgHOSTD (tierFHost pa)) F.HOSTD_STS_SR_ACTIVE

/-- A line of a coherent range. -/
def coherentLine (s : State) (line : Nat) : Bool :=
  match regionOf s (line * 256) with
  | .tierN => true
  | .tierF => true
  | .lock t o => o < lockBacked s t
  | _ => false

/-- The home tile of a line. -/
def homeOf (s : State) (line : Nat) : Nat :=
  match regionOf s (line * 256) with
  | .tierN => match chanOf s (line * 256) with | some c => c.1 / 192 | none => 0
  | .tierF => 2 * tierFHost (line * 256) + line % 2
  | .lock t _ => t
  | _ => 0

/-- The tile whose hub port an agent's packets from tile `t` pass through (R27, R35). -/
def agentTile (agent t : Nat) : Nat :=
  if agent < 4 then agent else (agent - 4) * 2 + t % 2

/-- An agent has been declared dead (R286). -/
def agentDead (s : State) (agent : Nat) : Bool := (fget s (pgCOH 0) F.COH_STS_DEAD).testBit agent

/-- A tier F line that its home answers with an error (R316). -/
def lineDown (s : State) (line : Nat) : Bool :=
  match regionOf s (line * 256) with
  | .tierF => tierFDown s (line * 256)
  | _ => false

/-- The bias map marks the granule of an address device-owned (R300). -/
def deviceOwned (s : State) (pa : Nat) : Bool :=
  let k := if pa < tierNBase then pa / twoMiB else 2 ^ 20 + (pa - tierNBase) / twoMiB
  (regionOf s pa == .tierN || regionOf s pa == .tierF) && (mget s.host.bias k).isSome

/-- The agent may hold the line (R266, R301). -/
def mayHold (s : State) (agent line : Nat) : Bool :=
  agent < 6 && coherentLine s line && homeOf s line != agent && !(4 ≤ agent && deviceOwned s (line * 256))

/-! ## Copies and the current value of a line -/

def putCoh (s : State) (f : CohSt → CohSt) : State := { s with coh := f s.coh }

def getCopy (s : State) (line agent : Nat) : Option Copy := mget s.coh.copies (copyKey line agent)

def putCopy (s : State) (line agent : Nat) (c : Option Copy) : State :=
  putCoh s fun h => { h with copies :=
    match c with
    | some c => mput h.copies (copyKey line agent) c
    | none => mdel h.copies (copyKey line agent) }

/-- Set the newest data of a line that is on its way. -/
def setFly (s : State) (line : Nat) (d : Option (List Byte × Bool)) : State :=
  putCoh s fun h => { h with fly :=
    match d with
    | some d => mput h.fly line d
    | none => mdel h.fly line }

/-- The data of a line that is newer than its home's, if there is any, with its poison: an agent's M copy, or
what is on its way from one (R270). -/
def newest (s : State) (line : Nat) : Option (List Byte × Bool) :=
  match (List.range 6).findSome? fun a =>
    match mget s.coh.copies (copyKey line a) with
    | some c => if c.st == .modified then some (c.data, c.poison) else none
    | none => none with
  | some d => some d
  | none => mget s.coh.fly line

/-- The current value of a byte: the newer data, else the home's. -/
def curByte (s : State) (pa : Nat) : Byte :=
  match newest s (lineOf pa) with
  | some c => lget c.1 (pa % 256) 0
  | none => readByte s pa

/-- Some granule of the range is poisoned in its current value. -/
def curPoison (s : State) (pa n : Nat) : Bool :=
  (List.range n).any fun i =>
    match newest s (lineOf (pa + i)) with
    | some c => c.2
    | none => poisonAt s (pa + i)

/-- A transaction runs on the line or waits for it at its home, or newer data is on its way (R275, R279). -/
def lineBusy (s : State) (line : Nat) : Bool :=
  (mget s.coh.txns line).isSome || (mget s.coh.fly line).isSome || s.coh.queue.any fun e => e.1 == line

/-! ## The home store (R267, R276) -/

/-- Count an access of the home store: the first to a line misses (R292). -/
def homeTouch (s : State) (line : Nat) : State :=
  let pg := pgCOH (homeOf s line)
  match mget s.coh.touched line with
  | none => putCoh (bump s pg 9) fun c => { c with touched := mput c.touched line () }
  | some _ =>
    let d := drawFree s
    bump d.2 pg (if Config.homeHit d.1 then 8 else 9)

/-- A line as the home holds it, with its poison (R200). -/
def homeLine (s : State) (line : Nat) : List Byte × Bool :=
  (readBytes s (line * 256) 256, poisonAt s (line * 256) || paBad s (line * 256))

/-- Write a whole line at its home; writes to a bad channel are discarded (R200). -/
def homeWrite (s : State) (line : Nat) (data : List Byte) (poison : Bool) : State :=
  let s := homeTouch s line
  if paBad s (line * 256) then s else storeBytes s (line * 256) data poison

/-- The bytes of a line with the enabled ones replaced. -/
def mergeBytes (old : List Byte) (mask : List Bool) (data : List Byte) : List Byte :=
  (List.range 256).map fun i => if lget mask i false then lget data i 0 else lget old i 0

/-! ## The directory (R271, R272) -/

def dirGet (s : State) (line : Nat) : Option (Nat × Bool) := mget s.coh.dir line

/-- Set a line's entry, or remove it when no agent is recorded. -/
def dirPut (s : State) (line vec : Nat) (sole : Bool) : State :=
  putCoh s fun c => { c with
    dir := if vec = 0 then mdel c.dir line else mput c.dir line (vec, sole)
    used := if vec = 0 then mdel c.used line else mput c.used line c.clock
    clock := c.clock + 1 }

/-- The set of a line among the 131,072 sets of 16 ways of its home's directory (R272). -/
def dirSetOf (line : Nat) : Nat := Config.dirSet line % 131072

/-- The entries of one tile's directory that share a line's set. -/
def dirMates (s : State) (line : Nat) : List Nat :=
  let home := homeOf s line
  let mine := s.coh.dir.filter fun e => homeOf s e.1 == home
  if mine.length < 16 then []
  else (mine.filter fun e => dirSetOf e.1 == dirSetOf line).map (·.1)

/-- The least recently used of the lines that are not busy. -/
def dirVictim (s : State) (ls : List Nat) : Option Nat :=
  let free := ls.filter fun l => (mget s.coh.txns l).isNone
  free.foldl (fun (b : Option Nat) l =>
    match b with
    | none => some l
    | some m => if mgetD s.coh.used l 0 < mgetD s.coh.used m 0 then some l else b) none

/-- The owner's bit of a line held exclusively. -/
def ownerOf (s : State) (line : Nat) : Nat :=
  match dirGet s line with
  | some (v, _) => (setBitsOf 6 v).headD 0
  | none => 0

/-- The agent is the line's recorded owner. -/
def isOwner (s : State) (agent line : Nat) : Bool :=
  match dirGet s line with
  | some (v, sole) => sole && v.testBit agent
  | none => false

/-! ## Errors of the tile caches (R285), and what a dead agent held (R288) -/

/-- Record an error in COH_ERRLOG unless an entry is held there (R291). -/
def cohError (s : State) (pg cause agent line : Nat) : State :=
  if fbit s pg F.COH_ERRLOG_VALID then s
  else
    let s := fput (fput (fput s pg F.COH_ERRLOG_VALID 1) pg F.COH_ERRLOG_CAUSE cause) pg F.COH_ERRLOG_AGENT agent
    let s := fput s pg F.COH_ERRADDR_LO_LINE_LO (bits line 23 0)
    setLogged (fput s pg F.COH_ERRADDR_HI_LINE_HI (bits line 39 24)) pg

/-- Log and count a line poisoned because a dead agent owned it (R288). -/
def poisonLine (s : State) (line agent : Nat) : State :=
  let pg := pgCOH (homeOf s line)
  cohError (bump (setPoison s (line * 256) true) pg 10) pg 1 agent line

/-- What the codes of the home's tile find at a request (R285): a corrected error is counted, and the home store's
uncorrectable line is poisoned (an unreadable directory entry: `unreadable`); memory whose data cannot be corrected writes
the poison pattern back (R197, R297). -/
def homeEcc (s : State) (line : Nat) (e : HomeEcc) : State :=
  let pg := pgCOH (homeOf s line)
  match e with
  | .clean => s
  | .corrected => bump s pg 11
  | .data => cohError (bump (setPoison s (line * 256) true) pg 12) pg 2 0 line
  | .directory => s
  | .memory => setPoison s (line * 256) true

/-- A directory entry is unreadable (R285): every agent may hold the line. -/
def unreadable (s : State) (line : Nat) : State :=
  let pg := pgCOH (homeOf s line)
  dirPut (cohError (bump (bump s pg 12) pg 15) pg 4 0 line) line 0x3F false

/-- What the codes of a tile's visitor part find as it reads a copy for a snoop (R285): a corrected error is counted; an
uncorrectable one drops a clean copy and poisons a Modified one. A host die's caches are its own. -/
def visitorEcc (s : State) (agent line : Nat) (e : Ecc) : State :=
  match getCopy s line agent, e with
  | none, _ => s
  | _, .clean => s
  | some _, .corrected => if agent < 4 then bump s (pgCOH agent) 11 else s
  | some c, .uncorrectable =>
    if 4 ≤ agent then s
    else
      let s := cohError (bump s (pgCOH agent) 12) (pgCOH agent) 3 agent line
      match c.st with
      | .shared => putCopy s line agent none
      | .exclusive => putCopy s line agent none
      | .modified => putCopy s line agent (some { c with poison := true })
      | .wbPend => s

/-- What a dead agent may have held of a line is resolved (R288): a sharer is removed; a recorded owner's line
is poisoned and its entry goes to I. -/
def resolveDead (s : State) (line agent : Nat) : State :=
  let s := putCoh s fun c => { c with copies := mdel c.copies (copyKey line agent) }
  match dirGet s line with
  | none => s
  | some (v, sole) =>
    if !v.testBit agent then s
    else if sole then
      dirPut (poisonLine (putCoh s fun c => { c with fly := mdel c.fly line }) line agent) line 0 false
    else dirPut s line (v - 2 ^ agent) false

/-! ## Recalls -/

/-- A message concerns a line's data on its way to the home. -/
def msgHomeward (line : Nat) (m : CohMsg) : Bool :=
  match m with
  | .wbM _ l _ _ => l == line
  | _ => false

/-- Recall every copy of a line to its home: newer data is written back, and the directory forgets its
holders (R272, R276). -/
def recallLine (s : State) (line : Nat) : State :=
  let s := match newest s line with
    | some c => storeBytes s (line * 256) c.1 c.2
    | none => s
  let coh := s.coh
  { s with coh := { coh with
      copies := mkeep coh.copies (fun k => k / 8 != line)
      dir := mdel coh.dir line
      fly := mdel coh.fly line
      msgs := coh.msgs.filter fun m => !msgHomeward line m } }

/-- Recall every line of a range. -/
def recallRange (s : State) (pa n : Nat) : State :=
  if n = 0 then s
  else (List.range (lineOf (pa + n - 1) + 1 - lineOf pa)).foldl
    (fun s i => recallLine s (lineOf pa + i)) s

/-! ## Atomics (R280) -/

/-- The operand sizes in bytes of each operation. -/
def atomSizeOk (op : AtomOp) (size : Nat) : Bool :=
  match op with
  | .fadd => size == 4
  | .cas => size == 4 || size == 8 || size == 16
  | _ => size == 4 || size == 8

/-- The value an atomic leaves, from the prior value and its operands: one operand of `size` bytes, or, for CAS,
the value compared and then the value stored (notes/assumptions/26.md). -/
def atomicOp (op : AtomOp) (size old : Nat) (operands : List Byte) : Nat :=
  let w := 8 * size
  let x := field operands 0 size
  match op with
  | .add => (old + x) % 2 ^ w
  | .fadd => (fp32Add (BitVec.ofNat 32 old) (BitVec.ofNat 32 x)).toNat
  | .and => old &&& x
  | .or => old ||| x
  | .xor => old ^^^ x
  | .minS => if toSigned w x < toSigned w old then x else old
  | .minU => min x old
  | .maxS => if toSigned w old < toSigned w x then x else old
  | .maxU => max x old
  | .swap => x
  | .cas => if old == x then field operands size size else old

/-- An atomic's operand is naturally aligned, so that it lies within one line. -/
def atomOk (addr : Nat) (op : AtomOp) (size : Nat) : Bool := atomSizeOk op size && addr % size == 0

/-! ## Transactions that run at once

The model performs a whole access of an engine, a server core or another requester in the step that makes it: its
transaction at the home begins and ends there, while the line is not busy (notes/assumptions/145.md). -/

/-- Who makes an access: its class and view at a scratchpad store (R166, R171), the tile whose unit it is, whether page
bias lets the tile's agent keep a copy (R302), the host die whose cores' caches may hold the line (R266, R293), and the
fold stamped on a window request (R255). -/
structure Asker where
  cls : Nat := 3
  view : Nat := 0
  tile : Option Nat := none
  shared : Bool := true
  host : Option Nat := none
  fold : Nat := 0
  deriving DecidableEq, Repr

/-- The agent that handles an access, with the VISIT_MODE in force (0x3 acts as 0x2) or, for a host die's own caches, as
mode 2 (R268, R287, R291, R293, R301, R302); none for a request that goes straight to the home. -/
def cacheOf (s : State) (q : Asker) (line : Nat) : Option (Nat × Nat) :=
  match q.host, q.tile with
  | some h, _ => if mayHold s (4 + h) line then some (4 + h, 2) else none
  | none, some t =>
    let m := min (fget s (pgCOH t) F.COH_CFG_VISIT_MODE) 2
    if m = 0 || !q.shared || homeOf s line = t || agentDead s t then none else some (t, m)
  | none, none => none

/-- An access of a line waits: a transaction runs on it (R275), or it is in WB_PEND at the agent that handles the access
(R270), or that agent has a request of its own for it outstanding. -/
def lineWaits (s : State) (q : Asker) (line : Nat) : Bool :=
  lineBusy s line ||
    match cacheOf s q line with
    | some (a, _) => (mget s.coh.wants (copyKey line a)).isSome ||
        (match getCopy s line a with | some c => c.st == .wbPend | none => false)
    | none => false

/-- A line's home accepts a request (R292); dead agents that the lookup finds recorded are resolved at once (R287). -/
def homeAccept (s : State) (line : Nat) : State :=
  let s := putCoh (bump s (pgCOH (homeOf s line)) 0) fun c => { c with
    used := if (mget c.dir line).isSome then mput c.used line c.clock else c.used
    clock := c.clock + 1 }
  ((List.range 6).filter (agentDead s)).foldl (fun s a => resolveDead s line a) s

/-- A snoop and its answer (R277): what the agent forwards, and whether it answers RspS. -/
def snoopNow (s : State) (k : Snoop) (line agent : Nat) : State × Option Copy × Bool :=
  let pg := pgCOH (homeOf s line)
  let s := bump s pg 1
  let none_ (s : State) : State × Option Copy × Bool := (if isOwner s agent line then bump s pg 3 else s, none, false)
  let forward (s : State) (c : Copy) (st : Option CopySt) : State × Option Copy × Bool :=
    (putCopy (bump s pg 2) line agent (st.map fun x => { c with st := x }), some c, false)
  match getCopy s line agent with
  | none => none_ s
  | some c =>
    match c.st, k with
    | .wbPend, _ => none_ s
    | .shared, .shared => (s, none, true)
    | .shared, .cur => (s, none, true)
    | .shared, _ => none_ (putCopy s line agent none)
    | .exclusive, .inv => none_ (putCopy s line agent none)
    | .exclusive, .shared => forward s c (some .shared)
    | .exclusive, .sole => forward s c none
    | .exclusive, .cur => forward s c (some .exclusive)
    | .modified, .inv => (putCopy (homeWrite s line c.data c.poison) line agent none, none, false)
    | .modified, .shared => forward (homeWrite s line c.data c.poison) c (some .shared)
    | .modified, .sole => forward s c none
    | .modified, .cur => forward s c (some .modified)

/-- The line as the home gives it: from the home store, or from memory behind it. -/
def homeGive (s : State) (line : Nat) : State × List Byte × Bool := (homeTouch s line, homeLine s line)

/-- RdCur (R276). -/
def homeRead (s : State) (line : Nat) : State × List Byte × Bool :=
  let s := homeAccept s line
  match dirGet s line with
  | some (_, true) =>
    let r := snoopNow s .cur line (ownerOf s line)
    match r.2.1 with
    | some c => (r.1, c.data, c.poison)
    | none =>
      let d := homeGive r.1 line
      (if r.2.2 then d.1 else dirPut d.1 line 0 false, d.2)
  | _ => homeGive s line

/-- The home invalidates every recorded copy of a line, merging a Modified one (R276, SnpInv). -/
def homeInvalidate (s : State) (line : Nat) : State :=
  match dirGet s line with
  | none => s
  | some (v, _) => dirPut ((setBitsOf 6 v).foldl (fun s a => (snoopNow s .inv line a).1) s) line 0 false

/-- WrFull, WrPart and AtomH recall every copy before they are performed (R276). -/
def homeTake (s : State) (line : Nat) : State := homeInvalidate (homeAccept s line) line

/-- What the home's codes find at the next request for a line (R285); an unreadable entry is recovered first. -/
def homeFound (s : State) (line : Nat) (e : HomeEcc) : State :=
  match e with
  | .directory => homeInvalidate (unreadable s line) line
  | _ => homeEcc s line e

/-- A full set gives up its least recently used line for a new entry (R272). -/
def homeRoom (s : State) (line : Nat) : State :=
  if (dirGet s line).isSome then s
  else
    let mates := dirMates s line
    if mates.length < 16 then s
    else match dirVictim s mates with
      | none => s
      | some v => homeInvalidate (bump s (pgCOH (homeOf s line)) 6) v

/-- An agent obtains a line by RdS, or by RdX when `sole` (R276), and holds it. -/
def agentFetch (s : State) (agent line : Nat) (sole : Bool) : State × Copy :=
  let s := homeRoom (homeAccept s line) line
  let keep (s : State) (c : Copy) : State × Copy := (putCopy s line agent (some c), c)
  let give (s : State) (st : CopySt) : State × Copy :=
    let d := homeGive s line
    keep d.1 ⟨st, d.2.1, d.2.2⟩
  match dirGet s line with
  | none => give (dirPut s line (2 ^ agent) true) .exclusive
  | some (v, false) =>
    if sole then
      let s := ((setBitsOf 6 v).filter (· != agent)).foldl (fun s a => (snoopNow s .inv line a).1) s
      give (dirPut s line (2 ^ agent) true) .exclusive
    else give (dirPut s line (v ||| 2 ^ agent) false) .shared
  | some (_, true) =>
    let o := ownerOf s line
    if o = agent then give s .exclusive
    else
      let r := snoopNow s (if sole then .sole else .shared) line o
      match r.2.1 with
      | some c =>
        if sole then keep (dirPut r.1 line (2 ^ agent) true) c
        else keep (dirPut r.1 line (2 ^ o ||| 2 ^ agent) false) { c with st := .shared }
      | none =>
        if r.2.2 then give (dirPut r.1 line (2 ^ o ||| 2 ^ agent) false) .shared
        else give (dirPut r.1 line (2 ^ agent) true) .exclusive

/-- The agent's copy of a line, as it holds it or obtains it; for a write it must hold the sole copy (R268, R281). -/
def agentHold (s : State) (agent line : Nat) (sole : Bool) (h : HomeEcc) (v : Ecc) : State × Copy :=
  let s := visitorEcc s agent line v
  match getCopy s line agent with
  | some c => if sole && c.st == .shared then agentFetch (homeFound s line h) agent line true else (s, c)
  | none => agentFetch (homeFound s line h) agent line sole

/-- In VISIT_MODE 1 a tile agent gives its copy up before it forwards a write or an atomic: a clean one silently, a
Modified one by WbM (R268). -/
def agentYield (s : State) (agent line : Nat) : State :=
  match getCopy s line agent with
  | none => s
  | some c =>
    let s := putCopy s line agent none
    if c.st == .modified then
      dirPut (bump (homeWrite s line c.data c.poison) (pgCOH (homeOf s line)) 5) line 0 false
    else s

/-- A read of bytes within a coherent line: their value and poison (R268, R276). -/
def cohRead (s : State) (q : Asker) (pa n : Nat) (h : HomeEcc) (v : Ecc) : State × List Byte × Bool :=
  let line := lineOf pa
  match cacheOf s q line with
  | some (a, _) =>
    let r := agentHold s a line false h v
    (r.1, slice r.2.data (pa % 256) n, r.2.poison)
  | none =>
    let r := homeRead (homeFound s line h) line
    (r.1, slice r.2.1 (pa % 256) n, r.2.2)

/-- A write at the home (R197, R200, R276): writes to a bad channel, and of part of a poisoned line, leave it as it is and
end with POISON. -/
def homeStore (s : State) (pa : Nat) (bs : List Byte) (p : Bool) : State × Option Nat :=
  let line := lineOf pa
  let s := homeTouch (homeTake s line) line
  if paBad s pa || partPoisoned s pa bs.length then (s, some stPOISON) else (storeBytes s pa bs p, none)

/-- A write of bytes within a coherent line, and the code it ends with (R197, R200, R268, R276). -/
def cohWrite (s : State) (q : Asker) (pa : Nat) (bs : List Byte) (p : Bool) (h : HomeEcc) (v : Ecc) :
    State × Option Nat :=
  let line := lineOf pa
  match cacheOf s q line with
  | some (a, 2) =>
    let r := agentHold s a line true h v
    let c := r.2
    if c.poison && bs.length != 256 then (r.1, some stPOISON)
    else
      let data := c.data.take (pa % 256) ++ bs ++ c.data.drop (pa % 256 + bs.length)
      (putCopy r.1 line a (some ⟨.modified, data, p⟩), none)
  | some (a, _) => homeStore (homeFound (agentYield (visitorEcc s a line v) a line) line h) pa bs p
  | none => homeStore (homeFound s line h) pa bs p

/-- An atomic in the home store (R280, R281): the prior value and its poison; a poisoned line is unchanged. Poisoned operands
poison the line. -/
def homeAtomic (s : State) (addr : Nat) (op : AtomOp) (size : Nat) (x : AtomArg) : State × List Byte × Bool :=
  let line := lineOf addr
  let s := bump (homeTouch s line) (pgCOH (homeOf s line)) 7
  let old := readBytes s addr size
  if (homeLine s line).2 then (s, old, true)
  else
    let s := writeBytes s addr (leBytes size (atomicOp op size (leNat old) x.bytes))
    (if x.poison then setPoison s addr true else s, old, false)

/-- An atomic that an agent executes in its own copy, which it holds in E or M (R280, R281). -/
def copyAtomic (s : State) (agent : Nat) (c : Copy) (addr : Nat) (op : AtomOp) (size : Nat) (operands : List Byte) :
    State × List Byte × Bool :=
  let old := slice c.data (addr % 256) size
  if c.poison then (s, old, true)
  else
    let new := leBytes size (atomicOp op size (leNat old) operands)
    let data := c.data.take (addr % 256) ++ new ++ c.data.drop (addr % 256 + size)
    (putCopy s (lineOf addr) agent (some ⟨.modified, data, false⟩), old, false)

/-- An atomic (R268, R281): in a host die's caches under WB, else at the home, to which a tile agent forwards it as it does
a write in mode 1. -/
def cohAtomic (s : State) (q : Asker) (addr : Nat) (op : AtomOp) (size : Nat) (x : AtomArg) (h : HomeEcc) :
    State × List Byte × Bool :=
  let line := lineOf addr
  match cacheOf s q line with
  | some (a, _) =>
    if q.host.isSome then
      let r := agentHold s a line true h .clean
      copyAtomic r.1 a r.2 addr op size x.bytes
    else homeAtomic (homeTake (homeFound (agentYield s a line) line h) line) addr op size x
  | none => homeAtomic (homeTake (homeFound s line h) line) addr op size x

end Sys2Proof.Machine
end

