-- ==== Sys2Proof/Machine/Operands.lean ====
section
/-! DEFINITION. Where an operand lies: the regions of a fold (R238), the segment tables and the translation
of virtual addresses (R243 to R246), the translation streams with their fills, stalls and fault slots (R247
to R252), and the reads and writes that the engines make there (R15, R225, R255). -/

namespace Sys2Proof.Machine

open Sys2Proof

/-! ## Regions -/

/-- The valid regions of a fold as (first byte, past the last byte, COMP) (R263). -/
def foldRegions (s : State) (f : Nat) : List (Nat × Nat × Bool) :=
  ((List.range 8).filter fun n => fbiti s (pgFOLD f) F.FOLD_REGION_LO_VALID n).map fun n =>
    (fgeti s (pgFOLD f) F.FOLD_REGION_LO_BASE n * twoMiB,
      (fgeti s (pgFOLD f) F.FOLD_REGION_HI_LIMIT n + 1) * twoMiB,
      fbiti s (pgFOLD f) F.FOLD_REGION_HI_COMP n)

/-- The range [lo, hi) is covered by the given ranges; at most one hop per region. -/
def coveredBy (rs : List (Nat × Nat × Bool)) : Nat → Nat → Nat → Bool
  | 0, _, _ => false
  | k + 1, lo, hi =>
    if hi ≤ lo then true
    else match rs.find? fun r => r.1 ≤ lo && lo < r.2.1 with
      | none => false
      | some r => coveredBy rs k r.2.1 hi

/-- The range lies inside the fold's regions. -/
def inRegions (s : State) (f lo hi : Nat) : Bool := coveredBy (foldRegions s f) 9 lo hi

/-- The range lies inside regions of the fold that are not marked COMP. -/
def inPlainRegions (s : State) (f lo hi : Nat) : Bool :=
  coveredBy ((foldRegions s f).filter fun r => !r.2.2) 9 lo hi

/-- The range lies inside regions of the fold marked COMP. -/
def inCompRegions (s : State) (f lo hi : Nat) : Bool :=
  coveredBy ((foldRegions s f).filter fun r => r.2.2) 9 lo hi

/-- An address lies in a region of some enabled fold that is marked COMP. -/
def inAnyComp (s : State) (pa : Nat) : Bool :=
  (List.range 16).any fun f => foldActive s f &&
    (foldRegions s f).any fun r => r.2.2 && r.1 ≤ pa && pa < r.2.1

/-! ## Segments -/

/-- A segment descriptor (R244) as a number. -/
def segDesc (tbl : List Byte) (i : Nat) : Nat := field tbl (i * 32) 32

def segVBase (d : Nat) : Nat := bits d 47 12
def segVLimit (d : Nat) : Nat := bits d 111 76
def segPBase (d : Nat) : Nat := bits d 175 140

/-- The lowest-numbered valid descriptor whose range holds the address (R245). -/
def segSelect (tbl : List Byte) (va : Nat) : Option Nat :=
  (List.range 16).find? fun i =>
    let d := segDesc tbl i
    d.testBit 0 && segVBase d ≤ va / 4096 && va / 4096 ≤ segVLimit d

/-- The extent of a compressed range of data length `len` (R584). -/
def compExtent (len : Nat) : Nat := (len + 2 ^ 24 - 1) / 2 ^ 24 * (2 ^ 24 + 4096)

/-- Slot and map byte of the block that holds data offset v of the range at B (R221). -/
def slotPa (base v : Nat) : Nat := base + v / 2 ^ 24 * (2 ^ 24 + 4096) + v % 2 ^ 24 / 4096 * 4096
def mapPa (base v : Nat) : Nat := base + v / 2 ^ 24 * (2 ^ 24 + 4096) + 2 ^ 24 + v % 2 ^ 24 / 4096

/-- Every set bit of a descriptor lies in a field (R244). -/
def segReservedClear (d : Nat) : Bool :=
  bits d 11 11 == 0 && bits d 63 48 == 0 && bits d 75 64 == 0 && bits d 127 112 == 0 &&
    bits d 139 128 == 0 && bits d 191 176 == 0 && bits d 255 208 == 0

/-- The tier of an address by the map of R13: the code of R244's TIER, 7 for none. -/
def tierOfAddr (pa : Nat) : Nat :=
  if pa < 0x20000000000 then 1
  else if tierNBase ≤ pa && pa < 0x10C000000000 then 0
  else if isSpadPa pa then 2
  else if lockBase ≤ pa && pa < lockBase + 0x40000000 then 3
  else if winBase ≤ pa && pa < 0x800000000000 then 4
  else 7

/-- Every C-die whose aperture the range touches belongs to the fold. -/
def inFoldApertures (s : State) (f lo hi : Nat) : Bool :=
  isSpadPa lo && hi ≤ spadBase + 0x80000000 &&
    (List.range 16).all fun d =>
      hi ≤ spadBase + d * 0x8000000 || spadBase + (d + 1) * 0x8000000 ≤ lo || foldHasDie s f d

/-- Every window the range touches belongs to the fold and is enabled (R245, R255). -/
def inFoldWindows (s : State) (f lo hi : Nat) : Bool :=
  (List.range 64).all fun w =>
    hi ≤ winBase + w * 0x10000000000 || winBase + (w + 1) * 0x10000000000 ≤ lo ||
      ((foldWindows s f).testBit w && fbiti s pgWIN F.WIN_OUT_ENABLE w)

/-- Why a descriptor is malformed (R245): 0x1 malformed, 0x2 outside the fold; none when it is sound. -/
def segBad (s : State) (f d : Nat) : Option Nat :=
  let lo := segPBase d * 4096
  let len := (segVLimit d + 1 - segVBase d) * 4096
  let tier := bits d 10 8
  let comp := d.testBit 7
  let hi := if comp then lo + compExtent len else lo + len
  if !segReservedClear d || segVLimit d < segVBase d || 4 < tier then some 1
  else if tierOfAddr lo != tier || tierOfAddr (hi - 1) != tier then some 1
  else if comp && (tier != 1 || !inCompRegions s f lo hi) then some 1
  else
    let inside :=
      match tier with
      | 2 => inFoldApertures s f lo hi
      | 4 => inFoldWindows s f lo hi
      | _ => inRegions s f lo hi
    if inside then none else some 2

/-- The access types of R246 step 3: a read, a write, both, or one that needs ATOM with WR. -/
inductive AccKind where
  | rd | wr | rdwr | atom
  deriving DecidableEq, Repr

/-- Step 3 of R246. -/
def segPermits (d : Nat) (k : AccKind) : Bool :=
  match k with
  | .rd => d.testBit 3
  | .wr => d.testBit 4
  | .rdwr => d.testBit 3 && d.testBit 4
  | .atom => d.testBit 4 && d.testBit 5

/-- How the checks of R246 up to step 5 end. -/
inductive Xl where
  | to (p : Place)
  /-- PRESENT = 0 or MOVE = 1 -/
  | absent (seg cause cookie : Nat)
  /-- a code of R17, and the CTX_SEGERR entry it records, (segment, cause) -/
  | fail (code : Nat) (err : Option (Nat × Nat))
  deriving DecidableEq, Repr

/-- Who translates: a Drover engine, alone allowed compressed ranges, whether its write covers part of a compressed block
(R224), and the chunk it moves. -/
structure Who where
  drover : Bool := false
  part : Bool := false
  move : Option (Nat × Nat) := none
  deriving DecidableEq, Repr

/-- Any byte of the line of an address is under move by another requester (R251). -/
def lineHeld (s : State) (who : Who) (pa : Nat) : Bool :=
  s.moving.any fun m => m.lo < pa / 256 * 256 + 256 && pa / 256 * 256 < m.hi &&
    who.move != some (m.fold, m.chunk)

/-- The move filter holds an access of a translated place: of a compressed range, its slot or its map byte (R221, R251). -/
def placeHeld (s : State) (who : Who) (p : Place) : Bool :=
  match p with
  | .plain pa _ => lineHeld s who pa
  | .comp base v => lineHeld s who (slotPa base v) || lineHeld s who (mapPa base v)

/-- The physical place of a context's segment table (R243). -/
def segTblPa (s : State) (c : Nat) : Nat := fpair s (pgCTX c) F.CTX_SEGTBL_LO_BASE_LO F.CTX_SEGTBL_HI_BASE_HI 0

/-- The table lies in tier N inside the fold's regions (R243). -/
def segTblInside (s : State) (c f : Nat) : Bool :=
  let a := segTblPa s c
  tierOfAddr a == 0 && inRegions s f a (a + 512)

/-- The check of all sixteen descriptors at a fill (R245, R247). -/
def segChecks (s : State) (f : Nat) (tbl : List Byte) : List Nat :=
  (List.range 16).map fun i => (segBad s f (segDesc tbl i)).getD 0

/-- Translate through a cached table (R245, steps 1 to 5 of R246). -/
def xlateTbl (t : SegTbl) (who : Who) (va : Nat) (k : AccKind) : Xl :=
  match segSelect t.bytes va with
  | none => .fail stSEG none
  | some i =>
    let d := segDesc t.bytes i
    let bad := lget t.bad i 0
    if bad ≠ 0 then .fail stPERM (some (i, bad))
    else if !segPermits d k then .fail stPERM none
    else if !d.testBit 1 then .absent i 1 (bits d 207 192)
    else if d.testBit 2 then .absent i 2 (bits d 207 192)
    else if d.testBit 7 then
      if !who.drover || (who.part && k != .rd) then .fail stPERM none
      else .to (.comp (segPBase d * 4096) (va - segVBase d * 4096))
    else .to (.plain (segPBase d * 4096 + va - segVBase d * 4096) (d.testBit 6))

/-! ## Streams -/

/-- The number under which a stream is held, and its cache entries (R247). -/
def streamKey (x : StreamId) : Nat × Nat :=
  match x with
  | .queue c q => (c * 8 + q, 1)
  | .drover t e => (4096 + t * 16 + e, 2)
  | .hatch d p => (4200 + d * 9 + p, 1)
  | .etch t u => (4400 + t * 8 + u, 2)
  | .coll t e => (4500 + t * 2 + e, 4)
  | .array d p a => (5000 + (d * 9 + p) * 8 + a, 1)

def getStream (s : State) (x : StreamId) : StreamSt := mgetD s.streams (streamKey x).1 {}

def putStream (s : State) (x : StreamId) (st : StreamSt) : State :=
  { s with streams := mput s.streams (streamKey x).1 st }

/-- Record an entry in CTX_SEGERR; later errors leave the first entry (R262). -/
def segErr (s : State) (c seg cause : Nat) : State :=
  if fbit s (pgCTX c) F.CTX_SEGERR_VALID then s
  else setLogged (fput (fput (fput s (pgCTX c) F.CTX_SEGERR_VALID 1) (pgCTX c) F.CTX_SEGERR_SEG seg)
    (pgCTX c) F.CTX_SEGERR_CAUSE cause) (pgCTX c)

/-- Take or join a fault slot for (context, segment) and stall the stream (R248). -/
def stallStream (s : State) (x : StreamId) (f c seg va cause cookie : Nat) : State :=
  let fs := mgetD s.folds f {}
  let put (s : State) (slot : Option Nat) : State :=
    putStream s x { getStream s x with stall := some ⟨c, seg, va, slot, cause, cookie, false⟩ }
  match fs.slots.find? fun p => p.2.ctx == c && p.2.seg == seg with
  | some p => put (bump s (pgFOLD f) 2) (some p.1)
  | none =>
    match (List.range 32).find? fun i => (mget fs.slots i).isNone with
    | none => put s none
    | some i =>
      let sl : SlotSt := ⟨c, seg, fs.seq % 256, va, cause, cookie, herdTime s, false, false⟩
      let s := bump s (pgFOLD f) 2
      put { s with folds := mput s.folds f { slots := mput fs.slots i sl, seq := fs.seq + 1 } } (some i)

/-- How an engine's access through its stream goes on. -/
inductive Acc1 where
  /-- the stream waits: for a fill, a slot or a move; the state as it then stands -/
  | wait (s : State)
  /-- translated -/
  | ok (pa : Nat) (bias : Bool)
  | comp (base v : Nat)
  /-- the access ends its command with this code -/
  | fail (code : Nat) (s : State)

/-- An access past step 4 keeps its translation until it is performed (R254). -/
def inFlight (s : State) (x : StreamId) (c va : Nat) (p : Place) : State :=
  match (getStream s x).past with
  | some q => if q.ctx = c ∧ q.va = va then s else putStream s x { getStream s x with past := some { ctx := c, va := va, place := p } }
  | none => putStream s x { getStream s x with past := some { ctx := c, va := va, place := p } }

/-- Steps 6 and 7 of R246: held by the move filter, with no fault record (R251), or a hole. -/
def accessPlace (s : State) (x : StreamId) (who : Who) (f c va : Nat) (p : Place) : Acc1 :=
  let st := getStream s x
  if placeHeld s who p then
    if (match st.stall with | some t => t.hold | none => false) then .wait s
    else .wait (bump (putStream s x { st with
      stall := some ⟨c, 0, va, none, 0, 0, true⟩
      past := match st.past with
        | some q => if q.ctx = c ∧ q.va = va then some q else some { ctx := c, va := va, place := p }
        | none => some { ctx := c, va := va, place := p } }) (pgFOLD f) 5)
  else match p with
    | .plain pa b =>
      if regionOf s pa == .hole then .fail stHOLE (putStream s x { st with stall := none, past := none }) else .ok pa b
    | .comp base v => .comp base v

/-- One translated access of a stream (R246 to R252, R254, R585). A stream that waits stays as it is until a
fill, a reply or a time-out; a code left on it by one of those ends the access that waited. -/
def access (s : State) (x : StreamId) (who : Who) (c va : Nat) (k : AccKind) : Acc1 :=
  let st := getStream s x
  match ctxFold s c with
  | none => .fail stPERM s
  | some f =>
    match (match st.dead with | some d => if d.1 = va then some d.2 else none | none => none) with
    | some code => .fail code (putStream s x { st with dead := none, want := none, stall := none, past := none })
    | none =>
      if (match st.stall with | some t => !t.hold | none => false) then .wait s
      else match (match st.past with | some p => if p.ctx = c ∧ p.va = va then some p.place else none | none => none) with
        | some p => accessPlace s x who f c va p
        | none =>
          if !segTblInside s c f then .fail stPERM (segErr s c 0 3)
          else
            match st.cache.find? fun e => e.ctx == c with
            | none => .wait (putStream s x { st with want := some c, wantVa := va })
            | some e =>
              match xlateTbl e who va k with
              | .to p => accessPlace s x who f c va p
              | .absent seg cause cookie => .wait (stallStream s x f c seg va cause cookie)
              | .fail code err =>
                let s := putStream s x { st with stall := none, past := none }
                .fail code (match err with | some e => segErr s c e.1 e.2 | none => s)

/-- An access is performed: its stream no longer stalls, and the table it used becomes the most recently used (R247). -/
def unhold (s : State) (x : StreamId) (c : Nat) : State :=
  let st := getStream s x
  match st.cache.find? fun e => e.ctx == c with
  | some e =>
    if st.stall.isNone && st.past.isNone && (st.cache.head?.map (·.ctx)) == some c then s
    else putStream s x { st with
      stall := none, past := none, cache := e :: st.cache.filter fun e' => e'.ctx != c }
  | none =>
    if st.stall.isNone && st.past.isNone then s else putStream s x { st with stall := none, past := none }

/-! ## Requests and their answers -/

/-- Count an access that a keep region refuses (R179). -/
def noteKeep (s : State) (pa n : Nat) : State :=
  match regionOf s pa with
  | .spad d off => if inKeep off n then bump s (pgSPAD d) 12 else s
  | _ => s

/-- The stack of a tier N line is at level critical, where requests wait (R194, R205). -/
def stackStops (s : State) (pa : Nat) : Bool :=
  match chanOf s pa with
  | some c => !chanBad s c.1 && fget s (pgMEMC (c.1 / 64)) F.MEMC_THERM_LEVEL == 3
  | none => false

/-- Whether the target of an access makes it wait: a store's port (R170, R178, R180), or a lock region not yet zeroed
(R290), or a line (R270, R275), or its stack (R205). -/
def targetBusy (s : State) (pa : Nat) (q : Asker := {}) : Bool :=
  match regionOf s pa with
  | .spad d off => storeBusy s d off 1
  | .lock t o => o < lockBacked s t && (!fbit s (pgCOH t) F.COH_STS_LOCK_READY || lineWaits s q (lineOf pa))
  | .tierN => stackStops s pa || lineWaits s q (lineOf pa)
  | .tierF => lineWaits s q (lineOf pa)
  | _ => false

/-- What a row's answer says the codes of the caches and the memory behind them find (R285, R197, R297). -/
def respCodes (resp : LineResp) : HomeEcc × Ecc :=
  match resp with
  | .poison => (.memory, .clean)
  | .found h v => (h, v)
  | _ => (.clean, .clean)

/-- An error response of a lower tier: a window's refusal, or else TIER_ERROR, whatever code it carries (R225, R256, R586).
Memory in tier N gives none. -/
def respError (resp : LineResp) : Option Nat :=
  match resp with
  | .error c => some (if c = stWINDOW then stWINDOW else stTIER)
  | _ => none

/-- Send an engine's request through a window (R255, R264). -/
def windowAsk (s : State) (q : Asker) (w o n : Nat) (write : Option (List Byte)) (p : Bool) : State :=
  emit (bump s pgWIN 2) (.windowReq (fgeti s pgWIN F.WIN_OUT_TGT_PKG w) (fgeti s pgWIN F.WIN_OUT_TGT_IMPORT w) o n write p
    (fget s pgFAB F.FAB_COORD_COORD) q.fold)

/-- The other package refuses a request (R256, R263). -/
def windowRefused (s : State) (q : Asker) (code : Nat) : State := if code = stWINDOW then bump s (pgFOLD q.fold) 9 else s

/-- A read through an enabled window waits for the other package's answer, which the row does not carry (R255, R370). -/
def unanswered (s : State) (pa : Nat) (resp : LineResp) : Bool :=
  match regionOf s pa with
  | .window w _ => fbiti s pgWIN F.WIN_OUT_ENABLE w && (resp == .ok || (match resp with | .found _ _ => true | _ => false))
  | _ => false

/-- What is left of a row's answer after an access: another package's data goes to its lines in turn. -/
def respAfter (s : State) (pa n : Nat) (resp : LineResp) : LineResp :=
  match resp, regionOf s pa with
  | .remote d, .window _ _ => .remote (d.drop n)
  | _, _ => resp

/-- What a unit's read of bytes within one line gives: the bytes and their poison, or a code (R15, R175,
R197, R225, R255, R268, R290). -/
def unitRead (s : State) (q : Asker) (pa n : Nat) (resp : LineResp) : State × Except Nat (List Byte × Bool) :=
  let c := respCodes resp
  let line (s : State) : State × Except Nat (List Byte × Bool) :=
    let r := cohRead s q pa n c.1 c.2
    (r.1, .ok r.2)
  match regionOf s pa with
  | .hole => (s, .error stHOLE)
  | .regs _ _ => (s, .error stHOLE)
  | .window w o =>
    if !fbiti s pgWIN F.WIN_OUT_ENABLE w then (s, .error stWINDOW)
    else
      let s := windowAsk s q w o n none false
      match respError resp, resp with
      | some e, _ => (windowRefused s q e, .error e)
      | none, .remote d => (s, .ok (slice d 0 n, false))
      | none, .poison => (s, .ok (List.replicate n 0, true))
      | none, _ => (s, .error stTIER)
  | .lock t o => if o < lockBacked s t then line s else (bump s (pgCOH t) 14, .ok (List.replicate n 0, false))
  | .spad d off =>
    let r := portRead s d q.cls false off n
    if r.2.refused then (r.1, .error stPERM) else (r.1, .ok (r.2.data, r.2.poison))
  | .tierF =>
    match respError resp with
    | some e => (s, .error e)
    | none => if tierFDown s pa then (s, .error stTIER) else line s
  | .tierN => line s

/-- What a unit's write of bytes within one line does: the state, and the code of R17 that the requester is told
(R15, R174, R179, R197, R200, R225, R255, R268, R290). A write to a remote window leaves this package. -/
def unitWrite (s : State) (q : Asker) (pa : Nat) (bs : List Byte) (p : Bool) (resp : LineResp) : State × Option Nat :=
  let c := respCodes resp
  match regionOf s pa with
  | .hole => (s, some stHOLE)
  | .regs _ _ => (s, some stHOLE)
  | .window w o =>
    if !fbiti s pgWIN F.WIN_OUT_ENABLE w then (s, some stWINDOW)
    else
      let s := windowAsk s q w o bs.length (some bs) p
      match respError resp with
      | some e => (windowRefused s q e, some e)
      | none => (s, none)
  | .lock t o => if o < lockBacked s t then cohWrite s q pa bs p c.1 c.2 else (bump s (pgCOH t) 14, none)
  | .spad d off =>
    let r := portWrite s d q.cls false q.view off bs p
    (r.1, if r.2.refused then some stPERM else if r.2.met then some stPOISON else none)
  | .tierF =>
    match respError resp with
    | some e => (s, some e)
    | none => if tierFDown s pa then (s, some stTIER) else cohWrite s q pa bs p c.1 c.2
  | .tierN => cohWrite s q pa bs p c.1 c.2

/-- The class at a scratchpad store of a stream's accesses (R166): they come through the hub. -/
def streamClass (x : StreamId) : Nat :=
  match x with
  | .hatch _ _ => 1
  | _ => 3

/-- The tile on which a stream's unit stands, or the home tile of a queue (R26, R147). -/
def streamTile (s : State) (x : StreamId) : Nat :=
  match x with
  | .queue c q => fgeti s (pgCTX c) F.QCFG_HOME_TILE q
  | .drover t _ => t
  | .hatch d _ => d / 4
  | .etch t _ => t
  | .coll t _ => t
  | .array d _ _ => d / 4

/-- A stream's accesses for a context, through a segment with this BIAS bit. -/
def streamAsker (s : State) (x : StreamId) (c : Nat) (bias : Bool) : Asker :=
  { cls := streamClass x, tile := some (streamTile s x), shared := !bias, fold := (ctxFold s c).getD 0 }

/-- A pen's hatch unit reaches no store through its stream but its own pen store and its die's store (R126). -/
def streamReaches (x : StreamId) (pa : Nat) : Bool :=
  match x with
  | .hatch d p => !isSpadPa pa || (pa - spadBase) / 0x8000000 == d &&
      (let off := (pa - spadBase) % 0x8000000
       0x6C00000 ≤ off || (0x4800000 + p * 0x400000 ≤ off && off < 0x4800000 + (p + 1) * 0x400000))
  | _ => true

/-- The conditions an access ends with when a part of it fails after poison was met (R22). -/
def withPoison (p : Bool) (code : Nat) : List Nat := (if p then [stPOISON] else []) ++ [code]

/-- Read a virtual range of a stream, line by line; the first line that waits or fails decides, and the conditions met
before it are told with its code (R22). -/
def streamRead (s : State) (x : StreamId) (who : Who) (c : Nat) (k : AccKind) (resp : LineResp) :
    List (Nat × Nat) → List Byte → Bool → (State × Option (Except (List Nat) (List Byte × Bool)))
  | [], acc, p => (s, some (.ok (acc, p)))
  | (va, n) :: t, acc, p =>
    match access s x who c va k with
    | .wait s' => (s', none)
    | .comp _ _ => (s, some (.error (withPoison p stPERM)))
    | .fail code s' => (s', some (.error (withPoison p code)))
    | .ok pa b =>
      let q := streamAsker s x c b
      if targetBusy s pa q || unanswered s pa resp then (inFlight s x c va (.plain pa b), none)
      else if !streamReaches x pa then (unhold s x c, some (.error (withPoison p stHOLE)))
      else
        let r := unitRead (unhold s x c) q pa n resp
        match r.2 with
        | .error e => (r.1, some (.error (withPoison p e)))
        | .ok (bs, q) => streamRead r.1 x who c k (respAfter s pa n resp) t (acc ++ bs) (p || q)

/-- Check that every line of a virtual range translates, before any is written. -/
def streamCheck (s : State) (x : StreamId) (who : Who) (c : Nat) (k : AccKind) :
    List (Nat × Nat) → List Nat → (State × Option (Except Nat (List Nat)))
  | [], acc => (s, some (.ok acc.reverse))
  | (va, _) :: t, acc =>
    match access s x who c va k with
    | .wait s' => (s', none)
    | .comp _ _ => (s, some (.error stPERM))
    | .fail code s' => (s', some (.error code))
    | .ok pa b =>
      if targetBusy s pa (streamAsker s x c b) then (inFlight s x c va (.plain pa b), none)
      else streamCheck s x who c k t (pa :: acc)

/-- Write a virtual range of a stream line by line; the first line that waits or fails decides. Poison that keeps bytes
from being written stops nothing: the answer tells it at the end, or with the code of a later line (R22). -/
def streamWrite (s : State) (x : StreamId) (who : Who) (c : Nat) (k : AccKind) (p : Bool) (resp : LineResp) :
    List (Nat × Nat) → List Byte → Bool → (State × Option (Except (List Nat) Bool))
  | [], _, met => (s, some (.ok met))
  | (va, n) :: t, bs, met =>
    match access s x who c va k with
    | .wait s' => (s', none)
    | .comp _ _ => (s, some (.error (withPoison met stPERM)))
    | .fail code s' => (s', some (.error (withPoison met code)))
    | .ok pa b =>
      let q := streamAsker s x c b
      if targetBusy s pa q then (inFlight s x c va (.plain pa b), none)
      else
        let r := unitWrite (unhold s x c) q pa (slice bs 0 n) p resp
        match r.2 with
        | none => streamWrite r.1 x who c k p resp t (bs.drop n) met
        | some code =>
          if code = stPOISON then streamWrite r.1 x who c k p resp t (bs.drop n) true
          else (r.1, some (.error (withPoison met code)))

/-- What is left of a row's answer after a stream has read a virtual range: the data of its remote lines is taken (R255). -/
def respRest (s : State) (x : StreamId) (ctx va n : Nat) (resp : LineResp) : LineResp :=
  match resp with
  | .remote _ => (linePieces va n).foldl (fun resp l =>
      match access s x {} ctx l.1 .rd with
      | .ok pa _ => respAfter s pa l.2 resp
      | _ => resp) resp
  | _ => resp

/-! ## Requests to lower tiers that fail (R225, R226, R576) -/

/-- What keeps a unit's write of one line from being made at all (R15, R179, R255). -/
def unitWriteCheck (s : State) (pa n : Nat) : Option Nat :=
  match regionOf s pa with
  | .hole => some stHOLE
  | .regs _ _ => some stHOLE
  | .window w _ => if fbiti s pgWIN F.WIN_OUT_ENABLE w then none else some stWINDOW
  | .spad _ off => if inKeep off n then some stPERM else none
  | _ => none

/-- What a command that ends with TIER_ERROR, and whose new data never came or is not held, leaves in a virtual range of
its destination (R226): which lines are new is undefined, and so are the bytes that translate and may be written. A
window's bytes lie in the other package. -/
def undefRange (s : State) (x : StreamId) (who : Who) (ctx va n : Nat) : State :=
  (linePieces va n).foldl (fun s l =>
    match access s x who ctx l.1 .wr with
    | .ok pa _ =>
      if (unitWriteCheck s pa l.2).isNone && tierOfAddr pa != 4 then makeUndef (recallRange s pa l.2) pa (pa + l.2) else s
    | _ => s) s

/-- The line of a physical address is one of tier F or of a remote window: a request for it may go unanswered. -/
def lowerPa (s : State) (pa : Nat) : Bool :=
  match regionOf s pa with
  | .tierF => true
  | .window _ _ => true
  | _ => false

/-- Some piece of a virtual range translates into tier F or a window, so that the access may wait for an answer. -/
def waitsBelow (s : State) (x : StreamId) (ctx : Nat) (k : AccKind) (pieces : List (Nat × Nat)) : Bool :=
  pieces.any fun l => match access s x {} ctx l.1 k with
    | .ok pa _ => lowerPa s pa
    | .comp _ _ => true
    | _ => false

end Sys2Proof.Machine
end

