-- ==== Sys2Proof/Machine/Queue.lean ====
section
/-! DEFINITION. Queues and tallies (chapter 4): the command header and body (R142, R143, R575), the doorbell
and enable registers (R145, R146), fetching, dispatch and posting in order (R147, R148, R578, R579), the grant
of a unit input (R149, R258, R259), tallies and their signals (R150, R151, R155). -/

namespace Sys2Proof.Machine

open Sys2Proof

/-! ## Commands in flight -/

def findCmd (s : State) (id : CmdId) : Option Cmd := s.cmds.find? fun c => c.id == id

def updCmd (s : State) (id : CmdId) (f : Cmd → Cmd) : State :=
  { s with cmds := s.cmds.map fun c => if c.id == id then f c else c }

/-- Bits [hi:lo] of a command's 64 B (R142, R575). -/
def cbits (c : Cmd) (hi lo : Nat) : Nat := bits c.word.toNat hi lo

def cOp (c : Cmd) : Nat := cbits c 7 0
def cGen (c : Cmd) : Nat := cbits c 23 16
def cDie (c : Cmd) : Nat := cbits c 51 48
def cPen (c : Cmd) : Nat := cbits c 55 52
def cExt (c : Cmd) : Bool := c.word.toNat.testBit 11

/-- The reserved bits of the header are zero (R11, R142), and so is every body bit outside the ranges the
opcode names (R575). -/
def reservedOk (w : Nat) (named : List (Nat × Nat)) : Bool :=
  bits w 15 12 == 0 && bits w 31 30 == 0 && bits w 63 56 == 0 && bits w 127 96 == 0 &&
    (named.foldl (fun x r => setBits x r.1 r.2 0) w) / 2 ^ 128 == 0

/-! ## Tallies -/

def tallyKey (c t : Nat) : Nat := c * 64 + t
def getTally (s : State) (c t : Nat) : TallySt := mgetD s.tallies (tallyKey c t) {}
def putTally (s : State) (c t : Nat) (x : TallySt) : State :=
  { s with tallies := mput s.tallies (tallyKey c t) x }

/-- A tally of context `c` now holds `v` after rising by `rise`: run-pool entries that waited for the value are
ready (R413), and the context's sequencer counts the rise (R418). -/
def tallyNotes (x : TrnSt) (c t v rise : Nat) : TrnSt :=
  { x with
    pool := x.pool.map fun r =>
      if r.kind == 1 && r.id.ctx == c && r.tally == t && decide (r.value ≤ v) && r.ready.isNone then
        { r with ready := some 0 } else r
    seqs := match mget x.seqs c with
      | none => x.seqs
      | some q => mput x.seqs c { q with
          doneF := q.doneF + (if q.tF = t then rise else 0)
          doneB := q.doneB + (if q.tB = t then rise else 0)
          opt := q.opt + (if q.tO = t then rise else 0) } }

/-- The FENCE of the head is satisfied: every earlier command of the queue has completed (R142). -/
def fenceOk (s : State) (c : Cmd) : Bool :=
  !c.word.toNat.testBit 8 ||
    (s.cmds.takeWhile (fun x => x.id != c.id)).all fun x =>
      x.id.ctx != c.id.ctx || x.id.q != c.id.q || x.phase == .done

/-- The queue heads whose TALLY_WAIT a tally's new value satisfies are released in that cycle (R151). -/
def releaseWaits (s : State) (c t v : Nat) : List Cmd :=
  s.cmds.map fun x =>
    if x.phase == .head && x.failed.isNone && cOp x == 0x20 && x.id.ctx == c && cbits x 133 128 == t &&
        decide (cbits x 255 192 ≤ v) && fenceOk s x then { x with met := true } else x

/-- Change a tally, and tell what waits for it. -/
def riseTally (s : State) (c t rise : Nat) (x : TallySt) : State :=
  let s := putTally s c t x
  { s with trn := tallyNotes s.trn c t x.val.toNat rise, cmds := releaseWaits s c t x.val.toNat }

/-- Add to a tally modulo 2^64, noting a wrap in OVF (R150). -/
def tallyAdd (s : State) (c t n : Nat) : State :=
  let x := getTally s c t
  riseTally s c t n { x with val := BitVec.ofNat 64 (x.val.toNat + n)
                             ovf := x.ovf || 2 ^ 64 ≤ x.val.toNat + n }

/-- Set a tally's value and generation together (R150). -/
def tallySet (s : State) (c t v g : Nat) : State :=
  let x := getTally s c t
  riseTally s c t (v - x.val.toNat) { x with val := BitVec.ofNat 64 v, gen := g % 256 }

/-! ## Completion -/

/-- A completion with SEG_FAULT or PERM_FAULT is counted on its fold's page (R263). -/
def countFault (s : State) (ctx code : Nat) : State :=
  match ctxFold s ctx with
  | some f => if code = stSEG then bump s (pgFOLD f) 6 else if code = stPERM then bump s (pgFOLD f) 7 else s
  | none => s

/-- Complete a command with a status: it waits to be posted, and its signal applies at once, when its
generation is the tally's (R24, R148, R150, R155). -/
def finishCmd (s : State) (id : CmdId) (r : Res) : State :=
  match findCmd s id with
  | none => s
  | some c =>
    if c.phase == .done then s
    else
      let t := cbits c 29 24
      let sig := c.word.toNat.testBit 10
      let ok := (getTally s id.ctx t).gen == cGen c
      let s := updCmd (countFault s id.ctx r.code) id fun c =>
        { c with phase := .done, res := r, time := herdTime s, signalled := sig && ok, stale := sig && !ok }
      if !sig then s
      else if ok then tallyAdd s id.ctx t (cbits c 95 64)
      else bump s (pgCTX id.ctx) 8

/-- Complete a command that fails acceptance (R20, R21). -/
def rejectCmd (s : State) (id : CmdId) (code : Nat) : State := finishCmd s id (reject code)

/-- A fold, or the whole package, is fenced (R510). -/
def fenced (s : State) (f : Nat) : Bool :=
  fbit s pgHERD F.HERD_FENCE_PKG || (fget s pgHERD F.HERD_FENCE_FOLDS).testBit f

/-- Accept a command (R21): the first failing check ends it, a fence ends it with FENCED (R510), and
otherwise it goes on with its fold. -/
def acceptCmd (s : State) (id : CmdId) (bad unsup state : Bool) (go : Nat → State) : State :=
  match acceptance bad unsup state with
  | some code => rejectCmd s id code
  | none =>
    match ctxFold s id.ctx with
    | none => rejectCmd s id stSTATE
    | some f => if fenced s f then finishCmd s id (resOf [stFENCED]) else go f

/-- Run `go` on a command that stands at its unit or in its front-end and carries the opcode. -/
def withCmd (s : State) (id : CmdId) (op : Nat) (go : Cmd → State) : State :=
  match findCmd s id with
  | some c => if c.phase == .granted && cOp c == op then go c else s
  | none => s

/-- The completion record of a command (R144). -/
def cplRecord (c : Cmd) : List Byte :=
  leBytes 16 (c.res.code + cOp c * 2 ^ 8 + cbits c 47 32 * 2 ^ 16 + cGen c * 2 ^ 32
    + c.id.q * 2 ^ 40 + bitN c.stale * 2 ^ 43 + bitN c.signalled * 2 ^ 44 + c.id.ctx * 2 ^ 48
    + c.res.cond * 2 ^ 64 + c.res.note * 2 ^ 80 + c.time % 2 ^ 32 * 2 ^ 96)

/-- The completion record of a descriptor that a prep core issued (R130, R144). -/
def descRecord (s : State) (op idx gen ctx : Nat) (r : Res) : List Byte :=
  leBytes 16 (r.code + op * 2 ^ 8 + idx % 2 ^ 16 * 2 ^ 16 + gen * 2 ^ 32 + ctx * 2 ^ 48
    + r.cond * 2 ^ 64 + r.note * 2 ^ 80 + herdTime s % 2 ^ 32 * 2 ^ 96)

/-! ## Queue registers -/

def getQueue (s : State) (c q : Nat) : QueueSt := mgetD s.queues (c * 8 + q) {}
def putQueue (s : State) (c q : Nat) (x : QueueSt) : State :=
  { s with queues := mput s.queues (c * 8 + q) x }

/-- Entries of a queue's rings (R145: below 4 acts as 4). -/
def ringSize (s : State) (c q : Nat) : Nat :=
  2 ^ min (max (fgeti s (pgCTX c) F.QCFG_SIZE_LOG2 q) 4) 15

/-- QDB.TAIL is written (R146). -/
def doorbell (s : State) (c q tail : Nat) : State :=
  let head := fgeti s (pgCTX c) F.QSTS_HEAD q
  if ringSize s c q < (tail + 65536 - head) % 65536 then fputi s (pgCTX c) F.QSTS_DB_OVERRUN q 1
  else putQueue s c q { getQueue s c q with tail := tail % 65536 }

/-- A write of QDB.TAIL advances the queue's tail, or is discarded with DB_OVERRUN. -/
def execQueueDoorbell (src : Src) (ctx q : Nat) (tail : BitVec 16) (s : State) : Out :=
  .next (if ctx < 512 ∧ q < 8 then withPage s src (pgCTX ctx) fun s => doorbell s ctx q tail.toNat else s)

/-- A write of QCFG.ENABLE starts or stops fetching; what was dispatched runs on (R146). -/
def execQueueEnableWrite (src : Src) (ctx q : Nat) (enable : Bool) (s : State) : Out :=
  .next (if ctx < 512 ∧ q < 8 then
    withPage s src (pgCTX ctx) fun s => fputi s (pgCTX ctx) F.QCFG_ENABLE q (bitN enable) else s)

/-- A write of the TALLY_ADD register, whatever the tally's generation (R150, R155). -/
def execTallyAddReg (src : Src) (ctx tally : Nat) (amount : BitVec 32) (s : State) : Out :=
  .next (if ctx < 512 ∧ tally < 64 then
    withPage s src (pgCTX ctx) fun s => tallyAdd s ctx tally amount.toNat else s)

/-! ## Fetch -/

/-- The fold of a context may work: it is enabled, is not resetting and waits on no fold-reach fault (R239,
R464, R465), and no package-fatal fault has stopped the queues (R474). -/
def foldFetches (s : State) (f : Nat) : Bool :=
  foldActive s f && !fbit s (pgFOLD f) F.FOLD_STS_RESETTING &&
    !(fget s pgFLT F.FLT_FOLDFATAL_FOLD).testBit f && !fbit s pgFLT F.FLT_STS_PKG_FATAL

/-- The undispatched head of a queue, if it has been fetched. -/
def queueHead (s : State) (c q : Nat) : Option Cmd :=
  s.cmds.find? fun x => x.id.ctx == c && x.id.q == q && (x.phase == .head || x.phase == .ready)

/-- Append a fetched command and advance HEAD by the entries it takes. -/
def pushCmd (s : State) (c q head n : Nat) (x : Cmd) : State :=
  fputi { s with cmds := s.cmds ++ [x], stamp := s.stamp + 1 } (pgCTX c) F.QSTS_HEAD q (head + n)

/-- The place of a queue's HEAD entry, as the context sees it (R146). -/
def entryVa (s : State) (c q : Nat) : Nat :=
  fpair s (pgCTX c) F.QBASE_LO_BASE_LO F.QBASE_HI_BASE_HI q + fgeti s (pgCTX c) F.QSTS_HEAD q % ringSize s c q * 64

/-- The front-end fetches the entry at HEAD through the queue's stream (R146, R312, R578); `resp` is what memory or
the other package answered. -/
def queueFetch (s : State) (c q : Nat) (resp : LineResp) : State :=
  let head := fgeti s (pgCTX c) F.QSTS_HEAD q
  let tail := (getQueue s c q).tail
  let avail := (tail + 65536 - head) % 65536
  let fetches := match ctxFold s c with | some f => foldFetches s f | none => false
  if !(fetches && fbit s (pgCTX c) F.CTX_CFG_ENABLE && fbiti s (pgCTX c) F.QCFG_ENABLE q) then s
  else if avail = 0 || (queueHead s c q).isSome then s
  else
    let x : StreamId := .queue c q
    let va := entryVa s c q
    let blank : Cmd := { id := ⟨c, q, head⟩, word := 0, entry := head, stamp := s.stamp }
    match streamRead s x {} c .rd resp [(va, 64)] [] false with
    | (s', none) => s'
    | (s', some (.error codes)) => pushCmd s' c q head 1 { blank with failed := some (highest codes, false) }
    | (s', some (.ok (bs, poison))) =>
      let w := BitVec.ofNat 512 (leNat bs)
      let cmd := { blank with word := w }
      if poison then pushCmd s' c q head 1 { blank with failed := some (stPOISON, false) }
      else if !w.toNat.testBit 11 || head % 4 != 0 then pushCmd s' c q head 1 cmd
      else if avail < 4 then s'
      else
        match streamRead s' x {} c .rd resp [(va + 64, 192)] [] false with
        | (s2, none) => s2
        | (s2, some (.error codes)) => pushCmd s2 c q head 4 { cmd with failed := some (highest codes, true) }
        | (s2, some (.ok (ps, poison2))) =>
          if poison2 then pushCmd s2 c q head 4 { cmd with failed := some (stPOISON, true) }
          else pushCmd s2 c q head 4 { cmd with payload := ps }

/-- A front-end fetches a queue entry; an entry that cannot be read completes with the code of its fetch; `q.resp` is
what memory or the other package answers. -/
def execQueueFetch (ctx : Nat) (q : QueueAns) (s : State) : Out :=
  .next (if ctx < 512 ∧ q.q < 8 then queueFetch s ctx q.q q.resp else s)

/-! ## Dispatch -/

/-- The unit input a command waits at (R143); none for what the front-end or the context's sequencer runs
itself. -/
def inputOf (s : State) (c : Cmd) : Option UnitId :=
  let op := cOp c
  let t := if c.phase == .head || c.phase == .ready then fgeti s (pgCTX c.id.ctx) F.QCFG_HOME_TILE c.id.q
    else c.tile
  let d := cDie c
  let p := cPen c
  if op = 0x10 then (if p < 9 then some (.pen d p) else none)
  else if op = 0x11 then (if p < 9 then some (.list d p) else none)
  else if op = 0x18 ∨ op = 0x19 then
    (if p < 9 then some (.array ⟨d, p, cbits c 130 128, c.word.toNat.testBit 131,
      if c.word.toNat.testBit 131 then cbits c 133 132 else 0⟩) else none)
  else if 0x30 ≤ op ∧ op ≤ 0x3F then some (.drover t 0)
  else if 0x40 ≤ op ∧ op ≤ 0x44 then some (.coll t 0)
  else if 0x60 ≤ op ∧ op ≤ 0x63 then some (.etch t 0)
  else none

/-- The opcodes of R143 and of the chapters it names. -/
def knownOp (op : Nat) : Bool :=
  [0x00, 0x10, 0x11, 0x18, 0x19, 0x20, 0x21, 0x22, 0x28, 0x29, 0x30, 0x31, 0x32, 0x34, 0x35, 0x38, 0x39,
    0x3A, 0x40, 0x41, 0x42, 0x43, 0x44, 0x60, 0x61, 0x62, 0x63, 0x64, 0x68, 0x70, 0x72, 0x73].contains op

/-- A command that fails before any unit sees it: an unknown opcode (R143), EXT against R312, or a pen the
die does not have. -/
def badHead (c : Cmd) : Bool :=
  !knownOp (cOp c) || (cExt c && (cOp c != 0x70 || c.entry % 4 != 0)) || (!cExt c && cOp c == 0x70) ||
    ([0x10, 0x11, 0x18, 0x19].contains (cOp c) && 9 ≤ cPen c)

/-- The completion ring has room (R148) and no record is held (R579). -/
def postRoom (s : State) (c q : Nat) : Bool :=
  let cq := fgeti s (pgCTX c) F.CQHEAD q
  let x := getQueue s c q
  (x.disp + 65536 - cq) % 65536 < ringSize s c q && !fbiti s (pgCTX c) F.QSTS_CPL_ERR q && x.held.isNone

/-- Dispatch the head: it leaves the queue for its unit or front-end. -/
def dispatchCmd (s : State) (c : Cmd) (ph : Phase) (engine : Nat) : State :=
  let x := getQueue s c.id.ctx c.id.q
  let s := putQueue s c.id.ctx c.id.q { x with disp := (x.disp + 1) % 65536 }
  let s := fputi (fputi s (pgCTX c.id.ctx) F.QSTS_BLOCKED c.id.q 0) (pgCTX c.id.ctx) F.QSTS_AGED c.id.q 0
  updCmd { s with stamp := s.stamp + 1 } c.id fun x =>
    { x with phase := ph, stamp := s.stamp, engine := engine, die := cDie x, pen := cPen x
             tile := fgeti s (pgCTX c.id.ctx) F.QCFG_HOME_TILE c.id.q }

/-- The head waits on FENCE, TALLY_WAIT or GEN_FENCE (R145). -/
def blockHead (s : State) (c : Cmd) : State := fputi s (pgCTX c.id.ctx) F.QSTS_BLOCKED c.id.q 1

/-- The tally a TALLY_WAIT waits for has reached its target, now or while it waited (R151). -/
def tallyReached (s : State) (c : Cmd) : Bool :=
  c.met || cbits c 255 192 ≤ (getTally s c.id.ctx (cbits c 133 128)).val.toNat

/-- The units that a GEN_FENCE or RETIRE names (R580): the die and, for a pen group page, the pen. -/
def genGroup (c : Cmd) : Option (Nat × Option Nat) :=
  let page := cbits c 147 128
  if perDie (blkOf page) = 0 then none
  else
    let x := slotOf page
    if 0xE00 ≤ x ∧ x < 0xF00 ∧ x % 16 < 9 then some ((x - 0xE00) / 16, some (x % 16))
    else if 0xF00 ≤ x ∧ x < 0xF10 then some (x - 0xF00, none)
    else none

/-- A dispatched command that runs on the pens of the group. -/
def inGroup (g : Nat × Option Nat) (x : Cmd) : Bool :=
  [0x10, 0x11, 0x18, 0x19].contains (cOp x) && x.die == g.1 && (match g.2 with | some p => x.pen == p | none => true)

/-- A pen lies in the group. -/
def penIn (g : Nat × Option Nat) (d p : Nat) : Bool := d == g.1 && (match g.2 with | some q => p == q | none => true)

/-- The descriptors that the units of a group still hold, waiting or running. -/
def groupIssues (s : State) (g : Nat × Option Nat) : List Issue :=
  (s.arrs.flatMap fun e =>
    if penIn g (e.1 / 5 / 8 / 9) (e.1 / 5 / 8 % 9) then
      e.2.fifo ++ e.2.back ++ e.2.passes.map (·.iss) ++ e.2.again.map (·.iss) ++ e.2.late.map (·.1)
    else []) ++
  s.hatches.flatMap fun e =>
    if penIn g (e.1 / 9) (e.1 % 9) then e.2.fifo ++ (e.2.run.map (·.iss)).toList else []

/-- The descriptor was issued by a core whose PEN_RUN was dispatched after the fence. -/
def issuedLater (s : State) (c : Cmd) (x : Issue) : Bool :=
  match x.by_ with
  | .core k => (match mget s.preps (k.die * 36 + k.pen * 4 + k.k) with
    | some r => (match findCmd s r.cmd with | some y => c.stamp ≤ y.stamp | none => false)
    | none => false)
  | _ => false

/-- Every command of the context dispatched to the group before the fence with another generation has posted, and no
descriptor that its cores issued is left (R156): no result of an older generation can arrive. -/
def genFenceOk (s : State) (c : Cmd) : Bool :=
  match genGroup c with
  | none => true
  | some g =>
    (s.cmds.all fun x =>
      !(x.id.ctx == c.id.ctx && inGroup g x && cGen x != cbits c 167 160 && x.stamp < c.stamp &&
        x.phase != .head && x.phase != .ready)) &&
    (groupIssues s g).all fun x => !(x.ctx == c.id.ctx && x.gen != cbits c 167 160) || issuedLater s c x

/-- The queue's head is dispatched once it is eligible (R147, R148): a front-end command to its front-end, a
unit command to the arbitration of its unit's input (R149). A malformed head completes in its place. -/
def queueDispatch (s : State) (c q : Nat) : State :=
  match queueHead s c q with
  | none => s
  | some x =>
    if x.phase != .head || !postRoom s c q then s
    else if !fenceOk s x then blockHead s x
    else match x.failed with
      | some (code, _) => finishCmd (dispatchCmd s x .granted 0) x.id (resOf [code])
      | none =>
        if badHead x then rejectCmd (dispatchCmd s x .granted 0) x.id stBAD
        else if cOp x = 0x20 ∧ !tallyReached s x then blockHead s x
        else if cOp x = 0x28 ∧ !genFenceOk s x then blockHead s x
        else match inputOf s x with
          | none => dispatchCmd s x .granted 0
          | some _ => updCmd { s with stamp := s.stamp + 1 } x.id fun y =>
              { y with phase := .ready, stamp := s.stamp }

def execQueueDispatch (ctx q : Nat) (s : State) : Out :=
  .next (if ctx < 512 ∧ q < 8 then queueDispatch s ctx q else s)

/-! ## Arbitration at a unit input -/

/-- A fold's quantum: SHARE × 256 B a round; 16 stands for the system share of 1/64 (R258). -/
def quantum (s : State) (f : Nat) : Nat :=
  if f = 16 then 256 else fget s (pgFOLD f) F.FOLD_SHARE_SHARE * 256

/-- The deficit of a fold that the turn reaches (R258): it receives its quantum, but one without work keeps no credit, only
what is left of a debt from grants out of turn (R39). -/
def drrReach (q : Nat → Nat) (size : Nat → Option Nat) (a : Arb) (n : Nat) : Int :=
  let d := mgetD a.deficit n 0 + Int.ofNat (q n)
  if (size n).isSome then d else min d 0

/-- Serve the folds in turn: a fold whose deficit covers its head is granted; otherwise the turn passes on (R258). -/
def drrGo (q : Nat → Nat) (size : Nat → Option Nat) : Nat → Arb → Option (Nat × Arb)
  | 0, _ => none
  | k + 1, a =>
    let d := mgetD a.deficit a.cur 0
    let here : Option Nat := if q a.cur = 0 then none else size a.cur
    match here with
    | some b =>
      if Int.ofNat b ≤ d then
        some (a.cur, { a with deficit := mput a.deficit a.cur (d - Int.ofNat b) })
      else
        let n := (a.cur + 1) % 17
        drrGo q size k { a with cur := n, deficit := mput a.deficit n (drrReach q size a n) }
    | none =>
      let n := (a.cur + 1) % 17
      drrGo q size k { a with cur := n, deficit := mput a.deficit n (drrReach q size a n) }

/-- Round robin: the least number above the pointer, else the least. -/
def rrPick (ptr : Nat) (xs : List Nat) : Option Nat :=
  let least (l : List Nat) : Option Nat := l.foldl (fun m x => match m with
    | none => some x
    | some y => some (min x y)) none
  (least (xs.filter fun x => ptr < x)).orElse fun _ => least xs

/-- Turns enough for the deficit of every fold that has work to cover its head. -/
def drrTurns (q : Nat → Nat) (a : Arb) (cands : List (Nat × Nat)) : Nat :=
  17 * (3 + cands.foldl (fun m c => max m ((Int.ofNat c.2 - mgetD a.deficit c.1 0).toNat / q c.1)) 0)

/-- Pick a fold by deficit round robin; a fold of share 0 is served only when no other has work (R258). -/
def drrPick (q : Nat → Nat) (a : Arb) (cands : List (Nat × Nat)) : Option (Nat × Arb) :=
  let size (f : Nat) : Option Nat := (cands.find? fun c => c.1 == f).map (·.2)
  if cands.any fun c => q c.1 != 0 then drrGo q size (drrTurns q a cands) a
  else
    match rrPick (mgetD a.rr 100 0) (cands.map fun c => c.1 + 1) with
    | none => none
    | some f => some (f - 1, { a with rr := mput a.rr 100 f })

/-- Charge a grant made out of turn to its fold (R39, R149). -/
def drrCharge (a : Arb) (f bytes : Nat) : Arb :=
  { a with deficit := mput a.deficit f (mgetD a.deficit f 0 - Int.ofNat bytes) }

/-- The number under which an arbiter is held: unit inputs below 65536, hub outputs above. -/
def unitKey (u : UnitId) : Nat :=
  match u with
  | .array a => 1000 + ((a.die * 9 + a.pen) * 8 + a.arr) * 5 + (if a.quarter then a.qid + 1 else 0)
  | .hatch d p => 10000 + d * 9 + p
  | .vec d p => 10200 + d * 9 + p
  | .list d p => 10400 + d * 9 + p
  | .pen d p => 10600 + d * 9 + p
  | .prep c => 11000 + (c.die * 9 + c.pen) * 4 + c.k
  | .drover t _ => 12000 + t
  | .etch t _ => 12010 + t
  | .coll t _ => 12020 + t
  | .frontEnd t => 12030 + t
  | .remote t => 12040 + t

/-- An engine of a tile's pool holds a command. -/
def engineBusy (s : State) (u : UnitId) (e : Nat) : Bool :=
  s.cmds.any fun x => (x.phase == .granted || x.phase == .running) && x.engine == e &&
    (match inputOf s x with | some v => unitKey v == unitKey u | none => false)

/-- The engine moves a chunk (R228, R232). -/
def engineMoves (s : State) (u : UnitId) (e : Nat) : Bool :=
  match u with
  | .drover t _ => s.moves.any fun m => m.tile == t && m.engine == e
  | _ => false

/-- An engine that the Sheepdog has taken offline (R460). -/
def engineOffline (s : State) (u : UnitId) (e : Nat) : Bool :=
  match u with
  | .drover t _ => (mget s.offline (pgDRV t e)).isSome
  | .etch t _ => (mget s.offline (pgETCH t e)).isSome
  | .coll t _ => (mget s.offline (pgCOLL t e)).isSome
  | _ => false

/-- Engines of each shared pool of a tile (R26). -/
def poolSize (u : UnitId) : Nat :=
  match u with
  | .drover _ _ => 16 | .etch _ _ => 8 | .coll _ _ => 2 | _ => 1

/-- The lowest-numbered free engine of a pool (R212, R400), or 0 where the unit is one. -/
def freeEngine (s : State) (u : UnitId) : Option Nat :=
  (List.range (poolSize u)).find? fun e =>
    !engineBusy s u e && !engineMoves s u e && !engineOffline s u e

/-- The engine number of a command that holds none. -/
def noEngine : Nat := 255

/-- Drover engines of a tile that a fold holds (R260). -/
def droverHeld (s : State) (t f : Nat) : Nat :=
  (s.moves.filter fun m => m.tile == t && m.fold == f).length +
  (s.cmds.filter fun x => x.engine != noEngine && (x.phase == .granted || x.phase == .running) && ctxFold s x.id.ctx == some f &&
    (match inputOf s x with | some (.drover t' _) => t' == t | _ => false)).length

/-- The fold may take another Drover engine of the tile (R260: 0 acts as 1, above 16 as 16). -/
def droverCapOk (s : State) (t f : Nat) : Bool :=
  droverHeld s t f < min (max (fget s (pgFOLD f) F.FOLD_SHARE_DRV_CAP) 1) 16

/-- An ETCH_RUN with a wait condition (R413). -/
def poolWaits (c : Cmd) : Bool := cOp c == 0x60 && (cbits c 177 176 == 1 || cbits c 177 176 == 2)

/-- Entries of a tile's run pool (R413). -/
def poolCount (s : State) (t : Nat) : Nat :=
  (s.cmds.filter fun x => (x.phase == .granted || x.phase == .running) && poolWaits x &&
    x.engine == noEngine && x.tile == t).length

/-- Collective commands of the package in flight (R380). -/
def collInFlight (s : State) : Nat :=
  (s.cmds.filter fun x => (x.phase == .granted || x.phase == .running) && 0x40 ≤ cOp x && cOp x ≤ 0x44).length

/-- The unit's input has room for this command (R147): a pooled engine is free and the fold below its cap, or
the unit's input slot is empty. An ETCH_RUN with a wait condition goes to the run pool, which has its own
room (R400, R413); collectives share their engines, 16 at a time (R380). -/
def inputRoom (s : State) (u : UnitId) (c : Cmd) : Bool :=
  match u with
  | .drover t _ => (freeEngine s u).isSome &&
      (match ctxFold s c.id.ctx with | some f => droverCapOk s t f | none => true)
  | .etch t _ => if poolWaits c then poolCount s t < 64 else (freeEngine s u).isSome
  | .coll _ _ => collInFlight s < 16
  | _ => !s.cmds.any fun x => x.phase == .granted &&
      (match inputOf s x with | some v => unitKey v == unitKey u | none => false)

/-- Bytes a grant charges: the command's queue entries. -/
def cmdBytes (c : Cmd) : Nat := if cExt c then 256 else 64

/-- A unit input grants one eligible queue head (R149). -/
def unitGrant (s : State) (u : UnitId) : State :=
  let a := mgetD s.arbs (unitKey u) {}
  let foldOf (c : Cmd) : Nat := (ctxFold s c.id.ctx).getD 16
  let cands := s.cmds.filter fun c => c.phase == .ready && postRoom s c.id.ctx c.id.q &&
    (match inputOf s c with | some v => unitKey v == unitKey u | none => false) && inputRoom s u c
  let eng (c : Cmd) := match u with
    | .coll _ _ => noEngine
    | .etch _ _ => if poolWaits c then noEngine else (freeEngine s u).getD 0
    | _ => (freeEngine s u).getD 0
  let grant (c : Cmd) (a : Arb) (s : State) : State :=
    dispatchCmd { s with arbs := mput s.arbs (unitKey u) a } c .granted (eng c)
  let aged := cands.filter fun c => fbiti s (pgCTX c.id.ctx) F.QSTS_AGED c.id.q
  match aged with
  | c0 :: rest =>
    let c := rest.foldl (fun m x => if x.stamp < m.stamp then x else m) c0
    bump (grant c (drrCharge a (foldOf c) (cmdBytes c)) s) (pgCTX c.id.ctx) 9
  | [] =>
    let cls (c : Cmd) : Nat := fgeti s (pgCTX c.id.ctx) F.QCFG_CLASS c.id.q
    let top := cands.foldl (fun m c => max m (cls c)) 0
    let best := cands.filter fun c => cls c == top
    let qn (c : Cmd) : Nat := c.id.ctx * 8 + c.id.q + 1
    let pick (f : Nat) : Option Cmd :=
      let mine := best.filter fun c => foldOf c == f
      match rrPick (mgetD a.rr f 0) (mine.map qn) with
      | none => none
      | some n => mine.find? fun c => qn c == n
    let folds := (List.range 17).filterMap fun f => (pick f).map fun c => (f, cmdBytes c)
    match drrPick (quantum s) a folds with
    | none => s
    | some (f, a) =>
      match pick f with
      | none => s
      | some c => grant c { a with rr := mput a.rr f (qn c) } s

/-- A unit input grants one eligible queue head by ageing, class, fold share and round robin. -/
def execUnitInputGrant (unit : UnitId) (s : State) : Out := .next (unitGrant s unit)

/-- A head that has been eligible and ungranted for longer than AGE_LIMIT microseconds becomes aged; 0
disables ageing (R145, R149). -/
def execQueueAged (ctx q waitedUs : Nat) (s : State) : Out :=
  .next (match queueHead s ctx q with
    | some x =>
      let lim := fgeti s (pgCTX ctx) F.QCFG_AGE_LIMIT q
      if x.phase == .ready && lim != 0 && lim < waitedUs then fputi s (pgCTX ctx) F.QSTS_AGED q 1 else s
    | none => s)

/-! ## Posting -/

/-- The oldest command of a queue. -/
def oldestCmd (s : State) (c q : Nat) : Option Cmd := s.cmds.find? fun x => x.id.ctx == c && x.id.q == q

/-- The place of a queue's next completion record, as the context sees it (R148). -/
def recordVa (s : State) (c q : Nat) : Nat :=
  fpair s (pgCTX c) F.CBASE_LO F.CBASE_HI q + (getQueue s c q).posted % ringSize s c q * 16

/-- Write one completion record through the queue's stream (R148, R579) and, when it is written, take the
command out, count it and raise the queue's interrupt (R521). A write that fails holds the record. -/
def postRecord (s : State) (c q : Nat) (rec : List Byte) (irq : Bool) (resp : LineResp) (done : State → State) :
    State :=
  let x := getQueue s c q
  let hold (s' : State) (code : Nat) : State :=
    let s' := putQueue s' c q { getQueue s' c q with held := some rec }
    raiseEvent (fputi (fputi s' (pgCTX c) F.QSTS_CPL_ERR q 1) (pgCTX c) F.QSTS_CPL_CODE q code) (pgCTX c)
  match streamWrite s (.queue c q) {} c .wr false resp [(recordVa s c q, 16)] rec false with
  | (s', none) => s'
  | (s', some (.error codes)) => hold s' (highest codes)
  | (s', some (.ok true)) => hold s' stPOISON
  | (s', some (.ok false)) =>
    let s' := done (putQueue s' c q { getQueue s' c q with held := none, posted := (x.posted + 1) % 65536 })
    let s' := bump s' (pgCTX c) q
    if irq then withIrq s' (pgCTX c) q fun s => forBits s (pgCTX c) F.IRQSTS_QUEUE (2 ^ q) else s'

/-- A completed command is posted once every earlier command of its queue has (R148). A record that was held is
written again once a write of CPL_ERR has asked for it, and waits until then (R579). -/
def completionPost (s : State) (c q : Nat) (resp : LineResp) : State :=
  match oldestCmd s c q with
  | none => s
  | some x =>
    let held := (getQueue s c q).held
    if x.phase != .done || (held.isSome && fbiti s (pgCTX c) F.QSTS_CPL_ERR q) then s
    else postRecord s c q (held.getD (cplRecord x)) (x.word.toNat.testBit 9) resp fun s =>
      { s with cmds := s.cmds.filter fun y => y.id != x.id }

/-- The oldest finished command of a queue posts its record; `q.resp` is what memory or the other package answers. -/
def execCompletionPost (ctx : Nat) (q : QueueAns) (s : State) : Out :=
  .next (if ctx < 512 ∧ q.q < 8 then completionPost s ctx q.q q.resp else s)

/-- A write of 1 to CPL_ERR clears it and writes the held record again (R579); a ring in a remote window is answered
at the next COMPLETION_POST. -/
def cplRetry (s : State) (c q : Nat) : State :=
  match (getQueue s c q).held, oldestCmd s c q with
  | some rec, some x =>
    postRecord (fputi s (pgCTX c) F.QSTS_CPL_ERR q 0) c q rec (x.word.toNat.testBit 9) .ok fun s =>
      { s with cmds := s.cmds.filter fun y => y.id != x.id }
  | _, _ => fputi s (pgCTX c) F.QSTS_CPL_ERR q 0

def execCplErrRetry (src : Src) (ctx q : Nat) (s : State) : Out :=
  .next (if ctx < 512 ∧ q < 8 then withPage s src (pgCTX ctx) fun s => cplRetry s ctx q else s)

/-! ## The commands of the front-end -/

/-- NOP does nothing except complete. -/
def execNop (c : CmdId) (s : State) : Out :=
  .next (withCmd s c 0x00 fun x =>
    acceptCmd s c (!reservedOk x.word.toNat []) false false fun _ => finishCmd s c {})

/-- TALLY_WAIT completes once VALUE ≥ target (R151); a head that still waits is held. -/
def execTallyWait (c : CmdId) (s : State) : Out :=
  .next (match findCmd s c with
    | some x =>
      if x.phase == .head && cOp x == 0x20 then queueDispatch s c.ctx c.q
      else withCmd s c 0x20 fun x =>
        acceptCmd s c (!reservedOk x.word.toNat [(133, 128), (255, 192)]) false false fun _ =>
          finishCmd s c {}
    | none => s)

/-- TALLY_ADD adds an amount, regardless of generation (R150). -/
def execTallyAdd (c : CmdId) (s : State) : Out :=
  .next (withCmd s c 0x21 fun x =>
    acceptCmd s c (!reservedOk x.word.toNat [(133, 128), (255, 192)]) false false fun _ =>
      finishCmd (tallyAdd s c.ctx (cbits x 133 128) (cbits x 255 192)) c {})

/-- TALLY_SET sets a tally's value and generation together; under the same generation it may not lower the
value (R150, R153). -/
def execTallySet (c : CmdId) (s : State) : Out :=
  .next (withCmd s c 0x22 fun x =>
    let t := getTally s c.ctx (cbits x 133 128)
    let low := cbits x 263 256 == t.gen && cbits x 255 192 < t.val.toNat
    acceptCmd s c (!reservedOk x.word.toNat [(133, 128), (255, 192), (263, 256)]) false low fun _ =>
      finishCmd (tallySet s c.ctx (cbits x 133 128) (cbits x 255 192) (cbits x 263 256)) c {})

/-- GEN_FENCE completes once every older-generation command dispatched to the group has posted (R156,
R580); a head that still waits is held. -/
def execGenFence (c : CmdId) (s : State) : Out :=
  .next (match findCmd s c with
    | some x =>
      if x.phase == .head && cOp x == 0x28 then queueDispatch s c.ctx c.q
      else withCmd s c 0x28 fun x =>
        acceptCmd s c (!reservedOk x.word.toNat [(147, 128), (167, 160)] || (genGroup x).isNone) false
          false fun _ => finishCmd s c {}
    | none => s)

end Sys2Proof.Machine
end

