-- ==== Sys2Proof/Machine/Array.lean ====
section
/-! DEFINITION. The matrix arrays (chapter 3): acceptance of a pass (R97, R140, R153), its stationary sets and
banks (R100 to R104), wavefronts and accumulator updates (R92, R94, R98, R99, R105 to R109), the drain
(R110, R141), quarter mode (R111, R112), freeze (R113), preemption and resume (R114 to R120, R577). -/

namespace Sys2Proof.Machine

open Sys2Proof

/-! ## Units and stores -/

/-- The number of a unit among arrays and quarters, and of its array. -/
def arrKey (d p a : Nat) : Nat := (d * 9 + p) * 8 + a
def arrUnit (u : ArrayUnit) : Nat := arrKey u.die u.pen u.arr * 5 + (if u.quarter then u.qid + 1 else 0)

def getArr (s : State) (u : ArrayUnit) : ArrSt := mgetD s.arrs (arrUnit u) {}
def putArr (s : State) (u : ArrayUnit) (x : ArrSt) : State := { s with arrs := mput s.arrs (arrUnit u) x }
def getCtl (s : State) (d p a : Nat) : ArrCtl := mgetD s.arrCtl (arrKey d p a) {}
def putCtl (s : State) (d p a : Nat) (x : ArrCtl) : State :=
  { s with arrCtl := mput s.arrCtl (arrKey d p a) x }

/-- A unit whose numbers name an array or quarter of the package. -/
def unitOk (u : ArrayUnit) : Bool :=
  u.die < 16 && u.pen < 9 && u.arr < 8 && (if u.quarter then u.qid < 4 else u.qid == 0)

/-- Rows and columns of a unit (R91, R111), and the cycles from row 0 to the accumulators (R98). -/
def side (q : Bool) : Nat := if q then 16 else 32
def tailOf (q : Bool) : Nat := if q then 31 else 63

def arrStorePa (d p a : Nat) : Nat := spadBase + d * 0x8000000 + (p * 8 + a) * 0x100000
def penStorePa (d p : Nat) : Nat := spadBase + d * 0x8000000 + 0x4800000 + p * 0x400000
def dieStorePa (d : Nat) : Nat := spadBase + d * 0x8000000 + 0x6C00000

/-! ## The pass descriptor (R140) -/

def dbits (x : Issue) (hi lo : Nat) : Nat := bits x.desc.toNat hi lo

def pQuarter (x : Issue) : Bool := dbits x 11 11 == 1
def pFmtW (x : Issue) : Nat := dbits x 18 14
def pFmtX (x : Issue) : Nat := dbits x 23 19
def pSteps (x : Issue) : Nat := dbits x 31 24 + 1
def pVectors (x : Issue) : Nat := dbits x 42 32 + 1
def pKLast (x : Issue) : Nat := dbits x 50 43 + 1
def pNValid (x : Issue) : Nat := dbits x 55 51 + 1
def pReuse (x : Issue) : Bool := dbits x 56 56 == 1
def pMode (x : Issue) : Nat := dbits x 58 57
def pInit (x : Issue) : Nat := dbits x 60 59
def pAccBase (x : Issue) : Nat := dbits x 74 64
def pDrain (x : Issue) : Bool := dbits x 75 75 == 1
def pDstFmt (x : Issue) : Nat := dbits x 82 78
def pSat (x : Issue) : Bool := dbits x 83 83 == 1
def pSr (x : Issue) : Bool := dbits x 84 84 == 1
def pReturn (x : Issue) : Bool := dbits x 85 85 == 1
def pTW (x : Issue) : Word := BitVec.ofNat 32 (dbits x 287 256)
def pTX (x : Issue) : Word := BitVec.ofNat 32 (dbits x 319 288)
def pTOut (x : Issue) : Word := BitVec.ofNat 32 (dbits x 351 320)
def pCoordBase (x : Issue) : Nat := dbits x 439 384
def pCoordPitch (x : Issue) : Nat := dbits x 463 440

/-- The unit a pass descriptor of a pen names. -/
def passUnit (d p : Nat) (x : Issue) : ArrayUnit :=
  ⟨d, p, dbits x 10 8, pQuarter x, if pQuarter x then dbits x 13 12 else 0⟩

/-- Accumulator rows of a unit under a mode (R107). -/
def accCapacity (q : Bool) (mode : Nat) : Nat :=
  (if q then 1024 else 2048) / (if mode = 0 then 1 else 2)

/-- Bytes of one drained row's elements: the valid columns of a plain format, every column of a block format
(R110). -/
def drainRowBytes (x : Issue) : Nat :=
  let f := pDstFmt x
  if isBlock f then side (pQuarter x) * elemBits f / 8 else pNValid x * elemBits f / 8

/-- Scale bytes of one drained row. -/
def drainScaleBytes (x : Issue) : Nat :=
  if isBlock (pDstFmt x) then side (pQuarter x) / blockElems (pDstFmt x) else 0

/-- Rows that the drain writes: in mode 0b10 the err rows follow the acc rows. -/
def drainRows (x : Issue) : Nat := if pMode x = 2 then 2 * pVectors x else pVectors x

/-- Physical base and size of the store a drain names (R140, R162): the own store of the array that runs the pass, its
pen's or its die's. -/
def drainStore (d p a : Nat) (x : Issue) : Nat × Nat :=
  match dbits x 77 76 with
  | 0 => (arrStorePa d p a, 0x100000)
  | 1 => (penStorePa d p, 0x400000)
  | _ => (dieStorePa d, 0x1000000)

/-- Scales per stationary set and per stream vector of one operand (R93, R96): one per block of the
reduction elements of a step. -/
def stepScales (fmt k n : Nat) : Nat := if isBlock fmt then n * k / blockElems fmt else 0

/-- The drain fields, checked only while the drain is enabled (R110): BAD_DESC. -/
def drainBad (d p : Nat) (x : Issue) : Bool :=
  pDrain x && (dbits x 77 76 == 3 || !fmtKnown (pDstFmt x) || (pDstFmt x == 0x0B && !sb4ScaleOk (pTOut x)) ||
    (drainStore d p (dbits x 10 8) x).2 < dbits x 483 464 * 16 + (drainRows x - 1) * (dbits x 95 86 * 16) + drainRowBytes x ||
    (drainStore d p (dbits x 10 8) x).2 < dbits x 503 484 * 16 + drainRows x * drainScaleBytes x)

/-- The drain formats that complete with UNSUPPORTED, and the coordinate bound of R88. -/
def drainUnsup (x : Issue) : Bool :=
  pDrain x && (pDstFmt x == 0x0C || pDstFmt x == 0x0D ||
    (pQuarter x && isBlock (pDstFmt x) && pDstFmt x != 0x0B) || (pMode x == 2 && pDstFmt x != 0x00) ||
    (pSr x && 2 ^ 56 ≤ pCoordBase x + (pVectors x - 1) * pCoordPitch x + pNValid x - 1))

/-- A store range of an operand runs past the 1 MiB array store (R95); base and stride in 16 B units. -/
def pastStore (base off bytes : Nat) : Bool := 0x100000 < base * 16 + off + bytes

/-- The range checks that depend on the operand class (R97). The scales of a plain format are a range of no bytes, whose
offset is checked all the same, and the sets that a REUSE pass does not load are not checked (DESIGN CHOICE,
notes/assumptions/131.md). -/
def operandBad (x : Issue) : Bool :=
  let k := fmtClass (pFmtW x)
  let n := side (pQuarter x)
  let s1 := pSteps x - 1
  let m1 := pVectors x - 1
  n * k < pKLast x ||
    (!pReuse x && (pastStore (dbits x 111 96) (s1 * dbits x 127 112 * 16) (n * n * 4) ||
      pastStore (dbits x 143 128) (s1 * dbits x 159 144 * 16) (stepScales (pFmtW x) k n * n))) ||
    pastStore (dbits x 175 160) (m1 * dbits x 191 176 * 16 + s1 * dbits x 207 192 * 16) (n * 4) ||
    pastStore (dbits x 223 208) (m1 * stepScales (pFmtX x) k n + s1 * dbits x 239 224 * 16)
      (stepScales (pFmtX x) k n)

/-- BAD_DESC of a pass (R97, R140). -/
def passBad (d p : Nat) (x : Issue) : Bool :=
  let q := pQuarter x
  let cap := accCapacity q (pMode x)
  dbits x 7 0 != 0x50 || dbits x 63 61 != 0 || dbits x 511 504 != 0 || (!q && dbits x 13 12 != 0) ||
    !fmtKnown (pFmtW x) || !fmtKnown (pFmtX x) || pMode x == 3 || pInit x == 3 ||
    (q && 16 < pNValid x) || cap < pVectors x || cap < pAccBase x + pVectors x ||
    (pFmtW x == 0x0B && !sb4ScaleOk (pTW x)) || (pFmtX x == 0x0B && !sb4ScaleOk (pTX x)) ||
    (pInit x == 2 && pastStore (dbits x 255 240) 0
      (pVectors x * (if pMode x = 0 then 1 else 2) * side q * 4)) ||
    (fmtClass (pFmtW x) == fmtClass (pFmtX x) && fmtClass (pFmtW x) != 0 && operandBad x) ||
    drainBad d p x

/-- UNSUPPORTED of a pass (R75, R110, R122, R163). -/
def passUnsup (s : State) (d p : Nat) (x : Issue) : Bool :=
  fmtClass (pFmtW x) == 0 || fmtClass (pFmtX x) == 0 || fmtClass (pFmtW x) != fmtClass (pFmtX x) ||
    !arrayExists s.fuse.gradeB (d * 72 + p * 8 + dbits x 10 8) || drainUnsup x

/-- R104: the set to reuse was loaded last, by the same context, with the same FMT_W. -/
def reuseOk (a : ArrSt) (x : Issue) : Bool := pSteps x == 1 && a.lastLoad == some (x.ctx, pFmtW x)

/-- The accumulator rows of a pass. -/
def passRows (x : Issue) : List Nat := (List.range (pVectors x)).map fun i => pAccBase x + i

/-- The owner and mode of a row as a pass accepted now will find them: what the last accepted pass that initialises the
row makes of it, else what it is (R108). -/
def ownerThen (a : ArrSt) (row : Nat) : Option (Nat × Nat) :=
  match a.passes.reverse.find? fun p => pInit p.iss != 1 && !p.resumed &&
      pAccBase p.iss ≤ row && row < pAccBase p.iss + pVectors p.iss with
  | some p => some (p.iss.ctx, pMode p.iss)
  | none => mget a.owner row

/-- R108: every row of a KEEP pass is owned by its context and was last written in its mode. -/
def keepOk (a : ArrSt) (x : Issue) : Bool := (passRows x).all fun r => ownerThen a r == some (x.ctx, pMode x)

/-- STATE_ERROR of a pass (R111, R117, R153, R242). -/
def passState (s : State) (d p : Nat) (x : Issue) : Bool :=
  let u := passUnit d p x
  let a := getArr s u
  let c := getCtl s d p u.arr
  (match ctxFold s x.ctx with | some f => !foldHasDie s f d | none => true) ||
    c.offline || c.quarter != pQuarter x || (pReuse x && !reuseOk a x) || (pInit x == 1 && !keepOk a x) ||
    (pReturn x && !fbit s (pgCTX x.ctx) F.CTX_SAVE_HI_SAVE_VALID)

/-- The acceptance of a pass descriptor (R21). -/
def passCheck (s : State) (d p : Nat) (x : Issue) : Option Nat :=
  acceptance (passBad d p x) (passUnsup s d p x) (passState s d p x)

/-- An accepted pass joins the unit's passes, against which later descriptors are checked: the owners of its rows
(R108) and the set last loaded (R104). -/
def passClaim (a : ArrSt) (p : Pass) : ArrSt :=
  { a with passes := a.passes ++ [p], lastLoad := if pReuse p.iss then a.lastLoad else some (p.iss.ctx, pFmtW p.iss) }

/-! ## Ends of descriptors -/

/-- Every descriptor of a pen's list has ended: the list completes with the highest-ranked code, the index of
the first descriptor that reported it, and every condition met (R144, R152, R573). -/
def listCheckEnd (s : State) (d p : Nat) : State :=
  match mget s.lists (d * 9 + p) with
  | none => s
  | some l =>
    if l.results.length < l.descs.length then s
    else
      let code := highest (l.results.map fun r => r.2.code)
      let note := ((List.range l.descs.length).find? fun i =>
        l.results.any fun r => r.1 == i && r.2.code == code).getD 0
      let cond := l.results.foldl (fun m r => m ||| r.2.cond) 0
      let pg := pgPENPREP d p
      let s := fput (fput s pg F.LIST_STS_ACTIVE 0) pg F.LIST_STS_HELD 0
      finishCmd { s with lists := mdel s.lists (d * 9 + p) } l.cmd ⟨code, cond, note⟩

/-- A descriptor ends: its issuer is told (R130, R152, R154). -/
def descDone (s : State) (x : Issue) (r : Res) : State :=
  match x.by_ with
  | .cmd c => finishCmd s c r
  | .core c =>
    let k := slotOf (pgPREP c.die c.pen c.k)
    let st := mgetD s.preps k {}
    let rec_ := descRecord s (bits x.desc.toNat 7 0) x.idx x.gen x.ctx r
    countFault { s with preps := mput s.preps k { st with cpl := st.cpl ++ [rec_], reserved := st.reserved - 1 } } x.ctx r.code
  | .list d p =>
    match mget s.lists (d * 9 + p) with
    | none => s
    | some l =>
      listCheckEnd { s with lists := mput s.lists (d * 9 + p) { l with results := l.results ++ [(x.idx, r)] } }
        d p

/-- The records of descriptors that ended without running, once every earlier descriptor of the port has ended
(R130). -/
def flushLate (s : State) (u : ArrayUnit) : State :=
  let a := getArr s u
  let open_ (n : Nat) : Bool :=
    (a.passes.map (·.iss) ++ a.back ++ a.fifo ++ a.again.map (·.iss)).any fun x => x.num < n
  let go := a.late.takeWhile fun e => !open_ e.1.num
  let s := putArr s u { a with late := a.late.drop go.length }
  go.foldl (fun s e => descDone s e.1 e.2) s

/-- A descriptor that ends without running: a core's record, and what a list or command is told, wait for the earlier
descriptors of the port (R130). -/
def endUnrun (s : State) (u : ArrayUnit) (x : Issue) (r : Res) : State :=
  let a := getArr s u
  flushLate (putArr s u { a with late := a.late ++ [(x, r)] }) u

/-! ## Acceptance onto the array -/

/-- The list that holds an array (R152). -/
def heldByList (s : State) (d p a : Nat) : Bool :=
  match mget s.lists (d * 9 + p) with
  | some l => l.held.testBit a
  | none => false

/-- The array is frozen by a throttle (R113), or every array is, by a package-fatal fault (R474). -/
def arrFrozen (s : State) (d p a : Nat) : Bool := (getCtl s d p a).frozen || fbit s pgFLT F.FLT_STS_PKG_FATAL

/-- The array and quarter units of one array. -/
def unitsOf (d p a : Nat) : List ArrayUnit :=
  ⟨d, p, a, false, 0⟩ :: (List.range 4).map fun q => ⟨d, p, a, true, q⟩

/-- The self-check that a fault asks for runs once no pass is in flight on the array: the passes that the fault did not
abort, of other quarters, end first, while dispatch waits (R112, R117, R118; DEDUCED, notes/assumptions/133.md). -/
def checkRuns (s : State) (d p a : Nat) : Bool :=
  (getCtl s d p a).checking && (unitsOf d p a).all fun u => (getArr s u).passes.isEmpty

/-- Some array of the die is frozen by the duty cycle, which freezes all of a die's arrays in the same cycles (R438). -/
def dutyFrozen (s : State) (d : Nat) : Bool :=
  (List.range 9).any fun p => (List.range 8).any fun a => (getCtl s d p a).frozen

/-- The array runs no pass work now: it is frozen or offline (R113, R117), or every clock has stopped after a trip
(R442). While it checks itself it has no pass. -/
def arrStopped (s : State) (u : ArrayUnit) : Bool :=
  let c := getCtl s u.die u.pen u.arr
  arrFrozen s u.die u.pen u.arr || c.offline || clocksStopped s

/-- A pass whose every wavefront has entered. -/
def allEntered (p : Pass) : Bool := pSteps p.iss * pVectors p.iss ≤ p.entered

/-- A pass whose updates are done. -/
def allUpdated (p : Pass) : Bool := pSteps p.iss * pVectors p.iss ≤ p.updates

/-- A pass with nothing left to drain. -/
def allDrained (p : Pass) : Bool := !pDrain p.iss || drainRows p.iss ≤ p.drained

/-- A RESUME waits at the input of the unit (R147, R577). -/
def waitsAtInput (s : State) (u : ArrayUnit) (x : Cmd) : Bool :=
  cOp x == 0x19 && (x.phase == .ready || x.phase == .granted) &&
    (match inputOf s x with | some (.array v) => v == u | _ => false)

/-- A FIFO entry that goes before a pass that is to resume in place (R577). -/
def aheadOf (g : Again) (x : Issue) : Bool :=
  x.num < g.iss.num || (match x.by_ with | .cmd c => g.cmds.contains c | _ => false)

/-- The descriptor that may go next on a unit: one that a fault took back, the oldest of the FIFO, or a pass whose turn to
resume in place has come (R577); while a list holds the array, only the list's own (R152). -/
def unitNext (s : State) (u : ArrayUnit) : Option Issue :=
  let a := getArr s u
  let ok (x : Issue) : Bool := !heldByList s u.die u.pen u.arr || x.by_ == .list u.die u.pen
  match a.back.find? ok with
  | some x => some x
  | none =>
    match a.again.find? fun g => ok g.iss with
    | none => a.fifo.find? ok
    | some g =>
      match a.fifo.find? fun x => ok x && aheadOf g x with
      | some x => some x
      | none => if s.cmds.any fun x => g.cmds.contains x.id && waitsAtInput s u x then none else some g.iss

/-- Take a descriptor that goes next out of where it waits. -/
def unitDrop (a : ArrSt) (x : Issue) : ArrSt :=
  { a with
    back := a.back.filter fun y => y.num != x.num
    again := a.again.filter fun g => g.iss.num != x.num
    fifo := a.fifo.filter fun y => y.num != x.num }

/-- A descriptor written to a port that is not its target's: another array's or quarter's, or one of the
shape the array has while the descriptor names the other (R129). -/
def portBad (c : ArrCtl) (u : ArrayUnit) (x : Issue) : Bool :=
  let v := passUnit u.die u.pen x
  dbits x 7 0 != 0x50 || v.arr != u.arr || (u.quarter && v.quarter && v.qid != u.qid) ||
    (u.quarter != v.quarter && c.quarter == v.quarter)

/-- A pass descriptor reaches the array: checked under R21, refused by a fence (R510), or accepted. One
accepted pass may wait behind the one whose wavefronts enter (DESIGN CHOICE, notes/assumptions/12.md). -/
def passAccept (s : State) (u : ArrayUnit) : State :=
  let a := getArr s u
  let c := getCtl s u.die u.pen u.arr
  match unitNext s u with
  | none => s
  | some x =>
    if c.checking || x.slot.isSome || 2 ≤ (a.passes.filter fun p => !allEntered p).length then s
    else
      let s := putArr s u (unitDrop a x)
      match (if portBad c u x then some stBAD else passCheck s u.die u.pen x) with
      | some code => endUnrun s u x (reject code)
      | none =>
        let f := (ctxFold s x.ctx).getD 0
        if fenced s f then endUnrun s u x (resOf [stFENCED])
        else putArr s u (passClaim (getArr s u) { id := x.num, iss := x, fold := f })

/-- A pass descriptor at the head of an issue FIFO is checked and accepted onto its array or quarter. -/
def execPass (u : ArrayUnit) (s : State) : Out := .next (if unitOk u then passAccept s u else s)

/-! ## Stationary sets -/

/-- Update the pass with this id. -/
def updPass (a : ArrSt) (id : Nat) (f : Pass → Pass) : ArrSt :=
  { a with passes := a.passes.map fun p => if p.id == id then f p else p }

/-- The pass whose next set the staging buffer fetches: the first that still has one, unless a pass before
it waits to reuse the set last loaded. -/
def fetchFor : List Pass → Option Pass
  | [] => none
  | p :: t =>
    if p.stop.isSome then fetchFor t
    else if pReuse p.iss then (if p.entered = 0 || (p.resumed && !allEntered p) then none else fetchFor t)
    else if p.fetchStep < pSteps p.iss then some p
    else fetchFor t

/-- The array's own store is not to be reached now (R170, R178). -/
def arrStoreBusy (s : State) (u : ArrayUnit) : Bool := storeBusy s u.die ((u.pen * 8 + u.arr) * 0x100000) 1

/-- Fetch a stationary set and its scales from the array store (R96, R100). -/
def readSet (s : State) (u : ArrayUnit) (x : Issue) (pid step : Nat) : State × StatSet :=
  let n := side u.quarter
  let base := arrStorePa u.die u.pen u.arr
  let wpa := base + dbits x 111 96 * 16 + step * dbits x 127 112 * 16
  let spa := base + dbits x 143 128 * 16 + step * dbits x 159 144 * 16
  let ns := stepScales (pFmtW x) (fmtClass (pFmtW x)) n * n
  let w := paRead s 1 wpa (n * n * 4)
  let v := paRead w.1 1 spa ns
  (v.1, { forPass := pid, forStep := step, who := (x.ctx, pFmtW x), data := w.2.data, scales := v.2.data
          poison := w.2.poison || v.2.poison })

/-- The staging buffer fetches the next step's set once the staged one has been broadcast (R100). -/
def stationaryFetch (s : State) (u : ArrayUnit) : State :=
  let a := getArr s u
  if arrStopped s u || a.staging.isSome || arrStoreBusy s u then s
  else match fetchFor a.passes with
    | none => s
    | some p =>
      let r := readSet s u p.iss p.id p.fetchStep
      let a := updPass (getArr r.1 u) p.id fun p => { p with fetchStep := p.fetchStep + 1 }
      putArr r.1 u { a with staging := some r.2 }

def execStationaryFetch (u : ArrayUnit) (s : State) : Out :=
  .next (if unitOk u then stationaryFetch s u else s)

def getBank (a : ArrSt) (b : Nat) : StatSet := if b = 0 then a.bank0 else a.bank1
def putBank (a : ArrSt) (b : Nat) (x : StatSet) : ArrSt :=
  if b = 0 then { a with bank0 := x } else { a with bank1 := x }

/-- Wavefronts still to enter need the set in bank `b`: its own step, or a pass that reuses it. -/
def setNeeded (a : ArrSt) (b : Nat) : Bool :=
  let x := getBank a b
  0 < x.rows && a.passes.any fun p =>
    ((p.id == x.forPass && p.s ≤ x.forStep) || p.bank == some b) && !allEntered p && p.stop.isNone

/-- Broadcast the next row of the staged set into its bank (R101, R102): the bank not used by the set before
it, bank 0 first; row r no earlier than i_b + r + 31 (i_b + r + 15 in a quarter); rows in consecutive
cycles. The whole set counts as the bank's from row 0 on: no wavefront reaches a row before it is written. -/
def rowBroadcast (s : State) (u : ArrayUnit) (cyc : Nat) : State :=
  let a := getArr s u
  let n := side u.quarter
  match a.staging with
  | none => s
  | some x =>
    if arrStopped s u then s
    else if x.rows = 0 then
      let b := match a.bankLast with | none => 0 | some l => 1 - l
      let old := getBank a b
      let free := match old.lastEntry with | none => true | some i => i + (n - 1) ≤ cyc
      if setNeeded a b || !free || a.passes.any (fun p => p.id == x.forPass && p.stop.isSome) then s
      else
        let x := { x with rows := 1, row0 := cyc, before := a.bankLast }
        putArr s u { putBank a b x with bankLast := some b, staging := some x }
    else if cyc = x.row0 + x.rows then
      if x.rows + 1 = n then
        bump (putArr s u { a with staging := none }) (pgMXA u.die u.pen u.arr) 4
      else putArr s u { a with staging := some { x with rows := x.rows + 1 } }
    else s

def execStationaryRowBroadcast (u : ArrayUnit) (cyc : Nat) (s : State) : Out :=
  .next (if unitOk u then rowBroadcast s u cyc else s)

/-! ## Wavefronts -/

/-- Lane `j` of the 32-bit word at byte `at_` (R96). -/
def laneAt (bs : List Byte) (at_ k j : Nat) : Nat :=
  field bs at_ 4 / 2 ^ (32 / k * j) % 2 ^ (32 / k)

/-- The scale byte of reduction element `e` of one operand: stationary scales are g × n + c, stream scales g
(R96); a plain format has none. -/
def scaleAt (fmt : Nat) (scales : List Byte) (e stride c : Nat) : Nat :=
  if isBlock fmt then (lget scales (e / blockElems fmt * stride + c) 0).toNat else 0

/-- A NaN among an element and its scale. -/
def elemIsNan (fmt scale code : Nat) : Bool :=
  elemV fmt code == .nan || (isBlock fmt && scaleV fmt scale == .nan)

/-- The summation groups of column `c` for one wavefront, ascending; masked positions contribute nothing and
a wholly masked group is left out (R76, R92, R94, R105). -/
def columnGroups (x : Issue) (n kv c : Nat) (set : StatSet) (vec vsc : List Byte) : List (FpV × Bool) :=
  let fw := pFmtW x
  let fx := pFmtX x
  let k := fmtClass fw
  let gl := groupLen fw fx
  (List.range ((kv + gl - 1) / gl)).map fun g =>
    let es := (List.range gl).filterMap fun j => if g * gl + j < kv then some (g * gl + j) else none
    let ops := es.map fun e =>
      let wc := laneAt set.data (e / k * (4 * n) + 4 * c) k (e % k)
      let xc := laneAt vec (e / k * 4) k (e % k)
      let ws := scaleAt fw set.scales e n c
      let xs := scaleAt fx vsc e 1 0
      ((operandV fw ws (pTW x) wc, operandV fx xs (pTX x) xc),
        elemIsNan fw ws wc || elemIsNan fx xs xc)
    (groupSum (ops.map (·.1)), ops.any (·.2))

/-! ### The accumulator buffer -/

/-- A row whose contents are undefined. -/
def freeRow (g n k : Nat) : AccRow :=
  let b (c i : Nat) : Byte := Config.freeByte g (((k * 64) + c) * 16 + i)
  { cells := (List.range n).map fun c =>
      { acc := BitVec.ofNat 32 (leNat [b c 0, b c 1, b c 2, b c 3]), err := BitVec.ofNat 32 (leNat [b c 4, b c 5, b c 6, b c 7])
        ovf := (b c 8).toNat.testBit 0, inv := (b c 8).toNat.testBit 1 }
    poison := (b 0 9).toNat.testBit 0 }

/-- One row of the buffer's storage: zero where nothing was written, undefined after a switch of the mode (R111). -/
def storedRow (a : ArrSt) (q : Bool) (r : Nat) : AccRow :=
  mgetD a.rows r (match a.blank with | some g => freeRow g (side q) r | none => { cells := List.replicate (side q) {} })

/-- The storage row that holds the err words of row r in the compensated modes (R107). -/
def errRow (q : Bool) (r : Nat) : Nat := r + (if q then 512 else 1024)

/-- A row as a pass of a mode sees it: in the compensated modes with the err words that lie in the upper half of the
buffer (R107). -/
def getRow (a : ArrSt) (q : Bool) (mode r : Nat) : AccRow :=
  let x := storedRow a q r
  if mode = 0 then { x with cells := x.cells.map fun c => { c with err := 0 } }
  else
    let e := storedRow a q (errRow q r)
    let cells := mapIdx (fun i (c : Acc) => { c with err := (lget e.cells i {}).acc }) 0 x.cells
    { x with cells := cells }

/-- Store a row: its err words go over the words of the row in the upper half, whose own flags and poison stay
(R107, DESIGN CHOICE, notes/assumptions/134.md). -/
def putRow (a : ArrSt) (q : Bool) (mode r : Nat) (x : AccRow) : ArrSt :=
  let a := { a with rows := mput a.rows r { x with cells := x.cells.map fun c => { c with err := 0 } } }
  if mode = 0 then a
  else
    let e := storedRow a q (errRow q r)
    let cells := mapIdx (fun i (c : Acc) => { c with acc := (lget x.cells i {}).err }) 0 e.cells
    { a with rows := mput a.rows (errRow q r) { e with cells := cells } }

/-- The storage rows of a row of a mode. -/
def rowStorage (q : Bool) (mode r : Nat) : List Nat := if mode = 0 then [r] else [r, errRow q r]

/-- Poison rows of a pass's mode that are not poisoned yet, and count them (R109, R117, R124). -/
def poisonRow (s : State) (u : ArrayUnit) (mode r : Nat) : State :=
  let a := getArr s u
  let x := getRow a u.quarter mode r
  if x.poison then s
  else bump (putArr s u (putRow a u.quarter mode r { x with poison := true })) (pgMXA u.die u.pen u.arr) 11

/-- An access to a row meets the bit errors of its storage (R109): a correctable one is corrected and counted; an
uncorrectable one poisons the row, whose words are then undefined. -/
def meetRow (s : State) (u : ArrayUnit) (mode r : Nat) : State :=
  (rowStorage u.quarter mode r).foldl (fun s k =>
    let a := getArr s u
    let a' := { a with flaws := mdel a.flaws k }
    match mget a.flaws k with
    | none => s
    | some false => bump (putArr s u a') (pgMXA u.die u.pen u.arr) 10
    | some true =>
      let g := drawFree s
      let old := storedRow a u.quarter k
      let f := freeRow g.1 (side u.quarter) k
      let cells := mapIdx (fun i (c : Acc) => { c with acc := (lget f.cells i {}).acc }) 0 old.cells
      poisonRow (putArr g.2 u { a' with rows := mput a'.rows k { old with cells := cells } }) u mode r) s

/-- A row that is written whole takes fresh check bits. -/
def freshRow (a : ArrSt) (q : Bool) (mode r : Nat) : ArrSt :=
  { a with flaws := mkeep a.flaws fun k => !(rowStorage q mode r).contains k }

/-- What ACC_INIT makes of row `i` of a pass before its first update (R108), and the state after LOAD's reads. -/
def initRow (s : State) (u : ArrayUnit) (x : Issue) (i : Nat) : State × Option AccRow :=
  let n := side u.quarter
  match pInit x with
  | 0 => (s, some { cells := List.replicate n {} })
  | 2 =>
    let base := arrStorePa u.die u.pen u.arr + dbits x 255 240 * 16
    let comp := pMode x != 0
    let r := paRead s 1 (base + i * (4 * n)) (4 * n)
    let e := if comp then paRead r.1 1 (base + (pVectors x + i) * (4 * n)) (4 * n) else (r.1, {})
    let cells : List Acc := (List.range n).map fun c =>
      { acc := BitVec.ofNat 32 (field r.2.data (4 * c) 4)
        err := if comp then BitVec.ofNat 32 (field e.2.data (4 * c) 4) else 0 }
    (e.1, some { cells := cells, poison := r.2.poison || e.2.poison })
  | _ => (s, none)

/-! ### The feed -/

/-- The next wavefront of a unit that the feed has to fetch (R92, R100): its pass, step and vector. -/
def feedNext (a : ArrSt) : Option (Pass × Nat × Nat) :=
  match a.passes.find? fun p => p.stop.isNone && max p.fed p.entered < pSteps p.iss * pVectors p.iss with
  | none => none
  | some p =>
    let w := max p.fed p.entered
    some (p, w / pVectors p.iss, w % pVectors p.iss)

/-- Bytes of a wavefront's elements and of its scales (R93). -/
def feedSizes (q : Bool) (x : Issue) : Nat × Nat := (side q * 4, stepScales (pFmtX x) (fmtClass (pFmtW x)) (side q))

/-- Bytes of a unit's stream buffer (R100): 512 of an array; each quarter's is a fourth of it (DEDUCED,
notes/assumptions/132.md). -/
def streamCap (q : Bool) : Nat := if q then 128 else 512

/-- The address of a wavefront's elements (R96). -/
def feedPa (u : ArrayUnit) (x : Issue) (s i : Nat) : Nat :=
  arrStorePa u.die u.pen u.arr + (dbits x 175 160 + i * dbits x 191 176 + s * dbits x 207 192) * 16

/-- The stream buffer has room for the next wavefront. -/
def feedWants (s : State) (u : ArrayUnit) : Bool :=
  match feedNext (getArr s u) with
  | none => false
  | some (p, _, _) =>
    let sz := feedSizes u.quarter p.iss
    !arrStopped s u &&
      ((getArr s u).stream.map fun v => v.data.length + v.scales.length).foldl (· + ·) 0 + sz.1 + sz.2 ≤ streamCap u.quarter

/-- Fetch one wavefront, elements and scales, into the stream buffer (R99, R100). -/
def feedOne (s : State) (u : ArrayUnit) : State :=
  match feedNext (getArr s u) with
  | none => s
  | some (p, st, i) =>
    let x := p.iss
    let sz := feedSizes u.quarter x
    let spa := arrStorePa u.die u.pen u.arr + (dbits x 223 208 + st * dbits x 239 224) * 16 + i * sz.2
    let d := paRead s 1 (feedPa u x st i) sz.1
    let c := paRead d.1 1 spa sz.2
    let a := updPass (getArr c.1 u) p.id fun p => { p with fed := max p.fed p.entered + 1 }
    putArr c.1 u { a with stream := a.stream ++
      [{ pass := p.id, s := st, i := i, data := d.2.data, scales := c.2.data, poison := d.2.poison || c.2.poison }] }

/-- One grant of the feed at its store's port (R100, R167): the next wavefront, and those after it whose elements lie in
the same line while the buffer has room; their scales come with them (DESIGN CHOICE, notes/assumptions/132.md). -/
def feedGo (u : ArrayUnit) (line : Nat) : Nat → State → State
  | 0, s => s
  | k + 1, s =>
    match feedNext (getArr s u) with
    | none => s
    | some (p, st, i) =>
      if feedWants s u && feedPa u p.iss st i / 256 == line then feedGo u line k (feedOne s u) else s

/-- The units of one array, in the mode in force. -/
def modeUnits (s : State) (d p a : Nat) : List ArrayUnit :=
  if (getCtl s d p a).quarter then (List.range 4).map fun q => ⟨d, p, a, true, q⟩ else [⟨d, p, a, false, 0⟩]

/-- The unit whose stream buffer the feed serves next: the quarters in round robin (R112). -/
def feedUnit (s : State) (d p a : Nat) : Option ArrayUnit :=
  let us := (modeUnits s d p a).filter (feedWants s)
  match rrPick (getCtl s d p a).feedRr (us.map fun u => u.qid + 1) with
  | none => none
  | some n => us.find? fun u => u.qid + 1 == n

/-- The port of an array's store grants its feed (R112, R167). -/
def feedGrant (s : State) (d p a : Nat) : State :=
  match feedUnit s d p a with
  | none => s
  | some u =>
    let s := putCtl s d p a { getCtl s d p a with feedRr := u.qid + 1 }
    match feedNext (getArr s u) with
    | none => s
    | some (q, st, i) => feedGo u (feedPa u q.iss st i / 256) 4 s

/-- The bank whose set a pass's next wavefront uses, once row 0 of it has been written (R102, R104). -/
def bankFor (a : ArrSt) (p : Pass) (cyc : Nat) : Option Nat :=
  if pReuse p.iss then
    match (if p.bank.isSome then p.bank else a.bankLast) with
    | some b => if 0 < (getBank a b).rows && (getBank a b).row0 < cyc then some b else none
    | none => none
  else
    (List.range 2).find? fun b =>
      let x := getBank a b
      0 < x.rows && x.forPass == p.id && x.forStep == p.s && x.row0 < cyc

/-- A row that an earlier pass has yet to drain (R110). -/
def rowUndrained (before : List Pass) (row : Nat) : Bool :=
  before.any fun e =>
    pDrain e.iss && pAccBase e.iss ≤ row && row < pAccBase e.iss + pVectors e.iss &&
      (let j := row - pAccBase e.iss
       if pMode e.iss = 2 then e.drained ≤ pVectors e.iss + j else e.drained ≤ j)

/-- The first pass with wavefronts to enter, and those before it. -/
def enterNext : List Pass → List Pass → Option (Pass × List Pass)
  | _, [] => none
  | before, p :: t => if allEntered p || p.stop.isSome then enterNext (before ++ [p]) t else some (p, before)

/-- Count the cycles up to `cyc` with a pass in flight (counter 0 of R124). -/
def countCycles (s : State) (u : ArrayUnit) (cyc : Nat) : State :=
  let a := getArr s u
  if a.passes.isEmpty || cyc ≤ a.clk then s
  else
    let from_ := if a.waves.isEmpty && a.lastEnter.isNone then cyc - 1 else a.clk
    bumpBy (putArr s u { a with clk := cyc }) (pgMXA u.die u.pen u.arr) 0 (cyc - from_)

/-- In one cycle a wavefront enters row 0, or the cycle is a bubble (R98, R99): the stream buffer does not hold it, its
bank is not loaded, or its row is not drained. None enters while a stopped pass is being saved (R115). -/
def wavefrontEnter (s : State) (u : ArrayUnit) (cyc : Nat) : State :=
  let a := getArr s u
  let pg := pgMXA u.die u.pen u.arr
  let late := match a.lastEnter with | some l => l < cyc | none => true
  if arrStopped s u || !late || a.passes.any (·.stop.isSome) then s
  else match enterNext [] a.passes with
    | none => s
    | some (p, before) =>
      let x := p.iss
      let n := side u.quarter
      let row := pAccBase x + p.i
      let s := countCycles s u cyc
      let a := getArr s u
      match bankFor a p cyc with
      | none => bump s pg 2
      | some b =>
        let first := p.s = 0 && !p.resumed
        match a.stream.find? fun v => v.pass == p.id && v.s == p.s && v.i == p.i with
        | none => bump s pg 2
        | some v =>
        if rowUndrained before row || (first && pInit x = 2 && arrStoreBusy s u) then bump s pg 2
        else
          let set := getBank a b
          let k := fmtClass (pFmtW x)
          let kv := if p.s + 1 = pSteps x then pKLast x else n * k
          let init := if first then initRow s u x p.i else (s, none)
          let s := init.1
          let w : Wave :=
            { pass := p.id, row := row, entry := cyc
              init := init.2
              groups := (List.range (pNValid x)).map fun c => columnGroups x n kv c set v.data v.scales
              poison := set.poison || v.poison }
          let lastV := p.i + 1 = pVectors x
          let a := { getArr s u with stream := a.stream.filter fun y => y != v }
          let a := updPass a p.id fun p =>
            { p with s := if lastV then p.s + 1 else p.s, i := if lastV then 0 else p.i + 1
                     entered := p.entered + 1
                     bank := if pReuse x then some b else none }
          let a := putBank a b { set with lastEntry := some cyc }
          let c := getCtl s u.die u.pen u.arr
          let prods := c.prodRem + kv * pNValid x
          let s := putArr s u { a with waves := a.waves ++ [w], lastEnter := some cyc }
          let s := putCtl s u.die u.pen u.arr { c with prodRem := prods % 256 }
          bumpBy (bump s pg 1) pg 12 (prods / 256)

def execWavefrontEnter (u : ArrayUnit) (cyc : Nat) (s : State) : Out :=
  .next (if unitOk u then wavefrontEnter s u cyc else s)

/-- Update one row's columns from a wavefront (R77, R80, R81, R94, R106). -/
def updateRow (comp : Bool) (r : AccRow) (w : Wave) : AccRow :=
  { cells := mapIdx (fun c a => (lget w.groups c []).foldl (fun a g => accAdd comp g.2 a g.1) a) 0 r.cells
    poison := r.poison || w.poison }

/-- Bits of accumulator rows flip; an uncorrectable error stays one (R109). -/
def flipRows (a : ArrSt) (flips : List (Nat × Bool)) : ArrSt :=
  { a with flaws := flips.foldl (fun m e => mput m e.1 (e.2 || mgetD m e.1 false)) a.flaws }

/-- The oldest wavefront reaches the accumulators, 63 (31) cycles after it entered (R98). A row that ACC_INIT sets is
written whole and takes its owner and mode (R108); another is read, and its errors are met (R109). -/
def accumulatorUpdate (s : State) (u : ArrayUnit) (at_ : AccCyc) : State :=
  let cyc := at_.cyc
  let s := putArr s u (flipRows (getArr s u) at_.flips)
  let a := getArr s u
  match a.waves with
  | [] => s
  | w :: ws =>
    if arrStopped s u || cyc != w.entry + tailOf u.quarter then s
    else match a.passes.find? fun p => p.id == w.pass with
      | none => putArr s u { a with waves := ws }
      | some p =>
        let mode := pMode p.iss
        let s := countCycles s u cyc
        let s := if w.init.isSome then s else meetRow s u mode w.row
        let a := getArr s u
        let old := getRow a u.quarter mode w.row
        let r := updateRow (mode != 0) (w.init.getD old) w
        let a := updPass a p.id fun p =>
          { p with updates := p.updates + 1
                   conds := if r.poison then p.conds ++ [stPOISON] else p.conds }
        let a := if w.init.isSome then { a with owner := mput a.owner w.row (p.iss.ctx, mode) } else a
        let s := putArr s u { freshRow (putRow a u.quarter mode w.row r) u.quarter mode w.row with waves := ws }
        if r.poison && (w.init.isSome || !old.poison) then bump s (pgMXA u.die u.pen u.arr) 11 else s

def execAccumulatorUpdate (u : ArrayUnit) (cyc : AccCyc) (s : State) : Out :=
  .next (if unitOk u then accumulatorUpdate s u cyc else s)

/-! ## The drain -/

/-- Job seed and step index of a context (R396, R397). -/
def ctxSeed (s : State) (c : Nat) : Nat := fpair s (pgCTX c) F.CTX_SEED_LO_SEED_LO F.CTX_SEED_HI_SEED_HI 0
def ctxStep (s : State) (c : Nat) : Nat := fget s (pgCTX c) F.CTX_STEP_STEP

/-- The exact value a drain narrows (R79). -/
def drainValue (mode : Nat) (err : Bool) (a : Acc) : FpV :=
  if mode = 1 then fpAdd (ofFp32 a.acc) (ofFp32 a.err)
  else if err then ofFp32 a.err else ofFp32 a.acc

/-- Narrow one row: element bytes, scale bytes, and how many elements overflowed (R65 to R74, R110, R141). -/
def drainEncode (s : State) (x : Issue) (j : Nat) (r : AccRow) : List Byte × List Byte × Nat :=
  let f := pDstFmt x
  let m := pVectors x
  let err := m ≤ j
  let draw (c : Nat) : Nat := stippleU (ctxSeed s x.ctx) (ctxStep s x.ctx) (dbits x 383 352)
    (pCoordBase x + j % m * pCoordPitch x + c) 3
  let vals := mapIdx (fun c a => if c < pNValid x then drainValue (pMode x) err a else .fin false 0 1) 0 r.cells
  if isBlock f then
    let bl := blockElems f
    let blocks := (List.range (side (pQuarter x) / bl)).map fun b =>
      encBlock f (pTOut x) (if pSr x then some fun i => draw (b * bl + i) else none)
        ((vals.drop (b * bl)).take bl)
    (packElems f (blocks.flatMap (·.codes)), blocks.map (fun b => BitVec.ofNat 8 b.scale),
      ((List.range (side (pQuarter x) / bl)).map fun b => overflowed f (pTOut x) ((vals.drop (b * bl)).take bl)).foldl (· + ·) 0)
  else
    let cs := mapIdx (fun c v => narrow (elemFmt f) (pSat x) (if pSr x then .sr (draw c) else .rne) v) 0
      (vals.take (pNValid x))
    (packElems f (cs.map (·.1)), [], (cs.filter (·.2)).length)

/-- What a unit is told when its write met poison or the keep region (R175, R179). -/
def portConds (w : PortWr) : List Nat := (if w.met then [stPOISON] else []) ++ if w.refused then [stPERM] else []

/-- The first pass that has rows to drain. -/
def drainNext (ps : List Pass) : Option Pass :=
  ps.find? fun p => allUpdated p && p.stop.isNone && !allDrained p

/-- Drain one row of a finished pass (R110). -/
def drainRow (s : State) (u : ArrayUnit) : State :=
  let a := getArr s u
  match drainNext a.passes with
  | none => s
  | some p =>
    let x := p.iss
    let j := p.drained
    let row := pAccBase x + j % pVectors x
    let st := drainStore u.die u.pen u.arr x
    let pe := st.1 + dbits x 483 464 * 16 + j * (dbits x 95 86 * 16)
    let ps := st.1 + dbits x 503 484 * 16 + j * drainScaleBytes x
    if arrStopped s u || storeBusy s u.die ((pe - spadBase) % 0x8000000) (drainRowBytes x) then s
    else
      let s := meetRow s u (pMode x) row
      let r := getRow (getArr s u) u.quarter (pMode x) row
      let e := drainEncode s x j r
      let w1 := paWrite s 2 0 pe e.1 r.poison
      let w2 := paWrite w1.1 2 0 ps e.2.1 r.poison
      let valid := r.cells.take (pNValid x)
      let no := if j < pVectors x then (valid.filter (·.ovf)).length else 0
      let ni := if j < pVectors x then (valid.filter (·.inv)).length else 0
      let a := updPass (getArr w2.1 u) p.id fun p =>
        { p with drained := p.drained + 1, ovf := p.ovf + no, inv := p.inv + ni
                 conds := p.conds ++ (if r.poison && !p.conds.contains stPOISON then [stPOISON] else [])
                   ++ List.replicate e.2.2 stOVERFLOW
                   ++ portConds { met := w1.2.met || w2.2.met, refused := w1.2.refused || w2.2.refused } }
      let pg := pgMXA u.die u.pen u.arr
      let w := putArr w2.1 u a
      bumpBy (bumpBy (if j < pVectors x then bump w pg 13 else w) pg 14 no) pg 15 ni

def execDrainRow (u : ArrayUnit) (s : State) : Out := .next (if unitOk u then drainRow s u else s)

/-- The flags of the drained accumulators and the conditions of a pass that ends now (R22, R68, R81). -/
def passConds (p : Pass) : List Nat := p.conds ++ List.replicate p.ovf stOVERFLOW ++ List.replicate p.inv stNOTE

/-- The status of a pass whose updates and drain are done (R68, R81, R109). -/
def passRes (p : Pass) : Res := resOf (passConds p)

/-- Take a pass out of its unit. -/
def dropPass (s : State) (u : ArrayUnit) (id : Nat) : State :=
  let a := getArr s u
  putArr s u { a with passes := a.passes.filter fun p => p.id != id
                      waves := a.waves.filter fun w => w.pass != id
                      stream := a.stream.filter fun v => v.pass != id }

/-- A pass in flight that has begun: a wavefront of it has entered, or it is the oldest (R117). -/
def begun (a : ArrSt) (p : Pass) : Bool := 0 < p.entered || (a.passes.head?.map (·.id)) == some p.id

/-- The set last loaded, as the banks hold it (R104). -/
def lastSet (a : ArrSt) : Option (Nat × Nat) :=
  a.bankLast.bind fun b => if (getBank a b).rows = 0 then none else some (getBank a b).who

/-- The set that will be the last loaded once every accepted pass has loaded its own (R104). -/
def relast (a : ArrSt) : ArrSt :=
  { a with lastLoad := match (a.passes.filter fun p => !pReuse p.iss && p.stop.isNone).getLast? with
      | some p => some (p.iss.ctx, pFmtW p.iss)
      | none => lastSet a }

/-- Discard the set that is staged and not yet in use (R115): a bank that it had begun to fill is empty, and the pass it
is for, where that stays, fetches it again. -/
def dropStaged (a : ArrSt) : ArrSt :=
  match a.staging with
  | none => a
  | some x =>
    let b := a.bankLast.getD 0
    if 0 < x.rows && (getBank a b).lastEntry.isSome then a
    else
      let a := updPass { a with staging := none } x.forPass fun p => { p with fetchStep := x.forStep }
      if x.rows = 0 then a else { putBank a b {} with bankLast := x.before }

/-- Passes are taken off a unit before they begin: what they had in the staging and stream buffers is lost, and the set
that is to be the last loaded is that of a pass that stays, or the one the banks hold (R104). -/
def takeUnbegun (a : ArrSt) (out : Pass → Bool) : ArrSt :=
  let stay := a.passes.filter fun p => !out p
  let lost := match a.staging with | some x => !stay.any fun p => p.id == x.forPass | none => false
  let a := if lost then dropStaged a else a
  relast { a with passes := a.passes.filter fun p => !out p
                  stream := a.stream.filter fun v => stay.any fun p => p.id == v.pass }

/-- A pass whose last update and drain are done completes; passes of one unit complete in order (R100). -/
def passComplete (s : State) (u : ArrayUnit) : State :=
  match (getArr s u).passes with
  | [] => s
  | p :: _ =>
    if arrStopped s u || !allUpdated p || !allDrained p then s
    else flushLate (descDone (bump (dropPass s u p.id) (pgMXA u.die u.pen u.arr) 5) p.iss (passRes p)) u

def execPassComplete (u : ArrayUnit) (s : State) : Out := .next (if unitOk u then passComplete s u else s)

/-! ## Quarter mode and freeze -/

/-- A write of MXA_CFG.QUARTER requests a mode; it takes effect with the next switch (R111). -/
def execMxaCfgWrite (src : Src) (die pen arr : Nat) (quarter : Bool) (s : State) : Out :=
  .next (if leafExists s (pgMXA die pen arr) ∧ die < 16 ∧ pen < 9 ∧ arr < 8 then
    withPage s src (pgMXA die pen arr) fun s => fputb s (pgMXA die pen arr) F.MXA_CFG_QUARTER quarter
  else s)

/-- Bytes that are undefined: their number stays. -/
def freeBytes (g k : Nat) (bs : List Byte) : List Byte := (List.range bs.length).map fun i => Config.freeByte g (k * 8192 + i)

/-- What a unit's accumulator rows and banks hold after a switch to its mode: the full array and its quarters share the
cells and the 256 KiB, and where one's words lie in the other's is not stated, so the contents are undefined; owners and
marks stay the unit's own (R107, R111, notes/assumptions/135.md). -/
def blurUnit (s : State) (u : ArrayUnit) : State :=
  let g := drawFree s
  let a := getArr g.2 u
  let blur (k : Nat) (x : StatSet) : StatSet :=
    { x with data := freeBytes g.1 (2 * k) x.data, scales := freeBytes g.1 (2 * k + 1) x.scales }
  putArr g.2 u { a with
    blank := some g.1, bank0 := blur 1000 a.bank0, bank1 := blur 1001 a.bank1
    rows := a.rows.map fun e => (e.1, { freeRow g.1 (side u.quarter) e.1 with poison := e.2.poison }) }

/-- The requested mode takes effect when the array has no pass in flight, no drain running and no list holds
it (R111, R152). -/
def modeSwitch (s : State) (d p a : Nat) : State :=
  let c := getCtl s d p a
  let want := fbit s (pgMXA d p a) F.MXA_CFG_QUARTER
  let idle := (unitsOf d p a).all fun u => (getArr s u).passes.isEmpty
  if idle && !heldByList s d p a && !arrFrozen s d p a && c.quarter != want then
    let s := putCtl s d p a { c with quarter := want }
    (modeUnits s d p a).foldl blurUnit s
  else s

def execQuarterModeSwitch (die pen arr : Nat) (s : State) : Out :=
  .next (if die < 16 ∧ pen < 9 ∧ arr < 8 then modeSwitch s die pen arr else s)

/-- A power throttle freezes the array at a cycle boundary with all state held (R113). -/
def execArrayFreeze (die pen arr : Nat) (s : State) : Out :=
  .next (if die < 16 ∧ pen < 9 ∧ arr < 8 then
    putCtl s die pen arr { getCtl s die pen arr with frozen := true } else s)

/-- A frozen array resumes from the same cycle; the frozen cycles are counted (R113, R124), and on the die's power page with
the last of its arrays (R453). -/
def execArrayFreezeRelease (die pen arr cycles : Nat) (s : State) : Out :=
  .next (if die < 16 ∧ pen < 9 ∧ arr < 8 ∧ (getCtl s die pen arr).frozen then
    let s := bumpBy (putCtl s die pen arr { getCtl s die pen arr with frozen := false }) (pgMXA die pen arr) 3 cycles
    if dutyFrozen s die then s else bumpBy s (pgPWRDIE die) 3 cycles
  else s)

/-! ## Preemption -/

/-- The pass in flight on a unit: the one whose wavefronts enter or that is being stopped, else the one that ends
last. -/
def passInFlight (a : ArrSt) : Option Pass :=
  match a.passes.find? fun p => !allEntered p with
  | some p => some p
  | none => a.passes.getLast?

/-- The unit a PREEMPT or RESUME names (R575). -/
def cmdUnit (c : Cmd) : ArrayUnit :=
  let q := c.word.toNat.testBit 131
  ⟨cDie c, cPen c, cbits c 130 128, q, if q then cbits c 133 132 else 0⟩

/-- QUARTER_ID is zero when QUARTER is 0 (R575). -/
def quarterBad (c : Cmd) : Bool := !c.word.toNat.testBit 131 && cbits c 133 132 != 0

/-- The save area of a context (R242). -/
def saveArea (s : State) (c : Nat) : Nat :=
  fget s (pgCTX c) F.CTX_SAVE_LO_SAVE_LO * 4096 + fget s (pgCTX c) F.CTX_SAVE_HI_SAVE_HI * 2 ^ 32

/-- The index of a unit's save slot in the context's save area (R242). -/
def slotIndex (s : State) (f : Nat) (u : ArrayUnit) : Nat :=
  let r := popcount u.die (fget s (pgFOLD f) F.FOLD_DIES_DIES)
  ((r * 9 + u.pen) * 8 + u.arr) * 4 + u.qid

/-- The decision of R114 on a pass: run to its end, or stop at the save area named now. -/
def preemptDecide (s : State) (u : ArrayUnit) (p : Pass) : State :=
  let left := pSteps p.iss * pVectors p.iss - p.entered + tailOf u.quarter
  let area := saveArea s p.iss.ctx
  if p.stop.isSome || p.decided then s
  else if left ≤ 4096 || !fbit s (pgCTX p.iss.ctx) F.CTX_SAVE_HI_SAVE_VALID then
    bump (putArr s u (updPass (getArr s u) p.id fun p => { p with decided := true })) (pgMXA u.die u.pen u.arr) 6
  else
    let a := updPass (getArr s u) p.id fun p => { p with decided := true, stop := some (area, herdTime s) }
    putArr s u { a with stream := a.stream.filter fun v => v.pass != p.id }

/-- PREEMPT stops the pass of the issuing context in flight on its target (R114, R153, R154, R242). It
completes when the decision is made; while the array checks itself or is offline the request is ignored (R118). -/
def preemptCmd (s : State) (id : CmdId) (c : Cmd) : State :=
  let u := cmdUnit c
  let p := passInFlight (getArr s u)
  let mine := match p with | some p => p.iss.ctx == id.ctx | none => false
  let inFold := match ctxFold s id.ctx with | some f => foldHasDie s f u.die | none => false
  let ctl := getCtl s u.die u.pen u.arr
  acceptCmd s id (!reservedOk c.word.toNat [(133, 128)] || quarterBad c)
    (!arrayExists s.fuse.gradeB (u.die * 72 + u.pen * 8 + u.arr))
    (!inFold || !mine || !fbit s (pgCTX id.ctx) F.CTX_SAVE_HI_SAVE_VALID) fun _ =>
      match p with
      | some p => finishCmd (if checkRuns s u.die u.pen u.arr || ctl.offline then s else preemptDecide s u p) id {}
      | none => s

def execPreempt (c : CmdId) (s : State) : Out := .next (withCmd s c 0x18 fun x => preemptCmd s c x)

/-- The rows of a stopped pass are saved as they stand; those no wavefront has reached yet take their initial value
(R108, R115), and bit errors are met (R109). -/
def savedRow (s : State) (u : ArrayUnit) (p : Pass) (i : Nat) : State × AccRow :=
  let init := if p.entered ≤ i && !p.resumed then initRow s u p.iss i else (s, none)
  match init.2 with
  | some r => (init.1, r)
  | none =>
    let row := pAccBase p.iss + i
    let s := meetRow init.1 u (pMode p.iss) row
    (s, getRow (getArr s u) u.quarter (pMode p.iss) row)

/-- The pieces of a save slot (R119): (offset, bytes, poison). -/
def savePieces (s : State) (u : ArrayUnit) (p : Pass) : State × List (Nat × List Byte × Bool) :=
  let n := side u.quarter
  (List.range (pVectors p.iss)).foldl (fun acc i =>
    let j := pAccBase p.iss + i
    let r := savedRow acc.1 u p i
    let accB := r.2.cells.flatMap fun a => leBytes 4 a.acc.toNat
    let errB := r.2.cells.flatMap fun a => leBytes 4 a.err.toNat
    let flags := r.2.cells.foldr (fun a m => m * 4 + bitN a.ovf + 2 * bitN a.inv) 0
    (r.1, acc.2 ++
      [(0x5000 + j * (4 * n), accB, r.2.poison), (0x1000 + j * (n / 4), leBytes (n / 4) flags, false)] ++
      (if pMode p.iss = 0 then [] else [(0x25000 + j * (4 * n), errB, r.2.poison)]))) (s, [])

/-- The resume record of a stopped pass (R120): its time is that of the stop. -/
def resumeRecord (u : ArrayUnit) (p : Pass) (valid : Bool) : List Byte :=
  let body := leBytes 64 p.iss.desc.toNat
    ++ leBytes 4 (0x4D + 0x100 + bitN valid * 2 ^ 16 + bitN u.quarter * 2 ^ 17 + u.qid * 2 ^ 18
      + pMode p.iss * 2 ^ 20)
    ++ leBytes 4 (p.s + p.i * 2 ^ 8) ++ leBytes 4 p.entered ++ leBytes 4 (p.iss.ctx + p.fold * 2 ^ 16)
    ++ leBytes 4 (u.die + u.pen * 2 ^ 4 + u.arr * 2 ^ 8) ++ leBytes 4 0 ++ leBytes 8 (p.stop.getD (0, 0)).2
    ++ leBytes 28 0
  body ++ leBytes 4 (crc32c body)

/-- Write pieces of the save slot through the array's save stream, each a translated access needing RD and
WR (R242); poison met on the way is no failure of the save. -/
def saveGo (u : ArrayUnit) (ctx slot : Nat) :
    List (Nat × List Byte × Bool) → State → State × Option (Except (List Nat) Unit)
  | [], s => (s, some (.ok ()))
  | (off, bs, p) :: t, s =>
    match streamWrite s (.array u.die u.pen u.arr) {} ctx .rdwr p .ok (linePieces (slot + off) bs.length) bs false with
    | (s', some (.ok _)) => saveGo u ctx slot t s'
    | (s', some (.error codes)) => (s', some (.error [codes.getLastD stPOISON]))
    | (s', none) => (s', none)

/-- The save slot of a stopped pass: its virtual address and its index (R119, R242). -/
def passSlot (s : State) (u : ArrayUnit) (p : Pass) : Nat × Nat :=
  let idx := slotIndex s p.fold u
  ((p.stop.getD (0, 0)).1 + idx * 0x45000, idx)

/-- A stopped pass leaves its unit: any set that is staged and not yet in use is discarded, and the set last loaded is
what the banks and the passes that stay make it (R104, R115). -/
def stopLeaves (s : State) (u : ArrayUnit) (p : Pass) : State :=
  let s := putArr s u (dropStaged (getArr s u))
  let s := dropPass s u p.id
  putArr s u (relast (getArr s u))

/-- A save that fails completes the pass with its code and a record with VALID = 0, if that can be written; when a
lower tier failed it, what the slot holds besides is undefined (R226, R576). -/
def saveFail (s : State) (u : ArrayUnit) (p : Pass) (codes : List Nat) : State :=
  let slot := (passSlot s u p).1
  let s := if codes.contains stTIER then (savePieces s u p).2.foldl (fun s e =>
      undefRange s (.array u.die u.pen u.arr) {} p.iss.ctx (slot + e.1) e.2.1.length) s else s
  let s := (saveGo u p.iss.ctx slot [(0, resumeRecord u p false, false)] s).1
  flushLate (descDone (stopLeaves s u p) p.iss (resOf (passConds p ++ codes))) u

/-- A pass that a fault met during its save (R118): the record is written with VALID = 0, then the slot's rows poisoned,
and the pass completes with FAULT_ABORT; while the stream waits the save goes on later. -/
def abortSave (s : State) (u : ArrayUnit) (p : Pass) : State :=
  let slot := (passSlot s u p).1
  let ps := savePieces s u p
  let rows := ps.2.map fun e => (e.1, e.2.1, true)
  match saveGo u p.iss.ctx slot ([(0, resumeRecord u p false, false)] ++ rows) ps.1 with
  | (s', none) => s'
  | (s', some _) =>
    let s' := bump (stopLeaves s' u p) (pgMXA u.die u.pen u.arr) 9
    flushLate (descDone s' p.iss (resOf (passConds p ++ [stABORT]))) u

/-- After the tail of a stopped pass: write its rows and flags, then the resume record, and either return the
record (R154) or queue the pass to resume in place behind what waits now (R577). A failed save completes the
pass with its code and a record with VALID = 0 (R576). -/
def preemptSave (s : State) (u : ArrayUnit) : State :=
  let a := getArr s u
  match a.passes.find? fun p => p.stop.isSome with
  | none => s
  | some p =>
    if arrFrozen s u.die u.pen u.arr || clocksStopped s then s
    else if p.dead then abortSave s u p
    else if arrStopped s u || a.waves.any fun w => w.pass == p.id then s
    else
      let slot := passSlot s u p
      let rows := savePieces s u p
      match saveGo u p.iss.ctx slot.1 rows.2 rows.1 with
      | (s', none) => s'
      | (s', some (.error codes)) => saveFail s' u p codes
      | (s', some (.ok ())) =>
        match saveGo u p.iss.ctx slot.1 [(0, resumeRecord u p true, false)] s' with
        | (s2, none) => s2
        | (s2, some (.error codes)) => saveFail s2 u p codes
        | (s2, some (.ok ())) =>
          let s2 := bump (stopLeaves s2 u p) (pgMXA u.die u.pen u.arr) 7
          if pReturn p.iss then
            flushLate (descDone s2 p.iss { resOf (passConds p ++ [stPREEMPTED]) with note := slot.2 }) u
          else
            let a := getArr s2 u
            let g : Again :=
              { iss := { p.iss with slot := some (slot.1, []), num := a.nextPass }
                cmds := (s2.cmds.filter (waitsAtInput s2 u)).map (·.id) }
            flushLate (putArr s2 u { a with again := a.again ++ [g], nextPass := a.nextPass + 1 }) u

def execPreemptSave (u : ArrayUnit) (s : State) : Out := .next (if unitOk u then preemptSave s u else s)

/-! ## Resume -/

/-- A record that a resume refuses with BAD_DESC (R120). -/
def recordBad (r : List Byte) : Bool :=
  field r 0x41 1 != 0x01 || field r 0x42 1 % 2 == 0 || field r 0x7C 4 != crc32c (r.take 0x7C)

/-- The descriptor in a resume record. -/
def recordDesc (r : List Byte) : BitVec 512 := BitVec.ofNat 512 (field r 0 64)

/-- Restore the saved rows to the same row numbers (R116); their storage takes fresh check bits. -/
def restoreRows (a : ArrSt) (q : Bool) (x : Issue) (accB flagB errB : List Byte) (bad : Nat → Bool) : ArrSt :=
  let n := side q
  (List.range (pVectors x)).foldl (fun a i =>
    let fl := field flagB (i * (n / 4)) (n / 4)
    let row := pAccBase x + i
    freshRow (putRow a q (pMode x) row
      { cells := (List.range n).map fun c =>
          { acc := BitVec.ofNat 32 (field accB ((i * n + c) * 4) 4)
            err := if pMode x = 0 then 0 else BitVec.ofNat 32 (field errB ((i * n + c) * 4) 4)
            ovf := fl.testBit (2 * c), inv := fl.testBit (2 * c + 1) }
        poison := bad i }) q (pMode x) row) a

/-- Read a range of the save slot through the array's stream, line by line; a poisoned line poisons its rows
and is no failure. -/
def slotRead (s : State) (u : ArrayUnit) (resp : LineResp) (ctx va n : Nat) :
    State × Option (Except (List Nat) (List Byte × Bool)) :=
  streamRead s (.array u.die u.pen u.arr) {} ctx .rdwr resp (linePieces va n) [] false

/-- Poison of each saved row, read row by row. -/
def rowPoisons (s : State) (u : ArrayUnit) (ctx slot n : Nat) (x : Issue) (i : Nat) : Bool :=
  let j := pAccBase x + i
  let p (off : Nat) : Bool := match slotRead s u .ok ctx (slot + off) (4 * n) with
    | (_, some (.ok (_, q))) => q
    | _ => false
  p (0x5000 + j * (4 * n)) || (pMode x != 0 && p (0x25000 + j * (4 * n)))

/-- Take a pass that does not resume out of where it waits, and end it. -/
def resumeEnds (s : State) (u : ArrayUnit) (x : Issue) (r : Res) : State :=
  endUnrun (putArr s u (unitDrop (getArr s u) x)) u x r

/-- A failed restore ends the resumed pass; its rows are undefined (R576). -/
def restoreFail (s : State) (u : ArrayUnit) (x : Issue) (codes : List Nat) : State :=
  let g := drawFree s
  let a := (passRows x).foldl (fun a r => freshRow (putRow a u.quarter (pMode x) r (freeRow g.1 (side u.quarter) r))
    u.quarter (pMode x) r) (getArr g.2 u)
  resumeEnds (putArr g.2 u a) u x (resOf codes)

/-- The rows of a pass that resumes, and in the compensated modes their err words, are rows of a pass in flight (R116). -/
def rowsInUse (a : ArrSt) (q : Bool) (x : Issue) : Bool :=
  let all (x : Issue) : List Nat := (passRows x).flatMap (rowStorage q (pMode x))
  a.passes.any fun p => (all p.iss).any fun r => (all x).contains r

/-- Restore the rows of a pass that resumes and let its wavefronts go on from where they stopped (R116). -/
def restoreGo (s : State) (u : ArrayUnit) (x : Issue) (slot : Nat) (rec_ : List Byte) (resp : LineResp) : State :=
  let n := side u.quarter
  let j := pAccBase x
  let m := pVectors x
  let rest (s : State) (off n : Nat) (resp : LineResp) : LineResp :=
    respRest s (.array u.die u.pen u.arr) x.ctx (slot + off) n resp
  match slotRead s u resp x.ctx (slot + 0x5000 + j * (4 * n)) (m * 4 * n) with
  | (s2, none) => s2
  | (s2, some (.error codes)) => restoreFail s2 u x codes
  | (s2, some (.ok (accB, _))) =>
    let resp := rest s2 (0x5000 + j * (4 * n)) (m * 4 * n) resp
    match slotRead s2 u resp x.ctx (slot + 0x1000 + j * (n / 4)) (m * (n / 4)) with
    | (s3, none) => s3
    | (s3, some (.error codes)) => restoreFail s3 u x codes
    | (s3, some (.ok (flagB, _))) =>
      match (if pMode x = 0 then (s3, some (.ok ([], false)))
        else slotRead s3 u (rest s3 (0x1000 + j * (n / 4)) (m * (n / 4)) resp) x.ctx
          (slot + 0x25000 + j * (4 * n)) (m * 4 * n)) with
      | (s4, none) => s4
      | (s4, some (.error codes)) => restoreFail s4 u x codes
      | (s4, some (.ok (errB, _))) =>
        let s4 := putArr s4 u (unitDrop (getArr s4 u) x)
        let bad := rowPoisons s4 u x.ctx slot n x
        let a := restoreRows (getArr s4 u) u.quarter x accB flagB errB bad
        let step := field rec_ 0x44 1
        let p : Pass :=
          { id := x.num, iss := { x with slot := none }, fold := (ctxFold s4 x.ctx).getD 0
            s := step, i := field rec_ 0x44 4 / 256 % 4096, fetchStep := step, resumed := true
            entered := field rec_ 0x48 4, updates := field rec_ 0x48 4, fed := field rec_ 0x48 4 }
        let a := passClaim { a with owner := (passRows x).foldl (fun o r => mput o r (x.ctx, pMode x)) a.owner } p
        let poisoned := ((List.range m).filter bad).length
        bumpBy (bump (putArr s4 u a) (pgMXA u.die u.pen u.arr) 8) (pgMXA u.die u.pen u.arr) 11 poisoned

/-- A pass whose turn to resume from a save slot has come continues there (R116, R577), once no pass in flight uses its
rows: a RESUME's record has been read and checked, the record of a pass resumed in place is read now. -/
def resumeHead (s : State) (u : ArrayUnit) (resp : LineResp) : State :=
  let a := getArr s u
  let c := getCtl s u.die u.pen u.arr
  match unitNext s u with
  | none => s
  | some x =>
    match x.slot with
    | none => s
    | some (slot, held) =>
      if c.checking || arrFrozen s u.die u.pen u.arr || clocksStopped s || rowsInUse a u.quarter x ||
          2 ≤ (a.passes.filter fun p => !allEntered p).length then s
      else if c.offline || c.quarter != u.quarter || (pReuse x && !reuseOk a x) then resumeEnds s u x (reject stSTATE)
      else if held != [] then restoreGo s u x slot held resp
      else match slotRead s u resp x.ctx slot 128 with
        | (s', none) => s'
        | (s', some (.error codes)) => resumeEnds s' u x (resOf codes)
        | (s', some (.ok (_, true))) => resumeEnds s' u x (resOf [stPOISON])
        | (s', some (.ok (rec_, false))) =>
          if recordBad rec_ then resumeEnds s' u x (reject stBAD)
          else restoreGo s' u x slot rec_ (respRest s' (.array u.die u.pen u.arr) x.ctx slot 128 resp)

/-- A pass preempted without PREEMPT_RETURN is resumed on the same unit when its turn comes. -/
def execResumeInPlace (u : UnitAns) (s : State) : Out := .next (if unitOk u.u then resumeHead s u.u u.resp else s)

/-- STATE_ERROR of a RESUME (R153). -/
def resumeState (s : State) (id : CmdId) (u : ArrayUnit) (r : List Byte) (x : Issue) : Bool :=
  let f := (ctxFold s id.ctx).getD 16
  let otherList := match mget s.lists (u.die * 9 + u.pen) with
    | some l => l.held.testBit u.arr && l.ctx != id.ctx
    | none => false
  !foldHasDie s f u.die || field r 0x4E 1 % 16 != f || (field r 0x42 1).testBit 1 != u.quarter || otherList ||
    (getCtl s u.die u.pen u.arr).offline || (getCtl s u.die u.pen u.arr).quarter != u.quarter ||
    (pReuse x && !reuseOk (getArr s u) x)

/-- Entries of an issue FIFO (R129). -/
def fifoDepth : Nat := 4

/-- Put a descriptor at the end of a unit's issue FIFO; none when it is full (R129). -/
def pushUnit (s : State) (u : ArrayUnit) (x : Issue) : Option State :=
  let a := getArr s u
  if fifoDepth ≤ a.fifo.length then none
  else some (putArr s u { a with fifo := a.fifo ++ [{ x with num := a.nextPass }], nextPass := a.nextPass + 1 })

/-- RESUME checks its own fields, reads the record through the issuing queue's stream, checks it and its
target, and places the pass on the target (R116, R120, R153); while the target's FIFO is full it waits (R129). -/
def resumeCmd (s : State) (id : CmdId) (c : Cmd) (resp : LineResp) : State :=
  let u := cmdUnit c
  let slot := cbits c 239 192
  if !reservedOk c.word.toNat [(133, 128), (239, 192)] || quarterBad c || slot % 4096 != 0 then
    rejectCmd s id stBAD
  else match streamRead s (.queue id.ctx id.q) {} id.ctx .rd resp [(slot, 128)] [] false with
    | (s', none) => s'
    | (s', some (.error codes)) => finishCmd s' id (resOf codes)
    | (s', some (.ok (_, true))) => finishCmd s' id (resOf [stPOISON])
    | (s', some (.ok (r, false))) =>
      let x : Issue :=
        { desc := recordDesc r, by_ := .cmd id, idx := 0, ctx := id.ctx, gen := cGen c, slot := some (slot, r) }
      acceptCmd s' id (recordBad r) (!arrayExists s.fuse.gradeB (u.die * 72 + u.pen * 8 + u.arr))
        (resumeState s' id u r x) fun _ =>
          match pushUnit s' u x with
          | none => s'
          | some s' => updCmd s' id fun c => { c with phase := .running }

/-- RESUME is accepted onto its target's FIFO; when it stands at the head there, its pass continues. -/
def execResume (c : CmdAns) (s : State) : Out :=
  .next (match findCmd s c.id with
    | some x =>
      if x.phase == .running && cOp x == 0x19 then
        (match unitNext s (cmdUnit x) with
          | some i => if i.by_ == .cmd c.id then resumeHead s (cmdUnit x) c.resp else s
          | none => s)
      else withCmd s c.id 0x19 fun x => resumeCmd s c.id x c.resp
    | none => s)

/-! ## Faults -/

/-- Record a fault in MXA_FAULT under its VALID rule (R123). -/
def mxaFault (s : State) (u : ArrayUnit) (cause : Nat) (shared : Bool) (ctx : Nat) : State :=
  let pg := pgMXA u.die u.pen u.arr
  if fbit s pg F.MXA_FAULT_VALID then s
  else
    let s := fput (fput (fput s pg F.MXA_FAULT_VALID 1) pg F.MXA_FAULT_CAUSE cause)
      pg F.MXA_FAULT_QUARTER_ID (if u.quarter then u.qid else 0)
    setLogged (fput (fputb s pg F.MXA_FAULT_SHARED shared) pg F.MXA_FAULT_CONTEXT ctx) pg

/-- Later descriptors of the running list that target a faulted array abort without running (R152): those accepted but
not begun, those that wait in its issue FIFOs, and those still to be issued when their turn comes. -/
def listFaulted (s : State) (u : ArrayUnit) : State :=
  match mget s.lists (u.die * 9 + u.pen) with
  | some l =>
    if l.held.testBit u.arr then
      let l' : ListSt := { l with faulted := l.faulted ||| 2 ^ u.arr }
      let s := { s with lists := mput s.lists (u.die * 9 + u.pen) l' }
      (unitsOf u.die u.pen u.arr).foldl (fun s v =>
        let a := getArr s v
        let list (x : Issue) : Bool := x.by_ == .list u.die u.pen
        let late (p : Pass) : Bool := !begun a p && list p.iss
        let mine := a.back.filter list ++ (a.passes.filter late).map (·.iss) ++ a.fifo.filter list
        let s := putArr s v { takeUnbegun a late with
          fifo := a.fifo.filter fun x => !list x, back := a.back.filter fun x => !list x }
        mine.foldl (fun s x => endUnrun s v x (resOf [stABORT])) s) s
    else s
  | none => s

/-- The passes begun on a unit stop, with their rows poisoned and their drains stopped (R117), and end one by one as
`finish` says. A pass accepted behind them and not begun goes first again, for the self-check and a new acceptance. -/
def endBegun (s : State) (u : ArrayUnit) (finish : State → Pass → State) : State :=
  let a := getArr s u
  let hit := a.passes.filter (begun a)
  let s := putArr s u (relast { a with
    passes := hit
    stream := []
    back := (a.passes.filter fun p => !begun a p).map (·.iss) ++ a.back })
  let s := putArr s u { getArr s u with lastLoad := lastSet a }
  hit.foldl (fun s p =>
    let s := (passRows p.iss).foldl (fun s r => poisonRow s u (pMode p.iss) r) s
    finish (putArr s u { getArr s u with staging := none, waves := (getArr s u).waves.filter fun w => w.pass != p.id }) p) s

/-- Abort the passes in flight on a unit (R117, R118). A pass that was being stopped, in its tail or its save, leaves a
record with VALID = 0 and poisoned rows (the tail counts as part of the save: DESIGN CHOICE, notes/assumptions/136.md). -/
def abortUnit (s : State) (u : ArrayUnit) : State :=
  endBegun s u fun s p =>
    if p.stop.isSome then
      abortSave (putArr s u (updPass (getArr s u) p.id fun p => { p with dead := true })) u { p with dead := true }
    else
      let s := bump (dropPass s u p.id) (pgMXA u.die u.pen u.arr) 9
      flushLate (descDone s p.iss (resOf (passConds p ++ [stABORT]))) u

/-- The passes begun on a unit whose logic hangs end with TIMEOUT (R459). -/
def hangUnit (s : State) (u : ArrayUnit) : State :=
  endBegun s u fun s p => flushLate (descDone (dropPass s u p.id) p.iss (resOf (passConds p ++ [stTIMEOUT]))) u

/-- An array detects a fault in its own logic (R112, R117): the quarter's pass, or every pass in flight for a
fault in the shared feed or drain path, aborts, and the self-check is due. -/
def arrayFault (s : State) (u : ArrayUnit) (cause : Nat) (shared : Bool) : State :=
  let c := getCtl s u.die u.pen u.arr
  let ctx := match passInFlight (getArr s u) with | some p => p.iss.ctx | none => 0
  let units := if shared then unitsOf u.die u.pen u.arr else [u]
  let s := mxaFault s u cause shared ctx
  let s := units.foldl (fun s v => abortUnit s v) (listFaulted s u)
  putCtl s u.die u.pen u.arr { c with checking := true }

end Sys2Proof.Machine
end

