-- ==== Sys2Proof/Machine/Codec.lean ====
section
/-! DEFINITION. The Llynox block codec of tier F: where a block of a compressed range lies (R221, R584), how
it is read (R222, R224) and how it is encoded (R223). -/

namespace Sys2Proof.Machine

open Sys2Proof

/-- Bit i of a bitmap (R222). -/
def bitmapBit (bm : List Byte) (i : Nat) : Bool := (lget bm (i / 8) 0).toNat.testBit (i % 8)

/-- Spread packed items of `w` bytes over the set places of a bitmap. -/
def spread (w : Nat) (bm : List Byte) : List Nat → List Byte → List Byte
  | [], _ => []
  | i :: t, packed =>
    if bitmapBit bm i then packed.take w ++ spread w bm t (packed.drop w)
    else List.replicate w 0 ++ spread w bm t packed

/-- Sectors that the mode takes for `n` non-zero items (R222). -/
def sectorsOf (mode n : Nat) : Nat :=
  match mode with
  | 0 => 0
  | 1 => 1
  | 2 => (256 + 2 * n + 255) / 256
  | 3 => (512 + n + 255) / 256
  | 4 => 16
  | _ => 0

/-- Set places among the first `n` of a bitmap. -/
def bitmapCount (bm : List Byte) (n : Nat) : Nat := ((List.range n).filter (bitmapBit bm)).length

/-- Decode a block from its map byte and slot (R222, R224); none where it reads as POISON, and whether the map
byte was invalid. -/
def decodeBlock (mapByte : Nat) (slot : List Byte) : Option (List Byte) × Bool :=
  let mode := mapByte % 8
  let sec := mapByte / 8
  match mode with
  | 0 => if sec = 0 then (some (List.replicate 4096 0), false) else (none, true)
  | 1 =>
    if sec = 1 then (some ((List.range 4096).map fun i => lget slot (i % 16) 0), false) else (none, true)
  | 2 =>
    let bm := slice slot 0 256
    let need := sectorsOf 2 (bitmapCount bm 2048)
    if need ≤ 16 ∧ sec = need then (some (spread 2 bm (List.range 2048) (slot.drop 256)), false)
    else (none, true)
  | 3 =>
    let bm := slice slot 0 512
    let need := sectorsOf 3 (bitmapCount bm 4096)
    if need ≤ 16 ∧ sec = need then (some (spread 1 bm (List.range 4096) (slot.drop 512)), false)
    else (none, true)
  | 4 => if sec = 16 then (some (slice slot 0 4096), false) else (none, true)
  | 7 => if sec = 0 then (none, false) else (none, true)
  | _ => (none, true)

/-- A bitmap of `n` places, eight to a byte. -/
def bitmapOf (n : Nat) (p : Nat → Bool) : List Byte :=
  (List.range (n / 8)).map fun j =>
    BitVec.ofNat 8 ((List.range 8).foldl (fun m i => if p (8 * j + i) then m + 2 ^ i else m) 0)

/-- The encoded form of a block and its map byte (R223). -/
def encodeBlock (b : List Byte) : Nat × List Byte :=
  let at_ (i : Nat) : Byte := lget b i 0
  let pad (x : List Byte) : List Byte := slice x 0 ((x.length + 255) / 256 * 256)
  if (List.range 4096).all fun i => at_ i == 0 then (0, [])
  else if (List.range 4096).all fun i => at_ i == at_ (i % 16) then (1 + 8, pad (slice b 0 16))
  else
    let hs := (List.range 2048).filter fun i => at_ (2 * i) != 0 || at_ (2 * i + 1) != 0
    let bs := (List.range 4096).filter fun i => at_ i != 0
    let s2 := sectorsOf 2 hs.length
    let s3 := sectorsOf 3 bs.length
    if s2 ≤ s3 ∧ s2 ≤ 16 then
      (2 + 8 * s2, pad (bitmapOf 2048 (fun i => hs.contains i) ++ hs.flatMap fun i => [at_ (2 * i), at_ (2 * i + 1)]))
    else if s3 ≤ 16 then
      (3 + 8 * s3, pad (bitmapOf 4096 (fun i => bs.contains i) ++ bs.map at_))
    else (4 + 8 * 16, slice b 0 4096)

/-- The host die of a block's slot or of its map byte does not serve requests (R316): the address that fails. -/
def compDown (s : State) (base v : Nat) : Option Nat :=
  if tierFDown s (slotPa base v) then some (slotPa base v)
  else if tierFDown s (mapPa base v) then some (mapPa base v) else none

/-- The 256 B lines of the first `n` sectors of a slot, each read whole. -/
def readSectors (s : State) (q : Asker) (slot n : Nat) : State × List Byte × Bool :=
  (List.range n).foldl (fun (acc : State × List Byte × Bool) i =>
    let r := cohRead acc.1 q (slot + i * 256) 256 .clean .clean
    (r.1, acc.2.1 ++ r.2.1, acc.2.2 || r.2.2)) (s, [], false)

/-- What a block of a compressed range gave: its 4,096 bytes or poison, the sectors read, and whether the map byte was
invalid. -/
structure BlockRd where
  data : Option (List Byte)
  sectors : Nat
  invalid : Bool
  deriving DecidableEq, Repr

/-- Read a block of a compressed range (R222, R224). A poisoned map byte or sector poisons the block (R216). -/
def readBlock (s : State) (q : Asker) (base v : Nat) (resp : LineResp) : State × BlockRd :=
  let c := respCodes resp
  let m := cohRead s q (mapPa base v) 1 c.1 c.2
  if m.2.2 then (m.1, ⟨none, 0, false⟩)
  else
    let b := (lget m.2.1 0 0).toNat
    let r := readSectors m.1 q (slotPa base v) (min (b / 8) 16)
    if r.2.2 then (r.1, ⟨none, b / 8, false⟩)
    else
      let d := decodeBlock b r.2.1
      (r.1, ⟨d.1, b / 8, d.2⟩)

/-- Write bytes of tier lines one after another; the answer says whether poison kept some from being written (R197). -/
def cohWrites (s : State) (q : Asker) (pa : Nat) (bs : List Byte) (p : Bool) : State × Bool :=
  (linePieces pa bs.length).foldl (fun (acc : State × Bool) l =>
    let r := cohWrite acc.1 q l.1 (slice bs (l.1 - pa) l.2) p .clean .clean
    (r.1, acc.2 || r.2.isSome)) (s, false)

/-- Write a block of a compressed range, sectors before map byte (R223, R224); a block that would hold poison
is written in mode POISON (R216). The answer counts the sectors, and says whether a poisoned map line kept the map byte
from being written (R197). -/
def writeBlock (s : State) (q : Asker) (base v : Nat) (b : List Byte) (poison : Bool) : State × Nat × Bool :=
  let e := if poison then (7, []) else encodeBlock b
  let w := cohWrites s q (slotPa base v) e.2 false
  let m := cohWrite w.1 q (mapPa base v) [BitVec.ofNat 8 e.1] false .clean .clean
  (m.1, e.2.length / 256, w.2 || m.2.isSome)

end Sys2Proof.Machine
end

