-- ==== Sys2Proof/Machine/Trans.lean ====
section
/-! DEFINITION. The exponential, the natural logarithm and the hyperbolic tangent of the vector unit (R133):
the exact value, worked out to `transP` binary places by series, rounded once to FP32. No argument of FP32
lies so near a rounding boundary that these places do not decide it (DEDUCED, notes/assumptions/20.md). -/

namespace Sys2Proof.Machine

open Sys2Proof

/-- Binary places carried. -/
def transP : Nat := 320

/-- Sum of `term` terms: t, t·r/(i·one), … with the divisor rising, all in units of 2^-transP. -/
def expGo (r : Nat) : Nat → Nat → Nat → Nat → Nat
  | 0, _, _, acc => acc
  | k + 1, i, t, acc => expGo r k (i + 1) (t * r / 2 ^ transP / i) (acc + t)

/-- e^r for 0 ≤ r < 1, r and the answer in units of 2^-transP. -/
def expFrac (r : Nat) : Nat := expGo r 90 1 (2 ^ transP) 0

/-- Sum of z^(2i+1)/(2i+1). -/
def atanhGo (z2 : Nat) : Nat → Nat → Nat → Nat → Nat
  | 0, _, _, acc => acc
  | k + 1, i, t, acc => atanhGo z2 k (i + 2) (t * z2 / 2 ^ transP) (acc + t / i)

/-- 2 artanh(n/d) = ln((d+n)/(d-n)) for 0 ≤ n/d ≤ 1/3, in units of 2^-transP. -/
def lnRatio (n d : Nat) : Nat :=
  let z := n * 2 ^ transP / d
  2 * atanhGo (z * z / 2 ^ transP) 110 1 z 0

/-- ln 2 = 2 artanh(1/3). -/
def lnTwo : Nat := lnRatio 1 3

/-- e^(±n/d) as a fraction, for n/d ≤ 200. -/
def expPos (neg : Bool) (n d : Nat) : Nat × Nat :=
  let x := n * 2 ^ transP / d
  let k := x / lnTwo
  let m := expFrac (x % lnTwo) * 2 ^ k
  if neg then (2 ^ transP, m) else (m, 2 ^ transP)

/-- e^a (R133, IEEE 754-2019 clause 9.2). -/
def fp32Exp (a : Word) : Word :=
  match ofFp32 a with
  | .nan => toFp32 .nan
  | .inf true => 0
  | .inf false => toFp32 (.inf false)
  | .fin s n d =>
    if 200 * d ≤ n then (if s then 0 else toFp32 (.inf false))
    else
      let e := expPos s n d
      toFp32 (.fin false e.1 e.2)

/-- ln a. -/
def fp32Log (a : Word) : Word :=
  match ofFp32 a with
  | .nan => toFp32 .nan
  | .inf true => toFp32 .nan
  | .inf false => toFp32 (.inf false)
  | .fin s n d =>
    if n = 0 then toFp32 (.inf true)
    else if s then toFp32 .nan
    else
      let k := log2Frac n d
      let m := scaleFrac n d k
      let f := Int.ofNat (lnRatio (m.1 - m.2) (m.1 + m.2))
      let v := f + k * Int.ofNat lnTwo
      toFp32 (.fin (v < 0) v.natAbs (2 ^ transP))

/-- tanh a = (e^2a - 1)/(e^2a + 1). -/
def fp32Tanh (a : Word) : Word :=
  match ofFp32 a with
  | .nan => toFp32 .nan
  | .inf s => toFp32 (.fin s 1 1)
  | .fin s n d =>
    if n = 0 then a
    else if 16 * d ≤ n then toFp32 (.fin s 1 1)
    else
      let e := expPos false (2 * n) d
      toFp32 (.fin s (e.1 - e.2) (e.1 + e.2))

end Sys2Proof.Machine
end

