-- ==== Sys2Proof/Machine/Pen.lean ====
section
/-! DEFINITION. The prep cores, the vector unit and the list sequencer of a pen (chapter 4): PEN_RUN and the
cores' programs (R127 to R131, R172, R175), the vector instructions (R132 to R135), lists (R152), and the
retirement of a generation (R157, R580). -/

namespace Sys2Proof.Machine

open Sys2Proof

/-! ## Prep cores -/

def coreOk (c : PrepCore) : Bool := c.die < 16 && c.pen < 9 && c.k < 4
def corePage (c : PrepCore) : Nat := pgPREP c.die c.pen c.k
def getCore (s : State) (c : PrepCore) : PrepSt := mgetD s.preps (slotOf (corePage c)) {}
def putCore (s : State) (c : PrepCore) (x : PrepSt) : State :=
  { s with preps := mput s.preps (slotOf (corePage c)) x }
def getReg (x : PrepSt) (r : Nat) : Word64 := lget x.regs (r % 32) 0
def setReg (x : PrepSt) (r : Nat) (v : Nat) : PrepSt :=
  { x with regs := lset x.regs (r % 32) (BitVec.ofNat 64 v) }

/-- The status of a PEN_RUN whose cores have all halted (R131, R573): the highest-ranked code, the R22
conditions among the codes, and how often the reported one was met. -/
def penRes (codes : List Nat) : Res :=
  let c := highest codes
  { code := c, cond := condBits codes
    note := if condOrder.contains c then min (codes.filter (· == c)).length 0xFFFF else 0 }

/-- A core ends its program with a code: its page records it, and the PEN_RUN ends with its last core
(R131, R159, R175). -/
def haltCore (s : State) (c : PrepCore) (code : Nat) : State :=
  let pg := corePage c
  let x := getCore s c
  let codes := (if code = 0 then [] else [code]) ++ List.replicate x.ovf stOVERFLOW ++
    (if fbit s pg F.PREP_STS_POISON then [stPOISON] else [])
  let s := fput (fput (fput s pg F.PREP_STS_RUNNING 0) pg F.PREP_STS_HALTED 1) pg F.PREP_STS_HALT_CODE code
  let s := updCmd s x.cmd fun y => { y with left := y.left - 1, codes := y.codes ++ codes }
  match findCmd s x.cmd with
  | some y => if y.phase == .running && y.left = 0 then finishCmd s x.cmd (penRes y.codes) else s
  | none => s

/-- A core stops on a fault: counted, recorded under PREP_FAULT's VALID rule, and halted (R131, R159). -/
def stopCore (s : State) (c : PrepCore) (code cause off : Nat) : State :=
  let pg := corePage c
  let s := bump s pg 8
  let s :=
    if fbit s pg F.PREP_FAULT_VALID then s
    else
      let s := fput (fput s pg F.PREP_FAULT_VALID 1) pg F.PREP_FAULT_CAUSE cause
      let s := fput s pg F.PREP_FAULT_PC ((getCore s c).pc / 4)
      let s := fput s pg F.PREP_FAULT_CONTEXT (fget s pg F.PREP_STS_CONTEXT)
      let s := if cause = 2 ∨ cause = 3 then fput s pg F.PREP_FADDR_OFFSET off else s
      setLogged s pg
  haltCore s c code

/-- Run `f` on a core that is running. -/
def withCore (s : State) (c : PrepCore) (f : PrepSt → State) : State :=
  if coreOk c && fbit s (corePage c) F.PREP_STS_RUNNING && !clocksStopped s then f (getCore s c) else s

/-- The instruction at the core's pc retires. -/
def retire (s : State) (c : PrepCore) : State :=
  let x := getCore s c
  bump (putCore s c { x with pc := Config.lpxNext x.ibuf x.pc }) (corePage c) 0

/-- Some named core has not halted (R153). -/
def coresBusy (s : State) (d p mask : Nat) : Bool :=
  (setBitsOf 4 mask).any fun k => !fbit s (pgPREP d p k) F.PREP_STS_HALTED

/-- PEN_RUN loads the image from the pen store into each named core's buffer and starts it at ENTRY with the
arguments in its first four registers (R127, R575), with the draw keys then in force (R398). The image load is a class-3
read (R166); a poisoned image ends the command with POISON and starts no core (DESIGN CHOICE, notes/assumptions/22.md),
and one that runs past the end of the pen store ends it with BAD_DESC (DESIGN CHOICE, notes/assumptions/137.md). -/
def penRun (s : State) (id : CmdId) (c : Cmd) : State :=
  let d := cDie c
  let p := cPen c
  let mask := cbits c 131 128
  let image := cbits c 177 160
  let entry := cbits c 209 192
  let len := cbits c 233 224 + 1
  let named := [(131, 128), (177, 160), (209, 192), (233, 224), (319, 256), (383, 320), (447, 384), (511, 448)]
  let bad := !reservedOk c.word.toNat named || mask = 0 || entry < image || image + len ≤ entry ||
    0x400000 < (image + len) * 16
  let out := match ctxFold s id.ctx with | some f => !foldHasDie s f d | none => true
  if storeBusy s d (0x4800000 + p * 0x400000) 1 && !bad && !out then s
  else acceptCmd s id bad false (out || coresBusy s d p mask) fun _ =>
    let r := paRead s 3 (penStorePa d p + image * 16) (len * 16)
    let s := r.1
    if r.2.poison then finishCmd s id (resOf [stPOISON])
    else
      let bytes := r.2.data
      let start (s : State) (k : Nat) : State :=
        let core : PrepCore := ⟨d, p, k⟩
        let pg := corePage core
        let x := getCore s core
        let args := [cbits c 319 256, cbits c 383 320, cbits c 447 384, cbits c 511 448]
        let x : PrepSt :=
          { x with regs := args.map (BitVec.ofNat 64) ++ x.regs.drop 4
                   ibuf := bytes ++ x.ibuf.drop (len * 16)
                   pc := (entry - image) * 16
                   cmd := id
                   gen := cGen c
                   issued := 0
                   ovf := 0
                   seed := ctxSeed s id.ctx
                   step := ctxStep s id.ctx }
        let s := putCore s core x
        let s := fput (fput s pg F.PREP_STS_RUNNING 1) pg F.PREP_STS_HALTED 0
        fput (fput s pg F.PREP_STS_CONTEXT id.ctx) pg F.PREP_STS_POISON 0
      let s := (setBitsOf 4 mask).foldl start s
      updCmd s id fun c => { c with phase := .running, left := popcount 4 mask }

def execPenRun (c : CmdId) (s : State) : Out := .next (withCmd s c 0x10 fun x => penRun s c x)

/-- A scalar instruction that touches only the core: the next pc and registers are the toolchain's encoding's
(R127); an undefined one stops the core with FAULT_ABORT (R131). -/
def execPrepInstruction (core : PrepCore) (s : State) : Out :=
  .next (withCore s core fun x =>
    match Config.lpxScalar x.ibuf x.pc x.regs with
    | none => stopCore s core stABORT 1 0
    | some (pc, regs) =>
      let regs := (List.range 32).map fun i => lget regs i 0
      bump (putCore s core { x with pc := pc, regs := regs }) (corePage core) 0)

/-- HALT with a code of R131; any other code is no instruction. -/
def execHalt (core : PrepCore) (code : Nat) (s : State) : Out :=
  .next (withCore s core fun _ =>
    if [stSUCCESS, stNOTE, stOVERFLOW, stPOISON].contains code then
      haltCore (bump s (corePage core) 0) core code
    else stopCore s core stABORT 1 0)

/-! ## A core's accesses to the stores -/

/-- The range lies in the stores a core reaches: its pen's array stores, the pen store, the die store
(R128). -/
def coreReaches (c : PrepCore) (off n : Nat) : Bool :=
  let inside (lo size : Nat) : Bool := lo ≤ off && off + n ≤ lo + size
  inside (c.pen * 0x800000) 0x800000 || inside (0x4800000 + c.pen * 0x400000) 0x400000 ||
    inside 0x6C00000 0x1000000

/-- An access of a core: it waits while the store's port is not to be had (R170, R178), stops the core outside its stores
(R128) or in the keep region (R179), and otherwise goes on at its physical address. -/
def coreAccess (s : State) (c : PrepCore) (off n : Nat) (go : Nat → State) : State :=
  if !coreReaches c off n then stopCore s c stHOLE 2 off
  else if inKeep off n then stopCore (bump s (pgSPAD c.die) 12) c stPERM 3 off
  else if storeBusy s c.die off n || storeBusy s c.die (off + n - 1) 1 then s
  else go (spadBase + c.die * 0x8000000 + off)

/-- The core met poison (R175). -/
def corePoison (s : State) (c : PrepCore) (p : Bool) : State :=
  if p then fput s (corePage c) F.PREP_STS_POISON 1 else s

/-- A class-4 read of a core: the data as read, and its flag set on poison (R166, R175). -/
def coreRead (s : State) (c : PrepCore) (pa n : Nat) : State × List Byte :=
  let r := paRead s 4 pa n
  (corePoison r.1 c r.2.poison, r.2.data)

/-- A class-4 write of a core in a view: poison that keeps bytes from being written sets its flag (R171, R174, R175). -/
def coreWrite (s : State) (c : PrepCore) (view pa : Nat) (bs : List Byte) : State :=
  let r := paWrite s 4 view pa bs false
  corePoison r.1 c r.2.met

/-- A load into a register or a store of a register's low bytes (R128). The instruction set ships with the toolchain: that
accesses have 1 to 8 B at any alignment, and that loads extend with zeros, is the model's (DESIGN CHOICE,
notes/assumptions/138.md). -/
def execPrepLoadStore (core : PrepCore) (store : Bool) (off len reg : Nat) (s : State) : Out :=
  .next (withCore s core fun x =>
    if len = 0 ∨ 8 < len then s
    else coreAccess s core off len fun pa =>
      if store then retire (coreWrite s core 0 pa (leBytes len (getReg x reg).toNat)) core
      else
        let r := coreRead s core pa len
        retire (putCore r.1 core (setReg x reg (leNat r.2))) core)

/-- The bytes of a set view (M OR D) or a clear view (M AND NOT D) write (R171). -/
def viewBytes (clear : Bool) (m d : List Byte) : List Byte :=
  (m.zip d).map fun e => if clear then e.1 &&& ~~~ e.2 else e.1 ||| e.2

/-- A view store of a core; an aligned 8 B one may fetch the value held before (R171, R172). -/
def execPrepViewStore (core : PrepCore) (clear fetch : Bool) (off len reg dst : Nat) (s : State) : Out :=
  .next (withCore s core fun x =>
    if len = 0 ∨ 8 < len then s
    else if fetch && (len != 8 || off % 8 != 0) then stopCore s core stABORT 1 0
    else coreAccess s core off len fun pa =>
      let old := leNat (readBytes s pa len)
      let s := coreWrite s core (if clear then 2 else 1) pa (leBytes len (getReg x reg).toNat)
      let s := bump s (corePage core) 7
      retire (if fetch then putCore s core (setReg x dst old) else s) core)

/-! ## Issue ports -/

def hatchKey (d p : Nat) : Nat := d * 9 + p
def getHatch (s : State) (d p : Nat) : HatchSt := mgetD s.hatches (hatchKey d p) {}
def putHatch (s : State) (d p : Nat) (x : HatchSt) : State :=
  { s with hatches := mput s.hatches (hatchKey d p) x }

/-- Write a descriptor into an issue FIFO; none when it is full (R129). -/
def pushIssue (s : State) (d p : Nat) (port : IssuePort) (x : Issue) : Option State :=
  match port with
  | .hatch =>
    let h := getHatch s d p
    if fifoDepth ≤ h.fifo.length then none
    else some (putHatch s d p { h with fifo := h.fifo ++ [{ x with num := h.nextNum }], nextNum := h.nextNum + 1 })
  | .array a => pushUnit s ⟨d, p, a, false, 0⟩ x
  | .quarter a q => pushUnit s ⟨d, p, a, true, q⟩ x

/-- The port names an array and quarter that a pen has. -/
def portOk (port : IssuePort) : Bool :=
  match port with
  | .hatch => true
  | .array a => a < 8
  | .quarter a q => a < 8 && q < 4

/-- A core issues a descriptor: it reserves a completion entry, or the core stalls for that cycle (R129,
R130). -/
def execPrepIssueDesc (core : PrepCore) (port : IssuePort) (desc : BitVec 512) (s : State) : Out :=
  .next (withCore s core fun x =>
    let pg := corePage core
    if !portOk port then s
    else if 32 ≤ x.reserved + x.cpl.length then bump s pg 4
    else
      let iss : Issue :=
        { desc := desc, by_ := .core core, idx := x.issued, ctx := fget s pg F.PREP_STS_CONTEXT, gen := x.gen }
      match pushIssue s core.die core.pen port iss with
      | none => bump s pg 3
      | some s =>
        let s := putCore s core { getCore s core with reserved := x.reserved + 1, issued := x.issued + 1 }
        retire (bump s pg 6) core)

/-- A core reads the oldest record of its completion FIFO into two registers, or waits for one (R130). -/
def execPrepCompletionRead (core : PrepCore) (reg : Nat) (s : State) : Out :=
  .next (withCore s core fun x =>
    match x.cpl with
    | [] => s
    | r :: t =>
      let x := setReg (setReg x reg (field r 0 8)) (reg + 1) (field r 8 8)
      retire (putCore s core { x with cpl := t }) core)

/-! ## The vector unit -/

def pgVecOf (c : PrepCore) : Nat := pgVEC c.die c.pen
def vregKey (c : PrepCore) (r : Nat) : Nat := (c.die * 9 + c.pen) * 128 + c.k * 32 + r % 32

/-- Vector register `r` of a core: V(32k + r), 32 lanes (R132). -/
def getVreg (s : State) (c : PrepCore) (r : Nat) : List Word :=
  mgetD s.vregs (vregKey c r) (List.replicate 32 0)
def putVreg (s : State) (c : PrepCore) (r : Nat) (v : List Word) : State :=
  { s with vregs := mput s.vregs (vregKey c r) v }

/-- Count a vector instruction under counter `n` of the vector unit, and retire it. -/
def vecRetire (s : State) (c : PrepCore) (n : Nat) : State :=
  retire (bump (bump s (pgVecOf c) n) (corePage c) 5) c

/-- A lane-wise instruction of one operand. -/
def vecMap1 (s : State) (c : PrepCore) (n d a : Nat) (f : Word → Word) : State :=
  withCore s c fun _ => vecRetire (putVreg s c d ((getVreg s c a).map f)) c n

/-- A lane-wise instruction of two operands. -/
def vecMap2 (s : State) (c : PrepCore) (n d a b : Nat) (f : Word → Word → Word) : State :=
  withCore s c fun _ =>
    vecRetire (putVreg s c d (((getVreg s c a).zip (getVreg s c b)).map fun e => f e.1 e.2)) c n

/-- 1.0 in FP32. -/
def fp32One : Word := 0x3F800000

/-- RNE of the exact 1/√a (R133); the reciprocal square root of −0 is −∞, as in IEEE 754-2019 clause 9.2. -/
def fp32Rsqrt (a : Word) : Word :=
  match ofFp32 a with
  | .nan => toFp32 .nan
  | .inf true => toFp32 .nan
  | .inf false => 0
  | .fin s n d =>
    if n = 0 then toFp32 (.inf s)
    else if s then toFp32 .nan
    else
      -- 1/√(n/d) = √(d/n), to 400 places with a sticky place below them
      let q := isqrt (d * 2 ^ 800 / n)
      let v := if q * q * n == d * 2 ^ 800 then 2 * q else 2 * q + 1
      toFp32 (.fin false v (2 ^ 401))

def execVadd (core : PrepCore) (d a b : Nat) (s : State) : Out := .next (vecMap2 s core 0 d a b fp32Add)
def execVsub (core : PrepCore) (d a b : Nat) (s : State) : Out := .next (vecMap2 s core 0 d a b fp32Sub)
def execVmul (core : PrepCore) (d a b : Nat) (s : State) : Out := .next (vecMap2 s core 0 d a b fp32Mul)
def execVmin (core : PrepCore) (d a b : Nat) (s : State) : Out := .next (vecMap2 s core 0 d a b fp32Min)
def execVmax (core : PrepCore) (d a b : Nat) (s : State) : Out := .next (vecMap2 s core 0 d a b fp32Max)
def execVdiv (core : PrepCore) (d a b : Nat) (s : State) : Out := .next (vecMap2 s core 1 d a b fp32Div)
def execVsqrt (core : PrepCore) (d a : Nat) (s : State) : Out := .next (vecMap1 s core 1 d a fp32Sqrt)
def execVrcp (core : PrepCore) (d a : Nat) (s : State) : Out :=
  .next (vecMap1 s core 1 d a (fp32Div fp32One))
def execVrsqrt (core : PrepCore) (d a : Nat) (s : State) : Out := .next (vecMap1 s core 1 d a fp32Rsqrt)
def execVexp (core : PrepCore) (d a : Nat) (s : State) : Out := .next (vecMap1 s core 1 d a fp32Exp)
def execVlog (core : PrepCore) (d a : Nat) (s : State) : Out := .next (vecMap1 s core 1 d a fp32Log)
def execVtanh (core : PrepCore) (d a : Nat) (s : State) : Out := .next (vecMap1 s core 1 d a fp32Tanh)

/-- a × b + c per lane, rounded once. -/
def execVfma (core : PrepCore) (d a b c : Nat) (s : State) : Out :=
  .next (withCore s core fun _ =>
    let v := ((getVreg s core a).zip ((getVreg s core b).zip (getVreg s core c))).map fun e =>
      fp32Fma e.1 e.2.1 e.2.2
    vecRetire (putVreg s core d v) core 0)

/-- Add adjacent values, lower index first: one level of the fixed tree (R134). -/
def pairSums : List Word → List Word
  | a :: b :: t => fp32Add a b :: pairSums t
  | l => l

/-- The five levels of R134. -/
def treeSum (v : List Word) : Word := lget (pairSums (pairSums (pairSums (pairSums (pairSums v))))) 0 0

/-- The sum of the 32 lanes goes into lane 0 of the destination; its other lanes keep what they hold. -/
def execVrsum (core : PrepCore) (d a : Nat) (s : State) : Out :=
  .next (withCore s core fun _ =>
    let v := lset (getVreg s core d) 0 (treeSum (getVreg s core a))
    vecRetire (bump (putVreg s core d v) (pgVecOf core) 0) core 2)

/-- The core's 32 registers are transposed as a 32 × 32 tile. -/
def execVtrn (core : PrepCore) (s : State) : Out :=
  .next (withCore s core fun _ =>
    let t := (List.range 32).map fun r => (List.range 32).map fun l => lget (getVreg s core l) r 0
    vecRetire ((List.range 32).foldl (fun s' r => putVreg s' core r (lget t r [])) s) core 3)

/-- Bytes of 32 elements of a format, and of their scales. -/
def vecBytes (fmt : Nat) : Nat := 4 * elemBits fmt
def vecScales (fmt : Nat) : Nat := max (32 / blockElems fmt) 1 * scaleBytes fmt

/-- Widen 32 elements (R64): the lanes, and how many overflowed. -/
def widenLanes (fmt : Nat) (t : Word) (sat : Bool) (bs ss : List Byte) : List (Nat × Bool) :=
  (List.range 32).map fun i =>
    let sc := field ss (i / blockElems fmt * scaleBytes fmt) (scaleBytes fmt)
    narrow fFP32 sat .rne (blockV fmt sc t (getElem fmt bs i))

/-- Count the overflowed elements of a conversion for the vector unit and for the core (R68, R160). -/
def vecOverflow (s : State) (c : PrepCore) (n : Nat) : State :=
  let x := getCore s c
  putCore s c { x with ovf := x.ovf + n }

/-- Load 32 elements of a format, with their scales where it is block scaled, and widen them. -/
def vecLoad (s : State) (c : PrepCore) (cnt d fmt off scaleOff : Nat) (t : Word) (sat : Bool) : State :=
  let nb := vecBytes fmt
  let ns := vecScales fmt
  let step (s : State) (spa : Option Nat) : State :=
    coreAccess s c off nb fun pa =>
      let r := coreRead s c pa nb
      let q := match spa with | some a => coreRead r.1 c a ns | none => (r.1, [])
      let v := widenLanes fmt t sat r.2 q.2
      let n := (v.filter (·.2)).length
      let s := q.1
      let s := putVreg s c d (v.map fun e => BitVec.ofNat 32 e.1)
      let s := if cnt = 0 then bumpBy s (pgVecOf c) 6 n else bump s (pgVecOf c) 0
      vecRetire (vecOverflow s c n) c cnt
  if isBlock fmt then coreAccess s c scaleOff ns fun spa => step s (some spa) else step s none

/-- A format and tensor scale that VLD.W and the block instructions take (R57, R70, R133). What an instruction does that names
another is not stated: it is an undefined instruction, as R131 has it (DESIGN CHOICE, notes/assumptions/139.md). -/
def vecFmtOk (fmt : Nat) (t : Word) : Bool := fmtKnown fmt && (fmt != 0x0B || sb4ScaleOk t)

/-- An MX format or SB4: what VBENC and VBDEC take (R133); another makes an undefined instruction
(notes/assumptions/139.md). -/
def blockFmtOk (fmt : Nat) (t : Word) : Bool := vecFmtOk fmt t && 5 ≤ fmt && fmt ≤ 0x0B

def execVldW (core : PrepCore) (d fmt off scaleOff : Nat) (tScale : BitVec 32) (sat : Bool) (s : State) : Out :=
  .next (withCore s core fun _ =>
    if vecFmtOk fmt tScale then vecLoad s core 0 d fmt off scaleOff tScale sat
    else stopCore s core stABORT 1 0)

/-- Decode one MX block or four SB4 blocks to 32 lanes. -/
def execVbdec (core : PrepCore) (d fmt off scaleOff : Nat) (tScale : BitVec 32) (s : State) : Out :=
  .next (withCore s core fun _ =>
    if blockFmtOk fmt tScale then vecLoad s core 4 d fmt off scaleOff tScale false
    else stopCore s core stABORT 1 0)

/-- The draw of lane `l` under a key, with the seed and step in force when the PEN_RUN was accepted (R88, R133, R398). -/
def laneDraw (s : State) (c : PrepCore) (k : SrKey) (l : Nat) : Nat :=
  let x := getCore s c
  stippleU x.seed x.step k.tensor (k.coord + l) k.purpose

/-- A purpose code that R88 lists. -/
def purposeOk (p : Nat) : Bool := (1 ≤ p && p ≤ 4) || (0x10 ≤ p && p ≤ 0x1F)

/-- A reserved purpose makes the PEN_RUN complete with BAD_DESC (R88): the core stops, with the undefined-instruction cause
(DESIGN CHOICE, notes/assumptions/139.md). A draw for a coordinate of 2^56 or more stops it before it writes (R88, R131). -/
def drawGuard (s : State) (c : PrepCore) (sr : Option SrKey) (go : State) : State :=
  match sr with
  | some k =>
    if !purposeOk k.purpose then stopCore s c stBAD 1 0
    else if 2 ^ 56 ≤ k.coord + 31 then stopCore s c stUNSUP 6 0 else go
  | none => go

/-- Narrow to a plain format and store; a block format or a reserved code makes an undefined instruction
(notes/assumptions/139.md). -/
def execVstN (core : PrepCore) (a fmt off scaleOff : Nat) (tScale : BitVec 32) (sat : Bool)
    (sr : Option SrKey) (s : State) : Out :=
  let _ := (scaleOff, tScale)
  .next (withCore s core fun _ =>
    if !(fmtKnown fmt && !isBlock fmt) then stopCore s core stABORT 1 0
    else drawGuard s core sr (coreAccess s core off (vecBytes fmt) fun pa =>
      let v := mapIdx (fun l w => narrow (elemFmt fmt) sat
        (match sr with | some k => .sr (laneDraw s core k l) | none => .rne) (ofFp32 w)) 0 (getVreg s core a)
      let n := (v.filter (·.2)).length
      let s := coreWrite s core 0 pa (packElems fmt (v.map (·.1)))
      let s := bumpBy (vecOverflow s core n) (pgVecOf core) 6 n
      let s := if sr.isSome then bumpBy s (pgVecOf core) 7 32 else s
      vecRetire s core 0))

/-- Encode 32 lanes as one MX block or four SB4 blocks and store them with their scales. -/
def execVbenc (core : PrepCore) (a fmt off scaleOff : Nat) (tScale : BitVec 32) (sr : Option SrKey)
    (s : State) : Out :=
  .next (withCore s core fun _ =>
    if !blockFmtOk fmt tScale then stopCore s core stABORT 1 0
    else drawGuard s core sr (coreAccess s core scaleOff (vecScales fmt) fun spa =>
      coreAccess s core off (vecBytes fmt) fun pa =>
        let bl := blockElems fmt
        let vs := (getVreg s core a).map ofFp32
        let blocks := (List.range (32 / bl)).map fun b =>
          encBlock fmt tScale (sr.map fun k i => laneDraw s core k (b * bl + i)) ((vs.drop (b * bl)).take bl)
        let n := ((List.range (32 / bl)).map fun b => overflowed fmt tScale ((vs.drop (b * bl)).take bl)).foldl (· + ·) 0
        let s := coreWrite s core 0 pa (packElems fmt (blocks.flatMap (·.codes)))
        let s := coreWrite s core 0 spa (blocks.map fun b => BitVec.ofNat 8 b.scale)
        let s := bumpBy (vecOverflow s core n) (pgVecOf core) 6 n
        let s := if sr.isSome then bumpBy s (pgVecOf core) 7 32 else s
        vecRetire (bump s (pgVecOf core) 0) core 4))

end Sys2Proof.Machine
end

