-- ==== Sys2Proof/Machine/Hatch.lean ====
section
/-! DEFINITION. The hatch unit (R136 to R138, R161), the list sequencer (R152) and the retirement of a
generation (R157, R580). -/

namespace Sys2Proof.Machine

open Sys2Proof

/-! ## The hatch descriptor (R137) -/

def hVectors (x : Issue) : Nat := dbits x 10 8 + 1
def hFmtW (x : Issue) : Nat := dbits x 16 12
def hFmtV (x : Issue) : Nat := dbits x 21 17
def hSpace (x : Issue) : Nat := dbits x 23 22
def hLoad (x : Issue) : Bool := dbits x 24 24 == 1
def hMode (x : Issue) : Nat := dbits x 26 25
def hOutFmt (x : Issue) : Nat := dbits x 31 27
def hK (x : Issue) : Nat := dbits x 63 48 + 1
def hN (x : Issue) : Nat := dbits x 79 64 + 1
def hTW (x : Issue) : Word := BitVec.ofNat 32 (dbits x 335 304)
def hTV (x : Issue) : Word := BitVec.ofNat 32 (dbits x 367 336)

/-- Bytes of `k` elements, and of their block scales (R62, R63). -/
def rowBytes (fmt k : Nat) : Nat := (k * elemBits fmt + 7) / 8
def rowScaleBytes (fmt k : Nat) : Nat :=
  if isBlock fmt then (k + blockElems fmt - 1) / blockElems fmt * scaleBytes fmt else 0

/-- Physical base and size of the store that holds the outputs, or the weights in W_SPACE 1 and 2. -/
def hatchStore (d p : Nat) (die : Bool) : Nat × Nat :=
  if die then (dieStorePa d, 0x1000000) else (penStorePa d p, 0x400000)

/-- The ranges that R136 holds inside their stores. -/
def hatchRangesBad (x : Issue) : Bool :=
  let v1 := hVectors x - 1
  let n1 := hN x - 1
  let rb := rowBytes (hFmtW x) (hK x)
  let rs := rowScaleBytes (hFmtW x) (hK x)
  let size (die : Bool) : Nat := (hatchStore 0 0 die).2
  let w := size (hSpace x == 2)
  size false < (dbits x 259 240 + v1 * dbits x 271 260) * 16 + rowBytes (hFmtV x) (hK x) ||
    (isBlock (hFmtV x) &&
      size false < (dbits x 291 272 + v1 * dbits x 303 292) * 16 + rowScaleBytes (hFmtV x) (hK x)) ||
    size (dbits x 33 33 == 1) <
      (dbits x 387 368 + v1 * dbits x 403 388) * 16 + hN x * elemBits (hOutFmt x) / 8 ||
    (hSpace x != 0 && (w < dbits x 127 80 + n1 * dbits x 159 128 + rb ||
      (isBlock (hFmtW x) && w < dbits x 207 160 + n1 * dbits x 239 208 + rs)))

/-- BAD_DESC of a hatch descriptor (R57, R70, R136, R137). -/
def hatchBad (x : Issue) : Bool :=
  dbits x 7 0 != 0x51 || dbits x 11 11 != 0 || dbits x 47 34 != 0 || dbits x 511 404 != 0 ||
    !fmtKnown (hFmtW x) || !fmtKnown (hFmtV x) || !fmtKnown (hOutFmt x) || hSpace x == 3 || hMode x == 3 ||
    (hFmtW x == 0x0B && !sb4ScaleOk (hTW x)) || (hFmtV x == 0x0B && !sb4ScaleOk (hTV x)) ||
    65536 < hVectors x * (rowBytes (hFmtV x) (hK x) + rowScaleBytes (hFmtV x) (hK x)) ||
    hatchRangesBad x

/-- UNSUPPORTED of a hatch descriptor (R137). -/
def hatchUnsup (x : Issue) : Bool :=
  fmtClass (hFmtW x) == 0 || (fmtClass (hFmtV x) != fmtClass (hFmtW x) && hFmtV x != 0x01) ||
    hMode x == 2 || 2 < hOutFmt x

/-- The acceptance of a hatch descriptor (R21, R153). -/
def hatchCheck (s : State) (d : Nat) (x : Issue) : Option Nat :=
  let out := match ctxFold s x.ctx with | some f => !foldHasDie s f d | none => true
  acceptance (hatchBad x) (hatchUnsup x) (out || (hLoad x && hOutFmt x != 0))

/-! ## Running -/

/-- The code of an end, as HATCH_ERRLOG.CAUSE names it (R161). -/
def hatchCause (code : Nat) : Nat :=
  if code = stPOISON then 1 else if code = stTIER then 2
  else if [stSEG, stPERM, stWINDOW, stHOLE].contains code then 3 else 0

/-- Record an error in HATCH_ERRLOG under its VALID rule. -/
def hatchLog (s : State) (d p cause ctx : Nat) : State :=
  let pg := pgHATCH d p
  if cause = 0 || fbit s pg F.HATCH_ERRLOG_VALID then s
  else setLogged (fput (fput (fput s pg F.HATCH_ERRLOG_VALID 1) pg F.HATCH_ERRLOG_CAUSE cause)
    pg F.HATCH_ERRLOG_CONTEXT ctx) pg

/-- The records of hatch descriptors that ended without running, once every earlier one of the port has ended (R130). -/
def flushHatch (s : State) (d p : Nat) : State :=
  let h := getHatch s d p
  let open_ (n : Nat) : Bool := ((h.run.map (·.iss)).toList ++ h.fifo).any fun x => x.num < n
  let go := h.late.takeWhile fun e => !open_ e.1.num
  go.foldl (fun s e => descDone s e.1 e.2) (putHatch s d p { h with late := h.late.drop go.length })

/-- A hatch descriptor ends without running, in the order of issue (R130). -/
def hatchUnrun (s : State) (d p : Nat) (x : Issue) (r : Res) : State :=
  let h := getHatch s d p
  flushHatch (putHatch s d p { h with late := h.late ++ [(x, r)] }) d p

/-- A hatch descriptor ends: counted, logged, and its issuer told. -/
def hatchEnd (s : State) (d p : Nat) (x : Issue) (r : Res) : State :=
  let pg := pgHATCH d p
  let s := putHatch s d p { getHatch s d p with run := none }
  let s := bump s pg 0
  let s := if r.code = stPOISON then bump s pg 5 else if r.code = stTIER then bump s pg 6 else s
  flushHatch (descDone (hatchLog s d p (hatchCause r.code) x.ctx) x r) d p

/-- The outputs of a descriptor that a lower tier failed are undefined (R226, R576). -/
def hatchUndef (s : State) (d p : Nat) (x : Issue) : State :=
  let base := (hatchStore d p (dbits x 33 33 == 1)).1
  (List.range (hVectors x)).foldl (fun s v =>
    let pa := base + (dbits x 387 368 + v * dbits x 403 388) * 16
    let n := hN x * (elemBits (hOutFmt x) / 8)
    if inKeep (pa - spadBase - d * 0x8000000) n then s else makeUndef s pa (pa + n)) s

/-- The conditions of a hatch descriptor so far (R22, R81). -/
def hatchConds (r : HatchRun) : List Nat := r.conds ++ List.replicate r.ovf stOVERFLOW ++ List.replicate r.inv stNOTE

/-- A hatch descriptor whose read of weights failed ends with what it has met (R22). -/
def hatchFail (s : State) (d p : Nat) (r : HatchRun) (codes : List Nat) : State :=
  hatchEnd (if codes.contains stTIER then hatchUndef s d p r.iss else s) d p r.iss (resOf (hatchConds r ++ codes))

/-- Read the vectors and their scales into the vector buffer (R136): bytes, scales and poison, by class-1 reads. -/
def hatchVectors (s : State) (d p : Nat) (x : Issue) : State × List (List Byte × List Byte × Bool) :=
  (List.range (hVectors x)).foldl (fun acc v =>
    let va := penStorePa d p + (dbits x 259 240 + v * dbits x 271 260) * 16
    let sa := penStorePa d p + (dbits x 291 272 + v * dbits x 303 292) * 16
    let e := paRead acc.1 1 va (rowBytes (hFmtV x) (hK x))
    let c := paRead e.1 1 sa (rowScaleBytes (hFmtV x) (hK x))
    (c.1, acc.2 ++ [(e.2.data, c.2.data, e.2.poison || c.2.poison)])) (s, [])

/-- The descriptor at the head of the hatch FIFO is checked and starts (R129, R136). -/
def hatchStart (s : State) (d p : Nat) : State :=
  let h := getHatch s d p
  match h.fifo, h.run with
  | x :: t, none =>
    if storeBusy s d (0x4800000 + p * 0x400000) 1 then s
    else
      let s := putHatch s d p { h with fifo := t }
      match hatchCheck s d x with
      | some code => hatchUnrun s d p x (reject code)
      | none =>
        let f := (ctxFold s x.ctx).getD 0
        if fenced s f then hatchUnrun s d p x (resOf [stFENCED])
        else
          let r := hatchVectors s d p x
          let vs := r.2
          let run : HatchRun :=
            { iss := x
              fold := f
              vecs := vs.map fun e => e.1
              vscales := vs.map fun e => e.2.1
              vpoison := vs.map fun e => e.2.2 }
          putHatch r.1 d p { h with fifo := t, run := some run }
  | _, _ => s

/-- A hatch descriptor is checked and accepted. -/
def execHatch (die pen : Nat) (s : State) : Out :=
  .next (if die < 16 ∧ pen < 9 ∧ !clocksStopped s then hatchStart s die pen else s)

/-- Read one piece of weights or scales, in the space of W_SPACE (R137): through the unit's stream, or
straight from a store, where the keep region refuses it (R179). A plain format has no scales to read. -/
def hatchRead (s : State) (d p : Nat) (x : Issue) (off n : Nat) (resp : LineResp) :
    State × Option (Except (List Nat) (List Byte × Bool)) :=
  if n = 0 then (s, some (.ok ([], false)))
  else if hSpace x = 0 then
    streamRead s (.hatch d p) {} x.ctx .rd resp (linePieces off n) [] false
  else
    let pa := (hatchStore d p (hSpace x == 2)).1 + off
    if storeBusy s d ((pa - spadBase) % 0x8000000) n then (s, none)
    else
      let r := paRead s 1 pa n
      (r.1, some (if r.2.refused then .error [stPERM] else .ok (r.2.data, r.2.poison)))

/-- One output's accumulator before its first group, and what its read met (R108, R137). -/
def hatchInit (s : State) (pa : Nat) (x : Issue) : State × Acc × PortRd :=
  if hLoad x then
    let r := paRead s 1 pa 4
    (r.1, { acc := BitVec.ofNat 32 (leNat r.2.data) }, r.2)
  else (s, {}, {})

/-- The accumulator of row data `w`, scales `ws` against vector `v` (R76 to R80, R138). -/
def hatchDot (x : Issue) (w ws v vs : List Byte) (a : Acc) : Acc :=
  let fw := hFmtW x
  let fv := hFmtV x
  let gl := groupLen fw fv
  let k := hK x
  let sc (f : Nat) (b : List Byte) (e : Nat) : Nat :=
    if isBlock f then (lget b (e / blockElems f) 0).toNat else 0
  (List.range ((k + gl - 1) / gl)).foldl (fun a g =>
    let es := (List.range gl).filterMap fun j => if g * gl + j < k then some (g * gl + j) else none
    let ops := es.map fun e =>
      let wc := getElem fw w e
      let vc := getElem fv v e
      ((operandV fw (sc fw ws e) (hTW x) wc, operandV fv (sc fv vs e) (hTV x) vc),
        elemIsNan fw (sc fw ws e) wc || elemIsNan fv (sc fv vs e) vc)
    accAdd (hMode x == 1) (ops.any (·.2)) a (groupSum (ops.map (·.1)))) a

/-- Row n has ended: form and write its outputs (R137, R138, R175). -/
def hatchRow (s : State) (d p : Nat) (r : HatchRun) (ws : List Byte) (wsPoison : Bool) : State × HatchRun :=
  let x := r.iss
  let f := hOutFmt x
  let pg := pgHATCH d p
  let base := (hatchStore d p (dbits x 33 33 == 1)).1
  (List.range (hVectors x)).foldl (fun (acc : State × HatchRun) v =>
    let s := acc.1
    let pa := base + (dbits x 387 368 + v * dbits x 403 388) * 16 + r.row * (elemBits f / 8)
    let i := hatchInit s pa x
    let poison := r.rowPoison || wsPoison || lget r.vpoison v false || i.2.2.poison
    let a := hatchDot x r.got ws (lget r.vecs v []) (lget r.vscales v []) i.2.1
    let e := narrow (elemFmt f) (dbits x 32 32 == 1) .rne (drainValue (hMode x) false a)
    let w := paWrite i.1 2 0 pa (leBytes (elemBits f / 8) e.1) poison
    let s := if w.2.refused then w.1 else bump w.1 pg 2
    let s := if a.ovf then bump s pg 7 else s
    let s := if a.inv then bump s pg 8 else s
    let r := acc.2
    (s, { r with
      conds := r.conds ++ (if poison || w.2.met then [stPOISON] else []) ++
        (if w.2.refused || i.2.2.refused then [stPERM] else []) ++ (if e.2 then [stOVERFLOW] else [])
      ovf := r.ovf + bitN a.ovf
      inv := r.inv + bitN a.inv })) (s, r)

/-- The status of a hatch descriptor whose rows have ended. -/
def hatchRes (r : HatchRun) : Res := resOf (hatchConds r)

/-- The port of the store that a row's outputs go to is not to be had (R170, R178). -/
def hatchOutBusy (s : State) (d p : Nat) (r : HatchRun) : Bool :=
  let x := r.iss
  let base := (hatchStore d p (dbits x 33 33 == 1)).1
  (List.range (hVectors x)).any fun v =>
    let pa := base + (dbits x 387 368 + v * dbits x 403 388) * 16 + r.row * (elemBits (hOutFmt x) / 8)
    storeBusy s d ((pa - spadBase) % 0x8000000) (elemBits (hOutFmt x) / 8)

/-- Count weight bytes in units of 256 B (counter 1 of R161). -/
def hatchBytes (s : State) (d p n : Nat) : State :=
  let h := getHatch s d p
  let t := h.byteRem + n
  bumpBy (putHatch s d p { h with byteRem := t % 256 }) (pgHATCH d p) 1 (t / 256)

/-- Up to 256 B of weights stream past the vectors; the end of a row writes its outputs, and the last row
completes the descriptor (R136, R138). A read that fails ends it with its code. -/
def weightLine (s : State) (d p : Nat) (resp : LineResp) : State :=
  match (getHatch s d p).run with
  | none => s
  | some r =>
    let x := r.iss
    let rb := rowBytes (hFmtW x) (hK x)
    let rs := rowScaleBytes (hFmtW x) (hK x)
    let off := dbits x 127 80 + r.row * dbits x 159 128 + r.got.length
    let n := min (rb - r.got.length) (256 - off % 256)
    if dutyFrozen s d || (rb ≤ r.got.length + n && hatchOutBusy s d p r) then s
    else match hatchRead s d p x off n resp with
    | (s', none) => s'
    | (s', some (.error codes)) => hatchFail s' d p r codes
    | (s', some (.ok (bs, q))) =>
      let r := { r with got := r.got ++ bs, rowPoison := r.rowPoison || q }
      if r.got.length < rb then
        let s' := hatchBytes s' d p n
        putHatch s' d p { getHatch s' d p with run := some r }
      else match hatchRead s' d p x (dbits x 207 160 + r.row * dbits x 239 208) rs
          (if hSpace x = 0 then respRest s' (.hatch d p) x.ctx off n resp else resp) with
        | (s2, none) => s2
        | (s2, some (.error codes)) => hatchFail s2 d p r codes
        | (s2, some (.ok (ws, wq))) =>
          let o := hatchRow (hatchBytes s2 d p n) d p r ws wq
          let r := { o.2 with row := o.2.row + 1, got := [], rowPoison := false }
          let s3 := putHatch o.1 d p { getHatch o.1 d p with run := some r }
          if r.row < hN x then s3 else hatchEnd s3 d p x (hatchRes r)

/-- The hatch unit reads up to 256 B of weights and updates the outputs. -/
def execHatchWeightLine (die pen : Nat) (resp : LineResp) (s : State) : Out :=
  .next (if die < 16 ∧ pen < 9 ∧ !clocksStopped s then weightLine s die pen resp else s)

/-! ## Lists -/

/-- Check the descriptors of a list in order, each against the state that the ones before it would leave
(R152): the first that fails, with its code. -/
def listCheck (d p : Nat) : List Issue → State → Option (Nat × Nat)
  | [], _ => none
  | x :: t, s =>
    let op := dbits x 7 0
    if op = 0x50 then
      match passCheck s d p x with
      | some code => some (x.idx, code)
      | none =>
        let u := passUnit d p x
        listCheck d p t (putArr s u (passClaim (getArr s u) { id := 0, iss := x, fold := 0 }))
    else if op = 0x51 then
      match hatchCheck s d x with
      | some code => some (x.idx, code)
      | none => listCheck d p t s
    else some (x.idx, stBAD)

/-- Show the list on LIST_STS (R159): NEXT and CONTEXT keep their last values when it ends. -/
def listShow (s : State) (d p : Nat) : State :=
  let pg := pgPENPREP d p
  match mget s.lists (d * 9 + p) with
  | none => fput (fput s pg F.LIST_STS_ACTIVE 0) pg F.LIST_STS_HELD 0
  | some l =>
    let s := fput (fput s pg F.LIST_STS_ACTIVE 1) pg F.LIST_STS_HELD l.held
    fput (fput s pg F.LIST_STS_NEXT l.next) pg F.LIST_STS_CONTEXT l.ctx

/-- DESC_LIST reads its list, checks it whole, and holds the arrays it names (R152, R175, R575). While
another list of the pen runs it waits. -/
def descList (s : State) (id : CmdId) (c : Cmd) : State :=
  let d := cDie c
  let p := cPen c
  let n := cbits c 171 160 + 1
  let at_ := cbits c 145 128
  let bad := !reservedOk c.word.toNat [(145, 128), (171, 160)] || at_ % 4 != 0 || 0x400000 < at_ * 16 + n * 64
  let out := match ctxFold s id.ctx with | some f => !foldHasDie s f d | none => true
  if (mget s.lists (d * 9 + p)).isSome || (storeBusy s d (0x4800000 + p * 0x400000) 1 && !bad && !out) then s
  else acceptCmd s id bad false out fun _ =>
    let r := paRead s 4 (penStorePa d p + at_ * 16) (n * 64)
    let s := r.1
    if r.2.poison then finishCmd s id (resOf [stPOISON])
    else
      let iss : List Issue := (List.range n).map fun i =>
        { desc := BitVec.ofNat 512 (field r.2.data (i * 64) 64), by_ := .list d p, idx := i, ctx := id.ctx, gen := cGen c }
      match listCheck d p iss s with
      | some (i, code) => finishCmd s id { reject code with note := i }
      | none =>
        let held := iss.foldl (fun m x =>
          if dbits x 7 0 = 0x50 then m ||| 2 ^ (dbits x 10 8) else m) 0
        let l : ListSt :=
          { cmd := id
            ctx := id.ctx
            gen := cGen c
            descs := iss.map (·.desc)
            next := 0
            held := held }
        let s := { s with lists := mput s.lists (d * 9 + p) l }
        listShow (updCmd s id fun c => { c with phase := .running }) d p

def execDescList (c : CmdId) (s : State) : Out := .next (withCmd s c 0x11 fun x => descList s c x)

/-- The list sequencer issues its next descriptor when that FIFO has room; one already retired is passed over,
and one for an array that faulted aborts (R129, R152, R157). -/
def listIssue (s : State) (d p : Nat) : State :=
  match mget s.lists (d * 9 + p) with
  | none => s
  | some l =>
    if l.descs.length ≤ l.next then s
    else
      let x : Issue := { desc := lget l.descs l.next 0, by_ := .list d p, idx := l.next, ctx := l.ctx, gen := l.gen }
      let step (s : State) : State :=
        let upd (l : ListSt) : ListSt := { l with next := l.next + 1 }
        match mget s.lists (d * 9 + p) with
        | some l => listShow { s with lists := mput s.lists (d * 9 + p) (upd l) } d p
        | none => s
      let u := passUnit d p x
      if l.results.any fun r => r.1 == l.next then step s
      else if dbits x 7 0 = 0x50 ∧ l.faulted.testBit u.arr then
        listShow (descDone (step s) x (resOf [stABORT])) d p
      else
        let port : IssuePort := if dbits x 7 0 = 0x51 then .hatch
          else if u.quarter then .quarter u.arr u.qid else .array u.arr
        match pushIssue s d p port x with
        | none => s
        | some s => step s

def execListIssueDesc (die pen : Nat) (s : State) : Out :=
  .next (if die < 16 ∧ pen < 9 ∧ !clocksStopped s then listIssue s die pen else s)

/-! ## Retirement (R157, R580) -/

/-- The pens of a named group. -/
def groupPens (g : Nat × Option Nat) : List (Nat × Nat) :=
  match g.2 with
  | some p => [(g.1, p)]
  | none => (List.range 9).map fun p => (g.1, p)

/-- An issue of the context and generation being retired. -/
def retires (ctx gen : Nat) (x : Issue) : Bool := x.ctx == ctx && x.gen == gen

/-- Retire what waits in the issue FIFOs of a pen, RESUMEd passes included, and what an array has accepted and not begun;
the number retired grows. -/
def retireFifos (ctx gen : Nat) (acc : State × Nat) (dp : Nat × Nat) : State × Nat :=
  let d := dp.1
  let p := dp.2
  let acc := (List.range 8).foldl (fun acc a => (unitsOf d p a).foldl (fun (acc : State × Nat) u =>
    let r := getArr acc.1 u
    let late (p : Pass) : Bool := !begun r p && !p.resumed && retires ctx gen p.iss
    let hit := r.back.filter (retires ctx gen) ++ (r.passes.filter late).map (·.iss) ++ r.fifo.filter (retires ctx gen)
    let r' := if r.passes.any late then takeUnbegun r late else r
    let s := putArr acc.1 u { r' with fifo := r.fifo.filter fun x => !retires ctx gen x
                                      back := r.back.filter fun x => !retires ctx gen x }
    (hit.foldl (fun s x => endUnrun s u x (reject stSTATE)) s, acc.2 + hit.length)) acc) acc
  let h := getHatch acc.1 d p
  let hit := h.fifo.filter (retires ctx gen)
  let s := putHatch acc.1 d p { h with fifo := h.fifo.filter fun x => !retires ctx gen x }
  (hit.foldl (fun s x => hatchUnrun s d p x (reject stSTATE)) s, acc.2 + hit.length)

/-- Retire the descriptors that a pen's list has not issued. -/
def retireList (ctx gen : Nat) (acc : State × Nat) (dp : Nat × Nat) : State × Nat :=
  match mget acc.1.lists (dp.1 * 9 + dp.2) with
  | none => acc
  | some l =>
    if l.ctx != ctx || l.gen != gen then acc
    else
      let left := (List.range l.descs.length).filter fun i =>
        l.next ≤ i && !l.results.any fun r => r.1 == i
      let s := left.foldl (fun s i =>
        descDone s { desc := lget l.descs i 0, by_ := .list dp.1 dp.2, idx := i, ctx := l.ctx, gen := l.gen } (reject stSTATE))
        acc.1
      (listShow s dp.1 dp.2, acc.2 + left.length)

/-- Retire the commands that wait at a unit input of the group: one that waits for its grant leaves its queue
as if dispatched. -/
def retireCmds (ctx gen : Nat) (g : Nat × Option Nat) (acc : State × Nat) : State × Nat :=
  let hit := acc.1.cmds.filter fun x =>
    x.id.ctx == ctx && cGen x == gen && (x.phase == .ready || x.phase == .granted) &&
      inGroup g { x with die := cDie x, pen := cPen x }
  (hit.foldl (fun s x =>
    let s := if x.phase == .ready then dispatchCmd s x .granted 0 else s
    finishCmd s x.id (reject stSTATE)) acc.1, acc.2 + hit.length)

/-- RETIRE ends, with STATE_ERROR, what has not begun at the group under the generation, and completes with
the number it retired. -/
def execRetire (c : CmdId) (s : State) : Out :=
  .next (withCmd s c 0x29 fun x =>
    let gen := cbits x 167 160
    let bad := !reservedOk x.word.toNat [(147, 128), (167, 160)] || (genGroup x).isNone
    acceptCmd s c bad false (gen == cGen x) fun _ =>
      match genGroup x with
      | none => s
      | some g =>
        let acc := retireCmds c.ctx gen g (s, 0)
        let acc := (groupPens g).foldl (retireFifos c.ctx gen) acc
        let acc := (groupPens g).foldl (retireList c.ctx gen) acc
        finishCmd acc.1 c { note := min acc.2 0xFFFF })

end Sys2Proof.Machine
end

