-- ==== Sys2Proof/Machine/Spad.lean ====
section
/-! DEFINITION. The scratchpad stores (chapter 5): the port and its classes (R164 to R170), error correction
and poison (R173 to R176), initialisation (R178) and the keep region (R179, R180). -/

namespace Sys2Proof.Machine

open Sys2Proof

/-! ## The port's choice -/

/-- The aperture offset of a request's first byte. -/
def reqOff (st : Nat) (r : SpadReq) : Nat := storeOff st + r.off

/-- A locked access (R170): a set or clear, or a plain write of part of a granule. -/
def reqLocked (r : SpadReq) : Bool :=
  match r.write with
  | none => false
  | some _ => lockedWrite r.view r.off r.len

/-- The first piece of a request, within one line, and the rest of it, which asks again (R164). -/
def reqSplit (r : SpadReq) : SpadReq × Option SpadReq :=
  let n := min r.len (256 - r.off % 256)
  if n = r.len then (r, none)
  else
    ({ r with len := n, write := r.write.map fun bs => slice bs 0 n },
      some { r with off := r.off + n, len := r.len - n, write := r.write.map fun bs => bs.drop n, ecc := .clean })

/-- The write of a request, with the outcome told to its requester (R171, R174, R179). -/
def spadReqWrite (s : State) (d st : Nat) (r : SpadReq) (bs : List Byte) : State :=
  let w := portWrite s d (spadClass r.who) r.secure r.view (reqOff st r) (slice bs 0 r.len) r.poison
  { w.1 with resp :=
      { poison := w.2.met, code := if w.2.refused then stPERM else if w.2.met then stPOISON else 0 } }

/-- The read of a request, with the outcome told to its requester (R173, R175, R179). -/
def spadReqRead (s : State) (d st : Nat) (r : SpadReq) : State :=
  let x := portRead s d (spadClass r.who) r.secure (reqOff st r) r.len
  { x.1 with resp := { data := x.2.data, poison := x.2.poison, code := if x.2.refused then stPERM else 0 } }

/-- The class-5 write that sets a granule's poison bit after an uncorrectable error (R174); `gran` is its place in the
store. -/
def markGranule (s : State) (d st gran : Nat) : State :=
  let g := storeOff st / 8 + gran
  let x := getSpad s d st
  if mget x.flaws g == some .met && !storeBusy s d (g * 8) 8 then
    let s := putSpad s d st { x with flaws := mdel x.flaws g }
    bump (setPoison s (aperPa d (g * 8)) true) (pgSPAD d) 3
  else s

/-- The write-back of a line that a scrub read corrected is the second cycle of a locked access (R170, R176). -/
def scrubBack (line : Nat) : SpadReq :=
  { who := .scrub, arrived := 0, off := line * 256, len := 256, write := some [], view := 0, poison := false
    secure := true, ecc := .clean, eccAt := 0 }

/-- A store scrubs its next line at class 5, in ascending order (R176): single-bit errors are corrected and the line is
written back in the next cycle, uncorrectable ones wait for their mark. The keep region waits while it is wiped. -/
def scrubLine (s : State) (d st gran : Nat) (e : Ecc) : State :=
  let x := getSpad s d st
  let line := x.scrub
  let off := storeOff st + line * 256
  if !fbit s (pgSPAD d) F.SPAD_ARB_SCRUB_EN || storeBusy s d off 256 then s
  else
    let s := putSpad s d st { x with scrub := (line + 1) % (storeSize st / 256) }
    let s := bump (addFlaw s d st (off / 8 + gran % 32) e) (pgSPAD d) 3
    let fs := flawsIn (getSpad s d st) off 256
    let bad := poisonedIn s (aperPa d off) 256
    let s := fs.foldl (meetFlaw 5 d st) s
    let s := if bad.isEmpty then s else bumpBy s (pgSPAD d) 2 bad.length
    if fs.any fun p => p.2 == .single then putSpad s d st { getSpad s d st with locked := some (scrubBack line) } else s

/-- The second cycle of a scrub's locked access: the line's single-bit errors are gone. -/
def scrubEnd (s : State) (d st : Nat) (r : SpadReq) : State :=
  let off := reqOff st r
  let x := getSpad s d st
  bump (putSpad s d st { x with flaws := x.flaws.filter fun p => !(p.2 == .single && off ≤ p.1 * 8 && p.1 * 8 < off + 256) })
    (pgSPAD d) 11

/-- A plain request is granted: what the code finds in its granule comes to light, and it reads, writes, or, as a locked
access, holds the port for its write (R170). -/
def accessGrant (s : State) (d st : Nat) (r : SpadReq) : State :=
  let s := addFlaw s d st (reqOff st r / 256 * 32 + r.eccAt % 32) r.ecc
  match r.write with
  | none => spadReqRead s d st r
  | some bs =>
    if reqLocked r then putSpad s d st { getSpad s d st with locked := some r }
    else spadReqWrite s d st r bs

/-- Grant a request its first cycle. The feed, the scrub and the poison-marking write do what they do (R100, R174, R176);
of a request that crosses a line the rest asks again (R164). -/
def spadGrant (s : State) (d st : Nat) (r : SpadReq) : State :=
  match r.who with
  | .feed => if st < 72 then feedGrant s d (st / 8) (st % 8) else s
  | .mark => markGranule s d st (r.off / 8)
  | .scrub => scrubLine s d st r.eccAt r.ecc
  | _ =>
    let p := reqSplit r
    let x := getSpad s d st
    accessGrant (putSpad s d st { x with rest := x.rest ++ p.2.toList }) d st p.1

/-- The longest-waiting of some requests, the first of them on a tie. -/
def longest (lost : FMap Nat) (rs : List SpadReq) : Option SpadReq :=
  rs.foldl (fun m r => match m with
    | none => some r
    | some y => if mgetD lost (spadNum y.who) 0 < mgetD lost (spadNum r.who) 0 then some r else some y) none

/-- Within a class (R168): class 3 in the order of arrival at the die's hub port, the others by round robin over their
requesters. -/
def classPick (x : SpadSt) (c : Nat) (cs : List SpadReq) : Option SpadReq :=
  if c = 3 then cs.foldl (fun m r => match m with
    | none => some r
    | some y => if r.arrived < y.arrived then some r else some y) none
  else match rrPick (mgetD x.rr c 0) (cs.map fun r => spadNum r.who + 1) with
    | none => none
    | some i => cs.find? fun r => spadNum r.who + 1 == i

/-- The choice of R167 steps 2 to 4 and R168, and whether step 2 or 3 made it. -/
def spadPick (s : State) (d : Nat) (x : SpadSt) (rs : List SpadReq) : Option (SpadReq × Bool) :=
  let lim34 := max (fget s (pgSPAD d) F.SPAD_ARB_CLASS34_LIMIT) 1
  let lim5 := max (fget s (pgSPAD d) F.SPAD_ARB_DEBUG_LIMIT) 1
  let over_ (c lim : Nat) := rs.filter fun r => spadClass r.who == c && lim ≤ mgetD x.lost (spadNum r.who) 0
  match longest x.lost (over_ 3 lim34 ++ over_ 4 lim34) with
  | some r => some (r, true)
  | none =>
    match longest x.lost (over_ 5 lim5) with
    | some r => some (r, true)
    | none =>
      match (List.range 6).find? fun c => rs.any fun r => spadClass r.who == c with
      | none => none
      | some c => (classPick x c (rs.filter fun r => spadClass r.who == c)).map fun r => (r, false)

/-- The requests that lost this cycle lose one more; counters 4 to 8 count them (R182). -/
def spadStalls (s : State) (d st : Nat) (rs : List SpadReq) (won : Option Nat) : State :=
  let losers := rs.filter fun r => some (spadNum r.who) != won
  let x := getSpad s d st
  let lost := losers.foldl (fun m r => mput m (spadNum r.who) (mgetD x.lost (spadNum r.who) 0 + 1)) []
  losers.foldl (fun s r => bump s (pgSPAD d) (spadClass r.who + 3)) (putSpad s d st { x with lost := lost })

/-- A request of the list takes part in the choice: it lies in the store and does not wait for a wipe (R180); the feed
asks while its stream buffer has room, the mark and the scrub while they have something to do. -/
def reqAsks (s : State) (d st : Nat) (r : SpadReq) : Bool :=
  match r.who with
  | .feed => st < 72 && (feedUnit s d (st / 8) (st % 8)).isSome
  | .mark => mget (getSpad s d st).flaws (storeOff st / 8 + r.off / 8) == some .met
  | .scrub => fbit s (pgSPAD d) F.SPAD_ARB_SCRUB_EN &&
      !(fbit s (pgSPAD d) F.SPAD_STS_KEEP_WIPING && inKeep (storeOff st + (getSpad s d st).scrub * 256) 256)
  | _ => 1 ≤ r.len && r.off + r.len ≤ storeSize st &&
      !(fbit s (pgSPAD d) F.SPAD_STS_KEEP_WIPING && inKeep (storeOff st + r.off) (min r.len (256 - r.off % 256)))

/-- One compute cycle of a store's port (R167). While the die's stores are being cleared no request is granted
(R178). The rests of requests that crossed a line ask in place of what their requesters ask next (R164, R168). -/
def portCycle (s : State) (d st : Nat) (reqs : List SpadReq) : State :=
  let x := getSpad s d st
  if fbit s (pgSPAD d) F.SPAD_STS_INIT_BUSY then s
  else
    let rs := (x.rest ++ reqs.filter fun r => !x.rest.any fun y => y.who == r.who).filter (reqAsks s d st)
    match x.locked with
    | some r =>
      let s := spadStalls (putSpad s d st { x with locked := none }) d st rs none
      if r.who == .scrub then bump (scrubEnd s d st r) (pgSPAD d) 3 else spadReqWrite s d st r (r.write.getD [])
    | none =>
      match spadPick s d x rs with
      | none => s
      | some (r, urgent) =>
        let s := spadStalls s d st rs (some (spadNum r.who))
        let y := getSpad s d st
        let s := putSpad s d st { y with
          rest := y.rest.filter fun z => z != r
          rr := if urgent then y.rr else mput y.rr (spadClass r.who) (spadNum r.who + 1) }
        let s := if urgent then bump s (pgSPAD d) 9 else s
        spadGrant s d st r

/-- In one compute cycle a store's port grants one of the requests that wait at it. -/
def execSpadPortGrant (die store : Nat) (reqs : List SpadReq) (s : State) : Out :=
  .next (if die < 16 ∧ store < 82 then portCycle s die store reqs else s)

def execPoisonMarkWrite (die store gran : Nat) (s : State) : Out :=
  .next (if die < 16 ∧ store < 82 ∧ gran * 8 < storeSize store then markGranule s die store gran else s)

def execScrubLine (die store gran : Nat) (ecc : Ecc) (s : State) : Out :=
  .next (if die < 16 ∧ store < 82 then scrubLine s die store gran ecc else s)

/-- Zero the stores of a die from aperture offset `lo` to `hi`. -/
def clearAperture (s : State) (d lo hi : Nat) : State :=
  zeroRange s (spadBase + d * 0x8000000 + lo) (spadBase + d * 0x8000000 + hi)

/-- What the clear leaves of a store's port: nothing, but in the keep region, which a fold reset or change passes over, its
errors and a locked access in its first cycle (R178). -/
def clearPort (keep : Bool) (x : SpadSt) : SpadSt :=
  let inside (off n : Nat) : Bool := keep && inKeep off n
  { x with
    locked := x.locked.filter fun r => inside (storeOff 81 + r.off) r.len
    rest := x.rest.filter fun r => inside (storeOff 81 + r.off) r.len
    flaws := x.flaws.filter fun p => inside (p.1 * 8) 8 }

/-- The stores of a die are cleared, the keep region too at package reset and power-up (R178); requests wait
until the clear is done. -/
def storeClear (s : State) (d : Nat) (cause : ClearCause) : State :=
  let whole := cause == .packageReset || cause == .powerUp
  let s := fput s (pgSPAD d) F.SPAD_STS_INIT_BUSY 1
  let s := { s with spads := (List.range 82).foldl (fun m st =>
    mput m (spadKey d st) (clearPort (st == 81 && !whole) (mgetD m (spadKey d st) {}))) s.spads }
  if whole then clearAperture s d 0 spadBytes
  else clearAperture (clearAperture s d 0 0x7BC0000) d 0x7C00000 spadBytes

def execStoreClear (die : Nat) (cause : ClearCause) (s : State) : Out :=
  .next (if die < 16 then storeClear s die cause else s)

/-- An accepted fold becomes active once every die that joins it has been cleared (R239). -/
def foldActivate (s : State) (f : Nat) : State :=
  let clear := (setBitsOf 16 (fget s (pgFOLD f) F.FOLD_DIES_DIES)).all fun d =>
    !fbit s (pgSPAD d) F.SPAD_STS_INIT_BUSY
  if fbit s (pgFOLD f) F.FOLD_CTL_ENABLE && clear then fput s (pgFOLD f) F.FOLD_STS_ACTIVE 1 else s

/-- The last line of the die store is cleared. -/
def execStoreClearDone (die : Nat) (s : State) : Out :=
  .next (if die < 16 then
    (List.range 16).foldl foldActivate (fput s (pgSPAD die) F.SPAD_STS_INIT_BUSY 0) else s)

/-- A die whose rail is up (R545). -/
def dieRailUp (s : State) (d : Nat) : Bool := (fget s pgPKG F.PKG_RAILS_IN_WINDOW).testBit (7 + d)

/-- A wipe starts, or restarts, on the keep region of every die whose rail is up (R180). A locked access in its
first cycle completes before. The wiped lines have fresh check bits. -/
def keepWipe (s : State) (cause : Nat) : State :=
  ((List.range 16).filter (dieRailUp s)).foldl (fun s d =>
    let s := match (getSpad s d 81).locked with
      | some r =>
        let s := putSpad s d 81 { getSpad s d 81 with locked := none }
        if r.who == .scrub then scrubEnd s d 81 r else spadReqWrite s d 81 r (r.write.getD [])
      | none => s
    let x := getSpad s d 81
    let s := putSpad s d 81 { x with flaws := x.flaws.filter fun p => !inKeep (p.1 * 8) 8 }
    let s := fput (fput s (pgSPAD d) F.SPAD_STS_KEEP_WIPING 1) (pgSPAD d) F.SPAD_STS_WIPE_CAUSE cause
    let s := fput s (pgSPAD d) F.SPAD_STS_WIPE_COUNT (min (fget s (pgSPAD d) F.SPAD_STS_WIPE_COUNT + 1) 0xFF)
    clearAperture s d 0x7BC0000 0x7C00000) s

/-- TAMPER_N or a life-cycle change wipes the keep regions. -/
def execKeepWipe (cause : WipeCause) (s : State) : Out :=
  .next (keepWipe s (match cause with | .tamper => 1 | .lifeCycle => 2))

/-- A wipe has written the 1,024 lines of its keep region. -/
def execKeepWipeDone (die : Nat) (s : State) : Out :=
  .next (if die < 16 ∧ fbit s (pgSPAD die) F.SPAD_STS_KEEP_WIPING then
    bumpBy (fput s (pgSPAD die) F.SPAD_STS_KEEP_WIPING 0) (pgSPAD die) 13 1024 else s)

end Sys2Proof.Machine
end

