-- ==== Sys2Proof/Machine/Drover.lean ====
section
/-! DEFINITION. The Drover engines (chapter 7): COPY, FILL and TILE, row by row and line by line (R212 to R220,
R224 to R226), with their counters and status (R235, R237). -/

namespace Sys2Proof.Machine

open Sys2Proof

/-! ## Geometry of a Drover command -/

def vSrc (c : Cmd) : Nat := cbits c 175 128
def vDst (c : Cmd) : Nat := cbits c 223 176
def vRowLen (c : Cmd) : Nat := cbits c 247 224 + 1
def vRows (c : Cmd) : Nat := cbits c 263 248 + 1
def vSrcPitch (c : Cmd) : Nat := cbits c 295 264
def vDstPitch (c : Cmd) : Nat := cbits c 327 296
def vView (c : Cmd) : Nat := cbits c 329 328
def vFmt (c : Cmd) : Nat := cbits c 334 330
def vStream (c : Cmd) : Bool := cbits c 336 335 == 1
def vQuarter (c : Cmd) : Bool := cbits c 337 337 == 1

/-- Reduction elements per step (R93, R220). -/
def vKs (c : Cmd) : Nat := side (vQuarter c) * fmtClass (vFmt c)
def vSteps (c : Cmd) : Nat := (vRowLen c + vKs c - 1) / vKs c

/-- Source rows in one tile: its column tile, or its stream vectors (R220). -/
def vTileRows (c : Cmd) : Nat :=
  if vStream c then (if vQuarter c then 64 else 32) else side (vQuarter c)
def vBlocks (c : Cmd) : Nat := (vRows c + vTileRows c - 1) / vTileRows c
def vTiles (c : Cmd) : Nat := vSteps c * vBlocks c
def vTileBytes (c : Cmd) : Nat := if vStream c || !vQuarter c then 4096 else 1024

/-- Scale bytes of one tile (R93, R220). -/
def vTileScales (c : Cmd) : Nat :=
  vTileRows c * stepScales (vFmt c) (fmtClass (vFmt c)) (side (vQuarter c))

/-- A destination or source region: base, rows, bytes per row, pitch. -/
structure Rows where
  base : Nat
  rows : Nat
  len : Nat
  pitch : Nat
  deriving DecidableEq, Repr

/-- One past the last byte of a region. -/
def Rows.hi (g : Rows) : Nat := g.base + (g.rows - 1) * g.pitch + g.len

/-- The destination of a command, or of TILE's scales. -/
def vDest (c : Cmd) (scales : Bool) : Rows :=
  if cOp c = 0x32 then
    if scales then ⟨cbits c 479 432, 1, vTiles c * vTileScales c, 0⟩
    else ⟨vDst c, vTiles c, vTileBytes c, vDstPitch c⟩
  else ⟨vDst c, vRows c, vRowLen c, vDstPitch c⟩

/-- The highest-numbered row that maps the byte at `y` past the base, and the byte's place in it (R213). -/
def rowAt (g : Rows) (y : Nat) : Option (Nat × Nat) :=
  let r := if g.pitch = 0 then g.rows - 1 else min (y / g.pitch) (g.rows - 1)
  if y < r * g.pitch + g.len then some (r, y - r * g.pitch) else none

/-- The first destination byte at or past `y`. -/
def nextByte (g : Rows) (y : Nat) : Option Nat :=
  match rowAt g y with
  | some _ => some y
  | none =>
    if g.pitch = 0 then none
    else
      let r := y / g.pitch + 1
      if r < g.rows then some (r * g.pitch) else none

/-- The source of one destination byte: the bytes at `va`, shifted and masked; or none, a zero (R220). -/
structure SrcByte where
  va : Nat
  n : Nat
  shift : Nat
  mask : Nat
  deriving DecidableEq, Repr

/-- Source of the byte at place `o` of tile `t` (R96, R220). -/
def tileSrc (c : Cmd) (t o : Nat) : Option SrcByte :=
  let n := side (vQuarter c)
  let k := fmtClass (vFmt c)
  let w := o / 4
  let col := w % n
  let rec_ := w / n
  let step := if vStream c then t / vBlocks c else t % vSteps c
  let blk := if vStream c then t % vBlocks c else t / vSteps c
  let row := blk * vTileRows c + (if vStream c then rec_ else col)
  let e0 := step * vKs c + (if vStream c then col else rec_) * k
  let base := vSrc c + row * vSrcPitch c
  if vRows c ≤ row then none
  else match k with
    | 2 => if e0 + o % 4 / 2 < vRowLen c then some ⟨base + e0 * 2 + o % 4, 1, 0, 0xFF⟩ else none
    | 4 =>
      let e := e0 + o % 4
      if vRowLen c ≤ e then none
      else if elemBits (vFmt c) = 6 then
        some ⟨base + e * 6 / 8, (if e * 6 % 8 ≤ 2 then 1 else 2), e * 6 % 8, 0x3F⟩
      else some ⟨base + e, 1, 0, 0xFF⟩
    | _ =>
      let e := e0 + 2 * (o % 4)
      if vRowLen c ≤ e then none
      else some ⟨base + e / 2, 1, 0, if e + 1 < vRowLen c then 0xFF else 0x0F⟩

/-- Source of the scale at place `o` of the tiles' scales (R219, R220). -/
def tileScaleSrc (c : Cmd) (o : Nat) : Option SrcByte :=
  let n := side (vQuarter c)
  let bl := blockElems (vFmt c)
  let per := vKs c / bl
  let t := o / vTileScales c
  let i := o % vTileScales c
  let step := if vStream c then t / vBlocks c else t % vSteps c
  let blk := if vStream c then t % vBlocks c else t / vSteps c
  let row := blk * vTileRows c + (if vStream c then i / per else i % n)
  let g := if vStream c then i % per else i / n
  let e := step * vKs c + g * bl
  if vRows c ≤ row || vRowLen c ≤ e then none
  else some ⟨cbits c 431 384 + row * ((vRowLen c + bl - 1) / bl) + e / bl, 1, 0, 0xFF⟩

/-- Source of the destination byte in row `r` at place `o`. -/
def srcOf (c : Cmd) (scales : Bool) (r o : Nat) : Option SrcByte :=
  match cOp c with
  | 0x32 => if scales then tileScaleSrc c o else tileSrc c r o
  | _ => some ⟨vSrc c + r * vSrcPitch c + o, 1, 0, 0xFF⟩

/-! ## Acceptance -/

/-- Ranges [lo, hi) overlap. -/
def overlaps (a b : Nat × Nat) : Bool := a.1 < b.2 && b.1 < a.2

/-- R214: the bounding source and destination ranges of a command overlap. -/
def vOverlap (c : Cmd) : Bool :=
  let d (x : Bool) : Nat × Nat := ((vDest c x).base, (vDest c x).hi)
  match cOp c with
  | 0x30 => overlaps (vSrc c, vSrc c + (vRows c - 1) * vSrcPitch c + vRowLen c) (d false)
  | 0x32 =>
    let bl := blockElems (vFmt c)
    let row := ((vRowLen c + bl - 1) / bl * bl * elemBits (vFmt c) + 7) / 8
    let src := (vSrc c, vSrc c + (vRows c - 1) * vSrcPitch c + row)
    if isBlock (vFmt c) then
      let ss := (cbits c 431 384, cbits c 431 384 + vRows c * ((vRowLen c + blockElems (vFmt c) - 1) / blockElems (vFmt c)))
      overlaps src (d false) || overlaps src (d true) || overlaps ss (d false) || overlaps ss (d true)
    else overlaps src (d false)
  | _ => false

/-- A segment table as memory holds it. -/
def segTblNow (s : State) (ctx : Nat) : List Byte := (List.range 512).map fun i => curByte s (segTblPa s ctx + i)

/-- An address translates into a scratchpad store (R215, R313). -/
def vaInSpad (s : State) (tbl : List Byte) (va : Nat) : Bool :=
  match segSelect tbl va with
  | some i =>
    let d := segDesc tbl i
    match regionOf s (segPBase d * 4096 + va - segVBase d * 4096) with
    | .spad _ _ => bits d 10 8 == 2
    | _ => false
  | none => false

/-- Some destination byte does not lie in a scratchpad store (R215). -/
def vLeavesSpad (s : State) (c : Cmd) : Bool :=
  let tbl := segTblNow s c.id.ctx
  let g := vDest c false
  (List.range g.rows).any fun r => (linePieces (g.base + r * g.pitch) g.len).any fun p => !vaInSpad s tbl p.1

/-- The named body fields of each Drover opcode (R218). -/
def vNamed (op : Nat) : List (Nat × Nat) :=
  match op with
  | 0x30 => [(175, 128), (223, 176), (247, 224), (263, 248), (295, 264), (327, 296), (329, 328)]
  | 0x31 => [(223, 176), (247, 224), (263, 248), (327, 296), (329, 328), (511, 384)]
  | 0x32 => [(175, 128), (223, 176), (247, 224), (263, 248), (295, 264), (327, 296), (334, 330), (336, 335),
      (337, 337), (431, 384), (479, 432)]
  | 0x34 => [(175, 128), (191, 176), (197, 192), (201, 198), (209, 202), (255, 224)]
  | 0x35 => [(143, 128)]
  | 0x38 => [(143, 128), (144, 144)]
  | _ => [(143, 128)]

def getDrv (s : State) (t e : Nat) : Option DrvRun := mget s.drvs (t * 16 + e)
def putDrv (s : State) (t e : Nat) (r : DrvRun) : State := { s with drvs := mput s.drvs (t * 16 + e) r }

/-- COPY, FILL and TILE are accepted and start on their engine (R213 to R220). -/
def droverStart (s : State) (id : CmdId) (c : Cmd) : State :=
  let op := cOp c
  let bad := !reservedOk c.word.toNat (vNamed op) ||
    (op != 0x32 && vView c == 3) || (op == 0x32 && (!fmtKnown (vFmt c) || 2 ≤ cbits c 336 335))
  let unsup := if op = 0x32 then fmtClass (vFmt c) == 0 || vOverlap c
    else (vView c != 0 && vLeavesSpad s c) || vOverlap c
  acceptCmd s id bad unsup false fun f =>
    updCmd (putDrv s c.tile c.engine { cmd := id, fold := f }) id fun c => { c with phase := .running }

/-- A Drover command that ends in the row that handles it is counted on its engine's page (R237). -/
def withDrv (s : State) (id : CmdId) (op : Nat) (go : Cmd → State) : State :=
  withCmd s id op fun c =>
    let s' := go c
    match findCmd s' id with
    | some c' =>
      if c'.phase != .done || s'.drvs != s.drvs then s'
      else
        let pg := pgDRV c.tile (if c.engine < 16 then c.engine else 0)
        let s' := bump s' pg 0
        if c'.res.code = stTIER then bump s' pg 9 else if c'.res.code = stPOISON then bump s' pg 10 else s'
    | none => s'

def execCopy (c : CmdId) (s : State) : Out := .next (withDrv s c 0x30 fun x => droverStart s c x)
def execFill (c : CmdId) (s : State) : Out := .next (withDrv s c 0x31 fun x => droverStart s c x)
def execTile (c : CmdId) (s : State) : Out := .next (withDrv s c 0x32 fun x => droverStart s c x)

/-! ## Lines -/

/-- Record an error in DRV_ERRLOG under its VALID rule (R235). -/
def droverLog (s : State) (t e cause ctx pa : Nat) : State :=
  let pg := pgDRV t e
  if fbit s pg F.DRV_ERRLOG_VALID then s
  else
    let s := fput (fput (fput s pg F.DRV_ERRLOG_VALID 1) pg F.DRV_ERRLOG_CAUSE cause) pg F.DRV_ERRLOG_CONTEXT ctx
    setLogged (fput (fput s pg F.DRV_ERRADDR_LO_ADDR_LO pa) pg F.DRV_ERRADDR_HI_ADDR_HI (pa / 2 ^ 32)) pg

/-- Cause of a lower-tier error response at an address (R235). -/
def tierCause (pa : Nat) (timeout : Bool) : Nat :=
  (if tierOfAddr pa == 4 then 3 else 1) + (if timeout then 0 else 1)

/-- A Drover command ends: its engine is free again (R237). -/
def droverEnd (s : State) (t e : Nat) (r : DrvRun) (codes : List Nat) : State :=
  let s := bump { s with drvs := mdel s.drvs (t * 16 + e) } (pgDRV t e) 0
  let res := resOf codes
  let s := if res.code = stTIER then bump s (pgDRV t e) 9 else if res.code = stPOISON then bump s (pgDRV t e) 10 else s
  finishCmd s r.cmd res

/-- The requester of a Drover engine's lines, with the view of its writes to stores (R166, R215). -/
def droverAsker (s : State) (t e ctx view : Nat) (bias : Bool) : Asker :=
  { streamAsker s (.drover t e) ctx bias with view := view }

/-- What source reads of an engine give: a wait, the code that ends the command with the poisoned lines met before it, or
the bytes, the poisoned lines among them, and what is left of the row's answer. -/
inductive DrvRead where
  | wait (s : State)
  | fail (code : Nat) (s : State) (poison : List Nat)
  | ok (s : State) (bs : List Byte) (poison : List Nat) (resp : LineResp)

/-- Read a source range, line by line, plain or compressed (R224, R225). -/
def droverRead (s : State) (t e ctx : Nat) : LineResp → List (Nat × Nat) → List Byte → List Nat → DrvRead
  | resp, [], acc, p => .ok s acc p resp
  | resp, (va, n) :: rest, acc, p =>
    let x : StreamId := .drover t e
    let pg := pgDRV t e
    match access s x { drover := true } ctx va .rd with
    | .wait s' => .wait s'
    | .fail code s' => .fail code s' p
    | .comp base v =>
      let q := droverAsker s t e ctx 0 false
      match respError resp, compDown s base v with
      | some code, _ => .fail code (droverLog (unhold s x ctx) t e (tierCause base false) ctx (slotPa base v)) p
      | none, some pa => .fail stTIER (droverLog (unhold s x ctx) t e (tierCause base false) ctx pa) p
      | none, none =>
        if lineWaits s q (lineOf (slotPa base v)) || lineWaits s q (lineOf (mapPa base v)) then
          .wait (inFlight s x ctx va (.comp base v))
        else
          let b := readBlock (unhold s x ctx) q base (v / 4096 * 4096) resp
          let s := bumpBy (bump b.1 pg 3) pg 5 b.2.sectors
          let s := if b.2.invalid then droverLog s t e 5 ctx (mapPa base v) else s
          let bs := match b.2.data with | some d => slice d (v % 4096) n | none => List.replicate n 0
          droverRead s t e ctx resp rest (acc ++ bs) (p ++ if b.2.data.isNone then [va / 256 * 256] else [])
    | .ok pa b =>
      let q := droverAsker s t e ctx 0 b
      if targetBusy s pa q || unanswered s pa resp then .wait (inFlight s x ctx va (.plain pa b))
      else
        let r := unitRead (unhold s x ctx) q pa n resp
        match r.2 with
        | .error code => .fail code (if code = stTIER then droverLog r.1 t e (tierCause pa false) ctx pa else r.1) p
        | .ok (bs, bad) =>
          let s' := bump r.1 pg 1
          let s' := if tierOfAddr pa == 1 then bump s' pg 5 else s'
          droverRead s' t e ctx (respAfter s pa n resp) rest (acc ++ bs) (p ++ if bad then [va / 256 * 256] else [])

/-- The destination bytes of [y0, y1) past the base: (place, source). -/
def lineBytes (c : Cmd) (scales : Bool) (y0 y1 : Nat) : List (Nat × Option SrcByte) :=
  let g := vDest c scales
  (List.range (y1 - y0)).filterMap fun i =>
    (rowAt g (y0 + i)).map fun ro => (y0 + i, srcOf c scales ro.1 ro.2)

/-- Join adjacent source ranges into longer ones, in order. -/
def joinRanges : List (Nat × Nat) → List (Nat × Nat)
  | [] => []
  | (a, n) :: t =>
    match joinRanges t with
    | (b, m) :: u => if a ≤ b ∧ b ≤ a + n then (a, max n (b + m - a)) :: u else (a, n) :: (b, m) :: u
    | [] => [(a, n)]

/-- The byte a destination place takes from the ranges read. -/
def byteFrom (got : List (Nat × List Byte)) (x : Option SrcByte) : Byte :=
  match x with
  | none => 0
  | some y =>
    match got.find? fun g => g.1 ≤ y.va && y.va + y.n ≤ g.1 + g.2.length with
    | none => 0
    | some g => BitVec.ofNat 8 (field g.2 (y.va - g.1) y.n / 2 ^ y.shift % (y.mask + 1))

/-- Read every range. -/
def readRanges (s : State) (t e ctx : Nat) : LineResp →
    List (Nat × Nat) → List (Nat × List Byte) → List Nat → DrvRead × List (Nat × List Byte)
  | resp, [], acc, p => (.ok s [] p resp, acc)
  | resp, (va, n) :: rest, acc, p =>
    match droverRead s t e ctx resp (linePieces va n) [] p with
    | .ok s' bs q resp' => readRanges s' t e ctx resp' rest (acc ++ [(va, bs)]) q
    | r => (r, acc)

/-- The data of destination places: FILL's pattern, or the mapped source bytes. -/
def gather (s : State) (t e : Nat) (c : Cmd) (scales : Bool) (y0 y1 : Nat) (resp : LineResp) :
    DrvRead × List (Nat × Byte) :=
  let bs := lineBytes c scales y0 y1
  if cOp c = 0x31 then
    let g := vDest c false
    (.ok s [] [] resp, bs.map fun b =>
      (b.1, BitVec.ofNat 8 (cbits c 511 384 / 2 ^ (8 * (((rowAt g b.1).getD (0, 0)).2 % 16)))))
  else
    let need := joinRanges (bs.filterMap fun b => b.2.map fun x => (x.va, x.n))
    let r := readRanges s t e c.id.ctx resp need [] []
    (r.1, bs.map fun b => (b.1, byteFrom r.2 b.2))

/-- Adjacent bytes as runs (place, bytes). -/
def byteRuns : List (Nat × Byte) → List (Nat × List Byte)
  | [] => []
  | (a, b) :: t =>
    match byteRuns t with
    | (a2, l) :: u => if a + 1 = a2 then (a, b :: l) :: u else (a, [b]) :: (a2, l) :: u
    | [] => [(a, [b])]

/-- Write the runs of a line, in a store under the command's view (R171, R215). Poison that keeps bytes from being written
is a condition; another code ends the command. -/
def writeRuns (q : Asker) (pa y0 : Nat) (p : Bool) (resp : LineResp) :
    List (Nat × List Byte) → State → List Nat → State × Option Nat × List Nat
  | [], s, cs => (s, none, cs)
  | (y, bs) :: rest, s, cs =>
    let r := unitWrite s q (pa + (y - y0)) bs p resp
    match r.2 with
    | none => writeRuns q pa y0 p resp rest r.1 cs
    | some code => if code = stPOISON then writeRuns q pa y0 p resp rest r.1 (cs ++ [stPOISON]) else (r.1, some code, cs)

/-- The poisoned source lines that a command meets for the first time are its POISON conditions (R22, R216). -/
def droverMeets (r : DrvRun) (ps : List Nat) : DrvRun :=
  let new := ps.eraseDups.filter fun v => !r.seen.contains v
  { r with seen := r.seen ++ new, codes := r.codes ++ new.map fun _ => stPOISON }

/-- What one destination line, or one whole block of a compressed range, came to: a wait, the code that ends the command,
or the place from which the command goes on; with the run's conditions so far. -/
inductive DrvPut where
  | wait (s : State)
  | fail (code : Nat) (s : State) (r : DrvRun)
  | next (y : Nat) (s : State) (r : DrvRun)

/-- The write of a whole aligned block of a compressed range covers places [y0, y1) past the base. -/
def coversBlock (c : Cmd) (scales : Bool) (va y0 y1 : Nat) : Bool :=
  va % 4096 == 0 && (lineBytes c scales y0 y1).length == 4096

/-- An engine writes its next destination line, or its next whole block of a compressed range (R213, R216,
R224, R225). -/
def droverPut (s : State) (t e : Nat) (c : Cmd) (r : DrvRun) (resp : LineResp) : DrvPut :=
  let g := vDest c r.scales
  let x : StreamId := .drover t e
  let pg := pgDRV t e
  let ctx := c.id.ctx
  let va := g.base + r.line
  let y1 := va / 4096 * 4096 + 4096 - g.base
  let view := if cOp c = 0x32 then 0 else vView c
  let who : Who := { drover := true, part := !coversBlock c r.scales va r.line y1 }
  match access s x who ctx va (if view != 0 then .atom else .wr) with
  | .wait s' => .wait s'
  | .fail code s' => .fail code s' r
  | .comp base v =>
    let q := droverAsker s t e ctx 0 false
    match respError resp, compDown s base v with
    | some code, _ => .fail code (droverLog (unhold s x ctx) t e (tierCause base false) ctx (slotPa base v)) r
    | none, some pa => .fail stTIER (droverLog (unhold s x ctx) t e (tierCause base false) ctx pa) r
    | none, none =>
      if lineWaits s q (lineOf (slotPa base v)) || lineWaits s q (lineOf (mapPa base v)) then
        .wait (inFlight s x ctx va (.comp base v))
      else match gather s t e c r.scales r.line y1 resp with
        | (.wait s', _) => .wait s'
        | (.fail code s' p, _) => .fail code s' (droverMeets r p)
        | (.ok s' _ p _, bytes) =>
          let r := droverMeets r p
          let w := writeBlock (unhold s' x ctx) q base (v / 4096 * 4096) (bytes.map (·.2)) (p != [])
          let r := if w.2.2 then { r with codes := r.codes ++ [stPOISON] } else r
          .next y1 (bumpBy (bumpBy (bump w.1 pg 4) pg 6 w.2.1) pg 2 16) r
  | .ok pa b =>
    let q := droverAsker s t e ctx view b
    let lineHi := va / 256 * 256 + 256 - g.base
    if targetBusy s pa q then .wait (inFlight s x ctx va (.plain pa b))
    else match gather s t e c r.scales r.line lineHi resp with
      | (.wait s', _) => .wait s'
      | (.fail code s' p, _) => .fail code s' (droverMeets r p)
      | (.ok s' _ p resp', bytes) =>
        let r := droverMeets r p
        let w := writeRuns q pa r.line (p != []) resp' (byteRuns bytes) (unhold s' x ctx) []
        let r := { r with codes := r.codes ++ w.2.2 }
        match w.2.1 with
        | some code => .fail code (if code = stTIER then droverLog w.1 t e (tierCause pa false) ctx pa else w.1) r
        | none =>
          let s2 := bump w.1 pg 2
          let s2 := if tierOfAddr pa == 1 then bump s2 pg 6 else s2
          .next lineHi (if view = 0 then s2 else bump s2 pg 11) r

/-- The place from which a command goes on past place `y`: its next line, or the first of TILE's scales. -/
def droverAfter (c : Cmd) (r : DrvRun) (y : Nat) : Option DrvRun :=
  match nextByte (vDest c r.scales) y with
  | some y' => some { r with line := y' }
  | none => if cOp c = 0x32 ∧ !r.scales ∧ isBlock (vFmt c) then some { r with scales := true, line := 0 } else none

/-- The lines that an engine may still have ahead of it. -/
def droverFuel (c : Cmd) : Nat :=
  let n (g : Rows) : Nat := g.rows * (g.len / 256 + 2)
  n (vDest c false) + n (vDest c true) + 1

/-- The destination of a command that a lower tier failed (R226): each line that is left, and each compressed block, is
wholly old or wholly new, and which is open. A line whose data cannot be had stays old. -/
def droverUndef (t e : Nat) (c : Cmd) : Nat → DrvRun → State → State
  | 0, _, s => s
  | n + 1, r, s =>
    let d := drawFree s
    let s := d.2
    let g := vDest c r.scales
    let lineHi := (g.base + r.line) / 256 * 256 + 256 - g.base
    let w := if (Config.freeByte d.1 0).toNat % 2 = 0 then (lineHi, s)
      else match droverPut s t e c r .ok with
        | .next y s' _ => (y, s')
        | _ => (lineHi, s)
    match droverAfter c r w.1 with
    | some r' => droverUndef t e c n r' w.2
    | none => w.2

/-- A request of a Drover command fails, and the command ends with its code (R225). -/
def droverFail (s : State) (t e : Nat) (c : Cmd) (r : DrvRun) (code : Nat) : State :=
  droverEnd (if code = stTIER then droverUndef t e c (droverFuel c) r s else s) t e r (r.codes ++ [code])

/-- An engine's next line. -/
def droverStep (s : State) (t e : Nat) (resp : LineResp) : State :=
  match getDrv s t e with
  | none => if s.moves.any fun m => m.tile == t && m.engine == e then s
    else lateReset (bump s (pgDRV t e) 8) (lateEngine t e)
  | some r =>
    match findCmd s r.cmd with
    | none => s
    | some c =>
      match droverPut s t e c r resp with
      | .wait s' => s'
      | .fail code s' r' => droverFail s' t e c r' code
      | .next y s' r' =>
        match droverAfter c r' y with
        | some r'' => putDrv s' t e r''
        | none => droverEnd s' t e r' r'.codes

/-- An engine waits for a request to tier F or through a remote window: of its destination line or of the sources it
needs (R225). -/
def droverBelow (s : State) (t e : Nat) (c : Cmd) (r : DrvRun) : Option Nat :=
  let g := vDest c r.scales
  let x : StreamId := .drover t e
  let at_ (va : Nat) (k : AccKind) : Option Nat :=
    match access s x { drover := true } c.id.ctx va k with
    | .ok pa _ => if lowerPa s pa then some pa else none
    | .comp base v => some (slotPa base v)
    | _ => none
  let va := g.base + r.line
  let need := (lineBytes c r.scales r.line (va / 256 * 256 + 256 - g.base)).filterMap fun b => b.2.map (·.va)
  match at_ va .wr with
  | some pa => some pa
  | none => (need.map (· / 256 * 256)).eraseDups.findSome? fun a => at_ (max a (need.headD a)) .rd

/-- What a range's lines hold, and the copies of them, become undefined. -/
def undefLines (s : State) (lo hi : Nat) : State :=
  let ls := ((s.coh.copies.map fun (e : Nat × Copy) => e.1 / 8) ++ s.coh.fly.map fun (e : Nat × (List Byte × Bool)) => e.1).filter fun l => lo / 256 ≤ l && l * 256 < hi
  makeUndef (ls.foldl recallLine s) lo hi

/-- A line request of a Drover engine ends, and the engine writes the destination line that waited for it; a response that
no request waits for any more is discarded and counted (R226, R237). -/
def execDroverLineResponse (tile engine : Nat) (resp : LineResp) (s : State) : Out :=
  .next (if tile < 4 ∧ engine < 16 then droverStep s tile engine resp else s)

end Sys2Proof.Machine
end

