-- ==== Sys2Proof/Machine/Chunk.lean ====
section
/-! DEFINITION. Chunks and tier schedules (chapter 7): chunk records (R227), the chunk commands and the ends
of their moves (R228, R229, R581), and schedule runs (R230 to R234). -/

namespace Sys2Proof.Machine

open Sys2Proof

/-! ## Records (R227) -/

def chunkBase (s : State) (f : Nat) : Nat :=
  fpair s pgDRVPKG F.DRV_CHUNKTBL_LO_BASE_LO F.DRV_CHUNKTBL_HI_BASE_HI f
def chunkCount (s : State) (f : Nat) : Nat := fgeti s pgDRVPKG F.DRV_CHUNKTBL_HI_COUNT f + 1

/-- The place of record `i`. -/
def chunkPa (s : State) (f i : Nat) : Nat := chunkBase s f + i * 32

/-- The requester of chunk records and of the lines of moves: a Drover engine of the tile. -/
def chunkAsker (tile : Nat) : Asker := { tile := some tile }

/-- An access of a chunk record waits: for its line, or for the move of another chunk (R251). -/
def recordWaits (s : State) (who : Who) (tile f i : Nat) : Bool :=
  lineHeld s who (chunkPa s f i) || targetBusy s (chunkPa s f i) (chunkAsker tile)

/-- Read a chunk record: its 256 bits, or the code the access ends with (R236, R581). -/
def chunkRead (s : State) (tile f i : Nat) : State × Except Nat Nat :=
  let pa := chunkPa s f i
  if tierOfAddr (chunkBase s f) != 0 || regionOf s pa != .tierN then (s, .error stHOLE)
  else
    let r := cohRead s (chunkAsker tile) pa 32 .clean .clean
    if r.2.2 then (r.1, .error stPOISON) else (r.1, .ok (leNat r.2.1))

/-- Change a chunk record: an atomic in the home's tile cache (R227, R281). -/
def chunkWrite (s : State) (tile f i r : Nat) : State :=
  let pa := chunkPa s f i
  let line := lineOf pa
  let s := match cacheOf s (chunkAsker tile) line with
    | some (a, _) => agentYield s a line
    | none => s
  let s := bump (homeTouch (homeTake s line) line) (pgCOH (homeOf s line)) 7
  if paBad s pa then s else storeBytes s pa (leBytes 32 r) false

def ckLow (r : Nat) : Nat := bits r 47 0
def ckComp (r : Nat) : Bool := r.testBit 48
def ckHigh (r : Nat) : Nat := bits r 111 64
def ckLen (r : Nat) : Nat := (bits r 143 128 + 1) * 4096
/-- STATE, an unassigned code read as LOW. -/
def ckState (r : Nat) : Nat := if bits r 146 144 ≤ 3 then bits r 146 144 else 0
def ckRef (r : Nat) : Nat := bits r 175 160
def ckSet (r hi lo v : Nat) : Nat := setBits r hi lo v
def ckSetState (r v : Nat) : Nat := ckSet r 146 144 v
def ckSetRef (r v : Nat) : Nat := ckSet r 175 160 v
def ckSetHolder (r v : Nat) : Nat := ckSet r 184 176 v

/-- Bytes of tier F that a chunk's home takes (R584). -/
def ckLowBytes (r : Nat) : Nat := if ckComp r then compExtent (ckLen r) else ckLen r

/-- Both ranges of a move lie in the fold's memory (R227, R584). -/
def chunkInside (s : State) (f r : Nat) : Bool :=
  let low := ckLow r
  let high := ckHigh r
  tierOfAddr low == 1 && tierOfAddr high == 0 && inPlainRegions s f high (high + ckLen r) &&
    (if ckComp r then inCompRegions s f low (low + ckLowBytes r) else inPlainRegions s f low (low + ckLen r))

/-! ## Ends of what asked -/

/-- A Drover command of an engine of a tile completes, and is counted (R237). -/
def drvDone (s : State) (tile engine : Nat) (id : CmdId) (r : Res) : State :=
  let pg := pgDRV tile (if engine < 16 then engine else 0)
  let s := bump s pg 0
  let s := if r.code = stTIER then bump s pg 9 else if r.code = stPOISON then bump s pg 10 else s
  finishCmd s id r

/-- The entry's due point has been reached (R232, R233). -/
def entryDue (s : State) (c : Cmd) (x : BitVec 256) (early : Bool) : Bool :=
  let e := x.toNat
  let due := bits e 127 64
  if e.testBit 19 then
    due - (if early then cbits c 255 224 else 0) ≤ herdTime s / 256
  else
    due - (if early then cbits c 209 202 else 0) ≤ (getTally s c.id.ctx (cbits c 197 192)).val.toNat

/-- A run completes when nothing is in flight and every entry has started or the run was cancelled (R234). -/
def schedCheckEnd (s : State) (id : CmdId) : State :=
  match s.scheds.find? fun r => r.id == id with
  | none => s
  | some r =>
    if !r.inflight.isEmpty || (r.next < r.entries.length && !r.cancelled) then s
    else
      let codeOf (e : Nat) : Nat :=
        let c := match r.results.find? fun x => x.1 == e with
          | some x => if x.2 = stSTATE then stNOTE else x.2
          | none => stNOTE
        highest [c, if r.late.contains e then stNOTE else stSUCCESS]
      let codes := (List.range r.entries.length).map codeOf
      let st := highest codes
      let note := ((List.range r.entries.length).find? fun e => codeOf e == st).getD 0
      let s := { s with scheds := s.scheds.filter fun x => x.id != id }
      let s := drvDone s r.tile 0 id ⟨st, condBits codes, note⟩
      r.cancellers.foldl (fun s c => drvDone s r.tile 0 c {}) s

/-- Change a run. -/
def updSched (s : State) (id : CmdId) (f : SchedSt → SchedSt) : State :=
  { s with scheds := s.scheds.map fun r => if r.id == id then f r else r }

/-- A schedule entry ends with a code: it signals its tally when it succeeded, and is late when its due point
has passed (R233). -/
def entryDone (s : State) (run : CmdId) (e code : Nat) : State :=
  match s.scheds.find? (fun r => r.id == run), findCmd s run with
  | some r, some c =>
    let x := lget r.entries e 0
    let late := entryDue s c x false
    let s := if late then bump s (pgDRV r.tile 0) 14 else s
    let s := updSched s run fun r =>
      { r with
        inflight := r.inflight.filter (· != e)
        results := r.results ++ [(e, code)]
        late := if late then r.late ++ [e] else r.late }
    let s := if code < 8 && x.toNat.testBit 26 then
        tallyAdd s run.ctx (bits x.toNat 25 20) (bits x.toNat 159 128) else s
    schedCheckEnd s run
  | _, _ => s

/-- Whoever asked for a chunk action is told its end; a command is counted on the page of the engine named (R237). -/
def chunkTell (s : State) (tile engine : Nat) (b : ChunkBy) (r : Res) : State :=
  match b with
  | .cmd id => drvDone s tile engine id r
  | .entry run e => entryDone s run e r.code

/-- A code as a status: a rejection sets no COND bit. -/
def chunkRes (code : Nat) : Res := if condOrder.contains code then resOf [code] else { code := code }

/-- The destination range of a move. -/
def moveDest (m : ChunkMove) : Nat × Nat :=
  if m.up then (m.high, m.high + m.len)
  else (m.low, m.low + (if m.lowComp then compExtent m.len else m.len))

/-- End a move: its engine and its ranges are released (R229). -/
def endMove (s : State) (m : ChunkMove) : State :=
  { s with
    moves := s.moves.filter fun x => !(x.fold == m.fold && x.chunk == m.chunk)
    moving := s.moving.filter fun x => !(x.fold == m.fold && x.chunk == m.chunk) }

/-- The waiting actions of a chunk, oldest first, and the state without them. -/
def takeWaits (s : State) (f c : Nat) : List ChunkWait × State :=
  (s.waits.filter (fun w => w.fold == f && w.chunk == c),
    { s with waits := s.waits.filter fun w => !(w.fold == f && w.chunk == c) })

/-- The access to a chunk's record ended with an error: a move in progress ends with its data undefined, and its holder and
every waiting command end with that code (R581). -/
def recordBroken (s : State) (f c code : Nat) : State :=
  let ms := s.moves.filter fun m => m.fold == f && m.chunk == c
  let s := ms.foldl (fun s m =>
    let d := moveDest m
    let s := undefLines (endMove s m) d.1 d.2
    chunkTell s m.tile m.engine m.by_ (chunkRes code)) s
  let ws := takeWaits s f c
  ws.1.foldl (fun s w => chunkTell s w.tile noEngine w.by_ (chunkRes code)) ws.2

/-! ## Actions (R228) -/

/-- A chunk action asked for: 0 PROMOTE, 1 RELEASE, 2 EVICT. -/
structure ChunkAct where
  op : Nat
  fold : Nat
  chunk : Nat
  writable : Bool
  ctx : Nat
  tile : Nat
  engine : Nat
  by_ : ChunkBy
  deriving DecidableEq, Repr

/-- What a chunk action does: it ends, waits for a move, moves the chunk itself, waits for its record's line, or cannot use
the record (R581). -/
inductive ChunkOut where
  | done (s : State) (r : Res)
  | wait (s : State)
  | move (s : State)
  | busy
  | broken (s : State) (code : Nat)

/-- Start a move: the engine is held, and both ranges of the chunk are under the move filter (R229, R251). -/
def beginMove (s : State) (a : ChunkAct) (r : Nat) (up : Bool) : State :=
  let m : ChunkMove := ⟨a.fold, a.chunk, up, a.tile, a.engine, a.writable, a.ctx, a.by_, ckLow r, ckComp r,
    ckHigh r, ckLen r⟩
  { s with
    moves := s.moves ++ [m]
    moving := s.moving ++
      [⟨ckLow r, ckLow r + ckLowBytes r, a.fold, a.chunk⟩, ⟨ckHigh r, ckHigh r + ckLen r, a.fold, a.chunk⟩] }

/-- Put an action on its tile's wait list. -/
def addWait (s : State) (a : ChunkAct) : State :=
  { s with waits := s.waits ++ [⟨a.fold, a.chunk, a.tile, a.op == 2, a.writable, a.ctx, a.by_⟩] }

/-- The table of R228 for PROMOTE, RELEASE and EVICT on a record that has been read. -/
def chunkAct (s : State) (a : ChunkAct) (r : Nat) : ChunkOut :=
  let put (r : Nat) : State := chunkWrite s a.tile a.fold a.chunk r
  match a.op with
  | 0 =>
    if ckRef r = 0xFFFF then .done s (reject stSTATE)
    else
      let r' := ckSetRef r (ckRef r + 1)
      match ckState r with
      | 0 =>
        if !chunkInside s a.fold r then .done s (chunkRes stPERM)
        else
          let r' := ckSetHolder (ckSetState r' 1) a.ctx
          .move (beginMove (put r') a r' true)
      | 1 => .wait (addWait (put r') a)
      | 2 => .done (put r') {}
      | _ => .wait (addWait (put (ckSet r' 149 149 1)) a)
  | 1 => if ckRef r = 0 then .done s (reject stSTATE) else .done (put (ckSetRef r (ckRef r - 1))) {}
  | _ =>
    match ckState r with
    | 0 => .done s {}
    | 1 => .wait (bump (addWait (put (ckSet r 148 148 1)) a) (pgDRV a.tile (a.engine % 16)) 15)
    | 2 =>
      if ckRef r ≠ 0 then .done s { code := stNOTE, cond := condBits [stNOTE], note := ckRef r }
      else if r.testBit 147 then
        if !chunkInside s a.fold r then .done s (chunkRes stPERM)
        else
          let r' := ckSetHolder (ckSetState r 3) a.ctx
          .move (beginMove (put r') a r' false)
      else .done (put (ckSetState r 0)) {}
    | _ => .wait (addWait s a)

/-- A chunk action: its record is read, and R228 applied. -/
def chunkDo (s : State) (a : ChunkAct) : ChunkOut :=
  if recordWaits s {} a.tile a.fold a.chunk then .busy
  else
    let rd := chunkRead s a.tile a.fold a.chunk
    match rd.2 with
    | .error code => .broken rd.1 code
    | .ok r => chunkAct (if bits r 146 144 ≤ 3 then rd.1 else bump rd.1 (pgFOLD a.fold) 11) a r

/-- The wait list of a tile is full (R228). -/
def waitsFull (s : State) (t : Nat) : Bool := 64 ≤ (s.waits.filter fun w => w.tile == t).length

/-- A chunk command of a queue: refused, waiting at the Drover input while the wait list is full or its record's line is
held, or performed. -/
def chunkCmd (s : State) (id : CmdId) (c : Cmd) (op : Nat) : State :=
  let chunk := cbits c 143 128
  let bad (f : Nat) : Bool := !reservedOk c.word.toNat (vNamed (cOp c)) || chunkCount s f ≤ chunk
  let f := (ctxFold s id.ctx).getD 0
  if waitsFull s c.tile && !bad f then s
  else acceptCmd s id (bad f) false false fun f =>
    let a : ChunkAct := ⟨op, f, chunk, op == 0 && c.word.toNat.testBit 144, id.ctx, c.tile, c.engine, .cmd id⟩
    let hold (s : State) : State := updCmd s id fun c => { c with phase := .running, engine := noEngine }
    match chunkDo s a with
    | .done s r => finishCmd s id r
    | .wait s => hold s
    | .move s => hold s
    | .busy => s
    | .broken s code => finishCmd (recordBroken s f chunk code) id (chunkRes code)

def execPromote (c : CmdId) (s : State) : Out := .next (withDrv s c 0x38 fun x => chunkCmd s c x 0)
def execRelease (c : CmdId) (s : State) : Out := .next (withDrv s c 0x39 fun x => chunkCmd s c x 1)
def execEvict (c : CmdId) (s : State) : Out := .next (withDrv s c 0x3A fun x => chunkCmd s c x 2)

/-! ## Ends of moves -/

/-- A move's engine, where one is held. -/
def moveEngine (m : ChunkMove) : Nat := m.engine % 16

/-- The host dies of a chunk's home that do not serve requests: the first address that fails (R225, R228, R299). A compressed
home's map blocks lie on the same pages' dies as its slots. -/
def moveDown (s : State) (m : ChunkMove) : Option Nat :=
  ((List.range (min 2 (m.len / 4096))).map fun i => m.low + i * 4096).find? fun pa => tierFDown s pa

/-- Copy one 256 B line, with its poison, and count it (R216, R237). -/
def copyLine (m : ChunkMove) (acc : State × Bool) (src dst : Nat) : State × Bool :=
  let pg := pgDRV m.tile (moveEngine m)
  let q := chunkAsker m.tile
  let r := cohRead acc.1 q src 256 .clean .clean
  let w := cohWrite r.1 q dst r.2.1 r.2.2 .clean .clean
  let s := bump (bump (bump w.1 pg 1) pg 2) pg (if m.up then 5 else 6)
  (s, acc.2 || r.2.2 || w.2.isSome)

/-- Move 4 KiB of a chunk (R221 to R224): the answer adds whether poison was met. -/
def moveBlock (m : ChunkMove) (acc : State × Bool) (b : Nat) : State × Bool :=
  let off := b * 4096
  let pg := pgDRV m.tile (moveEngine m)
  let q := chunkAsker m.tile
  if m.lowComp then
    if m.up then
      let r := readBlock acc.1 q m.low off .ok
      let s := bumpBy (bumpBy (bump r.1 pg 3) pg 5 r.2.sectors) pg 2 16
      let s := if r.2.invalid then droverLog s m.tile (moveEngine m) 5 m.ctx (mapPa m.low off) else s
      let w := cohWrites s q (m.high + off) (r.2.data.getD (List.replicate 4096 0)) r.2.data.isNone
      (w.1, acc.2 || r.2.data.isNone || w.2)
    else
      let r := readSectors acc.1 q (m.high + off) 16
      let w := writeBlock r.1 q m.low off r.2.1 r.2.2
      (bumpBy (bumpBy (bump w.1 pg 4) pg 6 w.2.1) pg 1 16, acc.2 || r.2.2 || w.2.2)
  else
    (List.range 16).foldl (fun acc l =>
      let o := off + l * 256
      if m.up then copyLine m acc (m.low + o) (m.high + o) else copyLine m acc (m.high + o) (m.low + o)) acc

/-- The data of a move, block by block: the answer says whether poison was met. -/
def moveData (s : State) (m : ChunkMove) : State × Bool :=
  (List.range (m.len / 4096)).foldl (moveBlock m) (s, false)

/-- What a move that a lower tier failed leaves (R226): blocks whose home answers are wholly old or wholly new, and which is
open; the others are old. -/
def moveFailed (s : State) (m : ChunkMove) : State :=
  (List.range (m.len / 4096)).foldl (fun s b =>
    let d := drawFree s
    if (Config.freeByte d.1 0).toNat % 2 = 0 || tierFDown d.2 (m.low + b * 4096) then d.2 else (moveBlock m (d.2, false) b).1) s

/-- The end of a move waits for its record, or for a line of its ranges on which a transaction runs (R275). -/
def moveWaits (s : State) (m : ChunkMove) : Bool :=
  recordWaits s { move := some (m.fold, m.chunk) } m.tile m.fold m.chunk ||
    (s.coh.txns.map (·.1) ++ s.coh.fly.map (·.1)).any fun l =>
      (m.low < l * 256 + 256 && l * 256 < m.low + (if m.lowComp then compExtent m.len else m.len)) ||
        (m.high < l * 256 + 256 && l * 256 < m.high + m.len)

/-- The data of a move, or what its failure leaves, with the code it ends with: `code` is what a request of it met, if any
did (R225, R235); a hang of the engine (TIMEOUT) is none of DRV_ERRLOG's causes. -/
def moveRun (s : State) (m : ChunkMove) (code : Nat) : State × Nat :=
  let down := moveDown s m
  if code ≠ 0 || down.isSome then
    let s := if code = stTIMEOUT then s else droverLog s m.tile (moveEngine m) (tierCause m.low false) m.ctx (down.getD m.low)
    (moveFailed s m, if code = 0 then stTIER else code)
  else
    let r := moveData s m
    (r.1, if r.2 then stPOISON else 0)

/-- The action that a waiting entry stands for, on the engine that has just ended a move. -/
def waitAct (w : ChunkWait) (engine : Nat) : ChunkAct :=
  ⟨if w.evict then 2 else 0, w.fold, w.chunk, w.writable, w.ctx, w.tile, engine, w.by_⟩

/-- The oldest waiting PROMOTE becomes HOLDER and the copy up begins; the others wait on. -/
def restartCopy (s : State) (r : Nat) (m : ChunkMove) (w : ChunkWait) (others : List ChunkWait) : State :=
  let r := ckSetHolder (ckSetState r 1) w.ctx
  let pend := others.any (·.evict)
  let r := ckSet (ckSet r 149 149 0) 148 148 (bitN pend)
  let s := chunkWrite { s with waits := s.waits ++ others } m.tile m.fold m.chunk r
  beginMove s { waitAct w m.engine with tile := m.tile } r true

/-- Apply the waiting EVICTs in turn (R228): the record's line is free, as the move's end has just written it. -/
def applyEvicts (m : ChunkMove) (ws : List ChunkWait) (s : State) : State :=
  ws.foldl (fun s w => match chunkDo s (waitAct w m.engine) with
    | .done s r => chunkTell s m.tile m.engine w.by_ r
    | .wait s => s
    | .move s => s
    | .busy => { s with waits := s.waits ++ [w] }
    | .broken s code => chunkTell (recordBroken s w.fold w.chunk code) m.tile m.engine w.by_ (chunkRes code)) s

/-- A copy up ends (R228). Its own reads give poison; `code` is what else ended it. -/
def copyUpEnd (s : State) (m : ChunkMove) (code : Nat) : State :=
  if moveWaits s m then s
  else
    let tell (s : State) (b : ChunkBy) (code : Nat) : State :=
      chunkTell s m.tile m.engine b (if code = 0 then {} else chunkRes code)
    let run := moveRun s m code
    let code := run.2
    let rd := chunkRead (bump run.1 (pgDRV m.tile (moveEngine m)) 12) m.tile m.fold m.chunk
    match rd.2 with
    | .error c => recordBroken rd.1 m.fold m.chunk c
    | .ok r =>
      let ws := takeWaits (endMove rd.1 m) m.fold m.chunk
      let s := ws.2
      let proms := ws.1.filter fun w => !w.evict
      let evs := ws.1.filter (·.evict)
      if code = 0 then
        let r := ckSet (ckSetState r 2) 147 147 (bitN m.writable)
        let s := tell (chunkWrite s m.tile m.fold m.chunk (ckSet r 148 148 0)) m.by_ 0
        applyEvicts m evs (proms.foldl (fun s w => tell s w.by_ 0) s)
      else
        let r := ckSetRef r (ckRef r - 1)
        match proms with
        | w :: rest => tell (restartCopy s r m w (rest ++ evs)) m.by_ code
        | [] =>
          let s := chunkWrite s m.tile m.fold m.chunk (ckSet (ckSetState r 0) 148 148 0)
          evs.foldl (fun s w => tell s w.by_ 0) (tell s m.by_ code)

/-- A write-back ends (R228): with poison its blocks are written as POISON and the chunk is LOW; with another error it stays
RESIDENT. -/
def writeBackEnd (s : State) (m : ChunkMove) (code : Nat) : State :=
  if moveWaits s m then s
  else
    let tell (s : State) (b : ChunkBy) (code : Nat) : State :=
      chunkTell s m.tile m.engine b (if code = 0 then {} else chunkRes code)
    let run := moveRun s m code
    let code := run.2
    let rd := chunkRead (bump run.1 (pgDRV m.tile (moveEngine m)) 13) m.tile m.fold m.chunk
    match rd.2 with
    | .error c => recordBroken rd.1 m.fold m.chunk c
    | .ok r =>
      let ws := takeWaits (endMove rd.1 m) m.fold m.chunk
      let s := ws.2
      let proms := ws.1.filter fun w => !w.evict
      let evs := ws.1.filter (·.evict)
      let tellEvs (s : State) : State := evs.foldl (fun s w => tell s w.by_ code) (tell s m.by_ code)
      if code ≠ 0 ∧ code ≠ stPOISON then
        let s := chunkWrite s m.tile m.fold m.chunk (ckSet (ckSetState r 2) 149 149 0)
        proms.foldl (fun s w => tell s w.by_ 0) (tellEvs s)
      else
        match proms with
        | w :: rest => tellEvs (restartCopy s (ckSetState r 0) m w rest)
        | [] => tellEvs (chunkWrite s m.tile m.fold m.chunk (ckSet (ckSetState r 0) 149 149 0))

/-- The move of a chunk, in the direction named. -/
def findMove (s : State) (f c : Nat) (up : Bool) : Option ChunkMove :=
  s.moves.find? fun m => m.fold == f && m.chunk == c && m.up == up

/-! ## Schedules -/

/-- An entry that R231 refuses. -/
def entryBad (s : State) (f : Nat) (x : BitVec 256) : Bool :=
  let e := x.toNat
  bits e 63 27 != 0 || bits e 255 160 != 0 || bits e 17 16 == 3 || chunkCount s f ≤ bits e 15 0

/-- SCHED_RUN reads and checks its table, as a Drover engine does, and starts the run (R224, R225, R231); a fifth run of a
tile waits. -/
def schedRun (s : State) (id : CmdId) (c : Cmd) (resp : LineResp) : State :=
  let tbl := cbits c 175 128
  let n := cbits c 191 176 + 1
  let bad := !reservedOk c.word.toNat (vNamed 0x34) || tbl % 32 != 0
  if bad then rejectCmd s id stBAD
  else if 4 ≤ (s.scheds.filter fun r => r.tile == c.tile).length then s
  else match droverRead s c.tile c.engine id.ctx resp (linePieces tbl (n * 32)) [] [] with
    | .wait s' => s'
    | .fail code s' p => finishCmd s' id (resOf ((p.map fun _ => stPOISON) ++ [code]))
    | .ok s' bs p _ =>
      if p != [] then finishCmd s' id (resOf (p.map fun _ => stPOISON))
      else
        let es := (List.range n).map fun i => BitVec.ofNat 256 (field bs (i * 32) 32)
        let f := (ctxFold s' id.ctx).getD 0
        acceptCmd s' id (es.any (entryBad s' f)) false false fun f =>
          let r : SchedSt := { id := id, fold := f, tile := c.tile, entries := es }
          updCmd { s' with scheds := s'.scheds ++ [r] } id fun c => { c with phase := .running, engine := noEngine }

def execSchedRun (c : CmdAns) (s : State) : Out := .next (withDrv s c.id 0x34 fun x => schedRun s c.id x c.resp)

/-- SCHED_CANCEL stops further starts of the context's run that carries TARGET_TAG, and completes when that
run has completed (R234). -/
def execSchedCancel (c : CmdId) (s : State) : Out :=
  .next (withDrv s c 0x35 fun x =>
    let hit := s.scheds.find? fun r => r.id.ctx == c.ctx &&
      (match findCmd s r.id with | some y => cbits y 47 32 == cbits x 143 128 | none => false)
    acceptCmd s c (!reservedOk x.word.toNat (vNamed 0x35)) false hit.isNone fun _ =>
      match hit with
      | none => s
      | some r =>
        let s := updCmd s c fun y => { y with phase := .running, engine := noEngine }
        let s := schedCheckEnd (updSched s r.id fun r => { r with cancelled := true }) r.id
        if s.scheds.any fun q => q.id == r.id then updSched s r.id fun r => { r with cancellers := r.cancellers ++ [c] }
        else finishCmd s c {})

/-- The next entry of a run starts when it may (R232): it acts as its chunk command, on a free engine where it
moves data. -/
def entryStart (s : State) (id : CmdId) : State :=
  match s.scheds.find? (fun r => r.id == id), findCmd s id with
  | some r, some c =>
    if r.cancelled || r.entries.length ≤ r.next || cbits c 201 198 + 1 ≤ r.inflight.length || waitsFull s r.tile then s
    else
      let x := lget r.entries r.next 0
      if !entryDue s c x true then s
      else
        let u : UnitId := .drover r.tile 0
        let eng := if droverCapOk s r.tile r.fold then freeEngine s u else none
        let chunk := bits x.toNat 15 0
        let a : ChunkAct := ⟨bits x.toNat 17 16, r.fold, chunk, x.toNat.testBit 18, id.ctx, r.tile,
          eng.getD noEngine, .entry id r.next⟩
        let started (s : State) : State :=
          updSched s id fun q => { q with next := r.next + 1, inflight := q.inflight ++ [r.next] }
        match chunkDo s a with
        | .done s' res => entryDone (started s') id r.next res.code
        | .wait s' => started s'
        | .move s' => if eng.isSome then started s' else s
        | .busy => s
        | .broken s' code => entryDone (started (recordBroken s' r.fold chunk code)) id r.next code
  | _, _ => s

def execSchedEntryStart (c : CmdId) (s : State) : Out := .next (entryStart s c)

end Sys2Proof.Machine
end

