-- ==== Sys2Proof/Machine/Fold.lean ====
section
/-! DEFINITION. Folds and contexts (R239, R241), segment-table fills and invalidations (R247, R253, R585), and
fault records with their replies (R249, R250). -/

namespace Sys2Proof.Machine

open Sys2Proof

/-! ## Enabling a fold (R239) -/

/-- A fold whose configuration is in force or being taken into force. -/
def foldEnabled (s : State) (f : Nat) : Bool := fbit s (pgFOLD f) F.FOLD_CTL_ENABLE

/-- The other enabled folds. -/
def otherFolds (s : State) (f : Nat) : List Nat := (List.range 16).filter fun g => g != f && foldEnabled s g

/-- A range that touches no hole, register page or scratchpad aperture (check 0x3). -/
def rangeClean (s : State) (lo hi : Nat) : Bool :=
  hi ≤ tierFBytes s || (tierNBase ≤ lo && hi ≤ tierNBase + tierNBytes s) ||
    (lockBase ≤ lo && hi ≤ lockBase + 0x40000000) || (winBase ≤ lo && hi ≤ winBase + 64 * 0x10000000000)

/-- The local region of tile t as addresses (R186). -/
def localRange (s : State) (t : Nat) : Nat × Nat :=
  let lo := tierNBase + localBase s t * 256
  (lo, lo + (tileLive s t).length * localRows s * 256)

/-- Every valid region has LIMIT at or above BASE (check 0x7). -/
def regionsOrdered (s : State) (f : Nat) : Bool :=
  (List.range 8).all fun n => !fbiti s (pgFOLD f) F.FOLD_REGION_LO_VALID n ||
    fgeti s (pgFOLD f) F.FOLD_REGION_LO_BASE n ≤ fgeti s (pgFOLD f) F.FOLD_REGION_HI_LIMIT n

/-- The first failing check of R239: 0x7 first, then 0x1 to 0x5; none when the enable is accepted. -/
def foldCheck (s : State) (f : Nat) : Option Nat :=
  let dies := fget s (pgFOLD f) F.FOLD_DIES_DIES
  let rs := foldRegions s f
  let others := otherFolds s f
  let clash := others.any fun g =>
    dies &&& fget s (pgFOLD g) F.FOLD_DIES_DIES != 0 ||
      rs.any fun r => (foldRegions s g).any fun q => overlaps (r.1, r.2.1) (q.1, q.2.1)
  let share := ((f :: others).map fun g => fget s (pgFOLD g) F.FOLD_SHARE_SHARE).foldl (· + ·) 0
  let strays := (List.range 4).any fun t =>
    let l := localRange s t
    rs.any (fun r => overlaps (r.1, r.2.1) l) && (setBitsOf 16 dies).any fun d => d / 4 != t
  if !regionsOrdered s f then some 7
  else if clash then some 1
  else if 63 < share then some 2
  else if rs.any fun r => !rangeClean s r.1 r.2.1 then some 3
  else if strays then some 4
  else if others.any fun g => foldWindows s f &&& foldWindows s g != 0 then some 5
  else none

/-- Refuse a change of a fold's enable with its cause. -/
def foldRefuse (s : State) (f cause : Nat) : State :=
  fput (fput s (pgFOLD f) F.FOLD_STS_CFG_ERR 1) (pgFOLD f) F.FOLD_STS_CFG_CAUSE cause

/-- The part checks a fold and enables it; its dies are cleared first (R178, R239). -/
def foldEnable (s : State) (f : Nat) : State :=
  if foldEnabled s f then s
  else match foldCheck s f with
    | some cause => foldRefuse s f cause
    | none =>
      let s := fput s (pgFOLD f) F.FOLD_CTL_ENABLE 1
      let s := (setBitsOf 16 (fget s (pgFOLD f) F.FOLD_DIES_DIES)).foldl (fun s d => storeClear s d .foldChange) s
      foldActivate s f

def execFoldEnable (src : Src) (fold : Nat) (s : State) : Out :=
  .next (if fold < 16 then withSys s src fun s => foldEnable s fold else s)

/-- A context of the fold is enabled. -/
def foldInUse (s : State) (f : Nat) : Bool :=
  (List.range 512).any fun c => ctxFold s c == some f && fbit s (pgCTX c) F.CTX_CFG_ENABLE

/-- The fold is disabled, or the disable is refused with cause 0x6 (R239). -/
def foldDisable (s : State) (f : Nat) : State :=
  if foldInUse s f then foldRefuse s f 6
  else fput (fput s (pgFOLD f) F.FOLD_CTL_ENABLE 0) (pgFOLD f) F.FOLD_STS_ACTIVE 0

def execFoldDisable (src : Src) (fold : Nat) (s : State) : Out :=
  .next (if fold < 16 then withSys s src fun s => foldDisable s fold else s)

/-- A write of CTX_CFG.ENABLE = 1 takes effect only in an enabled fold; otherwise CTX_SEGERR records cause 0x5
(R241). -/
def contextEnable (s : State) (c : Nat) : State :=
  let ok := match ctxFold s c with | some f => foldActive s f | none => false
  if ok then fput s (pgCTX c) F.CTX_CFG_ENABLE 1 else segErr s c 0 5

def execContextEnable (src : Src) (ctx : Nat) (s : State) : Out :=
  .next (if ctx < 512 then withPage s src (pgCTX ctx) fun s => contextEnable s ctx else s)

def execContextDisable (src : Src) (ctx : Nat) (s : State) : Out :=
  .next (if ctx < 512 then withPage s src (pgCTX ctx) fun s => fput s (pgCTX ctx) F.CTX_CFG_ENABLE 0 else s)

/-! ## Fills and invalidations -/

/-- A segment-table read of a stream returns (R247): the table is cached in place of the least recently used,
or the access that missed ends with the read's code (R585). The sixteen descriptors are checked as the table is filled. The
read waits at the move filter like any other access (R251). -/
def tableFill (s : State) (x : StreamId) (c : Nat) (resp : LineResp) : State :=
  let st := getStream s x
  if st.want != some c then s
  else match ctxFold s c with
    | none => putStream s x { st with want := none }
    | some f =>
      let pa := segTblPa s c
      let q : Asker := { tile := some (streamTile s x), fold := f }
      let fail (s : State) (code : Nat) : State := putStream s x { st with want := none, dead := some (st.wantVa, code) }
      if !segTblInside s c f then putStream (bump s (pgFOLD f) 0) x { st with want := none }
      else if [pa, pa + 256].any fun a => lineHeld s {} a || targetBusy s a q then s
      else match respError resp with
        | some code => fail (bump s (pgFOLD f) 0) code
        | none =>
          let a := unitRead (bump s (pgFOLD f) 0) q pa 256 resp
          let b := unitRead a.1 q (pa + 256) 256 .ok
          match a.2, b.2 with
          | .error code, _ => fail b.1 code
          | _, .error code => fail b.1 code
          | .ok (x0, p0), .ok (x1, p1) =>
            if p0 || p1 then fail b.1 stPOISON
            else
              let keep := (st.cache.filter fun e => e.ctx != c).take ((streamKey x).2 - 1)
              putStream b.1 x { st with want := none, cache := ⟨c, x0 ++ x1, segChecks s f (x0 ++ x1)⟩ :: keep }

def execSegmentTableFill (stream : StreamId) (ctx : Nat) (resp : LineResp) (s : State) : Out :=
  .next (tableFill s stream ctx resp)

/-- Drop a context's table from every stream, and its fills in flight (R253, R254). An access in flight past step 4 keeps its
translation. -/
def dropTables (s : State) (c : Nat) : State :=
  { s with streams := s.streams.map fun e => (e.1, { e.2 with
      cache := e.2.cache.filter fun t => t.ctx != c
      want := if e.2.want == some c then none else e.2.want
      past := e.2.past.map fun p => if p.ctx = c then { p with old := true } else p }) }

/-- Some access translated under a dropped table of a context has not completed (R253, R254). -/
def oldInFlight (s : State) (c : Nat) : Bool :=
  s.streams.any fun e => match e.2.past with | some p => p.ctx == c && p.old | none => false

/-- A write of CTX_SEGINV.GO (R253). -/
def segInvalidate (s : State) (ctx : Nat) : State :=
  let s := match ctxFold s ctx with | some f => bump s (pgFOLD f) 8 | none => s
  dropTables (fput s (pgCTX ctx) F.CTX_SEGINV_STS_ISSUED (fget s (pgCTX ctx) F.CTX_SEGINV_STS_ISSUED + 1)) ctx

def execSegmentInvalidate (src : Src) (ctx : Nat) (s : State) : Out :=
  .next (if ctx < 512 then withPage s src (pgCTX ctx) fun s => segInvalidate s ctx else s)

/-- Every access under a dropped table has completed: DONE advances, in the order written (R253). -/
def execSegmentInvalidateDone (ctx : Nat) (s : State) : Out :=
  .next (if ctx < 512 ∧ fget s (pgCTX ctx) F.CTX_SEGINV_STS_DONE ≠ fget s (pgCTX ctx) F.CTX_SEGINV_STS_ISSUED ∧
      !oldInFlight s ctx then
    fput s (pgCTX ctx) F.CTX_SEGINV_STS_DONE (fget s (pgCTX ctx) F.CTX_SEGINV_STS_DONE + 1)
  else s)

/-! ## Fault records and replies -/

/-- The 32 bytes of a fault record (R249). -/
def faultRecord (slot : Nat) (x : SlotSt) : List Byte :=
  leBytes 32 (x.cause + x.seg * 2 ^ 8 + x.ctx * 2 ^ 12 + x.cookie * 2 ^ 32 + x.va * 2 ^ 64 + slot * 2 ^ 128
    + x.seq * 2 ^ 136 + x.time % 2 ^ 64 * 2 ^ 192)

/-- Entries of a fold's fault ring (R263). -/
def fqSize (s : State) (f : Nat) : Nat := 2 ^ max (fget s (pgFOLD f) F.FOLD_FQBASE_HI_LOG2) 4

def putSlot (s : State) (f i : Nat) (x : SlotSt) : State :=
  let fs := mgetD s.folds f {}
  { s with folds := mput s.folds f { fs with slots := mput fs.slots i x } }

/-- Write the record of a slot, or find that it cannot be written (R249). A record that meets a full ring waits until
FOLD_FQHEAD moves; the write waits at the move filter (R251). -/
def recordWrite (s : State) (f i : Nat) (failed : Bool) : State :=
  match mget (mgetD s.folds f {}).slots i with
  | none => s
  | some x =>
    let head := fget s (pgFOLD f) F.FOLD_FQHEAD_HEAD
    let tail := fget s (pgFOLD f) F.FOLD_FQTAIL_TAIL
    let pa := fpair s (pgFOLD f) F.FOLD_FQBASE_LO_BASE_LO F.FOLD_FQBASE_HI_BASE_HI 0 + tail % fqSize s f * 32
    if x.written then s
    else if fqSize s f ≤ (tail + 65536 - head) % 65536 then putSlot s f i { x with held := false }
    else if lineHeld s {} pa || targetBusy s pa then s
    else
      let tier := regionOf s pa == .tierN || regionOf s pa == .tierF
      let bad := failed || !tier || !inPlainRegions s f pa (pa + 32) || curPoison s pa 32 || paBad s pa ||
        (regionOf s pa == .tierF && tierFDown s pa)
      if bad then
        let s := putSlot s f i { x with held := true }
        raiseEvent (bump (fput s (pgFOLD f) F.FOLD_STS_FQ_ERR 1) (pgFOLD f) 12) (pgFOLD f)
      else
        let s := (cohWrite s { fold := f } pa (faultRecord i x) false .clean .clean).1
        let s := fput (putSlot s f i { x with written := true, held := false }) (pgFOLD f) F.FOLD_FQTAIL_TAIL (tail + 1)
        raiseEvent (bump s (pgFOLD f) 1) (pgFOLD f)

/-- A new slot's fault record is written, waits for room, or cannot be written. -/
def execFaultRecordWrite (fold slot : Nat) (failed : Bool) (s : State) : Out :=
  .next (match mget (mgetD s.folds fold {}).slots slot with
    | some x => if x.held || 16 ≤ fold then s else recordWrite s fold slot failed
    | none => s)

/-- A write of FOLD_FQBASE_LO or FOLD_FQBASE_HI, after which the part tries the held records again (R249). -/
def fqBaseWrite (s : State) (f : Nat) (hi : Bool) (v : Nat) : State :=
  let s := if hi then
      fput (fput s (pgFOLD f) F.FOLD_FQBASE_HI_BASE_HI (bits v 15 0)) (pgFOLD f) F.FOLD_FQBASE_HI_LOG2 (bits v 19 16)
    else fput s (pgFOLD f) F.FOLD_FQBASE_LO_BASE_LO (bits v 31 5)
  ((mgetD s.folds f {}).slots.filter fun e => e.2.held).foldl (fun s e => recordWrite s f e.1 false) s

def execFqbaseWrite (src : Src) (fold : Nat) (hi : Bool) (value : BitVec 32) (s : State) : Out :=
  .next (if fold < 16 then withPage s src (pgFOLD fold) fun s => fqBaseWrite s fold hi value.toNat else s)

/-- A stream stalled on this slot of this fold. -/
def onSlot (s : State) (f : Nat) (slot : Option Nat) (x : StreamSt) : Bool :=
  match x.stall with
  | some t => !t.hold && t.slot == slot && ctxFold s t.ctx == some f
  | none => false

/-- Answer a fault slot (R250): the streams on it refetch and try again, or end with SEG_FAULT; the slot is
free, and a stream that waits for a slot tries again. -/
def faultReply (s : State) (f slot seq : Nat) (decline : Bool) : State :=
  let fs := mgetD s.folds f {}
  match mget fs.slots slot with
  | none => bump s (pgFOLD f) 4
  | some x =>
    if x.seq != seq then bump s (pgFOLD f) 4
    else
      let s := if decline then segErr (bump s (pgFOLD f) 3) x.ctx x.seg 4 else s
      let answer (e : Nat × StreamSt) : Nat × StreamSt :=
        if onSlot s f (some slot) e.2 then
          let va := (e.2.stall.map (·.va)).getD 0
          if decline then (e.1, { e.2 with stall := none, dead := some (va, stSEG) })
          else (e.1, { e.2 with stall := none, want := some x.ctx, wantVa := va, cache := e.2.cache.filter fun t => t.ctx != x.ctx })
        else if onSlot s f none e.2 then (e.1, { e.2 with stall := none })
        else e
      { s with streams := s.streams.map answer, folds := mput s.folds f { fs with slots := mdel fs.slots slot } }

def execFaultReplyReplay (src : Src) (fold slot : Nat) (seq : BitVec 8) (s : State) : Out :=
  .next (if fold < 16 then withPage s src (pgFOLD fold) fun s => faultReply s fold slot seq.toNat false else s)

def execFaultReplyDecline (src : Src) (fold slot : Nat) (seq : BitVec 8) (s : State) : Out :=
  .next (if fold < 16 then withPage s src (pgFOLD fold) fun s => faultReply s fold slot seq.toNat true else s)

end Sys2Proof.Machine
end

