-- ==== Sys2Proof/Machine/Coherence.lean ====
section
/-! DEFINITION. The coherence protocol (R265 to R292): what a home does with requests, answers and writebacks
(R275 to R279), what an agent does with snoops and its own copies (R270, R277, R281, R282), atomics (R280), a
dead agent (R286 to R289) and the lock regions (R290). -/

namespace Sys2Proof.Machine

open Sys2Proof

/-! ## Performing requests at the home (R276) -/

/-- Perform a write at the home (R276): a write of part of a poisoned line leaves it poisoned (R197), and one to a bad
channel is discarded (R200); the answer on the requester's port is empty, or POISON. -/
def homePerformWrite (s : State) (line : Nat) (mask : List Bool) (data : List Byte) (poison : Bool) : State :=
  let old := homeLine s line
  let whole := (List.range 256).all fun i => lget mask i false
  if paBad s (line * 256) || (old.2 && !whole) then { homeTouch s line with resp := { code := stPOISON } }
  else { homeWrite s line (mergeBytes old.1 mask data) poison with resp := {} }

/-- Perform an atomic at the home (R280): a poisoned line is unchanged, and the prior value carries the poison. -/
def homePerformAtom (s : State) (addr : Nat) (op : AtomOp) (size : Nat) (x : AtomArg) : State :=
  let r := homeAtomic s addr op size x
  { r.1 with resp := { data := r.2.1, poison := r.2.2, code := if r.2.2 then stPOISON else 0 } }

/-! ## Messages -/

def sendMsg (s : State) (m : CohMsg) : State := putCoh s fun c => { c with msgs := c.msgs ++ [m] }

/-- The agent a message is addressed to; none for the home. -/
def msgTo (m : CohMsg) : Option Nat :=
  match m with
  | .snoop _ a _ => some a
  | .data a _ _ _ _ => some a
  | .cmp a _ => some a
  | .wbAck a _ => some a
  | _ => none

def msgLine (m : CohMsg) : Nat :=
  match m with
  | .snoop _ _ l => l
  | .rspI _ l => l
  | .rspS _ l => l
  | .rspFwd _ l _ => l
  | .rspWbPend _ l => l
  | .dataHome _ l _ _ => l
  | .data _ l _ _ _ => l
  | .wbM _ l _ _ => l
  | .cmp _ l => l
  | .wbAck _ l => l
  | .done _ l => l

/-- The class in which a message travels (R31, R273): 0 request, 1 snoop, 2 response, 3 writeback, 4 completion; requests are
`CohReq`, and travel in class 0. -/
def cohClass (m : CohMsg) : Nat :=
  match m with
  | .snoop _ _ _ => 1
  | .rspI _ _ => 2
  | .rspS _ _ => 2
  | .rspFwd _ _ _ => 2
  | .rspWbPend _ _ => 2
  | .dataHome _ _ _ _ => 2
  | .data _ _ _ _ _ => 2
  | .wbM _ _ _ _ => 3
  | .cmp _ _ => 4
  | .wbAck _ _ => 4
  | .done _ _ => 4

/-- Send a message to an agent, or sink and count it at the dead agent's port (R287). -/
def sendAgent (s : State) (agent : Nat) (m : CohMsg) : State :=
  if agentDead s agent then bump s (pgCOH (agentTile agent (homeOf s (msgLine m)))) 13 else sendMsg s m

/-- Take the first message that `p` accepts off the hub. -/
def takeMsg (s : State) (p : CohMsg → Bool) : Option (CohMsg × State) :=
  match s.coh.msgs.find? p with
  | none => none
  | some m => some (m, putCoh s fun c => { c with msgs := c.msgs.erase m })

/-- Run a delivery if its message is on the way. -/
def deliver (s : State) (p : CohMsg → Bool) (f : State → CohMsg → State) : State :=
  match takeMsg s p with
  | none => s
  | some (m, s) => f s m

/-! ## Transactions -/

def putTxn (s : State) (line : Nat) (t : Txn) : State :=
  putCoh s fun c => { c with txns := mput c.txns line t }

/-- Send a snoop to every agent of a vector and wait for their answers; a dead agent's answer is the home's own,
RspI (R287). -/
def snoopAll (s : State) (line vec : Nat) (k : Snoop) (t : Txn) : State :=
  let live := (setBitsOf 6 vec).filter fun a => !agentDead s a
  let s := bumpBy s (pgCOH (homeOf s line)) 1 live.length
  let s := live.foldl (fun s a => sendMsg s (.snoop k a line)) s
  putTxn s line { t with waiting := live.foldl (fun v a => v ||| 2 ^ a) 0 }

/-! ## A transaction's end (R276, R279) -/

/-- The line's data for a transaction: the held WbM, or the home's. -/
def txnData (s : State) (line : Nat) (t : Txn) : List Byte × Bool :=
  match t.wbm with
  | some w => w.2
  | none => homeLine s line

/-- Grant a line to a caching requester from the home, with its Cmp; it is then busy until Done. -/
def grantHome (s : State) (line a : Nat) (g : CopySt) (t : Txn) : State :=
  let d := txnData s line t
  let s := sendAgent (homeTouch s line) a (.data a line g d.1 d.2)
  putTxn (sendAgent s a (.cmp a line)) line { t with granted := true }

/-- Send Cmp for data that an owner sent, or that left at once. -/
def grantCmp (s : State) (line a : Nat) (t : Txn) : State :=
  putTxn (sendAgent s a (.cmp a line)) line { t with granted := true }

/-- The line's transaction ends: the line is no longer busy. A requester that died meanwhile is resolved. -/
def txnEnd (s : State) (line : Nat) : State :=
  let t := mget s.coh.txns line
  let s := putCoh s fun c => { c with txns := mdel c.txns line }
  match t with
  | some ⟨.rdS a, _, _, _, _, _, _, _⟩ => if agentDead s a then resolveDead s line a else s
  | some ⟨.rdX a, _, _, _, _, _, _, _⟩ => if agentDead s a then resolveDead s line a else s
  | _ => s

/-- After a grant the line waits for Done; a dead requester's Done is not waited for (R287). -/
def awaitDone (s : State) (line a : Nat) : State := if agentDead s a then txnEnd s line else s

/-- Once every answer is in, the home serves the transaction (R276 to R279). -/
def settle (s : State) (line : Nat) : State :=
  match mget s.coh.txns line with
  | none => s
  | some t =>
    if t.waiting ≠ 0 ∨ t.wbWait.isSome ∨ t.granted then s
    else
      let sole := match dirGet s line with | some (_, x) => x | none => false
      match t.req with
      | .rdS a =>
        let o := ownerOf s line
        if t.fwd then awaitDone (grantCmp (dirPut s line (2 ^ o ||| 2 ^ a) false) line a t) line a
        else if t.kept then awaitDone (grantHome (dirPut s line (2 ^ o ||| 2 ^ a) false) line a .shared t) line a
        else awaitDone (grantHome (dirPut s line (2 ^ a) true) line a .exclusive t) line a
      | .rdX a =>
        let s' := dirPut s line (2 ^ a) true
        if t.fwd || (!sole && t.got.isSome) then awaitDone (grantCmp s' line a t) line a
        else awaitDone (grantHome s' line a .exclusive t) line a
      | .rdCur _ =>
        let answer (s : State) (d : List Byte × Bool) : State :=
          txnEnd { s with resp := { data := d.1, poison := d.2 } } line
        if t.fwd then answer s (t.got.getD ([], false))
        else
          let d := txnData s line t
          let s := homeTouch s line
          if t.kept || !sole then answer s d else answer (dirPut s line 0 false) d
      | .write _ mask data poison =>
        txnEnd (homePerformWrite (dirPut s line 0 false) line mask data poison) line
      | .atom _ addr op size operands =>
        txnEnd (homePerformAtom (dirPut s line 0 false) addr op size operands) line
      | .backInv => txnEnd (dirPut s line 0 false) line
      | .recover => txnEnd (dirPut s line 0 false) line

/-- Who made a request: an agent, or a requester that keeps no copy; none for the home's own transactions (R274). -/
def reqSource (r : CohReq) : Option (Nat × Option Requester) :=
  match r with
  | .rdS a => some (a, none)
  | .rdX a => some (a, none)
  | .rdCur w => some (6, some w)
  | .write w _ _ _ => some (6, some w)
  | .atom w _ _ _ _ => some (6, some w)
  | .backInv => none
  | .recover => none

/-- The home accepts a request for a line that is not busy (R276); a dead agent that the lookup finds recorded is
resolved at once (R287). -/
def accept (s : State) (line : Nat) (r : CohReq) : State :=
  let t : Txn := { req := r }
  let s := if (reqSource r).isSome then bump s (pgCOH (homeOf s line)) 0 else s
  let s := putCoh s fun c => { c with used := if (mget c.dir line).isSome then mput c.used line c.clock else c.used
                                      clock := c.clock + 1 }
  let s := ((List.range 6).filter (agentDead s)).foldl (fun s a => resolveDead s line a) s
  let s := if r == .recover then unreadable s line else s
  match dirGet s line with
  | none => settle (putTxn s line t) line
  | some (v, sole) =>
    let o := ownerOf s line
    match r with
    | .rdS a =>
      if !sole then
        awaitDone (grantHome (dirPut s line (v ||| 2 ^ a) false) line a .shared t) line a
      else if o = a then awaitDone (grantHome s line a .exclusive t) line a
      else settle (snoopAll s line v .shared t) line
    | .rdX a =>
      if !sole then
        let d := homeLine s line
        let s := sendAgent (homeTouch s line) a (.data a line .exclusive d.1 d.2)
        settle (snoopAll s line (v - (v &&& 2 ^ a)) .inv { t with got := some ([], false) }) line
      else if o = a then awaitDone (grantHome s line a .exclusive t) line a
      else settle (snoopAll s line v .sole t) line
    | .rdCur _ => if sole then settle (snoopAll s line v .cur t) line else settle (putTxn s line t) line
    | _ => settle (snoopAll s line v .inv t) line

/-- A request needs a new directory entry and its set is full: the lines of the set. -/
def needsRoom (s : State) (line : Nat) (r : CohReq) : Bool :=
  match r with
  | .rdS _ => (dirGet s line).isNone && 16 ≤ (dirMates s line).length
  | .rdX _ => (dirGet s line).isNone && 16 ≤ (dirMates s line).length
  | _ => false

/-- Run a back-invalidation for a full set unless one runs there already (R272). -/
def makeRoom (s : State) (line : Nat) : State :=
  let mates := dirMates s line
  let running := mates.any fun l => match mget s.coh.txns l with | some t => t.req == .backInv | none => false
  if running then s
  else match dirVictim s mates with
    | none => s
    | some l => accept (bump s (pgCOH (homeOf s line)) 6) l .backInv

/-- Requests that a home holds, waiting or running. -/
def atHome (s : State) (home : Nat) : List CohReq :=
  (s.coh.queue.filter fun e => homeOf s e.1 == home).map (·.2) ++
    (s.coh.txns.filter fun e => homeOf s e.1 == home).map (·.2.req)

/-- A request may leave its source: it has one of the source's 32 request credits, and the home one of its 1,024 trackers
(R274). -/
def mayLeave (s : State) (line : Nat) (r : CohReq) : Bool :=
  let here := atHome s (homeOf s line)
  match reqSource r with
  | none => true
  | some src => (here.filter fun x => reqSource x == some src).length < 32 && here.length < 1024

/-- Snoops of a home that an agent has not answered (R274). -/
def snoopsOut (s : State) (home agent : Nat) : Nat :=
  (s.coh.txns.filter fun e => homeOf s e.1 == home && e.2.waiting.testBit agent).length

/-- The home has a snoop credit for each agent that a transaction on the line may have to snoop (R274). -/
def snoopRoom (s : State) (line : Nat) (r : CohReq) : Bool :=
  let v := if r == .recover then 0x3F else match dirGet s line with | some (v, _) => v | none => 0
  (setBitsOf 6 v).all fun a => snoopsOut s (homeOf s line) a < 8

/-- A request to a lock region waits while LOCK_READY is 0 (R290). -/
def lockWaits (s : State) (line : Nat) : Bool :=
  match regionOf s (line * 256) with
  | .lock t _ => !fbit s (pgCOH t) F.COH_STS_LOCK_READY
  | _ => false

/-- Accept the waiting requests whose lines are free, in arrival order (R274, R275, R290). -/
def pumpWaiting (s : State) : List (Nat × CohReq) → List (Nat × CohReq) → State
  | [], kept => putCoh s fun c => { c with queue := kept.reverse }
  | (line, r) :: rest, kept =>
    if (mget s.coh.txns line).isSome || kept.any (fun e => e.1 == line) || lockWaits s line || !snoopRoom s line r then
      pumpWaiting s rest ((line, r) :: kept)
    else if needsRoom s line r then
      let s := makeRoom s line
      if needsRoom s line r then pumpWaiting s rest ((line, r) :: kept)
      else pumpWaiting (accept s line r) rest kept
    else pumpWaiting (accept s line r) rest kept

/-- Requests that their sources hold arrive at their homes' directories as credits and trackers allow, each source's in order
(R274, R275); the home's codes find `e` then (R285), and an unreadable entry is recovered by a transaction just before the
request's. -/
def arriveHeld (s : State) : List (Nat × CohReq × HomeEcc) → List (Nat × CohReq × HomeEcc) → State
  | [], kept => putCoh s fun c => { c with held := kept.reverse }
  | (line, r, e) :: rest, kept =>
    if !mayLeave s line r || kept.any fun k => reqSource k.2.1 == reqSource r && homeOf s k.1 == homeOf s line then
      arriveHeld s rest ((line, r, e) :: kept)
    else
      let fix : List (Nat × CohReq) := if e == .directory then [(line, .recover)] else []
      arriveHeld (putCoh (homeEcc s line e) fun c => { c with queue := c.queue ++ fix ++ [(line, r)] }) rest kept

/-- Let held requests arrive and accept what can be accepted, again while the first round left some that are held. -/
def pumpN : Nat → State → State
  | 0, s => s
  | n + 1, s =>
    let s := arriveHeld s s.coh.held []
    let s := pumpWaiting s s.coh.queue []
    if s.coh.held.isEmpty then s else pumpN n s

def pump (s : State) : State := pumpN (s.coh.held.length + 1) s

/-- A source makes a request of a line's home. -/
def request (s : State) (line : Nat) (r : CohReq) (e : HomeEcc) : State :=
  pump (putCoh s fun c => { c with held := c.held ++ [(line, r, e)] })

/-! ## Requests -/

/-- A request for an unbacked lock-region line (R290): reads give zeros, writes are discarded, and each is counted. -/
def unbackedRow (s : State) (line n : Nat) : State :=
  match regionOf s (line * 256) with
  | .lock t o => if o < lockBacked s t then s else { bump s (pgCOH t) 14 with resp := { data := List.replicate n 0 } }
  | _ => s

/-- An agent's own RdS or RdX (R270, R273, R276). A dead agent's request is completed with nothing sent
(R287); an agent asks for a line it does not hold as it needs, and only once. -/
def agentRequest (s : State) (agent line : Nat) (sole : Bool) (e : HomeEcc) : State :=
  let cp := mget s.coh.copies (copyKey line agent)
  let held := match cp with | some c => !(sole && c.st == .shared) | none => false
  let home := homeOf s line
  if !mayHold s agent line then (if agent < 6 then unbackedRow s line 256 else s)
  else if agentDead s agent then bump s (pgCOH home) 0
  else if held || (mget s.coh.wants (copyKey line agent)).isSome then s
  else if lineDown s line then { s with resp := { code := stTIER } }
  else
    let s := putCoh s fun c => { c with wants := mput c.wants (copyKey line agent) {} }
    request s line (if sole then .rdX agent else .rdS agent) e

def execRds (agent line : Nat) (ecc : HomeEcc) (s : State) : Out := .next (agentRequest s agent line false ecc)
def execRdx (agent line : Nat) (ecc : HomeEcc) (s : State) : Out := .next (agentRequest s agent line true ecc)

/-- A non-caching request, as a requester or its tile agent sends it to the home (R265, R268, R316); `n` bytes answer an
access of an unbacked line. -/
def plainRequest (s : State) (line : Nat) (r : CohReq) (e : HomeEcc) (n : Nat) : State :=
  if !coherentLine s line then unbackedRow s line n
  else if lineDown s line then { s with resp := { code := stTIER } }
  else request s line r e

def execRdcur (who : Requester) (line : Nat) (ecc : HomeEcc) (s : State) : Out :=
  .next (plainRequest s line (.rdCur who) ecc 256)

/-- A whole-line write (R273). -/
def execWrfull (who : Requester) (line : Nat) (data : List Byte) (poison : Bool) (ecc : HomeEcc) (s : State) : Out :=
  .next (plainRequest s line (.write who (List.replicate 256 true) (slice data 0 256) poison) ecc 0)

/-- A partial write: the byte mask and the data (R273). -/
def execWrpart (who : Requester) (line : Nat) (mask : List Bool) (data : List Byte) (poison : Bool)
    (ecc : HomeEcc) (s : State) : Out :=
  .next (plainRequest s line (.write who mask (slice data 0 256) poison) ecc 0)

/-- A non-caching atomic (R268, R281). -/
def execAtomh (who : Requester) (addr : Nat) (op : AtomOp) (size : Nat) (operands : AtomArg) (ecc : HomeEcc)
    (s : State) : Out :=
  .next (if atomOk addr op size then plainRequest s (lineOf addr) (.atom who addr op size operands) ecc size else s)

/-! ## Snoops at an agent (R277) -/

/-- An owner sends the line to the requester of the line's transaction: to an agent as a Data message, to a
requester that keeps no copy as the transaction's data. -/
def forward (s : State) (line : Nat) (g : CopySt) (d : List Byte) (p : Bool) : State :=
  match mget s.coh.txns line with
  | none => s
  | some t =>
    match t.req with
    | .rdS a => sendAgent s a (.data a line g d p)
    | .rdX a => sendAgent s a (.data a line g d p)
    | _ => putTxn s line { t with got := some (d, p) }

/-- An agent answers a snoop from its line's state (R277). -/
def answerSnoop (s : State) (k : Snoop) (agent line : Nat) : State :=
  match getCopy s line agent with
  | none => sendMsg s (.rspI agent line)
  | some c =>
    let drop (s : State) : State := putCopy s line agent none
    match c.st, k with
    | .wbPend, _ => sendMsg s (.rspWbPend agent line)
    | .shared, .shared => sendMsg s (.rspS agent line)
    | .shared, .cur => sendMsg s (.rspS agent line)
    | .shared, _ => sendMsg (drop s) (.rspI agent line)
    | .exclusive, .shared =>
      let s := forward s line .shared c.data c.poison
      sendMsg (putCopy s line agent (some { c with st := .shared })) (.rspFwd agent line (some .shared))
    | .exclusive, .sole =>
      sendMsg (drop (forward s line .exclusive c.data c.poison)) (.rspFwd agent line none)
    | .exclusive, .inv => sendMsg (drop s) (.rspI agent line)
    | .exclusive, .cur => sendMsg (forward s line .shared c.data c.poison) (.rspFwd agent line (some .exclusive))
    | .modified, .shared =>
      let s := setFly (forward s line .shared c.data c.poison) line (some (c.data, c.poison))
      sendMsg (putCopy s line agent (some { c with st := .shared })) (.dataHome agent line c.data c.poison)
    | .modified, .sole =>
      let s := setFly (forward s line .modified c.data c.poison) line (some (c.data, c.poison))
      sendMsg (drop s) (.rspFwd agent line none)
    | .modified, .inv =>
      sendMsg (drop (setFly s line (some (c.data, c.poison)))) (.dataHome agent line c.data c.poison)
    | .modified, .cur => sendMsg (forward s line .shared c.data c.poison) (.rspFwd agent line (some .modified))

/-- Deliver a snoop to its agent. -/
def snoopRow (s : State) (k : Snoop) (agent line : Nat) (e : Ecc) : State :=
  deliver s (· == .snoop k agent line) fun s _ => answerSnoop (visitorEcc s agent line e) k agent line

def execSnps (agent line : Nat) (ecc : Ecc) (s : State) : Out := .next (snoopRow s .shared agent line ecc)
def execSnpx (agent line : Nat) (ecc : Ecc) (s : State) : Out := .next (snoopRow s .sole agent line ecc)
def execSnpinv (agent line : Nat) (ecc : Ecc) (s : State) : Out := .next (snoopRow s .inv agent line ecc)
def execSnpcur (agent line : Nat) (ecc : Ecc) (s : State) : Out := .next (snoopRow s .cur agent line ecc)

/-! ## Answers at the home (R276, R278, R279) -/

/-- Record an agent's answer in the line's transaction, then serve it if that was the last. -/
def answered (s : State) (agent line : Nat) (f : Txn → Txn) : State :=
  match mget s.coh.txns line with
  | none => s
  | some t =>
    let t' := f { t with waiting := t.waiting - (t.waiting &&& 2 ^ agent) }
    let s := match t'.wbm with
      | some (w, _, _) => if w = agent ∧ t.waiting.testBit agent then sendAgent s agent (.wbAck agent line) else s
      | none => s
    pump (settle (putTxn s line t') line)

def execRspi (agent line : Nat) (s : State) : Out :=
  .next (deliver s (· == .rspI agent line) fun s _ =>
    let s := if isOwner s agent line then bump s (pgCOH (homeOf s line)) 3 else s
    answered s agent line id)

def execRsps (agent line : Nat) (s : State) : Out :=
  .next (deliver s (· == .rspS agent line) fun s _ => answered s agent line fun t => { t with kept := true })

def isRspFwd (agent line : Nat) (m : CohMsg) : Bool :=
  match m with
  | .rspFwd a l _ => a == agent && l == line
  | _ => false

def execRspfwd (agent line : Nat) (s : State) : Out :=
  .next (deliver s (isRspFwd agent line) fun s _ =>
    answered (bump s (pgCOH (homeOf s line)) 2) agent line fun t => { t with fwd := true })

/-- RspWbPend: the home waits for the writer's WbM unless it holds it already (R279). -/
def execRspwbpend (agent line : Nat) (s : State) : Out :=
  .next (deliver s (· == .rspWbPend agent line) fun s _ =>
    answered (bump s (pgCOH (homeOf s line)) 4) agent line fun t =>
      match t.wbm with
      | some _ => t
      | none => { t with wbWait := some agent })

def isDataHome (agent line : Nat) (m : CohMsg) : Bool :=
  match m with
  | .dataHome a l _ _ => a == agent && l == line
  | _ => false

/-- DataHome: written to the home store; for an SnpS it counts as RspFwd(S) (R277). -/
def execDatahome (agent line : Nat) (s : State) : Out :=
  .next (deliver s (isDataHome agent line) fun s m =>
    match m with
    | .dataHome _ _ d p =>
      let s := setFly (homeWrite s line d p) line none
      let fwd := match mget s.coh.txns line with | some t => (match t.req with | .rdS _ => true | _ => false) | none => false
      let s := if fwd then bump s (pgCOH (homeOf s line)) 2 else s
      answered s agent line fun t => { t with fwd := fwd }
    | _ => s)

def isWbM (agent line : Nat) (m : CohMsg) : Bool :=
  match m with
  | .wbM a l _ _ => a == agent && l == line
  | _ => false

/-- Packets the dead agent sent, of one line, are still in the hub (R287). -/
def msgFrom (agent line : Nat) (m : CohMsg) : Bool :=
  match m with
  | .wbM a l _ _ => a == agent && l == line
  | .dataHome a l _ _ => a == agent && l == line
  | .rspI a l => a == agent && l == line
  | .rspS a l => a == agent && l == line
  | .rspFwd a l _ => a == agent && l == line
  | .rspWbPend a l => a == agent && l == line
  | .done a l => a == agent && l == line
  | _ => false

/-- A snoop that the dead agent did not answer: the home answers it itself, once no packet of the agent remains in the hub
(R287), after R288. A WbM of the agent that has been delivered leaves the data valid; else an owner's line is poisoned. -/
def answerForDead (s : State) (agent line : Nat) : State :=
  match mget s.coh.txns line with
  | none => s
  | some t =>
    if t.waiting.testBit agent && !(s.coh.msgs.any (msgFrom agent line)) then
      let kept := match t.wbm with | some (w, _, _) => w == agent | none => false
      let s := if isOwner s agent line && !kept then poisonLine (setFly s line none) line agent else s
      answered s agent line id
    else s

/-- A WbM arrives at the home (R278): its data is written; a transaction that snoops the writer takes it. -/
def execWbm (agent line : Nat) (s : State) : Out :=
  .next (deliver s (isWbM agent line) fun s m =>
    match m with
    | .wbM _ _ d p =>
      let s := bump (setFly (homeWrite s line d p) line none) (pgCOH (homeOf s line)) 5
      match mget s.coh.txns line with
      | some t =>
        if t.wbWait == some agent then
          let s := sendAgent s agent (.wbAck agent line)
          pump (settle (putTxn s line { t with wbWait := none, wbm := some (agent, d, p) }) line)
        else if t.waiting.testBit agent then
          let s := putTxn s line { t with wbm := some (agent, d, p) }
          if agentDead s agent then answerForDead s agent line else s
        else sendAgent (if isOwner s agent line then dirPut s line 0 false else s) agent (.wbAck agent line)
      | none => sendAgent (if isOwner s agent line then dirPut s line 0 false else s) agent (.wbAck agent line)
    | _ => s)

/-! ## A caching requester's end (R276) -/

/-- An agent's atomic that waited for its line runs on the copy (R280, R281): the prior value is answered. -/
def runAtomic (s : State) (agent line : Nat) (c : Copy) : State :=
  match mget s.coh.atoms (copyKey line agent) with
  | none => s
  | some (addr, op, size, operands) =>
    let s := putCoh s fun h => { h with atoms := mdel h.atoms (copyKey line agent) }
    let r := copyAtomic s agent c addr op size operands
    { r.1 with resp := { data := r.2.1, poison := r.2.2, code := if r.2.2 then stPOISON else 0 } }

/-- Install a line once both Data and Cmp are held, and send Done. An atomic that waits for the line in E or M runs before any
snoop for it is answered (R281). -/
def install (s : State) (agent line : Nat) : State :=
  match mget s.coh.wants (copyKey line agent) with
  | some ⟨some (g, d, p), true⟩ =>
    let s := putCopy (putCoh s fun c => { c with wants := mdel c.wants (copyKey line agent) }) line agent
      (some ⟨g, d, p⟩)
    let s := sendMsg (if g == .modified then setFly s line none else s) (.done agent line)
    if g == .exclusive || g == .modified then runAtomic s agent line ⟨g, d, p⟩ else s
  | _ => s

def isData (agent line : Nat) (m : CohMsg) : Bool :=
  match m with
  | .data a l _ _ _ => a == agent && l == line
  | _ => false

def putWant (s : State) (agent line : Nat) (f : CohWant → CohWant) : State :=
  putCoh s fun c => { c with wants := mput c.wants (copyKey line agent) (f (mgetD c.wants (copyKey line agent) {})) }

def execData (agent line : Nat) (s : State) : Out :=
  .next (deliver s (isData agent line) fun s m =>
    match m with
    | .data _ _ g d p => install (putWant s agent line fun w => { w with data := some (g, d, p) }) agent line
    | _ => s)

def execCmp (agent line : Nat) (s : State) : Out :=
  .next (deliver s (· == .cmp agent line) fun s _ =>
    install (putWant s agent line fun w => { w with cmp := true }) agent line)

/-- Done ends an RdS or RdX (R275). -/
def execDone (agent line : Nat) (s : State) : Out :=
  .next (deliver s (· == .done agent line) fun s _ => pump (txnEnd s line))

/-! ## An agent's own acts -/

/-- WbM messages and their acknowledgements between an agent and a home: its writeback credits in use (R274). -/
def wbInUse (s : State) (agent home : Nat) : Nat :=
  (s.coh.copies.filter fun e => e.1 % 8 == agent && e.2.st == .wbPend && homeOf s (e.1 / 8) == home).length

/-- A snoop for the line waits at the agent (R282). -/
def snoopWaits (s : State) (agent line : Nat) : Bool :=
  s.coh.msgs.any fun m => match m with | .snoop _ a l => a == agent && l == line | _ => false

/-- Evict a line: a clean one silently, a dirty one by WbM into WB_PEND (R270, R274, R282); never one whose atomic is pending
(R281). -/
def evictLine (s : State) (agent line : Nat) : State :=
  match getCopy s line agent with
  | none => s
  | some c =>
    if snoopWaits s agent line || (mget s.coh.atoms (copyKey line agent)).isSome then s
    else match c.st with
      | .shared => putCopy s line agent none
      | .exclusive => putCopy s line agent none
      | .modified =>
        if 16 ≤ wbInUse s agent (homeOf s line) then s
        else
          let s := setFly (putCopy s line agent (some { c with st := .wbPend })) line (some (c.data, c.poison))
          sendMsg s (.wbM agent line c.data c.poison)
      | .wbPend => s

def execAgentEvict (agent : Nat) (line : LineAt) (s : State) : Out :=
  .next (evictLine (visitorEcc s agent line.line line.ecc) agent line.line)

/-- The agent asks for the line of its pending atomic by RdX, unless it waits for a WbAck or has asked already (R270, R281). A
home that answers with an error ends the atomic. -/
def atomicAsk (s : State) (agent line : Nat) (e : HomeEcc) : State :=
  let wb := match getCopy s line agent with | some c => c.st == .wbPend | none => false
  if (mget s.coh.atoms (copyKey line agent)).isNone || wb then s
  else
    let s := if lineDown s line || !mayHold s agent line || agentDead s agent then
        putCoh s fun h => { h with atoms := mdel h.atoms (copyKey line agent) } else s
    agentRequest s agent line true e

/-- An agent's atomic (R280, R281): on a line it holds in E or M at once; else it is pending until RdX has brought the line. -/
def agentAtomic (s : State) (agent : Nat) (a : AddrAt) (op : AtomOp) (size : Nat) (operands : List Byte) : State :=
  let line := lineOf a.addr
  if (mget s.coh.atoms (copyKey line agent)).isSome then s
  else
    let s := visitorEcc s agent line a.ecc
    let s := putCoh s fun h => { h with atoms := mput h.atoms (copyKey line agent) (a.addr, op, size, operands) }
    match getCopy s line agent with
    | some c => if c.st == .exclusive || c.st == .modified then runAtomic s agent line c else atomicAsk s agent line a.home
    | none => atomicAsk s agent line a.home

def execAgentAtomic (agent : Nat) (addr : AddrAt) (op : AtomOp) (size : Nat) (operands : List Byte) (s : State) : Out :=
  .next (if agent < 6 && atomOk addr.addr op size then agentAtomic s agent addr op size operands else s)

/-- WbAck: the line leaves WB_PEND for I (R270), and an atomic that waited for it goes on. -/
def execWback (agent line : Nat) (s : State) : Out :=
  .next (deliver s (· == .wbAck agent line) fun s _ =>
    match getCopy s line agent with
    | some c => if c.st == .wbPend then atomicAsk (putCopy s line agent none) agent line .clean else s
    | none => s)

/-! ## A dead agent (R286 to R289) -/

/-- The lines a vanished agent had a part in: recorded, or with an unanswered snoop. -/
def deadLines (s : State) (agent : Nat) : List Nat :=
  (s.coh.dir.filter fun e => e.2.1.testBit agent).map (·.1)

/-- A message to the agent on its way is sunk. -/
def msgDead (agent : Nat) (m : CohMsg) : Bool := msgTo m == some agent

/-- Declare an agent dead (R286 to R288): DEAD and RECLAIM_BUSY on every tile, its packets sunk, its lines
resolved unless a packet it sent, or their transaction, still has to end. -/
def agentDies (s : State) (agent : Nat) : State :=
  if agentDead s agent || 6 ≤ agent then s
  else
    let s := (List.range 4).foldl (fun s t =>
      fput (forBits s (pgCOH t) F.COH_STS_DEAD (2 ^ agent)) (pgCOH t) F.COH_STS_RECLAIM_BUSY 1) (logFault s 0x12 0 agent 0)
    let sunk := s.coh.msgs.filter (msgDead agent)
    let s := sunk.foldl (fun s m => bump s (pgCOH (agentTile agent (homeOf s (msgLine m)))) 13) s
    let s := putCoh s fun c => { c with
      msgs := c.msgs.filter fun m => !msgDead agent m
      copies := mkeep c.copies (fun k => k % 8 != agent)
      wants := mkeep c.wants (fun k => k % 8 != agent)
      atoms := mkeep c.atoms (fun k => k % 8 != agent) }
    let busy := s.coh.txns.map (·.1)
    let s := busy.foldl (fun s l => answerForDead s agent l) s
    let s := busy.foldl (fun s l =>
      match mget s.coh.txns l with
      | some t =>
        if t.granted && (t.req == .rdS agent || t.req == .rdX agent) && !(s.coh.msgs.any (msgFrom agent l))
        then pump (txnEnd s l) else s
      | none => s) s
    (deadLines s agent).foldl (fun s l =>
      if (mget s.coh.txns l).isSome || s.coh.msgs.any (msgFrom agent l) then s else resolveDead s l agent) s

def execAgentDead (agent : Nat) (s : State) : Out := .next (agentDies s agent)

/-- The walk of a tile's directory ends (R289): every entry that names a dead agent is resolved. -/
def execReclaimDone (tile : Nat) (s : State) : Out :=
  .next (if tile < 4 ∧ fbit s (pgCOH tile) F.COH_STS_RECLAIM_BUSY then
    let dead := setBitsOf 6 (fget s (pgCOH tile) F.COH_STS_DEAD)
    let s := dead.foldl (fun s a => (deadLines s a).foldl (fun s l =>
      if homeOf s l != tile || (mget s.coh.txns l).isSome || s.coh.msgs.any (msgFrom a l) then s
      else resolveDead s l a) s) s
    fput s (pgCOH tile) F.COH_STS_RECLAIM_BUSY 0
  else s)

/-- A write of COH_REJOIN (R289): during the walk on any tile it is ignored and counted. -/
def agentRejoin (s : State) (tile bits : Nat) : State :=
  let busy := (List.range 4).any fun t => fbit s (pgCOH t) F.COH_STS_RECLAIM_BUSY
  if busy then bump s (pgCOH tile) 14
  else (List.range 4).foldl (fun s t =>
    let d := fget s (pgCOH t) F.COH_STS_DEAD
    fput s (pgCOH t) F.COH_STS_DEAD (d - (d &&& bits))) s

def execAgentRejoin (src : Src) (tile : Nat) (agents : BitVec 6) (s : State) : Out :=
  .next (if tile < 4 then withPage s src (pgCOH tile) fun s => agentRejoin s tile agents.toNat else s)

/-! ## Lock regions (R290) -/

/-- A write to an RWL field of a locked page is discarded, reported and counted (R530). -/
def withRwl (s : State) (page : Nat) (f : State → State) : State :=
  if fbit s page F.CTL_LOCK then setErr (bump s pgPKG 1) page 0 else f s

/-- A write of LOCK_WAYS clears LOCK_READY. -/
def lockWays (s : State) (tile w : Nat) : State :=
  fput (fput s (pgCOH tile) F.COH_CFG_LOCK_WAYS w) (pgCOH tile) F.COH_STS_LOCK_READY 0

def execLockWaysWrite (src : Src) (tile ways : Nat) (s : State) : Out :=
  .next (if tile < 4 then
    withPage s src (pgCOH tile) fun s => withRwl s (pgCOH tile) fun s => lockWays s tile ways
  else s)

/-- The ways given to a tile's lock region give up the lines they held: which visitor lines those were is open, and each is
recalled as by a back-invalidation (R272, R290). -/
def giveWays (s : State) (tile : Nat) : State :=
  let held := s.coh.copies.filter fun e => e.1 % 8 == tile && e.2.st != .wbPend
  held.foldl (fun s e =>
    let d := drawFree s
    if (Config.freeByte d.1 0).toNat % 2 = 0 || lineBusy d.2 (e.1 / 8) then d.2
    else homeInvalidate (bump d.2 (pgCOH (homeOf d.2 (e.1 / 8))) 6) (e.1 / 8)) s

/-- The locked ways are zeroed and LOCK_READY is set; no agent keeps a copy of the region, and the accesses that waited are
performed on the zeroed lines. Transactions of the region that began before end first. -/
def lockReady (s : State) (tile : Nat) : State :=
  let lo := lockBase + tile * 0x10000000
  let mine (l : Nat) : Bool := lo / 256 ≤ l && l < (lo + 0x10000000) / 256
  if s.coh.txns.any fun e => mine e.1 then s
  else
    let s := putCoh (giveWays s tile) fun c => { c with
      copies := mkeep c.copies (fun k => !mine (k / 8))
      dir := mkeep c.dir (fun l => !mine l)
      fly := mkeep c.fly (fun l => !mine l)
      msgs := c.msgs.filter fun m => !mine (msgLine m) }
    pump (fput (zeroRange s lo (lo + 0x10000000)) (pgCOH tile) F.COH_STS_LOCK_READY 1)

def execLockRegionReady (tile : Nat) (s : State) : Out :=
  .next (if tile < 4 ∧ !fbit s (pgCOH tile) F.COH_STS_LOCK_READY then lockReady s tile else s)

end Sys2Proof.Machine
end

