-- ==== Sys2Proof/Machine/Host.lean ====
section
/-! DEFINITION. The host side (R293 to R317): accesses to memory by requesters that keep no copy, page bias
(R300 to R303), the functions of a host link (R305 to R308), peer windows (R309 to R311), the extended commands
(R312 to R314) and host-die reset (R315 to R317). -/

namespace Sys2Proof.Machine

open Sys2Proof

/-! ## Memory accesses of requesters outside the engines -/

/-- Some line of the range is under a chunk move or its target makes the access wait (R251, R275). -/
def busWaits (s : State) (pa n : Nat) (q : Asker := {}) : Bool :=
  (linePieces pa n).any fun l => lineHeld s {} l.1 || targetBusy s l.1 q

/-- Read bytes of one line of memory or of a store: the bytes and their poison; the keep region and a lock region's unbacked
bytes read as zeros and are counted (R173, R179, R276, R290). `h` is what the home's codes and memory find (R285, R297). -/
def busReadLine (s : State) (pa n : Nat) (keep : Bool) (q : Asker) (h : HomeEcc) : State × List Byte × Bool :=
  match regionOf s pa with
  | .spad d off =>
    let r := portRead s d q.cls keep off n
    (r.1, r.2.data, r.2.poison)
  | .lock t off =>
    if off < lockBacked s t then cohRead s q pa n h .clean
    else (bump s (pgCOH t) 14, List.replicate n 0, false)
  | .tierN => cohRead s q pa n h .clean
  | .tierF => cohRead s q pa n h .clean
  | _ => (s, List.replicate n 0, false)

/-- Read a range line by line in ascending order (R164); `keep` lets a management controller in its secure mode read the
keep region (R179). -/
def busRead (s : State) (pa n : Nat) (keep : Bool) (q : Asker := {}) (h : HomeEcc := .clean) : State × List Byte × Bool :=
  (linePieces pa n).foldl (fun (acc : State × List Byte × Bool) l =>
    let r := busReadLine acc.1 l.1 l.2 keep q h
    (r.1, acc.2.1 ++ r.2.1, acc.2.2 || r.2.2)) (s, [], false)

/-- Write bytes of one line; the answer says whether poison or a bad channel kept them from being written (R174, R197,
R200). -/
def busWriteLine (s : State) (pa : Nat) (bs : List Byte) (p keep : Bool) (q : Asker) (h : HomeEcc) : State × Bool :=
  let coh (s : State) : State × Bool :=
    let r := cohWrite s q pa bs p h .clean
    (r.1, r.2.isSome)
  match regionOf s pa with
  | .spad d off =>
    let r := portWrite s d q.cls keep q.view off bs p
    (r.1, r.2.met)
  | .lock t off => if off < lockBacked s t then coh s else (bump s (pgCOH t) 14, false)
  | .tierN => coh s
  | .tierF => coh s
  | _ => (s, false)

/-- Write a range line by line in ascending order (R164). -/
def busWrite (s : State) (pa : Nat) (bs : List Byte) (p keep : Bool) (q : Asker := {}) (h : HomeEcc := .clean) :
    State × Bool :=
  (linePieces pa bs.length).foldl (fun (acc : State × Bool) l =>
    let r := busWriteLine acc.1 l.1 (slice bs (l.1 - pa) l.2) p keep q h
    (r.1, acc.2 || r.2)) (s, false)

/-- An atomic on memory or a lock region (R280, R290): the prior value, with its poison. -/
def busAtomic (s : State) (pa : Nat) (op : AtomOp) (size : Nat) (x : AtomArg) (q : Asker := {}) (h : HomeEcc := .clean) :
    State × List Byte × Bool :=
  match regionOf s pa with
  | .lock t off =>
    if off < lockBacked s t then cohAtomic s q pa op size x h
    else (bump s (pgCOH t) 14, List.replicate size 0, false)
  | _ => cohAtomic s q pa op size x h

/-- Both ends of a range lie in memory or a store, in one kind of region (R13, R15). -/
def busPlain (s : State) (pa n : Nat) : Bool :=
  n != 0 && (match regionOf s pa, regionOf s (pa + n - 1) with
    | .tierF, .tierF => true
    | .tierN, .tierN => true
    | .spad _ _, .spad _ _ => true
    | .lock _ _, .lock _ _ => true
    | _, _ => false)

/-- The range is inside the fold's regions or the apertures of its dies (R295). -/
def foldMayReach (s : State) (f pa n : Nat) : Bool :=
  inRegions s f pa (pa + n) || inFoldApertures s f pa (pa + n)

/-- Some tier F line of the range is answered with an error (R316). -/
def busDown (s : State) (pa n : Nat) : Bool :=
  regionOf s pa == .tierF && (linePieces pa n).any fun l => tierFDown s l.1

/-! ## Page bias (R300 to R303) -/

/-- A write of HOSTP_BIASFLIP. -/
def biasFlip (s : State) (v : Nat) : State :=
  if fbit s pgHOSTP F.HOSTP_BIASSTS_BUSY then bump (fput s pgHOSTP F.HOSTP_BIASSTS_DISCARD 1) pgHOSTP 1
  else
    let k := bits v 20 0
    let h := s.host
    let s := bump s pgHOSTP 0
    if v.testBit 21 then
      let s := fput s pgHOSTP F.HOSTP_BIASSTS_BUSY 1
      { s with host := { h with bias := mput h.bias k (), flip := some k } }
    else { s with host := { h with bias := mdel h.bias k } }

def execBiasFlip (src : Src) (value : BitVec 32) (s : State) : Out :=
  .next (withSys s src fun s => biasFlip s value.toNat)

/-- The first byte of a granule of the bias map. -/
def granulePa (k : Nat) : Nat := if k < 2 ^ 20 then k * twoMiB else tierNBase + (k - 2 ^ 20) * twoMiB

/-- A host die writes back and drops its copy of a line. -/
def flushLine (s : State) (line agent : Nat) : State :=
  match getCopy s line agent with
  | none => s
  | some c =>
    match c.st with
    | .wbPend => s
    | .modified =>
      let s := putCopy (homeWrite s line c.data c.poison) line agent none
      bump (if isOwner s agent line then dirPut s line 0 false else s) (pgHOSTD (agent - 4)) 5
    | _ => putCopy s line agent none

/-- The host dies have written back and dropped the granule's lines (R303). -/
def execBiasFlipDone (s : State) : Out :=
  .next (match s.host.flip with
    | none => s
    | some k =>
      let lo := lineOf (granulePa k)
      let ls := s.coh.copies.filter fun e => lo ≤ e.1 / 8 && e.1 / 8 < lo + 8192 && 4 ≤ e.1 % 8
      let s := ls.foldl (fun s e => flushLine s (e.1 / 8) (e.1 % 8)) s
      let h := s.host
      fput { s with host := { h with flip := none } } pgHOSTP F.HOSTP_BIASSTS_BUSY 0)

/-! ## Links (R304 to R308) -/

/-- A link in endpoint mode: the role that HOSTL_CFG.MODE gave it as it trained, while it is up (R304). -/
def linkEp (s : State) (link : Nat) : Bool :=
  if linkUp s link then (mget s.host.role link).isNone else !fbit s (pgHOSTL link) F.HOSTL_CFG_MODE

/-- CXL operates on a link: L0 of a host die, in endpoint mode, with CXL_EN (R305). -/
def cxlOn (s : State) (link : Nat) : Bool :=
  link % 2 == 0 && link < 4 && linkUp s link && linkEp s link && fbit s (pgHOSTL link) F.HOSTL_CFG_CXL_EN

/-- A running XHOST command's link. -/
def xhostLink (c : Cmd) : Nat := cbits c 257 256

/-- An XHOST command of which `failed` requests fail ends (R225, R314): what XHOST_READ leaves in its destination is
R226's. -/
def xhostFail (s : State) (id : CmdId) (c : Cmd) (failed : Nat) : State :=
  finishCmd (if cOp c = 0x72 then undefRange s (.queue id.ctx id.q) {} id.ctx (cbits c 239 192) (cbits c 255 240 + 1)
    else s) id (resOf (List.replicate (max failed 1) stTIER))

/-- A link goes down (R308): its XHOST commands end with TIER_ERROR. -/
def linkDown (s : State) (link : Nat) : State :=
  let s := if linkUp s link then bump (fput s (pgHOSTL link) F.HOSTL_CFG_UP 0) (pgHOSTL link) 9 else s
  (s.cmds.filter fun c => c.phase == .granted && (cOp c == 0x72 || cOp c == 0x73) && xhostLink c == link).foldl
    (fun s c => xhostFail s c.id c 1) s

/-- PERST_N of a link is asserted or released (R308). -/
def execPerst (link : Nat) (asserted : Bool) (s : State) : Out :=
  .next (if link < 4 then
    let h := s.host
    let s := { s with host := { h with perst := if asserted then mput h.perst link () else mdel h.perst link } }
    if asserted then linkDown s link else s
  else s)

/-- A link trains at a width and speed, as HOSTL_CFG codes them, in the role that MODE then has (R304, R322), unless PERST_N
holds it or its host die is in reset. -/
def execLinkTrain (link width speed : Nat) (s : State) : Out :=
  .next (if link < 4 ∧ width < 5 ∧ speed < 6 ∧ (mget s.host.perst link).isNone ∧
      !fbit s (pgHOSTD (link / 2)) F.HOSTD_STS_IN_RESET then
    let h := s.host
    let s := { s with host := { h with
      role := if fbit s (pgHOSTL link) F.HOSTL_CFG_MODE then mput h.role link () else mdel h.role link } }
    fput (fput (fput s (pgHOSTL link) F.HOSTL_CFG_WIDTH width) (pgHOSTL link) F.HOSTL_CFG_SPEED speed)
      (pgHOSTL link) F.HOSTL_CFG_UP 1
  else s)

/-- Write a VF or peer entry of a link: SYSTEM authority, or the fold the entry names (R322). -/
def withEntry (s : State) (src : Src) (fold : Nat) (f : Bool → State → State) : State :=
  match authOf s src with
  | .sys => guarded s src (f true)
  | .fold g => if g = fold then f false s else denyWrite s (.fold g)
  | .none => s

/-- A context may be named by a VF entry of a fold (R307): it is enabled there, or free. -/
def vfCtxOk (s : State) (f c : Nat) : Bool :=
  c < 512 && (!fbit s (pgCTX c) F.CTX_CFG_ENABLE || ctxFold s c == some f)

/-- The checks of R307. -/
def vfOk (s : State) (link vf : Nat) : Bool :=
  let pg := pgHOSTL link
  let first := fgeti s pg F.HOSTL_VF_FIRST_CTX vf
  let n := fgeti s pg F.HOSTL_VF_COUNT vf + 1
  let f := fgeti s pg F.HOSTL_VF_FOLD vf
  (List.range n).all fun i => vfCtxOk s f (first + i) &&
    (enabledVfs s).all fun lv => lv == (link, vf) || (vfCtxIndex s lv.1 lv.2 (first + i)).isNone

/-- Record a refused enable of a link (R322). -/
def hostlRefuse (s : State) (link cause : Nat) : State :=
  fput (fput s (pgHOSTL link) F.HOSTL_STS_CFG_ERR 1) (pgHOSTL link) F.HOSTL_STS_CAUSE cause

/-- A write of a VF entry's first word (R307, R322). -/
def vfWrite (s : State) (link vf v : Nat) (sys : Bool) : State :=
  let pg := pgHOSTL link
  let s := fputi s pg F.HOSTL_VF_ENABLE vf 0
  let s := if sys then fputi s pg F.HOSTL_VF_FOLD vf (bits v 4 1) else s
  let s := fputi (fputi s pg F.HOSTL_VF_FIRST_CTX vf (bits v 13 5)) pg F.HOSTL_VF_COUNT vf (bits v 16 14)
  if !v.testBit 0 then s
  else if vfOk s link vf then fputi s pg F.HOSTL_VF_ENABLE vf 1
  else hostlRefuse s link 1

def execHostlVfEnable (src : Src) (link vf : Nat) (value : BitVec 32) (s : State) : Out :=
  .next (if link < 4 ∧ 1 ≤ vf ∧ vf < 64 then
    withEntry s src (fgeti s (pgHOSTL link) F.HOSTL_VF_FOLD vf) fun sys s => vfWrite s link vf value.toNat sys
  else s)

/-! ## Peer windows (R309 to R311) -/

/-- The tier N base of a peer window. -/
def peerBase (s : State) (link w : Nat) : Nat :=
  (fgeti s (pgHOSTL link) F.HOSTL_PEER_PBASE_LO w + fgeti s (pgHOSTL link) F.HOSTL_PEER_PBASE_HI w * 2 ^ 32) * 4096

def peerLen (s : State) (link w : Nat) : Nat := (fgeti s (pgHOSTL link) F.HOSTL_PEER_LENGTH w + 1) * 4096

/-- The checks of R309. -/
def peerOk (s : State) (link w : Nat) : Bool :=
  let f := fgeti s (pgHOSTL link) F.HOSTL_PEER_FOLD w
  let lo := peerBase s link w
  let hi := lo + peerLen s link w
  tierNBase ≤ lo && hi ≤ tierNBase + tierNBytes s && inPlainRegions s f lo hi &&
    ctxFold s (fgeti s (pgHOSTL link) F.HOSTL_PEER_CTX w) == some f &&
    fgeti s (pgHOSTL link) F.HOSTL_PEER_LENGTH w < 0xFFFFF

/-- A write of a peer entry's first word (R309, R322). -/
def peerEntryWrite (s : State) (link w v : Nat) (sys : Bool) : State :=
  let pg := pgHOSTL link
  let s := fputi s pg F.HOSTL_PEER_ENABLE w 0
  let s := if sys then fputi s pg F.HOSTL_PEER_FOLD w (bits v 6 3) else s
  let s := fputi (fputi s pg F.HOSTL_PEER_RD w (bits v 1 1)) pg F.HOSTL_PEER_WR w (bits v 2 2)
  let s := fputi (fputi s pg F.HOSTL_PEER_CTX w (bits v 15 7)) pg F.HOSTL_PEER_TALLY w (bits v 21 16)
  let s := if v.testBit 22 then fputi s pg F.HOSTL_PEER_ERR w 0 else s
  if !v.testBit 0 then s
  else if peerOk s link w then fputi s pg F.HOSTL_PEER_ENABLE w 1
  else hostlRefuse s link 2

/-- A window whose base or length is written while it is enabled stays so only while R309's conditions hold. -/
def peerRecheck (s : State) (link w : Nat) : State :=
  if fbiti s (pgHOSTL link) F.HOSTL_PEER_ENABLE w && !peerOk s link w then
    hostlRefuse (fputi s (pgHOSTL link) F.HOSTL_PEER_ENABLE w 0) link 2
  else s

def execHostlPeerEnable (src : Src) (link win : Nat) (value : BitVec 32) (s : State) : Out :=
  .next (if link < 4 ∧ win < 16 then
    withEntry s src (fgeti s (pgHOSTL link) F.HOSTL_PEER_FOLD win) fun sys s => peerEntryWrite s link win value.toNat sys
  else s)

/-- The HDM range of a link lies in tier N. -/
def hdmInside (s : State) (link : Nat) : Bool :=
  let lo := fget s (pgHOSTL link) F.HOSTL_HDM_BASE_BASE * 2 ^ 28
  tierNBase ≤ lo && lo + fget s (pgHOSTL link) F.HOSTL_HDM_SIZE_SIZE * 2 ^ 28 ≤ tierNBase + tierNBytes s

/-- What an inbound access's write holds, or the length it reads. -/
def accLen (len : Nat) (write : Option (List Byte)) : Nat :=
  match write with
  | some bs => bs.length
  | none => len

/-! ## Extended commands (R312 to R314) -/

/-- The codes of a command that may include an acceptance code. -/
def codesRes (cs : List Nat) : Res :=
  let c := highest cs
  if c = stUNSUP then reject stUNSUP else resOf cs

/-- INLINE_WRITE after acceptance: both lines are checked before either is written (R313). When `late`, the writes to
lower tiers get no answer in time and the command ends with TIER_ERROR (R576); the other line is written. -/
def inlineGo (s : State) (id : CmdId) (c : Cmd) (late : Bool) : State :=
  let x : StreamId := .queue id.ctx id.q
  let view := cbits c 185 184
  let dst := cbits c 175 128
  let kind : AccKind := if view = 0 then .wr else .atom
  let asker (bias : Bool) : Asker := { streamAsker s x id.ctx bias with view := view }
  let pieces := linePieces dst (cbits c 183 176 + 1)
  let check (acc : State × Bool × List Nat × List (Nat × Asker)) (l : Nat × Nat) :
      State × Bool × List Nat × List (Nat × Asker) :=
    match access acc.1 x {} id.ctx l.1 kind with
    | .wait s' => (s', true, acc.2.2.1, acc.2.2.2)
    | .comp _ _ => (acc.1, acc.2.1, acc.2.2.1 ++ [stPERM], acc.2.2.2)
    | .fail code s' => (s', acc.2.1, acc.2.2.1 ++ [code], acc.2.2.2)
    | .ok pa b =>
      let bad := match unitWriteCheck acc.1 pa l.2 with
        | some code => [code]
        | none => if view != 0 && tierOfAddr pa != 2 then [stUNSUP] else []
      let busy := targetBusy acc.1 pa (asker b)
      (if busy then inFlight acc.1 x id.ctx l.1 (.plain pa b) else acc.1, acc.2.1 || busy, acc.2.2.1 ++ bad,
        acc.2.2.2 ++ [(pa, asker b)])
  let r := pieces.foldl check (s, false, [], [])
  if r.2.1 then r.1
  else
    let s := unhold r.1 x id.ctx
    let placed := pieces.zip r.2.2.2
    if r.2.2.1 != [] then
      finishCmd (placed.foldl (fun s p => noteKeep s p.2.1 p.1.2) s) id (codesRes r.2.2.1)
    else
      let w := placed.foldl (fun (acc : State × List Nat) p =>
        if late && lowerPa acc.1 p.2.1 then (undefRange acc.1 x {} id.ctx p.1.1 p.1.2, acc.2 ++ [stTIER])
        else
          let r := unitWrite acc.1 p.2.2 p.2.1 (slice c.payload (p.1.1 - dst) p.1.2) false .ok
          (r.1, acc.2 ++ r.2.toList)) (s, [])
      finishCmd w.1 id (resOf w.2)

/-- INLINE_WRITE is accepted and writes its lines (R313). -/
def inlineCmd (s : State) (id : CmdId) (c : Cmd) (late : Bool) : State :=
  let bad := !reservedOk c.word.toNat [(175, 128), (183, 176), (185, 184)] || 191 < cbits c 183 176 ||
    cbits c 185 184 == 3
  let off := cbits c 185 184 != 0 &&
    (let tbl := segTblNow s id.ctx
     (linePieces (cbits c 175 128) (cbits c 183 176 + 1)).any fun l => !vaInSpad s tbl l.1)
  acceptCmd s id bad off false fun _ => inlineGo s id c late

def execInlineWrite (c : CmdId) (s : State) : Out := .next (withCmd s c 0x70 fun x => inlineCmd s c x false)

/-- Acceptance of an XHOST command (R314): an endpoint link whose VF maps the context. -/
def xhostAccept (s : State) (id : CmdId) (c : Cmd) (go : Nat → State) : State :=
  let link := xhostLink c
  let maps := linkEp s link && (enabledVfs s).any fun lv => lv.1 == link && (vfCtxIndex s lv.1 lv.2 id.ctx).isSome
  acceptCmd s id (!reservedOk c.word.toNat [(191, 128), (239, 192), (255, 240), (257, 256)]) false (!maps) go

/-- The requests that an XHOST command sends: by CXL.cache, or as PCIe requests within the limits of R304, `lim` bytes
each. -/
def xhostAsk (s : State) (link n lim : Nat) (one : Nat → Nat → Bool → Output) : State :=
  if cxlOn s link then emit s (one 0 n true)
  else (List.range ((n + lim - 1) / lim)).foldl (fun s i => emit s (one (i * lim) (min lim (n - i * lim)) false)) s

/-- XHOST_READ: external-host memory to local memory (R314). Poisoned data is written with its poison (R33). -/
def execXhostRead (c : CmdId) (resp : XhostResp) (s : State) : Out :=
  .next (withCmd s c 0x72 fun x =>
    xhostAccept s c x fun _ =>
      let link := xhostLink x
      let n := cbits x 255 240 + 1
      let ask (s : State) : State := xhostAsk s link n 4096 fun o k cxl => .xhostRead link (cbits x 191 128 + o) k cxl
      if !linkUp s link then finishCmd s c (resOf [stTIER])
      else match resp with
        | .ok data p =>
          match streamWrite s (.queue c.ctx c.q) {} c.ctx .wr p .ok (linePieces (cbits x 239 192) n) (slice data 0 n) p with
          | (s', none) => s'
          | (s', some (.error codes)) => finishCmd (ask s') c (resOf codes)
          | (s', some (.ok met)) => finishCmd (ask s') c (resOf (if met then [stPOISON] else []))
        | .error failed => xhostFail (ask s) c x failed
        | .linkDown => xhostFail (ask s) c x 1)

/-- XHOST_WRITE: local memory to external-host memory (R314). -/
def execXhostWrite (c : CmdId) (resp : XhostResp) (s : State) : Out :=
  .next (withCmd s c 0x73 fun x =>
    xhostAccept s c x fun _ =>
      let link := xhostLink x
      let n := cbits x 255 240 + 1
      if !linkUp s link then finishCmd s c (resOf [stTIER])
      else
        match streamRead s (.queue c.ctx c.q) {} c.ctx .rd .ok (linePieces (cbits x 239 192) n) [] false with
        | (s', none) => s'
        | (s', some (.error codes)) => finishCmd s' c (resOf codes)
        | (s', some (.ok (bs, p))) =>
          let s' := xhostAsk s' link n 512 fun o k cxl => .xhostWrite link (cbits x 191 128 + o) (slice bs o k) p cxl
          let bad := match resp with
            | .ok _ _ => []
            | .error failed => List.replicate (max failed 1) stTIER
            | .linkDown => [stTIER]
          finishCmd s' c (resOf ((if p then [stPOISON] else []) ++ bad)))

/-! ## Host-die reset (R315 to R317) -/

/-- A host die enters reset: its agent dies, its DDR5 goes to self-refresh, its links go down and what they hold
is lost (R311, R315). -/
def hostReset (s : State) (h : Nat) : State :=
  if fbit s (pgHOSTD h) F.HOSTD_STS_IN_RESET then s
  else
    let s := bump (fput s (pgHOSTD h) F.HOSTD_STS_IN_RESET 1) (pgHOSTD h) 4
    let s := agentDies s (4 + h)
    let x := s.host
    let s := { s with host := { x with
      srEntry := herdTime s, peer := mdel (mdel x.peer (2 * h)) (2 * h + 1) } }
    let s := fput s (pgHOSTD h) F.HOSTD_STS_SR_ACTIVE 1
    linkDown (linkDown s (2 * h)) (2 * h + 1)

/-- A host die leaves reset; its channels begin to leave self-refresh (R317). -/
def execHostdResetExit (host : Nat) (s : State) : Out :=
  .next (if host < 2 then fput s (pgHOSTD host) F.HOSTD_STS_IN_RESET 0 else s)

/-- The channels of a host die that has left reset have retrained: its lines are served again (R317). -/
def execHostDieRetrainDone (host : Nat) (s : State) : Out :=
  .next (if host < 2 ∧ fbit s (pgHOSTD host) F.HOSTD_STS_SR_ACTIVE ∧ !fbit s (pgHOSTD host) F.HOSTD_STS_IN_RESET then
    let x := s.host
    fput { s with host := { x with srExit := herdTime s } } (pgHOSTD host) F.HOSTD_STS_SR_ACTIVE 0
  else s)

end Sys2Proof.Machine
end

