-- ==== Sys2Proof/Machine/Picture.lean ====
section
/-! DEFINITION. Images: what the decoders deliver (R324, R325) and the augmentation operations (R336 to R339). -/

namespace Sys2Proof.Machine

open Sys2Proof

/-! ## Decoders -/

/-- K(u, x) of R325: the integer nearest to 2^13 × (a(u) / 2) × cos((2x + 1) u π / 16). -/
def dctK : List (List Int) :=
  [[2896, 2896, 2896, 2896, 2896, 2896, 2896, 2896], [4017, 3406, 2276, 799, -799, -2276, -3406, -4017],
   [3784, 1567, -1567, -3784, -3784, -1567, 1567, 3784], [3406, -799, -4017, -2276, 2276, 4017, 799, -3406],
   [2896, -2896, -2896, 2896, 2896, -2896, -2896, 2896], [2276, -4017, 799, 3406, -3406, -799, 4017, -2276],
   [1567, -3784, 3784, -1567, -1567, 3784, -3784, 1567], [799, -2276, 3406, -4017, 4017, -3406, 2276, -799]]

def dctKAt (u x : Nat) : Int := lget (lget dctK u []) x 0

def clampI (x lo hi : Int) : Int := if x < lo then lo else if hi < x then hi else x

def sumInt (n : Nat) (f : Nat → Int) : Int := (List.range n).foldl (fun a i => a + f i) 0

/-- The row pass of R325. -/
def dctRow (blk : List Int) (v x : Nat) : Int :=
  (sumInt 8 (fun u => clampI (lget blk (8 * v + u) 0) (-32768) 32767 * dctKAt u x) + 1024) / 2 ^ 11

/-- The column pass, and the sample (R325). -/
def dctSample (blk : List Int) (x y : Nat) : Int :=
  clampI ((sumInt 8 (fun v => dctRow blk v x * dctKAt v y) + 16384) / 2 ^ 15 + 128) 0 255

/-- Sample (x, y) of a component at its own resolution. -/
def compSample (c : JpegComp) (x y : Nat) : Int :=
  dctSample ((c.coef.drop ((y / 8 * c.across + x / 8) * 64)).take 64) (x % 8) (y % 8)

/-- Every pixel of a picture, in row order. -/
def pixels {α : Type} (w h : Nat) (f : Nat → Nat → α) : List α :=
  (List.range (w * h)).map fun i => f (i % w) (i / w)

/-- A JPEG picture (R324, R325): chroma brought to full resolution by replication, and YCbCr to RGB. -/
def jpegImage (r : JpegRaw) : Image :=
  let hm := r.comps.foldl (fun m c => max m c.hs) 1
  let vm := r.comps.foldl (fun m c => max m c.vs) 1
  let at_ (k x y : Nat) : Int :=
    let c := lget r.comps k {}
    compSample c (x * c.hs / hm) (y * c.vs / vm)
  let nat (x : Int) : Nat := (clampI x 0 255).toNat
  let chan (f : Nat → Nat → Int) : List Nat := pixels r.w r.h fun x y => nat (f x y)
  let frame :=
    if r.comps.length = 1 then [chan (at_ 0)]
    else if r.rgb then [chan (at_ 0), chan (at_ 1), chan (at_ 2)]
    else
      [chan fun x y => at_ 0 x y + (91881 * (at_ 2 x y - 128) + 32768) / 2 ^ 16,
       chan fun x y => at_ 0 x y + (-22554 * (at_ 1 x y - 128) - 46802 * (at_ 2 x y - 128) + 32768) / 2 ^ 16,
       chan fun x y => at_ 0 x y + (116130 * (at_ 1 x y - 128) + 32768) / 2 ^ 16]
  ⟨r.w, r.h, 8, [frame]⟩

/-- A PNG picture (R324): palettes expanded, alpha dropped, depths below 8 scaled to 8 bits. -/
def pngImage (r : PngRaw) : Image :=
  let n := match r.colour with | 2 => 3 | 4 => 2 | 6 => 4 | _ => 1
  let v (k x y : Nat) : Nat :=
    let s := lget r.px ((y * r.w + x) * n + k) 0
    if r.depth < 8 then s * 255 / (2 ^ r.depth - 1) else s
  let pal (x y : Nat) : Nat × Nat × Nat := lget r.palette (lget r.px (y * r.w + x) 0) (0, 0, 0)
  let frame :=
    if r.colour = 3 then
      [pixels r.w r.h fun x y => (pal x y).1, pixels r.w r.h fun x y => (pal x y).2.1,
        pixels r.w r.h fun x y => (pal x y).2.2]
    else if r.colour = 2 ∨ r.colour = 6 then [pixels r.w r.h (v 0), pixels r.w r.h (v 1), pixels r.w r.h (v 2)]
    else [pixels r.w r.h (v 0)]
  ⟨r.w, r.h, if r.depth = 16 ∧ r.colour ≠ 3 then 16 else 8, [frame]⟩

/-- The first `n` pictures of a video as an image (R324): Y, Cb and Cr, chroma replicated. -/
def videoImage (r : VideoRaw) (n : Nat) : Image :=
  let cw := (r.w + 1) / 2
  let frame (p : VideoPic) : List (List Nat) :=
    let up (l : List Nat) : List Nat := pixels r.w r.h fun x y => lget l (y / 2 * cw + x / 2) 0
    if r.mono then [p.y.take (r.w * r.h)] else [p.y.take (r.w * r.h), up p.cb, up p.cr]
  ⟨r.w, r.h, r.bd, (r.pics.take n).map frame⟩

/-- Decode a candidate (R323, R324, R334): an image, or the cause that rejects it. -/
def decodeSample (kind : Nat) (bs : List Byte) (pic frames : Nat) : Except Nat Image :=
  if kind = 1 then
    let r := Config.jpegParse bs
    if r.cause ≠ 0 then .error r.cause
    else if 16384 < r.w ∨ 16384 < r.h then .error 4 else .ok (jpegImage r)
  else if kind = 2 then
    let r := Config.pngParse bs
    if r.cause ≠ 0 then .error r.cause
    else if 16384 < r.w ∨ 16384 < r.h then .error 4 else .ok (pngImage r)
  else
    let r := Config.videoParse kind bs pic
    if r.cause ≠ 0 then .error r.cause
    else if 8192 < r.w ∨ 4352 < r.h then .error 4
    else if (r.pics.take frames).any fun p => p.concealed then .error 6
    else if r.pics.length < frames then .error 7
    else .ok (videoImage r frames)

/-! ## Bytes of an image -/

/-- Bytes of one sample: one for a depth of 8, else two (R339). -/
def sampleBytes (bd : Nat) : Nat := if bd = 8 then 1 else 2

/-- An image's bytes: frames, channels, rows, columns, in ascending order (R339). -/
def imageBytes (im : Image) (n : Nat) : List Byte :=
  im.frames.flatMap fun f => f.flatMap fun c => c.flatMap fun v => leBytes n v

/-- An image read back from its bytes. -/
def imageOf (bs : List Byte) (w h bd c f : Nat) : Image :=
  let n := sampleBytes bd
  ⟨w, h, bd, (List.range f).map fun i => (List.range c).map fun k =>
    (List.range (w * h)).map fun j => field bs (((i * c + k) * (w * h) + j) * n) n⟩

/-! ## Augmentation (R336 to R339) -/

/-- Keep the rectangle of `cw` × `ch` at (x0, y0). -/
def cropImage (im : Image) (x0 y0 cw ch : Nat) : Image :=
  { im with
    w := cw
    h := ch
    frames := im.frames.map fun f => f.map fun c =>
      pixels cw ch fun x y => lget c ((y0 + y) * im.w + x0 + x) 0 }

/-- Mirror the columns. -/
def flipImage (im : Image) : Image :=
  { im with frames := im.frames.map fun f => f.map fun c =>
      pixels im.w im.h fun x y => lget c (y * im.w + (im.w - 1 - x)) 0 }

/-- i and f of R338 for output place `x` of `o` from `n`. -/
def resizeAt (x n o : Nat) : Nat × Nat :=
  let a := (2 * x + 1) * n
  let r := if a ≤ o then (0, 0) else ((a - o) / (2 * o), ((a - o) % (2 * o) * 256) / (2 * o))
  if n ≤ r.1 + 1 then (n - 1, 0) else r

/-- One output sample of R338. -/
def resizeSample (c : List Nat) (w h ow oh x y : Nat) : Nat :=
  let i := resizeAt x w ow
  let j := resizeAt y h oh
  let col (r : Nat) : Nat := lget c (r * w + i.1) 0 * (256 - i.2) + lget c (r * w + i.1 + 1) 0 * i.2
  (col j.1 * (256 - j.2) + (if j.2 = 0 then 0 else col (j.1 + 1) * j.2) + 32768) / 65536

def resizeImage (im : Image) (ow oh : Nat) : Image :=
  { im with
    w := ow
    h := oh
    frames := im.frames.map fun f => f.map fun c => pixels ow oh (resizeSample c im.w im.h ow oh) }

/-- Add a signed offset to every sample, clamped to the depth. -/
def brightImage (im : Image) (d : Int) : Image :=
  { im with frames := im.frames.map fun f => f.map fun c => c.map fun v =>
      (clampI (Int.ofNat v + d) 0 (2 ^ im.bd - 1)).toNat }

/-- One element of NORM: RNE(RNE(v - m, FP32) × s, FP32) narrowed to `fmt`, and its RANGE_OVERFLOW. -/
def normElem (fmt : Nat) (sat : Bool) (m sc : Word) (v : Nat) : Nat × Bool :=
  let x := fp32Mul (fp32Sub (toFp32 (fromInt (Int.ofNat v) 1)) m) sc
  narrow (elemFmt fmt) sat .rne (ofFp32 x)

/-- NORM over an image: the codes, and the number of elements that overflowed. -/
def normImage (im : Image) (fmt : Nat) (sat : Bool) (m sc : Nat → Word) : Image × Nat :=
  let r := im.frames.map fun f => mapIdx (fun k c => c.map (normElem fmt sat (m k) (sc k))) 0 f
  ({ im with frames := r.map fun f => f.map fun c => c.map (·.1) },
    (r.map fun f => (f.map fun c => (c.filter (·.2)).length).foldl (· + ·) 0).foldl (· + ·) 0)

/-! ## Programs (R336, R337) -/

/-- Operation j of a program: its 32 bytes. -/
def progOp (prog : List Byte) (j : Nat) : List Byte := slice prog (32 + 32 * j) 32

def progCount (prog : List Byte) : Nat := field prog 0 1
def progChannels (prog : List Byte) : Nat := field prog 1 1
def opCode (o : List Byte) : Nat := field o 0 1
def opP0 (o : List Byte) : Nat := field o 2 2
def opP1 (o : List Byte) : Nat := field o 4 2
def opFp (o : List Byte) (i : Nat) : Word := BitVec.ofNat 32 (field o (8 + 4 * i) 4)

def progOps (prog : List Byte) : List (List Byte) := (List.range (progCount prog)).map (progOp prog)

/-- A program that R337 calls malformed. -/
def progBad (prog : List Byte) (clipFrames : Nat) : Bool :=
  let ops := progOps prog
  let n := ops.length
  progCount prog = 0 || 8 < progCount prog || !(progChannels prog == 1 || progChannels prog == 3) ||
    field prog 2 30 != 0 ||
    ops.any (fun o => opCode o = 0 || 7 < opCode o || field o 1 1 != 0 || field o 6 2 != 0) ||
    !(ops.any fun o => opCode o == 1 || opCode o == 2 || opCode o == 4) ||
    ops.any (fun o => opCode o == 6 && clipFrames + 1 < opP0 o) ||
    ops.any (fun o => opCode o == 5 && 255 < opP0 o) ||
    ops.any (fun o => opCode o == 7 && !fmtKnown (opP0 o % 32)) ||
    (ops.take (n - 1)).any fun o => opCode o == 7

/-- NORM names a format that R57 lists and R337 does not accept. -/
def progUnsup (prog : List Byte) : Bool := (progOps prog).any fun o => opCode o == 7 && 2 < opP0 o % 32

/-- The output's width and height, and its frames. -/
def progSize (prog : List Byte) (clipFrames : Nat) : Nat × Nat × Nat :=
  (progOps prog).foldl (fun a o =>
    if opCode o = 1 ∨ opCode o = 2 ∨ opCode o = 4 then (opP0 o, opP1 o, a.2.2)
    else if opCode o = 6 then (a.1, a.2.1, opP0 o)
    else a) (0, 0, clipFrames + 1)

/-- Bytes of one output element: those of NORM's format, else of the depth (R339). -/
def outElemBytes (prog : List Byte) (bd : Nat) : Nat :=
  match (progOps prog).getLast? with
  | some o => if opCode o = 7 then elemBits (opP0 o % 32) / 8 else sampleBytes bd
  | none => sampleBytes bd

/-- The bytes of a program's output, at the least depth (notes/assumptions/28.md). -/
def progOutBytes (prog : List Byte) (clipFrames : Nat) : Nat :=
  let z := progSize prog clipFrames
  z.1 * z.2.1 * z.2.2 * progChannels prog * outElemBytes prog 8

/-- SHAPE of R334: the image cannot pass the program's crops or channels, or holds fewer frames than a TIME_CROP needs:
`first k` is the frame from which operation k keeps its own (notes/assumptions/173.md). -/
def shapeBad (prog : List Byte) (first : Nat → Nat) (im : Image) : Bool :=
  let c := (im.frames.headD []).length
  let r := (List.range (progCount prog)).foldl (fun (a : Bool × Nat × Nat × Nat) k =>
    let o := progOp prog k
    if opCode o = 1 ∨ opCode o = 2 then (a.1 || a.2.1 < opP0 o || a.2.2.1 < opP1 o, opP0 o, opP1 o, a.2.2.2)
    else if opCode o = 4 then (a.1, opP0 o, opP1 o, a.2.2.2)
    else if opCode o = 6 then (a.1 || a.2.2.2 < first k + opP0 o, a.2.1, a.2.2.1, opP0 o)
    else a) (false, im.w, im.h, im.frames.length)
  r.1 || (c == 3 && progChannels prog == 1)

/-- One channel replicated to three where the program asks for three (R336). -/
def spreadChannels (prog : List Byte) (im : Image) : Image :=
  if progChannels prog = 3 then
    { im with frames := im.frames.map fun f => match f with | [c] => [c, c, c] | _ => f }
  else im

end Sys2Proof.Machine
end

