-- ==== Sys2Proof/Machine/Input.lean ====
section
/-! DEFINITION. The input pipeline (R326 to R351): job rings, sample jobs and their candidates, the decoded-sample
cache, and live sensor streams. -/

namespace Sys2Proof.Machine

open Sys2Proof

/-! ## Job rings (R326) -/

def ringKey (h f : Nat) : Nat := h * 16 + f
def getRing (s : State) (h f : Nat) : JobRing := mgetD s.inp.rings (ringKey h f) {}
def putRing (s : State) (h f : Nat) (r : JobRing) : State :=
  let i := s.inp
  { s with inp := { i with rings := mput i.rings (ringKey h f) r } }

/-- Entries of a ring. -/
def jobRingSize (s : State) (h f : Nat) : Nat := 2 ^ min (max (fgeti s (pgINP h) F.RCFG_SIZE_LOG2 f) 4) 15

/-- The registers of ring f take writes under fold f's authority or SYSTEM (R326, R351). -/
def withRing (s : State) (src : Src) (f : Nat) (g : State → State) : State := withEntry s src f fun _ s => g s

def ringDoorbell (s : State) (host ring tail : Nat) : State :=
  let head := fgeti s (pgINP host) F.RSTS_HEAD ring
  if jobRingSize s host ring < (tail + 65536 - head) % 65536 then fputi s (pgINP host) F.RSTS_DB_OVERRUN ring 1
  else putRing s host ring { getRing s host ring with tail := tail % 65536 }

def execJobRingDoorbell (src : Src) (host ring : Nat) (tail : BitVec 16) (s : State) : Out :=
  .next (if host < 2 ∧ ring < 16 then withRing s src ring fun s => ringDoorbell s host ring tail.toNat else s)

/-! ## Jobs (R328, R329) -/

def jbits (j : JobSt) (hi lo : Nat) : Nat := bits j.desc.toNat hi lo
def jOp (j : JobSt) : Nat := jbits j 7 0
def jP0 (j : JobSt) : Nat := jbits j 103 64
def jCount (j : JobSt) : Nat := jbits j 143 128 + 1
def jFrames (j : JobSt) : Nat := jbits j 151 144
def jN (j : JobSt) : Nat := jbits j 231 192 + 1
def jOut (j : JobSt) : Nat := jbits j 367 320
def jPitch (j : JobSt) : Nat := jbits j 415 384
def jRec (j : JobSt) : Nat := jbits j 495 448

def jobReserved (j : JobSt) : Bool :=
  jbits j 15 10 == 0 && jbits j 127 104 == 0 && jbits j 159 156 == 0 && jbits j 255 232 == 0 &&
    jbits j 319 304 == 0 && jbits j 383 368 == 0 && jbits j 447 416 == 0 && jbits j 511 496 == 0 &&
    jbits j 575 560 == 0 && jbits j 1023 655 == 0

/-- The ring's cache (R341): base, slot bytes, slots; none when it is not configured in the fold's tier F. -/
def ringCache (s : State) (h f : Nat) : Option (Nat × Nat × Nat) :=
  let lg := fgeti s (pgINP h) F.CACHE_HI_SLOT_LOG2 f
  let base := fgeti s (pgINP h) F.CACHE_LO_BASE_LO f * twoMiB + fgeti s (pgINP h) F.CACHE_HI_BASE_HI f * 2 ^ 32
  let slots := fgeti s (pgINP h) F.CACHE_CFG_SLOTS f + 1
  if lg < 12 ∨ 26 < lg then none
  else if !(base + slots * 2 ^ lg ≤ tierFBytes s) || !inPlainRegions s f base (base + slots * 2 ^ lg) then none
  else some (base, 2 ^ lg, slots)

/-- The ring's cache has a slot size and lies outside the fold's regions or tier F (R341, R351). -/
def cacheOutside (s : State) (h f : Nat) : Bool :=
  let lg := fgeti s (pgINP h) F.CACHE_HI_SLOT_LOG2 f
  12 ≤ lg && lg ≤ 26 && (ringCache s h f).isNone

/-- Record a refused enable of the input page (R350, R351). -/
def inpRefuse (s : State) (h cause : Nat) : State :=
  fput (fput s (pgINP h) F.INP_STS_CFG_ERR 1) (pgINP h) F.INP_STS_CAUSE cause

/-- A range of a job lies in the fold's uncompressed regions (R326). -/
def jobInside (s : State) (f lo n : Nat) : Bool := inPlainRegions s f lo (lo + n)

/-- Some range of the job lies outside (R329). -/
def jobOutside (s : State) (f : Nat) (j : JobSt) : Bool :=
  !jobInside s f (jbits j 303 256) (16 * jN j) || !jobInside s f (jOut j) (jCount j * jPitch j) ||
    !jobInside s f (jRec j) (32 * jCount j) || !jobInside s f (jbits j 559 512) 32 ||
    !jobInside s f (jbits j 559 512) (32 + 32 * min (progCount j.prog) 8)

/-- The acceptance of a job (R21, R57, R329). -/
def jobCheck (s : State) (h f : Nat) (j : JobSt) : Option Nat :=
  let sigBad := (jbits j 9 9 == 1) && ctxFold s (jbits j 648 640) != some f
  let cacheBad := (jbits j 8 8 == 1) && (ringCache s h f).isNone
  if !jobReserved j || 1 < jOp j then some stBAD
  else if jOp j = 0 then (if sigBad then some stSTATE else none)
  else if jN j < jP0 j + jCount j || jPitch j % 256 != 0 then some stBAD
  else if jobInside s f (jbits j 559 512) 32 && (progBad j.prog (jFrames j) || jPitch j < progOutBytes j.prog (jFrames j)) then
    some stBAD
  else if jobInside s f (jbits j 559 512) 32 && progUnsup j.prog then some stUNSUP
  else if sigBad || cacheBad then some stSTATE
  else if jobOutside s f j then some stPERM
  else none

/-! ## Completion (R326, R344) -/

/-- A job's completion record: QUEUE, GEN and CONTEXT are zero. -/
def jobRecord (j : JobSt) (r : Res) : List Byte :=
  leBytes 16 (r.code + jOp j * 2 ^ 8 + jbits j 31 16 * 2 ^ 16 + jbits j 9 9 * 2 ^ 44 + r.cond * 2 ^ 64 + r.note * 2 ^ 80
    + j.time % 2 ^ 32 * 2 ^ 96)

/-- A job ends with a result, at this Herd time (R144). -/
def endJob (s : State) (j : JobSt) (r : Res) : JobSt := { j with res := some r, time := herdTime s }

/-- The conditions that a job has met (R22, R339, R344). -/
def jobCodes (j : JobSt) : List Nat :=
  (if j.tier then [stTIER] else []) ++ (if j.ovf = 0 then [] else [stOVERFLOW])
    ++ (if j.rejected = 0 && j.empties = 0 then [] else [stNOTE])

/-- Post the completions of a ring's oldest jobs, in order, each with its tally signal (R24, R328). The move filter holds
posting (R251); a record whose tier F line is down is lost (R316). -/
def postJobs (s : State) (h f : Nat) : List JobSt → State
  | [] => putRing s h f { getRing s h f with jobs := [] }
  | j :: rest =>
    match j.res with
    | none => putRing s h f { getRing s h f with jobs := j :: rest }
    | some r =>
      let x := getRing s h f
      let pa := fgeti s (pgINP h) F.RCBASE_LO_CBASE_LO f * 16 + fgeti s (pgINP h) F.RCBASE_HI_CBASE_HI f * 2 ^ 32
        + x.posted % jobRingSize s h f * 16
      if jobInside s f pa 16 && busWaits s pa 16 then putRing s h f { x with jobs := j :: rest }
      else
        let s := putRing s h f { x with posted := (x.posted + 1) % 65536 }
        let s := if jobInside s f pa 16 && !busDown s pa 16 then (busWrite s pa (jobRecord j r) false false).1 else s
        let s := if jbits j 9 9 = 1 then tallyAdd s (jbits j 648 640) (jbits j 654 649) 1 else s
        postJobs s h f rest

def postRing (s : State) (h f : Nat) : State := postJobs s h f (getRing s h f).jobs

/-- Room for a completion (R148, R326). -/
def jobRoom (s : State) (h f : Nat) : Bool :=
  let x := getRing s h f
  (x.posted + x.jobs.length + 65536 - fgeti s (pgINP h) F.RCQHEAD_CQHEAD f) % 65536 < jobRingSize s h f

/-- Read a program, its header and then the operations it counts: none where they are poisoned (R336). -/
def readProg (s : State) (pa : Nat) : State × Option (List Byte) :=
  let r := busRead s pa 32 false
  let n := 32 * min (field r.2.1 0 1) 8
  let o := busRead r.1 (pa + 32) n false
  (o.1, if r.2.2 || o.2.2 then none else some (r.2.1 ++ o.2.1))

/-- A completed job still heads the ring: its record's write is held (R251). -/
def postHeld (s : State) (h f : Nat) : Bool :=
  match (getRing s h f).jobs with
  | j :: _ => j.res.isSome
  | [] => false

/-- A job whose CACHE_EN is refused because the ring's cache lies outside the fold leaves INP_STS cause 0x3 (R351,
notes/assumptions/174.md). -/
def jobRefused (s : State) (h f : Nat) (j : JobSt) (code : Nat) : State :=
  if code = stSTATE ∧ jbits j 8 8 = 1 ∧ cacheOutside s h f then inpRefuse s h 3 else s

/-- A ring fetches its next job and checks it, when the job's opcode is one that `want` takes. -/
def jobFetch (s : State) (h f : Nat) (want : Nat → Bool) : State :=
  let s := if postHeld s h f then postRing s h f else s
  let head := fgeti s (pgINP h) F.RSTS_HEAD f
  let x := getRing s h f
  if !fbiti s (pgINP h) F.RCFG_ENABLE f || !foldFetches s f || x.tail = head || !jobRoom s h f ||
      fbit s (pgHOSTD h) F.HOSTD_STS_IN_RESET then s
  else
    let pa := fgeti s (pgINP h) F.RBASE_LO_BASE_LO f * 128 + fgeti s (pgINP h) F.RBASE_HI_BASE_HI f * 2 ^ 32
      + head % jobRingSize s h f * 128
    if busWaits s pa 128 then s
    else
      let rd := busRead s pa 128 false
      let j : JobSt := { desc := BitVec.ofNat 1024 (leNat rd.2.1) }
      let prog := jbits j 559 512
      if !want (jOp j) || (jOp j == 1 && busWaits s prog 288) then s
      else
        let s := fputi rd.1 (pgINP h) F.RSTS_HEAD f (head + 1)
        let push (s : State) (j : JobSt) : State := postRing (putRing s h f { x with jobs := x.jobs ++ [j] }) h f
        if !busPlain s pa 128 then push s (endJob s j (resOf [stHOLE]))
        else if busDown s pa 128 then push s (endJob s j (resOf [stTIER]))
        else if rd.2.2 then push s (endJob s j (resOf [stPOISON]))
        else
          if jOp j = 1 ∧ busDown s prog 32 then push s (endJob s j (resOf [stTIER]))
          else
            let rp := if jOp j = 1 then readProg s prog else (s, some [])
            match rp.2 with
            | none => push rp.1 (endJob s j (resOf [stPOISON]))
            | some prog =>
              let j := { j with prog := prog }
              match jobCheck rp.1 h f j with
              | some code => push (jobRefused rp.1 h f j code) (endJob s j (if code = stPERM then resOf [stPERM] else reject code))
              | none => push rp.1 (if jOp j = 0 then endJob s j {} else { j with next := jP0 j })

def execSampleBatch (host ring : Nat) (s : State) : Out :=
  .next (if host < 2 ∧ ring < 16 then jobFetch s host ring (· != 0) else s)

def execJobNop (host ring : Nat) (s : State) : Out :=
  .next (if host < 2 ∧ ring < 16 then jobFetch s host ring (· == 0) else s)

/-! ## Seeded order (R332, R333) -/

/-- The smallest even n ≥ 2 with 2^n ≥ N, halved. -/
def halfBits (n : Nat) : Nat :=
  ((List.range 21).find? fun h => 1 ≤ h && n ≤ 2 ^ (2 * h)).getD 20

/-- One walk of the four rounds. -/
def piRounds (seed epoch ds h x : Nat) : Nat :=
  let r := (List.range 4).foldl (fun (lr : Nat × Nat) i =>
    let f := (stipple seed epoch ds (i * 2 ^ 32 + lr.2) 0x10).toNat % 2 ^ h
    (lr.2, lr.1 ^^^ f)) (x / 2 ^ h, x % 2 ^ h)
  r.1 * 2 ^ h + r.2

/-- π(p), walking until the value is below N; 2^(2h) steps suffice. -/
def piWalk (seed epoch ds h n : Nat) : Nat → Nat → Nat
  | 0, x => x % n
  | k + 1, x =>
    let y := piRounds seed epoch ds h x
    if y < n then y else piWalk seed epoch ds h n k y

def samplePi (seed epoch ds n p : Nat) : Nat := piWalk seed epoch ds (halfBits n) n (2 ^ (2 * halfBits n)) p

def jSeed (j : JobSt) : Nat := jbits j 639 576
def jEpoch (j : JobSt) : Nat := jbits j 191 160
def jSet (j : JobSt) : Nat := jbits j 63 32

/-- Candidate k of position p. -/
def candidate (j : JobSt) (p k : Nat) : Nat := samplePi (jSeed j) (jEpoch j) (jSet j) (jN j) ((p + k) % jN j)

/-! ## Positions -/

def putJob (s : State) (h f i : Nat) (j : JobSt) : State :=
  let r := getRing s h f
  putRing s h f { r with jobs := lset r.jobs i j }

/-- The first job of a ring that holds a position in a stage that `p` accepts. -/
def findPos (s : State) (h f pos : Nat) (ok : PosSt → Bool) : Option (Nat × JobSt × PosSt) :=
  let js := (getRing s h f).jobs
  (List.range js.length).findSome? fun i =>
    match js[i]? with
    | none => none
    | some j =>
      if j.res.isSome then none
      else (j.pos.find? fun x => x.p == pos && ok x).map fun x => (i, j, x)

def setPos (j : JobSt) (x : PosSt) : JobSt :=
  { j with pos := j.pos.map fun y => if y.p == x.p then x else y }

/-- A job whose started positions have all ended and that starts no more gets its result (R344); a slot whose
record was not written is undefined. -/
def jobEnd (s : State) (h f i : Nat) : State :=
  match (getRing s h f).jobs[i]? with
  | none => s
  | some j =>
    if j.res.isSome || j.pos != [] || (!j.tier && j.next < jP0 j + jCount j) then s
    else
      let codes := jobCodes j
      let c := highest codes
      let note := if c = stNOTE then min j.rejected 0xFFFF else if c = stOVERFLOW then min j.ovf 0xFFFF else 0
      let r : Res := { resOf codes with note := if c = stNOTE ∨ c = stOVERFLOW then note else (resOf codes).note }
      let lost := (List.range (jCount j)).filter fun k => !j.done.contains (jP0 j + k)
      let s := if j.tier then lost.foldl (fun s k =>
        let lo := jOut j + k * jPitch j
        makeUndef (recallRange s lo (jPitch j)) lo (lo + jPitch j)) s else s
      postRing (putJob s h f i (endJob s j r)) h f

/-- A tier error of a candidate: its position is abandoned, and the job heads for TIER_ERROR (R344). -/
def posTier (s : State) (h f i : Nat) (j : JobSt) (p : Nat) : State :=
  jobEnd (putJob s h f i { j with tier := true, pos := j.pos.filter fun y => y.p != p }) h f i

/-- A candidate is rejected (R333, R334): the next is tried, or the slot is to be written empty. -/
def posReject (s : State) (h f i : Nat) (j : JobSt) (x : PosSt) (cause : Nat) : State :=
  let s := bump s (pgINP h) cause
  let x := { x with tries := x.tries + 1, cause := if x.tries = 0 then cause else x.cause, img := none, op := 0 }
  let x := { x with cached := false, free := none, failed := 0 }
  let last := jbits j 155 152 < x.tries
  let x := { x with stage := if last then .write else .start }
  putJob s h f i { setPos j x with rejected := j.rejected + 1 }

/-- Draw 0 of operation `op` at position `p` (R337). -/
def augDraw (j : JobSt) (p op purpose : Nat) : Nat :=
  (stipple (jSeed j) (jEpoch j) (jSet j) (p * 2 ^ 16 + op * 2 ^ 8) purpose).toNat

/-- The frame from which operation `op`, a TIME_CROP, keeps its own at position `p` (R337). -/
def firstFrame (j : JobSt) (p op : Nat) : Nat :=
  augDraw j p op 0x14 % 2 ^ 32 * (jFrames j + 1 - opP0 (progOp j.prog op) + 1) / 2 ^ 32

/-- An image is at hand: a shape the program cannot take rejects it (R334), otherwise augmentation begins. -/
def posImage (s : State) (h f i : Nat) (j : JobSt) (x : PosSt) (im : Image) : State :=
  if shapeBad j.prog (firstFrame j x.p) im then posReject s h f i j x 5
  else putJob s h f i (setPos j { x with img := some (spreadChannels j.prog im), op := 0, stage := .ops })

/-- An index entry (R330). -/
def indexBad (s : State) (f : Nat) (e : List Byte) : Bool :=
  let w := leNat e
  let kind := bits w 51 48
  kind = 0 || 4 < kind || bits w 63 52 != 0 || bits w 127 120 != 0 || bits w 95 64 = 0 ||
    !jobInside s f (bits w 47 0) (bits w 95 64)

/-- The job uses the ring's cache (R341). -/
def usesCache (s : State) (h f : Nat) (j : JobSt) : Bool :=
  jbits j 8 8 == 1 && fgeti s (pgINP h) F.CACHE_DS_DATASET f == jSet j

/-- The physical place of a sample's cache slot. -/
def slotPaOf (c : Nat × Nat × Nat) (sample : Nat) : Nat := c.1 + sample % c.2.2 * c.2.1

/-- A candidate is granted: its index entry and cache header are read (R330, R342). -/
def candStart (s : State) (h f i : Nat) (j : JobSt) (x : PosSt) : State :=
  let cand := candidate j x.p x.tries
  let ipa := jbits j 303 256 + 16 * cand
  let slot := (if usesCache s h f j then ringCache s h f else none)
  if busWaits s ipa 16 || (match slot with | some c => busWaits s (slotPaOf c cand) c.2.1 | none => false) then s
  else if busDown s ipa 16 then posTier s h f i j x.p
  else
    let rd := busRead s ipa 16 false
    let s := rd.1
    let x := { x with cand := cand, entry := leNat rd.2.1 }
    if rd.2.2 then posReject s h f i j x 8
    else if indexBad s f rd.2.1 then posReject s h f i j x 9
    else
      let kind := bits (leNat rd.2.1) 51 48
      let go (s : State) (free : Option Nat) : State :=
        putJob s h f i (setPos j { x with stage := .decode, free := free })
      match slot with
      | none => go s none
      | some c =>
        let pa := slotPaOf c cand
        if busDown s pa 256 then posTier s h f i j x.p
        else
          let hd := busRead s pa 256 false
          let s := hd.1
          let w := leNat hd.2.1
          let cur := bits w 47 40 == fgeti s (pgINP h) F.CACHE_CFG_GEN f
          let st := bits w 49 48
          let fits := kind < 3 || bits w 135 128 == jFrames j
          if hd.2.2 then posReject s h f i j x 8
          else if !cur || st = 0 then go s (some (bits w 63 0))
          else if st = 1 then go (bump s (pgINP h) 13) none
          else if bits w 39 0 != cand then go s none
          else if !fits then go s none
          else if st = 3 then posReject (bump s (pgINP h) 11) h f i j x (bits w 53 50)
          else
            let n := bits w 95 64
            let ib := busRead s (pa + 256) n false
            let bd := if bits w 138 138 = 0 then 8 else if kind = 2 then 16 else 10
            if ib.2.2 then posReject ib.1 h f i j x 8
            else posImage (bump ib.1 (pgINP h) 11) h f i j { x with cached := true }
              (imageOf ib.2.1 (bits w 111 96 + 1) (bits w 127 112 + 1) bd (bits w 137 136 + 1) (bits w 135 128 + 1))

/-- A candidate waits on some ring of the die. -/
def ringWaits (s : State) (h f : Nat) : Bool :=
  (getRing s h f).jobs.any fun j => j.res.isNone &&
    (j.pos.any (fun x => x.stage == .start) || (!j.tier && j.next < jP0 j + jCount j))

/-- The number under which a host die's arbiter of candidates is held. -/
def inpArb (h : Nat) : Nat := 30000 + h

/-- The ring that is granted the next candidate of a host die, by deficit round robin: each ring weighs as its fold's SHARE, a
grant is one candidate, and a ring with SHARE 0 is granted only when no other waits (R327, notes/assumptions/142.md). -/
def ringGrant (s : State) (h : Nat) : Option (Nat × Arb) :=
  drrPick (fun f => fget s (pgFOLD f) F.FOLD_SHARE_SHARE) (mgetD s.arbs (inpArb h) {})
    (((List.range 16).filter (ringWaits s h)).map fun f => (f, 1))

/-- The first job that may start a position: jobs start their positions in ascending order (R327). -/
def startable (s : State) (h f pos : Nat) : Option (Nat × JobSt) :=
  let js := (getRing s h f).jobs
  (List.range js.length).findSome? fun i =>
    match js[i]? with
    | none => none
    | some j => if j.res.isNone && !j.tier && j.next == pos && pos < jP0 j + jCount j then some (i, j) else none

def execCandidateStart (host ring position : Nat) (s : State) : Out :=
  .next (if 2 ≤ host ∨ 16 ≤ ring ∨ fbit s (pgHOSTD host) F.HOSTD_STS_IN_RESET then s
    else match ringGrant s host with
      | none => s
      | some (f, a) =>
        if f ≠ ring then s
        else
          let granted : State := { s with arbs := mput s.arbs (inpArb host) a }
          match findPos s host ring position (fun x => x.stage == .start) with
          | some (i, j, x) => candStart granted host ring i j x
          | none =>
            match startable s host ring position with
            | none => s
            | some (i, j) =>
              let x : PosSt := { p := position }
              candStart granted host ring i { j with next := position + 1, pos := j.pos ++ [x] } x)

/-- Act on a position in a given stage. -/
def withPos (s : State) (h f pos : Nat) (st : PosStage) (go : Nat → JobSt → PosSt → State) : State :=
  if 2 ≤ h ∨ 16 ≤ f then s
  else match findPos s h f pos (fun x => x.stage == st) with
    | none => s
    | some (i, j, x) => go i j x

/-- The causes with which a slot is marked CORRUPT (R342). -/
def corruptCause (c : Nat) : Bool := [1, 2, 3, 4, 6].contains c

/-- A decode ends (R324, R334): with an image or a cause; a free slot is then to be claimed. -/
def decodeDone (s : State) (h f i : Nat) (j : JobSt) (x : PosSt) : State :=
  let e := x.entry
  let pa := bits e 47 0
  let n := bits e 95 64
  if busWaits s pa n then s
  else if busDown s pa n then posTier s h f i j x.p
  else
    let rd := busRead s pa n false
    let s := rd.1
    if rd.2.2 then posReject s h f i j x 8
    else
      match decodeSample (bits e 51 48) rd.2.1 (bits e 119 96) (jFrames j + 1) with
      | .error c =>
        if x.free.isSome && corruptCause c then
          putJob s h f i (setPos j { x with stage := .claim, failed := c })
        else posReject s h f i j x c
      | .ok im =>
        if x.free.isSome then putJob s h f i (setPos j { x with stage := .claim, img := some im })
        else posImage s h f i j x im

def execCandidateDecodeDone (host ring position : Nat) (s : State) : Out :=
  .next (withPos s host ring position .decode fun i j x => decodeDone s host ring i j x)

/-- A cache header (R341); a CORRUPT one of a video sample carries the clip's FRAMES as well, so that a job with other
CLIP_FRAMES does not meet it (R340, notes/assumptions/174.md). -/
def cacheHeader (sample gen state cause frames : Nat) (im : Option Image) : List Byte :=
  let v := sample + gen * 2 ^ 40 + state * 2 ^ 48 + cause * 2 ^ 50
  let z := match im with
    | none => frames * 2 ^ 128
    | some m =>
      let c := (m.frames.headD []).length
      let len := m.frames.length * c * m.w * m.h * sampleBytes m.bd
      len * 2 ^ 64 + (m.w - 1) * 2 ^ 96 + (m.h - 1) * 2 ^ 112 + (m.frames.length - 1) * 2 ^ 128 + (c - 1) * 2 ^ 136
        + (if m.bd = 8 then 0 else 1) * 2 ^ 138
  leBytes 256 (v + z)

/-- Claim a slot by CAS and fill it (R342): the winner writes the image and the header. -/
def slotClaim (s : State) (h f i : Nat) (j : JobSt) (x : PosSt) : State :=
  let after (s : State) : State :=
    match x.img with
    | some im => posImage s h f i j x im
    | none => posReject s h f i j x x.failed
  match ringCache s h f with
  | none => after s
  | some c =>
    let pa := slotPaOf c x.cand
    let bytes := match x.img with | some im => imageBytes im (sampleBytes im.bd) | none => []
    let gen := fgeti s (pgINP h) F.CACHE_CFG_GEN f
    let claim := x.cand + gen * 2 ^ 40 + 2 ^ 48
    if c.2.1 < bytes.length + 256 then after s
    else if busWaits s pa (256 + bytes.length) then s
    else if busDown s pa (256 + bytes.length) then posTier s h f i j x.p
    else
      let cas := busAtomic s pa .cas 8 { bytes := leBytes 8 (x.free.getD 0) ++ leBytes 8 claim, poison := false }
      let s := cas.1
      if cas.2.2 || some (leNat cas.2.1) != x.free then after (bump s (pgINP h) 13)
      else
        let hdr := match x.img with
          | some im => cacheHeader x.cand gen 2 0 0 (some im)
          | none => cacheHeader x.cand gen 3 x.failed (if bits x.entry 51 48 < 3 then 0 else jFrames j) none
        after (bump (busWrite s pa (hdr ++ bytes) false false).1 (pgINP h) 12)

def execCacheSlotClaim (host ring position : Nat) (s : State) : Out :=
  .next (withPos s host ring position .claim fun i j x => slotClaim s host ring i j x)

/-! ## Augmentation (R337) -/

/-- Run the next operation of a position's program when it carries the code. -/
def augOp (s : State) (h f pos code : Nat) (go : JobSt → PosSt → List Byte → Image → Image × Nat) : State :=
  withPos s h f pos .ops fun i j x =>
    let o := progOp j.prog x.op
    match x.img with
    | none => s
    | some im =>
      if opCode o ≠ code then s
      else
        let r := go j x o im
        let last := progCount j.prog ≤ x.op + 1
        putJob s h f i { setPos j { x with img := some r.1, op := x.op + 1, stage := if last then .write else .ops }
          with ovf := j.ovf + r.2 }

def execCrop (host ring position : Nat) (s : State) : Out :=
  .next (augOp s host ring position 1 fun j x o im =>
    let w := augDraw j x.p x.op 0x11
    let x0 := w % 2 ^ 32 * (im.w - opP0 o + 1) / 2 ^ 32
    let y0 := w / 2 ^ 32 * (im.h - opP1 o + 1) / 2 ^ 32
    (cropImage im x0 y0 (opP0 o) (opP1 o), 0))

def execCenterCrop (host ring position : Nat) (s : State) : Out :=
  .next (augOp s host ring position 2 fun _ _ o im =>
    (cropImage im ((im.w - opP0 o) / 2) ((im.h - opP1 o) / 2) (opP0 o) (opP1 o), 0))

def execFlipH (host ring position : Nat) (s : State) : Out :=
  .next (augOp s host ring position 3 fun j x _ im =>
    (if augDraw j x.p x.op 0x12 % 2 = 1 then flipImage im else im, 0))

def execResize (host ring position : Nat) (s : State) : Out :=
  .next (augOp s host ring position 4 fun _ _ o im => (resizeImage im (opP0 o) (opP1 o), 0))

def execBright (host ring position : Nat) (s : State) : Out :=
  .next (augOp s host ring position 5 fun j x o im =>
    let d := Int.ofNat (augDraw j x.p x.op 0x13 % 65536 * (2 * opP0 o + 1) / 65536) - Int.ofNat (opP0 o)
    (brightImage im d, 0))

/-- Keeps T frames from a drawn frame; posImage has seen that the image holds them. -/
def execTimeCrop (host ring position : Nat) (s : State) : Out :=
  .next (augOp s host ring position 6 fun j x o im =>
    ({ im with frames := (im.frames.drop (firstFrame j x.p x.op)).take (opP0 o) }, 0))

def execNorm (host ring position : Nat) (s : State) : Out :=
  .next (augOp s host ring position 7 fun _ _ o im =>
    normImage im (opP0 o % 32) (opP1 o % 2 == 1) (fun k => opFp o k) (fun k => opFp o (3 + k)))

/-! ## Writing a position (R331) -/

/-- The sample record. -/
def sampleRecord (s : State) (j : JobSt) (x : PosSt) : List Byte :=
  let orig := candidate j x.p 0
  let empty := x.img.isNone
  let smp := if empty then 0 else x.cand
  let repl := !empty && x.cand != orig
  leBytes 32 (smp + 2 ^ 40 + bitN repl * 2 ^ 41 + bitN empty * 2 ^ 42 + bitN (x.cached && !empty) * 2 ^ 43
    + x.cause * 2 ^ 44 + x.tries * 2 ^ 48 + orig * 2 ^ 64 + herdTime s % 2 ^ 64 * 2 ^ 128)

/-- The output slot of a position: the image, cut to the pitch, or zeros. -/
def slotBytes (j : JobSt) (x : PosSt) : List Byte :=
  match x.img with
  | some im => (imageBytes im (outElemBytes j.prog im.bd)).take (jPitch j)
  | none => List.replicate (jPitch j) 0

def posWrite (s : State) (h f i : Nat) (j : JobSt) (x : PosSt) : State :=
  let out := jOut j + (x.p - jP0 j) * jPitch j
  let rec_ := jRec j + 32 * (x.p - jP0 j)
  let bs := slotBytes j x
  if busDown s out bs.length || busDown s rec_ 32 then posTier s h f i j x.p
  else if busWaits s out bs.length || busWaits s rec_ 32 then s
  else
    let s := (busWrite s out bs false false).1
    let s := (busWrite s rec_ (sampleRecord s j x) false false).1
    let s := bump s (pgINP h) (if x.img.isNone then 10 else 0)
    jobEnd (putJob s h f i { j with
      pos := j.pos.filter fun y => y.p != x.p
      done := x.p :: j.done
      empties := j.empties + bitN x.img.isNone }) h f i

def execPositionWrite (host ring position : Nat) (s : State) : Out :=
  .next (withPos s host ring position .write fun i j x => posWrite s host ring i j x)

/-- A source read that waits INP_CFG.TMO without a response (R344). -/
def execInpSourceReadTimeout (host ring position : Nat) (s : State) : Out :=
  .next (if 2 ≤ host ∨ 16 ≤ ring then s
    else match findPos s host ring position (fun x => x.stage == .decode || x.stage == .start) with
      | none => s
      | some (i, j, x) => posTier s host ring i j x.p)

/-- A write of CACHE_CFG.GEN turns every slot free (R343). -/
def execCacheGenWrite (src : Src) (host ring : Nat) (gen : BitVec 8) (s : State) : Out :=
  .next (if host < 2 ∧ ring < 16 then
    withRing s src ring fun s => fputi s (pgINP host) F.CACHE_CFG_GEN ring gen.toNat
  else s)

/-! ## Local PTP clock (R346) -/

/-- The clock of a host die, in 2^-32 ns. -/
def ptpClock (s : State) (h : Nat) : Int := mgetD s.inp.ptp h 0

def putPtp (s : State) (h : Nat) (v : Int) : State :=
  let i := s.inp
  { s with inp := { i with ptp := mput i.ptp h v } }

def ptpStep (s : State) (host step : Nat) : State := putPtp s host (ptpClock s host + toSigned 32 step * 2 ^ 32)

def execInpPtpstep (src : Src) (host : Nat) (step : BitVec 32) (s : State) : Out :=
  .next (if host < 2 then
    withSys s src fun s => ptpStep s host step.toNat
  else s)

/-- A tick edge: the clock has run 1,024 ns at its rate (notes/assumptions/29.md), and is latched into
INP_XTS (R346). -/
def ptpTick (s : State) (h : Nat) : State :=
  let v := ptpClock s h + 1024 * (2 ^ 32 + toSigned 32 (fget s (pgINP h) F.INP_PTPRATE_RATE))
  let s := putPtp s h v
  let ns := (v / 2 ^ 32).toNat
  let s := fput s (pgINP h) F.INP_XTS_NS_NS (ns % 10 ^ 9)
  let s := fput s (pgINP h) F.INP_XTS_SEC_LO_SEC_LO (ns / 10 ^ 9 % 2 ^ 32)
  fput s (pgINP h) F.INP_XTS_SEC_HI_SEC_HI (ns / 10 ^ 9 / 2 ^ 32)

/-- P_k in nanoseconds. -/
def ptpLatched (s : State) (h : Nat) : Nat :=
  fget s (pgINP h) F.INP_XTS_NS_NS + (fget s (pgINP h) F.INP_XTS_SEC_LO_SEC_LO
    + fget s (pgINP h) F.INP_XTS_SEC_HI_SEC_HI * 2 ^ 32) * 10 ^ 9

/-! ## Groups and sources (R347 to R350) -/

def groupKey (h g : Nat) : Nat := h * 8 + g
def getGroup (s : State) (h g : Nat) : GroupSt := mgetD s.inp.groups (groupKey h g) {}
def putGroup (s : State) (h g : Nat) (x : GroupSt) : State :=
  let i := s.inp
  { s with inp := { i with groups := mput i.groups (groupKey h g) x } }

def grpPeriod (s : State) (h g : Nat) : Nat := fgeti s (pgINP h) F.GRP_PERIOD_PERIOD g
def grpHalf (s : State) (h g : Nat) : Nat := fgeti s (pgINP h) F.GRP_HALF_HALF g

/-- I_k as Herd time. -/
def instantAt (s : State) (h g k : Nat) : Nat :=
  (fpair s (pgINP h) F.GRP_START_LO_START_LO F.GRP_START_HI_START_HI g + k * grpPeriod s h g) * 256

/-- The tick edge at which instant k closes (R349). -/
def closeAt (s : State) (h g k : Nat) : Nat :=
  roundUp (instantAt s h g k + grpHalf s h g + fgeti s (pgINP h) F.GRP_GRACE_GRACE g) 256

/-- The instants whose windows are open: the oldest not closed and two beyond (R348). -/
def openInstants (s : State) (h g : Nat) : List Nat :=
  let n := (getGroup s h g).next
  [n, n + 1, n + 2]

/-- A frame belongs to instant k. -/
def inInstant (s : State) (h g k : Nat) (t : Int) : Bool :=
  Int.ofNat (instantAt s h g k) - Int.ofNat (grpHalf s h g) ≤ t &&
    t < Int.ofNat (instantAt s h g k) + Int.ofNat (grpHalf s h g)

/-- The only instant that a time may belong to: the nearest. -/
def nearestInstant (s : State) (h g : Nat) (t : Int) : Option Nat :=
  let p := grpPeriod s h g * 256
  let d := t - Int.ofNat (instantAt s h g 0) + Int.ofNat (grpHalf s h g)
  if p = 0 ∨ d < 0 then none
  else
    let k := (d / Int.ofNat p).toNat
    if inInstant s h g k t then some k else none

/-- Classify a frame descriptor (R347, R348). -/
def classify (s : State) (h g slot : Nat) (d : Nat) : State :=
  let pg := pgINP h
  let ptp : Int := Int.ofNat (bits d 79 32 * 10 ^ 9 + bits d 31 0)
  let diff := ptp - Int.ofNat (ptpLatched s h)
  let t := Int.ofNat (herdTime s / 256 * 256) + diff / 4
  let x := getGroup s h g
  if !d.testBit 80 || bits d 95 81 != 0 || bits d 191 176 != 0 || bits d 255 224 != 0 || diff.natAbs > 2 ^ 30 then
    bump s pg 15
  else
    match nearestInstant s h g t with
    | none => bump s pg 15
    | some k =>
      if k < x.next then bump (putGroup s h g { x with late := min (x.late + 1) 0xFF }) pg 14
      else if x.next + 2 < k then bump s pg 15
      else
        let fr : HeldFrame := ⟨bits d 175 128, bits d 223 192, bits d 127 96, t - Int.ofNat (instantAt s h g k)⟩
        let keep := match mget x.held (k * 8 + slot) with
          | none => true
          | some o => fr.dt.natAbs < o.dt.natAbs || (fr.dt.natAbs == o.dt.natAbs && fr.seq < o.seq)
        if keep then putGroup s h g { x with held := mput x.held (k * 8 + slot) fr } else s

/-- Read and classify the new descriptors of a source, below the tally sampled at this edge (R347), up to one that the move
filter holds (R251). -/
def sourceRead (s : State) (h src : Nat) : State :=
  let pg := pgINP h
  let g := fgeti s pg F.SRC_CFG_GROUP src
  let next := fgeti s pg F.SRC_NEXT_NEXT src
  let top := (getTally s (fgeti s pg F.SRC_CFG_CTX src) (fgeti s pg F.SRC_CFG_TALLY src)).val.toNat % 2 ^ 32
  let left := (top + 2 ^ 32 - next) % 2 ^ 32
  let base := fgeti s pg F.SRC_RING_LO_BASE_LO src * 32 + fgeti s pg F.SRC_RING_HI_BASE_HI src * 2 ^ 32
  let size := 2 ^ fgeti s pg F.SRC_RING_HI_LOG2 src
  let entry (i : Nat) : Nat := base + (next + i) % size * 32
  let is := (List.range left).takeWhile fun i => !busWaits s (entry i) 32
  let s := is.foldl (fun s i =>
    let rd := busRead s (entry i) 32 false
    if rd.2.2 then bump rd.1 pg 15 else classify rd.1 h g (fgeti rd.1 pg F.SRC_CFG_SLOT src) (leNat rd.2.1)) s
  fputi s pg F.SRC_NEXT_NEXT src ((next + is.length) % 2 ^ 32)

def execSourceDescriptorRead (host source : Nat) (s : State) : Out :=
  .next (if host < 2 ∧ source < 64 ∧ fbiti s (pgINP host) F.SRC_CFG_ENABLE source then sourceRead s host source else s)

/-- The fused record of instant k (R349). -/
def fusedRecord (s : State) (h g k : Nat) : List Byte :=
  let x := getGroup s h g
  let slot (j : Nat) : Option HeldFrame := mget x.held (k * 8 + j)
  let present := (List.range 8).foldl (fun m j => m + bitN (slot j).isSome * 2 ^ j) 0
  let entry (j : Nat) : List Byte :=
    match slot j with
    | none => List.replicate 28 0
    | some f => leBytes 8 f.addr ++ leBytes 4 f.len ++ leBytes 4 f.seq ++ leBytes 12 (ofSigned 32 f.dt)
  leBytes 8 k ++ leBytes 8 (instantAt s h g k) ++ [BitVec.ofNat 8 present, BitVec.ofNat 8 x.late]
    ++ List.replicate 14 0 ++ (List.range 8).flatMap entry

/-- Every enabled source of a group has read its descriptors below its tally: an edge's closing comes after its reads
(R347). -/
def sourcesRead (s : State) (h g : Nat) : Bool :=
  let pg := pgINP h
  (List.range 64).all fun x =>
    !fbiti s pg F.SRC_CFG_ENABLE x || fgeti s pg F.SRC_CFG_GROUP x != g ||
      (getTally s (fgeti s pg F.SRC_CFG_CTX x) (fgeti s pg F.SRC_CFG_TALLY x)).val.toNat % 2 ^ 32
        == fgeti s pg F.SRC_NEXT_NEXT x

/-- Close the oldest open instant of a group when its edge has come and its sources are read (R347, R349). -/
def instantClose (s : State) (h g : Nat) : State :=
  let x := getGroup s h g
  let k := x.next
  let pg := pgINP h
  if !fbiti s pg F.GRP_CFG_ENABLE g || herdTime s < closeAt s h g k || !sourcesRead s h g then s
  else
    let base := fgeti s pg F.GRP_OUT_LO_BASE_LO g * 256 + fgeti s pg F.GRP_OUT_HI_BASE_HI g * 2 ^ 32
    let pa := base + k % 2 ^ fgeti s pg F.GRP_CFG_LOG2 g * 256
    if busWaits s pa 256 then s
    else
      let s := if busDown s pa 256 then s else (busWrite s pa (fusedRecord s h g k) false false).1
      let s := putGroup s h g { x with next := k + 1, late := 0, held := mkeep x.held (fun key => key / 8 != k) }
      tallyAdd s (fgeti s pg F.GRP_CFG_CTX g) (fgeti s pg F.GRP_CFG_TALLY g) 1

def execInstantClose (host group : Nat) (s : State) : Out :=
  .next (if host < 2 ∧ group < 8 then instantClose s host group else s)

/-- The checks of a group (R350). -/
def groupOk (s : State) (h g : Nat) : Bool :=
  let pg := pgINP h
  let f := fgeti s pg F.GRP_CFG_FOLD g
  let base := fgeti s pg F.GRP_OUT_LO_BASE_LO g * 256 + fgeti s pg F.GRP_OUT_HI_BASE_HI g * 2 ^ 32
  inRegions s f base (base + 2 ^ fgeti s pg F.GRP_CFG_LOG2 g * 256) &&
    ctxFold s (fgeti s pg F.GRP_CFG_CTX g) == some f && grpPeriod s h g != 0 &&
    grpHalf s h g * 2 ≤ grpPeriod s h g * 256

/-- The first instant that has not closed by now. -/
def firstOpen (s : State) (h g : Nat) : Nat :=
  let c0 := closeAt s h g 0
  if herdTime s < c0 then 0
  else
    let p := grpPeriod s h g * 256
    if p = 0 then 0 else (herdTime s - c0) / p + 1

/-- A write of GRP_CFG (R350): the entry's fold is fixed unless SYSTEM writes. -/
def groupWrite (s : State) (h g v : Nat) (sys : Bool) : State :=
  let pg := pgINP h
  let was := fbiti s pg F.GRP_CFG_ENABLE g
  let s := fputi s pg F.GRP_CFG_ENABLE g 0
  let s := if sys then fputi s pg F.GRP_CFG_FOLD g (bits v 4 1) else s
  let s := fputi (fputi s pg F.GRP_CFG_CTX g (bits v 13 5)) pg F.GRP_CFG_TALLY g (bits v 19 14)
  let s := fputi s pg F.GRP_CFG_LOG2 g (bits v 23 20)
  if !v.testBit 0 then s
  else if groupOk s h g then
    let s := fputi s pg F.GRP_CFG_ENABLE g 1
    if was then s else putGroup s h g { next := firstOpen s h g }
  else inpRefuse s h 2

def execGroupEnable (src : Src) (host group : Nat) (value : BitVec 32) (s : State) : Out :=
  .next (if host < 2 ∧ group < 8 then
    withEntry s src (fgeti s (pgINP host) F.GRP_CFG_FOLD group) fun sys s => groupWrite s host group value.toNat sys
  else s)

/-- The checks of a source (R350). -/
def sourceOk (s : State) (h x : Nat) : Bool :=
  let pg := pgINP h
  let f := fgeti s pg F.SRC_CFG_FOLD x
  let g := fgeti s pg F.SRC_CFG_GROUP x
  let base := fgeti s pg F.SRC_RING_LO_BASE_LO x * 32 + fgeti s pg F.SRC_RING_HI_BASE_HI x * 2 ^ 32
  inRegions s f base (base + 2 ^ fgeti s pg F.SRC_RING_HI_LOG2 x * 32) &&
    ctxFold s (fgeti s pg F.SRC_CFG_CTX x) == some f && fbiti s pg F.GRP_CFG_ENABLE g &&
    fgeti s pg F.GRP_CFG_FOLD g == f

/-- A write of SRC_CFG (R350). -/
def sourceWrite (s : State) (h x v : Nat) (sys : Bool) : State :=
  let pg := pgINP h
  let s := fputi s pg F.SRC_CFG_ENABLE x 0
  let s := if sys then fputi s pg F.SRC_CFG_FOLD x (bits v 4 1) else s
  let s := fputi (fputi s pg F.SRC_CFG_GROUP x (bits v 7 5)) pg F.SRC_CFG_SLOT x (bits v 10 8)
  let s := fputi (fputi s pg F.SRC_CFG_CTX x (bits v 19 11)) pg F.SRC_CFG_TALLY x (bits v 25 20)
  if !v.testBit 0 then s
  else if sourceOk s h x then fputi s pg F.SRC_CFG_ENABLE x 1
  else inpRefuse s h 1

def execSourceEnable (src : Src) (host source : Nat) (value : BitVec 32) (s : State) : Out :=
  .next (if host < 2 ∧ source < 64 then
    withEntry s src (fgeti s (pgINP host) F.SRC_CFG_FOLD source) fun sys s => sourceWrite s host source value.toNat sys
  else s)

/-! ## Resets (R345) -/

/-- A fold reset stops the fold's ring on both dies: its jobs complete with FOLD_RESET, and its sources and
groups are disabled. -/
def inpFoldReset (s : State) (f : Nat) : State :=
  (List.range 2).foldl (fun s h =>
    let pg := pgINP h
    let s := fputi s pg F.RCFG_ENABLE f 0
    let r := getRing s h f
    let s := putRing s h f { r with jobs := r.jobs.map fun j =>
      if j.res.isSome then j else endJob s j (resOf (stFOLDRESET :: jobCodes j)) }
    let s := postRing s h f
    let s := (List.range 64).foldl (fun s x =>
      if fgeti s pg F.SRC_CFG_FOLD x == f then fputi s pg F.SRC_CFG_ENABLE x 0 else s) s
    (List.range 8).foldl (fun s g =>
      if fgeti s pg F.GRP_CFG_FOLD g == f then fputi s pg F.GRP_CFG_ENABLE g 0 else s) s) s

/-- A page's registers and counters return to their reset values. -/
def resetPage (s : State) (page : Nat) : State :=
  { s with
    regs := mkeep s.regs (fun k => k / 32768 != page)
    cnt := mkeep s.cnt (fun k => k / 16 != page)
    latch := mkeep s.latch (fun k => k / 16 != page)
    pairHeld := mkeep s.pairHeld (fun k => k / 1024 != page)
    pairLatch := mkeep s.pairLatch (fun k => k / 1024 != page) }

/-- A host-die reset returns the die's input page to its reset values, and its jobs in flight are lost (R345). -/
def inpHostReset (s : State) (h : Nat) : State :=
  let i := s.inp
  let s := { s with inp := { i with
    rings := mkeep i.rings (fun k => k / 16 != h), groups := mkeep i.groups (fun k => k / 8 != h) } }
  resetPage s (pgINP h)

/-- A write of HOSTD_CTL.RESET under SYSTEM authority resets a host die (R315). -/
def execHostdReset (src : Src) (host : Nat) (s : State) : Out :=
  .next (if host < 2 then withSys s src fun s => inpHostReset (hostReset s host) host else s)

/-- A host die's monitor-level watchdog expires (R315). -/
def execMonitorWatchdog (host : Nat) (s : State) : Out :=
  .next (if host < 2 then inpHostReset (hostReset s host) host else s)

end Sys2Proof.Machine
end

