-- ==== Sys2Proof/Machine/Fabric.lean ====
section
/-! DEFINITION. The Nareg fabric: flits, retry and credits (R356 to R358), lanes and ports (R359, R360), routing
(R361 to R367), and remote-window requests and their transport (R255, R256, R369, R370, R586). -/

namespace Sys2Proof.Machine

open Sys2Proof

def getPort (s : State) (p : Nat) : PortSt := mgetD s.fab.ports p {}

def putFab (s : State) (f : FabSt → FabSt) : State := { s with fab := f s.fab }

def putPort (s : State) (p : Nat) (x : PortSt) : State := putFab s fun f => { f with ports := mput f.ports p x }

def portUp (s : State) (p : Nat) : Bool := fbit s (pgNP p) F.NP_STS_UP

/-! ## Flits (R356) -/

def ftLINK : Nat := 1
def ftREQ : Nat := 2
def ftRSP : Nat := 3
def ftCOL : Nat := 4

/-- A flit of a numbered class. -/
def numbered (f : Flit) : Bool := f.ftype == ftREQ || f.ftype == ftRSP || f.ftype == ftCOL

/-- A LINK flit. -/
def linkFlit (op lack vc credits : Nat) : Flit :=
  { ftype := ftLINK, vc := 0, data := false, poison := false, lag := false, lseq := 0, lack := lack, crdtVc := vc,
    crdt := credits, dstPkg := 0, srcPkg := 0, srcFold := 0, detour := false, op := op, tid := 0, operand := 0,
    viaPkg := 0, viaDone := false, payload := [] }

def flitBytes (f : Flit) : Nat := if f.data then 288 else 32

/-- LSEQ of the last flit accepted (R356). -/
def lastGood (x : PortSt) : Nat := (x.rxNext + 4095) % 4096

/-! ## Coordinates and routing (R361 to R365) -/

def selfPkg (s : State) : Nat := fget s pgFAB F.FAB_COORD_COORD

/-- Coordinate a of a package number, or of a packed extent or shape. -/
def coordOf (pkg a : Nat) : Nat :=
  match a with
  | 0 => pkg % 8 | 1 => pkg / 8 % 16 | 2 => pkg / 128 % 16 | _ => pkg / 2048 % 16

def packCoord (c : Nat → Nat) : Nat := c 0 % 8 + c 1 % 16 * 8 + c 2 % 16 * 128 + c 3 % 16 * 2048

def extentOf (s : State) (a : Nat) : Nat := coordOf (fget s pgFAB F.FAB_SHAPE_EXTENT) a + 1
def wraps (s : State) (a : Nat) : Bool := (fget s pgFAB F.FAB_SHAPE_WRAP).testBit a

/-- δ of R362, and whether the minimal way to coordinate `d` runs in the + direction. -/
def minimalPlus (s : State) (a c d : Nat) : Bool :=
  let e := extentOf s a
  let dl := (d + e - c) % e
  if wraps s a then dl ≤ e - dl else c < d

/-- A pair of ports is down (R360, R394). -/
def pairDown (s : State) (pair : Nat) : Bool := (fget s pgFAB F.FAB_LINK_DOWN).testBit pair

/-- The first axis on which two packages differ. -/
def firstAxis (me d : Nat) : Option Nat := (List.range 4).find? fun a => coordOf me a != coordOf d a

/-- The hop from coordinate `c` in the given direction crosses the wrap link. -/
def crossesWrap (s : State) (a c : Nat) (plus : Bool) : Bool :=
  if plus then c + 1 == extentOf s a else c == 0

/-- Set and dateline of a VC (R363). -/
def vcSet (vc : Nat) : Nat := vc / 2 % 4
def mkVc (cls set line : Nat) : Nat := cls * 8 + set * 2 + line

/-- Where the flit is going now: its intermediate package while it is on set 1 (R365). -/
def flitTarget (f : Flit) : Nat := if vcSet f.vc = 1 && !f.viaDone then f.viaPkg else f.dstPkg

/-- The next pair and the flit as it leaves (R362 to R364), from its arrival port if it came through one; none
when it is discarded. -/
def nextPair (s : State) (f : Flit) (inPort : Option Nat) : Option (Nat × Flit × Bool) :=
  let me := selfPkg s
  let cls := f.vc / 8
  let came : Option (Nat × Bool) := inPort.map fun p => (p / 4, p % 4 / 2 == 1)
  let hop (f : Flit) (set a : Nat) (plus : Bool) : Nat × Flit :=
    let c := coordOf me a
    let line := match came with
      | some (b, _) => if b = a then f.vc % 2 else 0
      | none => 0
    let line := if crossesWrap s a c plus then 1 else line
    (2 * a + (if plus then 0 else 1), { f with vc := mkVc cls set line })
  let set := vcSet f.vc
  match firstAxis me (flitTarget f) with
  | none => none
  | some a =>
    let min := minimalPlus s a (coordOf me a) (coordOf (flitTarget f) a)
    let plus := match came with
      | some (b, p) => if set = 2 && b = a then p else min
      | none => min
    let h := hop f set a plus
    if !pairDown s h.1 then some (h.1, h.2, false)
    else if set = 2 || !fbit s pgFAB F.FAB_ROUTE_DETOUR_EN then none
    else
      match firstAxis me f.dstPkg with
      | none => none
      | some a =>
        let plus := minimalPlus s a (coordOf me a) (coordOf f.dstPkg a)
        let h := hop { f with viaDone := f.viaDone || set == 1 } 0 a plus
        if !pairDown s h.1 then some (h.1, h.2, false)
        else if !wraps s a then none
        else
          let g := hop { f with detour := true, viaDone := f.viaDone || set == 1 } 2 a (!plus)
          if pairDown s g.1 then none else some (g.1, g.2, true)

/-- Credits of a VC that the transmitter may use: 16 of its own, and its part of the 1,760 shared (R358). -/
def freeCredits (x : PortSt) (vc : Nat) : Nat :=
  let shared := (x.used.map fun e => e.2 - 16).foldl (· + ·) 0
  16 - mgetD x.used vc 0 + (1760 - shared)

/-- The port of a pair (R362): the one with more free credits, the lower on a tie. -/
def pickPort (s : State) (pair vc : Nat) : Option Nat :=
  let p := pair / 2 * 4 + pair % 2 * 2
  let down (p : Nat) : Bool := fbit s (pgNP p) F.NP_STS_DOWN
  if down p && down (p + 1) then none
  else if down p then some (p + 1)
  else if down (p + 1) then some p
  else if freeCredits (getPort s p) vc < freeCredits (getPort s (p + 1)) vc then some (p + 1) else some p

/-- Send a flit toward its destination from this package, or discard and count it (R364). -/
def routeFlit (s : State) (f : Flit) (inPort : Option Nat) : State :=
  match nextPair s f inPort with
  | none => bump s pgFAB 3
  | some (pair, g, det) =>
    let s := if det then bump s pgFAB 2 else s
    match pickPort s pair g.vc with
    | none => bump s pgFAB 3
    | some p =>
      let x := getPort s p
      match inPort with
      | some _ => putPort s p { x with transit := x.transit ++ [g] }
      | none => putPort s p { x with loc := x.loc ++ [g] }

/-- The intermediate package of a spread flit (R365): each coordinate drawn on a minimal path. -/
def drawVia (s : State) (dst : Nat) : Nat × State :=
  let me := selfPkg s
  let d := drawFree s
  let c (a : Nat) : Nat :=
    let e := extentOf s a
    let plus := minimalPlus s a (coordOf me a) (coordOf dst a)
    let dist := if plus then (coordOf dst a + e - coordOf me a) % e else (coordOf me a + e - coordOf dst a) % e
    let k := Config.freeVia d.1 a % (dist + 1)
    if plus then (coordOf me a + k) % e else (coordOf me a + e - k) % e
  (packCoord c, d.2)

/-- A flit of this package's own is sent through an intermediate package (R365). -/
def goesSpread (s : State) (f : Flit) (spread : Bool) : Bool :=
  spread && fbit s pgFAB F.FAB_ROUTE_SPREAD_EN && f.ftype != ftRSP

/-- A flit of this package's own as it starts: on set 1 towards its intermediate package, or on set 0 (R363, R365). -/
def flitStart (s : State) (f : Flit) (spread : Bool) : Flit :=
  let cls := f.ftype - 2
  if goesSpread s f spread then
    let via := (drawVia s f.dstPkg).1
    if via = selfPkg s then { f with vc := mkVc cls 0 0, viaPkg := via, viaDone := true }
    else { f with vc := mkVc cls 1 0, viaPkg := via, viaDone := false }
  else { f with vc := mkVc cls 0 0 }

/-- Send a flit of this package's own (R363, R365). -/
def sendFlit (s : State) (f : Flit) (spread : Bool) : State :=
  routeFlit (if goesSpread s f spread then bump (drawVia s f.dstPkg).2 pgFAB 4 else s) (flitStart s f spread) none

/-! ## Transmission (R357, R358, R367) -/

/-- Note that a flit has gone: its counters, the replay buffer and the credit it uses. -/
def sent (s : State) (p : Nat) (f : Flit) (again : Bool) : State :=
  let x := getPort s p
  let c := x.owed.find? fun e => e.2 != 0
  let f := { f with lack := lastGood x }
  let f := match c with
    | some (vc, n) => { f with crdtVc := vc, crdt := min n 127 }
    | none => { f with crdtVc := 0, crdt := 0 }
  let x := match c with
    | some (vc, n) => { x with owed := mput x.owed vc (n - min n 127) }
    | none => x
  let x := if numbered f && !again then
      { x with replay := x.replay ++ [f], txSeq := (x.txSeq + 1) % 4096, used := mput x.used f.vc (mgetD x.used f.vc 0 + 1) }
    else x
  let s := bump (putPort s p x) (pgNP p) 0
  let s := if f.data then bump s (pgNP p) 2 else s
  emit (if again then bump s (pgNP p) 5 else s) (.flit p f)

/-- A numbered flit may go: the replay buffer has room and its VC a credit (R357, R358). -/
def mayGo (x : PortSt) (f : Flit) : Bool := x.replay.length < 2048 && 0 < freeCredits x f.vc

/-- The local flit that the fold arbitration picks: the first of the chosen fold that may go (R367). -/
def pickLocal (s : State) (p : Nat) (x : PortSt) : Option (Flit × Arb) :=
  let firstOf (fold : Nat) : Option Flit := x.loc.find? fun f => f.srcFold == fold && mayGo x f
  let cands := (List.range 16).filterMap fun fold => (firstOf fold).map fun f => (fold, flitBytes f)
  match drrPick (quantum s) (mgetD s.arbs (20000 + p) {}) cands with
  | none => none
  | some (fold, a) => (firstOf fold).map fun f => (f, a)

/-- A transmit port sends its next flit (R367): LINK flits, then what is to be sent again, then transit and local
flits in turn; with nothing else and credits owed, a CREDIT flit. -/
def transmit (s : State) (p : Nat) : State :=
  let x := getPort s p
  let goTransit : Option State :=
    match x.transit.find? (mayGo x) with
    | none => none
    | some f => some (bump (sent (putPort s p { x with transit := x.transit.erase f, turn := true }) p
        { f with lseq := x.txSeq } false) (pgNP p) 10)
  let goLocal : Option State :=
    match pickLocal s p x with
    | none => none
    | some (f, a) =>
      let s := { putPort s p { x with loc := x.loc.erase f, turn := false } with arbs := mput s.arbs (20000 + p) a }
      some (sent s p { f with lseq := x.txSeq } false)
  match x.ctl with
  | f :: rest => sent (putPort s p { x with ctl := rest }) p f true
  | [] =>
    match x.resend with
    | f :: rest => sent (putPort s p { x with resend := rest }) p f true
    | [] =>
      match (if x.turn then goLocal.orElse fun _ => goTransit else goTransit.orElse fun _ => goLocal) with
      | some s' => s'
      | none =>
        if x.transit != [] || x.loc != [] then bump s (pgNP p) 9
        else if x.owed.any fun e => e.2 != 0 then sent s p (linkFlit 3 0 0 0) true else s

def execFlitTransmit (port : Nat) (s : State) : Out :=
  .next (if port < 16 ∧ portUp s port then transmit s port else s)

/-- A receiver with nothing else to send reports LACK (R357). -/
def execAckTimer (port : Nat) (s : State) : Out :=
  .next (if port < 16 ∧ portUp s port then
    let x := getPort s port
    if x.ctl != [] || x.resend != [] || x.transit != [] || x.loc != [] then s
    else sent s port (linkFlit 1 (lastGood x) 0 0) true
  else s)

/-! ## Lanes and ports (R359, R360) -/

/-- Record an error in NP_ERRLOG under its VALID rule. -/
def npLog (s : State) (p cause lane : Nat) : State :=
  let pg := pgNP p
  if fbit s pg F.NP_ERRLOG_VALID then s
  else setLogged (fput (fput (fput s pg F.NP_ERRLOG_VALID 1) pg F.NP_ERRLOG_CAUSE cause) pg F.NP_ERRLOG_LANE lane) pg

/-- The pair of a port: 2 a + direction. -/
def pairOf (p : Nat) : Nat := p / 4 * 2 + p % 4 / 2

/-- The pairs whose two ports are down. -/
def deadPairs (s : State) : Nat :=
  (List.range 8).foldl (fun m k =>
    let p := k / 2 * 4 + k % 2 * 2
    m + bitN (fbit s (pgNP p) F.NP_STS_DOWN && fbit s (pgNP (p + 1)) F.NP_STS_DOWN) * 2 ^ k) 0

/-- A port goes down until package reset (R360): its replay buffer is lost, and what waits goes by the pair's other port as
it is, or by another way, a transit flit as one that moves along the axis. -/
def portDown (s : State) (p cause lane : Nat) : State :=
  if fbit s (pgNP p) F.NP_STS_DOWN then s
  else
    let x := getPort s p
    let s := npLog (fput (fput s (pgNP p) F.NP_STS_DOWN 1) (pgNP p) F.NP_STS_UP 0) p cause lane
    let s := logFault s 0x06 cause p 0
    let s := putPort s p {}
    let k := pairOf p
    let s := if (deadPairs s).testBit k then
        let half := fget s pgFAB F.FAB_LINK_HALF
        fput (forBits s pgFAB F.FAB_LINK_DOWN (2 ^ k)) pgFAB F.FAB_LINK_HALF (half - (half &&& 2 ^ k))
      else forBits s pgFAB F.FAB_LINK_HALF (2 ^ k)
    let q := if p % 2 = 0 then p + 1 else p - 1
    if fbit s (pgNP q) F.NP_STS_DOWN then
      let came := p / 4 * 4 + (if k % 2 = 0 then 2 else 0)
      let s := x.transit.foldl (fun s f => routeFlit s f (some came)) s
      x.loc.foldl (fun s f => routeFlit s f none) s
    else
      let y := getPort s q
      putPort s q { y with transit := y.transit ++ x.transit, loc := y.loc ++ x.loc }

def execPortDown (port cause lane : Nat) (s : State) : Out :=
  .next (if port < 16 then portDown s port cause lane else s)

/-- A receiver declares a physical lane failed (R359): it asks for the spare, or the port goes down. -/
def execLaneFail (port lane cause : Nat) (s : State) : Out :=
  .next (if port < 16 ∧ lane < 9 ∧ portUp s port then
    let x := getPort s port
    let inUse := fbit s (pgNP port) F.NP_STS_SPARED || x.swap.isSome
    if inUse || (lane != 8 && x.spareLost) then portDown s port 5 lane
    else
      let s := npLog s port cause lane
      if lane = 8 then putPort s port { x with spareLost := true }
      else emit (putPort s port { x with stopped := true, swap := some lane }) (.spareReq port lane)
  else s)

/-- The peer asks for the spare: the transmitter moves the logical lane and answers (R359). -/
def execSpareReq (port lane : Nat) (s : State) : Out :=
  .next (if port < 16 ∧ lane < 8 ∧ portUp s port then
    emit (putPort s port { getPort s port with txSpare := some lane }) (.spareAck port)
  else s)

/-- SPARE_ACK arrives: the receiver begins to align the spare (R359). -/
def execSpareAck (port : Nat) (s : State) : Out :=
  .next (if port < 16 ∧ (getPort s port).swap.isSome ∧ (getPort s port).stopped then
    putPort s port { getPort s port with naking := true }
  else s)

/-- The spare is aligned: the receiver resumes with a NAK (R359). -/
def execSpareAligned (port : Nat) (s : State) : Out :=
  .next (if port < 16 then
    let x := getPort s port
    match x.swap with
    | some lane =>
      if x.stopped && x.naking then
        let s := putPort s port { x with stopped := false, swap := none, ctl := x.ctl ++ [linkFlit 2 (lastGood x) 0 0] }
        let s := fput (fput s (pgNP port) F.NP_STS_SPARED 1) (pgNP port) F.NP_STS_SPARE_LANE lane
        bump (bump s (pgNP port) 8) (pgNP port) 4
      else s
    | none => s
  else s)

/-- A write of FAB_LINK.DOWN: software retires pairs, and may take back what it retired (R394). -/
def pairRetire (s : State) (bits : Nat) : State := fput s pgFAB F.FAB_LINK_DOWN (bits ||| deadPairs s)

def execPairRetire (src : Src) (bits : BitVec 8) (s : State) : Out :=
  .next (withSys s src fun s => pairRetire s bits.toNat)

/-! ## Reception (R357) -/

/-- Release the replay buffer up to LACK, and take returned credits. -/
def takeLack (x : PortSt) (f : Flit) : PortSt :=
  let keep := x.replay.dropWhile fun g => (f.lack + 4096 - g.lseq) % 4096 < 2048
  { x with
    replay := keep
    used := if f.crdt = 0 then x.used else mput x.used f.crdtVc (mgetD x.used f.crdtVc 0 - f.crdt) }

/-- An ACK releases replay-buffer entries. -/
def ackFlit (s : State) (p : Nat) (f : Flit) : State := putPort s p (takeLack (getPort s p) f)

/-- A NAK makes the transmitter resend from the flit after LACK; a flit NAKed MAX_RETRY times in a row takes
the port down (R357). -/
def nakFlit (s : State) (p : Nat) (f : Flit) : State :=
  let x := takeLack (getPort s p) f
  let first := (x.replay.map fun g => g.lseq).head?
  let runs := if first.isSome && x.nakFlit == first then x.nakRuns + 1 else 1
  let s := putPort s p { x with resend := x.replay, nakFlit := first, nakRuns := runs }
  if first.isSome && max (fget s (pgNP p) F.NP_CFG_MAX_RETRY) 1 ≤ runs then portDown s p 4 0 else s

def execAck (port : Nat) (flit : Flit) (s : State) : Out :=
  .next (if port < 16 ∧ portUp s port then ackFlit s port flit else s)

def execNak (port : Nat) (flit : Flit) (s : State) : Out :=
  .next (if port < 16 ∧ portUp s port then nakFlit s port flit else s)

/-- Returned credits of a VC. -/
def execCredit (port vc credits : Nat) (s : State) : Out :=
  .next (if port < 16 ∧ portUp s port then
    let x := getPort s port
    putPort s port { x with used := mput x.used vc (mgetD x.used vc 0 - credits) }
  else s)

/-- Give a credit back for a flit that has left its buffer. -/
def owe (s : State) (p vc : Nat) : State :=
  let x := getPort s p
  putPort s p { x with owed := mput x.owed vc (mgetD x.owed vc 0 + 1) }

/-- The operations of each class (R369, R378). -/
def opKnown (f : Flit) : Bool :=
  match f.ftype with
  | 2 => 1 ≤ f.op && f.op ≤ 4
  | 3 => (1 ≤ f.op && f.op ≤ 3) || f.op == 8 || f.op == 9
  | _ => 1 ≤ f.op && f.op ≤ 5

/-- The flit ends here: it is at its destination and not on its way to an intermediate package. -/
def flitHere (s : State) (f : Flit) : Bool := f.dstPkg == selfPkg s && flitTarget f == selfPkg s

/-- Send a NAK that names the last good flit. -/
def sendNak (s : State) (p : Nat) : State :=
  let x := getPort s p
  bump (putPort s p { x with naking := true, ctl := x.ctl ++ [linkFlit 2 (lastGood x) 0 0] }) (pgNP p) 4

/-- A receiver takes a flit off the link (R357). -/
def receive (s : State) (p : Nat) (f : Flit) (crcOk : Bool) : State :=
  let x := getPort s p
  let s := bump s (pgNP p) 1
  if !crcOk then sendNak (bump s (pgNP p) 3) p
  else
    let s := if f.lag then bump s (pgNP p) 11 else s
    if f.ftype = ftLINK then
      if f.op = 2 then nakFlit s p f else if f.op = 1 ∨ f.op = 3 then ackFlit s p f else bump s (pgNP p) 12
    else if f.ftype = 0 then ackFlit s p f
    else if !numbered f then bump s (pgNP p) 12
    else if f.lseq ≠ x.rxNext then (if x.naking then s else sendNak s p)
    else
      let s := putPort s p { takeLack x f with rxNext := (x.rxNext + 1) % 4096, naking := false }
      if flitHere s f && !opKnown f then owe (bump s (pgNP p) 12) p f.vc
      else putFab s fun b => { b with inbox := b.inbox ++ [(p, f)] }

def execFlitReceive (port : Nat) (flit : Flit) (crcOk : Bool) (s : State) : Out :=
  .next (if port < 16 ∧ portUp s port ∧ !(getPort s port).stopped then receive s port flit crcOk else s)

/-- Take a flit out of the inbox and give its credit back. -/
def takeFlit (s : State) (p : Nat) (f : Flit) : State :=
  owe (putFab s fun b => { b with inbox := b.inbox.erase (p, f) }) p f.vc

/-- The port through which a waiting flit of this kind came, if one waits for this package. -/
def inboxPort (s : State) (f : Flit) (ftype op : Nat) : Option Nat :=
  if f.ftype = ftype ∧ f.op = op ∧ flitHere s f then (s.fab.inbox.find? fun e => e.2 == f).map (·.1) else none

/-- A flit passing through is routed on; at its intermediate package it turns to set 0 (R363, R365, R366). -/
def transitFlit (s : State) (p : Nat) (f : Flit) : State :=
  if !s.fab.inbox.contains (p, f) || flitHere s f then s
  else
    let g := if vcSet f.vc = 1 && f.viaPkg = selfPkg s then { f with vc := mkVc (f.vc / 8) 0 (f.vc % 2), viaDone := true }
      else f
    routeFlit (bump (takeFlit s p f) (pgCOLL (p / 4) (p % 4 / 2)) 8) g (some p)

def execFlitTransit (port : Nat) (flit : Flit) (s : State) : Out :=
  .next (if port < 16 then transitFlit s port flit else s)

/-! ## Remote-window requests at the receiving package (R256, R369, R586) -/

/-- What a request is answered with. -/
inductive RemoteAns where
  | data (bs : List Byte) (poison : Bool)
  | wack
  | aack (bs : List Byte) (poison : Bool)
  | refuse
  | fail (code : Nat)
  | wait
  deriving DecidableEq, Repr

/-- Bytes changed through a view: set ORs them in, clear takes them out (R171). -/
def viewApply (view : Nat) (old new : List Byte) : List Byte :=
  mapIdx (fun i b => let o := lget old i 0
    if view = 1 then o ||| b else if view = 2 then o &&& ~~~ b else b) 0 new

/-- The physical target of a request, and its fold, if every check of R256 passes. -/
def importCheck (s : State) (r : RemoteReq) : Option (Nat × Nat) :=
  let i := r.imp % 128
  let n := accLen r.len (match r.atom with | some a => some (List.replicate a.2.1 0) | none => r.write)
  let f := fgeti s pgWIN F.WIN_IN_TGT_FOLD i
  let len := (fgeti s pgWIN F.WIN_IN_LENGTH i + 1) * 4096
  let pa := (fgeti s pgWIN F.WIN_IN_PBASE_LO i + fgeti s pgWIN F.WIN_IN_PBASE_HI i * 2 ^ 32) * 4096 + r.off
  let typ :=
    match r.atom, r.write with
    | some _, _ => fbiti s pgWIN F.WIN_IN_WR i && fbiti s pgWIN F.WIN_IN_ATOM i
    | none, some _ => fbiti s pgWIN F.WIN_IN_WR i && (r.view == 0 || fbiti s pgWIN F.WIN_IN_ATOM i)
    | none, none => fbiti s pgWIN F.WIN_IN_RD i
  if fbiti s pgWIN F.WIN_IN_ENABLE i && fgeti s pgWIN F.WIN_IN_SRC_PKG i == r.srcPkg &&
      fgeti s pgWIN F.WIN_IN_SRC_FOLD i == r.srcFold && r.off + n ≤ len && typ &&
      inPlainRegions s f pa (pa + max n 1) && foldActive s f && !fbit s (pgFOLD f) F.FOLD_STS_RESETTING && !fenced s f then
    some (pa, f)
  else none

/-- Perform a request of another package, or say why not (R256, R586). -/
def remoteServe (s : State) (r : RemoteReq) : State × RemoteAns :=
  match importCheck s r with
  | none => (bump s pgWIN 1, .refuse)
  | some (pa, _) =>
    let n := match r.atom, r.write with
      | some a, _ => a.2.1
      | none, some bs => bs.length
      | none, none => r.len
    if !busPlain s pa n then (s, .fail stHOLE)
    else if busDown s pa n then (s, .fail stTIER)
    else if busWaits s pa n then (s, .wait)
    else
      let s := bump s pgWIN 0
      match r.atom, r.write with
      | some (op, size, operands), _ =>
        if atomOk pa op size then
          let a := busAtomic s pa op size { bytes := operands, poison := r.poison }
          (a.1, .aack a.2.1 a.2.2)
        else (s, .fail stHOLE)
      | none, some bs =>
        match regionOf s pa with
        | .spad _ _ => ((busWrite s pa bs r.poison false { view := r.view }).1, .wack)
        | _ =>
          let bs := if r.view = 0 then bs else viewApply r.view ((List.range n).map fun i => curByte s (pa + i)) bs
          ((busWrite s pa bs r.poison false).1, .wack)
      | none, none =>
        let a := busRead s pa n false
        (a.1, .data a.2.1 a.2.2)

/-- The answer as this package's response on its port. -/
def ansResp (a : RemoteAns) : Resp :=
  match a with
  | .data bs p => { data := bs, poison := p }
  | .wack => {}
  | .aack bs p => { data := bs, poison := p }
  | .refuse => { code := stWINDOW }
  | .fail c => { code := c }
  | .wait => {}

/-- A request arrives at the receiving package and is checked and performed or refused. -/
def execRemoteRequestArrive (req : RemoteReq) (s : State) : Out :=
  .next (match remoteServe s req with
    | (_, .wait) => s
    | (s', a) => { s' with resp := ansResp a })

/-- The response flit to a request. -/
def respFlit (s : State) (f : Flit) (a : RemoteAns) : Flit :=
  let base : Flit := { f with
    ftype := ftRSP, vc := mkVc 1 0 0, lag := false, lseq := 0, dstPkg := f.srcPkg, srcPkg := selfPkg s, detour := false
    poison := false, operand := 0, viaPkg := 0, viaDone := false, data := false, payload := [] }
  match a with
  | .data bs p => { base with op := 1, data := true, payload := bs, poison := p }
  | .wack => { base with op := 2 }
  | .aack bs p => { base with op := 3, data := true, payload := bs, poison := p }
  | .refuse => { base with op := 8 }
  | .fail c => { base with op := 9, operand := c }
  | .wait => base

/-- The request a REQ flit carries (R369). ATOM takes its place and size as WRPART does (notes/assumptions/30.md). -/
def flitReq (f : Flit) : RemoteReq :=
  let off := bits f.operand 39 8 * 256
  let first := bits f.operand 47 40
  let len := bits f.operand 55 48 + 1
  let op := atomOfCode (bits f.operand 63 58)
  { srcPkg := f.srcPkg, srcFold := f.srcFold, tid := f.tid, imp := bits f.operand 6 0
    off := if f.op = 3 ∨ f.op = 4 then off + first else off
    len := 256
    view := if f.op = 2 ∨ f.op = 3 then bits f.operand 57 56 else 0
    write := if f.op = 2 then some (slice f.payload 0 256)
      else if f.op = 3 then some (slice f.payload first (min len (256 - first))) else none
    atom := if f.op = 4 then some (op, len, f.payload) else none
    poison := f.poison }
where
  /-- The atomic operation of a code, in the order of R280. -/
  atomOfCode (c : Nat) : AtomOp :=
    match c with
    | 0 => .add | 1 => .fadd | 2 => .and | 3 => .or | 4 => .xor | 5 => .minS | 6 => .minU | 7 => .maxS
    | 8 => .maxU | 9 => .swap | _ => .cas

def atomKey (srcPkg tid : Nat) : Nat := srcPkg * 2 ^ 32 + tid

/-- A request flit of the inbox, or one held for a move, is performed and answered (R369, R370). -/
def serveFlit (s : State) (f : Flit) (op : Nat) : State :=
  let port := (inboxPort s f ftREQ op).orElse fun _ => (s.fab.held.find? fun e => e.2.1 == f && f.op == op).map (·.1)
  match port with
  | none => s
  | some p =>
    let wasHeld := s.fab.held.any fun e => e.2.1 == f
    let drop (s : State) : State :=
      if wasHeld then putFab s fun b => { b with held := b.held.filter fun e => e.2.1 != f } else takeFlit s p f
    let k := atomKey f.srcPkg f.tid
    match (if op = 4 then mget s.fab.atoms k else none) with
    | some g => sendFlit (bump (drop s) pgFAB 1) g false
    | none =>
      if op = 4 && 4096 ≤ s.fab.atoms.length then s
      else
        match remoteServe s (flitReq f) with
        | (_, .wait) =>
          if wasHeld then s
          else
            let fold := fgeti s pgWIN F.WIN_IN_TGT_FOLD (bits f.operand 6 0)
            putFab (takeFlit s p f) fun b => { b with held := b.held ++ [(p, f, fold)] }
        | (s', a) =>
          let g := respFlit s' f a
          let s' := if op = 4 then putFab s' fun b => { b with atoms := mput b.atoms k g } else s'
          sendFlit (drop s') g false

def execRd (flit : Flit) (s : State) : Out := .next (serveFlit s flit 1)
def execWr (flit : Flit) (s : State) : Out := .next (serveFlit s flit 2)
def execWrpartFlit (flit : Flit) (s : State) : Out := .next (serveFlit s flit 3)
def execAtom (flit : Flit) (s : State) : Out := .next (serveFlit s flit 4)

/-- An ATOM result has been kept for 1 ms (R370). -/
def execAtomTableExpire (srcPkg tid : Nat) (s : State) : Out :=
  .next (putFab s fun b => { b with atoms := mdel b.atoms (atomKey srcPkg tid) })

/-- A tier F access for an inbound request of the tile's ports gets no answer in time: the request is answered with
FAIL and TIER_ERROR, which a repeat of an ATOM is answered with too (R576, R586, R370). -/
def remoteTimeout (s : State) (t : Nat) : State :=
  let waits (p : Nat) (f : Flit) : Bool := p / 4 == t && f.ftype == ftREQ && (match importCheck s (flitReq f) with
    | some (pa, _) => tierOfAddr pa == 1 && !(f.op == 4 && (mget s.fab.atoms (atomKey f.srcPkg f.tid)).isSome)
    | none => false)
  let answer (s : State) (f : Flit) : State :=
    let g := respFlit s f (.fail stTIER)
    sendFlit (if f.op = 4 then putFab s fun b => { b with atoms := mput b.atoms (atomKey f.srcPkg f.tid) g } else s) g false
  match s.fab.held.find? fun e => waits e.1 e.2.1 with
  | some e => answer (putFab s fun b => { b with held := b.held.erase e }) e.2.1
  | none => match s.fab.inbox.find? fun e => flitHere s e.2 && waits e.1 e.2 with
    | some e => answer (takeFlit s e.1 e.2) e.2
    | none => s

/-- A fold reset: the requests it held are answered with FAIL (R586), and its windows and imports are disabled
(R257). -/
def windowsFoldReset (s : State) (f : Nat) : State :=
  let mine := s.fab.held.filter fun e => e.2.2 == f
  let s := putFab s fun b => { b with held := b.held.filter fun e => e.2.2 != f }
  let s := mine.foldl (fun s e => sendFlit s (respFlit s e.2.1 (.fail stFOLDRESET)) false) s
  let s := (setBitsOf 64 (foldWindows s f)).foldl (fun s w => fputi s pgWIN F.WIN_OUT_ENABLE w 0) s
  (List.range 128).foldl (fun s i =>
    if fgeti s pgWIN F.WIN_IN_TGT_FOLD i == f then fputi s pgWIN F.WIN_IN_ENABLE i 0 else s) s

/-! ## Requests of server cores and controllers through a window (R255, R296, R370) -/

/-- Record a host-access error of a core (R296, R320), or answer a controller's access with the code. -/
def hostErr (s : State) (src : Src) (synd : Nat) (async : Bool) (pa : Nat) : State :=
  match src with
  | .core h n _ =>
    let pg := pgHOSTD h
    let s := bump s pg (if async then 1 else 0)
    let s := if synd = 3 then bump s pg 2 else if synd = 4 then bump s pg 3 else s
    let s := { s with resp := { code := synd } }
    if fbit s pg F.HOSTD_ERRLOG_VALID then s
    else
      let s := fput (fput (fput s pg F.HOSTD_ERRLOG_VALID 1) pg F.HOSTD_ERRLOG_SYND synd) pg F.HOSTD_ERRLOG_CORE n
      let s := fput (fputb s pg F.HOSTD_ERRLOG_ASYNC async) pg F.HOSTD_ERRADDR_LO_ADDR_LO (pa % 2 ^ 32)
      setLogged (fput s pg F.HOSTD_ERRADDR_HI_ADDR_HI (pa / 2 ^ 32)) pg
  | _ => { s with resp := { code := synd } }

/-- Send a request through window w (R255): a read of a line, or a write of part of one. -/
def windowRequest (s : State) (src : Src) (fold pa w off len : Nat) (write : Option (List Byte)) : State :=
  let tid := s.fab.nextTid % 2 ^ 32
  let f : Flit := { linkFlit 0 0 0 0 with
    ftype := ftREQ, dstPkg := fgeti s pgWIN F.WIN_OUT_TGT_PKG w, srcPkg := selfPkg s, srcFold := fold, tid := tid
    op := if write.isSome then 3 else 1, data := write.isSome
    payload := match write with | some bs => slice (List.replicate (off % 256) 0 ++ bs) 0 256 | none => []
    operand := fgeti s pgWIN F.WIN_OUT_TGT_IMPORT w + off / 256 * 2 ^ 8
      + (match write with | some bs => off % 256 * 2 ^ 40 + (bs.length - 1) * 2 ^ 48 | none => 0) }
  let o : Outst := { flit := f, src := src, pa := pa, load := write.isNone, off := off % 256, len := len }
  let s := putFab (bump s pgWIN 2) fun b => { b with nextTid := b.nextTid + 1, reqs := mput b.reqs tid o }
  sendFlit s f false

/-- A response flit of the inbox meets its request; one whose request has ended is discarded and counted (R226,
R394). -/
def response (s : State) (f : Flit) (op : Nat) (go : State → Outst → State) : State :=
  match inboxPort s f ftRSP op with
  | none => s
  | some p =>
    let s := takeFlit s p f
    match mget s.fab.reqs f.tid with
    | none => lateReset (bump s pgFAB 13) (lateWindow f.tid)
    | some o => go (putFab s fun b => { b with reqs := mdel b.reqs f.tid }) o

def execRdata (flit : Flit) (s : State) : Out :=
  .next (response s flit 1 fun s o =>
    if flit.poison then hostErr s o.src 3 false o.pa
    else { s with resp := { data := slice flit.payload o.off o.len } })

def execWack (flit : Flit) (s : State) : Out := .next (response s flit 2 fun s _ => { s with resp := {} })

def execAack (flit : Flit) (s : State) : Out :=
  .next (response s flit 3 fun s _ => { s with resp := { data := flit.payload, poison := flit.poison } })

def execRefuse (flit : Flit) (s : State) : Out := .next (response s flit 8 fun s o => hostErr s o.src 6 (!o.load) o.pa)

def execFail (flit : Flit) (s : State) : Out := .next (response s flit 9 fun s o => hostErr s o.src 9 (!o.load) o.pa)

/-- A request without response is sent again with the same TID, up to XRETRY times (R370). -/
def execReqResendTimeout (tid : Nat) (s : State) : Out :=
  .next (match mget s.fab.reqs tid with
    | none => s
    | some o =>
      if fget s pgFAB F.FAB_XPORT_XRETRY ≤ o.tries then s
      else
        let s := putFab s fun b => { b with reqs := mput b.reqs tid { o with tries := o.tries + 1 } }
        sendFlit (bump s pgFAB 0) o.flit false)

end Sys2Proof.Machine
end

