-- ==== Sys2Proof/Machine/Collective.lean ====
section
/-! DEFINITION. Collectives (R376 to R392): teams, acceptance, exact partial records on the wire, the rings of a
reduction, gathers, all-to-all, chunks with their acknowledgements, laggards, deadlines and aborts. The numbers of
phases and chunks, the places of shards and the wire form of a shard's status are the model's own
(notes/assumptions/31.md). -/

namespace Sys2Proof.Machine

open Sys2Proof

/-! ## Teams (R376, R377) -/

def teamOrigin (s : State) (t a : Nat) : Nat := coordOf (fgeti s pgFAB F.FAB_TEAM_ORIGIN t) a
def teamExtent (s : State) (t a : Nat) : Nat := coordOf (fgeti s pgFAB F.FAB_TEAM_EXTENT t) a + 1

/-- This package's coordinate within the team's box on axis a; none outside the box. -/
def teamRel (s : State) (t a : Nat) : Option Nat :=
  let e := extentOf s a
  let r := (coordOf (selfPkg s) a + e - teamOrigin s t a) % e
  if r < teamExtent s t a then some r else none

/-- The first failing check of R377. -/
def teamCheck (s : State) (t : Nat) : Option Nat :=
  let ax := List.range 4
  let f := fgeti s pgFAB F.FAB_TEAM_FOLD t
  if ax.any fun a => (teamRel s t a).isNone then some 1
  else if ax.any fun a => extentOf s a < teamExtent s t a || extentOf s a ≤ teamOrigin s t a ||
      (extentOf s a < teamOrigin s t a + teamExtent s t a && !wraps s a) then some 2
  else if !foldActive s f then some 3
  else if (List.range 64).any fun u => u != t && fbiti s pgFAB F.FAB_TEAM_ENABLE u &&
      fgeti s pgFAB F.FAB_TEAM_TEAM_ID u == fgeti s pgFAB F.FAB_TEAM_TEAM_ID t then some 4
  else none

/-- A write to a covered field is held while an epoch switch is pending (R507). -/
def holdCovered (s : State) (page off v mask : Nat) : State :=
  { s with herd := { s.herd with held := s.herd.held ++ [(page, off, v, mask)] } }

/-- A write of a team entry's first word (R377). -/
def teamWrite (s : State) (t v : Nat) (sys : Bool) : State :=
  let s := fputi s pgFAB F.FAB_TEAM_ENABLE t 0
  let s := if sys then fputi s pgFAB F.FAB_TEAM_FOLD t (bits v 4 1) else s
  let s := fputi s pgFAB F.FAB_TEAM_TEAM_ID t (bits v 20 5)
  if !v.testBit 0 then s
  else match teamCheck s t with
    | none => fputi s pgFAB F.FAB_TEAM_ENABLE t 1
    | some c => fput (fput s pgFAB F.FAB_STS_CFG_ERR 1) pgFAB F.FAB_STS_CAUSE c

def execTeamEnable (src : Src) (team : Nat) (value : BitVec 32) (s : State) : Out :=
  .next (if team < 64 then
    withEntry s src (fgeti s pgFAB F.FAB_TEAM_FOLD team) fun sys s =>
      if s.herd.stage.isSome then
        holdCovered s pgFAB (F.FAB_TEAM_ENABLE.off + 16 * team) value.toNat (if sys then 2 ^ 32 - 1 else 2 ^ 32 - 1 - 0x1E)
      else teamWrite s team value.toNat sys
  else s)

/-! ## Commands (R378 to R380) -/

def kTeam (c : Cmd) : Nat := cbits c 133 128
def kAxes (c : Cmd) : List Nat := setBitsOf 4 (cbits c 137 134)
def kIn (c : Cmd) : Nat := cbits c 142 138
def kOut (c : Cmd) : Nat := cbits c 147 143
def kSat (c : Cmd) : Bool := cbits c 148 148 == 1
def kSpread (c : Cmd) : Bool := cbits c 149 149 == 1
def kLocal (c : Cmd) : Nat := cbits c 153 150 + 1
def kRoot (c : Cmd) : Nat := cbits c 168 154
def kElems (c : Cmd) : Nat := cbits c 207 176 + 1
def kMult (c : Cmd) : Word := BitVec.ofNat 32 (cbits c 239 208)
def kSrc (c : Cmd) : Nat := cbits c 287 240
def kDst (c : Cmd) : Nat := cbits c 335 288
def kAux (c : Cmd) : Nat := cbits c 383 336
def kAux2 (c : Cmd) : Nat := cbits c 431 384
def kStride (c : Cmd) : Nat := cbits c 447 432
def kLaunch (c : Cmd) : Nat := cbits c 511 448

/-- A reduction; otherwise a gather (ALLGATHER, BROADCAST) or ALLTOALL. -/
def kReduces (c : Cmd) : Bool := cOp c == 0x40 || cOp c == 0x41
def kGathers (c : Cmd) : Bool := cOp c == 0x42 || cOp c == 0x43

/-- The fields an opcode names (R379). -/
def kNamed (c : Cmd) : List (Nat × Nat) :=
  let common := [(133, 128), (137, 134), (149, 149), (207, 176), (287, 240), (335, 288), (511, 448)]
  if kReduces c then common ++ [(142, 138), (147, 143), (148, 148), (153, 150), (239, 208), (447, 432)]
  else if kGathers c then
    common ++ [(142, 138), (147, 143), (148, 148), (239, 208), (383, 336), (431, 384)] ++ (if cOp c = 0x43 then [(168, 154)] else [])
  else common ++ [(383, 336), (431, 384)]

/-- Members of the sub-team (R376). -/
def subSize (s : State) (t : Nat) (ax : List Nat) : Nat := ax.foldl (fun m a => m * teamExtent s t a) 1

/-- Relative coordinate of rank r on the i-th axis of AXES, the lowest axis varying fastest. -/
def rankCoord (s : State) (t : Nat) : List Nat → Nat → Nat → Nat
  | [], _, _ => 0
  | a :: _, 0, r => r % teamExtent s t a
  | a :: rest, i + 1, r => rankCoord s t rest i (r / teamExtent s t a)

/-- The rank of this package in its sub-team. -/
def selfRank (s : State) (t : Nat) (ax : List Nat) : Nat :=
  (ax.foldr (fun a acc => acc * teamExtent s t a + (teamRel s t a).getD 0) 0)

/-- The package of a rank of this package's sub-team. -/
def rankPkg (s : State) (t : Nat) (ax : List Nat) (r : Nat) : Nat :=
  packCoord fun a =>
    match ax.findIdx? (· == a) with
    | some i => (teamOrigin s t a + rankCoord s t ax i r) % extentOf s a
    | none => coordOf (selfPkg s) a

/-- A widening that R386 allows, or the same format. -/
def widenOk (fi fo : Nat) : Bool :=
  fi == fo || ((fo == 0 || fo == 1) && 3 ≤ fi && fi ≤ 0x0B) || (fo == 0 && (fi == 1 || fi == 2))

def elemBytes (fmt n : Nat) : Nat := (n * elemBits fmt + 7) / 8
def scaleArrayBytes (fmt n : Nat) : Nat := if isBlock fmt then n / blockElems fmt * scaleBytes fmt else 0

/-- BAD_DESC of R380. -/
def kBad (s : State) (c : Cmd) : Bool :=
  let n := kElems c
  let p := subSize s (kTeam c) (kAxes c)
  let m := ofFp32 (kMult c)
  !reservedOk c.word.toNat (kNamed c) ||
    (cOp c != 0x44 && (!fmtKnown (kIn c) || !fmtKnown (kOut c) || n % blockElems (kIn c) != 0)) ||
    (kReduces c && (2 ^ 26 < elemBytes (kIn c) n || (match m with | .fin _ k _ => k == 0 | _ => true))) ||
    (cOp c == 0x41 && n % p != 0) || (cOp c == 0x43 && p ≤ kRoot c) ||
    (kGathers c && kIn c == 0x0B && !sb4ScaleOk (kMult c))

/-- UNSUPPORTED of R380. -/
def kUnsup (s : State) (c : Cmd) : Bool :=
  (kReduces c && (2 < kIn c || 2 < kOut c || 65536 < subSize s (kTeam c) (kAxes c) * kLocal c)) ||
    (kGathers c && !widenOk (kIn c) (kOut c))

/-- STATE_ERROR of R380. -/
def kState (s : State) (c : Cmd) : Bool :=
  !fbiti s pgFAB F.FAB_TEAM_ENABLE (kTeam c) ||
    ctxFold s c.id.ctx != some (fgeti s pgFAB F.FAB_TEAM_FOLD (kTeam c))

/-! ## Groups on the wire (R384) -/

/-- Trailing zero bits of a SUM, 208 for zero. -/
def trailZeros (x : Nat) : Nat := ((List.range 208).find? fun i => x.testBit i).getD 208

/-- The least width that holds a two's-complement value. -/
def signedWidth (v : Int) : Nat :=
  ((List.range 209).find? fun w => 1 ≤ w && -(2 ^ (w - 1) : Int) ≤ v && v < 2 ^ (w - 1)).getD 208

def winFlags (w : WinRec) : Nat :=
  bitN w.nan + bitN w.pinf * 2 + bitN w.ninf * 4 + bitN w.ovp * 8 + bitN w.ovn * 16

/-- Pack numbers of `w` bits, the first lowest. -/
def packBits (w : Nat) (xs : List Nat) : Nat := xs.foldr (fun x acc => acc * 2 ^ w + x % 2 ^ w) 0

/-- Encode a group of up to 32 records; missing ones are zero (R384). -/
def encGroup (rs : List WinRec) : List Byte :=
  let rs := rs ++ List.replicate (32 - rs.length) ({} : WinRec)
  let nz := rs.filter fun r => r.sum != 0
  let z := if nz = [] then 0 else nz.foldl (fun m r => min m (trailZeros r.sum)) 208
  let v (r : WinRec) : Int := toSigned 208 r.sum / 2 ^ z
  let w := if nz = [] then 0 else nz.foldl (fun m r => max m (signedWidth (v r))) 1
  let fl := rs.any fun r => winFlags r != 0
  let un := rs.any fun r => r.under != 0
  leBytes 8 (z + w * 2 ^ 8 + bitN fl * 2 ^ 16 + bitN un * 2 ^ 17)
    ++ leBytes (4 * w) (packBits w (rs.map fun r => ofSigned w (v r)))
    ++ (if fl then leBytes 20 (packBits 5 (rs.map winFlags)) else [])
    ++ (if un then leBytes 64 (packBits 16 (rs.map fun r => r.under)) else [])

/-- Decode one group: the records and the bytes it took; none when it is invalid. -/
def decGroup (bs : List Byte) : Option (List WinRec × Nat) :=
  let h := field bs 0 8
  let z := bits h 7 0
  let w := bits h 15 8
  let fl := h.testBit 16
  let un := h.testBit 17
  if 208 < w ∨ h / 2 ^ 18 ≠ 0 then none
  else
    let vals := leNat (slice bs 8 (4 * w))
    let fo := 8 + 4 * w
    let flags := if fl then field bs fo 20 else 0
    let uo := fo + (if fl then 20 else 0)
    let unders := if un then field bs uo 64 else 0
    let rec_ (i : Nat) : WinRec :=
      let f := bits flags (5 * i + 4) (5 * i)
      { sum := ofSigned 208 (toSigned w (vals / 2 ^ (w * i)) * 2 ^ z)
        under := bits unders (16 * i + 15) (16 * i)
        nan := f.testBit 0
        pinf := f.testBit 1
        ninf := f.testBit 2
        ovp := f.testBit 3
        ovn := f.testBit 4 }
    some ((List.range 32).map rec_, uo + (if un then 64 else 0))

/-- Encode a chunk's records, 32 a group. -/
def encRecs : Nat → List WinRec → List Byte
  | 0, _ => []
  | k + 1, rs => if rs = [] then [] else encGroup (rs.take 32) ++ encRecs k (rs.drop 32)

/-- Decode a chunk of `n` records. -/
def decRecs : Nat → Nat → List Byte → Option (List WinRec)
  | _, 0, _ => some []
  | 0, _ + 1, _ => none
  | k + 1, n + 1, bs =>
    match decGroup bs with
    | none => none
    | some (rs, len) => (decRecs k (n + 1 - 32) (bs.drop len)).map fun t => rs.take (n + 1) ++ t

/-! ## Chunks -/

/-- Elements of a rank's final shard, and the chunks of a shard (R382, R388). -/
def shardLen (s : State) (c : Cmd) : Nat :=
  let p := subSize s (kTeam c) (kAxes c)
  (kElems c + p - 1) / p

def shardChunks (s : State) (c : Cmd) : Nat := (shardLen s c + 1023) / 1024

/-- The elements [lo, hi) of a reduction's chunk. -/
def chunkRange (s : State) (c : Cmd) (tag : Nat) : Nat × Nat :=
  let l := shardLen s c
  let r := tag / shardChunks s c
  let i := tag % shardChunks s c
  let lo := min (r * l + i * 1024) (kElems c)
  (lo, max lo (min (r * l + min l ((i + 1) * 1024)) (kElems c)))

/-- Chunks of one rank's input in a gather: of its elements, then of its scales (R388). -/
def gatherChunks (c : Cmd) : Nat :=
  (elemBytes (kIn c) (kElems c) + 4095) / 4096 + (scaleArrayBytes (kIn c) (kElems c) + 4095) / 4096

/-- The rank a chunk belongs to. -/
def tagRank (s : State) (c : Cmd) (tag : Nat) : Nat :=
  if kReduces c then tag / shardChunks s c else tag / max (gatherChunks c) 1

/-- All chunks that a member must end up with. -/
def allTags (s : State) (c : Cmd) : List Nat :=
  let p := subSize s (kTeam c) (kAxes c)
  if kReduces c then
    (List.range (p * shardChunks s c)).filter fun t => (chunkRange s c t).1 < (chunkRange s c t).2
  else if cOp c = 0x43 then (List.range (gatherChunks c)).map fun i => kRoot c * gatherChunks c + i
  else List.range (p * gatherChunks c)

/-- The order of coordinates on a ring of `e`: counter-rotating rings where the sub-team spans a wrapped axis,
otherwise one folded ring (R383). -/
def ringOrder (s : State) (t a tag : Nat) : List Nat :=
  let e := teamExtent s t a
  if e = extentOf s a ∧ wraps s a then
    (if tag % 2 = 0 then List.range e else (List.range e).reverse)
  else
    (List.range e).filter (fun i => i % 2 = 0) ++ ((List.range e).filter fun i => i % 2 = 1).reverse

/-- The next coordinate on the ring. -/
def ringNext (s : State) (t a tag x : Nat) : Nat :=
  let o := ringOrder s t a tag
  match o.findIdx? (· == x) with
  | some i => lget o ((i + 1) % o.length) 0
  | none => x

/-- The rank that differs from `r` only in its coordinate on the i-th axis. -/
def rankWith (s : State) (t : Nat) (ax : List Nat) (r i x : Nat) : Nat :=
  let stride := (ax.take i).foldl (fun m a => m * teamExtent s t a) 1
  r + x * stride - rankCoord s t ax i r * stride

/-- Two ranks agree on the first `n` axes. -/
def agree (s : State) (t : Nat) (ax : List Nat) (n a b : Nat) : Bool :=
  (List.range n).all fun i => rankCoord s t ax i a == rankCoord s t ax i b

/-! ## State of a collective -/

def findCol (s : State) (team cseq : Nat) : Option ColSt := s.fab.cols.find? fun x => x.team == team && x.cseq == cseq

def putCol (s : State) (x : ColSt) : State :=
  putFab s fun b => { b with cols := b.cols.map fun y => if y.team == x.team && y.cseq == x.cseq then x else y }

/-- The covered fields that a new collective of a team will run under (R52). -/
def cfgNow (s : State) (t : Nat) : ColCfg where
  shape := fget s pgFAB F.FAB_SHAPE_EXTENT
  wrap := fget s pgFAB F.FAB_SHAPE_WRAP
  teamId := fgeti s pgFAB F.FAB_TEAM_TEAM_ID t
  origin := fgeti s pgFAB F.FAB_TEAM_ORIGIN t
  box := fgeti s pgFAB F.FAB_TEAM_EXTENT t
  peers := fgeti s pgFAB F.FAB_TEAM_PEER_FOLDS t
  tmo := fget s pgFAB F.FAB_CTMO_COLL_TMO
  grace := fget s pgFAB F.FAB_CTMO_GRACE_MAX

/-- The state with the covered fields as a collective runs under them: only read, for its ranks and rings (R52). -/
def asOf (s : State) (x : ColSt) : State :=
  let g := x.cfg
  let s := fput (fput s pgFAB F.FAB_SHAPE_EXTENT g.shape) pgFAB F.FAB_SHAPE_WRAP g.wrap
  fputi (fputi s pgFAB F.FAB_TEAM_ORIGIN x.team g.origin) pgFAB F.FAB_TEAM_EXTENT x.team g.box

/-- Time in µs by the package's Herd time. -/
def nowUs (s : State) : Nat := herdTime s / 250

/-- The hardware sources of LAGGARD now active (R390): STACK, ALERT, SPARING, SEGSTALL. -/
def lagSources (s : State) : Nat :=
  bitN ((List.range 12).any fun i => 2 ≤ fget s (pgMEMC i) F.MEMC_THERM_LEVEL)
    + bitN (fbit s pgPWR F.PWR_STS_ALERT) * 2
    + bitN ((List.range 16).any fun p => (getPort s p).swap.isSome) * 4
    + bitN ((List.range 4).any fun t => (List.range 2).any fun e =>
        match (getStream s (.coll t e)).stall with | some x => !x.hold | none => false) * 8

/-- LAGGARD (R390). -/
def laggard (s : State) : Bool := fbit s pgFAB F.FAB_LAG_SW || lagSources s &&& fget s pgFAB F.FAB_LAG_EN != 0

/-- The collective's flits carry LAG: the package is a laggard, or has received LAG within 20 µs (R390). -/
def lagMark (s : State) (x : ColSt) : Bool :=
  laggard s || (match x.lag with | some t => nowUs s ≤ t + 20 | none => false)

/-- The engine through which a package is reached: its tile and direction. -/
def engineTo (s : State) (pkg : Nat) : Nat × Nat :=
  match firstAxis (selfPkg s) pkg with
  | none => (0, 0)
  | some a => (a, if minimalPlus s a (coordOf (selfPkg s) a) (coordOf pkg a) then 0 else 1)

/-- A COL flit of a collective (R356). -/
def colFlit (s : State) (x : ColSt) (op phase tag dst : Nat) (data : List Byte) (poison : Bool) : Flit :=
  let ax := match findCmd s x.id with | some c => kAxes c | none => []
  { linkFlit 0 0 0 0 with
    ftype := ftCOL, data := data != [], poison := poison, lag := lagMark s x, dstPkg := dst, srcPkg := selfPkg s
    srcFold := x.fold, op := op, tid := tag, payload := data
    operand := x.cfg.teamId + x.cseq * 2 ^ 16 + phase * 2 ^ 32 + selfRank (asOf s x) x.team ax * 2 ^ 40 }

/-- The collective's command asks for SPREAD: its flits go by an intermediate package (R365). -/
def colSpread (s : State) (x : ColSt) : Bool := match findCmd s x.id with | some c => kSpread c | none => false

/-- Send a COL flit for a fold, unless it is fenced (R510). -/
def colSend (s : State) (fold : Nat) (f : Flit) (spread : Bool) : State :=
  if fenced s fold then s else sendFlit s f spread

/-- Send a chunk and hold it until it is acknowledged (R388). -/
def sendChunk (s : State) (team cseq op phase tag dst : Nat) (data : List Byte) (poison : Bool) : State :=
  match findCol s team cseq with
  | none => s
  | some x =>
    let f := colFlit s x op phase tag dst data poison
    let spread := colSpread s x
    let e := engineTo (asOf s x) dst
    let s := putCol s { x with unacked := x.unacked ++ [f] }
    if fenced s x.fold then s
    else sendFlit (bumpBy (bump s (pgCOLL e.1 e.2) 1) (pgCOLL e.1 e.2) 4 (if phase < 4 then data.length else 0)) f spread

/-! ## Ends (R385, R391) -/

/-- ABORT to the ring neighbours on every axis of the collective (R391). -/
def sendAborts (s : State) (x : ColSt) (ax : List Nat) : State :=
  let v := asOf s x
  let me := selfRank v x.team ax
  (List.range ax.length).foldl (fun s i =>
    let a := lget ax i 0
    let o := ringOrder v x.team a 0
    let mine := rankCoord v x.team ax i me
    let nexts := [ringNext v x.team a 0 mine, ringNext v x.team a 1 mine]
      ++ (o.filter fun y => ringNext v x.team a 0 y == mine)
    (nexts.eraseDups.filter fun y => y != mine).foldl (fun s y =>
      let dst := rankPkg v x.team ax (rankWith v x.team ax me i y)
      if fenced s x.fold then s else sendFlit (bump s pgFAB 8) (colFlit s x 3 0 0 dst [] false) (colSpread s x)) s) s

/-- Record an error in COLL_ERRLOG of the collective's engine. -/
def collLog (s : State) (x : ColSt) (cause rank : Nat) : State :=
  let pg := pgCOLL x.tile 0
  if fbit s pg F.COLL_ERRLOG_VALID then s
  else
    let s := fput (fput s pg F.COLL_ERRLOG_VALID 1) pg F.COLL_ERRLOG_CAUSE cause
    setLogged (fput (fput s pg F.COLL_ERRLOG_TEAM x.team) pg F.COLL_ERRLOG_RANK rank) pg

/-- Keep the status of a completed collective, and tell the run-pool entries that wait for it (R413). -/
def colNotes (x : TrnSt) (team cseq code : Nat) : TrnSt :=
  { x with
    colDone := mput x.colDone team (((cseq, code) :: mgetD x.colDone team []).take 16)
    pool := x.pool.map fun r =>
      if r.kind == 2 && r.team == team && r.cseq == cseq && r.ready.isNone then { r with ready := some code } else r }

/-- The ranges a collective writes at its end. -/
def colRanges (s : State) (c : Cmd) : List (Nat × Nat) :=
  let p := subSize s (kTeam c) (kAxes c)
  let k := if cOp c = 0x42 then p else 1
  if kReduces c then []
  else if cOp c = 0x44 then [(kDst c, kElems c), (kAux2 c, 16 * p)]
  else [(kDst c, k * elemBytes (kOut c) (kElems c)), (kAux2 c, k * scaleArrayBytes (kOut c) (kElems c))]

/-- The destination of a collective that a lower tier failed is undefined (R226, R576). -/
def colUndef (s : State) (x : ColSt) : State :=
  match findCmd s x.id with
  | none => s
  | some c =>
    let n := if cOp c = 0x41 then shardLen (asOf s x) c else kElems c
    let outs := if kReduces c then [(kDst c, n * elemBits (kOut c) / 8)] else colRanges (asOf s x) c
    outs.foldl (fun s o => undefRange s (.coll x.tile 0) {} x.id.ctx o.1 o.2) s

/-- A collective ends with a status. -/
def colEnd (s : State) (x : ColSt) (r : Res) : State :=
  let pg := pgCOLL x.tile 0
  let s := if r.code = stTIER then colUndef s x else s
  let s := { s with trn := colNotes s.trn x.team x.cseq r.code }
  let s := putFab s fun b => { b with cols := b.cols.filter fun y => !(y.team == x.team && y.cseq == x.cseq) }
  let s := bump s pg 0
  let s := if r.code = stOVERFLOW then bump s pg 11 else if r.code = stNOTE then bump s pg 12
    else if r.code = stABORT then bump s pg 13 else if r.code = stPEER then bump s pgFAB 11 else s
  finishCmd s x.id r

/-- The status of a reduction or an ALLTOALL that met `codes` (R22, R385, R387). -/
def colRes (x : ColSt) : Res :=
  let r := resOf x.codes
  { r with note := if r.code = stNOTE ∨ r.code = stOVERFLOW then min x.under 0xFFFF else r.note }

/-! ## Memory of a collective -/

def colStream (x : ColSt) : StreamId := .coll x.tile 0

/-- Write bytes at a virtual address for a collective: what it met is among its codes; none while the write waits. -/
def colWrite (s : State) (x : ColSt) (va : Nat) (bs : List Byte) (p : Bool) : State × Option (List Nat) :=
  match streamWrite s (colStream x) {} x.id.ctx .wr p .ok (linePieces va bs.length) bs false with
  | (s', some (.error codes)) => (s', some codes)
  | (s', some (.ok met)) => (s', some (if met then [stPOISON] else []))
  | (s', none) => (s', none)

/-- Write what a collective has still to write, in order, up to a write that waits (R229). -/
def colFlushList (s : State) (x : ColSt) : List (Nat × List Byte × Bool) → State × ColSt
  | [] => (s, { x with todo := [] })
  | e :: t =>
    match colWrite s x e.1 e.2.1 e.2.2 with
    | (s', none) => (s', { x with todo := e :: t })
    | (s', some codes) => colFlushList s' { x with codes := x.codes ++ codes } t

def colFlush (s : State) (x : ColSt) : State × ColSt := colFlushList s x x.todo

/-- A virtual range of a collective translates, so that a write of it does not wait. -/
def colReady (s : State) (x : ColSt) (va n : Nat) : State × Bool :=
  match streamCheck s (colStream x) {} x.id.ctx .wr (linePieces va n) [] with
  | (s', none) => (s', false)
  | (s', some _) => (s', true)

/-- Read virtual ranges of a collective, one after the other. -/
def colRead (s : State) (x : ColSt) (resp : LineResp) : List (Nat × Nat) → List (List Byte × Bool) →
    State × Option (Except (List Nat) (List (List Byte × Bool)))
  | [], acc => (s, some (.ok acc.reverse))
  | (va, n) :: t, acc =>
    match streamRead s (colStream x) {} x.id.ctx .rd resp (linePieces va n) [] false with
    | (s', none) => (s', none)
    | (s', some (.error codes)) => (s', some (.error codes))
    | (s', some (.ok r)) => colRead s' x (respRest s' (colStream x) x.id.ctx va n resp) t (r :: acc)

/-! ## Gathers: passing finished chunks on (R383, R386) -/

/-- Pass a chunk on along the i-th axis unless the ring ends here. -/
def passOn (s : State) (x : ColSt) (c : Cmd) (tag i : Nat) (data : List Byte) (p : Bool) : State :=
  let ax := kAxes c
  let a := lget ax i 0
  let v := asOf s x
  let me := selfRank v x.team ax
  let own := rankCoord v x.team ax i me
  let k := rankCoord v x.team ax i (tagRank v c tag)
  let y := ringNext v x.team a tag own
  if y = own ∨ y = k then s
  else sendChunk s x.team x.cseq 1 (4 + a) tag (rankPkg v x.team ax (rankWith v x.team ax me i y)) data p

/-- A chunk is at hand after the axes from the i-th on: it is kept, and sent along every lower axis. -/
def spreadChunk (s : State) (x : ColSt) (c : Cmd) (tag i : Nat) (data : List Byte) (p : Bool) : State :=
  (List.range i).reverse.foldl (fun s j => passOn s x c tag j data p) s

/-! ## Finishing -/

/-- The bytes that the chunks of rank r hold, in order, and whether any is poisoned. -/
def gathered (x : ColSt) (c : Cmd) (r : Nat) : List Byte × Bool :=
  (List.range (gatherChunks c)).foldl (fun (acc : List Byte × Bool) i =>
    match mget x.have_ (r * gatherChunks c + i) with
    | some d => (acc.1 ++ d.1, acc.2 || d.2)
    | none => acc) ([], false)

/-- One rank's input as it is written: its elements, widened if asked under the command's SAT (R64, R386), its scales, and
its overflows. -/
def widenInput (c : Cmd) (bs : List Byte) : List Byte × List Byte × Nat :=
  let n := kElems c
  let e := elemBytes (kIn c) n
  let sc := slice bs e (scaleArrayBytes (kIn c) n)
  if kIn c = kOut c then (slice bs 0 e, sc, 0)
  else
    let w := (List.range n).map fun i =>
      let scale := if isBlock (kIn c) then field sc (i / blockElems (kIn c) * scaleBytes (kIn c)) (scaleBytes (kIn c)) else 0
      narrow (elemFmt (kOut c)) (kSat c) .rne (blockV (kIn c) scale (kMult c) (getElem (kIn c) bs i))
    (packElems (kOut c) (w.map (·.1)), [], (w.filter (·.2)).length)

/-- Write one after the other; the answer holds what was met, and whether a write waits. -/
def colWrites (s : State) (x : ColSt) (ws : List (Nat × List Byte × Bool)) : State × List Nat × Bool :=
  let r := colFlushList s { x with codes := [] } (ws.filter fun w => w.2.1 != [])
  (r.1, r.2.codes, r.2.todo != [])

/-- Write a gather's result (R386): each overflowed element is a condition met (R68). -/
def gatherWrite (s : State) (x : ColSt) (c : Cmd) : State × List Nat × Bool :=
  let p := subSize (asOf s x) x.team (kAxes c)
  let ranks := if cOp c = 0x43 then [kRoot c] else List.range p
  let outs := ranks.map fun r =>
    let g := gathered x c r
    let w := widenInput c g.1
    let place := if cOp c = 0x43 then 0 else r
    ([(kDst c + place * w.1.length, w.1, g.2), (kAux2 c + place * w.2.1.length, w.2.1, g.2)],
      (if g.2 then [stPOISON] else []) ++ List.replicate w.2.2 stOVERFLOW)
  let w := colWrites s x (outs.flatMap (·.1))
  (if kIn c = kOut c || w.2.2 then w.1 else bumpBy w.1 (pgCOLL x.tile 0) 7 (ranks.length * kElems c),
    w.2.1 ++ outs.flatMap (·.2), w.2.2)

/-- The slices of an ALLTOALL in ascending source rank: offset, or none where dropped (R387). -/
def slicePlaces (lens : List Nat) (limit : Nat) : List (Option Nat) :=
  (lens.foldl (fun (acc : List (Option Nat) × Nat) l =>
    if limit < acc.2 + l then (acc.1 ++ [none], acc.2) else (acc.1 ++ [some acc.2], acc.2 + roundUp l 256)) ([], 0)).1

def sliceKey (r i : Nat) : Nat := r * 2 ^ 24 + i

/-- The lengths of every source, once all are known. -/
def allLens (s : State) (x : ColSt) (c : Cmd) : Option (List Nat) :=
  (List.range (subSize (asOf s x) x.team (kAxes c))).mapM fun r => mget x.lens r

/-- Write an ALLTOALL's slices and its receive table (R387). -/
def sliceWrite (s : State) (x : ColSt) (c : Cmd) (lens : List Nat) : State × List Nat × Bool × Nat :=
  let pl := slicePlaces lens (kElems c)
  let slices := (List.range lens.length).filterMap fun i =>
    (lget pl i none).map fun off =>
      let parts := (List.range ((lget lens i 0 + 4095) / 4096)).map fun j => mgetD x.have_ (sliceKey i j) ([], false)
      (kDst c + off, parts.flatMap (·.1), parts.any (·.2))
  let table := (List.range lens.length).flatMap fun i =>
    match lget pl i none with
    | some off => leBytes 8 off ++ leBytes 4 (lget lens i 0) ++ leBytes 4 0
    | none => leBytes 8 0 ++ leBytes 4 (lget lens i 0) ++ leBytes 4 1
  let w := colWrites s x (slices ++ [(kAux2 c, table, false)])
  (w.1, w.2.1 ++ (slices.filter (·.2.2)).map fun _ => stPOISON, w.2.2, (pl.filter Option.isNone).length)

/-- Every chunk of the collective is here. -/
def colComplete (s : State) (x : ColSt) (c : Cmd) : Bool :=
  if cOp c = 0x44 then
    match allLens s x c with
    | none => false
    | some lens =>
      let pl := slicePlaces lens (kElems c)
      (List.range lens.length).all fun i => (lget pl i none).isNone ||
        (List.range ((lget lens i 0 + 4095) / 4096)).all fun j => (mget x.have_ (sliceKey i j)).isSome
  else (allTags (asOf s x) c).all fun t => (mget x.have_ t).isSome

/-- A collective whose chunks are all here, written, and whose own are acknowledged completes (R385 to R388); a write that
waits is made again later (R229, R251). -/
def colCheckEnd (s : State) (team cseq : Nat) : State :=
  match findCol s team cseq with
  | none => s
  | some x0 =>
    match findCmd s x0.id with
    | none => s
    | some c =>
      let fl := colFlush s x0
      let x := fl.2
      let s := if x0.todo = [] then s else putCol fl.1 x
      if !x.launched || x.todo != [] || x.unacked != [] || !colComplete s x c then s
      else
        let r := (colRanges (asOf s x) c).foldl (fun (acc : State × Bool) v =>
          let a := colReady acc.1 x v.1 v.2
          (a.1, acc.2 && a.2)) (s, true)
        if !r.2 then r.1
        else if kReduces c then colEnd s x (colRes x)
        else if cOp c = 0x44 then
          let w := sliceWrite s x c ((allLens s x c).getD [])
          let n := w.2.2.2
          if w.2.2.1 then w.1
          else colEnd (bumpBy w.1 pgFAB 12 n) x
            (colRes { x with codes := x.codes ++ w.2.1 ++ (if n = 0 then [] else [stNOTE]), under := n })
        else
          let w := gatherWrite s x c
          if w.2.2 then w.1 else colEnd w.1 x (resOf (x.codes ++ w.2.1))

/-! ## Reductions (R382 to R385) -/

/-- The trailer that carries a shard's status with its data: flags, then the elements with UNDER_CNT. -/
def statusTrailer (ovf : Bool) (under : Nat) : List Byte := leBytes 4 (bitN ovf) ++ leBytes 4 (min under 0xFFFF)

/-- A finished shard chunk: its data is written at each member of an ALLREDUCE, or at the owner; its status is
taken in by every member. -/
def shardArrive (s : State) (team cseq tag : Nat) (payload : List Byte) (p : Bool) : State :=
  match findCol s team cseq with
  | none => s
  | some x =>
    match findCmd s x.id with
    | none => s
    | some c =>
      let n := payload.length - 8
      let data := payload.take n
      let v := asOf s x
      let lo := (chunkRange v c tag).1
      let own := tagRank v c tag == selfRank v team (kAxes c)
      let base := if cOp c = 0x41 then tagRank v c tag * shardLen v c else 0
      let out := if cOp c = 0x41 && !own then [] else [(kDst c + (lo - base) * elemBits (kOut c) / 8, data, p)]
      let ovf := field payload n 4 == 1
      let under := field payload (n + 4) 4
      let codes := (if p then [stPOISON] else []) ++ (if ovf then [stOVERFLOW] else [])
        ++ (if under = 0 then [] else [stNOTE])
      let w := colFlush s { x with
        have_ := mput x.have_ tag ([], p), codes := x.codes ++ codes, under := x.under + under, todo := x.todo ++ out }
      putCol w.1 w.2

/-- The owner reads out its chunk and starts its all-gather (R382, R385). -/
def readOut (s : State) (x : ColSt) (c : Cmd) (tag : Nat) (rs : List WinRec) (p : Bool) : State :=
  let e := rs.map (winRead (elemFmt (kOut c)) (kSat c) (kMult c))
  let data := packElems (kOut c) (e.map (·.1))
  let tr := statusTrailer (e.any (·.2)) (rs.filter fun r => r.under != 0).length
  let s := shardArrive s x.team x.cseq tag (data ++ tr) p
  match findCol s x.team x.cseq with
  | none => s
  | some x => spreadChunk s x c tag (kAxes c).length ((if cOp c = 0x41 then [] else data) ++ tr) p

/-- Done with a chunk here. -/
def levelDone : Nat := 100

def setPart (x : ColSt) (tag level : Nat) (rs : List WinRec) (p : Bool) : ColSt :=
  { x with
    level := mput x.level tag level
    part := if level = levelDone then mdel x.part tag else mput x.part tag rs
    bad := if p then mput x.bad tag () else x.bad }

/-- Take a chunk through the rings of its axes as far as it can go (R383): on each axis the successor of the
owning coordinate starts, every other member adds its own part and passes the sum on, and the owner keeps it. -/
def advance (s : State) (team cseq tag : Nat) : Nat → State
  | 0 => s
  | fuel + 1 =>
    match findCol s team cseq with
    | none => s
    | some x =>
      match findCmd s x.id with
      | none => s
      | some c =>
        let ax := kAxes c
        let i := mgetD x.level tag 0
        let own := mgetD x.part tag []
        let p := (mget x.bad tag).isSome
        if i = levelDone then s
        else if ax.length ≤ i then
          readOut (putCol s (setPart x tag levelDone [] p)) (setPart x tag levelDone [] p) c tag own p
        else
          let a := lget ax i 0
          let v := asOf s x
          let me := selfRank v team ax
          let xc := rankCoord v team ax i me
          let k := rankCoord v team ax i (tagRank v c tag)
          let next := ringNext v team a tag xc
          let send (s : State) (rs : List WinRec) (p : Bool) : State :=
            let s := putCol s (setPart { x with early := x.early.filter fun e => !(e.1 == i && e.2.1 == tag) } tag levelDone [] p)
            sendChunk s team cseq 1 a tag (rankPkg v team ax (rankWith v team ax me i next)) (encRecs rs.length rs) p
          if teamExtent v team a = 1 then advance (putCol s (setPart x tag (i + 1) own p)) team cseq tag fuel
          else if xc ≠ k ∧ ringNext v team a tag k = xc then send s own p
          else
            match x.early.find? fun e => e.1 == i && e.2.1 == tag with
            | none => s
            | some (_, _, rs, q) =>
              let sum := (own.zip rs).map fun ab => winMerge ab.1 ab.2
              if xc = k then
                let x' := setPart { x with early := x.early.filter fun e => !(e.1 == i && e.2.1 == tag) } tag (i + 1) sum (p || q)
                advance (putCol s x') team cseq tag fuel
              else send s sum (p || q)

/-- The records of this member's contributions to elements [lo, hi) (R83). -/
def localRecs (c : Cmd) (ins : List (List Byte × Bool)) (lo hi : Nat) : List WinRec :=
  (List.range (hi - lo)).map fun i =>
    ins.foldl (fun w b => winAdd w (elemV (kIn c) (getElem (kIn c) b.1 (lo + i)))) {}

/-! ## Beginning (R381) -/

/-- The inputs a member reads: a reduction's local contributions; a gather's elements and scales. -/
def colInputs (s : State) (x : ColSt) (c : Cmd) : List (Nat × Nat) :=
  let n := kElems c
  if kReduces c then
    (List.range (kLocal c)).map fun i => (kSrc c + i * kStride c * 4096, elemBytes (kIn c) n)
  else if cOp c = 0x44 then [(kAux c, 16 * subSize (asOf s x) x.team (kAxes c))]
  else if cOp c = 0x43 ∧ selfRank (asOf s x) x.team (kAxes c) ≠ kRoot c then []
  else [(kSrc c, elemBytes (kIn c) n), (kAux c, scaleArrayBytes (kIn c) n)]

/-- Cut bytes into 4 KiB chunks. -/
def cutChunks (bs : List Byte) : List (List Byte) :=
  (List.range ((bs.length + 4095) / 4096)).map fun i => (bs.drop (i * 4096)).take 4096

/-- Begin a reduction: its records, then each chunk as far as it goes. -/
def beginReduce (s : State) (x : ColSt) (c : Cmd) (ins : List (List Byte × Bool)) : State :=
  let p := ins.any (·.2)
  let v := asOf s x
  let tags := allTags v c
  let x := tags.foldl (fun (x : ColSt) t =>
    let r := chunkRange v c t
    setPart x t 0 (localRecs c ins r.1 r.2) p) x
  tags.foldl (fun s t => advance s x.team x.cseq t 8) (putCol s x)

/-- Begin a gather: this member's own chunks. -/
def beginGather (s : State) (x : ColSt) (c : Cmd) (ins : List (List Byte × Bool)) : State :=
  let me := selfRank (asOf s x) x.team (kAxes c)
  let chunks := ins.flatMap fun b => (cutChunks b.1).map fun d => (d, b.2)
  (List.range chunks.length).foldl (fun s i =>
    let d := lget chunks i ([], false)
    let tag := me * gatherChunks c + i
    match findCol s x.team x.cseq with
    | none => s
    | some x =>
      spreadChunk (putCol s { x with have_ := mput x.have_ tag d }) x c tag (kAxes c).length d.1 d.2) s

/-- Begin an ALLTOALL: its slices, with their lengths ahead of them (R387). -/
def beginAll (s : State) (x : ColSt) (c : Cmd) (table : List Byte) (slices : List (List Byte × Bool)) : State :=
  let ax := kAxes c
  let v := asOf s x
  let me := selfRank v x.team ax
  (List.range slices.length).foldl (fun s r =>
    let sl := lget slices r ([], false)
    let parts := cutChunks sl.1
    if r = me then
      match findCol s x.team x.cseq with
      | none => s
      | some x => putCol s { x with
          lens := mput x.lens r (field table (16 * r + 8) 8)
          have_ := (List.range parts.length).foldl (fun m j => mput m (sliceKey me j) (lget parts j [], sl.2)) x.have_ }
    else
      let dst := rankPkg v x.team ax r
      let s := sendChunk s x.team x.cseq 5 9 0 dst (leBytes 8 (field table (16 * r + 8) 8)) false
      (List.range parts.length).foldl (fun s j =>
        sendChunk s x.team x.cseq 1 8 j dst (lget parts j []) sl.2) s) s

/-- Begin sending (R381): the inputs are read; a read that fails ends the collective. -/
def colBegin (s : State) (team cseq : Nat) (resp : LineResp) : State :=
  match findCol s team cseq with
  | none => s
  | some x =>
    match findCmd s x.id with
    | none => s
    | some c =>
      if x.launched || (kLaunch c ≠ 0 && herdTime s / 256 < kLaunch c) then s
      else
        let go (s : State) : ColSt × State := ({ x with launched := true, last := nowUs s }, s)
        match colRead s x resp (colInputs s x c) [] with
        | (s', none) => s'
        | (s', some (.error codes)) => colEnd s' x (resOf (x.codes ++ codes))
        | (s', some (.ok ins)) =>
          if cOp c = 0x44 then
            let table := (ins.headD ([], false)).1
            let rs := (List.range (subSize (asOf s' x) team (kAxes c))).map fun r =>
              (kSrc c + field table (16 * r) 8, field table (16 * r + 8) 8)
            let resp' := (colInputs s x c).foldl (fun resp v =>
              respRest s' (colStream x) x.id.ctx v.1 v.2 resp) resp
            match colRead s' x resp' rs [] with
            | (s2, none) => s2
            | (s2, some (.error codes)) => colEnd s2 x (resOf (x.codes ++ codes))
            | (s2, some (.ok slices)) =>
              let g := go s2
              colCheckEnd (beginAll (putCol g.2 g.1) g.1 c table slices) team cseq
          else
            let g := go s'
            let s := putCol g.2 g.1
            colCheckEnd (if kReduces c then beginReduce s g.1 c ins else beginGather s g.1 c ins) team cseq

/-- A collective command is accepted: it takes the team's CSEQ (R381); one that an ABORT has named already
completes with PEER_FAILED (R391). -/
def collective (s : State) (id : CmdId) (c : Cmd) (resp : LineResp) : State :=
  acceptCmd s id (kBad s c) (kUnsup s c) (kState s c) fun f =>
    let t := kTeam c
    let cseq := fgeti s pgFAB F.FAB_TEAM_CSEQ t
    let s := fputi s pgFAB F.FAB_TEAM_CSEQ t (cseq + 1)
    let x : ColSt := { id := id, team := t, cseq := cseq, tile := c.tile, fold := f, last := nowUs s, cfg := cfgNow s t }
    let s := updCmd s id fun y => { y with phase := .running }
    let s := putFab s fun b => { b with cols := b.cols ++ [x] }
    if s.fab.aborted.contains (t, cseq) then
      colEnd (putFab s fun b => { b with aborted := b.aborted.erase (t, cseq) }) x (resOf [stPEER])
    else colBegin s t cseq resp

def execAllreduce (c : CmdAns) (s : State) : Out := .next (withCmd s c.id 0x40 fun x => collective s c.id x c.resp)
def execReduceScatter (c : CmdAns) (s : State) : Out := .next (withCmd s c.id 0x41 fun x => collective s c.id x c.resp)
def execAllgather (c : CmdAns) (s : State) : Out := .next (withCmd s c.id 0x42 fun x => collective s c.id x c.resp)
def execBroadcast (c : CmdAns) (s : State) : Out := .next (withCmd s c.id 0x43 fun x => collective s c.id x c.resp)
def execAlltoall (c : CmdAns) (s : State) : Out := .next (withCmd s c.id 0x44 fun x => collective s c.id x c.resp)

/-- A collective with LAUNCH begins at its tick (R381); one that has begun tries again what its streams hold (R229). -/
def execCollectiveLaunch (team : Nat) (cseq : ColAt) (s : State) : Out :=
  .next (colCheckEnd (colBegin s team cseq.cseq cseq.resp) team cseq.cseq)

/-! ## Flits of a collective (R377, R388 to R391) -/

def flitCseq (f : Flit) : Nat := bits f.operand 31 16
def flitPhase (f : Flit) : Nat := bits f.operand 39 32
def flitRank (f : Flit) : Nat := bits f.operand 54 40

/-- The entry a COL flit is delivered to (R377): that of a collective in flight, as it was at its acceptance (R52), or else
an enabled one. -/
def flitTeam (s : State) (f : Flit) : Option Nat :=
  ((s.fab.cols.find? fun x => x.cfg.teamId == bits f.operand 15 0 && x.cseq == flitCseq f &&
    x.cfg.peers.testBit f.srcFold).map (·.team)).orElse fun _ => (List.range 64).find? fun t => fbiti s pgFAB F.FAB_TEAM_ENABLE t &&
    fgeti s pgFAB F.FAB_TEAM_TEAM_ID t == bits f.operand 15 0 &&
    (fgeti s pgFAB F.FAB_TEAM_PEER_FOLDS t).testBit f.srcFold

/-- The collective of a CSEQ has been accepted here before (R388). -/
def cseqPast (s : State) (t cseq : Nat) : Bool :=
  let d := (fgeti s pgFAB F.FAB_TEAM_CSEQ t + 65536 - cseq) % 65536
  1 ≤ d && d ≤ 32768

/-- Deliver a COL flit of the inbox to its team entry; those of a fenced fold are discarded and counted (R510,
notes/assumptions/143.md). -/
def deliverCol (s : State) (f : Flit) (op : Nat) (go : State → Nat → Nat → State) : State :=
  match inboxPort s f ftCOL op with
  | none => s
  | some p =>
    let s := takeFlit s p f
    match flitTeam s f with
    | none => bump s pgFAB 5
    | some t => if fenced s (fgeti s pgFAB F.FAB_TEAM_FOLD t) then bump s pgHERD 15 else go s t p

/-- LAG received marks the collective (R389, R390). -/
def noteLag (s : State) (t : Nat) (f : Flit) : State :=
  if !f.lag then s
  else match findCol s t (flitCseq f) with
    | none => s
    | some x => putCol s { x with lag := some (nowUs s) }

/-- Acknowledge a chunk to its sender (R388). -/
def ackChunk (s : State) (f : Flit) (t : Nat) : State :=
  let fold := fgeti s pgFAB F.FAB_TEAM_FOLD t
  let mine := findCol s t (flitCseq f)
  let lag := match mine with | some x => lagMark s x | none => laggard s
  let spread := match mine with | some x => colSpread s x | none => false
  let g : Flit := { f with
    vc := 0, data := false, poison := false, lag := lag, lseq := 0, dstPkg := f.srcPkg, srcPkg := selfPkg s
    srcFold := fold, detour := false, op := 2, viaPkg := 0, viaDone := false, payload := [] }
  colSend s fold g spread

/-- The groups of 32 records (R384) with one that `p` accepts. -/
def groupsWith (p : WinRec → Bool) (rs : List WinRec) : Nat :=
  ((List.range ((rs.length + 31) / 32)).filter fun k => ((rs.drop (32 * k)).take 32).any p).length

/-- What a new chunk does at its collective. -/
def chunkTake (s : State) (x : ColSt) (c : Cmd) (f : Flit) : State :=
  let ax := kAxes c
  let ph := flitPhase f
  if cOp c = 0x44 then
    if ph = 8 then
      colCheckEnd (putCol s { x with have_ := mput x.have_ (sliceKey (flitRank f) f.tid) (f.payload, f.poison) }) x.team x.cseq
    else s
  else if ph < 4 then
    match ax.findIdx? (· == ph) with
    | none => s
    | some i =>
      let r := chunkRange (asOf s x) c f.tid
      match decRecs (r.2 - r.1) (r.2 - r.1) f.payload with
      | none => colEnd (collLog s x 3 (flitRank f)) x (resOf (stABORT :: x.codes))
      | some rs =>
        let pg := pgCOLL x.tile 0
        let s := bumpBy s pg 5 (groupsWith (fun w => winFlags w != 0) rs)
        let s := bumpBy s pg 6 (groupsWith (fun w => w.under != 0) rs)
        let s := putCol s { x with early := x.early ++ [(i, f.tid, rs, f.poison)] }
        if x.launched then colCheckEnd (advance s x.team x.cseq f.tid 8) x.team x.cseq else s
  else
    match ax.findIdx? (· == ph - 4) with
    | none => s
    | some i =>
      let s := if kReduces c then shardArrive s x.team x.cseq f.tid f.payload f.poison
        else putCol s { x with have_ := mput x.have_ f.tid (f.payload, f.poison) }
      match findCol s x.team x.cseq with
      | none => s
      | some x => colCheckEnd (spreadChunk s x c f.tid (i + 1) f.payload f.poison) x.team x.cseq

/-- A chunk or a count arrives (R388): a duplicate is discarded, one of a collective that has ended is acknowledged
and discarded, and one that is early is discarded in silence. -/
def chunkArrive (s : State) (f : Flit) (t p : Nat) (take : State → ColSt → Cmd → State) : State :=
  let s := noteLag s t f
  match findCol s t (flitCseq f) with
  | none => if cseqPast s t (flitCseq f) then bump (ackChunk s f t) pgFAB 7 else bump s pgFAB 6
  | some x =>
    let key := (flitPhase f, flitRank f, f.tid)
    let s := ackChunk s f t
    if x.seen.contains key then bump s pgFAB 7
    else
      let s := bump s (pgCOLL (p / 4) (p % 4 / 2)) 2
      let x := { x with seen := x.seen ++ [key], last := nowUs s }
      let s := putCol s x
      match findCmd s x.id with
      | none => s
      | some c => take s x c

def execColData (flit : Flit) (s : State) : Out :=
  .next (deliverCol s flit 1 fun s t p => chunkArrive s flit t p fun s x c => chunkTake s x c flit)

/-- A COUNTS flit gives a source's slice length (R387). -/
def execCounts (flit : Flit) (s : State) : Out :=
  .next (deliverCol s flit 5 fun s t p => chunkArrive s flit t p fun s x _ =>
    colCheckEnd (putCol s { x with lens := mput x.lens (flitRank flit) (field flit.payload 0 8) }) x.team x.cseq)

/-- A sent chunk is the one an acknowledgement names. -/
def ackedBy (f g : Flit) : Bool := g.dstPkg == f.srcPkg && flitPhase g == flitPhase f && g.tid == f.tid

def execChunkAck (flit : Flit) (s : State) : Out :=
  .next (deliverCol s flit 2 fun s t _ =>
    let s := noteLag s t flit
    match findCol s t (flitCseq flit) with
    | none => s
    | some x => colCheckEnd (putCol s { x with unacked := x.unacked.filter fun g => !ackedBy flit g }) t x.cseq)

/-- A BEACON carries the mark of a laggard (R390). -/
def execBeacon (flit : Flit) (s : State) : Out := .next (deliverCol s flit 4 fun s t _ => noteLag s t flit)

/-- A peer of the collective has failed: it completes with PEER_FAILED here and the neighbours are told (R391). -/
def peerFailed (s : State) (x : ColSt) (cause rank : Nat) : State :=
  let ax := match findCmd s x.id with | some c => kAxes c | none => []
  let s := sendAborts (collLog s x cause rank) x ax
  let r := resOf (stPEER :: x.codes)
  colEnd s x (if r.code = stPEER then { r with note := rank } else r)

/-- An ABORT completes the collective with PEER_FAILED and is forwarded once; the CSEQ of one that has completed or is not yet
accepted is recorded (R391). -/
def execAbort (flit : Flit) (s : State) : Out :=
  .next (deliverCol s flit 3 fun s t _ =>
    let s := bump s pgFAB 9
    match findCol s t (flitCseq flit) with
    | some x => peerFailed s x 2 (flitRank flit)
    | none =>
      if s.fab.aborted.contains (t, flitCseq flit) then s
      else putFab s fun b => { b with aborted := b.aborted ++ [(t, flitCseq flit)] })

/-- A chunk without acknowledgement for XTMO µs is sent again (R388). -/
def execChunkResendTimeout (team cseq chunk : Nat) (s : State) : Out :=
  .next (match findCol s team cseq with
    | none => s
    | some x =>
      (x.unacked.filter fun g => g.tid == chunk).foldl (fun s g =>
        let e := engineTo (asOf s x) g.dstPkg
        if fenced s x.fold then s else sendFlit (bump s (pgCOLL e.1 e.2) 3) { g with lag := lagMark s x } (colSpread s x)) s)

/-- A laggard sends a BEACON on an active collective to its ring neighbours (R390). -/
def execBeaconTimer (team cseq : Nat) (s : State) : Out :=
  .next (match findCol s team cseq with
    | none => s
    | some x =>
      if !laggard s then s
      else
        let ax := match findCmd s x.id with | some c => kAxes c | none => []
        let v := asOf s x
        let me := selfRank v team ax
        (List.range ax.length).foldl (fun s i =>
          let a := lget ax i 0
          let own := rankCoord v team ax i me
          let y := ringNext v team a 0 own
          if y = own then s
          else
            let dst := rankPkg v team ax (rankWith v team ax me i y)
            let e := engineTo v dst
            if fenced s x.fold then s
            else sendFlit (bump s (pgCOLL e.1 e.2) 9) { colFlit s x 4 0 0 dst [] false with lag := true } (colSpread s x)) s)

/-- The deadline of a collective (R389), in µs, and whether LAG has extended it. -/
def colDeadline (s : State) (x : ColSt) : Nat × Bool :=
  let tmo := max x.cfg.tmo 1
  let grace := x.cfg.grace * 1000
  match x.lag with
  | some t => if nowUs s ≤ t + tmo then (min (nowUs s + tmo) (x.last + tmo + grace), true) else (x.last + tmo, false)
  | none => (x.last + tmo, false)

/-- A collective's deadline passes: the member it awaits is declared failed (R389, R391). Before its launch it waits on no
member. -/
def execCollectiveDeadline (team cseq rank : Nat) (s : State) : Out :=
  .next (match findCol s team cseq with
    | none => s
    | some x =>
      let d := colDeadline s x
      if !x.launched then s
      else if nowUs s ≤ d.1 then (if d.2 then bump s pgFAB 10 else s) else peerFailed s x 1 rank)

/-- A fold reset aborts the fold's collectives and disables its team entries (R392). -/
def colFoldReset (s : State) (f : Nat) : State :=
  let mine := s.fab.cols.filter fun x => x.fold == f
  let s := mine.foldl (fun s x =>
    let ax := match findCmd s x.id with | some c => kAxes c | none => []
    colEnd (sendAborts s x ax) x (resOf (stFOLDRESET :: x.codes))) s
  (List.range 64).foldl (fun s t =>
    if fgeti s pgFAB F.FAB_TEAM_FOLD t == f then fputi s pgFAB F.FAB_TEAM_ENABLE t 0 else s) s

end Sys2Proof.Machine
end

