-- ==== Sys2Proof/Machine/Training.lean ====
section
/-! DEFINITION. Training support (chapter 13): the job seed and step index (R396, R397), the Etch units with
their run descriptors, programs and blocks (R399 to R411), the run pools (R413, R414), state export and import
(R415, R416) and the pipeline sequencer (R417 to R420). -/

namespace Sys2Proof.Machine

open Sys2Proof

def putTrn (s : State) (f : TrnSt → TrnSt) : State := { s with trn := f s.trn }

/-! ## Job seed and step index -/

/-- A tick that is reached or past (R491). -/
def tickReached (s : State) (tick : Nat) : Bool := tick ≤ herdTime s / 256

/-- STEP_SET (R397): the step index changes at once, or waits for its tick. -/
def stepSet (s : State) (id : CmdId) (c : Cmd) : State :=
  let pg := pgCTX id.ctx
  let step := cbits c 159 128
  let tick := cbits c 255 192
  acceptCmd s id (!reservedOk c.word.toNat [(159, 128), (255, 192)]) false (mget s.trn.pend id.ctx).isSome fun _ =>
    if tick = 0 then finishCmd (fput s pg F.CTX_STEP_STEP step) id {}
    else if tickReached s tick then finishCmd (fput s pg F.CTX_STEP_STEP step) id (resOf [stNOTE])
    else
      let s := putTrn s fun x => { x with pend := mput x.pend id.ctx id }
      let s := fput (fput s pg F.CTX_STEP_PEND_STEP step) pg F.CTX_STEP_STS_PENDING 1
      let s := fputPair s pg F.CTX_STEP_TICK_LO_TICK_LO F.CTX_STEP_TICK_HI_TICK_HI 0 tick
      updCmd s id fun c => { c with phase := .running }

def execStepSet (c : CmdId) (s : State) : Out := .next (withCmd s c 0x64 fun x => stepSet s c x)

/-- A pending STEP_SET of the context is written once its tick is reached. -/
def stepApply (s : State) (ctx : Nat) : State :=
  let pg := pgCTX ctx
  match mget s.trn.pend ctx with
  | none => s
  | some id =>
    if !tickReached s (fpair s pg F.CTX_STEP_TICK_LO_TICK_LO F.CTX_STEP_TICK_HI_TICK_HI 0) then s
    else
      let s := putTrn s fun x => { x with pend := mdel x.pend ctx }
      let s := fput (fput s pg F.CTX_STEP_STEP (fget s pg F.CTX_STEP_PEND_STEP)) pg F.CTX_STEP_STS_PENDING 0
      finishCmd s id {}

def execStepSetApply (ctx : Nat) (s : State) : Out := .next (if ctx < 512 then stepApply s ctx else s)

/-- A write of CTX_SEED_LO or CTX_SEED_HI (R396, R536): refused while the context is enabled; the low word is
held until the high word is written. -/
def seedWrite (s : State) (ctx : Nat) (hi : Bool) (v : Nat) : State :=
  let pg := pgCTX ctx
  let k := pg * 1024 + F.CTX_SEED_LO_SEED_LO.off / 4
  if fbit s pg F.CTX_CFG_ENABLE then fput s pg F.CTX_STEP_STS_SEED_REFUSED 1
  else if hi then
    let s := match mget s.pairHeld k with
      | some lo => fput { s with pairHeld := mdel s.pairHeld k } pg F.CTX_SEED_LO_SEED_LO lo.toNat
      | none => s
    fput s pg F.CTX_SEED_HI_SEED_HI v
  else { s with pairHeld := mput s.pairHeld k (BitVec.ofNat 32 v) }

def execSeedWrite (src : Src) (ctx : Nat) (hi : Bool) (value : BitVec 32) (s : State) : Out :=
  .next (if ctx < 512 then withPage s src (pgCTX ctx) fun s => seedWrite s ctx hi value.toNat else s)

/-! ## Run descriptors and programs -/

/-- A stream entry (R402). -/
structure EtchStream where
  addr : Nat
  fmt : Nat
  reg : Nat
  wb : Bool
  rnd : Bool
  sat : Bool
  saddr : Nat
  tensor : Nat
  purpose : Nat
  deriving DecidableEq, Repr

/-- The valid stream entries of a run descriptor, in order. -/
def etchStreams (d : List Byte) : List EtchStream :=
  (List.range 6).filterMap fun k =>
    let x := field d (0x60 + 24 * k) 24
    if x.testBit 60 then
      some { addr := bits x 47 0, fmt := bits x 52 48, reg := bits x 56 53, wb := x.testBit 57, rnd := x.testBit 58
             sat := x.testBit 59, saddr := bits x 111 64, tensor := bits x 159 128, purpose := bits x 167 160 }
    else none

def etchProg (d : List Byte) : Nat := bits (field d 0 8) 47 0
def etchCoord (d : List Byte) : Nat := bits (field d 8 8) 55 0
/-- Elements of the shard. -/
def etchElems (d : List Byte) : Nat := field d 0x10 4 + 1
def etchScalLoad (d : List Byte) : Nat := field d 0x14 1
def etchScalAddr (d : List Byte) : Nat := bits (field d 0x18 8) 47 0
def etchNormOut (d : List Byte) : Nat := bits (field d 0x40 8) 47 0

/-- Blocks of the shard (R404). -/
def etchBlocks (d : List Byte) : Nat := (etchElems d + 63) / 64

/-- Elements of block j that are no padding. -/
def etchLanes (d : List Byte) (j : Nat) : Nat := min 64 (etchElems d - 64 * j)

/-- QM1 or QM2. -/
def isQm (fmt : Nat) : Bool := fmt == 0x0C || fmt == 0x0D

/-- The formats that streams and images take (R402, R415). -/
def etchFmtOk (fmt : Nat) : Bool := fmt ≤ 2 || isQm fmt

/-- The named bits of a run descriptor (R401, R402). -/
def etchDescNamed : List (Nat × Nat) :=
  [(47, 0), (119, 64), (159, 128), (167, 160), (239, 192), (511, 256), (559, 512)] ++
    (List.range 6).flatMap fun k =>
      let b := 8 * (0x60 + 24 * k)
      [(b + 60, b), (b + 111, b + 64), (b + 159, b + 128), (b + 167, b + 160)]

/-- Every reserved bit of a run descriptor is zero. -/
def etchDescOk (d : List Byte) : Bool :=
  etchDescNamed.foldl (fun x r => setBits x r.1 r.2 0) (leNat d) == 0

/-- The virtual ranges of a stream: elements and scales. -/
def streamRanges (e : EtchStream) (d : List Byte) : List (Nat × Nat) :=
  if isQm e.fmt then
    [(e.addr, e.addr + 64 * etchBlocks d), (e.saddr, e.saddr + 2 * etchBlocks d)]
  else [(e.addr, e.addr + etchElems d * (elemBits e.fmt / 8))]

/-- The operands of an opcode of R406 among D, A, B, C; none where the opcode is not listed. -/
def etchUses (op : Nat) : Option (Bool × Bool × Bool) :=
  -- whether D, B and C are used; A always is
  match op with
  | 0x01 => some (true, true, false) | 0x02 => some (true, true, false) | 0x03 => some (true, true, false)
  | 0x04 => some (true, true, true) | 0x05 => some (true, true, false) | 0x06 => some (true, true, false)
  | 0x07 => some (true, true, false) | 0x08 => some (true, false, false) | 0x09 => some (true, false, false)
  | 0x0A => some (true, false, false) | 0x0B => some (true, false, false) | 0x0C => some (true, false, false)
  | 0x0D => some (true, true, true) | 0x0E => some (true, false, false) | 0x0F => some (true, false, false)
  | 0x10 => some (false, false, false) | 0x20 => some (true, false, false) | 0x21 => some (true, false, false)
  | _ => none

def ewOp (w : Nat) : Nat := bits w 5 0
def ewD (w : Nat) : Nat := bits w 10 6
def ewA (w : Nat) : Nat := bits w 15 11
def ewB (w : Nat) : Nat := bits w 20 16
def ewC (w : Nat) : Nat := bits w 25 21

/-- An instruction word is well formed in its phase, 0 A, 1 B, 2 C (R406, R407). -/
def etchWordOk (w phase : Nat) (norm : Bool) : Bool :=
  match etchUses (ewOp w) with
  | none => false
  | some (d, b, c) =>
    let block := ewOp w == 0x20 || ewOp w == 0x21
    let srcs := [ewA w] ++ (if b then [ewB w] else []) ++ (if c then [ewC w] else [])
    w / 2 ^ 26 == 0 && (d || ewD w == 0) && (b || ewB w == 0) && (c || ewC w == 0) &&
    (if phase = 1 then
      ewOp w != 0x10 && 24 ≤ ewD w && (if block then ewA w < 16 else srcs.all fun r => 16 ≤ r)
    else
      !block && (ewOp w != 0x10 || norm) && ewD w < 16 && srcs.all fun r => r < (if phase = 2 then 32 else 24))

/-- The phase of instruction i. -/
def etchPhase (lens : Nat × Nat × Nat) (i : Nat) : Nat :=
  if i < lens.1 then 0 else if i < lens.1 + lens.2.1 then 1 else 2

/-- The header of a program image: its three lengths, if it is well formed (R405). -/
def etchHeader (h : List Byte) : Option (Nat × Nat × Nat) :=
  let a := field h 0 1
  let b := field h 1 1
  let c := field h 2 1
  if field h 3 1 == 1 && (h.drop 4).all (· == 0) && 1 ≤ a && a + b + c ≤ 56 then some (a, b, c) else none

/-! ## Instructions -/

/-- A NaN result is the part's quiet NaN (R55). -/
def quiet (w : Word) : Word := if isNan32 w then 0x7FC00000 else w

/-- |A|, exact. -/
def fp32Abs (a : Word) : Word := quiet (a &&& 0x7FFFFFFF)
/-- −A, exact. -/
def fp32Neg (a : Word) : Word := quiet (a ^^^ 0x80000000)

/-- SEL (R406): B when A ≥ +0 or A is −0, C otherwise, NaN when A is NaN. -/
def fp32Sel (a b c : Word) : Word :=
  match ofFp32 a with
  | .nan => 0x7FC00000
  | .inf neg => quiet (if neg then c else b)
  | .fin neg n _ => quiet (if neg && n != 0 then c else b)

/-- SIGN (R406). -/
def fp32Sign (a : Word) : Word :=
  match ofFp32 a with
  | .nan => 0x7FC00000
  | .inf neg => if neg then 0xBF800000 else 0x3F800000
  | .fin neg n _ => if n = 0 then 0 else if neg then 0xBF800000 else 0x3F800000

/-- The result of a lane or scalar instruction (R406). -/
def etchAlu (op : Nat) (a b c : Word) : Word :=
  match op with
  | 0x01 => fp32Add a b
  | 0x02 => fp32Sub a b
  | 0x03 => fp32Mul a b
  | 0x04 => fp32Fma a b c
  | 0x05 => fp32Min a b
  | 0x06 => fp32Max a b
  | 0x07 => fp32Div a b
  | 0x08 => fp32Sqrt a
  | 0x09 => fp32Rsqrt a
  | 0x0A => fp32Div fp32One a
  | 0x0B => fp32Abs a
  | 0x0C => fp32Neg a
  | 0x0D => fp32Sel a b c
  | 0x0E => fp32Sign a
  | _ => a

/-- The register of a number in a lane (R406). -/
def etchReg (r : EtchRun) (lane n : Nat) : Word :=
  if n < 16 then lget (lget r.elems n []) lane 0
  else if n < 24 then lget r.scal (n - 16) 0
  else lget r.blk (n - 24) 0

/-- Contribute an exact square with the hold of R408. -/
def winSq (w : WinRec) (x : Word) : WinRec :=
  let v := ofFp32 x
  let w' := winAdd w (fpMul v v)
  if 2 ^ 191 ≤ w'.sum then { w with ovp := true } else w'

/-- Combine records with the hold of R408 in place of wrapping (R411). -/
def winHold (a b : WinRec) : WinRec :=
  let m := winMerge a b
  if 2 ^ 191 ≤ toSigned 208 a.sum + toSigned 208 b.sum then { m with sum := a.sum, ovp := true } else m

/-- The six levels of BSUM's tree (R406). -/
def treeSum64 (v : List Word) : Word :=
  lget (pairSums (pairSums (pairSums (pairSums (pairSums (pairSums v)))))) 0 0

/-- Run one instruction on the block in the registers, `n` of whose lanes are no padding. -/
def etchInstr (r : EtchRun) (n w : Nat) : EtchRun :=
  let op := ewOp w
  let a (lane : Nat) := etchReg r lane (ewA w)
  let r := { r with pc := r.pc + 1 }
  if op = 0x10 then { r with norm := (List.range n).foldl (fun m l => winSq m (a l)) r.norm }
  else if op = 0x20 then
    { r with blk := lset r.blk (ewD w - 24) ((List.range n).foldl (fun m l => fp32Max m (fp32Abs (a l))) 0) }
  else if op = 0x21 then
    { r with blk := lset r.blk (ewD w - 24) (treeSum64 ((List.range 64).map fun l => if l < n then a l else 0)) }
  else
    let v (lane : Nat) := etchAlu op (a lane) (etchReg r lane (ewB w)) (etchReg r lane (ewC w))
    if ewD w < 16 then { r with elems := lset r.elems (ewD w) ((List.range 64).map v) }
    else { r with blk := lset r.blk (ewD w - 24) (v 0) }

/-! ## Units -/

def getEtch (s : State) (t u : Nat) : Option EtchRun := mget s.trn.units (t * 8 + u)
def putEtch (s : State) (t u : Nat) (r : EtchRun) : State := putTrn s fun x => { x with units := mput x.units (t * 8 + u) r }

/-- A status with the codes a run has met, or a code outside R22's list alone (R573). -/
def resCode (code : Nat) : Res := if condOrder.contains code then resOf [code] else reject code

/-- Record an error in ETCH_ERRLOG (R427). -/
def etchLog (s : State) (t u cause ctx : Nat) : State :=
  let pg := pgETCH t u
  if fbit s pg F.ETCH_ERRLOG_VALID then s
  else setLogged (fput (fput (fput s pg F.ETCH_ERRLOG_VALID 1) pg F.ETCH_ERRLOG_CAUSE cause)
    pg F.ETCH_ERRLOG_CONTEXT ctx) pg

/-- A command of an Etch unit ends (R409, R428). -/
def etchEnd (s : State) (t u : Nat) (id : CmdId) (res : Res) : State :=
  let s := putTrn s fun x => { x with units := mdel x.units (t * 8 + u) }
  let s := bump s (pgETCH t u) 0
  let s := if res.code = stPOISON then bump s (pgETCH t u) 8 else s
  finishCmd s id res

/-- A command whose lower tier failed it ends: what its outputs hold is undefined (R226, R576). -/
def etchFail (s : State) (t u : Nat) (id : CmdId) (codes : List Nat) (outs : List (Nat × Nat)) : State :=
  let s := if codes.contains stTIER then outs.foldl (fun s o => undefRange s (.etch t u) {} id.ctx o.1 o.2) s else s
  etchEnd s t u id (resOf codes)

/-- The ranges that a run writes: its written-back streams, with their scales, and its norm record. -/
def etchDests (d : List Byte) : List (Nat × Nat) :=
  ((etchStreams d).filter (·.wb)).flatMap (fun e =>
    if isQm e.fmt then [(e.addr, 64 * etchBlocks d), (e.saddr, 2 * etchBlocks d)]
    else [(e.addr, etchElems d * (elemBits e.fmt / 8))]) ++
  (if etchNormOut d = 0 then [] else [(etchNormOut d, 32)])

/-- Read a virtual range of a unit. -/
def etchRead (s : State) (t u ctx va n : Nat) (resp : LineResp) : State × Option (Except (List Nat) (List Byte × Bool)) :=
  streamRead s (.etch t u) {} ctx .rd resp (linePieces va n) [] false

/-- Read several virtual ranges in order. -/
def etchReads (s : State) (t u ctx : Nat) (resp : LineResp) : List (Nat × Nat) → List (List Byte × Bool) →
    State × Option (Except (List Nat) (List (List Byte × Bool)))
  | [], acc => (s, some (.ok acc.reverse))
  | (va, n) :: rest, acc =>
    match etchRead s t u ctx va n resp with
    | (s', none) => (s', none)
    | (s', some (.error codes)) => (s', some (.error codes))
    | (s', some (.ok r)) => etchReads s' t u ctx (respRest s' (.etch t u) ctx va n resp) rest (r :: acc)

/-- Write a list of outputs (address, bytes, poison): all are translated before any is written, so that a command that waits
has written nothing of them. The answer holds what the writes met (R197), or the codes with which one failed. -/
def etchOut (s : State) (t u ctx : Nat) (resp : LineResp) (outs : List (Nat × List Byte × Bool)) :
    State × Option (Except (List Nat) (List Nat)) :=
  match streamCheck s (.etch t u) {} ctx .wr (outs.flatMap fun o => linePieces o.1 o.2.1.length) [] with
  | (s', none) => (s', none)
  | (s', some (.error code)) => (s', some (.error [code]))
  | (s', some (.ok _)) =>
    let r := outs.foldl (fun (acc : State × Except (List Nat) (List Nat)) o =>
      match acc.2 with
      | .error _ => acc
      | .ok cs =>
        match streamWrite acc.1 (.etch t u) {} ctx .wr o.2.2 resp (linePieces o.1 o.2.1.length) o.2.1 false with
        | (s, none) => (s, .ok cs)
        | (s, some (.error codes)) => (s, .error (cs ++ codes))
        | (s, some (.ok met)) => (s, .ok (cs ++ if met then [stPOISON] else []))) (s', .ok [])
    (r.1, some r.2)

/-! ## Starting a run (R401 to R407) -/

/-- Every page of a stream range lies in tier N or tier F and is not compressed (R403). -/
def etchTiers (s : State) (t u ctx : Nat) : List Nat → State × Option (Option Nat)
  | [] => (s, some none)
  | va :: rest =>
    match access s (.etch t u) { drover := true } ctx va .rd with
    | .wait s' => (s', none)
    | .comp _ _ => (s, some (some stUNSUP))
    | .fail code s' => (s', some (some code))
    | .ok pa _ => if tierOfAddr pa ≤ 1 then etchTiers (unhold s (.etch t u) ctx) t u ctx rest else (s, some (some stUNSUP))

/-- One address of each 4 KiB page of a range. -/
def rangePages (r : Nat × Nat) : List Nat :=
  if r.2 ≤ r.1 then [] else (List.range ((r.2 - 1) / 4096 + 1 - r.1 / 4096)).map fun i => max r.1 ((r.1 / 4096 + i) * 4096)

/-- Two ranges overlap. -/
def rangeMeets (a b : Nat × Nat) : Bool := a.1 < b.2 && b.1 < a.2

/-- A descriptor completes with BAD_DESC (R401, R402, R403). -/
def etchBad (d : List Byte) : Bool :=
  let ss := etchStreams d
  !etchDescOk d || etchProg d % 32 != 0 || etchCoord d % 64 != 0 || etchScalAddr d % 4 != 0 ||
    (ss.map (·.reg)).eraseDups.length != ss.length || ss.any fun e =>
      !fmtKnown e.fmt || (e.rnd && (e.purpose < 1 || 3 < e.purpose))

/-- A descriptor completes with UNSUPPORTED: a format, a coordinate past R88's limit, or a written range that
meets another entry's (R402, R403). -/
def etchUnsup (d : List Byte) : Bool :=
  let ss := etchStreams d
  ss.any (fun e => !etchFmtOk e.fmt || (e.rnd && 2 ^ 56 ≤ etchCoord d + (etchElems d - 1))) ||
    ss.any fun e => e.wb && (ss.filter fun o => o.reg != e.reg).any fun o =>
      (streamRanges e d).any fun a => (streamRanges o d).any fun b => rangeMeets a b

/-- The unit reads the descriptor, the program and the scalars and checks them; nothing is written before
(R401 to R407). -/
def etchBegin (s : State) (t u : Nat) (resp : LineResp) : State :=
  match getEtch s t u with
  | none => s
  | some r =>
    match findCmd s r.id with
    | none => s
    | some c =>
      let ctx := r.id.ctx
      let stop (s : State) (code : Nat) : State := etchEnd s t u r.id (resCode code)
      let rest (s : State) (va n : Nat) (resp : LineResp) : LineResp := respRest s (.etch t u) ctx va n resp
      match etchRead s t u ctx (cbits c 175 128) 256 resp with
      | (s, none) => s
      | (s, some (.error codes)) => etchEnd s t u r.id (resOf codes)
      | (s, some (.ok (d, p))) =>
        let resp := rest s (cbits c 175 128) 256 resp
        if p then stop s stPOISON
        else if !etchDescOk d || etchProg d % 32 != 0 then stop s stBAD
        else match etchRead s t u ctx (etchProg d) 32 resp with
        | (s, none) => s
        | (s, some (.error codes)) => etchEnd s t u r.id (resOf codes)
        | (s, some (.ok (h, p1))) =>
          let lens := (etchHeader h).getD (0, 0, 0)
          let n := lens.1 + lens.2.1 + lens.2.2
          let resp := rest s (etchProg d) 32 resp
          match etchRead s t u ctx (etchProg d + 32) (4 * n) resp with
          | (s, none) => s
          | (s, some (.error codes)) => etchEnd s t u r.id (resOf ((if p1 then [stPOISON] else []) ++ codes))
          | (s, some (.ok (body, p2))) =>
            let resp := rest s (etchProg d + 32) (4 * n) resp
            let words := (List.range n).map fun i => field body (4 * i) 4
            let ok := (etchHeader h).isSome && (List.range n).all fun i =>
              etchWordOk (lget words i 0) (etchPhase lens i) (etchNormOut d != 0)
            if p1 || p2 then stop s stPOISON
            else if !ok then stop (etchLog s t u 1 ctx) stBAD
            else if etchBad d then stop s stBAD
            else if etchUnsup d then stop s stUNSUP
            else
              let pages := (etchStreams d).flatMap fun e => (streamRanges e d).flatMap rangePages
              match etchTiers s t u ctx pages with
              | (s, none) => s
              | (s, some (some code)) => stop (if code = stUNSUP then etchLog s t u 3 ctx else s) code
              | (s, some none) =>
                let ks := setBitsOf 8 (etchScalLoad d)
                match etchReads s t u ctx resp (ks.map fun k => (etchScalAddr d + 4 * k, 4)) [] with
                | (s, none) => s
                | (s, some (.error codes)) => etchEnd s t u r.id (resOf codes)
                | (s, some (.ok got)) =>
                  let scal := (ks.zip got).foldl (fun l e => lset l e.1 (BitVec.ofNat 32 (leNat e.2.1)))
                    ((List.range 8).map fun k => BitVec.ofNat 32 (field d (0x20 + 4 * k) 4))
                  putEtch s t u { r with
                    loaded := true
                    desc := d
                    prog := words
                    lens := lens
                    scal := scal
                    spoison := got.any (·.2) }

/-- Assign a run to a unit, with the keys in force when it was accepted (R398, R400). -/
def etchAssign (s : State) (t u : Nat) (r : EtchRun) : State :=
  let s := fput (putEtch s t u r) (pgETCH t u) F.ETCH_BLOCKS_BLOCKS 0
  updCmd s r.id fun c => { c with phase := .running, engine := u }

/-- The collective of a CSEQ has completed and its status is no longer kept (R413). -/
def cseqForgotten (s : State) (team cseq : Nat) : Bool :=
  cseqPast s team cseq && (findCol s team cseq).isNone && !(mgetD s.trn.colDone team []).any fun e => e.1 == cseq

/-- Whether an entry is ready as it enters the pool (R413). -/
def poolReady (s : State) (c : Cmd) : Option Nat :=
  if cbits c 177 176 = 1 then
    if cbits c 271 208 ≤ (getTally s c.id.ctx (cbits c 183 178)).val.toNat then some 0 else none
  else ((mgetD s.trn.colDone (cbits c 189 184) []).find? fun e => e.1 == cbits c 207 192).map (·.2)

/-- ETCH_RUN is accepted: onto its unit, or into the run pool when it waits (R400, R413). -/
def etchRunStart (s : State) (id : CmdId) (c : Cmd) (resp : LineResp) : State :=
  let kind := cbits c 177 176
  let team := cbits c 189 184
  let bad := kind == 3 || cbits c 175 128 % 64 != 0 ||
    !reservedOk c.word.toNat [(175, 128), (177, 176), (183, 178), (189, 184), (207, 192), (271, 208)]
  let other := kind == 2 && ((ctxFold s id.ctx).any fun f => fgeti s pgFAB F.FAB_TEAM_FOLD team != f)
  acceptCmd s id bad false (other || (kind == 2 && cseqForgotten s team (cbits c 207 192))) fun f =>
    if kind = 0 then
      let run : EtchRun := { id := id, fold := f, seed := ctxSeed s id.ctx, step := ctxStep s id.ctx }
      etchBegin (etchAssign s c.tile c.engine run) c.tile c.engine resp
    else
      let e : PoolRun :=
        { id := id, tile := c.tile, fold := f, seed := ctxSeed s id.ctx, step := ctxStep s id.ctx, kind := kind
          tally := cbits c 183 178, value := cbits c 271 208, team := team, cseq := cbits c 207 192
          ready := poolReady s c }
      updCmd (putTrn s fun x => { x with pool := x.pool ++ [e] }) id fun c => { c with phase := .running }

def execEtchRun (c : CmdAns) (s : State) : Out := .next (withCmd s c.id 0x60 fun x => etchRunStart s c.id x c.resp)

/-- A run-pool entry whose collective failed ends with its code; else a free unit takes the ready entry that was
accepted first (R413, R414). -/
def poolTake (s : State) (t : Nat) : State :=
  let drop (e : PoolRun) (s : State) : State := putTrn s fun x => { x with pool := x.pool.filter fun y => y.id != e.id }
  let mine := s.trn.pool.filter fun e => e.tile == t
  match mine.find? fun e => match e.ready with | some code => 7 < code | none => false with
  | some e => finishCmd (bump (drop e s) (pgETCH t 0) 11) e.id (resCode (e.ready.getD 0))
  | none =>
    match mine.find? fun e => e.ready.isSome, freeEngine s (.etch t 0) with
    | some e, some u =>
      let run : EtchRun := { id := e.id, fold := e.fold, seed := e.seed, step := e.step }
      etchBegin (etchAssign (bump (drop e s) (pgETCH t u) 10) t u run) t u .ok
    | _, _ => s

def execRunPoolReady (tile : Nat) (s : State) : Out := .next (if tile < 4 then poolTake s tile else s)

/-! ## Blocks (R402 to R404, R408, R409) -/

/-- The ranges a stream reads for block j. -/
def blockRanges (d : List Byte) (j : Nat) (e : EtchStream) : List (Nat × Nat) :=
  let n := etchLanes d j
  if isQm e.fmt then [(e.addr + 64 * j, n), (e.saddr + 2 * j, 2)]
  else [(e.addr + 64 * j * (elemBits e.fmt / 8), n * (elemBits e.fmt / 8))]

/-- The 64 lanes of a stream's block, with how many overflowed FP32 and whether one was NaN. -/
def widenBlock (e : EtchStream) (n : Nat) (bs sc : List Byte) : List Word × Nat × Bool :=
  let vs := (List.range n).map fun i => blockV e.fmt (leNat sc) 0 (getElem e.fmt bs i)
  let w := vs.map fun v => narrow fFP32 e.sat .rne v
  (w.map (fun x => BitVec.ofNat 32 x.1) ++ List.replicate (64 - n) 0, (w.filter (·.2)).length, vs.any (· == .nan))

/-- Read the streams' block into the element registers; the others and the block registers hold +0. -/
def blockLoad (s : State) (t u : Nat) (r : EtchRun) (resp : LineResp) : State :=
  let d := r.desc
  let ss := etchStreams d
  let n := etchLanes d r.block
  match etchReads s t u r.id.ctx resp (ss.flatMap (blockRanges d r.block)) [] with
  | (s, none) => s
  | (s, some (.error codes)) => etchFail s t u r.id (r.codes ++ codes) (etchDests r.desc)
  | (s, some (.ok got)) =>
    let place := ss.foldl (fun (acc : List (Nat × List Word × Nat × Bool) × List (List Byte × Bool)) e =>
      let k := if isQm e.fmt then 2 else 1
      let sc := if isQm e.fmt then (lget acc.2 1 ([], false)).1 else []
      (acc.1 ++ [(e.reg, widenBlock e n (lget acc.2 0 ([], false)).1 sc)], acc.2.drop k)) ([], got)
    let poison := r.spoison || got.any (·.2)
    let s := if poison then etchLog s t u 2 r.id.ctx else s
    putEtch s t u { r with
      inBlock := true
      pc := 0
      elems := place.1.foldl (fun m x => lset m x.1 x.2.1) (List.replicate 16 (List.replicate 64 0))
      blk := List.replicate 8 0
      poison := poison
      tainted := r.tainted || poison
      nanIn := r.scal.any isNan32 || place.1.any (·.2.2.2)
      codes := r.codes ++ (place.1.flatMap fun x => List.replicate x.2.2.1 stOVERFLOW) ++ (if poison then [stPOISON] else []) }

/-- What a stream writes back (R403, R404): its outputs, overflows, NaN elements, negative elements of QM2, and
elements written under SR. -/
structure EtchStore where
  outs : List (Nat × List Byte)
  ovf : Nat
  nans : Nat
  negs : Nat
  drawn : Nat
  deriving DecidableEq, Repr

/-- Write-back of one stream. -/
def etchStore (r : EtchRun) (e : EtchStream) : EtchStore :=
  let d := r.desc
  let n := etchLanes d r.block
  let base := etchCoord d + 64 * r.block
  let draw (i : Nat) : Nat := stippleU r.seed r.step e.tensor (base + i) e.purpose
  let vs := (lget r.elems e.reg []).take n |>.map ofFp32
  let drawn := if e.rnd then n else 0
  if isQm e.fmt then
    let b := encBlock e.fmt 0 (if e.rnd then some draw else none) vs
    { outs := [(e.addr + 64 * r.block, packElems e.fmt (b.codes ++ List.replicate (64 - n) 0)),
        (e.saddr + 2 * r.block, leBytes 2 b.scale)]
      ovf := overflowed e.fmt 0 vs, nans := if b.scale = 0x7FC0 then n else 0, negs := b.note, drawn := drawn }
  else
    let w := mapIdx (fun i v => narrow (elemFmt e.fmt) e.sat (if e.rnd then .sr (draw i) else .rne) v) 0 vs
    { outs := [(e.addr + 64 * r.block * (elemBits e.fmt / 8), packElems e.fmt (w.map (·.1)))]
      ovf := (w.filter (·.2)).length, nans := (vs.filter (· == .nan)).length, negs := 0, drawn := drawn }

/-- The block in the registers runs its remaining instructions. -/
def etchFinishBlock (r : EtchRun) : EtchRun :=
  (r.prog.drop r.pc).foldl (fun r w => etchInstr r (etchLanes r.desc r.block) w) r

/-- The block is written back, and after the last one the norm record, poisoned where a block that contributed to it was
(R408, R409, R428, notes/assumptions/177.md). -/
def blockStore (s : State) (t u : Nat) (r : EtchRun) (resp : LineResp) : State :=
  let d := r.desc
  let pg := pgETCH t u
  let ctx := r.id.ctx
  let ss := (etchStreams d).filter (·.wb)
  let st := ss.map (etchStore r)
  let last := r.block + 1 == etchBlocks d
  let norm := etchNormOut d
  let outs := (st.flatMap fun x => x.outs.map fun o => (o.1, o.2, r.poison)) ++
    (if last && norm != 0 then [(norm, winBytes r.norm, r.tainted && r.prog.any fun w => ewOp w == 0x10)] else [])
  match etchOut s t u ctx resp outs with
  | (s, none) => putEtch s t u r
  | (s, some (.error codes)) => etchFail s t u r.id (r.codes ++ codes) (etchDests r.desc)
  | (s, some (.ok more)) =>
    let total (f : EtchStore → Nat) : Nat := (st.map f).foldl (· + ·) 0
    let nans := if r.nanIn then 0 else total (·.nans)
    let full := last && norm != 0 && r.norm.ovp
    let codes := r.codes ++ more ++ List.replicate (total (·.ovf)) stOVERFLOW
      ++ List.replicate (nans + total (·.negs)) stNOTE ++ (if full then [stOVERFLOW] else [])
    let acs := r.lens.1 + r.lens.2.2
    let wsq := (r.prog.filter fun w => ewOp w == 0x10).length * etchLanes d r.block
    let s := bumpBy (bumpBy (bump s pg 1) pg 2 acs) pg 3 r.lens.2.1
    let s := bumpBy (bumpBy s pg 4 (total (·.drawn))) pg 5 (ss.filter fun e => isQm e.fmt).length
    let s := bumpBy (bumpBy (bumpBy s pg 6 nans) pg 7 (total (·.ovf))) pg 9 wsq
    let s := fput s pg F.ETCH_BLOCKS_BLOCKS (r.block + 1)
    let s := if full then etchLog s t u 5 ctx else s
    if last then etchEnd s t u r.id (resOf codes)
    else putEtch s t u { r with block := r.block + 1, inBlock := false, codes := codes }

/-- A unit goes on with its run: it reads the descriptor, then takes its next block into the registers, then runs
what is left of the program on it and writes it back. -/
def etchStep (s : State) (t u : Nat) (resp : LineResp) : State :=
  match getEtch s t u with
  | none => s
  | some r =>
    if !r.loaded then etchBegin s t u resp
    else if !r.inBlock then blockLoad s t u r resp
    else blockStore s t u (etchFinishBlock r) resp

def execEtchBlock (tile unit : Nat) (resp : LineResp) (s : State) : Out :=
  .next (if tile < 4 ∧ unit < 8 then etchStep s tile unit resp else s)

/-- The unit performs its next instruction when it is the one named, on all lanes of the block. -/
def etchOne (s : State) (t u op d a b c : Nat) : State :=
  match getEtch s t u with
  | none => s
  | some r =>
    let w := op + d * 2 ^ 6 + a * 2 ^ 11 + b * 2 ^ 16 + c * 2 ^ 21
    if r.loaded && r.inBlock && r.prog[r.pc]? == some w then
      putEtch s t u (etchInstr r (etchLanes r.desc r.block) w)
    else s

def execEtchAdd (tile unit d a b : Nat) (s : State) : Out := .next (etchOne s tile unit 0x01 d a b 0)
def execEtchSub (tile unit d a b : Nat) (s : State) : Out := .next (etchOne s tile unit 0x02 d a b 0)
def execEtchMul (tile unit d a b : Nat) (s : State) : Out := .next (etchOne s tile unit 0x03 d a b 0)
def execEtchFma (tile unit d a b c : Nat) (s : State) : Out := .next (etchOne s tile unit 0x04 d a b c)
def execEtchMin (tile unit d a b : Nat) (s : State) : Out := .next (etchOne s tile unit 0x05 d a b 0)
def execEtchMax (tile unit d a b : Nat) (s : State) : Out := .next (etchOne s tile unit 0x06 d a b 0)
def execEtchDiv (tile unit d a b : Nat) (s : State) : Out := .next (etchOne s tile unit 0x07 d a b 0)
def execEtchSqrt (tile unit d a : Nat) (s : State) : Out := .next (etchOne s tile unit 0x08 d a 0 0)
def execEtchRsqrt (tile unit d a : Nat) (s : State) : Out := .next (etchOne s tile unit 0x09 d a 0 0)
def execEtchRcp (tile unit d a : Nat) (s : State) : Out := .next (etchOne s tile unit 0x0A d a 0 0)
def execEtchAbs (tile unit d a : Nat) (s : State) : Out := .next (etchOne s tile unit 0x0B d a 0 0)
def execEtchNeg (tile unit d a : Nat) (s : State) : Out := .next (etchOne s tile unit 0x0C d a 0 0)
def execEtchSel (tile unit d a b c : Nat) (s : State) : Out := .next (etchOne s tile unit 0x0D d a b c)
def execEtchSign (tile unit d a : Nat) (s : State) : Out := .next (etchOne s tile unit 0x0E d a 0 0)
def execEtchMov (tile unit d a : Nat) (s : State) : Out := .next (etchOne s tile unit 0x0F d a 0 0)
def execWsq (tile unit a : Nat) (s : State) : Out := .next (etchOne s tile unit 0x10 0 a 0 0)
def execBmaxabs (tile unit d a : Nat) (s : State) : Out := .next (etchOne s tile unit 0x20 d a 0 0)
def execBsum (tile unit d a : Nat) (s : State) : Out := .next (etchOne s tile unit 0x21 d a 0 0)

/-! ## ETCH_COMBINE (R411) -/

/-- A multiplier that R86 accepts: finite and not zero. -/
def multOk (m : Word) : Bool :=
  match ofFp32 m with
  | .fin _ n _ => n != 0
  | _ => false

/-- ETCH_COMBINE reads its records, combines them and writes the rounded result. R86's readout follows SAT, which the command
has no field for: it is taken as 0 (DESIGN CHOICE, notes/assumptions/144.md). -/
def etchCombine (s : State) (id : CmdId) (c : Cmd) (resp : LineResp) : State :=
  let m : Word := BitVec.ofNat 32 (cbits c 271 240)
  let t := c.tile
  let u := c.engine
  let n := cbits c 239 224 + 1
  let bad := !multOk m || !reservedOk c.word.toNat [(175, 128), (223, 176), (239, 224), (271, 240)]
  acceptCmd s id bad false false fun _ =>
    match etchRead s t u id.ctx (cbits c 175 128) (32 * n) resp with
    | (s, none) => s
    | (s, some (.error codes)) => etchEnd s t u id (resOf codes)
    | (s, some (.ok (bs, p))) =>
      let w := (List.range n).foldl (fun acc i => winHold acc (winOfBytes (slice bs (32 * i) 32))) ({} : WinRec)
      let o := winRead fFP32 false m w
      match etchOut s t u id.ctx .ok [(cbits c 223 176, leBytes 4 o.1, p)] with
      | (s, none) => s
      | (s, some (.error codes)) => etchFail s t u id ((if p then [stPOISON] else []) ++ codes) [(cbits c 223 176, 4)]
      | (s, some (.ok more)) =>
        let r := resOf ((if p then [stPOISON] else []) ++ more ++ (if o.2 then [stOVERFLOW] else [])
          ++ (if w.under = 0 then [] else [stNOTE]))
        etchEnd s t u id { r with note := if r.code = stNOTE then w.under else r.note }

def execEtchCombine (c : CmdAns) (s : State) : Out := .next (withCmd s c.id 0x61 fun x => etchCombine s c.id x c.resp)

/-! ## State export and import (R415, R416) -/

/-- Bytes of an element array and of its scales. -/
def imageElemBytes (fmt n : Nat) : Nat := n * (elemBits fmt / 8)
def imageScaleBytes (fmt n : Nat) : Nat := if isQm fmt then 2 * ((n + 63) / 64) else 0

/-- The export image's header (R415). -/
def imageHeader (fmt tensor step first count total dataCheck : Nat) : List Byte :=
  let h := leBytes 4 0x4C585354 ++ leBytes 4 (1 + fmt * 2 ^ 8) ++ leBytes 4 tensor ++ leBytes 4 step
    ++ leBytes 8 first ++ leBytes 4 count ++ leBytes 4 0 ++ leBytes 8 total ++ leBytes 4 (imageElemBytes fmt count)
    ++ leBytes 4 (imageScaleBytes fmt count) ++ leBytes 4 dataCheck ++ leBytes 8 0
  h ++ leBytes 4 (crc32c h)

/-- STATE_EXPORT writes the image of a shard. -/
def stateExport (s : State) (id : CmdId) (c : Cmd) (resp : LineResp) : State :=
  let fmt := cbits c 308 304
  let first := cbits c 375 320
  let n := cbits c 415 384 + 1
  let total := cbits c 471 416 + 1
  let t := c.tile
  let u := c.engine
  let named := [(175, 128), (223, 176), (271, 224), (303, 272), (308, 304), (375, 320), (415, 384), (471, 416)]
  let bad := !reservedOk c.word.toNat named || !fmtKnown fmt ||
    (isQm fmt && (first % 64 != 0 || ((first + n) % 64 != 0 && first + n != total)))
  acceptCmd s id bad (!etchFmtOk fmt) false fun _ =>
    let eb := imageElemBytes fmt n
    let sb := imageScaleBytes fmt n
    let dst := cbits c 271 224
    let outs := [(dst, 0x40), (dst + 0x40, eb), (dst + 0x40 + roundUp eb 64, sb)]
    match etchReads s t u id.ctx resp [(cbits c 175 128, eb), (cbits c 223 176, sb)] [] with
    | (s, none) => s
    | (s, some (.error codes)) => etchFail s t u id codes outs
    | (s, some (.ok got)) =>
      let es := (lget got 0 ([], false)).1
      let ss := (lget got 1 ([], false)).1
      let p := got.any (·.2)
      let h := imageHeader fmt (cbits c 303 272) (ctxStep s id.ctx) first n total (crc32c (es ++ ss))
      match etchOut s t u id.ctx .ok [(dst, h, p), (dst + 0x40, es, p), (dst + 0x40 + roundUp eb 64, ss, p)] with
      | (s, none) => s
      | (s, some (.error codes)) => etchFail s t u id ((if p then [stPOISON] else []) ++ codes) outs
      | (s, some (.ok more)) =>
        etchEnd (bump s (pgETCH t u) 12) t u id (resOf ((if p then [stPOISON] else []) ++ more))

def execStateExport (c : CmdAns) (s : State) : Out := .next (withCmd s c.id 0x62 fun x => stateExport s c.id x c.resp)

/-- An image's header passes its checks (R416). -/
def imageOk (h : List Byte) : Bool :=
  field h 0x3C 4 == crc32c (slice h 0 0x3C) && field h 0 4 == 0x4C585354 && field h 4 1 == 1

/-- STATE_IMPORT checks an image and copies its overlap with the shard. -/
def stateImport (s : State) (id : CmdId) (c : Cmd) (resp : LineResp) : State :=
  let fmt := cbits c 308 304
  let sFirst := cbits c 375 320
  let sN := cbits c 415 384 + 1
  let src := cbits c 175 128
  let t := c.tile
  let u := c.engine
  let named := [(175, 128), (223, 176), (271, 224), (303, 272), (308, 304), (375, 320), (415, 384)]
  let refuse (s : State) : State :=
    etchEnd (bump (etchLog s t u 4 id.ctx) (pgETCH t u) 14) t u id (reject stBAD)
  acceptCmd s id (!reservedOk c.word.toNat named || !fmtKnown fmt) (!etchFmtOk fmt) false fun _ =>
    match etchRead s t u id.ctx src 64 resp with
    | (s, none) => s
    | (s, some (.error codes)) => etchEnd s t u id (resOf codes)
    | (s, some (.ok (h, p))) =>
      if p then etchEnd s t u id (resOf [stPOISON])
      else if !imageOk h then refuse s
      else
        let n := field h 0x18 4
        let eb := field h 0x28 4
        let sb := field h 0x2C 4
        match etchReads s t u id.ctx (respRest s (.etch t u) id.ctx src 64 resp)
            [(src + 0x40, eb), (src + 0x40 + roundUp eb 64, sb)] [] with
        | (s, none) => s
        | (s, some (.error codes)) => etchEnd s t u id (resOf codes)
        | (s, some (.ok got)) =>
          let es := (lget got 0 ([], false)).1
          let ss := (lget got 1 ([], false)).1
          let first := bits (field h 0x10 8) 55 0
          let total := bits (field h 0x20 8) 55 0
          let lo := max first sFirst
          let hi := min (first + n) (sFirst + sN)
          let odd := isQm fmt && lo < hi &&
            (lo % 64 != 0 || sFirst % 64 != 0 || (hi % 64 != 0 && hi != total))
          if got.any (·.2) then etchEnd s t u id (resOf [stPOISON])
          else if field h 0x30 4 != crc32c (es ++ ss) || field h 8 4 != cbits c 303 272 ||
              bits (field h 4 4) 12 8 != fmt || odd then refuse s
          else if hi ≤ lo then etchEnd (bump s (pgETCH t u) 13) t u id (resOf [stNOTE])
          else
            let w := elemBits fmt / 8
            let e := slice es ((lo - first) * w) ((hi - lo) * w)
            let sc := if isQm fmt then slice ss ((lo - first) / 64 * 2) ((hi - lo + 63) / 64 * 2) else []
            match etchOut s t u id.ctx .ok [(cbits c 223 176 + (lo - sFirst) * w, e, false),
                (cbits c 271 224 + (lo - sFirst) / 64 * 2, sc, false)] with
            | (s, none) => s
            | (s, some (.error codes)) => etchFail s t u id codes [(cbits c 223 176 + (lo - sFirst) * w, e.length),
                (cbits c 271 224 + (lo - sFirst) / 64 * 2, sc.length)]
            | (s, some (.ok more)) => etchEnd (bump s (pgETCH t u) 13) t u id (resOf more)

def execStateImport (c : CmdAns) (s : State) : Out := .next (withCmd s c.id 0x63 fun x => stateImport s c.id x c.resp)

/-! ## The pipeline sequencer (R417 to R420) -/

/-- SEQ_RUN is accepted and starts the context's sequencer. -/
def seqStart (s : State) (id : CmdId) (c : Cmd) : State :=
  let pg := pgCTX id.ctx
  let named := [(135, 128), (141, 136), (147, 142), (153, 148), (159, 154), (191, 160), (223, 192), (287, 224),
    (293, 288), (309, 294), (310, 310), (319, 311), (325, 320)]
  let out := c.word.toNat.testBit 310 && ctxFold s (cbits c 319 311) != ctxFold s id.ctx
  acceptCmd s id (!reservedOk c.word.toNat named) (cbits c 223 192 < cbits c 191 160)
    ((mget s.trn.seqs id.ctx).isSome || out) fun _ =>
    let q : SeqSt := { id := id, tF := cbits c 153 148, tB := cbits c 159 154, tO := cbits c 293 288 }
    let s := putTrn s fun x => { x with seqs := mput x.seqs id.ctx q }
    let s := fput (fput s pg F.CTX_SEQ_STS_ACTIVE 1) pg F.CTX_SEQ_STS_ALT 0
    let s := fput (fput s pg F.CTX_SEQ_STS_F_REL 0) pg F.CTX_SEQ_STS_B_REL 0
    updCmd s id fun c => { c with phase := .running }

def execSeqRun (c : CmdId) (s : State) : Out := .next (withCmd s c 0x68 fun x => seqStart s c x)

/-- Run `go` on a context's sequencer once its START tick is reached. -/
def withSeq (s : State) (ctx : Nat) (go : SeqSt → Cmd → State) : State :=
  match mget s.trn.seqs ctx with
  | none => s
  | some q =>
    match findCmd s q.id with
    | none => s
    | some c => if tickReached s (cbits c 287 224) then go q c else s

/-- Micro-batches of the step. -/
def seqM (c : Cmd) : Nat := cbits c 135 128 + 1

/-- The budget allows another forward pass (R418). -/
def seqFits (q : SeqSt) (c : Cmd) : Bool :=
  (Int.ofNat q.f - Int.ofNat q.doneB + 1) * Int.ofNat (cbits c 191 160) ≤ Int.ofNat (cbits c 223 192)

/-- The budget binds: a forward pass is left and does not fit. -/
def seqAlt (s : State) (ctx : Nat) (q : SeqSt) (c : Cmd) : State :=
  if q.b < seqM c && q.f < seqM c && !seqFits q c then fput s (pgCTX ctx) F.CTX_SEQ_STS_ALT 1 else s

/-- Release forward pass f when one is left and the budget allows it. -/
def seqForward (s : State) (ctx : Nat) : State :=
  withSeq s ctx fun q c =>
    let s := seqAlt s ctx q c
    if q.b < seqM c && q.f < seqM c && seqFits q c then
      let s := putTrn s fun x => { x with seqs := mput x.seqs ctx { q with f := q.f + 1 } }
      tallyAdd (fput s (pgCTX ctx) F.CTX_SEQ_STS_F_REL (q.f + 1)) ctx (cbits c 141 136) 1
    else s

def execSeqReleaseForward (ctx : Nat) (s : State) : Out := .next (if ctx < 512 then seqForward s ctx else s)

/-- Release backward pass b when no forward pass may go first and its forward pass is done. -/
def seqBackward (s : State) (ctx : Nat) : State :=
  withSeq s ctx fun q c =>
    let s := seqAlt s ctx q c
    let m := seqM c
    if q.b < m && !(q.f < m && seqFits q c) && q.b < q.f && q.b < q.doneF && (q.f == m || q.doneB == q.b) then
      let s := putTrn s fun x => { x with seqs := mput x.seqs ctx { q with b := q.b + 1 } }
      tallyAdd (fput s (pgCTX ctx) F.CTX_SEQ_STS_B_REL (q.b + 1)) ctx (cbits c 147 142) 1
    else s

def execSeqReleaseBackward (ctx : Nat) (s : State) : Out := .next (if ctx < 512 then seqBackward s ctx else s)

/-- With every backward pass done, and the optimiser signals if an interlude is asked for, the interlude is
released and the SEQ_RUN completes (R420). -/
def seqFinish (s : State) (ctx : Nat) : State :=
  withSeq s ctx fun q c =>
    let eval := c.word.toNat.testBit 310
    if q.b == seqM c && seqM c ≤ q.doneB && (!eval || cbits c 309 294 ≤ q.opt) then
      let s := putTrn s fun x => { x with seqs := mdel x.seqs ctx }
      let s := fput s (pgCTX ctx) F.CTX_SEQ_STS_ACTIVE 0
      let s := if eval then tallyAdd s (cbits c 319 311) (cbits c 325 320) 1 else s
      finishCmd s q.id {}
    else s

def execSeqEvalRelease (ctx : Nat) (s : State) : Out := .next (if ctx < 512 then seqFinish s ctx else s)

/-- What a fold reset clears in a context (R426): CTX_SEQ_STS and a pending STEP_SET. -/
def trnCtxReset (s : State) (ctx : Nat) : State :=
  let pg := pgCTX ctx
  let s := putTrn s fun x => { x with seqs := mdel x.seqs ctx, pend := mdel x.pend ctx }
  let s := fput (fput s pg F.CTX_SEQ_STS_ACTIVE 0) pg F.CTX_SEQ_STS_ALT 0
  let s := fput (fput s pg F.CTX_SEQ_STS_F_REL 0) pg F.CTX_SEQ_STS_B_REL 0
  let s := fput (fput s pg F.CTX_STEP_PEND_STEP 0) pg F.CTX_STEP_STS_PENDING 0
  fputPair s pg F.CTX_STEP_TICK_LO_TICK_LO F.CTX_STEP_TICK_HI_TICK_HI 0 0

end Sys2Proof.Machine
end

