-- ==== Sys2Proof/Machine/Domain.lean ====
section
/-! DEFINITION. Reset domains: what a package reset keeps (R318, R476, R558, R560) and what is left when the
rails drop (R553 to R556). -/

namespace Sys2Proof.Machine

open Sys2Proof

/-- The register words of the always-on domain (R476, R483), as numbers of page × 1024 + word. -/
def aonWords : List Nat :=
  [pgFLT * 1024 + F.FLT_OFFLINE_DIES.off / 4, pgFLT * 1024 + F.FLT_LOGPTR_HEAD.off / 4,
    pgPWR * 1024 + F.PWR_TRIP_VALID.off / 4, pgHOSTP * 1024 + F.HOSTP_RET_EN.off / 4,
    pgHOSTP * 1024 + F.HOSTP_RETSTS_INTACT.off / 4]

/-- The word of PKG_RAILS, which shows the rails and follows them alone (R570). -/
def railsWord : Nat := pgPKG * 1024 + F.PKG_RAILS_IN_WINDOW.off / 4

/-- The reset state with the always-on domain, the fuses, the pins and the flash of `s`; the model's own queue,
outputs and index of free values go on. -/
def aonOnly (s : State) : State :=
  let b := s.boot
  { State.reset with
    pending := s.pending
    out := s.out
    free := s.free
    fuse := s.fuse
    podMembers := s.podMembers
    sysMembers := s.sysMembers
    memc := { keyDraw := s.free }
    herd := { podAt := s.free }
    fltLog := s.fltLog
    regs := mkeep s.regs fun k => aonWords.contains (k / 32) || k / 32 == railsWord
    pwr := { tripN := s.pwr.tripN, alertLow := s.pwr.alertLow }
    boot := { seq := b.seq, en := b.en, hot := b.hot, faultN := b.faultN, latch := b.latch, flash := b.flash } }

/-- The retained region as physical bytes, if it is enabled and lies wholly inside the installed size (R318). -/
def retained (s : State) : Option (Nat × Nat) :=
  let lo := fget s pgHOSTP F.HOSTP_RET_BASE
  let hi := lo + fget s pgHOSTP F.HOSTP_RET_SIZE + 1
  if fbit s pgHOSTP F.HOSTP_RET_EN && hi ≤ fget s pgPKG F.PKG_TIERF_SIZE_GIB && fbit s pgPKG F.PKG_TIERF_VALID then
    some (lo * 2 ^ 30, hi * 2 ^ 30)
  else none

/-- The part of the undefined ranges that lies inside [lo, hi). -/
def undefsIn (us : List (Nat × Nat × Nat)) (lo hi : Nat) : List (Nat × Nat × Nat) :=
  us.filterMap fun u => if max u.1 lo < min u.2.1 hi then some (max u.1 lo, min u.2.1 hi, u.2.2) else none

/-- The lines of [lo, hi) whose newest data an agent holds: they are poisoned with the agents' death (R288,
R315). -/
def heldLines (s : State) (lo hi : Nat) : List Nat :=
  let lines := (s.coh.copies.filter fun e => e.2.st == .modified).map fun e => e.1 / 8
  ((lines ++ s.coh.fly.map (·.1)).filter fun l => lo ≤ l * 256 && l * 256 < hi).eraseDups

/-- A pending life-cycle change is applied (R560): a change to RMA needs the flash's authorisation. The answer
says whether the state changed. -/
def lcsApply (s : State) : Fuses × Bool :=
  let f := if fbit s pgPKG F.PKG_LCS_SVN_PEND then { s.fuse with svnMin := min (s.fuse.svnMin + 1) 64 } else s.fuse
  let target := fget s pgPKG F.PKG_LCS_PEND_TARGET
  if fbit s pgPKG F.PKG_LCS_PENDING && (target != 3 || Config.rmaAuth s.free) then ({ f with lcs := target }, true)
  else (f, false)

/-- The package reset of R476: only the always-on domain is kept, and the retained region of R318 unless a
tamper or a life-cycle change forbids it. `cause` is the CAUSE of R319. -/
def packageReset (s : State) (cause : Nat) : State :=
  let l := lcsApply s
  let region := if s.host.tampered || l.2 then none else retained s
  let cause := if l.2 then 4 else if s.host.tampered then 3 else cause
  let refused := fbit s pgHOSTP F.HOSTP_RET_EN && (retained s).isNone
  let t := { aonOnly s with fuse := l.1, free := s.free + 1 }
  let t := fput (fput t pgHOSTP F.HOSTP_RETSTS_DESC_VALID 0) pgHOSTP F.HOSTP_RETSTS_INTACT 0
  let t := if refused then fput t pgHOSTP F.HOSTP_RETSTS_REFUSED 1 else t
  let t := if l.2 then keepWipe t 2 else t
  match region with
  | none => { t with host := { cause := cause } }
  | some (lo, hi) =>
    let t := { t with
      mem := mkeep s.mem fun a => lo ≤ a && a < hi
      undefs := undefsIn s.undefs lo hi
      poison := mkeep s.poison fun g => lo ≤ g * 8 && g * 8 < hi
      host :=
        { cause := cause, keeps := true, boots := s.host.boots + 1, srEntry := herdTime s
          intact := 2 ^ fget s pgPKG F.PKG_TIERF_CHANNELS - 1 } }
    (heldLines s lo hi).foldl (fun t line => setPoison t (line * 256) true) t

/-! ## The rails (R545, R551 to R556) -/

def putBoot (s : State) (f : BootSt → BootSt) : State := { s with boot := f s.boot }

/-- Show which rails are in window. -/
def showRails (s : State) (win : Nat) : State := fput s pgPKG F.PKG_RAILS_IN_WINDOW win

/-- Every rail of index 1 to 22 has lost its supply: only the always-on domain is left. -/
def powerLoss (s : State) : State :=
  let s := aonOnly s
  let b := s.boot
  showRails { s with boot := { b with en := 0, hot := 0 } } 1

/-- A sequencer fault (R552, R554, R556): one entry in the fault log, and every rail drops; the sequencer stays
off until PWR_ON has been low. -/
def seqFault (s : State) (cause unit time : Nat) : State :=
  let s := logFaultAt s 0x14 cause unit (s.boot.hot - s.boot.hot % 2) time
  putBoot (powerLoss s) fun b => { b with seq := .faulted }

end Sys2Proof.Machine
end

