-- ==== Sys2Proof/Machine/Power.lean ====
section
/-! DEFINITION. Power, thermal and ageing (chapter 14): operating points and their voltages (R430 to R432), droop
(R433), the regulator alert (R434, R435), the software cap (R436 to R440), temperatures and the trip (R441,
R442), energy accounts (R444, R445), margins and ageing (R446 to R450). -/

namespace Sys2Proof.Machine

open Sys2Proof

def putPwr (s : State) (f : PwrSt → PwrSt) : State := { s with pwr := f s.pwr }

/-! ## Operating points -/

/-- Nominal voltage of a point in mV (R430). -/
def opNominal (n : Nat) : Nat := 900 - 20 * n

/-- Margin of point n in mV as it acts: at most 60 mV, and no more than carries the voltage to 0.95 V (R448). -/
def opMargin (s : State) (d n : Nat) : Nat :=
  let w := if n < 8 then fget s (pgPWRDIE d) F.PWR_VMARGIN_LO_MARGIN else fget s (pgPWRDIE d) F.PWR_VMARGIN_HI_MARGIN
  min (5 * min (w / 16 ^ (n % 8) % 16) 12) (950 - opNominal n)

/-- Planned voltage of point n on die d (R430). -/
def opPlanned (s : State) (d n : Nat) : Nat := opNominal n + opMargin s d n

/-- The point the die is to run at: the slowest of R431. -/
def opTarget (s : State) (d : Nat) : Nat :=
  let pg := pgPWRDIE d
  if fbit s pgPWR F.PWR_STS_ALERT then 15
  else max (max (fget s pg F.PWR_DIE_CTL_OP_REQ) (fget s pgPWR F.PWR_STS_CEIL_CAP))
    (max (fget s pg F.PWR_DIE_STS_CEIL_THERM) (fget s pg F.PWR_DIE_STS_CEIL_AGE))

/-- A die's voltage in mV; a rail starts at 0.600 V (R546, R551). -/
def dieVolt (s : State) (d : Nat) : Nat := mgetD s.pwr.volt d 600

/-- A die in a 2 µs voltage step abandons its old target only at the step's end, save under the alert (R432, R434). -/
def opHeld (s : State) (d : Nat) : Bool := (mget s.pwr.goal d).isSome && !fbit s pgPWR F.PWR_STS_ALERT

/-- A die moves toward its target (R432, R451): slower at once; faster when its voltage has reached the target's
planned value and no droop holds; neither within a voltage step; and a voltage step starts if none runs. -/
def opSettle (s : State) (d : Nat) : State :=
  if clocksStopped s then s
  else
    let pg := pgPWRDIE d
    let t := opTarget s d
    let now := fget s pg F.PWR_DIE_STS_OP_NOW
    let go := !opHeld s d &&
      (now < t || (t < now && opPlanned s d t ≤ dieVolt s d && !fbit s pg F.PWR_DIE_STS_DROOP))
    let s := if go then bump (fput s pg F.PWR_DIE_STS_OP_NOW t) pg 2 else s
    let plan := opPlanned s d t
    let s := if dieVolt s d = plan ∨ (mget s.pwr.goal d).isSome then s
      else putPwr s fun p => { p with goal := mput p.goal d plan }
    fputb s pg F.PWR_DIE_STS_IN_TRANSITION (fget s pg F.PWR_DIE_STS_OP_NOW != t || dieVolt s d != plan)

/-- Every die settles. -/
def opSettleAll (s : State) : State := (List.range 16).foldl opSettle s

/-- A write of OP_REQ under the owning fold's authority (R431, R453). -/
def execOpReqWrite (src : Src) (die op : Nat) (s : State) : Out :=
  .next (if die < 16 ∧ op < 16 then
    withPage s src (pgPWRDIE die) fun s => opSettle (fput s (pgPWRDIE die) F.PWR_DIE_CTL_OP_REQ op) die
  else s)

/-- One bit of the CRC-8 of R546. -/
def crc8Bit (c : Nat) : Nat := if c.testBit 7 then (c * 2 % 256) ^^^ 0x07 else c * 2

/-- CRC-8 over bytes, most significant bit first (R546). -/
def crc8 (bs : List Nat) : Nat :=
  bs.foldl (fun c b => crc8Bit (crc8Bit (crc8Bit (crc8Bit (crc8Bit (crc8Bit (crc8Bit (crc8Bit (c ^^^ b))))))))) 0

/-- The frame that sets a die of a tile to a voltage (R546). -/
def railFrame (die mv : Nat) : Nat :=
  let top := 2 * 2 ^ 14 + die % 4 * 2 ^ 12 + mv % 1024 * 4 + 1
  top * 256 + crc8 [top / 256, top % 256]

/-- The end of a die's 2 µs step: its voltage moves by up to 20 mV toward the plan the step began with (R432). -/
def voltageStep (s : State) (d : Nat) : State :=
  match mget s.pwr.goal d with
  | none => opSettle s d
  | some g =>
    if clocksStopped s then s
    else
      let v := dieVolt s d
      let v' := if v < g then min g (v + 20) else max g (v - 20)
      let s := putPwr s fun p => { p with volt := mput p.volt d v', goal := mdel p.goal d }
      opSettle (emit s (.railFrame (d / 4) (railFrame d v'))) d

def execVoltageStep (die : Nat) (s : State) : Out := .next (if die < 16 then voltageStep s die else s)

/-! ## Droop (R433) -/

/-- The supply falls below the threshold: every fourth clock edge is suppressed. -/
def execDroop (die : Nat) (s : State) : Out :=
  .next (if die < 16 ∧ !fbit s (pgPWRDIE die) F.PWR_DIE_STS_DROOP then
    bump (fput s (pgPWRDIE die) F.PWR_DIE_STS_DROOP 1) (pgPWRDIE die) 0 else s)

/-- The supply has stayed above for 64 cycles; `stretched` cycles were stretched. -/
def execDroopEnd (die stretched : Nat) (s : State) : Out :=
  .next (if die < 16 ∧ fbit s (pgPWRDIE die) F.PWR_DIE_STS_DROOP then
    opSettle (bumpBy (fput s (pgPWRDIE die) F.PWR_DIE_STS_DROOP 0) (pgPWRDIE die) 1 stretched) die else s)

/-! ## The alert wire (R434, R435) -/

/-- PWR_ALERT_N is sampled low. -/
def execPwrAlert (s : State) : Out :=
  .next (if s.pwr.alertLow then s
  else
    let s := bump (putPwr s fun p => { p with alertLow := true }) pgPWR 6
    opSettleAll (fput s pgPWR F.PWR_STS_ALERT 1))

/-- PWR_ALERT_N has been high for `us` µs without a break: after 10 µs the alert ends and the cap ceiling is
OP15. -/
def execPwrAlertRelease (us : Nat) (s : State) : Out :=
  let s := putPwr s fun p => { p with alertLow := false }
  .next (if 10 ≤ us ∧ fbit s pgPWR F.PWR_STS_ALERT then
    opSettleAll (fput (fput s pgPWR F.PWR_STS_ALERT 0) pgPWR F.PWR_STS_CEIL_CAP 15) else s)

/-! ## The cap (R436 to R440) -/

/-- DUTY_FLOOR as it acts (R452). -/
def dutyFloor (s : State) : Nat := min (max (fget s pgPWR F.PWR_CTL_DUTY_FLOOR) 1) 16

/-- One decision of the cap loop with package power `p` (R437, R439): none is made during an alert or after a
trip (R451). -/
def capDecide (s : State) (p : Nat) : State :=
  if fbit s pgPWR F.PWR_STS_ALERT || clocksStopped s then s
  else
    let cap := fget s pgPWR F.PWR_CAP_CAP_W
    let ceil := fget s pgPWR F.PWR_STS_CEIL_CAP
    let duty := fget s pgPWR F.PWR_STS_DUTY
    let s := bump (fput s pgPWR F.PWR_PKG_W_AVG_W (min p 0xFFF)) pgPWR 0
    let s := if cap < p then bump s pgPWR 1 else s
    if cap < p ∧ ceil = 15 ∧ duty ≤ dutyFloor s then
      let s := bump s pgPWR 5
      if fbit s pgPWR F.PWR_STS_CAP_UNMET then s else raiseEvent (fput s pgPWR F.PWR_STS_CAP_UNMET 1) pgPWR
    else
      let s := if p ≤ cap then fput s pgPWR F.PWR_STS_CAP_UNMET 0 else s
      let s := if fbit s pgPWR F.PWR_STS_CAP_UNMET then bump s pgPWR 5 else s
      if cap < p then
        if ceil = 15 then bump (fput s pgPWR F.PWR_STS_DUTY (duty - 1)) pgPWR 4
        else
          let c := min 15 (ceil + if 11 * cap < 10 * p then 2 else 1)
          opSettleAll (fput (bumpBy s pgPWR 2 (c - ceil)) pgPWR F.PWR_STS_CEIL_CAP c)
      else if 100 * p < 95 * cap then
        if duty < 16 then fput s pgPWR F.PWR_STS_DUTY (duty + 1)
        else if 0 < ceil then
          opSettleAll (fput (bump s pgPWR 3) pgPWR F.PWR_STS_CEIL_CAP (ceil - 1))
        else s
      else s

/-- A period's decision, with the power averaged over it. -/
def execCapDecision (watts : Nat) (s : State) : Out := .next (capDecide s watts)

/-- A cap takes effect, and the loop decides at once with the power of the last complete period (R436, R437). -/
def capTake (s : State) (w : Nat) : State :=
  let s := putPwr s fun p => { p with capNext := none }
  let s := bump (fput (fput s pgPWR F.PWR_CAP_CAP_W w) pgPWR F.PWR_STS_PENDING 0) pgPWR 8
  capDecide s (fget s pgPWR F.PWR_PKG_W_AVG_W)

/-- A write of PWR_CAP_NEXT (R436): clamped, and pending until PWR_CAP_TICK, or at once when that is past. -/
def capNextWrite (s : State) (w : Nat) : State :=
  let c := min (max w 1400) 2800
  let s := if c = w then s else bump (fput s pgPWR F.PWR_STS_CLAMPED 1) pgPWR 9
  let tick := fpair s pgPWR F.PWR_CAP_TICK_LO_TICK_LO F.PWR_CAP_TICK_HI_TICK_HI 0
  if tickReached s tick then capTake (bump (fput s pgPWR F.PWR_STS_LATE 1) pgPWR 10) c
  else fput (putPwr s fun p => { p with capNext := some (c, tick) }) pgPWR F.PWR_STS_PENDING 1

def execPwrCapNextWrite (src : Src) (watts : BitVec 12) (s : State) : Out :=
  .next (withSys s src fun s => capNextWrite s watts.toNat)

/-- A pending cap takes effect once its tick is reached. -/
def capApply (s : State) : State :=
  match s.pwr.capNext with
  | some (w, tick) => if tickReached s tick then capTake s w else s
  | none => s

def execCapApply (s : State) : Out := .next (capApply s)

/-! ## Temperature (R441, R442) -/

/-- A trip: the clocks stop, THERM_TRIP_N is asserted and PWR_TRIP records it; a powered part then drops its rails, and in a
power-down the drop replaces the remaining steps (R442, R555, R557). -/
def thermalTrip (s : State) (source unit temp : Nat) : State :=
  let s := putPwr s fun p => { p with tripN := true }
  let s := if fbit s pgPWR F.PWR_TRIP_VALID then s
    else fput (fput (fput (fput s pgPWR F.PWR_TRIP_VALID 1) pgPWR F.PWR_TRIP_SOURCE source)
      pgPWR F.PWR_TRIP_UNIT unit) pgPWR F.PWR_TRIP_TEMP (min temp 255)
  match s.boot.seq with
  | .powered => seqFault s 4 0xFFFF (herdTime s)
  | .down _ => putBoot (seqFault s 4 0xFFFF s.boot.latch) fun b => { b with seq := .off }
  | _ => s

/-- The trip reading of a source: 1 C-die, 2 stack, 3 tile, 4 host die. -/
def tripAt (source : Nat) : Nat := if source = 2 then 115 else 125

def execThermalTrip (source unit temp : Nat) (s : State) : Out :=
  .next (if 1 ≤ source ∧ source ≤ 4 ∧ tripAt source ≤ temp ∧ !s.pwr.tripN then thermalTrip s source unit temp else s)

/-- A unit's hottest junction is read; a C-die shows it in TJ (R441). -/
def execTempSensorRead (unit : TempUnit) (temp : Nat) (s : State) : Out :=
  let s := match unit with
    | .cdie d => if d < 16 then fput s (pgPWRDIE d) F.PWR_DIE_STS_TJ (min temp 255) else s
    | _ => s
  let who : Nat × Nat := match unit with | .cdie d => (1, d) | .tile t => (3, t) | .host h => (4, h)
  .next (if 125 ≤ temp ∧ !s.pwr.tripN then thermalTrip s who.1 who.2 temp else s)

/-- Once a period a die's thermal ceiling moves one step by its junction temperature (R441). -/
def execThermalCeilingUpdate (die : Nat) (s : State) : Out :=
  let pg := pgPWRDIE die
  let tj := fget s pg F.PWR_DIE_STS_TJ
  let thr := fget s pg F.PWR_DIE_CTL_TJ_THROTTLE
  let c := fget s pg F.PWR_DIE_STS_CEIL_THERM
  .next (if 16 ≤ die ∨ clocksStopped s then s
    else if thr ≤ tj then opSettle (fput s pg F.PWR_DIE_STS_CEIL_THERM (min 15 (c + 1))) die
    else if tj + 5 ≤ thr then opSettle (fput s pg F.PWR_DIE_STS_CEIL_THERM (c - 1)) die
    else s)

/-! ## Margins and ageing (R446 to R450) -/

/-- A write of CAL runs the calibration load on a die of no fold; another is ignored and counted (R447). -/
def execCalWrite (src : Src) (die : Nat) (on : Bool) (s : State) : Out :=
  .next (if die < 16 then withSys s src fun s =>
    if (dieFold s die).isNone then fputb s (pgPWRDIE die) F.PWR_DIE_CTL_CAL on else bump s (pgPWRDIE die) 8
  else s)

/-- CEIL_AGE from the retired points and the guard steps (R449, R450). -/
def ageCeiling (s : State) (d : Nat) : State :=
  let r := fget s (pgPWRDIE d) F.PWR_OPRETIRE_RETIRED
  let k := if r = 0 then 0 else Nat.log2 r + 1
  opSettle (fput s (pgPWRDIE d) F.PWR_DIE_STS_CEIL_AGE (min 15 (k + (mgetD s.pwr.guards d []).length))) d

/-- A point's margin is written: a higher one acts at once and removes the guard steps added while that point was
in force (R448, R450). -/
def marginWrite (s : State) (d op m : Nat) : State :=
  let pg := pgPWRDIE d
  let f := if op < 8 then F.PWR_VMARGIN_LO_MARGIN else F.PWR_VMARGIN_HI_MARGIN
  let was := opMargin s d op
  let s := fput s pg f (setBits (fget s pg f) (4 * (op % 8) + 3) (4 * (op % 8)) m)
  let s := if was < opMargin s d op then
    putPwr s fun p => { p with guards := mput p.guards d ((mgetD p.guards d []).filter (· != op)) } else s
  ageCeiling s d

def execMarginWrite (src : Src) (die op margin : Nat) (s : State) : Out :=
  .next (if die < 16 ∧ op < 16 ∧ margin < 16 then withSys s src fun s => marginWrite s die op margin else s)

/-- Points are retired: bit k retires every faster point too, and each newly retired point is logged (R449, R453,
R481). -/
def opRetire (s : State) (d bits : Nat) : State :=
  let pg := pgPWRDIE d
  if bits % 2 ^ 15 = 0 then s
  else
    let was := fget s pg F.PWR_OPRETIRE_RETIRED
    let k := Nat.log2 (bits % 2 ^ 15)
    let now := was ||| (2 ^ (k + 1) - 1)
    if now = was then s
    else ageCeiling (logFault (fput s pg F.PWR_OPRETIRE_RETIRED now) 0x04 0 d k) d

def execOpRetire (src : Src) (die : Nat) (bits : BitVec 15) (s : State) : Out :=
  .next (if die < 16 then withSys s src fun s => opRetire s die bits.toNat else s)

/-- The critical-path monitors refresh; a slack below GUARD adds a step to the ageing ceiling (R446, R450). -/
def slackRefresh (s : State) (d slack : Nat) : State :=
  let pg := pgPWRDIE d
  let v := min slack 255
  let s := fput s pg F.PWR_CPM_SLACK v
  let s := fput s pg F.PWR_CPM_LOW (min v (fget s pg F.PWR_CPM_LOW))
  if fget s pg F.PWR_CPM_GUARD ≤ v then s
  else
    let op := fget s pg F.PWR_DIE_STS_OP_NOW
    let s := putPwr s fun p => { p with guards := mput p.guards d (op :: mgetD p.guards d []) }
    raiseEvent (bump (ageCeiling s d) pg 6) pg

def execSlackRefresh (die slack : Nat) (s : State) : Out := .next (if die < 16 then slackRefresh s die slack else s)

/-- Each powered hour every die's PWR_DIE_HOURS grows by 1 (R450, R453). -/
def execHourTick (s : State) : Out :=
  .next ((List.range 16).foldl (fun s d =>
    fput s (pgPWRDIE d) F.PWR_DIE_HOURS_HOURS (fget s (pgPWRDIE d) F.PWR_DIE_HOURS_HOURS + 1)) s)

/-! ## Energy (R261, R444, R445) -/

/-- Add 2^-16 µJ to a fraction: the whole µJ that come out. -/
def addFrac (s : State) (k e : Nat) : State × Nat :=
  let x := mgetD s.pwr.frac k 0 + e
  (putPwr s fun p => { p with frac := mput p.frac k (x % 65536) }, x / 65536)

/-- Charge an account: a 64-bit counter whose wrap is reported in CNT_OVF bit 15 (R536). -/
def charge (s : State) (k page : Nat) (lo hi : Field) (i e : Nat) : State :=
  let r := addFrac s k e
  let v := fpair r.1 page lo hi i + r.2
  let s := fputPair r.1 page lo hi i (v % 2 ^ 64)
  if v < 2 ^ 64 then s else setErr (forBits s page F.CNT_OVF_OVF (2 ^ 15)) page 1

/-- Count whole µJ under a counter. -/
def chargeCount (s : State) (k page n e : Nat) : State :=
  let r := addFrac s k e
  bumpBy r.1 page n r.2

/-- A write of CTX_CFG.FOLD clears the context's eight queue accounts, with their fractions (R445). -/
def clearAccounts (s : State) (c : Nat) : State :=
  (List.range 8).foldl (fun s q =>
    let s := putPwr s fun p => { p with frac := mdel p.frac (1000 + c * 8 + q) }
    fputPair s (pgCTX c) F.CTX_ENERGY_LO_ENERGY_LO F.CTX_ENERGY_HI_ENERGY_HI q 0) s

/-- Charge a fold's account. -/
def chargeFold (s : State) (f e : Nat) : State := charge s f (pgFOLD f) F.FOLD_ENERGY_LO_ENERGY_LO F.FOLD_ENERGY_HI_ENERGY_HI 0 e

/-- The end of a 1 µs sample: every account is charged, and the counters of whole microseconds advance. -/
def energySample (s : State) (e : EnergySample) : State :=
  let acc := e.rails.foldl (fun (a : State × Nat) r =>
    if 16 ≤ r.1 then a
    else
      let s := chargeCount a.1 (200 + r.1) (pgPWRDIE r.1) 7 r.2
      match dieFold s r.1 with
      | some f => (chargeFold s f r.2, a.2 + r.2)
      | none => (s, a.2)) (s, 0)
  let acc := e.events.foldl (fun (a : State × Nat) v =>
    let c := v.1
    let q := v.2.1
    if 512 ≤ c ∨ 8 ≤ q then a
    else
      let s := charge a.1 (1000 + c * 8 + q) (pgCTX c) F.CTX_ENERGY_LO_ENERGY_LO F.CTX_ENERGY_HI_ENERGY_HI q v.2.2
      match ctxFold s c with
      | some f => (chargeFold s f v.2.2, a.2 + v.2.2)
      | none => (s, a.2)) acc
  let s := charge acc.1 99 pgPWR F.PWR_ESYS_LO_ENERGY_LO F.PWR_ESYS_HI_ENERGY_HI 0 (e.input - acc.2)
  let s := chargeCount s 300 pgPWR 11 e.input
  let s := if fbit s pgPWR F.PWR_STS_ALERT then bump s pgPWR 7 else s
  (List.range 16).foldl (fun s d =>
    let req := fget s (pgPWRDIE d) F.PWR_DIE_CTL_OP_REQ
    let s := if req < fget s (pgPWRDIE d) F.PWR_DIE_STS_CEIL_THERM then bump s (pgPWRDIE d) 4 else s
    if req < fget s pgPWR F.PWR_STS_CEIL_CAP then bump s (pgPWRDIE d) 5 else s) s

def execEnergySample (e : EnergySample) (s : State) : Out := .next (energySample s e)

/-- What a fold reset does to the dies' operating points (R451). -/
def opFoldReset (s : State) (dies : Nat) : State :=
  (setBitsOf 16 dies).foldl (fun s d => opSettle (fput s (pgPWRDIE d) F.PWR_DIE_CTL_OP_REQ 0) d) s

end Sys2Proof.Machine
end

