-- ==== Sys2Proof/Machine/Fault.lean ====
section
/-! DEFINITION. Faults (chapter 15): the Sheepdog's watches (R457 to R462), fold reset in its phases (R463 to
R470), capture (R471 to R473), package-fatal faults and package reset (R474 to R476), and the arrays' faults and
self-checks (R117). -/

namespace Sys2Proof.Machine

open Sys2Proof

def putRst (s : State) (f : RstSt → RstSt) : State := { s with rst := f s.rst }

/-- A page's ID (R517). -/
def pageId (page : Nat) : Nat := blkOf page * 65536 + slotOf page

/-- A 32-bit value that the manual leaves open. -/
def freeWord (n : Nat) : Nat := leNat ((List.range 4).map fun i => Config.freeByte n i)

/-- The word of a page at an offset, from the fields as held. -/
def rawWord (s : State) (page off : Nat) : Nat :=
  (blockFields (blkOf page)).foldl (fun w f =>
    match (List.range f.cnt).find? fun i => f.off + i * f.stride == off with
    | some i => w + fgeti s page f i * 2 ^ f.lo
    | none => w) 0

/-! ## What a unit waits for -/

/-- The next requests of a unit through a stream: for a context, of a type, by virtual line pieces. -/
structure Ask where
  stream : StreamId
  ctx : Nat
  kind : AccKind
  pieces : List (Nat × Nat)

/-- The requests of an Etch unit: of its run, or of the combine, export or import that it serves (R404, R411, R415, R416). -/
def etchAsks (s : State) (t u : Nat) : List Ask :=
  let x : StreamId := .etch t u
  let ask (c : Nat) (k : AccKind) (rs : List (Nat × Nat)) : Ask := ⟨x, c, k, rs.flatMap fun r => linePieces r.1 r.2⟩
  match getEtch s t u with
  | some r =>
    if !r.loaded then
      match findCmd s r.id with
      | none => []
      | some c =>
        let d := [ask r.id.ctx .rd [(cbits c 175 128, 256)]]
        match etchRead s t u r.id.ctx (cbits c 175 128) 256 .ok with
        | (_, some (.ok (bs, _))) => d ++ [ask r.id.ctx .rd ([(etchProg bs, 32 + 4 * 56)] ++
            (setBitsOf 8 (etchScalLoad bs)).map fun k => (etchScalAddr bs + 4 * k, 4))]
        | _ => d
    else if !r.inBlock then [ask r.id.ctx .rd ((etchStreams r.desc).flatMap (blockRanges r.desc r.block))]
    else [ask r.id.ctx .wr ((((etchStreams r.desc).filter (·.wb)).flatMap (blockRanges r.desc r.block)) ++
      (if etchNormOut r.desc = 0 then [] else [(etchNormOut r.desc, 32)]))]
  | none =>
    (s.cmds.filter fun c => c.phase == .granted && c.tile == t && c.engine == u && 0x61 ≤ cOp c && cOp c ≤ 0x63).flatMap fun c =>
      let fmt := cbits c 308 304
      let n := cbits c 415 384 + 1
      let eb := imageElemBytes fmt n
      let sb := imageScaleBytes fmt n
      match cOp c with
      | 0x61 => [ask c.id.ctx .rd [(cbits c 175 128, 32 * (cbits c 239 224 + 1))], ask c.id.ctx .wr [(cbits c 223 176, 4)]]
      | 0x62 => [ask c.id.ctx .rd [(cbits c 175 128, eb), (cbits c 223 176, sb)],
          ask c.id.ctx .wr [(cbits c 271 224, 0x40 + roundUp eb 64 + sb)]]
      | _ => [ask c.id.ctx .rd [(cbits c 175 128, 64)], ask c.id.ctx .wr [(cbits c 223 176, eb), (cbits c 271 224, sb)]]

/-- The requests of a collective: its inputs, then what it has to write (R381, R386). -/
def colAsks (s : State) (x : ColSt) : List Ask :=
  match findCmd s x.id with
  | none => []
  | some c =>
    let ask (k : AccKind) (rs : List (Nat × Nat)) : Ask := ⟨colStream x, x.id.ctx, k, rs.flatMap fun r => linePieces r.1 r.2⟩
    if !x.launched then [ask .rd (colInputs s x c)]
    else [ask .wr (x.todo.map fun e => (e.1, e.2.1.length))] ++
      (if colComplete s x c then [ask .wr (colRanges (asOf s x) c)] else [])

/-- The requests of a hatch unit for its weights and their scales (R137). -/
def hatchAsks (s : State) (d p : Nat) : List Ask :=
  match (getHatch s d p).run with
  | none => []
  | some r =>
    let x := r.iss
    if hSpace x != 0 then []
    else
      let rb := rowBytes (hFmtW x) (hK x)
      let off := dbits x 127 80 + r.row * dbits x 159 128 + r.got.length
      let n := min (rb - r.got.length) (256 - off % 256)
      let sc := if r.got.length + n < rb then []
        else linePieces (dbits x 207 160 + r.row * dbits x 239 208) (rowScaleBytes (hFmtW x) (hK x))
      [⟨.hatch d p, x.ctx, .rd, linePieces off n ++ sc⟩]

/-- The requests of an array's save and restore paths (R115, R116). -/
def saveAsks (s : State) (u : ArrayUnit) : List Ask :=
  let x : StreamId := .array u.die u.pen u.arr
  let at_ (i : Issue) (slot : Nat) : Ask :=
    let n := 4 * side u.quarter
    let j := pAccBase i
    let m := pVectors i
    ⟨x, i.ctx, .rdwr, linePieces slot 128 ++ linePieces (slot + 0x5000 + j * n) (m * n) ++
      linePieces (slot + 0x1000 + j * (n / 16)) (m * (n / 16)) ++
      (if pMode i = 0 then [] else linePieces (slot + 0x25000 + j * n) (m * n))⟩
  match (getArr s u).passes.find? fun p => p.stop.isSome with
  | some p => [at_ p.iss (passSlot s u p).1]
  | none => match unitNext s u with
    | some i => (match i.slot with | some e => [at_ i e.1] | none => [])
    | none => []

/-- The requests of a unit that is no Drover engine and no front-end. -/
def unitAsks (s : State) (u : UnitId) : List Ask :=
  match u with
  | .array a => saveAsks s a
  | .hatch d p => hatchAsks s d p
  | .etch t e => etchAsks s t e
  | .coll t _ => (s.fab.cols.filter fun x => x.tile == t).flatMap (colAsks s)
  | _ => []

/-- A request waits for tier F or a window (R576). -/
def askBelow (s : State) (a : Ask) : Bool := waitsBelow s a.stream a.ctx a.kind a.pieces

/-- A request waits on something with its own bound (R458): a lower tier or a remote exchange, its stream's stall, or a stack
at critical. -/
def askBound (s : State) (a : Ask) : Bool :=
  (getStream s a.stream).stall.isSome || a.pieces.any fun l =>
    match access s a.stream {} a.ctx l.1 a.kind with
    | .ok pa _ => lowerPa s pa || stackStops s pa
    | .comp _ _ => true
    | _ => false

/-- A granted command of a tile's front-end that waits for a line of a lower tier or of an external host. -/
def frontWaits (s : State) (t : Nat) (c : Cmd) : Bool :=
  let x : StreamId := .queue c.id.ctx c.id.q
  c.phase == .granted && c.tile == t && (cOp c == 0x72 || cOp c == 0x73 ||
    (cOp c == 0x70 && waitsBelow s x c.id.ctx (if cbits c 185 184 = 0 then .wr else .atom)
      (linePieces (cbits c 175 128) (cbits c 183 176 + 1))) ||
    (cOp c == 0x19 && waitsBelow s x c.id.ctx .rd [(cbits c 239 192, 128)]))

/-- A queue of a tile's front-end whose next completion record waits for a line. -/
def postWaits (s : State) (t c q : Nat) : Bool :=
  fgeti s (pgCTX c) F.QCFG_HOME_TILE q == t && (match oldestCmd s c q with
    | some x => x.phase == .done && waitsBelow s (.queue c q) c .wr [(recordVa s c q, 16)]
    | none => false)

/-- A queue of a tile's front-end whose fetch waits for a line. -/
def fetchWaits (s : State) (t c q : Nat) : Bool :=
  fgeti s (pgCTX c) F.QCFG_HOME_TILE q == t && waitsBelow s (.queue c q) c .rd [(entryVa s c q, 64)]

/-- The address below which a Drover engine's run or its SCHED_RUN's table waits (R225). -/
def engineBelow (s : State) (t e : Nat) : Option Nat :=
  match getDrv s t e with
  | some r => (findCmd s r.cmd).bind fun c => droverBelow s t e c r
  | none => none

/-- The SCHED_RUN of a Drover engine whose table read waits for a lower tier, and the address it waits for. -/
def schedBelow (s : State) (t e : Nat) : Option (Cmd × Nat) :=
  (s.cmds.filter fun c => c.phase == .granted && c.tile == t && c.engine == e && cOp c == 0x34).findSome? fun c =>
    (linePieces (cbits c 175 128) ((cbits c 191 176 + 1) * 32)).findSome? fun l =>
      match access s (.drover t e) { drover := true } c.id.ctx l.1 .rd with
      | .ok pa _ => if lowerPa s pa then some (c, pa) else none
      | .comp base v => some (c, slotPa base v)
      | _ => none

/-! ## Triggering a fold reset (R463 to R465) -/

def getFoldRst (s : State) (f : Nat) : Option FoldRst := mget s.rst.folds f
def putFoldRst (s : State) (f : Nat) (x : FoldRst) : State := putRst s fun r => { r with folds := mput r.folds f x }

/-- The contexts of a fold. -/
def foldCtxs (s : State) (f : Nat) : List Nat := (List.range 512).filter fun c => ctxFold s c == some f

/-- A command of the fold. -/
def ofFold (s : State) (f : Nat) (c : Cmd) : Bool := ctxFold s c.id.ctx == some f

/-- One engine record (R472): the unit's page, the command's context and queue, the state, bytes 0 to 15 of the
command or descriptor, and the progress. -/
def engineRec (page ctx q state hdr progress : Nat) : Nat × List Byte :=
  (pageId page, leBytes 4 (pageId page) ++ leBytes 4 (ctx + q * 2 ^ 16 + state * 2 ^ 24) ++ leBytes 16 (hdr % 2 ^ 128)
    ++ leBytes 8 progress ++ leBytes 32 0)

/-- State of a unit with a stream (R472): 1 running, 2 stalled on a fault slot, 3 held by the move filter, 4 waiting on a
lower tier. -/
def streamState (s : State) (u : UnitId) (x : StreamId) : Nat :=
  match (getStream s x).stall with
  | some t => if t.hold then 3 else 2
  | none =>
    let below := match u with
      | .drover t e => (engineBelow s t e).isSome
      | _ => (unitAsks s u).any (askBelow s)
    if below then 4 else 1

/-- The array or quarter of a unit number. -/
def unitOfKey (n : Nat) : ArrayUnit :=
  let k := n / 5
  ⟨k / 72, k / 8 % 9, k % 8, n % 5 != 0, n % 5 - 1⟩

/-- Bytes 0 to 15 of a command by its name. -/
def cmdHdr (s : State) (id : CmdId) : Nat := match findCmd s id with | some c => c.word.toNat | none => 0

/-- The queue that a descriptor's issuer serves. -/
def issuerQ (s : State) (x : Issue) : Nat :=
  match x.by_ with
  | .cmd c => c.q
  | .core c => (getCore s c).cmd.q
  | .list d p => match mget s.lists (d * 9 + p) with | some l => l.cmd.q | none => 0

/-- The page of the unit at whose input a command waits. -/
def inputPage (u : UnitId) : Nat :=
  match u with
  | .array a => pgMXA a.die a.pen a.arr
  | .hatch d p => pgHATCH d p
  | .vec d p => pgVEC d p
  | .list d p | .pen d p => pgPENPREP d p
  | .prep c => corePage c
  | .drover t e => pgDRV t e
  | .etch t e => pgETCH t e
  | .coll t e => pgCOLL t e
  | .frontEnd t | .remote t => pgSHEEP t

/-- The engine records of a fold's commands and descriptors on its dies' units. -/
def dieRecords (s : State) (f dies : Nat) : List (Nat × List Byte) :=
  let arr := s.arrs.flatMap fun e =>
    let k := e.1 / 5
    let page := pgMXA (k / 72) (k / 8 % 9) (k % 8)
    if !dies.testBit (k / 72) then []
    else
      let st := streamState s (.array (unitOfKey e.1)) (.array (k / 72) (k / 8 % 9) (k % 8))
      (e.2.passes.map fun p => engineRec page p.iss.ctx (issuerQ s p.iss) st p.iss.desc.toNat p.entered) ++
        ((e.2.back ++ e.2.fifo ++ e.2.again.map (·.iss)).map fun x => engineRec page x.ctx (issuerQ s x) 6 x.desc.toNat 0)
  let prep := s.preps.filterMap fun e =>
    let page := pageOf 0x21 e.1
    if dies.testBit (e.1 / 36) && fbit s page F.PREP_STS_RUNNING then
      some (engineRec page e.2.cmd.ctx e.2.cmd.q 1 (cmdHdr s e.2.cmd) e.2.issued)
    else none
  let hatch := s.hatches.flatMap fun e =>
    let page := pageOf 0x23 e.1
    if !dies.testBit (e.1 / 9) then []
    else
      (match e.2.run with
        | some r => [engineRec page r.iss.ctx (issuerQ s r.iss) (streamState s (.hatch (e.1 / 9) (e.1 % 9)) (.hatch (e.1 / 9) (e.1 % 9)))
            r.iss.desc.toNat r.row]
        | none => []) ++ (e.2.fifo.map fun x => engineRec page x.ctx (issuerQ s x) 6 x.desc.toNat 0)
  let lists := s.lists.filterMap fun e =>
    if dies.testBit (e.1 / 9) then
      some (engineRec (pgPENPREP (e.1 / 9) (e.1 % 9)) e.2.ctx e.2.cmd.q 1 (cmdHdr s e.2.cmd) e.2.next)
    else none
  let waiting := s.cmds.filterMap fun c =>
    if ofFold s f c && c.phase == .granted then
      (inputOf s c).map fun u => engineRec (inputPage u) c.id.ctx c.id.q 6 c.word.toNat 0
    else none
  arr ++ prep ++ hatch ++ lists ++ waiting

/-- The engine records of a fold's commands on shared engines. -/
def sharedRecords (s : State) (f : Nat) : List (Nat × List Byte) :=
  let drv := s.drvs.filterMap fun e =>
    if e.2.fold == f then
      some (engineRec (pageOf 0x14 e.1) e.2.cmd.ctx e.2.cmd.q (streamState s (.drover (e.1 / 16) (e.1 % 16)) (.drover (e.1 / 16) (e.1 % 16)))
        (cmdHdr s e.2.cmd) ((e.2.line + 255) / 256))
    else none
  let mv := s.moves.filterMap fun m =>
    if m.fold == f then
      let id := match m.by_ with | .cmd id => id | .entry id _ => id
      some (engineRec (pgDRV m.tile m.engine) m.ctx id.q 1 (cmdHdr s id) 0)
    else none
  let etch := s.trn.units.filterMap fun e =>
    if e.2.fold == f then
      some (engineRec (pageOf 0x15 e.1) e.2.id.ctx e.2.id.q (streamState s (.etch (e.1 / 8) (e.1 % 8)) (.etch (e.1 / 8) (e.1 % 8)))
        (cmdHdr s e.2.id) e.2.block)
    else none
  let pool := s.trn.pool.filterMap fun r =>
    if r.fold == f then some (engineRec (pgETCH r.tile 0) r.id.ctx r.id.q 5 (cmdHdr s r.id) 0) else none
  let col := s.fab.cols.filterMap fun x =>
    if x.fold == f then
      some (engineRec (pgCOLL x.tile 0) x.id.ctx x.id.q (streamState s (.coll x.tile 0) (.coll x.tile 0)) (cmdHdr s x.id) x.have_.length)
    else none
  drv ++ mv ++ etch ++ pool ++ col

/-- Insert by unit ID, after those of the same unit. -/
def insertRec (x : Nat × List Byte) : List (Nat × List Byte) → List (Nat × List Byte)
  | [] => [x]
  | y :: t => if x.1 < y.1 then x :: y :: t else y :: insertRec x t

/-- Records in ascending unit ID, at most 2,304 (R471). -/
def sortRecs (l : List (Nat × List Byte)) : List (List Byte) :=
  ((l.foldl (fun acc x => insertRec x acc) []).map (·.2)).take 2304

/-- An undispatched head goes back to its queue. -/
def dropHead (s : State) (c q : Nat) : State :=
  match queueHead s c q with
  | some x =>
    fputi { s with cmds := s.cmds.filter fun y => y.id != x.id } (pgCTX c) F.QSTS_HEAD q x.entry
  | none => s

/-- The lines [va, va + n) that a command of a fold has written through a stream, as that stream translates them:
their contents are undefined once the command ends with FOLD_RESET (R466). -/
def undefVa (s : State) (x : StreamId) (ctx va n : Nat) : State :=
  match (getStream s x).cache.find? fun e => e.ctx == ctx with
  | none => s
  | some e =>
    (linePieces va n).foldl (fun s l =>
      match xlateTbl e { drover := true } l.1 .wr with
      | .to (.plain pa _) =>
        if isSpadPa pa || tierOfAddr pa == 4 then s else undefLines s (pa / 256 * 256) (pa / 256 * 256 + 256)
      | .to (.comp base v) => undefLines s (slotPa base v) (slotPa base v + 4096)
      | _ => s) s

/-- What a collective of the fold has written so far is undefined: the shards it has, or, once it has every chunk, its
whole result. -/
def undefCol (s : State) (x : ColSt) : State :=
  match findCmd s x.id with
  | none => s
  | some c =>
    let v := asOf s x
    if !kReduces c then
      if colComplete s x c then (colRanges v c).foldl (fun s r => undefVa s (colStream x) x.id.ctx r.1 r.2) s else s
    else x.have_.foldl (fun s e =>
      let r := chunkRange v c e.1
      let base := if cOp c = 0x41 then tagRank v c e.1 * shardLen v c else 0
      undefVa s (colStream x) x.id.ctx (kDst c + (r.1 - base) * elemBits (kOut c) / 8)
        ((r.2 - r.1) * elemBits (kOut c) / 8)) s

/-- The Stop phase (R465): RESETTING is set, queues and job rings stop fetching, windows, imports, peer windows and
teams are disabled, and ABORTs are sent. -/
def foldStop (s : State) (f : Nat) : State :=
  let s := fput s (pgFOLD f) F.FOLD_STS_RESETTING 1
  let s := (foldCtxs s f).foldl (fun s c => (List.range 8).foldl (fun s q => dropHead s c q) s) s
  let s := windowsFoldReset s f
  let s := (List.range 4).foldl (fun s l => (List.range 16).foldl (fun s w =>
    if fgeti s (pgHOSTL l) F.HOSTL_PEER_ENABLE w == 1 && fgeti s (pgHOSTL l) F.HOSTL_PEER_FOLD w == f
    then fputi s (pgHOSTL l) F.HOSTL_PEER_ENABLE w 0 else s) s) s
  let s := inpFoldReset s f
  let s := (s.fab.cols.filter fun x => x.fold == f).foldl undefCol s
  colFoldReset s f

/-- Start a fold reset, or count a trigger that names a fold already resetting or disabled (R463). -/
def resetStart (s : State) (f cause unit detail : Nat) : State :=
  if !foldEnabled s f || fbit s (pgFOLD f) F.FOLD_STS_RESETTING then bump s pgFLT 1
  else
    let dies := fget s (pgFOLD f) F.FOLD_DIES_DIES
    let fatal := fget s pgFLT F.FLT_FOLDFATAL_FOLD
    let s := fput s pgFLT F.FLT_FOLDFATAL_FOLD (fatal - (fatal &&& 2 ^ f))
    let recs := (sharedRecords s f).filter fun e => e.1 / 65536 == 0x16
    foldStop (putFoldRst s f
      { cause := cause, unit := unit, detail := detail, dies := dies, time := herdTime s
        engines := recs.map (·.2) }) f

/-- A fold-reach fault (R463, R464). -/
def foldFault (s : State) (f cause unit detail : Nat) : State :=
  if fbit s pgFLT F.FLT_CTL_AUTO then resetStart s f cause unit detail
  else if !foldEnabled s f || fbit s (pgFOLD f) F.FOLD_STS_RESETTING then bump s pgFLT 1
  else raiseEvent (forBits s pgFLT F.FLT_FOLDFATAL_FOLD (2 ^ f)) pgFLT

/-- The enabled fold whose FOLD_DIES names a C-die. -/
def foldOfDie (s : State) (d : Nat) : Option Nat :=
  (List.range 16).find? fun f => foldEnabled s f && (fget s (pgFOLD f) F.FOLD_DIES_DIES).testBit d

/-- A fold-reach fault on the fold that owns a C-die, raised through a tile's Sheepdog; the manual gives its DETAIL
no meaning. -/
def dieFault (s : State) (d cause unit : Nat) : State :=
  match foldOfDie s d with
  | some f =>
    let g := drawFree s
    foldFault (bump g.2 (pgSHEEP (d / 4)) 11) f cause unit (freeWord g.1)
  | none => s

/-- A fold-reach fault, with the cause, the unit's page ID and the detail that its source gives. -/
def execFoldFatal (fold cause unit detail : Nat) (s : State) : Out :=
  .next (if fold < 16 ∧ 2 ≤ cause ∧ cause ≤ 5 then foldFault s fold cause unit detail else s)

/-- A write of FLT_FOLDRST, of which a fold may set its own bit only, or a fold-reach fault on each named fold
(R463). -/
def execFoldReset (src : Src) (folds : BitVec 16) (trigger : Option FaultTrigger) (s : State) : Out :=
  .next (match trigger with
    | some t => (setBitsOf 16 folds.toNat).foldl (fun s f => foldFault s f t.cause t.unit t.detail) s
    | none =>
      match authOf s src with
      | .sys => guarded s src fun s => (setBitsOf 16 folds.toNat).foldl (fun s f => resetStart s f 1 0 0) s
      | .fold g =>
        let s := if folds.toNat.testBit g then resetStart s g 1 0 0 else s
        if folds.toNat - (folds.toNat &&& 2 ^ g) = 0 then s else denyWrite s (.fold g)
      | .none => s)

/-! ## Abort (R465, R466, R228, R254) -/

/-- A stream whose unit serves nothing any more. -/
def idleStream (s : State) (x : StreamId) : State := putStream s x { cache := (getStream s x).cache }

/-- The units of a fold's dies stop: no record is written (R118). -/
def abortDies (s : State) (dies : Nat) : State :=
  let s := s.preps.foldl (fun s e =>
    let c : PrepCore := ⟨e.1 / 36, e.1 / 4 % 9, e.1 % 4⟩
    if dies.testBit c.die && fbit s (corePage c) F.PREP_STS_RUNNING then stopCore s c stFOLDRESET 5 0 else s) s
  let keep (per : Nat) (k : Nat) : Bool := !dies.testBit (k / per)
  let gone := (s.lists.map (·.1)).filter fun k => !keep 9 k
  let s := { s with
    arrs := s.arrs.map fun e => if keep 360 e.1 then e
      else (e.1, { e.2 with fifo := [], passes := [], waves := [], staging := none, stream := [], back := [], again := [],
                            late := [] })
    hatches := s.hatches.map fun e => if keep 9 e.1 then e else (e.1, { e.2 with fifo := [], run := none, late := [] })
    lists := mkeep s.lists (keep 9) }
  gone.foldl (fun s k => listShow s (k / 9) (k % 9)) s

/-- The fold's Drover engines, chunk moves, wait lists and schedules stop; every chunk becomes LOW (R228). -/
def abortDrover (s : State) (f : Nat) : State :=
  let runs := s.drvs.filter fun e => e.2.fold == f
  let s := runs.foldl (fun s e =>
    let t := e.1 / 16
    let n := e.1 % 16
    let s := if (engineBelow s t n).isSome then putRst s fun r => { r with late := mput r.late (lateEngine t n) () } else s
    match findCmd s e.2.cmd with
    | none => s
    | some c =>
      let x : StreamId := .drover t n
      let g := vDest c false
      let done (g : Rows) (upto : Nat) (s : State) : State := (List.range g.rows).foldl (fun s r =>
        if r * g.pitch < upto then undefVa s x c.id.ctx (g.base + r * g.pitch) (min g.len (upto - r * g.pitch)) else s) s
      let s := if e.2.scales then done (vDest c true) e.2.line (done g (g.hi - g.base) s) else done g e.2.line s
      idleStream (droverEnd s t n e.2 (e.2.codes ++ [stFOLDRESET])) x) s
  let tell (s : State) (t e : Nat) (b : ChunkBy) : State :=
    match b with
    | .cmd id => drvDone s t e id (resOf [stFOLDRESET])
    | .entry _ _ => s
  let ms := s.moves.filter fun m => m.fold == f
  let s := ms.foldl (fun s m =>
    let d := moveDest m
    tell (undefLines (endMove s m) d.1 d.2) m.tile m.engine m.by_) s
  let ws := s.waits.filter fun w => w.fold == f
  let rs := s.scheds.filter fun r => r.fold == f
  let s := { s with waits := s.waits.filter fun w => w.fold != f, scheds := s.scheds.filter fun r => r.fold != f }
  let s := ws.foldl (fun s w => tell s w.tile noEngine w.by_) s
  let s := rs.foldl (fun s r => (r.id :: r.cancellers).foldl (fun s c => tell s r.tile 0 (.cmd c)) s) s
  (List.range (chunkCount s f)).foldl (fun s i =>
    let rd := chunkRead s 0 f i
    match rd.2 with
    | .ok r =>
      let r' := ckSet (ckSetRef (ckSetState r 0) 0) 149 148 0
      if r' = r then rd.1 else chunkWrite rd.1 0 f i r'
    | .error _ => rd.1) s

/-- The fold's Etch units stop at their block; its run-pool entries, sequencers and pending STEP_SETs are dropped
(R409, R426). -/
def abortEtch (s : State) (f : Nat) : State :=
  let runs := s.trn.units.filter fun e => e.2.fold == f
  let s := runs.foldl (fun s e =>
    idleStream (etchEnd s (e.1 / 8) (e.1 % 8) e.2.id (resOf (e.2.codes ++ [stFOLDRESET]))) (.etch (e.1 / 8) (e.1 % 8))) s
  let mine (c : Nat) : Bool := ctxFold s c == some f
  putTrn s fun x => { x with
    pool := x.pool.filter fun r => r.fold != f
    seqs := mkeep x.seqs fun c => !mine c
    pend := mkeep x.pend fun c => !mine c }

/-- Stalled accesses of the fold end and its fault slots are freed (R254). -/
def freeSlots (s : State) (f : Nat) : State :=
  let mine (c : Nat) : Bool := ctxFold s c == some f
  { s with
    streams := s.streams.map fun e =>
      match e.2.stall, e.2.past with
      | some t, _ => if mine t.ctx then (e.1, { e.2 with stall := none, want := none, past := none }) else e
      | none, some p => if mine p.ctx then (e.1, { e.2 with past := none }) else e
      | none, none => e
    folds := match mget s.folds f with
      | some x => mput s.folds f { x with slots := [] }
      | none => s.folds }

/-- The conditions that the descriptors of a command have met (R22): the results of a list so far, and what runs for a
list or a RESUME, as a COND mask. -/
def descConds (s : State) (id : CmdId) : Nat :=
  let ofCmd (x : Issue) : Bool :=
    match x.by_ with
    | .cmd c => c == id
    | .list d p => (mget s.lists (d * 9 + p)).any fun l => l.cmd == id
    | .core _ => false
  let ended := (s.lists.filter fun e => e.2.cmd == id).flatMap fun e => e.2.results.map (·.2.cond)
  let passes := s.arrs.flatMap fun e => (e.2.passes.filter fun p => ofCmd p.iss).map fun p => condBits (passConds p)
  let hatches := s.hatches.filterMap fun e =>
    e.2.run.bind fun r => if ofCmd r.iss then some (condBits (hatchConds r)) else none
  (ended ++ passes ++ hatches).foldl (· ||| ·) 0

/-- A status with conditions that were met and not reported (R22). -/
def withConds (r : Res) (cond : Nat) : Res := { r with cond := r.cond ||| cond }

/-- Abort: every unit that runs a command of the fold has stopped, and every dispatched command that has not
completed ends with FOLD_RESET and the conditions it has met (R22, R465). -/
def foldAbort (s : State) (f : Nat) (x : FoldRst) : State :=
  let old := x.engines.map fun r => (field r 0 4, r)
  let recs := sortRecs (dieRecords s f x.dies ++ sharedRecords s f ++ old)
  let met := (s.cmds.filter (ofFold s f)).map fun c => (c.id, descConds s c.id)
  let s := abortEtch (abortDrover (abortDies s x.dies) f) f
  let s := (s.cmds.filter (ofFold s f)).foldl (fun s c =>
    let cond := ((met.find? fun m => m.1 == c.id).map (·.2)).getD 0
    finishCmd s c.id (withConds (resOf (c.codes ++ [stFOLDRESET])) cond)) s
  putFoldRst (freeSlots s f) f { x with phase := .drain, engines := recs }

/-- A package-fatal fault has stopped the package; a fold reset stops in its phase (R470). -/
def pkgStopped (s : State) : Bool := fbit s pgFLT F.FLT_STS_PKG_FATAL

def execFoldAbortDone (fold : Nat) (s : State) : Out :=
  .next (match getFoldRst s fold with
    | some x => if x.phase == .abort && !pkgStopped s then foldAbort s fold x else s
    | none => s)

/-! ## Capture (R471 to R473) -/

/-- The fold's capture area, if it is valid: in tier N and outside every enabled fold's regions. -/
def captureArea (s : State) (f dies : Nat) : Option Nat :=
  let lo := fgeti s pgFLT F.FLT_CAP_LO_BASE f * 2 ^ 21
  let hi := lo + 2 ^ 20 + 5 * 2 ^ 20 * popcount 16 dies
  let clear := (List.range 16).all fun g => !foldEnabled s g ||
    (foldRegions s g).all fun r => r.2.1 ≤ lo || hi ≤ r.1
  if fgeti s pgFLT F.FLT_CAP_LO_VALID f == 1 && tierNBase ≤ lo && hi ≤ tierNBase + tierNBytes s && clear then some lo
  else none

/-- Write bytes of the capture at home. -/
def capWrite (s : State) (pa : Nat) (bs : List Byte) (p : Bool) : State := (busWrite s pa bs p false).1

/-- The record of a context (R472). -/
def contextRecord (s : State) (c : Nat) : List Byte :=
  let pg := pgCTX c
  let qs := (List.range 8).flatMap fun q =>
    let x := getQueue s c q
    leBytes 2 (fgeti s pg F.QSTS_HEAD q) ++ leBytes 2 x.tail ++ leBytes 2 (fgeti s pg F.CQHEAD q)
      ++ leBytes 2 (fgeti s pg F.QSTS_HEAD q) ++ leBytes 2 x.posted
      ++ leBytes 6 (fgeti s pg F.QCFG_ENABLE q + 2 * fgeti s pg F.QSTS_BLOCKED q + 4 * fgeti s pg F.QSTS_AGED q)
  let ts := (List.range 64).map fun t => getTally s c t
  let word (f : Field) : List Byte := leBytes 4 (rawWord s pg f.off)
  let step := word F.CTX_STEP_STEP ++ word F.CTX_STEP_PEND_STEP ++ word F.CTX_STEP_TICK_LO_TICK_LO
    ++ word F.CTX_STEP_TICK_HI_TICK_HI ++ word F.CTX_SEQ_STS_ACTIVE ++ word F.CTX_STEP_STS_PENDING
  let body := qs ++ (ts.flatMap fun t => leBytes 8 t.val.toNat) ++ (ts.flatMap fun t => leBytes 1 t.gen)
    ++ leBytes 8 (ts.foldr (fun t m => m * 2 + bitN t.ovf) 0) ++ step
  body ++ List.replicate (0x400 - body.length) 0

/-- First byte of store `n` of a C-die (R162): array, pen and die stores. -/
def storePa (d n : Nat) : Nat :=
  if n < 72 then arrStorePa d (n / 8) (n % 8) else if n < 81 then penStorePa d (n - 72) else dieStorePa d

/-- Copy the first `n` lines of a store into the capture, by debug reads (R166, R175, R473). -/
def sampleStore (s : State) (dst src n : Nat) : State :=
  (List.range n).foldl (fun s i =>
    let r := paRead s 5 (src + i * 256) 256
    capWrite r.1 (dst + i * 256) r.2.data r.2.poison) s

/-- Write the capture of a fold (R471, R472), the header's check last, and count it. -/
def captureWrite (s : State) (f lo : Nat) (x : FoldRst) : State :=
  let ctxs := foldCtxs s f
  let debug := ctxs.any fun c => fbit s (pgCTX c) F.CTX_CFG_DEBUG_PRIV
  let smp := if debug then fget s pgFLT F.FLT_CTL_SAMPLE else 0
  let seq := fgeti s pgFLT F.FLT_CAP_HI_SEQ f + 1
  let s := ctxs.foldl (fun s c => capWrite s (lo + 0x1000 + c * 0x400) (contextRecord s c) false) s
  let s := (List.range 2304).foldl (fun s i =>
    capWrite s (lo + 0x81000 + i * 0x40) (lget x.engines i (List.replicate 64 0)) false) s
  let ds := setBitsOf 16 x.dies
  let s := (List.range ds.length).foldl (fun s r => (List.range 82).foldl (fun s n =>
    sampleStore s (lo + 0x100000 + r * 0x500000 + n * smp * 4096) (storePa (lget ds r 0) n) (smp * 16)) s) s
  let head := leBytes 4 0x43415054 ++ leBytes 4 (1 + f * 2 ^ 8 + smp * 2 ^ 12 + x.cause % 256 * 2 ^ 16) ++ leBytes 4 seq
    ++ leBytes 4 x.dies ++ leBytes 8 x.time ++ leBytes 4 x.unit ++ leBytes 4 x.detail
    ++ leBytes 4 (x.engines.length + ctxs.length * 2 ^ 16) ++ List.replicate 0xD8 0
  let s := capWrite s lo (head ++ leBytes 4 (crc32c head)) false
  let s := fputi s pgFLT F.FLT_CAP_HI_SEQ f seq
  bumpBy (bump s pgFLT 2) pgFLT 4 (ds.length * 82 * smp * 4)

/-- Write the capture, or skip it when the area is invalid (R470). -/
def capture (s : State) (f : Nat) (x : FoldRst) : State :=
  match captureArea s f x.dies with
  | some lo => captureWrite s f lo x
  | none => bump (fput s pgFLT F.FLT_STS_CAP_SKIP 1) pgFLT 3

/-- What capture of a fold after a package-fatal fault holds of a trigger: the manual gives no cause, source or
detail for it (R475). -/
def fatalTrigger (s : State) (f : Nat) : FoldRst × State :=
  let g := drawFree s
  let dies := fget s (pgFOLD f) F.FOLD_DIES_DIES
  ({ cause := (Config.freeByte g.1 8).toNat, unit := freeWord g.1, detail := (freeWord g.1 + freeWord (g.1 + 1)) % 2 ^ 32
     dies := dies, time := s.rst.fatalAt, captured := true
     engines := sortRecs (dieRecords s f dies ++ sharedRecords s f) }, { g.2 with free := g.2.free + 1 })

/-! ## Drain and clear (R465, R468) -/

/-- Once the capture and the drain have both ended, the fold's dies begin to clear their stores (R178, R473). -/
def clearStart (s : State) (f : Nat) : State :=
  match getFoldRst s f with
  | some x =>
    if x.phase == .drain && x.captured && x.drained && !pkgStopped s then
      (setBitsOf 16 x.dies).foldl (fun s d => storeClear s d .foldReset) (putFoldRst s f { x with phase := .clear })
    else s
  | none => s

/-- The capture of a fold ends: of one that resets, or of one that was enabled at a package-fatal fault, for which
nothing is written to an invalid area. -/
def execFoldCaptureDone (fold : Nat) (s : State) : Out :=
  .next (match getFoldRst s fold with
    | some x =>
      if x.phase == .drain && !x.captured then
        clearStart (putFoldRst (capture s fold x) fold { x with captured := true }) fold
      else s
    | none =>
      if fold < 16 ∧ pkgStopped s ∧ foldEnabled s fold then
        let t := fatalTrigger s fold
        match captureArea t.2 fold t.1.dies with
        | some lo => captureWrite t.2 fold lo t.1
        | none => s
      else s)

def putMemc (s : State) (f : MemcSt → MemcSt) : State := { s with memc := f s.memc }

/-- The accesses that wait at a controller, in order of arrival (R185). -/
def memcWaiting (s : State) (stack : Nat) : List MemAccess := mgetD s.memc.waiting stack []

def putWaiting (s : State) (stack : Nat) (l : List MemAccess) : State :=
  putMemc s fun m => { m with waiting := mput m.waiting stack l }

/-- The fold's requests that wait at the controller of a stack. -/
def foldQueued (s : State) (f stack : Nat) : List MemAccess := (memcWaiting s stack).filter fun x => x.fold == some f

/-- Every dispatched command of the fold has posted, and nothing it asked for is outstanding. -/
def foldDrained (s : State) (f : Nat) : Bool :=
  !s.cmds.any (ofFold s f) && ((List.range 12).all fun k => (foldQueued s f k).isEmpty) &&
    !s.fab.reqs.any fun e => e.2.flit.srcFold == f

/-- The memory controllers remove the fold's requests still queued and count them; those that have left the package are no
longer waited for (R468). -/
def dropRequests (s : State) (f : Nat) : State :=
  let s := (List.range 12).foldl (fun s k =>
    let n := (foldQueued s f k).length
    if n = 0 then s
    else bumpBy (putWaiting s k ((memcWaiting s k).filter fun x => x.fold != some f)) pgFLT 6 n) s
  let gone := s.fab.reqs.filter fun e => e.2.flit.srcFold == f
  putRst (putFab s fun b => { b with reqs := b.reqs.filter fun e => e.2.flit.srcFold != f }) fun r =>
    { r with late := gone.foldl (fun m e => mput m (lateWindow e.1) ()) r.late }

def execFoldDrainDone (fold : Nat) (s : State) : Out :=
  .next (match getFoldRst s fold with
    | some x =>
      if x.phase == .drain && !x.drained && foldDrained s fold && !pkgStopped s then
        clearStart (putFoldRst s fold { x with drained := true }) fold
      else s
    | none => s)

/-- DRAIN_LIMIT runs out: the memory controllers remove the fold's queued requests, the tier F controllers `removed` of
theirs, and the drain ends (R468). -/
def execDrainLimitExpire (fold removed : Nat) (s : State) : Out :=
  .next (match getFoldRst s fold with
    | some x =>
      if x.phase == .drain && !x.drained && !pkgStopped s then
        clearStart (putFoldRst (dropRequests (bumpBy (bump s pgFLT 5) pgFLT 6 removed) fold) fold { x with drained := true }) fold
      else s
    | none => s)

/-- The fold's queues at release (R466). -/
def releaseQueue (s : State) (c q : Nat) : State :=
  let x := getQueue s c q
  let s := fputi (fputi s (pgCTX c) F.QCFG_ENABLE q 0) (pgCTX c) F.QSTS_HEAD q x.tail
  let s := fputi (fputi s (pgCTX c) F.QSTS_BLOCKED q 0) (pgCTX c) F.QSTS_AGED q 0
  putStream (putQueue s c q { tail := x.tail, disp := x.posted, posted := x.posted }) (.queue c q) {}

/-- A context of the fold at release (R254, R466). -/
def releaseCtx (s : State) (c : Nat) : State :=
  let s := (List.range 8).foldl (fun s q => releaseQueue s c q) s
  let s := { s with tallies := mkeep s.tallies fun k => k / 64 != c }
  let s := trnCtxReset (dropTables (fput s (pgCTX c) F.CTX_CFG_ENABLE 0) c) c
  fput s (pgCTX c) F.CTX_SEGINV_STS_DONE (fget s (pgCTX c) F.CTX_SEGINV_STS_ISSUED)

/-- A C-die at release: its arrays are empty and the next set loads into bank 0; an array that is offline stays so
(R101, R117, R466). -/
def releaseDie (s : State) (d : Nat) : State :=
  { s with
    arrs := mkeep s.arrs fun k => k / 360 != d
    arrCtl := s.arrCtl.map fun e => if e.1 / 72 == d then (e.1, { e.2 with checking := false }) else e
    preps := mkeep s.preps fun k => k / 36 != d
    streams := mkeep s.streams fun k =>
      !(5000 + d * 72 ≤ k && k < 5000 + d * 72 + 72) && !(4200 + d * 9 ≤ k && k < 4200 + d * 9 + 9) }

/-- The fold's dies have cleared their stores. -/
def diesClear (s : State) (dies : Nat) : Bool :=
  (setBitsOf 16 dies).all fun d => !fbit s (pgSPAD d) F.SPAD_STS_INIT_BUSY

/-- Release (R465, R466): the fold's state is as the table says, an offline die has left the fold (R462), and the
log and the interrupt tell it. -/
def foldRelease (s : State) (f : Nat) (x : FoldRst) : State :=
  let s := { s with cmds := s.cmds.filter fun c => !ofFold s f c }
  let s := freeSlots ((foldCtxs s f).foldl releaseCtx s) f
  let s := opFoldReset ((setBitsOf 16 x.dies).foldl releaseDie s) x.dies
  let off := fget s pgFLT F.FLT_OFFLINE_DIES
  let dies := fget s (pgFOLD f) F.FOLD_DIES_DIES
  let s := fput s (pgFOLD f) F.FOLD_DIES_DIES (dies - (dies &&& off))
  let s := fput (putRst s fun r => { r with folds := mdel r.folds f }) (pgFOLD f) F.FOLD_STS_RESETTING 0
  raiseEvent (bump (logFault s 0x10 x.cause f x.detail) pgFLT 0) (pgFOLD f)

/-! ## Package-fatal faults (R474 to R476) -/

/-- A package-fatal fault: FAULT_N, the status, the log and the controllers' interrupts, and ABORTs for every
collective; queues and arrays stop while PKG_FATAL stands. A later one is counted and logged. -/
def pkgFatal (s : State) (cause : Nat) : State :=
  let s := logFault (bump s pgFLT 8) 0x11 cause 0 0
  if pkgStopped s then s
  else
    let s := putRst s fun r => { r with faultN := true, fatalAt := herdTime s }
    let s := fput (fput s pgFLT F.FLT_STS_PKG_FATAL 1) pgFLT F.FLT_STS_PKG_CAUSE cause
    let s := s.fab.cols.foldl (fun s x =>
      sendAborts s x (match findCmd s x.id with | some c => kAxes c | none => [])) s
    emit (emit s (.irqPmc 0 pgFLT)) (.irqPmc 1 pgFLT)

def execPackageFatal (cause : Nat) (s : State) : Out :=
  .next (if 0x10 ≤ cause ∧ cause ≤ 0x13 then pkgFatal s cause else s)

/-- FATAL_MS passes without a write of PKG_RESET. -/
def execFatalTimeout (s : State) : Out :=
  .next (if pkgStopped s then packageReset (bump s pgFLT 9) 2 else s)

/-- A write of FLT_CTL.PKG_RESET, which only a management controller may make (R475, R483). -/
def execPkgResetWrite (src : Src) (s : State) : Out :=
  .next (match src with
    | .pmc _ _ => guarded s src fun s => packageReset s 2
    | _ => s)

/-- A write of FLT_OFFLINE: each die newly named is logged, and its fold's fault raised (R462); zeros are ignored
(R483). -/
def offlineWrite (s : State) (dies : Nat) : State :=
  let fresh := (setBitsOf 16 dies).filter fun d => !(fget s pgFLT F.FLT_OFFLINE_DIES).testBit d
  let s := forBits s pgFLT F.FLT_OFFLINE_DIES dies
  fresh.foldl (fun s d => dieFault (logFault s 0x05 3 d 0) d 5 (pageId pgFLT)) s

def execDieOfflineWrite (src : Src) (dies : BitVec 16) (s : State) : Out :=
  .next (withSys s src fun s => offlineWrite s dies.toNat)

/-! ## Arrays (R117) -/

/-- The physical pen and array of a logical one (R122). -/
def physArray (s : State) (d p a : Nat) : Nat × Nat :=
  if !s.fuse.gradeB then (p, a)
  else
    let dead (q : Nat) : List Nat := (s.fuse.disabled.filter fun x => x.1 == d && x.2.1 == q).map fun x => x.2.2
    let pens := ((List.range 9).filter fun q => (dead q).isEmpty) ++ (List.range 9).filter fun q => !(dead q).isEmpty
    let q := lget pens p p
    (q, lget ((List.range 8).filter fun b => !(dead q).contains b) a a)

/-- The array runs no pass from now on (R117): what of it is still in flight, after a second hang of one quarter, aborts
(DEDUCED, notes/assumptions/133.md). -/
def arrayStops (s : State) (u : ArrayUnit) : State :=
  let s := (unitsOf u.die u.pen u.arr).foldl abortUnit s
  putCtl s u.die u.pen u.arr { getCtl s u.die u.pen u.arr with checking := false, offline := true }

/-- An array goes offline until package reset; the owning fold receives a fold-reach fault (R460). -/
def arrayOffline (s : State) (u : ArrayUnit) : State :=
  let pg := pgMXA u.die u.pen u.arr
  let s := arrayStops s u
  let s := bump { s with offline := mput s.offline pg () } (pgSHEEP (u.die / 4)) 9
  dieFault s u.die 3 (pageId pg)

/-- An array fails its self-check: CAUSE 0x5 is recorded under the VALID rule, the failure is logged, and the array goes
offline (R117). Which path failed and whose pass it was is not stated of such a record: its SHARED and CONTEXT are free
values (notes/assumptions/146.md). -/
def checkFails (s : State) (u : ArrayUnit) : State :=
  let x := physArray s u.die u.pen u.arr
  let g := drawFree s
  let w := freeWord g.1
  arrayOffline (logFault (mxaFault g.2 u 5 (w % 2 == 1) (w / 2 % 512)) 0x03 0 (u.die + x.1 * 16 + x.2 * 256) 0) u

/-- An array detects a fault in its own logic (R117): one that checks itself fails the check; one offline reports
nothing. -/
def execArrayFault (u : ArrayUnit) (cause : Nat) (shared : Bool) (s : State) : Out :=
  .next (if !(unitOk u && arrayExists s.fuse.gradeB (u.die * 72 + u.pen * 8 + u.arr)) ||
      (getCtl s u.die u.pen u.arr).offline || cause = 0 || 4 < cause then s
    else if checkRuns s u.die u.pen u.arr then checkFails s u
    else arrayFault s u cause shared)

/-- The self-check ends, unless a freeze holds it (R118); a failure is recorded with cause 5 and logged. -/
def execArraySelfCheckEnd (u : ArrayUnit) (passed : Bool) (s : State) : Out :=
  .next (if !unitOk u || !checkRuns s u.die u.pen u.arr || arrStopped s u then s
    else if passed then putCtl s u.die u.pen u.arr { getCtl s u.die u.pen u.arr with checking := false }
    else checkFails s u)

/-! ## The watches (R457 to R461) -/

/-- An expiry of watch row `n`: counted, and the unit's page shown (R482). -/
def watchNote (s : State) (t n page : Nat) : State :=
  fput (bump s (pgSHEEP t) n) (pgSHEEP t) F.SHEEP_LAST_UNIT (pageId page)

/-- A queue head held by FENCE, TALLY_WAIT or GEN_FENCE, or a run-pool entry, has waited QUEUE_MS: it completes with
TIMEOUT. -/
def execQueueWatchExpire (c : CmdId) (s : State) : Out :=
  .next (match findCmd s c with
    | none => s
    | some x =>
      let held := x.phase == .head && fbiti s (pgCTX c.ctx) F.QSTS_BLOCKED c.q
      let t := if held then fgeti s (pgCTX c.ctx) F.QCFG_HOME_TILE c.q else x.tile
      let pool := s.trn.pool.any fun r => r.id == c && r.ready.isNone
      if fget s (pgSHEEP t) F.SHEEP_TMO0_QUEUE_MS = 0 then s
      else if held then finishCmd (dispatchCmd (watchNote s t 0 (pgCTX c.ctx)) x .granted noEngine) c (resOf [stTIMEOUT])
      else if pool then
        finishCmd (putTrn (watchNote s t 0 (pgETCH t 0)) fun y => { y with pool := y.pool.filter fun r => r.id != c }) c
          (resOf [stTIMEOUT])
      else s)

/-- The tile and page of a stream's unit. -/
def streamUnit (s : State) (x : StreamId) : Nat × Nat :=
  match x with
  | .queue c q => (fgeti s (pgCTX c) F.QCFG_HOME_TILE q, pgCTX c)
  | .drover t e => (t, pgDRV t e)
  | .hatch d p => (d / 4, pgHATCH d p)
  | .etch t u => (t, pgETCH t u)
  | .coll t e => (t, pgCOLL t e)
  | .array d p a => (d / 4, pgMXA d p a)

/-- A stream has stalled for STREAM_MS: its access ends with TIMEOUT, and the slot stays allocated (R252). -/
def execStreamWatchExpire (stream : StreamId) (s : State) : Out :=
  let st := getStream s stream
  .next (match st.stall with
    | some y => putStream (watchNote s (streamUnit s stream).1 1 (streamUnit s stream).2) stream
        { st with stall := none, dead := some (y.va, stTIMEOUT) }
    | none => s)

/-- Stop the running cores among some, with a code and a cause of PREP_FAULT. -/
def stopCores (s : State) (cores : List PrepCore) (code cause : Nat) : State :=
  cores.foldl (fun s c => if fbit s (corePage c) F.PREP_STS_RUNNING then stopCore s c code cause 0 else s) s

/-- The cores of a pen. -/
def penCores (d p : Nat) : List PrepCore := (List.range 4).map fun k => ⟨d, p, k⟩

/-- A PEN_RUN has run for RUN_MS: its cores stop and it completes with TIMEOUT. -/
def execRunWatchExpire (c : CmdId) (s : State) : Out :=
  .next (match findCmd s c with
    | some x =>
      let mine := (penCores x.die x.pen).filter fun k => (getCore s k).cmd == c && fbit s (corePage k) F.PREP_STS_RUNNING
      if cOp x == 0x10 && x.phase == .running && !mine.isEmpty then
        stopCores (watchNote s (x.die / 4) 2 (pgPENPREP x.die x.pen)) mine stTIMEOUT 4
      else s
    | none => s)

/-- The logic of an array or quarter is reset: its passes end with TIMEOUT, their rows are poisoned, and the self-check
is due (R459). -/
def arrayHang (s : State) (u : ArrayUnit) : State :=
  let s := hangUnit s u
  let a := getArr s u
  let s := putArr s u { a with staging := none, bank0 := {}, bank1 := {}, bankLast := none, lastLoad := none }
  putCtl s u.die u.pen u.arr { getCtl s u.die u.pen u.arr with checking := true }

/-- The command in a unit completes with TIMEOUT and the unit's logic is reset (R459). -/
def unitHang (s : State) (u : UnitId) : State :=
  match u with
  | .array a => arrayHang s a
  | .hatch d p =>
    match (getHatch s d p).run with
    | some r => hatchEnd (hatchLog s d p 4 r.iss.ctx) d p r.iss (resOf (hatchConds r ++ [stTIMEOUT]))
    | none => s
  | .vec d p => stopCores s (penCores d p) stTIMEOUT 4
  | .list d p =>
    match mget s.lists (d * 9 + p) with
    | some l => finishCmd (listShow { s with lists := mdel s.lists (d * 9 + p) } d p) l.cmd
        (withConds { resOf [stTIMEOUT] with code := highest (l.results.map (·.2.code) ++ [stTIMEOUT]) } (descConds s l.cmd))
    | none => s
  | .drover t e =>
    match getDrv s t e, s.moves.find? fun m => m.tile == t && m.engine == e with
    | some r, _ => idleStream (droverEnd s t e r (r.codes ++ [stTIMEOUT])) (.drover t e)
    | none, some m => if m.up then copyUpEnd s m stTIMEOUT else writeBackEnd s m stTIMEOUT
    | none, none => s
  | .etch t e =>
    match mget s.trn.units (t * 8 + e) with
    | some r => idleStream (etchEnd s t e r.id (resOf (r.codes ++ [stTIMEOUT]))) (.etch t e)
    | none => s
  | .coll t _ => (s.fab.cols.filter fun x => x.tile == t).foldl (fun s x => colEnd s x (resOf (x.codes ++ [stTIMEOUT]))) s
  | .frontEnd t =>
    (s.cmds.filter fun c => c.phase == .granted && (inputOf s c).isNone && c.tile == t).foldl
      (fun s c => finishCmd s c.id (resOf (c.codes ++ [stTIMEOUT]))) s
  | .pen _ _ | .prep _ | .remote _ => s

/-- Where a watched unit reports: its tile, its watch row of R457, its page, and its C-die if it has one. A list
sequencer reports through the pen group page (R519). -/
def unitReport (u : UnitId) : Option (Nat × Nat × Nat × Option Nat) :=
  match u with
  | .array a => if unitOk a then some (a.die / 4, 3, pgMXA a.die a.pen a.arr, some a.die) else none
  | .hatch d p => if d < 16 && p < 9 then some (d / 4, 3, pgHATCH d p, some d) else none
  | .vec d p => if d < 16 && p < 9 then some (d / 4, 3, pgVEC d p, some d) else none
  | .list d p => if d < 16 && p < 9 then some (d / 4, 3, pgPENPREP d p, some d) else none
  | .drover t e => if t < 4 && e < 16 then some (t, 4, pgDRV t e, none) else none
  | .etch t e => if t < 4 && e < 8 then some (t, 4, pgETCH t e, none) else none
  | .coll t e => if t < 4 && e < 2 then some (t, 4, pgCOLL t e, none) else none
  | .frontEnd t => if t < 4 then some (t, 4, pgSHEEP t, none) else none
  | .pen _ _ | .prep _ | .remote _ => none

/-- A UNIT_US watch pauses (R458): while PWR_STS.ALERT is set, while an array is frozen, and while the unit's requests wait
on something with its own bound. An offline array is watched no more. -/
def watchPaused (s : State) (u : UnitId) : Bool :=
  fbit s pgPWR F.PWR_STS_ALERT || (unitAsks s u).any (askBound s) || (match u with
    | .array a => arrFrozen s a.die a.pen a.arr || (getCtl s a.die a.pen a.arr).offline
    | .drover t e => (getStream s (.drover t e)).stall.isSome || (engineBelow s t e).isSome ||
        (schedBelow s t e).isSome || s.moves.any fun m => m.tile == t && m.engine == e
    | .frontEnd t => s.cmds.any fun c => frontWaits s t c || postWaits s t c.id.ctx c.id.q
    | _ => false)

/-- Work waits on a queue front-end: a command to dispatch that no wait holds, one it runs itself, or a completion to
post. -/
def frontWorks (s : State) (t : Nat) : Bool :=
  s.cmds.any fun c =>
    let home := fgeti s (pgCTX c.id.ctx) F.QCFG_HOME_TILE c.id.q == t
    match c.phase with
    | .head => home && !fbiti s (pgCTX c.id.ctx) F.QSTS_BLOCKED c.id.q
    | .ready | .done => home
    | .granted => c.tile == t && (inputOf s c).isNone
    | .running => false

/-- Work waits on a unit: its watch runs only then (R457). -/
def unitWorks (s : State) (u : UnitId) : Bool :=
  let granted (t e lo hi : Nat) : Bool := s.cmds.any fun c =>
    c.phase == .granted && c.tile == t && c.engine == e && lo ≤ cOp c && cOp c ≤ hi
  match u with
  | .array a =>
    let x := getArr s a
    !x.fifo.isEmpty || !x.passes.isEmpty || !x.back.isEmpty || !x.again.isEmpty || !x.waves.isEmpty
  | .hatch d p => (getHatch s d p).run.isSome || !(getHatch s d p).fifo.isEmpty
  | .vec d p => (penCores d p).any fun c => fbit s (corePage c) F.PREP_STS_RUNNING
  | .list d p => (mget s.lists (d * 9 + p)).isSome
  | .drover t e => (getDrv s t e).isSome || (s.moves.any fun m => m.tile == t && m.engine == e) || granted t e 0x30 0x3F
  | .etch t e => (getEtch s t e).isSome || granted t e 0x60 0x63
  | .coll t _ => s.fab.cols.any fun x => x.tile == t
  | .frontEnd t => frontWorks s t
  | .pen _ _ | .prep _ | .remote _ => false

/-- A unit makes no progress for UNIT_US: a hang under R459; `again` says that less than 1 s has passed since its
last one, which takes it offline (R460). -/
def unitExpire (s : State) (u : UnitId) (again : Bool) : State :=
  match unitReport u with
  | none => s
  | some (t, row, page, die) =>
    if watchPaused s u || !unitWorks s u then s
    else
      let s := unitHang (watchNote s t row page) u
      let s := logFault (bump s (pgSHEEP t) 8) 0x13 0 (slotOf page) (blkOf page)
      let second := again && (mget s.rst.hangs page).isSome
      let s := putRst s fun r => { r with hangs := mput r.hangs page (herdTime s) }
      if !second then s
      else
        let s := bump { s with offline := mput s.offline page () } (pgSHEEP t) 9
        let s := logFault s 0x07 0 (slotOf page) (blkOf page)
        let s := match u with
          | .array a => arrayStops s a
          | _ => s
        match die with
        | some d => dieFault s d 3 (pageId page)
        | none => s

def execUnitWatchExpire (unit : UnitId) (again : Bool) (s : State) : Out := .next (unitExpire s unit again)

/-- An agent owes an answer to a snoop of a tile's home logic. -/
def owesAnswer (s : State) (t agent : Nat) : Bool := s.coh.txns.any fun e => e.2.waiting.testBit agent && homeOf s e.1 == t

/-- An agent owes a snoop answer for AGENT_US: it is declared dead (R286). -/
def execAgentWatchExpire (tile agent : Nat) (s : State) : Out :=
  .next (if tile < 4 ∧ agent < 6 ∧ owesAnswer s tile agent then agentDies (watchNote s tile 5 (pgCOH tile)) agent else s)

/-- The C-die's hybrid-bond port that a packet of a tile's hub waits to enter, if it is one. -/
def hubTarget (t : Nat) (p : Packet) : Option Nat := if p.destTile = t ∧ p.destOut < 4 then some (t * 4 + p.destOut) else none

/-- An urgent packet is not granted for HUB_MS after HUB_STALL (R461): the fold whose C-die it waits to enter receives
a fold-reach fault, with the die's rank; in every other case the package stops. -/
def execHubWatchExpire (tile id : Nat) (s : State) : Out :=
  let h := mgetD s.hubs tile {}
  .next (match h.pkts.find? fun x => x.pkt.id == id with
    | some x =>
      if tile < 4 && h.stalled.contains id then
        let s := watchNote s tile 6 (pgHUB tile)
        match (hubTarget tile x.pkt).bind fun d => (foldOfDie s d).map fun f => (d, f) with
        | some (d, f) =>
          let rank := popcount d (fget s (pgFOLD f) F.FOLD_DIES_DIES)
          foldFault (bump s (pgSHEEP tile) 11) f 4 (pageId (pgHUB tile)) rank
        | none => pkgFatal s 0x11
      else s
    | none => s)

/-- A port's LACK does not advance for LINK_MS while its replay buffer holds flits: the port goes down (R360). -/
def execLinkWatchExpire (port : Nat) (s : State) : Out :=
  .next (if port < 16 ∧ (getPort s port).replay ≠ [] ∧ !fbit s (pgNP port) F.NP_STS_DOWN then
    portDown (watchNote s (port / 4) 7 (pgNP port)) port 4 0 else s)

/-! ## Time-outs of lower tiers (R225, R576, R314) -/

/-- A Drover engine's request has waited TIER_TMO µs (R225, R235, R237): of its run, of the table of its SCHED_RUN, or of the
chunk it moves. It ends as with an error response, under the cause of a time-out. -/
def droverTimeout (s : State) (t e : Nat) : State :=
  let pg := pgDRV t e
  let late (s : State) (ctx pa : Nat) : State := droverLog (bump s pg 7) t e (tierCause pa true) ctx pa
  match engineBelow s t e, getDrv s t e, schedBelow s t e, s.moves.find? fun m => m.tile == t && m.engine == e with
  | some pa, some r, _, _ => droverStep (late s r.cmd.ctx pa) t e (.error stTIER)
  | _, _, some (c, pa), _ =>
    let s := late s c.id.ctx pa
    withDrv s c.id 0x34 fun x => schedRun s c.id x (.error stTIER)
  | _, _, none, some m =>
    let s := late s m.ctx m.low
    if m.up then copyUpEnd s m stTIER else writeBackEnd s m stTIER
  | _, _, none, none => s

/-- A request of a tile's front-end has waited: a granted command completes with TIER_ERROR, which an external host's
link counts (R314); a completion record is held (R579); an entry fetched completes with TIER_ERROR (R578). The first
that waits, in this order, is the one (DESIGN CHOICE, notes/assumptions/147.md). -/
def frontEndTimeout (s : State) (t : Nat) : State :=
  match s.cmds.find? (frontWaits s t) with
  | some c =>
    if cOp c = 0x70 then inlineCmd s c.id c true
    else if cOp c = 0x19 then resumeCmd s c.id c (.error stTIER)
    else xhostFail (bump s (pgHOSTL (xhostLink c)) 8) c.id c 1
  | none => match s.cmds.find? fun c => postWaits s t c.id.ctx c.id.q with
    | some c => completionPost s c.id.ctx c.id.q (.error stTIER)
    | none => match (s.queues.map (·.1)).find? fun k => fetchWaits s t (k / 8) (k % 8) with
      | some k => queueFetch s (k / 8) (k % 8) (.error stTIER)
      | none => s

/-- A save or a restore of an array whose request has waited (R576); a save that a fault met ends with FAULT_ABORT too
(R118). -/
def saveTimeout (s : State) (u : ArrayUnit) : State :=
  match (getArr s u).passes.find? fun p => p.stop.isSome with
  | some p =>
    if p.dead then saveFail (bump s (pgMXA u.die u.pen u.arr) 9) u p [stABORT, stTIER] else saveFail s u p [stTIER]
  | none => match unitNext s u with
    | some x => if x.slot.isSome then restoreFail s u x [stTIER] else s
    | none => s

/-- A request of an Etch unit has waited: its run ends with TIER_ERROR, or its combine, export or import does, with
its outputs undefined where they may have been written (R226). -/
def etchTimeout (s : State) (t u : Nat) : State :=
  if (getEtch s t u).isSome then etchStep s t u (.error stTIER)
  else match s.cmds.find? fun c => c.phase == .granted && c.tile == t && c.engine == u && 0x61 ≤ cOp c && cOp c ≤ 0x63 with
    | none => s
    | some c =>
      let fmt := cbits c 308 304
      let n := cbits c 415 384 + 1
      let eb := imageElemBytes fmt n
      let outs := match cOp c with
        | 0x61 => [(cbits c 223 176, 4)]
        | 0x62 => [(cbits c 271 224, 0x40 + roundUp eb 64 + imageScaleBytes fmt n)]
        | _ => [(cbits c 223 176, eb), (cbits c 271 224, imageScaleBytes fmt n)]
      etchFail s t u c.id [stTIER] outs

/-- A line request of a unit to tier F or through a window waits TIER_TMO µs without a response: the command it
serves ends with TIER_ERROR. Nothing happens while no request of the unit waits there. -/
def execTierRequestTimeout (unit : UnitId) (s : State) : Out :=
  .next (match unit with
    | .drover t e => if t < 4 ∧ e < 16 then droverTimeout s t e else s
    | .etch t e => if t < 4 ∧ e < 8 ∧ (etchAsks s t e).any (askBelow s) then etchTimeout s t e else s
    | .hatch d p => if d < 16 ∧ p < 9 ∧ (hatchAsks s d p).any (askBelow s) then weightLine s d p (.error stTIER) else s
    | .coll t _ =>
      match s.fab.cols.find? fun x => x.tile == t && (colAsks s x).any (askBelow s) with
      | some x => colEnd s x (resOf (x.codes ++ [stTIER]))
      | none => s
    | .array u => if unitOk u && (saveAsks s u).any (askBelow s) then saveTimeout s u else s
    | .frontEnd t => if t < 4 then frontEndTimeout s t else s
    | .remote t => if t < 4 then remoteTimeout s t else s
    | .vec _ _ => s
    | .list _ _ => s
    | .pen _ _ => s
    | .prep _ => s)

end Sys2Proof.Machine
end

