-- ==== Sys2Proof/Machine/Memc.lean ====
section
/-! DEFINITION. The memory controllers and the memory map (chapter 6): line accesses and their errors (R185, R197 to
R201), scrub, refresh and temperature (R198, R203 to R205), the table build (R186 to R190, R202) and the imbalance
monitor (R195). -/

namespace Sys2Proof.Machine

open Sys2Proof

/-! ## Bad channels (R199 to R201) -/

/-- The ranges that a bad channel reaches: the global region, and the local region of its tile (R186). -/
def chanReach (s : State) (ch : Nat) : List (Nat × Nat) :=
  [(tierNBase, tierNBase + globalLines s * 256), localRange s (ch / 192)]

/-- A context holds a present segment whose physical range meets one of the ranges. -/
def ctxCovers (s : State) (c : Nat) (rs : List (Nat × Nat)) : Bool :=
  let base := segTblPa s c
  if regionOf s base != .tierN then false
  else
    let tbl := (List.range 512).map fun i => curByte s (base + i)
    (List.range 16).any fun i =>
      let d := segDesc tbl i
      let lo := segPBase d * 4096
      let len := (segVLimit d + 1 - segVBase d) * 4096
      let hi := lo + if d.testBit 7 then compExtent len else len
      d.testBit 0 && d.testBit 1 && rs.any fun r => lo < r.2 && r.1 < hi

/-- Record an error in MEMC_ERRLOG under its VALID rule (R207). -/
def memcLog (s : State) (ch line cause : Nat) (ue : Bool) : State :=
  let pg := pgMEMC (ch / 64)
  if fbit s pg F.MEMC_ERRLOG_VALID then s
  else
    let s := fput (fputb (fput s pg F.MEMC_ERRLOG_VALID 1) pg F.MEMC_ERRLOG_UE ue) pg F.MEMC_ERRLOG_PC (ch % 64)
    setLogged (fput (fput s pg F.MEMC_ERRLOG_CAUSE cause) pg F.MEMC_ERRADDR_LINE line) pg

/-- A pseudo-channel is marked bad: it enters the fault log, and MEM_FATAL goes once to each fold that R201 names. -/
def chanFail (s : State) (ch cause : Nat) : State :=
  if chanBad s ch || !s.memc.live.contains ch then s
  else
    let pg := pgMEMC (ch / 64)
    let p := ch % 64
    let s := if p < 32 then forBits s pg F.MEMC_BAD_LO_BAD (2 ^ p) else forBits s pg F.MEMC_BAD_HI_BAD (2 ^ (p - 32))
    let s := logFault s 0x01 cause ch 0
    let rs := chanReach s ch
    let hit := (List.range 16).filter fun f => foldEnabled s f && (foldCtxs s f).any fun c => ctxCovers s c rs
    hit.foldl (fun s f => foldFault (bump s (pgSHEEP (ch / 192)) 11) f 2 (pageId pg) ch) s

/-- One second of Herd time (R491). -/
def oneSecond : Nat := 250000000

/-- An uncorrectable error of a line: counted, logged, the line poisoned, and the channel marked bad at the eighth
distinct line within 1 s (R197, R199). -/
def lineUe (s : State) (ch line pa cause : Nat) : State :=
  let now := herdTime s
  let s := memcLog (bump s (pgMEMC (ch / 64)) 5) ch line cause true
  let s := setPoison s pa true
  let keep := s.memc.ues.filter fun u => !(u.1 == ch && u.2.1 == line) && now < u.2.2 + oneSecond && u.2.2 ≤ now
  let s := putMemc s fun m => { m with ues := keep ++ [(ch, line, now)] }
  if 8 ≤ (s.memc.ues.filter fun u => u.1 == ch).length then chanFail s ch cause else s

/-! ## Accesses (R185, R194, R197, R208) -/

/-- A request is counted by the imbalance monitor (R195). -/
def imbCount (s : State) (ch zone : Nat) (acc : MemAccess) : State :=
  if !fbit s pgMEMMAP F.MEMMAP_IMB_IMB_EN then s
  else putMemc s fun m =>
    let m := { m with imb := mput m.imb ch (mgetD m.imb ch 0 + 1) }
    if m.busiest != some ch then m
    else
      let m := { m with imbZone := mput m.imbZone zone (mgetD m.imbZone zone 0 + 1) }
      match acc.fold with
      | some f => if acc.reclaim then m else { m with imbFold := mput m.imbFold f (mgetD m.imbFold f 0 + 1) }
      | none => m

/-- The 64 B bursts that a range covers in part (R194). -/
def partBursts (pa n : Nat) : Nat :=
  ((List.range 4).filter fun b =>
    let lo := pa / 256 * 256 + b * 64
    let a := max pa lo
    let z := min (pa + n) (lo + 64)
    a < z && z - a < 64).length

/-- Count an access by its size, and a change of direction (R208). -/
def accCount (s : State) (ch : Nat) (acc : MemAccess) : State :=
  let pg := pgMEMC (ch / 64)
  let dir := if acc.write.isSome then 1 else 0
  let whole := acc.len = 256
  let s := if whole then bump s pg (if acc.write.isSome then 1 else 0) else bump s pg 2
  let s := if acc.write.isSome then bumpBy s pg 3 (partBursts acc.pa acc.len) else s
  let s := match mget s.memc.lastDir ch with
    | some d => if d = dir then s else bump s pg 7
    | none => s
  putMemc s fun m => { m with lastDir := mput m.lastDir ch dir }

/-- What the error-correcting code found in the bursts that an access reads. -/
def accEcc (s : State) (ch line pa : Nat) (ecc : MemEcc) : State :=
  match ecc with
  | .clean => s
  | .parity _ => s
  | .corrected => bump s (pgMEMC (ch / 64)) 4
  | .uncorrectable => lineUe s ch line (pa / 256 * 256) 1

/-- The requests to a bad channel: a read returns poison, and a write is discarded and completes with POISON (R200). -/
def accBad (s : State) (ch : Nat) (acc : MemAccess) : State :=
  let s := bump s (pgMEMC (ch / 64)) 13
  if acc.write.isSome then { s with resp := { code := stPOISON } }
  else { bump s (pgMEMC (ch / 64)) 6 with resp := { data := List.replicate acc.len 0, poison := true } }

/-- A line is read or written (R197). A write of part of a poisoned line leaves the line as it is; one that covers its bursts
whole reads nothing (R194). -/
def accData (s : State) (ch line : Nat) (acc : MemAccess) (ecc : MemEcc) : State :=
  match acc.write with
  | none =>
    let s := accEcc s ch line acc.pa ecc
    let p := poisonAt s acc.pa
    { (if p then bump s (pgMEMC (ch / 64)) 6 else s) with resp := { data := readBytes s acc.pa acc.len, poison := p } }
  | some bs =>
    let s := if partBursts acc.pa acc.len = 0 then s else accEcc s ch line acc.pa ecc
    if acc.len < 256 && poisonAt s acc.pa then { s with resp := { code := stPOISON } }
    else { storeBytes s acc.pa bs acc.poison with resp := {} }

/-- The controller performs an access. A command or address parity error is logged and the command retried; one that comes
back after three retries marks the channel bad (R199), which then answers under R200. -/
def memcAccess (s : State) (ch line zone : Nat) (acc : MemAccess) (ecc : MemEcc) : State :=
  let s := imbCount s ch zone acc
  if chanBad s ch then accBad s ch acc
  else
    match ecc with
    | .parity true => accBad (chanFail (memcLog s ch line 2 true) ch 2) ch acc
    | .parity false => accData (accCount (memcLog s ch line 2 false) ch acc) ch line acc ecc
    | _ => accData (accCount s ch acc) ch line acc ecc

/-- An access that a controller takes: within a line of a channel of its stack. -/
def accFits (s : State) (stack : Nat) (acc : MemAccess) : Bool :=
  regionOf s acc.pa == .tierN && (acc.write.map (·.length)).getD acc.len == acc.len && acc.len != 0 &&
    acc.pa % 256 + acc.len ≤ 256 && (chanOf s acc.pa).any fun c => c.1 / 64 == stack

/-- An access goes behind those of its hub cycle whose input number is not above its own (R185). -/
def arrivalIn (x : MemAccess) : List MemAccess → List MemAccess
  | [] => [x]
  | y :: t => if y.input ≤ x.input then y :: arrivalIn x t else x :: y :: t

/-- The accesses of one hub cycle by ascending input number (R185). -/
def arrivalOrder (l : List MemAccess) : List MemAccess := l.foldl (fun acc x => arrivalIn x acc) []

/-- The accesses that may be performed: of each line, the one that arrived first (R185). -/
def memcReady : List MemAccess → List MemAccess
  | [] => []
  | x :: t => x :: (memcReady t).filter fun y => y.pa / 256 != x.pa / 256

/-- The fold that an access is charged to; 16 stands for the system share (R258). -/
def accFold (x : MemAccess) : Nat := x.fold.getD 16

/-- The number under which a controller's arbiter is held. -/
def memcKey (stack : Nat) : Nat := 80000 + stack

/-- The controller performs one access: deficit round robin in bytes among the folds (R258), and of the fold's lines the one
that `choice` names (R185). -/
def memcServe (s : State) (stack choice : Nat) (ecc : MemEcc) : State :=
  let ready := memcReady (memcWaiting s stack)
  let pick (f : Nat) : Option MemAccess :=
    let mine := ready.filter fun x => accFold x == f
    mine[choice % mine.length]?
  let folds := (List.range 17).filterMap fun f => (pick f).map fun x => (f, x.len)
  match drrPick (quantum s) (mgetD s.arbs (memcKey stack) {}) folds with
  | none => s
  | some (f, a) =>
    match pick f with
    | none => s
    | some x =>
      let s := putWaiting { s with arbs := mput s.arbs (memcKey stack) a } stack ((memcWaiting s stack).erase x)
      match chanOf s x.pa with
      | none => s
      | some (ch, line, zone) => memcAccess s ch line zone x ecc

/-- A hub cycle at a controller: accesses arrive, and one may be performed. At thermal level critical the requests wait
(R205). -/
def memcCycle (s : State) (stack : Nat) (cyc : MemCycle) (ecc : MemEcc) : State :=
  let s := putWaiting s stack (memcWaiting s stack ++ arrivalOrder (cyc.arrivals.filter (accFits s stack)))
  match cyc.serve with
  | some choice => if fget s (pgMEMC stack) F.MEMC_THERM_LEVEL = 3 then s else memcServe s stack choice ecc
  | none => s

def execMemcAccess (stack : Nat) (acc : MemCycle) (ecc : MemEcc) (s : State) : Out :=
  .next (if stack < 12 then memcCycle s stack acc ecc else s)

/-- A command has had no response for 10 µs: the channel is bad (R199). -/
def execMemcCmdTimeout (stack chan : Nat) (s : State) : Out :=
  .next (if stack < 12 ∧ chan < 64 ∧ s.memc.live.contains (stack * 64 + chan) ∧ !chanBad s (stack * 64 + chan) then
    chanFail (memcLog s (stack * 64 + chan) 0 3 false) (stack * 64 + chan) 3 else s)

/-- The next line of a live pseudo-channel is scrubbed (R198). -/
def memcScrub (s : State) (ch : Nat) (ecc : Ecc) : State :=
  let line := mgetD s.memc.scrub ch 0
  let s := putMemc s fun m => { m with scrub := mput m.scrub ch ((line + 1) % 2 ^ 22) }
  let s := bump s (pgMEMC (ch / 64)) 9
  match ecc, paOfChan s ch line with
  | .corrected, _ => bump s (pgMEMC (ch / 64)) 4
  | .uncorrectable, some pa => lineUe s ch line pa 4
  | _, _ => s

def execMemcScrub (stack chan : Nat) (ecc : Ecc) (s : State) : Out :=
  let ch := stack * 64 + chan
  .next (if stack < 12 ∧ chan < 64 ∧ s.memc.live.contains ch ∧ !chanBad s ch ∧ fget s (pgMEMC stack) F.MEMC_THERM_LEVEL ≠ 3
    then memcScrub s ch ecc else s)

/-- A refresh command; a bad or mapped-out channel is refreshed too (R203). -/
def execMemcRefresh (stack chan : Nat) (s : State) : Out :=
  .next (if stack < 12 ∧ chan < 64 then bump s (pgMEMC stack) 8 else s)

/-! ## Temperature (R204) -/

/-- The threshold of a thermal level. -/
def thermAt (s : State) (stack level : Nat) : Nat :=
  let pg := pgMEMC stack
  match level with
  | 1 => fget s pg F.MEMC_THRESH_WARN
  | 2 => fget s pg F.MEMC_THRESH_THROTTLE
  | 3 => fget s pg F.MEMC_THRESH_CRITICAL
  | _ => 0

/-- The level after a reading: the highest reached, or one lower once the reading is below the level's threshold
less HYST. -/
def thermLevel (s : State) (stack temp : Nat) : Nat :=
  let l := fget s (pgMEMC stack) F.MEMC_THERM_LEVEL
  let top := if thermAt s stack 3 ≤ temp then 3 else if thermAt s stack 2 ≤ temp then 2
    else if thermAt s stack 1 ≤ temp then 1 else 0
  if l < top then top
  else if 0 < l ∧ temp + fget s (pgMEMC stack) F.MEMC_THRESH_HYST < thermAt s stack l then l - 1
  else l

/-- A stack's temperature is read, every 32 µs; a stack at its trip point trips the package (R204, R442). -/
def thermRead (s : State) (stack temp : Nat) : State :=
  let pg := pgMEMC stack
  let l := fget s pg F.MEMC_THERM_LEVEL
  let s := if l = 0 then s else bumpBy s pg (9 + l) 32
  let s := fput (fput s pg F.MEMC_THERM_TEMP (min temp 255)) pg F.MEMC_THERM_VALID 1
  let l' := thermLevel s stack temp
  let s := if l' = l then s else raiseEvent (fput s pg F.MEMC_THERM_LEVEL l') pg
  if tripAt 2 ≤ temp && !s.pwr.tripN then thermalTrip s 2 stack temp else s

def execMemcThermRead (stack temp : Nat) (s : State) : Out :=
  .next (if stack < 12 then thermRead s stack temp else s)

/-! ## The memory map (R186 to R190, R202) -/

/-- MEMMAP_CTL.LOCK is set: the tables are built over the live channels, and the page is locked (R189, R530). -/
def mapLock (s : State) : State :=
  if fbit s pgMEMMAP F.MEMMAP_CTL_LOCK then s
  else
    let live := liveList s
    let s := putMemc s fun m => { m with live := live, split := min (fget s pgMEMMAP F.MEMMAP_CTL_LOCAL_SPLIT) 32 }
    let s := fput (fput s pgMEMMAP F.MEMMAP_CTL_LOCK 1) pgMEMMAP F.CTL_LOCK 1
    let s := fput (fput s pgMEMMAP F.MEMMAP_STS_LIVE live.length) pgMEMMAP F.MEMMAP_STS_BUILT 1
    fput s pgMEMMAP F.MEMMAP_TLIVE_TILE_LIVE
      (((List.range 4).map fun t => (tileLive s t).length * 2 ^ (8 * t)).foldl (· + ·) 0)

def execMemmapLock (src : Src) (s : State) : Out := .next (withSys s src mapLock)

/-- Every line of tier N has been written zero (R202). -/
def execTierNZeroDone (s : State) : Out :=
  .next (if fbit s pgMEMMAP F.MEMMAP_STS_BUILT && !fbit s pgMEMMAP F.MEMMAP_STS_READY then
    fput (zeroRange s tierNBase (tierNBase + s.memc.live.length * 2 ^ 30)) pgMEMMAP F.MEMMAP_STS_READY 1 else s)

/-- The contents of a range become undefined, cached copies included. -/
def undefRegion (s : State) (lo hi : Nat) : State :=
  let lines := ((s.coh.copies.map fun (e : Nat × Copy) => e.1 / 8) ++ s.coh.fly.map fun (e : Nat × (List Byte × Bool)) => e.1).filter fun l => lo ≤ l * 256 && l * 256 < hi
  makeUndef (lines.foldl recallLine s) lo hi

/-- A write of MEMMAP_ZSALT_m: the eight zones it names become undefined (R190). -/
def zsaltWrite (s : State) (m v : Nat) : State :=
  let s := ((List.range 8).flatMap fun j => zoneRanges s (8 * m + j)).foldl (fun s r => undefRegion s r.1 r.2) s
  fputi s pgMEMMAP F.MEMMAP_ZSALT_SALT m v

def execZsaltWrite (src : Src) (m : Nat) (value : BitVec 32) (s : State) : Out :=
  .next (if m < 8 then withSys s src fun s => zsaltWrite s m value.toNat else s)

/-! ## The imbalance monitor (R195) -/

/-- The number with the most counts, the lowest of several. -/
def mostCounted (m : FMap Nat) : Option Nat :=
  (m.foldl (fun (b : Option (Nat × Nat)) e => match b with
    | some x => if x.2 < e.2 then some e else b
    | none => some e) none).map (·.1)

/-- A window ends. The busiest channel of the window before is the one whose zones and folds were counted; for
another the manual's counts do not exist and the fields take free values. -/
def imbEnd (s : State) : State :=
  let m := s.memc
  let p := m.live.length
  let total := (m.imb.map (·.2)).foldl (· + ·) 0
  let busy := mostCounted m.imb
  let top := match busy with | some c => mgetD m.imb c 0 | none => 0
  let bad := p * 1024 ≤ total && 0 < p && fget s pgMEMMAP F.MEMMAP_IMB_IMB_RATIO * total < top * 16 * p
  let run := if bad then m.run + 1 else 0
  let hit := bad && max (fget s pgMEMMAP F.MEMMAP_IMB_IMB_HOLD) 1 ≤ run
  let s := putMemc s fun m => { m with imb := [], imbZone := [], imbFold := [], busiest := busy, run := if hit then 0 else run }
  if !hit then s
  else
    let g := drawFree s
    let counted := m.busiest == busy
    let pick (x : FMap Nat) (k : Nat) : Nat :=
      match (if counted then mostCounted x else none) with
      | some v => v
      | none => (Config.freeByte g.1 k).toNat
    let s := fput (fput g.2 pgMEMMAP F.MEMMAP_IMBSTS_EVENT 1) pgMEMMAP F.MEMMAP_IMBSTS_HOT_CHAN (busy.getD 0)
    fput (fput s pgMEMMAP F.MEMMAP_IMBSTS_HOT_ZONE (pick m.imbZone 0)) pgMEMMAP F.MEMMAP_IMBSTS_HOT_FOLD (pick m.imbFold 1)

def execImbWindowEnd (s : State) : Out :=
  .next (if fbit s pgMEMMAP F.MEMMAP_IMB_IMB_EN then imbEnd s else s)

end Sys2Proof.Machine
end

