-- ==== Sys2Proof/Machine/Hub.lean ====
section
/-! DEFINITION. The hub of each tile (R30 to R41): packets that wait at its inputs and the credits of each class there
(R31), the grant of an output (R38, R39), urgency and stalls (R40), and the panel bridges (R36, R37). Inputs and outputs of a tile carry one number each:
0 to 3 its hybrid-bond ports, 4 to 6 the bridges to the other tiles in ascending order, 7 the host bridge, 8 to 10
its memory controllers, 11 the tile cache and directory, 12 to 27 the Drover, 28 to 35 the Etch and 36 and 37 the
collective engines, 38 the register pages (notes/assumptions/32.md). -/

namespace Sys2Proof.Machine

open Sys2Proof

def getHub (s : State) (t : Nat) : HubSt := mgetD s.hubs t {}
def putHub (s : State) (t : Nat) (h : HubSt) : State :=
  fput { s with hubs := mput s.hubs t h } (pgHUB t) F.HUB_STS_URGENT_NOW (h.pkts.filter (·.pkt.urgent)).length

/-- Inputs and outputs of a hub. -/
def hubPorts : Nat := 39

/-- The other tiles, ascending. -/
def otherTiles (t : Nat) : List Nat := (List.range 4).filter (· != t)

/-- The bridge number of tile `u` at tile `t`. -/
def bridgeNo (t u : Nat) : Nat := ((otherTiles t).findIdx? (· == u)).getD 0

/-- The bridge between two tiles is lost (R37). -/
def bridgeIsLost (s : State) (t u : Nat) : Bool := (fget s (pgHUB t) F.HUB_STS_LOST_BRIDGE).testBit (bridgeNo t u)

/-- The tile that a packet at tile `t` for tile `u` crosses to: `u`, or the lower-numbered of the two others when that
bridge is lost (R37). The rule speaks of one failed bridge; DESIGN CHOICE (notes/assumptions/128.md): where a bridge of
the detour is lost too, each tile applies the same rule to the packets it holds, so a packet can go back and forth. -/
def hubVia (s : State) (t u : Nat) : Nat :=
  if bridgeIsLost s t u then ((otherTiles t).find? (· != u)).getD u else u

/-- The output a packet goes to at a tile. -/
def hubOutput (s : State) (t : Nat) (p : Packet) : Nat :=
  if p.destTile = t then p.destOut else 4 + bridgeNo t (hubVia s t p.destTile)

/-- A hybrid-bond port with an unrepaired wire group carries no traffic (R567). -/
def portDead (s : State) (t i : Nat) : Bool := i < 4 && ((mgetD s.boot.ict (4 * t + i) []).getD 2 0) != 0

/-- R38's order of classes, from the lowest. -/
def classRank (c : MsgClass) : Nat :=
  match c with
  | .request => 0 | .snoop => 1 | .response => 2 | .writeback => 3 | .completion => 4

/-- The packets of a class that an input's buffers of that class hold, or that are on their way there over a bridge
(R31): each holds one credit of the input's class. -/
def hubHeld (s : State) (t input : Nat) (c : MsgClass) : Nat :=
  ((getHub s t).pkts.filter fun x => x.input == input && x.pkt.cls == c).length

/-- An input holds credit for a class (R31): a buffer of that class is free. How many buffers an input has is the
implementation's, at least one (notes/assumptions/104.md). -/
def hubRoom (s : State) (t input : Nat) (c : MsgClass) : Bool :=
  hubHeld s t input c == 0 || hubHeld s t input c < Config.hubBuffers input (classRank c) + 1

/-- A packet takes its place at an input, where it arrives in hub cycle `at_` (R40). -/
def hubEnter (s : State) (t input at_ : Nat) (p : Packet) : State :=
  let h := getHub s t
  putHub s t { h with pkts := h.pkts ++
    [{ pkt := p, input := input, since := at_, urgentAt := if p.urgent then some at_ else none }] }

/-- Name a hub cycle: no row of this hub acts in an earlier one from here on. -/
def hubClock (s : State) (t now : Nat) : State := { s with hubs := mput s.hubs t { getHub s t with clk := now } }

/-- In a hub cycle a packet arrives at an input that holds credit for its class (R31); one from a host die comes over
the bridge that its destination names (R35). -/
def execHubPacketArrive (tile : Nat) (input : HubAt) (pkt : Packet) (s : State) : Out :=
  let known := (getHub s tile).pkts.any fun x => x.pkt.id == pkt.id
  let route := input.port != 7 || pkt.destTile % 2 == tile % 2
  .next (if tile < 4 ∧ input.port < hubPorts ∧ pkt.destTile < 4 ∧ pkt.destOut < hubPorts ∧ pkt.bytes ≤ 256 ∧ !known ∧
      route ∧ !portDead s tile input.port ∧ hubRoom s tile input.port pkt.cls ∧ (getHub s tile).clk ≤ input.now then
    hubEnter (hubClock s tile input.now) tile input.port input.now pkt else s)

/-- Two packets of one class that go from one source to one destination keep their order (R32). -/
def sameFlow (a b : Packet) : Bool :=
  a.cls == b.cls && a.src == b.src && a.destTile == b.destTile && a.destOut == b.destOut

/-- The next input of a packet that leaves tile `t` holds credit for its class (R31, R38). A unit takes what reaches it at
once and returns the credit (DESIGN CHOICE, notes/assumptions/104.md). -/
def hubCredit (s : State) (t : Nat) (p : Packet) : Bool :=
  let u := hubVia s t p.destTile
  p.destTile == t || hubRoom s u (4 + bridgeNo u t) p.cls

/-- The packets that may be granted at an output in hub cycle `now`: those that have arrived, the first of each flow
(R32), whose class holds credit at the next input (R38). -/
def hubReady (s : State) (t output now : Nat) : List HubPkt :=
  let ps := (getHub s t).pkts
  ps.filter fun x => hubOutput s t x.pkt == output && !portDead s t output && x.since ≤ now && hubCredit s t x.pkt &&
    !((ps.takeWhile fun y => y.pkt.id != x.pkt.id).any fun y => sameFlow x.pkt y.pkt)

/-- The fold a packet is charged to; 16 stands for the system share. -/
def hubFold (x : HubPkt) : Nat := x.pkt.fold.getD 16

/-- The oldest packet; of equal age, that of the lower input. -/
def hubOldest : List HubPkt → Option HubPkt
  | [] => none
  | x :: t =>
    match hubOldest t with
    | none => some x
    | some y => if x.since < y.since || (x.since == y.since && x.input ≤ y.input) then some x else some y

/-- Hub cycles from a grant to the arrival over a panel bridge: through the router and over the bridge (R34). -/
def crossCycles : Nat := 2 + 4

/-- A packet granted in hub cycle `now` leaves: into the next tile's hub over a bridge, or to its unit. -/
def hubLeave (s : State) (t output now : Nat) (x : HubPkt) : State :=
  let h := getHub s t
  let s := putHub s t { h with
    clk := now
    pkts := h.pkts.filter fun y => y.pkt.id != x.pkt.id
    stalled := h.stalled.filter (· != x.pkt.id)
    granted := mput h.granted output (now, x.pkt) }
  let s := bump s (pgHUB t) 0
  if x.pkt.destTile = t then s
  else
    let u := hubVia s t x.pkt.destTile
    hubEnter s u (4 + bridgeNo u t) (now + crossCycles) x.pkt

def hubKey (t output : Nat) : Nat := 70000 + t * 64 + output

/-- In hub cycle `now` an output grants at most one packet (R38, R39). What the deficit round robin charges is the
packet's data (DESIGN CHOICE, notes/assumptions/129.md): the manual gives the header no size, so a packet of a header
alone costs nothing and its fold keeps the turn. -/
def hubGrant (s : State) (t output now : Nat) : State :=
  let c := hubReady s t output now
  let a := mgetD s.arbs (hubKey t output) {}
  match hubOldest (c.filter (·.pkt.urgent)) with
  | some x =>
    hubLeave { s with arbs := mput s.arbs (hubKey t output) (drrCharge a (hubFold x) x.pkt.bytes) } t output now x
  | none =>
    let reqs := c.any fun x => x.pkt.cls == .request
    let top := c.foldl (fun m x => max m (classRank x.pkt.cls)) 0
    let cls := if reqs && 15 ≤ a.lost then 0 else top
    let best := c.filter fun x => classRank x.pkt.cls == cls
    let pick (f : Nat) : Option HubPkt :=
      let mine := best.filter fun x => hubFold x == f
      (rrPick (mgetD a.rr f 0) (mine.map fun x => x.input + 1)).bind fun i => mine.find? fun x => x.input + 1 == i
    let folds := (List.range 17).filterMap fun f => (pick f).map fun x => (f, x.pkt.bytes)
    let a := { a with lost := if reqs && cls != 0 then a.lost + 1 else 0 }
    match drrPick (quantum s) a folds with
    | none => s
    | some (f, a) =>
      match pick f with
      | none => s
      | some x => hubLeave { s with arbs := mput s.arbs (hubKey t output) { a with rr := mput a.rr f (x.input + 1) } } t output now x

/-- An output has granted nothing yet in hub cycle `now` (R38). -/
def outputFree (s : State) (t output now : Nat) : Bool :=
  (getHub s t).clk ≤ now &&
    (match mget (getHub s t).granted output with
    | some g => decide (g.1 < now)
    | none => true)

def execHubPacketGrant (tile : Nat) (output : HubAt) (s : State) : Out :=
  .next (if tile < 4 ∧ output.port < hubPorts ∧ outputFree s tile output.port output.now then
    hubGrant s tile output.port output.now else s)

/-- STARVE_LIMIT and STALL_MULT as they act (R41). -/
def starveLimit (s : State) (t : Nat) : Nat := max (fget s (pgHUB t) F.HUB_ARB_CTL_STARVE_LIMIT) 0x40
def stallMult (s : State) (t : Nat) : Nat := max (fget s (pgHUB t) F.HUB_ARB_CTL_STALL_MULT) 1

/-- Change the waiting packet with this id, in hub cycle `now`. -/
def hubUpd (s : State) (t id now : Nat) (f : HubPkt → HubPkt) : State :=
  let h := getHub s t
  putHub s t { h with clk := now, pkts := h.pkts.map fun x => if x.pkt.id == id then f x else x }

/-- In hub cycle `now` a packet's wait reaches STARVE_LIMIT: it is urgent from here on (R40). -/
def execHubPacketUrgent (tile id now : Nat) (s : State) : Out :=
  .next (match (getHub s tile).pkts.find? fun x => x.pkt.id == id with
    | some x =>
      if tile < 4 ∧ !x.pkt.urgent ∧ x.since + starveLimit s tile ≤ now ∧ (getHub s tile).clk ≤ now then
        bump (hubUpd s tile id now fun x => { x with pkt := { x.pkt with urgent := true }, urgentAt := some now }) (pgHUB tile) 1
      else s
    | none => s)

/-- In hub cycle `now` an urgent packet has waited STALL_MULT × STARVE_LIMIT more: HUB_STALL goes to the tile's
Sheepdog, once, and the packet keeps waiting (R40). -/
def execHubStall (tile id now : Nat) (s : State) : Out :=
  .next (match (getHub s tile).pkts.find? fun x => x.pkt.id == id with
    | some x =>
      match x.urgentAt with
      | some u =>
        if tile < 4 ∧ u + stallMult s tile * starveLimit s tile ≤ now ∧ !(getHub s tile).stalled.contains id ∧
            (getHub s tile).clk ≤ now then
          let s := hubUpd s tile id now fun x => x
          let h := getHub s tile
          bump (bump (putHub s tile { h with stalled := h.stalled ++ [id] }) (pgHUB tile) 2) (pgSHEEP tile) 10
        else s
      | none => s
    | none => s)

/-- The packet `id`, on its way over the bridge from `t` to `u`, arrives `late` hub cycles later. -/
def hubDelay (s : State) (t u id late : Nat) : State :=
  let h := getHub s u
  let f (x : HubPkt) : HubPkt :=
    if x.pkt.id == id && x.input == 4 + bridgeNo u t && h.clk < x.since then
      { x with since := x.since + late, urgentAt := x.urgentAt.map (· + late) }
    else x
  { s with hubs := mput s.hubs u { h with pkts := h.pkts.map f } }

/-- A bridge retries a packet at link level, which arrives at most 12 hub cycles later for it; the order stays (R36). -/
def execBridgeRetry (tile other : Nat) (id : HubLate) (s : State) : Out :=
  .next (if tile < 4 ∧ other < 4 ∧ tile ≠ other ∧ !bridgeIsLost s tile other ∧ id.late ≤ 12 then
    hubDelay (bump s (pgHUB tile) 3) tile other id.id id.late else s)

/-- A bridge fails entirely: its traffic is rerouted until package reset, and the loss is logged (R37). -/
def bridgeFail (s : State) (t u : Nat) : State :=
  let one (s : State) (a b : Nat) : State :=
    fput (forBits s (pgHUB a) F.HUB_STS_LOST_BRIDGE (2 ^ bridgeNo a b)) (pgHUB a) F.HUB_STS_BRIDGE_DETOUR 1
  logFault (one (one s t u) u t) 0x02 0 (min t u + max t u * 16) 0

def execBridgeLost (tile other : Nat) (s : State) : Out :=
  .next (if tile < 4 ∧ other < 4 ∧ tile ≠ other ∧ !bridgeIsLost s tile other then bridgeFail s tile other else s)

end Sys2Proof.Machine
end

