-- ==== Sys2Proof/Machine/Boot.lean ====
section
/-! DEFINITION. Bring-up (chapter 18): the rail-control bus (R546), the power sequences (R551 to R557), package reset
and the pins that act on it (R558, R180, R318), life-cycle requests (R560, R563), secure boot (R561 to R564), the
interconnect test (R565 to R567, R571), training and the way to ready (R299, R318, R319, R568). -/

namespace Sys2Proof.Machine

open Sys2Proof

/-! ## The rail-control bus (R546) -/

/-- A regulator takes a frame with its start bits, command and CRC right; it discards another. -/
def railTake (s : State) (bus frame : Nat) : State :=
  let die := 4 * bus + bits frame 21 20
  if bits frame 23 22 = 2 ∧ bits frame 9 8 = 1 ∧ bits frame 7 0 = crc8 [bits frame 23 16, bits frame 15 8] ∧
      s.boot.en.testBit (7 + die) then
    putBoot s fun b => { b with rails := mput b.rails die (bits frame 19 10) }
  else s

def execRailctlFrame (bus : Nat) (frame : BitVec 24) (s : State) : Out :=
  .next (if bus < 4 then railTake s bus frame.toNat else s)

/-! ## Power-up and power-down (R551 to R557) -/

/-- The rails of power-up step k, one bit each; the four groups of U6 are one step here (R551). -/
def upRails (k : Nat) : Nat :=
  match k with
  | 1 => 2 ^ 1
  | 2 => 2 ^ 2
  | 3 => 2 ^ 3
  | 4 => 2 ^ 4
  | 5 => 2 ^ 5
  | 6 => 0xFFFF * 2 ^ 7
  | _ => 2 ^ 6

/-- The rails of power-down step k: those of power-up step 8 - k (R553). -/
def downRails (k : Nat) : Nat := upRails (8 - k)

/-- Assert a step's enables: its rails leave "off"; a C-die's regulator starts at 0.600 V (R546). -/
def enableStep (s : State) (k : Nat) : State :=
  let m := upRails k
  putBoot s fun b => { b with
    seq := .up k
    en := b.en ||| m
    hot := b.hot ||| m
    rails := if k = 6 then (List.range 16).map fun d => (d, 600) else b.rails }

/-- Deassert a step's enables: its rails leave their windows. -/
def disableStep (s : State) (k : Nat) : State :=
  let m := downRails k
  let win := fget s pgPKG F.PKG_RAILS_IN_WINDOW
  showRails (putBoot s fun b => { b with seq := .down k, en := b.en &&& (b.en ^^^ m) }) (win &&& (win ^^^ m))

/-- PWR_ON rises: with the trip clear and every rail off the sequence starts at U1. FAULT_N is let go (R551, R555). -/
def execPowerUp (s : State) : Out :=
  .next (if s.boot.seq == .off then
    let s := putBoot s fun b => { b with faultN := false, falling := false }
    if s.pwr.tripN ∨ s.boot.hot / 2 ≠ 0 then s else enableStep (showRails s 1) 1
  else s)

/-- A step's rails are in window: the next step starts, or the part is powered; a PWR_ON that fell meanwhile starts
the power-down from this step (R551, R557). -/
def execPowerUpStepDone (s : State) : Out :=
  .next (match s.boot.seq with
    | .up k =>
      let s := showRails s (fget s pgPKG F.PKG_RAILS_IN_WINDOW ||| upRails k)
      if s.boot.falling then disableStep (putBoot s fun b => { b with falling := false }) (8 - k)
      else if k < 7 then enableStep s (k + 1)
      else putBoot s fun b => { b with seq := .powered }
    | _ => s)

/-- A rail of a step up to `k`, among 1 to 22. -/
def railUpTo (k rail : Nat) : Bool := (List.range k).any fun j => (upRails (j + 1)).testBit rail

/-- A rail misses its window time, or leaves its window, during power-up (R552). -/
def execRailWindowTimeout (rail : Nat) (s : State) : Out :=
  .next (match s.boot.seq with
    | .up k => if railUpTo k rail then seqFault s 1 rail 0 else s
    | _ => s)

/-- The internal reset of a power-down: that of R476, with no region kept (R553). -/
def downReset (s : State) : State :=
  let l := lcsApply s
  let t := { aonOnly s with fuse := l.1, free := s.free + 1 }
  let t := fput (fput t pgHOSTP F.HOSTP_RETSTS_DESC_VALID 0) pgHOSTP F.HOSTP_RETSTS_INTACT 0
  if l.2 then keepWipe t 2 else t

/-- PWR_ON falls. -/
def execPowerDown (s : State) : Out :=
  .next (match s.boot.seq with
    | .powered => disableStep (putBoot (downReset s) fun b => { b with latch := herdTime s }) 1
    | .up _ => putBoot s fun b => { b with falling := true, latch := herdTime s }
    | .faulted => putBoot s fun b => { b with seq := .off }
    | _ => s)

/-- A power-down step's rails are off: the next step's enables fall, or the part is off (R553). -/
def execPowerDownStepDone (s : State) : Out :=
  .next (match s.boot.seq with
    | .down k =>
      let s := putBoot s fun b => { b with hot := b.hot &&& (b.hot ^^^ downRails k) }
      if k < 7 then disableStep s (k + 1) else putBoot (powerLoss s) fun b => { b with seq := .off }
    | _ => s)

/-- A rail is not off within 5 ms of its step: the remaining enables drop, FAULT_N is asserted and the fault is
recorded; PWR_ON is low, so the sequencer may start again (R553, R554, R557). -/
def execRailOffTimeout (rail : Nat) (s : State) : Out :=
  .next (match s.boot.seq with
    | .down k =>
      if (downRails k).testBit rail then
        putBoot (seqFault s 3 rail s.boot.latch) fun b => { b with seq := .off, faultN := true }
      else s
    | _ => s)

/-- A rail of a powered part stays out of window for 20 µs (R555). -/
def execRailOutOfWindow (rail : Nat) (s : State) : Out :=
  .next (if s.boot.seq == .powered ∧ 1 ≤ rail ∧ rail ≤ 22 then
    putBoot (seqFault s 2 rail (herdTime s)) fun b => { b with faultN := true }
  else s)

/-- The always-on rail falls: nothing is left but the fuses and the flash (R462, R476). -/
def execAlwaysOnRailFall (s : State) : Out :=
  .next { State.reset with
    pending := s.pending
    out := s.out
    free := s.free + 1
    fuse := s.fuse
    podMembers := s.podMembers
    sysMembers := s.sysMembers
    memc := { keyDraw := s.free }
    herd := { podAt := s.free }
    boot := { flash := s.boot.flash } }

/-! ## Pins -/

/-- TAMPER_N: the keep regions are wiped, and the next reset keeps no region (R180, R318). -/
def execTamper (s : State) : Out :=
  .next (keepWipe { s with host := { s.host with tampered := true } } 1)

/-- PKG_RESET_N is asserted (R558). -/
def execPkgReset (s : State) : Out := .next (packageReset s 1)

def setPhase (s : State) (p : Nat) : State := fput s pgPKG F.PKG_BOOT_PHASE p
def phase (s : State) : Nat := fget s pgPKG F.PKG_BOOT_PHASE

/-- Boot stops: PHASE 0xF and a cause (R570). -/
def bootFail (s : State) (cause : Nat) : State := fput (setPhase s 0xF) pgPKG F.PKG_BOOT_FAIL_CAUSE cause

/-- PKG_RESET_N is deasserted on a powered part: both boot ROMs start; in SCRAPPED no image runs (R558, R560). -/
def execBootStart (s : State) : Out :=
  .next (if s.boot.seq == .powered ∧ !s.boot.running then
    let s := putBoot s fun b => { b with running := true }
    if s.fuse.lcs = 4 then bootFail s 3 else s
  else s)

/-! ## Life cycle (R559, R560, R563) -/

/-- PKG_LCS_REQ is written by a controller in secure mode alone (R570). -/
def lcsWrite (s : State) (src : Src) (f : State → State) : State :=
  match src with
  | .pmc _ true => guarded s src f
  | _ => s

/-- A target beyond the present state, manufacture to RMA apart (R560). -/
def lcsAllowed (now target : Nat) : Bool := now < target && target ≤ 4 && !(now == 0 && target == 3)

def lcsStage (s : State) (target : Nat) : State :=
  if lcsAllowed s.fuse.lcs target then
    fput (fput s pgPKG F.PKG_LCS_PEND_TARGET target) pgPKG F.PKG_LCS_PENDING 1
  else s

def execLcsRequest (src : Src) (target : Nat) (s : State) : Out := .next (lcsWrite s src fun s => lcsStage s target)

def execSvnBump (src : Src) (s : State) : Out :=
  .next (lcsWrite s src fun s => fput s pgPKG F.PKG_LCS_SVN_PEND 1)

/-! ## Secure boot (R561 to R564) -/

/-- A 32-bit word of an image. -/
def imgWord (img : List Byte) (off : Nat) : Nat := leNat ((img.drop off).take 4)

/-- An image is valid (R562): `keyOk` says that SHA-384 of KEY equals the fused hash of the present state, `sigOk`
that SIG verifies. -/
def imageValid (s : State) (img : List Byte) (sigOk keyOk : Bool) : Bool :=
  let len := imgWord img 12
  imgWord img 0 == 0x4C424F54 && imgWord img 4 == 1 && keyOk && sigOk && len ≤ 4 * 2 ^ 20 &&
    0x1000 + len ≤ img.length && sha384 ((img.drop 0x1000).take len) == (img.drop 0x10).take 48 &&
    s.fuse.svnMin ≤ imgWord img 8

/-- The part of flash that is the image: its header and LENGTH bytes of payload. -/
def bootImageBytes (img : List Byte) : List Byte := img.take (0x1000 + imgWord img 12)

/-- A controller runs an image (R563, R564): its slot is shown, measurement 0 is the image's hash, and the keep
region of C0 takes the identity key, whose value the manual leaves to the fuses' secret. -/
def runImage (s : State) (pmc slot : Nat) (img : List Byte) : State :=
  let s := fput (forBits s pgPKG F.PKG_BOOT_PMC_BOOTED (2 ^ pmc)) pgPKG F.PKG_BOOT_SLOT slot
  let s := makeUndef s (spadBase + 0x7BC0000) (spadBase + 0x7C00000)
  let s := putBoot s fun b => { b with measure := some (BitVec.ofNat 384 (leNat (sha384 (bootImageBytes img)))) }
  if phase s = 0xF then s
  else if fbit s pgPKG F.PKG_ICT_STS_DONE then
    if phase s = 4 then s else setPhase s 3
  else setPhase s 1

/-- A controller without a valid image enters recovery (R563). -/
def enterRecovery (s : State) (pmc : Nat) : State :=
  let s := putBoot s fun b => { b with recovery := mput b.recovery pmc () }
  if fget s pgPKG F.PKG_BOOT_PMC_BOOTED = 0 ∧ phase s ≠ 0xF then
    fput (setPhase s 0xE) pgPKG F.PKG_BOOT_FAIL_CAUSE 1
  else s

/-- A ROM reads the next slot in its order: chip select 0 slot A, slot B, then those of chip select 1. What an update
has written to a slot is what is read there. -/
def bootVerify (s : State) (pmc chip slot : Nat) (img : List Byte) (sigOk keyOk : Bool) : State :=
  let n := mgetD s.boot.tried pmc 0
  let img := mgetD s.boot.flash (chip * 2 + slot) img
  let s := putBoot s fun b => { b with tried := mput b.tried pmc (n + 1) }
  if imageValid s img sigOk keyOk then runImage s pmc slot img
  else if n = 3 then enterRecovery s pmc
  else s

def execBootImageVerify (pmc chip slot : Nat) (image : List Byte) (sigOk keyOk : Bool) (s : State) : Out :=
  .next (if pmc < 2 ∧ chip < 2 ∧ slot < 2 ∧ s.boot.running ∧ s.fuse.lcs ≠ 4 ∧
      mgetD s.boot.tried pmc 0 = chip * 2 + slot ∧ !(fget s pgPKG F.PKG_BOOT_PMC_BOOTED).testBit pmc then
    bootVerify s pmc chip slot image sigOk keyOk
  else s)

/-- An update in recovery: a valid image is written to slot B (R563). -/
def execRecoveryImage (pmc : Nat) (image : List Byte) (sigOk keyOk : Bool) (s : State) : Out :=
  .next (if (mget s.boot.recovery pmc).isSome then
    if imageValid s image sigOk keyOk then
      emit (putBoot s fun b => { b with flash := mput b.flash 1 (bootImageBytes image) }) (.recoveryReply pmc true)
    else emit s (.recoveryReply pmc false)
  else s)

/-! ## Interconnect test (R565 to R567, R571) -/

/-- Signal wires of a link; the stack interfaces' are those of their standard. -/
def linkWires (link : Nat) : Nat := if link < 16 then 65536 else if link < 22 then 6144 else 1536

/-- The tiles of panel bridge 16 to 21. -/
def bridgeTiles (link : Nat) : Nat × Nat :=
  match link with
  | 16 => (0, 1) | 17 => (0, 2) | 18 => (0, 3) | 19 => (1, 2) | 20 => (1, 3) | _ => (2, 3)

/-- The four words of a link's record (R571). A link's signal wires are numbered first and its spares after them, a
group's one spare being that of the group's number; a group with one failing wire is repaired, and its wire is
steered unless it is the spare. `wires` is the width of a stack interface. -/
def linkRecord (link wires : Nat) (rs : List LinkTest) : List Word :=
  let rs := rs.filter fun r => r.link == link && !r.failed.isEmpty
  let sig := linkWires link
  let total := if link < 26 then sig + sig / 32 else wires
  let failed := (rs.map fun r => r.failed.eraseDups.length).foldl (· + ·) 0
  let one := rs.filter fun r => r.failed.eraseDups.length == 1
  let spared := (one.filter fun r => 26 ≤ link || r.failed.headD 0 < sig).length
  let bad := rs.length - one.length
  let first := (rs.flatMap (·.failed)).foldl min 0x1FFFF
  let result := if bad ≠ 0 then 2 else if failed ≠ 0 then 1 else 0
  [BitVec.ofNat 32 (total % 2 ^ 17 + result * 2 ^ 17), BitVec.ofNat 32 (failed % 2 ^ 16 + spared % 2 ^ 16 * 2 ^ 16),
    BitVec.ofNat 32 (bad % 2 ^ 12), BitVec.ofNat 32 (first % 2 ^ 17)]

/-- Word `w` of a link's record. -/
def ictWord (s : State) (link w : Nat) : Nat := ((mgetD s.boot.ict link []).getD w 0).toNat

/-- What an unrepaired link costs (R567): a panel bridge is lost, and boot stops for a host bridge. Firmware acts on a
die's port, and training on a stack interface. -/
def ictAct (s : State) (link : Nat) : State :=
  if ictWord s link 2 = 0 then s
  else if 16 ≤ link ∧ link < 22 then
    let b := bridgeTiles link
    if bridgeIsLost s b.1 b.2 then s else bridgeFail s b.1 b.2
  else if 22 ≤ link ∧ link < 26 then bootFail s 2
  else s

def ictDone (s : State) (rs : List LinkTest) : State :=
  let g := drawFree s
  let wires := (freeWord g.1) % 2 ^ 17
  let links := List.range 38
  let s := putBoot g.2 fun b => { b with ict := links.map fun l => (l, linkRecord l wires rs) }
  let spared := (links.filter fun l => ictWord s l 1 / 2 ^ 16 != 0).length
  let s := fput (fput s pgPKG F.PKG_ICT_STS_DONE 1) pgPKG F.PKG_ICT_STS_LINKS_SPARED spared
  let s := fputb s pgPKG F.PKG_ICT_STS_UNREPAIRED (links.any fun l => ictWord s l 2 != 0)
  let s := if phase s = 1 then setPhase s 3 else s
  links.foldl ictAct s

def execInterconnectTestDone (results : List LinkTest) (s : State) : Out :=
  .next (if s.boot.running ∧ !fbit s pgPKG F.PKG_ICT_STS_DONE ∧ results.all fun r => r.link < 38 then
    ictDone s results
  else s)

/-! ## Training and ready (R202, R299, R318, R319, R568) -/

/-- HBM4 training ends: the channels that failed are mapped out. -/
def execHbmTrainingDone (failed : List Nat) (s : State) : Out :=
  .next (if phase s = 3 ∧ !fbit s pgMEMMAP F.MEMMAP_CTL_LOCK then
    let outs := failed.filter (· < 768)
    outs.foldl (fun s ch => fputi s pgMEMMAP F.MEMMAP_CHOUT_OUT (ch / 32)
        (fgeti s pgMEMMAP F.MEMMAP_CHOUT_OUT (ch / 32) ||| 2 ^ (ch % 32)))
      { s with memc := { s.memc with outs := outs } }
  else s)

/-- The used channels (R299) of the trained ones, given as (host die, channel, GiB): m, and the least capacity among
the m lowest-numbered of each die. -/
def usedChannels (trained : List (Nat × Nat × Nat)) : Nat × Nat :=
  let of (h : Nat) := (List.range 4).filterMap fun c => (trained.find? fun x => x.1 == h && x.2.1 == c).map (·.2.2)
  let m := min (of 0).length (of 1).length
  let kept := (of 0).take m ++ (of 1).take m
  (m, kept.foldl min (kept.headD 0))

/-- The retained region as HOSTP_RET names it. -/
def regionAt (s : State) : Nat × Nat :=
  let lo := fget s pgHOSTP F.HOSTP_RET_BASE
  (lo, lo + fget s pgHOSTP F.HOSTP_RET_SIZE + 1)

/-- DDR5 training ends: the used channels are chosen and PKG_TIERF is written, or boot stops. Where the number of
channels is not that before the reset, the manual does not say where the region's lines are: its contents are
undefined, and the mask of channels that kept their data is a free value; a region outside the new size is
refused. -/
def ddrDone (s : State) (trained : List (Nat × Nat × Nat)) : State :=
  let u := usedChannels trained
  if u.1 = 0 then bootFail s 4
  else
    let size := 2 * u.1 * u.2
    let s := fput (fput (fput s pgPKG F.PKG_TIERF_SIZE_GIB size) pgPKG F.PKG_TIERF_CHANNELS (2 * u.1)) pgPKG F.PKG_TIERF_VALID 1
    let s := fput (fput s (pgHOSTD 0) F.HOSTD_STS_CH_USED u.1) (pgHOSTD 1) F.HOSTD_STS_CH_USED u.1
    let s := { s with host := { s.host with srExit := herdTime s } }
    if !s.host.keeps then s
    else if size < (regionAt s).2 then
      fput { s with host := { s.host with keeps := false, boots := 0 } } pgHOSTP F.HOSTP_RETSTS_REFUSED 1
    else if s.host.intact = 2 ^ (2 * u.1) - 1 then s
    else
      let g := drawFree s
      let s := makeUndef g.2 ((regionAt s).1 * 2 ^ 30) ((regionAt s).2 * 2 ^ 30)
      { s with host := { s.host with intact := freeWord g.1 % 2 ^ (2 * u.1) } }

def execDdr5TrainingDone (trained : List (Nat × Nat × Nat)) (s : State) : Out :=
  .next (if phase s = 3 ∧ !fbit s pgPKG F.PKG_TIERF_VALID ∧ trained.all (fun x => x.1 < 2 && x.2.1 < 4 && 0 < x.2.2) then
    ddrDone s trained
  else s)

/-- Every used channel kept its data, and the reset was one of the two kinds that say so (R319). -/
def retIntact (s : State) : Bool :=
  s.host.intact == 2 ^ fget s pgPKG F.PKG_TIERF_CHANNELS - 1 && (s.host.cause == 1 || s.host.cause == 2)

/-- Bytes 0x00 to 0x3B of the retention descriptor (R319). -/
def retBody (s : State) : List Byte :=
  let h := s.host
  leBytes 4 0x52544E44 ++ leBytes 4 1 ++ leBytes 4 h.boots ++ leBytes 4 h.cause ++
    leBytes 4 (h.intact % 256 + bitN (retIntact s) * 256) ++
    leBytes 4 (fget s pgHOSTP F.HOSTP_RET_BASE + fget s pgHOSTP F.HOSTP_RET_SIZE * 2 ^ 11) ++
    leBytes 8 h.srEntry ++ leBytes 8 h.srExit ++ leBytes 20 0

/-- The retention descriptor, its CRC last. -/
def retDescriptor (s : State) : List Byte := retBody s ++ leBytes 4 (crc32c (retBody s))

/-- Zeroing of tier F outside the retained region ends; the descriptor is written, and the part is ready (R318,
R568). -/
def zeroDone (s : State) : State :=
  let top := fget s pgPKG F.PKG_TIERF_SIZE_GIB * 2 ^ 30
  let s := if s.host.keeps then
      let r := regionAt s
      let s := zeroRange (zeroRange s 0 (r.1 * 2 ^ 30)) (r.2 * 2 ^ 30) top
      let ok := retIntact s
      let s := storeBytes s (r.1 * 2 ^ 30) (retDescriptor s) false
      let s := fputb (fput s pgHOSTP F.HOSTP_RETSTS_DESC_VALID 1) pgHOSTP F.HOSTP_RETSTS_INTACT ok
      let s := bump s pgHOSTP 2
      if ok then bump s pgHOSTP 3 else s
    else zeroRange s 0 top
  let s := fput s pgPKG F.PKG_BOOT_TIERF_READY 1
  if phase s = 3 then setPhase s 4 else s

def execTierFZeroDone (s : State) : Out :=
  .next (if fbit s pgPKG F.PKG_TIERF_VALID ∧ !fbit s pgPKG F.PKG_BOOT_TIERF_READY then zeroDone s else s)

/-- A port that firmware has enabled finishes training (R568). -/
def execNaregPortUp (port : Nat) (s : State) : Out :=
  .next (if port < 16 ∧ fbit s (pgNP port) F.NP_CFG_ENABLE ∧ !portUp s port ∧ !fbit s (pgNP port) F.NP_STS_DOWN then
    fput s (pgNP port) F.NP_STS_UP 1
  else s)

end Sys2Proof.Machine
end

