-- ==== Sys2Proof/Machine/HerdBase.lean ====
section
/-! DEFINITION. The Herd page's own registers (chapter 16): membership (R484), event entries (R501), barrier entries
(R503), messages to send and the inbox (R504, R505), staging of an epoch (R507), fencing (R510), the crook (R511 to
R513), and writes to the pod and system group pages (R49, R506). -/

namespace Sys2Proof.Machine

open Sys2Proof

def putHerd (s : State) (f : HerdSt → HerdSt) : State := { s with herd := f s.herd }

/-- Tick number of the present Herd time (R491). -/
def herdTick (s : State) : Nat := herdTime s / 256

/-- A ring port. -/
def getRingSt (s : State) (head : Bool) : RingSt := if head then s.herd.head else s.herd.herd

def putRingSt (s : State) (head : Bool) (r : RingSt) : State :=
  putHerd s fun h => if head then { h with head := r } else { h with herd := r }

def ringJoined (s : State) (head : Bool) : Bool :=
  fbit s pgHERD (if head then F.HEAD_CTL_JOIN else F.HERD_CTL_JOIN)

def ringRole (s : State) (head : Bool) : Nat := fget s pgHERD (if head then F.HEAD_CTL_ROLE else F.HERD_CTL_ROLE)

/-- The role in force (R486): ROLE, until a standby takes over or a conflict demotes a master. -/
def ringActing (s : State) (head : Bool) : Nat := (getRingSt s head).acting

/-- Set the role in force; HERD_STS.ACTING shows that of the Herd ring. -/
def setActing (s : State) (head : Bool) (a : Nat) : State :=
  let s := putRingSt s head { getRingSt s head with acting := a }
  if head then s else fput s pgHERD F.HERD_STS_ACTING a

/-- A write of ROLE (R486). -/
def roleWrite (s : State) (head : Bool) (role : Nat) : State :=
  setActing (fput s pgHERD (if head then F.HEAD_CTL_ROLE else F.HERD_CTL_ROLE) role) head role

def lockedField (head : Bool) : Field := if head then F.HEAD_STS_LOCKED else F.HERD_STS_LOCKED
def holdoverField (head : Bool) : Field := if head then F.HEAD_STS_HOLDOVER else F.HERD_STS_HOLDOVER

/-- The master, or a member whose input is not locked, begins the wait for a recount; a member sends HOLD (R497,
R498). -/
def inputLost (s : State) (head : Bool) : State :=
  let r := getRingSt s head
  let s := fput s pgHERD (lockedField head) 0
  if r.acting = 1 then
    let again := r.wait.isNone || 2 ≤ r.phase
    putRingSt s head { r with wait := if again then some (herdTick s) else r.wait, phase := if again then 0 else r.phase }
  else emit (putRingSt s head { r with mute := true }) (.ringHold head)

/-- A write of JOIN opens or closes the slot's bypass: a package that joins has no locked input yet (R484, R497). -/
def joinWrite (s : State) (head join : Bool) : State :=
  let was := ringJoined s head
  let s := fputb s pgHERD (if head then F.HEAD_CTL_JOIN else F.HERD_CTL_JOIN) join
  if join == was then s
  else
    let r := getRingSt s head
    let s := putRingSt s head
      { r with heard := herdTick s, good := herdTick s, wait := none, phase := 0, mute := false, carry := [],
               slots := List.replicate 4 {} }
    let s := fput (fput s pgHERD (lockedField head) 0) pgHERD F.HERD_STS_RECOUNTING 0
    if join then
      let r := getRingSt s head
      if r.acting = 1 then putRingSt s head { r with wait := some (herdTick s) } else putRingSt s head { r with mute := true }
    else s

def execHerdJoin (src : Src) (head join : Bool) (s : State) : Out := .next (withSys s src fun s => joinWrite s head join)

/-! ## The delay table (R499) -/

/-- Entry `k` of a delay table, LINK in bits [15:0] and BYP in [31:16]; the Reset values stand where nothing was
written. -/
def tblEntry (s : State) (head : Bool) (k : Nat) : Nat := mgetD s.herd.tbl (bitN head * 256 + k % 256) 0x00100020

def tblSel (s : State) : Bool × Nat := (fbit s pgHERD F.HERD_TBLSEL_TABLE, fget s pgHERD F.HERD_TBLSEL_ENTRY)

def tblWrite (s : State) (v : Nat) : State :=
  let e := tblSel s
  putHerd s fun h => { h with tbl := mput h.tbl (bitN e.1 * 256 + e.2) v }

/-! ## Event entries (R501) -/

def evtWord (s : State) (n w : Nat) : Nat := mgetD s.herd.evt (n * 8 + w) 0
def evtTick (s : State) (n : Nat) : Nat := evtWord s n 0 + evtWord s n 1 * 2 ^ 32
def evtArmed (s : State) (n : Nat) : Bool := (fget s pgHERD F.HERD_EVTVALID_ARMED).testBit n

/-- ACTION is reserved, or a reserved field is not zero. -/
def evtBad (s : State) (n : Nat) : Bool :=
  let ctrl := evtWord s n 2
  let act := bits ctrl 3 1
  let width := match act with | 1 => 30 | 2 => 15 | _ => 8
  act == 0 || 3 < act || bits ctrl 31 4 != 0 || 2 ^ width ≤ evtWord s n 3 || evtWord s n 6 != 0 || evtWord s n 7 != 0 ||
    (2 ≤ act && evtWord s n 5 != 0) || (act == 3 && evtWord s n 4 != 0)

/-- Arm an entry, or set EVT_ERR. -/
def evtArm (s : State) (n : Nat) : State :=
  if evtBad s n then fput s pgHERD F.HERD_STS_EVT_ERR 1 else forBits s pgHERD F.HERD_EVTVALID_ARMED (2 ^ n)

/-- A write of a word of an entry: discarded and counted while the entry is armed; a write of CTRL with ARM = 1 arms
it. -/
def evtWrite (s : State) (n w v : Nat) : State :=
  if evtArmed s n then bump s pgHERD 14
  else
    let s := putHerd s fun h => { h with evt := mput h.evt (n * 8 + w) v }
    if w = 2 ∧ v.testBit 0 then evtArm s n else s

/-- Disarm entries. -/
def evtDisarm (s : State) (bits : Nat) : State :=
  let a := fget s pgHERD F.HERD_EVTVALID_ARMED
  fput s pgHERD F.HERD_EVTVALID_ARMED (a - (a &&& bits))

def execEventDisarm (src : Src) (bits : BitVec 32) (s : State) : Out :=
  .next (withSys s src fun s => evtDisarm s bits.toNat)

/-- The lowest free entry. -/
def evtFree (s : State) : Option Nat := (List.range 32).find? fun n => !evtArmed s n

/-- Put the 32 bytes of an entry into a free one and arm it: none when the table is full, and otherwise whether it
was armed. -/
def evtPlace (s : State) (e : List Byte) : Option (Bool × State) :=
  (evtFree s).map fun n =>
    let s := putHerd s fun h => { h with
      evt := (List.range 8).foldl (fun m w => mput m (n * 8 + w) (leNat ((e.drop (4 * w)).take 4))) h.evt }
    (!evtBad s n, evtArm s n)

/-! ## Barrier entries (R503) -/

def execBarrierArrive (src : Src) (bar : Nat) (s : State) : Out :=
  .next (if bar < 16 then
    let a := authOf s src
    let mine := match a with
      | .sys => true
      | .fold f => ctxFold s (fgeti s pgHERD F.HERD_BAR_CTX bar) == some f
      | .none => false
    if mine then guarded s src fun s => fputi s pgHERD F.HERD_BAR_ARRIVE bar 1 else denyWrite s a
  else s)

/-! ## Messages (R504, R505) -/

/-- The bytes of a MSG field: TYPE, STATE, SRC, DST, SEQ, LEN and the payload, 220 in all. -/
def msgBytes (typ st src dst seq : Nat) (payload : List Byte) : List Byte :=
  slice (leBytes 1 typ ++ leBytes 1 st ++ leBytes 2 src ++ leBytes 2 dst ++ leBytes 1 seq ++
    leBytes 1 (payload.length - 1) ++ payload) 0 220

def msgType (m : List Byte) : Nat := leNat (slice m 0 1)
def msgState (m : List Byte) : Nat := leNat (slice m 1 1)
def msgSrc (m : List Byte) : Nat := leNat (slice m 2 2)
def msgDst (m : List Byte) : Nat := leNat (slice m 4 2)
def msgSeq (m : List Byte) : Nat := leNat (slice m 6 1)
def msgLen (m : List Byte) : Nat := leNat (slice m 7 1) + 1
def msgPayload (m : List Byte) : List Byte := slice m 8 (min (msgLen m) 212)

/-- A message with another STATE. -/
def msgWithState (m : List Byte) (st : Nat) : List Byte := slice m 0 1 ++ leBytes 1 st ++ slice m 2 218

/-- Queue a message for a ring. -/
def msgQueue (s : State) (head soft : Bool) (m : List Byte) : State :=
  putHerd s fun h => { h with send := h.send ++ [{ bytes := m, head := head, soft := soft }] }

/-- The outbox as the bytes of a message; the part stamps SRC and STATE. -/
def outboxMsg (s : State) : List Byte :=
  let m := (List.range 55).flatMap fun w => leBytes 4 (mgetD s.herd.outbox w 0)
  slice m 0 1 ++ leBytes 1 1 ++ leBytes 2 (selfPkg s) ++ slice m 4 216

/-- A write of SEND: the outbox waits for an empty MSG field, unless its last message has not come back yet. -/
def msgSend (s : State) : State :=
  let m := outboxMsg s
  if (s.herd.send.any fun x => x.soft) || msgType m = 0 then s
  else fput (msgQueue s (fbit s pgHERD F.HERD_MSGCTL_RING) true m) pgHERD F.HERD_MSGCTL_OUT_STS 1

def execMsgSend (src : Src) (s : State) : Out := .next (withSys s src msgSend)

def inboxPop (s : State) : State := putHerd s fun h => { h with inbox := h.inbox.drop 1 }

def execMsgInPop (src : Src) (s : State) : Out := .next (withSys s src inboxPop)

/-- A message enters the inbox, or is refused when its sixteen entries are taken. -/
def inboxPut (s : State) (m : List Byte) : Option State :=
  if s.herd.inbox.length < 16 then some (putHerd s fun h => { h with inbox := h.inbox ++ [m] }) else none

/-! ## Epochs (R507) -/

def epochTick (s : State) : Nat :=
  fget s pgHERD F.HERD_EPOCH_TICK_LO_TICK_LO + fget s pgHERD F.HERD_EPOCH_TICK_HI_TICK_HI * 2 ^ 32

def epochExpect (s : State) : Nat := fpair s pgHERD F.HERD_EXPECT_LO_EXPECT_LO F.HERD_EXPECT_HI_EXPECT_HI 0

def epochPending (s : State) : Bool := s.herd.stage.isSome

/-- Stage the switch that HERD_EPOCH_NEXT, HERD_EPOCH_TICK and HERD_EXPECT name, unless one is pending. -/
def epochStage (s : State) : State :=
  if epochPending s then s
  else
    let s := putHerd s fun h => { h with stage := some (fget s pgHERD F.HERD_EPOCH_NEXT_NEXT, epochTick s, epochExpect s) }
    fput (fput s pgHERD F.HERD_STS_EPOCH_PEND 1) pgHERD F.HERD_EPOCH_TICK_HI_PEND 1

def execEpochStage (src : Src) (s : State) : Out := .next (withSys s src epochStage)

/-! ## Fencing (R510) -/

/-- Fence folds and the package, with a cause where anything is fenced that was not. -/
def fenceSet (s : State) (folds : Nat) (pkg : Bool) (cause : Nat) : State :=
  let f := fget s pgHERD F.HERD_FENCE_FOLDS
  let p := fbit s pgHERD F.HERD_FENCE_PKG
  let new := folds - (folds &&& f) != 0 || (pkg && !p)
  let s := fputb (fput s pgHERD F.HERD_FENCE_FOLDS (f ||| folds)) pgHERD F.HERD_FENCE_PKG (p || pkg)
  if new then fput s pgHERD F.HERD_FENCE_CAUSE cause else s

/-- Unfence folds and the package. -/
def fenceClear (s : State) (folds : Nat) (pkg : Bool) : State :=
  let f := fget s pgHERD F.HERD_FENCE_FOLDS
  let s := fput s pgHERD F.HERD_FENCE_FOLDS (f - (f &&& folds))
  if pkg then fput s pgHERD F.HERD_FENCE_PKG 0 else s

/-- A write of HERD_FENCE: a 1 fences and a 0 clears (R515). -/
def fenceWrite (s : State) (folds : Nat) (pkg : Bool) : State :=
  fenceSet (fenceClear s (0xFFFF - folds % 2 ^ 16) (!pkg)) (folds % 2 ^ 16) pkg 3

def execHerdFenceWrite (src : Src) (folds : BitVec 16) (pkg : Bool) (s : State) : Out :=
  .next (withSys s src fun s => fenceWrite s folds.toNat pkg)

/-! ## The crook (R511 to R513) -/

/-- LEASE_LEFT at the start of a lease: LEASE_MS, at least 1, saturating. -/
def leaseStart (s : State) : State :=
  fput s pgHERD F.CROOK_STS_LEASE_LEFT (min (max (fget s pgHERD F.CROOK_CTL_LEASE_MS) 1) 0x3FFF)

/-- A controller's CROOK_CAS: taken only while nobody owns it, released by its owner, and otherwise failed. -/
def crookCas (s : State) (pmc expect new : Nat) : State :=
  let me := pmc + 1
  let won (s : State) : State := putHerd s fun h => { h with cas := mput h.cas pmc () }
  if expect = 0 ∧ new = me ∧ crookOwner s = 0 then
    let s := fput s pgHERD F.CROOK_STS_OWNER me
    bump (won (leaseStart (fput s pgHERD F.CROOK_STS_GEN (fget s pgHERD F.CROOK_STS_GEN + 1)))) pgHERD 13
  else if expect = me ∧ new = 0 ∧ crookOwner s = me then
    won (fput (fput s pgHERD F.CROOK_STS_OWNER 0) pgHERD F.CROOK_STS_LEASE_LEFT 0)
  else putHerd s fun h => { h with cas := mdel h.cas pmc }

def execCrookCas (pmc expect new : Nat) (s : State) : Out := .next (if pmc < 2 then crookCas s pmc expect new else s)

/-- RENEW restarts the owner's lease; another's fails and is counted. -/
def crookRenew (s : State) (pmc : Nat) : State :=
  if crookOwner s = pmc + 1 then leaseStart s else bump s pgHERD 14

def execRenew (pmc : Nat) (s : State) : Out := .next (if pmc < 2 then crookRenew s pmc else s)

/-- The lease expires. -/
def execLeaseExpire (s : State) : Out :=
  .next (if crookOwner s = 0 then s
  else fput (fput s pgHERD F.CROOK_STS_OWNER 0) pgHERD F.CROOK_STS_LEASE_LEFT 0)

/-! ## Pod and system group pages (R49, R506) -/

/-- An event entry that writes a word of the package page at a tick. -/
def podEntry (tick off v : Nat) : List Byte :=
  leBytes 8 tick ++ leBytes 4 (1 + 1 * 2) ++ leBytes 4 (pgPKG + off / 4 * 2 ^ 20) ++ leBytes 4 v ++ leBytes 4 (2 ^ 32 - 1) ++
    leBytes 8 0

/-- A write to the pod or system page: REG_WRITE to every member, and an entry of the package's own, all for one
tick. -/
def podWrite (s : State) (system : Bool) (off v tick : Nat) : State :=
  let e := podEntry tick off v
  let s := msgQueue s false false (msgBytes 0x01 0x01 (selfPkg s) (if system then 0xFFFF else 0xFFFE) 0 e)
  match evtPlace s e with
  | some x => x.2
  | none => s

end Sys2Proof.Machine
end

