-- ==== Sys2Proof/Machine/Regs.lean ====
section
/-! DEFINITION. The register file (chapter 17): who may write which field (R240, R294), what each access type does
(R526), locks (R530), the fields whose chapter gives a write or a read an effect, counters and latches (R532 to
R535), pairs (R536), group pages (R45 to R47, R523 to R525), and narrow, unaligned and absent accesses (R520, R527).
A write never does tick-edge work itself: Machine/Herd.lean settles what it made due. -/

namespace Sys2Proof.Machine

open Sys2Proof

/-! ## Writers -/

/-- What an access carries: its authority (R238), whether it comes from a management controller or monitor level
(R294), a controller's secure mode (R179), and which controller it is. -/
structure Writer where
  auth : Auth
  mon : Bool := false
  secure : Bool := false
  pmc : Option Nat := none
  deriving DecidableEq, Repr

def writerOf (s : State) (src : Src) : Writer :=
  match src with
  | .pmc i secure => { auth := .sys, mon := true, secure := secure, pmc := some i }
  | .core _ _ priv => { auth := authOf s src, mon := priv == .monitor }
  | _ => { auth := authOf s src }

/-- SYSTEM authority with no requester: event entries and held writes (R501, R507). -/
def sysWriter : Writer := { auth := .sys }

/-! ## Fields of a word -/

/-- Copy `i` of a field lies at this offset. -/
def copyAt (f : Field) (off : Nat) : Option Nat :=
  if off < f.off then none
  else
    let i := if f.stride = 0 then 0 else (off - f.off) / f.stride
    if i < f.cnt && f.off + i * f.stride == off then some i else none

/-- The fields of a word of a leaf page, with the copy each is. -/
def wordFields (blk off : Nat) : List (Field × Nat) :=
  (((if off < 0xC0 then blockFields 0xFF else blockFields blk).filter fun f => !f.native)).filterMap fun f =>
    (copyAt f off).map fun i => (f, i)

/-- The native registers of R525: MXA's on a C-die group page, DRV's on the package group page and PREP's on a pen
group page. -/
def nativeHere (page : Nat) : Bool :=
  match blkOf page, groupOf page with
  | 0x20, some (.die _) => true
  | 0x14, some .package => true
  | 0x21, some (.pen _ _) => true
  | _, _ => false

/-- The native fields of a word of a group page. -/
def nativeFields (page off : Nat) : List (Field × Nat) :=
  if nativeHere page then
    ((blockFields (blkOf page)).filter (·.native)).filterMap fun f => (copyAt f off).map fun i => (f, i)
  else []

/-- Fields that keep what is written (R526). -/
def keepsValue (f : Field) : Bool := f.acc == .rw || f.acc == .rwl || f.acc == .rws

/-- The bits of a word that a field holds. -/
def fieldBits (f : Field) : Nat := (2 ^ fieldWidth f - 1) * 2 ^ f.lo

/-- A page's lock (R530); that of the memory-map page is MEMMAP_CTL.LOCK too. -/
def pageLocked (s : State) (page : Nat) : Bool :=
  fbit s page F.CTL_LOCK || (page == pgMEMMAP && fbit s pgMEMMAP F.MEMMAP_CTL_LOCK)

/-! ## Authority over parts of a page -/

/-- The fold-owned entries of pages that belong to no fold: which fold may write this word (R240, R257, R322, R345,
R377, R463, R515). -/
def entryOwned (s : State) (g page off : Nat) : Bool :=
  match blkOf page with
  | 0x04 =>
    if 0x100 ≤ off && off < 0x300 then (foldWindows s g).testBit ((off - 0x100) / 8)
    else 0x300 ≤ off && off < 0xB00 && fgeti s pgWIN F.WIN_IN_TGT_FOLD ((off - 0x300) / 16) == g
  | 0x31 =>
    if 0x408 ≤ off && off < 0x600 then fgeti s page F.HOSTL_VF_FOLD ((off - 0x400) / 8) == g
    else 0x800 ≤ off && off < 0x900 && fgeti s page F.HOSTL_PEER_FOLD ((off - 0x800) / 16) == g
  | 0x32 =>
    if 0x200 ≤ off && off < 0x600 then
      (off - 0x200) / F.RBASE_LO_BASE_LO.stride == g
    else if 0x600 ≤ off && off < 0xA00 then fgeti s page F.SRC_CFG_FOLD ((off - 0x600) / F.SRC_CFG_FOLD.stride) == g
    else 0xA00 ≤ off && off < 0xB00 && fgeti s page F.GRP_CFG_FOLD ((off - 0xA00) / F.GRP_CFG_FOLD.stride) == g
  | 0x03 => 0x200 ≤ off && off < 0x600 && fgeti s pgFAB F.FAB_TEAM_FOLD ((off - 0x200) / 16) == g
  | 0x06 => off == 0x108
  | 0x07 => 0x300 ≤ off && off < 0x380 && ctxFold s (fgeti s pgHERD F.HERD_BAR_CTX ((off - 0x300) / 8)) == some g
  | _ => false

/-- Authority to reach a word. -/
def wordAllowed (s : State) (w : Writer) (page off : Nat) : Bool :=
  match w.auth with
  | .sys => true
  | .fold g => foldHasPage s g page || entryOwned s g page off
  | .none => false

/-- A discarded write: on the window page for an import entry (R257), on the fold page otherwise (R240). -/
def denyWord (s : State) (w : Writer) (page off : Nat) : State :=
  match w.auth with
  | .fold _ => if page = pgWIN ∧ 0x300 ≤ off then bump s pgWIN 3 else denyWrite s w.auth
  | _ => s

/-- Fields that a fold cannot write in what is otherwise its own: those marked SYSTEM only, and on its fold page all
but the interrupt registers of the header (R263). -/
def sysField (page : Nat) (f : Field) : Bool :=
  f.sysOnly || (blkOf page == 0x41 && f.off < 0x100 && f.off != 0x20 && f.off != 0x24)

/-- The FOLD field of an entry is read-only under a fold's authority (R322, R351, R377). -/
def entryFoldField (f : Field) : Bool :=
  f == F.HOSTL_VF_FOLD || f == F.HOSTL_PEER_FOLD || f == F.SRC_CFG_FOLD || f == F.GRP_CFG_FOLD || f == F.FAB_TEAM_FOLD

/-- What a field's own chapter asks before it takes a write: without it the write of that field is ignored. -/
def fieldOpen (s : State) (w : Writer) (page : Nat) (f : Field) (broadcast : Bool) : Bool :=
  if f == F.CTL_LOCK then w.auth == .sys || broadcast
  else if f == F.CTX_CFG_FOLD || f == F.CTX_CFG_FOLD_VALID then !fbit s page F.CTX_CFG_ENABLE
  else if f == F.FOLD_DIES_DIES then !fbit s page F.FOLD_CTL_ENABLE
  else if f == F.MEMMAP_CTL_KEY_FIXED then s.fuse.lcs == 0
  else if f == F.HOSTD_AUTH_SYS || f == F.HOSTD_AUTH_FOLD || f == F.HOSTD_AUTH_FOLD_VALID then w.mon
  else if f == F.HOSTL_CFG_CXL_EN then slotOf page % 2 == 0
  else if f == F.FLT_CTL_PKG_RESET then w.pmc.isSome
  else if f == F.PKG_LCS_REQ_TARGET || f == F.PKG_LCS_REQ_GO || f == F.PKG_LCS_REQ_SVN_BUMP then w.pmc.isSome && w.secure
  else if f == F.HERD_TIME_LO_TIME_LO || f == F.HERD_TIME_HI_TIME_HI then ringRole s false == 1 && !ringJoined s false
  else if f == F.CROOK_CTL_LEASE_MS then (w.pmc.map (· + 1)) == some (crookOwner s) 
  else if entryFoldField f then w.auth == .sys
  else true

/-- The covered fields of R507. -/
def coveredField (f : Field) : Bool :=
  f == F.FAB_SHAPE_EXTENT || f == F.FAB_SHAPE_WRAP || f == F.FAB_SHAPE_CLASS || f == F.FAB_ROUTE_DETOUR_EN ||
    f == F.FAB_ROUTE_SPREAD_EN || f == F.FAB_XPORT_XTMO || f == F.FAB_XPORT_XRETRY || f == F.FAB_CTMO_COLL_TMO ||
    f == F.FAB_CTMO_GRACE_MAX || f == F.FAB_LAG_EN || f == F.FAB_TEAM_ENABLE || f == F.FAB_TEAM_FOLD ||
    f == F.FAB_TEAM_TEAM_ID || f == F.FAB_TEAM_ORIGIN || f == F.FAB_TEAM_EXTENT || f == F.FAB_TEAM_CSEQ ||
    f == F.FAB_TEAM_PEER_FOLDS || f == F.HERD_CFGW_WORD

/-! ## What fields hold -/

/-- Select registers: a word of an event entry, of the outbox, or of the delay table. -/
def evtSel (s : State) : Nat × Nat := (fget s pgHERD F.HERD_EVTSEL_ENTRY, fget s pgHERD F.HERD_EVTSEL_WORD)

def msgSelWord (s : State) : Nat :=
  let w := fget s pgHERD F.HERD_MSGSEL_WORD
  if 54 < w then 0
  else if fbit s pgHERD F.HERD_MSGSEL_BOX then mgetD s.herd.outbox w 0
  else leNat (slice ((s.herd.inbox[fget s pgHERD F.HERD_MSGSEL_ENTRY]?).getD []) (4 * w) 4)

/-- The present value of a field that keeps what is written. -/
def heldField (s : State) (page : Nat) (f : Field) (i : Nat) : Nat :=
  if f == F.HERD_EVTDATA_DATA then evtWord s (evtSel s).1 (evtSel s).2
  else if f == F.HERD_MSGDATA_DATA then msgSelWord s
  else if f == F.HERD_TBLDATA_LINK then tblEntry s (tblSel s).1 (tblSel s).2 % 2 ^ 16
  else if f == F.HERD_TBLDATA_BYP then tblEntry s (tblSel s).1 (tblSel s).2 / 2 ^ 16
  else fgeti s page f i

/-- The word presented to the fields that hold a bit of `em`: masked bits as written, the others as held where a field
keeps its value, and 0 elsewhere (R583). -/
def presentedWord (s : State) (page off v em : Nat) : Nat :=
  (wordFields (blkOf page) off).foldl (fun x (fi : Field × Nat) =>
    let f := fi.1
    let m := bits em f.hi f.lo
    let held := if keepsValue f then heldField s page f fi.2 else 0
    x + ((bits v f.hi f.lo &&& m) ||| (held - (held &&& m))) * 2 ^ f.lo) 0

/-! ## Writes -/

/-- A field takes its part of a word by its access type alone. -/
def plainField (s : State) (page x : Nat) (fi : Field × Nat) : State :=
  let f := fi.1
  let v := bits x f.hi f.lo
  let old := fgeti s page f fi.2
  match f.acc with
  | .ro => s
  | .wo => s
  | .w1c => fputi s page f fi.2 (old - (old &&& v))
  | .w1s => fputi s page f fi.2 (old ||| v)
  | _ => fputi s page f fi.2 v

/-- The fields of a word that hold a bit of `em` take theirs. -/
def plainWord (s : State) (page off x em : Nat) : State :=
  (wordFields (blkOf page) off).foldl (fun s fi => if bits em fi.1.hi fi.1.lo = 0 then s else plainField s page x fi) s

/-- The bits of one field are in the mask. -/
def hits (f : Field) (em : Nat) : Bool := bits em f.hi f.lo != 0

/-- A part of the mask without one field's bits. -/
def without (em : Nat) (f : Field) : Nat := em - (em &&& fieldBits f)

/-- CNT_CLEAR (R535). -/
def cntClear (s : State) (page : Nat) : State :=
  let k := page * 16
  fput { s with cnt := mkeep s.cnt fun j => j < k || k + 16 ≤ j } page F.CNT_OVF_OVF 0

/-- A counter is latched (R533). -/
def latchCnt (s : State) (page n v : Nat) : State :=
  { s with latch := mput s.latch (page * 16 + n) (BitVec.ofNat 64 v) }

/-- TAKE: all sixteen counters at once, and HELD. -/
def snapTake (s : State) (page : Nat) : State :=
  fput ((List.range 16).foldl (fun s n => latchCnt s page n (counter s page n)) s) page F.CNT_SNAP_HELD 1

/-- A write of CTL on a leaf page. -/
def ctlWrite (s : State) (page x em : Nat) : State :=
  let s := if hits F.CTL_CNT_FREEZE em then fput s page F.CTL_CNT_FREEZE (x % 2) else s
  let s := if x.testBit 1 then cntClear s page else s
  if x.testBit 31 then (if page = pgMEMMAP then mapLock s else fput s page F.CTL_LOCK 1) else s

/-- A write of IRQEN: the line may rise. -/
def irqenWrite (s : State) (page x em : Nat) : State :=
  let q := ((List.range 8).find? fun i => (fget s page F.IRQSTS_QUEUE).testBit i && x.testBit (8 + i)).getD 0
  withIrq s page q fun s => plainWord s page 0x20 x em

/-- The header of a leaf page (R521). -/
def headerWrite (s : State) (page off x em : Nat) : State :=
  if off = 0x10 then ctlWrite s page x em
  else if off = 0x20 then irqenWrite s page x em
  else if off = 0x2C then
    let s := if x.testBit 0 then snapTake s page else s
    if x.testBit 2 then fput s page F.CNT_SNAP_HELD 0 else s
  else plainWord s page off x em

/-- Context pages (R145, R262, R426). -/
def ctxWrite (s : State) (page off x em : Nat) : State :=
  let c := slotOf page
  let q := (off - 0x100) / 0x20
  let t := (off - 0x200) / 0x10
  if 0x100 ≤ off ∧ off < 0x200 ∧ off % 0x20 = 0x0C then doorbell s c q (bits x 15 0)
  else if 0x100 ≤ off ∧ off < 0x200 ∧ off % 0x20 = 0x10 then
    let s := plainWord s page off x (without em F.QSTS_CPL_ERR)
    if x.testBit 19 then cplRetry s c q else s
  else if 0x200 ≤ off ∧ off < 0x600 ∧ off % 0x10 = 8 then tallyAdd s c t x
  else if 0x200 ≤ off ∧ off < 0x600 ∧ off % 0x10 = 0xC then
    if x.testBit 8 then putTally s c t { getTally s c t with ovf := false } else s
  else if off = 0x600 then
    let s := plainWord s page off x (without em F.CTX_CFG_ENABLE)
    let s := if hits F.CTX_CFG_FOLD em then clearAccounts s c else s
    if !hits F.CTX_CFG_ENABLE em ∨ x.testBit 0 = fbit s page F.CTX_CFG_ENABLE then s
    else if x.testBit 0 then contextEnable s c
    else fput s page F.CTX_CFG_ENABLE 0
  else if off = 0x614 then (if x.testBit 0 then segInvalidate s c else s)
  else if off = 0x640 then seedWrite s c false x
  else if off = 0x644 then seedWrite s c true x
  else plainWord s page off x em

/-- Fold pages (R263). A die that is offline joins no fold: its bit is discarded and counted (R462). -/
def foldPageWrite (s : State) (page off x em : Nat) : State :=
  let f := slotOf page
  if off = 0x100 then
    if x.testBit 0 = foldEnabled s f then s
    else if x.testBit 0 then foldEnable s f
    else foldDisable s f
  else if off = 0x108 then
    let dead := x &&& fget s pgFLT F.FLT_OFFLINE_DIES
    let s := if dead = 0 then s else bump s pgFLT 12
    plainWord s page off (x - dead) em
  else if off = 0x118 then fqBaseWrite s f false x
  else if off = 0x11C then fqBaseWrite s f true x
  else if off = 0x128 then faultReply s f (bits x 4 0) (bits x 15 8) (x.testBit 16)
  else plainWord s page off x em

/-- Memory-map page (R188, R206): a channel that the part mapped out ignores a 0. -/
def memmapWrite (s : State) (page off x em : Nat) : State :=
  if off = 0x100 then
    let s := plainWord s page off x (without em F.MEMMAP_CTL_LOCK)
    if x.testBit 0 then mapLock s else s
  else if 0x140 ≤ off ∧ off < 0x160 then zsaltWrite s ((off - 0x140) / 4) x
  else if 0x180 ≤ off ∧ off < 0x1E0 then
    let m := (off - 0x180) / 4
    let outs := ((s.memc.outs.filter fun c => c / 32 == m).map fun c => 2 ^ (c % 32)).foldl (· ||| ·) 0
    plainWord s page off (x ||| outs) em
  else plainWord s page off x em

/-- KEYDATA takes a write in the manufacture state with KEY_FIXED, before LOCK (R188, R206). -/
def keyWrite (s : State) (v : Nat) : State :=
  let k := fget s pgMEMMAP F.MEMMAP_KEYSEL_SET
  let i := fget s pgMEMMAP F.MEMMAP_KEYSEL_INDEX
  if fbit s pgMEMMAP F.MEMMAP_CTL_KEY_FIXED && !pageLocked s pgMEMMAP && i < 22 then
    putMemc s fun m => { m with keys := mput m.keys (k * 22 + i) (v % 1024) }
  else s

/-- Host links (R307 to R309, R322): an HDM range outside tier N is reported. -/
def hostlWrite (s : State) (page off x em : Nat) : State :=
  let l := slotOf page
  if 0x400 ≤ off ∧ off < 0x600 ∧ off % 8 = 0 then (if off = 0x400 then s else vfWrite s l ((off - 0x400) / 8) x true)
  else if 0x800 ≤ off ∧ off < 0x900 ∧ off % 16 = 0 then peerEntryWrite s l ((off - 0x800) / 16) x true
  else
    let s := plainWord s page off x em
    if 0x800 ≤ off ∧ off < 0x900 then peerRecheck s l ((off - 0x800) / 16)
    else if (off = 0x100 ∨ off = 0x108 ∨ off = 0x10C) ∧ fbit s page F.HOSTL_CFG_CXL_EN ∧
        fget s page F.HOSTL_HDM_SIZE_SIZE ≠ 0 ∧ !hdmInside s l then hostlRefuse s l 3
    else s

/-- Input pages (R344, R346, R350, R351). -/
def inpWrite (s : State) (page off x em : Nat) : State :=
  let h := slotOf page
  if off = 0x114 then ptpStep s h x
  else match copyAt F.RDB_TAIL off, copyAt F.SRC_CFG_ENABLE off, copyAt F.GRP_CFG_ENABLE off with
    | some r, _, _ => ringDoorbell s h r (bits x 15 0)
    | _, some i, _ => sourceWrite s h i x true
    | _, _, some g => groupWrite s h g x true
    | _, _, _ => plainWord s page off x em

/-- The fabric page (R364, R377, R394). -/
def fabWrite (s : State) (page off x em : Nat) : State :=
  if off = 0x10C then pairRetire s (bits x 7 0)
  else if 0x200 ≤ off ∧ off < 0x600 ∧ off % 16 = 0 then teamWrite s ((off - 0x200) / 16) x true
  else plainWord s page off x em

/-- Eight margins of one word (R453). -/
def marginsWrite (s : State) (d base x : Nat) : State :=
  (List.range 8).foldl (fun s k => marginWrite s d (base + k) (bits x (4 * k + 3) (4 * k))) s

/-- Power pages of a C-die (R447, R449, R453). -/
def pwrDieWrite (s : State) (page off x em : Nat) : State :=
  let d := slotOf page
  if off = 0x100 then
    let s := plainWord s page off x (without em F.PWR_DIE_CTL_CAL)
    let s := if !hits F.PWR_DIE_CTL_CAL em ∨ x.testBit 12 = fbit s page F.PWR_DIE_CTL_CAL then s
      else if (dieFold s d).isNone then fputb s page F.PWR_DIE_CTL_CAL (x.testBit 12)
      else bump s page 8
    opSettle s d
  else if off = 0x108 then marginsWrite s d 0 x
  else if off = 0x10C then marginsWrite s d 8 x
  else if off = 0x110 then opRetire s d x
  else plainWord s page off x em

/-- A write of FLT_FOLDRST: a fold's own bit alone under its authority (R463). -/
def foldrstWrite (s : State) (w : Writer) (x : Nat) : State :=
  let mine := match w.auth with
    | .sys => setBitsOf 16 x
    | .fold g => if x.testBit g then [g] else []
    | .none => []
  mine.foldl (fun s f => resetStart s f 1 0 0) s

/-- The fault page (R462, R463, R475, R483). -/
def fltWrite (s : State) (w : Writer) (page off x em : Nat) : State :=
  if off = 0x100 then
    let s := plainWord s page off x (without em F.FLT_CTL_PKG_RESET)
    if x.testBit 11 then packageReset s 2 else s
  else if off = 0x108 then foldrstWrite s w x
  else if off = 0x110 then offlineWrite s x
  else plainWord s page off x em

/-- Roles and membership of a ring (R484, R486). -/
def ringCtlWrite (s : State) (head : Bool) (off x em : Nat) : State :=
  let role := if head then F.HEAD_CTL_ROLE else F.HERD_CTL_ROLE
  let join := if head then F.HEAD_CTL_JOIN else F.HERD_CTL_JOIN
  let s := plainWord s pgHERD off x (without (without em role) join)
  let s := if hits role em ∧ bits x 1 0 ≠ ringRole s head then roleWrite s head (bits x 1 0) else s
  if hits join em then joinWrite s head (x.testBit 2) else s

/-- The Herd page (R515). -/
def herdWrite (s : State) (w : Writer) (page off x em : Nat) : State :=
  if off = 0x100 then ringCtlWrite s false off x em
  else if off = 0x104 then ringCtlWrite s true off x em
  else if off = 0x128 then tblWrite s x
  else if off = 0x138 then
    let s := plainWord s page off x (without em F.HERD_EPOCH_TICK_HI_PEND)
    if x.testBit 31 then epochStage s else s
  else if off = 0x14C then fenceWrite s (bits x 15 0) (x.testBit 16)
  else if off = 0x194 then evtWrite s (evtSel s).1 (evtSel s).2 x
  else if off = 0x198 then evtDisarm s x
  else if off = 0x204 then
    match w.pmc with
    | some i => crookCas s i (bits x 1 0) (bits x 3 2)
    | none => s
  else if off = 0x208 then
    let s := plainWord s page off x (without em F.CROOK_CTL_RENEW)
    match w.pmc with
    | some i => if x.testBit 0 then crookRenew s i else s
    | none => if x.testBit 0 then bump s pgHERD 14 else s
  else if off = 0x224 then
    let i := fget s pgHERD F.HERD_MSGSEL_WORD
    if fbit s pgHERD F.HERD_MSGSEL_BOX ∧ i ≤ 54 then putHerd s fun h => { h with outbox := mput h.outbox i x } else s
  else if off = 0x228 then
    let s := plainWord s page off x (without (without em F.HERD_MSGCTL_SEND) F.HERD_MSGCTL_IN_POP)
    let s := if x.testBit 0 then msgSend s else s
    if x.testBit 9 then inboxPop s else s
  else plainWord s page off x em

/-- A word of a leaf page takes `x` in the fields that hold a bit of `em`, each with the effect its chapter gives it. -/
def blockWrite (s : State) (w : Writer) (page off x em : Nat) : State :=
  if off < 0x100 then headerWrite s page off x em
  else match blkOf page with
    | 0x40 => ctxWrite s page off x em
    | 0x41 => foldPageWrite s page off x em
    | 0x02 => memmapWrite s page off x em
    | 0x31 => hostlWrite s page off x em
    | 0x32 => inpWrite s page off x em
    | 0x03 => fabWrite s page off x em
    | 0x25 => pwrDieWrite s page off x em
    | 0x06 => fltWrite s w page off x em
    | 0x07 => herdWrite s w page off x em
    | 0x12 =>
      if off = 0x108 then agentRejoin s (slotOf page) x
      else
        let s := plainWord s page off x (without em F.COH_CFG_LOCK_WAYS)
        if off = 0x100 ∧ hits F.COH_CFG_LOCK_WAYS em then
          lockWays s (slotOf page) (bits x F.COH_CFG_LOCK_WAYS.hi F.COH_CFG_LOCK_WAYS.lo)
        else s
    | 0x30 =>
      if off = 0x108 then (if x.testBit 0 then inpHostReset (hostReset s (slotOf page)) (slotOf page) else s)
      else plainWord s page off x em
    | 0x08 => if off = 0x100 then biasFlip s x else plainWord s page off x em
    | 0x05 => if off = 0x108 then capNextWrite s (bits x 11 0) else plainWord s page off x em
    | 0x00 =>
      if off = 0x10C then
        let s := if x.testBit 3 then lcsStage s (bits x 2 0) else s
        if x.testBit 4 then fput s pgPKG F.PKG_LCS_SVN_PEND 1 else s
      else plainWord s page off x em
    | _ => plainWord s page off x em

/-- The _LO words of writable pairs (R536). -/
def pairLo (page off : Nat) : Bool :=
  match blkOf page with
  | 0x05 => off == 0x10C
  | 0x07 => off == 0x118 || off == 0x134 || off == 0x13C
  | 0x32 => (copyAt F.GRP_START_LO_START_LO off).isSome
  | _ => false

/-- A word of a leaf page is written through its pair (R536): a _LO word is held, and a _HI word takes the held one
with it. -/
def pairWrite (s : State) (w : Writer) (page off x em : Nat) : State :=
  if 0x100 ≤ off ∧ pairLo page off then
    { s with pairHeld := mput s.pairHeld (page * 1024 + off / 4) (BitVec.ofNat 32 x) }
  else if 0x104 ≤ off ∧ pairLo page (off - 4) then
    let k := page * 1024 + (off - 4) / 4
    match mget s.pairHeld k with
    | some lo => blockWrite (blockWrite { s with pairHeld := mdel s.pairHeld k } w page (off - 4) lo.toNat (2 ^ 32 - 1)) w page off x em
    | none => blockWrite s w page off x em
  else blockWrite s w page off x em

/-- A masked write of a word of a leaf page within its writer's authority. What a fold may not write is discarded
and counted; covered fields are held while an epoch switch is pending (R507); a locked page keeps its RWL fields and
reports the write (R530). -/
def leafWrite (s : State) (w : Writer) (page off v mask : Nat) (broadcast : Bool) : State :=
  let fs := ((wordFields (blkOf page) off).map (·.1)).filter fun f => hits f mask
  let sum (l : List Field) : Nat := (l.map fun f => fieldBits f &&& mask).foldl (· + ·) 0
  let live := fs.filter fun f => f.acc != .ro && !f.hwRec
  let barred := live.filter fun f => w.auth != .sys && sysField page f
  let s := if barred.isEmpty then s else denyWord s w page off
  let live := live.filter fun f => !(w.auth != .sys && sysField page f) && fieldOpen s w page f broadcast
  let held := if epochPending s then live.filter coveredField else []
  let s := if held.isEmpty then s else holdCovered s page off v (sum held)
  let live := live.filter fun f => held.isEmpty || !coveredField f
  let locked := if pageLocked s page then live.filter fun f => f.acc == .rwl else []
  let s := if locked.isEmpty then s else setErr (bump s pgPKG 1) page 0
  let em := sum (live.filter fun f => locked.isEmpty || f.acc != .rwl)
  if page = pgMEMMAP ∧ off = 0x118 then keyWrite s v
  else if em = 0 then s
  else pairWrite s w page off (presentedWord s page off v em) em

/-- A write of a leaf page: R470 holds a SYSTEM write to the page of a fold that resets; an import entry's write under a
fold's authority names that fold (R257). -/
def pageLeafWrite (s : State) (w : Writer) (page off v mask : Nat) : State :=
  let alien : Bool := match w.auth with
    | .fold g => page == pgWIN && 0x300 ≤ off && off % 16 == 0 && bits v 11 8 != g && hits F.WIN_IN_TGT_FOLD mask
    | _ => false
  if !wordAllowed s w page off || alien then denyWord s w page off
  else if blkOf page = 0x41 ∧ w.auth = .sys ∧ 0x100 ≤ off ∧ fbit s page F.FOLD_STS_RESETTING then
    putRst s fun r => { r with writes := r.writes ++ [(slotOf page, off, v % 2 ^ 32)] }
  else leafWrite s w page off v mask false

/-! ## Group pages (R45 to R47, R523 to R525) -/

/-- The members of a group page within an access's authority. -/
def membersFor (s : State) (w : Writer) (page : Nat) : List Nat :=
  (groupLeaves s page).filter fun m => hasPage s w.auth m

/-- The sum of the members' counters (R47). -/
def cntGroupSum (s : State) (w : Writer) (page n : Nat) : Nat :=
  ((membersFor s w page).map fun m => counter s m n).foldl (· + ·) 0

/-- Latch a group counter: a sum past 2^64 sets the group's carry (R534). -/
def groupLatch (s : State) (w : Writer) (page n : Nat) : State :=
  let v := cntGroupSum s w page n
  let s := if v < 2 ^ 64 then s else { s with grpCarry := mput s.grpCarry (page * 16 + n) () }
  latchCnt s page n v

def carryClear (s : State) (page bits : Nat) : State :=
  { s with grpCarry := mkeep s.grpCarry fun k => !(k / 16 == page && bits.testBit (k % 16)) }

/-- CNT_SNAP of a group page is its own (R524, R533). -/
def groupSnap (s : State) (w : Writer) (page v : Nat) : State :=
  let s := if v.testBit 0 then fput ((List.range 16).foldl (fun s n => groupLatch s w page n) s) page F.CNT_SNAP_HELD 1 else s
  if v.testBit 2 then fput s page F.CNT_SNAP_HELD 0 else s

/-- Registers of the header that a group page passes to its members (R45, R46, R525). -/
def groupPasses (off : Nat) : Bool :=
  off == 0x10 || off == 0x18 || off == 0x1C || off == 0x20 || off == 0x24 || off == 0x30 || 0x100 ≤ off

/-- A write of a local group page. -/
def groupWriteLocal (s : State) (w : Writer) (page off v mask : Nat) : State :=
  if nativeFields page off ≠ [] then
    if hasPage s w.auth page then
      (nativeFields page off).foldl (fun s fi =>
        let held := fgeti s page fi.1 fi.2
        let m := bits mask fi.1.hi fi.1.lo
        if m = 0 then s else plainField s page (((bits v fi.1.hi fi.1.lo &&& m) ||| (held - (held &&& m))) * 2 ^ fi.1.lo) fi) s
    else denyWrite s w.auth
  else if off = 0x2C then groupSnap s w page v
  else if groupPasses off then
    let s := if off = 0x30 then carryClear s page v
      else if off = 0x10 ∧ v.testBit 1 then carryClear s page 0xFFFF else s
    (membersFor s w page).foldl (fun s m => leafWrite s w m off v mask true) s
  else s

/-- A write of one word of a page that exists. A pod or system page's write is passed on by the rings, at a tick that
the serving firmware names. -/
def pageWrite (s : State) (w : Writer) (page off v mask : Nat) : State :=
  match groupOf page with
  | none => pageLeafWrite s w page off v mask
  | some .pod => if w.auth = .sys then (let g := drawFree s; podWrite g.2 false off v (freeWord g.1)) else denyWrite s w.auth
  | some .system => if w.auth = .sys then (let g := drawFree s; podWrite g.2 true off v (freeWord g.1)) else denyWrite s w.auth
  | some _ => groupWriteLocal s w page off v mask

/-- In SCRAPPED the part answers only reads of the PKG page (R560). -/
def scrapped (s : State) : Bool := s.fuse.lcs == 4

/-- ERR.NARROW of the page that holds the access's first byte, and the PKG page's count (R527). -/
def narrowFault (s : State) (page : Nat) : State :=
  bump (if leafExists s page then setErr s page 3 else s) pgPKG 2

/-- A register write of `width` bits at an offset of a page (R520, R527). -/
def regWrite (s : State) (w : Writer) (page off width v : Nat) : State :=
  if scrapped s then s
  else if width < 8 ∨ off % (width / 8) ≠ 0 then narrowFault s page
  else if !pageExists s page then bump s pgPKG 0
  else if width < 32 then narrowFault s page
  else
    let s := pageWrite s w page off (v % 2 ^ 32) (2 ^ 32 - 1)
    if width = 64 then pageWrite s w page (off + 4) (v / 2 ^ 32 % 2 ^ 32) (2 ^ 32 - 1) else s

/-- A masked write of a word with SYSTEM authority (R583). -/
def maskedWrite (s : State) (page off v mask : Nat) : State :=
  if scrapped s then s
  else if !pageExists s page then bump s pgPKG 0
  else pageWrite s sysWriter page off v mask

/-! ## Reads -/

/-- Who runs on engine `e` of a unit's pool: opcode, context and fold. -/
def engineCmd (s : State) (u : UnitId) (e : Nat) : Option Cmd :=
  s.cmds.find? fun x => (x.phase == .granted || x.phase == .running) && x.engine == e &&
    (match inputOf s x with | some v => unitKey v == unitKey u | none => false)

/-- STS of an engine page, with its fields' places: BUSY [0], OPCODE [8:1], CONTEXT [17:9], FOLD [21:18] (R235, R427). A
chunk move shows the command that asked for it (R228, R232). -/
def engineSts (s : State) (u : UnitId) (e : Nat) : Nat :=
  match engineCmd s u e with
  | some c => 1 + cOp c * 2 + c.id.ctx * 2 ^ 9 + (ctxFold s c.id.ctx).getD 0 * 2 ^ 18
  | none =>
    match u with
    | .drover t _ =>
      match s.moves.find? fun m => m.tile == t && m.engine == e with
      | some m =>
        let id := match m.by_ with | .cmd id => id | .entry id _ => id
        1 + (match findCmd s id with | some c => cOp c | none => 0) * 2 + m.ctx * 2 ^ 9 + m.fold * 2 ^ 18
      | none => 0
    | _ => 0

/-- MXA_STS (R123). -/
def mxaSts (s : State) (d p a : Nat) : Nat :=
  let c := getCtl s d p a
  let busy (u : ArrayUnit) : Bool := (getArr s u).passes != []
  let us := unitsOf d p a
  let qbusy := ((List.range 4).map fun q => bitN (busy ⟨d, p, a, true, q⟩) * 2 ^ q).foldl (· + ·) 0
  let stop := us.any fun u => (getArr s u).passes.any fun x => x.stop.isSome
  bitN (us.any busy) + bitN c.quarter * 2 + bitN (arrFrozen s d p a) * 4 + bitN (checkRuns s d p a) * 8 + bitN c.offline * 16 +
    bitN stop * 32 + qbusy * 64 + ((getArr s ⟨d, p, a, false, 0⟩).bankLast.getD 0) * 1024

/-- HATCH_STS (R161). -/
def hatchSts (s : State) (d p : Nat) : Nat :=
  let x := getHatch s d p
  (match x.run with | some r => 1 + r.iss.ctx * 16 | none => 0) + min x.fifo.length 4 * 2

/-- COLL_STS: the collectives whose phases run on the engines of an axis (R353, R395). -/
def collSts (s : State) (t : Nat) : Nat :=
  let n := (s.fab.cols.filter fun x => x.launched && 1 < teamExtent (asOf s x) x.team t &&
    (match findCmd s x.id with | some c => (kAxes c).contains t | none => false)).length
  bitN (n != 0) + min n 15 * 2

/-- VEC_STS: an instruction is one step of this model, so none waits between commands; a core that runs has its next
one ready (R160). -/
def vecSts (s : State) (d p : Nat) : Nat :=
  ((List.range 4).map fun k => bitN (fbit s (pgPREP d p k) F.PREP_STS_RUNNING) * 2 ^ k).foldl (· + ·) 0

/-- The unit behind a page has accepted work that has not completed (R521). -/
def unitBusy (s : State) (page : Nat) : Bool :=
  let x := slotOf page
  match blkOf page with
  | 0x10 => (getHub s x).pkts != []
  | 0x11 => s.cmds.any fun c => fgeti s (pgCTX c.id.ctx) F.QCFG_HOME_TILE c.id.q == x
  | 0x12 => s.coh.txns.any fun e => homeOf s e.1 == x
  | 0x14 => engineSts s (.drover (x / 16) 0) (x % 16) % 2 == 1
  | 0x15 => engineSts s (.etch (x / 8) 0) (x % 8) % 2 == 1
  | 0x16 => collSts s (x / 2) % 2 == 1
  | 0x17 => (getPort s x).replay != []
  | 0x20 => mxaSts s (x / 72) (x % 72 / 8) (x % 8) % 2 == 1
  | 0x21 => fbit s page F.PREP_STS_RUNNING
  | 0x22 => vecSts s (x / 9) (x % 9) != 0
  | 0x23 => hatchSts s (x / 9) (x % 9) != 0
  | 0x24 => fbit s page F.SPAD_STS_INIT_BUSY || fbit s page F.SPAD_STS_KEEP_WIPING
  | 0x31 => mgetD s.host.peer x [] != []
  | 0x32 => (List.range 16).any fun r => (getRing s x r).jobs != []
  | 0x40 => s.cmds.any fun c => c.id.ctx == x && c.phase != .head
  | _ => false

/-- The unit behind a page is offline: its array, itself, or its C-die (R117, R460, R462). -/
def unitOffline (s : State) (page : Nat) : Bool :=
  let x := slotOf page
  (mget s.offline page).isSome ||
    (match pageDie page with | some d => (fget s pgFLT F.FLT_OFFLINE_DIES).testBit d | none => false) ||
    (blkOf page == 0x20 && (getCtl s (x / 72) (x % 72 / 8) (x % 8)).offline)

/-- A block with RWL fields (R521). -/
def lockable (blk : Nat) : Bool := (blockFields blk).any fun f => f.acc == .rwl

/-- PENMAP, DISABLED and DISPOS of a C-die (R125). -/
def mxaNative (s : State) (d off : Nat) : Nat :=
  let off4 (p : Nat) : Nat := (physArray s d p 0).1
  let dead (q : Nat) : Option Nat :=
    if s.fuse.gradeB then (s.fuse.disabled.find? fun x => x.1 == d && x.2.1 == q).map (·.2.2) else none
  if off = 0x100 then ((List.range 8).map fun p => off4 p * 16 ^ p).foldl (· + ·) 0
  else if off = 0x104 then off4 8
  else if off = 0x108 then ((List.range 9).map fun q => bitN (dead q).isSome * 2 ^ q).foldl (· + ·) 0
  else ((List.range 9).map fun q => (dead q).getD 0 * 8 ^ q).foldl (· + ·) 0

/-- The fields of a word as held, those that read zero left out. -/
def storedWord (s : State) (page : Nat) (fs : List (Field × Nat)) : Nat :=
  (fs.filter fun fi => fi.1.acc != .wo).foldl (fun x fi => x + fgeti s page fi.1 fi.2 * 2 ^ fi.1.lo) 0

/-- A word of the header of a page, counters apart (R517, R521, R523). -/
def headerWord (s : State) (page off : Nat) : Nat :=
  if off = 0x00 then blkOf page * 2 ^ 16 + slotOf page
  else if off = 0x08 then
    let remote := groupOf page == some .pod || groupOf page == some .system
    bitN (isGroup page) + bitN remote * 2 + bitN (lockable (blkOf page)) * 4
  else if off = 0x0C then groupMap s page
  else if off = 0x10 then
    fget s page F.CTL_CNT_FREEZE + bitN (pageLocked s page) * 2 ^ 31
  else if off = 0x14 then
    bitN (unitBusy s page) + bitN (unitOffline s page) * 2 + fget s page F.STS_DIFFER * 8
  else if off = 0x28 then fget s pgHERD F.HERD_EPOCH_EPOCH
  else storedWord s page (wordFields (blkOf page) off)

/-- A word of a leaf page that its chapter forms from other state, if it does. -/
def formedWord (s : State) (w : Writer) (page off : Nat) : Option Nat :=
  let x := slotOf page
  match blkOf page with
  | 0x20 => if off = 0x104 then some (mxaSts s (x / 72) (x % 72 / 8) (x % 8)) else none
  | 0x22 => if off = 0x100 then some (vecSts s (x / 9) (x % 9)) else none
  | 0x23 => if off = 0x100 then some (hatchSts s (x / 9) (x % 9)) else none
  | 0x24 =>
    if 0x200 ≤ off ∧ off < 0x22C then
      some (((List.range 8).map fun k =>
        let i := (off - 0x200) / 4 * 8 + k
        (if i < 82 then mgetD s.fuse.spares (x * 128 + i) 0 else 0) * 16 ^ k).foldl (· + ·) 0)
    else none
  | 0x14 => if off = 0x104 then some (engineSts s (.drover (x / 16) 0) (x % 16)) else none
  | 0x15 => if off = 0x100 then some (engineSts s (.etch (x / 8) 0) (x % 8)) else none
  | 0x16 => if off = 0x100 then some (collSts s (x / 2)) else none
  | 0x02 =>
    if off = 0x118 then
      let i := fget s pgMEMMAP F.MEMMAP_KEYSEL_INDEX
      some (if w.pmc.isSome && w.secure && i < 22 then keyWord s (fget s pgMEMMAP F.MEMMAP_KEYSEL_SET) i else 0)
    else if off = 0x120 then
      some (tableEntry s (fget s pgMEMMAP F.MEMMAP_TBLSEL_TABLE) (fget s pgMEMMAP F.MEMMAP_TBLSEL_ENTRY))
    else none
  | 0x08 =>
    if off = 0x108 then
      let q := fget s pgHOSTP F.HOSTP_BIASQ_QUERY
      some (q + bitN (mget s.host.bias q).isSome * 2 ^ F.HOSTP_BIASQ_OWNED.lo)
    else none
  | 0x03 =>
    if off = 0x118 then
      some (fget s pgFAB F.FAB_LAG_SW + fget s pgFAB F.FAB_LAG_EN * 2 + lagSources s * 32 + bitN (laggard s) * 512)
    else none
  | 0x06 =>
    if off = 0x108 then some (((List.range 16).map fun f => fget s (pgFOLD f) F.FOLD_STS_RESETTING * 2 ^ f).foldl (· + ·) 0)
    else if off = 0x11C then
      let e := mgetD s.fltLog (fget s pgFLT F.FLT_LOGSEL_ENTRY) 0
      some (e.toNat / 2 ^ (32 * fget s pgFLT F.FLT_LOGSEL_WORD) % 2 ^ 32)
    else none
  | 0x07 =>
    if off = 0x128 then some (tblEntry s (tblSel s).1 (tblSel s).2)
    else if off = 0x194 then some (evtWord s (evtSel s).1 (evtSel s).2)
    else if off = 0x204 then
      some (match w.pmc with | some i => bitN (mget s.herd.cas i).isSome | none => 0)
    else if off = 0x224 then some (msgSelWord s)
    else if off = 0x228 then
      some (fget s pgHERD F.HERD_MSGCTL_RING * 2 + fget s pgHERD F.HERD_MSGCTL_OUT_STS * 4 + s.herd.inbox.length * 16)
    else none
  | 0x40 =>
    if 0x200 ≤ off ∧ off < 0x600 then
      let t := getTally s x ((off - 0x200) / 16)
      if off % 16 = 0 then some (t.val.toNat % 2 ^ 32)
      else if off % 16 = 4 then some (t.val.toNat / 2 ^ 32)
      else if off % 16 = 8 then some 0
      else some (t.gen % 256 + bitN t.ovf * 256)
    else none
  | 0x00 =>
    if off = 0x100 then some (bitN s.fuse.gradeB + (if s.fuse.gradeB then 0x44 else 0x48) * 2)
    else if off = 0x108 then
      some (s.fuse.lcs % 8 + s.fuse.svnMin % 128 * 2 ^ 8 + fget s pgPKG F.PKG_LCS_PEND_TARGET * 2 ^ 15 +
        fget s pgPKG F.PKG_LCS_PENDING * 2 ^ 18 + fget s pgPKG F.PKG_LCS_SVN_PEND * 2 ^ 19)
    else if off = 0x120 then some (ictWord s (fget s pgPKG F.PKG_ICT_SEL_LINK) (fget s pgPKG F.PKG_ICT_SEL_WORD))
    else none
  | _ => none

/-- The value of a word of a leaf page, counters and latches apart. -/
def leafValue (s : State) (w : Writer) (page off : Nat) : Nat :=
  if off < 0xC0 then headerWord s page off
  else match formedWord s w page off with
    | some v => v
    | none => storedWord s page (wordFields (blkOf page) off)

/-- The _LO words whose read latches the _HI word (R536). -/
def readPairLo (page off : Nat) : Bool :=
  pairLo page off ||
    (match blkOf page with
    | 0x40 => (0x200 ≤ off && off < 0x600 && off % 16 == 0) || off == 0x640 || (0x680 ≤ off && off < 0x6C0 && off % 8 == 0)
    | 0x41 => off == 0x180
    | 0x05 => off == 0x120
    | _ => false)

/-- A counter word (R533): the low word copies the live counter, unless HELD is set; the high word never copies. -/
def cntRead (s : State) (page off : Nat) (live : State → Nat → State) : Nat × State :=
  let n := (off - 0x40) / 8
  let hi := off % 8 == 4
  let s := if hi || fbit s page F.CNT_SNAP_HELD then s else live s n
  let v := (mgetD s.latch (page * 16 + n) 0).toNat
  (if hi then v / 2 ^ 32 else v % 2 ^ 32, s)

/-- A read of a word of a leaf page. -/
def leafRead (s : State) (w : Writer) (page off : Nat) : Nat × State :=
  if 0x40 ≤ off ∧ off < 0xC0 then cntRead s page off fun s n => latchCnt s page n (counter s page n)
  else if 0x100 ≤ off ∧ readPairLo page off then
    let hi := leafValue s w page (off + 4)
    (leafValue s w page off, { s with pairLatch := mput s.pairLatch (page * 1024 + off / 4 + 1) (BitVec.ofNat 32 hi) })
  else if 0x104 ≤ off ∧ readPairLo page (off - 4) then ((mgetD s.pairLatch (page * 1024 + off / 4) 0).toNat, s)
  else (leafValue s w page off, s)

/-- The OR of a word over members. -/
def orOver (s : State) (w : Writer) (ms : List Nat) (off : Nat) : Nat :=
  (ms.map fun m => leafValue s w m off).foldl (· ||| ·) 0

/-- The group's carries (R534). -/
def carryWord (s : State) (page : Nat) : Nat :=
  ((List.range 16).map fun n => bitN (mget s.grpCarry (page * 16 + n)).isSome * 2 ^ n).foldl (· + ·) 0

/-- A read of a word of a local group page (R524, R525). -/
def groupRead (s : State) (w : Writer) (page off : Nat) : Nat × State :=
  let ms := membersFor s w page
  if nativeFields page off ≠ [] then
    (if !hasPage s w.auth page then 0
      else if blkOf page = 0x20 then mxaNative s (slotOf page - 0xF00) off
      else storedWord s page (nativeFields page off), s)
  else if 0x40 ≤ off ∧ off < 0xC0 then cntRead s page off fun s n => groupLatch s w page n
  else if off = 0x00 ∨ off = 0x08 ∨ off = 0x0C ∨ off = 0x28 then (headerWord s page off, s)
  else if off = 0x2C then (fget s page F.CNT_SNAP_HELD * 2, s)
  else if off = 0x04 ∨ off = 0x1C ∨ off = 0x20 then ((ms.head?.map fun m => leafValue s w m off).getD 0, s)
  else if off = 0x14 then (orOver s w ms off ||| (fget s page F.STS_DIFFER * 8), s)
  else if off = 0x30 then (orOver s w ms off ||| carryWord s page, s)
  else if off < 0x100 then (orOver s w ms off, s)
  else match ms with
    | [] => (0, s)
    | m :: t =>
      let v := (leafRead s w m off).1
      let differ := t.any fun j => (leafRead s w j off).1 != v
      let s := fputb s page F.STS_DIFFER differ
      (v, ms.foldl (fun s j => (leafRead s w j off).2) s)

/-- A read of a pod or system page (R49): its own header words, and else the values of the last collection, which stay until
the next. -/
def podRead (s : State) (page off : Nat) : Nat × State :=
  if off = 0x00 ∨ off = 0x08 ∨ off = 0x0C ∨ off = 0x28 then (headerWord s page off, s)
  else ((Config.podWord s.herd.podAt (page * 1024 + off / 4)).toNat, s)

/-- A read of one word of a page that exists; outside the reader's authority it returns zero (R240, R294). -/
def pageRead (s : State) (w : Writer) (page off : Nat) : Nat × State :=
  match groupOf page with
  | none => if wordAllowed s w page off then leafRead s w page off else (0, s)
  | some .pod => if w.auth = .sys then podRead s page off else (0, s)
  | some .system => if w.auth = .sys then podRead s page off else (0, s)
  | some _ => groupRead s w page off

/-- A page that the Bellwether serves over the rings (R49). -/
def remotePage (page : Nat) : Bool := groupOf page == some .pod || groupOf page == some .system

/-- A register read of `width` bits (R520, R527): low word first, and the named bytes of a narrow one. -/
def regRead (s : State) (w : Writer) (page off width : Nat) : Nat × State :=
  if scrapped s ∧ !(w.pmc.isSome ∧ page = pgPKG) then (0, s)
  else if width < 8 ∨ off % (width / 8) ≠ 0 then (0, narrowFault s page)
  else if !pageExists s page then (0, bump s pgPKG 0)
  else
    let a := pageRead s w page (off - off % 4)
    if width = 64 then
      let b := pageRead a.2 w page (off + 4)
      (a.1 + b.1 * 2 ^ 32, b.2)
    else (a.1 / 2 ^ (off % 4 * 8) % 2 ^ width, a.2)

/-- A register read, answered to its requester; with a pod or system page goes the Herd time of the collection (R49). -/
def regReadReply (s : State) (w : Writer) (page off width : Nat) : State :=
  let r := regRead s w page off width
  let t := reply r.2 (leBytes (width / 8) r.1)
  if remotePage page then { t with resp := { t.resp with time := some t.herd.podTime } } else t

/-- The crook's own registers, whose writes are never guarded (R512). -/
def crookWord (page off : Nat) : Bool := page == pgHERD && 0x200 ≤ off && off < 0x210

/-- A register write by a requester: guarded unless it is a crook register's (R512). -/
def srcWrite (s : State) (src : Src) (page off width v : Nat) : State :=
  if crookWord page off then regWrite s (writerOf s src) page off width v
  else guarded s src fun s => regWrite s (writerOf s src) page off width v

end Sys2Proof.Machine
end

