-- ==== Sys2Proof/Machine/Herd.lean ====
section
/-! DEFINITION. What happens at tick edges (R491, R502, R572), the register rows whose write can make it due, the
event entries (R501, R583), barriers' releases (R503), the epoch switch (R507 to R509), the messages of R506, and the
end of a fold reset (R466, R470). -/

namespace Sys2Proof.Machine

open Sys2Proof

/-! ## Event entries (R501, R583) -/

/-- An armed entry applies: it disarms, and is late when its tick's edge lies behind (R502, R516). An IRQ entry raises
the Herd page's event, and its code goes out with the interrupt (log 33). -/
def evtApply (s : State) (n : Nat) : State :=
  let tick := evtTick s n
  let act := bits (evtWord s n 2) 3 1
  let a0 := evtWord s n 3
  let a1 := evtWord s n 4
  let s := bump (evtDisarm s (2 ^ n)) pgHERD 5
  let s := if tick * 256 < herdTime s then bump s pgHERD 6 else s
  if act = 1 then maskedWrite s (bits a0 19 0) (bits a0 29 20 * 4) a1 (evtWord s n 5)
  else if act = 2 then tallyAdd s (bits a0 8 0) (bits a0 14 9) a1
  else raiseEvent (emit s (.herdIrq (bits a0 7 0))) pgHERD

/-- An armed entry of an action whose tick is reached. -/
def evtDue (s : State) (n act : Nat) : Bool :=
  n < 32 && evtArmed s n && bits (evtWord s n 2) 3 1 == act && tickReached s (evtTick s n)

def execEventRegWrite (entry : Nat) (s : State) : Out := .next (if evtDue s entry 1 then evtApply s entry else s)
def execEventTallyAdd (entry : Nat) (s : State) : Out := .next (if evtDue s entry 2 then evtApply s entry else s)
def execEventIrq (entry : Nat) (s : State) : Out := .next (if evtDue s entry 3 then evtApply s entry else s)

/-! ## Barrier release (R503) -/

/-- At the release tick every entry of the barrier raises its tally and clears ARRIVE. -/
def barRelease (s : State) (bid tick : Nat) : State :=
  let s := putHerd s fun h => { h with rel := h.rel.erase (bid, tick) }
  let s := (List.range 16).foldl (fun s n =>
    if fgeti s pgHERD F.HERD_BAR_BID n ≠ bid then s
    else
      let s := fputi s pgHERD F.HERD_BAR_ARRIVE n 0
      tallyAdd s (fgeti s pgHERD F.HERD_BAR_CTX n) (fgeti s pgHERD F.HERD_BAR_TALLY n) 1) s
  bump s pgHERD 10

def execBarrierRelease (bid tick : Nat) (s : State) : Out :=
  .next (if s.herd.rel.contains (bid, tick) && tickReached s tick then barRelease s bid tick else s)

/-! ## The epoch switch (R508, R509) -/

/-- A register word as held. -/
def heldWord (s : State) (page off : Nat) : Nat := storedWord s page (wordFields (blkOf page) off)

/-- Enabled team entries in ascending TEAM_ID, then entry. -/
def teamsInOrder (s : State) : List Nat :=
  ((List.range 64).filter fun t => fbiti s pgFAB F.FAB_TEAM_ENABLE t).mergeSort fun a b =>
    fgeti s pgFAB F.FAB_TEAM_TEAM_ID a * 64 + a ≤ fgeti s pgFAB F.FAB_TEAM_TEAM_ID b * 64 + b

/-- The words of the digest of R508. -/
def digestWords (s : State) (epoch : Nat) : List Nat :=
  [epoch, heldWord s pgFAB 0x104, heldWord s pgFAB 0x108, heldWord s pgFAB 0x110, heldWord s pgFAB 0x114,
    fget s pgFAB F.FAB_LAG_EN * 2] ++
  ((List.range 16).map fun n => fgeti s pgHERD F.HERD_CFGW_WORD n) ++
  (teamsInOrder s).flatMap fun t =>
    [fgeti s pgFAB F.FAB_TEAM_TEAM_ID t * 2 ^ F.FAB_TEAM_TEAM_ID.lo, heldWord s pgFAB (0x204 + 16 * t),
      heldWord s pgFAB (0x208 + 16 * t)]

/-- The digest of words (R508). -/
def digestOf (ws : List Nat) : Word64 :=
  (ws.foldl (fun (a : Word64 × Nat) w =>
    (stippleMix (a.1 ^^^ (BitVec.ofNat 64 a.2 <<< 32) ^^^ BitVec.ofNat 64 w), a.2 + 1)) (0, 0)).1

/-- DIGEST goes to the Bellwether; a Bellwether reports to its own inbox (R509). -/
def digestSend (s : State) (epoch : Nat) (d : Word64) : State :=
  let m := msgBytes 0x06 0x01 (selfPkg s) 0xFFFD 0 (leBytes 4 epoch ++ leBytes 8 d.toNat ++
    leBytes 2 (fget s pgHERD F.HERD_FENCE_FOLDS) ++ leBytes 1 (fget s pgHERD F.HERD_FENCE_PKG))
  if ringJoined s false && ringActing s false == 1 then
    match inboxPut s m with
    | some t => bump t pgHERD 8
    | none => bump s pgHERD 9
  else msgQueue s false false m

/-- The switch: the held writes apply, still subject to their lock; the epoch and the digest are set and compared. -/
def epochSwitch (s : State) : State :=
  match s.herd.stage with
  | none => s
  | some (epoch, _, expect) =>
    let held := s.herd.held
    let s := putHerd s fun h => { h with stage := none, held := [] }
    let s := fput (fput s pgHERD F.HERD_STS_EPOCH_PEND 0) pgHERD F.HERD_EPOCH_TICK_HI_PEND 0
    let s := held.foldl (fun s w => leafWrite s sysWriter w.1 w.2.1 w.2.2.1 w.2.2.2 false) s
    let s := fput s pgHERD F.HERD_EPOCH_EPOCH epoch
    let d := digestOf (digestWords s epoch)
    let s := fputPair s pgHERD F.HERD_DIGEST_LO_DIGEST_LO F.HERD_DIGEST_HI_DIGEST_HI 0 d.toNat
    let s :=
      if expect = 0 then s
      else if d.toNat = expect then
        (if fget s pgHERD F.HERD_FENCE_CAUSE = 1 then fenceClear s 0 true else s)
      else bump (fenceSet s 0 true 1) pgHERD 12
    digestSend s epoch d

/-- The tick of the staged switch. -/
def stageDue (s : State) : Bool := match s.herd.stage with | some x => tickReached s x.2.1 | none => false

def execEpochSwitch (s : State) : Out := .next (if stageDue s then epochSwitch s else s)

/-! ## Tick-edge work (R502) -/

/-- The tick of a STEP_SET that waits (R397). -/
def stepTick (s : State) (ctx : Nat) : Nat :=
  fpair s (pgCTX ctx) F.CTX_STEP_TICK_LO_TICK_LO F.CTX_STEP_TICK_HI_TICK_HI 0

/-- LAUNCH of a collective that waits for it: 0 where it waits for nothing (R381). -/
def launchTick (s : State) (x : ColSt) : Nat :=
  if x.launched then 0 else match findCmd s x.id with | some c => kLaunch c | none => 0

/-- The ticks for which something waits. -/
def dueTicks (s : State) : List Nat :=
  (match s.herd.stage with | some x => [x.2.1] | none => []) ++
  ((List.range 32).filter (evtArmed s)).map (evtTick s) ++
  (s.trn.pend.map fun e => stepTick s e.1) ++
  (match s.pwr.capNext with | some x => [x.2] | none => []) ++
  s.herd.rel.map (·.2)

/-- The work of one tick edge, in the order of R502. -/
def tickWork (s : State) (t : Nat) : State :=
  let s := match s.herd.stage with | some x => if x.2.1 ≤ t then epochSwitch s else s | none => s
  let s := (List.range 32).foldl (fun s n => if evtArmed s n && evtTick s n ≤ t then evtApply s n else s) s
  let s := (s.trn.pend.map (·.1)).foldl (fun s c => if stepTick s c ≤ t then stepApply s c else s) s
  let s := match s.pwr.capNext with | some x => if x.2 ≤ t then capApply s else s | none => s
  let s := s.fab.cols.foldl (fun s x =>
    if launchTick s x ≠ 0 ∧ launchTick s x ≤ t then colBegin s x.team x.cseq .ok else s) s
  s.herd.rel.foldl (fun s r => if r.2 ≤ t then barRelease s r.1 r.2 else s) s

/-- Tick edges whose work is due, in tick order, at most `fuel` of them. -/
def settleFuel (s : State) : Nat → State
  | 0 => s
  | fuel + 1 =>
    match ((dueTicks s).filter fun t => tickReached s t).min? with
    | some t => settleFuel (tickWork s t) fuel
    | none => s

/-- Apply whatever is due at ticks reached: what a skipped or passed edge left, and what was armed late. -/
def settleHerd (s : State) : State := settleFuel s 4096

/-! ## Register rows (chapter 17) -/

/-- A software write to register space; an address outside it, or a width that no access has, reaches no register. -/
def execRegisterWrite (src : Src) (addr width : Nat) (value : BitVec 64) (s : State) : Out :=
  .next (if addr < regBase ∨ regBase + 2 ^ 32 ≤ addr ∨ (width ≠ 8 ∧ width ≠ 16 ∧ width ≠ 32 ∧ width ≠ 64) then s
  else settleHerd (srcWrite s src ((addr - regBase) / 4096) ((addr - regBase) % 4096) width value.toNat))

def execAbsentPageAccess (src : Src) (page off : Nat) (write : Bool) (s : State) : Out :=
  .next (if pageExists s page then s
  else if write then srcWrite s src page (off % 4096 / 4 * 4) 32 0
  else regReadReply s (writerOf s src) page (off % 4096 / 4 * 4) 32)

def execPageLock (src : Src) (page : Nat) (s : State) : Out := .next (settleHerd (srcWrite s src page 0x10 32 (2 ^ 31 + bitN (fbit s page F.CTL_CNT_FREEZE))))

def execCntClear (src : Src) (page : Nat) (s : State) : Out :=
  .next (settleHerd (srcWrite s src page 0x10 32 (2 + bitN (fbit s page F.CTL_CNT_FREEZE))))

def execCntSnapTake (src : Src) (page : Nat) (s : State) : Out := .next (settleHerd (srcWrite s src page 0x2C 32 1))

def execCntSnapRelease (src : Src) (page : Nat) (s : State) : Out := .next (settleHerd (srcWrite s src page 0x2C 32 4))

def execCounterLowRead (src : Src) (page n : Nat) (s : State) : Out :=
  .next (regReadReply s (writerOf s src) page (0x40 + n % 16 * 8) 32)

def execPairLoWrite (src : Src) (page off : Nat) (value : BitVec 32) (s : State) : Out :=
  .next (if pairLo page off then settleHerd (srcWrite s src page off 32 value.toNat) else s)

def execPairLoRead (src : Src) (page off : Nat) (s : State) : Out :=
  .next (if readPairLo page off then regReadReply s (writerOf s src) page off 32 else s)

def execGroupPageWrite (src : Src) (page off : Nat) (value : BitVec 32) (s : State) : Out :=
  .next (if isGroup page then settleHerd (srcWrite s src page off 32 value.toNat) else s)

def execGroupPageRead (src : Src) (page off : Nat) (s : State) : Out :=
  .next (if isGroup page then regReadReply s (writerOf s src) page off 32 else s)

def execGroupErrClear (src : Src) (page : Nat) (bits : BitVec 32) (s : State) : Out :=
  .next (if isGroup page then settleHerd (srcWrite s src page 0x18 32 bits.toNat) else s)

def execPodGroupWrite (src : Src) (system : Bool) (off : Nat) (value : BitVec 32) (tick : Nat) (s : State) : Out :=
  .next (if off % 4 = 0 then settleHerd (withSys s src fun s => podWrite s system (off % 4096) value.toNat tick) else s)

/-! ## Rows of the Herd page that can make something due -/

def execEventArm (src : Src) (entry : Nat) (ctrl : BitVec 32) (s : State) : Out :=
  .next (if entry < 32 then settleHerd (withSys s src fun s => evtWrite s entry 2 ctrl.toNat) else s)

/-- HERD_TIME moves only at a master outside the ring (R491). -/
def execHerdTimeWrite (src : Src) (value : BitVec 64) (s : State) : Out :=
  .next (settleHerd (withSys s src fun s =>
    if ringRole s false = 1 ∧ !ringJoined s false then
      fputPair s pgHERD F.HERD_TIME_LO_TIME_LO F.HERD_TIME_HI_TIME_HI 0 value.toNat
    else s))

/-! ## Messages (R506) -/

/-- The ring on which a package reaches another: the Bellwether's head ring for what lies beyond its pod. -/
def ringTo (s : State) (dst : Nat) : Bool :=
  ringActing s false == 1 && ringJoined s true && dst < 2 ^ 15 && !Config.podMember dst

/-- An answer to a message: type 0x80 + TYPE, the status in byte 0. -/
def msgAnswer (s : State) (m : List Byte) (code : Nat) (rest : List Byte) : State :=
  msgQueue s (ringTo s (msgSrc m)) false
    (msgBytes (0x80 + msgType m) 0x01 (selfPkg s) (msgSrc m) (msgSeq m) (leBytes 1 code ++ rest))

/-- SRC is the ring's master or the head (R506). -/
def msgFromMaster (s : State) (m : List Byte) : Bool :=
  msgSrc m == fget s pgHERD F.HERD_MASTERS_MASTER_PKG || msgSrc m == fget s pgHERD F.HERD_MASTERS_HEAD_PKG

/-- A hardware-handled type, from a sender that may send it. -/
def msgHandled (s : State) (m : List Byte) (f : State → State) : State :=
  if msgFromMaster s m then f s else msgAnswer s m stPERM []

/-- REG_WRITE and EVENT: an entry goes into a free one of the table. -/
def msgEntry (s : State) (m : List Byte) (only : Option Nat) : State :=
  msgHandled s m fun s =>
    let e := slice (msgPayload m) 0 32
    let act := bits (leNat (slice e 8 4)) 3 1
    if msgLen m != 32 || (match only with | some a => act != a | none => false) then msgAnswer s m stBAD []
    else match evtPlace s e with
      | none => msgAnswer s m stSTATE []
      | some (ok, t) => msgAnswer t m (if ok then stSUCCESS else stBAD) []

/-- REG_READ: the values, with Herd time (log 34). -/
def msgRegRead (s : State) (m : List Byte) : State :=
  msgHandled s m fun s =>
    let n := (msgLen m - 4) / 2
    if msgLen m < 6 ∨ msgLen m % 2 ≠ 0 ∨ 16 < n then msgAnswer s m stBAD []
    else
      let p := msgPayload m
      let page := leNat (slice p 0 4)
      let r := (List.range n).foldl (fun (a : List Byte × State) i =>
        let x := regRead a.2 sysWriter page (leNat (slice p (4 + 2 * i) 2) * 4) 32
        (a.1 ++ leBytes 4 x.1, x.2)) ([], s)
      msgAnswer r.2 m stSUCCESS (leBytes 3 0 ++ leBytes 8 (herdTime s) ++ r.1)

/-- CAP: PWR_CAP_TICK, then PWR_CAP_NEXT; a value clamped or late is noted. -/
def msgCap (s : State) (m : List Byte) : State :=
  msgHandled s m fun s =>
    if msgLen m ≠ 12 then msgAnswer s m stBAD []
    else
      let w := leNat (slice (msgPayload m) 0 4)
      let tick := leNat (slice (msgPayload m) 4 8)
      let note := min (max w 1400) 2800 ≠ w ∨ tickReached s tick
      let s := fputPair s pgPWR F.PWR_CAP_TICK_LO_TICK_LO F.PWR_CAP_TICK_HI_TICK_HI 0 tick
      msgAnswer (capNextWrite s w) m (if note then stNOTE else stSUCCESS) []

/-- EPOCH stages a switch, unless one is pending. -/
def msgEpoch (s : State) (m : List Byte) : State :=
  msgHandled s m fun s =>
    if msgLen m ≠ 20 then msgAnswer s m stBAD []
    else if epochPending s then msgAnswer s m stSTATE []
    else
      let p := msgPayload m
      let s := fput s pgHERD F.HERD_EPOCH_NEXT_NEXT (leNat (slice p 0 4))
      let tick := leNat (slice p 4 8)
      let s := fput (fput s pgHERD F.HERD_EPOCH_TICK_LO_TICK_LO tick) pgHERD F.HERD_EPOCH_TICK_HI_TICK_HI (tick / 2 ^ 32)
      let s := fputPair s pgHERD F.HERD_EXPECT_LO_EXPECT_LO F.HERD_EXPECT_HI_EXPECT_HI 0 (leNat (slice p 12 8))
      msgAnswer (epochStage s) m stSUCCESS []

/-- FENCE and UNFENCE: a fold mask and the PKG bit. -/
def msgFence (s : State) (m : List Byte) (set : Bool) : State :=
  msgHandled s m fun s =>
    if msgLen m ≠ 3 then msgAnswer s m stBAD []
    else
      let folds := leNat (slice (msgPayload m) 0 2)
      let pkg := (leNat (slice (msgPayload m) 2 1)).testBit 0
      msgAnswer (if set then fenceSet s folds pkg 2 else fenceClear s folds pkg) m stSUCCESS []

/-- The answer to a REG_READ brings the crook holder a new collection for the pod and system pages, of the Herd time that
the answer carries (R49, R506; DESIGN CHOICE, notes/assumptions/81.md). -/
def podCollect (s : State) (m : List Byte) : State :=
  if msgType m = 0x82 then
    let g := drawFree s
    putHerd g.2 fun h => { h with podAt := g.1, podTime := leNat (slice (msgPayload m) 4 8) }
  else s

/-- A message for the inbox: whether it was taken. -/
def msgInbox (s : State) (m : List Byte) : Bool × State :=
  match inboxPut s m with
  | some t => (true, bump (podCollect t m) pgHERD 8)
  | none => (false, bump s pgHERD 9)

/-- A message arrives at its destination: whether it was taken, and what it does. -/
def msgDeliver (s : State) (m : List Byte) : Bool × State :=
  let t := msgType m
  let got := bump s pgHERD 8
  if t = 0x01 then (true, msgEntry got m (some 1))
  else if t = 0x02 then (true, msgRegRead got m)
  else if t = 0x03 then (true, msgEntry got m none)
  else if t = 0x04 then (true, msgCap got m)
  else if t = 0x05 then (true, msgEpoch got m)
  else if t = 0x07 then (true, msgFence got m true)
  else if t = 0x08 then (true, msgFence got m false)
  else if t = 0x06 ∨ (0x20 ≤ t ∧ t < 0x40) ∨ 0x80 ≤ t then msgInbox s m
  else (true, msgAnswer got m stBAD [])

/-- A message row: a message of its type arrives. -/
def msgRow (s : State) (m : List Byte) (ok : Bool) : State :=
  if ok then settleHerd (msgDeliver s (slice m 0 220)).2 else s

def execMsgRegWrite (msg : List Byte) (s : State) : Out := .next (msgRow s msg (msgType msg == 0x01))
def execMsgRegRead (msg : List Byte) (s : State) : Out := .next (msgRow s msg (msgType msg == 0x02))
def execMsgEvent (msg : List Byte) (s : State) : Out := .next (msgRow s msg (msgType msg == 0x03))
def execMsgCap (msg : List Byte) (s : State) : Out := .next (msgRow s msg (msgType msg == 0x04))
def execMsgEpoch (msg : List Byte) (s : State) : Out := .next (msgRow s msg (msgType msg == 0x05))
def execMsgDigest (msg : List Byte) (s : State) : Out := .next (msgRow s msg (msgType msg == 0x06))
def execMsgFence (msg : List Byte) (s : State) : Out := .next (msgRow s msg (msgType msg == 0x07))
def execMsgUnfence (msg : List Byte) (s : State) : Out := .next (msgRow s msg (msgType msg == 0x08))
def execMsgFirmware (msg : List Byte) (s : State) : Out :=
  .next (msgRow s msg (0x20 ≤ msgType msg && msgType msg < 0x40))

/-! ## The end of a fold reset (R466, R470) -/

def execFoldClearDone (fold : Nat) (s : State) : Out :=
  .next (match getFoldRst s fold with
    | some x =>
      if x.phase == .clear && diesClear s x.dies && !pkgStopped s then
        let held := s.rst.writes.filter fun w => w.1 == fold
        let s := foldRelease s fold x
        let s := putRst s fun r => { r with writes := r.writes.filter fun w => w.1 != fold }
        settleHerd (held.foldl (fun s w => leafWrite s sysWriter (pgFOLD fold) w.2.1 w.2.2 (2 ^ 32 - 1) false) s)
      else s
    | none => s)

end Sys2Proof.Machine
end

