-- ==== Sys2Proof/Machine/Ring.lean ====
section
/-! DEFINITION. The Herd ring and the head ring (R484 to R500): frames and their check (R489, R490, R582), Herd time
(R491 to R495), recount (R497 to R500), barrier slots (R503) and messages on the ring (R505). Times of the rings are
compared in whole ticks: R493's fine slewing moves no tick edge of this model (log 35). -/

namespace Sys2Proof.Machine

open Sys2Proof

/-! ## Frames (R489, R490, R498, R582) -/

/-- One bit of the frame CRC's register. -/
def crc16Bit (c : Nat) : Nat := if c.testBit 15 then (c * 2 % 2 ^ 16) ^^^ 0x1021 else c * 2

/-- One byte enters, most significant bit first. -/
def crc16Byte (c : Nat) (b : Byte) : Nat :=
  crc16Bit (crc16Bit (crc16Bit (crc16Bit (crc16Bit (crc16Bit (crc16Bit (crc16Bit (c ^^^ (b.toNat * 256)))))))))

/-- CRC-16 of R582. -/
def crc16 (bs : List Byte) : Nat := bs.foldl crc16Byte 0xFFFF

def symTICK : Nat := 0xBC
def symRCNT : Nat := 0x3C

/-- A frame of 256 symbols: the first, symbols 1 to 252, the CRC over those and the flags. -/
def frameOf (first : Nat) (body : List Byte) (bad : Bool) : List Byte :=
  let b := slice body 0 252
  let c := crc16 b
  leBytes 1 first ++ b ++ leBytes 1 (c / 256) ++ leBytes 1 (c % 256) ++ leBytes 1 (bitN bad)

/-- Symbols 1 to 252. -/
def frameBody (f : List Byte) : List Byte := slice f 1 252

/-- A frame is good: no invalid symbol, its first symbol as expected, the CRC right, and BAD clear (R490). -/
def frameGood (f : List Byte) (first : Nat) (bad : Bool) : Bool :=
  !bad && f.length == 256 && leNat (slice f 0 1) == first &&
    leNat (slice f 253 1) * 256 + leNat (slice f 254 1) == crc16 (frameBody f) && leNat (slice f 255 1) % 2 == 0

/-- A bad frame is counted and goes on with BAD set. -/
def frameBadOn (s : State) (head : Bool) (f : List Byte) (first : Nat) : State :=
  emit (bump s pgHERD 0) (.ringFrame head (frameOf first (frameBody f) true))

/-- A little-endian field of a frame, by its first symbol. -/
def frameField (f : List Byte) (sym n : Nat) : Nat := leNat (slice f sym n)

/-- The input of a ring is locked. -/
def ringLocked (s : State) (head : Bool) : Bool := fbit s pgHERD (lockedField head)

/-- The package takes part in the ring's traffic: it has joined, and its input is locked. -/
def ringOn (s : State) (head : Bool) : Bool := ringJoined s head && ringLocked s head

/-! ## Herd time (R485, R491 to R495) -/

/-- The ring from which the package takes Herd time, if it does not use its own clock (R485). -/
def timeRing (s : State) : Option Bool :=
  if ringJoined s false && ringActing s false != 1 then some false
  else if ringJoined s true && ringActing s true != 1 then some true
  else none

/-- HOLDOVER of a ring; a Bellwether that follows the head ring shows it on its Herd ring too. -/
def holdoverSet (s : State) (head : Bool) (v : Nat) : State :=
  let s := fput s pgHERD (holdoverField head) v
  if head ∧ ringJoined s false then fput s pgHERD F.HERD_STS_HOLDOVER v else s

/-- The position delay D_i of a ring, in 1/64 symbol. -/
def posDelay (s : State) (head : Bool) : Nat := fget s pgHERD (if head then F.HERD_DLY_HEAD_DLY else F.HERD_DLY_POS_DLY)

/-- Correction against ring time (R493): behind steps forward and applies the skipped ticks, ahead stops. -/
def timeCorrect (s : State) (head : Bool) (tnum : Nat) : State :=
  let ring := tnum * 256 + posDelay s head / 64
  let s := holdoverSet s head 0
  if herdTick s < ring / 256 then
    let s := fputPair (putHerd s fun h => { h with stopped := false }) pgHERD F.HERD_TIME_LO_TIME_LO
      F.HERD_TIME_HI_TIME_HI 0 ring
    settleHerd (bump s pgHERD 3)
  else if ring / 256 < herdTick s then
    if s.herd.stopped then s else bump (putHerd s fun h => { h with stopped := true }) pgHERD 4
  else putHerd s fun h => { h with stopped := false }

/-! ## Barrier slots (R503) -/

/-- A barrier waits for its release tick here. -/
def barPending (s : State) (bid : Nat) : Bool := s.herd.rel.any fun r => r.1 == bid

/-- Some entry names the barrier with system scope. -/
def barSystem (s : State) (bid : Nat) : Bool :=
  (List.range 16).any fun n => fgeti s pgHERD F.HERD_BAR_BID n == bid && fgeti s pgHERD F.HERD_BAR_SCOPE n == 1

/-- What this package brings to a ring's barriers, as (BID, TOTAL, count): its arrived entries on the Herd ring, and
its pod's latest counts on the head ring. -/
def barBrings (s : State) (head : Bool) : List (Nat × Nat × Nat) :=
  if head then
    (s.herd.herd.slots.filter fun x => x.bid != 0 && x.rel.isNone && barSystem s x.bid).map fun x => (x.bid, x.total, x.arrived)
  else
    (((List.range 16).filter fun n =>
        fgeti s pgHERD F.HERD_BAR_ARRIVE n == 1 && fgeti s pgHERD F.HERD_BAR_BID n != 0 &&
          !barPending s (fgeti s pgHERD F.HERD_BAR_BID n)).map fun n =>
      (fgeti s pgHERD F.HERD_BAR_BID n, fgeti s pgHERD F.HERD_BAR_TOTAL n, 1))

/-- What it adds to a barrier's count: an entry counts once. -/
def barCount (s : State) (head : Bool) (bid : Nat) : Nat :=
  match (barBrings s head).find? fun x => x.1 == bid with
  | some x => x.2.2
  | none => 0

/-- One of its barriers that no slot names. -/
def barUnclaimed (s : State) (head : Bool) (bids : List Nat) : Option (Nat × Nat × Nat) :=
  (barBrings s head).find? fun x => !bids.contains x.1

/-- The tick nearest to the present one whose bits [15:0] match. -/
def nearTick (now r : Nat) : Nat :=
  let d := (r + 65536 - now % 65536) % 65536
  if d < 32768 then now + d else now + d - 65536

/-- The release of a barrier is known here: entries wait for its tick. -/
def barReleaseAt (s : State) (bid tick : Nat) : State :=
  if (List.range 16).any (fun n => fgeti s pgHERD F.HERD_BAR_BID n == bid) && !s.herd.rel.contains (bid, tick) then
    putHerd s fun h => { h with rel := h.rel ++ [(bid, tick)] }
  else s

/-- A Bellwether relays a system release into its pod: the slot that holds the barrier, or an empty one, carries it. -/
def barRelay (s : State) (bid tick : Nat) : State :=
  if ringActing s false ≠ 1 then s
  else
    let r := s.herd.herd
    let k := (r.slots.findIdx? fun x => x.bid == bid).orElse fun _ => r.slots.findIdx? fun x => x.bid == 0
    match k with
    | some k =>
      let x := lget r.slots k {}
      barReleaseAt (putRingSt s false { r with slots := r.slots.set k { x with bid := bid, rel := some tick } }) bid tick
    | none => barReleaseAt s bid tick

/-- The six bytes of a slot. -/
def syncBytes (bid rel arrived total : Nat) : List Byte :=
  leBytes 2 (bid + rel * 2 ^ 15) ++ leBytes 2 arrived ++ leBytes 2 total

/-- A slot of a frame: BID, REL, ARRIVED or the release tick, TOTAL. -/
def slotOfFrame (f : List Byte) (k : Nat) : Nat × Nat × Nat × Nat :=
  let w := frameField f (9 + 6 * k) 2
  (w % 2 ^ 15, w / 2 ^ 15, frameField f (11 + 6 * k) 2, frameField f (13 + 6 * k) 2)

def frameBids (f : List Byte) : List Nat := (List.range 4).map fun k => (slotOfFrame f k).1

/-- A member's part in slot `k` of a good frame: what it sends on. -/
def slotMember (s : State) (head : Bool) (f : List Byte) (sent : List Nat) (k : Nat) : List Byte × State :=
  let x := slotOfFrame f k
  if x.1 = 0 then
    match barUnclaimed s head (frameBids f ++ sent) with
    | some b => (syncBytes b.1 0 0 b.2.1, s)
    | none => (syncBytes 0 0 0 0, s)
  else if x.2.1 = 1 then
    let t := nearTick (herdTick s) x.2.2.1
    (syncBytes x.1 1 x.2.2.1 x.2.2.2, if head then barRelay s x.1 t else barReleaseAt s x.1 t)
  else (syncBytes x.1 0 (x.2.2.1 + barCount s head x.1) x.2.2.2, s)

/-- The four slots at a member. -/
def slotsMember (s : State) (head : Bool) (f : List Byte) : List Byte × State :=
  (List.range 4).foldl (fun (a : List Byte × State) k =>
    let sent := (List.range k).map fun j => leNat (slice a.1 (6 * j) 2) % 2 ^ 15
    let r := slotMember a.2 head f sent k
    (a.1 ++ r.1, r.2)) ([], s)

/-- Slot `k` of a good frame that returns to the master. -/
def slotMaster (s : State) (head : Bool) (f : List Byte) (k : Nat) : State :=
  let r := getRingSt s head
  let was := lget r.slots k {}
  let x := slotOfFrame f k
  let put (y : SyncSlot) : State := putRingSt s head { r with slots := r.slots.set k y }
  match was.rel with
  | some _ => if x.2.1 = 1 then put {} else s
  | none =>
    if x.1 = 0 then
      match barUnclaimed s head (frameBids f ++ r.slots.map (·.bid)) with
      | some b => put { bid := b.1, total := b.2.1, since := herdTick s }
      | none => put {}
    else
      let n := x.2.2.1 + barCount s head x.1
      let done := n == x.2.2.2 && (head || !barSystem s x.1)
      put { bid := x.1, arrived := n, total := x.2.2.2, since := if was.bid = x.1 then was.since else herdTick s,
            rel := if done then some 0 else none }

/-- The slots a master sends at tick `t`: a completed barrier's release tick is fixed as it is sent, TNUM + 4 on a Herd
ring and TNUM + 16 on the head ring. A release goes in every frame until one returns good or its tick comes
(log 36). -/
def slotsSend (s : State) (head : Bool) (t : Nat) : List Byte × State :=
  (List.range 4).foldl (fun (a : List Byte × State) k =>
    let r := getRingSt a.2 head
    let x := lget r.slots k {}
    match x.rel with
    | none => (a.1 ++ syncBytes x.bid 0 0 x.total, a.2)
    | some t0 =>
      let t1 := if t0 = 0 then t + (if head then 16 else 4) else t0
      if t1 ≤ t then (a.1 ++ syncBytes 0 0 0 0, putRingSt a.2 head { r with slots := r.slots.set k {} })
      else
      let s := putRingSt a.2 head { r with slots := r.slots.set k { x with rel := some t1 } }
      let s := if t0 = 0 then (if head then barRelay s x.bid t1 else barReleaseAt s x.bid t1) else s
      (a.1 ++ syncBytes x.bid 1 (t1 % 65536) x.total, s)) ([], s)

/-- A slot not completed within 4,096 ticks is emptied by the master. -/
def execBarrierSlotExpire (head : Bool) (slot : Nat) (s : State) : Out :=
  .next (
    let r := getRingSt s head
    let x := lget r.slots slot {}
    if r.acting = 1 ∧ x.bid ≠ 0 ∧ x.rel.isNone ∧ x.since + 4096 ≤ herdTick s then
      bump (putRingSt s head { r with slots := r.slots.set slot {} }) pgHERD 11
    else s)

/-! ## Messages on the ring (R505) -/

def emptyMsg : List Byte := List.replicate 220 0

/-- The same message: TYPE, SRC, DST and SEQ. -/
def msgSame (a b : List Byte) : Bool :=
  msgType a == msgType b && msgSrc a == msgSrc b && msgDst a == msgDst b && msgSeq a == msgSeq b

/-- A message in flight is back: taken or refused ends it, and one still in flight or in a bad frame is sent again, at
most three times. -/
def msgBack (s : State) (m : HerdMsg) (state : Nat) (bad : Bool) : State :=
  let drop (l : List HerdMsg) : List HerdMsg := l.erase m
  if (bad || state == 1) && m.tries < 3 then
    bump (putHerd s fun h => { h with send := h.send.map fun x => if x = m then { m with flying := false, tries := m.tries + 1 } else x })
      pgHERD 9
  else
    let s := putHerd s fun h => { h with send := drop h.send }
    if m.soft then fput s pgHERD F.HERD_MSGCTL_OUT_STS (if bad then 1 else state) else s

def execMsgReturn (state : Nat) (bad : Bool) (s : State) : Out :=
  .next (match s.herd.send.find? fun x => x.flying with
    | some m => if 1 ≤ state ∧ state ≤ 3 then msgBack s m state bad else s
    | none => s)

/-- The package is its pod's Bellwether on both rings. -/
def isBellwether (s : State) : Bool := ringJoined s false && ringActing s false == 1 && ringJoined s true

/-- A message's destination is this package. -/
def msgMine (s : State) (head : Bool) (dst : Nat) : Bool :=
  dst == selfPkg s || dst == 0xFFFF || (!head && (dst == 0xFFFE || (dst == 0xFFFD && ringActing s false == 1)))

/-- A Bellwether passes on what lies beyond the ring it came on. -/
def msgRelays (s : State) (head : Bool) (dst : Nat) : Bool :=
  isBellwether s && (dst == 0xFFFF || (dst < 2 ^ 15 && dst != selfPkg s && Config.podMember dst == head))

/-- A message of a good frame passes this package: it copies it when it is meant, relays it when it is a Bellwether,
and sets STATE, keeping SEEN. -/
def msgPass (s : State) (head : Bool) (m : List Byte) : List Byte × State :=
  let seen := msgState m / 128 * 128
  let r := if msgRelays s head (msgDst m) then (some 2, msgQueue s (!head) false (msgWithState m 1)) else (none, s)
  let r := if msgMine r.2 head (msgDst m) then
      (let d := msgDeliver r.2 m; (some (if d.1 then 2 else 3), d.2)) else r
  (match r.1 with | some st => msgWithState m (seen + st) | none => m, r.2)

/-- The message that a ring's next free field takes: the oldest that waits, while none is in flight. -/
def msgInsert (s : State) (head : Bool) : List Byte × State :=
  if s.herd.send.any fun x => x.flying then (emptyMsg, s)
  else match s.herd.send.find? fun x => x.head == head with
    | none => (emptyMsg, s)
    | some m =>
      let s := if m.tries = 0 then bump s pgHERD 7 else s
      (m.bytes, putHerd s fun h => { h with send := { m with flying := true } :: h.send.erase m })

/-- The MSG field of a good frame at a package. -/
def msgField (s : State) (head : Bool) (m : List Byte) : List Byte × State :=
  if msgType m = 0 then (if (getRingSt s head).acting = 1 then (emptyMsg, s) else msgInsert s head)
  else match s.herd.send.find? fun x => x.flying && x.head == head && msgSame x.bytes m with
    | some x => (emptyMsg, msgBack s x (msgState m % 128) false)
    | none =>
      if msgSrc m = selfPkg s then (emptyMsg, s)
      else if (getRingSt s head).acting = 1 then
        if 128 ≤ msgState m then (emptyMsg, s)
        else
          let r := msgPass s head m
          (msgWithState r.1 (msgState r.1 + 128), r.2)
      else msgPass s head m

/-! ## Tick frames (R489, R490) -/

/-- A tick frame's arrival is noted. -/
def ringHeard (s : State) (head good : Bool) : State :=
  let r := getRingSt s head
  let t := herdTick s
  putRingSt s head { r with heard := t, good := if good then t else r.good }

/-- A tick frame at a member: Herd time, the barriers, the message, and the frame goes on. -/
def tickMember (s : State) (head : Bool) (f : List Byte) : State :=
  let s := if timeRing s = some head then timeCorrect s head (frameField f 1 8) else s
  let s := ringHeard s head true
  let b := slotsMember s head f
  let m := msgField b.2 head (slice f 33 220)
  settleHerd (emit m.2 (.ringFrame head (frameOf symTICK (slice f 1 8 ++ b.1 ++ m.1) false)))

/-- A tick frame that returns to its master: the barriers and the message. -/
def tickMaster (s : State) (head : Bool) (f : List Byte) : State :=
  let s := ringHeard s head true
  let s := (List.range 4).foldl (fun s k => slotMaster s head f k) s
  let m := msgField s head (slice f 33 220)
  let r := getRingSt m.2 head
  settleHerd (putRingSt m.2 head { r with carry := if msgType m.1 = 0 then [] else m.1 })

def execTickFrame (head : Bool) (frame : List Byte) (bad : Bool) (s : State) : Out :=
  .next (
    let r := getRingSt s head
    let good := frameGood frame symTICK bad
    if !ringOn s head then s
    else if r.acting = 1 then
      (if good then tickMaster s head frame else bump (ringHeard s head false) pgHERD 0)
    else if r.mute then emit (ringHeard s head false) (.ringHold head)
    else if good then tickMember s head frame
    else frameBadOn (ringHeard s head false) head frame symTICK)

/-! ## The master's tick edge (R489, R498) -/

/-- A master has waited long enough, with its input locked, to recount. -/
def recountDue (s : State) (head : Bool) : Bool :=
  let r := getRingSt s head
  ringOn s head && r.acting == 1 && r.phase == 0 &&
    (match r.wait with | some t => t + 16 ≤ herdTick s | none => false)

/-- The master's tick frame. A master on its own clock leaves holdover as it sends its first (R574). -/
def tickSend (s : State) (head : Bool) : State :=
  let t := herdTick s
  let s := if timeRing s = none then fput s pgHERD (holdoverField head) 0 else s
  let b := slotsSend s head t
  let c := (getRingSt b.2 head).carry
  let m := if c = [] then msgInsert b.2 head else (c, putRingSt b.2 head { getRingSt b.2 head with carry := [] })
  emit m.2 (.ringFrame head (frameOf symTICK (leBytes 8 t ++ b.1 ++ m.1) false))

/-- The phase-2 frame: N, WMEAS and WNOM. -/
def phase2Send (s : State) (head : Bool) : State :=
  let r := getRingSt s head
  let p := r.p2
  emit (putRingSt s head { r with phase := 3 }) (.ringFrame head (frameOf symRCNT
    (leBytes 8 (herdTick s) ++ leBytes 1 2 ++ leBytes 2 p.1 ++ leBytes 5 0 ++ leBytes 4 p.2.1 ++ leBytes 4 p.2.2) false))

/-- What a joined master sends at a tick edge: a tick frame, or the phase-2 frame when it is due; the phase-1 frame
is RECOUNT_START's. -/
def masterEdge (s : State) (head : Bool) : State :=
  let r := getRingSt s head
  if !ringJoined s head || r.acting != 1 then s
  else if r.phase = 2 then phase2Send s head
  else if r.phase = 0 ∧ !recountDue s head then tickSend s head
  else s

/-- A Herd tick edge (R502): the counter reaches the next whole tick and its work is done, unless it stands under R493. -/
def execHerdTickEdge (s : State) : Out :=
  .next (if s.herd.stopped && (timeRing s).isSome then s
  else
    let s := fputPair s pgHERD F.HERD_TIME_LO_TIME_LO F.HERD_TIME_HI_TIME_HI 0 ((herdTick s + 1) * 256)
    let s := settleHerd s
    let s := (List.range 2).foldl (fun s h => ptpTick s h) s
    masterEdge (masterEdge s true) false)

/-- Four ticks without a good tick frame (R495): the counter runs on by itself. -/
def execHoldoverEnter (head : Bool) (s : State) : Out :=
  .next (if timeRing s = some head ∧ (getRingSt s head).good + 4 ≤ herdTick s ∧ !fbit s pgHERD (holdoverField head) then
    bump (putHerd (holdoverSet s head 1) fun h => { h with stopped := false }) pgHERD 2
  else s)

/-! ## Membership and recount (R486, R497 to R499) -/

/-- A member loses input lock. -/
def execHerdLockLoss (head : Bool) (s : State) : Out := .next (if ringOn s head then inputLost s head else s)

def execHerdRelock (head : Bool) (s : State) : Out :=
  .next (if ringJoined s head then fput s pgHERD (lockedField head) 1 else s)

/-- HOLD arrives: a member forwards it; a master waits to recount, except for what was sent ahead of its phase-1 frame. -/
def execHoldReceived (head : Bool) (s : State) : Out :=
  .next (if !ringOn s head then s
  else
    let r := getRingSt s head
    if r.acting ≠ 1 then emit s (.ringHold head)
    else if r.phase = 1 ∨ (r.phase = 0 ∧ r.wait.isSome) then s
    else putRingSt s head { r with wait := some (herdTick s), phase := 0 })

/-- A standby that has heard neither TICK nor RCNT for 64 ticks becomes the acting master. -/
def execStandbyTakeover (head : Bool) (s : State) : Out :=
  .next (
    let r := getRingSt s head
    if ringJoined s head ∧ r.acting = 2 ∧ r.heard + 64 ≤ herdTick s then
      let s := setActing s head 1
      putRingSt s head { r with acting := 1, mute := false, phase := 0, wait := if r.mute then some (herdTick s) else none }
    else s)

/-- RECOUNTING is a field of the Herd ring alone. -/
def recounting (s : State) (head : Bool) (v : Nat) : State := if head then s else fput s pgHERD F.HERD_STS_RECOUNTING v

/-- A ring's slot and number of slots (R484). -/
def ringSlot (s : State) (head : Bool) : Nat := fget s pgHERD (if head then F.HEAD_CTL_SLOT else F.HERD_CTL_SLOT)
def ringSlots (s : State) (head : Bool) : Nat := fget s pgHERD (if head then F.HEAD_CTL_NSLOTS else F.HERD_CTL_NSLOTS) + 1

/-- LINK and BYP of a slot. -/
def linkDelay (s : State) (head : Bool) (k : Nat) : Nat := tblEntry s head k % 2 ^ 16
def bypDelay (s : State) (head : Bool) (k : Nat) : Nat := tblEntry s head k / 2 ^ 16

/-- The nominal delay from the sender in slot `u` to this package (R499): the bypassed slots strictly between, and the
wire into its own. -/
def gapDelay (s : State) (head : Bool) (u : Nat) : Nat :=
  let n := ringSlots s head
  let m := ringSlot s head
  let gap := (m + n - u % n + n - 1) % n
  (((List.range gap).map fun j => (u + 1 + j) % n).map fun k => linkDelay s head k + bypDelay s head k).foldl (· + ·) 0 +
    linkDelay s head m

/-- The phase-1 frame of a master. -/
def phase1Frame (s : State) (head : Bool) : List Byte :=
  frameOf symRCNT (leBytes 8 (herdTick s) ++ leBytes 1 1 ++ leBytes 2 0 ++ leBytes 1 (ringSlot s head) ++ leBytes 4 0 ++
    leBytes 8 0 ++ leBytes 2 (selfPkg s) ++ leBytes 2 (fget s pgHERD F.HERD_MASTERS_HEAD_PKG)) false

/-- The master starts a recount. -/
def execRecountStart (head : Bool) (s : State) : Out :=
  .next (if recountDue s head then
    let s := recounting (putRingSt s head { getRingSt s head with phase := 1, wait := none }) head 1
    let s := if head then fput s pgHERD F.HERD_MASTERS_HEAD_PKG (selfPkg s) else fput s pgHERD F.HERD_MASTERS_MASTER_PKG (selfPkg s)
    emit s (.ringFrame head (phase1Frame s head))
  else s)

/-- A bad recount frame starts the master's wait again. -/
def recountAgain (s : State) (head : Bool) : State :=
  bump (putRingSt s head { getRingSt s head with phase := 0, wait := some (herdTick s) }) pgHERD 0

/-- POS of a ring's status register. -/
def posSet (s : State) (head : Bool) (i : Nat) : State := fput s pgHERD (if head then F.HEAD_STS_POS else F.HERD_STS_POS) i

/-- Phase 1 at a member: its position, the delay sum, and the frame goes on (R499). -/
def phase1Member (s : State) (head : Bool) (f : List Byte) : State :=
  let i := frameField f 10 2 + 1
  let sum := (frameField f 13 4 + gapDelay s head (frameField f 12 1)) % 2 ^ 32
  let r := getRingSt s head
  let s := putRingSt s head { r with sum := sum, mute := false, heard := herdTick s,
                                     p2 := (frameField f 25 2, frameField f 27 2, 0) }
  let s := recounting (posSet s head i) head 1
  emit s (.ringFrame head (frameOf symRCNT
    (slice f 1 9 ++ leBytes 2 i ++ leBytes 1 (ringSlot s head) ++ leBytes 4 sum ++ slice f 17 236) false))

/-- Phase 1 back at its master: N, WMEAS and WNOM, with the measured round trip `loop` in 1/64 symbol. -/
def phase1Master (s : State) (head : Bool) (f : List Byte) (loop : Nat) : State :=
  let n := frameField f 10 2 + 1
  let wmeas := (loop + 2 ^ 32 - 64 * (n - 1)) % 2 ^ 32
  let wnom := (frameField f 13 4 + gapDelay s head (frameField f 12 1)) % 2 ^ 32
  let dev := if wmeas < wnom then wnom - wmeas else wmeas - wnom
  let s := putRingSt s head { getRingSt s head with phase := 2, p2 := (n, wmeas, wnom) }
  let s := if 64 < dev then fput s pgHERD F.HERD_STS_CAL_DEV 1 else s
  if head then s
  else fput (fput s pgHERD F.HERD_LOOP_WMEAS wmeas) pgHERD F.HERD_LOOP_WNOM wnom

/-- A master that meets a lower master's frame becomes a standby (R486). -/
def masterYields (s : State) (head : Bool) : State :=
  let s := putRingSt s head { getRingSt s head with phase := 0, wait := none, carry := [], slots := List.replicate 4 {} }
  fput (setActing s head 2) pgHERD F.HERD_STS_MASTER_CONFLICT 1

def execRecountPhase1 (head : Bool) (frame : List Byte) (bad : Bool) (loop : Nat) (s : State) : Out :=
  .next (
    let good := frameGood frame symRCNT bad && frameField frame 9 1 == 1
    let r := getRingSt s head
    if !ringOn s head then s
    else if r.acting = 1 then
      if !good then (if r.phase = 1 then recountAgain s head else bump s pgHERD 0)
      else if frameField frame 25 2 < selfPkg s then phase1Member (masterYields s head) head frame
      else if frameField frame 25 2 = selfPkg s ∧ r.phase = 1 then phase1Master s head frame loop
      else s
    else if good then phase1Member s head frame
    else frameBadOn (putRingSt s head { r with mute := false, heard := herdTick s }) head frame symRCNT)

/-- The position delay of R499, in 1/64 symbol. -/
def recountDelay (i sum n wmeas wnom : Nat) : Nat :=
  let x := if wnom = 0 then (i, n) else (sum, wnom)
  64 * (i - 1) + (2 * x.1 * wmeas + x.2) / (2 * x.2)

/-- Phase 2 at a member: its delay, N and the masters. -/
def phase2Member (s : State) (head : Bool) (f : List Byte) : State :=
  let r := getRingSt s head
  let n := frameField f 10 2
  let i := fget s pgHERD (if head then F.HEAD_STS_POS else F.HERD_STS_POS)
  let d := recountDelay i r.sum n (frameField f 17 4) (frameField f 21 4)
  let s := putRingSt s head { r with heard := herdTick s }
  let s := fput s pgHERD (if head then F.HERD_DLY_HEAD_DLY else F.HERD_DLY_POS_DLY) d
  let s := fput s pgHERD (if head then F.HEAD_STS_MEMBERS else F.HERD_STS_MEMBERS) n
  let s := if head then fput s pgHERD F.HERD_MASTERS_HEAD_PKG r.p2.1
    else fput (fput s pgHERD F.HERD_MASTERS_MASTER_PKG r.p2.1) pgHERD F.HERD_MASTERS_HEAD_PKG r.p2.2.1
  emit (bump (recounting s head 0) pgHERD 1) (.ringFrame head (frameOf symRCNT (frameBody f) false))

/-- Phase 2 back at its master: tick frames resume at the next edge (R500). -/
def phase2Master (s : State) (head : Bool) : State :=
  let r := getRingSt s head
  let s := putRingSt s head { r with phase := 0, wait := none, heard := herdTick s }
  let s := fput (posSet s head 0) pgHERD (if head then F.HEAD_STS_MEMBERS else F.HERD_STS_MEMBERS) r.p2.1
  let s := fput s pgHERD (if head then F.HERD_DLY_HEAD_DLY else F.HERD_DLY_POS_DLY) 0
  bump (recounting s head 0) pgHERD 1

def execRecountPhase2 (head : Bool) (frame : List Byte) (bad : Bool) (s : State) : Out :=
  .next (
    let good := frameGood frame symRCNT bad && frameField frame 9 1 == 2
    let r := getRingSt s head
    if !ringOn s head then s
    else if r.acting = 1 then
      if !good then (if r.phase = 3 then recountAgain s head else bump s pgHERD 0)
      else if r.phase = 3 then phase2Master s head
      else s
    else if good then phase2Member s head frame
    else frameBadOn (putRingSt s head { r with heard := herdTick s }) head frame symRCNT)

end Sys2Proof.Machine
end

