-- ==== Sys2Proof/Machine/Links.lean ====
section
/-! DEFINITION. What comes in by a host link: BAR0 and BAR2 (R306, R308), peer windows (R309 to R311), the requests of
devices below a root port (R308) and CXL.mem (R305); and the ends of chunk moves, which let held writes go (R311). -/

namespace Sys2Proof.Machine

open Sys2Proof

/-- What the limits of R304 allow in one TLP: 512 B of data, or a read of 4 KiB. A larger one is refused
(notes/assumptions/140.md). -/
def tlpOk (len : Nat) (write : Option (List Byte)) : Bool :=
  match write with
  | some bs => bs.length ≤ 512
  | none => len ≤ 4096

/-- Refuse an inbound TLP and count it; a read is answered with the code. -/
def tlpRefuse (s : State) (link code : Nat) (write : Option (List Byte)) : State :=
  let s := bump s (pgHOSTL link) 1
  match write with
  | none => { s with resp := { code := code } }
  | some _ => s

/-! ## Writes that a link holds (R311) -/

def heldOf (s : State) (link : Nat) : List PeerWait := mgetD s.host.peer link []

def putPeer (s : State) (link : Nat) (ws : List PeerWait) : State :=
  let h := s.host
  { s with host := { h with peer := mput h.peer link ws } }

/-- Perform an inbound write: a failure is seen by nobody, and a tier F line that is down keeps its bytes (R316). -/
def peerDo (s : State) (link : Nat) (x : PeerWait) : State :=
  match x with
  | .data pa bs p => if busDown s pa bs.length then s else (busWrite s pa bs p false).1
  | .bell c t n => bump (tallyAdd s c t n) (pgHOSTL link) 4
  | .reg src page off width v => settleHerd (srcWrite s src page off width v)

/-- A held write may go: none of its lines is under a move, and no target makes it wait. -/
def peerReady (s : State) (x : PeerWait) : Bool :=
  match x with
  | .data pa bs _ => !busWaits s pa bs.length
  | .bell _ _ _ => true
  | .reg _ _ _ _ _ => true

/-- Perform what a link holds, in order, up to the first write that must still wait (R311). -/
def peerDrainList (s : State) (link : Nat) : List PeerWait → State
  | [] => putPeer s link []
  | x :: rest => if peerReady s x then peerDrainList (peerDo s link x) link rest else putPeer s link (x :: rest)

def peerDrain (s : State) (link : Nat) : State := peerDrainList s link (heldOf s link)

/-- An inbound write arrives on its link: it is performed, or waits behind what the link holds. -/
def peerArrive (s : State) (link : Nat) (x : PeerWait) : State :=
  peerDrain (putPeer s link (heldOf s link ++ [x])) link

/-- The end of a chunk move lets the held writes of every link go (R251, R311). -/
def drainPeers (s : State) : State := (List.range 4).foldl peerDrain s

/-! ## Peer windows (R309 to R311) -/

/-- An access outside a window's range (R309). -/
def peerOutside (s : State) (link w ctr : Nat) : State :=
  bump (fputi s (pgHOSTL link) F.HOSTL_PEER_ERR w 1) (pgHOSTL link) ctr

/-- A data write at slot offset `off` of a peer window (R309). -/
def peerWrite (s : State) (link w off : Nat) (data : List Byte) (poison : Bool) : State :=
  let pg := pgHOSTL link
  let s := bump (if poison then bump s pg 6 else s) pg 0
  if !fbiti s pg F.HOSTL_PEER_ENABLE w || !fbiti s pg F.HOSTL_PEER_WR w then bump s pg 3
  else if peerLen s link w < off + data.length then peerOutside s link w 3
  else peerArrive s link (.data (peerBase s link w + off) data poison)

/-- A write to a window's doorbell page, at `off` within the page (R310). -/
def peerBell (s : State) (link w off : Nat) (data : List Byte) : State :=
  let pg := pgHOSTL link
  let s := bump s pg 0
  if !fbiti s pg F.HOSTL_PEER_ENABLE w || off != 0 || !(data.length == 4 || data.length == 8) then bump s pg 5
  else peerArrive s link (.bell (fgeti s pg F.HOSTL_PEER_CTX w) (fgeti s pg F.HOSTL_PEER_TALLY w) (leNat (slice data 0 4)))

def doorbellOff : Nat := 0xFFFFF000

/-- A read through a peer window (R309); it follows the writes its link holds. A read of the doorbell page is refused as one
without RD is, and sets no ERR (notes/assumptions/141.md). -/
def peerRead (s : State) (link w off len : Nat) : State :=
  let pg := pgHOSTL link
  if !fbiti s pg F.HOSTL_PEER_ENABLE w || !fbiti s pg F.HOSTL_PEER_RD w || doorbellOff ≤ off then
    tlpRefuse s link stPERM none
  else if peerLen s link w < off + len then { peerOutside s link w 1 with resp := { code := stPERM } }
  else
    let s := peerDrain s link
    if heldOf s link != [] || busWaits s (peerBase s link w + off) len then s
    else
      let r := busRead (bump s pg 0) (peerBase s link w + off) len false
      { r.1 with resp := { data := r.2.1, poison := r.2.2 } }

def execPeerWindowWrite (link win off : Nat) (data : List Byte) (poison : Bool) (s : State) : Out :=
  .next (if link < 4 ∧ win < 16 ∧ linkUp s link ∧ off < doorbellOff then
    if tlpOk 0 (some data) then peerWrite s link win off data poison else tlpRefuse s link stPERM (some data)
  else s)

def execPeerWindowRead (link win off len : Nat) (s : State) : Out :=
  .next (if link < 4 ∧ win < 16 ∧ linkUp s link then
    if tlpOk len none then peerRead s link win off len else tlpRefuse s link stPERM none
  else s)

def execPeerDoorbell (link win off : Nat) (data : List Byte) (s : State) : Out :=
  .next (if link < 4 ∧ win < 16 ∧ linkUp s link then
    if tlpOk 0 (some data) then peerBell s link win off data else tlpRefuse s link stPERM (some data)
  else s)

/-! ## Inbound accesses (R305, R306, R308) -/

/-- A BAR2 access's physical address, and the fold that confines it (R306). -/
def bar2Pa (s : State) (link fn off : Nat) : Option (Nat × Option Nat) :=
  if fn = 0 then
    if off < 2 ^ 32 then some (fget s (pgHOSTL link) F.HOSTL_BAR2_BASE * twoMiB + off, none) else none
  else if fn < 64 ∧ off < 2 ^ 28 ∧ fbiti s (pgHOSTL link) F.HOSTL_VF_ENABLE fn then
    some (fgeti s (pgHOSTL link) F.HOSTL_VF_WIN_BASE fn * 2 ^ 28 + off, some (fgeti s (pgHOSTL link) F.HOSTL_VF_FOLD fn))
  else none

/-- A BAR2 access is refused (R308). -/
def bar2Refused (s : State) (pa n : Nat) (fold : Option Nat) : Bool :=
  !busPlain s pa n || inAnyComp s pa || inAnyComp s (pa + n - 1) ||
    (match fold with | some f => !foldMayReach s f pa n | none => false)

/-- Count an inbound TLP that is accepted, and its poison bit (R304, R322). -/
def tlpAccept (s : State) (link : Nat) (poison : Bool) : State :=
  bump (if poison then bump s (pgHOSTL link) 6 else s) (pgHOSTL link) 0

/-- An inbound read or write of memory that is accepted: a write is performed or held in the link's order (R311); a read
waits behind the writes its link holds, and is answered. -/
def inbound (s : State) (link pa n : Nat) (write : Option (List Byte)) (poison : Bool) : State :=
  match write with
  | some bs => peerArrive (tlpAccept s link poison) link (.data pa bs poison)
  | none =>
    if busWaits s pa n || heldOf s link != [] then s
    else
      let s := tlpAccept s link false
      if busDown s pa n then { s with resp := { code := stTIER } }
      else
        let r := busRead s pa n false
        { r.1 with resp := { data := r.2.1, poison := r.2.2 } }

def bar2Access (s : State) (link fn off len : Nat) (write : Option (List Byte)) (poison : Bool) : State :=
  let n := accLen len write
  let refuse (s : State) : State := tlpRefuse (bump s (pgHOSTL link) 2) link stPERM write
  match bar2Pa s link fn off with
  | none => refuse s
  | some (pa, fold) => if bar2Refused s pa n fold then refuse s else inbound s link pa n write poison

def execBar2Access (link fn off len : Nat) (write : Option TlpData) (s : State) : Out :=
  let bs := write.map (·.bytes)
  .next (if link < 4 ∧ linkUp s link ∧ linkEp s link then
    if tlpOk len bs then bar2Access s link fn off len bs (match write with | some d => d.poison | none => false)
    else tlpRefuse s link stPERM bs
  else s)

/-- The requester and the page of a BAR0 access: the PF reaches every page, a VF the pages of its contexts, one more than
its COUNT field (R306, R322). -/
def bar0Page (s : State) (link fn off : Nat) : Option (Src × Nat) :=
  if fn = 0 then (if off < 2 ^ 32 then some (.pf link, off / 4096) else none)
  else if fn < 64 ∧ fbiti s (pgHOSTL link) F.HOSTL_VF_ENABLE fn ∧
      off / 4096 ≤ fgeti s (pgHOSTL link) F.HOSTL_VF_COUNT fn then
    some (.vf link fn, pgCTX (fgeti s (pgHOSTL link) F.HOSTL_VF_FIRST_CTX fn + off / 4096))
  else none

/-- A BAR0 access reads a register, or writes it after every write that its link holds (R306, R311). -/
def bar0Access (s : State) (link fn off width : Nat) (write : Option (BitVec 64)) : State :=
  match bar0Page s link fn off with
  | none =>
    let s := bump s (pgHOSTL link) 1
    match write with
    | none => reply s (List.replicate (width / 8) 0)
    | some _ => s
  | some (src, page) =>
    let s := tlpAccept s link false
    match write with
    | none => regReadReply s (writerOf s src) page (off % 4096) width
    | some v => peerArrive s link (.reg src page (off % 4096) width v.toNat)

def execBar0Access (link fn off width : Nat) (write : Option (BitVec 64)) (s : State) : Out :=
  .next (if link < 4 ∧ linkUp s link ∧ linkEp s link ∧ (width = 8 ∨ width = 16 ∨ width = 32 ∨ width = 64) then
    bar0Access s link fn off width write
  else s)

/-- The DMA range of a root port that holds an access (R308). -/
def dmaOk (s : State) (link addr n : Nat) : Bool :=
  addr + n ≤ tierFBytes s && (List.range 4).any fun i =>
    fbiti s (pgHOSTL link) F.HOSTL_DMA_LO_VALID i &&
      fgeti s (pgHOSTL link) F.HOSTL_DMA_LO_BASE i * twoMiB ≤ addr &&
      addr + n ≤ (fgeti s (pgHOSTL link) F.HOSTL_DMA_HI_LIMIT i + 1) * twoMiB

/-- A request of a device below a root port: inside the peer aperture, inside a DMA range, or refused as
Unsupported Request (R308). -/
def rpInbound (s : State) (link addr len : Nat) (write : Option (List Byte)) (poison : Bool) : State :=
  let ap := fget s (pgHOSTL link) F.HOSTL_PEERAP_BASE * 2 ^ 36
  let n := accLen len write
  if ap ≤ addr ∧ addr < ap + 2 ^ 36 then
    let w := (addr - ap) / 2 ^ 32
    let off := (addr - ap) % 2 ^ 32
    match write with
    | some bs => if off < doorbellOff then peerWrite s link w off bs poison else peerBell s link w (off - doorbellOff) bs
    | none => peerRead s link w off len
  else if dmaOk s link addr n then inbound s link addr n write poison
  else tlpRefuse s link stHOLE write

def execRpInboundRequest (link addr len : Nat) (write : Option (List Byte)) (poison : Bool) (s : State) : Out :=
  .next (if link < 4 ∧ linkUp s link ∧ !linkEp s link then
    if tlpOk len write then rpInbound s link addr len write poison else tlpRefuse s link stHOLE write
  else s)

/-- An M2S request at an offset of the HDM range (R305). -/
def cxlMem (s : State) (link addr len : Nat) (write : Option (List Byte)) : State :=
  let n := accLen len write
  let pa := fget s (pgHOSTL link) F.HOSTL_HDM_BASE_BASE * 2 ^ 28 + addr
  if !hdmInside s link || fget s (pgHOSTL link) F.HOSTL_HDM_SIZE_SIZE * 2 ^ 28 < addr + n then
    tlpRefuse s link stHOLE write
  else inbound s link pa n write false

def execCxlMemRequest (link addr len : Nat) (write : Option (List Byte)) (s : State) : Out :=
  .next (if cxlOn s link then cxlMem s link addr len write else s)

/-- Every H2D snoop is answered with RspIHitI (R305). -/
def execCxlH2dSnoop (link addr : Nat) (s : State) : Out :=
  .next (if cxlOn s link then emit s (.rspIHitI link addr) else s)

/-! ## Ends of chunk moves, which let held writes go -/

/-- The copy up of a chunk ends, with or without an error (R228, R229). -/
def execChunkCopyUpEnd (fold chunk : Nat) (code : Nat) (s : State) : Out :=
  .next (match findMove s fold chunk true with
    | some m => drainPeers (copyUpEnd s m code)
    | none => s)

/-- The write-back of a chunk ends, with or without an error (R228, R229). -/
def execChunkWritebackEnd (fold chunk : Nat) (code : Nat) (s : State) : Out :=
  .next (match findMove s fold chunk false with
    | some m => drainPeers (writeBackEnd s m code)
    | none => s)

end Sys2Proof.Machine
end

