-- ==== Sys2Proof/Machine/HostAccess.lean ====
section
/-! DEFINITION. Accesses from outside the compute dies: server cores (R293 to R297), management controllers (R179, R512)
and debug ports (R166, R173). -/

namespace Sys2Proof.Machine

open Sys2Proof

/-! ## Server cores -/

/-- A server core can make an access: its host die is out of reset, and the part has not tripped. -/
def coreRuns (s : State) (host core : Nat) : Bool :=
  host < 2 && core < 48 && !fbit s (pgHOSTD host) F.HOSTD_STS_IN_RESET && !clocksStopped s

/-- An access of `n` bytes stays inside one line, as every single access of a core does (log 37). -/
def inOneLine (pa n : Nat) : Bool := 1 ≤ n && pa / 256 == (pa + n - 1) / 256

/-- The fold to which a core is confined. -/
def coreFold (s : State) (host core : Nat) : Option Nat :=
  if fbiti s (pgHOSTD host) F.HOSTD_AUTH_FOLD_VALID core then some (fgeti s (pgHOSTD host) F.HOSTD_AUTH_FOLD core) else none

/-- A core may reach an address (R295). -/
def coreMayReach (s : State) (host core pa n : Nat) : Bool :=
  match regionOf s pa with
  | .regs _ _ => true
  | r =>
    match coreFold s host core with
    | some f =>
      (match r with | .window w _ => (foldWindows s f).testBit w | _ => false) || foldMayReach s f pa n
    | none => fbiti s (pgHOSTD host) F.HOSTD_AUTH_SYS core

/-- What the host die finds before an access leaves it (R296): the syndrome of the first condition met. -/
def coreCheck (s : State) (host core pa n : Nat) (atomic : Bool) : Option Nat :=
  if regionOf s pa = .hole then some 1
  else if inAnyComp s pa || inAnyComp s (pa + n - 1) then some 2
  else if !coreMayReach s host core pa n then some 4
  else if atomic then
    match regionOf s pa with
    | .spad _ _ => some 8
    | .regs _ _ => some 8
    | .window _ _ => some 8
    | _ => none
  else none

/-- The fold stamped on a window request of a core or controller: that of its window (R255). -/
def windowFold (s : State) (w : Nat) : Nat := ((List.range 16).find? fun f => (foldWindows s f).testBit w).getD 0

/-- A width in bytes that register space takes. -/
def regLen (n : Nat) : Bool := n == 1 || n == 2 || n == 4 || n == 8

/-- A core's access to memory (R266, R293): WB goes through the caches of its host die, UC straight to the home. -/
def coreAsker (host : Nat) (how : CoreHow) : Asker := if how.wb then { host := some host } else {}

/-- A tier F line that its host die does not serve (R316): the die is in reset, or the line's channel has failed, as the
access finds. -/
def coreDown (s : State) (how : CoreHow) (pa n : Nat) : Bool :=
  busDown s pa n || (how.failed && regionOf s pa == .tierF)

def coreLoad (s : State) (host core : Nat) (how : CoreHow) (pa n : Nat) : State :=
  let src : Src := .core host core how.priv
  let q := coreAsker host how
  match coreCheck s host core pa n false with
  | some e => hostErr s src e false pa
  | none =>
    match regionOf s pa with
    | .regs page off =>
      if regLen n then regReadReply s (writerOf s src) page off (8 * n)
      else reply (narrowFault s page) (List.replicate n 0)
    | .window w off =>
      if fbiti s pgWIN F.WIN_OUT_ENABLE w then windowRequest s src ((coreFold s host core).getD (windowFold s w)) pa w off n none
      else hostErr s src 6 false pa
    | _ =>
      if coreDown s how pa n then hostErr s src 5 false pa
      else if busWaits s pa n q then s
      else
        let r := busRead s pa n false q how.home
        if r.2.2 then hostErr r.1 src 3 false pa else reply r.1 r.2.1

def execCoreLoad (host core : Nat) (how : CoreHow) (pa len : Nat) (s : State) : Out :=
  .next (if coreRuns s host core && inOneLine pa len then coreLoad s host core how pa len else s)

def coreStore (s : State) (host core : Nat) (how : CoreHow) (pa : Nat) (data : List Byte) : State :=
  let src : Src := .core host core how.priv
  let q := coreAsker host how
  let n := data.length
  match coreCheck s host core pa n false with
  | some e => hostErr s src e false pa
  | none =>
    match regionOf s pa with
    | .regs page off =>
      if regLen n then settleHerd (srcWrite s src page off (8 * n) (leNat data)) else narrowFault s page
    | .window w off =>
      if fbiti s pgWIN F.WIN_OUT_ENABLE w then windowRequest s src ((coreFold s host core).getD (windowFold s w)) pa w off n (some data)
      else hostErr s src 6 true pa
    | _ =>
      if coreDown s how pa n then hostErr s src 5 true pa
      else if busWaits s pa n q then s
      else
        let r := busWrite s pa data false false q how.home
        { r.1 with resp := { poison := r.2 } }

def execCoreStore (host core : Nat) (how : CoreHow) (pa : Nat) (data : List Byte) (s : State) : Out :=
  .next (if coreRuns s host core && inOneLine pa data.length then coreStore s host core how pa data else s)

def coreAtomic (s : State) (host core : Nat) (how : CoreHow) (pa : Nat) (op : AtomOp) (size : Nat)
    (operands : List Byte) : State :=
  let src : Src := .core host core how.priv
  let q := coreAsker host how
  match coreCheck s host core pa size true with
  | some e => hostErr s src e false pa
  | none =>
    if coreDown s how pa size then hostErr s src 5 false pa
    else if busWaits s pa size q then s
    else
      let r := busAtomic s pa op size { bytes := operands, poison := false } q how.home
      if r.2.2 then hostErr r.1 src 3 false pa else reply r.1 r.2.1

def execCoreAtomic (host core : Nat) (how : CoreHow) (pa : Nat) (op : AtomOp) (size : Nat) (operands : List Byte)
    (s : State) : Out :=
  .next (if coreRuns s host core && atomOk pa op size then coreAtomic s host core how pa op size operands else s)

/-- A core access without response within CORE_TMO: what it waited for is given up. -/
def execCoreAccessTimeout (host core pa : Nat) (load : Bool) (s : State) : Out :=
  .next (if coreRuns s host core then
    let gone (o : Outst) : Bool :=
      o.pa == pa && o.load == load && (match o.src with | .core h n _ => h == host && n == core | _ => false)
    hostErr (putFab s fun b => { b with reqs := b.reqs.filter fun e => !gone e.2 }) (.core host core .user) 7 (!load) pa
  else s)

/-! ## Management controllers (R179, R512) -/

def pmcRead (s : State) (pmc : Nat) (secure : Bool) (pa n : Nat) : State :=
  let src : Src := .pmc pmc secure
  match regionOf s pa with
  | .hole => { s with resp := { data := List.replicate n 0, code := stHOLE } }
  | .regs page off =>
    if regLen n then regReadReply s (writerOf s src) page off (8 * n) else reply (narrowFault s page) (List.replicate n 0)
  | .window w off =>
    if fbiti s pgWIN F.WIN_OUT_ENABLE w then windowRequest s src (windowFold s w) pa w off n none
    else { s with resp := { code := stWINDOW } }
  | _ =>
    if busDown s pa n then { s with resp := { code := stTIER } }
    else if busWaits s pa n then s
    else
      let r := busRead s pa n secure
      { r.1 with resp := { data := r.2.1, poison := r.2.2 } }

def pmcWrite (s : State) (pmc : Nat) (secure : Bool) (pa : Nat) (data : List Byte) : State :=
  let src : Src := .pmc pmc secure
  let n := data.length
  match regionOf s pa with
  | .regs page off =>
    if regLen n then settleHerd (srcWrite s src page off (8 * n) (leNat data)) else narrowFault s page
  | r => guarded s src fun s =>
    match r with
    | .hole => { s with resp := { code := stHOLE } }
    | .window w off =>
      if fbiti s pgWIN F.WIN_OUT_ENABLE w then windowRequest s src (windowFold s w) pa w off n (some data)
      else { s with resp := { code := stWINDOW } }
    | _ =>
      if busDown s pa n then { s with resp := { code := stTIER } }
      else if busWaits s pa n then s
      else
        let r := busWrite s pa data false secure
        { r.1 with resp := { poison := r.2 } }

def execPmcMemoryAccess (pmc : Nat) (secure : Bool) (pa len : Nat) (write : Option (List Byte)) (s : State) : Out :=
  .next (if pmc < 2 ∧ inOneLine pa (accLen len write) then
    match write with
    | none => pmcRead s pmc secure pa len
    | some bs => pmcWrite s pmc secure pa bs
  else s)

/-! ## Debug ports (R166) -/

/-- A debug access to a store, at class 5, line by line (R164). -/
def execJtagDebugAccess (die store off len : Nat) (write : Option (List Byte)) (s : State) : Out :=
  let n := accLen len write
  let r : SpadReq :=
    { who := .debug, arrived := 0, off := off, len := n, write := write, view := 0, poison := false, secure := false
      ecc := .clean, eccAt := 0 }
  .next (if die < 16 ∧ store < 82 ∧ 1 ≤ n ∧ off + n ≤ storeSize store ∧ !storeBusy s die (storeOff store + off) n then
    match write with
    | none => spadReqRead s die store r
    | some bs => spadReqWrite s die store r bs
  else s)

end Sys2Proof.Machine
end

