-- ==== Sys2Proof/Machine/Dispatch.lean ====
section
/-! DEFINITION. One arm per command: the meaning of each is its own definition in the family files. -/

namespace Sys2Proof.Machine

open Sys2Proof

def exec (i : Instr) (s : State) : Host.Outcome State Fault Refusal :=
  match i with
  | .registerWrite src addr width value => Sys2Proof.Machine.execRegisterWrite src addr width value s
  | .absentPageAccess src page off write => Sys2Proof.Machine.execAbsentPageAccess src page off write s
  | .pageLock src page => Sys2Proof.Machine.execPageLock src page s
  | .cntClear src page => Sys2Proof.Machine.execCntClear src page s
  | .cntSnapTake src page => Sys2Proof.Machine.execCntSnapTake src page s
  | .cntSnapRelease src page => Sys2Proof.Machine.execCntSnapRelease src page s
  | .counterLowRead src page n => Sys2Proof.Machine.execCounterLowRead src page n s
  | .pairLoWrite src page off value => Sys2Proof.Machine.execPairLoWrite src page off value s
  | .groupPageWrite src page off value => Sys2Proof.Machine.execGroupPageWrite src page off value s
  | .groupErrClear src page bits => Sys2Proof.Machine.execGroupErrClear src page bits s
  | .podGroupWrite src system off value tick => Sys2Proof.Machine.execPodGroupWrite src system off value tick s
  | .hubPacketArrive tile input pkt => Sys2Proof.Machine.execHubPacketArrive tile input pkt s
  | .hubPacketGrant tile output => Sys2Proof.Machine.execHubPacketGrant tile output s
  | .hubPacketUrgent tile id now => Sys2Proof.Machine.execHubPacketUrgent tile id now s
  | .hubStall tile id now => Sys2Proof.Machine.execHubStall tile id now s
  | .bridgeRetry tile other id => Sys2Proof.Machine.execBridgeRetry tile other id s
  | .bridgeLost tile other => Sys2Proof.Machine.execBridgeLost tile other s
  | .herdTickEdge => Sys2Proof.Machine.execHerdTickEdge s
  | .pass u => Sys2Proof.Machine.execPass u s
  | .stationaryFetch u => Sys2Proof.Machine.execStationaryFetch u s
  | .stationaryRowBroadcast u cyc => Sys2Proof.Machine.execStationaryRowBroadcast u cyc s
  | .wavefrontEnter u cyc => Sys2Proof.Machine.execWavefrontEnter u cyc s
  | .accumulatorUpdate u cyc => Sys2Proof.Machine.execAccumulatorUpdate u cyc s
  | .drainRow u => Sys2Proof.Machine.execDrainRow u s
  | .passComplete u => Sys2Proof.Machine.execPassComplete u s
  | .mxaCfgWrite src die pen arr quarter => Sys2Proof.Machine.execMxaCfgWrite src die pen arr quarter s
  | .quarterModeSwitch die pen arr => Sys2Proof.Machine.execQuarterModeSwitch die pen arr s
  | .arrayFreeze die pen arr => Sys2Proof.Machine.execArrayFreeze die pen arr s
  | .arrayFreezeRelease die pen arr cycles => Sys2Proof.Machine.execArrayFreezeRelease die pen arr cycles s
  | .preemptSave u => Sys2Proof.Machine.execPreemptSave u s
  | .resumeInPlace u => Sys2Proof.Machine.execResumeInPlace u s
  | .arrayFault u cause shared => Sys2Proof.Machine.execArrayFault u cause shared s
  | .arraySelfCheckEnd u passed => Sys2Proof.Machine.execArraySelfCheckEnd u passed s
  | .penRun c => Sys2Proof.Machine.execPenRun c s
  | .prepInstruction core => Sys2Proof.Machine.execPrepInstruction core s
  | .prepLoadStore core store off len reg => Sys2Proof.Machine.execPrepLoadStore core store off len reg s
  | .prepViewStore core clear fetch off len reg dst => Sys2Proof.Machine.execPrepViewStore core clear fetch off len reg dst s
  | .prepIssueDesc core port desc => Sys2Proof.Machine.execPrepIssueDesc core port desc s
  | .prepCompletionRead core reg => Sys2Proof.Machine.execPrepCompletionRead core reg s
  | .halt core code => Sys2Proof.Machine.execHalt core code s
  | .vadd core d a b => Sys2Proof.Machine.execVadd core d a b s
  | .vsub core d a b => Sys2Proof.Machine.execVsub core d a b s
  | .vmul core d a b => Sys2Proof.Machine.execVmul core d a b s
  | .vfma core d a b c => Sys2Proof.Machine.execVfma core d a b c s
  | .vmin core d a b => Sys2Proof.Machine.execVmin core d a b s
  | .vmax core d a b => Sys2Proof.Machine.execVmax core d a b s
  | .vdiv core d a b => Sys2Proof.Machine.execVdiv core d a b s
  | .vsqrt core d a => Sys2Proof.Machine.execVsqrt core d a s
  | .vrcp core d a => Sys2Proof.Machine.execVrcp core d a s
  | .vrsqrt core d a => Sys2Proof.Machine.execVrsqrt core d a s
  | .vexp core d a => Sys2Proof.Machine.execVexp core d a s
  | .vlog core d a => Sys2Proof.Machine.execVlog core d a s
  | .vtanh core d a => Sys2Proof.Machine.execVtanh core d a s
  | .vldW core d fmt off scaleOff tScale sat => Sys2Proof.Machine.execVldW core d fmt off scaleOff tScale sat s
  | .vstN core a fmt off scaleOff tScale sat sr => Sys2Proof.Machine.execVstN core a fmt off scaleOff tScale sat sr s
  | .vbenc core a fmt off scaleOff tScale sr => Sys2Proof.Machine.execVbenc core a fmt off scaleOff tScale sr s
  | .vbdec core d fmt off scaleOff tScale => Sys2Proof.Machine.execVbdec core d fmt off scaleOff tScale s
  | .vrsum core d a => Sys2Proof.Machine.execVrsum core d a s
  | .vtrn core => Sys2Proof.Machine.execVtrn core s
  | .hatch die pen => Sys2Proof.Machine.execHatch die pen s
  | .hatchWeightLine die pen resp => Sys2Proof.Machine.execHatchWeightLine die pen resp s
  | .nop c => Sys2Proof.Machine.execNop c s
  | .descList c => Sys2Proof.Machine.execDescList c s
  | .listIssueDesc die pen => Sys2Proof.Machine.execListIssueDesc die pen s
  | .preempt c => Sys2Proof.Machine.execPreempt c s
  | .resume c => Sys2Proof.Machine.execResume c s
  | .tallyWait c => Sys2Proof.Machine.execTallyWait c s
  | .tallyAdd c => Sys2Proof.Machine.execTallyAdd c s
  | .tallySet c => Sys2Proof.Machine.execTallySet c s
  | .genFence c => Sys2Proof.Machine.execGenFence c s
  | .retire c => Sys2Proof.Machine.execRetire c s
  | .tallyAddReg src ctx tally amount => Sys2Proof.Machine.execTallyAddReg src ctx tally amount s
  | .queueDoorbell src ctx q tail => Sys2Proof.Machine.execQueueDoorbell src ctx q tail s
  | .queueEnableWrite src ctx q enable => Sys2Proof.Machine.execQueueEnableWrite src ctx q enable s
  | .queueFetch ctx q => Sys2Proof.Machine.execQueueFetch ctx q s
  | .queueDispatch ctx q => Sys2Proof.Machine.execQueueDispatch ctx q s
  | .unitInputGrant unit => Sys2Proof.Machine.execUnitInputGrant unit s
  | .queueAged ctx q waitedUs => Sys2Proof.Machine.execQueueAged ctx q waitedUs s
  | .completionPost ctx q => Sys2Proof.Machine.execCompletionPost ctx q s
  | .cplErrRetry src ctx q => Sys2Proof.Machine.execCplErrRetry src ctx q s
  | .spadPortGrant die store reqs => Sys2Proof.Machine.execSpadPortGrant die store reqs s
  | .poisonMarkWrite die store gran => Sys2Proof.Machine.execPoisonMarkWrite die store gran s
  | .scrubLine die store gran ecc => Sys2Proof.Machine.execScrubLine die store gran ecc s
  | .storeClear die cause => Sys2Proof.Machine.execStoreClear die cause s
  | .storeClearDone die => Sys2Proof.Machine.execStoreClearDone die s
  | .keepWipe cause => Sys2Proof.Machine.execKeepWipe cause s
  | .keepWipeDone die => Sys2Proof.Machine.execKeepWipeDone die s
  | .memcAccess stack acc ecc => Sys2Proof.Machine.execMemcAccess stack acc ecc s
  | .memcCmdTimeout stack chan => Sys2Proof.Machine.execMemcCmdTimeout stack chan s
  | .memcScrub stack chan ecc => Sys2Proof.Machine.execMemcScrub stack chan ecc s
  | .memcRefresh stack chan => Sys2Proof.Machine.execMemcRefresh stack chan s
  | .memcThermRead stack temp => Sys2Proof.Machine.execMemcThermRead stack temp s
  | .memmapLock src => Sys2Proof.Machine.execMemmapLock src s
  | .tierNZeroDone => Sys2Proof.Machine.execTierNZeroDone s
  | .zsaltWrite src m value => Sys2Proof.Machine.execZsaltWrite src m value s
  | .imbWindowEnd => Sys2Proof.Machine.execImbWindowEnd s
  | .copy c => Sys2Proof.Machine.execCopy c s
  | .fill c => Sys2Proof.Machine.execFill c s
  | .tile c => Sys2Proof.Machine.execTile c s
  | .schedRun c => Sys2Proof.Machine.execSchedRun c s
  | .schedCancel c => Sys2Proof.Machine.execSchedCancel c s
  | .promote c => Sys2Proof.Machine.execPromote c s
  | .release c => Sys2Proof.Machine.execRelease c s
  | .evict c => Sys2Proof.Machine.execEvict c s
  | .droverLineResponse tile engine resp => Sys2Proof.Machine.execDroverLineResponse tile engine resp s
  | .tierRequestTimeout unit => Sys2Proof.Machine.execTierRequestTimeout unit s
  | .chunkCopyUpEnd fold chunk code => Sys2Proof.Machine.execChunkCopyUpEnd fold chunk code s
  | .chunkWritebackEnd fold chunk code => Sys2Proof.Machine.execChunkWritebackEnd fold chunk code s
  | .schedEntryStart c => Sys2Proof.Machine.execSchedEntryStart c s
  | .foldEnable src fold => Sys2Proof.Machine.execFoldEnable src fold s
  | .foldDisable src fold => Sys2Proof.Machine.execFoldDisable src fold s
  | .contextEnable src ctx => Sys2Proof.Machine.execContextEnable src ctx s
  | .contextDisable src ctx => Sys2Proof.Machine.execContextDisable src ctx s
  | .segmentTableFill stream ctx resp => Sys2Proof.Machine.execSegmentTableFill stream ctx resp s
  | .faultRecordWrite fold slot failed => Sys2Proof.Machine.execFaultRecordWrite fold slot failed s
  | .fqbaseWrite src fold hi value => Sys2Proof.Machine.execFqbaseWrite src fold hi value s
  | .faultReplyReplay src fold slot seq => Sys2Proof.Machine.execFaultReplyReplay src fold slot seq s
  | .faultReplyDecline src fold slot seq => Sys2Proof.Machine.execFaultReplyDecline src fold slot seq s
  | .segmentInvalidate src ctx => Sys2Proof.Machine.execSegmentInvalidate src ctx s
  | .segmentInvalidateDone ctx => Sys2Proof.Machine.execSegmentInvalidateDone ctx s
  | .remoteRequestArrive req => Sys2Proof.Machine.execRemoteRequestArrive req s
  | .energySample e => Sys2Proof.Machine.execEnergySample e s
  | .rds agent line ecc => Sys2Proof.Machine.execRds agent line ecc s
  | .rdx agent line ecc => Sys2Proof.Machine.execRdx agent line ecc s
  | .rdcur who line ecc => Sys2Proof.Machine.execRdcur who line ecc s
  | .wrfull who line data poison ecc => Sys2Proof.Machine.execWrfull who line data poison ecc s
  | .wrpart who line mask data poison ecc => Sys2Proof.Machine.execWrpart who line mask data poison ecc s
  | .atomh who addr op size operands ecc => Sys2Proof.Machine.execAtomh who addr op size operands ecc s
  | .snps agent line ecc => Sys2Proof.Machine.execSnps agent line ecc s
  | .snpx agent line ecc => Sys2Proof.Machine.execSnpx agent line ecc s
  | .snpinv agent line ecc => Sys2Proof.Machine.execSnpinv agent line ecc s
  | .snpcur agent line ecc => Sys2Proof.Machine.execSnpcur agent line ecc s
  | .rspi agent line => Sys2Proof.Machine.execRspi agent line s
  | .rsps agent line => Sys2Proof.Machine.execRsps agent line s
  | .rspfwd agent line => Sys2Proof.Machine.execRspfwd agent line s
  | .rspwbpend agent line => Sys2Proof.Machine.execRspwbpend agent line s
  | .datahome agent line => Sys2Proof.Machine.execDatahome agent line s
  | .data agent line => Sys2Proof.Machine.execData agent line s
  | .wbm agent line => Sys2Proof.Machine.execWbm agent line s
  | .cmp agent line => Sys2Proof.Machine.execCmp agent line s
  | .wback agent line => Sys2Proof.Machine.execWback agent line s
  | .done agent line => Sys2Proof.Machine.execDone agent line s
  | .agentEvict agent line => Sys2Proof.Machine.execAgentEvict agent line s
  | .agentAtomic agent addr op size operands => Sys2Proof.Machine.execAgentAtomic agent addr op size operands s
  | .agentDead agent => Sys2Proof.Machine.execAgentDead agent s
  | .reclaimDone tile => Sys2Proof.Machine.execReclaimDone tile s
  | .agentRejoin src tile agents => Sys2Proof.Machine.execAgentRejoin src tile agents s
  | .lockWaysWrite src tile ways => Sys2Proof.Machine.execLockWaysWrite src tile ways s
  | .lockRegionReady tile => Sys2Proof.Machine.execLockRegionReady tile s
  | .coreLoad host core priv pa len => Sys2Proof.Machine.execCoreLoad host core priv pa len s
  | .coreStore host core priv pa data => Sys2Proof.Machine.execCoreStore host core priv pa data s
  | .coreAtomic host core priv pa op size operands => Sys2Proof.Machine.execCoreAtomic host core priv pa op size operands s
  | .coreAccessTimeout host core pa load => Sys2Proof.Machine.execCoreAccessTimeout host core pa load s
  | .biasFlip src value => Sys2Proof.Machine.execBiasFlip src value s
  | .biasFlipDone => Sys2Proof.Machine.execBiasFlipDone s
  | .bar0Access link fn off width write => Sys2Proof.Machine.execBar0Access link fn off width write s
  | .bar2Access link fn off len write => Sys2Proof.Machine.execBar2Access link fn off len write s
  | .rpInboundRequest link addr len write poison => Sys2Proof.Machine.execRpInboundRequest link addr len write poison s
  | .peerWindowWrite link win off data poison => Sys2Proof.Machine.execPeerWindowWrite link win off data poison s
  | .peerWindowRead link win off len => Sys2Proof.Machine.execPeerWindowRead link win off len s
  | .peerDoorbell link win off data => Sys2Proof.Machine.execPeerDoorbell link win off data s
  | .cxlMemRequest link addr len write => Sys2Proof.Machine.execCxlMemRequest link addr len write s
  | .cxlH2dSnoop link addr => Sys2Proof.Machine.execCxlH2dSnoop link addr s
  | .perst link asserted => Sys2Proof.Machine.execPerst link asserted s
  | .linkTrain link width speed => Sys2Proof.Machine.execLinkTrain link width speed s
  | .hostlVfEnable src link vf value => Sys2Proof.Machine.execHostlVfEnable src link vf value s
  | .hostlPeerEnable src link win value => Sys2Proof.Machine.execHostlPeerEnable src link win value s
  | .inlineWrite c => Sys2Proof.Machine.execInlineWrite c s
  | .xhostRead c resp => Sys2Proof.Machine.execXhostRead c resp s
  | .xhostWrite c resp => Sys2Proof.Machine.execXhostWrite c resp s
  | .hostdReset src host => Sys2Proof.Machine.execHostdReset src host s
  | .monitorWatchdog host => Sys2Proof.Machine.execMonitorWatchdog host s
  | .hostdResetExit host => Sys2Proof.Machine.execHostdResetExit host s
  | .tierFZeroDone => Sys2Proof.Machine.execTierFZeroDone s
  | .jobRingDoorbell src host ring tail => Sys2Proof.Machine.execJobRingDoorbell src host ring tail s
  | .sampleBatch host ring => Sys2Proof.Machine.execSampleBatch host ring s
  | .jobNop host ring => Sys2Proof.Machine.execJobNop host ring s
  | .candidateStart host ring position => Sys2Proof.Machine.execCandidateStart host ring position s
  | .candidateDecodeDone host ring position => Sys2Proof.Machine.execCandidateDecodeDone host ring position s
  | .cacheSlotClaim host ring position => Sys2Proof.Machine.execCacheSlotClaim host ring position s
  | .crop host ring position => Sys2Proof.Machine.execCrop host ring position s
  | .centerCrop host ring position => Sys2Proof.Machine.execCenterCrop host ring position s
  | .flipH host ring position => Sys2Proof.Machine.execFlipH host ring position s
  | .resize host ring position => Sys2Proof.Machine.execResize host ring position s
  | .bright host ring position => Sys2Proof.Machine.execBright host ring position s
  | .timeCrop host ring position => Sys2Proof.Machine.execTimeCrop host ring position s
  | .norm host ring position => Sys2Proof.Machine.execNorm host ring position s
  | .positionWrite host ring position => Sys2Proof.Machine.execPositionWrite host ring position s
  | .cacheGenWrite src host ring gen => Sys2Proof.Machine.execCacheGenWrite src host ring gen s
  | .inpPtpstep src host step => Sys2Proof.Machine.execInpPtpstep src host step s
  | .sourceDescriptorRead host source => Sys2Proof.Machine.execSourceDescriptorRead host source s
  | .instantClose host group => Sys2Proof.Machine.execInstantClose host group s
  | .groupEnable src host group value => Sys2Proof.Machine.execGroupEnable src host group value s
  | .sourceEnable src host source value => Sys2Proof.Machine.execSourceEnable src host source value s
  | .flitTransmit port => Sys2Proof.Machine.execFlitTransmit port s
  | .flitTransit port flit => Sys2Proof.Machine.execFlitTransit port flit s
  | .flitReceive port flit crcOk => Sys2Proof.Machine.execFlitReceive port flit crcOk s
  | .ack port flit => Sys2Proof.Machine.execAck port flit s
  | .nak port flit => Sys2Proof.Machine.execNak port flit s
  | .credit port vc credits => Sys2Proof.Machine.execCredit port vc credits s
  | .ackTimer port => Sys2Proof.Machine.execAckTimer port s
  | .rd flit => Sys2Proof.Machine.execRd flit s
  | .wr flit => Sys2Proof.Machine.execWr flit s
  | .wrpartFlit flit => Sys2Proof.Machine.execWrpartFlit flit s
  | .atom flit => Sys2Proof.Machine.execAtom flit s
  | .rdata flit => Sys2Proof.Machine.execRdata flit s
  | .wack flit => Sys2Proof.Machine.execWack flit s
  | .aack flit => Sys2Proof.Machine.execAack flit s
  | .refuse flit => Sys2Proof.Machine.execRefuse flit s
  | .fail flit => Sys2Proof.Machine.execFail flit s
  | .reqResendTimeout tid => Sys2Proof.Machine.execReqResendTimeout tid s
  | .atomTableExpire srcPkg tid => Sys2Proof.Machine.execAtomTableExpire srcPkg tid s
  | .laneFail port lane cause => Sys2Proof.Machine.execLaneFail port lane cause s
  | .spareReq port lane => Sys2Proof.Machine.execSpareReq port lane s
  | .spareAck port => Sys2Proof.Machine.execSpareAck port s
  | .spareAligned port => Sys2Proof.Machine.execSpareAligned port s
  | .portDown port cause lane => Sys2Proof.Machine.execPortDown port cause lane s
  | .pairRetire src bits => Sys2Proof.Machine.execPairRetire src bits s
  | .teamEnable src team value => Sys2Proof.Machine.execTeamEnable src team value s
  | .allreduce c => Sys2Proof.Machine.execAllreduce c s
  | .reduceScatter c => Sys2Proof.Machine.execReduceScatter c s
  | .allgather c => Sys2Proof.Machine.execAllgather c s
  | .broadcast c => Sys2Proof.Machine.execBroadcast c s
  | .alltoall c => Sys2Proof.Machine.execAlltoall c s
  | .collectiveLaunch team cseq => Sys2Proof.Machine.execCollectiveLaunch team cseq s
  | .colData flit => Sys2Proof.Machine.execColData flit s
  | .chunkAck flit => Sys2Proof.Machine.execChunkAck flit s
  | .counts flit => Sys2Proof.Machine.execCounts flit s
  | .beacon flit => Sys2Proof.Machine.execBeacon flit s
  | .abort flit => Sys2Proof.Machine.execAbort flit s
  | .chunkResendTimeout team cseq chunk => Sys2Proof.Machine.execChunkResendTimeout team cseq chunk s
  | .beaconTimer team cseq => Sys2Proof.Machine.execBeaconTimer team cseq s
  | .collectiveDeadline team cseq rank => Sys2Proof.Machine.execCollectiveDeadline team cseq rank s
  | .stepSet c => Sys2Proof.Machine.execStepSet c s
  | .stepSetApply ctx => Sys2Proof.Machine.execStepSetApply ctx s
  | .seedWrite src ctx hi value => Sys2Proof.Machine.execSeedWrite src ctx hi value s
  | .etchRun c => Sys2Proof.Machine.execEtchRun c s
  | .etchBlock tile unit resp => Sys2Proof.Machine.execEtchBlock tile unit resp s
  | .etchAdd tile unit d a b => Sys2Proof.Machine.execEtchAdd tile unit d a b s
  | .etchSub tile unit d a b => Sys2Proof.Machine.execEtchSub tile unit d a b s
  | .etchMul tile unit d a b => Sys2Proof.Machine.execEtchMul tile unit d a b s
  | .etchFma tile unit d a b c => Sys2Proof.Machine.execEtchFma tile unit d a b c s
  | .etchMin tile unit d a b => Sys2Proof.Machine.execEtchMin tile unit d a b s
  | .etchMax tile unit d a b => Sys2Proof.Machine.execEtchMax tile unit d a b s
  | .etchDiv tile unit d a b => Sys2Proof.Machine.execEtchDiv tile unit d a b s
  | .etchSqrt tile unit d a => Sys2Proof.Machine.execEtchSqrt tile unit d a s
  | .etchRsqrt tile unit d a => Sys2Proof.Machine.execEtchRsqrt tile unit d a s
  | .etchRcp tile unit d a => Sys2Proof.Machine.execEtchRcp tile unit d a s
  | .etchAbs tile unit d a => Sys2Proof.Machine.execEtchAbs tile unit d a s
  | .etchNeg tile unit d a => Sys2Proof.Machine.execEtchNeg tile unit d a s
  | .etchSel tile unit d a b c => Sys2Proof.Machine.execEtchSel tile unit d a b c s
  | .etchSign tile unit d a => Sys2Proof.Machine.execEtchSign tile unit d a s
  | .etchMov tile unit d a => Sys2Proof.Machine.execEtchMov tile unit d a s
  | .wsq tile unit a => Sys2Proof.Machine.execWsq tile unit a s
  | .bmaxabs tile unit d a => Sys2Proof.Machine.execBmaxabs tile unit d a s
  | .bsum tile unit d a => Sys2Proof.Machine.execBsum tile unit d a s
  | .runPoolReady tile => Sys2Proof.Machine.execRunPoolReady tile s
  | .etchCombine c => Sys2Proof.Machine.execEtchCombine c s
  | .stateExport c => Sys2Proof.Machine.execStateExport c s
  | .stateImport c => Sys2Proof.Machine.execStateImport c s
  | .seqRun c => Sys2Proof.Machine.execSeqRun c s
  | .seqReleaseForward ctx => Sys2Proof.Machine.execSeqReleaseForward ctx s
  | .seqReleaseBackward ctx => Sys2Proof.Machine.execSeqReleaseBackward ctx s
  | .seqEvalRelease ctx => Sys2Proof.Machine.execSeqEvalRelease ctx s
  | .opReqWrite src die op => Sys2Proof.Machine.execOpReqWrite src die op s
  | .voltageStep die => Sys2Proof.Machine.execVoltageStep die s
  | .droop die => Sys2Proof.Machine.execDroop die s
  | .droopEnd die stretched => Sys2Proof.Machine.execDroopEnd die stretched s
  | .pwrAlert => Sys2Proof.Machine.execPwrAlert s
  | .pwrAlertRelease us => Sys2Proof.Machine.execPwrAlertRelease us s
  | .pwrCapNextWrite src watts => Sys2Proof.Machine.execPwrCapNextWrite src watts s
  | .capApply => Sys2Proof.Machine.execCapApply s
  | .capDecision watts => Sys2Proof.Machine.execCapDecision watts s
  | .tempSensorRead unit temp => Sys2Proof.Machine.execTempSensorRead unit temp s
  | .thermalCeilingUpdate die => Sys2Proof.Machine.execThermalCeilingUpdate die s
  | .thermalTrip source unit temp => Sys2Proof.Machine.execThermalTrip source unit temp s
  | .calWrite src die on => Sys2Proof.Machine.execCalWrite src die on s
  | .marginWrite src die op margin => Sys2Proof.Machine.execMarginWrite src die op margin s
  | .opRetire src die bits => Sys2Proof.Machine.execOpRetire src die bits s
  | .slackRefresh die slack => Sys2Proof.Machine.execSlackRefresh die slack s
  | .hourTick => Sys2Proof.Machine.execHourTick s
  | .queueWatchExpire c => Sys2Proof.Machine.execQueueWatchExpire c s
  | .streamWatchExpire stream => Sys2Proof.Machine.execStreamWatchExpire stream s
  | .runWatchExpire c => Sys2Proof.Machine.execRunWatchExpire c s
  | .unitWatchExpire unit again => Sys2Proof.Machine.execUnitWatchExpire unit again s
  | .agentWatchExpire tile agent => Sys2Proof.Machine.execAgentWatchExpire tile agent s
  | .hubWatchExpire tile id => Sys2Proof.Machine.execHubWatchExpire tile id s
  | .linkWatchExpire port => Sys2Proof.Machine.execLinkWatchExpire port s
  | .dieOfflineWrite src dies => Sys2Proof.Machine.execDieOfflineWrite src dies s
  | .foldFatal fold cause unit detail => Sys2Proof.Machine.execFoldFatal fold cause unit detail s
  | .foldReset src folds trigger => Sys2Proof.Machine.execFoldReset src folds trigger s
  | .foldAbortDone fold => Sys2Proof.Machine.execFoldAbortDone fold s
  | .foldCaptureDone fold => Sys2Proof.Machine.execFoldCaptureDone fold s
  | .foldDrainDone fold => Sys2Proof.Machine.execFoldDrainDone fold s
  | .drainLimitExpire fold removed => Sys2Proof.Machine.execDrainLimitExpire fold removed s
  | .foldClearDone fold => Sys2Proof.Machine.execFoldClearDone fold s
  | .packageFatal cause => Sys2Proof.Machine.execPackageFatal cause s
  | .fatalTimeout => Sys2Proof.Machine.execFatalTimeout s
  | .pkgResetWrite src => Sys2Proof.Machine.execPkgResetWrite src s
  | .tickFrame head frame bad => Sys2Proof.Machine.execTickFrame head frame bad s
  | .herdLockLoss head => Sys2Proof.Machine.execHerdLockLoss head s
  | .herdRelock head => Sys2Proof.Machine.execHerdRelock head s
  | .holdReceived head => Sys2Proof.Machine.execHoldReceived head s
  | .recountStart head => Sys2Proof.Machine.execRecountStart head s
  | .recountPhase1 head frame bad loop => Sys2Proof.Machine.execRecountPhase1 head frame bad loop s
  | .recountPhase2 head frame bad => Sys2Proof.Machine.execRecountPhase2 head frame bad s
  | .standbyTakeover head => Sys2Proof.Machine.execStandbyTakeover head s
  | .holdoverEnter head => Sys2Proof.Machine.execHoldoverEnter head s
  | .herdJoin src head join => Sys2Proof.Machine.execHerdJoin src head join s
  | .herdTimeWrite src value => Sys2Proof.Machine.execHerdTimeWrite src value s
  | .eventArm src entry ctrl => Sys2Proof.Machine.execEventArm src entry ctrl s
  | .eventDisarm src bits => Sys2Proof.Machine.execEventDisarm src bits s
  | .eventRegWrite entry => Sys2Proof.Machine.execEventRegWrite entry s
  | .eventTallyAdd entry => Sys2Proof.Machine.execEventTallyAdd entry s
  | .eventIrq entry => Sys2Proof.Machine.execEventIrq entry s
  | .barrierArrive src bar => Sys2Proof.Machine.execBarrierArrive src bar s
  | .barrierRelease bid tick => Sys2Proof.Machine.execBarrierRelease bid tick s
  | .barrierSlotExpire head slot => Sys2Proof.Machine.execBarrierSlotExpire head slot s
  | .msgSend src => Sys2Proof.Machine.execMsgSend src s
  | .msgReturn state bad => Sys2Proof.Machine.execMsgReturn state bad s
  | .msgInPop src => Sys2Proof.Machine.execMsgInPop src s
  | .msgRegWrite msg => Sys2Proof.Machine.execMsgRegWrite msg s
  | .msgRegRead msg => Sys2Proof.Machine.execMsgRegRead msg s
  | .msgEvent msg => Sys2Proof.Machine.execMsgEvent msg s
  | .msgCap msg => Sys2Proof.Machine.execMsgCap msg s
  | .msgEpoch msg => Sys2Proof.Machine.execMsgEpoch msg s
  | .msgDigest msg => Sys2Proof.Machine.execMsgDigest msg s
  | .msgFence msg => Sys2Proof.Machine.execMsgFence msg s
  | .msgUnfence msg => Sys2Proof.Machine.execMsgUnfence msg s
  | .msgFirmware msg => Sys2Proof.Machine.execMsgFirmware msg s
  | .epochStage src => Sys2Proof.Machine.execEpochStage src s
  | .epochSwitch => Sys2Proof.Machine.execEpochSwitch s
  | .herdFenceWrite src folds pkg => Sys2Proof.Machine.execHerdFenceWrite src folds pkg s
  | .crookCas pmc expect new => Sys2Proof.Machine.execCrookCas pmc expect new s
  | .renew pmc => Sys2Proof.Machine.execRenew pmc s
  | .leaseExpire => Sys2Proof.Machine.execLeaseExpire s
  | .railctlFrame bus frame => Sys2Proof.Machine.execRailctlFrame bus frame s
  | .powerUp => Sys2Proof.Machine.execPowerUp s
  | .powerUpStepDone => Sys2Proof.Machine.execPowerUpStepDone s
  | .railWindowTimeout rail => Sys2Proof.Machine.execRailWindowTimeout rail s
  | .powerDown => Sys2Proof.Machine.execPowerDown s
  | .powerDownStepDone => Sys2Proof.Machine.execPowerDownStepDone s
  | .railOffTimeout rail => Sys2Proof.Machine.execRailOffTimeout rail s
  | .railOutOfWindow rail => Sys2Proof.Machine.execRailOutOfWindow rail s
  | .tamper => Sys2Proof.Machine.execTamper s
  | .pkgReset => Sys2Proof.Machine.execPkgReset s
  | .bootStart => Sys2Proof.Machine.execBootStart s
  | .bootImageVerify pmc chip slot image sigOk keyOk => Sys2Proof.Machine.execBootImageVerify pmc chip slot image sigOk keyOk s
  | .recoveryImage pmc image sigOk keyOk => Sys2Proof.Machine.execRecoveryImage pmc image sigOk keyOk s
  | .interconnectTestDone results => Sys2Proof.Machine.execInterconnectTestDone results s
  | .hbmTrainingDone failed => Sys2Proof.Machine.execHbmTrainingDone failed s
  | .ddr5TrainingDone trained => Sys2Proof.Machine.execDdr5TrainingDone trained s
  | .lcsRequest src target => Sys2Proof.Machine.execLcsRequest src target s
  | .svnBump src => Sys2Proof.Machine.execSvnBump src s
  | .naregPortUp port => Sys2Proof.Machine.execNaregPortUp port s
  | .alwaysOnRailFall => Sys2Proof.Machine.execAlwaysOnRailFall s
  | .inpSourceReadTimeout host ring position => Sys2Proof.Machine.execInpSourceReadTimeout host ring position s
  | .jtagDebugAccess die store off len write => Sys2Proof.Machine.execJtagDebugAccess die store off len write s
  | .pmcMemoryAccess pmc secure pa len write => Sys2Proof.Machine.execPmcMemoryAccess pmc secure pa len write s
  | .groupPageRead src page off => Sys2Proof.Machine.execGroupPageRead src page off s
  | .pairLoRead src page off => Sys2Proof.Machine.execPairLoRead src page off s
  | .hostDieRetrainDone host => Sys2Proof.Machine.execHostDieRetrainDone host s

end Sys2Proof.Machine
end

