-- ==== Sys2Proof/WellFormed.lean ====
section
/-! DEFINITION. Which terms are commands of this part: every operand names a unit, page or entry that the spec's
numbering has (R127, R143, R162, R184, R291, R323, R352, R457, R517). What a register, message or memory access holds
is data and is not checked here: the meanings take every value of it. -/

namespace Sys2Proof

/-- A C-die. -/
def okDie (x : Nat) : Bool := x < 16
/-- A tile. -/
def okTile (x : Nat) : Bool := x < 4
/-- A host die. -/
def okHost (x : Nat) : Bool := x < 2
/-- A context. -/
def okCtx (x : Nat) : Bool := x < 512
/-- A queue of a context. -/
def okQueue (x : Nat) : Bool := x < 8
/-- A pen of a C-die. -/
def okPen (x : Nat) : Bool := x < 9
/-- An array of a pen. -/
def okArray (x : Nat) : Bool := x < 8
/-- A Nareg port. -/
def okPort (x : Nat) : Bool := x < 16
/-- A fold. -/
def okFold (x : Nat) : Bool := x < 16
/-- A host link. -/
def okLink (x : Nat) : Bool := x < 4
/-- A job ring. -/
def okRing (x : Nat) : Bool := x < 16
/-- A management controller. -/
def okPmc (x : Nat) : Bool := x < 2
/-- A stack. -/
def okStack (x : Nat) : Bool := x < 12
/-- A channel of a stack. -/
def okChan (x : Nat) : Bool := x < 64
/-- An event entry of the Herd page. -/
def okEntry (x : Nat) : Bool := x < 32
/-- A team entry. -/
def okTeam (x : Nat) : Bool := x < 64
/-- A tally of a context. -/
def okTally (x : Nat) : Bool := x < 64
/-- A caching agent. -/
def okAgent (x : Nat) : Bool := x < 6
/-- A peer window of a link. -/
def okWindow (x : Nat) : Bool := x < 16
/-- A store of a C-die. -/
def okStore (x : Nat) : Bool := x < 82
/-- A Drover engine of a tile. -/
def okEngine (x : Nat) : Bool := x < 16
/-- A page index. -/
def okPage (x : Nat) : Bool := x < 2 ^ 20
/-- A virtual function of a link. -/
def okVf (x : Nat) : Bool := 1 ≤ x && x < 64
/-- An instant group. -/
def okGroup (x : Nat) : Bool := x < 8
/-- A supply rail. -/
def okRail (x : Nat) : Bool := 1 ≤ x && x ≤ 22
/-- A barrier entry. -/
def okBar (x : Nat) : Bool := x < 16
/-- A lane of a port, 8 the spare. -/
def okLane (x : Nat) : Bool := x < 9
/-- A rail-control bus. -/
def okBus (x : Nat) : Bool := x < 4
/-- A vector register. -/
def okVreg (x : Nat) : Bool := x < 32
/-- A register of an Etch program. -/
def okEtchReg (x : Nat) : Bool := x < 32
/-- An Etch unit of a tile. -/
def okEtchUnit (x : Nat) : Bool := x < 8
/-- A server core of a host die. -/
def okServerCore (x : Nat) : Bool := x < 48
/-- The width of a register access, in bits. -/
def okWidth (x : Nat) : Bool := x == 8 || x == 16 || x == 32 || x == 64
/-- An input source. -/
def okSource (x : Nat) : Bool := x < 64
/-- A fault slot of a fold. -/
def okFaultSlot (x : Nat) : Bool := x < 32
/-- A barrier slot of a frame. -/
def okSyncSlot (x : Nat) : Bool := x < 4
/-- An operating point. -/
def okOp (x : Nat) : Bool := x < 16
/-- A scalar register of a prep core. -/
def okReg (x : Nat) : Bool := x < 32

/-- A requester that exists. -/
def okSrc (x : Src) : Bool :=
  match x with
  | .pmc i _ => okPmc i
  | .pf l => okLink l
  | .vf l v => okLink l && okVf v
  | .core h n _ => okHost h && okServerCore n

/-- A queue command's place. -/
def okCmdId (x : CmdId) : Bool := okCtx x.ctx && okQueue x.q && x.seq < 65536

/-- A prep core. -/
def okCore (x : PrepCore) : Bool := okDie x.die && okPen x.pen && x.k < 4

/-- An array, or one of its quarters. -/
def okUnit (x : ArrayUnit) : Bool := okDie x.die && okPen x.pen && okArray x.arr && (if x.quarter then x.qid < 4 else x.qid == 0)

/-- Well-formed commands. -/
def wellFormed (i : Instr) : Bool :=
  match i with
  | .registerWrite src _ width _ => okSrc src && okWidth width
  | .absentPageAccess src page _ _ => okSrc src && okPage page
  | .pageLock src page => okSrc src && okPage page
  | .cntClear src page => okSrc src && okPage page
  | .cntSnapTake src page => okSrc src && okPage page
  | .cntSnapRelease src page => okSrc src && okPage page
  | .counterLowRead src page _ => okSrc src && okPage page
  | .pairLoWrite src page _ _ => okSrc src && okPage page
  | .groupPageWrite src page _ _ => okSrc src && okPage page
  | .groupErrClear src page _ => okSrc src && okPage page
  | .podGroupWrite src _ _ _ _ => okSrc src
  | .hubPacketArrive tile _ _ => okTile tile
  | .hubPacketGrant tile _ => okTile tile
  | .hubPacketUrgent tile _ _ => okTile tile
  | .hubStall tile _ _ => okTile tile
  | .bridgeRetry tile other _ => okTile tile && okTile other
  | .bridgeLost tile other => okTile tile && okTile other
  | .herdTickEdge => true
  | .pass u => okUnit u
  | .stationaryFetch u => okUnit u
  | .stationaryRowBroadcast u _ => okUnit u
  | .wavefrontEnter u _ => okUnit u
  | .accumulatorUpdate u _ => okUnit u
  | .drainRow u => okUnit u
  | .passComplete u => okUnit u
  | .mxaCfgWrite src die pen arr _ => okSrc src && okDie die && okPen pen && okArray arr
  | .quarterModeSwitch die pen arr => okDie die && okPen pen && okArray arr
  | .arrayFreeze die pen arr => okDie die && okPen pen && okArray arr
  | .arrayFreezeRelease die pen arr _ => okDie die && okPen pen && okArray arr
  | .preemptSave u => okUnit u
  | .resumeInPlace u => okUnit u.u
  | .arrayFault u _ _ => okUnit u
  | .arraySelfCheckEnd u _ => okUnit u
  | .penRun c => okCmdId c
  | .prepInstruction core => okCore core
  | .prepLoadStore core _ _ _ reg => okCore core && okReg reg
  | .prepViewStore core _ _ _ _ reg dst => okCore core && okReg reg && okReg dst
  | .prepIssueDesc core _ _ => okCore core
  | .prepCompletionRead core reg => okCore core && okReg reg
  | .halt core _ => okCore core
  | .vadd core d a b => okCore core && okVreg d && okVreg a && okVreg b
  | .vsub core d a b => okCore core && okVreg d && okVreg a && okVreg b
  | .vmul core d a b => okCore core && okVreg d && okVreg a && okVreg b
  | .vfma core d a b c => okCore core && okVreg d && okVreg a && okVreg b && okVreg c
  | .vmin core d a b => okCore core && okVreg d && okVreg a && okVreg b
  | .vmax core d a b => okCore core && okVreg d && okVreg a && okVreg b
  | .vdiv core d a b => okCore core && okVreg d && okVreg a && okVreg b
  | .vsqrt core d a => okCore core && okVreg d && okVreg a
  | .vrcp core d a => okCore core && okVreg d && okVreg a
  | .vrsqrt core d a => okCore core && okVreg d && okVreg a
  | .vexp core d a => okCore core && okVreg d && okVreg a
  | .vlog core d a => okCore core && okVreg d && okVreg a
  | .vtanh core d a => okCore core && okVreg d && okVreg a
  | .vldW core d _ _ _ _ _ => okCore core && okVreg d
  | .vstN core a _ _ _ _ _ _ => okCore core && okVreg a
  | .vbenc core a _ _ _ _ _ => okCore core && okVreg a
  | .vbdec core d _ _ _ _ => okCore core && okVreg d
  | .vrsum core d a => okCore core && okVreg d && okVreg a
  | .vtrn core => okCore core
  | .hatch die pen => okDie die && okPen pen
  | .hatchWeightLine die pen _ => okDie die && okPen pen
  | .nop c => okCmdId c
  | .descList c => okCmdId c
  | .listIssueDesc die pen => okDie die && okPen pen
  | .preempt c => okCmdId c
  | .resume c => okCmdId c.id
  | .tallyWait c => okCmdId c
  | .tallyAdd c => okCmdId c
  | .tallySet c => okCmdId c
  | .genFence c => okCmdId c
  | .retire c => okCmdId c
  | .tallyAddReg src ctx tally _ => okSrc src && okCtx ctx && okTally tally
  | .queueDoorbell src ctx q _ => okSrc src && okCtx ctx && okQueue q
  | .queueEnableWrite src ctx q _ => okSrc src && okCtx ctx && okQueue q
  | .queueFetch ctx q => okCtx ctx && okQueue q.q
  | .queueDispatch ctx q => okCtx ctx && okQueue q
  | .unitInputGrant _ => true
  | .queueAged ctx q _ => okCtx ctx && okQueue q
  | .completionPost ctx q => okCtx ctx && okQueue q.q
  | .cplErrRetry src ctx q => okSrc src && okCtx ctx && okQueue q
  | .spadPortGrant die store _ => okDie die && okStore store
  | .poisonMarkWrite die store _ => okDie die && okStore store
  | .scrubLine die store _ _ => okDie die && okStore store
  | .storeClear die _ => okDie die
  | .storeClearDone die => okDie die
  | .keepWipe _ => true
  | .keepWipeDone die => okDie die
  | .memcAccess stack _ _ => okStack stack
  | .memcCmdTimeout stack chan => okStack stack && okChan chan
  | .memcScrub stack chan _ => okStack stack && okChan chan
  | .memcRefresh stack chan => okStack stack && okChan chan
  | .memcThermRead stack _ => okStack stack
  | .memmapLock src => okSrc src
  | .tierNZeroDone => true
  | .zsaltWrite src _ _ => okSrc src
  | .imbWindowEnd => true
  | .copy c => okCmdId c
  | .fill c => okCmdId c
  | .tile c => okCmdId c
  | .schedRun c => okCmdId c.id
  | .schedCancel c => okCmdId c
  | .promote c => okCmdId c
  | .release c => okCmdId c
  | .evict c => okCmdId c
  | .droverLineResponse tile engine _ => okTile tile && okEngine engine
  | .tierRequestTimeout _ => true
  | .chunkCopyUpEnd fold _ _ => okFold fold
  | .chunkWritebackEnd fold _ _ => okFold fold
  | .schedEntryStart c => okCmdId c
  | .foldEnable src fold => okSrc src && okFold fold
  | .foldDisable src fold => okSrc src && okFold fold
  | .contextEnable src ctx => okSrc src && okCtx ctx
  | .contextDisable src ctx => okSrc src && okCtx ctx
  | .segmentTableFill _ ctx _ => okCtx ctx
  | .faultRecordWrite fold slot _ => okFold fold && okFaultSlot slot
  | .fqbaseWrite src fold _ _ => okSrc src && okFold fold
  | .faultReplyReplay src fold _ _ => okSrc src && okFold fold
  | .faultReplyDecline src fold _ _ => okSrc src && okFold fold
  | .segmentInvalidate src ctx => okSrc src && okCtx ctx
  | .segmentInvalidateDone ctx => okCtx ctx
  | .remoteRequestArrive _ => true
  | .energySample _ => true
  | .rds agent _ _ => okAgent agent
  | .rdx agent _ _ => okAgent agent
  | .rdcur _ _ _ => true
  | .wrfull _ _ _ _ _ => true
  | .wrpart _ _ _ _ _ _ => true
  | .atomh _ _ _ _ _ _ => true
  | .snps agent _ _ => okAgent agent
  | .snpx agent _ _ => okAgent agent
  | .snpinv agent _ _ => okAgent agent
  | .snpcur agent _ _ => okAgent agent
  | .rspi agent _ => okAgent agent
  | .rsps agent _ => okAgent agent
  | .rspfwd agent _ => okAgent agent
  | .rspwbpend agent _ => okAgent agent
  | .datahome agent _ => okAgent agent
  | .data agent _ => okAgent agent
  | .wbm agent _ => okAgent agent
  | .cmp agent _ => okAgent agent
  | .wback agent _ => okAgent agent
  | .done agent _ => okAgent agent
  | .agentEvict agent _ => okAgent agent
  | .agentAtomic agent _ _ _ _ => okAgent agent
  | .agentDead agent => okAgent agent
  | .reclaimDone tile => okTile tile
  | .agentRejoin src tile _ => okSrc src && okTile tile
  | .lockWaysWrite src tile _ => okSrc src && okTile tile
  | .lockRegionReady tile => okTile tile
  | .coreLoad host core _ _ _ => okHost host && okServerCore core
  | .coreStore host core _ _ _ => okHost host && okServerCore core
  | .coreAtomic host core _ _ _ _ _ => okHost host && okServerCore core
  | .coreAccessTimeout host core _ _ => okHost host && okServerCore core
  | .biasFlip src _ => okSrc src
  | .biasFlipDone => true
  | .bar0Access link _ _ width _ => okLink link && okWidth width
  | .bar2Access link _ _ _ _ => okLink link
  | .rpInboundRequest link _ _ _ _ => okLink link
  | .peerWindowWrite link win _ _ _ => okLink link && okWindow win
  | .peerWindowRead link win _ _ => okLink link && okWindow win
  | .peerDoorbell link win _ _ => okLink link && okWindow win
  | .cxlMemRequest link _ _ _ => okLink link
  | .cxlH2dSnoop link _ => okLink link
  | .perst link _ => okLink link
  | .linkTrain link _ _ => okLink link
  | .hostlVfEnable src link vf _ => okSrc src && okLink link && okVf vf
  | .hostlPeerEnable src link win _ => okSrc src && okLink link && okWindow win
  | .inlineWrite c => okCmdId c
  | .xhostRead c _ => okCmdId c
  | .xhostWrite c _ => okCmdId c
  | .hostdReset src host => okSrc src && okHost host
  | .monitorWatchdog host => okHost host
  | .hostdResetExit host => okHost host
  | .tierFZeroDone => true
  | .jobRingDoorbell src host ring _ => okSrc src && okHost host && okRing ring
  | .sampleBatch host ring => okHost host && okRing ring
  | .jobNop host ring => okHost host && okRing ring
  | .candidateStart host ring _ => okHost host && okRing ring
  | .candidateDecodeDone host ring _ => okHost host && okRing ring
  | .cacheSlotClaim host ring _ => okHost host && okRing ring
  | .crop host ring _ => okHost host && okRing ring
  | .centerCrop host ring _ => okHost host && okRing ring
  | .flipH host ring _ => okHost host && okRing ring
  | .resize host ring _ => okHost host && okRing ring
  | .bright host ring _ => okHost host && okRing ring
  | .timeCrop host ring _ => okHost host && okRing ring
  | .norm host ring _ => okHost host && okRing ring
  | .positionWrite host ring _ => okHost host && okRing ring
  | .cacheGenWrite src host ring _ => okSrc src && okHost host && okRing ring
  | .inpPtpstep src host _ => okSrc src && okHost host
  | .sourceDescriptorRead host source => okHost host && okSource source
  | .instantClose host group => okHost host && okGroup group
  | .groupEnable src host group _ => okSrc src && okHost host && okGroup group
  | .sourceEnable src host source _ => okSrc src && okHost host && okSource source
  | .flitTransmit port => okPort port
  | .flitTransit port _ => okPort port
  | .flitReceive port _ _ => okPort port
  | .ack port _ => okPort port
  | .nak port _ => okPort port
  | .credit port _ _ => okPort port
  | .ackTimer port => okPort port
  | .rd _ => true
  | .wr _ => true
  | .wrpartFlit _ => true
  | .atom _ => true
  | .rdata _ => true
  | .wack _ => true
  | .aack _ => true
  | .refuse _ => true
  | .fail _ => true
  | .reqResendTimeout _ => true
  | .atomTableExpire _ _ => true
  | .laneFail port lane _ => okPort port && okLane lane
  | .spareReq port lane => okPort port && okLane lane
  | .spareAck port => okPort port
  | .spareAligned port => okPort port
  | .portDown port _ lane => okPort port && okLane lane
  | .pairRetire src _ => okSrc src
  | .teamEnable src team _ => okSrc src && okTeam team
  | .allreduce c => okCmdId c.id
  | .reduceScatter c => okCmdId c.id
  | .allgather c => okCmdId c.id
  | .broadcast c => okCmdId c.id
  | .alltoall c => okCmdId c.id
  | .collectiveLaunch team _ => okTeam team
  | .colData _ => true
  | .chunkAck _ => true
  | .counts _ => true
  | .beacon _ => true
  | .abort _ => true
  | .chunkResendTimeout team _ _ => okTeam team
  | .beaconTimer team _ => okTeam team
  | .collectiveDeadline team _ _ => okTeam team
  | .stepSet c => okCmdId c
  | .stepSetApply ctx => okCtx ctx
  | .seedWrite src ctx _ _ => okSrc src && okCtx ctx
  | .etchRun c => okCmdId c.id
  | .etchBlock tile unit _ => okTile tile && okEtchUnit unit
  | .etchAdd tile unit d a b => okTile tile && okEtchUnit unit && okEtchReg d && okEtchReg a && okEtchReg b
  | .etchSub tile unit d a b => okTile tile && okEtchUnit unit && okEtchReg d && okEtchReg a && okEtchReg b
  | .etchMul tile unit d a b => okTile tile && okEtchUnit unit && okEtchReg d && okEtchReg a && okEtchReg b
  | .etchFma tile unit d a b c => okTile tile && okEtchUnit unit && okEtchReg d && okEtchReg a && okEtchReg b && okEtchReg c
  | .etchMin tile unit d a b => okTile tile && okEtchUnit unit && okEtchReg d && okEtchReg a && okEtchReg b
  | .etchMax tile unit d a b => okTile tile && okEtchUnit unit && okEtchReg d && okEtchReg a && okEtchReg b
  | .etchDiv tile unit d a b => okTile tile && okEtchUnit unit && okEtchReg d && okEtchReg a && okEtchReg b
  | .etchSqrt tile unit d a => okTile tile && okEtchUnit unit && okEtchReg d && okEtchReg a
  | .etchRsqrt tile unit d a => okTile tile && okEtchUnit unit && okEtchReg d && okEtchReg a
  | .etchRcp tile unit d a => okTile tile && okEtchUnit unit && okEtchReg d && okEtchReg a
  | .etchAbs tile unit d a => okTile tile && okEtchUnit unit && okEtchReg d && okEtchReg a
  | .etchNeg tile unit d a => okTile tile && okEtchUnit unit && okEtchReg d && okEtchReg a
  | .etchSel tile unit d a b c => okTile tile && okEtchUnit unit && okEtchReg d && okEtchReg a && okEtchReg b && okEtchReg c
  | .etchSign tile unit d a => okTile tile && okEtchUnit unit && okEtchReg d && okEtchReg a
  | .etchMov tile unit d a => okTile tile && okEtchUnit unit && okEtchReg d && okEtchReg a
  | .wsq tile unit a => okTile tile && okEtchUnit unit && okEtchReg a
  | .bmaxabs tile unit d a => okTile tile && okEtchUnit unit && okEtchReg d && okEtchReg a
  | .bsum tile unit d a => okTile tile && okEtchUnit unit && okEtchReg d && okEtchReg a
  | .runPoolReady tile => okTile tile
  | .etchCombine c => okCmdId c.id
  | .stateExport c => okCmdId c.id
  | .stateImport c => okCmdId c.id
  | .seqRun c => okCmdId c
  | .seqReleaseForward ctx => okCtx ctx
  | .seqReleaseBackward ctx => okCtx ctx
  | .seqEvalRelease ctx => okCtx ctx
  | .opReqWrite src die op => okSrc src && okDie die && okOp op
  | .voltageStep die => okDie die
  | .droop die => okDie die
  | .droopEnd die _ => okDie die
  | .pwrAlert => true
  | .pwrAlertRelease _ => true
  | .pwrCapNextWrite src _ => okSrc src
  | .capApply => true
  | .capDecision _ => true
  | .tempSensorRead _ _ => true
  | .thermalCeilingUpdate die => okDie die
  | .thermalTrip _ _ _ => true
  | .calWrite src die _ => okSrc src && okDie die
  | .marginWrite src die op _ => okSrc src && okDie die && okOp op
  | .opRetire src die _ => okSrc src && okDie die
  | .slackRefresh die _ => okDie die
  | .hourTick => true
  | .queueWatchExpire c => okCmdId c
  | .streamWatchExpire _ => true
  | .runWatchExpire c => okCmdId c
  | .unitWatchExpire _ _ => true
  | .agentWatchExpire tile agent => okTile tile && okAgent agent
  | .hubWatchExpire tile _ => okTile tile
  | .linkWatchExpire port => okPort port
  | .dieOfflineWrite src _ => okSrc src
  | .foldFatal fold _ _ _ => okFold fold
  | .foldReset src _ _ => okSrc src
  | .foldAbortDone fold => okFold fold
  | .foldCaptureDone fold => okFold fold
  | .foldDrainDone fold => okFold fold
  | .drainLimitExpire fold _ => okFold fold
  | .foldClearDone fold => okFold fold
  | .packageFatal _ => true
  | .fatalTimeout => true
  | .pkgResetWrite src => okSrc src
  | .tickFrame _ _ _ => true
  | .herdLockLoss _ => true
  | .herdRelock _ => true
  | .holdReceived _ => true
  | .recountStart _ => true
  | .recountPhase1 _ _ _ _ => true
  | .recountPhase2 _ _ _ => true
  | .standbyTakeover _ => true
  | .holdoverEnter _ => true
  | .herdJoin src _ _ => okSrc src
  | .herdTimeWrite src _ => okSrc src
  | .eventArm src entry _ => okSrc src && okEntry entry
  | .eventDisarm src _ => okSrc src
  | .eventRegWrite entry => okEntry entry
  | .eventTallyAdd entry => okEntry entry
  | .eventIrq entry => okEntry entry
  | .barrierArrive src bar => okSrc src && okBar bar
  | .barrierRelease _ _ => true
  | .barrierSlotExpire _ slot => okSyncSlot slot
  | .msgSend src => okSrc src
  | .msgReturn _ _ => true
  | .msgInPop src => okSrc src
  | .msgRegWrite _ => true
  | .msgRegRead _ => true
  | .msgEvent _ => true
  | .msgCap _ => true
  | .msgEpoch _ => true
  | .msgDigest _ => true
  | .msgFence _ => true
  | .msgUnfence _ => true
  | .msgFirmware _ => true
  | .epochStage src => okSrc src
  | .epochSwitch => true
  | .herdFenceWrite src _ _ => okSrc src
  | .crookCas pmc _ _ => okPmc pmc
  | .renew pmc => okPmc pmc
  | .leaseExpire => true
  | .railctlFrame bus _ => okBus bus
  | .powerUp => true
  | .powerUpStepDone => true
  | .railWindowTimeout rail => okRail rail
  | .powerDown => true
  | .powerDownStepDone => true
  | .railOffTimeout rail => okRail rail
  | .railOutOfWindow rail => okRail rail
  | .tamper => true
  | .pkgReset => true
  | .bootStart => true
  | .bootImageVerify pmc _ _ _ _ _ => okPmc pmc
  | .recoveryImage pmc _ _ _ => okPmc pmc
  | .interconnectTestDone _ => true
  | .hbmTrainingDone _ => true
  | .ddr5TrainingDone _ => true
  | .lcsRequest src _ => okSrc src
  | .svnBump src => okSrc src
  | .naregPortUp port => okPort port
  | .alwaysOnRailFall => true
  | .inpSourceReadTimeout host ring _ => okHost host && okRing ring
  | .jtagDebugAccess die store _ _ _ => okDie die && okStore store
  | .pmcMemoryAccess pmc _ _ _ _ => okPmc pmc
  | .groupPageRead src page _ => okSrc src && okPage page
  | .pairLoRead src page _ => okSrc src && okPage page
  | .hostDieRetrainDone host => okHost host

end Sys2Proof
end

