-- ==== Sys2Proof/Safety.lean ====
section
/-! DEFINITION. What claims are stated in: a command that answers a next state, the canonical form of memory, a queue
of well-formed commands, a part with nothing waiting for a Herd tick, and a queue command that a unit is about to
accept. -/

namespace Sys2Proof.Machine

open Sys2Proof

/-- The command answers a next state, and `P` holds of it. -/
def Answers (i : Instr) (s : State) (P : State → Prop) : Prop := ∃ t, exec i s = .next t ∧ P t

/-- The numbers of a map rise strictly. -/
def rising {α : Type} : FMap α → Bool
  | [] => true
  | (k, _) :: t => (match t with | [] => true | (j, _) :: _ => k < j) && rising t

/-- Canonical memory: addresses rise strictly, and a byte that reads 0 where it is not listed is not listed as 0. -/
def Memory.wf (us : List (Nat × Nat × Nat)) (m : FMap Byte) : Bool :=
  rising m && m.all fun e => e.2 != 0 || (undefTag us e.1).isSome

/-- Every waiting command is well-formed. -/
def queueWf (s : State) : Bool := s.pending.all wellFormed

/-- Nothing waits for a Herd tick (R502): no epoch switch, armed entry, STEP_SET, power cap or barrier release. -/
def Untimed (s : State) : Prop :=
  s.herd.stage = none ∧ fget s pgHERD F.HERD_EVTVALID_ARMED = 0 ∧ s.trn.pend = [] ∧ s.pwr.capNext = none ∧ s.herd.rel = []

/-- The requester holds SYSTEM authority, and the crook does not refuse its writes (R240, R512). -/
def Rules (s : State) (src : Src) : Prop :=
  authOf s src = .sys ∧ (match src with | .pmc i _ => crookOwner s = i + 1 | _ => True)

/-- A prep core that runs a program, on a die whose clocks are not stopped (R127, R442). -/
def Runs (s : State) (c : PrepCore) : Prop :=
  coreOk c = true ∧ fbit s (corePage c) F.PREP_STS_RUNNING = true ∧ clocksStopped s = false

/-- A core's access goes to its stores: they are within its reach, outside the keep region, and neither being cleared nor
held by a locked access (R128, R170, R178, R179). -/
def Reaches (s : State) (c : PrepCore) (off n : Nat) : Prop :=
  coreReaches c off n = true ∧ inKeep off n = false ∧ storeBusy s c.die off n = false ∧
    storeBusy s c.die (off + n - 1) 1 = false

/-- No granule that a range of a die's aperture touches is poisoned or unreadable (R174). -/
def Whole (s : State) (die off n : Nat) : Prop :=
  ∀ g, g * 8 < off + n → off < g * 8 + 8 → granBad s die (storeAt (g * 8)) g = false

/-- The physical address of a core's store offset. -/
def corePa (c : PrepCore) (off : Nat) : Nat := spadBase + c.die * 0x8000000 + off

/-- Memory reads as before outside [lo, lo + n). -/
def SameOutside (s t : State) (lo n : Nat) : Prop := ∀ a, a < lo ∨ lo + n ≤ a → readByte t a = readByte s a

/-- Memory holds these bytes from `pa` up. -/
def HoldsAt (t : State) (pa : Nat) (bs : List Byte) : Prop := ∀ i, i < bs.length → readByte t (pa + i) = lget bs i 0

/-- A command has ended, and its completion record will carry this status. -/
def Ended (t : State) (id : CmdId) (r : Res) : Prop := ∃ y, findCmd t id = some y ∧ y.phase = .done ∧ y.res = r

/-- A command is under way at its unit. -/
def Running (t : State) (id : CmdId) : Prop := ∃ y, findCmd t id = some y ∧ y.phase = .running

/-- No agent holds newer data of these bytes than memory does (R270). -/
def AtHome (s : State) (pa n : Nat) : Prop := ∀ i, i < n → newest s (lineOf (pa + i)) = none

/-- No request waits, at its source or at a home (R274, R275). -/
def NoRequests (s : State) : Prop := s.coh.queue = [] ∧ s.coh.held = []

/-- Nothing but memory holds a line, and its home is free for it: no holder is recorded and its set has room, no
transaction runs, no request waits, the home has trackers and snoop credits, a lock region is ready, and no agent is dead
(R271, R272, R274, R275, R286, R290). -/
def LineIdle (s : State) (line : Nat) : Prop :=
  coherentLine s line = true ∧ lineDown s line = false ∧ NoRequests s ∧ mget s.coh.txns line = none ∧
    dirGet s line = none ∧ (dirMates s line).length < 16 ∧ lockWaits s line = false ∧ (∀ r, mayLeave s line r = true) ∧
    (∀ a, a < 6 → snoopsOut s (homeOf s line) a < 8) ∧ ∀ a, agentDead s a = false

/-- A line's transaction waits only for the answer of agent `a`; no other request waits and no agent is dead. -/
def LastAnswer (s : State) (a line : Nat) (r : CohReq) : Prop :=
  mget s.coh.txns line = some { req := r, waiting := 2 ^ a } ∧ NoRequests s ∧ ∀ b, agentDead s b = false

/-- The command that delivers a snoop, with what the agent's codes find (R277, R285). -/
def snoopCmd (k : Snoop) (a line : Nat) (e : Ecc) : Instr :=
  match k with
  | .shared => .snps a line e
  | .sole => .snpx a line e
  | .inv => .snpinv a line e
  | .cur => .snpcur a line e

/-- An access of `n` bytes that memory serves at once: it stays in one line of a memory tier that answers, whose bytes
are whole, that no agent holds, and that no move or transaction holds (R197, R200, R251, R275, R316). -/
def BusOpen (s : State) (pa n : Nat) : Prop :=
  1 ≤ n ∧ pa / 256 = (pa + n - 1) / 256 ∧
    (regionOf s pa = .tierN ∨ regionOf s pa = .tierF ∧ tierFDown s pa = false) ∧ paBad s pa = false ∧
    curPoison s pa n = false ∧ AtHome s pa n ∧ dirGet s (lineOf pa) = none ∧ busWaits s pa n = false

/-- Command `x`, of opcode `op` and fold `f`, is at a unit that accepts it: granted, of a fold that is not fenced, and
none of R149's checks fails for its reserved fields. -/
def Granted (s : State) (c : CmdId) (op f : Nat) (x : Cmd) : Prop :=
  findCmd s c = some x ∧ x.phase = .granted ∧ cOp x = op ∧ ctxFold s c.ctx = some f ∧ fenced s f = false

/-- A chunk's record can be read and changed at once: its line is free, and held by no agent, its home answers `r`, and the
tile's agent leaves the access to the home (R227, R268, R275). -/
def RecordOpen (s : State) (tile f k r : Nat) : Prop :=
  recordWaits s {} tile f k = false ∧ (chunkRead s tile f k).2 = .ok r ∧ bits r 146 144 ≤ 3 ∧
    cacheOf s (chunkAsker tile) (lineOf (chunkPa s f k)) = none ∧ dirGet s (lineOf (chunkPa s f k)) = none

/-- The descriptors of a DESC_LIST as its pen store holds them (R152). -/
def listOf (s : State) (id : CmdId) (c : Cmd) : List Issue :=
  (List.range (cbits c 171 160 + 1)).map fun i =>
    ⟨BitVec.ofNat 512 (leNat (readBytes s (penStorePa (cDie c) (cPen c) + cbits c 145 128 * 16 + i * 64) 64)),
      .list (cDie c) (cPen c), i, id.ctx, cGen c, none, 0⟩

/-- The heads that wait at a unit input with room for them, and whose completions have room (R147, R148, R149, R579). -/
def unitHeads (s : State) (u : UnitId) : List Cmd :=
  s.cmds.filter fun c => c.phase == .ready && postRoom s c.id.ctx c.id.q &&
    (match inputOf s c with | some v => unitKey v == unitKey u | none => false) && inputRoom s u c

/-- A head that has waited past its queue's AGE_LIMIT (R149). -/
def isAged (s : State) (c : Cmd) : Bool := fbiti s (pgCTX c.id.ctx) F.QSTS_AGED c.id.q

end Sys2Proof.Machine
end

