-- ==== Sys2Proof/Certificates/Slice0/Obligations.lean ====
section
/-! DEFINITION. The statements about the part, one for each family of commands and each kind of state; OBLIGATIONS.json
lists them with the rules they rest on. -/

open Sys2Proof Sys2Proof.Machine

/-- A step with a command at the front of the queue is that command's effect on the state that holds the rest of the
queue. A step on an empty queue answers the same state: that is the model's choice, log 2. -/
def Obligations.StepRunsFrontCommand : Prop :=
  (∀ (c : Instr) (rest : List Instr) (s : State), s.pending = c :: rest → step s = exec c { s with pending := rest }) ∧
  (∀ s : State, s.pending = [] → step s = .next s)

/-- No command of the part ends in a fault or a refusal, and none touches the queue of waiting commands. -/
def Obligations.CommandsAnswerAndLeaveQueue : Prop :=
  ∀ (c : Instr) (s : State), ∃ t, exec c s = .next t ∧ t.pending = s.pending

/-- From every state whose waiting commands are well-formed and whose memory is canonical (addresses rise, and no byte
is listed at the value that it reads as when unlisted), a step answers a state of the same kind. -/
def Obligations.StepKeepsQueueAndMemory : Prop :=
  ∀ s t : State, queueWf s = true → Memory.wf s.undefs s.mem = true → step s = .next t →
    queueWf t = true ∧ Memory.wf t.undefs t.mem = true

/-- At reset nothing waits, memory is canonical and lists nothing, every register reads its Reset value, and Herd time
is as R574 gives it. -/
def Obligations.ResetState : Prop :=
  State.reset.pending = [] ∧ queueWf State.reset = true ∧ Memory.wf State.reset.undefs State.reset.mem = true ∧
    (∀ a, readByte State.reset a = 0) ∧ (∀ page f i, fgeti State.reset page f i = f.rst) ∧
    (∀ page n, counter State.reset page n = 0) ∧ herdTime State.reset = 0

/-- On a leaf page, a write of CTL.LOCK sets the lock; CNT_CLEAR zeroes the sixteen counters and CNT_OVF; TAKE copies
the sixteen counters into their latches and sets HELD; RELEASE clears HELD. Nothing of memory changes, and of the
counters only what CNT_CLEAR clears. (No part of a fold that resets is written, and nothing waits for a Herd tick.) -/
def Obligations.HeaderWritesAct : Prop :=
  ∀ (src : Src) (page : Nat) (s : State), Rules s src → scrapped s = false → leafExists s page = true → groupOf page = none →
    page ≠ pgMEMMAP → Untimed s →
    Answers (.pageLock src page) s (fun t => fbit t page F.CTL_LOCK = true ∧ t.cnt = s.cnt ∧ t.mem = s.mem) ∧
    Answers (.cntClear src page) s (fun t => (∀ n, n < 16 → counter t page n = 0) ∧ fget t page F.CNT_OVF_OVF = 0 ∧
      t.latch = s.latch ∧ t.mem = s.mem) ∧
    Answers (.cntSnapTake src page) s (fun t =>
      (∀ n, n < 16 → mgetD t.latch (page * 16 + n) 0 = BitVec.ofNat 64 (counter s page n)) ∧
      fbit t page F.CNT_SNAP_HELD = true ∧ t.cnt = s.cnt ∧ t.mem = s.mem) ∧
    Answers (.cntSnapRelease src page) s (fun t => fbit t page F.CNT_SNAP_HELD = false ∧ t.latch = s.latch ∧ t.cnt = s.cnt ∧
      t.mem = s.mem)

/-- A word written to HUB_ARB_CTL by a requester with SYSTEM authority sets both its fields while the page's lock is
clear. While the lock is set both keep their values, ERR.LOCK_WR is set and the PKG page counts the write. A narrower
write is discarded, sets ERR.NARROW and is counted on the PKG page. -/
def Obligations.RegisterWriteAndLock : Prop :=
  ∀ (src : Src) (t : Nat) (v : BitVec 64) (s : State), t < 4 → Rules s src → scrapped s = false → Untimed s →
    (fbit s (pgHUB t) F.CTL_LOCK = false →
      Answers (.registerWrite src (regBase + pgHUB t * 4096 + 0x100) 32 v) s fun u =>
        fget u (pgHUB t) F.HUB_ARB_CTL_STARVE_LIMIT = v.toNat % 2 ^ 16 ∧
        fget u (pgHUB t) F.HUB_ARB_CTL_STALL_MULT = v.toNat / 2 ^ 16 % 2 ^ 4 ∧ u.cnt = s.cnt ∧ u.mem = s.mem) ∧
    (fbit s (pgHUB t) F.CTL_LOCK = true → fbit s pgPKG F.CTL_CNT_FREEZE = false →
      Answers (.registerWrite src (regBase + pgHUB t * 4096 + 0x100) 32 v) s fun u =>
        fget u (pgHUB t) F.HUB_ARB_CTL_STARVE_LIMIT = fget s (pgHUB t) F.HUB_ARB_CTL_STARVE_LIMIT ∧
        fget u (pgHUB t) F.HUB_ARB_CTL_STALL_MULT = fget s (pgHUB t) F.HUB_ARB_CTL_STALL_MULT ∧
        fbit u (pgHUB t) F.ERR_LOCK_WR = true ∧ counter u pgPKG 1 = (counter s pgPKG 1 + 1) % 2 ^ 64 ∧ u.mem = s.mem) ∧
    (∀ width, width = 8 ∨ width = 16 → fbit s pgPKG F.CTL_CNT_FREEZE = false →
      Answers (.registerWrite src (regBase + pgHUB t * 4096 + 0x100) width v) s fun u =>
        fget u (pgHUB t) F.HUB_ARB_CTL_STARVE_LIMIT = fget s (pgHUB t) F.HUB_ARB_CTL_STARVE_LIMIT ∧
        fbit u (pgHUB t) F.ERR_NARROW = true ∧ counter u pgPKG 2 = (counter s pgPKG 2 + 1) % 2 ^ 64 ∧ u.mem = s.mem)

/-- A low-word counter read copies the live counter into its latch and answers bits [31:0]; with HELD set it answers
the latch. A read of HERD_TIME_LO latches the high word and answers the low one. An absent page reads as zero,
discards a write, and either is counted on the PKG page. A group page's ERRMASK reads as that of its lowest-numbered
member. A word of the pod or system page answers what the last collection brought, with the Herd time of that collection. -/
def Obligations.ReadsLatchAndAnswer : Prop :=
  ∀ (src : Src) (page : Nat) (s : State), authOf s src = .sys → scrapped s = false →
    (∀ n, n < 16 → leafExists s page = true → groupOf page = none → fbit s page F.CNT_SNAP_HELD = false →
      exec (.counterLowRead src page n) s =
        .next (reply (latchCnt s page n (counter s page n)) (leBytes 4 (counter s page n % 2 ^ 32)))) ∧
    (∀ n, n < 16 → leafExists s page = true → groupOf page = none → fbit s page F.CNT_SNAP_HELD = true →
      exec (.counterLowRead src page n) s =
        .next (reply s (leBytes 4 ((mgetD s.latch (page * 16 + n) 0).toNat % 2 ^ 32)))) ∧
    exec (.pairLoRead src pgHERD 0x118) s =
      .next (reply { s with pairLatch := mput s.pairLatch (pgHERD * 1024 + 0x11C / 4) (BitVec.ofNat 32 (herdTime s / 2 ^ 32)) }
        (leBytes 4 (herdTime s % 2 ^ 32))) ∧
    (∀ off, pageExists s page = false →
      exec (.absentPageAccess src page off false) s = .next (reply (bump s pgPKG 0) [0, 0, 0, 0])) ∧
    (∀ off, pageExists s page = false → Rules s src → exec (.absentPageAccess src page off true) s = .next (bump s pgPKG 0)) ∧
    exec (.groupPageRead src (pageOf 0x10 0xFFF) 0x1C) s = .next (reply s (leBytes 4 (fget s (pgHUB 0) F.ERRMASK_MASK))) ∧
    (∀ off, off % 4 = 0 → 0x100 ≤ off → off < 4096 → page = pageOf 0 0xFFD ∨ page = pageOf 0 0xFFE →
      Answers (.groupPageRead src page off) s fun t => t.herd = s.herd ∧ t.mem = s.mem ∧ t.resp.time = some s.herd.podTime ∧
        t.resp.data = leBytes 4 (Config.podWord s.herd.podAt (page * 1024 + off / 4)).toNat)

/-- A write of HERD_EPOCH_TICK_LO is held for its _HI word. A write of ERRMASK on the hubs' package group page reaches
all four hubs, and one of ERR clears the written bits in all four. A write to the pod or system page is sent over the
rings and stands in an entry of the package's own until its tick. Memory stays as it is. -/
def Obligations.PairGroupAndPodWrites : Prop :=
  ∀ (src : Src) (value : BitVec 32) (s : State), Rules s src → scrapped s = false → Untimed s →
    exec (.pairLoWrite src pgHERD 0x134 value) s =
      .next { s with pairHeld := mput s.pairHeld (pgHERD * 1024 + 0x134 / 4) value } ∧
    Answers (.groupPageWrite src (pageOf 0x10 0xFFF) 0x1C value) s (fun u =>
      (∀ t, t < 4 → fget u (pgHUB t) F.ERRMASK_MASK = value.toNat % 16) ∧ u.mem = s.mem) ∧
    Answers (.groupErrClear src (pageOf 0x10 0xFFF) value) s (fun u =>
      (∀ t b, t < 4 → b < 4 → fget u (pgHUB t) (errField b) =
        if value.toNat.testBit b then 0 else fget s (pgHUB t) (errField b)) ∧ u.mem = s.mem) ∧
    (∀ system off tick, off % 4 = 0 → tick < 2 ^ 64 → tickReached s tick = false →
      Answers (.podGroupWrite src system off value tick) s fun u =>
        u = podWrite s system (off % 4096) value.toNat tick ∧ evtArmed u 0 = true ∧ evtTick u 0 = tick ∧
        u.herd.send.length = s.herd.send.length + 1 ∧ u.mem = s.mem)

/-- A packet at a live input that holds credit for its class waits behind the others of its hub, from the cycle of its
arrival; at an input without credit it does not come in. A packet that has waited STARVE_LIMIT is urgent, and
one that has waited STALL_MULT × STARVE_LIMIT more is reported once and keeps its place. A retry is counted and moves no
packet but the one it delays; a bridge that fails is recorded at both its tiles and its traffic goes by the lower-numbered other tile. -/
def Obligations.HubPacketsWaitAndEscalate : Prop :=
  (∀ tile input now (pkt : Packet) (s : State), tile < 4 → input < hubPorts → pkt.destTile < 4 →
    pkt.destOut < hubPorts → pkt.bytes ≤ 256 → ((getHub s tile).pkts.any fun x => x.pkt.id == pkt.id) = false →
    (input = 7 → pkt.destTile % 2 = tile % 2) → portDead s tile input = false → (getHub s tile).clk ≤ now →
    (hubRoom s tile input pkt.cls = true → Answers (.hubPacketArrive tile ⟨input, now⟩ pkt) s fun t =>
      (getHub t tile).pkts = (getHub s tile).pkts ++
        [{ pkt := pkt, input := input, since := now, urgentAt := if pkt.urgent then some now else none }] ∧
      hubHeld t tile input pkt.cls = hubHeld s tile input pkt.cls + 1 ∧ t.mem = s.mem ∧ t.cnt = s.cnt) ∧
    (hubRoom s tile input pkt.cls = false → exec (.hubPacketArrive tile ⟨input, now⟩ pkt) s = .next s)) ∧
  (∀ tile id now (x : HubPkt) (s : State), tile < 4 → (getHub s tile).pkts.find? (fun y => y.pkt.id == id) = some x →
    x.pkt.urgent = false → x.since + starveLimit s tile ≤ now → (getHub s tile).clk ≤ now →
    Answers (.hubPacketUrgent tile id now) s fun t =>
      ((getHub t tile).pkts.find? fun y => y.pkt.id == id) =
        some { x with pkt := { x.pkt with urgent := true }, urgentAt := some now } ∧
      (getHub t tile).pkts.length = (getHub s tile).pkts.length ∧ t.mem = s.mem) ∧
  (∀ tile id now u (x : HubPkt) (s : State), tile < 4 → (getHub s tile).pkts.find? (fun y => y.pkt.id == id) = some x →
    x.urgentAt = some u → u + stallMult s tile * starveLimit s tile ≤ now → id ∉ (getHub s tile).stalled →
    (getHub s tile).clk ≤ now → Answers (.hubStall tile id now) s fun t =>
      (getHub t tile).pkts = (getHub s tile).pkts ∧ id ∈ (getHub t tile).stalled ∧ t.mem = s.mem) ∧
  (∀ tile other id late (s : State), tile < 4 → other < 4 → tile ≠ other → bridgeIsLost s tile other = false →
    late ≤ 12 → Answers (.bridgeRetry tile other ⟨id, late⟩) s fun t => t.cnt = (bump s (pgHUB tile) 3).cnt ∧
      t.mem = s.mem ∧ (∀ u, (getHub t u).pkts.map (·.pkt) = (getHub s u).pkts.map (·.pkt)) ∧
      (∀ u, (getHub t u).pkts.filter (·.pkt.id != id) = (getHub s u).pkts.filter (·.pkt.id != id))) ∧
  (∀ tile other (s : State), tile < 4 → other < 4 → tile ≠ other → bridgeIsLost s tile other = false →
    Answers (.bridgeLost tile other) s fun t =>
      bridgeIsLost t tile other = true ∧ bridgeIsLost t other tile = true ∧
      fbit t (pgHUB tile) F.HUB_STS_BRIDGE_DETOUR = true ∧ fbit t (pgHUB other) F.HUB_STS_BRIDGE_DETOUR = true ∧
      hubVia t tile other ≠ other ∧ hubVia t tile other ≠ tile ∧
      (∀ w, w < 4 → w ≠ tile → w ≠ other → hubVia t tile other ≤ w) ∧ t.mem = s.mem)

/-- At an output that has granted nothing yet in the hub cycle, and for which some packet is eligible, exactly one packet
leaves, whose class holds credit at the next input; if any of them is urgent it is the oldest urgent one, and its bytes are
charged to its fold. -/
def Obligations.HubOutputGrantsOne : Prop :=
  ∀ tile output now (s : State), tile < 4 → output < hubPorts → outputFree s tile output now = true →
    hubReady s tile output now ≠ [] → (∀ x ∈ hubReady s tile output now, hubFold x < 17) →
    (∃ x a, x ∈ hubReady s tile output now ∧ hubCredit s tile x.pkt = true ∧
      exec (.hubPacketGrant tile ⟨output, now⟩) s =
        .next (hubLeave { s with arbs := mput s.arbs (hubKey tile output) a } tile output now x)) ∧
    (∀ x, hubOldest ((hubReady s tile output now).filter (·.pkt.urgent)) = some x →
      ∃ a, a = drrCharge (mgetD s.arbs (hubKey tile output) {}) (hubFold x) x.pkt.bytes ∧
        exec (.hubPacketGrant tile ⟨output, now⟩) s =
          .next (hubLeave { s with arbs := mput s.arbs (hubKey tile output) a } tile output now x))

/-- A descriptor that may go next at an array, and that fails no check, joins the array's passes behind those accepted
before. A fetch stages the set of the pass's next step from the array store. Row 0 goes into the bank that was not used
last, and the rows follow in consecutive cycles; the last empties the staging buffer. A pass whose updates and drain are
done leaves with its status. None of these changes memory. (One pass may wait behind the one that runs: log 12.) -/
def Obligations.PassesAcceptedStagedAndCompleted : Prop :=
  ∀ (u : ArrayUnit) (s : State), unitOk u = true →
    (∀ x, unitNext s u = some x → (getCtl s u.die u.pen u.arr).checking = false → x.slot = none →
      ((getArr s u).passes.filter fun p => !allEntered p).length < 2 → portBad (getCtl s u.die u.pen u.arr) u x = false →
      passCheck s u.die u.pen x = none → fenced s ((ctxFold s x.ctx).getD 0) = false →
      Answers (.pass u) s fun t =>
        getArr t u = passClaim (unitDrop (getArr s u) x) { id := x.num, iss := x, fold := (ctxFold s x.ctx).getD 0 } ∧
        (getArr t u).passes.length = (getArr s u).passes.length + 1 ∧ t.mem = s.mem ∧ t.regs = s.regs) ∧
    (∀ p, arrStopped s u = false → (getArr s u).staging = none → arrStoreBusy s u = false →
      fetchFor (getArr s u).passes = some p →
      Answers (.stationaryFetch u) s fun t =>
        (getArr t u).staging = some (readSet s u p.iss p.id p.fetchStep).2 ∧ t.mem = s.mem ∧ t.poison = s.poison) ∧
    (∀ x cyc b, arrStopped s u = false → (getArr s u).staging = some x → x.rows = 0 →
      b = (match (getArr s u).bankLast with | none => 0 | some l => 1 - l) → setNeeded (getArr s u) b = false →
      (∀ i, (getBank (getArr s u) b).lastEntry = some i → i + (side u.quarter - 1) ≤ cyc) →
      (∀ q ∈ (getArr s u).passes, q.stop = none) →
      Answers (.stationaryRowBroadcast u cyc) s fun t =>
        (getArr t u).bankLast = some b ∧
        (getArr t u).staging = some { x with rows := 1, row0 := cyc, before := (getArr s u).bankLast } ∧ t.mem = s.mem) ∧
    (∀ x, arrStopped s u = false → (getArr s u).staging = some x → x.rows ≠ 0 →
      (x.rows + 1 < side u.quarter →
        Answers (.stationaryRowBroadcast u (x.row0 + x.rows)) s fun t =>
          (getArr t u).staging = some { x with rows := x.rows + 1 } ∧ t.mem = s.mem ∧ t.regs = s.regs) ∧
      (x.rows + 1 = side u.quarter →
        Answers (.stationaryRowBroadcast u (x.row0 + x.rows)) s fun t => (getArr t u).staging = none ∧ t.mem = s.mem)) ∧
    (∀ p ps, arrStopped s u = false → (getArr s u).passes = p :: ps → allUpdated p = true → allDrained p = true →
      exec (.passComplete u) s =
        .next (flushLate (descDone (bump (dropPass s u p.id) (pgMXA u.die u.pen u.arr) 5) p.iss (passRes p)) u))

/-- In a cycle after the last entry, the first pass with wavefronts left enters its next one when the stream buffer holds
it, a bank holds its set and no earlier pass has its row to drain; it carries its groups and its poison. While the buffer
does not hold it, or no bank holds its set, the cycle is a bubble. The wavefront reaches the accumulators 63 cycles (31 in a
quarter) after it entered and updates its own row from its groups; every other row, and memory, stay as they are. -/
def Obligations.WavefrontsEnterAndUpdate : Prop :=
  ∀ (u : ArrayUnit) (cyc : Nat) (s : State), unitOk u = true → arrStopped s u = false →
    (∀ p before b v, (∀ q ∈ (getArr s u).passes, q.stop = none) → (∀ l, (getArr s u).lastEnter = some l → l < cyc) →
      enterNext [] (getArr s u).passes = some (p, before) → bankFor (getArr s u) p cyc = some b →
      ((getArr s u).stream.find? fun v => v.pass == p.id && v.s == p.s && v.i == p.i) = some v →
      rowUndrained before (pAccBase p.iss + p.i) = false → (pInit p.iss = 2 → arrStoreBusy s u = false) →
      Answers (.wavefrontEnter u cyc) s fun t => ∃ w,
        (getArr t u).waves = (getArr s u).waves ++ [w] ∧ w.pass = p.id ∧ w.row = pAccBase p.iss + p.i ∧ w.entry = cyc ∧
        w.groups = (List.range (pNValid p.iss)).map (fun c => columnGroups p.iss (side u.quarter)
          (if p.s + 1 = pSteps p.iss then pKLast p.iss else side u.quarter * fmtClass (pFmtW p.iss)) c
          (getBank (getArr s u) b) v.data v.scales) ∧
        w.poison = ((getBank (getArr s u) b).poison || v.poison) ∧ (getArr t u).lastEnter = some cyc ∧
        (getArr t u).rows = (getArr s u).rows ∧ t.mem = s.mem) ∧
    (∀ p before, (∀ q ∈ (getArr s u).passes, q.stop = none) → (∀ l, (getArr s u).lastEnter = some l → l < cyc) →
      enterNext [] (getArr s u).passes = some (p, before) →
      (bankFor (getArr s u) p cyc = none ∨
        ((getArr s u).stream.find? fun v => v.pass == p.id && v.s == p.s && v.i == p.i) = none) →
      exec (.wavefrontEnter u cyc) s = .next (bump (countCycles s u cyc) (pgMXA u.die u.pen u.arr) 2)) ∧
    (∀ w ws p r, (getArr s u).waves = w :: ws → cyc = w.entry + tailOf u.quarter →
      ((getArr s u).passes.find? fun p => p.id == w.pass) = some p →
      (∀ k ∈ rowStorage u.quarter (pMode p.iss) w.row, mget (getArr s u).flaws k = none) →
      r = updateRow (pMode p.iss != 0) (w.init.getD (getRow (getArr s u) u.quarter (pMode p.iss) w.row)) w →
      Answers (.accumulatorUpdate u ⟨cyc, []⟩) s fun t =>
        (getArr t u).waves = ws ∧ (getArr t u).rows = (putRow (getArr s u) u.quarter (pMode p.iss) w.row r).rows ∧
        (getRow (getArr t u) u.quarter (pMode p.iss) w.row).cells.map (·.acc) = r.cells.map (·.acc) ∧
        (∀ k, k ∉ rowStorage u.quarter (pMode p.iss) w.row → mget (getArr t u).rows k = mget (getArr s u).rows k) ∧
        t.mem = s.mem)

/-- A pass with rows to drain, at a store that is not busy, writes its next row's narrowed elements and its scales at the two
places the descriptor computes for that row, and advances by one row. Every byte outside those two places reads as before;
inside them stand the elements and the scales, where the two do not meet, no granule they touch is unreadable and none is in
the keep region. -/
def Obligations.DrainWritesOneRow : Prop :=
  ∀ (u : ArrayUnit) (p : Pass) (s : State), unitOk u = true → arrStopped s u = false →
    drainNext (getArr s u).passes = some p → (getArr s u).flaws = [] →
    ∀ r e pa pb, r = getRow (getArr s u) u.quarter (pMode p.iss) (pAccBase p.iss + p.drained % pVectors p.iss) →
      e = drainEncode s p.iss p.drained r →
      pa = (drainStore u.die u.pen u.arr p.iss).1 + dbits p.iss 483 464 * 16 + p.drained * (dbits p.iss 95 86 * 16) →
      pb = (drainStore u.die u.pen u.arr p.iss).1 + dbits p.iss 503 484 * 16 + p.drained * drainScaleBytes p.iss →
      storeBusy s u.die ((pa - spadBase) % 0x8000000) (drainRowBytes p.iss) = false →
      Answers (.drainRow u) s fun t =>
        (∀ q ∈ (getArr s u).passes, q.id = p.id → ∃ q' ∈ (getArr t u).passes, q'.id = p.id ∧ q'.drained = q.drained + 1) ∧
        (∀ a, (a < pa ∨ pa + e.1.length ≤ a) → (a < pb ∨ pb + e.2.1.length ≤ a) → readByte t a = readByte s a) ∧
        (s.poison = [] → s.spads = [] → (pa + e.1.length ≤ pb / 8 * 8 ∨ pb + e.2.1.length ≤ pa) →
          inKeep ((pa - spadBase) % 0x8000000) e.1.length = false →
          inKeep ((pb - spadBase) % 0x8000000) e.2.1.length = false → HoldsAt t pa e.1 ∧ HoldsAt t pb e.2.1)

/-- A write of MXA_CFG.QUARTER requests a mode, which takes effect on an array with no pass and no list; no other array
changes. A freeze holds every pass as it is; its release counts the frozen cycles. A fault asks for the self-check, which runs
once no pass is in flight (log 133); one that passes returns the array to dispatch, one that fails takes it offline. -/
def Obligations.ArrayModesFreezesAndFaults : Prop :=
  ∀ (d p a : Nat) (s : State), d < 16 → p < 9 → a < 8 →
    (∀ src q, Rules s src → leafExists s (pgMXA d p a) = true →
      Answers (.mxaCfgWrite src d p a q) s fun t => fbit t (pgMXA d p a) F.MXA_CFG_QUARTER = q ∧ t.arrCtl = s.arrCtl ∧
        t.arrs = s.arrs ∧ t.mem = s.mem) ∧
    ((∀ u ∈ unitsOf d p a, (getArr s u).passes = []) → heldByList s d p a = false → arrFrozen s d p a = false →
      Answers (.quarterModeSwitch d p a) s fun t =>
        (getCtl t d p a).quarter = fbit s (pgMXA d p a) F.MXA_CFG_QUARTER ∧
        (∀ u ∈ unitsOf d p a, (getArr t u).passes = [] ∧ (getArr t u).owner = (getArr s u).owner) ∧
        (∀ u, unitOk u = true → (u.die, u.pen, u.arr) ≠ (d, p, a) → getArr t u = getArr s u) ∧
        t.regs = s.regs ∧ t.mem = s.mem) ∧
    Answers (.arrayFreeze d p a) s (fun t => (getCtl t d p a).frozen = true ∧ t.arrs = s.arrs ∧ t.regs = s.regs ∧ t.mem = s.mem) ∧
    (∀ n, (getCtl s d p a).frozen = true →
      Answers (.arrayFreezeRelease d p a n) s fun t =>
        (getCtl t d p a).frozen = false ∧ t.arrs = s.arrs ∧ t.mem = s.mem ∧
        (fbit s (pgMXA d p a) F.CTL_CNT_FREEZE = false →
          counter t (pgMXA d p a) 3 = (counter s (pgMXA d p a) 3 + n) % 2 ^ 64)) ∧
    (∀ u cause shared, unitOk u = true → u.die = d → u.pen = p → u.arr = a → arrayExists s.fuse.gradeB (d * 72 + p * 8 + a) = true →
      (getCtl s d p a).offline = false → (getCtl s d p a).checking = false → 1 ≤ cause → cause ≤ 4 →
      Answers (.arrayFault u cause shared) s fun t => t = arrayFault s u cause shared ∧ (getCtl t d p a).checking = true) ∧
    (∀ u, unitOk u = true → u.die = d → u.pen = p → u.arr = a → checkRuns s d p a = true → arrStopped s u = false →
      Answers (.arraySelfCheckEnd u true) s (fun t => (getCtl t d p a).checking = false ∧ t.arrs = s.arrs ∧ t.mem = s.mem) ∧
      Answers (.arraySelfCheckEnd u false) s (fun t => (getCtl t d p a).offline = true))

/-- With its save slot writable, a stopped pass with no wavefront on the way leaves its array; without PREEMPT_RETURN
it waits, behind what waits there now, to resume from that slot (R577). When its turn comes, no pass in flight uses its rows
and its record is sound, it joins the passes again at the step, vector and wavefront count of the record. -/
def Obligations.PreemptedPassesSaveAndResume : Prop :=
  ∀ (u : ArrayUnit) (s : State), unitOk u = true →
    (∀ p stop s1 s2, arrStopped s u = false → ((getArr s u).passes.find? fun p => p.stop.isSome) = some p →
      p.stop = some stop → p.dead = false → (∀ w ∈ (getArr s u).waves, w.pass ≠ p.id) →
      saveGo u p.iss.ctx (passSlot s u p).1 (savePieces s u p).2 (savePieces s u p).1 = (s1, some (.ok ())) →
      saveGo u p.iss.ctx (passSlot s u p).1 [(0, resumeRecord u p true, false)] s1 = (s2, some (.ok ())) →
      Answers (.preemptSave u) s fun t =>
        (getArr t u).passes.map (·.id) = ((getArr s2 u).passes.filter fun q => q.id != p.id).map (·.id) ∧
        (pReturn p.iss = false → ∃ g, (getArr t u).again = (getArr s2 u).again ++ [g] ∧
          g.iss = { p.iss with slot := some ((passSlot s u p).1, []), num := (getArr s2 u).nextPass })) ∧
    (∀ x slot r s1 s2 s3 accB flagB pz1 pz2, unitNext s u = some x → x.slot = some (slot, []) →
      (getCtl s u.die u.pen u.arr).checking = false → arrFrozen s u.die u.pen u.arr = false → clocksStopped s = false →
      (getCtl s u.die u.pen u.arr).offline = false → (getCtl s u.die u.pen u.arr).quarter = u.quarter →
      rowsInUse (getArr s u) u.quarter x = false →
      ((getArr s u).passes.filter fun p => !allEntered p).length < 2 → pMode x = 0 → pReuse x = false →
      slotRead s u .ok x.ctx slot 128 = (s1, some (.ok (r, false))) → recordBad r = false →
      slotRead s1 u .ok x.ctx (slot + 0x5000 + pAccBase x * (4 * side u.quarter)) (pVectors x * 4 * side u.quarter) =
        (s2, some (.ok (accB, pz1))) →
      slotRead s2 u .ok x.ctx (slot + 0x1000 + pAccBase x * (side u.quarter / 4)) (pVectors x * (side u.quarter / 4)) =
        (s3, some (.ok (flagB, pz2))) →
      Answers (.resumeInPlace ⟨u, .ok⟩) s fun t => ∃ p,
        (getArr t u).passes = (getArr s3 u).passes ++ [p] ∧ p.iss = { x with slot := none } ∧ p.resumed = true ∧
        p.s = field r 0x44 1 ∧ p.i = field r 0x44 4 / 256 % 4096 ∧ p.entered = field r 0x48 4 ∧ p.stop = none)

/-- A PEN_RUN that fails no check starts exactly the cores it names, at ENTRY, with ARG0 to ARG3 in their first four
registers, and runs until all of them halt. A scalar instruction changes only its core's registers and pc, as the
toolchain's encoding has it (log 21), and an undefined one stops the core with FAULT_ABORT. HALT records its code.
Memory stays as it is. -/
def Obligations.PenRunStartsCoresAndTheyHalt : Prop :=
  (∀ c f x s, Granted s c 0x10 f x → cPen x < 9 → foldHasDie s f (cDie x) = true →
    storeBusy s (cDie x) (0x4800000 + cPen x * 0x400000) 1 = false →
    reservedOk x.word.toNat
      [(131, 128), (177, 160), (209, 192), (233, 224), (319, 256), (383, 320), (447, 384), (511, 448)] = true →
    cbits x 131 128 ≠ 0 → cbits x 177 160 ≤ cbits x 209 192 → cbits x 209 192 ≤ cbits x 177 160 + cbits x 233 224 →
    (cbits x 177 160 + cbits x 233 224 + 1) * 16 ≤ 0x400000 → coresBusy s (cDie x) (cPen x) (cbits x 131 128) = false →
    (paRead s 3 (penStorePa (cDie x) (cPen x) + cbits x 177 160 * 16) ((cbits x 233 224 + 1) * 16)).2.poison = false →
    Answers (.penRun c) s fun t =>
      (∀ k, k < 4 → (cbits x 131 128).testBit k = true →
        fbit t (pgPREP (cDie x) (cPen x) k) F.PREP_STS_RUNNING = true ∧
        fbit t (pgPREP (cDie x) (cPen x) k) F.PREP_STS_HALTED = false ∧
        (getCore t ⟨cDie x, cPen x, k⟩).pc = (cbits x 209 192 - cbits x 177 160) * 16 ∧
        (getCore t ⟨cDie x, cPen x, k⟩).regs.take 4 =
          [BitVec.ofNat 64 (cbits x 319 256), BitVec.ofNat 64 (cbits x 383 320), BitVec.ofNat 64 (cbits x 447 384),
           BitVec.ofNat 64 (cbits x 511 448)]) ∧
      (∀ k, k < 4 → (cbits x 131 128).testBit k = false →
        getCore t ⟨cDie x, cPen x, k⟩ = getCore s ⟨cDie x, cPen x, k⟩) ∧
      findCmd t c = some { x with phase := .running, left := popcount 4 (cbits x 131 128) } ∧ t.mem = s.mem) ∧
  (∀ core s, Runs s core → Answers (.prepInstruction core) s fun t => t.vregs = s.vregs ∧ t.mem = s.mem ∧
    (∀ pc regs, Config.lpxScalar (getCore s core).ibuf (getCore s core).pc (getCore s core).regs = some (pc, regs) →
      (getCore t core).pc = pc ∧ ∀ r, r < 32 → getReg (getCore t core) r = lget regs r 0) ∧
    (Config.lpxScalar (getCore s core).ibuf (getCore s core).pc (getCore s core).regs = none →
      t = stopCore s core stABORT 1 0)) ∧
  (∀ core code s, Runs s core → code = stSUCCESS ∨ code = stNOTE ∨ code = stOVERFLOW ∨ code = stPOISON →
    Answers (.halt core code) s fun t =>
      fbit t (corePage core) F.PREP_STS_RUNNING = false ∧ fbit t (corePage core) F.PREP_STS_HALTED = true ∧
      fget t (corePage core) F.PREP_STS_HALT_CODE = code ∧ t.preps = s.preps ∧ t.mem = s.mem)

/-- A load zero-extends its bytes into its register (log 138) and changes no memory. Where no granule is unreadable, a store
writes a register's low bytes at the place it names and nowhere else, a set view writes M OR D, a clear view M AND NOT D, and
a fetching one puts the old value into its register. An access outside the core's stores stops the core. -/
def Obligations.CoreAccessesReachTheirStores : Prop :=
  ∀ (core : PrepCore) (off len reg : Nat) (s : State), Runs s core → 1 ≤ len → len ≤ 8 →
    (getCore s core).regs.length = 32 →
    (Reaches s core off len → Answers (.prepLoadStore core false off len reg) s (fun t =>
        getReg (getCore t core) reg = BitVec.ofNat 64 (leNat (readBytes s (corePa core off) len)) ∧
        (∀ r, r % 32 ≠ reg % 32 → getReg (getCore t core) r = getReg (getCore s core) r) ∧ t.mem = s.mem)) ∧
    (Reaches s core off len → Whole s core.die off len →
      Answers (.prepLoadStore core true off len reg) s (fun t =>
        HoldsAt t (corePa core off) (leBytes len (getReg (getCore s core) reg).toNat) ∧
        SameOutside s t (corePa core off) len ∧ (getCore t core).regs = (getCore s core).regs) ∧
      (∀ clear dst, Answers (.prepViewStore core clear false off len reg dst) s fun t =>
        (∀ i, i < len → readByte t (corePa core off + i) =
          let m := readByte s (corePa core off + i)
          let d := lget (leBytes len (getReg (getCore s core) reg).toNat) i 0
          if clear then m &&& ~~~ d else m ||| d) ∧
        SameOutside s t (corePa core off) len ∧ (getCore t core).regs = (getCore s core).regs) ∧
      (∀ clear dst, len = 8 → off % 8 = 0 → Answers (.prepViewStore core clear true off len reg dst) s fun t =>
        getReg (getCore t core) dst = BitVec.ofNat 64 (leNat (readBytes s (corePa core off) 8)) ∧
        SameOutside s t (corePa core off) len)) ∧
    (coreReaches core off len = false → ∀ store,
      exec (.prepLoadStore core store off len reg) s = .next (stopCore s core stHOLE 2 off))

/-- A descriptor that a core issues goes behind those in the FIFO of its port and reserves a completion entry; with
the FIFO full, or with no entry left to reserve, the core stalls for that cycle and nothing is issued. A read of the
completion FIFO takes its oldest record. -/
def Obligations.CoreIssuesAndReadsCompletions : Prop :=
  ∀ (core : PrepCore) (desc : BitVec 512) (s : State), Runs s core →
    ((getCore s core).reserved + (getCore s core).cpl.length < 32 →
      (∀ a, a < 8 → (getArr s ⟨core.die, core.pen, a, false, 0⟩).fifo.length < 4 →
        Answers (.prepIssueDesc core (.array a) desc) s fun t =>
          (getArr t ⟨core.die, core.pen, a, false, 0⟩).fifo = (getArr s ⟨core.die, core.pen, a, false, 0⟩).fifo ++
            [⟨desc, .core core, (getCore s core).issued, fget s (corePage core) F.PREP_STS_CONTEXT, (getCore s core).gen, none,
              (getArr s ⟨core.die, core.pen, a, false, 0⟩).nextPass⟩] ∧
          (getCore t core).reserved = (getCore s core).reserved + 1 ∧ t.mem = s.mem) ∧
      (∀ port s', portOk port = true →
        pushIssue s core.die core.pen port
          ⟨desc, .core core, (getCore s core).issued, fget s (corePage core) F.PREP_STS_CONTEXT, (getCore s core).gen, none, 0⟩ = some s' →
        Answers (.prepIssueDesc core port desc) s fun t => t.arrs = s'.arrs ∧ t.hatches = s'.hatches ∧
          (getCore t core).reserved = (getCore s core).reserved + 1 ∧ t.mem = s.mem) ∧
      (∀ a, a < 8 → 4 ≤ (getArr s ⟨core.die, core.pen, a, false, 0⟩).fifo.length →
        exec (.prepIssueDesc core (.array a) desc) s = .next (bump s (corePage core) 3))) ∧
    (32 ≤ (getCore s core).reserved + (getCore s core).cpl.length →
      exec (.prepIssueDesc core .hatch desc) s = .next (bump s (corePage core) 4)) ∧
    (∀ r rest reg, (getCore s core).regs.length = 32 → (getCore s core).cpl = r :: rest →
      Answers (.prepCompletionRead core reg) s fun t =>
        (getCore t core).cpl = rest ∧ getReg (getCore t core) reg = BitVec.ofNat 64 (field r 0 8) ∧
        getReg (getCore t core) (reg + 1) = BitVec.ofNat 64 (field r 8 8) ∧ t.mem = s.mem)

/-- VADD, VSUB, VMUL, VMIN, VMAX and VDIV combine two registers lane by lane; VSQRT, VRCP, VRSQRT, VEXP, VLOG and
VTANH map one; VFMA combines three. The destination alone of the vector registers changes, and neither the core's
scalar registers nor memory do. -/
def Obligations.VectorInstructionsWorkLaneByLane : Prop :=
  ∀ (core : PrepCore) (d a b c : Nat) (s : State), Runs s core →
    (∀ i f, (i, f) ∈ [(Instr.vadd core d a b, fp32Add), (.vsub core d a b, fp32Sub), (.vmul core d a b, fp32Mul),
        (.vmin core d a b, fp32Min), (.vmax core d a b, fp32Max), (.vdiv core d a b, fp32Div)] →
      Answers i s fun t =>
        getVreg t core d = ((getVreg s core a).zip (getVreg s core b)).map (fun e => f e.1 e.2) ∧
        (∀ r, r % 32 ≠ d % 32 → getVreg t core r = getVreg s core r) ∧ (getCore t core).regs = (getCore s core).regs ∧
        t.mem = s.mem) ∧
    (∀ i f, (i, f) ∈ [(Instr.vsqrt core d a, fp32Sqrt), (.vrcp core d a, fp32Div fp32One), (.vrsqrt core d a, fp32Rsqrt),
        (.vexp core d a, fp32Exp), (.vlog core d a, fp32Log), (.vtanh core d a, fp32Tanh)] →
      Answers i s fun t =>
        getVreg t core d = (getVreg s core a).map f ∧ (∀ r, r % 32 ≠ d % 32 → getVreg t core r = getVreg s core r) ∧
        (getCore t core).regs = (getCore s core).regs ∧ t.mem = s.mem) ∧
    Answers (.vfma core d a b c) s (fun t =>
      getVreg t core d =
        ((getVreg s core a).zip ((getVreg s core b).zip (getVreg s core c))).map (fun e => fp32Fma e.1 e.2.1 e.2.2) ∧
      (∀ r, r % 32 ≠ d % 32 → getVreg t core r = getVreg s core r) ∧ t.mem = s.mem)

/-- VRSUM puts the five-level tree sum into lane 0. VTRN exchanges lane and register. VLD.W and VBDEC put 32 widened
elements into their register and leave memory as it is; VST.N and VBENC write the narrowed elements (VBENC their
scales too) and nothing else of memory; a stochastic draw of a reserved purpose, or for a coordinate of 2^56 or more, stops
the core. -/
def Obligations.VectorReduceTransposeLoadStore : Prop :=
  ∀ (core : PrepCore) (d a : Nat) (s : State), Runs s core →
    ((getVreg s core d).length = 32 →
      Answers (.vrsum core d a) s fun t =>
        lget (getVreg t core d) 0 0 = treeSum (getVreg s core a) ∧
        (∀ l, 0 < l → lget (getVreg t core d) l 0 = lget (getVreg s core d) l 0) ∧ t.mem = s.mem) ∧
    Answers (.vtrn core) s (fun t =>
      (∀ r l, r < 32 → l < 32 → lget (getVreg t core r) l 0 = lget (getVreg s core l) r 0) ∧ t.mem = s.mem) ∧
    (∀ fmt off so ts sat, vecFmtOk fmt ts = true → Reaches s core off (vecBytes fmt) →
      (isBlock fmt = true → Reaches s core so (vecScales fmt)) →
      Answers (.vldW core d fmt off so ts sat) s fun t =>
        getVreg t core d = (widenLanes fmt ts sat (readBytes s (corePa core off) (vecBytes fmt))
          (if isBlock fmt then readBytes s (corePa core so) (vecScales fmt) else [])).map (fun e => BitVec.ofNat 32 e.1) ∧
        t.mem = s.mem) ∧
    (∀ fmt off so ts, blockFmtOk fmt ts = true → Reaches s core off (vecBytes fmt) → Reaches s core so (vecScales fmt) →
      Answers (.vbdec core d fmt off so ts) s fun t =>
        getVreg t core d = (widenLanes fmt ts false (readBytes s (corePa core off) (vecBytes fmt))
          (readBytes s (corePa core so) (vecScales fmt))).map (fun e => BitVec.ofNat 32 e.1) ∧ t.mem = s.mem) ∧
    (∀ fmt off so ts sat (sr : Option SrKey), fmtKnown fmt = true → isBlock fmt = false → Reaches s core off (vecBytes fmt) →
      (∀ k, sr = some k → purposeOk k.purpose = true ∧ k.coord + 31 < 2 ^ 56) →
      Whole s core.die off (vecBytes fmt) → (getVreg s core a).length = 32 →
      Answers (.vstN core a fmt off so ts sat sr) s fun t =>
        HoldsAt t (corePa core off) (packElems fmt ((mapIdx (fun l w => narrow (elemFmt fmt) sat
          (match sr with | some k => .sr (laneDraw s core k l) | none => .rne) (ofFp32 w)) 0 (getVreg s core a)).map (·.1))) ∧
        SameOutside s t (corePa core off) (vecBytes fmt) ∧ t.vregs = s.vregs) ∧
    (∀ fmt off so ts sat k, fmtKnown fmt = true → isBlock fmt = false →
      (purposeOk k.purpose = false → exec (.vstN core a fmt off so ts sat (some k)) s = .next (stopCore s core stBAD 1 0)) ∧
      (purposeOk k.purpose = true → 2 ^ 56 ≤ k.coord + 31 →
        exec (.vstN core a fmt off so ts sat (some k)) s = .next (stopCore s core stUNSUP 6 0))) ∧
    (∀ fmt off so ts (sr : Option SrKey) blocks, (∀ k, sr = some k → purposeOk k.purpose = true ∧ k.coord + 31 < 2 ^ 56) →
      blockFmtOk fmt ts = true → Reaches s core off (vecBytes fmt) → Reaches s core so (vecScales fmt) →
      (getVreg s core a).length = 32 →
      blocks = (List.range (32 / blockElems fmt)).map (fun b =>
        encBlock fmt ts (sr.map fun k i => laneDraw s core k (b * blockElems fmt + i))
          ((((getVreg s core a).map ofFp32).drop (b * blockElems fmt)).take (blockElems fmt))) →
      Answers (.vbenc core a fmt off so ts sr) s fun t =>
        (∀ x, (x < corePa core off ∨ corePa core off + vecBytes fmt ≤ x) →
          (x < corePa core so ∨ corePa core so + vecScales fmt ≤ x) → readByte t x = readByte s x) ∧ t.vregs = s.vregs ∧
        (Whole s core.die off (vecBytes fmt) → Whole s core.die so (vecScales fmt) →
          (off + vecBytes fmt ≤ so ∨ so + vecScales fmt ≤ off) →
          HoldsAt t (corePa core off) (packElems fmt (blocks.flatMap (·.codes))) ∧
          HoldsAt t (corePa core so) (blocks.map fun b => BitVec.ofNat 8 b.scale)))

/-- A descriptor that fails no check leaves the hatch FIFO and starts with its vectors as the pen store holds them.
Weights that do not end a row are kept and change no memory; those that end one write its outputs and advance the row,
and the last row, or a read that fails, ends the descriptor; none is read while the duty cycle freezes the die's arrays. -/
def Obligations.HatchRunsItsDescriptor : Prop :=
  ∀ (d p : Nat) (s : State), d < 16 → p < 9 → clocksStopped s = false →
    (∀ x rest, (getHatch s d p).fifo = x :: rest → (getHatch s d p).run = none → storeBusy s d (0x4800000 + p * 0x400000) 1 = false →
      hatchCheck s d x = none → fenced s ((ctxFold s x.ctx).getD 0) = false →
      Answers (.hatch d p) s fun t => (getHatch t d p).fifo = rest ∧
        (∃ r, (getHatch t d p).run = some r ∧ r.iss = x ∧ r.row = 0 ∧ r.got = [] ∧
          r.vecs = (hatchVectors s d p x).2.map (fun e => e.1)) ∧ t.mem = s.mem) ∧
    (∀ resp, dutyFrozen s d = true → exec (.hatchWeightLine d p resp) s = .next s) ∧
    (∀ r off n resp, dutyFrozen s d = false → (getHatch s d p).run = some r →
      off = dbits r.iss 127 80 + r.row * dbits r.iss 159 128 + r.got.length →
      n = min (rowBytes (hFmtW r.iss) (hK r.iss) - r.got.length) (256 - off % 256) →
      (rowBytes (hFmtW r.iss) (hK r.iss) ≤ r.got.length + n → hatchOutBusy s d p r = false) →
      (∀ code s', hatchRead s d p r.iss off n resp = (s', some (.error code)) →
        exec (.hatchWeightLine d p resp) s = .next (hatchFail s' d p r code)) ∧
      (∀ bs q s', hatchRead s d p r.iss off n resp = (s', some (.ok (bs, q))) →
        (r.got.length + bs.length < rowBytes (hFmtW r.iss) (hK r.iss) →
          Answers (.hatchWeightLine d p resp) s fun t =>
            (getHatch t d p).run = some { r with got := r.got ++ bs, rowPoison := r.rowPoison || q } ∧ t.mem = s'.mem) ∧
        (∀ ws wq s2 r' o, rowBytes (hFmtW r.iss) (hK r.iss) ≤ r.got.length + bs.length →
          hatchRead s' d p r.iss (dbits r.iss 207 160 + r.row * dbits r.iss 239 208) (rowScaleBytes (hFmtW r.iss) (hK r.iss))
            (if hSpace r.iss = 0 then respRest s' (.hatch d p) r.iss.ctx off n resp else resp) = (s2, some (.ok (ws, wq))) →
          r' = { r with got := r.got ++ bs, rowPoison := r.rowPoison || q } →
          o = hatchRow (hatchBytes s2 d p n) d p r' ws wq →
          (o.2.row + 1 < hN r.iss →
            Answers (.hatchWeightLine d p resp) s fun t =>
              (getHatch t d p).run = some { o.2 with row := o.2.row + 1, got := [], rowPoison := false } ∧ t.mem = o.1.mem) ∧
          (hN r.iss ≤ o.2.row + 1 →
            Answers (.hatchWeightLine d p resp) s fun t => (getHatch t d p).run = none))))

/-- A DESC_LIST whose every descriptor passes is held on its pen, from its first descriptor on; one with a failing
descriptor completes with that code and its index and starts nothing. The sequencer puts the next descriptor into the
issue FIFO it names and goes on to the one after. Memory stays as it is. -/
def Obligations.ListsAreCheckedAndIssuedInOrder : Prop :=
  (∀ c f x s s1, Granted s c 0x11 f x → cDie x < 16 → cPen x < 9 → foldHasDie s f (cDie x) = true →
    reservedOk x.word.toNat [(145, 128), (171, 160)] = true → cbits x 145 128 % 4 = 0 →
    cbits x 145 128 * 16 + (cbits x 171 160 + 1) * 64 ≤ 0x400000 → mget s.lists (cDie x * 9 + cPen x) = none →
    storeBusy s (cDie x) (0x4800000 + cPen x * 0x400000) 1 = false →
    s1 = (paRead s 4 (penStorePa (cDie x) (cPen x) + cbits x 145 128 * 16) ((cbits x 171 160 + 1) * 64)).1 →
    (paRead s 4 (penStorePa (cDie x) (cPen x) + cbits x 145 128 * 16) ((cbits x 171 160 + 1) * 64)).2.poison = false →
    (listCheck (cDie x) (cPen x) (listOf s c x) s1 = none →
      Answers (.descList c) s fun t =>
        (∃ l, mget t.lists (cDie x * 9 + cPen x) = some l ∧ l.cmd = c ∧ l.ctx = c.ctx ∧ l.next = 0 ∧ l.results = [] ∧
          l.descs = (listOf s c x).map (·.desc)) ∧
        fbit t (pgPENPREP (cDie x) (cPen x)) F.LIST_STS_ACTIVE = true ∧
        findCmd t c = some { x with phase := .running } ∧ t.mem = s.mem) ∧
    (∀ i code, listCheck (cDie x) (cPen x) (listOf s c x) s1 = some (i, code) →
      exec (.descList c) s = .next (finishCmd s1 c { reject code with note := i }))) ∧
  (∀ d p l x port s' s, d < 16 → p < 9 → clocksStopped s = false → mget s.lists (d * 9 + p) = some l → l.next < l.descs.length →
    x = ⟨lget l.descs l.next 0, .list d p, l.next, l.ctx, l.gen, none, 0⟩ → (l.results.any fun r => r.1 == l.next) = false →
    (dbits x 7 0 = 0x50 → l.faulted.testBit (passUnit d p x).arr = false) →
    port = (if dbits x 7 0 = 0x51 then .hatch
      else if (passUnit d p x).quarter then .quarter (passUnit d p x).arr (passUnit d p x).qid else .array (passUnit d p x).arr) →
    pushIssue s d p port x = some s' →
    Answers (.listIssueDesc d p) s fun t =>
      mget t.lists (d * 9 + p) = some { l with next := l.next + 1 } ∧ t.arrs = s'.arrs ∧ t.hatches = s'.hatches ∧ t.mem = s.mem)

/-- Completing a command that has not completed records its status. If it carries a signal whose generation is the
tally's, its amount is added to that tally modulo 2^64; a signal of another generation changes no tally and is marked
stale. A second completion of one command changes nothing. At its front-end, a NOP only completes; a TALLY_WAIT whose
target is reached completes; TALLY_ADD adds its amount whatever the generation; TALLY_SET sets value and generation
together, unless it would lower the value under the same generation. A TALLY_ADD register write adds too, changes no other
tally, and releases, in that cycle, the TALLY_WAIT at the head of a queue whose target the new value reaches. -/
def Obligations.CompletionsAndTallies : Prop :=
  (∀ (s : State) (id : CmdId) (r : Res) (x : Cmd), findCmd s id = some x →
    (x.phase = .done → finishCmd s id r = s) ∧
    (x.phase ≠ .done →
      (∃ y, findCmd (finishCmd s id r) id = some y ∧ y.phase = .done ∧ y.res = r ∧ y.word = x.word ∧
        (y.stale = true ↔ x.word.toNat.testBit 10 = true ∧ (getTally s id.ctx (cbits x 29 24)).gen ≠ cGen x)) ∧
      (x.word.toNat.testBit 10 = true → (getTally s id.ctx (cbits x 29 24)).gen = cGen x →
        (getTally (finishCmd s id r) id.ctx (cbits x 29 24)).val =
          BitVec.ofNat 64 ((getTally s id.ctx (cbits x 29 24)).val.toNat + cbits x 95 64)) ∧
      (x.word.toNat.testBit 10 = false ∨ (getTally s id.ctx (cbits x 29 24)).gen ≠ cGen x →
        (finishCmd s id r).tallies = s.tallies) ∧
      (finishCmd s id r).mem = s.mem)) ∧
  (∀ c f x s, Granted s c 0x00 f x → reservedOk x.word.toNat [] = true → exec (.nop c) s = .next (finishCmd s c {})) ∧
  (∀ c f x s, Granted s c 0x20 f x → reservedOk x.word.toNat [(133, 128), (255, 192)] = true →
    exec (.tallyWait c) s = .next (finishCmd s c {})) ∧
  (∀ c f x s, Granted s c 0x21 f x → reservedOk x.word.toNat [(133, 128), (255, 192)] = true →
    Answers (.tallyAdd c) s fun t =>
      t = finishCmd (tallyAdd s c.ctx (cbits x 133 128) (cbits x 255 192)) c {} ∧
      (x.word.toNat.testBit 10 = false → (getTally t c.ctx (cbits x 133 128)).val =
        BitVec.ofNat 64 ((getTally s c.ctx (cbits x 133 128)).val.toNat + cbits x 255 192)) ∧ t.mem = s.mem) ∧
  (∀ c f x s, Granted s c 0x22 f x → reservedOk x.word.toNat [(133, 128), (255, 192), (263, 256)] = true →
    (cbits x 263 256 = (getTally s c.ctx (cbits x 133 128)).gen →
      (getTally s c.ctx (cbits x 133 128)).val.toNat ≤ cbits x 255 192) →
    Answers (.tallySet c) s fun t =>
      t = finishCmd (tallySet s c.ctx (cbits x 133 128) (cbits x 255 192) (cbits x 263 256)) c {} ∧
      (x.word.toNat.testBit 10 = false → (getTally t c.ctx (cbits x 133 128)).val = BitVec.ofNat 64 (cbits x 255 192) ∧
        (getTally t c.ctx (cbits x 133 128)).gen = cbits x 263 256) ∧ t.mem = s.mem) ∧
  (∀ src ctx tally (amount : BitVec 32) s, ctx < 512 → tally < 64 → Rules s src →
    Answers (.tallyAddReg src ctx tally amount) s fun t =>
      (getTally t ctx tally).val = BitVec.ofNat 64 ((getTally s ctx tally).val.toNat + amount.toNat) ∧
      (getTally t ctx tally).gen = (getTally s ctx tally).gen ∧
      (∀ k, k ≠ tallyKey ctx tally → mget t.tallies k = mget s.tallies k) ∧
      (∀ y, y ∈ s.cmds → (y ∈ t.cmds ∨ { y with met := true } ∈ t.cmds)) ∧ t.cmds.length = s.cmds.length ∧
      t.regs = s.regs ∧ t.mem = s.mem) ∧
  (∀ src (amount : BitVec 32) s x, Rules s src → x.id.ctx < 512 → findCmd s x.id = some x → x.phase = .head → x.failed = none →
    cOp x = 0x20 → fenceOk s x = true →
    cbits x 255 192 ≤ (BitVec.ofNat 64 ((getTally s x.id.ctx (cbits x 133 128)).val.toNat + amount.toNat)).toNat →
    Answers (.tallyAddReg src x.id.ctx (cbits x 133 128) amount) s fun t => findCmd t x.id = some { x with met := true })

/-- GEN_FENCE at its front-end completes. RETIRE ends what has not begun at its group and completes with how many that
were. PREEMPT of the issuing context's own pass in flight decides on that pass, unless the array checks itself, and
completes. RESUME of a sound record places the pass in its target's issue FIFO, carrying the save slot and the record. -/
def Obligations.GenerationAndPreemptionCommands : Prop :=
  (∀ c f x g s, Granted s c 0x28 f x → reservedOk x.word.toNat [(147, 128), (167, 160)] = true → genGroup x = some g →
    exec (.genFence c) s = .next (finishCmd s c {})) ∧
  (∀ c f x g acc s, Granted s c 0x29 f x → reservedOk x.word.toNat [(147, 128), (167, 160)] = true → genGroup x = some g →
    cbits x 167 160 ≠ cGen x →
    acc = (groupPens g).foldl (retireList c.ctx (cbits x 167 160))
      ((groupPens g).foldl (retireFifos c.ctx (cbits x 167 160)) (retireCmds c.ctx (cbits x 167 160) g (s, 0))) →
    exec (.retire c) s = .next (finishCmd acc.1 c { note := min acc.2 0xFFFF })) ∧
  (∀ c f x p s, Granted s c 0x18 f x → reservedOk x.word.toNat [(133, 128)] = true → quarterBad x = false →
    arrayExists s.fuse.gradeB ((cmdUnit x).die * 72 + (cmdUnit x).pen * 8 + (cmdUnit x).arr) = true →
    foldHasDie s f (cmdUnit x).die = true → passInFlight (getArr s (cmdUnit x)) = some p → p.iss.ctx = c.ctx →
    fbit s (pgCTX c.ctx) F.CTX_SAVE_HI_SAVE_VALID = true →
    exec (.preempt c) s = .next (finishCmd (if checkRuns s (cmdUnit x).die (cmdUnit x).pen (cmdUnit x).arr ||
      (getCtl s (cmdUnit x).die (cmdUnit x).pen (cmdUnit x).arr).offline then s else preemptDecide s (cmdUnit x) p) c {}) ∧
    (p.stop = none → p.decided = false → 4096 < pSteps p.iss * pVectors p.iss - p.entered + tailOf (cmdUnit x).quarter →
      ∃ q ∈ (getArr (preemptDecide s (cmdUnit x) p) (cmdUnit x)).passes, q.id = p.id ∧ q.stop = some (saveArea s c.ctx, herdTime s))) ∧
  (∀ c resp f x r s1 s, Granted s c 0x19 f x → reservedOk x.word.toNat [(133, 128), (239, 192)] = true → quarterBad x = false →
    cbits x 239 192 % 4096 = 0 →
    streamRead s (.queue c.ctx c.q) {} c.ctx .rd resp [(cbits x 239 192, 128)] [] false = (s1, some (.ok (r, false))) →
    recordBad r = false →
    arrayExists s1.fuse.gradeB ((cmdUnit x).die * 72 + (cmdUnit x).pen * 8 + (cmdUnit x).arr) = true →
    resumeState s1 c (cmdUnit x) r ⟨recordDesc r, .cmd c, 0, c.ctx, cGen x, some (cbits x 239 192, r), 0⟩ = false →
    ctxFold s1 c.ctx = some f → fenced s1 f = false → (getArr s1 (cmdUnit x)).fifo.length < fifoDepth →
    Answers (.resume ⟨c, resp⟩) s fun t =>
      (getArr t (cmdUnit x)).fifo = (getArr s1 (cmdUnit x)).fifo ++
        [⟨recordDesc r, .cmd c, 0, c.ctx, cGen x, some (cbits x 239 192, r), (getArr s1 (cmdUnit x)).nextPass⟩] ∧
      t.mem = s1.mem)

/-- A doorbell that leaves at most the ring between HEAD and TAIL sets the tail; one that leaves more is discarded and
sets DB_OVERRUN. A write of ENABLE sets it. A head that has waited past AGE_LIMIT is marked aged. A write of CPL_ERR
with no record held clears it. None changes memory or the commands in flight; a fold without authority changes nothing
but its own count of discarded writes. -/
def Obligations.QueueRegistersAct : Prop :=
  ∀ (ctx q : Nat) (s : State), ctx < 512 → q < 8 →
    (∀ src, Rules s src →
      (∀ tail : BitVec 16, (tail.toNat + 65536 - fgeti s (pgCTX ctx) F.QSTS_HEAD q) % 65536 ≤ ringSize s ctx q →
        Answers (.queueDoorbell src ctx q tail) s fun t => (getQueue t ctx q).tail = tail.toNat ∧
          (getQueue t ctx q).disp = (getQueue s ctx q).disp ∧ (getQueue t ctx q).posted = (getQueue s ctx q).posted ∧
          t.regs = s.regs ∧ t.cmds = s.cmds ∧ t.mem = s.mem) ∧
      (∀ tail : BitVec 16, ringSize s ctx q < (tail.toNat + 65536 - fgeti s (pgCTX ctx) F.QSTS_HEAD q) % 65536 →
        Answers (.queueDoorbell src ctx q tail) s fun t => fbiti t (pgCTX ctx) F.QSTS_DB_OVERRUN q = true ∧
          t.queues = s.queues ∧ t.cmds = s.cmds ∧ t.mem = s.mem) ∧
      (∀ e, Answers (.queueEnableWrite src ctx q e) s fun t => fbiti t (pgCTX ctx) F.QCFG_ENABLE q = e ∧
        t.queues = s.queues ∧ t.cmds = s.cmds ∧ t.mem = s.mem) ∧
      ((getQueue s ctx q).held = none →
        Answers (.cplErrRetry src ctx q) s fun t => fbiti t (pgCTX ctx) F.QSTS_CPL_ERR q = false ∧ t.cmds = s.cmds ∧ t.mem = s.mem) ∧
      (∀ rec x s1, (getQueue s ctx q).held = some rec → oldestCmd s ctx q = some x →
        streamWrite (fputi s (pgCTX ctx) F.QSTS_CPL_ERR q 0) (.queue ctx q) {} ctx .wr false .ok
          [(recordVa (fputi s (pgCTX ctx) F.QSTS_CPL_ERR q 0) ctx q, 16)] rec false = (s1, some (.ok false)) →
        Answers (.cplErrRetry src ctx q) s fun t => (getQueue t ctx q).held = none ∧
          (getQueue t ctx q).posted = ((getQueue s ctx q).posted + 1) % 65536 ∧
          t.cmds = s1.cmds.filter (fun y => y.id != x.id) ∧ t.mem = s1.mem)) ∧
    (∀ src g, authOf s src = .fold g → foldHasPage s g (pgCTX ctx) = false → ∀ tail,
      exec (.queueDoorbell src ctx q tail) s = .next (bump s (pgFOLD g) 10)) ∧
    (∀ x us, queueHead s ctx q = some x → x.phase = .ready → fgeti s (pgCTX ctx) F.QCFG_AGE_LIMIT q ≠ 0 →
      fgeti s (pgCTX ctx) F.QCFG_AGE_LIMIT q < us →
      Answers (.queueAged ctx q us) s fun t => fbiti t (pgCTX ctx) F.QSTS_AGED q = true ∧ t.cmds = s.cmds ∧ t.mem = s.mem)

/-- With its fold and queue enabled and no head waiting, a fetch reads the entry at HEAD and advances HEAD by one. A
head with its FENCE met and room in the completion ring goes to its front-end, or waits at its unit input, where with
some head waiting one is granted: of the aged ones the earliest. The oldest command of a queue, once done, has its
record written and leaves. -/
def Obligations.QueuesFetchDispatchGrantPost : Prop :=
  (∀ ctx q resp f bs s1 s, ctx < 512 → q < 8 → ctxFold s ctx = some f → foldFetches s f = true →
    fbit s (pgCTX ctx) F.CTX_CFG_ENABLE = true → fbiti s (pgCTX ctx) F.QCFG_ENABLE q = true → queueHead s ctx q = none →
    ((getQueue s ctx q).tail + 65536 - fgeti s (pgCTX ctx) F.QSTS_HEAD q) % 65536 ≠ 0 →
    streamRead s (.queue ctx q) {} ctx .rd resp
      [(fpair s (pgCTX ctx) F.QBASE_LO_BASE_LO F.QBASE_HI_BASE_HI q + fgeti s (pgCTX ctx) F.QSTS_HEAD q % ringSize s ctx q * 64, 64)]
      [] false = (s1, some (.ok (bs, false))) →
    (leNat bs).testBit 11 = false →
    Answers (.queueFetch ctx ⟨q, resp⟩) s fun t => ∃ x, t.cmds = s1.cmds ++ [x] ∧ x.id = ⟨ctx, q, fgeti s (pgCTX ctx) F.QSTS_HEAD q⟩ ∧
      x.word = BitVec.ofNat 512 (leNat bs) ∧ x.phase = .head ∧ x.failed = none ∧
      fgeti t (pgCTX ctx) F.QSTS_HEAD q = (fgeti s (pgCTX ctx) F.QSTS_HEAD q + 1) % 2 ^ 16 ∧ t.mem = s1.mem) ∧
  (∀ ctx q x s, ctx < 512 → q < 8 → queueHead s ctx q = some x → x.phase = .head → postRoom s ctx q = true → fenceOk s x = true →
    x.failed = none → badHead x = false → (cOp x = 0x20 → tallyReached s x = true) → (cOp x = 0x28 → genFenceOk s x = true) →
    findCmd s x.id = some x →
    Answers (.queueDispatch ctx q) s fun t => ∃ y, findCmd t x.id = some y ∧ y.word = x.word ∧
      y.phase = (if (inputOf s x).isSome then .ready else .granted) ∧ t.mem = s.mem) ∧
  (∀ u s, unitHeads s u ≠ [] →
    Answers (.unitInputGrant u) s fun t => ∃ c ∈ unitHeads s u, (∃ y, findCmd t c.id = some y ∧ y.phase = .granted) ∧
      (∀ a ∈ unitHeads s u, isAged s a = true → isAged s c = true ∧ c.stamp ≤ a.stamp) ∧ t.mem = s.mem) ∧
  (∀ ctx q resp x s1 s, ctx < 512 → q < 8 → oldestCmd s ctx q = some x → x.phase = .done → (getQueue s ctx q).held = none →
    streamWrite s (.queue ctx q) {} ctx .wr false resp
      [(fpair s (pgCTX ctx) F.CBASE_LO F.CBASE_HI q + (getQueue s ctx q).posted % ringSize s ctx q * 16, 16)] (cplRecord x) false =
        (s1, some (.ok false)) →
    Answers (.completionPost ctx ⟨q, resp⟩) s fun t =>
      t.cmds = s1.cmds.filter (fun y => y.id != x.id) ∧ (getQueue t ctx q).posted = ((getQueue s ctx q).posted + 1) % 65536 ∧
      t.mem = s1.mem)

/-- With one request of one line at a free port outside the keep region: a read of sound granules answers the bytes and
changes no memory; a plain write of whole granules writes exactly its bytes; a locked access takes the port first and in
its second cycle writes only its bytes, each as its view says where no granule is unreadable. A read of the keep region by
a requester that may not is refused with PERM_FAULT. A granule whose error came to light is poisoned by the write that R174
asks for, and a scrub advances to the next line. -/
def Obligations.StorePortPerformsAccesses : Prop :=
  ∀ (d st : Nat) (s : State), d < 16 → st < 82 → fbit s (pgSPAD d) F.SPAD_STS_INIT_BUSY = false →
    (∀ r, (getSpad s d st).locked = none → (getSpad s d st).rest = [] → r.who ≠ .feed → r.who ≠ .scrub → r.who ≠ .mark →
      1 ≤ r.len → r.off % 256 + r.len ≤ 256 → r.off + r.len ≤ storeSize st → r.ecc = .clean →
      (inKeep (reqOff st r) r.len = false →
        (r.write = none → flawsIn (getSpad s d st) (reqOff st r) r.len = [] →
          poisonedIn s (aperPa d (reqOff st r)) r.len = [] →
          Answers (.spadPortGrant d st [r]) s fun t =>
            t.resp = { data := readBytes s (aperPa d (reqOff st r)) r.len } ∧ t.mem = s.mem) ∧
        (∀ bs, r.write = some bs → r.view = 0 → r.poison = false → r.off % 8 = 0 → r.len % 8 = 0 →
          Answers (.spadPortGrant d st [r]) s fun t =>
            HoldsAt t (aperPa d (reqOff st r)) (slice bs 0 r.len) ∧ SameOutside s t (aperPa d (reqOff st r)) r.len) ∧
        (reqLocked r = true →
          Answers (.spadPortGrant d st [r]) s fun t => (getSpad t d st).locked = some r ∧ t.mem = s.mem)) ∧
      (inKeep (reqOff st r) r.len = true → fbit s (pgSPAD d) F.SPAD_STS_KEEP_WIPING = false → r.write = none →
        keepAllows (spadClass r.who) r.secure = false →
        Answers (.spadPortGrant d st [r]) s fun t =>
          t.resp = { data := List.replicate r.len 0, code := stPERM } ∧ t.mem = s.mem)) ∧
    (∀ r bs reqs, (getSpad s d st).locked = some r → r.who ≠ .scrub → r.write = some bs →
      inKeep (reqOff st r) r.len = false →
      Answers (.spadPortGrant d st reqs) s fun t => (getSpad t d st).locked = none ∧
        SameOutside s t (aperPa d (reqOff st r)) r.len ∧
        (Whole s d (reqOff st r) r.len → ∀ i, i < r.len → readByte t (aperPa d (reqOff st r) + i) =
          viewByte r.view (readByte s (aperPa d (reqOff st r) + i)) (lget bs i 0))) ∧
    (∀ n g, n * 8 < storeSize st → g = storeOff st / 8 + n → mget (getSpad s d st).flaws g = some .met →
      storeBusy s d (g * 8) 8 = false →
      Answers (.poisonMarkWrite d st n) s fun t =>
        poisonAt t (aperPa d (g * 8)) = true ∧ mget (getSpad t d st).flaws g = none ∧ t.mem = s.mem) ∧
    (∀ g e, fbit s (pgSPAD d) F.SPAD_ARB_SCRUB_EN = true →
      storeBusy s d (storeOff st + (getSpad s d st).scrub * 256) 256 = false →
      Answers (.scrubLine d st g e) s fun t =>
        (getSpad t d st).scrub = ((getSpad s d st).scrub + 1) % (storeSize st / 256) ∧
        (e ≠ .uncorrectable → t.mem = s.mem))

/-- A clear at package reset or power-up leaves every byte of the die's aperture zero, one at a fold's reset or change
every byte outside the keep region; no other memory changes, and INIT_BUSY is set until the clear is done. A wipe
zeroes the keep region of every die whose rail is up and records its cause. -/
def Obligations.StoresClearAndKeepRegionsWipe : Prop :=
  ∀ (d : Nat) (s : State), d < 16 →
    (∀ cause, cause = .packageReset ∨ cause = .powerUp →
      Answers (.storeClear d cause) s fun t => fbit t (pgSPAD d) F.SPAD_STS_INIT_BUSY = true ∧
        (∀ o, o < spadBytes → readByte t (spadBase + d * 0x8000000 + o) = 0) ∧
        SameOutside s t (spadBase + d * 0x8000000) spadBytes) ∧
    (∀ cause, cause = .foldReset ∨ cause = .foldChange →
      Answers (.storeClear d cause) s fun t => fbit t (pgSPAD d) F.SPAD_STS_INIT_BUSY = true ∧
        (∀ o, o < 0x7BC0000 → readByte t (spadBase + d * 0x8000000 + o) = 0) ∧
        (∀ o, 0x7BC0000 ≤ o → o < 0x7C00000 →
          readByte t (spadBase + d * 0x8000000 + o) = readByte s (spadBase + d * 0x8000000 + o)) ∧
        SameOutside s t (spadBase + d * 0x8000000) spadBytes) ∧
    Answers (.storeClearDone d) s (fun t => fbit t (pgSPAD d) F.SPAD_STS_INIT_BUSY = false ∧ t.mem = s.mem) ∧
    (∀ cause, dieRailUp s d = true → (∀ e, e < 16 → (getSpad s e 81).locked = none) →
      Answers (.keepWipe cause) s fun t => fbit t (pgSPAD d) F.SPAD_STS_KEEP_WIPING = true ∧
        fget t (pgSPAD d) F.SPAD_STS_WIPE_CAUSE = (match cause with | .tamper => 1 | .lifeCycle => 2) ∧
        (∀ o, 0x7BC0000 ≤ o → o < 0x7C00000 → readByte t (spadBase + d * 0x8000000 + o) = 0) ∧
        (∀ a, a < spadBase ∨ spadBase + 0x80000000 ≤ a → readByte t a = readByte s a)) ∧
    Answers (.keepWipeDone d) s (fun t => fbit t (pgSPAD d) F.SPAD_STS_KEEP_WIPING = false ∧ t.mem = s.mem)

/-- Accesses of one hub cycle queue by ascending hub input. At a stack that is not critical, the one access of an idle
controller, to a live channel whose code finds nothing wrong, answers the bytes read, or writes exactly the bytes given; on
a bad channel a read answers poison and a write is discarded with POISON, as when parity errors come back after the retries,
which mark the channel bad. At a critical stack the access waits. A scrub goes to the next line and a refresh is counted;
neither changes memory. A channel whose command times out is marked bad. -/
def Obligations.MemoryControllersAccess : Prop :=
  ∀ (stack : Nat) (s : State), stack < 12 →
    (∀ accs ecc, (∀ x ∈ accs, accFits s stack x = true) → Answers (.memcAccess stack ⟨accs, none⟩ ecc) s fun t =>
      (∃ l, l.Perm accs ∧ l.Pairwise (fun x y => x.input ≤ y.input) ∧ memcWaiting t stack = memcWaiting s stack ++ l) ∧
      t.mem = s.mem) ∧
    (∀ acc ch line zone choice, memcWaiting s stack = [] → accFits s stack acc = true → accFold acc < 17 →
      chanOf s acc.pa = some (ch, line, zone) →
      (fget s (pgMEMC stack) F.MEMC_THERM_LEVEL = 3 → ∀ ecc,
        Answers (.memcAccess stack ⟨[acc], some choice⟩ ecc) s fun t => memcWaiting t stack = [acc] ∧ t.resp = s.resp ∧
          t.mem = s.mem) ∧
      (fget s (pgMEMC stack) F.MEMC_THERM_LEVEL ≠ 3 → chanBad s ch = false →
        (acc.write = none → poisonAt s acc.pa = false →
          Answers (.memcAccess stack ⟨[acc], some choice⟩ .clean) s fun t => memcWaiting t stack = [] ∧
            t.resp = { data := readBytes s acc.pa acc.len } ∧ t.mem = s.mem) ∧
        (∀ bs, acc.write = some bs → (acc.len = 256 ∨ poisonAt s acc.pa = false) →
          Answers (.memcAccess stack ⟨[acc], some choice⟩ .clean) s fun t => memcWaiting t stack = [] ∧
            HoldsAt t acc.pa bs ∧ SameOutside s t acc.pa acc.len ∧ t.resp = {}) ∧
        (acc.write = none → ch ∈ s.memc.live → Answers (.memcAccess stack ⟨[acc], some choice⟩ (.parity true)) s fun t =>
          chanBad t ch = true ∧ t.resp = { data := List.replicate acc.len 0, poison := true })) ∧
      (fget s (pgMEMC stack) F.MEMC_THERM_LEVEL ≠ 3 → chanBad s ch = true →
        (acc.write = none → ∀ ecc, Answers (.memcAccess stack ⟨[acc], some choice⟩ ecc) s fun t =>
          t.resp = { data := List.replicate acc.len 0, poison := true } ∧ t.mem = s.mem) ∧
        (∀ bs ecc, acc.write = some bs →
          Answers (.memcAccess stack ⟨[acc], some choice⟩ ecc) s fun t => t.resp = { code := stPOISON } ∧ t.mem = s.mem))) ∧
    (∀ chan, chan < 64 → (stack * 64 + chan) ∈ s.memc.live → chanBad s (stack * 64 + chan) = false →
      Answers (.memcCmdTimeout stack chan) s (fun t => chanBad t (stack * 64 + chan) = true) ∧
      (fget s (pgMEMC stack) F.MEMC_THERM_LEVEL ≠ 3 →
        Answers (.memcScrub stack chan .clean) s fun t =>
          mgetD t.memc.scrub (stack * 64 + chan) 0 = (mgetD s.memc.scrub (stack * 64 + chan) 0 + 1) % 2 ^ 22 ∧
          t.mem = s.mem ∧ t.poison = s.poison)) ∧
    (∀ chan, chan < 64 → exec (.memcRefresh stack chan) s = .next (bump s (pgMEMC stack) 8))

/-- A reading below the trip point is shown and moves the level as R204 says. LOCK builds the tables over the channels
that are not mapped out; when every line is zeroed tier N reads zero and READY is set. A salt write sets the salt, and
with nothing cached changes no byte outside its zones. A window that is not imbalanced ends with its counts cleared
and reports nothing. -/
def Obligations.StackHeatMapAndWindows : Prop :=
  (∀ stack temp s, stack < 12 → temp < tripAt 2 →
    Answers (.memcThermRead stack temp) s fun t =>
      fget t (pgMEMC stack) F.MEMC_THERM_TEMP = min temp 255 ∧ fbit t (pgMEMC stack) F.MEMC_THERM_VALID = true ∧
      fget t (pgMEMC stack) F.MEMC_THERM_LEVEL = thermLevel s stack temp ∧ t.mem = s.mem) ∧
  (∀ src s, Rules s src → fbit s pgMEMMAP F.MEMMAP_CTL_LOCK = false →
    Answers (.memmapLock src) s fun t =>
      t.memc.live = liveList s ∧ t.memc.split = min (fget s pgMEMMAP F.MEMMAP_CTL_LOCAL_SPLIT) 32 ∧
      pageLocked t pgMEMMAP = true ∧ fbit t pgMEMMAP F.MEMMAP_STS_BUILT = true ∧
      fget t pgMEMMAP F.MEMMAP_STS_LIVE = (liveList s).length ∧ t.mem = s.mem) ∧
  (∀ s, fbit s pgMEMMAP F.MEMMAP_STS_BUILT = true → fbit s pgMEMMAP F.MEMMAP_STS_READY = false →
    Answers .tierNZeroDone s fun t =>
      fbit t pgMEMMAP F.MEMMAP_STS_READY = true ∧
      (∀ o, o < s.memc.live.length * 2 ^ 30 → readByte t (tierNBase + o) = 0) ∧
      SameOutside s t tierNBase (s.memc.live.length * 2 ^ 30)) ∧
  (∀ src m (v : BitVec 32) s, m < 8 → Rules s src →
    Answers (.zsaltWrite src m v) s fun t =>
      fgeti t pgMEMMAP F.MEMMAP_ZSALT_SALT m = v.toNat % 2 ^ fieldWidth F.MEMMAP_ZSALT_SALT ∧
      (s.coh.copies = [] → s.coh.fly = [] →
        ∀ a, (∀ j r, j < 8 → r ∈ zoneRanges s (8 * m + j) → a < r.1 ∨ r.2 ≤ a) → readByte t a = readByte s a)) ∧
  (∀ s, fbit s pgMEMMAP F.MEMMAP_IMB_IMB_EN = true →
    (s.memc.imb.map (·.2)).foldl (· + ·) 0 < s.memc.live.length * 1024 →
    Answers .imbWindowEnd s fun t => t.memc.imb = [] ∧ t.memc.run = 0 ∧ t.regs = s.regs ∧ t.mem = s.mem)

/-- With a table of distinct live channels and a LOCAL_SPLIT of at most 32, two lines of tier N that the map sends to
the same channel and line of that channel are the same line, whatever the keys and salts are. A drawn key word is no sum
modulo 2 of the nine before it, or of all when they are fewer; once the page is locked no write changes a key. -/
def Obligations.InterleaveIsInjective : Prop :=
  (∀ (s : State) (pa pa' ch line z z' : Nat), s.memc.live.Nodup → s.memc.split ≤ 32 → tierNBase ≤ pa → tierNBase ≤ pa' →
    chanOf s pa = some (ch, line, z) → chanOf s pa' = some (ch, line, z') → pa / 256 = pa' / 256) ∧
  (∀ (s : State) (k i : Nat), mget s.memc.keys (k * 22 + i) = none →
    inSpan ((drawnKeys s.memc.keyDraw k i).take 9) (keyWord s k i) = false) ∧
  (∀ (s : State) (v : Nat), pageLocked s pgMEMMAP = true → keyWrite s v = s)

/-- An accepted COPY, FILL or TILE starts on its engine at its first destination byte. The response to an engine whose
command is one row within a store's line writes exactly that row: the pattern of FILL, byte i its byte i modulo 16, or
the bytes read from COPY's source; the command ends in success and the engine is free. -/
def Obligations.DroverCommandsRunLineByLine : Prop :=
  (∀ c f x s, Granted s c 0x30 f x → reservedOk x.word.toNat (vNamed 0x30) = true → vView x ≠ 3 →
    (vView x ≠ 0 → vLeavesSpad s x = false) → vOverlap x = false →
    Answers (.copy c) s fun t => getDrv t x.tile x.engine = some { cmd := c, fold := f } ∧ Running t c ∧ t.mem = s.mem) ∧
  (∀ c f x s, Granted s c 0x31 f x → reservedOk x.word.toNat (vNamed 0x31) = true → vView x ≠ 3 →
    (vView x ≠ 0 → vLeavesSpad s x = false) →
    Answers (.fill c) s fun t => getDrv t x.tile x.engine = some { cmd := c, fold := f } ∧ Running t c ∧ t.mem = s.mem) ∧
  (∀ c f x s, Granted s c 0x32 f x → reservedOk x.word.toNat (vNamed 0x32) = true → fmtKnown (vFmt x) = true →
    cbits x 336 335 < 2 → fmtClass (vFmt x) ≠ 0 → vOverlap x = false →
    Answers (.tile c) s fun t => getDrv t x.tile x.engine = some { cmd := c, fold := f } ∧ Running t c ∧ t.mem = s.mem) ∧
  (∀ t e r c d off pa bias resp s, t < 4 → e < 16 → getDrv s t e = some r → r.line = 0 → r.scales = false → r.codes = [] →
    findCmd s r.cmd = some c → c.phase ≠ .done → vView c = 0 → vRows c = 1 → vDst c % 256 + vRowLen c ≤ 256 →
    access s (.drover t e) { drover := true } c.id.ctx (vDst c) .wr = .ok pa bias →
    targetBusy s pa (droverAsker s t e c.id.ctx 0 bias) = false →
    isSpadPa pa = true → regionOf s pa = .spad d off → inKeep off (vRowLen c) = false →
    (cOp c = 0x31 → Whole s d off (vRowLen c) →
      Answers (.droverLineResponse t e resp) s fun u =>
        (∀ i, i < vRowLen c → readByte u (pa + i) = BitVec.ofNat 8 (cbits c 511 384 / 2 ^ (8 * (i % 16)))) ∧
        SameOutside s u pa (vRowLen c) ∧ getDrv u t e = none ∧ Ended u r.cmd {}) ∧
    (∀ spa sbias bs s1, cOp c = 0x30 → vSrc c % 256 + vRowLen c ≤ 256 →
      access s (.drover t e) { drover := true } c.id.ctx (vSrc c) .rd = .ok spa sbias →
      targetBusy s spa (droverAsker s t e c.id.ctx 0 sbias) = false → unanswered s spa resp = false →
      unitRead (unhold s (.drover t e) c.id.ctx) (droverAsker s t e c.id.ctx 0 sbias) spa (vRowLen c) resp =
        (s1, .ok (bs, false)) → bs.length = vRowLen c → Whole s1 d off (vRowLen c) →
      Answers (.droverLineResponse t e resp) s fun u => HoldsAt u pa bs ∧ SameOutside s1 u pa (vRowLen c) ∧
        getDrv u t e = none ∧ Ended u r.cmd {}))

/-- PROMOTE of a LOW chunk makes it COMING UP with one more reference, its context the holder, and begins the copy up;
RELEASE drops one reference; EVICT of a dirty HIGH chunk without references makes it GOING DOWN and begins the
write-back. The move's end, with nothing waiting, makes the chunk HIGH or LOW and ends the command; an error of a copy up
makes it LOW with one reference less, and of a write-back leaves it HIGH, or LOW where the error is poison. The record's
line is assumed to be free and at its home. -/
def Obligations.ChunkCommandsAndMoves : Prop :=
  (∀ c op f x k r s, Granted s c op f x → k = cbits x 143 128 → k < chunkCount s f → waitsFull s x.tile = false →
    reservedOk x.word.toNat (vNamed op) = true → RecordOpen s x.tile f k r →
    (op = 0x38 → ckState r = 0 → ckRef r ≠ 0xFFFF → chunkInside s f r = true →
      Answers (.promote c) s fun t => Running t c ∧
        (chunkRead t x.tile f k).2 = .ok (ckSetHolder (ckSetState (ckSetRef r (ckRef r + 1)) 1) c.ctx) ∧
        (∃ m, t.moves = s.moves ++ [m] ∧ m.fold = f ∧ m.chunk = k ∧ m.up = true ∧ m.low = ckLow r ∧ m.high = ckHigh r ∧
          m.len = ckLen r ∧ m.by_ = .cmd c) ∧ SameOutside s t (chunkPa s f k) 32) ∧
    (op = 0x39 → ckRef r ≠ 0 →
      Answers (.release c) s fun t => Ended t c {} ∧ (chunkRead t x.tile f k).2 = .ok (ckSetRef r (ckRef r - 1)) ∧
        t.moves = s.moves ∧ SameOutside s t (chunkPa s f k) 32) ∧
    (op = 0x3A → ckState r = 2 → ckRef r = 0 → r.testBit 147 = true → chunkInside s f r = true →
      Answers (.evict c) s fun t => Running t c ∧
        (chunkRead t x.tile f k).2 = .ok (ckSetHolder (ckSetState r 3) c.ctx) ∧
        (∃ m, t.moves = s.moves ++ [m] ∧ m.fold = f ∧ m.chunk = k ∧ m.up = false ∧ m.by_ = .cmd c) ∧
        SameOutside s t (chunkPa s f k) 32) ∧
    (op = 0x3A → ckState r = 0 → Answers (.evict c) s fun t => Ended t c {} ∧ t.mem = s.mem ∧ t.moves = s.moves)) ∧
  (∀ f k up m id x r code s s1 c1 s2, findMove s f k up = some m → m.by_ = .cmd id → findCmd s id = some x →
    x.phase ≠ .done → (∀ w ∈ s.waits, w.fold ≠ f ∨ w.chunk ≠ k) → (∀ link, mgetD s.host.peer link [] = []) →
    moveWaits s m = false → moveRun s m code = (s1, c1) →
    s2 = bump s1 (pgDRV m.tile (moveEngine m)) (if up then 12 else 13) → (chunkRead s2 m.tile f k).2 = .ok r →
    cacheOf s2 (chunkAsker m.tile) (lineOf (chunkPa s2 f k)) = none → dirGet s2 (lineOf (chunkPa s2 f k)) = none →
    (up = true → c1 = 0 →
      Answers (.chunkCopyUpEnd f k code) s fun t => Ended t id {} ∧ findMove t f k true = none ∧
        (chunkRead t m.tile f k).2 = .ok (ckSet (ckSet (ckSetState r 2) 147 147 (bitN m.writable)) 148 148 0)) ∧
    (up = false → c1 = 0 →
      Answers (.chunkWritebackEnd f k code) s fun t => Ended t id {} ∧ findMove t f k false = none ∧
        (chunkRead t m.tile f k).2 = .ok (ckSet (ckSetState r 0) 149 149 0)) ∧
    (up = true → c1 ≠ 0 →
      Answers (.chunkCopyUpEnd f k code) s fun t => Ended t id (chunkRes c1) ∧ findMove t f k true = none ∧
        (chunkRead t m.tile f k).2 = .ok (ckSet (ckSetState (ckSetRef r (ckRef r - 1)) 0) 148 148 0)) ∧
    (up = false → c1 ≠ 0 →
      Answers (.chunkWritebackEnd f k code) s fun t => Ended t id (chunkRes c1) ∧ findMove t f k false = none ∧
        (chunkRead t m.tile f k).2 = .ok (ckSet (ckSetState r (if c1 = stPOISON then 0 else 2)) 149 149 0)))

/-- SCHED_RUN with a sound table starts a run that holds its entries. The next entry of a run, once due, acts as its
chunk command: a RELEASE drops one reference, and its result is recorded. SCHED_CANCEL stops further starts: a run
with an entry in flight waits for it, one with none completes and so does the SCHED_CANCEL. -/
def Obligations.SchedulesRunAndCancel : Prop :=
  (∀ c resp rest f x bs s1 es s, Granted s c 0x34 f x → reservedOk x.word.toNat (vNamed 0x34) = true → cbits x 175 128 % 32 = 0 →
    (s.scheds.filter fun r => r.tile == x.tile).length < 4 →
    droverRead s x.tile x.engine c.ctx resp (linePieces (cbits x 175 128) ((cbits x 191 176 + 1) * 32)) [] [] =
      .ok s1 bs [] rest →
    findCmd s1 c = some x → ctxFold s1 c.ctx = some f → fenced s1 f = false →
    es = (List.range (cbits x 191 176 + 1)).map (fun i => BitVec.ofNat 256 (field bs (i * 32) 32)) →
    (∀ e ∈ es, entryBad s1 f e = false) →
    Answers (.schedRun ⟨c, resp⟩) s fun t => t.scheds = s1.scheds ++ [{ id := c, fold := f, tile := x.tile, entries := es }] ∧
      Running t c ∧ t.mem = s1.mem) ∧
  (∀ id r c e k rec_ s, s.scheds.find? (fun q => q.id == id) = some r → findCmd s id = some c → c.phase ≠ .done →
    r.cancelled = false → r.next + 1 < r.entries.length → r.inflight.length < cbits c 201 198 + 1 →
    waitsFull s r.tile = false → e = lget r.entries r.next 0 → entryDue s c e true = true → bits e.toNat 17 16 = 1 →
    k = bits e.toNat 15 0 → RecordOpen s r.tile r.fold k rec_ → ckRef rec_ ≠ 0 →
    Answers (.schedEntryStart id) s fun t => SameOutside s t (chunkPa s r.fold k) 32 ∧
      (chunkRead t r.tile r.fold k).2 = .ok (ckSetRef rec_ (ckRef rec_ - 1)) ∧
      ∃ q, t.scheds.find? (fun q => q.id == id) = some q ∧ q.next = r.next + 1 ∧ q.results = r.results ++ [(r.next, 0)] ∧
        q.entries = r.entries) ∧
  (∀ c f x r y s, Granted s c 0x35 f x → reservedOk x.word.toNat (vNamed 0x35) = true → r.id ≠ c → r.id.ctx = c.ctx →
    s.scheds = [r] → findCmd s r.id = some y → y.phase ≠ .done → cbits y 47 32 = cbits x 143 128 →
    Answers (.schedCancel c) s fun t => t.mem = s.mem ∧
      (r.inflight ≠ [] → Running t c ∧ t.scheds = [{ r with cancelled := true, cancellers := r.cancellers ++ [c] }]) ∧
      (r.inflight = [] → Ended t c {} ∧ t.scheds = [] ∧ ∃ z, findCmd t r.id = some z ∧ z.phase = .done))

/-- Enabling a fold that fails no check sets ENABLE and begins the clearing of its dies; a failed check is recorded in
CFG_CAUSE and nothing is enabled. A fold with an enabled context stays enabled, with cause 0x6. A context's enable
takes effect in an active fold; elsewhere CTX_SEGERR records cause 0x5. -/
def Obligations.FoldsAndContextsEnable : Prop :=
  ∀ (src : Src) (s : State), Rules s src →
    (∀ f, f < 16 → foldEnabled s f = false →
      (foldCheck s f = none →
        Answers (.foldEnable src f) s fun t => foldEnabled t f = true ∧
          (∀ d, d < 16 → (fget s (pgFOLD f) F.FOLD_DIES_DIES).testBit d = true → fbit t (pgSPAD d) F.SPAD_STS_INIT_BUSY = true) ∧
          (fget s (pgFOLD f) F.FOLD_DIES_DIES ≠ 0 → foldActive t f = foldActive s f) ∧
          (∀ a, a < spadBase ∨ spadBase + 0x80000000 ≤ a → readByte t a = readByte s a)) ∧
      (∀ cause, foldCheck s f = some cause →
        Answers (.foldEnable src f) s fun t => foldEnabled t f = false ∧ fbit t (pgFOLD f) F.FOLD_STS_CFG_ERR = true ∧
          fget t (pgFOLD f) F.FOLD_STS_CFG_CAUSE = cause ∧ t.mem = s.mem)) ∧
    (∀ f, f < 16 → foldInUse s f = false →
      Answers (.foldDisable src f) s fun t => foldEnabled t f = false ∧ foldActive t f = false ∧ t.mem = s.mem) ∧
    (∀ f, f < 16 → foldInUse s f = true →
      Answers (.foldDisable src f) s fun t => foldEnabled t f = foldEnabled s f ∧ fbit t (pgFOLD f) F.FOLD_STS_CFG_ERR = true ∧
        fget t (pgFOLD f) F.FOLD_STS_CFG_CAUSE = 6 ∧ t.mem = s.mem) ∧
    (∀ c f, c < 512 → ctxFold s c = some f → foldActive s f = true →
      Answers (.contextEnable src c) s fun t => fbit t (pgCTX c) F.CTX_CFG_ENABLE = true ∧ t.mem = s.mem) ∧
    (∀ c, c < 512 → (∀ f, ctxFold s c = some f → foldActive s f = false) → fbit s (pgCTX c) F.CTX_SEGERR_VALID = false →
      Answers (.contextEnable src c) s fun t => fbit t (pgCTX c) F.CTX_CFG_ENABLE = fbit s (pgCTX c) F.CTX_CFG_ENABLE ∧
        fbit t (pgCTX c) F.CTX_SEGERR_VALID = true ∧ fget t (pgCTX c) F.CTX_SEGERR_CAUSE = 5 ∧ t.mem = s.mem) ∧
    (∀ c, c < 512 →
      Answers (.contextDisable src c) s fun t => fbit t (pgCTX c) F.CTX_CFG_ENABLE = false ∧ t.mem = s.mem)

/-- The fill that a stream waits for puts the 512 bytes of the table first in its cache; one that returns poison ends
the access that missed with POISON. CTX_SEGINV advances ISSUED and drops the context's table from every stream; its
end, once no access under the dropped table is in flight, advances DONE. Neither writes memory. A new slot's record goes to the entry of the fault ring at TAIL, which
advances, and writes no other byte. A reply that carries the slot's sequence number frees it: its streams fetch the
table again, or with DECLINE end with SEG_FAULT. A reply with another sequence number only counts. -/
def Obligations.SegmentTablesAndFaultRecords : Prop :=
  ((∀ x c f resp a p b q k s s1 s2, (getStream s x).want = some c → ctxFold s c = some f → segTblInside s c f = true →
    k = ({ tile := some (streamTile s x), fold := f } : Asker) →
    (∀ o, o = 0 ∨ o = 256 → lineHeld s {} (segTblPa s c + o) = false ∧ targetBusy s (segTblPa s c + o) k = false) →
    respError resp = none → unitRead (bump s (pgFOLD f) 0) k (segTblPa s c) 256 resp = (s1, .ok (a, p)) →
    unitRead s1 k (segTblPa s c + 256) 256 .ok = (s2, .ok (b, q)) →
    Answers (.segmentTableFill x c resp) s fun t => t.mem = s2.mem ∧ (getStream t x).want = none ∧
      (p = false → q = false → (getStream t x).cache.head? = some ⟨c, a ++ b, segChecks s f (a ++ b)⟩ ∧
        (getStream t x).dead = (getStream s x).dead) ∧
      ((p || q) = true → (getStream t x).dead = some ((getStream s x).wantVa, stPOISON) ∧ (getStream t x).cache = (getStream s x).cache)) ∧
  (∀ src c s, c < 512 → Rules s src →
    Answers (.segmentInvalidate src c) s fun t => t.mem = s.mem ∧
      fget t (pgCTX c) F.CTX_SEGINV_STS_ISSUED = (fget s (pgCTX c) F.CTX_SEGINV_STS_ISSUED + 1) % 65536 ∧
      ∀ e ∈ t.streams, e.2.want ≠ some c ∧ ∀ w ∈ e.2.cache, w.ctx ≠ c) ∧
  (∀ c s, oldInFlight s c = true → exec (.segmentInvalidateDone c) s = .next s) ∧
  (∀ c s, c < 512 → fget s (pgCTX c) F.CTX_SEGINV_STS_DONE ≠ fget s (pgCTX c) F.CTX_SEGINV_STS_ISSUED →
    oldInFlight s c = false →
    Answers (.segmentInvalidateDone c) s fun t => t.mem = s.mem ∧ t.streams = s.streams ∧
      fget t (pgCTX c) F.CTX_SEGINV_STS_DONE = (fget s (pgCTX c) F.CTX_SEGINV_STS_DONE + 1) % 65536)) ∧
  (∀ f i x pa s, f < 16 → mget (mgetD s.folds f {}).slots i = some x → x.held = false → x.written = false →
    (fget s (pgFOLD f) F.FOLD_FQTAIL_TAIL + 65536 - fget s (pgFOLD f) F.FOLD_FQHEAD_HEAD) % 65536 < fqSize s f →
    pa = fpair s (pgFOLD f) F.FOLD_FQBASE_LO_BASE_LO F.FOLD_FQBASE_HI_BASE_HI 0 +
      fget s (pgFOLD f) F.FOLD_FQTAIL_TAIL % fqSize s f * 32 →
    regionOf s pa = .tierN ∨ regionOf s pa = .tierF ∧ tierFDown s pa = false → inPlainRegions s f pa (pa + 32) = true →
    curPoison s pa 32 = false → paBad s pa = false → AtHome s pa 32 → dirGet s (lineOf pa) = none →
    lineHeld s {} pa = false → targetBusy s pa = false →
    Answers (.faultRecordWrite f i false) s fun t => HoldsAt t pa (faultRecord i x) ∧ SameOutside s t pa 32 ∧
      fget t (pgFOLD f) F.FOLD_FQTAIL_TAIL = (fget s (pgFOLD f) F.FOLD_FQTAIL_TAIL + 1) % 65536 ∧
      mget (mgetD t.folds f {}).slots i = some { x with written := true, held := false }) ∧
  (∀ src f (v : BitVec 32) s, f < 16 → Rules s src → (∀ e ∈ (mgetD s.folds f {}).slots, e.2.held = false) →
    (Answers (.fqbaseWrite src f false v) s fun t => fget t (pgFOLD f) F.FOLD_FQBASE_LO_BASE_LO = v.toNat / 32 ∧
      t.mem = s.mem) ∧
    Answers (.fqbaseWrite src f true v) s fun t => fget t (pgFOLD f) F.FOLD_FQBASE_HI_BASE_HI = v.toNat % 65536 ∧
      fget t (pgFOLD f) F.FOLD_FQBASE_HI_LOG2 = v.toNat / 65536 % 16 ∧ t.mem = s.mem) ∧
  (∀ src f i x (q : BitVec 8) s, f < 16 → Rules s src → mget (mgetD s.folds f {}).slots i = some x →
    (x.seq = q.toNat →
      (Answers (.faultReplyReplay src f i q) s fun t => t.mem = s.mem ∧ mget (mgetD t.folds f {}).slots i = none ∧
        ∀ e ∈ s.streams, onSlot s f (some i) e.2 = true →
          ∃ e' ∈ t.streams, e'.1 = e.1 ∧ e'.2.stall = none ∧ e'.2.want = some x.ctx ∧ e'.2.dead = e.2.dead) ∧
      Answers (.faultReplyDecline src f i q) s fun t => t.mem = s.mem ∧ mget (mgetD t.folds f {}).slots i = none ∧
        ∀ e ∈ s.streams, onSlot s f (some i) e.2 = true →
          ∃ e' ∈ t.streams, e'.1 = e.1 ∧ e'.2.stall = none ∧ e'.2.dead = e.2.stall.map fun y => (y.va, stSEG)) ∧
    (x.seq ≠ q.toNat → exec (.faultReplyReplay src f i q) s = .next (bump s (pgFOLD f) 4) ∧
      exec (.faultReplyDecline src f i q) s = .next (bump s (pgFOLD f) 4)))

/-- RdS and RdX of such a line record the agent as its sole holder and send it the line, exclusive, with Cmp. RdCur
answers the line, and records nobody. WrFull and WrPart write their bytes of the line and no other; AtomH answers the
prior value and writes its result, unless the line is poisoned. A line on a bad channel or poisoned is left out of the
writes stated here. An uncorrectable error in the home store's data poisons what RdCur answers; an unreadable
directory entry makes the home send SnpInv to all six agents, in a transaction before the request, which waits. -/
def Obligations.HomesServeRequests : Prop :=
  ∀ (line : Nat) (s : State), LineIdle s line →
    (∀ a, mayHold s a line = true → getCopy s line a = none → mget s.coh.wants (copyKey line a) = none →
      ∀ c, c = Instr.rds a line .clean ∨ c = .rdx a line .clean → Answers c s fun t => dirGet t line = some (2 ^ a, true) ∧
        t.coh.msgs = s.coh.msgs ++ [.data a line .exclusive (homeLine s line).1 (homeLine s line).2, .cmp a line] ∧
        (mget t.coh.txns line).isSome = true ∧ t.coh.copies = s.coh.copies ∧ t.mem = s.mem) ∧
    (∀ who, Answers (.rdcur who line .clean) s fun t =>
      t.resp = { data := (homeLine s line).1, poison := (homeLine s line).2 } ∧ dirGet t line = none ∧
      mget t.coh.txns line = none ∧ t.coh.msgs = s.coh.msgs ∧ t.mem = s.mem) ∧
    (∀ who, Answers (.rdcur who line .data) s fun t =>
      t.resp = { data := (homeLine s line).1, poison := true } ∧ poisonAt t (line * 256) = true ∧ t.mem = s.mem) ∧
    (∀ who, Answers (.rdcur who line .directory) s fun t =>
      t.coh.msgs = s.coh.msgs ++ (List.range 6).map (fun a => .snoop .inv a line) ∧
        mget t.coh.txns line = some { req := .recover, waiting := 0x3F } ∧ t.coh.queue = [(line, .rdCur who)] ∧
        t.mem = s.mem) ∧
    ((homeLine s line).2 = false →
      (∀ who data p, data.length = 256 → Answers (.wrfull who line data p .clean) s fun t => HoldsAt t (line * 256) data ∧
        poisonAt t (line * 256) = p ∧ SameOutside s t (line * 256) 256 ∧ mget t.coh.txns line = none ∧ t.resp = {}) ∧
      (∀ who mask data p, data.length = 256 → Answers (.wrpart who line mask data p .clean) s fun t =>
        HoldsAt t (line * 256) (mergeBytes (homeLine s line).1 mask data) ∧ SameOutside s t (line * 256) 256 ∧
        mget t.coh.txns line = none ∧ t.resp = {}) ∧
      (∀ who addr op size args, lineOf addr = line → atomOk addr op size = true →
        Answers (.atomh who addr op size args .clean) s fun t => t.resp = { data := readBytes s addr size } ∧
          HoldsAt t addr (leBytes size (atomicOp op size (leNat (readBytes s addr size)) args.bytes)) ∧
          SameOutside s t addr size ∧ mget t.coh.txns line = none))

/-- No copy answers RspI; WB_PEND answers RspWbPend; a Shared copy answers RspS to SnpS and SnpCur and is given up
with RspI to the others; SnpInv takes an Exclusive copy with RspI and a Modified one with its data to the home; SnpS
and SnpX make an owner send the line to the requester. No memory changes. An uncorrectable error in a tile's copy
drops a clean copy before the answer and poisons a Modified one. -/
def Obligations.AgentsAnswerSnoops : Prop :=
  ∀ (k : Snoop) (a line : Nat) (s : State), CohMsg.snoop k a line ∈ s.coh.msgs →
    let sent (t : State) (ms : List CohMsg) (c : Option Copy) : Prop :=
      t.coh.msgs = s.coh.msgs.erase (.snoop k a line) ++ ms ∧ getCopy t line a = c ∧ t.mem = s.mem
    (getCopy s line a = none → Answers (snoopCmd k a line .clean) s fun t => sent t [.rspI a line] none) ∧
    (∀ c, getCopy s line a = some c →
      (c.st = .wbPend → Answers (snoopCmd k a line .clean) s fun t => sent t [.rspWbPend a line] (some c)) ∧
      (c.st = .shared → k = .shared ∨ k = .cur →
        Answers (snoopCmd k a line .clean) s fun t => sent t [.rspS a line] (some c)) ∧
      (c.st = .shared → k = .sole ∨ k = .inv → Answers (snoopCmd k a line .clean) s fun t => sent t [.rspI a line] none) ∧
      (c.st = .exclusive → k = .inv → Answers (snoopCmd k a line .clean) s fun t => sent t [.rspI a line] none) ∧
      (c.st = .modified → k = .inv →
        Answers (snoopCmd k a line .clean) s fun t => sent t [.dataHome a line c.data c.poison] none) ∧
      (a < 4 → c.st = .shared ∨ c.st = .exclusive →
        Answers (snoopCmd k a line .uncorrectable) s fun t => sent t [.rspI a line] none) ∧
      (a < 4 → c.st = .modified → k = .inv →
        Answers (snoopCmd k a line .uncorrectable) s fun t => sent t [.dataHome a line c.data true] none) ∧
      (∀ x b, mget s.coh.txns line = some x → agentDead s b = false →
        (x.req = .rdS b → k = .shared → c.st = .exclusive → Answers (snoopCmd k a line .clean) s fun t =>
          sent t [.data b line .shared c.data c.poison, .rspFwd a line (some .shared)] (some { c with st := .shared })) ∧
        (x.req = .rdS b → k = .shared → c.st = .modified → Answers (snoopCmd k a line .clean) s fun t =>
          sent t [.data b line .shared c.data c.poison, .dataHome a line c.data c.poison]
            (some { c with st := .shared })) ∧
        (x.req = .rdX b → k = .sole → c.st = .exclusive ∨ c.st = .modified → Answers (snoopCmd k a line .clean) s fun t =>
          sent t [.data b line c.st c.data c.poison, .rspFwd a line none] none) ∧
        (∀ who, x.req = .rdCur who → k = .cur → c.st = .exclusive ∨ c.st = .modified →
          Answers (snoopCmd k a line .clean) s fun t => sent t [.rspFwd a line (some c.st)] (some c) ∧
            mget t.coh.txns line = some { x with got := some (c.data, c.poison) })))

/-- The last RspI lets a write be performed; the last RspS, RspFwd or DataHome of an RdS records the owner and the
requester and sends Cmp, with the home's line where none was forwarded; RspWbPend makes the home wait for the WbM. A
WbM with no transaction is written at the home and acknowledged. A requester with both Data and Cmp installs the line,
runs the atomic that waited for it, and sends Done; WbAck drops WB_PEND; Done ends the transaction. -/
def Obligations.AnswersCompleteTransactions : Prop :=
  ∀ (a line : Nat) (s : State),
    (∀ r, LastAnswer s a line r →
      (∀ who mask data p, r = .write who mask data p → (homeLine s line).2 = false → isOwner s a line = false →
        CohMsg.rspI a line ∈ s.coh.msgs → Answers (.rspi a line) s fun t =>
          HoldsAt t (line * 256) (mergeBytes (homeLine s line).1 mask data) ∧ SameOutside s t (line * 256) 256 ∧
          dirGet t line = none ∧ mget t.coh.txns line = none) ∧
      (CohMsg.rspWbPend a line ∈ s.coh.msgs → Answers (.rspwbpend a line) s fun t =>
        mget t.coh.txns line = some { req := r, wbWait := some a } ∧ t.mem = s.mem) ∧
      (∀ b, r = .rdS b →
        (CohMsg.rspS a line ∈ s.coh.msgs → Answers (.rsps a line) s fun t =>
          dirGet t line = some (2 ^ ownerOf s line ||| 2 ^ b, false) ∧ t.mem = s.mem ∧ t.coh.msgs =
            s.coh.msgs.erase (.rspS a line) ++ [.data b line .shared (homeLine s line).1 (homeLine s line).2, .cmp b line]) ∧
        (∀ st, CohMsg.rspFwd a line st ∈ s.coh.msgs → Answers (.rspfwd a line) s fun t =>
          dirGet t line = some (2 ^ ownerOf s line ||| 2 ^ b, false) ∧ CohMsg.cmp b line ∈ t.coh.msgs ∧ t.mem = s.mem) ∧
        (∀ d p, s.coh.msgs.find? (isDataHome a line) = some (.dataHome a line d p) → d.length = 256 →
          paBad s (line * 256) = false → Answers (.datahome a line) s fun t =>
            HoldsAt t (line * 256) d ∧ SameOutside s t (line * 256) 256 ∧ CohMsg.cmp b line ∈ t.coh.msgs ∧
            dirGet t line = some (2 ^ ownerOf s line ||| 2 ^ b, false)))) ∧
    (∀ d p, s.coh.msgs.find? (isWbM a line) = some (.wbM a line d p) → d.length = 256 → paBad s (line * 256) = false →
      mget s.coh.txns line = none → agentDead s a = false → Answers (.wbm a line) s fun t =>
        HoldsAt t (line * 256) d ∧ SameOutside s t (line * 256) 256 ∧ CohMsg.wbAck a line ∈ t.coh.msgs ∧
        (isOwner s a line = true → dirGet t line = none) ∧ (isOwner s a line = false → t.coh.dir = s.coh.dir)) ∧
    (∀ w g d p, mget s.coh.wants (copyKey line a) = some w →
      (w.cmp = true → s.coh.msgs.find? (isData a line) = some (.data a line g d p) → Answers (.data a line) s fun t =>
        (mget s.coh.atoms (copyKey line a) = none → getCopy t line a = some ⟨g, d, p⟩) ∧
        (∀ addr op size args, mget s.coh.atoms (copyKey line a) = some (addr, op, size, args) → g = .exclusive → p = false →
          t.resp = { data := slice d (addr % 256) size }) ∧
        CohMsg.done a line ∈ t.coh.msgs ∧ t.mem = s.mem) ∧
      (w.data = some (g, d, p) → mget s.coh.atoms (copyKey line a) = none → CohMsg.cmp a line ∈ s.coh.msgs →
        Answers (.cmp a line) s fun t =>
          getCopy t line a = some ⟨g, d, p⟩ ∧ CohMsg.done a line ∈ t.coh.msgs ∧ t.mem = s.mem)) ∧
    (∀ c, CohMsg.wbAck a line ∈ s.coh.msgs → getCopy s line a = some c → c.st = .wbPend →
      mget s.coh.atoms (copyKey line a) = none →
      Answers (.wback a line) s fun t => getCopy t line a = none ∧ t.mem = s.mem) ∧
    (CohMsg.done a line ∈ s.coh.msgs → NoRequests s → (∀ b, agentDead s b = false) →
      Answers (.done a line) s fun t => mget t.coh.txns line = none ∧ t.coh.dir = s.coh.dir ∧ t.mem = s.mem)

/-- An agent drops a clean line silently and writes a dirty one back into WB_PEND, but not one whose atomic is pending; an
atomic on a line it owns changes its copy to Modified and answers the prior value, and on a line it does not hold it is
pending and the agent asks for the line. A dead agent holds and is sent nothing, and every tile walks its
directory; the walk's end leaves no free line recorded for it. A rejoin readmits it on every tile unless a walk runs.
LOCK_WAYS clears LOCK_READY, and readiness zeroes the region. -/
def Obligations.AgentsActDieAndLocks : Prop :=
  (∀ a line c s, getCopy s line a = some c → snoopWaits s a line = false → mget s.coh.atoms (copyKey line a) = none →
    (c.st = .shared ∨ c.st = .exclusive → Answers (.agentEvict a ⟨line, .clean⟩) s fun t => getCopy t line a = none ∧
      t.coh.msgs = s.coh.msgs ∧ t.mem = s.mem) ∧
    (c.st = .modified → wbInUse s a (homeOf s line) < 16 → Answers (.agentEvict a ⟨line, .clean⟩) s fun t =>
      getCopy t line a = some { c with st := .wbPend } ∧ t.coh.msgs = s.coh.msgs ++ [.wbM a line c.data c.poison] ∧
      t.mem = s.mem)) ∧
  (∀ a line c s addr op size args, lineOf addr = line → getCopy s line a = some c → snoopWaits s a line = false →
    mget s.coh.atoms (copyKey line a) = some (addr, op, size, args) → exec (.agentEvict a ⟨line, .clean⟩) s = .next s) ∧
  (∀ a addr h op size args s, a < 6 → atomOk addr op size = true → mget s.coh.atoms (copyKey (lineOf addr) a) = none →
    mget s.coh.wants (copyKey (lineOf addr) a) = none → mayHold s a (lineOf addr) = true → agentDead s a = false →
    lineDown s (lineOf addr) = false → getCopy s (lineOf addr) a = none →
    Answers (.agentAtomic a ⟨addr, .clean, h⟩ op size args) s fun t =>
      mget t.coh.atoms (copyKey (lineOf addr) a) = some (addr, op, size, args) ∧
      (mget t.coh.wants (copyKey (lineOf addr) a)).isSome = true) ∧
  (∀ a addr h op size args c s, a < 6 → atomOk addr op size = true → getCopy s (lineOf addr) a = some c → c.poison = false →
    mget s.coh.atoms (copyKey (lineOf addr) a) = none →
    c.st = .exclusive ∨ c.st = .modified → Answers (.agentAtomic a ⟨addr, .clean, h⟩ op size args) s fun t =>
      t.resp = { data := slice c.data (addr % 256) size } ∧ t.mem = s.mem ∧
      ∃ d, getCopy t (lineOf addr) a = some ⟨.modified, d, false⟩ ∧ d = c.data.take (addr % 256) ++
        leBytes size (atomicOp op size (leNat (slice c.data (addr % 256) size)) args) ++ c.data.drop (addr % 256 + size)) ∧
  (∀ a s, a < 6 → agentDead s a = false → Answers (.agentDead a) s fun t => agentDead t a = true ∧
    (∀ m ∈ t.coh.msgs, msgTo m ≠ some a) ∧ (∀ line, getCopy t line a = none) ∧
    ∀ tile, tile < 4 → fbit t (pgCOH tile) F.COH_STS_RECLAIM_BUSY = true ∧
      (fget t (pgCOH tile) F.COH_STS_DEAD).testBit a = true) ∧
  (∀ tile s, tile < 4 → fbit s (pgCOH tile) F.COH_STS_RECLAIM_BUSY = true → Answers (.reclaimDone tile) s fun t =>
    fbit t (pgCOH tile) F.COH_STS_RECLAIM_BUSY = false ∧ t.mem = s.mem ∧
    ∀ a line v sole, a < 6 → (fget s (pgCOH tile) F.COH_STS_DEAD).testBit a = true → homeOf s line = tile →
      mget s.coh.txns line = none → s.coh.msgs.any (msgFrom a line) = false → dirGet t line = some (v, sole) →
      v.testBit a = false) ∧
  (∀ src tile (agents : BitVec 6) s, tile < 4 → Rules s src →
    ((∀ k, k < 4 → fbit s (pgCOH k) F.COH_STS_RECLAIM_BUSY = false) →
      Answers (.agentRejoin src tile agents) s fun t => t.coh = s.coh ∧ t.mem = s.mem ∧
        ∀ a, agentDead t a = (agentDead s a && !agents.toNat.testBit a)) ∧
    (∀ k, k < 4 → fbit s (pgCOH k) F.COH_STS_RECLAIM_BUSY = true →
      exec (.agentRejoin src tile agents) s = .next (bump s (pgCOH tile) 14))) ∧
  (∀ src tile ways s, tile < 4 → ways < 32 → Rules s src →
    (fbit s (pgCOH tile) F.CTL_LOCK = false → Answers (.lockWaysWrite src tile ways) s fun t =>
      fget t (pgCOH tile) F.COH_CFG_LOCK_WAYS = ways ∧ fbit t (pgCOH tile) F.COH_STS_LOCK_READY = false ∧ t.mem = s.mem) ∧
    (fbit s (pgCOH tile) F.CTL_LOCK = true → Answers (.lockWaysWrite src tile ways) s fun t =>
      fget t (pgCOH tile) F.COH_CFG_LOCK_WAYS = fget s (pgCOH tile) F.COH_CFG_LOCK_WAYS ∧
      fbit t (pgCOH tile) F.ERR_LOCK_WR = true ∧ t.mem = s.mem)) ∧
  (∀ tile s, tile < 4 → fbit s (pgCOH tile) F.COH_STS_LOCK_READY = false → NoRequests s →
    (∀ e ∈ s.coh.txns, e.1 * 256 < lockBase + tile * 0x10000000 ∨ lockBase + (tile + 1) * 0x10000000 ≤ e.1 * 256) →
    Answers (.lockRegionReady tile) s fun t =>
      fbit t (pgCOH tile) F.COH_STS_LOCK_READY = true ∧
      (∀ o, o < 0x10000000 → readByte t (lockBase + tile * 0x10000000 + o) = 0) ∧
      ((∀ e ∈ s.coh.copies, e.1 % 8 ≠ tile) → SameOutside s t (lockBase + tile * 0x10000000) 0x10000000))

/-- PERST_N takes a link down and ends its XHOST commands with TIER_ERROR; a trained link is up at its width and
speed. A host die in reset has its agent dead, its memory in self-refresh, its links down and its jobs lost; it
returns through reset's end and its channels' retraining. A VF or peer entry whose fields stand is enabled when its
checks pass, else the link records the cause. The bias map is changed at once to host-owned, and with a flush to
device-owned. -/
def Obligations.HostDiesLinksAndEntries : Prop :=
  (∀ link s, link < 4 →
    (Answers (.perst link true) s fun t => linkUp t link = false ∧ mget t.host.perst link = some () ∧
      ((∀ x ∈ s.cmds, x.phase = .granted → xhostLink x = link → cOp x ≠ 0x72) → t.mem = s.mem) ∧
      ∀ c, findCmd s c.id = some c → c.phase = .granted → cOp c = 0x72 ∨ cOp c = 0x73 → xhostLink c = link →
        Ended t c.id (resOf [stTIER])) ∧
    (Answers (.perst link false) s fun t => mget t.host.perst link = none ∧ t.regs = s.regs ∧ t.mem = s.mem) ∧
    (∀ width speed, width < 5 → speed < 6 → mget s.host.perst link = none →
      fbit s (pgHOSTD (link / 2)) F.HOSTD_STS_IN_RESET = false →
      Answers (.linkTrain link width speed) s fun t => linkUp t link = true ∧
        fget t (pgHOSTL link) F.HOSTL_CFG_WIDTH = width ∧ fget t (pgHOSTL link) F.HOSTL_CFG_SPEED = speed ∧ t.mem = s.mem)) ∧
  (∀ src h s, h < 2 → Rules s src →
    (fbit s (pgHOSTD h) F.HOSTD_STS_IN_RESET = false →
      ∀ c, c = Instr.hostdReset src h ∨ c = .monitorWatchdog h → Answers c s fun t =>
        fbit t (pgHOSTD h) F.HOSTD_STS_IN_RESET = true ∧ fbit t (pgHOSTD h) F.HOSTD_STS_SR_ACTIVE = true ∧
        agentDead t (4 + h) = true ∧ linkUp t (2 * h) = false ∧ linkUp t (2 * h + 1) = false ∧
        ∀ k, k / 16 = h → mget t.inp.rings k = none) ∧
    (Answers (.hostdResetExit h) s fun t => fbit t (pgHOSTD h) F.HOSTD_STS_IN_RESET = false ∧ t.mem = s.mem) ∧
    (fbit s (pgHOSTD h) F.HOSTD_STS_SR_ACTIVE = true → fbit s (pgHOSTD h) F.HOSTD_STS_IN_RESET = false →
      Answers (.hostDieRetrainDone h) s fun t => fbit t (pgHOSTD h) F.HOSTD_STS_SR_ACTIVE = false ∧ t.mem = s.mem)) ∧
  (∀ src link (v : BitVec 32) s, link < 4 → Rules s src →
    (∀ vf, 1 ≤ vf → vf < 64 → fbiti s (pgHOSTL link) F.HOSTL_VF_ENABLE vf = false →
      fgeti s (pgHOSTL link) F.HOSTL_VF_FOLD vf = bits v.toNat 4 1 →
      fgeti s (pgHOSTL link) F.HOSTL_VF_FIRST_CTX vf = bits v.toNat 13 5 →
      fgeti s (pgHOSTL link) F.HOSTL_VF_COUNT vf = bits v.toNat 16 14 →
      Answers (.hostlVfEnable src link vf v) s fun t => t.mem = s.mem ∧
        fbiti t (pgHOSTL link) F.HOSTL_VF_ENABLE vf = (v.toNat.testBit 0 && vfOk s link vf) ∧
        (v.toNat.testBit 0 = true → vfOk s link vf = false →
          fbit t (pgHOSTL link) F.HOSTL_STS_CFG_ERR = true ∧ fget t (pgHOSTL link) F.HOSTL_STS_CAUSE = 1)) ∧
    (∀ w, w < 16 → fbiti s (pgHOSTL link) F.HOSTL_PEER_ENABLE w = false →
      fgeti s (pgHOSTL link) F.HOSTL_PEER_FOLD w = bits v.toNat 6 3 →
      fgeti s (pgHOSTL link) F.HOSTL_PEER_CTX w = bits v.toNat 15 7 →
      Answers (.hostlPeerEnable src link w v) s fun t => t.mem = s.mem ∧
        fbiti t (pgHOSTL link) F.HOSTL_PEER_ENABLE w = (v.toNat.testBit 0 && peerOk s link w) ∧
        fbiti t (pgHOSTL link) F.HOSTL_PEER_RD w = v.toNat.testBit 1 ∧
        fbiti t (pgHOSTL link) F.HOSTL_PEER_WR w = v.toNat.testBit 2 ∧
        (v.toNat.testBit 0 = true → peerOk s link w = false →
          fbit t (pgHOSTL link) F.HOSTL_STS_CFG_ERR = true ∧ fget t (pgHOSTL link) F.HOSTL_STS_CAUSE = 2))) ∧
  (∀ src (v : BitVec 32) s, Rules s src →
    (fbit s pgHOSTP F.HOSTP_BIASSTS_BUSY = false → Answers (.biasFlip src v) s fun t => t.mem = s.mem ∧
      (v.toNat.testBit 21 = false → mget t.host.bias (bits v.toNat 20 0) = none) ∧
      (v.toNat.testBit 21 = true → mget t.host.bias (bits v.toNat 20 0) = some () ∧
        t.host.flip = some (bits v.toNat 20 0) ∧ fbit t pgHOSTP F.HOSTP_BIASSTS_BUSY = true)) ∧
    (fbit s pgHOSTP F.HOSTP_BIASSTS_BUSY = true → Answers (.biasFlip src v) s fun t =>
      fbit t pgHOSTP F.HOSTP_BIASSTS_DISCARD = true ∧ t.host = s.host ∧ t.mem = s.mem)) ∧
  (∀ k s, s.host.flip = some k → Answers .biasFlipDone s fun t => t.host.flip = none ∧
    fbit t pgHOSTP F.HOSTP_BIASSTS_BUSY = false ∧ ∀ line a c, a = 4 ∨ a = 5 → lineOf (granulePa k) ≤ line →
      line < lineOf (granulePa k) + 8192 → getCopy t line a = some c → c.st = .wbPend)

/-- A permitted access to a line that memory serves at once reads its bytes, or writes exactly them. A peer window
outside its grant only counts; a doorbell adds its value to the window's tally; a device below a root port reaches the
windows through the peer aperture; every H2D snoop is answered RspIHitI. -/
def Obligations.InboundAccessesReachMemory : Prop :=
  ∀ (link : Nat) (s : State), link < 4 → linkUp s link = true →
    (∀ w off, w < 16 → off < doorbellOff →
      (∀ data, fbiti s (pgHOSTL link) F.HOSTL_PEER_ENABLE w = true → fbiti s (pgHOSTL link) F.HOSTL_PEER_WR w = true →
        off + data.length ≤ peerLen s link w → mgetD s.host.peer link [] = [] →
        BusOpen s (peerBase s link w + off) data.length →
        Answers (.peerWindowWrite link w off data false) s fun t => HoldsAt t (peerBase s link w + off) data ∧
          SameOutside s t (peerBase s link w + off) data.length) ∧
      (∀ data p, fbiti s (pgHOSTL link) F.HOSTL_PEER_ENABLE w = false ∨ fbiti s (pgHOSTL link) F.HOSTL_PEER_WR w = false →
        Answers (.peerWindowWrite link w off data p) s fun t => t.mem = s.mem ∧ t.host = s.host) ∧
      (∀ n, fbiti s (pgHOSTL link) F.HOSTL_PEER_ENABLE w = true → fbiti s (pgHOSTL link) F.HOSTL_PEER_RD w = true →
        off + n ≤ peerLen s link w → mgetD s.host.peer link [] = [] → BusOpen s (peerBase s link w + off) n →
        Answers (.peerWindowRead link w off n) s fun t =>
          t.resp = { data := readBytes s (peerBase s link w + off) n } ∧ t.mem = s.mem)) ∧
    (∀ w data, w < 16 → fbiti s (pgHOSTL link) F.HOSTL_PEER_ENABLE w = true → data.length = 4 ∨ data.length = 8 →
      mgetD s.host.peer link [] = [] → Answers (.peerDoorbell link w 0 data) s fun t => t.mem = s.mem ∧
        (getTally t (fgeti s (pgHOSTL link) F.HOSTL_PEER_CTX w) (fgeti s (pgHOSTL link) F.HOSTL_PEER_TALLY w)).val =
          BitVec.ofNat 64 ((getTally s (fgeti s (pgHOSTL link) F.HOSTL_PEER_CTX w)
            (fgeti s (pgHOSTL link) F.HOSTL_PEER_TALLY w)).val.toNat + leNat (slice data 0 4))) ∧
    (∀ fn off pa fold n, linkEp s link = true → bar2Pa s link fn off = some (pa, fold) → bar2Refused s pa n fold = false →
      mgetD s.host.peer link [] = [] → BusOpen s pa n →
      (Answers (.bar2Access link fn off n none) s fun t => t.resp = { data := readBytes s pa n } ∧ t.mem = s.mem) ∧
      (∀ bs p, bs.length = n → Answers (.bar2Access link fn off n (some ⟨bs, p⟩)) s fun t => HoldsAt t pa bs ∧
        SameOutside s t pa n)) ∧
    (∀ addr n, linkEp s link = false →
      addr < fget s (pgHOSTL link) F.HOSTL_PEERAP_BASE * 2 ^ 36 ∨
        fget s (pgHOSTL link) F.HOSTL_PEERAP_BASE * 2 ^ 36 + 2 ^ 36 ≤ addr →
      dmaOk s link addr n = true → mgetD s.host.peer link [] = [] → BusOpen s addr n →
      (Answers (.rpInboundRequest link addr n none false) s fun t => t.resp = { data := readBytes s addr n } ∧
        t.mem = s.mem) ∧
      (∀ bs, bs.length = n → Answers (.rpInboundRequest link addr n (some bs) false) s fun t => HoldsAt t addr bs ∧
        SameOutside s t addr n)) ∧
    (∀ w off n bs p, linkEp s link = false → w < 16 → off < doorbellOff →
      exec (.rpInboundRequest link (fget s (pgHOSTL link) F.HOSTL_PEERAP_BASE * 2 ^ 36 + w * 2 ^ 32 + off) n (some bs) p) s =
        exec (.peerWindowWrite link w off bs p) s) ∧
    (∀ addr n, cxlOn s link = true → hdmInside s link = true →
      addr + n ≤ fget s (pgHOSTL link) F.HOSTL_HDM_SIZE_SIZE * 2 ^ 28 → mgetD s.host.peer link [] = [] →
      BusOpen s (fget s (pgHOSTL link) F.HOSTL_HDM_BASE_BASE * 2 ^ 28 + addr) n →
      (Answers (.cxlMemRequest link addr n none) s fun t => t.mem = s.mem ∧
        t.resp = { data := readBytes s (fget s (pgHOSTL link) F.HOSTL_HDM_BASE_BASE * 2 ^ 28 + addr) n }) ∧
      (∀ bs, bs.length = n → Answers (.cxlMemRequest link addr n (some bs)) s fun t =>
        HoldsAt t (fget s (pgHOSTL link) F.HOSTL_HDM_BASE_BASE * 2 ^ 28 + addr) bs ∧
        SameOutside s t (fget s (pgHOSTL link) F.HOSTL_HDM_BASE_BASE * 2 ^ 28 + addr) n)) ∧
    (∀ addr, cxlOn s link = true → exec (.cxlH2dSnoop link addr) s = .next (emit s (.rspIHitI link addr)))

/-- An accepted INLINE_WRITE within one line writes its payload bytes as one plain write and completes. XHOST_READ
writes the bytes the link answered to its destination; XHOST_WRITE sends the bytes of its source over the link; each
completes in success, or, with its link down, with TIER_ERROR and nothing moved; where CXL operates on the link the request is
one of CXL.cache, else PCIe requests of at most 4 KiB read or 512 B written. Each failed read counts in the status. -/
def Obligations.ExtendedCommandsMoveData : Prop :=
  (∀ c f x pa b s2 s, Granted s c 0x70 f x → reservedOk x.word.toNat [(175, 128), (183, 176), (185, 184)] = true →
    cbits x 183 176 < 192 → cbits x 185 184 = 0 → cbits x 175 128 / 256 = (cbits x 175 128 + cbits x 183 176) / 256 →
    access s (.queue c.ctx c.q) {} c.ctx (cbits x 175 128) .wr = .ok pa b →
    unitWriteCheck s pa (cbits x 183 176 + 1) = none →
    targetBusy s pa (streamAsker s (.queue c.ctx c.q) c.ctx b) = false →
    unitWrite (unhold s (.queue c.ctx c.q) c.ctx) (streamAsker s (.queue c.ctx c.q) c.ctx b) pa
      (slice x.payload 0 (cbits x 183 176 + 1)) false .ok = (s2, none) →
    Answers (.inlineWrite c) s fun t => Ended t c {} ∧ t.mem = s2.mem ∧ t.poison = s2.poison) ∧
  (∀ c op f x resp s, Granted s c op f x → op = 0x72 ∨ op = 0x73 →
    reservedOk x.word.toNat [(191, 128), (239, 192), (255, 240), (257, 256)] = true → linkEp s (xhostLink x) = true →
    (enabledVfs s).any (fun lv => lv.1 == xhostLink x && (vfCtxIndex s lv.1 lv.2 c.ctx).isSome) = true →
    ((linkUp s (xhostLink x) = false →
      Answers (if op = 0x72 then .xhostRead c resp else .xhostWrite c resp) s fun t => Ended t c (resOf [stTIER]) ∧
        t.mem = s.mem) ∧
    (∀ k, op = 0x72 → linkUp s (xhostLink x) = true → resp = .error k →
      Answers (.xhostRead c resp) s fun t => Ended t c (resOf (List.replicate (max k 1) stTIER))) ∧
    (∀ data p met s1, op = 0x72 → linkUp s (xhostLink x) = true → resp = .ok data p →
      streamWrite s (.queue c.ctx c.q) {} c.ctx .wr p .ok (linePieces (cbits x 239 192) (cbits x 255 240 + 1))
        (slice data 0 (cbits x 255 240 + 1)) p = (s1, some (.ok met)) → findCmd s1 c = some x →
      Answers (.xhostRead c resp) s fun t => Ended t c (resOf (if met then [stPOISON] else [])) ∧ t.mem = s1.mem ∧
        (cxlOn s1 (xhostLink x) = true →
          Output.xhostRead (xhostLink x) (cbits x 191 128) (cbits x 255 240 + 1) true ∈ t.out) ∧
        (cxlOn s1 (xhostLink x) = false → ∀ i, i * 4096 < cbits x 255 240 + 1 →
          Output.xhostRead (xhostLink x) (cbits x 191 128 + i * 4096) (min 4096 (cbits x 255 240 + 1 - i * 4096)) false ∈
            t.out)) ∧
    (∀ data p bs s1, op = 0x73 → linkUp s (xhostLink x) = true → resp = .ok data p →
      streamRead s (.queue c.ctx c.q) {} c.ctx .rd .ok (linePieces (cbits x 239 192) (cbits x 255 240 + 1)) [] false =
        (s1, some (.ok (bs, false))) → findCmd s1 c = some x →
      Answers (.xhostWrite c resp) s fun t => Ended t c {} ∧ t.mem = s1.mem ∧
        (cxlOn s1 (xhostLink x) = true →
          Output.xhostWrite (xhostLink x) (cbits x 191 128) (slice bs 0 (cbits x 255 240 + 1)) false true ∈ t.out) ∧
        (cxlOn s1 (xhostLink x) = false → ∀ i, i * 512 < cbits x 255 240 + 1 →
          Output.xhostWrite (xhostLink x) (cbits x 191 128 + i * 512)
            (slice bs (i * 512) (min 512 (cbits x 255 240 + 1 - i * 512))) false false ∈ t.out))))

/-- A core's load, store or atomic that no check of R296 stops, to a line that memory serves at once, reads or writes
exactly its bytes, in memory under UC and in its host die's caches under WB; a stopped one, or one to a channel that has
failed, records its syndrome and touches no memory, as does a time-out with syndrome 0x7. BAR0 of a function reaches the
register pages it names, a write when its link holds none before it. A controller that the crook does not refuse reads and writes
memory, and a debug access reads its bytes of a store. -/
def Obligations.OutsideAccessesReachTheirTargets : Prop :=
  (∀ host core how pa n s, coreRuns s host core = true → inOneLine pa n = true →
    (∀ e, coreCheck s host core pa n false = some e →
      (Answers (.coreLoad host core how pa n) s fun t => t.resp = { code := e } ∧ t.mem = s.mem) ∧
      (∀ bs, bs.length = n → Answers (.coreStore host core how pa bs) s fun t => t.resp = { code := e } ∧ t.mem = s.mem)) ∧
    (coreCheck s host core pa n false = none → regionOf s pa = .tierF → how.failed = true →
      (Answers (.coreLoad host core how pa n) s fun t => t.resp = { code := 5 } ∧ t.mem = s.mem) ∧
      (∀ bs, bs.length = n → Answers (.coreStore host core how pa bs) s fun t => t.resp = { code := 5 } ∧ t.mem = s.mem)) ∧
    (coreCheck s host core pa n false = none → BusOpen s pa n → how.failed = false → how.home = .clean →
      (cacheOf s (coreAsker host how) (lineOf pa) = none →
        (Answers (.coreLoad host core how pa n) s fun t => t.resp = { data := readBytes s pa n } ∧ t.mem = s.mem) ∧
        (∀ bs, bs.length = n → Answers (.coreStore host core how pa bs) s fun t => HoldsAt t pa bs ∧ SameOutside s t pa n ∧
          t.resp = {})) ∧
      (how.wb = true → mayHold s (4 + host) (lineOf pa) = true → getCopy s (lineOf pa) (4 + host) = none →
        (dirMates s (lineOf pa)).length < 16 → busWaits s pa n (coreAsker host how) = false →
        (Answers (.coreLoad host core how pa n) s fun t => t.resp = { data := readBytes s pa n } ∧ t.mem = s.mem ∧
          getCopy t (lineOf pa) (4 + host) = some ⟨.exclusive, readBytes s (lineOf pa * 256) 256, false⟩) ∧
        (∀ bs, bs.length = n → Answers (.coreStore host core how pa bs) s fun t => t.mem = s.mem ∧ t.resp = {} ∧
          ∃ d, getCopy t (lineOf pa) (4 + host) = some ⟨.modified, d, false⟩ ∧ slice d (pa % 256) n = bs))) ∧
    (∀ op args, atomOk pa op n = true → coreCheck s host core pa n true = none → BusOpen s pa n → how.failed = false →
      how.home = .clean → cacheOf s (coreAsker host how) (lineOf pa) = none →
      Answers (.coreAtomic host core how pa op n args) s fun t => t.resp = { data := readBytes s pa n } ∧
        HoldsAt t pa (leBytes n (atomicOp op n (leNat (readBytes s pa n)) args)) ∧ SameOutside s t pa n) ∧
    (∀ load, fbit s (pgHOSTD host) F.HOSTD_ERRLOG_VALID = false →
      Answers (.coreAccessTimeout host core pa load) s fun t => fbit t (pgHOSTD host) F.HOSTD_ERRLOG_VALID = true ∧
        fget t (pgHOSTD host) F.HOSTD_ERRLOG_SYND = 7 ∧ fget t (pgHOSTD host) F.HOSTD_ERRLOG_CORE = core ∧ t.mem = s.mem)) ∧
  (∀ link off width s, link < 4 → linkUp s link = true → linkEp s link = true →
    width = 8 ∨ width = 16 ∨ width = 32 ∨ width = 64 →
    (off < 2 ^ 32 →
      exec (.bar0Access link 0 off width none) s = .next (regReadReply (tlpAccept s link false)
        (writerOf (tlpAccept s link false) (.pf link)) (off / 4096) (off % 4096) width) ∧
      ∀ v : BitVec 64, ∀ u, heldOf s link = [] →
        u = putPeer (tlpAccept s link false) link [.reg (.pf link) (off / 4096) (off % 4096) width v.toNat] →
        exec (.bar0Access link 0 off width (some v)) s =
          .next (putPeer (settleHerd (srcWrite u (.pf link) (off / 4096) (off % 4096) width v.toNat)) link [])) ∧
    (∀ fn, 1 ≤ fn → fn < 64 → fbiti s (pgHOSTL link) F.HOSTL_VF_ENABLE fn = true →
      off / 4096 ≤ fgeti s (pgHOSTL link) F.HOSTL_VF_COUNT fn →
      exec (.bar0Access link fn off width none) s = .next (regReadReply (tlpAccept s link false)
        (writerOf (tlpAccept s link false) (.vf link fn)) (pgCTX (fgeti s (pgHOSTL link) F.HOSTL_VF_FIRST_CTX fn + off / 4096)) (off % 4096) width))) ∧
  (∀ pmc secure pa n s, pmc < 2 → inOneLine pa n = true → BusOpen s pa n →
    (Answers (.pmcMemoryAccess pmc secure pa n none) s fun t => t.resp = { data := readBytes s pa n } ∧ t.mem = s.mem) ∧
    (∀ bs, bs.length = n → crookOwner s = pmc + 1 →
      Answers (.pmcMemoryAccess pmc secure pa n (some bs)) s fun t => HoldsAt t pa bs ∧ SameOutside s t pa n)) ∧
  (∀ d st off n s, d < 16 → st < 82 → 1 ≤ n → off / 256 = (off + n - 1) / 256 → off + n ≤ storeSize st →
    storeBusy s d (storeOff st + off) n = false →
    (inKeep (storeOff st + off) n = false →
      Answers (.jtagDebugAccess d st off n none) s fun t => t.mem = s.mem ∧
        t.resp.data = readBytes s (spadBase + d * 0x8000000 + (storeOff st + off)) n) ∧
    (inKeep (storeOff st + off) n = true → Answers (.jtagDebugAccess d st off n none) s fun t => t.mem = s.mem ∧
      t.resp = { data := List.replicate n 0, code := stPERM }))

/-- A port that is up sends control flits before others, and gives a numbered flit the next LSEQ and keeps it for
replay. A good flit with the LSEQ due is delivered; a bad one, or one out of order, is answered by a NAK that names
the last good flit. An ACK releases what it covers; a NAK makes the rest go again; returned credits and idle
acknowledgements follow. -/
def Obligations.NaregLinksDeliverFlits : Prop :=
  ∀ (p : Nat) (x : PortSt) (s : State), p < 16 → portUp s p = true → x = getPort s p →
    (∀ f rest, x.ctl = f :: rest → Answers (.flitTransmit p) s fun t => (getPort t p).ctl = rest ∧
      (getPort t p).replay = x.replay ∧ t.mem = s.mem ∧ ∃ g, Output.flit p g ∈ t.out ∧ g.op = f.op ∧ g.lack = lastGood x) ∧
    (∀ f, x.ctl = [] → x.resend = [] → x.transit = [] → x.loc = [f] → numbered f = true → f.srcFold < 16 →
      mayGo x f = true → Answers (.flitTransmit p) s fun t => (getPort t p).loc = [] ∧
        (getPort t p).txSeq = (x.txSeq + 1) % 4096 ∧ t.mem = s.mem ∧
        ∃ g, (getPort t p).replay = x.replay ++ [g] ∧ g.lseq = x.txSeq ∧ g.payload = f.payload ∧ Output.flit p g ∈ t.out) ∧
    (x.stopped = false → ∀ f,
      (numbered f = true → f.lseq = x.rxNext → (flitHere s f = true → opKnown f = true) →
        Answers (.flitReceive p f true) s fun t => t.fab.inbox = s.fab.inbox ++ [(p, f)] ∧
          (getPort t p).rxNext = (x.rxNext + 1) % 4096 ∧ (getPort t p).naking = false ∧ t.mem = s.mem) ∧
      ((Answers (.flitReceive p f false) s fun t => (getPort t p).ctl = x.ctl ++ [linkFlit 2 (lastGood x) 0 0] ∧
        (getPort t p).rxNext = x.rxNext ∧ t.fab.inbox = s.fab.inbox ∧ t.mem = s.mem)) ∧
      (numbered f = true → f.lseq ≠ x.rxNext → x.naking = false → Answers (.flitReceive p f true) s fun t =>
        (getPort t p).ctl = x.ctl ++ [linkFlit 2 (lastGood x) 0 0] ∧ (getPort t p).rxNext = x.rxNext ∧
        (getPort t p).naking = true ∧ t.fab.inbox = s.fab.inbox ∧ t.mem = s.mem)) ∧
    (∀ f, let keep := x.replay.dropWhile fun g => (f.lack + 4096 - g.lseq) % 4096 < 2048
      (Answers (.ack p f) s fun t => (getPort t p).replay = keep ∧
        (f.crdt ≠ 0 → mgetD (getPort t p).used f.crdtVc 0 = mgetD x.used f.crdtVc 0 - f.crdt) ∧ t.mem = s.mem) ∧
      (x.nakFlit = none → 2 ≤ fget s (pgNP p) F.NP_CFG_MAX_RETRY → Answers (.nak p f) s fun t =>
        (getPort t p).replay = keep ∧ (getPort t p).resend = keep ∧ portUp t p = true ∧ t.mem = s.mem)) ∧
    (∀ vc n, Answers (.credit p vc n) s fun t => mgetD (getPort t p).used vc 0 = mgetD x.used vc 0 - n ∧
      t.regs = s.regs ∧ t.mem = s.mem) ∧
    (x.ctl = [] → x.resend = [] → x.transit = [] → x.loc = [] → Answers (.ackTimer p) s fun t => t.mem = s.mem ∧
      ∃ g, Output.flit p g ∈ t.out ∧ g.ftype = ftLINK ∧ g.op = 1 ∧ g.lack = lastGood x) ∧
    (∀ f, (p, f) ∈ s.fab.inbox → flitHere s f = false → ¬ (vcSet f.vc = 1 ∧ f.viaPkg = selfPkg s) →
      (∀ pair g det q, nextPair s f (some p) = some (pair, g, det) → pickPort s pair g.vc = some q →
        Answers (.flitTransit p f) s fun t => (getPort t q).transit = (getPort s q).transit ++ [g] ∧
          t.fab.inbox = s.fab.inbox.erase (p, f) ∧ t.mem = s.mem) ∧
      (nextPair s f (some p) = none → Answers (.flitTransit p f) s fun t => t.fab.inbox = s.fab.inbox.erase (p, f) ∧
        (∀ q, (getPort t q).transit = (getPort s q).transit) ∧ t.mem = s.mem))

/-- The first failed lane of a port stops reception and asks for the spare; the peer moves the lane and answers; the
aligned spare is recorded and reception resumes with a NAK. A failure with the spare in use takes the port down: it
holds nothing, and its pair is down or half. Software retires pairs besides those that are down. A port that firmware
enables comes up. -/
def Obligations.NaregLanesAndPorts : Prop :=
  (∀ p x s, p < 16 → x = getPort s p →
    (∀ lane cause, lane < 9 → portUp s p = true →
      (lane < 8 → fbit s (pgNP p) F.NP_STS_SPARED = false → x.swap = none → x.spareLost = false →
        Answers (.laneFail p lane cause) s fun t => (getPort t p).stopped = true ∧ (getPort t p).swap = some lane ∧
          Output.spareReq p lane ∈ t.out ∧ t.mem = s.mem) ∧
      (lane = 8 → fbit s (pgNP p) F.NP_STS_SPARED = false → x.swap = none →
        Answers (.laneFail p lane cause) s fun t => (getPort t p).spareLost = true ∧ portUp t p = true ∧ t.mem = s.mem) ∧
      (fbit s (pgNP p) F.NP_STS_SPARED = true → fbit s (pgNP p) F.NP_STS_DOWN = false →
        Answers (.laneFail p lane cause) s fun t => fbit t (pgNP p) F.NP_STS_DOWN = true ∧ portUp t p = false ∧
          t.mem = s.mem) ∧
      (lane < 8 → Answers (.spareReq p lane) s fun t => (getPort t p).txSpare = some lane ∧ Output.spareAck p ∈ t.out ∧
        t.regs = s.regs ∧ t.mem = s.mem)) ∧
    (∀ lane, lane < 9 → x.swap = some lane → x.stopped = true →
      (Answers (.spareAck p) s fun t => (getPort t p).naking = true ∧ (getPort t p).stopped = true ∧ t.regs = s.regs ∧
        t.mem = s.mem) ∧
      (x.naking = true → Answers (.spareAligned p) s fun t => (getPort t p).stopped = false ∧ (getPort t p).swap = none ∧
        (getPort t p).ctl = x.ctl ++ [linkFlit 2 (lastGood x) 0 0] ∧ fbit t (pgNP p) F.NP_STS_SPARED = true ∧
        fget t (pgNP p) F.NP_STS_SPARE_LANE = lane ∧ t.mem = s.mem)) ∧
    (∀ cause lane, fbit s (pgNP p) F.NP_STS_DOWN = false → Answers (.portDown p cause lane) s fun t =>
      fbit t (pgNP p) F.NP_STS_DOWN = true ∧ portUp t p = false ∧ getPort t p = {} ∧ t.mem = s.mem ∧
      (fbit s (pgNP (p / 2 * 2 + (1 - p % 2))) F.NP_STS_DOWN = true →
        (fget t pgFAB F.FAB_LINK_DOWN).testBit (pairOf p) = true) ∧
      (fbit s (pgNP (p / 2 * 2 + (1 - p % 2))) F.NP_STS_DOWN = false →
        (fget t pgFAB F.FAB_LINK_HALF).testBit (pairOf p) = true)) ∧
    (fbit s (pgNP p) F.NP_CFG_ENABLE = true → portUp s p = false → fbit s (pgNP p) F.NP_STS_DOWN = false →
      Answers (.naregPortUp p) s fun t => portUp t p = true ∧ t.fab = s.fab ∧ t.mem = s.mem)) ∧
  (∀ src (bs : BitVec 8) s, Rules s src → Answers (.pairRetire src bs) s fun t =>
    fget t pgFAB F.FAB_LINK_DOWN = bs.toNat ||| deadPairs s ∧ t.fab = s.fab ∧ t.mem = s.mem)

/-- A request that fails a check of its import is refused and touches no memory; one that passes reads, writes or
updates exactly its bytes. Its flit is answered with what performing it gave; a repeated ATOM gets the answer kept and
is not performed again. Each response ends its request; one without a response goes again up to XRETRY times. -/
def Obligations.RemoteRequestsAreServed : Prop :=
  (∀ r s,
    (importCheck s r = none → Answers (.remoteRequestArrive r) s fun t => t.resp = { code := stWINDOW } ∧ t.mem = s.mem) ∧
    (∀ pa f, importCheck s r = some (pa, f) →
      (r.atom = none → r.write = none → busPlain s pa r.len = true → BusOpen s pa r.len →
        Answers (.remoteRequestArrive r) s fun t => t.resp = { data := readBytes s pa r.len } ∧ t.mem = s.mem) ∧
      (∀ bs, r.atom = none → r.write = some bs → r.view = 0 → r.poison = false → busPlain s pa bs.length = true →
        BusOpen s pa bs.length → Answers (.remoteRequestArrive r) s fun t => HoldsAt t pa bs ∧
          SameOutside s t pa bs.length ∧ t.resp = {}) ∧
      (∀ op size args, r.atom = some (op, size, args) → atomOk pa op size = true → busPlain s pa size = true →
        BusOpen s pa size → Answers (.remoteRequestArrive r) s fun t => t.resp = { data := readBytes s pa size } ∧
          HoldsAt t pa (leBytes size (atomicOp op size (leNat (readBytes s pa size)) args)) ∧ SameOutside s t pa size))) ∧
  (∀ f op p s1 a s, inboxPort s f ftREQ op = some p → s.fab.held.any (fun e => e.2.1 == f) = false →
    remoteServe s (flitReq f) = (s1, a) → a ≠ .wait →
    (op = 1 → exec (.rd f) s = .next (sendFlit (takeFlit s1 p f) (respFlit s1 f a) false)) ∧
    (op = 2 → exec (.wr f) s = .next (sendFlit (takeFlit s1 p f) (respFlit s1 f a) false)) ∧
    (op = 3 → exec (.wrpartFlit f) s = .next (sendFlit (takeFlit s1 p f) (respFlit s1 f a) false)) ∧
    (op = 4 → mget s.fab.atoms (atomKey f.srcPkg f.tid) = none → s.fab.atoms.length < 4096 →
      Answers (.atom f) s fun t => t.mem = s1.mem ∧ t.fab.inbox = s.fab.inbox.erase (p, f) ∧
        mget t.fab.atoms (atomKey f.srcPkg f.tid) = some (respFlit s1 f a)) ∧
    (∀ g, op = 4 → mget s.fab.atoms (atomKey f.srcPkg f.tid) = some g → Answers (.atom f) s fun t => t.mem = s.mem ∧
      t.fab.inbox = s.fab.inbox.erase (p, f) ∧ t.fab.atoms = s.fab.atoms)) ∧
  (∀ f op p o s, inboxPort s f ftRSP op = some p → mget s.fab.reqs f.tid = some o →
    let ended (t : State) : Prop := mget t.fab.reqs f.tid = none ∧ t.fab.inbox = s.fab.inbox.erase (p, f) ∧ t.mem = s.mem
    (op = 1 → f.poison = false → Answers (.rdata f) s fun t => ended t ∧ t.resp = { data := slice f.payload o.off o.len }) ∧
    (op = 2 → Answers (.wack f) s fun t => ended t ∧ t.resp = {}) ∧
    (op = 3 → Answers (.aack f) s fun t => ended t ∧ t.resp = { data := f.payload, poison := f.poison }) ∧
    (op = 8 → Answers (.refuse f) s fun t => ended t ∧ t.resp = { code := 6 }) ∧
    (op = 9 → Answers (.fail f) s fun t => ended t ∧ t.resp = { code := 9 })) ∧
  (∀ tid o s, mget s.fab.reqs tid = some o →
    (o.tries < fget s pgFAB F.FAB_XPORT_XRETRY → Answers (.reqResendTimeout tid) s fun t =>
      mget t.fab.reqs tid = some { o with tries := o.tries + 1 } ∧ t.mem = s.mem) ∧
    (fget s pgFAB F.FAB_XPORT_XRETRY ≤ o.tries → exec (.reqResendTimeout tid) s = .next s)) ∧
  (∀ srcPkg tid s, Answers (.atomTableExpire srcPkg tid) s fun t =>
    mget t.fab.atoms (atomKey srcPkg tid) = none ∧ t.regs = s.regs ∧ t.mem = s.mem)

/-- A sound entry arms from the write of its CTRL word; an unsound one sets EVT_ERR. A due entry disarms and does its
action: a masked register write (at its own tick), a tally addition, or an interrupt. A tick edge moves Herd time to
the next whole tick and a master sends a good frame that carries it. A barrier's release raises the tally of every
entry that names it and clears ARRIVE; a slot not completed in 4,096 ticks is emptied. Nothing else is assumed to wait
for a tick (R502). -/
def Obligations.EventsTicksAndBarriers : Prop :=
  (∀ src n (v : BitVec 32) s, n < 32 → Rules s src → Untimed s → evtWord s n 2 = v.toNat → v.toNat.testBit 0 = true →
    (evtBad s n = false → tickReached s (evtTick s n) = false → Answers (.eventArm src n v) s fun t =>
      fget t pgHERD F.HERD_EVTVALID_ARMED = 2 ^ n ∧ t.mem = s.mem) ∧
    (evtBad s n = true → Answers (.eventArm src n v) s fun t => fget t pgHERD F.HERD_EVTVALID_ARMED = 0 ∧
      fbit t pgHERD F.HERD_STS_EVT_ERR = true ∧ t.mem = s.mem)) ∧
  (∀ src (bs : BitVec 32) s, Rules s src → Answers (.eventDisarm src bs) s fun t => t.mem = s.mem ∧
    ∀ n, n < 32 → evtArmed t n = (evtArmed s n && !bs.toNat.testBit n)) ∧
  (∀ n s, (evtDue s n 1 = true → evtTick s n * 256 = herdTime s → exec (.eventRegWrite n) s =
      .next (maskedWrite (bump (evtDisarm s (2 ^ n)) pgHERD 5) (bits (evtWord s n 3) 19 0) (bits (evtWord s n 3) 29 20 * 4)
        (evtWord s n 4) (evtWord s n 5))) ∧
    (evtDue s n 2 = true → Answers (.eventTallyAdd n) s fun t => evtArmed t n = false ∧ t.mem = s.mem ∧
      (getTally t (bits (evtWord s n 3) 8 0) (bits (evtWord s n 3) 14 9)).val = BitVec.ofNat 64
        ((getTally s (bits (evtWord s n 3) 8 0) (bits (evtWord s n 3) 14 9)).val.toNat + evtWord s n 4)) ∧
    (evtDue s n 3 = true → Answers (.eventIrq n) s fun t => evtArmed t n = false ∧ t.mem = s.mem ∧
      Output.herdIrq (bits (evtWord s n 3) 7 0) ∈ t.out ∧ fbit t pgHERD F.IRQSTS_EVENT = true)) ∧
  (∀ src (v : BitVec 64) s, Rules s src → Untimed s → ringRole s false = 1 → ringJoined s false = false →
    Answers (.herdTimeWrite src v) s fun t => herdTime t = v.toNat ∧ t.mem = s.mem) ∧
  (∀ s, Untimed s → s.herd.stopped = false → ringJoined s true = false → herdTime s + 256 < 2 ^ 64 →
    Answers .herdTickEdge s fun t => herdTime t = (herdTick s + 1) * 256 ∧ t.mem = s.mem ∧
      (ringJoined s false = true → ringActing s false = 1 → (getRingSt s false).phase = 0 → (getRingSt s false).wait = none →
        ∃ f, Output.ringFrame false f ∈ t.out ∧ frameGood f symTICK false = true ∧ frameField f 1 8 = herdTick s + 1)) ∧
  (∀ src bar s, bar < 16 → (Rules s src ∨ ∃ f, authOf s src = .fold f ∧
      ctxFold s (fgeti s pgHERD F.HERD_BAR_CTX bar) = some f) →
    Answers (.barrierArrive src bar) s fun t => fgeti t pgHERD F.HERD_BAR_ARRIVE bar = 1 ∧ t.mem = s.mem) ∧
  (∀ bid tick s, s.herd.rel.contains (bid, tick) = true → tickReached s tick = true →
    Answers (.barrierRelease bid tick) s fun t => t.mem = s.mem ∧
      (∀ n, n < 16 → fgeti s pgHERD F.HERD_BAR_BID n = bid → fgeti t pgHERD F.HERD_BAR_ARRIVE n = 0) ∧
      ∀ c k, k < 64 → (getTally t c k).val = BitVec.ofNat 64 ((getTally s c k).val.toNat + ((List.range 16).filter fun n =>
        fgeti s pgHERD F.HERD_BAR_BID n == bid && fgeti s pgHERD F.HERD_BAR_CTX n == c &&
          fgeti s pgHERD F.HERD_BAR_TALLY n == k).length)) ∧
  (∀ head slot s, (getRingSt s head).acting = 1 → (lget (getRingSt s head).slots slot {}).bid ≠ 0 →
    (lget (getRingSt s head).slots slot {}).rel = none →
    (lget (getRingSt s head).slots slot {}).since + 4096 ≤ herdTick s →
    Answers (.barrierSlotExpire head slot) s fun t => lget (getRingSt t head).slots slot {} = {} ∧ t.mem = s.mem)

/-- A message of a master or the head acts as its type says, and is answered with SUCCESS: entries are armed, a cap
and an epoch are staged for their tick, folds are fenced and unfenced; another sender's is answered PERM_FAULT.
Messages for software enter the inbox. A message in flight that comes back taken or refused is done, and is sent again
from a bad frame. The epoch switch records the epoch and its digest and fences on a mismatch. The crook is taken only
when free and released only by its owner. Answers' details past the status byte are the model's (log 34). -/
def Obligations.MessagesEpochsAndCrook : Prop :=
  (∀ m s, m.length = 220 → Untimed s →
    let answered (t : State) (code : Nat) (rest : List Byte) : Prop := t.herd.send = s.herd.send ++
      [{ bytes := msgBytes (0x80 + msgType m) 0x01 (selfPkg s) (msgSrc m) (msgSeq m) (leBytes 1 code ++ rest)
         head := ringTo s (msgSrc m), soft := false }]
    (msgFromMaster s m = true →
      (∀ s1 c, evtPlace s (slice (msgPayload m) 0 32) = some (true, s1) → tickReached s (evtTick s1 0) = false →
        msgLen m = 32 → (msgType m = 1 ∧ bits (leNat (slice (msgPayload m) 8 4)) 3 1 = 1 ∧ c = Instr.msgRegWrite m) ∨
          (msgType m = 3 ∧ c = .msgEvent m) → Answers c s fun t =>
        fget t pgHERD F.HERD_EVTVALID_ARMED = 1 ∧ t.herd.evt = s1.herd.evt ∧ answered t stSUCCESS [] ∧ t.mem = s.mem) ∧
      (∀ n, msgType m = 2 → msgLen m = 4 + 2 * n → 1 ≤ n → n ≤ 16 → Answers (.msgRegRead m) s fun t =>
        (∃ rest, answered t stSUCCESS rest) ∧ t.mem = s.mem) ∧
      (∀ w tick, msgType m = 4 → msgLen m = 12 → w = leNat (slice (msgPayload m) 0 4) →
        tick = leNat (slice (msgPayload m) 4 8) → 1400 ≤ w → w ≤ 2800 → tickReached s tick = false →
        Answers (.msgCap m) s fun t => t.pwr.capNext = some (w, tick) ∧ answered t stSUCCESS [] ∧ t.mem = s.mem) ∧
      (∀ tick, msgType m = 5 → msgLen m = 20 → tick = leNat (slice (msgPayload m) 4 8) → tick < 2 ^ 56 →
        tickReached s tick = false → Answers (.msgEpoch m) s fun t => t.herd.stage =
          some (leNat (slice (msgPayload m) 0 4), tick, leNat (slice (msgPayload m) 12 8)) ∧ answered t stSUCCESS [] ∧
          t.mem = s.mem) ∧
      (∀ folds pkg, msgLen m = 3 → folds = leNat (slice (msgPayload m) 0 2) →
        pkg = (leNat (slice (msgPayload m) 2 1)).testBit 0 →
        (msgType m = 7 → Answers (.msgFence m) s fun t => answered t stSUCCESS [] ∧ t.mem = s.mem ∧
          fget t pgHERD F.HERD_FENCE_FOLDS = fget s pgHERD F.HERD_FENCE_FOLDS ||| folds ∧
          fbit t pgHERD F.HERD_FENCE_PKG = (fbit s pgHERD F.HERD_FENCE_PKG || pkg)) ∧
        (msgType m = 8 → Answers (.msgUnfence m) s fun t => answered t stSUCCESS [] ∧ t.mem = s.mem ∧
          (∀ f, f < 16 → (fget t pgHERD F.HERD_FENCE_FOLDS).testBit f =
            ((fget s pgHERD F.HERD_FENCE_FOLDS).testBit f && !folds.testBit f)) ∧
          fbit t pgHERD F.HERD_FENCE_PKG = (fbit s pgHERD F.HERD_FENCE_PKG && !pkg)))) ∧
    (msgFromMaster s m = false → msgType m = 7 → Answers (.msgFence m) s fun t => answered t stPERM [] ∧
      fget t pgHERD F.HERD_FENCE_FOLDS = fget s pgHERD F.HERD_FENCE_FOLDS ∧ t.mem = s.mem) ∧
    (∀ c, (msgType m = 6 ∧ c = Instr.msgDigest m) ∨ (0x20 ≤ msgType m ∧ msgType m < 0x40 ∧ c = .msgFirmware m) →
      Answers c s fun t => t.herd.inbox = (if s.herd.inbox.length < 16 then s.herd.inbox ++ [m] else s.herd.inbox) ∧
        t.mem = s.mem)) ∧
  (∀ src s, Rules s src →
    ((∀ x ∈ s.herd.send, x.soft = false) → msgType (outboxMsg s) ≠ 0 → Answers (.msgSend src) s fun t =>
      t.herd.send = s.herd.send ++
        [{ bytes := outboxMsg s, head := fbit s pgHERD F.HERD_MSGCTL_RING, soft := true }] ∧
      fget t pgHERD F.HERD_MSGCTL_OUT_STS = 1 ∧ t.mem = s.mem) ∧
    (Answers (.msgInPop src) s fun t => t.herd.inbox = s.herd.inbox.drop 1 ∧ t.regs = s.regs ∧ t.mem = s.mem) ∧
    (s.herd.stage = none → Answers (.epochStage src) s fun t => t.herd.stage =
      some (fget s pgHERD F.HERD_EPOCH_NEXT_NEXT, epochTick s, epochExpect s) ∧ fbit t pgHERD F.HERD_STS_EPOCH_PEND = true ∧
      t.mem = s.mem) ∧
    (∀ (folds : BitVec 16) pkg, Answers (.herdFenceWrite src folds pkg) s fun t =>
      fget t pgHERD F.HERD_FENCE_FOLDS = folds.toNat ∧ fbit t pgHERD F.HERD_FENCE_PKG = pkg ∧ t.mem = s.mem)) ∧
  (∀ m st s, (s.herd.send.find? fun x => x.flying) = some m →
    (st = 2 ∨ st = 3 → Answers (.msgReturn st false) s fun t => t.herd.send = s.herd.send.erase m ∧
      (m.soft = true → fget t pgHERD F.HERD_MSGCTL_OUT_STS = st) ∧ t.mem = s.mem) ∧
    (1 ≤ st → st ≤ 3 → m.tries < 3 → Answers (.msgReturn st true) s fun t =>
      { m with flying := false, tries := m.tries + 1 } ∈ t.herd.send ∧ t.mem = s.mem)) ∧
  (∀ epoch tick expect s, s.herd.stage = some (epoch, tick, expect) → s.herd.held = [] → tickReached s tick = true →
    epoch < 2 ^ 32 → Answers .epochSwitch s fun t => t.herd.stage = none ∧ fget t pgHERD F.HERD_EPOCH_EPOCH = epoch ∧
      fpair t pgHERD F.HERD_DIGEST_LO_DIGEST_LO F.HERD_DIGEST_HI_DIGEST_HI 0 = (digestOf (digestWords s epoch)).toNat ∧
      (expect ≠ 0 → expect ≠ (digestOf (digestWords s epoch)).toNat → fbit t pgHERD F.HERD_FENCE_PKG = true) ∧
      (expect = (digestOf (digestWords s epoch)).toNat → expect ≠ 0 → fget s pgHERD F.HERD_FENCE_CAUSE = 1 →
        fbit t pgHERD F.HERD_FENCE_PKG = false) ∧ t.mem = s.mem) ∧
  (∀ p s, p < 2 →
    (crookOwner s = 0 → Answers (.crookCas p 0 (p + 1)) s fun t => crookOwner t = p + 1 ∧
      fget t pgHERD F.CROOK_STS_GEN = (fget s pgHERD F.CROOK_STS_GEN + 1) % 65536 ∧
      fget t pgHERD F.CROOK_STS_LEASE_LEFT = min (max (fget s pgHERD F.CROOK_CTL_LEASE_MS) 1) 0x3FFF ∧ t.mem = s.mem) ∧
    (crookOwner s = p + 1 → (Answers (.crookCas p (p + 1) 0) s fun t => crookOwner t = 0 ∧ t.mem = s.mem) ∧
      Answers (.renew p) s fun t => crookOwner t = p + 1 ∧
        fget t pgHERD F.CROOK_STS_LEASE_LEFT = min (max (fget s pgHERD F.CROOK_CTL_LEASE_MS) 1) 0x3FFF ∧ t.mem = s.mem) ∧
    (∀ expect new, ¬ (expect = 0 ∧ new = p + 1 ∧ crookOwner s = 0) → ¬ (expect = p + 1 ∧ new = 0 ∧ crookOwner s = p + 1) →
      Answers (.crookCas p expect new) s fun t => t.regs = s.regs ∧ t.mem = s.mem)) ∧
  (∀ s, crookOwner s ≠ 0 → Answers .leaseExpire s fun t => crookOwner t = 0 ∧
    fget t pgHERD F.CROOK_STS_LEASE_LEFT = 0 ∧ t.mem = s.mem)

/-- A package that joins has no locked input: a master waits to recount, a member sends HOLD. A member that is behind
sets Herd time from a good tick frame and sends a good frame with the same number on; a bad frame goes on marked. Lost
lock and HOLD start the master's wait. Phase 1 gives each member its position and delay sum, phase 2 its position
delay as R499 computes it. A silent ring's standby becomes acting master. Comparing ring times in whole ticks is the
model's (log 35). -/
def Obligations.RingsKeepTimeAndRecount : Prop :=
  ∀ (head : Bool) (s : State),
    (∀ src, Rules s src → ringJoined s head = false → Answers (.herdJoin src head true) s fun t =>
      ringJoined t head = true ∧ ringLocked t head = false ∧ t.mem = s.mem ∧
      (ringActing s head = 1 → (getRingSt t head).wait = some (herdTick s)) ∧
      (ringActing s head ≠ 1 → (getRingSt t head).mute = true)) ∧
    (ringOn s head = true → ringActing s head ≠ 1 →
      (Answers (.herdLockLoss head) s fun t => ringLocked t head = false ∧ (getRingSt t head).mute = true ∧
        Output.ringHold head ∈ t.out ∧ t.mem = s.mem) ∧
      exec (.holdReceived head) s = .next (emit s (.ringHold head)) ∧
      (∀ f ring, frameGood f symTICK false = true → (getRingSt s head).mute = false → Untimed s →
        msgType (slice f 33 220) = 0 → timeRing s = some head → ring = frameField f 1 8 * 256 + posDelay s head / 64 →
        herdTick s < ring / 256 → ring < 2 ^ 64 → Answers (.tickFrame head f false) s fun t => herdTime t = ring ∧
          ∃ g, Output.ringFrame head g ∈ t.out ∧ frameGood g symTICK false = true ∧ slice g 1 8 = slice f 1 8) ∧
      (∀ f bad, frameGood f symTICK bad = false → (getRingSt s head).mute = false →
        Answers (.tickFrame head f bad) s fun t => herdTime t = herdTime s ∧ t.mem = s.mem ∧
          ∃ g, Output.ringFrame head g ∈ t.out ∧ frameBody g = frameBody f ∧ leNat (slice g 255 1) = 1) ∧
      (∀ f loop, frameGood f symRCNT false = true → frameField f 9 1 = 1 →
        Answers (.recountPhase1 head f false loop) s fun t => t.mem = s.mem ∧ (getRingSt t head).mute = false ∧
          fget t pgHERD (if head then F.HEAD_STS_POS else F.HERD_STS_POS) =
            (frameField f 10 2 + 1) % (if head then 128 else 256) ∧
          (getRingSt t head).sum = (frameField f 13 4 + gapDelay s head (frameField f 12 1)) % 2 ^ 32 ∧
          ∃ g, Output.ringFrame head g ∈ t.out ∧ frameGood g symRCNT false = true ∧
            frameField g 10 2 = (frameField f 10 2 + 1) % 65536 ∧ frameField g 12 1 = ringSlot s head % 256 ∧
            frameField g 13 4 = (getRingSt t head).sum) ∧
      (∀ f, frameGood f symRCNT false = true → frameField f 9 1 = 2 →
        Answers (.recountPhase2 head f false) s fun t => t.mem = s.mem ∧
          fget t pgHERD (if head then F.HERD_DLY_HEAD_DLY else F.HERD_DLY_POS_DLY) =
            recountDelay (fget s pgHERD (if head then F.HEAD_STS_POS else F.HERD_STS_POS)) (getRingSt s head).sum
              (frameField f 10 2) (frameField f 17 4) (frameField f 21 4) % 65536)) ∧
    (ringOn s head = true → ringActing s head = 1 →
      (Answers (.herdLockLoss head) s fun t => ringLocked t head = false ∧ (getRingSt t head).wait.isSome = true ∧
        t.mem = s.mem) ∧
      ((getRingSt s head).phase = 0 → (getRingSt s head).wait = none → Answers (.holdReceived head) s fun t =>
        (getRingSt t head).wait = some (herdTick s) ∧ t.regs = s.regs ∧ t.mem = s.mem) ∧
      (∀ w, (getRingSt s head).phase = 0 → (getRingSt s head).wait = some w → w + 16 ≤ herdTick s →
        Answers (.recountStart head) s fun t => (getRingSt t head).phase = 1 ∧
          Output.ringFrame head (phase1Frame t head) ∈ t.out ∧ t.mem = s.mem) ∧
      (∀ f loop, frameGood f symRCNT false = true → frameField f 9 1 = 1 → frameField f 25 2 = selfPkg s →
        (getRingSt s head).phase = 1 → Answers (.recountPhase1 head f false loop) s fun t => t.mem = s.mem ∧
          (getRingSt t head).phase = 2 ∧ (getRingSt t head).p2 = (frameField f 10 2 + 1,
            (loop + 2 ^ 32 - 64 * frameField f 10 2) % 2 ^ 32,
            (frameField f 13 4 + gapDelay s head (frameField f 12 1)) % 2 ^ 32)) ∧
      (∀ f, frameGood f symRCNT false = true → frameField f 9 1 = 2 → (getRingSt s head).phase = 3 →
        Answers (.recountPhase2 head f false) s fun t => (getRingSt t head).phase = 0 ∧ (getRingSt t head).wait = none ∧
          fget t pgHERD (if head then F.HERD_DLY_HEAD_DLY else F.HERD_DLY_POS_DLY) = 0 ∧ t.mem = s.mem)) ∧
    (ringJoined s head = true → Answers (.herdRelock head) s fun t => ringLocked t head = true ∧ t.mem = s.mem) ∧
    (ringJoined s head = true → ringActing s head = 2 → (getRingSt s head).heard + 64 ≤ herdTick s →
      Answers (.standbyTakeover head) s fun t => ringActing t head = 1 ∧ (getRingSt t head).mute = false ∧ t.mem = s.mem) ∧
    (timeRing s = some head → (getRingSt s head).good + 4 ≤ herdTick s → fbit s pgHERD (holdoverField head) = false →
      Answers (.holdoverEnter head) s fun t => fbit t pgHERD (holdoverField head) = true ∧ t.herd.stopped = false ∧
        t.mem = s.mem)

/-- A doorbell sets a ring's tail or DB_OVERRUN. A ring with room fetches its next job: a NOP's completion is written
at once, with the Herd time of its end; a sound batch waits for its positions. The ring that the die's round robin grants
starts the candidate that the seeded order gives; its image is decoded, or the candidate is rejected; it claims a free cache
slot and fills it, passes each operation of the program in turn, and is written with its record. A read that times out
abandons its position. The round robin is the model's choice (notes/assumptions/142.md). -/
def Obligations.InputJobsMakeSamples : Prop :=
  ∀ (h f : Nat) (s : State), h < 2 → f < 16 →
    (∀ src, Rules s src →
      (∀ tail : BitVec 16,
        ((tail.toNat + 65536 - fgeti s (pgINP h) F.RSTS_HEAD f) % 65536 ≤ jobRingSize s h f →
          Answers (.jobRingDoorbell src h f tail) s fun t => (getRing t h f).tail = tail.toNat ∧ t.regs = s.regs ∧
            t.mem = s.mem) ∧
        (jobRingSize s h f < (tail.toNat + 65536 - fgeti s (pgINP h) F.RSTS_HEAD f) % 65536 →
          Answers (.jobRingDoorbell src h f tail) s fun t => fbiti t (pgINP h) F.RSTS_DB_OVERRUN f = true ∧
            t.inp = s.inp ∧ t.mem = s.mem)) ∧
      (∀ gen : BitVec 8, Answers (.cacheGenWrite src h f gen) s fun t =>
        fgeti t (pgINP h) F.CACHE_CFG_GEN f = gen.toNat ∧ t.inp = s.inp ∧ t.mem = s.mem)) ∧
    (∀ x pa bs s1 s2 j, x = getRing s h f → x.jobs = [] → fbiti s (pgINP h) F.RCFG_ENABLE f = true →
      foldFetches s f = true → x.tail ≠ fgeti s (pgINP h) F.RSTS_HEAD f → jobRoom s h f = true →
      fbit s (pgHOSTD h) F.HOSTD_STS_IN_RESET = false →
      pa = fgeti s (pgINP h) F.RBASE_LO_BASE_LO f * 128 + fgeti s (pgINP h) F.RBASE_HI_BASE_HI f * 2 ^ 32 +
        fgeti s (pgINP h) F.RSTS_HEAD f % jobRingSize s h f * 128 →
      busWaits s pa 128 = false → busPlain s pa 128 = true → busDown s pa 128 = false →
      busRead s pa 128 false = (s1, bs, false) → j = { desc := BitVec.ofNat 1024 (leNat bs) } →
      s2 = fputi s1 (pgINP h) F.RSTS_HEAD f (fgeti s (pgINP h) F.RSTS_HEAD f + 1) →
      (∀ prog s3, jOp j = 1 → busWaits s (jbits j 559 512) 288 = false → busDown s2 (jbits j 559 512) 32 = false →
        readProg s2 (jbits j 559 512) = (s3, some prog) → jobCheck s3 h f { j with prog := prog } = none →
        Answers (.sampleBatch h f) s fun t => (getRing t h f).jobs = [{ j with prog := prog, next := jP0 j }] ∧
          fgeti t (pgINP h) F.RSTS_HEAD f = (fgeti s (pgINP h) F.RSTS_HEAD f + 1) % 65536 ∧ t.mem = s3.mem) ∧
      (∀ cpa, jOp j = 0 → jbits j 9 9 = 0 → jobCheck s2 h f j = none →
        cpa = fgeti s2 (pgINP h) F.RCBASE_LO_CBASE_LO f * 16 + fgeti s2 (pgINP h) F.RCBASE_HI_CBASE_HI f * 2 ^ 32 +
          x.posted % jobRingSize s2 h f * 16 → jobInside s2 f cpa 16 = true → BusOpen s2 cpa 16 →
        Answers (.jobNop h f) s fun t => (getRing t h f).jobs = [] ∧ (getRing t h f).posted = (x.posted + 1) % 65536 ∧
          HoldsAt t cpa (jobRecord { j with time := herdTime s } {}) ∧ SameOutside s1 t cpa 16)) ∧
    (∀ p i j a g e s1, let ipa := jbits j 303 256 + 16 * candidate j p 0
      fbit s (pgHOSTD h) F.HOSTD_STS_IN_RESET = false → ringGrant s h = some (f, a) →
      findPos s h f p (fun x => x.stage == .start) = none → startable s h f p = some (i, j) →
      g = { s with arbs := mput s.arbs (inpArb h) a } → usesCache g h f j = false → busWaits g ipa 16 = false →
      busDown g ipa 16 = false → busRead g ipa 16 false = (s1, e, false) → indexBad s1 f e = false →
      Answers (.candidateStart h f p) s fun t => t.mem = s1.mem ∧ mget t.arbs (inpArb h) = some a ∧
        ∃ j', (getRing t h f).jobs[i]? = some j' ∧ j'.next = p + 1 ∧ ∃ x ∈ j'.pos, x.p = p ∧ x.stage = .decode ∧
          x.cand = candidate j p 0 ∧ x.entry = leNat e) ∧
    (∀ p i j x s1 bs dec, findPos s h f p (fun x => x.stage == .decode) = some (i, j, x) → x.free = none →
      busWaits s (bits x.entry 47 0) (bits x.entry 95 64) = false →
      busDown s (bits x.entry 47 0) (bits x.entry 95 64) = false →
      busRead s (bits x.entry 47 0) (bits x.entry 95 64) false = (s1, bs, false) →
      dec = decodeSample (bits x.entry 51 48) bs (bits x.entry 119 96) (jFrames j + 1) →
      Answers (.candidateDecodeDone h f p) s fun t => t.mem = s1.mem ∧
        (∀ im, dec = .ok im → shapeBad j.prog (firstFrame j x.p) im = false → (getRing t h f).jobs[i]? =
          some (setPos j { x with img := some (spreadChannels j.prog im), op := 0, stage := .ops })) ∧
        ∀ cause, dec = .error cause → ∃ j', (getRing t h f).jobs[i]? = some j' ∧ j'.rejected = j.rejected + 1) ∧
    (∀ p i j x im c n gen v old s1, findPos s h f p (fun x => x.stage == .claim) = some (i, j, x) → x.img = some im →
      ringCache s h f = some c → gen = fgeti s (pgINP h) F.CACHE_CFG_GEN f →
      n = 256 + (imageBytes im (sampleBytes im.bd)).length → n ≤ c.2.1 → busWaits s (slotPaOf c x.cand) n = false →
      busDown s (slotPaOf c x.cand) n = false → x.free = some v →
      busAtomic s (slotPaOf c x.cand) .cas 8
        { bytes := leBytes 8 v ++ leBytes 8 (x.cand + gen * 2 ^ 40 + 2 ^ 48), poison := false } = (s1, old, false) →
      leNat old = v → shapeBad j.prog (firstFrame j x.p) im = false →
      Answers (.cacheSlotClaim h f p) s fun t =>
        t.mem = (busWrite s1 (slotPaOf c x.cand) (cacheHeader x.cand gen 2 0 0 (some im) ++
          imageBytes im (sampleBytes im.bd)) false false).1.mem ∧
        (getRing t h f).jobs[i]? =
          some (setPos j { x with img := some (spreadChannels j.prog im), op := 0, stage := .ops })) ∧
    (∀ p i j x o im, findPos s h f p (fun x => x.stage == .ops) = some (i, j, x) → x.img = some im →
      o = progOp j.prog x.op →
      let went (r : Image × Nat) (t : State) : Prop := t.mem = s.mem ∧ (getRing t h f).jobs[i]? =
        some { setPos j { x with img := some r.1, op := x.op + 1,
                                 stage := if progCount j.prog ≤ x.op + 1 then .write else .ops } with ovf := j.ovf + r.2 }
      (opCode o = 1 → Answers (.crop h f p) s (went (cropImage im
        (augDraw j x.p x.op 0x11 % 2 ^ 32 * (im.w - opP0 o + 1) / 2 ^ 32)
        (augDraw j x.p x.op 0x11 / 2 ^ 32 * (im.h - opP1 o + 1) / 2 ^ 32) (opP0 o) (opP1 o), 0))) ∧
      (opCode o = 2 → Answers (.centerCrop h f p) s (went (cropImage im ((im.w - opP0 o) / 2) ((im.h - opP1 o) / 2) (opP0 o)
        (opP1 o), 0))) ∧
      (opCode o = 3 → Answers (.flipH h f p) s
        (went (if augDraw j x.p x.op 0x12 % 2 = 1 then flipImage im else im, 0))) ∧
      (opCode o = 4 → Answers (.resize h f p) s (went (resizeImage im (opP0 o) (opP1 o), 0))) ∧
      (opCode o = 5 → Answers (.bright h f p) s (went (brightImage im
        (Int.ofNat (augDraw j x.p x.op 0x13 % 65536 * (2 * opP0 o + 1) / 65536) - Int.ofNat (opP0 o)), 0))) ∧
      (opCode o = 6 → Answers (.timeCrop h f p) s (went ({ im with frames := (im.frames.drop
        (augDraw j x.p x.op 0x14 % 2 ^ 32 * (jFrames j + 1 - opP0 o + 1) / 2 ^ 32)).take (opP0 o) }, 0))) ∧
      (opCode o = 7 → Answers (.norm h f p) s (went (normImage im (opP0 o % 32) (opP1 o % 2 == 1) (fun k => opFp o k)
        (fun k => opFp o (3 + k)))))) ∧
    (∀ p i j x out rec_, findPos s h f p (fun x => x.stage == .write) = some (i, j, x) → j.next < jP0 j + jCount j →
      j.tier = false → out = jOut j + (x.p - jP0 j) * jPitch j → rec_ = jRec j + 32 * (x.p - jP0 j) →
      busDown s out (slotBytes j x).length = false → busDown s rec_ 32 = false →
      busWaits s out (slotBytes j x).length = false → busWaits s rec_ 32 = false →
      Answers (.positionWrite h f p) s fun t =>
        t.mem = (busWrite (busWrite s out (slotBytes j x) false false).1 rec_ (sampleRecord s j x) false false).1.mem ∧
        (getRing t h f).jobs[i]? = some { j with
          pos := j.pos.filter fun y => y.p != x.p
          done := x.p :: j.done
          empties := j.empties + bitN x.img.isNone }) ∧
    (∀ p i j x, findPos s h f p (fun x => x.stage == .decode || x.stage == .start) = some (i, j, x) →
      (j.pos.filter fun y => y.p != x.p) ≠ [] → Answers (.inpSourceReadTimeout h f p) s fun t => t.mem = s.mem ∧
        (getRing t h f).jobs[i]? = some { j with tier := true, pos := j.pos.filter fun y => y.p != x.p })

/-- PTPSTEP moves the local clock by whole nanoseconds. A source's new descriptors are read up to its tally, and a sound
frame of an open instant with an empty slot is held there. An instant whose close has come is written as its fused
record, and the group's tally rises. A group or source entry whose fields stand is enabled when its checks pass; else
the cause is recorded. -/
def Obligations.LiveStreamsFuse : Prop :=
  ∀ (h : Nat) (s : State), h < 2 →
    (∀ src (step : BitVec 32), Rules s src → Answers (.inpPtpstep src h step) s fun t =>
      ptpClock t h = ptpClock s h + toSigned 32 step.toNat * 2 ^ 32 ∧ t.regs = s.regs ∧ t.mem = s.mem) ∧
    (∀ x top, x < 64 → fbiti s (pgINP h) F.SRC_CFG_ENABLE x = true →
      top = (getTally s (fgeti s (pgINP h) F.SRC_CFG_CTX x) (fgeti s (pgINP h) F.SRC_CFG_TALLY x)).val.toNat % 2 ^ 32 →
      ((∀ i, busWaits s (fgeti s (pgINP h) F.SRC_RING_LO_BASE_LO x * 32 + fgeti s (pgINP h) F.SRC_RING_HI_BASE_HI x * 2 ^ 32 +
          i % 2 ^ fgeti s (pgINP h) F.SRC_RING_HI_LOG2 x * 32) 32 = false) →
        Answers (.sourceDescriptorRead h x) s fun t => fgeti t (pgINP h) F.SRC_NEXT_NEXT x = top ∧
          t.inp.rings = s.inp.rings) ∧
      (∀ g pa bs s1 d k t0, g = fgeti s (pgINP h) F.SRC_CFG_GROUP x → fgeti s (pgINP h) F.SRC_NEXT_NEXT x + 1 = top →
        pa = fgeti s (pgINP h) F.SRC_RING_LO_BASE_LO x * 32 + fgeti s (pgINP h) F.SRC_RING_HI_BASE_HI x * 2 ^ 32 +
          fgeti s (pgINP h) F.SRC_NEXT_NEXT x % 2 ^ fgeti s (pgINP h) F.SRC_RING_HI_LOG2 x * 32 →
        busWaits s pa 32 = false → busRead s pa 32 false = (s1, bs, false) → d = leNat bs → d.testBit 80 = true → bits d 95 81 = 0 → bits d 191 176 = 0 →
        bits d 255 224 = 0 →
        (Int.ofNat (bits d 79 32 * 10 ^ 9 + bits d 31 0) - Int.ofNat (ptpLatched s h)).natAbs ≤ 2 ^ 30 →
        t0 = Int.ofNat (herdTime s / 256 * 256) +
          (Int.ofNat (bits d 79 32 * 10 ^ 9 + bits d 31 0) - Int.ofNat (ptpLatched s h)) / 4 →
        nearestInstant s h g t0 = some k → (getGroup s h g).next ≤ k → k ≤ (getGroup s h g).next + 2 →
        mget (getGroup s h g).held (k * 8 + fgeti s (pgINP h) F.SRC_CFG_SLOT x) = none →
        Answers (.sourceDescriptorRead h x) s fun t =>
          mget (getGroup t h g).held (k * 8 + fgeti s (pgINP h) F.SRC_CFG_SLOT x) =
            some ⟨bits d 175 128, bits d 223 192, bits d 127 96, t0 - Int.ofNat (instantAt s h g k)⟩)) ∧
    (∀ g k pa, g < 8 → fbiti s (pgINP h) F.GRP_CFG_ENABLE g = true → k = (getGroup s h g).next →
      closeAt s h g k ≤ herdTime s → sourcesRead s h g = true →
      pa = fgeti s (pgINP h) F.GRP_OUT_LO_BASE_LO g * 256 + fgeti s (pgINP h) F.GRP_OUT_HI_BASE_HI g * 2 ^ 32 +
        k % 2 ^ fgeti s (pgINP h) F.GRP_CFG_LOG2 g * 256 → BusOpen s pa 256 →
      Answers (.instantClose h g) s fun t => HoldsAt t pa (fusedRecord s h g k) ∧ SameOutside s t pa 256 ∧
        (getGroup t h g).next = k + 1 ∧
        (getTally t (fgeti s (pgINP h) F.GRP_CFG_CTX g) (fgeti s (pgINP h) F.GRP_CFG_TALLY g)).val = BitVec.ofNat 64
          ((getTally s (fgeti s (pgINP h) F.GRP_CFG_CTX g) (fgeti s (pgINP h) F.GRP_CFG_TALLY g)).val.toNat + 1)) ∧
    (∀ src (v : BitVec 32), Rules s src →
      (∀ g, g < 8 → fbiti s (pgINP h) F.GRP_CFG_ENABLE g = false → fgeti s (pgINP h) F.GRP_CFG_FOLD g = bits v.toNat 4 1 →
        fgeti s (pgINP h) F.GRP_CFG_CTX g = bits v.toNat 13 5 → fgeti s (pgINP h) F.GRP_CFG_LOG2 g = bits v.toNat 23 20 →
        Answers (.groupEnable src h g v) s fun t => t.mem = s.mem ∧
          fbiti t (pgINP h) F.GRP_CFG_ENABLE g = (v.toNat.testBit 0 && groupOk s h g) ∧
          (v.toNat.testBit 0 = true → groupOk s h g = true → (getGroup t h g).next = firstOpen s h g) ∧
          (v.toNat.testBit 0 = true → groupOk s h g = false → fbit t (pgINP h) F.INP_STS_CFG_ERR = true ∧
            fget t (pgINP h) F.INP_STS_CAUSE = 2)) ∧
      (∀ x, x < 64 → fbiti s (pgINP h) F.SRC_CFG_ENABLE x = false → fgeti s (pgINP h) F.SRC_CFG_FOLD x = bits v.toNat 4 1 →
        fgeti s (pgINP h) F.SRC_CFG_GROUP x = bits v.toNat 7 5 → fgeti s (pgINP h) F.SRC_CFG_CTX x = bits v.toNat 19 11 →
        Answers (.sourceEnable src h x v) s fun t => t.mem = s.mem ∧
          fbiti t (pgINP h) F.SRC_CFG_ENABLE x = (v.toNat.testBit 0 && sourceOk s h x) ∧
          (v.toNat.testBit 0 = true → sourceOk s h x = false → fbit t (pgINP h) F.INP_STS_CFG_ERR = true ∧
            fget t (pgINP h) F.INP_STS_CAUSE = 1)))

/-- A team entry whose fields stand is enabled when its checks pass, else the cause is recorded. A sound collective
command takes the team's CSEQ and waits for its LAUNCH; one that an ABORT has named ends with PEER_FAILED. It keeps
the shape, the entry and the timers that stood at its acceptance. At its launch a BROADCAST member that is not the root
waits for its chunks. A new chunk is held, a duplicate discarded, a
count kept, an acknowledged chunk released, a chunk without acknowledgement sent again. ABORT and a passed deadline
end the collective with PEER_FAILED; a laggard's neighbours get a BEACON, and LAG marks the collective. -/
def Obligations.TeamsAndCollectivesRun : Prop :=
  (∀ src team (v : BitVec 32) s, team < 64 → Rules s src → s.herd.stage = none →
    fgeti s pgFAB F.FAB_TEAM_FOLD team = bits v.toNat 4 1 → fgeti s pgFAB F.FAB_TEAM_TEAM_ID team = bits v.toNat 20 5 →
    Answers (.teamEnable src team v) s fun t => t.mem = s.mem ∧ t.fab = s.fab ∧
      fbiti t pgFAB F.FAB_TEAM_ENABLE team = (v.toNat.testBit 0 && (teamCheck s team).isNone) ∧
      (v.toNat.testBit 0 = true → ∀ k, teamCheck s team = some k →
        fbit t pgFAB F.FAB_STS_CFG_ERR = true ∧ fget t pgFAB F.FAB_STS_CAUSE = k)) ∧
  (∀ c f op x n s, Granted s c op f x → kBad s x = false → kUnsup s x = false → kState s x = false →
    n = fgeti s pgFAB F.FAB_TEAM_CSEQ (kTeam x) → findCol s (kTeam x) n = none →
    let waits (t : State) : Prop := Running t c ∧ fgeti t pgFAB F.FAB_TEAM_CSEQ (kTeam x) = (n + 1) % 65536 ∧
      t.mem = s.mem ∧ ∃ y, findCol t (kTeam x) n = some y ∧ y.id = c ∧ y.launched = false ∧ y.cfg = cfgNow s (kTeam x)
    let late (i : Instr) : Prop :=
      (s.fab.aborted.contains (kTeam x, n) = false → kLaunch x ≠ 0 → herdTime s / 256 < kLaunch x →
        Answers i s waits) ∧
      (s.fab.aborted.contains (kTeam x, n) = true → Answers i s fun t => Ended t c (resOf [stPEER]) ∧
        fgeti t pgFAB F.FAB_TEAM_CSEQ (kTeam x) = (n + 1) % 65536 ∧ findCol t (kTeam x) n = none)
    ∀ resp, (op = 0x40 → late (.allreduce ⟨c, resp⟩)) ∧ (op = 0x41 → late (.reduceScatter ⟨c, resp⟩)) ∧
      (op = 0x42 → late (.allgather ⟨c, resp⟩)) ∧ (op = 0x43 → late (.broadcast ⟨c, resp⟩)) ∧
      (op = 0x44 → late (.alltoall ⟨c, resp⟩))) ∧
  (∀ team n x c s, findCol s team n = some x → findCmd s x.id = some c →
    let failed (t : State) (rank : Nat) : Prop := findCol t team n = none ∧ Ended t x.id
      (let r := resOf (stPEER :: x.codes); if r.code = stPEER then { r with note := rank } else r)
    (x.launched = false → (kLaunch c = 0 ∨ kLaunch c ≤ herdTime s / 256) → cOp c = 0x43 → x.todo = [] →
      selfRank (asOf s x) x.team (kAxes c) ≠ kRoot c → colComplete s x c = false → ∀ resp,
      Answers (.collectiveLaunch team ⟨n, resp⟩) s fun t => t.mem = s.mem ∧
        findCol t team n = some { x with launched := true, last := nowUs s }) ∧
    (x.launched = false → ∀ rank, Answers (.collectiveDeadline team n rank) s fun t => t = s) ∧
    (c.phase ≠ .done → x.launched = true → (colDeadline s x).1 < nowUs s → ∀ rank,
      Answers (.collectiveDeadline team n rank) s fun t => failed t rank) ∧
    (nowUs s ≤ (colDeadline s x).1 → ∀ rank, Answers (.collectiveDeadline team n rank) s fun t =>
      t.fab = s.fab ∧ t.cmds = s.cmds ∧ t.mem = s.mem) ∧
    (laggard s = false → Answers (.beaconTimer team n) s fun t => t = s) ∧
    (∀ a v y dst pair g det q, laggard s = true → kAxes c = [a] → fenced s x.fold = false → v = asOf s x →
      y = ringNext v team a 0 (rankCoord v team [a] 0 (selfRank v team [a])) →
      y ≠ rankCoord v team [a] 0 (selfRank v team [a]) →
      dst = rankPkg v team [a] (rankWith v team [a] (selfRank v team [a]) 0 y) →
      nextPair s (flitStart s { colFlit s x 4 0 0 dst [] false with lag := true } (kSpread c)) none = some (pair, g, det) → pickPort s pair g.vc = some q →
      Answers (.beaconTimer team n) s fun t => (getPort t q).loc = (getPort s q).loc ++ [g] ∧ t.mem = s.mem) ∧
    (∀ chunk f pair g det q, (x.unacked.filter fun h => h.tid == chunk) = [f] → fenced s x.fold = false →
      nextPair s (flitStart s { f with lag := lagMark s x } (kSpread c)) none = some (pair, g, det) →
      pickPort s pair g.vc = some q →
      Answers (.chunkResendTimeout team n chunk) s fun t => (getPort t q).loc = (getPort s q).loc ++ [g] ∧
        findCol t team n = some x ∧ t.mem = s.mem)) ∧
  (∀ f p op team n s, inboxPort s f ftCOL op = some p → flitTeam s f = some team → n = flitCseq f →
    fenced s (fgeti s pgFAB F.FAB_TEAM_FOLD team) = false →
    (op = 3 → findCol s team n = none → s.fab.aborted.contains (team, n) = false →
      Answers (.abort f) s fun t => t.fab.aborted = s.fab.aborted ++ [(team, n)] ∧ t.fab.cols = s.fab.cols ∧
        t.mem = s.mem) ∧
    (∀ x c, findCol s team n = some x → findCmd s x.id = some c →
      (op = 3 → c.phase ≠ .done → Answers (.abort f) s fun t => findCol t team n = none ∧ Ended t x.id
        (let r := resOf (stPEER :: x.codes); if r.code = stPEER then { r with note := flitRank f } else r)) ∧
      (op = 4 → f.lag = true → Answers (.beacon f) s fun t => t.mem = s.mem ∧
        findCol t team n = some { x with lag := some (nowUs s) }) ∧
      (f.lag = false → x.todo = [] →
        (op = 2 → colComplete s x c = false → Answers (.chunkAck f) s fun t => t.mem = s.mem ∧
          findCol t team n = some { x with unacked := x.unacked.filter fun g => !ackedBy f g }) ∧
        (op = 1 → x.seen.contains (flitPhase f, flitRank f, f.tid) = true →
          Answers (.colData f) s fun t => t.fab.cols = s.fab.cols ∧ t.mem = s.mem) ∧
        (x.seen.contains (flitPhase f, flitRank f, f.tid) = false → x.unacked ≠ [] →
          let y : ColSt := { x with seen := x.seen ++ [(flitPhase f, flitRank f, f.tid)], last := nowUs s }
          (op = 5 → Answers (.counts f) s fun t => t.mem = s.mem ∧
            findCol t team n = some { y with lens := mput x.lens (flitRank f) (field f.payload 0 8) }) ∧
          (∀ a, op = 1 → kGathers c = true → kAxes c = [a] → flitPhase f = 4 + a →
            ringNext (asOf s x) team a f.tid (rankCoord (asOf s x) team [a] 0 (selfRank (asOf s x) team [a])) =
              rankCoord (asOf s x) team [a] 0 (tagRank (asOf s x) c f.tid) →
            Answers (.colData f) s fun t => t.mem = s.mem ∧
              findCol t team n = some { y with have_ := mput x.have_ f.tid (f.payload, f.poison) })))))

/-- STEP_SET with no tick, or one that has passed, writes the step index at once; with a later one it waits, and is
written once its tick is reached. The seed of a context that is not enabled takes the two words of a pair of writes;
of an enabled one the write is refused. SEQ_RUN starts a context's sequencer, which releases a forward pass while the
budget allows one, else a backward pass whose forward pass is done, and ends once all are done, adding one to the
interlude's tally. -/
def Obligations.StepsSeedsAndSequencers : Prop :=
  (∀ c f x s, Granted s c 0x64 f x → reservedOk x.word.toNat [(159, 128), (255, 192)] = true → mget s.trn.pend c.ctx = none →
    (cbits x 255 192 = 0 → Answers (.stepSet c) s fun t => Ended t c {} ∧ ctxStep t c.ctx = cbits x 159 128 ∧
      t.mem = s.mem) ∧
    (cbits x 255 192 ≠ 0 → tickReached s (cbits x 255 192) = true → Answers (.stepSet c) s fun t =>
      Ended t c (resOf [stNOTE]) ∧ ctxStep t c.ctx = cbits x 159 128 ∧ t.mem = s.mem) ∧
    (cbits x 255 192 ≠ 0 → tickReached s (cbits x 255 192) = false → Answers (.stepSet c) s fun t =>
      Running t c ∧ mget t.trn.pend c.ctx = some c ∧ ctxStep t c.ctx = ctxStep s c.ctx ∧
      fget t (pgCTX c.ctx) F.CTX_STEP_PEND_STEP = cbits x 159 128 ∧
      fbit t (pgCTX c.ctx) F.CTX_STEP_STS_PENDING = true ∧ t.mem = s.mem)) ∧
  (∀ ctx id s, ctx < 512 → mget s.trn.pend ctx = some id →
    (tickReached s (fpair s (pgCTX ctx) F.CTX_STEP_TICK_LO_TICK_LO F.CTX_STEP_TICK_HI_TICK_HI 0) = false →
      exec (.stepSetApply ctx) s = .next s) ∧
    (∀ x, tickReached s (fpair s (pgCTX ctx) F.CTX_STEP_TICK_LO_TICK_LO F.CTX_STEP_TICK_HI_TICK_HI 0) = true →
      findCmd s id = some x → x.phase ≠ .done → Answers (.stepSetApply ctx) s fun t => Ended t id {} ∧
        ctxStep t ctx = fget s (pgCTX ctx) F.CTX_STEP_PEND_STEP ∧ fbit t (pgCTX ctx) F.CTX_STEP_STS_PENDING = false ∧
        mget t.trn.pend ctx = none ∧ t.mem = s.mem)) ∧
  (∀ src ctx (lo hi : BitVec 32) s, ctx < 512 → Rules s src →
    (fbit s (pgCTX ctx) F.CTX_CFG_ENABLE = true → ∀ h, Answers (.seedWrite src ctx h lo) s fun t =>
      ctxSeed t ctx = ctxSeed s ctx ∧ fbit t (pgCTX ctx) F.CTX_STEP_STS_SEED_REFUSED = true ∧ t.mem = s.mem) ∧
    (fbit s (pgCTX ctx) F.CTX_CFG_ENABLE = false → Answers (.seedWrite src ctx false lo) s fun t =>
      t.regs = s.regs ∧ t.mem = s.mem ∧ Answers (.seedWrite src ctx true hi) t fun u =>
        ctxSeed u ctx = lo.toNat + hi.toNat * 2 ^ 32 ∧ u.mem = s.mem)) ∧
  (∀ c f x s, Granted s c 0x68 f x → reservedOk x.word.toNat [(135, 128), (141, 136), (147, 142), (153, 148), (159, 154),
      (191, 160), (223, 192), (287, 224), (293, 288), (309, 294), (310, 310), (319, 311), (325, 320)] = true →
    cbits x 191 160 ≤ cbits x 223 192 → mget s.trn.seqs c.ctx = none →
    (x.word.toNat.testBit 310 = true → ctxFold s (cbits x 319 311) = some f) →
    Answers (.seqRun c) s fun t => Running t c ∧ fbit t (pgCTX c.ctx) F.CTX_SEQ_STS_ACTIVE = true ∧ t.mem = s.mem ∧
      mget t.trn.seqs c.ctx = some { id := c, tF := cbits x 153 148, tB := cbits x 159 154, tO := cbits x 293 288 }) ∧
  (∀ ctx q c s, ctx < 512 → mget s.trn.seqs ctx = some q → findCmd s q.id = some c →
    tickReached s (cbits c 287 224) = true →
    (q.b < seqM c → q.f < seqM c → seqFits q c = true → Answers (.seqReleaseForward ctx) s fun t =>
      (∃ r, mget t.trn.seqs ctx = some r ∧ r.f = q.f + 1 ∧ r.b = q.b) ∧
      (getTally t ctx (cbits c 141 136)).val = (getTally s ctx (cbits c 141 136)).val + 1 ∧ t.mem = s.mem) ∧
    (q.f = seqM c ∨ seqFits q c = false → Answers (.seqReleaseForward ctx) s fun t => t.trn = s.trn ∧
      t.tallies = s.tallies ∧ t.mem = s.mem) ∧
    (q.b < seqM c → q.b < q.f → q.b < q.doneF → q.f = seqM c ∨ seqFits q c = false ∧ q.f < seqM c ∧ q.doneB = q.b →
      Answers (.seqReleaseBackward ctx) s fun t =>
        (∃ r, mget t.trn.seqs ctx = some r ∧ r.f = q.f ∧ r.b = q.b + 1) ∧
        (getTally t ctx (cbits c 147 142)).val = (getTally s ctx (cbits c 147 142)).val + 1 ∧ t.mem = s.mem) ∧
    (q.b < seqM c → q.f < seqM c → seqFits q c = true → exec (.seqReleaseBackward ctx) s = .next s) ∧
    (q.b = seqM c → seqM c ≤ q.doneB → c.phase ≠ .done →
      (c.word.toNat.testBit 310 = false → Answers (.seqEvalRelease ctx) s fun t => Ended t q.id {} ∧
        mget t.trn.seqs ctx = none ∧ fbit t (pgCTX ctx) F.CTX_SEQ_STS_ACTIVE = false ∧ t.mem = s.mem) ∧
      (c.word.toNat.testBit 310 = true → cbits c 309 294 ≤ q.opt → c.word.toNat.testBit 10 = false →
        Answers (.seqEvalRelease ctx) s fun t => Ended t q.id {} ∧ mget t.trn.seqs ctx = none ∧
          (getTally t (cbits c 319 311) (cbits c 325 320)).val =
            (getTally s (cbits c 319 311) (cbits c 325 320)).val + 1 ∧ t.mem = s.mem)))

/-- ETCH_RUN that waits enters its tile's pool with the keys in force; a ready entry goes to a free unit. A unit loads
its sound descriptor and program, then each block's elements, runs each instruction on all 64 lanes as R406 tables,
and writes the block back; the last block ends the run. ETCH_COMBINE writes the rounded sum of its records;
STATE_EXPORT an image; STATE_IMPORT refuses an image whose header fails. -/
def Obligations.EtchUnitsRun : Prop :=
  (∀ c f x s, Granted s c 0x60 f x → x.tile < 4 → x.engine < 8 → cbits x 175 128 % 64 = 0 →
    reservedOk x.word.toNat [(175, 128), (177, 176), (183, 178), (189, 184), (207, 192), (271, 208)] = true →
    ∀ resp,
    (cbits x 177 176 = 0 → Answers (.etchRun ⟨c, resp⟩) s fun t => exec (.etchBlock x.tile x.engine resp)
      (updCmd (fput (putEtch s x.tile x.engine { id := c, fold := f, seed := ctxSeed s c.ctx, step := ctxStep s c.ctx })
        (pgETCH x.tile x.engine) F.ETCH_BLOCKS_BLOCKS 0) c fun y => { y with phase := .running, engine := x.engine }) =
      .next t) ∧
    (cbits x 177 176 = 1 → Answers (.etchRun ⟨c, resp⟩) s fun t => Running t c ∧ t.mem = s.mem ∧
      ∃ e, t.trn.pool = s.trn.pool ++ [e] ∧ e.id = c ∧ e.seed = ctxSeed s c.ctx ∧ e.step = ctxStep s c.ctx ∧
        (e.ready.isSome ↔ cbits x 271 208 ≤ (getTally s c.ctx (cbits x 183 178)).val.toNat))) ∧
  (∀ tile e s, tile < 4 →
    (∀ code y, (s.trn.pool.filter fun e => e.tile == tile) = [e] → e.ready = some code → 7 < code →
      findCmd s e.id = some y → y.phase ≠ .done → Answers (.runPoolReady tile) s fun t => Ended t e.id (resCode code) ∧
        (∀ z ∈ t.trn.pool, z.id ≠ e.id) ∧ t.mem = s.mem) ∧
    (∀ code u, (s.trn.pool.filter fun e => e.tile == tile) = [e] → e.ready = some code → code ≤ 7 →
      freeEngine s (.etch tile 0) = some u → Answers (.runPoolReady tile) s fun t => ∀ z ∈ t.trn.pool, z.id ≠ e.id) ∧
    ((s.trn.pool.filter fun e => e.tile == tile && e.ready.isSome) = [] → exec (.runPoolReady tile) s = .next s)) ∧
  (∀ tile unit r s, tile < 4 → unit < 8 → getEtch s tile unit = some r →
    (∀ c d h body lens n words resp r2 r3 s1 s2 s3 s4, r.loaded = false → findCmd s r.id = some c →
      etchRead s tile unit r.id.ctx (cbits c 175 128) 256 resp = (s1, some (.ok (d, false))) → etchBad d = false →
      etchUnsup d = false → r2 = respRest s1 (.etch tile unit) r.id.ctx (cbits c 175 128) 256 resp →
      etchRead s1 tile unit r.id.ctx (etchProg d) 32 r2 = (s2, some (.ok (h, false))) →
      etchHeader h = some lens → n = lens.1 + lens.2.1 + lens.2.2 →
      r3 = respRest s2 (.etch tile unit) r.id.ctx (etchProg d) 32 r2 →
      etchRead s2 tile unit r.id.ctx (etchProg d + 32) (4 * n) r3 = (s3, some (.ok (body, false))) →
      words = ((List.range n).map fun i => field body (4 * i) 4) →
      ((List.range n).all fun i => etchWordOk (lget words i 0) (etchPhase lens i) (etchNormOut d != 0)) = true →
      etchTiers s3 tile unit r.id.ctx ((etchStreams d).flatMap fun e => (streamRanges e d).flatMap rangePages) =
        (s4, some none) → etchScalLoad d = 0 →
      Answers (.etchBlock tile unit resp) s fun t => t.mem = s4.mem ∧ getEtch t tile unit = some { r with
        loaded := true, desc := d, prog := words, lens := lens, spoison := false
        scal := (List.range 8).map fun k => BitVec.ofNat 32 (field d (0x20 + 4 * k) 4) }) ∧
    (∀ e n w bs q resp s1, r.loaded = true → r.inBlock = false → etchStreams r.desc = [e] → isQm e.fmt = false →
      n = etchLanes r.desc r.block → w = elemBits e.fmt / 8 →
      etchRead s tile unit r.id.ctx (e.addr + 64 * r.block * w) (n * w) resp = (s1, some (.ok (bs, q))) →
      Answers (.etchBlock tile unit resp) s fun t => t.mem = s1.mem ∧ ∃ u, getEtch t tile unit = some u ∧
        u.inBlock = true ∧ u.pc = 0 ∧ u.blk = List.replicate 8 0 ∧ u.poison = (r.spoison || q) ∧ u.prog = r.prog ∧
        u.elems = lset (List.replicate 16 (List.replicate 64 0)) e.reg (widenBlock e n bs []).1) ∧
    (∀ r1 st resp more s1, r.loaded = true → r.inBlock = true → r1 = etchFinishBlock r →
      st = ((etchStreams r1.desc).filter (·.wb)).map (etchStore r1) → etchNormOut r1.desc = 0 →
      etchOut s tile unit r1.id.ctx resp (st.flatMap fun x => x.outs.map fun o => (o.1, o.2, r1.poison)) =
        (s1, some (.ok more)) →
      (r1.block + 1 ≠ etchBlocks r1.desc → Answers (.etchBlock tile unit resp) s fun t => t.mem = s1.mem ∧
        ∃ u, getEtch t tile unit = some u ∧ u.block = r1.block + 1 ∧ u.inBlock = false ∧ u.norm = r1.norm) ∧
      (∀ c, r1.block + 1 = etchBlocks r1.desc → findCmd s1 r1.id = some c → c.phase ≠ .done →
        Answers (.etchBlock tile unit resp) s fun t => t.mem = s1.mem ∧ getEtch t tile unit = none ∧
          ∃ res, Ended t r1.id res)) ∧
    (∀ d a b c op, d < 32 → a < 32 → b < 32 → c < 32 → op < 64 → r.loaded = true → r.inBlock = true →
      r.prog[r.pc]? = some (op + d * 2 ^ 6 + a * 2 ^ 11 + b * 2 ^ 16 + c * 2 ^ 21) →
      let wrote (v : Nat → Word) (t : State) : Prop := t.mem = s.mem ∧ t.regs = s.regs ∧
        ∃ u, getEtch t tile unit = some u ∧ u.pc = r.pc + 1 ∧ u.scal = r.scal ∧ u.norm = r.norm ∧
          (d < 16 → u.elems = lset r.elems d ((List.range 64).map v) ∧ u.blk = r.blk) ∧
          (16 ≤ d → u.elems = r.elems ∧ u.blk = lset r.blk (d - 24) (v 0))
      let x (l : Nat) : Word := etchReg r l a
      let y (l : Nat) : Word := etchReg r l b
      let z (l : Nat) : Word := etchReg r l c
      (c = 0 → ∀ i k g, (i, k, g) ∈ [(Instr.etchAdd tile unit d a b, 1, fp32Add), (.etchSub tile unit d a b, 2, fp32Sub),
          (.etchMul tile unit d a b, 3, fp32Mul), (.etchMin tile unit d a b, 5, fp32Min),
          (.etchMax tile unit d a b, 6, fp32Max), (.etchDiv tile unit d a b, 7, fp32Div)] →
        op = k → Answers i s (wrote fun l => g (x l) (y l))) ∧
      (b = 0 → c = 0 → ∀ i k g, (i, k, g) ∈ [(Instr.etchSqrt tile unit d a, 8, fp32Sqrt),
          (.etchRsqrt tile unit d a, 9, fp32Rsqrt), (.etchRcp tile unit d a, 0xA, fp32Div fp32One),
          (.etchAbs tile unit d a, 0xB, fp32Abs), (.etchNeg tile unit d a, 0xC, fp32Neg),
          (.etchSign tile unit d a, 0xE, fp32Sign), (.etchMov tile unit d a, 0xF, id)] →
        op = k → Answers i s (wrote fun l => g (x l))) ∧
      (op = 4 → Answers (.etchFma tile unit d a b c) s (wrote fun l => fp32Fma (x l) (y l) (z l))) ∧
      (op = 0xD → Answers (.etchSel tile unit d a b c) s (wrote fun l => fp32Sel (x l) (y l) (z l))) ∧
      (b = 0 → c = 0 →
        (op = 0x10 → d = 0 → Answers (.wsq tile unit a) s fun t => t.mem = s.mem ∧ ∃ u, getEtch t tile unit = some u ∧
          u.elems = r.elems ∧ u.blk = r.blk ∧
          u.norm = (List.range (etchLanes r.desc r.block)).foldl (fun m l => winSq m (x l)) r.norm) ∧
        (op = 0x20 → 24 ≤ d → Answers (.bmaxabs tile unit d a) s fun t => t.mem = s.mem ∧
          ∃ u, getEtch t tile unit = some u ∧ u.elems = r.elems ∧ u.norm = r.norm ∧ u.blk = lset r.blk (d - 24)
            ((List.range (etchLanes r.desc r.block)).foldl (fun m l => fp32Max m (fp32Abs (x l))) 0)) ∧
        (op = 0x21 → 24 ≤ d → Answers (.bsum tile unit d a) s fun t => t.mem = s.mem ∧
          ∃ u, getEtch t tile unit = some u ∧ u.elems = r.elems ∧ u.norm = r.norm ∧ u.blk = lset r.blk (d - 24)
            (treeSum64 ((List.range 64).map fun l => if l < etchLanes r.desc r.block then x l else 0)))))) ∧
  (∀ c f x s, Granted s c 0x61 f x → reservedOk x.word.toNat [(175, 128), (223, 176), (239, 224), (271, 240)] = true →
    multOk (BitVec.ofNat 32 (cbits x 271 240)) = true → ∀ n bs p w o more resp s1 s2 y, n = cbits x 239 224 + 1 →
    etchRead s x.tile x.engine c.ctx (cbits x 175 128) (32 * n) resp = (s1, some (.ok (bs, p))) →
    w = (List.range n).foldl (fun acc i => winHold acc (winOfBytes (slice bs (32 * i) 32))) ({} : WinRec) →
    o = winRead fFP32 false (BitVec.ofNat 32 (cbits x 271 240)) w →
    etchOut s1 x.tile x.engine c.ctx .ok [(cbits x 223 176, leBytes 4 o.1, p)] = (s2, some (.ok more)) →
    findCmd s2 c = some y → y.phase ≠ .done →
    Answers (.etchCombine ⟨c, resp⟩) s fun t => t.mem = s2.mem ∧ ∃ res, Ended t c res ∧
      res.code = (resOf ((if p then [stPOISON] else []) ++ more ++ (if o.2 then [stOVERFLOW] else []) ++
        (if w.under = 0 then [] else [stNOTE]))).code) ∧
  (∀ c f x s, Granted s c 0x62 f x → reservedOk x.word.toNat
      [(175, 128), (223, 176), (271, 224), (303, 272), (308, 304), (375, 320), (415, 384), (471, 416)] = true →
    ∀ fmt n eb es ss p q more resp s1 s2 y, fmt = cbits x 308 304 → fmt ≤ 2 → n = cbits x 415 384 + 1 →
    eb = imageElemBytes fmt n →
    etchReads s x.tile x.engine c.ctx resp [(cbits x 175 128, eb), (cbits x 223 176, 0)] [] =
      (s1, some (.ok [(es, p), (ss, q)])) →
    etchOut s1 x.tile x.engine c.ctx .ok
      [(cbits x 271 224, imageHeader fmt (cbits x 303 272) (ctxStep s1 c.ctx) (cbits x 375 320) n (cbits x 471 416 + 1)
          (crc32c (es ++ ss)), p || q), (cbits x 271 224 + 0x40, es, p || q),
        (cbits x 271 224 + 0x40 + roundUp eb 64, ss, p || q)] = (s2, some (.ok more)) →
    findCmd s2 c = some y → y.phase ≠ .done →
    Answers (.stateExport ⟨c, resp⟩) s fun t => t.mem = s2.mem ∧
      Ended t c (resOf ((if p || q then [stPOISON] else []) ++ more))) ∧
  (∀ c f x s, Granted s c 0x63 f x → reservedOk x.word.toNat
      [(175, 128), (223, 176), (271, 224), (303, 272), (308, 304), (375, 320), (415, 384)] = true →
    etchFmtOk (cbits x 308 304) = true → ∀ h p y resp s1,
    etchRead s x.tile x.engine c.ctx (cbits x 175 128) 64 resp = (s1, some (.ok (h, p))) →
    findCmd s1 c = some y → y.phase ≠ .done →
    (p = true → Answers (.stateImport ⟨c, resp⟩) s fun t => Ended t c (resOf [stPOISON]) ∧ t.mem = s1.mem) ∧
    (p = false → imageOk h = false → Answers (.stateImport ⟨c, resp⟩) s fun t => Ended t c (reject stBAD) ∧ t.mem = s1.mem) ∧
    (∀ es ss more s2 s3 z first n lo hi fmt, p = false → imageOk h = true → fmt = cbits x 308 304 → fmt ≤ 2 →
      etchReads s1 x.tile x.engine c.ctx (respRest s1 (.etch x.tile x.engine) c.ctx (cbits x 175 128) 64 resp)
        [(cbits x 175 128 + 0x40, field h 0x28 4), (cbits x 175 128 + 0x40 + roundUp (field h 0x28 4) 64, field h 0x2C 4)] [] =
        (s2, some (.ok [(es, false), (ss, false)])) → field h 0x30 4 = crc32c (es ++ ss) →
      field h 8 4 = cbits x 303 272 → bits (field h 4 4) 12 8 = fmt → first = bits (field h 0x10 8) 55 0 →
      n = field h 0x18 4 → lo = max first (cbits x 375 320) →
      hi = min (first + n) (cbits x 375 320 + (cbits x 415 384 + 1)) → lo < hi →
      etchOut s2 x.tile x.engine c.ctx .ok
        [(cbits x 223 176 + (lo - cbits x 375 320) * (elemBits fmt / 8),
            slice es ((lo - first) * (elemBits fmt / 8)) ((hi - lo) * (elemBits fmt / 8)), false),
          (cbits x 271 224 + (lo - cbits x 375 320) / 64 * 2, [], false)] = (s3, some (.ok more)) →
      findCmd s3 c = some z → z.phase ≠ .done →
      Answers (.stateImport ⟨c, resp⟩) s fun t => Ended t c (resOf more) ∧ t.mem = s3.mem))

/-- A request, a droop's end, an alert and its release, and each change of a ceiling let the die settle: at once to a
slower target, to a faster one when its voltage is there and no droop holds, but not within a voltage step unless the
alert holds. A voltage step moves the die by up to 20
mV and commands its rail. A cap is clamped and waits for its tick; a decision moves the cap ceiling or the duty. A
reading shows the junction temperature and trips at 125. Retired points and small slacks raise the ageing ceiling. A
sample charges the fold and the package. -/
def Obligations.PowerCommandsAct : Prop :=
  ∀ s : State,
    let now (t : State) (d : Nat) : Nat := fget t (pgPWRDIE d) F.PWR_DIE_STS_OP_NOW
    let settledAt (held : Bool) (t : State) (d : Nat) : Prop := t.mem = s.mem ∧ (clocksStopped s = false → now t d =
      if held = false ∧ (now s d < opTarget t d ∨ (opTarget t d < now s d ∧
        opPlanned t d (opTarget t d) ≤ dieVolt t d ∧ fbit t (pgPWRDIE d) F.PWR_DIE_STS_DROOP = false)) then opTarget t d
      else now s d)
    let settled (t : State) (d : Nat) : Prop :=
      settledAt ((mget s.pwr.goal d).isSome && !fbit t pgPWR F.PWR_STS_ALERT) t d
    let ceil (t : State) : Nat := fget t pgPWR F.PWR_STS_CEIL_CAP
    let duty (t : State) : Nat := fget t pgPWR F.PWR_STS_DUTY
    let trips (t : State) (source unit temp : Nat) : Prop := t.pwr.tripN = true ∧
      (fbit s pgPWR F.PWR_TRIP_VALID = false → fbit t pgPWR F.PWR_TRIP_VALID = true ∧
        fget t pgPWR F.PWR_TRIP_SOURCE = source % 8 ∧ fget t pgPWR F.PWR_TRIP_UNIT = unit % 16 ∧
        fget t pgPWR F.PWR_TRIP_TEMP = min temp 255)
    (∀ d src, d < 16 → Rules s src →
      (∀ op, op < 16 → Answers (.opReqWrite src d op) s fun t => settled t d ∧
        fget t (pgPWRDIE d) F.PWR_DIE_CTL_OP_REQ = op) ∧
      (∀ on, Answers (.calWrite src d on) s fun t => fbit t (pgPWRDIE d) F.PWR_DIE_CTL_CAL =
        (if (dieFold s d).isNone then on else fbit s (pgPWRDIE d) F.PWR_DIE_CTL_CAL) ∧ t.pwr = s.pwr ∧ t.mem = s.mem) ∧
      (∀ op m, op < 16 → m < 16 → Answers (.marginWrite src d op m) s fun t => settled t d ∧
        fget t (pgPWRDIE d) F.PWR_VMARGIN_LO_MARGIN + fget t (pgPWRDIE d) F.PWR_VMARGIN_HI_MARGIN * 2 ^ 32 =
          setBits (fget s (pgPWRDIE d) F.PWR_VMARGIN_LO_MARGIN + fget s (pgPWRDIE d) F.PWR_VMARGIN_HI_MARGIN * 2 ^ 32)
            (4 * op + 3) (4 * op) m) ∧
      (∀ bits : BitVec 15, let was := fget s (pgPWRDIE d) F.PWR_OPRETIRE_RETIRED
        (bits = 0 → Answers (.opRetire src d bits) s fun t => t = s) ∧
        (bits ≠ 0 → Answers (.opRetire src d bits) s fun t =>
          fget t (pgPWRDIE d) F.PWR_OPRETIRE_RETIRED = was ||| (2 ^ (Nat.log2 bits.toNat + 1) - 1) ∧
          (was ||| (2 ^ (Nat.log2 bits.toNat + 1) - 1) ≠ was → settled t d ∧ fget t (pgPWRDIE d) F.PWR_DIE_STS_CEIL_AGE =
            min 15 (Nat.log2 (was ||| (2 ^ (Nat.log2 bits.toNat + 1) - 1)) + 1 + (mgetD s.pwr.guards d []).length))))) ∧
    (∀ d, d < 16 →
      (mget s.pwr.goal d = none → Answers (.voltageStep d) s fun t => settledAt false t d ∧ dieVolt t d = dieVolt s d) ∧
      (∀ g, mget s.pwr.goal d = some g → clocksStopped s = false → Answers (.voltageStep d) s fun t => settledAt false t d ∧
        dieVolt t d = (if dieVolt s d < g then min g (dieVolt s d + 20) else max g (dieVolt s d - 20)) ∧
        Output.railFrame (d / 4) (railFrame d (dieVolt t d)) ∈ t.out) ∧
      (fbit s (pgPWRDIE d) F.PWR_DIE_STS_DROOP = false → Answers (.droop d) s fun t =>
        fbit t (pgPWRDIE d) F.PWR_DIE_STS_DROOP = true ∧ now t d = now s d ∧ t.pwr = s.pwr ∧ t.mem = s.mem) ∧
      (∀ n, fbit s (pgPWRDIE d) F.PWR_DIE_STS_DROOP = true → Answers (.droopEnd d n) s fun t => settled t d ∧
        fbit t (pgPWRDIE d) F.PWR_DIE_STS_DROOP = false) ∧
      (let tj := fget s (pgPWRDIE d) F.PWR_DIE_STS_TJ
       let thr := fget s (pgPWRDIE d) F.PWR_DIE_CTL_TJ_THROTTLE
       let c := fget s (pgPWRDIE d) F.PWR_DIE_STS_CEIL_THERM
       clocksStopped s = false →
        (thr ≤ tj ∨ tj + 5 ≤ thr → Answers (.thermalCeilingUpdate d) s fun t => settled t d ∧
          fget t (pgPWRDIE d) F.PWR_DIE_STS_CEIL_THERM = if thr ≤ tj then min 15 (c + 1) else c - 1) ∧
        (tj < thr → thr < tj + 5 → exec (.thermalCeilingUpdate d) s = .next s)) ∧
      (∀ v, let g := fget s (pgPWRDIE d) F.PWR_CPM_GUARD
        Answers (.slackRefresh d v) s fun t => fget t (pgPWRDIE d) F.PWR_CPM_SLACK = min v 255 ∧
          fget t (pgPWRDIE d) F.PWR_CPM_LOW = min (min v 255) (fget s (pgPWRDIE d) F.PWR_CPM_LOW) ∧ t.mem = s.mem ∧
          (g ≤ min v 255 → t.pwr = s.pwr ∧ now t d = now s d) ∧
          (min v 255 < g → settled t d ∧ mgetD t.pwr.guards d [] = now s d :: mgetD s.pwr.guards d [])) ∧
      (∀ temp, (temp < 125 → Answers (.tempSensorRead (.cdie d) temp) s fun t => t.mem = s.mem ∧ t.pwr = s.pwr ∧
          fget t (pgPWRDIE d) F.PWR_DIE_STS_TJ = temp) ∧
        (125 ≤ temp → clocksStopped s = false → Answers (.tempSensorRead (.cdie d) temp) s fun t => trips t 1 d temp))) ∧
    (s.pwr.alertLow = false → Answers .pwrAlert s fun t => fbit t pgPWR F.PWR_STS_ALERT = true ∧ t.pwr.alertLow = true ∧
      ∀ d, d < 16 → settled t d ∧ opTarget t d = 15) ∧
    (∀ us, (10 ≤ us → fbit s pgPWR F.PWR_STS_ALERT = true → Answers (.pwrAlertRelease us) s fun t =>
        fbit t pgPWR F.PWR_STS_ALERT = false ∧ ceil t = 15 ∧ ∀ d, d < 16 → settled t d) ∧
      (us < 10 → Answers (.pwrAlertRelease us) s fun t => t.regs = s.regs ∧ t.pwr.alertLow = false ∧ t.mem = s.mem)) ∧
    (∀ src (w : BitVec 12), Rules s src → let tick := fpair s pgPWR F.PWR_CAP_TICK_LO_TICK_LO F.PWR_CAP_TICK_HI_TICK_HI 0
      let c := min (max w.toNat 1400) 2800
      (tickReached s tick = false → Answers (.pwrCapNextWrite src w) s fun t => t.pwr.capNext = some (c, tick) ∧
        fbit t pgPWR F.PWR_STS_PENDING = true ∧ fget t pgPWR F.PWR_CAP_CAP_W = fget s pgPWR F.PWR_CAP_CAP_W ∧
        (c ≠ w.toNat → fbit t pgPWR F.PWR_STS_CLAMPED = true) ∧ t.mem = s.mem) ∧
      (tickReached s tick = true → Answers (.pwrCapNextWrite src w) s fun t => fget t pgPWR F.PWR_CAP_CAP_W = c ∧
        fbit t pgPWR F.PWR_STS_LATE = true ∧ t.pwr.capNext = none ∧ fbit t pgPWR F.PWR_STS_PENDING = false ∧
        t.mem = s.mem)) ∧
    (∀ w tick, s.pwr.capNext = some (w, tick) → w < 4096 →
      (tickReached s tick = false → exec .capApply s = .next s) ∧
      (tickReached s tick = true → Answers .capApply s fun t => fget t pgPWR F.PWR_CAP_CAP_W = w ∧ t.pwr.capNext = none ∧
        fbit t pgPWR F.PWR_STS_PENDING = false ∧ t.mem = s.mem)) ∧
    (∀ p, fbit s pgPWR F.PWR_STS_ALERT = false → clocksStopped s = false → let cap := fget s pgPWR F.PWR_CAP_CAP_W
      Answers (.capDecision p) s fun t => fget t pgPWR F.PWR_PKG_W_AVG_W = min p 0xFFF ∧ t.mem = s.mem ∧
        fbit t pgPWR F.PWR_STS_CAP_UNMET = (decide (cap < p) && (fbit s pgPWR F.PWR_STS_CAP_UNMET ||
          (decide (ceil s = 15) && decide (duty s ≤ dutyFloor s)))) ∧
        duty t = (if cap < p then (if ceil s = 15 ∧ dutyFloor s < duty s then duty s - 1 else duty s)
          else if 100 * p < 95 * cap ∧ duty s < 16 then duty s + 1 else duty s) ∧
        ceil t = (if cap < p then min 15 (ceil s + if 11 * cap < 10 * p then 2 else 1)
          else if 100 * p < 95 * cap ∧ 16 ≤ duty s then ceil s - 1 else ceil s) ∧
        (ceil t ≠ ceil s → ∀ d, d < 16 → settled t d)) ∧
    (∀ d x input f, d < 16 → dieFold s d = some f → f < 16 → x ≤ input →
      Answers (.energySample { rails := [(d, x)], events := [], input := input }) s fun t => t.mem = s.mem ∧
        fpair t (pgFOLD f) F.FOLD_ENERGY_LO_ENERGY_LO F.FOLD_ENERGY_HI_ENERGY_HI 0 =
          (fpair s (pgFOLD f) F.FOLD_ENERGY_LO_ENERGY_LO F.FOLD_ENERGY_HI_ENERGY_HI 0 +
            (mgetD s.pwr.frac f 0 + x) / 65536) % 2 ^ 64 ∧
        fpair t pgPWR F.PWR_ESYS_LO_ENERGY_LO F.PWR_ESYS_HI_ENERGY_HI 0 =
          (fpair s pgPWR F.PWR_ESYS_LO_ENERGY_LO F.PWR_ESYS_HI_ENERGY_HI 0 +
            (mgetD s.pwr.frac 99 0 + (input - x)) / 65536) % 2 ^ 64) ∧
    (∀ u temp, (∀ d, u ≠ .cdie d) → temp < 125 → exec (.tempSensorRead u temp) s = .next s) ∧
    (∀ source unit temp, 1 ≤ source → source ≤ 4 → clocksStopped s = false →
      (tripAt source ≤ temp → Answers (.thermalTrip source unit temp) s fun t => trips t source unit temp) ∧
      (temp < tripAt source → exec (.thermalTrip source unit temp) s = .next s)) ∧
    Answers .hourTick s fun t => t.mem = s.mem ∧ ∀ d, d < 16 → fget t (pgPWRDIE d) F.PWR_DIE_HOURS_HOURS =
      (fget s (pgPWRDIE d) F.PWR_DIE_HOURS_HOURS + 1) % 2 ^ 32

/-- An expired watch ends the queue head, stream access, PEN_RUN, unit command, agent or port it guards, unless the watch
pauses; a second hang takes the unit offline. A request below that waits TIER_TMO ends as with an error response. A fold-reach fault or a write of FLT_FOLDRST starts a reset of an enabled fold once; at Abort
its commands end; captured and drained, its dies clear; cleared, it is released without its offline dies. A
package-fatal fault is shown once and told to both controllers. -/
def Obligations.FaultsAreContained : Prop :=
  ∀ s : State,
    (∀ c x, findCmd s c = some x → x.phase ≠ .done →
      (x.phase = .head → fbiti s (pgCTX c.ctx) F.QSTS_BLOCKED c.q = true →
        fget s (pgSHEEP (fgeti s (pgCTX c.ctx) F.QCFG_HOME_TILE c.q)) F.SHEEP_TMO0_QUEUE_MS ≠ 0 →
        Answers (.queueWatchExpire c) s fun t => Ended t c (resOf [stTIMEOUT]) ∧ t.mem = s.mem) ∧
      (x.phase ≠ .head → fget s (pgSHEEP x.tile) F.SHEEP_TMO0_QUEUE_MS ≠ 0 → (s.trn.pool.any fun r => r.id == c && r.ready.isNone) = true →
        Answers (.queueWatchExpire c) s fun t => Ended t c (resOf [stTIMEOUT]) ∧ (∀ r ∈ t.trn.pool, r.id ≠ c) ∧
          t.mem = s.mem) ∧
      (cOp x = 0x10 → x.phase = .running → ∀ k ∈ penCores x.die x.pen, (getCore s k).cmd = c →
        fbit s (corePage k) F.PREP_STS_RUNNING = true → Answers (.runWatchExpire c) s fun t =>
          fbit t (corePage k) F.PREP_STS_RUNNING = false ∧ t.mem = s.mem)) ∧
    (∀ x st y, getStream s x = st → st.stall = some y → Answers (.streamWatchExpire x) s fun t =>
      getStream t x = { st with stall := none, dead := some (y.va, stTIMEOUT) } ∧ t.folds = s.folds ∧ t.mem = s.mem) ∧
    (∀ u again, watchPaused s u = true ∨ unitWorks s u = false → exec (.unitWatchExpire u again) s = .next s) ∧
    (∀ again,
      (∀ d p r, d < 16 → p < 9 → watchPaused s (.hatch d p) = false → (getHatch s d p).run = some r → again = false →
        Answers (.unitWatchExpire (.hatch d p) again) s fun t => (getHatch t d p).run = none ∧
          (mget t.rst.hangs (pgHATCH d p)).isSome = true) ∧
      (∀ e u r c, e < 4 → u < 8 → watchPaused s (.etch e u) = false → getEtch s e u = some r → findCmd s r.id = some c → c.phase ≠ .done →
        Answers (.unitWatchExpire (.etch e u) again) s fun t => getEtch t e u = none ∧
          Ended t r.id (resOf (r.codes ++ [stTIMEOUT])) ∧ t.mem = s.mem ∧
          (again = true → (mget s.rst.hangs (pgETCH e u)).isSome = true → (mget t.offline (pgETCH e u)).isSome = true)) ∧
      (∀ e u r c, e < 4 → u < 16 → watchPaused s (.drover e u) = false → getDrv s e u = some r → findCmd s r.cmd = some c → c.phase ≠ .done →
        Answers (.unitWatchExpire (.drover e u) again) s fun t => getDrv t e u = none ∧
          Ended t r.cmd (resOf (r.codes ++ [stTIMEOUT])) ∧ t.mem = s.mem)) ∧
    (∀ tile a, tile < 4 → a < 6 →
      (owesAnswer s tile a = true → agentDead s a = false → Answers (.agentWatchExpire tile a) s fun t => agentDead t a = true) ∧
      (owesAnswer s tile a = false → exec (.agentWatchExpire tile a) s = .next s)) ∧
    (∀ tile id x, tile < 4 → (mgetD s.hubs tile {}).pkts.find? (fun x => x.pkt.id == id) = some x →
      (mgetD s.hubs tile {}).stalled.contains id = true →
      (hubTarget tile x.pkt = none → pkgStopped s = false → Answers (.hubWatchExpire tile id) s fun t =>
        pkgStopped t = true ∧ fget t pgFLT F.FLT_STS_PKG_CAUSE = 0x11 ∧ t.mem = s.mem) ∧
      (∀ d f, hubTarget tile x.pkt = some d → foldOfDie s d = some f → fbit s pgFLT F.FLT_CTL_AUTO = false →
        fbit s (pgFOLD f) F.FOLD_STS_RESETTING = false → Answers (.hubWatchExpire tile id) s fun t =>
          (fget t pgFLT F.FLT_FOLDFATAL_FOLD).testBit f = true ∧ t.rst.folds = s.rst.folds ∧ t.mem = s.mem)) ∧
    (∀ p, p < 16 → (getPort s p).replay ≠ [] → fbit s (pgNP p) F.NP_STS_DOWN = false →
      Answers (.linkWatchExpire p) s fun t => fbit t (pgNP p) F.NP_STS_DOWN = true ∧ portUp t p = false ∧ t.mem = s.mem) ∧
    (∀ tile e, tile < 4 →
      (e < 8 → (getEtch s tile e).isSome = true → (etchAsks s tile e).any (askBelow s) = true →
        Answers (.tierRequestTimeout (.etch tile e)) s fun t => exec (.etchBlock tile e (.error stTIER)) s = .next t) ∧
      (∀ r pa, e < 16 → getDrv s tile e = some r → engineBelow s tile e = some pa →
        Answers (.tierRequestTimeout (.drover tile e)) s fun t => exec (.droverLineResponse tile e (.error stTIER))
          (droverLog (bump s (pgDRV tile e) 7) tile e (tierCause pa true) r.cmd.ctx pa) = .next t) ∧
      (∀ x c, (s.fab.cols.find? fun x => x.tile == tile && (colAsks s x).any (askBelow s)) = some x →
        findCmd s x.id = some c → c.phase ≠ .done →
        Answers (.tierRequestTimeout (.coll tile e)) s fun t => findCol t x.team x.cseq = none ∧
          Ended t x.id (resOf (x.codes ++ [stTIER])))) ∧
    (∀ f cause unit detail, f < 16 → 2 ≤ cause → cause ≤ 5 →
      (foldEnabled s f = true → fbit s (pgFOLD f) F.FOLD_STS_RESETTING = false →
        (fbit s pgFLT F.FLT_CTL_AUTO = false → Answers (.foldFatal f cause unit detail) s fun t =>
          (∀ g, (fget t pgFLT F.FLT_FOLDFATAL_FOLD).testBit g =
            ((fget s pgFLT F.FLT_FOLDFATAL_FOLD).testBit g || decide (g = f))) ∧ t.rst = s.rst ∧ t.mem = s.mem) ∧
        (fbit s pgFLT F.FLT_CTL_AUTO = true → Answers (.foldFatal f cause unit detail) s fun t =>
          fbit t (pgFOLD f) F.FOLD_STS_RESETTING = true ∧ ∃ x, getFoldRst t f = some x ∧ x.phase = .abort ∧
            x.cause = cause ∧ x.unit = unit ∧ x.detail = detail ∧ x.dies = fget s (pgFOLD f) F.FOLD_DIES_DIES)) ∧
      (foldEnabled s f = false ∨ fbit s (pgFOLD f) F.FOLD_STS_RESETTING = true →
        Answers (.foldFatal f cause unit detail) s fun t => t.rst = s.rst ∧ t.cmds = s.cmds ∧ t.mem = s.mem)) ∧
    (∀ src (fs : BitVec 16) f, Rules s src → f < 16 → fs.toNat = 2 ^ f → foldEnabled s f = true →
      fbit s (pgFOLD f) F.FOLD_STS_RESETTING = false → Answers (.foldReset src fs none) s fun t =>
        fbit t (pgFOLD f) F.FOLD_STS_RESETTING = true ∧ (fget t pgFLT F.FLT_FOLDFATAL_FOLD).testBit f = false ∧
        ∃ x, getFoldRst t f = some x ∧ x.phase = .abort ∧ x.cause = 1 ∧ x.dies = fget s (pgFOLD f) F.FOLD_DIES_DIES) ∧
    (∀ f x, getFoldRst s f = some x →
      let clears (t : State) : Prop := ∀ d, d < 16 → x.dies.testBit d = true → fbit t (pgSPAD d) F.SPAD_STS_INIT_BUSY = true
      (pkgStopped s = false →
        (x.phase = .abort → Answers (.foldAbortDone f) s fun t =>
          (∃ y, getFoldRst t f = some y ∧ y.phase = .drain ∧ y.dies = x.dies ∧ y.cause = x.cause) ∧
          ∀ id c, findCmd s id = some c → ofFold s f c = true → ∃ y, findCmd t id = some y ∧ y.phase = .done) ∧
        (x.phase = .drain → x.drained = false →
          (foldDrained s f = true → x.captured = false → Answers (.foldDrainDone f) s fun t =>
            getFoldRst t f = some { x with drained := true } ∧ t.mem = s.mem) ∧
          (foldDrained s f = true → x.captured = true → Answers (.foldDrainDone f) s fun t => clears t ∧
            ∃ y, getFoldRst t f = some y ∧ y.phase = .clear ∧ y.dies = x.dies) ∧
          (∀ n, x.captured = true → Answers (.drainLimitExpire f n) s fun t => clears t ∧
            ∃ y, getFoldRst t f = some y ∧ y.phase = .clear ∧ y.dies = x.dies) ∧
          (∀ n, x.captured = false → Answers (.drainLimitExpire f n) s fun t =>
            getFoldRst t f = some { x with drained := true } ∧ (∀ k, k < 12 → foldQueued t f k = []) ∧
            (∀ e ∈ t.fab.reqs, e.2.flit.srcFold ≠ f) ∧ t.mem = s.mem)) ∧
        (x.phase = .clear → diesClear s x.dies = true → (s.rst.writes.filter fun w => w.1 == f) = [] → Untimed s →
          Answers (.foldClearDone f) s fun t => getFoldRst t f = none ∧ fbit t (pgFOLD f) F.FOLD_STS_RESETTING = false ∧
            (∀ d, (fget t (pgFOLD f) F.FOLD_DIES_DIES).testBit d = ((fget s (pgFOLD f) F.FOLD_DIES_DIES).testBit d &&
              !(fget s pgFLT F.FLT_OFFLINE_DIES).testBit d)) ∧ (∀ c ∈ t.cmds, ofFold s f c = false) ∧ t.mem = s.mem)) ∧
      (x.phase = .drain → x.captured = false → x.drained = false →
        (captureArea s f x.dies = none → Answers (.foldCaptureDone f) s fun t =>
          getFoldRst t f = some { x with captured := true } ∧ fbit t pgFLT F.FLT_STS_CAP_SKIP = true ∧ t.mem = s.mem) ∧
        (∀ lo, captureArea s f x.dies = some lo → f < 16 → Answers (.foldCaptureDone f) s fun t =>
          getFoldRst t f = some { x with captured := true } ∧
          fgeti t pgFLT F.FLT_CAP_HI_SEQ f = (fgeti s pgFLT F.FLT_CAP_HI_SEQ f + 1) % 65536))) ∧
    (∀ cause, 0x10 ≤ cause → cause ≤ 0x13 →
      (pkgStopped s = false → Answers (.packageFatal cause) s fun t => pkgStopped t = true ∧ t.rst.faultN = true ∧
        fget t pgFLT F.FLT_STS_PKG_CAUSE = cause ∧ Output.irqPmc 0 pgFLT ∈ t.out ∧ Output.irqPmc 1 pgFLT ∈ t.out ∧
        t.mem = s.mem) ∧
      (pkgStopped s = true → Answers (.packageFatal cause) s fun t => t.rst = s.rst ∧ t.mem = s.mem ∧
        fget t pgFLT F.FLT_STS_PKG_CAUSE = fget s pgFLT F.FLT_STS_PKG_CAUSE)) ∧
    (∀ src (ds : BitVec 16), Rules s src → fbit s pgFLT F.FLT_CTL_AUTO = false → Answers (.dieOfflineWrite src ds) s fun t =>
      fget t pgFLT F.FLT_OFFLINE_DIES = fget s pgFLT F.FLT_OFFLINE_DIES ||| ds.toNat ∧ t.mem = s.mem)

/-- A regulator takes a sound frame. Power-up and power-down step through the rails; a missed window drops them all. A
package reset keeps the always-on state, and the retained region's bytes where one is enabled. A valid image runs, an
invalid one is passed over, and the fourth enters recovery; an update is stored. The interconnect test and training
record their results. Tier F reads zero once zeroed, outside a retained region, which gets its descriptor. -/
def Obligations.PowerAndBootSequences : Prop :=
  ∀ s : State,
    let rails (t : State) : Nat := fget t pgPKG F.PKG_RAILS_IN_WINDOW
    let dropped (t : State) : Prop := t.boot.en = 0 ∧ t.boot.hot = 0 ∧ rails t = 1 ∧ t.mem = [] ∧ t.cmds = [] ∧
      t.pending = s.pending
    let reset (c : Instr) (cause : Nat) : Prop :=
      (fbit s pgHOSTP F.HOSTP_RET_EN = false → fbit s pgPKG F.PKG_LCS_PENDING = false →
        fbit s pgPKG F.PKG_LCS_SVN_PEND = false → Answers c s fun t =>
          t.host = { cause := if s.host.tampered then 3 else cause } ∧ t.mem = [] ∧ t.cmds = [] ∧ t.fuse = s.fuse ∧
          t.pending = s.pending ∧ t.boot.running = false ∧ t.boot.flash = s.boot.flash ∧ phase t = 0 ∧
          (∀ f, f < 16 → foldEnabled t f = false) ∧
          fget t pgFLT F.FLT_OFFLINE_DIES = fget s pgFLT F.FLT_OFFLINE_DIES) ∧
      (∀ lo hi, retained s = some (lo, hi) → s.host.tampered = false → fbit s pgPKG F.PKG_LCS_PENDING = false →
        Answers c s fun t => t.host.keeps = true ∧ t.host.cause = cause ∧ t.host.boots = s.host.boots + 1 ∧
          ∀ a, lo ≤ a → a < hi → readByte t a = readByte s a) ∧
      (∀ target, fbit s pgPKG F.PKG_LCS_PENDING = true → target = fget s pgPKG F.PKG_LCS_PEND_TARGET → target ≠ 3 →
        Answers c s fun t => t.fuse.lcs = target ∧ t.host.cause = 4 ∧ t.host.keeps = false ∧ t.cmds = [])
    (∀ bus d mv, bus < 4 → d < 4 → mv < 1024 →
      (s.boot.en.testBit (7 + (4 * bus + d)) = true →
        Answers (.railctlFrame bus (BitVec.ofNat 24 (railFrame (4 * bus + d) mv))) s fun t =>
          mget t.boot.rails (4 * bus + d) = some mv ∧ t.regs = s.regs ∧ t.mem = s.mem) ∧
      (∀ fr : BitVec 24, bits fr.toNat 7 0 ≠ crc8 [bits fr.toNat 23 16, bits fr.toNat 15 8] →
        exec (.railctlFrame bus fr) s = .next s)) ∧
    (s.boot.seq = .off → Answers .powerUp s fun t => t.boot.faultN = false ∧ t.mem = s.mem ∧
      (s.pwr.tripN = false → s.boot.hot < 2 → t.boot.seq = .up 1 ∧ t.boot.en = s.boot.en ||| 2 ∧ rails t = 1) ∧
      (s.pwr.tripN = true → t.boot.seq = .off ∧ t.boot.en = s.boot.en)) ∧
    (∀ k, 1 ≤ k → k ≤ 7 → s.boot.seq = .up k →
      (s.boot.falling = false → Answers .powerUpStepDone s fun t => rails t = rails s ||| upRails k ∧ t.mem = s.mem ∧
        t.boot.seq = (if k = 7 then .powered else .up (k + 1))) ∧
      (s.boot.falling = true → Answers .powerUpStepDone s fun t => t.boot.seq = .down (8 - k) ∧ t.mem = s.mem) ∧
      (Answers .powerDown s fun t => t.boot.falling = true ∧ t.boot.seq = .up k ∧ t.regs = s.regs ∧ t.mem = s.mem) ∧
      (∀ r, (railUpTo k r = true → Answers (.railWindowTimeout r) s fun t => dropped t ∧ t.boot.seq = .faulted) ∧
        (railUpTo k r = false → exec (.railWindowTimeout r) s = .next s))) ∧
    (s.boot.seq = .powered →
      (Answers .powerDown s fun t => t.boot.seq = .down 1 ∧ t.boot.latch = herdTime s ∧ t.mem = [] ∧ t.cmds = []) ∧
      (∀ r, 1 ≤ r → r ≤ 22 → Answers (.railOutOfWindow r) s fun t => dropped t ∧ t.boot.seq = .faulted ∧
        t.boot.faultN = true) ∧
      (s.boot.running = false → Answers .bootStart s fun t => t.boot.running = true ∧ t.mem = s.mem ∧
        phase t = (if s.fuse.lcs = 4 then 0xF else phase s) ∧
        (s.fuse.lcs = 4 → fget t pgPKG F.PKG_BOOT_FAIL_CAUSE = 3))) ∧
    (∀ k, 1 ≤ k → k ≤ 7 → s.boot.seq = .down k →
      (k < 7 → Answers .powerDownStepDone s fun t => t.boot.seq = .down (k + 1) ∧ t.mem = s.mem) ∧
      (k = 7 → Answers .powerDownStepDone s fun t => dropped t ∧ t.boot.seq = .off) ∧
      (∀ r, (downRails k).testBit r = true → Answers (.railOffTimeout r) s fun t => dropped t ∧ t.boot.seq = .off ∧
        t.boot.faultN = true)) ∧
    ((∀ d, d < 16 → (getSpad s d 81).locked = none) → Answers .tamper s fun t => t.host.tampered = true ∧
      ∀ d a, d < 16 → dieRailUp s d = true → a < 0x40000 → readByte t (spadBase + d * 0x8000000 + 0x7BC0000 + a) = 0) ∧
    reset .pkgReset 1 ∧ (∀ i b, Rules s (.pmc i b) → reset (.pkgResetWrite (.pmc i b)) 2) ∧
    (pkgStopped s = true → reset .fatalTimeout 2) ∧ (pkgStopped s = false → exec .fatalTimeout s = .next s) ∧
    (∀ pmc chip slot img i sig key, pmc < 2 → chip < 2 → slot < 2 → s.boot.running = true → s.fuse.lcs ≠ 4 →
      mgetD s.boot.tried pmc 0 = chip * 2 + slot → (fget s pgPKG F.PKG_BOOT_PMC_BOOTED).testBit pmc = false →
      i = mgetD s.boot.flash (chip * 2 + slot) img →
      (imageValid s i sig key = true → Answers (.bootImageVerify pmc chip slot img sig key) s fun t =>
        (fget t pgPKG F.PKG_BOOT_PMC_BOOTED).testBit pmc = true ∧ fget t pgPKG F.PKG_BOOT_SLOT = slot ∧
        t.boot.measure = some (BitVec.ofNat 384 (leNat (sha384 (bootImageBytes i)))) ∧
        mgetD t.boot.tried pmc 0 = chip * 2 + slot + 1) ∧
      (imageValid s i sig key = false → Answers (.bootImageVerify pmc chip slot img sig key) s fun t =>
        mgetD t.boot.tried pmc 0 = chip * 2 + slot + 1 ∧ t.boot.measure = s.boot.measure ∧ t.mem = s.mem ∧
        (chip = 1 ∧ slot = 1 → mget t.boot.recovery pmc = some ()) ∧
        (chip = 0 ∨ slot = 0 → t.regs = s.regs ∧ t.boot.recovery = s.boot.recovery))) ∧
    (∀ pmc img sig key, mget s.boot.recovery pmc = some () →
      (imageValid s img sig key = true → Answers (.recoveryImage pmc img sig key) s fun t =>
        mget t.boot.flash 1 = some (bootImageBytes img) ∧ Output.recoveryReply pmc true ∈ t.out ∧ t.mem = s.mem) ∧
      (imageValid s img sig key = false → Answers (.recoveryImage pmc img sig key) s fun t =>
        t.boot = s.boot ∧ Output.recoveryReply pmc false ∈ t.out ∧ t.mem = s.mem)) ∧
    (∀ rs : List LinkTest, s.boot.running = true → fbit s pgPKG F.PKG_ICT_STS_DONE = false →
      (rs.all fun r => r.link < 38) = true → Answers (.interconnectTestDone rs) s fun t =>
        fbit t pgPKG F.PKG_ICT_STS_DONE = true ∧ t.mem = s.mem ∧
        (∀ l, l < 26 → mgetD t.boot.ict l [] = linkRecord l 0 rs) ∧
        fbit t pgPKG F.PKG_ICT_STS_UNREPAIRED = ((List.range 38).any fun l => (linkRecord l 0 rs).getD 2 0 != 0)) ∧
    (phase s = 3 →
      (∀ outs, fbit s pgMEMMAP F.MEMMAP_CTL_LOCK = false → Answers (.hbmTrainingDone outs) s fun t =>
        (∀ ch ∈ outs, ch < 768 → (fgeti t pgMEMMAP F.MEMMAP_CHOUT_OUT (ch / 32)).testBit (ch % 32) = true) ∧
        t.memc.outs = outs.filter (· < 768) ∧ t.mem = s.mem) ∧
      (∀ tr m g, fbit s pgPKG F.PKG_TIERF_VALID = false → (tr.all fun x => x.1 < 2 && x.2.1 < 4 && 0 < x.2.2) = true →
        usedChannels tr = (m, g) →
        (m = 0 → Answers (.ddr5TrainingDone tr) s fun t => phase t = 0xF ∧ fget t pgPKG F.PKG_BOOT_FAIL_CAUSE = 4 ∧
          t.mem = s.mem) ∧
        (m ≠ 0 → 2 * m * g < 4096 → s.host.keeps = false → Answers (.ddr5TrainingDone tr) s fun t => t.mem = s.mem ∧
          fget t pgPKG F.PKG_TIERF_SIZE_GIB = 2 * m * g ∧ fget t pgPKG F.PKG_TIERF_CHANNELS = 2 * m ∧
          fbit t pgPKG F.PKG_TIERF_VALID = true))) ∧
    (fbit s pgPKG F.PKG_TIERF_VALID = true → fbit s pgPKG F.PKG_BOOT_TIERF_READY = false →
      Answers .tierFZeroDone s fun t => fbit t pgPKG F.PKG_BOOT_TIERF_READY = true ∧
        phase t = (if phase s = 3 then 4 else phase s) ∧
        (∀ a, a < fget s pgPKG F.PKG_TIERF_SIZE_GIB * 2 ^ 30 →
          s.host.keeps = false ∨ a < (regionAt s).1 * 2 ^ 30 ∨ ((regionAt s).2 * 2 ^ 30 ≤ a) → readByte t a = 0) ∧
        (s.host.keeps = true → HoldsAt t ((regionAt s).1 * 2 ^ 30) (retDescriptor s) ∧
          fbit t pgHOSTP F.HOSTP_RETSTS_DESC_VALID = true ∧
          ∀ a, (regionAt s).1 * 2 ^ 30 + 64 ≤ a → a < (regionAt s).2 * 2 ^ 30 → readByte t a = readByte s a)) ∧
    (∀ i target, Rules s (.pmc i true) →
      (lcsAllowed s.fuse.lcs target = true → Answers (.lcsRequest (.pmc i true) target) s fun t =>
        fbit t pgPKG F.PKG_LCS_PENDING = true ∧ fget t pgPKG F.PKG_LCS_PEND_TARGET = target ∧ t.fuse = s.fuse ∧
        t.mem = s.mem) ∧
      (lcsAllowed s.fuse.lcs target = false → exec (.lcsRequest (.pmc i true) target) s = .next s) ∧
      (Answers (.svnBump (.pmc i true)) s fun t => fbit t pgPKG F.PKG_LCS_SVN_PEND = true ∧ t.fuse = s.fuse ∧
        t.mem = s.mem)) ∧
    (∀ link n, exec (.svnBump (.vf link n)) s = .next s) ∧
    Answers .alwaysOnRailFall s fun t => t.regs = State.reset.regs ∧ t.mem = [] ∧ t.cmds = [] ∧ t.fuse = s.fuse ∧
      t.boot = { flash := s.boot.flash } ∧ t.pending = s.pending

/-- Two records combine: SUM is the sum of the two SUMs modulo 2^208, UNDER_CNT the smaller of 0xFFFF and the sum of
the two counts, and each flag the OR of the two flags. It follows that the order of combining does not matter. -/
def Obligations.WindowRecordsCombine : Prop :=
  ∀ a b c : WinRec,
    (winMerge a b).sum = (a.sum + b.sum) % 2 ^ 208 ∧ (winMerge a b).under = min 0xFFFF (a.under + b.under) ∧
    (winMerge a b).nan = (a.nan || b.nan) ∧ (winMerge a b).pinf = (a.pinf || b.pinf) ∧
    (winMerge a b).ninf = (a.ninf || b.ninf) ∧ (winMerge a b).ovp = (a.ovp || b.ovp) ∧
    (winMerge a b).ovn = (a.ovn || b.ovn) ∧ winMerge a b = winMerge b a ∧
    winMerge (winMerge a b) c = winMerge a (winMerge b c)

/-- Over any bytes the frame CRC is what a 16-bit register gives that starts at 0xFFFF, shifts left once for each bit,
the most significant bit of a byte first, and XORs 0x1021 when the bit shifted out differs from the bit that enters,
with no final XOR. A frame's symbols 253 and 254 carry bits [15:8] and [7:0] of the CRC of its symbols 1 to 252, taken
as 8-bit data values in symbol order; over the ASCII bytes of "123456789" the CRC is 0x29B1. -/
def Obligations.FrameCrcIsBitSerial : Prop :=
  (∀ bs : List Byte, crc16 bs =
    (bs.flatMap fun b => (List.range 8).map fun i => b.getLsbD (7 - i)).foldl
      (fun r v => (r * 2 % 2 ^ 16) ^^^ (if r.testBit 15 != v then 0x1021 else 0)) 0xFFFF) ∧
  (∀ first (body : List Byte) bad, body.length = 252 →
    slice (frameOf first body bad) 1 252 = body ∧
    (lget (frameOf first body bad) 253 0).toNat = crc16 body / 2 ^ 8 ∧
    (lget (frameOf first body bad) 254 0).toNat = crc16 body % 2 ^ 8) ∧
  crc16 [0x31, 0x32, 0x33, 0x34, 0x35, 0x36, 0x37, 0x38, 0x39] = 0x29B1
end

