-- ==== Sys2Proof/Laws/State.lean ====
section
/-! SUPPORT. Which fields of the state each plain update leaves alone: one lemma per field and update, true by
definition, so that no proof unfolds a record update. -/

namespace Sys2Proof.Machine

open Sys2Proof

/-! fputi -/

section
variable (s : State) (page : Nat) (f : Field) (i v : Nat)
@[simp] theorem fputi_pending : (fputi s page f i v).pending = s.pending := rfl
@[simp] theorem fputi_cnt : (fputi s page f i v).cnt = s.cnt := rfl
@[simp] theorem fputi_latch : (fputi s page f i v).latch = s.latch := rfl
@[simp] theorem fputi_pairHeld : (fputi s page f i v).pairHeld = s.pairHeld := rfl
@[simp] theorem fputi_pairLatch : (fputi s page f i v).pairLatch = s.pairLatch := rfl
@[simp] theorem fputi_grpCarry : (fputi s page f i v).grpCarry = s.grpCarry := rfl
@[simp] theorem fputi_fuse : (fputi s page f i v).fuse = s.fuse := rfl
@[simp] theorem fputi_podMembers : (fputi s page f i v).podMembers = s.podMembers := rfl
@[simp] theorem fputi_sysMembers : (fputi s page f i v).sysMembers = s.sysMembers := rfl
@[simp] theorem fputi_resp : (fputi s page f i v).resp = s.resp := rfl
@[simp] theorem fputi_out : (fputi s page f i v).out = s.out := rfl
@[simp] theorem fputi_free : (fputi s page f i v).free = s.free := rfl
@[simp] theorem fputi_mem : (fputi s page f i v).mem = s.mem := rfl
@[simp] theorem fputi_undefs : (fputi s page f i v).undefs = s.undefs := rfl
@[simp] theorem fputi_poison : (fputi s page f i v).poison = s.poison := rfl
@[simp] theorem fputi_fltLog : (fputi s page f i v).fltLog = s.fltLog := rfl
@[simp] theorem fputi_arrs : (fputi s page f i v).arrs = s.arrs := rfl
@[simp] theorem fputi_arrCtl : (fputi s page f i v).arrCtl = s.arrCtl := rfl
@[simp] theorem fputi_preps : (fputi s page f i v).preps = s.preps := rfl
@[simp] theorem fputi_vregs : (fputi s page f i v).vregs = s.vregs := rfl
@[simp] theorem fputi_hatches : (fputi s page f i v).hatches = s.hatches := rfl
@[simp] theorem fputi_lists : (fputi s page f i v).lists = s.lists := rfl
@[simp] theorem fputi_cmds : (fputi s page f i v).cmds = s.cmds := rfl
@[simp] theorem fputi_queues : (fputi s page f i v).queues = s.queues := rfl
@[simp] theorem fputi_tallies : (fputi s page f i v).tallies = s.tallies := rfl
@[simp] theorem fputi_arbs : (fputi s page f i v).arbs = s.arbs := rfl
@[simp] theorem fputi_stamp : (fputi s page f i v).stamp = s.stamp := rfl
@[simp] theorem fputi_streams : (fputi s page f i v).streams = s.streams := rfl
@[simp] theorem fputi_folds : (fputi s page f i v).folds = s.folds := rfl
@[simp] theorem fputi_spads : (fputi s page f i v).spads = s.spads := rfl
@[simp] theorem fputi_moving : (fputi s page f i v).moving = s.moving := rfl
@[simp] theorem fputi_drvs : (fputi s page f i v).drvs = s.drvs := rfl
@[simp] theorem fputi_moves : (fputi s page f i v).moves = s.moves := rfl
@[simp] theorem fputi_waits : (fputi s page f i v).waits = s.waits := rfl
@[simp] theorem fputi_scheds : (fputi s page f i v).scheds = s.scheds := rfl
@[simp] theorem fputi_offline : (fputi s page f i v).offline = s.offline := rfl
@[simp] theorem fputi_memc : (fputi s page f i v).memc = s.memc := rfl
@[simp] theorem fputi_coh : (fputi s page f i v).coh = s.coh := rfl
@[simp] theorem fputi_host : (fputi s page f i v).host = s.host := rfl
@[simp] theorem fputi_inp : (fputi s page f i v).inp = s.inp := rfl
@[simp] theorem fputi_fab : (fputi s page f i v).fab = s.fab := rfl
@[simp] theorem fputi_trn : (fputi s page f i v).trn = s.trn := rfl
@[simp] theorem fputi_pwr : (fputi s page f i v).pwr = s.pwr := rfl
@[simp] theorem fputi_rst : (fputi s page f i v).rst = s.rst := rfl
@[simp] theorem fputi_boot : (fputi s page f i v).boot = s.boot := rfl
@[simp] theorem fputi_hubs : (fputi s page f i v).hubs = s.hubs := rfl
@[simp] theorem fputi_herd : (fputi s page f i v).herd = s.herd := rfl
end

/-! fput -/

section
variable (s : State) (page : Nat) (f : Field) (v : Nat)
@[simp] theorem fput_pending : (fput s page f v).pending = s.pending := rfl
@[simp] theorem fput_cnt : (fput s page f v).cnt = s.cnt := rfl
@[simp] theorem fput_latch : (fput s page f v).latch = s.latch := rfl
@[simp] theorem fput_pairHeld : (fput s page f v).pairHeld = s.pairHeld := rfl
@[simp] theorem fput_pairLatch : (fput s page f v).pairLatch = s.pairLatch := rfl
@[simp] theorem fput_grpCarry : (fput s page f v).grpCarry = s.grpCarry := rfl
@[simp] theorem fput_fuse : (fput s page f v).fuse = s.fuse := rfl
@[simp] theorem fput_podMembers : (fput s page f v).podMembers = s.podMembers := rfl
@[simp] theorem fput_sysMembers : (fput s page f v).sysMembers = s.sysMembers := rfl
@[simp] theorem fput_resp : (fput s page f v).resp = s.resp := rfl
@[simp] theorem fput_out : (fput s page f v).out = s.out := rfl
@[simp] theorem fput_free : (fput s page f v).free = s.free := rfl
@[simp] theorem fput_mem : (fput s page f v).mem = s.mem := rfl
@[simp] theorem fput_undefs : (fput s page f v).undefs = s.undefs := rfl
@[simp] theorem fput_poison : (fput s page f v).poison = s.poison := rfl
@[simp] theorem fput_fltLog : (fput s page f v).fltLog = s.fltLog := rfl
@[simp] theorem fput_arrs : (fput s page f v).arrs = s.arrs := rfl
@[simp] theorem fput_arrCtl : (fput s page f v).arrCtl = s.arrCtl := rfl
@[simp] theorem fput_preps : (fput s page f v).preps = s.preps := rfl
@[simp] theorem fput_vregs : (fput s page f v).vregs = s.vregs := rfl
@[simp] theorem fput_hatches : (fput s page f v).hatches = s.hatches := rfl
@[simp] theorem fput_lists : (fput s page f v).lists = s.lists := rfl
@[simp] theorem fput_cmds : (fput s page f v).cmds = s.cmds := rfl
@[simp] theorem fput_queues : (fput s page f v).queues = s.queues := rfl
@[simp] theorem fput_tallies : (fput s page f v).tallies = s.tallies := rfl
@[simp] theorem fput_arbs : (fput s page f v).arbs = s.arbs := rfl
@[simp] theorem fput_stamp : (fput s page f v).stamp = s.stamp := rfl
@[simp] theorem fput_streams : (fput s page f v).streams = s.streams := rfl
@[simp] theorem fput_folds : (fput s page f v).folds = s.folds := rfl
@[simp] theorem fput_spads : (fput s page f v).spads = s.spads := rfl
@[simp] theorem fput_moving : (fput s page f v).moving = s.moving := rfl
@[simp] theorem fput_drvs : (fput s page f v).drvs = s.drvs := rfl
@[simp] theorem fput_moves : (fput s page f v).moves = s.moves := rfl
@[simp] theorem fput_waits : (fput s page f v).waits = s.waits := rfl
@[simp] theorem fput_scheds : (fput s page f v).scheds = s.scheds := rfl
@[simp] theorem fput_offline : (fput s page f v).offline = s.offline := rfl
@[simp] theorem fput_memc : (fput s page f v).memc = s.memc := rfl
@[simp] theorem fput_coh : (fput s page f v).coh = s.coh := rfl
@[simp] theorem fput_host : (fput s page f v).host = s.host := rfl
@[simp] theorem fput_inp : (fput s page f v).inp = s.inp := rfl
@[simp] theorem fput_fab : (fput s page f v).fab = s.fab := rfl
@[simp] theorem fput_trn : (fput s page f v).trn = s.trn := rfl
@[simp] theorem fput_pwr : (fput s page f v).pwr = s.pwr := rfl
@[simp] theorem fput_rst : (fput s page f v).rst = s.rst := rfl
@[simp] theorem fput_boot : (fput s page f v).boot = s.boot := rfl
@[simp] theorem fput_hubs : (fput s page f v).hubs = s.hubs := rfl
@[simp] theorem fput_herd : (fput s page f v).herd = s.herd := rfl
end

/-! fputb -/

section
variable (s : State) (page : Nat) (f : Field) (b : Bool)
@[simp] theorem fputb_pending : (fputb s page f b).pending = s.pending := rfl
@[simp] theorem fputb_cnt : (fputb s page f b).cnt = s.cnt := rfl
@[simp] theorem fputb_latch : (fputb s page f b).latch = s.latch := rfl
@[simp] theorem fputb_pairHeld : (fputb s page f b).pairHeld = s.pairHeld := rfl
@[simp] theorem fputb_pairLatch : (fputb s page f b).pairLatch = s.pairLatch := rfl
@[simp] theorem fputb_grpCarry : (fputb s page f b).grpCarry = s.grpCarry := rfl
@[simp] theorem fputb_fuse : (fputb s page f b).fuse = s.fuse := rfl
@[simp] theorem fputb_podMembers : (fputb s page f b).podMembers = s.podMembers := rfl
@[simp] theorem fputb_sysMembers : (fputb s page f b).sysMembers = s.sysMembers := rfl
@[simp] theorem fputb_resp : (fputb s page f b).resp = s.resp := rfl
@[simp] theorem fputb_out : (fputb s page f b).out = s.out := rfl
@[simp] theorem fputb_free : (fputb s page f b).free = s.free := rfl
@[simp] theorem fputb_mem : (fputb s page f b).mem = s.mem := rfl
@[simp] theorem fputb_undefs : (fputb s page f b).undefs = s.undefs := rfl
@[simp] theorem fputb_poison : (fputb s page f b).poison = s.poison := rfl
@[simp] theorem fputb_fltLog : (fputb s page f b).fltLog = s.fltLog := rfl
@[simp] theorem fputb_arrs : (fputb s page f b).arrs = s.arrs := rfl
@[simp] theorem fputb_arrCtl : (fputb s page f b).arrCtl = s.arrCtl := rfl
@[simp] theorem fputb_preps : (fputb s page f b).preps = s.preps := rfl
@[simp] theorem fputb_vregs : (fputb s page f b).vregs = s.vregs := rfl
@[simp] theorem fputb_hatches : (fputb s page f b).hatches = s.hatches := rfl
@[simp] theorem fputb_lists : (fputb s page f b).lists = s.lists := rfl
@[simp] theorem fputb_cmds : (fputb s page f b).cmds = s.cmds := rfl
@[simp] theorem fputb_queues : (fputb s page f b).queues = s.queues := rfl
@[simp] theorem fputb_tallies : (fputb s page f b).tallies = s.tallies := rfl
@[simp] theorem fputb_arbs : (fputb s page f b).arbs = s.arbs := rfl
@[simp] theorem fputb_stamp : (fputb s page f b).stamp = s.stamp := rfl
@[simp] theorem fputb_streams : (fputb s page f b).streams = s.streams := rfl
@[simp] theorem fputb_folds : (fputb s page f b).folds = s.folds := rfl
@[simp] theorem fputb_spads : (fputb s page f b).spads = s.spads := rfl
@[simp] theorem fputb_moving : (fputb s page f b).moving = s.moving := rfl
@[simp] theorem fputb_drvs : (fputb s page f b).drvs = s.drvs := rfl
@[simp] theorem fputb_moves : (fputb s page f b).moves = s.moves := rfl
@[simp] theorem fputb_waits : (fputb s page f b).waits = s.waits := rfl
@[simp] theorem fputb_scheds : (fputb s page f b).scheds = s.scheds := rfl
@[simp] theorem fputb_offline : (fputb s page f b).offline = s.offline := rfl
@[simp] theorem fputb_memc : (fputb s page f b).memc = s.memc := rfl
@[simp] theorem fputb_coh : (fputb s page f b).coh = s.coh := rfl
@[simp] theorem fputb_host : (fputb s page f b).host = s.host := rfl
@[simp] theorem fputb_inp : (fputb s page f b).inp = s.inp := rfl
@[simp] theorem fputb_fab : (fputb s page f b).fab = s.fab := rfl
@[simp] theorem fputb_trn : (fputb s page f b).trn = s.trn := rfl
@[simp] theorem fputb_pwr : (fputb s page f b).pwr = s.pwr := rfl
@[simp] theorem fputb_rst : (fputb s page f b).rst = s.rst := rfl
@[simp] theorem fputb_boot : (fputb s page f b).boot = s.boot := rfl
@[simp] theorem fputb_hubs : (fputb s page f b).hubs = s.hubs := rfl
@[simp] theorem fputb_herd : (fputb s page f b).herd = s.herd := rfl
end

/-! forBits -/

section
variable (s : State) (page : Nat) (f : Field) (v : Nat)
@[simp] theorem forBits_pending : (forBits s page f v).pending = s.pending := rfl
@[simp] theorem forBits_cnt : (forBits s page f v).cnt = s.cnt := rfl
@[simp] theorem forBits_latch : (forBits s page f v).latch = s.latch := rfl
@[simp] theorem forBits_pairHeld : (forBits s page f v).pairHeld = s.pairHeld := rfl
@[simp] theorem forBits_pairLatch : (forBits s page f v).pairLatch = s.pairLatch := rfl
@[simp] theorem forBits_grpCarry : (forBits s page f v).grpCarry = s.grpCarry := rfl
@[simp] theorem forBits_fuse : (forBits s page f v).fuse = s.fuse := rfl
@[simp] theorem forBits_podMembers : (forBits s page f v).podMembers = s.podMembers := rfl
@[simp] theorem forBits_sysMembers : (forBits s page f v).sysMembers = s.sysMembers := rfl
@[simp] theorem forBits_resp : (forBits s page f v).resp = s.resp := rfl
@[simp] theorem forBits_out : (forBits s page f v).out = s.out := rfl
@[simp] theorem forBits_free : (forBits s page f v).free = s.free := rfl
@[simp] theorem forBits_mem : (forBits s page f v).mem = s.mem := rfl
@[simp] theorem forBits_undefs : (forBits s page f v).undefs = s.undefs := rfl
@[simp] theorem forBits_poison : (forBits s page f v).poison = s.poison := rfl
@[simp] theorem forBits_fltLog : (forBits s page f v).fltLog = s.fltLog := rfl
@[simp] theorem forBits_arrs : (forBits s page f v).arrs = s.arrs := rfl
@[simp] theorem forBits_arrCtl : (forBits s page f v).arrCtl = s.arrCtl := rfl
@[simp] theorem forBits_preps : (forBits s page f v).preps = s.preps := rfl
@[simp] theorem forBits_vregs : (forBits s page f v).vregs = s.vregs := rfl
@[simp] theorem forBits_hatches : (forBits s page f v).hatches = s.hatches := rfl
@[simp] theorem forBits_lists : (forBits s page f v).lists = s.lists := rfl
@[simp] theorem forBits_cmds : (forBits s page f v).cmds = s.cmds := rfl
@[simp] theorem forBits_queues : (forBits s page f v).queues = s.queues := rfl
@[simp] theorem forBits_tallies : (forBits s page f v).tallies = s.tallies := rfl
@[simp] theorem forBits_arbs : (forBits s page f v).arbs = s.arbs := rfl
@[simp] theorem forBits_stamp : (forBits s page f v).stamp = s.stamp := rfl
@[simp] theorem forBits_streams : (forBits s page f v).streams = s.streams := rfl
@[simp] theorem forBits_folds : (forBits s page f v).folds = s.folds := rfl
@[simp] theorem forBits_spads : (forBits s page f v).spads = s.spads := rfl
@[simp] theorem forBits_moving : (forBits s page f v).moving = s.moving := rfl
@[simp] theorem forBits_drvs : (forBits s page f v).drvs = s.drvs := rfl
@[simp] theorem forBits_moves : (forBits s page f v).moves = s.moves := rfl
@[simp] theorem forBits_waits : (forBits s page f v).waits = s.waits := rfl
@[simp] theorem forBits_scheds : (forBits s page f v).scheds = s.scheds := rfl
@[simp] theorem forBits_offline : (forBits s page f v).offline = s.offline := rfl
@[simp] theorem forBits_memc : (forBits s page f v).memc = s.memc := rfl
@[simp] theorem forBits_coh : (forBits s page f v).coh = s.coh := rfl
@[simp] theorem forBits_host : (forBits s page f v).host = s.host := rfl
@[simp] theorem forBits_inp : (forBits s page f v).inp = s.inp := rfl
@[simp] theorem forBits_fab : (forBits s page f v).fab = s.fab := rfl
@[simp] theorem forBits_trn : (forBits s page f v).trn = s.trn := rfl
@[simp] theorem forBits_pwr : (forBits s page f v).pwr = s.pwr := rfl
@[simp] theorem forBits_rst : (forBits s page f v).rst = s.rst := rfl
@[simp] theorem forBits_boot : (forBits s page f v).boot = s.boot := rfl
@[simp] theorem forBits_hubs : (forBits s page f v).hubs = s.hubs := rfl
@[simp] theorem forBits_herd : (forBits s page f v).herd = s.herd := rfl
end

/-! fputPair -/

section
variable (s : State) (page : Nat) (lo hi : Field) (i v : Nat)
@[simp] theorem fputPair_pending : (fputPair s page lo hi i v).pending = s.pending := rfl
@[simp] theorem fputPair_cnt : (fputPair s page lo hi i v).cnt = s.cnt := rfl
@[simp] theorem fputPair_latch : (fputPair s page lo hi i v).latch = s.latch := rfl
@[simp] theorem fputPair_pairHeld : (fputPair s page lo hi i v).pairHeld = s.pairHeld := rfl
@[simp] theorem fputPair_pairLatch : (fputPair s page lo hi i v).pairLatch = s.pairLatch := rfl
@[simp] theorem fputPair_grpCarry : (fputPair s page lo hi i v).grpCarry = s.grpCarry := rfl
@[simp] theorem fputPair_fuse : (fputPair s page lo hi i v).fuse = s.fuse := rfl
@[simp] theorem fputPair_podMembers : (fputPair s page lo hi i v).podMembers = s.podMembers := rfl
@[simp] theorem fputPair_sysMembers : (fputPair s page lo hi i v).sysMembers = s.sysMembers := rfl
@[simp] theorem fputPair_resp : (fputPair s page lo hi i v).resp = s.resp := rfl
@[simp] theorem fputPair_out : (fputPair s page lo hi i v).out = s.out := rfl
@[simp] theorem fputPair_free : (fputPair s page lo hi i v).free = s.free := rfl
@[simp] theorem fputPair_mem : (fputPair s page lo hi i v).mem = s.mem := rfl
@[simp] theorem fputPair_undefs : (fputPair s page lo hi i v).undefs = s.undefs := rfl
@[simp] theorem fputPair_poison : (fputPair s page lo hi i v).poison = s.poison := rfl
@[simp] theorem fputPair_fltLog : (fputPair s page lo hi i v).fltLog = s.fltLog := rfl
@[simp] theorem fputPair_arrs : (fputPair s page lo hi i v).arrs = s.arrs := rfl
@[simp] theorem fputPair_arrCtl : (fputPair s page lo hi i v).arrCtl = s.arrCtl := rfl
@[simp] theorem fputPair_preps : (fputPair s page lo hi i v).preps = s.preps := rfl
@[simp] theorem fputPair_vregs : (fputPair s page lo hi i v).vregs = s.vregs := rfl
@[simp] theorem fputPair_hatches : (fputPair s page lo hi i v).hatches = s.hatches := rfl
@[simp] theorem fputPair_lists : (fputPair s page lo hi i v).lists = s.lists := rfl
@[simp] theorem fputPair_cmds : (fputPair s page lo hi i v).cmds = s.cmds := rfl
@[simp] theorem fputPair_queues : (fputPair s page lo hi i v).queues = s.queues := rfl
@[simp] theorem fputPair_tallies : (fputPair s page lo hi i v).tallies = s.tallies := rfl
@[simp] theorem fputPair_arbs : (fputPair s page lo hi i v).arbs = s.arbs := rfl
@[simp] theorem fputPair_stamp : (fputPair s page lo hi i v).stamp = s.stamp := rfl
@[simp] theorem fputPair_streams : (fputPair s page lo hi i v).streams = s.streams := rfl
@[simp] theorem fputPair_folds : (fputPair s page lo hi i v).folds = s.folds := rfl
@[simp] theorem fputPair_spads : (fputPair s page lo hi i v).spads = s.spads := rfl
@[simp] theorem fputPair_moving : (fputPair s page lo hi i v).moving = s.moving := rfl
@[simp] theorem fputPair_drvs : (fputPair s page lo hi i v).drvs = s.drvs := rfl
@[simp] theorem fputPair_moves : (fputPair s page lo hi i v).moves = s.moves := rfl
@[simp] theorem fputPair_waits : (fputPair s page lo hi i v).waits = s.waits := rfl
@[simp] theorem fputPair_scheds : (fputPair s page lo hi i v).scheds = s.scheds := rfl
@[simp] theorem fputPair_offline : (fputPair s page lo hi i v).offline = s.offline := rfl
@[simp] theorem fputPair_memc : (fputPair s page lo hi i v).memc = s.memc := rfl
@[simp] theorem fputPair_coh : (fputPair s page lo hi i v).coh = s.coh := rfl
@[simp] theorem fputPair_host : (fputPair s page lo hi i v).host = s.host := rfl
@[simp] theorem fputPair_inp : (fputPair s page lo hi i v).inp = s.inp := rfl
@[simp] theorem fputPair_fab : (fputPair s page lo hi i v).fab = s.fab := rfl
@[simp] theorem fputPair_trn : (fputPair s page lo hi i v).trn = s.trn := rfl
@[simp] theorem fputPair_pwr : (fputPair s page lo hi i v).pwr = s.pwr := rfl
@[simp] theorem fputPair_rst : (fputPair s page lo hi i v).rst = s.rst := rfl
@[simp] theorem fputPair_boot : (fputPair s page lo hi i v).boot = s.boot := rfl
@[simp] theorem fputPair_hubs : (fputPair s page lo hi i v).hubs = s.hubs := rfl
@[simp] theorem fputPair_herd : (fputPair s page lo hi i v).herd = s.herd := rfl
end

/-! emit -/

section
variable (s : State) (o : Output)
@[simp] theorem emit_pending : (emit s o).pending = s.pending := rfl
@[simp] theorem emit_regs : (emit s o).regs = s.regs := rfl
@[simp] theorem emit_cnt : (emit s o).cnt = s.cnt := rfl
@[simp] theorem emit_latch : (emit s o).latch = s.latch := rfl
@[simp] theorem emit_pairHeld : (emit s o).pairHeld = s.pairHeld := rfl
@[simp] theorem emit_pairLatch : (emit s o).pairLatch = s.pairLatch := rfl
@[simp] theorem emit_grpCarry : (emit s o).grpCarry = s.grpCarry := rfl
@[simp] theorem emit_fuse : (emit s o).fuse = s.fuse := rfl
@[simp] theorem emit_podMembers : (emit s o).podMembers = s.podMembers := rfl
@[simp] theorem emit_sysMembers : (emit s o).sysMembers = s.sysMembers := rfl
@[simp] theorem emit_resp : (emit s o).resp = s.resp := rfl
@[simp] theorem emit_free : (emit s o).free = s.free := rfl
@[simp] theorem emit_mem : (emit s o).mem = s.mem := rfl
@[simp] theorem emit_undefs : (emit s o).undefs = s.undefs := rfl
@[simp] theorem emit_poison : (emit s o).poison = s.poison := rfl
@[simp] theorem emit_fltLog : (emit s o).fltLog = s.fltLog := rfl
@[simp] theorem emit_arrs : (emit s o).arrs = s.arrs := rfl
@[simp] theorem emit_arrCtl : (emit s o).arrCtl = s.arrCtl := rfl
@[simp] theorem emit_preps : (emit s o).preps = s.preps := rfl
@[simp] theorem emit_vregs : (emit s o).vregs = s.vregs := rfl
@[simp] theorem emit_hatches : (emit s o).hatches = s.hatches := rfl
@[simp] theorem emit_lists : (emit s o).lists = s.lists := rfl
@[simp] theorem emit_cmds : (emit s o).cmds = s.cmds := rfl
@[simp] theorem emit_queues : (emit s o).queues = s.queues := rfl
@[simp] theorem emit_tallies : (emit s o).tallies = s.tallies := rfl
@[simp] theorem emit_arbs : (emit s o).arbs = s.arbs := rfl
@[simp] theorem emit_stamp : (emit s o).stamp = s.stamp := rfl
@[simp] theorem emit_streams : (emit s o).streams = s.streams := rfl
@[simp] theorem emit_folds : (emit s o).folds = s.folds := rfl
@[simp] theorem emit_spads : (emit s o).spads = s.spads := rfl
@[simp] theorem emit_moving : (emit s o).moving = s.moving := rfl
@[simp] theorem emit_drvs : (emit s o).drvs = s.drvs := rfl
@[simp] theorem emit_moves : (emit s o).moves = s.moves := rfl
@[simp] theorem emit_waits : (emit s o).waits = s.waits := rfl
@[simp] theorem emit_scheds : (emit s o).scheds = s.scheds := rfl
@[simp] theorem emit_offline : (emit s o).offline = s.offline := rfl
@[simp] theorem emit_memc : (emit s o).memc = s.memc := rfl
@[simp] theorem emit_coh : (emit s o).coh = s.coh := rfl
@[simp] theorem emit_host : (emit s o).host = s.host := rfl
@[simp] theorem emit_inp : (emit s o).inp = s.inp := rfl
@[simp] theorem emit_fab : (emit s o).fab = s.fab := rfl
@[simp] theorem emit_trn : (emit s o).trn = s.trn := rfl
@[simp] theorem emit_pwr : (emit s o).pwr = s.pwr := rfl
@[simp] theorem emit_rst : (emit s o).rst = s.rst := rfl
@[simp] theorem emit_boot : (emit s o).boot = s.boot := rfl
@[simp] theorem emit_hubs : (emit s o).hubs = s.hubs := rfl
@[simp] theorem emit_herd : (emit s o).herd = s.herd := rfl
end

/-! reply -/

section
variable (s : State) (bs : List Byte)
@[simp] theorem reply_pending : (reply s bs).pending = s.pending := rfl
@[simp] theorem reply_regs : (reply s bs).regs = s.regs := rfl
@[simp] theorem reply_cnt : (reply s bs).cnt = s.cnt := rfl
@[simp] theorem reply_latch : (reply s bs).latch = s.latch := rfl
@[simp] theorem reply_pairHeld : (reply s bs).pairHeld = s.pairHeld := rfl
@[simp] theorem reply_pairLatch : (reply s bs).pairLatch = s.pairLatch := rfl
@[simp] theorem reply_grpCarry : (reply s bs).grpCarry = s.grpCarry := rfl
@[simp] theorem reply_fuse : (reply s bs).fuse = s.fuse := rfl
@[simp] theorem reply_podMembers : (reply s bs).podMembers = s.podMembers := rfl
@[simp] theorem reply_sysMembers : (reply s bs).sysMembers = s.sysMembers := rfl
@[simp] theorem reply_out : (reply s bs).out = s.out := rfl
@[simp] theorem reply_free : (reply s bs).free = s.free := rfl
@[simp] theorem reply_mem : (reply s bs).mem = s.mem := rfl
@[simp] theorem reply_undefs : (reply s bs).undefs = s.undefs := rfl
@[simp] theorem reply_poison : (reply s bs).poison = s.poison := rfl
@[simp] theorem reply_fltLog : (reply s bs).fltLog = s.fltLog := rfl
@[simp] theorem reply_arrs : (reply s bs).arrs = s.arrs := rfl
@[simp] theorem reply_arrCtl : (reply s bs).arrCtl = s.arrCtl := rfl
@[simp] theorem reply_preps : (reply s bs).preps = s.preps := rfl
@[simp] theorem reply_vregs : (reply s bs).vregs = s.vregs := rfl
@[simp] theorem reply_hatches : (reply s bs).hatches = s.hatches := rfl
@[simp] theorem reply_lists : (reply s bs).lists = s.lists := rfl
@[simp] theorem reply_cmds : (reply s bs).cmds = s.cmds := rfl
@[simp] theorem reply_queues : (reply s bs).queues = s.queues := rfl
@[simp] theorem reply_tallies : (reply s bs).tallies = s.tallies := rfl
@[simp] theorem reply_arbs : (reply s bs).arbs = s.arbs := rfl
@[simp] theorem reply_stamp : (reply s bs).stamp = s.stamp := rfl
@[simp] theorem reply_streams : (reply s bs).streams = s.streams := rfl
@[simp] theorem reply_folds : (reply s bs).folds = s.folds := rfl
@[simp] theorem reply_spads : (reply s bs).spads = s.spads := rfl
@[simp] theorem reply_moving : (reply s bs).moving = s.moving := rfl
@[simp] theorem reply_drvs : (reply s bs).drvs = s.drvs := rfl
@[simp] theorem reply_moves : (reply s bs).moves = s.moves := rfl
@[simp] theorem reply_waits : (reply s bs).waits = s.waits := rfl
@[simp] theorem reply_scheds : (reply s bs).scheds = s.scheds := rfl
@[simp] theorem reply_offline : (reply s bs).offline = s.offline := rfl
@[simp] theorem reply_memc : (reply s bs).memc = s.memc := rfl
@[simp] theorem reply_coh : (reply s bs).coh = s.coh := rfl
@[simp] theorem reply_host : (reply s bs).host = s.host := rfl
@[simp] theorem reply_inp : (reply s bs).inp = s.inp := rfl
@[simp] theorem reply_fab : (reply s bs).fab = s.fab := rfl
@[simp] theorem reply_trn : (reply s bs).trn = s.trn := rfl
@[simp] theorem reply_pwr : (reply s bs).pwr = s.pwr := rfl
@[simp] theorem reply_rst : (reply s bs).rst = s.rst := rfl
@[simp] theorem reply_boot : (reply s bs).boot = s.boot := rfl
@[simp] theorem reply_hubs : (reply s bs).hubs = s.hubs := rfl
@[simp] theorem reply_herd : (reply s bs).herd = s.herd := rfl
end

/-! writeByte -/

section
variable (s : State) (pa : Nat) (b : Byte)
@[simp] theorem writeByte_pending : (writeByte s pa b).pending = s.pending := rfl
@[simp] theorem writeByte_regs : (writeByte s pa b).regs = s.regs := rfl
@[simp] theorem writeByte_cnt : (writeByte s pa b).cnt = s.cnt := rfl
@[simp] theorem writeByte_latch : (writeByte s pa b).latch = s.latch := rfl
@[simp] theorem writeByte_pairHeld : (writeByte s pa b).pairHeld = s.pairHeld := rfl
@[simp] theorem writeByte_pairLatch : (writeByte s pa b).pairLatch = s.pairLatch := rfl
@[simp] theorem writeByte_grpCarry : (writeByte s pa b).grpCarry = s.grpCarry := rfl
@[simp] theorem writeByte_fuse : (writeByte s pa b).fuse = s.fuse := rfl
@[simp] theorem writeByte_podMembers : (writeByte s pa b).podMembers = s.podMembers := rfl
@[simp] theorem writeByte_sysMembers : (writeByte s pa b).sysMembers = s.sysMembers := rfl
@[simp] theorem writeByte_resp : (writeByte s pa b).resp = s.resp := rfl
@[simp] theorem writeByte_out : (writeByte s pa b).out = s.out := rfl
@[simp] theorem writeByte_free : (writeByte s pa b).free = s.free := rfl
@[simp] theorem writeByte_undefs : (writeByte s pa b).undefs = s.undefs := rfl
@[simp] theorem writeByte_poison : (writeByte s pa b).poison = s.poison := rfl
@[simp] theorem writeByte_fltLog : (writeByte s pa b).fltLog = s.fltLog := rfl
@[simp] theorem writeByte_arrs : (writeByte s pa b).arrs = s.arrs := rfl
@[simp] theorem writeByte_arrCtl : (writeByte s pa b).arrCtl = s.arrCtl := rfl
@[simp] theorem writeByte_preps : (writeByte s pa b).preps = s.preps := rfl
@[simp] theorem writeByte_vregs : (writeByte s pa b).vregs = s.vregs := rfl
@[simp] theorem writeByte_hatches : (writeByte s pa b).hatches = s.hatches := rfl
@[simp] theorem writeByte_lists : (writeByte s pa b).lists = s.lists := rfl
@[simp] theorem writeByte_cmds : (writeByte s pa b).cmds = s.cmds := rfl
@[simp] theorem writeByte_queues : (writeByte s pa b).queues = s.queues := rfl
@[simp] theorem writeByte_tallies : (writeByte s pa b).tallies = s.tallies := rfl
@[simp] theorem writeByte_arbs : (writeByte s pa b).arbs = s.arbs := rfl
@[simp] theorem writeByte_stamp : (writeByte s pa b).stamp = s.stamp := rfl
@[simp] theorem writeByte_streams : (writeByte s pa b).streams = s.streams := rfl
@[simp] theorem writeByte_folds : (writeByte s pa b).folds = s.folds := rfl
@[simp] theorem writeByte_spads : (writeByte s pa b).spads = s.spads := rfl
@[simp] theorem writeByte_moving : (writeByte s pa b).moving = s.moving := rfl
@[simp] theorem writeByte_drvs : (writeByte s pa b).drvs = s.drvs := rfl
@[simp] theorem writeByte_moves : (writeByte s pa b).moves = s.moves := rfl
@[simp] theorem writeByte_waits : (writeByte s pa b).waits = s.waits := rfl
@[simp] theorem writeByte_scheds : (writeByte s pa b).scheds = s.scheds := rfl
@[simp] theorem writeByte_offline : (writeByte s pa b).offline = s.offline := rfl
@[simp] theorem writeByte_memc : (writeByte s pa b).memc = s.memc := rfl
@[simp] theorem writeByte_coh : (writeByte s pa b).coh = s.coh := rfl
@[simp] theorem writeByte_host : (writeByte s pa b).host = s.host := rfl
@[simp] theorem writeByte_inp : (writeByte s pa b).inp = s.inp := rfl
@[simp] theorem writeByte_fab : (writeByte s pa b).fab = s.fab := rfl
@[simp] theorem writeByte_trn : (writeByte s pa b).trn = s.trn := rfl
@[simp] theorem writeByte_pwr : (writeByte s pa b).pwr = s.pwr := rfl
@[simp] theorem writeByte_rst : (writeByte s pa b).rst = s.rst := rfl
@[simp] theorem writeByte_boot : (writeByte s pa b).boot = s.boot := rfl
@[simp] theorem writeByte_hubs : (writeByte s pa b).hubs = s.hubs := rfl
@[simp] theorem writeByte_herd : (writeByte s pa b).herd = s.herd := rfl
end

/-! setPoison -/

section
variable (s : State) (pa : Nat) (p : Bool)
@[simp] theorem setPoison_pending : (setPoison s pa p).pending = s.pending := rfl
@[simp] theorem setPoison_regs : (setPoison s pa p).regs = s.regs := rfl
@[simp] theorem setPoison_cnt : (setPoison s pa p).cnt = s.cnt := rfl
@[simp] theorem setPoison_latch : (setPoison s pa p).latch = s.latch := rfl
@[simp] theorem setPoison_pairHeld : (setPoison s pa p).pairHeld = s.pairHeld := rfl
@[simp] theorem setPoison_pairLatch : (setPoison s pa p).pairLatch = s.pairLatch := rfl
@[simp] theorem setPoison_grpCarry : (setPoison s pa p).grpCarry = s.grpCarry := rfl
@[simp] theorem setPoison_fuse : (setPoison s pa p).fuse = s.fuse := rfl
@[simp] theorem setPoison_podMembers : (setPoison s pa p).podMembers = s.podMembers := rfl
@[simp] theorem setPoison_sysMembers : (setPoison s pa p).sysMembers = s.sysMembers := rfl
@[simp] theorem setPoison_resp : (setPoison s pa p).resp = s.resp := rfl
@[simp] theorem setPoison_out : (setPoison s pa p).out = s.out := rfl
@[simp] theorem setPoison_free : (setPoison s pa p).free = s.free := rfl
@[simp] theorem setPoison_mem : (setPoison s pa p).mem = s.mem := rfl
@[simp] theorem setPoison_undefs : (setPoison s pa p).undefs = s.undefs := rfl
@[simp] theorem setPoison_fltLog : (setPoison s pa p).fltLog = s.fltLog := rfl
@[simp] theorem setPoison_arrs : (setPoison s pa p).arrs = s.arrs := rfl
@[simp] theorem setPoison_arrCtl : (setPoison s pa p).arrCtl = s.arrCtl := rfl
@[simp] theorem setPoison_preps : (setPoison s pa p).preps = s.preps := rfl
@[simp] theorem setPoison_vregs : (setPoison s pa p).vregs = s.vregs := rfl
@[simp] theorem setPoison_hatches : (setPoison s pa p).hatches = s.hatches := rfl
@[simp] theorem setPoison_lists : (setPoison s pa p).lists = s.lists := rfl
@[simp] theorem setPoison_cmds : (setPoison s pa p).cmds = s.cmds := rfl
@[simp] theorem setPoison_queues : (setPoison s pa p).queues = s.queues := rfl
@[simp] theorem setPoison_tallies : (setPoison s pa p).tallies = s.tallies := rfl
@[simp] theorem setPoison_arbs : (setPoison s pa p).arbs = s.arbs := rfl
@[simp] theorem setPoison_stamp : (setPoison s pa p).stamp = s.stamp := rfl
@[simp] theorem setPoison_streams : (setPoison s pa p).streams = s.streams := rfl
@[simp] theorem setPoison_folds : (setPoison s pa p).folds = s.folds := rfl
@[simp] theorem setPoison_spads : (setPoison s pa p).spads = s.spads := rfl
@[simp] theorem setPoison_moving : (setPoison s pa p).moving = s.moving := rfl
@[simp] theorem setPoison_drvs : (setPoison s pa p).drvs = s.drvs := rfl
@[simp] theorem setPoison_moves : (setPoison s pa p).moves = s.moves := rfl
@[simp] theorem setPoison_waits : (setPoison s pa p).waits = s.waits := rfl
@[simp] theorem setPoison_scheds : (setPoison s pa p).scheds = s.scheds := rfl
@[simp] theorem setPoison_offline : (setPoison s pa p).offline = s.offline := rfl
@[simp] theorem setPoison_memc : (setPoison s pa p).memc = s.memc := rfl
@[simp] theorem setPoison_coh : (setPoison s pa p).coh = s.coh := rfl
@[simp] theorem setPoison_host : (setPoison s pa p).host = s.host := rfl
@[simp] theorem setPoison_inp : (setPoison s pa p).inp = s.inp := rfl
@[simp] theorem setPoison_fab : (setPoison s pa p).fab = s.fab := rfl
@[simp] theorem setPoison_trn : (setPoison s pa p).trn = s.trn := rfl
@[simp] theorem setPoison_pwr : (setPoison s pa p).pwr = s.pwr := rfl
@[simp] theorem setPoison_rst : (setPoison s pa p).rst = s.rst := rfl
@[simp] theorem setPoison_boot : (setPoison s pa p).boot = s.boot := rfl
@[simp] theorem setPoison_hubs : (setPoison s pa p).hubs = s.hubs := rfl
@[simp] theorem setPoison_herd : (setPoison s pa p).herd = s.herd := rfl
end

/-! makeUndef -/

section
variable (s : State) (lo hi : Nat)
@[simp] theorem makeUndef_pending : (makeUndef s lo hi).pending = s.pending := rfl
@[simp] theorem makeUndef_regs : (makeUndef s lo hi).regs = s.regs := rfl
@[simp] theorem makeUndef_cnt : (makeUndef s lo hi).cnt = s.cnt := rfl
@[simp] theorem makeUndef_latch : (makeUndef s lo hi).latch = s.latch := rfl
@[simp] theorem makeUndef_pairHeld : (makeUndef s lo hi).pairHeld = s.pairHeld := rfl
@[simp] theorem makeUndef_pairLatch : (makeUndef s lo hi).pairLatch = s.pairLatch := rfl
@[simp] theorem makeUndef_grpCarry : (makeUndef s lo hi).grpCarry = s.grpCarry := rfl
@[simp] theorem makeUndef_fuse : (makeUndef s lo hi).fuse = s.fuse := rfl
@[simp] theorem makeUndef_podMembers : (makeUndef s lo hi).podMembers = s.podMembers := rfl
@[simp] theorem makeUndef_sysMembers : (makeUndef s lo hi).sysMembers = s.sysMembers := rfl
@[simp] theorem makeUndef_resp : (makeUndef s lo hi).resp = s.resp := rfl
@[simp] theorem makeUndef_out : (makeUndef s lo hi).out = s.out := rfl
@[simp] theorem makeUndef_poison : (makeUndef s lo hi).poison = s.poison := rfl
@[simp] theorem makeUndef_fltLog : (makeUndef s lo hi).fltLog = s.fltLog := rfl
@[simp] theorem makeUndef_arrs : (makeUndef s lo hi).arrs = s.arrs := rfl
@[simp] theorem makeUndef_arrCtl : (makeUndef s lo hi).arrCtl = s.arrCtl := rfl
@[simp] theorem makeUndef_preps : (makeUndef s lo hi).preps = s.preps := rfl
@[simp] theorem makeUndef_vregs : (makeUndef s lo hi).vregs = s.vregs := rfl
@[simp] theorem makeUndef_hatches : (makeUndef s lo hi).hatches = s.hatches := rfl
@[simp] theorem makeUndef_lists : (makeUndef s lo hi).lists = s.lists := rfl
@[simp] theorem makeUndef_cmds : (makeUndef s lo hi).cmds = s.cmds := rfl
@[simp] theorem makeUndef_queues : (makeUndef s lo hi).queues = s.queues := rfl
@[simp] theorem makeUndef_tallies : (makeUndef s lo hi).tallies = s.tallies := rfl
@[simp] theorem makeUndef_arbs : (makeUndef s lo hi).arbs = s.arbs := rfl
@[simp] theorem makeUndef_stamp : (makeUndef s lo hi).stamp = s.stamp := rfl
@[simp] theorem makeUndef_streams : (makeUndef s lo hi).streams = s.streams := rfl
@[simp] theorem makeUndef_folds : (makeUndef s lo hi).folds = s.folds := rfl
@[simp] theorem makeUndef_spads : (makeUndef s lo hi).spads = s.spads := rfl
@[simp] theorem makeUndef_moving : (makeUndef s lo hi).moving = s.moving := rfl
@[simp] theorem makeUndef_drvs : (makeUndef s lo hi).drvs = s.drvs := rfl
@[simp] theorem makeUndef_moves : (makeUndef s lo hi).moves = s.moves := rfl
@[simp] theorem makeUndef_waits : (makeUndef s lo hi).waits = s.waits := rfl
@[simp] theorem makeUndef_scheds : (makeUndef s lo hi).scheds = s.scheds := rfl
@[simp] theorem makeUndef_offline : (makeUndef s lo hi).offline = s.offline := rfl
@[simp] theorem makeUndef_memc : (makeUndef s lo hi).memc = s.memc := rfl
@[simp] theorem makeUndef_coh : (makeUndef s lo hi).coh = s.coh := rfl
@[simp] theorem makeUndef_host : (makeUndef s lo hi).host = s.host := rfl
@[simp] theorem makeUndef_inp : (makeUndef s lo hi).inp = s.inp := rfl
@[simp] theorem makeUndef_fab : (makeUndef s lo hi).fab = s.fab := rfl
@[simp] theorem makeUndef_trn : (makeUndef s lo hi).trn = s.trn := rfl
@[simp] theorem makeUndef_pwr : (makeUndef s lo hi).pwr = s.pwr := rfl
@[simp] theorem makeUndef_rst : (makeUndef s lo hi).rst = s.rst := rfl
@[simp] theorem makeUndef_boot : (makeUndef s lo hi).boot = s.boot := rfl
@[simp] theorem makeUndef_hubs : (makeUndef s lo hi).hubs = s.hubs := rfl
@[simp] theorem makeUndef_herd : (makeUndef s lo hi).herd = s.herd := rfl
end

/-! zeroRange -/

section
variable (s : State) (lo hi : Nat)
@[simp] theorem zeroRange_pending : (zeroRange s lo hi).pending = s.pending := rfl
@[simp] theorem zeroRange_regs : (zeroRange s lo hi).regs = s.regs := rfl
@[simp] theorem zeroRange_cnt : (zeroRange s lo hi).cnt = s.cnt := rfl
@[simp] theorem zeroRange_latch : (zeroRange s lo hi).latch = s.latch := rfl
@[simp] theorem zeroRange_pairHeld : (zeroRange s lo hi).pairHeld = s.pairHeld := rfl
@[simp] theorem zeroRange_pairLatch : (zeroRange s lo hi).pairLatch = s.pairLatch := rfl
@[simp] theorem zeroRange_grpCarry : (zeroRange s lo hi).grpCarry = s.grpCarry := rfl
@[simp] theorem zeroRange_fuse : (zeroRange s lo hi).fuse = s.fuse := rfl
@[simp] theorem zeroRange_podMembers : (zeroRange s lo hi).podMembers = s.podMembers := rfl
@[simp] theorem zeroRange_sysMembers : (zeroRange s lo hi).sysMembers = s.sysMembers := rfl
@[simp] theorem zeroRange_resp : (zeroRange s lo hi).resp = s.resp := rfl
@[simp] theorem zeroRange_out : (zeroRange s lo hi).out = s.out := rfl
@[simp] theorem zeroRange_free : (zeroRange s lo hi).free = s.free := rfl
@[simp] theorem zeroRange_fltLog : (zeroRange s lo hi).fltLog = s.fltLog := rfl
@[simp] theorem zeroRange_arrs : (zeroRange s lo hi).arrs = s.arrs := rfl
@[simp] theorem zeroRange_arrCtl : (zeroRange s lo hi).arrCtl = s.arrCtl := rfl
@[simp] theorem zeroRange_preps : (zeroRange s lo hi).preps = s.preps := rfl
@[simp] theorem zeroRange_vregs : (zeroRange s lo hi).vregs = s.vregs := rfl
@[simp] theorem zeroRange_hatches : (zeroRange s lo hi).hatches = s.hatches := rfl
@[simp] theorem zeroRange_lists : (zeroRange s lo hi).lists = s.lists := rfl
@[simp] theorem zeroRange_cmds : (zeroRange s lo hi).cmds = s.cmds := rfl
@[simp] theorem zeroRange_queues : (zeroRange s lo hi).queues = s.queues := rfl
@[simp] theorem zeroRange_tallies : (zeroRange s lo hi).tallies = s.tallies := rfl
@[simp] theorem zeroRange_arbs : (zeroRange s lo hi).arbs = s.arbs := rfl
@[simp] theorem zeroRange_stamp : (zeroRange s lo hi).stamp = s.stamp := rfl
@[simp] theorem zeroRange_streams : (zeroRange s lo hi).streams = s.streams := rfl
@[simp] theorem zeroRange_folds : (zeroRange s lo hi).folds = s.folds := rfl
@[simp] theorem zeroRange_spads : (zeroRange s lo hi).spads = s.spads := rfl
@[simp] theorem zeroRange_moving : (zeroRange s lo hi).moving = s.moving := rfl
@[simp] theorem zeroRange_drvs : (zeroRange s lo hi).drvs = s.drvs := rfl
@[simp] theorem zeroRange_moves : (zeroRange s lo hi).moves = s.moves := rfl
@[simp] theorem zeroRange_waits : (zeroRange s lo hi).waits = s.waits := rfl
@[simp] theorem zeroRange_scheds : (zeroRange s lo hi).scheds = s.scheds := rfl
@[simp] theorem zeroRange_offline : (zeroRange s lo hi).offline = s.offline := rfl
@[simp] theorem zeroRange_memc : (zeroRange s lo hi).memc = s.memc := rfl
@[simp] theorem zeroRange_coh : (zeroRange s lo hi).coh = s.coh := rfl
@[simp] theorem zeroRange_host : (zeroRange s lo hi).host = s.host := rfl
@[simp] theorem zeroRange_inp : (zeroRange s lo hi).inp = s.inp := rfl
@[simp] theorem zeroRange_fab : (zeroRange s lo hi).fab = s.fab := rfl
@[simp] theorem zeroRange_trn : (zeroRange s lo hi).trn = s.trn := rfl
@[simp] theorem zeroRange_pwr : (zeroRange s lo hi).pwr = s.pwr := rfl
@[simp] theorem zeroRange_rst : (zeroRange s lo hi).rst = s.rst := rfl
@[simp] theorem zeroRange_boot : (zeroRange s lo hi).boot = s.boot := rfl
@[simp] theorem zeroRange_hubs : (zeroRange s lo hi).hubs = s.hubs := rfl
@[simp] theorem zeroRange_herd : (zeroRange s lo hi).herd = s.herd := rfl
end

end Sys2Proof.Machine
end

