-- ==== Sys2Proof/Laws/Count.lean ====
section
/-! SUPPORT. Interrupts, errors and counters reach registers, counters and outputs only, and a log entry the fault log
besides: said once for each operation, then one lemma per field. -/

namespace Sys2Proof.Machine

open Sys2Proof

/-- `t` differs from `s` in registers, counters, outputs and the fault log at most. -/
def Counts (s t : State) : Prop := t = { s with regs := t.regs, cnt := t.cnt, out := t.out, fltLog := t.fltLog }

theorem Counts.refl (s : State) : Counts s s := rfl

theorem Counts.trans {s t u : State} (h : Counts s t) (k : Counts t u) : Counts s u := by
  unfold Counts at h k ⊢
  rw [k, h]

theorem counts_fputi (s : State) (page : Nat) (f : Field) (i v : Nat) : Counts s (fputi s page f i v) := rfl
theorem counts_fput (s : State) (page : Nat) (f : Field) (v : Nat) : Counts s (fput s page f v) := rfl
theorem counts_forBits (s : State) (page : Nat) (f : Field) (v : Nat) : Counts s (forBits s page f v) := rfl
theorem counts_emit (s : State) (o : Output) : Counts s (emit s o) := rfl

theorem bumpRaw_counts (s : State) (page n k : Nat) : Counts s (bumpRaw s page n k) := by
  unfold bumpRaw
  split
  · exact .refl s
  · dsimp only
    split <;> rfl

theorem sendMsix_counts (s : State) (link vf vector : Nat) : Counts s (sendMsix s link vf vector) := by
  unfold sendMsix
  split
  · rfl
  · exact bumpRaw_counts ..

theorem routeIrq_counts (s : State) (page : Nat) : Counts s (routeIrq s page) := by
  unfold routeIrq
  dsimp only
  split
  · exact bumpRaw_counts ..
  · refine (bumpRaw_counts s pgIRQ 0 1).trans ?_
    split <;> first | rfl | exact sendMsix_counts ..

theorem deliverIrq_counts (s : State) (page q : Nat) : Counts s (deliverIrq s page q) := by
  unfold deliverIrq
  split
  · exact .refl s
  · split
    · exact (bumpRaw_counts ..).trans (sendMsix_counts ..)
    · exact routeIrq_counts ..

theorem withIrq_counts (s : State) (page q : Nat) (g : State → State) : Counts (g s) (withIrq s page q g) := by
  unfold withIrq
  dsimp only
  split
  · exact deliverIrq_counts ..
  · exact .refl _

theorem raiseEvent_counts (s : State) (page : Nat) : Counts s (raiseEvent s page) :=
  (counts_fput ..).trans (withIrq_counts ..)

theorem setErr_counts (s : State) (page bit : Nat) : Counts s (setErr s page bit) := by
  unfold setErr
  dsimp only
  split
  · rfl
  · exact (counts_fput s page (errField bit) 1).trans ((counts_fput _ page F.IRQSTS_ERR 1).trans (withIrq_counts ..))

theorem bumpBy_counts (s : State) (page n k : Nat) : Counts s (bumpBy s page n k) := by
  unfold bumpBy
  dsimp only
  split
  · exact (bumpRaw_counts ..).trans ((counts_fput ..).trans (setErr_counts ..))
  · exact bumpRaw_counts ..

theorem bump_counts (s : State) (page n : Nat) : Counts s (bump s page n) := bumpBy_counts ..

theorem setLogged_counts (s : State) (page : Nat) : Counts s (setLogged s page) := setErr_counts ..

theorem crookRefuse_counts (s : State) (pmc : Nat) : Counts s (crookRefuse s pmc) :=
  (bump_counts ..).trans ((counts_forBits ..).trans (counts_emit ..))

theorem denyWrite_counts (s : State) (a : Auth) : Counts s (denyWrite s a) := by
  unfold denyWrite
  split
  · exact bump_counts ..
  · exact .refl s

theorem logFaultAt_counts (s : State) (typ cause unit detail time : Nat) :
    Counts s (logFaultAt s typ cause unit detail time) := by
  unfold logFaultAt
  dsimp only
  refine Counts.trans (t := bump (fput { s with fltLog := mput s.fltLog (fget s pgFLT F.FLT_LOGPTR_TAIL % 64) (BitVec.ofNat 128 (typ % 256 + cause % 256 * 2 ^ 8 + unit % 2 ^ 16 * 2 ^ 16 + detail % 2 ^ 32 * 2 ^ 32 + time % 2 ^ 64 * 2 ^ 64)) } pgFLT F.FLT_LOGPTR_TAIL (fget s pgFLT F.FLT_LOGPTR_TAIL + 1)) pgFLT 10) ?_ ?_
  · exact Counts.trans (t := fput { s with fltLog := mput s.fltLog (fget s pgFLT F.FLT_LOGPTR_TAIL % 64) (BitVec.ofNat 128 (typ % 256 + cause % 256 * 2 ^ 8 + unit % 2 ^ 16 * 2 ^ 16 + detail % 2 ^ 32 * 2 ^ 32 + time % 2 ^ 64 * 2 ^ 64)) } pgFLT F.FLT_LOGPTR_TAIL (fget s pgFLT F.FLT_LOGPTR_TAIL + 1)) rfl (bump_counts ..)
  · split
    · exact (counts_fput ..).trans ((counts_fput ..).trans (bump_counts ..))
    · exact .refl _

theorem logFault_counts (s : State) (typ cause unit detail : Nat) : Counts s (logFault s typ cause unit detail) :=
  logFaultAt_counts ..

section
variable {s t : State}
theorem Counts.keeps_pending (h : Counts s t) : t.pending = s.pending := by
  unfold Counts at h
  exact h ▸ rfl
theorem Counts.keeps_latch (h : Counts s t) : t.latch = s.latch := by
  unfold Counts at h
  exact h ▸ rfl
theorem Counts.keeps_pairHeld (h : Counts s t) : t.pairHeld = s.pairHeld := by
  unfold Counts at h
  exact h ▸ rfl
theorem Counts.keeps_pairLatch (h : Counts s t) : t.pairLatch = s.pairLatch := by
  unfold Counts at h
  exact h ▸ rfl
theorem Counts.keeps_grpCarry (h : Counts s t) : t.grpCarry = s.grpCarry := by
  unfold Counts at h
  exact h ▸ rfl
theorem Counts.keeps_fuse (h : Counts s t) : t.fuse = s.fuse := by
  unfold Counts at h
  exact h ▸ rfl
theorem Counts.keeps_podMembers (h : Counts s t) : t.podMembers = s.podMembers := by
  unfold Counts at h
  exact h ▸ rfl
theorem Counts.keeps_sysMembers (h : Counts s t) : t.sysMembers = s.sysMembers := by
  unfold Counts at h
  exact h ▸ rfl
theorem Counts.keeps_resp (h : Counts s t) : t.resp = s.resp := by
  unfold Counts at h
  exact h ▸ rfl
theorem Counts.keeps_free (h : Counts s t) : t.free = s.free := by
  unfold Counts at h
  exact h ▸ rfl
theorem Counts.keeps_mem (h : Counts s t) : t.mem = s.mem := by
  unfold Counts at h
  exact h ▸ rfl
theorem Counts.keeps_undefs (h : Counts s t) : t.undefs = s.undefs := by
  unfold Counts at h
  exact h ▸ rfl
theorem Counts.keeps_poison (h : Counts s t) : t.poison = s.poison := by
  unfold Counts at h
  exact h ▸ rfl
theorem Counts.keeps_arrs (h : Counts s t) : t.arrs = s.arrs := by
  unfold Counts at h
  exact h ▸ rfl
theorem Counts.keeps_arrCtl (h : Counts s t) : t.arrCtl = s.arrCtl := by
  unfold Counts at h
  exact h ▸ rfl
theorem Counts.keeps_preps (h : Counts s t) : t.preps = s.preps := by
  unfold Counts at h
  exact h ▸ rfl
theorem Counts.keeps_vregs (h : Counts s t) : t.vregs = s.vregs := by
  unfold Counts at h
  exact h ▸ rfl
theorem Counts.keeps_hatches (h : Counts s t) : t.hatches = s.hatches := by
  unfold Counts at h
  exact h ▸ rfl
theorem Counts.keeps_lists (h : Counts s t) : t.lists = s.lists := by
  unfold Counts at h
  exact h ▸ rfl
theorem Counts.keeps_cmds (h : Counts s t) : t.cmds = s.cmds := by
  unfold Counts at h
  exact h ▸ rfl
theorem Counts.keeps_queues (h : Counts s t) : t.queues = s.queues := by
  unfold Counts at h
  exact h ▸ rfl
theorem Counts.keeps_tallies (h : Counts s t) : t.tallies = s.tallies := by
  unfold Counts at h
  exact h ▸ rfl
theorem Counts.keeps_arbs (h : Counts s t) : t.arbs = s.arbs := by
  unfold Counts at h
  exact h ▸ rfl
theorem Counts.keeps_stamp (h : Counts s t) : t.stamp = s.stamp := by
  unfold Counts at h
  exact h ▸ rfl
theorem Counts.keeps_streams (h : Counts s t) : t.streams = s.streams := by
  unfold Counts at h
  exact h ▸ rfl
theorem Counts.keeps_folds (h : Counts s t) : t.folds = s.folds := by
  unfold Counts at h
  exact h ▸ rfl
theorem Counts.keeps_spads (h : Counts s t) : t.spads = s.spads := by
  unfold Counts at h
  exact h ▸ rfl
theorem Counts.keeps_moving (h : Counts s t) : t.moving = s.moving := by
  unfold Counts at h
  exact h ▸ rfl
theorem Counts.keeps_drvs (h : Counts s t) : t.drvs = s.drvs := by
  unfold Counts at h
  exact h ▸ rfl
theorem Counts.keeps_moves (h : Counts s t) : t.moves = s.moves := by
  unfold Counts at h
  exact h ▸ rfl
theorem Counts.keeps_waits (h : Counts s t) : t.waits = s.waits := by
  unfold Counts at h
  exact h ▸ rfl
theorem Counts.keeps_scheds (h : Counts s t) : t.scheds = s.scheds := by
  unfold Counts at h
  exact h ▸ rfl
theorem Counts.keeps_offline (h : Counts s t) : t.offline = s.offline := by
  unfold Counts at h
  exact h ▸ rfl
theorem Counts.keeps_memc (h : Counts s t) : t.memc = s.memc := by
  unfold Counts at h
  exact h ▸ rfl
theorem Counts.keeps_coh (h : Counts s t) : t.coh = s.coh := by
  unfold Counts at h
  exact h ▸ rfl
theorem Counts.keeps_host (h : Counts s t) : t.host = s.host := by
  unfold Counts at h
  exact h ▸ rfl
theorem Counts.keeps_inp (h : Counts s t) : t.inp = s.inp := by
  unfold Counts at h
  exact h ▸ rfl
theorem Counts.keeps_fab (h : Counts s t) : t.fab = s.fab := by
  unfold Counts at h
  exact h ▸ rfl
theorem Counts.keeps_trn (h : Counts s t) : t.trn = s.trn := by
  unfold Counts at h
  exact h ▸ rfl
theorem Counts.keeps_pwr (h : Counts s t) : t.pwr = s.pwr := by
  unfold Counts at h
  exact h ▸ rfl
theorem Counts.keeps_rst (h : Counts s t) : t.rst = s.rst := by
  unfold Counts at h
  exact h ▸ rfl
theorem Counts.keeps_boot (h : Counts s t) : t.boot = s.boot := by
  unfold Counts at h
  exact h ▸ rfl
theorem Counts.keeps_hubs (h : Counts s t) : t.hubs = s.hubs := by
  unfold Counts at h
  exact h ▸ rfl
theorem Counts.keeps_herd (h : Counts s t) : t.herd = s.herd := by
  unfold Counts at h
  exact h ▸ rfl
end

/-! bumpRaw -/

section
variable (s : State) (page n k : Nat)
@[simp] theorem bumpRaw_pending : (bumpRaw s page n k).pending = s.pending := (bumpRaw_counts s page n k).keeps_pending
@[simp] theorem bumpRaw_latch : (bumpRaw s page n k).latch = s.latch := (bumpRaw_counts s page n k).keeps_latch
@[simp] theorem bumpRaw_pairHeld : (bumpRaw s page n k).pairHeld = s.pairHeld := (bumpRaw_counts s page n k).keeps_pairHeld
@[simp] theorem bumpRaw_pairLatch : (bumpRaw s page n k).pairLatch = s.pairLatch := (bumpRaw_counts s page n k).keeps_pairLatch
@[simp] theorem bumpRaw_grpCarry : (bumpRaw s page n k).grpCarry = s.grpCarry := (bumpRaw_counts s page n k).keeps_grpCarry
@[simp] theorem bumpRaw_fuse : (bumpRaw s page n k).fuse = s.fuse := (bumpRaw_counts s page n k).keeps_fuse
@[simp] theorem bumpRaw_podMembers : (bumpRaw s page n k).podMembers = s.podMembers := (bumpRaw_counts s page n k).keeps_podMembers
@[simp] theorem bumpRaw_sysMembers : (bumpRaw s page n k).sysMembers = s.sysMembers := (bumpRaw_counts s page n k).keeps_sysMembers
@[simp] theorem bumpRaw_resp : (bumpRaw s page n k).resp = s.resp := (bumpRaw_counts s page n k).keeps_resp
@[simp] theorem bumpRaw_free : (bumpRaw s page n k).free = s.free := (bumpRaw_counts s page n k).keeps_free
@[simp] theorem bumpRaw_mem : (bumpRaw s page n k).mem = s.mem := (bumpRaw_counts s page n k).keeps_mem
@[simp] theorem bumpRaw_undefs : (bumpRaw s page n k).undefs = s.undefs := (bumpRaw_counts s page n k).keeps_undefs
@[simp] theorem bumpRaw_poison : (bumpRaw s page n k).poison = s.poison := (bumpRaw_counts s page n k).keeps_poison
@[simp] theorem bumpRaw_arrs : (bumpRaw s page n k).arrs = s.arrs := (bumpRaw_counts s page n k).keeps_arrs
@[simp] theorem bumpRaw_arrCtl : (bumpRaw s page n k).arrCtl = s.arrCtl := (bumpRaw_counts s page n k).keeps_arrCtl
@[simp] theorem bumpRaw_preps : (bumpRaw s page n k).preps = s.preps := (bumpRaw_counts s page n k).keeps_preps
@[simp] theorem bumpRaw_vregs : (bumpRaw s page n k).vregs = s.vregs := (bumpRaw_counts s page n k).keeps_vregs
@[simp] theorem bumpRaw_hatches : (bumpRaw s page n k).hatches = s.hatches := (bumpRaw_counts s page n k).keeps_hatches
@[simp] theorem bumpRaw_lists : (bumpRaw s page n k).lists = s.lists := (bumpRaw_counts s page n k).keeps_lists
@[simp] theorem bumpRaw_cmds : (bumpRaw s page n k).cmds = s.cmds := (bumpRaw_counts s page n k).keeps_cmds
@[simp] theorem bumpRaw_queues : (bumpRaw s page n k).queues = s.queues := (bumpRaw_counts s page n k).keeps_queues
@[simp] theorem bumpRaw_tallies : (bumpRaw s page n k).tallies = s.tallies := (bumpRaw_counts s page n k).keeps_tallies
@[simp] theorem bumpRaw_arbs : (bumpRaw s page n k).arbs = s.arbs := (bumpRaw_counts s page n k).keeps_arbs
@[simp] theorem bumpRaw_stamp : (bumpRaw s page n k).stamp = s.stamp := (bumpRaw_counts s page n k).keeps_stamp
@[simp] theorem bumpRaw_streams : (bumpRaw s page n k).streams = s.streams := (bumpRaw_counts s page n k).keeps_streams
@[simp] theorem bumpRaw_folds : (bumpRaw s page n k).folds = s.folds := (bumpRaw_counts s page n k).keeps_folds
@[simp] theorem bumpRaw_spads : (bumpRaw s page n k).spads = s.spads := (bumpRaw_counts s page n k).keeps_spads
@[simp] theorem bumpRaw_moving : (bumpRaw s page n k).moving = s.moving := (bumpRaw_counts s page n k).keeps_moving
@[simp] theorem bumpRaw_drvs : (bumpRaw s page n k).drvs = s.drvs := (bumpRaw_counts s page n k).keeps_drvs
@[simp] theorem bumpRaw_moves : (bumpRaw s page n k).moves = s.moves := (bumpRaw_counts s page n k).keeps_moves
@[simp] theorem bumpRaw_waits : (bumpRaw s page n k).waits = s.waits := (bumpRaw_counts s page n k).keeps_waits
@[simp] theorem bumpRaw_scheds : (bumpRaw s page n k).scheds = s.scheds := (bumpRaw_counts s page n k).keeps_scheds
@[simp] theorem bumpRaw_offline : (bumpRaw s page n k).offline = s.offline := (bumpRaw_counts s page n k).keeps_offline
@[simp] theorem bumpRaw_memc : (bumpRaw s page n k).memc = s.memc := (bumpRaw_counts s page n k).keeps_memc
@[simp] theorem bumpRaw_coh : (bumpRaw s page n k).coh = s.coh := (bumpRaw_counts s page n k).keeps_coh
@[simp] theorem bumpRaw_host : (bumpRaw s page n k).host = s.host := (bumpRaw_counts s page n k).keeps_host
@[simp] theorem bumpRaw_inp : (bumpRaw s page n k).inp = s.inp := (bumpRaw_counts s page n k).keeps_inp
@[simp] theorem bumpRaw_fab : (bumpRaw s page n k).fab = s.fab := (bumpRaw_counts s page n k).keeps_fab
@[simp] theorem bumpRaw_trn : (bumpRaw s page n k).trn = s.trn := (bumpRaw_counts s page n k).keeps_trn
@[simp] theorem bumpRaw_pwr : (bumpRaw s page n k).pwr = s.pwr := (bumpRaw_counts s page n k).keeps_pwr
@[simp] theorem bumpRaw_rst : (bumpRaw s page n k).rst = s.rst := (bumpRaw_counts s page n k).keeps_rst
@[simp] theorem bumpRaw_boot : (bumpRaw s page n k).boot = s.boot := (bumpRaw_counts s page n k).keeps_boot
@[simp] theorem bumpRaw_hubs : (bumpRaw s page n k).hubs = s.hubs := (bumpRaw_counts s page n k).keeps_hubs
@[simp] theorem bumpRaw_herd : (bumpRaw s page n k).herd = s.herd := (bumpRaw_counts s page n k).keeps_herd
end

/-! sendMsix -/

section
variable (s : State) (link vf vector : Nat)
@[simp] theorem sendMsix_pending : (sendMsix s link vf vector).pending = s.pending := (sendMsix_counts s link vf vector).keeps_pending
@[simp] theorem sendMsix_latch : (sendMsix s link vf vector).latch = s.latch := (sendMsix_counts s link vf vector).keeps_latch
@[simp] theorem sendMsix_pairHeld : (sendMsix s link vf vector).pairHeld = s.pairHeld := (sendMsix_counts s link vf vector).keeps_pairHeld
@[simp] theorem sendMsix_pairLatch : (sendMsix s link vf vector).pairLatch = s.pairLatch := (sendMsix_counts s link vf vector).keeps_pairLatch
@[simp] theorem sendMsix_grpCarry : (sendMsix s link vf vector).grpCarry = s.grpCarry := (sendMsix_counts s link vf vector).keeps_grpCarry
@[simp] theorem sendMsix_fuse : (sendMsix s link vf vector).fuse = s.fuse := (sendMsix_counts s link vf vector).keeps_fuse
@[simp] theorem sendMsix_podMembers : (sendMsix s link vf vector).podMembers = s.podMembers := (sendMsix_counts s link vf vector).keeps_podMembers
@[simp] theorem sendMsix_sysMembers : (sendMsix s link vf vector).sysMembers = s.sysMembers := (sendMsix_counts s link vf vector).keeps_sysMembers
@[simp] theorem sendMsix_resp : (sendMsix s link vf vector).resp = s.resp := (sendMsix_counts s link vf vector).keeps_resp
@[simp] theorem sendMsix_free : (sendMsix s link vf vector).free = s.free := (sendMsix_counts s link vf vector).keeps_free
@[simp] theorem sendMsix_mem : (sendMsix s link vf vector).mem = s.mem := (sendMsix_counts s link vf vector).keeps_mem
@[simp] theorem sendMsix_undefs : (sendMsix s link vf vector).undefs = s.undefs := (sendMsix_counts s link vf vector).keeps_undefs
@[simp] theorem sendMsix_poison : (sendMsix s link vf vector).poison = s.poison := (sendMsix_counts s link vf vector).keeps_poison
@[simp] theorem sendMsix_arrs : (sendMsix s link vf vector).arrs = s.arrs := (sendMsix_counts s link vf vector).keeps_arrs
@[simp] theorem sendMsix_arrCtl : (sendMsix s link vf vector).arrCtl = s.arrCtl := (sendMsix_counts s link vf vector).keeps_arrCtl
@[simp] theorem sendMsix_preps : (sendMsix s link vf vector).preps = s.preps := (sendMsix_counts s link vf vector).keeps_preps
@[simp] theorem sendMsix_vregs : (sendMsix s link vf vector).vregs = s.vregs := (sendMsix_counts s link vf vector).keeps_vregs
@[simp] theorem sendMsix_hatches : (sendMsix s link vf vector).hatches = s.hatches := (sendMsix_counts s link vf vector).keeps_hatches
@[simp] theorem sendMsix_lists : (sendMsix s link vf vector).lists = s.lists := (sendMsix_counts s link vf vector).keeps_lists
@[simp] theorem sendMsix_cmds : (sendMsix s link vf vector).cmds = s.cmds := (sendMsix_counts s link vf vector).keeps_cmds
@[simp] theorem sendMsix_queues : (sendMsix s link vf vector).queues = s.queues := (sendMsix_counts s link vf vector).keeps_queues
@[simp] theorem sendMsix_tallies : (sendMsix s link vf vector).tallies = s.tallies := (sendMsix_counts s link vf vector).keeps_tallies
@[simp] theorem sendMsix_arbs : (sendMsix s link vf vector).arbs = s.arbs := (sendMsix_counts s link vf vector).keeps_arbs
@[simp] theorem sendMsix_stamp : (sendMsix s link vf vector).stamp = s.stamp := (sendMsix_counts s link vf vector).keeps_stamp
@[simp] theorem sendMsix_streams : (sendMsix s link vf vector).streams = s.streams := (sendMsix_counts s link vf vector).keeps_streams
@[simp] theorem sendMsix_folds : (sendMsix s link vf vector).folds = s.folds := (sendMsix_counts s link vf vector).keeps_folds
@[simp] theorem sendMsix_spads : (sendMsix s link vf vector).spads = s.spads := (sendMsix_counts s link vf vector).keeps_spads
@[simp] theorem sendMsix_moving : (sendMsix s link vf vector).moving = s.moving := (sendMsix_counts s link vf vector).keeps_moving
@[simp] theorem sendMsix_drvs : (sendMsix s link vf vector).drvs = s.drvs := (sendMsix_counts s link vf vector).keeps_drvs
@[simp] theorem sendMsix_moves : (sendMsix s link vf vector).moves = s.moves := (sendMsix_counts s link vf vector).keeps_moves
@[simp] theorem sendMsix_waits : (sendMsix s link vf vector).waits = s.waits := (sendMsix_counts s link vf vector).keeps_waits
@[simp] theorem sendMsix_scheds : (sendMsix s link vf vector).scheds = s.scheds := (sendMsix_counts s link vf vector).keeps_scheds
@[simp] theorem sendMsix_offline : (sendMsix s link vf vector).offline = s.offline := (sendMsix_counts s link vf vector).keeps_offline
@[simp] theorem sendMsix_memc : (sendMsix s link vf vector).memc = s.memc := (sendMsix_counts s link vf vector).keeps_memc
@[simp] theorem sendMsix_coh : (sendMsix s link vf vector).coh = s.coh := (sendMsix_counts s link vf vector).keeps_coh
@[simp] theorem sendMsix_host : (sendMsix s link vf vector).host = s.host := (sendMsix_counts s link vf vector).keeps_host
@[simp] theorem sendMsix_inp : (sendMsix s link vf vector).inp = s.inp := (sendMsix_counts s link vf vector).keeps_inp
@[simp] theorem sendMsix_fab : (sendMsix s link vf vector).fab = s.fab := (sendMsix_counts s link vf vector).keeps_fab
@[simp] theorem sendMsix_trn : (sendMsix s link vf vector).trn = s.trn := (sendMsix_counts s link vf vector).keeps_trn
@[simp] theorem sendMsix_pwr : (sendMsix s link vf vector).pwr = s.pwr := (sendMsix_counts s link vf vector).keeps_pwr
@[simp] theorem sendMsix_rst : (sendMsix s link vf vector).rst = s.rst := (sendMsix_counts s link vf vector).keeps_rst
@[simp] theorem sendMsix_boot : (sendMsix s link vf vector).boot = s.boot := (sendMsix_counts s link vf vector).keeps_boot
@[simp] theorem sendMsix_hubs : (sendMsix s link vf vector).hubs = s.hubs := (sendMsix_counts s link vf vector).keeps_hubs
@[simp] theorem sendMsix_herd : (sendMsix s link vf vector).herd = s.herd := (sendMsix_counts s link vf vector).keeps_herd
end

/-! deliverIrq -/

section
variable (s : State) (page q : Nat)
@[simp] theorem deliverIrq_pending : (deliverIrq s page q).pending = s.pending := (deliverIrq_counts s page q).keeps_pending
@[simp] theorem deliverIrq_latch : (deliverIrq s page q).latch = s.latch := (deliverIrq_counts s page q).keeps_latch
@[simp] theorem deliverIrq_pairHeld : (deliverIrq s page q).pairHeld = s.pairHeld := (deliverIrq_counts s page q).keeps_pairHeld
@[simp] theorem deliverIrq_pairLatch : (deliverIrq s page q).pairLatch = s.pairLatch := (deliverIrq_counts s page q).keeps_pairLatch
@[simp] theorem deliverIrq_grpCarry : (deliverIrq s page q).grpCarry = s.grpCarry := (deliverIrq_counts s page q).keeps_grpCarry
@[simp] theorem deliverIrq_fuse : (deliverIrq s page q).fuse = s.fuse := (deliverIrq_counts s page q).keeps_fuse
@[simp] theorem deliverIrq_podMembers : (deliverIrq s page q).podMembers = s.podMembers := (deliverIrq_counts s page q).keeps_podMembers
@[simp] theorem deliverIrq_sysMembers : (deliverIrq s page q).sysMembers = s.sysMembers := (deliverIrq_counts s page q).keeps_sysMembers
@[simp] theorem deliverIrq_resp : (deliverIrq s page q).resp = s.resp := (deliverIrq_counts s page q).keeps_resp
@[simp] theorem deliverIrq_free : (deliverIrq s page q).free = s.free := (deliverIrq_counts s page q).keeps_free
@[simp] theorem deliverIrq_mem : (deliverIrq s page q).mem = s.mem := (deliverIrq_counts s page q).keeps_mem
@[simp] theorem deliverIrq_undefs : (deliverIrq s page q).undefs = s.undefs := (deliverIrq_counts s page q).keeps_undefs
@[simp] theorem deliverIrq_poison : (deliverIrq s page q).poison = s.poison := (deliverIrq_counts s page q).keeps_poison
@[simp] theorem deliverIrq_arrs : (deliverIrq s page q).arrs = s.arrs := (deliverIrq_counts s page q).keeps_arrs
@[simp] theorem deliverIrq_arrCtl : (deliverIrq s page q).arrCtl = s.arrCtl := (deliverIrq_counts s page q).keeps_arrCtl
@[simp] theorem deliverIrq_preps : (deliverIrq s page q).preps = s.preps := (deliverIrq_counts s page q).keeps_preps
@[simp] theorem deliverIrq_vregs : (deliverIrq s page q).vregs = s.vregs := (deliverIrq_counts s page q).keeps_vregs
@[simp] theorem deliverIrq_hatches : (deliverIrq s page q).hatches = s.hatches := (deliverIrq_counts s page q).keeps_hatches
@[simp] theorem deliverIrq_lists : (deliverIrq s page q).lists = s.lists := (deliverIrq_counts s page q).keeps_lists
@[simp] theorem deliverIrq_cmds : (deliverIrq s page q).cmds = s.cmds := (deliverIrq_counts s page q).keeps_cmds
@[simp] theorem deliverIrq_queues : (deliverIrq s page q).queues = s.queues := (deliverIrq_counts s page q).keeps_queues
@[simp] theorem deliverIrq_tallies : (deliverIrq s page q).tallies = s.tallies := (deliverIrq_counts s page q).keeps_tallies
@[simp] theorem deliverIrq_arbs : (deliverIrq s page q).arbs = s.arbs := (deliverIrq_counts s page q).keeps_arbs
@[simp] theorem deliverIrq_stamp : (deliverIrq s page q).stamp = s.stamp := (deliverIrq_counts s page q).keeps_stamp
@[simp] theorem deliverIrq_streams : (deliverIrq s page q).streams = s.streams := (deliverIrq_counts s page q).keeps_streams
@[simp] theorem deliverIrq_folds : (deliverIrq s page q).folds = s.folds := (deliverIrq_counts s page q).keeps_folds
@[simp] theorem deliverIrq_spads : (deliverIrq s page q).spads = s.spads := (deliverIrq_counts s page q).keeps_spads
@[simp] theorem deliverIrq_moving : (deliverIrq s page q).moving = s.moving := (deliverIrq_counts s page q).keeps_moving
@[simp] theorem deliverIrq_drvs : (deliverIrq s page q).drvs = s.drvs := (deliverIrq_counts s page q).keeps_drvs
@[simp] theorem deliverIrq_moves : (deliverIrq s page q).moves = s.moves := (deliverIrq_counts s page q).keeps_moves
@[simp] theorem deliverIrq_waits : (deliverIrq s page q).waits = s.waits := (deliverIrq_counts s page q).keeps_waits
@[simp] theorem deliverIrq_scheds : (deliverIrq s page q).scheds = s.scheds := (deliverIrq_counts s page q).keeps_scheds
@[simp] theorem deliverIrq_offline : (deliverIrq s page q).offline = s.offline := (deliverIrq_counts s page q).keeps_offline
@[simp] theorem deliverIrq_memc : (deliverIrq s page q).memc = s.memc := (deliverIrq_counts s page q).keeps_memc
@[simp] theorem deliverIrq_coh : (deliverIrq s page q).coh = s.coh := (deliverIrq_counts s page q).keeps_coh
@[simp] theorem deliverIrq_host : (deliverIrq s page q).host = s.host := (deliverIrq_counts s page q).keeps_host
@[simp] theorem deliverIrq_inp : (deliverIrq s page q).inp = s.inp := (deliverIrq_counts s page q).keeps_inp
@[simp] theorem deliverIrq_fab : (deliverIrq s page q).fab = s.fab := (deliverIrq_counts s page q).keeps_fab
@[simp] theorem deliverIrq_trn : (deliverIrq s page q).trn = s.trn := (deliverIrq_counts s page q).keeps_trn
@[simp] theorem deliverIrq_pwr : (deliverIrq s page q).pwr = s.pwr := (deliverIrq_counts s page q).keeps_pwr
@[simp] theorem deliverIrq_rst : (deliverIrq s page q).rst = s.rst := (deliverIrq_counts s page q).keeps_rst
@[simp] theorem deliverIrq_boot : (deliverIrq s page q).boot = s.boot := (deliverIrq_counts s page q).keeps_boot
@[simp] theorem deliverIrq_hubs : (deliverIrq s page q).hubs = s.hubs := (deliverIrq_counts s page q).keeps_hubs
@[simp] theorem deliverIrq_herd : (deliverIrq s page q).herd = s.herd := (deliverIrq_counts s page q).keeps_herd
end

/-! raiseEvent -/

section
variable (s : State) (page : Nat)
@[simp] theorem raiseEvent_pending : (raiseEvent s page).pending = s.pending := (raiseEvent_counts s page).keeps_pending
@[simp] theorem raiseEvent_latch : (raiseEvent s page).latch = s.latch := (raiseEvent_counts s page).keeps_latch
@[simp] theorem raiseEvent_pairHeld : (raiseEvent s page).pairHeld = s.pairHeld := (raiseEvent_counts s page).keeps_pairHeld
@[simp] theorem raiseEvent_pairLatch : (raiseEvent s page).pairLatch = s.pairLatch := (raiseEvent_counts s page).keeps_pairLatch
@[simp] theorem raiseEvent_grpCarry : (raiseEvent s page).grpCarry = s.grpCarry := (raiseEvent_counts s page).keeps_grpCarry
@[simp] theorem raiseEvent_fuse : (raiseEvent s page).fuse = s.fuse := (raiseEvent_counts s page).keeps_fuse
@[simp] theorem raiseEvent_podMembers : (raiseEvent s page).podMembers = s.podMembers := (raiseEvent_counts s page).keeps_podMembers
@[simp] theorem raiseEvent_sysMembers : (raiseEvent s page).sysMembers = s.sysMembers := (raiseEvent_counts s page).keeps_sysMembers
@[simp] theorem raiseEvent_resp : (raiseEvent s page).resp = s.resp := (raiseEvent_counts s page).keeps_resp
@[simp] theorem raiseEvent_free : (raiseEvent s page).free = s.free := (raiseEvent_counts s page).keeps_free
@[simp] theorem raiseEvent_mem : (raiseEvent s page).mem = s.mem := (raiseEvent_counts s page).keeps_mem
@[simp] theorem raiseEvent_undefs : (raiseEvent s page).undefs = s.undefs := (raiseEvent_counts s page).keeps_undefs
@[simp] theorem raiseEvent_poison : (raiseEvent s page).poison = s.poison := (raiseEvent_counts s page).keeps_poison
@[simp] theorem raiseEvent_arrs : (raiseEvent s page).arrs = s.arrs := (raiseEvent_counts s page).keeps_arrs
@[simp] theorem raiseEvent_arrCtl : (raiseEvent s page).arrCtl = s.arrCtl := (raiseEvent_counts s page).keeps_arrCtl
@[simp] theorem raiseEvent_preps : (raiseEvent s page).preps = s.preps := (raiseEvent_counts s page).keeps_preps
@[simp] theorem raiseEvent_vregs : (raiseEvent s page).vregs = s.vregs := (raiseEvent_counts s page).keeps_vregs
@[simp] theorem raiseEvent_hatches : (raiseEvent s page).hatches = s.hatches := (raiseEvent_counts s page).keeps_hatches
@[simp] theorem raiseEvent_lists : (raiseEvent s page).lists = s.lists := (raiseEvent_counts s page).keeps_lists
@[simp] theorem raiseEvent_cmds : (raiseEvent s page).cmds = s.cmds := (raiseEvent_counts s page).keeps_cmds
@[simp] theorem raiseEvent_queues : (raiseEvent s page).queues = s.queues := (raiseEvent_counts s page).keeps_queues
@[simp] theorem raiseEvent_tallies : (raiseEvent s page).tallies = s.tallies := (raiseEvent_counts s page).keeps_tallies
@[simp] theorem raiseEvent_arbs : (raiseEvent s page).arbs = s.arbs := (raiseEvent_counts s page).keeps_arbs
@[simp] theorem raiseEvent_stamp : (raiseEvent s page).stamp = s.stamp := (raiseEvent_counts s page).keeps_stamp
@[simp] theorem raiseEvent_streams : (raiseEvent s page).streams = s.streams := (raiseEvent_counts s page).keeps_streams
@[simp] theorem raiseEvent_folds : (raiseEvent s page).folds = s.folds := (raiseEvent_counts s page).keeps_folds
@[simp] theorem raiseEvent_spads : (raiseEvent s page).spads = s.spads := (raiseEvent_counts s page).keeps_spads
@[simp] theorem raiseEvent_moving : (raiseEvent s page).moving = s.moving := (raiseEvent_counts s page).keeps_moving
@[simp] theorem raiseEvent_drvs : (raiseEvent s page).drvs = s.drvs := (raiseEvent_counts s page).keeps_drvs
@[simp] theorem raiseEvent_moves : (raiseEvent s page).moves = s.moves := (raiseEvent_counts s page).keeps_moves
@[simp] theorem raiseEvent_waits : (raiseEvent s page).waits = s.waits := (raiseEvent_counts s page).keeps_waits
@[simp] theorem raiseEvent_scheds : (raiseEvent s page).scheds = s.scheds := (raiseEvent_counts s page).keeps_scheds
@[simp] theorem raiseEvent_offline : (raiseEvent s page).offline = s.offline := (raiseEvent_counts s page).keeps_offline
@[simp] theorem raiseEvent_memc : (raiseEvent s page).memc = s.memc := (raiseEvent_counts s page).keeps_memc
@[simp] theorem raiseEvent_coh : (raiseEvent s page).coh = s.coh := (raiseEvent_counts s page).keeps_coh
@[simp] theorem raiseEvent_host : (raiseEvent s page).host = s.host := (raiseEvent_counts s page).keeps_host
@[simp] theorem raiseEvent_inp : (raiseEvent s page).inp = s.inp := (raiseEvent_counts s page).keeps_inp
@[simp] theorem raiseEvent_fab : (raiseEvent s page).fab = s.fab := (raiseEvent_counts s page).keeps_fab
@[simp] theorem raiseEvent_trn : (raiseEvent s page).trn = s.trn := (raiseEvent_counts s page).keeps_trn
@[simp] theorem raiseEvent_pwr : (raiseEvent s page).pwr = s.pwr := (raiseEvent_counts s page).keeps_pwr
@[simp] theorem raiseEvent_rst : (raiseEvent s page).rst = s.rst := (raiseEvent_counts s page).keeps_rst
@[simp] theorem raiseEvent_boot : (raiseEvent s page).boot = s.boot := (raiseEvent_counts s page).keeps_boot
@[simp] theorem raiseEvent_hubs : (raiseEvent s page).hubs = s.hubs := (raiseEvent_counts s page).keeps_hubs
@[simp] theorem raiseEvent_herd : (raiseEvent s page).herd = s.herd := (raiseEvent_counts s page).keeps_herd
end

/-! setErr -/

section
variable (s : State) (page bit : Nat)
@[simp] theorem setErr_pending : (setErr s page bit).pending = s.pending := (setErr_counts s page bit).keeps_pending
@[simp] theorem setErr_latch : (setErr s page bit).latch = s.latch := (setErr_counts s page bit).keeps_latch
@[simp] theorem setErr_pairHeld : (setErr s page bit).pairHeld = s.pairHeld := (setErr_counts s page bit).keeps_pairHeld
@[simp] theorem setErr_pairLatch : (setErr s page bit).pairLatch = s.pairLatch := (setErr_counts s page bit).keeps_pairLatch
@[simp] theorem setErr_grpCarry : (setErr s page bit).grpCarry = s.grpCarry := (setErr_counts s page bit).keeps_grpCarry
@[simp] theorem setErr_fuse : (setErr s page bit).fuse = s.fuse := (setErr_counts s page bit).keeps_fuse
@[simp] theorem setErr_podMembers : (setErr s page bit).podMembers = s.podMembers := (setErr_counts s page bit).keeps_podMembers
@[simp] theorem setErr_sysMembers : (setErr s page bit).sysMembers = s.sysMembers := (setErr_counts s page bit).keeps_sysMembers
@[simp] theorem setErr_resp : (setErr s page bit).resp = s.resp := (setErr_counts s page bit).keeps_resp
@[simp] theorem setErr_free : (setErr s page bit).free = s.free := (setErr_counts s page bit).keeps_free
@[simp] theorem setErr_mem : (setErr s page bit).mem = s.mem := (setErr_counts s page bit).keeps_mem
@[simp] theorem setErr_undefs : (setErr s page bit).undefs = s.undefs := (setErr_counts s page bit).keeps_undefs
@[simp] theorem setErr_poison : (setErr s page bit).poison = s.poison := (setErr_counts s page bit).keeps_poison
@[simp] theorem setErr_arrs : (setErr s page bit).arrs = s.arrs := (setErr_counts s page bit).keeps_arrs
@[simp] theorem setErr_arrCtl : (setErr s page bit).arrCtl = s.arrCtl := (setErr_counts s page bit).keeps_arrCtl
@[simp] theorem setErr_preps : (setErr s page bit).preps = s.preps := (setErr_counts s page bit).keeps_preps
@[simp] theorem setErr_vregs : (setErr s page bit).vregs = s.vregs := (setErr_counts s page bit).keeps_vregs
@[simp] theorem setErr_hatches : (setErr s page bit).hatches = s.hatches := (setErr_counts s page bit).keeps_hatches
@[simp] theorem setErr_lists : (setErr s page bit).lists = s.lists := (setErr_counts s page bit).keeps_lists
@[simp] theorem setErr_cmds : (setErr s page bit).cmds = s.cmds := (setErr_counts s page bit).keeps_cmds
@[simp] theorem setErr_queues : (setErr s page bit).queues = s.queues := (setErr_counts s page bit).keeps_queues
@[simp] theorem setErr_tallies : (setErr s page bit).tallies = s.tallies := (setErr_counts s page bit).keeps_tallies
@[simp] theorem setErr_arbs : (setErr s page bit).arbs = s.arbs := (setErr_counts s page bit).keeps_arbs
@[simp] theorem setErr_stamp : (setErr s page bit).stamp = s.stamp := (setErr_counts s page bit).keeps_stamp
@[simp] theorem setErr_streams : (setErr s page bit).streams = s.streams := (setErr_counts s page bit).keeps_streams
@[simp] theorem setErr_folds : (setErr s page bit).folds = s.folds := (setErr_counts s page bit).keeps_folds
@[simp] theorem setErr_spads : (setErr s page bit).spads = s.spads := (setErr_counts s page bit).keeps_spads
@[simp] theorem setErr_moving : (setErr s page bit).moving = s.moving := (setErr_counts s page bit).keeps_moving
@[simp] theorem setErr_drvs : (setErr s page bit).drvs = s.drvs := (setErr_counts s page bit).keeps_drvs
@[simp] theorem setErr_moves : (setErr s page bit).moves = s.moves := (setErr_counts s page bit).keeps_moves
@[simp] theorem setErr_waits : (setErr s page bit).waits = s.waits := (setErr_counts s page bit).keeps_waits
@[simp] theorem setErr_scheds : (setErr s page bit).scheds = s.scheds := (setErr_counts s page bit).keeps_scheds
@[simp] theorem setErr_offline : (setErr s page bit).offline = s.offline := (setErr_counts s page bit).keeps_offline
@[simp] theorem setErr_memc : (setErr s page bit).memc = s.memc := (setErr_counts s page bit).keeps_memc
@[simp] theorem setErr_coh : (setErr s page bit).coh = s.coh := (setErr_counts s page bit).keeps_coh
@[simp] theorem setErr_host : (setErr s page bit).host = s.host := (setErr_counts s page bit).keeps_host
@[simp] theorem setErr_inp : (setErr s page bit).inp = s.inp := (setErr_counts s page bit).keeps_inp
@[simp] theorem setErr_fab : (setErr s page bit).fab = s.fab := (setErr_counts s page bit).keeps_fab
@[simp] theorem setErr_trn : (setErr s page bit).trn = s.trn := (setErr_counts s page bit).keeps_trn
@[simp] theorem setErr_pwr : (setErr s page bit).pwr = s.pwr := (setErr_counts s page bit).keeps_pwr
@[simp] theorem setErr_rst : (setErr s page bit).rst = s.rst := (setErr_counts s page bit).keeps_rst
@[simp] theorem setErr_boot : (setErr s page bit).boot = s.boot := (setErr_counts s page bit).keeps_boot
@[simp] theorem setErr_hubs : (setErr s page bit).hubs = s.hubs := (setErr_counts s page bit).keeps_hubs
@[simp] theorem setErr_herd : (setErr s page bit).herd = s.herd := (setErr_counts s page bit).keeps_herd
end

/-! bumpBy -/

section
variable (s : State) (page n k : Nat)
@[simp] theorem bumpBy_pending : (bumpBy s page n k).pending = s.pending := (bumpBy_counts s page n k).keeps_pending
@[simp] theorem bumpBy_latch : (bumpBy s page n k).latch = s.latch := (bumpBy_counts s page n k).keeps_latch
@[simp] theorem bumpBy_pairHeld : (bumpBy s page n k).pairHeld = s.pairHeld := (bumpBy_counts s page n k).keeps_pairHeld
@[simp] theorem bumpBy_pairLatch : (bumpBy s page n k).pairLatch = s.pairLatch := (bumpBy_counts s page n k).keeps_pairLatch
@[simp] theorem bumpBy_grpCarry : (bumpBy s page n k).grpCarry = s.grpCarry := (bumpBy_counts s page n k).keeps_grpCarry
@[simp] theorem bumpBy_fuse : (bumpBy s page n k).fuse = s.fuse := (bumpBy_counts s page n k).keeps_fuse
@[simp] theorem bumpBy_podMembers : (bumpBy s page n k).podMembers = s.podMembers := (bumpBy_counts s page n k).keeps_podMembers
@[simp] theorem bumpBy_sysMembers : (bumpBy s page n k).sysMembers = s.sysMembers := (bumpBy_counts s page n k).keeps_sysMembers
@[simp] theorem bumpBy_resp : (bumpBy s page n k).resp = s.resp := (bumpBy_counts s page n k).keeps_resp
@[simp] theorem bumpBy_free : (bumpBy s page n k).free = s.free := (bumpBy_counts s page n k).keeps_free
@[simp] theorem bumpBy_mem : (bumpBy s page n k).mem = s.mem := (bumpBy_counts s page n k).keeps_mem
@[simp] theorem bumpBy_undefs : (bumpBy s page n k).undefs = s.undefs := (bumpBy_counts s page n k).keeps_undefs
@[simp] theorem bumpBy_poison : (bumpBy s page n k).poison = s.poison := (bumpBy_counts s page n k).keeps_poison
@[simp] theorem bumpBy_arrs : (bumpBy s page n k).arrs = s.arrs := (bumpBy_counts s page n k).keeps_arrs
@[simp] theorem bumpBy_arrCtl : (bumpBy s page n k).arrCtl = s.arrCtl := (bumpBy_counts s page n k).keeps_arrCtl
@[simp] theorem bumpBy_preps : (bumpBy s page n k).preps = s.preps := (bumpBy_counts s page n k).keeps_preps
@[simp] theorem bumpBy_vregs : (bumpBy s page n k).vregs = s.vregs := (bumpBy_counts s page n k).keeps_vregs
@[simp] theorem bumpBy_hatches : (bumpBy s page n k).hatches = s.hatches := (bumpBy_counts s page n k).keeps_hatches
@[simp] theorem bumpBy_lists : (bumpBy s page n k).lists = s.lists := (bumpBy_counts s page n k).keeps_lists
@[simp] theorem bumpBy_cmds : (bumpBy s page n k).cmds = s.cmds := (bumpBy_counts s page n k).keeps_cmds
@[simp] theorem bumpBy_queues : (bumpBy s page n k).queues = s.queues := (bumpBy_counts s page n k).keeps_queues
@[simp] theorem bumpBy_tallies : (bumpBy s page n k).tallies = s.tallies := (bumpBy_counts s page n k).keeps_tallies
@[simp] theorem bumpBy_arbs : (bumpBy s page n k).arbs = s.arbs := (bumpBy_counts s page n k).keeps_arbs
@[simp] theorem bumpBy_stamp : (bumpBy s page n k).stamp = s.stamp := (bumpBy_counts s page n k).keeps_stamp
@[simp] theorem bumpBy_streams : (bumpBy s page n k).streams = s.streams := (bumpBy_counts s page n k).keeps_streams
@[simp] theorem bumpBy_folds : (bumpBy s page n k).folds = s.folds := (bumpBy_counts s page n k).keeps_folds
@[simp] theorem bumpBy_spads : (bumpBy s page n k).spads = s.spads := (bumpBy_counts s page n k).keeps_spads
@[simp] theorem bumpBy_moving : (bumpBy s page n k).moving = s.moving := (bumpBy_counts s page n k).keeps_moving
@[simp] theorem bumpBy_drvs : (bumpBy s page n k).drvs = s.drvs := (bumpBy_counts s page n k).keeps_drvs
@[simp] theorem bumpBy_moves : (bumpBy s page n k).moves = s.moves := (bumpBy_counts s page n k).keeps_moves
@[simp] theorem bumpBy_waits : (bumpBy s page n k).waits = s.waits := (bumpBy_counts s page n k).keeps_waits
@[simp] theorem bumpBy_scheds : (bumpBy s page n k).scheds = s.scheds := (bumpBy_counts s page n k).keeps_scheds
@[simp] theorem bumpBy_offline : (bumpBy s page n k).offline = s.offline := (bumpBy_counts s page n k).keeps_offline
@[simp] theorem bumpBy_memc : (bumpBy s page n k).memc = s.memc := (bumpBy_counts s page n k).keeps_memc
@[simp] theorem bumpBy_coh : (bumpBy s page n k).coh = s.coh := (bumpBy_counts s page n k).keeps_coh
@[simp] theorem bumpBy_host : (bumpBy s page n k).host = s.host := (bumpBy_counts s page n k).keeps_host
@[simp] theorem bumpBy_inp : (bumpBy s page n k).inp = s.inp := (bumpBy_counts s page n k).keeps_inp
@[simp] theorem bumpBy_fab : (bumpBy s page n k).fab = s.fab := (bumpBy_counts s page n k).keeps_fab
@[simp] theorem bumpBy_trn : (bumpBy s page n k).trn = s.trn := (bumpBy_counts s page n k).keeps_trn
@[simp] theorem bumpBy_pwr : (bumpBy s page n k).pwr = s.pwr := (bumpBy_counts s page n k).keeps_pwr
@[simp] theorem bumpBy_rst : (bumpBy s page n k).rst = s.rst := (bumpBy_counts s page n k).keeps_rst
@[simp] theorem bumpBy_boot : (bumpBy s page n k).boot = s.boot := (bumpBy_counts s page n k).keeps_boot
@[simp] theorem bumpBy_hubs : (bumpBy s page n k).hubs = s.hubs := (bumpBy_counts s page n k).keeps_hubs
@[simp] theorem bumpBy_herd : (bumpBy s page n k).herd = s.herd := (bumpBy_counts s page n k).keeps_herd
end

/-! bump -/

section
variable (s : State) (page n : Nat)
@[simp] theorem bump_pending : (bump s page n).pending = s.pending := (bump_counts s page n).keeps_pending
@[simp] theorem bump_latch : (bump s page n).latch = s.latch := (bump_counts s page n).keeps_latch
@[simp] theorem bump_pairHeld : (bump s page n).pairHeld = s.pairHeld := (bump_counts s page n).keeps_pairHeld
@[simp] theorem bump_pairLatch : (bump s page n).pairLatch = s.pairLatch := (bump_counts s page n).keeps_pairLatch
@[simp] theorem bump_grpCarry : (bump s page n).grpCarry = s.grpCarry := (bump_counts s page n).keeps_grpCarry
@[simp] theorem bump_fuse : (bump s page n).fuse = s.fuse := (bump_counts s page n).keeps_fuse
@[simp] theorem bump_podMembers : (bump s page n).podMembers = s.podMembers := (bump_counts s page n).keeps_podMembers
@[simp] theorem bump_sysMembers : (bump s page n).sysMembers = s.sysMembers := (bump_counts s page n).keeps_sysMembers
@[simp] theorem bump_resp : (bump s page n).resp = s.resp := (bump_counts s page n).keeps_resp
@[simp] theorem bump_free : (bump s page n).free = s.free := (bump_counts s page n).keeps_free
@[simp] theorem bump_mem : (bump s page n).mem = s.mem := (bump_counts s page n).keeps_mem
@[simp] theorem bump_undefs : (bump s page n).undefs = s.undefs := (bump_counts s page n).keeps_undefs
@[simp] theorem bump_poison : (bump s page n).poison = s.poison := (bump_counts s page n).keeps_poison
@[simp] theorem bump_arrs : (bump s page n).arrs = s.arrs := (bump_counts s page n).keeps_arrs
@[simp] theorem bump_arrCtl : (bump s page n).arrCtl = s.arrCtl := (bump_counts s page n).keeps_arrCtl
@[simp] theorem bump_preps : (bump s page n).preps = s.preps := (bump_counts s page n).keeps_preps
@[simp] theorem bump_vregs : (bump s page n).vregs = s.vregs := (bump_counts s page n).keeps_vregs
@[simp] theorem bump_hatches : (bump s page n).hatches = s.hatches := (bump_counts s page n).keeps_hatches
@[simp] theorem bump_lists : (bump s page n).lists = s.lists := (bump_counts s page n).keeps_lists
@[simp] theorem bump_cmds : (bump s page n).cmds = s.cmds := (bump_counts s page n).keeps_cmds
@[simp] theorem bump_queues : (bump s page n).queues = s.queues := (bump_counts s page n).keeps_queues
@[simp] theorem bump_tallies : (bump s page n).tallies = s.tallies := (bump_counts s page n).keeps_tallies
@[simp] theorem bump_arbs : (bump s page n).arbs = s.arbs := (bump_counts s page n).keeps_arbs
@[simp] theorem bump_stamp : (bump s page n).stamp = s.stamp := (bump_counts s page n).keeps_stamp
@[simp] theorem bump_streams : (bump s page n).streams = s.streams := (bump_counts s page n).keeps_streams
@[simp] theorem bump_folds : (bump s page n).folds = s.folds := (bump_counts s page n).keeps_folds
@[simp] theorem bump_spads : (bump s page n).spads = s.spads := (bump_counts s page n).keeps_spads
@[simp] theorem bump_moving : (bump s page n).moving = s.moving := (bump_counts s page n).keeps_moving
@[simp] theorem bump_drvs : (bump s page n).drvs = s.drvs := (bump_counts s page n).keeps_drvs
@[simp] theorem bump_moves : (bump s page n).moves = s.moves := (bump_counts s page n).keeps_moves
@[simp] theorem bump_waits : (bump s page n).waits = s.waits := (bump_counts s page n).keeps_waits
@[simp] theorem bump_scheds : (bump s page n).scheds = s.scheds := (bump_counts s page n).keeps_scheds
@[simp] theorem bump_offline : (bump s page n).offline = s.offline := (bump_counts s page n).keeps_offline
@[simp] theorem bump_memc : (bump s page n).memc = s.memc := (bump_counts s page n).keeps_memc
@[simp] theorem bump_coh : (bump s page n).coh = s.coh := (bump_counts s page n).keeps_coh
@[simp] theorem bump_host : (bump s page n).host = s.host := (bump_counts s page n).keeps_host
@[simp] theorem bump_inp : (bump s page n).inp = s.inp := (bump_counts s page n).keeps_inp
@[simp] theorem bump_fab : (bump s page n).fab = s.fab := (bump_counts s page n).keeps_fab
@[simp] theorem bump_trn : (bump s page n).trn = s.trn := (bump_counts s page n).keeps_trn
@[simp] theorem bump_pwr : (bump s page n).pwr = s.pwr := (bump_counts s page n).keeps_pwr
@[simp] theorem bump_rst : (bump s page n).rst = s.rst := (bump_counts s page n).keeps_rst
@[simp] theorem bump_boot : (bump s page n).boot = s.boot := (bump_counts s page n).keeps_boot
@[simp] theorem bump_hubs : (bump s page n).hubs = s.hubs := (bump_counts s page n).keeps_hubs
@[simp] theorem bump_herd : (bump s page n).herd = s.herd := (bump_counts s page n).keeps_herd
end

/-! setLogged -/

section
variable (s : State) (page : Nat)
@[simp] theorem setLogged_pending : (setLogged s page).pending = s.pending := (setLogged_counts s page).keeps_pending
@[simp] theorem setLogged_latch : (setLogged s page).latch = s.latch := (setLogged_counts s page).keeps_latch
@[simp] theorem setLogged_pairHeld : (setLogged s page).pairHeld = s.pairHeld := (setLogged_counts s page).keeps_pairHeld
@[simp] theorem setLogged_pairLatch : (setLogged s page).pairLatch = s.pairLatch := (setLogged_counts s page).keeps_pairLatch
@[simp] theorem setLogged_grpCarry : (setLogged s page).grpCarry = s.grpCarry := (setLogged_counts s page).keeps_grpCarry
@[simp] theorem setLogged_fuse : (setLogged s page).fuse = s.fuse := (setLogged_counts s page).keeps_fuse
@[simp] theorem setLogged_podMembers : (setLogged s page).podMembers = s.podMembers := (setLogged_counts s page).keeps_podMembers
@[simp] theorem setLogged_sysMembers : (setLogged s page).sysMembers = s.sysMembers := (setLogged_counts s page).keeps_sysMembers
@[simp] theorem setLogged_resp : (setLogged s page).resp = s.resp := (setLogged_counts s page).keeps_resp
@[simp] theorem setLogged_free : (setLogged s page).free = s.free := (setLogged_counts s page).keeps_free
@[simp] theorem setLogged_mem : (setLogged s page).mem = s.mem := (setLogged_counts s page).keeps_mem
@[simp] theorem setLogged_undefs : (setLogged s page).undefs = s.undefs := (setLogged_counts s page).keeps_undefs
@[simp] theorem setLogged_poison : (setLogged s page).poison = s.poison := (setLogged_counts s page).keeps_poison
@[simp] theorem setLogged_arrs : (setLogged s page).arrs = s.arrs := (setLogged_counts s page).keeps_arrs
@[simp] theorem setLogged_arrCtl : (setLogged s page).arrCtl = s.arrCtl := (setLogged_counts s page).keeps_arrCtl
@[simp] theorem setLogged_preps : (setLogged s page).preps = s.preps := (setLogged_counts s page).keeps_preps
@[simp] theorem setLogged_vregs : (setLogged s page).vregs = s.vregs := (setLogged_counts s page).keeps_vregs
@[simp] theorem setLogged_hatches : (setLogged s page).hatches = s.hatches := (setLogged_counts s page).keeps_hatches
@[simp] theorem setLogged_lists : (setLogged s page).lists = s.lists := (setLogged_counts s page).keeps_lists
@[simp] theorem setLogged_cmds : (setLogged s page).cmds = s.cmds := (setLogged_counts s page).keeps_cmds
@[simp] theorem setLogged_queues : (setLogged s page).queues = s.queues := (setLogged_counts s page).keeps_queues
@[simp] theorem setLogged_tallies : (setLogged s page).tallies = s.tallies := (setLogged_counts s page).keeps_tallies
@[simp] theorem setLogged_arbs : (setLogged s page).arbs = s.arbs := (setLogged_counts s page).keeps_arbs
@[simp] theorem setLogged_stamp : (setLogged s page).stamp = s.stamp := (setLogged_counts s page).keeps_stamp
@[simp] theorem setLogged_streams : (setLogged s page).streams = s.streams := (setLogged_counts s page).keeps_streams
@[simp] theorem setLogged_folds : (setLogged s page).folds = s.folds := (setLogged_counts s page).keeps_folds
@[simp] theorem setLogged_spads : (setLogged s page).spads = s.spads := (setLogged_counts s page).keeps_spads
@[simp] theorem setLogged_moving : (setLogged s page).moving = s.moving := (setLogged_counts s page).keeps_moving
@[simp] theorem setLogged_drvs : (setLogged s page).drvs = s.drvs := (setLogged_counts s page).keeps_drvs
@[simp] theorem setLogged_moves : (setLogged s page).moves = s.moves := (setLogged_counts s page).keeps_moves
@[simp] theorem setLogged_waits : (setLogged s page).waits = s.waits := (setLogged_counts s page).keeps_waits
@[simp] theorem setLogged_scheds : (setLogged s page).scheds = s.scheds := (setLogged_counts s page).keeps_scheds
@[simp] theorem setLogged_offline : (setLogged s page).offline = s.offline := (setLogged_counts s page).keeps_offline
@[simp] theorem setLogged_memc : (setLogged s page).memc = s.memc := (setLogged_counts s page).keeps_memc
@[simp] theorem setLogged_coh : (setLogged s page).coh = s.coh := (setLogged_counts s page).keeps_coh
@[simp] theorem setLogged_host : (setLogged s page).host = s.host := (setLogged_counts s page).keeps_host
@[simp] theorem setLogged_inp : (setLogged s page).inp = s.inp := (setLogged_counts s page).keeps_inp
@[simp] theorem setLogged_fab : (setLogged s page).fab = s.fab := (setLogged_counts s page).keeps_fab
@[simp] theorem setLogged_trn : (setLogged s page).trn = s.trn := (setLogged_counts s page).keeps_trn
@[simp] theorem setLogged_pwr : (setLogged s page).pwr = s.pwr := (setLogged_counts s page).keeps_pwr
@[simp] theorem setLogged_rst : (setLogged s page).rst = s.rst := (setLogged_counts s page).keeps_rst
@[simp] theorem setLogged_boot : (setLogged s page).boot = s.boot := (setLogged_counts s page).keeps_boot
@[simp] theorem setLogged_hubs : (setLogged s page).hubs = s.hubs := (setLogged_counts s page).keeps_hubs
@[simp] theorem setLogged_herd : (setLogged s page).herd = s.herd := (setLogged_counts s page).keeps_herd
end

/-! crookRefuse -/

section
variable (s : State) (pmc : Nat)
@[simp] theorem crookRefuse_pending : (crookRefuse s pmc).pending = s.pending := (crookRefuse_counts s pmc).keeps_pending
@[simp] theorem crookRefuse_latch : (crookRefuse s pmc).latch = s.latch := (crookRefuse_counts s pmc).keeps_latch
@[simp] theorem crookRefuse_pairHeld : (crookRefuse s pmc).pairHeld = s.pairHeld := (crookRefuse_counts s pmc).keeps_pairHeld
@[simp] theorem crookRefuse_pairLatch : (crookRefuse s pmc).pairLatch = s.pairLatch := (crookRefuse_counts s pmc).keeps_pairLatch
@[simp] theorem crookRefuse_grpCarry : (crookRefuse s pmc).grpCarry = s.grpCarry := (crookRefuse_counts s pmc).keeps_grpCarry
@[simp] theorem crookRefuse_fuse : (crookRefuse s pmc).fuse = s.fuse := (crookRefuse_counts s pmc).keeps_fuse
@[simp] theorem crookRefuse_podMembers : (crookRefuse s pmc).podMembers = s.podMembers := (crookRefuse_counts s pmc).keeps_podMembers
@[simp] theorem crookRefuse_sysMembers : (crookRefuse s pmc).sysMembers = s.sysMembers := (crookRefuse_counts s pmc).keeps_sysMembers
@[simp] theorem crookRefuse_resp : (crookRefuse s pmc).resp = s.resp := (crookRefuse_counts s pmc).keeps_resp
@[simp] theorem crookRefuse_free : (crookRefuse s pmc).free = s.free := (crookRefuse_counts s pmc).keeps_free
@[simp] theorem crookRefuse_mem : (crookRefuse s pmc).mem = s.mem := (crookRefuse_counts s pmc).keeps_mem
@[simp] theorem crookRefuse_undefs : (crookRefuse s pmc).undefs = s.undefs := (crookRefuse_counts s pmc).keeps_undefs
@[simp] theorem crookRefuse_poison : (crookRefuse s pmc).poison = s.poison := (crookRefuse_counts s pmc).keeps_poison
@[simp] theorem crookRefuse_arrs : (crookRefuse s pmc).arrs = s.arrs := (crookRefuse_counts s pmc).keeps_arrs
@[simp] theorem crookRefuse_arrCtl : (crookRefuse s pmc).arrCtl = s.arrCtl := (crookRefuse_counts s pmc).keeps_arrCtl
@[simp] theorem crookRefuse_preps : (crookRefuse s pmc).preps = s.preps := (crookRefuse_counts s pmc).keeps_preps
@[simp] theorem crookRefuse_vregs : (crookRefuse s pmc).vregs = s.vregs := (crookRefuse_counts s pmc).keeps_vregs
@[simp] theorem crookRefuse_hatches : (crookRefuse s pmc).hatches = s.hatches := (crookRefuse_counts s pmc).keeps_hatches
@[simp] theorem crookRefuse_lists : (crookRefuse s pmc).lists = s.lists := (crookRefuse_counts s pmc).keeps_lists
@[simp] theorem crookRefuse_cmds : (crookRefuse s pmc).cmds = s.cmds := (crookRefuse_counts s pmc).keeps_cmds
@[simp] theorem crookRefuse_queues : (crookRefuse s pmc).queues = s.queues := (crookRefuse_counts s pmc).keeps_queues
@[simp] theorem crookRefuse_tallies : (crookRefuse s pmc).tallies = s.tallies := (crookRefuse_counts s pmc).keeps_tallies
@[simp] theorem crookRefuse_arbs : (crookRefuse s pmc).arbs = s.arbs := (crookRefuse_counts s pmc).keeps_arbs
@[simp] theorem crookRefuse_stamp : (crookRefuse s pmc).stamp = s.stamp := (crookRefuse_counts s pmc).keeps_stamp
@[simp] theorem crookRefuse_streams : (crookRefuse s pmc).streams = s.streams := (crookRefuse_counts s pmc).keeps_streams
@[simp] theorem crookRefuse_folds : (crookRefuse s pmc).folds = s.folds := (crookRefuse_counts s pmc).keeps_folds
@[simp] theorem crookRefuse_spads : (crookRefuse s pmc).spads = s.spads := (crookRefuse_counts s pmc).keeps_spads
@[simp] theorem crookRefuse_moving : (crookRefuse s pmc).moving = s.moving := (crookRefuse_counts s pmc).keeps_moving
@[simp] theorem crookRefuse_drvs : (crookRefuse s pmc).drvs = s.drvs := (crookRefuse_counts s pmc).keeps_drvs
@[simp] theorem crookRefuse_moves : (crookRefuse s pmc).moves = s.moves := (crookRefuse_counts s pmc).keeps_moves
@[simp] theorem crookRefuse_waits : (crookRefuse s pmc).waits = s.waits := (crookRefuse_counts s pmc).keeps_waits
@[simp] theorem crookRefuse_scheds : (crookRefuse s pmc).scheds = s.scheds := (crookRefuse_counts s pmc).keeps_scheds
@[simp] theorem crookRefuse_offline : (crookRefuse s pmc).offline = s.offline := (crookRefuse_counts s pmc).keeps_offline
@[simp] theorem crookRefuse_memc : (crookRefuse s pmc).memc = s.memc := (crookRefuse_counts s pmc).keeps_memc
@[simp] theorem crookRefuse_coh : (crookRefuse s pmc).coh = s.coh := (crookRefuse_counts s pmc).keeps_coh
@[simp] theorem crookRefuse_host : (crookRefuse s pmc).host = s.host := (crookRefuse_counts s pmc).keeps_host
@[simp] theorem crookRefuse_inp : (crookRefuse s pmc).inp = s.inp := (crookRefuse_counts s pmc).keeps_inp
@[simp] theorem crookRefuse_fab : (crookRefuse s pmc).fab = s.fab := (crookRefuse_counts s pmc).keeps_fab
@[simp] theorem crookRefuse_trn : (crookRefuse s pmc).trn = s.trn := (crookRefuse_counts s pmc).keeps_trn
@[simp] theorem crookRefuse_pwr : (crookRefuse s pmc).pwr = s.pwr := (crookRefuse_counts s pmc).keeps_pwr
@[simp] theorem crookRefuse_rst : (crookRefuse s pmc).rst = s.rst := (crookRefuse_counts s pmc).keeps_rst
@[simp] theorem crookRefuse_boot : (crookRefuse s pmc).boot = s.boot := (crookRefuse_counts s pmc).keeps_boot
@[simp] theorem crookRefuse_hubs : (crookRefuse s pmc).hubs = s.hubs := (crookRefuse_counts s pmc).keeps_hubs
@[simp] theorem crookRefuse_herd : (crookRefuse s pmc).herd = s.herd := (crookRefuse_counts s pmc).keeps_herd
end

/-! denyWrite -/

section
variable (s : State) (a : Auth)
@[simp] theorem denyWrite_pending : (denyWrite s a).pending = s.pending := (denyWrite_counts s a).keeps_pending
@[simp] theorem denyWrite_latch : (denyWrite s a).latch = s.latch := (denyWrite_counts s a).keeps_latch
@[simp] theorem denyWrite_pairHeld : (denyWrite s a).pairHeld = s.pairHeld := (denyWrite_counts s a).keeps_pairHeld
@[simp] theorem denyWrite_pairLatch : (denyWrite s a).pairLatch = s.pairLatch := (denyWrite_counts s a).keeps_pairLatch
@[simp] theorem denyWrite_grpCarry : (denyWrite s a).grpCarry = s.grpCarry := (denyWrite_counts s a).keeps_grpCarry
@[simp] theorem denyWrite_fuse : (denyWrite s a).fuse = s.fuse := (denyWrite_counts s a).keeps_fuse
@[simp] theorem denyWrite_podMembers : (denyWrite s a).podMembers = s.podMembers := (denyWrite_counts s a).keeps_podMembers
@[simp] theorem denyWrite_sysMembers : (denyWrite s a).sysMembers = s.sysMembers := (denyWrite_counts s a).keeps_sysMembers
@[simp] theorem denyWrite_resp : (denyWrite s a).resp = s.resp := (denyWrite_counts s a).keeps_resp
@[simp] theorem denyWrite_free : (denyWrite s a).free = s.free := (denyWrite_counts s a).keeps_free
@[simp] theorem denyWrite_mem : (denyWrite s a).mem = s.mem := (denyWrite_counts s a).keeps_mem
@[simp] theorem denyWrite_undefs : (denyWrite s a).undefs = s.undefs := (denyWrite_counts s a).keeps_undefs
@[simp] theorem denyWrite_poison : (denyWrite s a).poison = s.poison := (denyWrite_counts s a).keeps_poison
@[simp] theorem denyWrite_arrs : (denyWrite s a).arrs = s.arrs := (denyWrite_counts s a).keeps_arrs
@[simp] theorem denyWrite_arrCtl : (denyWrite s a).arrCtl = s.arrCtl := (denyWrite_counts s a).keeps_arrCtl
@[simp] theorem denyWrite_preps : (denyWrite s a).preps = s.preps := (denyWrite_counts s a).keeps_preps
@[simp] theorem denyWrite_vregs : (denyWrite s a).vregs = s.vregs := (denyWrite_counts s a).keeps_vregs
@[simp] theorem denyWrite_hatches : (denyWrite s a).hatches = s.hatches := (denyWrite_counts s a).keeps_hatches
@[simp] theorem denyWrite_lists : (denyWrite s a).lists = s.lists := (denyWrite_counts s a).keeps_lists
@[simp] theorem denyWrite_cmds : (denyWrite s a).cmds = s.cmds := (denyWrite_counts s a).keeps_cmds
@[simp] theorem denyWrite_queues : (denyWrite s a).queues = s.queues := (denyWrite_counts s a).keeps_queues
@[simp] theorem denyWrite_tallies : (denyWrite s a).tallies = s.tallies := (denyWrite_counts s a).keeps_tallies
@[simp] theorem denyWrite_arbs : (denyWrite s a).arbs = s.arbs := (denyWrite_counts s a).keeps_arbs
@[simp] theorem denyWrite_stamp : (denyWrite s a).stamp = s.stamp := (denyWrite_counts s a).keeps_stamp
@[simp] theorem denyWrite_streams : (denyWrite s a).streams = s.streams := (denyWrite_counts s a).keeps_streams
@[simp] theorem denyWrite_folds : (denyWrite s a).folds = s.folds := (denyWrite_counts s a).keeps_folds
@[simp] theorem denyWrite_spads : (denyWrite s a).spads = s.spads := (denyWrite_counts s a).keeps_spads
@[simp] theorem denyWrite_moving : (denyWrite s a).moving = s.moving := (denyWrite_counts s a).keeps_moving
@[simp] theorem denyWrite_drvs : (denyWrite s a).drvs = s.drvs := (denyWrite_counts s a).keeps_drvs
@[simp] theorem denyWrite_moves : (denyWrite s a).moves = s.moves := (denyWrite_counts s a).keeps_moves
@[simp] theorem denyWrite_waits : (denyWrite s a).waits = s.waits := (denyWrite_counts s a).keeps_waits
@[simp] theorem denyWrite_scheds : (denyWrite s a).scheds = s.scheds := (denyWrite_counts s a).keeps_scheds
@[simp] theorem denyWrite_offline : (denyWrite s a).offline = s.offline := (denyWrite_counts s a).keeps_offline
@[simp] theorem denyWrite_memc : (denyWrite s a).memc = s.memc := (denyWrite_counts s a).keeps_memc
@[simp] theorem denyWrite_coh : (denyWrite s a).coh = s.coh := (denyWrite_counts s a).keeps_coh
@[simp] theorem denyWrite_host : (denyWrite s a).host = s.host := (denyWrite_counts s a).keeps_host
@[simp] theorem denyWrite_inp : (denyWrite s a).inp = s.inp := (denyWrite_counts s a).keeps_inp
@[simp] theorem denyWrite_fab : (denyWrite s a).fab = s.fab := (denyWrite_counts s a).keeps_fab
@[simp] theorem denyWrite_trn : (denyWrite s a).trn = s.trn := (denyWrite_counts s a).keeps_trn
@[simp] theorem denyWrite_pwr : (denyWrite s a).pwr = s.pwr := (denyWrite_counts s a).keeps_pwr
@[simp] theorem denyWrite_rst : (denyWrite s a).rst = s.rst := (denyWrite_counts s a).keeps_rst
@[simp] theorem denyWrite_boot : (denyWrite s a).boot = s.boot := (denyWrite_counts s a).keeps_boot
@[simp] theorem denyWrite_hubs : (denyWrite s a).hubs = s.hubs := (denyWrite_counts s a).keeps_hubs
@[simp] theorem denyWrite_herd : (denyWrite s a).herd = s.herd := (denyWrite_counts s a).keeps_herd
end

/-! logFault -/

section
variable (s : State) (typ cause unit detail : Nat)
@[simp] theorem logFault_pending : (logFault s typ cause unit detail).pending = s.pending := (logFault_counts s typ cause unit detail).keeps_pending
@[simp] theorem logFault_latch : (logFault s typ cause unit detail).latch = s.latch := (logFault_counts s typ cause unit detail).keeps_latch
@[simp] theorem logFault_pairHeld : (logFault s typ cause unit detail).pairHeld = s.pairHeld := (logFault_counts s typ cause unit detail).keeps_pairHeld
@[simp] theorem logFault_pairLatch : (logFault s typ cause unit detail).pairLatch = s.pairLatch := (logFault_counts s typ cause unit detail).keeps_pairLatch
@[simp] theorem logFault_grpCarry : (logFault s typ cause unit detail).grpCarry = s.grpCarry := (logFault_counts s typ cause unit detail).keeps_grpCarry
@[simp] theorem logFault_fuse : (logFault s typ cause unit detail).fuse = s.fuse := (logFault_counts s typ cause unit detail).keeps_fuse
@[simp] theorem logFault_podMembers : (logFault s typ cause unit detail).podMembers = s.podMembers := (logFault_counts s typ cause unit detail).keeps_podMembers
@[simp] theorem logFault_sysMembers : (logFault s typ cause unit detail).sysMembers = s.sysMembers := (logFault_counts s typ cause unit detail).keeps_sysMembers
@[simp] theorem logFault_resp : (logFault s typ cause unit detail).resp = s.resp := (logFault_counts s typ cause unit detail).keeps_resp
@[simp] theorem logFault_free : (logFault s typ cause unit detail).free = s.free := (logFault_counts s typ cause unit detail).keeps_free
@[simp] theorem logFault_mem : (logFault s typ cause unit detail).mem = s.mem := (logFault_counts s typ cause unit detail).keeps_mem
@[simp] theorem logFault_undefs : (logFault s typ cause unit detail).undefs = s.undefs := (logFault_counts s typ cause unit detail).keeps_undefs
@[simp] theorem logFault_poison : (logFault s typ cause unit detail).poison = s.poison := (logFault_counts s typ cause unit detail).keeps_poison
@[simp] theorem logFault_arrs : (logFault s typ cause unit detail).arrs = s.arrs := (logFault_counts s typ cause unit detail).keeps_arrs
@[simp] theorem logFault_arrCtl : (logFault s typ cause unit detail).arrCtl = s.arrCtl := (logFault_counts s typ cause unit detail).keeps_arrCtl
@[simp] theorem logFault_preps : (logFault s typ cause unit detail).preps = s.preps := (logFault_counts s typ cause unit detail).keeps_preps
@[simp] theorem logFault_vregs : (logFault s typ cause unit detail).vregs = s.vregs := (logFault_counts s typ cause unit detail).keeps_vregs
@[simp] theorem logFault_hatches : (logFault s typ cause unit detail).hatches = s.hatches := (logFault_counts s typ cause unit detail).keeps_hatches
@[simp] theorem logFault_lists : (logFault s typ cause unit detail).lists = s.lists := (logFault_counts s typ cause unit detail).keeps_lists
@[simp] theorem logFault_cmds : (logFault s typ cause unit detail).cmds = s.cmds := (logFault_counts s typ cause unit detail).keeps_cmds
@[simp] theorem logFault_queues : (logFault s typ cause unit detail).queues = s.queues := (logFault_counts s typ cause unit detail).keeps_queues
@[simp] theorem logFault_tallies : (logFault s typ cause unit detail).tallies = s.tallies := (logFault_counts s typ cause unit detail).keeps_tallies
@[simp] theorem logFault_arbs : (logFault s typ cause unit detail).arbs = s.arbs := (logFault_counts s typ cause unit detail).keeps_arbs
@[simp] theorem logFault_stamp : (logFault s typ cause unit detail).stamp = s.stamp := (logFault_counts s typ cause unit detail).keeps_stamp
@[simp] theorem logFault_streams : (logFault s typ cause unit detail).streams = s.streams := (logFault_counts s typ cause unit detail).keeps_streams
@[simp] theorem logFault_folds : (logFault s typ cause unit detail).folds = s.folds := (logFault_counts s typ cause unit detail).keeps_folds
@[simp] theorem logFault_spads : (logFault s typ cause unit detail).spads = s.spads := (logFault_counts s typ cause unit detail).keeps_spads
@[simp] theorem logFault_moving : (logFault s typ cause unit detail).moving = s.moving := (logFault_counts s typ cause unit detail).keeps_moving
@[simp] theorem logFault_drvs : (logFault s typ cause unit detail).drvs = s.drvs := (logFault_counts s typ cause unit detail).keeps_drvs
@[simp] theorem logFault_moves : (logFault s typ cause unit detail).moves = s.moves := (logFault_counts s typ cause unit detail).keeps_moves
@[simp] theorem logFault_waits : (logFault s typ cause unit detail).waits = s.waits := (logFault_counts s typ cause unit detail).keeps_waits
@[simp] theorem logFault_scheds : (logFault s typ cause unit detail).scheds = s.scheds := (logFault_counts s typ cause unit detail).keeps_scheds
@[simp] theorem logFault_offline : (logFault s typ cause unit detail).offline = s.offline := (logFault_counts s typ cause unit detail).keeps_offline
@[simp] theorem logFault_memc : (logFault s typ cause unit detail).memc = s.memc := (logFault_counts s typ cause unit detail).keeps_memc
@[simp] theorem logFault_coh : (logFault s typ cause unit detail).coh = s.coh := (logFault_counts s typ cause unit detail).keeps_coh
@[simp] theorem logFault_host : (logFault s typ cause unit detail).host = s.host := (logFault_counts s typ cause unit detail).keeps_host
@[simp] theorem logFault_inp : (logFault s typ cause unit detail).inp = s.inp := (logFault_counts s typ cause unit detail).keeps_inp
@[simp] theorem logFault_fab : (logFault s typ cause unit detail).fab = s.fab := (logFault_counts s typ cause unit detail).keeps_fab
@[simp] theorem logFault_trn : (logFault s typ cause unit detail).trn = s.trn := (logFault_counts s typ cause unit detail).keeps_trn
@[simp] theorem logFault_pwr : (logFault s typ cause unit detail).pwr = s.pwr := (logFault_counts s typ cause unit detail).keeps_pwr
@[simp] theorem logFault_rst : (logFault s typ cause unit detail).rst = s.rst := (logFault_counts s typ cause unit detail).keeps_rst
@[simp] theorem logFault_boot : (logFault s typ cause unit detail).boot = s.boot := (logFault_counts s typ cause unit detail).keeps_boot
@[simp] theorem logFault_hubs : (logFault s typ cause unit detail).hubs = s.hubs := (logFault_counts s typ cause unit detail).keeps_hubs
@[simp] theorem logFault_herd : (logFault s typ cause unit detail).herd = s.herd := (logFault_counts s typ cause unit detail).keeps_herd
end

/-! withIrq -/

section
variable (s : State) (page q : Nat) (g : State → State)
@[simp] theorem withIrq_pending : (withIrq s page q g).pending = (g s).pending := (withIrq_counts s page q g).keeps_pending
@[simp] theorem withIrq_latch : (withIrq s page q g).latch = (g s).latch := (withIrq_counts s page q g).keeps_latch
@[simp] theorem withIrq_pairHeld : (withIrq s page q g).pairHeld = (g s).pairHeld := (withIrq_counts s page q g).keeps_pairHeld
@[simp] theorem withIrq_pairLatch : (withIrq s page q g).pairLatch = (g s).pairLatch := (withIrq_counts s page q g).keeps_pairLatch
@[simp] theorem withIrq_grpCarry : (withIrq s page q g).grpCarry = (g s).grpCarry := (withIrq_counts s page q g).keeps_grpCarry
@[simp] theorem withIrq_fuse : (withIrq s page q g).fuse = (g s).fuse := (withIrq_counts s page q g).keeps_fuse
@[simp] theorem withIrq_podMembers : (withIrq s page q g).podMembers = (g s).podMembers := (withIrq_counts s page q g).keeps_podMembers
@[simp] theorem withIrq_sysMembers : (withIrq s page q g).sysMembers = (g s).sysMembers := (withIrq_counts s page q g).keeps_sysMembers
@[simp] theorem withIrq_resp : (withIrq s page q g).resp = (g s).resp := (withIrq_counts s page q g).keeps_resp
@[simp] theorem withIrq_free : (withIrq s page q g).free = (g s).free := (withIrq_counts s page q g).keeps_free
@[simp] theorem withIrq_mem : (withIrq s page q g).mem = (g s).mem := (withIrq_counts s page q g).keeps_mem
@[simp] theorem withIrq_undefs : (withIrq s page q g).undefs = (g s).undefs := (withIrq_counts s page q g).keeps_undefs
@[simp] theorem withIrq_poison : (withIrq s page q g).poison = (g s).poison := (withIrq_counts s page q g).keeps_poison
@[simp] theorem withIrq_arrs : (withIrq s page q g).arrs = (g s).arrs := (withIrq_counts s page q g).keeps_arrs
@[simp] theorem withIrq_arrCtl : (withIrq s page q g).arrCtl = (g s).arrCtl := (withIrq_counts s page q g).keeps_arrCtl
@[simp] theorem withIrq_preps : (withIrq s page q g).preps = (g s).preps := (withIrq_counts s page q g).keeps_preps
@[simp] theorem withIrq_vregs : (withIrq s page q g).vregs = (g s).vregs := (withIrq_counts s page q g).keeps_vregs
@[simp] theorem withIrq_hatches : (withIrq s page q g).hatches = (g s).hatches := (withIrq_counts s page q g).keeps_hatches
@[simp] theorem withIrq_lists : (withIrq s page q g).lists = (g s).lists := (withIrq_counts s page q g).keeps_lists
@[simp] theorem withIrq_cmds : (withIrq s page q g).cmds = (g s).cmds := (withIrq_counts s page q g).keeps_cmds
@[simp] theorem withIrq_queues : (withIrq s page q g).queues = (g s).queues := (withIrq_counts s page q g).keeps_queues
@[simp] theorem withIrq_tallies : (withIrq s page q g).tallies = (g s).tallies := (withIrq_counts s page q g).keeps_tallies
@[simp] theorem withIrq_arbs : (withIrq s page q g).arbs = (g s).arbs := (withIrq_counts s page q g).keeps_arbs
@[simp] theorem withIrq_stamp : (withIrq s page q g).stamp = (g s).stamp := (withIrq_counts s page q g).keeps_stamp
@[simp] theorem withIrq_streams : (withIrq s page q g).streams = (g s).streams := (withIrq_counts s page q g).keeps_streams
@[simp] theorem withIrq_folds : (withIrq s page q g).folds = (g s).folds := (withIrq_counts s page q g).keeps_folds
@[simp] theorem withIrq_spads : (withIrq s page q g).spads = (g s).spads := (withIrq_counts s page q g).keeps_spads
@[simp] theorem withIrq_moving : (withIrq s page q g).moving = (g s).moving := (withIrq_counts s page q g).keeps_moving
@[simp] theorem withIrq_drvs : (withIrq s page q g).drvs = (g s).drvs := (withIrq_counts s page q g).keeps_drvs
@[simp] theorem withIrq_moves : (withIrq s page q g).moves = (g s).moves := (withIrq_counts s page q g).keeps_moves
@[simp] theorem withIrq_waits : (withIrq s page q g).waits = (g s).waits := (withIrq_counts s page q g).keeps_waits
@[simp] theorem withIrq_scheds : (withIrq s page q g).scheds = (g s).scheds := (withIrq_counts s page q g).keeps_scheds
@[simp] theorem withIrq_offline : (withIrq s page q g).offline = (g s).offline := (withIrq_counts s page q g).keeps_offline
@[simp] theorem withIrq_memc : (withIrq s page q g).memc = (g s).memc := (withIrq_counts s page q g).keeps_memc
@[simp] theorem withIrq_coh : (withIrq s page q g).coh = (g s).coh := (withIrq_counts s page q g).keeps_coh
@[simp] theorem withIrq_host : (withIrq s page q g).host = (g s).host := (withIrq_counts s page q g).keeps_host
@[simp] theorem withIrq_inp : (withIrq s page q g).inp = (g s).inp := (withIrq_counts s page q g).keeps_inp
@[simp] theorem withIrq_fab : (withIrq s page q g).fab = (g s).fab := (withIrq_counts s page q g).keeps_fab
@[simp] theorem withIrq_trn : (withIrq s page q g).trn = (g s).trn := (withIrq_counts s page q g).keeps_trn
@[simp] theorem withIrq_pwr : (withIrq s page q g).pwr = (g s).pwr := (withIrq_counts s page q g).keeps_pwr
@[simp] theorem withIrq_rst : (withIrq s page q g).rst = (g s).rst := (withIrq_counts s page q g).keeps_rst
@[simp] theorem withIrq_boot : (withIrq s page q g).boot = (g s).boot := (withIrq_counts s page q g).keeps_boot
@[simp] theorem withIrq_hubs : (withIrq s page q g).hubs = (g s).hubs := (withIrq_counts s page q g).keeps_hubs
@[simp] theorem withIrq_herd : (withIrq s page q g).herd = (g s).herd := (withIrq_counts s page q g).keeps_herd
end

end Sys2Proof.Machine
end

