-- ==== Sys2Proof/Laws/Map.lean ====
section
/-! SUPPORT. The sparse map: what a put, a deletion and a keep leave at each number, and that each keeps the numbers
rising. -/

namespace Sys2Proof.Machine

open Sys2Proof

variable {α : Type}

theorem mget_mput (m : FMap α) (k j : Nat) (v : α) : mget (mput m k v) j = if k = j then some v else mget m j := by
  induction m with
  | nil => simp [mput, mget]
  | cons e t ih =>
    obtain ⟨i, w⟩ := e
    unfold mput
    split
    · simp [mget]
    · split
      · next h => subst h; simp only [mget]; split <;> simp_all
      · next h h' =>
        simp only [mget, ih]
        split
        · next e => rw [if_neg (by omega)]
        · rfl

@[simp] theorem mget_mput_same (m : FMap α) (k : Nat) (v : α) : mget (mput m k v) k = some v := by
  simp [mget_mput]

theorem mget_mput_ne (m : FMap α) {k j : Nat} (v : α) (h : k ≠ j) : mget (mput m k v) j = mget m j := by
  simp [mget_mput, h]

theorem mget_filter_keep (m : FMap α) (p : Nat → Bool) (k : Nat) :
    mget (m.filter fun e => p e.1) k = if p k then mget m k else none := by
  induction m with
  | nil => simp [mget]
  | cons e t ih =>
    obtain ⟨i, w⟩ := e
    by_cases hp : p i
    · rw [List.filter_cons_of_pos (by simpa using hp)]
      simp only [mget]
      by_cases h : i = k
      · subst h; simp [hp]
      · simp [h, ih]
    · rw [List.filter_cons_of_neg (by simpa using hp), ih]
      simp only [mget]
      by_cases h : i = k
      · subst h; simp [hp]
      · simp [h]

theorem mget_mdel (m : FMap α) (k j : Nat) : mget (mdel m k) j = if k = j then none else mget m j := by
  unfold mdel
  rw [mget_filter_keep m (fun i => i != k) j]
  by_cases h : k = j
  · subst h; simp
  · have h' : j ≠ k := fun e => h e.symm
    simp [h, h']

theorem mget_mkeep (m : FMap α) (p : Nat → Bool) (k : Nat) : mget (mkeep m p) k = if p k then mget m k else none :=
  mget_filter_keep m p k

/-- A rising map with a number in front: every later number is larger. -/
theorem rising_cons (k : Nat) (v : α) (m : FMap α) :
    rising ((k, v) :: m) = true ↔ (∀ e ∈ m, k < e.1) ∧ rising m = true := by
  induction m generalizing k v with
  | nil => simp [rising]
  | cons e t ih =>
    obtain ⟨j, w⟩ := e
    constructor
    · intro h
      have h1 : k < j := by simp [rising] at h; exact h.1
      have h2 : rising ((j, w) :: t) = true := by
        rw [rising] at h; simp only [Bool.and_eq_true] at h; exact h.2
      refine ⟨?_, h2⟩
      intro e he
      rcases List.mem_cons.1 he with rfl | he
      · exact h1
      · exact h1.trans (((ih j w).1 h2).1 e he)
    · intro ⟨h1, h2⟩
      rw [rising]
      simp only [Bool.and_eq_true, decide_eq_true_eq]
      exact ⟨h1 _ (List.mem_cons_self ..), h2⟩

theorem mem_mput {m : FMap α} {k : Nat} {v : α} {e : Nat × α} (h : e ∈ mput m k v) : e = (k, v) ∨ e ∈ m := by
  induction m with
  | nil => simpa [mput] using h
  | cons x t ih =>
    obtain ⟨i, w⟩ := x
    unfold mput at h
    split at h
    · simpa using h
    · split at h
      · rcases List.mem_cons.1 h with h | h
        · exact .inl h
        · exact .inr (List.mem_cons_of_mem _ h)
      · rcases List.mem_cons.1 h with h | h
        · exact .inr (h ▸ List.mem_cons_self ..)
        · rcases ih h with h | h
          · exact .inl h
          · exact .inr (List.mem_cons_of_mem _ h)

theorem rising_mput (m : FMap α) (k : Nat) (v : α) (h : rising m = true) : rising (mput m k v) = true := by
  induction m with
  | nil => simp [mput, rising]
  | cons x t ih =>
    obtain ⟨i, w⟩ := x
    have hc := (rising_cons i w t).1 h
    unfold mput
    split
    · next hk =>
      rw [rising_cons]
      refine ⟨?_, h⟩
      intro e he
      rcases List.mem_cons.1 he with rfl | he
      · exact hk
      · exact hk.trans (hc.1 e he)
    · next hk =>
      split
      · next hi => subst hi; rw [rising_cons]; exact hc
      · next hi =>
        rw [rising_cons]
        refine ⟨?_, ih hc.2⟩
        intro e he
        rcases mem_mput he with rfl | he
        · have : i ≠ k := hi
          show i < k
          omega
        · exact hc.1 e he

theorem rising_filter (m : FMap α) (p : Nat × α → Bool) (h : rising m = true) : rising (m.filter p) = true := by
  induction m with
  | nil => simpa using h
  | cons x t ih =>
    obtain ⟨i, w⟩ := x
    have hc := (rising_cons i w t).1 h
    by_cases hp : p (i, w)
    · rw [List.filter_cons_of_pos hp, rising_cons]
      exact ⟨fun e he => hc.1 e (List.mem_filter.1 he).1, ih hc.2⟩
    · rw [List.filter_cons_of_neg hp]
      exact ih hc.2

end Sys2Proof.Machine
end

