-- ==== Sys2Proof/Laws/Fields.lean ====
section
/-! SUPPORT. Register fields: a field reads what was written, and a write leaves every field of another key alone. -/

namespace Sys2Proof.Machine

open Sys2Proof

theorem fgeti_fputi_same (s : State) (page : Nat) (f : Field) (i v : Nat) (hw : fieldWidth f ≤ 64) :
    fgeti (fputi s page f i v) page f i = v % 2 ^ fieldWidth f := by
  unfold fgeti fputi
  simp only [mget_mput_same, BitVec.toNat_ofNat]
  rw [Nat.mod_eq_of_lt (b := 2 ^ 64), Nat.mod_mod]
  refine Nat.lt_of_lt_of_le (Nat.mod_lt _ (Nat.two_pow_pos _)) ?_
  exact Nat.pow_le_pow_right (by omega) hw

theorem fgeti_fputi_ne (s : State) {page page' : Nat} {f f' : Field} {i i' : Nat} (v : Nat)
    (h : fieldKey page (f.off + i * f.stride) f.lo ≠ fieldKey page' (f'.off + i' * f'.stride) f'.lo) :
    fgeti (fputi s page f i v) page' f' i' = fgeti s page' f' i' := by
  unfold fgeti fputi
  simp only [mget_mput_ne _ _ h]

/-- A field after a write: the new value where the keys agree, else as before. -/
theorem fgeti_fputi (s : State) (page page' : Nat) (f f' : Field) (i i' v : Nat) (hw : fieldWidth f ≤ 64) :
    fgeti (fputi s page f i v) page' f' i' =
      if fieldKey page (f.off + i * f.stride) f.lo = fieldKey page' (f'.off + i' * f'.stride) f'.lo then
        v % 2 ^ fieldWidth f % 2 ^ fieldWidth f'
      else fgeti s page' f' i' := by
  split
  · next h =>
    unfold fgeti fputi
    simp only [← h, mget_mput_same, BitVec.toNat_ofNat]
    rw [Nat.mod_eq_of_lt (b := 2 ^ 64)]
    refine Nat.lt_of_lt_of_le (Nat.mod_lt _ (Nat.two_pow_pos _)) ?_
    exact Nat.pow_le_pow_right (by omega) hw
  · next h => exact fgeti_fputi_ne s v h

/-- A field reads below two to its width, as its Reset value does. -/
theorem fgeti_lt (s : State) (page : Nat) (f : Field) (i : Nat) (h : f.rst < 2 ^ fieldWidth f) :
    fgeti s page f i < 2 ^ fieldWidth f := by
  unfold fgeti
  split
  · exact Nat.mod_lt _ (Nat.two_pow_pos _)
  · exact h

theorem fget_fput_same (s : State) (page : Nat) (f : Field) (v : Nat) (hw : fieldWidth f ≤ 64) :
    fget (fput s page f v) page f = v % 2 ^ fieldWidth f := fgeti_fputi_same s page f 0 v hw

/-- Keys of different pages differ. -/
theorem fieldKey_page {page page' off off' lo lo' : Nat} (h : page ≠ page') (ho : off < 4096) (ho' : off' < 4096)
    (hl : lo < 32) (hl' : lo' < 32) : fieldKey page off lo ≠ fieldKey page' off' lo' := by
  unfold fieldKey
  omega

/-- Keys of one page differ where the word or the bit differs. -/
theorem fieldKey_word {page off off' lo lo' : Nat} (hl : lo < 32) (hl' : lo' < 32)
    (h : off / 4 ≠ off' / 4 ∨ lo ≠ lo') : fieldKey page off lo ≠ fieldKey page off' lo' := by
  unfold fieldKey
  omega

/-- Two keys agree when page, word and low bit do. -/
theorem fieldKey_eq_iff {page page' off off' lo lo' : Nat} (ho : off < 4096) (ho' : off' < 4096)
    (hl : lo < 32) (hl' : lo' < 32) :
    fieldKey page off lo = fieldKey page' off' lo' ↔ page = page' ∧ off / 4 = off' / 4 ∧ lo = lo' := by
  unfold fieldKey
  omega

@[simp] theorem fgeti_emit (s : State) (o : Output) (page : Nat) (f : Field) (i : Nat) :
    fgeti (emit s o) page f i = fgeti s page f i := rfl

@[simp] theorem fgeti_reply (s : State) (bs : List Byte) (page : Nat) (f : Field) (i : Nat) :
    fgeti (reply s bs) page f i = fgeti s page f i := rfl

@[simp] theorem fgeti_writeByte (s : State) (pa : Nat) (b : Byte) (page : Nat) (f : Field) (i : Nat) :
    fgeti (writeByte s pa b) page f i = fgeti s page f i := rfl

@[simp] theorem fgeti_setPoison (s : State) (pa : Nat) (p : Bool) (page : Nat) (f : Field) (i : Nat) :
    fgeti (setPoison s pa p) page f i = fgeti s page f i := rfl

end Sys2Proof.Machine
end

