-- ==== Sys2Proof/Laws/Frame.lean ====
section
/-! SUPPORT. Ring frames (R489, R490, R582): the CRC fits its two symbols, and a frame that this part builds is good
and holds the body it was built from. -/

namespace Sys2Proof.Machine

open Sys2Proof

theorem slice_length (bs : List Byte) (off n : Nat) : (slice bs off n).length = n := by
  simp only [slice, List.length_append, List.length_replicate, List.length_take]; omega

theorem slice_append (a b : List Byte) : slice (a ++ b) a.length b.length = b := by
  simp [slice]

theorem slice_mid (a b c : List Byte) {k n : Nat} (hk : a.length = k) (hn : b.length = n) :
    slice (a ++ (b ++ c)) k n = b := by
  subst hk hn
  simp [slice]

theorem crc16Bit_lt {c : Nat} (h : c < 2 ^ 16) : crc16Bit c < 2 ^ 16 := by
  unfold crc16Bit
  split
  · exact Nat.xor_lt_two_pow (Nat.mod_lt _ (by decide)) (by decide)
  · next k =>
    have : c < 2 ^ 15 := by
      refine Nat.lt_of_not_le fun hle => k ?_
      rw [Nat.testBit_eq_decide_div_mod_eq]
      simp
      omega
    omega

theorem crc16Byte_lt {c : Nat} (b : Byte) (h : c < 2 ^ 16) : crc16Byte c b < 2 ^ 16 := by
  have hb : b.toNat * 256 < 2 ^ 16 := by have := b.isLt; omega
  unfold crc16Byte
  iterate 8 refine crc16Bit_lt ?_
  exact Nat.xor_lt_two_pow h hb

theorem crc16_lt (bs : List Byte) : crc16 bs < 2 ^ 16 := by
  have go : ∀ (l : List Byte) (c : Nat), c < 2 ^ 16 → l.foldl crc16Byte c < 2 ^ 16 := by
    intro l
    induction l with
    | nil => exact fun c h => h
    | cons b t ih => exact fun c h => ih _ (crc16Byte_lt b h)
  exact go bs _ (by decide)

/-- A frame holds the body it was built from. -/
theorem frameBody_frameOf (first : Nat) (body : List Byte) (bad : Bool) :
    frameBody (frameOf first body bad) = slice body 0 252 := by
  have h := slice_length body 0 252
  rw [frameBody, frameOf]
  simp only [List.append_assoc]
  exact slice_mid (leBytes 1 first) _ _ rfl h

/-- A frame that this part sends as good is good. -/
theorem frameGood_frameOf (first : Nat) (body : List Byte) (h : first < 256) :
    frameGood (frameOf first body false) first false = true := by
  have hl := slice_length body 0 252
  have hc := crc16_lt (slice body 0 252)
  have hb := frameBody_frameOf first body false
  have e : frameOf first body false = leBytes 1 first ++ (slice body 0 252 ++
      (leBytes 1 (crc16 (slice body 0 252) / 256) ++ (leBytes 1 (crc16 (slice body 0 252) % 256) ++ (leBytes 1 0 ++ [])))) := by
    simp [frameOf, bitN]
  have s0 : slice (frameOf first body false) 0 1 = leBytes 1 first := by
    rw [e]; exact slice_mid [] (leBytes 1 first) _ rfl rfl
  have s1 : slice (frameOf first body false) 253 1 = leBytes 1 (crc16 (slice body 0 252) / 256) := by
    rw [e, ← List.append_assoc]; exact slice_mid _ _ _ (by simp [leBytes, hl]) rfl
  have s2 : slice (frameOf first body false) 254 1 = leBytes 1 (crc16 (slice body 0 252) % 256) := by
    rw [e, ← List.append_assoc, ← List.append_assoc]; exact slice_mid _ _ _ (by simp [leBytes, hl]) rfl
  have s3 : slice (frameOf first body false) 255 1 = leBytes 1 0 := by
    rw [e, ← List.append_assoc, ← List.append_assoc, ← List.append_assoc]
    exact slice_mid _ _ _ (by simp [leBytes, hl]) rfl
  have hlen : (frameOf first body false).length = 256 := by rw [e]; simp [leBytes, hl]
  simp only [frameGood, s0, s1, s2, s3, hb, hlen, leBytes, leNat, BitVec.toNat_ofNat, Bool.not_false, Bool.true_and,
    Bool.and_eq_true, beq_iff_eq, beq_self_eq_true]
  refine ⟨⟨?_, ?_⟩, trivial⟩ <;> omega

theorem slice_getElem? (bs : List Byte) (off n i : Nat) (h : i < n) : (slice bs off n)[i]? = some (bs[off + i]?.getD 0) := by
  simp only [slice]
  by_cases k : off + i < bs.length
  · rw [List.getElem?_append_left (by simp; omega)]
    simp [h, List.getElem?_eq_getElem k]
  · rw [List.getElem?_append_right (by simp; omega), List.getElem?_eq_none (show bs.length ≤ off + i by omega)]
    simp only [List.getElem?_replicate, List.length_take, List.length_drop, Option.getD_none, ite_eq_left_iff]
    omega

theorem slice_slice (bs : List Byte) (k n m : Nat) (h : k + n ≤ m) : slice (slice bs 0 m) k n = slice bs k n := by
  refine List.ext_getElem? fun i => ?_
  by_cases hi : i < n
  · rw [slice_getElem? _ _ _ _ hi, slice_getElem? _ _ _ _ hi, slice_getElem? _ _ _ _ (by omega)]; simp
  · rw [List.getElem?_eq_none (by rw [slice_length]; omega), List.getElem?_eq_none (by rw [slice_length]; omega)]

/-- A field of a frame is that of its body, one symbol on. -/
theorem frameField_frameOf (first : Nat) (body : List Byte) (bad : Bool) (k n : Nat) (h : k + n ≤ 252) :
    frameField (frameOf first body bad) (k + 1) n = leNat (slice body k n) := by
  rw [frameField]
  congr 1
  rw [← slice_slice body k n 252 h]
  refine List.ext_getElem? fun i => ?_
  by_cases hi : i < n
  · rw [slice_getElem? _ _ _ _ hi, slice_getElem? _ _ _ _ hi]
    have hl := slice_length body 0 252
    simp only [frameOf, leBytes, List.cons_append, List.nil_append]
    congr 2
    have : k + 1 + i = (k + i) + 1 := by omega
    rw [this, List.getElem?_cons_succ]
    simp only [List.append_assoc]
    rw [List.getElem?_append_left (by omega)]
  · rw [List.getElem?_eq_none (by rw [slice_length]; omega), List.getElem?_eq_none (by rw [slice_length]; omega)]

end Sys2Proof.Machine
end

