-- ==== Sys2Proof/Laws/Header.lean ====
section
/-! SUPPORT. Counting, error bits and interrupts write the page header only: every block register (offset 0x100 up) of
every page reads as before. And what one count does to its counter. -/

namespace Sys2Proof.Machine

open Sys2Proof

/-- `t` holds every block register as `s` does. -/
structure BlockSame (s t : State) : Prop where
  same : ∀ k, 64 ≤ k / 32 % 1024 → mget t.regs k = mget s.regs k

theorem BlockSame.refl (s : State) : BlockSame s s := ⟨fun _ _ => rfl⟩

theorem BlockSame.trans {s t u : State} (h : BlockSame s t) (k : BlockSame t u) : BlockSame s u :=
  ⟨fun j hj => (k.same j hj).trans (h.same j hj)⟩

theorem BlockSame.of_regs {s t : State} (h : t.regs = s.regs) : BlockSame s t := ⟨fun _ _ => by rw [h]⟩

theorem fputi_blockSame (s : State) (page : Nat) (f : Field) (i v : Nat)
    (h : (f.off + i * f.stride) / 4 < 64) (hl : f.lo < 32) : BlockSame s (fputi s page f i v) := by
  refine ⟨fun k hk => mget_mput_ne _ _ fun e => ?_⟩
  unfold fieldKey at e
  omega

theorem fput_blockSame (s : State) (page : Nat) (f : Field) (v : Nat) (h : f.off / 4 < 64) (hl : f.lo < 32) :
    BlockSame s (fput s page f v) := fputi_blockSame s page f 0 v (by simpa using h) hl

theorem bumpRaw_blockSame (s : State) (page n k : Nat) : BlockSame s (bumpRaw s page n k) := by
  unfold bumpRaw
  split
  · exact .refl s
  · dsimp only
    split
    · exact .of_regs rfl
    · refine .trans ?_ (fput_blockSame _ _ F.ERR_CNT_OVF _ (by decide) (by decide))
      refine .trans ?_ (fput_blockSame _ _ F.CNT_OVF_OVF _ (by decide) (by decide))
      exact .of_regs rfl

theorem sendMsix_blockSame (s : State) (link vf vector : Nat) : BlockSame s (sendMsix s link vf vector) := by
  unfold sendMsix
  split
  · exact .of_regs rfl
  · exact bumpRaw_blockSame ..

theorem routeIrq_blockSame (s : State) (page : Nat) : BlockSame s (routeIrq s page) := by
  unfold routeIrq
  dsimp only
  split
  · exact bumpRaw_blockSame ..
  · refine (bumpRaw_blockSame s pgIRQ 0 1).trans ?_
    split <;> first | exact .of_regs rfl | exact sendMsix_blockSame ..

theorem deliverIrq_blockSame (s : State) (page q : Nat) : BlockSame s (deliverIrq s page q) := by
  unfold deliverIrq
  split
  · exact .refl s
  · split
    · exact (bumpRaw_blockSame ..).trans (sendMsix_blockSame ..)
    · exact routeIrq_blockSame ..

theorem withIrq_blockSame (s : State) (page q : Nat) (g : State → State) : BlockSame (g s) (withIrq s page q g) := by
  unfold withIrq
  dsimp only
  split
  · exact deliverIrq_blockSame ..
  · exact .refl _

theorem raiseEvent_blockSame (s : State) (page : Nat) : BlockSame s (raiseEvent s page) :=
  (fput_blockSame s page F.IRQSTS_EVENT 1 (by decide) (by decide)).trans
    (withIrq_blockSame s page 0 fun s => fput s page F.IRQSTS_EVENT 1)

theorem errField_low (bit : Nat) : (errField bit).off / 4 < 64 ∧ (errField bit).lo < 32 := by
  unfold errField
  split <;> decide

theorem setErr_blockSame (s : State) (page bit : Nat) : BlockSame s (setErr s page bit) := by
  have h1 : BlockSame s (fput s page (errField bit) 1) :=
    fput_blockSame _ _ _ _ (errField_low bit).1 (errField_low bit).2
  unfold setErr
  dsimp only
  split
  · exact h1
  · exact h1.trans ((fput_blockSame _ page F.IRQSTS_ERR 1 (by decide) (by decide)).trans
      (withIrq_blockSame _ page 0 fun s => fput s page F.IRQSTS_ERR 1))

theorem bumpBy_blockSame (s : State) (page n k : Nat) : BlockSame s (bumpBy s page n k) := by
  unfold bumpBy
  dsimp only
  split
  · exact (bumpRaw_blockSame ..).trans
      ((fput_blockSame _ _ F.ERR_CNT_OVF _ (by decide) (by decide)).trans (setErr_blockSame ..))
  · exact bumpRaw_blockSame ..

theorem bump_blockSame (s : State) (page n : Nat) : BlockSame s (bump s page n) := bumpBy_blockSame ..

/-- A block register reads as before. -/
theorem BlockSame.fgeti {s t : State} (h : BlockSame s t) (page : Nat) (f : Field) (i : Nat)
    (hf : 256 ≤ f.off + i * f.stride ∧ f.off + i * f.stride < 4096 ∧ f.lo < 32) :
    fgeti t page f i = Machine.fgeti s page f i := by
  unfold Machine.fgeti
  rw [h.same _ (by unfold fieldKey; omega)]

section
variable (s : State) (page : Nat) (f : Field) (i : Nat)
  (hf : 256 ≤ f.off + i * f.stride ∧ f.off + i * f.stride < 4096 ∧ f.lo < 32)
include hf

theorem fgeti_bumpBy (p n k : Nat) : fgeti (bumpBy s p n k) page f i = fgeti s page f i := (bumpBy_blockSame ..).fgeti _ _ _ hf
theorem fgeti_bump (p n : Nat) : fgeti (bump s p n) page f i = fgeti s page f i := (bump_blockSame ..).fgeti _ _ _ hf
theorem fgeti_raiseEvent (p : Nat) : fgeti (raiseEvent s p) page f i = fgeti s page f i :=
  (raiseEvent_blockSame ..).fgeti _ _ _ hf
theorem fgeti_setErr (p b : Nat) : fgeti (setErr s p b) page f i = fgeti s page f i := (setErr_blockSame ..).fgeti _ _ _ hf
end

/-- One count, of a page whose counters are not frozen. -/
theorem counter_bumpRaw (s : State) (page n k : Nat) (h : fbit s page F.CTL_CNT_FREEZE = false) :
    counter (bumpRaw s page n k) page n = (counter s page n + k) % 2 ^ 64 := by
  unfold bumpRaw counter
  rw [if_neg (by simp [h])]
  dsimp only
  split <;> simp [mgetD, fput, forBits, fputi]

end Sys2Proof.Machine
end

