-- ==== Sys2Proof/Laws/Memory.lean ====
section
/-! SUPPORT. Memory: what a write leaves at each address, and that every memory operation keeps the canonical form. -/

namespace Sys2Proof.Machine

open Sys2Proof

theorem Memory.wf_iff (us : List (Nat × Nat × Nat)) (m : FMap Byte) :
    Memory.wf us m = true ↔ rising m = true ∧ ∀ e ∈ m, e.2 ≠ 0 ∨ (undefTag us e.1).isSome = true := by
  unfold Memory.wf
  rw [Bool.and_eq_true, List.all_eq_true]
  refine and_congr_right fun _ => forall_congr' fun e => imp_congr_right fun _ => ?_
  simp [bne_iff_ne]

theorem writeCell_wf (us : List (Nat × Nat × Nat)) (m : FMap Byte) (pa : Nat) (b : Byte) (h : Memory.wf us m = true) :
    Memory.wf us (writeCell us m pa b) = true := by
  rw [Memory.wf_iff] at h ⊢
  unfold writeCell
  split
  · exact ⟨rising_filter _ _ h.1, fun e he => h.2 e (List.mem_filter.1 he).1⟩
  · next hb =>
    refine ⟨rising_mput _ _ _ h.1, fun e he => ?_⟩
    rcases mem_mput he with rfl | he
    · by_cases hz : b = 0
      · refine .inr ?_
        simp [hz] at hb
        cases hu : undefTag us pa with
        | none => simp [hu] at hb
        | some x => rfl
      · exact .inl hz
    · exact h.2 e he

/-- Writing one byte keeps memory canonical. -/
theorem writeByte_wf (s : State) (pa : Nat) (b : Byte) (h : Memory.wf s.undefs s.mem = true) :
    Memory.wf (writeByte s pa b).undefs (writeByte s pa b).mem = true := writeCell_wf _ _ _ _ h

theorem writeBytes_wf (s : State) (pa : Nat) (bs : List Byte) (h : Memory.wf s.undefs s.mem = true) :
    Memory.wf (writeBytes s pa bs).undefs (writeBytes s pa bs).mem = true := by
  induction bs generalizing s pa with
  | nil => exact h
  | cons b t ih => exact ih _ _ (writeByte_wf s pa b h)

/-- Forgetting a range keeps memory canonical. -/
theorem makeUndef_wf (s : State) (lo hi : Nat) (h : Memory.wf s.undefs s.mem = true) :
    Memory.wf (makeUndef s lo hi).undefs (makeUndef s lo hi).mem = true := by
  rw [Memory.wf_iff] at h ⊢
  refine ⟨rising_filter _ _ h.1, fun e he => ?_⟩
  have hm := List.mem_filter.1 he
  refine (h.2 e hm.1).imp_right fun hu => ?_
  unfold undefTag at hu ⊢
  show ((((lo, hi, s.free) :: s.undefs).find? fun u => decide (u.1 ≤ e.1) && decide (e.1 < u.2.1)).map fun u => u.2.2).isSome = true
  rw [List.find?_cons]
  split
  · rfl
  · exact hu

theorem isSome_map_find? {β γ : Type} (l : List β) (p : β → Bool) (g : β → γ) :
    ((l.find? p).map g).isSome = true ↔ ∃ x ∈ l, p x = true := by
  rw [Option.isSome_map, List.find?_isSome]

/-- Zeroing a range keeps memory canonical. -/
theorem zeroRange_wf (s : State) (lo hi : Nat) (h : Memory.wf s.undefs s.mem = true) :
    Memory.wf (zeroRange s lo hi).undefs (zeroRange s lo hi).mem = true := by
  rw [Memory.wf_iff] at h ⊢
  refine ⟨rising_filter _ _ h.1, fun e he => ?_⟩
  have hm := List.mem_filter.1 he
  refine (h.2 e hm.1).imp_right fun hu => ?_
  have hout : e.1 < lo ∨ hi ≤ e.1 := by simpa [mkeep] using hm.2
  unfold undefTag at hu ⊢
  rw [isSome_map_find?] at hu ⊢
  obtain ⟨u, hmem, hu⟩ := hu
  simp only [Bool.and_eq_true, decide_eq_true_eq] at hu
  rcases hout with hlo | hhi
  · refine ⟨(u.1, min u.2.1 lo, u.2.2), ?_, by simp; omega⟩
    refine List.mem_flatMap.2 ⟨u, hmem, List.mem_append_left _ ?_⟩
    rw [if_pos (by omega)]
    exact List.mem_singleton.2 rfl
  · refine ⟨(max u.1 hi, u.2.1, u.2.2), ?_, by simp; omega⟩
    refine List.mem_flatMap.2 ⟨u, hmem, List.mem_append_right _ ?_⟩
    rw [if_pos (by omega)]
    exact List.mem_singleton.2 rfl

/-- A byte just written reads back, where its address is not in an undefined range or the byte is listed. -/
theorem readByte_writeByte_same (s : State) (pa : Nat) (b : Byte) : readByte (writeByte s pa b) pa = b := by
  unfold readByte writeByte writeCell blankByte
  split
  · next h =>
    simp only [Bool.and_eq_true, beq_iff_eq, Option.isNone_iff_eq_none] at h
    simp [mget_mdel, h.1, h.2]
  · simp

/-- A write leaves every other byte alone. -/
theorem readByte_writeByte_ne (s : State) {pa a : Nat} (b : Byte) (h : pa ≠ a) :
    readByte (writeByte s pa b) a = readByte s a := by
  have hm : mget (writeCell s.undefs s.mem pa b) a = mget s.mem a := by
    unfold writeCell
    split
    · simp [mget_mdel, h]
    · exact mget_mput_ne _ _ h
  have hb : blankByte (writeByte s pa b) a = blankByte s a := rfl
  show (mget (writeCell s.undefs s.mem pa b) a).getD (blankByte (writeByte s pa b) a) = _
  rw [hm, hb]
  rfl

theorem readByte_writeBytes_out (s : State) (pa a : Nat) (bs : List Byte) (h : a < pa ∨ pa + bs.length ≤ a) :
    readByte (writeBytes s pa bs) a = readByte s a := by
  induction bs generalizing s pa with
  | nil => rfl
  | cons b t ih =>
    simp only [List.length_cons] at h
    show readByte (writeBytes (writeByte s pa b) (pa + 1) t) a = _
    rw [ih _ _ (by omega), readByte_writeByte_ne _ _ (by omega)]

/-- Reset memory lists nothing. -/
theorem reset_memory_wf : Memory.wf State.reset.undefs State.reset.mem = true := rfl

end Sys2Proof.Machine
end

