-- ==== Sys2Proof/Laws/Writes.lean ====
section
/-! SUPPORT. Register writes: a requester that may write is let through, and nothing settles where nothing waits for a
Herd tick. -/

namespace Sys2Proof.Machine

open Sys2Proof

/-- The crook lets the requester through. -/
theorem guarded_of_rules {s : State} {src : Src} (h : Rules s src) (f : State → State) : guarded s src f = f s := by
  unfold guarded
  split
  · next i sec => simp [show crookOwner s = i + 1 from h.2]
  · rfl

theorem withSys_of_rules {s : State} {src : Src} (h : Rules s src) (f : State → State) : withSys s src f = f s := by
  unfold withSys
  simp [h.1, guarded_of_rules h]

theorem withPage_of_rules {s : State} {src : Src} (h : Rules s src) (page : Nat) (f : State → State) :
    withPage s src page f = f s := by
  unfold withPage
  simp [h.1, hasPage, guarded_of_rules h]

theorem writerOf_auth (s : State) (src : Src) : (writerOf s src).auth = authOf s src := by
  cases src <;> rfl

theorem Untimed.dueTicks {s : State} (h : Untimed s) : dueTicks s = [] := by
  obtain ⟨h1, h2, h3, h4, h5⟩ := h
  unfold Machine.dueTicks
  have : (List.range 32).filter (evtArmed s) = [] := by
    simp [evtArmed, h2]
  simp [h1, h3, h4, h5, this]

/-- Nothing settles where no tick for which something waits is reached. -/
theorem settleHerd_of_none {s : State} (h : (dueTicks s).filter (fun t => tickReached s t) = []) : settleHerd s = s := by
  unfold settleHerd settleFuel
  simp [h]

theorem settleHerd_untimed {s : State} (h : Untimed s) : settleHerd s = s :=
  settleHerd_of_none (by simp [h.dueTicks])

/-- A whole-word write to an existing leaf page by a requester that may write it. -/
theorem srcWrite_leaf {s : State} {src : Src} (h : Rules s src) {page off : Nat} (v : Nat) (hs : scrapped s = false)
    (hp : leafExists s page = true) (hg : groupOf page = none) (ho : off % 4 = 0) (hr : blkOf page ≠ 0x41 ∨ off < 0x100) :
    srcWrite s src page off 32 v = leafWrite s (writerOf s src) page off (v % 2 ^ 32) (2 ^ 32 - 1) false := by
  have ha : (writerOf s src).auth = .sys := (writerOf_auth ..).trans h.1
  have hw : regWrite s (writerOf s src) page off 32 v =
      leafWrite s (writerOf s src) page off (v % 2 ^ 32) (2 ^ 32 - 1) false := by
    unfold regWrite
    have : blkOf page = 0x41 → ¬ 0x100 ≤ off := by omega
    simp only [hs, pageExists, hp, ho]
    simp [pageWrite, hg, pageLeafWrite, wordAllowed, ha]
    intro h1 h2
    exact absurd h2 (this h1)
  unfold srcWrite
  split
  · exact hw
  · rw [guarded_of_rules h, hw]

/-- The header's words are the same on every page. -/
theorem wordFields_header (blk : Nat) {off : Nat} (h : off < 0xC0) : wordFields blk off = wordFields 0xFF off := by
  unfold wordFields
  simp [h]

/-- The fields that take a write only under a condition of their own chapter. -/
def gatedFields : List Field :=
  [F.CTX_CFG_FOLD, F.CTX_CFG_FOLD_VALID, F.FOLD_DIES_DIES, F.MEMMAP_CTL_KEY_FIXED, F.HOSTD_AUTH_SYS, F.HOSTD_AUTH_FOLD,
   F.HOSTD_AUTH_FOLD_VALID, F.HOSTL_CFG_CXL_EN, F.FLT_CTL_PKG_RESET, F.PKG_LCS_REQ_TARGET, F.PKG_LCS_REQ_GO,
   F.PKG_LCS_REQ_SVN_BUMP, F.HERD_TIME_LO_TIME_LO, F.HERD_TIME_HI_TIME_HI, F.CROOK_CTL_LEASE_MS]

theorem fieldOpen_sys {s : State} {w : Writer} {page : Nat} {f : Field} {bc : Bool} (hw : w.auth = .sys)
    (h : gatedFields.contains f = false) : fieldOpen s w page f bc = true := by
  simp only [gatedFields, List.contains_cons, List.contains_nil, Bool.or_false, Bool.or_eq_false_iff] at h
  unfold fieldOpen
  simp only [h, hw, Bool.or_false, Bool.false_eq_true, if_false, beq_self_eq_true, Bool.true_or, ite_self]

/-- A write with SYSTEM authority of a word whose fields take it: all open, none covered by an epoch, none locked. -/
theorem leafWrite_sys {s : State} {w : Writer} {page off v mask em : Nat} {bc : Bool} (fs : List Field) (hw : w.auth = .sys)
    (hfs : ((((wordFields (blkOf page) off).map (·.1)).filter fun f => hits f mask).filter fun f => f.acc != .ro && !f.hwRec) = fs)
    (ho : ∀ f ∈ fs, fieldOpen s w page f bc = true) (hc : ∀ f ∈ fs, coveredField f = false)
    (hl : pageLocked s page = false ∨ ∀ f ∈ fs, (f.acc == .rwl) = false) (hk : ¬ (page = pgMEMMAP ∧ off = 0x118))
    (he : ((fs.map fun f => fieldBits f &&& mask).foldl (· + ·) 0) = em) (h0 : em ≠ 0) :
    leafWrite s w page off v mask bc = pairWrite s w page off (presentedWord s page off v em) em := by
  have e1 : (fs.filter fun f => fieldOpen s w page f bc) = fs := List.filter_eq_self.2 ho
  have e2 : fs.filter coveredField = [] := List.filter_eq_nil_iff.2 (by simpa using hc)
  have e3 : (if pageLocked s page then fs.filter fun f => f.acc == .rwl else []) = [] := by
    rcases hl with h | h
    · simp [h]
    · have : (fs.filter fun f => f.acc == .rwl) = [] := List.filter_eq_nil_iff.2 (by simpa using h)
      simp [this]
  unfold leafWrite
  simp only [hfs, hw, bne_self_eq_false, Bool.false_and, List.filter_false, List.isEmpty_nil, if_true, Bool.not_false,
    Bool.true_and, e1, e2, ite_self, Bool.true_or, List.filter_true, e3, he, h0, if_false, hk]

/-- No pair reaches into the header. -/
theorem pairWrite_header {s : State} {w : Writer} {page off x em : Nat} (h : off < 0x100) :
    pairWrite s w page off x em = headerWrite s page off x em := by
  unfold pairWrite blockWrite
  rw [if_neg (by omega), if_neg (by omega), if_pos h]

end Sys2Proof.Machine
end

