-- ==== Sys2Proof/Tests/Slice0.lean ====
section
/-! SUPPORT. A witness for the hypotheses of each obligation that has any (`witness_<Name>…`: a small state, and operands at
which the hypotheses hold together), an ill-formed term for each check of WellFormed, and the spec's worked examples. -/

namespace Sys2Proof.Tests

open Sys2Proof Sys2Proof.Machine

set_option Elab.async false

/-- Set fields of pages. -/
def withF (s : State) (l : List (Nat × Field × Nat)) : State := l.foldl (fun s e => fput s e.1 e.2.1 e.2.2) s

/-- Fold 0 holds die 0 and context 0; both are enabled, and the die's stores are clear. -/
def stF : State := withF State.reset
  [(pgFOLD 0, F.FOLD_CTL_ENABLE, 1), (pgFOLD 0, F.FOLD_STS_ACTIVE, 1), (pgFOLD 0, F.FOLD_DIES_DIES, 1),
   (pgCTX 0, F.CTX_CFG_FOLD_VALID, 1), (pgCTX 0, F.CTX_CFG_ENABLE, 1), (pgSPAD 0, F.SPAD_STS_INIT_BUSY, 0)]

/-- A command's or descriptor's words: its opcode and, above, fields given by their lowest bits. -/
def wordOf (op : Nat) (fs : List (Nat × Nat)) : BitVec 512 :=
  BitVec.ofNat 512 (op + (fs.map fun e => e.2 * 2 ^ e.1).foldl (· + ·) 0)

/-- The one command of the tests. -/
def id0 : CmdId := ⟨0, 0, 0⟩

/-- A command that its unit has been granted. -/
def cmd0 (op : Nat) (fs : List (Nat × Nat)) : Cmd := { id := id0, word := wordOf op fs, phase := .granted }

/-- `s` with one command granted. -/
def stC (s : State) (op : Nat) (fs : List (Nat × Nat)) : State := { s with cmds := [cmd0 op fs] }

/-- A host's physical function, which has SYSTEM authority. -/
def sysSrc : Src := .pf 0

theorem rules_sys (s : State) : Rules s sysSrc := ⟨rfl, trivial⟩

/-- Segment 0 of the tests: virtual addresses 0 to 1 GiB - 1 lie in the first GiB of tier N. Segment 1: 1 GiB up lies in
C-die 0's stores below the keep region. Both are readable, writable and atomic; the others are invalid (R244). -/
def tblM : List Byte := leBytes 32 (0x3B + 0x3FFFF * 2 ^ 76 + tierNBase / 4096 * 2 ^ 140) ++
  leBytes 32 (0x23B + 0x40000000 + (0x40000 + 0x7BBF) * 2 ^ 76 + spadBase / 4096 * 2 ^ 140) ++ List.replicate 448 0

/-- Context 0's segment table as a stream holds it, its descriptors checked. -/
def tbl0 : SegTbl := ⟨0, tblM, List.replicate 16 0⟩

/-- `stF` with a GiB of tier N, all of it fold 0's, and these streams holding context 0's segment table. -/
def stM (xs : List StreamId) : State :=
  xs.foldl (fun s x => putStream s x { cache := [tbl0] }) (withF stF
    [(pgMEMMAP, F.MEMMAP_STS_READY, 1), (pgMEMMAP, F.MEMMAP_STS_LIVE, 1),
     (pgFOLD 0, F.FOLD_REGION_LO_VALID, 1), (pgFOLD 0, F.FOLD_REGION_LO_BASE, tierNBase / 2 ^ 21),
     (pgFOLD 0, F.FOLD_REGION_HI_LIMIT, tierNBase / 2 ^ 21 + 511),
     (pgCTX 0, F.CTX_SEGTBL_HI_BASE_HI, tierNBase / 2 ^ 32)])

/-- A command that waits for its queue, or does some other thing. -/
def cmdP (ph : Phase) (op : Nat) (fs : List (Nat × Nat)) : Cmd := { cmd0 op fs with phase := ph }

/-- A write of a stream that was done, and a read that met no poison. -/
def wrote {α : Type} (r : State × Option (Except (List Nat) α)) : Bool := match r.2 with | some (.ok _) => true | _ => false
def gotBytes (r : State × Option (Except (List Nat) (List Byte × Bool))) : Option (List Byte) :=
  match r.2 with | some (.ok (bs, false)) => some bs | _ => none

/-- A command that ended with a next state: that state; else reset. -/
def nextOf (i : Instr) (s : State) : State := match exec i s with | .next t => t | _ => State.reset

theorem witness_StepRunsFrontCommand :
    State.pending { State.reset with pending := [.hourTick, .capApply] } = [.hourTick, .capApply] ∧
      State.reset.pending = [] := by decide

theorem witness_StepKeepsQueueAndMemory : let s := { State.reset with pending := [.hourTick] }
    queueWf s = true ∧ Memory.wf s.undefs s.mem = true ∧ (match step s with | .next _ => true | _ => false) = true := by
  decide +kernel

theorem witness_HeaderWritesAct : Rules State.reset sysSrc ∧ scrapped State.reset = false ∧
    leafExists State.reset (pgHUB 3) = true ∧ groupOf (pgHUB 3) = none ∧ pgHUB 3 ≠ pgMEMMAP ∧ Untimed State.reset :=
  ⟨rules_sys _, by unfold Untimed; decide +kernel⟩

theorem witness_RegisterWriteAndLock : Rules State.reset sysSrc ∧ scrapped State.reset = false ∧ Untimed State.reset ∧
    fbit State.reset (pgHUB 3) F.CTL_LOCK = false ∧ fbit State.reset pgPKG F.CTL_CNT_FREEZE = false ∧
    fbit (fput State.reset (pgHUB 3) F.CTL_LOCK 1) (pgHUB 3) F.CTL_LOCK = true :=
  ⟨rules_sys _, by unfold Untimed; decide +kernel⟩

theorem witness_ReadsLatchAndAnswer : let s := fput State.reset (pgHUB 0) F.CNT_SNAP_HELD 1
    authOf s sysSrc = .sys ∧ scrapped s = false ∧ leafExists s (pgHUB 0) = true ∧ groupOf (pgHUB 0) = none ∧
    (groupOf (pageOf 0 0xFFD)).isSome = true ∧ fbit s (pgHUB 0) F.CNT_SNAP_HELD = true ∧ fbit s (pgHUB 1) F.CNT_SNAP_HELD = false ∧ leafExists s (pgHUB 1) = true ∧
    groupOf (pgHUB 1) = none ∧ pageExists s (pageOf 0xEE 0) = false := by decide +kernel

theorem witness_PairGroupAndPodWrites : Rules State.reset sysSrc ∧ scrapped State.reset = false ∧ Untimed State.reset ∧
    tickReached State.reset 1 = false := ⟨rules_sys _, by unfold Untimed; decide +kernel⟩

/-- A packet for output 0 of tile 0. -/
def pkt0 (id : Nat) (urgent : Bool) : Packet :=
  { id := id, cls := .request, fold := some 0, src := 0, destTile := 0, destOut := 0, bytes := 64, poison := false
    urgent := urgent }

/-- Tile 0's hub holds packet 1, which is not urgent, and packet 2, which is. -/
def stHub : State := { State.reset with hubs := [(0, { pkts := [{ pkt := pkt0 1 false, input := 1, since := 0 },
  { pkt := { pkt0 2 true with src := 1 }, input := 2, since := 3, urgentAt := some 4 }] })] }

theorem witness_HubPacketsWaitAndEscalate :
    ((getHub stHub 0).pkts.any fun x => x.pkt.id == 9) = false ∧ portDead stHub 0 7 = false ∧
    hubRoom stHub 0 7 .request = true ∧ (getHub stHub 0).clk ≤ 5000 ∧
    ((getHub stHub 0).pkts.find? fun y => y.pkt.id == 1).map (fun x => (x.pkt.urgent, x.since)) = some (false, 0) ∧
    ((getHub stHub 0).pkts.find? fun y => y.pkt.id == 2).map (·.urgentAt) = some (some 4) ∧
    2 ∉ (getHub stHub 0).stalled ∧ bridgeIsLost stHub 0 3 = false := by decide +kernel

/-- An input whose buffers of a class are all in use. -/
theorem witness_HubPacketsWaitAndEscalate_full : ∃ s : State, hubRoom s 0 1 .request = false := by
  let x : HubPkt := { pkt := pkt0 1 false, input := 1, since := 0 }
  let h : HubSt := { pkts := List.replicate (Config.hubBuffers 1 0 + 1) x }
  refine ⟨{ State.reset with hubs := [(0, h)] }, ?_⟩
  have e : ((List.replicate (Config.hubBuffers 1 0 + 1) x).filter fun x => x.input == 1 && x.pkt.cls == .request).length =
      Config.hubBuffers 1 0 + 1 := by
    rw [List.filter_eq_self.mpr (by intro a ha; rw [List.eq_of_mem_replicate ha]; rfl), List.length_replicate]
  simp [hubRoom, hubHeld, getHub, mgetD, mget, classRank, h, e]

theorem witness_HubOutputGrantsOne : outputFree stHub 0 0 9 = true ∧ hubReady stHub 0 0 9 ≠ [] ∧
    (∀ x ∈ hubReady stHub 0 0 9, hubFold x < 17) ∧
    (hubOldest ((hubReady stHub 0 0 9).filter (·.pkt.urgent))).map (·.pkt.id) = some 2 := by decide +kernel

/-- Array 0 of pen 0 of die 0. -/
def u0 : ArrayUnit := ⟨0, 0, 0, false, 0⟩

/-- A pass of one step and one vector, in BF16, with what `fs` adds. -/
def iss0 (fs : List (Nat × Nat)) : Issue := ⟨wordOf 0x50 ([(14, 2), (19, 2)] ++ fs), .cmd id0, 0, 0, 0, none, 0⟩

/-- The array `u0` of `stF` with these passes and FIFO. -/
def stArr (a : ArrSt) : State := putArr stF u0 a

theorem witness_PassesAcceptedStagedAndCompleted :
    unitOk u0 = true ∧ unitNext (stArr { fifo := [iss0 []] }) u0 = some (iss0 []) ∧
    (getCtl stF 0 0 0).checking = false ∧ arrStoreBusy stF u0 = false ∧ portBad (getCtl stF 0 0 0) u0 (iss0 []) = false ∧
    passCheck (stArr { fifo := [iss0 []] }) 0 0 (iss0 []) = none ∧ fenced stF ((ctxFold stF 0).getD 0) = false ∧
    arrStopped (stArr { passes := [{ id := 0, iss := iss0 [], fold := 0 }] }) u0 = false ∧
    fetchFor [{ id := 0, iss := iss0 [], fold := 0 }] = some { id := 0, iss := iss0 [], fold := 0 } ∧
    setNeeded (getArr (stArr { staging := some {} }) u0) 0 = false ∧
    (∀ q ∈ (getArr (stArr { staging := some {} }) u0).passes, q.stop = none) ∧
    31 + 1 = side u0.quarter ∧ allUpdated { id := 0, iss := iss0 [], fold := 0, updates := 1 } = true ∧
    allDrained { id := 0, iss := iss0 [], fold := 0, updates := 1 } = true := by decide +kernel

/-- A pass whose set is in bank 0 and whose wavefront may enter. -/
def stWave : State := stArr {
  passes := [{ id := 0, iss := iss0 [], fold := 0, fetchStep := 1 }]
  bankLast := some 0
  bank0 := { forPass := 0, forStep := 0, rows := 32, row0 := 0 }
  stream := [⟨0, 0, 0, [], [], false⟩] }

theorem witness_WavefrontsEnterAndUpdate :
    arrStopped stWave u0 = false ∧ (getArr stWave u0).lastEnter = none ∧
    (∀ q ∈ (getArr stWave u0).passes, q.stop = none) ∧
    enterNext [] (getArr stWave u0).passes = some ({ id := 0, iss := iss0 [], fold := 0, fetchStep := 1 }, []) ∧
    bankFor (getArr stWave u0) { id := 0, iss := iss0 [], fold := 0, fetchStep := 1 } 40 = some 0 ∧
    bankFor (getArr (stArr {}) u0) { id := 0, iss := iss0 [], fold := 0, fetchStep := 1 } 40 = none ∧
    ((getArr stWave u0).stream.find? fun v => v.pass == 0 && v.s == 0 && v.i == 0) = some ⟨0, 0, 0, [], [], false⟩ ∧
    rowUndrained [] 0 = false ∧ arrStoreBusy stWave u0 = false ∧ (getArr stWave u0).flaws = [] ∧
    (match execWavefrontEnter u0 40 stWave with
      | .next t => decide ((getArr t u0).waves.map (·.entry) = [40]) && ((getArr t u0).passes.any fun p => p.id == 0)
      | _ => false) = true := by decide +kernel

theorem witness_DrainWritesOneRow : (let p : Pass := { id := 0, iss := iss0 [(75, 1), (78, 0)], fold := 0, updates := 1 }
    let s := stArr { passes := [p] }
    let e := drainEncode s p.iss p.drained (getRow (getArr s u0) false (pMode p.iss) (pAccBase p.iss))
    let pa := (drainStore 0 0 0 p.iss).1 + dbits p.iss 483 464 * 16
    drainNext (getArr s u0).passes == some p && !arrStopped s u0 && (getArr s u0).flaws.isEmpty &&
      !storeBusy s 0 ((pa - spadBase) % 0x8000000) (drainRowBytes p.iss) && e.1.length == drainRowBytes p.iss &&
      !inKeep ((pa - spadBase) % 0x8000000) e.1.length &&
      ((getArr (nextOf (.drainRow u0) s) u0).passes.map (·.drained)) == [1]) = true := by decide +kernel

/-- The same row, from a row of ones with two places that do not meet: its elements and scales stand in the store. -/
theorem test_drain_row : (let p : Pass := { id := 0, iss := iss0 [(75, 1), (78, 0), (464, 16), (484, 64)], fold := 0, updates := 1 }
    let s := stArr { passes := [p], rows := [(0, { cells := List.replicate 64 { acc := 0x3F800000 } })] }
    let pa := (drainStore 0 0 0 p.iss).1 + 16 * 16
    readByte (nextOf (.drainRow u0) s) (pa + 3) == 0x3F) = true := by decide +kernel

theorem witness_ArrayModesFreezesAndFaults : Rules stF sysSrc ∧ leafExists stF (pgMXA 15 8 7) = true ∧
    (∀ u ∈ unitsOf 0 0 0, (getArr stF u).passes = []) ∧ heldByList stF 0 0 0 = false ∧ arrFrozen stF 0 0 0 = false ∧
    (getCtl (putCtl stF 0 0 0 { frozen := true }) 0 0 0).frozen = true ∧ arrayExists stF.fuse.gradeB 0 = true ∧
    (getCtl stF 0 0 0).offline = false ∧ checkRuns (putCtl stF 0 0 0 { checking := true }) 0 0 0 = true ∧
    arrStopped (putCtl stF 0 0 0 { checking := true }) u0 = false :=
  ⟨rules_sys _, by decide +kernel⟩

/-- A stopped pass whose save area is at 0x100000. -/
def pStop : Pass := { id := 0, iss := iss0 [], fold := 0, fetchStep := 1, entered := 0, stop := some (0x100000, 0) }

def stStop : State := putArr (stM [.array 0 0 0]) u0 { passes := [pStop] }

/-- `s` with no line counted yet as read at a home (R292), so that a first read of each is a miss. -/
def untouched (s : State) : State := { s with coh := { s.coh with touched := [] } }

/-- The state after its save. -/
def stSaved : State := untouched (nextOf (.preemptSave u0) stStop)

theorem witness_PreemptedPassesSave : unitOk u0 = true ∧ arrStopped stStop u0 = false ∧
    ((getArr stStop u0).passes.find? fun p => p.stop.isSome) = some pStop ∧ (getArr stStop u0).waves = [] ∧
    pStop.dead = false ∧
    (let r := saveGo u0 0 (passSlot stStop u0 pStop).1 (savePieces stStop u0 pStop).2 (savePieces stStop u0 pStop).1
     wrote r && wrote (saveGo u0 0 (passSlot stStop u0 pStop).1 [(0, resumeRecord u0 pStop true, false)] r.1)) = true := by
  decide +kernel

theorem witness_PreemptedPassesResume : (match unitNext stSaved u0 with
    | some x => match x.slot with
      | some (slot, []) =>
        let r1 := slotRead stSaved u0 .ok x.ctx slot 128
        let r2 := slotRead r1.1 u0 .ok x.ctx (slot + 0x5000) (pVectors x * 128)
        let r3 := slotRead r2.1 u0 .ok x.ctx (slot + 0x1000) (pVectors x * 8)
        ((gotBytes r1).map recordBad == some false) && (gotBytes r2).isSome && (gotBytes r3).isSome &&
          pAccBase x == 0 && pMode x == 0 && !pReuse x && !(getCtl stSaved 0 0 0).checking &&
          !arrFrozen stSaved 0 0 0 && !clocksStopped stSaved && !(getCtl stSaved 0 0 0).offline &&
          !(getCtl stSaved 0 0 0).quarter && !rowsInUse (getArr stSaved u0) false x &&
          decide ((getArr (nextOf (.resumeInPlace ⟨u0, .ok⟩) stSaved) u0).passes.map (fun p => (p.id, p.i, p.entered, p.resumed)) =
            [(0, 0, 0, true)])
      | _ => false
    | none => false) = true := by decide +kernel

/-- Core 0 of pen 0 of die 0, and `stF` with it running a program. -/
def k0 : PrepCore := ⟨0, 0, 0⟩
def stRun (x : PrepSt) : State := putCore (fput stF (corePage k0) F.PREP_STS_RUNNING 1) k0 x

theorem runs_k0 : Runs (stRun {}) k0 := by unfold Runs; decide +kernel

theorem witness_PenRunStartsCoresAndTheyHalt : let s := stC stF 0x10 [(128, 5), (192, 1), (209, 0), (160, 1), (256, 7)]
    let x := cmd0 0x10 [(128, 5), (192, 1), (209, 0), (160, 1), (256, 7)]
    findCmd s id0 = some x ∧ cOp x = 0x10 ∧ ctxFold s 0 = some 0 ∧ fenced s 0 = false ∧ foldHasDie s 0 (cDie x) = true ∧
    reservedOk x.word.toNat [(131, 128), (177, 160), (209, 192), (233, 224), (319, 256), (383, 320), (447, 384), (511, 448)] = true ∧
    cbits x 131 128 = 5 ∧ cbits x 177 160 ≤ cbits x 209 192 ∧ cbits x 209 192 ≤ cbits x 177 160 + cbits x 233 224 ∧
    storeBusy s (cDie x) (0x4800000 + cPen x * 0x400000) 1 = false ∧
    (cbits x 177 160 + cbits x 233 224 + 1) * 16 ≤ 0x400000 ∧ coresBusy s (cDie x) (cPen x) (cbits x 131 128) = false ∧
    (paRead s 3 (penStorePa (cDie x) (cPen x) + cbits x 177 160 * 16) ((cbits x 233 224 + 1) * 16)).2.poison = false ∧
    getReg (getCore (nextOf (.penRun id0) s) ⟨0, 0, 2⟩) 0 = 7 := by decide +kernel

theorem reaches_k0 (off n : Nat) (h : (coreReaches k0 off n && !inKeep off n && !storeBusy (stRun {}) 0 off n &&
    !storeBusy (stRun {}) 0 (off + n - 1) 1) = true) : Reaches (stRun {}) k0 off n := by
  simp only [Bool.and_eq_true, Bool.not_eq_true'] at h
  exact ⟨h.1.1.1, h.1.1.2, h.1.2, h.2⟩

theorem whole_stRun (off n : Nat) : Whole (stRun {}) 0 off n := by
  intro g _ _
  rfl

theorem witness_CoreAccessesReachTheirStores : (getCore (stRun {}) k0).regs.length = 32 ∧ Reaches (stRun {}) k0 0x6C00000 8 ∧
    Whole (stRun {}) 0 0x6C00000 8 ∧ coreReaches k0 0x800000 8 = false :=
  ⟨by decide +kernel, reaches_k0 _ _ (by decide +kernel), whole_stRun _ _, by decide +kernel⟩

theorem witness_CoreIssuesAndReadsCompletions :
    (getCore (stRun {}) k0).reserved + (getCore (stRun {}) k0).cpl.length < 32 ∧
    (getArr (stRun {}) u0).fifo.length < 4 ∧
    (pushIssue (stRun {}) 0 0 .hatch ⟨0, .core k0, 0, 0, 0, none, 0⟩).isSome = true ∧
    4 ≤ (getArr (putArr (stRun {}) u0 { fifo := List.replicate 4 (iss0 []) }) u0).fifo.length ∧
    32 ≤ (getCore (stRun { reserved := 32 }) k0).reserved ∧
    (getCore (stRun { cpl := [List.replicate 16 1] }) k0).cpl = List.replicate 16 1 :: [] := by decide +kernel

theorem witness_VectorInstructionsWorkLaneByLane : Runs (stRun {}) k0 ∧
    ((Instr.vadd k0 1 2 3, fp32Add) ∈ [(Instr.vadd k0 1 2 3, fp32Add), (.vsub k0 1 2 3, fp32Sub)]) :=
  ⟨runs_k0, List.mem_cons_self⟩

theorem witness_VectorReduceTransposeLoadStore : (getVreg (stRun {}) k0 1).length = 32 ∧ vecFmtOk 2 0 = true ∧
    blockFmtOk 10 0 = true ∧ fmtKnown 2 = true ∧ isBlock 2 = false ∧ coreReaches k0 0 (vecBytes 2) = true ∧
    coreReaches k0 0x1000 (vecScales 10) = true ∧ poisonIn (stRun {}) (corePa k0 0) (vecBytes 2) = false ∧
    (({ tensor := 0, purpose := 0, coord := 0 } : SrKey).coord + 31 < 2 ^ 56) ∧
    2 ^ 56 ≤ ({ tensor := 0, purpose := 0, coord := 2 ^ 56 } : SrKey).coord + 31 := by decide +kernel

/-- A hatch descriptor of one row of one FP16 weight in the pen store and one vector. -/
def hx (fs : List (Nat × Nat)) : Issue := ⟨wordOf 0x51 ([(12, 2), (17, 2), (22, 1)] ++ fs), .cmd id0, 0, 0, 0, none, 0⟩
def hr : HatchRun := { iss := hx [], fold := 0, vecs := [[0, 0]], vscales := [[]], vpoison := [false] }

theorem witness_HatchRunsItsDescriptor : let s := putHatch stF 0 0 { fifo := [hx []] }
    let t := putHatch stF 0 0 { run := some hr }
    let m := putHatch stF 0 0 { run := some { hr with iss := hx [(48, 200)] } }
    clocksStopped s = false ∧ dutyFrozen t 0 = false ∧ dutyFrozen (putCtl t 0 0 0 { frozen := true }) 0 = true ∧
    (getHatch s 0 0).fifo = hx [] :: [] ∧ (getHatch s 0 0).run = none ∧
    storeBusy s 0 0x4800000 1 = false ∧ hatchOutBusy t 0 0 hr = false ∧ hatchCheck s 0 (hx []) = none ∧ fenced s 0 = false ∧
    ((hatchStart s 0 0).hatches == s.hatches) = false ∧ (getHatch t 0 0).run = some hr ∧
    gotBytes (hatchRead t 0 0 (hx []) 0 2 .ok) = some [0, 0] ∧ rowBytes (hFmtW (hx [])) (hK (hx [])) = 2 ∧ hN (hx []) = 1 ∧
    gotBytes (hatchRead t 0 0 (hx []) 0 0 .ok) = some [] ∧ rowBytes (hFmtW (hx [(48, 200)])) (hK (hx [(48, 200)])) = 402 ∧
    gotBytes (hatchRead m 0 0 (hx [(48, 200)]) 0 256 .ok) = some (List.replicate 256 0) ∧ hN (hx [(64, 1)]) = 2 ∧
    (match (hatchRead t 0 0 (hx [(22, 0)]) 0x7BC0000 2 .ok).2 with | some (.error _) => false | _ => true) = true ∧
    (getHatch (nextOf (.hatchWeightLine 0 0 .ok) t) 0 0).run = none := by decide +kernel

/-- A pass or hatch descriptor in pen store 0, at its first byte. -/
def stDesc (op : Nat) (fs : List (Nat × Nat)) : State :=
  storeBytes (stC stF 0x11 []) (penStorePa 0 0) (leBytes 64 (wordOf op fs).toNat) false

theorem witness_ListsAreCheckedAndIssuedInOrder : let s := stDesc 0x51 [(12, 2), (17, 2), (22, 1)]
    let b := stDesc 0x51 [(11, 1)]
    let x := cmd0 0x11 []
    findCmd s id0 = some x ∧ cOp x = 0x11 ∧ ctxFold s 0 = some 0 ∧ fenced s 0 = false ∧ foldHasDie s 0 (cDie x) = true ∧
    reservedOk x.word.toNat [(145, 128), (171, 160)] = true ∧ mget s.lists 0 = none ∧
    storeBusy s 0 0x4800000 1 = false ∧ (paRead s 4 (penStorePa 0 0) 64).2.poison = false ∧
    listCheck 0 0 (listOf s id0 x) (paRead s 4 (penStorePa 0 0) 64).1 = none ∧
    listCheck 0 0 (listOf b id0 x) (paRead b 4 (penStorePa 0 0) 64).1 = some (0, stBAD) ∧
    (match mget (nextOf (.descList id0) s).lists 0 with
      | some l => l.next == 0 && l.descs.length == 1 && (l.results.any fun r => r.1 == 0) == false &&
          (pushIssue (nextOf (.descList id0) s) 0 0 .hatch ⟨lget l.descs 0 0, .list 0 0, 0, 0, l.gen, none, 0⟩).isSome &&
          (nextOf (.listIssueDesc 0 0) (nextOf (.descList id0) s)).hatches.length == 1
      | none => false) = true := by decide +kernel

theorem witness_CompletionsAndTallies : let s := stC stF 0x21 [(10, 1), (64, 5), (128, 3), (192, 9)]
    (s.cmds.map (·.phase)) = [.granted] ∧ findCmd s id0 = some (cmd0 0x21 [(10, 1), (64, 5), (128, 3), (192, 9)]) ∧
    (getTally s 0 0).gen = cGen (cmd0 0x21 [(10, 1), (64, 5), (128, 3), (192, 9)]) ∧
    (getTally s 0 0).gen ≠ cGen (cmd0 0x21 [(16, 1)]) ∧ reservedOk (wordOf 0 []).toNat [] = true ∧
    ctxFold s 0 = some 0 ∧ fenced s 0 = false ∧
    reservedOk (wordOf 0x20 [(128, 3), (192, 9)]).toNat [(133, 128), (255, 192)] = true ∧
    reservedOk (wordOf 0x21 [(10, 1), (64, 5), (128, 3), (192, 9)]).toNat [(133, 128), (255, 192)] = true ∧
    reservedOk (wordOf 0x22 [(128, 3), (192, 9), (256, 1)]).toNat [(133, 128), (255, 192), (263, 256)] = true ∧
    (getTally (nextOf (.tallyAdd id0) s) 0 0).val = 5 ∧ (getTally (nextOf (.tallyAdd id0) s) 0 3).val = 9 := by decide +kernel

/-- A TALLY_WAIT at the head of its queue, for tally 3 to reach 9. -/
def stTW : State := { stF with cmds := [cmdP .head 0x20 [(128, 3), (192, 9)]] }

theorem witness_CompletionsAndTallies_release : (let x := cmdP .head 0x20 [(128, 3), (192, 9)]
    findCmd stTW id0 = some x ∧ x.failed = none ∧ cOp x = 0x20 ∧ fenceOk stTW x = true ∧
    cbits x 255 192 ≤ (BitVec.ofNat 64 ((getTally stTW 0 (cbits x 133 128)).val.toNat + 9)).toNat ∧
    ((findCmd (nextOf (.tallyAddReg sysSrc 0 3 9) stTW) id0).map (·.met)) = some true ∧
    ((findCmd (nextOf (.tallyAddReg sysSrc 0 3 8) stTW) id0).map (·.met)) = some false) := by decide +kernel

/-- A RETIRE or GEN_FENCE of die 0's group. -/
def genFs : List (Nat × Nat) := [(128, pageOf 0x20 0xF00), (160, 1)]

theorem witness_GenerationAndPreemptionCommands :
    let x := cmd0 0x29 genFs
    let s := stC stF 0x29 genFs
    let p : Pass := { id := 0, iss := iss0 [(24, 31), (32, 255)], fold := 0, entered := 0 }
    let v := withF (putArr (stC stF 0x18 []) u0 { passes := [p] }) [(pgCTX 0, F.CTX_SAVE_HI_SAVE_VALID, 1)]
    findCmd s id0 = some x ∧ reservedOk x.word.toNat [(147, 128), (167, 160)] = true ∧ genGroup x = some (0, none) ∧
    reservedOk (wordOf 0x28 genFs).toNat [(147, 128), (167, 160)] = true ∧ foldHasDie s 0 0 = true ∧ cbits x 167 160 ≠ cGen x ∧
    findCmd v id0 = some (cmd0 0x18 []) ∧ quarterBad (cmd0 0x18 []) = false ∧ arrayExists v.fuse.gradeB 0 = true ∧
    cmdUnit (cmd0 0x18 []) = u0 ∧ passInFlight (getArr v u0) = some p ∧ p.iss.ctx = 0 ∧
    fbit v (pgCTX 0) F.CTX_SAVE_HI_SAVE_VALID = true ∧ 4096 < pSteps p.iss * pVectors p.iss - p.entered + tailOf false := by decide +kernel

theorem witness_GenerationAndPreemptionCommands_resume :
    let w := putStream { stSaved with cmds := [cmd0 0x19 [(192, 0x100000)]] } (.queue 0 0) { cache := [tbl0] }
    (let r := streamRead w (.queue 0 0) {} 0 .rd .ok [(0x100000, 128)] [] false
     match gotBytes r with
     | some b => !recordBad b && !resumeState r.1 id0 u0 b ⟨recordDesc b, .cmd id0, 0, 0, 0, some (0x100000, b), 0⟩ &&
         decide ((getArr r.1 u0).fifo.length < fifoDepth) && ctxFold r.1 0 == some 0 && !fenced r.1 0
     | none => false) = true := by decide +kernel

/-- Queue 0 of context 0 enabled, its tail after one entry. -/
def stQ : State :=
  { fputi (stM [.queue 0 0]) (pgCTX 0) F.QCFG_ENABLE 0 1 with queues := [(0, { tail := 1 })] }

theorem witness_QueueRegistersAct : let s := stQ
    let h : State := { stQ with cmds := [cmdP .done 0 []], queues := [(0, { tail := 1, held := some (List.replicate 16 0) })] }
    (1 + 65536 - fgeti s (pgCTX 0) F.QSTS_HEAD 0) % 65536 ≤ ringSize s 0 0 ∧
    ringSize s 0 0 < (17 + 65536 - fgeti s (pgCTX 0) F.QSTS_HEAD 0) % 65536 ∧ (getQueue s 0 0).held = none ∧
    (getQueue h 0 0).held = some (List.replicate 16 0) ∧ oldestCmd h 0 0 = some (cmdP .done 0 []) ∧
    wrote (streamWrite (fputi h (pgCTX 0) F.QSTS_CPL_ERR 0 0) (.queue 0 0) {} 0 .wr false .ok [(0, 16)] (List.replicate 16 0) false) = true ∧
    authOf s (.pf 0) = .sys ∧
    (let a := fputi { stQ with cmds := [cmdP .ready 0 []] } (pgCTX 0) F.QCFG_AGE_LIMIT 0 5
     queueHead a 0 0 = some (cmdP .ready 0 []) ∧ fgeti a (pgCTX 0) F.QCFG_AGE_LIMIT 0 = 5) := by decide +kernel

theorem witness_QueuesFetchDispatchGrantPost : let s := stQ
    let d : State := { stQ with cmds := [cmdP .head 0x10 []] }
    let g : State := { stQ with cmds := [cmdP .ready 0x10 []] }
    let p : State := { stQ with cmds := [cmdP .done 0x10 []] }
    ctxFold s 0 = some 0 ∧ foldFetches s 0 = true ∧ fbit s (pgCTX 0) F.CTX_CFG_ENABLE = true ∧
    fbiti s (pgCTX 0) F.QCFG_ENABLE 0 = true ∧ queueHead s 0 0 = none ∧ (getQueue s 0 0).tail = 1 ∧
    fgeti s (pgCTX 0) F.QSTS_HEAD 0 = 0 ∧
    gotBytes (streamRead s (.queue 0 0) {} 0 .rd .ok [(0, 64)] [] false) = some (List.replicate 64 0) ∧
    queueHead d 0 0 = some (cmdP .head 0x10 []) ∧ postRoom d 0 0 = true ∧ fenceOk d (cmdP .head 0x10 []) = true ∧
    badHead (cmdP .head 0x10 []) = false ∧ findCmd d id0 = some (cmdP .head 0x10 []) ∧
    unitHeads g (.pen 0 0) = [cmdP .ready 0x10 []] ∧ oldestCmd p 0 0 = some (cmdP .done 0x10 []) ∧
    wrote (streamWrite p (.queue 0 0) {} 0 .wr false .ok [(0, 16)] (cplRecord (cmdP .done 0x10 [])) false) = true := by decide +kernel

/-- A request of 8 B at a store's port. -/
def req0 (off : Nat) (w : Option (List Byte)) (view : Nat) : SpadReq :=
  ⟨.prep 0, 0, off, 8, w, view, false, false, .clean, 0⟩

theorem witness_StorePortPerformsAccesses : let s := stF
    let l := putSpad stF 0 81 { locked := some (req0 8 (some (List.replicate 8 1)) 1) }
    (getSpad s 0 81).locked = none ∧ (getSpad s 0 81).rest = [] ∧ (req0 8 none 0).off % 256 + 8 ≤ 256 ∧
    inKeep (reqOff 81 (req0 8 none 0)) 8 = false ∧ flawsIn (getSpad s 0 81) (reqOff 81 (req0 8 none 0)) 8 = [] ∧
    poisonedIn s (aperPa 0 (reqOff 81 (req0 8 none 0))) 8 = [] ∧ reqLocked (req0 8 (some (List.replicate 8 1)) 1) = true ∧
    inKeep (reqOff 81 (req0 0xFC0000 none 0)) 8 = true ∧ keepAllows (spadClass (.prep 0)) false = false ∧ 0xFC0000 + 8 ≤ storeSize 81 ∧
    fbit s (pgSPAD 0) F.SPAD_STS_KEEP_WIPING = false ∧
    (getSpad l 0 81).locked = some (req0 8 (some (List.replicate 8 1)) 1) ∧
    (let m := putSpad stF 0 81 { flaws := [(storeOff 81 / 8 + 7, .met)] }
     mget (getSpad m 0 81).flaws (storeOff 81 / 8 + 7) = some .met ∧ storeBusy m 0 ((storeOff 81 / 8 + 7) * 8) 8 = false) ∧
    storeBusy s 0 (storeOff 81 + (getSpad s 0 81).scrub * 256) 256 = false ∧
    fbit (fput s (pgSPAD 0) F.SPAD_ARB_SCRUB_EN 1) (pgSPAD 0) F.SPAD_ARB_SCRUB_EN = true := by decide +kernel

theorem witness_StoresClearAndKeepRegionsWipe : 
    dieRailUp (fput State.reset pgPKG F.PKG_RAILS_IN_WINDOW 0x80) 0 = true ∧
    ∀ e, e < 16 → (getSpad (fput State.reset pgPKG F.PKG_RAILS_IN_WINDOW 0x80) e 81).locked = none := by decide +kernel

/-- `stM` with channel 0 alone live, whose stack is cool. -/
def stN : State := { stM [] with memc := { State.reset.memc with live := [0] } }

/-- A read of 8 B of line 0 of tier N, at hub input 3. -/
def acc0 : MemAccess := ⟨3, tierNBase, 8, none, false, some 0, false⟩

theorem witness_MemoryControllersAccess : accFits stN 0 acc0 = true ∧ memcWaiting stN 0 = [] ∧ accFold acc0 < 17 ∧
    fget (fput stN (pgMEMC 0) F.MEMC_THERM_LEVEL 3) (pgMEMC 0) F.MEMC_THERM_LEVEL = 3 ∧ chanOf stN tierNBase = some (0, 0, 0) ∧
    fget stN (pgMEMC 0) F.MEMC_THERM_LEVEL ≠ 3 ∧ chanBad stN 0 = false ∧ poisonAt stN tierNBase = false ∧ 0 ∈ stN.memc.live ∧
    chanOf (fput stN (pgMEMC 0) F.MEMC_BAD_LO_BAD 1) tierNBase = some (0, 0, 0) ∧
    chanBad (fput stN (pgMEMC 0) F.MEMC_BAD_LO_BAD 1) 0 = true := by decide +kernel

theorem witness_StackHeatMapAndWindows : Rules State.reset sysSrc ∧ 60 < tripAt 2 ∧
    fbit State.reset pgMEMMAP F.MEMMAP_CTL_LOCK = false ∧
    fbit (fput State.reset pgMEMMAP F.MEMMAP_STS_BUILT 1) pgMEMMAP F.MEMMAP_STS_BUILT = true ∧
    fbit (fput State.reset pgMEMMAP F.MEMMAP_STS_BUILT 1) pgMEMMAP F.MEMMAP_STS_READY = false ∧ stN.coh.copies = [] ∧
    stN.coh.fly = [] ∧ fbit (fput stN pgMEMMAP F.MEMMAP_IMB_IMB_EN 1) pgMEMMAP F.MEMMAP_IMB_IMB_EN = true ∧
    (stN.memc.imb.map (·.2)).foldl (· + ·) 0 < stN.memc.live.length * 1024 := ⟨rules_sys _, by decide +kernel⟩

theorem witness_InterleaveIsInjective : stN.memc.live.Nodup ∧ stN.memc.split ≤ 32 ∧
    chanOf stN (tierNBase + 5) = some (0, 0, 0) ∧ chanOf stN (tierNBase + 200) = some (0, 0, 0) := by decide +kernel

/-- A FILL of eight bytes of 1, and a COPY of eight bytes, to the die store at virtual address 1 GiB. -/
def fillFs : List (Nat × Nat) := [(176, 0x40000000), (224, 7), (384, 1)]
def copyFs : List (Nat × Nat) := [(128, 0x1000), (176, 0x40000000), (224, 7)]
def stDrv (op : Nat) (fs : List (Nat × Nat)) : State :=
  putDrv { stM [.drover 0 0] with cmds := [cmdP .running op fs] } 0 0 { cmd := id0, fold := 0 }

theorem witness_DroverCommandsRunLineByLine :
    (let x := cmd0 0x30 copyFs
     reservedOk x.word.toNat (vNamed 0x30) = true ∧ vView x ≠ 3 ∧ vOverlap x = false ∧ ctxFold stF 0 = some 0 ∧
     vLeavesSpad (storeBytes (stM []) (segTblPa (stM []) 0) tblM false) (cmd0 0x30 (copyFs ++ [(328, 1)])) = false) ∧
    reservedOk (cmd0 0x31 fillFs).word.toNat (vNamed 0x31) = true ∧
    (let x := cmd0 0x32 [(176, 0x40000000), (224, 31), (330, 2)]
     reservedOk x.word.toNat (vNamed 0x32) = true ∧ fmtKnown (vFmt x) = true ∧ cbits x 336 335 < 2 ∧ fmtClass (vFmt x) ≠ 0 ∧
     vOverlap x = false) ∧
    (let s := stDrv 0x31 fillFs
     let c := cmdP .running 0x31 fillFs
     getDrv s 0 0 = some { cmd := id0, fold := 0 } ∧ findCmd s id0 = some c ∧ vView c = 0 ∧ vRows c = 1 ∧
     vDst c % 256 + vRowLen c ≤ 256 ∧
     (match access s (.drover 0 0) { drover := true } 0 (vDst c) .wr with | .ok pa _ => pa | _ => 0) = spadBase ∧
     targetBusy s spadBase (droverAsker s 0 0 0 0 true) = false ∧ regionOf s spadBase = .spad 0 0 ∧
     inKeep 0 (vRowLen c) = false ∧ (∀ g, granBad s 0 (storeAt (g * 8)) g = false) ∧
     readByte (nextOf (.droverLineResponse 0 0 .ok) s) (spadBase + 7) = 0 ∧
     readByte (nextOf (.droverLineResponse 0 0 .ok) s) spadBase = 1) ∧
    (let s := stDrv 0x30 copyFs
     let c := cmdP .running 0x30 copyFs
     vSrc c % 256 + vRowLen c ≤ 256 ∧
     (match access s (.drover 0 0) { drover := true } 0 (vSrc c) .rd with
      | .ok pa b => let q := droverAsker s 0 0 0 0 b
        !targetBusy s pa q && !unanswered s pa .ok &&
          (match unitRead (unhold s (.drover 0 0) 0) q pa 8 .ok with
           | (_, .ok (bs, p)) => bs.length == 8 && !p
           | _ => false)
      | _ => false) = true) := by
  refine ⟨by decide +kernel, by decide +kernel, by decide +kernel, ?_, by decide +kernel⟩
  exact ⟨by decide +kernel, by decide +kernel, by decide +kernel, by decide +kernel, by decide +kernel, by decide +kernel,
    by decide +kernel, by decide +kernel, by decide +kernel, fun _ => rfl, by decide +kernel, by decide +kernel⟩

/-- The chunk table of fold 0 at the start of tier N, of one record; a second region of the fold lies in tier F. The homes'
counters are frozen, for whether an access after the first hits the home store is a free value. -/
def stK (r : Nat) (xs : List StreamId) : State :=
  let s := withF (stM xs) [(pgDRVPKG, F.DRV_CHUNKTBL_HI_BASE_HI, tierNBase / 2 ^ 32), (pgHOSTD 0, F.HOSTD_STS_IN_RESET, 0),
    (pgHOSTD 1, F.HOSTD_STS_IN_RESET, 0), (pgPKG, F.PKG_BOOT_TIERF_READY, 1), (pgPKG, F.PKG_TIERF_SIZE_GIB, 1),
    (pgCOH 0, F.CTL_CNT_FREEZE, 1), (pgCOH 1, F.CTL_CNT_FREEZE, 1), (pgCOH 2, F.CTL_CNT_FREEZE, 1),
    (pgCOH 3, F.CTL_CNT_FREEZE, 1)]
  let s := fputi (fputi s (pgFOLD 0) F.FOLD_REGION_LO_VALID 1 1) (pgFOLD 0) F.FOLD_REGION_HI_LIMIT 1 511
  storeBytes s tierNBase (leBytes 32 r) false

/-- A 4 KiB chunk, LOW at 0 and HIGH at 1 MiB of tier N: its STATE, dirty bit and REFCOUNT. -/
def rec0 (st dirty ref : Nat) : Nat := (tierNBase + 0x100000) * 2 ^ 64 + st * 2 ^ 144 + dirty * 2 ^ 147 + ref * 2 ^ 160

def readsRec (s : State) (r : Nat) : Bool :=
  !recordWaits s {} 0 0 0 && (match (chunkRead s 0 0 0).2 with | .ok x => x == r | .error _ => false) &&
    decide (bits r 146 144 ≤ 3) && cacheOf s (chunkAsker 0) (lineOf (chunkPa s 0 0)) == none &&
    dirGet s (lineOf (chunkPa s 0 0)) == none

theorem witness_ChunkCommandsAndMoves :
    (let s := { stK (rec0 0 0 0) [] with cmds := [cmd0 0x38 []] }
     findCmd s id0 = some (cmd0 0x38 []) ∧ ctxFold s 0 = some 0 ∧ fenced s 0 = false ∧ 0 < chunkCount s 0 ∧
     waitsFull s 0 = false ∧ reservedOk (cmd0 0x38 []).word.toNat (vNamed 0x38) = true ∧ readsRec s (rec0 0 0 0) = true ∧
     ckState (rec0 0 0 0) = 0 ∧ ckRef (rec0 0 0 0) ≠ 0xFFFF ∧
     chunkInside s 0 (rec0 0 0 0) = true) ∧
    (let s := stK (rec0 2 0 1) []
     readsRec s (rec0 2 0 1) = true ∧ ckRef (rec0 2 0 1) ≠ 0 ∧
     reservedOk (cmd0 0x39 []).word.toNat (vNamed 0x39) = true) ∧
    (let s := stK (rec0 2 1 0) []
     readsRec s (rec0 2 1 0) = true ∧ ckState (rec0 2 1 0) = 2 ∧ ckRef (rec0 2 1 0) = 0 ∧ (rec0 2 1 0).testBit 147 = true ∧
     chunkInside s 0 (rec0 2 1 0) = true ∧ reservedOk (cmd0 0x3A []).word.toNat (vNamed 0x3A) = true) := by decide +kernel

/-- The states after a PROMOTE and an EVICT have begun. -/
def stUp : State := nextOf (.promote id0) { stK (rec0 0 0 0) [] with cmds := [cmd0 0x38 []] }
def stDown : State := nextOf (.evict id0) { stK (rec0 2 1 0) [] with cmds := [cmd0 0x3A []] }

theorem witness_ChunkCommandsAndMoves_end : (match findMove stUp 0 0 true with
    | some m => m.by_ == .cmd id0 && ((findCmd stUp id0).map (·.phase)) == some .running && stUp.waits.isEmpty &&
        !moveWaits stUp m && (moveRun stUp m 0).2 == 0 && (moveRun stUp m stTIMEOUT).2 != 0 &&
        (let s2 := bump (moveRun stUp m 0).1 (pgDRV m.tile (moveEngine m)) 12
         (match (chunkRead s2 m.tile 0 0).2 with | .ok _ => true | _ => false) &&
           cacheOf s2 (chunkAsker m.tile) (lineOf (chunkPa s2 0 0)) == none && dirGet s2 (lineOf (chunkPa s2 0 0)) == none)
    | none => false) = true ∧ mgetD stUp.host.peer 0 [] = [] ∧
    (match findMove stDown 0 0 false with
    | some m => m.by_ == .cmd id0 && stDown.waits.isEmpty && !moveWaits stDown m && (moveRun stDown m 0).2 == 0 &&
        (moveRun stDown m stTIMEOUT).2 != 0
    | none => false) = true := by decide +kernel

/-- A table of two RELEASE entries at virtual 0x2000, and the state after its SCHED_RUN. -/
def stSch : State := { storeBytes (stK (rec0 2 0 2) [.drover 0 0]) (tierNBase + 0x2000)
  (leBytes 32 (2 ^ 16) ++ leBytes 32 (2 ^ 16)) false with cmds := [cmd0 0x34 [(128, 0x2000), (176, 1)]] }
def stSchRun : State := nextOf (.schedRun ⟨id0, .ok⟩) stSch

theorem witness_SchedulesRunAndCancel : reservedOk (cmd0 0x34 [(128, 0x2000), (176, 1)]).word.toNat (vNamed 0x34) = true ∧
    (match droverRead stSch 0 0 0 .ok (linePieces 0x2000 64) [] [] with
     | .ok s1 bs [] _ => (findCmd s1 id0).isSome && ctxFold s1 0 == some 0 && !fenced s1 0 && !entryBad stSch 0 (BitVec.ofNat 256 (field bs 0 32)) && !entryBad stSch 0 (BitVec.ofNat 256 (field bs 32 32))
     | _ => false) = true ∧
    (match stSchRun.scheds with
     | [r] => r.id == id0 && r.next == 0 && r.entries.length == 2 && !r.cancelled && r.inflight.isEmpty &&
         entryDue stSchRun (cmd0 0x34 [(128, 0x2000), (176, 1)]) (lget r.entries 0 0) true && readsRec stSchRun (rec0 2 0 2)
     | _ => false) = true ∧
    ((nextOf (.schedEntryStart id0) stSchRun).scheds.map (·.results)) = [[(0, 0)]] ∧
    (let t : State := { stSchRun with cmds := stSchRun.cmds ++ [{ cmd0 0x35 [] with id := ⟨0, 1, 0⟩ }] }
     reservedOk (cmd0 0x35 []).word.toNat (vNamed 0x35) = true ∧ (findCmd t ⟨0, 1, 0⟩).isSome = true ∧
     t.scheds.map (fun r => r.id.ctx) = [0] ∧ ((findCmd t id0).map fun y => cbits y 47 32) = some 0 ∧
     (nextOf (.schedCancel ⟨0, 1, 0⟩) t).scheds = []) := by decide +kernel

theorem witness_FoldsAndContextsEnable : Rules State.reset sysSrc ∧ foldEnabled State.reset 0 = false ∧
    foldCheck State.reset 0 = none ∧ foldCheck (withF stF [(pgFOLD 1, F.FOLD_DIES_DIES, 1)]) 1 = some 1 ∧
    fget (fput State.reset (pgFOLD 0) F.FOLD_DIES_DIES 1) (pgFOLD 0) F.FOLD_DIES_DIES ≠ 0 ∧
    foldInUse State.reset 0 = false ∧ foldInUse stF 0 = true ∧ ctxFold stF 0 = some 0 ∧ foldActive stF 0 = true ∧
    fbit State.reset (pgCTX 3) F.CTX_SEGERR_VALID = false ∧ ctxFold State.reset 3 = none :=
  ⟨rules_sys _, by decide +kernel⟩

/-- A stream that waits for context 0's table, and one that stalls on fault slot 0. -/
def stWant : State := putStream (stM []) (.hatch 0 0) { want := some 0 }
def sl0 : SlotSt := ⟨0, 3, 0, 0x5000, 1, 7, 0, false, false⟩
def stSlot : State := { putStream (withF (stM []) [(pgFOLD 0, F.FOLD_FQBASE_HI_BASE_HI, tierNBase / 2 ^ 32)]) (.hatch 0 0)
  { stall := some ⟨0, 3, 0x5000, some 0, 1, 7, false⟩ } with folds := [(0, { slots := [(0, sl0)], seq := 1 })] }

theorem witness_SegmentTablesAndFaultRecords : (getStream stWant (.hatch 0 0)).want = some 0 ∧ ctxFold stWant 0 = some 0 ∧
    segTblInside stWant 0 0 = true ∧
    (let k : Asker := { tile := some (streamTile stWant (.hatch 0 0)), fold := 0 }
     let r := unitRead (bump stWant (pgFOLD 0) 0) k (segTblPa stWant 0) 256 .ok
     ∀ o ∈ [0, 256], lineHeld stWant {} (segTblPa stWant 0 + o) = false ∧ targetBusy stWant (segTblPa stWant 0 + o) k = false ∧
       (match r.2, (unitRead r.1 k (segTblPa stWant 0 + 256) 256 .ok).2 with
        | .ok (_, p), .ok (_, q) => !p && !q
        | _, _ => false) = true) ∧
    oldInFlight stWant 0 = false ∧ oldInFlight (putStream stWant (.hatch 0 0) { past := some ⟨0, 0, .plain tierNBase true, true⟩ }) 0 = true ∧
    fget (fput stWant (pgCTX 0) F.CTX_SEGINV_STS_ISSUED 1) (pgCTX 0) F.CTX_SEGINV_STS_DONE = 0 ∧
    mget (mgetD stSlot.folds 0 {}).slots 0 = some sl0 ∧ 0 < fqSize stSlot 0 ∧
    fget stSlot (pgFOLD 0) F.FOLD_FQTAIL_TAIL = fget stSlot (pgFOLD 0) F.FOLD_FQHEAD_HEAD ∧ regionOf stSlot tierNBase = .tierN ∧
    fpair stSlot (pgFOLD 0) F.FOLD_FQBASE_LO_BASE_LO F.FOLD_FQBASE_HI_BASE_HI 0 = tierNBase ∧
    inPlainRegions stSlot 0 tierNBase (tierNBase + 32) = true ∧ curPoison stSlot tierNBase 32 = false ∧
    paBad stSlot tierNBase = false ∧ (∀ i, i < 32 → newest stSlot (lineOf (tierNBase + i)) = none) ∧
    dirGet stSlot (lineOf tierNBase) = none ∧ lineHeld stSlot {} tierNBase = false ∧ targetBusy stSlot tierNBase = false ∧
    (∀ e ∈ (mgetD stSlot.folds 0 {}).slots, e.2.held = false) ∧
    (∃ e ∈ stSlot.streams, onSlot stSlot 0 (some 0) e.2 = true) ∧ sl0.seq ≠ 1 := by decide +kernel

/-- Line 0 of tier N. -/
def ln : Nat := tierNBase / 256
def stH : State := { stN with coh := {} }
def cp (st : CopySt) : Copy := ⟨st, List.replicate 256 1, false⟩

/-- `stH` with agent 1's copy, these messages, and a transaction. -/
def stCoh (st : Option CopySt) (ms : List CohMsg) (x : Option Txn) : State :=
  { stN with coh := {
      copies := match st with | some c => [(copyKey ln 1, cp c)] | none => []
      msgs := ms
      txns := match x with | some t => [(ln, t)] | none => [] } }

theorem witness_HomesServeRequests : LineIdle stH ln ∧ mayHold stH 1 ln = true ∧ getCopy stH ln 1 = none ∧
    mget stH.coh.wants (copyKey ln 1) = none ∧ (homeLine stH ln).2 = false ∧
    lineOf (ln * 256) = ln ∧ atomOk (ln * 256) .add 8 = true := by
  refine ⟨⟨by decide +kernel, by decide +kernel, ⟨rfl, rfl⟩, rfl, by decide +kernel, by decide +kernel, by decide +kernel, ?_,
    by decide +kernel, ?_⟩, by decide +kernel⟩
  · intro r
    have h : (stH.coh.queue, stH.coh.held, stH.coh.txns) = ([], [], []) := by decide +kernel
    simp only [Prod.mk.injEq] at h
    unfold mayLeave
    split <;> simp [atHome, h.1, h.2.2]
  intro a
  have h : fget stH (pgCOH 0) F.COH_STS_DEAD = 0 := by decide +kernel
  simp [agentDead, h]

theorem witness_AgentsAnswerSnoops : let m := CohMsg.snoop .shared 1 ln
    m ∈ (stCoh none [m] none).coh.msgs ∧ getCopy (stCoh none [m] none) ln 1 = none ∧
    (∀ c ∈ [CopySt.wbPend, .shared, .exclusive, .modified], getCopy (stCoh (some c) [m] none) ln 1 = some (cp c)) ∧
    (∀ k ∈ [Snoop.shared, .sole, .inv, .cur], CohMsg.snoop k 1 ln ∈ (stCoh none [.snoop k 1 ln] none).coh.msgs) ∧
    mget (stCoh none [m] (some { req := .rdCur (.link 0) })).coh.txns ln = some { req := .rdCur (.link 0) } ∧
    mget (stCoh none [m] (some { req := .rdS 2 })).coh.txns ln = some { req := .rdS 2 } ∧
    mget (stCoh none [m] (some { req := .rdX 2 })).coh.txns ln = some { req := .rdX 2 } ∧
    agentDead (stCoh none [m] none) 2 = false := by decide +kernel

/-- R285: an uncorrectable error in tile 1's Exclusive copy drops it; the agent answers RspI, and counter 12 counts. -/
theorem test_visitor_error : (match exec (.snpcur 1 ln .uncorrectable) (stCoh (some .exclusive) [.snoop .cur 1 ln] none) with
    | .next t => getCopy t ln 1 == none && t.coh.msgs == [.rspI 1 ln] && counter t (pgCOH 1) 12 == 1
    | _ => false) = true := by decide +kernel

theorem witness_AnswersCompleteTransactions :
    (let x : Txn := { req := .write (.link 0) (List.replicate 256 true) (List.replicate 256 7) false, waiting := 2 }
     let s := stCoh none [.rspI 1 ln, .rspWbPend 1 ln] (some x)
     mget s.coh.txns ln = some x ∧ s.coh.queue = [] ∧ s.coh.held = [] ∧ (homeLine s ln).2 = false ∧ isOwner s 1 ln = false ∧
     CohMsg.rspI 1 ln ∈ s.coh.msgs ∧ CohMsg.rspWbPend 1 ln ∈ s.coh.msgs) ∧
    (let x : Txn := { req := .rdS 2, waiting := 2 }
     let s := stCoh none [.rspS 1 ln, .rspFwd 1 ln (some .shared), .dataHome 1 ln (List.replicate 256 3) false] (some x)
     mget s.coh.txns ln = some x ∧ CohMsg.rspS 1 ln ∈ s.coh.msgs ∧
     s.coh.msgs.find? (isDataHome 1 ln) = some (.dataHome 1 ln (List.replicate 256 3) false) ∧
     paBad s (ln * 256) = false) ∧
    (let s := stCoh none [.wbM 1 ln (List.replicate 256 4) false] none
     s.coh.msgs.find? (isWbM 1 ln) = some (.wbM 1 ln (List.replicate 256 4) false) ∧ mget s.coh.txns ln = none ∧
     agentDead s 1 = false) ∧
    (let s := stCoh none [.data 1 ln .shared (List.replicate 256 5) false, .cmp 1 ln, .wbAck 1 ln, .done 1 ln] none
     s.coh.msgs.find? (isData 1 ln) = some (.data 1 ln .shared (List.replicate 256 5) false) ∧ CohMsg.cmp 1 ln ∈ s.coh.msgs ∧
     CohMsg.wbAck 1 ln ∈ s.coh.msgs ∧ CohMsg.done 1 ln ∈ s.coh.msgs ∧
     mget { s.coh with wants := [(copyKey ln 1, { cmp := true })] }.wants (copyKey ln 1) = some { cmp := true } ∧
     mget s.coh.atoms (copyKey ln 1) = none ∧
     mget { s.coh with atoms := [(copyKey ln 1, (ln * 256, .add, 8, List.replicate 8 1))] }.atoms (copyKey ln 1) =
       some (ln * 256, .add, 8, List.replicate 8 1)) := by
  decide +kernel

theorem witness_AgentsActDieAndLocks : (∀ c ∈ [CopySt.shared, .exclusive, .modified],
      getCopy (stCoh (some c) [] none) ln 1 = some (cp c) ∧ snoopWaits (stCoh (some c) [] none) 1 ln = false) ∧
    wbInUse stH 1 (homeOf stH ln) < 16 ∧ mget stH.coh.atoms (copyKey ln 1) = none ∧
    mget stH.coh.wants (copyKey ln 1) = none ∧ mayHold stH 1 ln = true ∧ lineDown stH ln = false ∧ getCopy stH ln 1 = none ∧
    stH.coh.queue = [] ∧ stH.coh.held = [] ∧ stH.coh.txns = [] ∧ stH.coh.copies = [] ∧ atomOk (ln * 256) .add 8 = true ∧ agentDead stH 1 = false ∧
    fbit (fput stH (pgCOH 0) F.COH_STS_RECLAIM_BUSY 1) (pgCOH 0) F.COH_STS_RECLAIM_BUSY = true ∧
    (∀ k, k < 4 → fbit stH (pgCOH k) F.COH_STS_RECLAIM_BUSY = false) ∧ fbit stH (pgCOH 0) F.CTL_LOCK = false ∧
    fbit (fput stH (pgCOH 0) F.CTL_LOCK 1) (pgCOH 0) F.CTL_LOCK = true ∧
    fbit (fput stH (pgCOH 0) F.COH_STS_LOCK_READY 0) (pgCOH 0) F.COH_STS_LOCK_READY = false := by decide +kernel

/-- `stK` with link 0 up, and these fields. -/
def stL (l : List (Nat × Field × Nat)) : State := withF (stK 0 []) ([(pgHOSTL 0, F.HOSTL_CFG_UP, 1)] ++ l)

theorem witness_HostDiesLinksAndEntries : Rules (stL []) sysSrc ∧ linkUp (stL []) 0 = true ∧
    (mget State.reset.host.perst 0 = none ∧ fbit (stL []) (pgHOSTD 0) F.HOSTD_STS_IN_RESET = false ∧
     fbit (withF (stL []) [(pgHOSTD 0, F.HOSTD_STS_SR_ACTIVE, 1)]) (pgHOSTD 0) F.HOSTD_STS_SR_ACTIVE = true) ∧
    findCmd { stL [] with cmds := [cmd0 0x72 []] } id0 = some (cmd0 0x72 []) ∧ xhostLink (cmd0 0x72 []) = 0 ∧
    (fbiti (stL []) (pgHOSTL 0) F.HOSTL_VF_ENABLE 1 = false ∧
     (let s := fputi (stL []) (pgHOSTL 0) F.HOSTL_VF_FOLD 1 3
      vfOk (stL []) 0 1 = true ∧ vfOk s 0 1 = false ∧ fgeti s (pgHOSTL 0) F.HOSTL_VF_FOLD 1 = bits 7 4 1)) ∧
    (fbiti (stL []) (pgHOSTL 0) F.HOSTL_PEER_ENABLE 0 = false ∧ peerOk (stL []) 0 0 = false ∧
     peerOk (fputi (stL []) (pgHOSTL 0) F.HOSTL_PEER_PBASE_HI 0 (tierNBase / 4096 / 2 ^ 32) |> fun s =>
       fputi s (pgHOSTL 0) F.HOSTL_PEER_PBASE_LO 0 (tierNBase / 4096 % 2 ^ 32)) 0 0 = true) ∧
    fbit (stL []) pgHOSTP F.HOSTP_BIASSTS_BUSY = false ∧
    fbit (withF (stL []) [(pgHOSTP, F.HOSTP_BIASSTS_BUSY, 1)]) pgHOSTP F.HOSTP_BIASSTS_BUSY = true :=
  ⟨rules_sys _, by decide +kernel⟩

/-- The test of `BusOpen` that the kernel can evaluate. -/
def busOpenB (s : State) (pa n : Nat) : Bool :=
  1 ≤ n && pa / 256 == (pa + n - 1) / 256 &&
    (regionOf s pa == .tierN || (regionOf s pa == .tierF && !tierFDown s pa)) && !paBad s pa && !curPoison s pa n &&
    !busWaits s pa n && (newest s (lineOf pa)).isNone && (dirGet s (lineOf pa)).isNone

theorem busOpen_of (s : State) (pa n : Nat) (h : busOpenB s pa n = true) : BusOpen s pa n := by
  simp only [busOpenB, Bool.and_eq_true, Bool.or_eq_true, beq_iff_eq, decide_eq_true_eq, Bool.not_eq_true',
    Option.isNone_iff_eq_none] at h
  obtain ⟨⟨⟨⟨⟨⟨⟨h1, h2⟩, h3⟩, h4⟩, h5⟩, h6⟩, h7⟩, h8⟩ := h
  refine ⟨h1, h2, h3, h4, h5, ?_, h8, h6⟩
  intro i hi
  have : lineOf (pa + i) = lineOf pa := by unfold lineOf; omega
  rw [this]; exact h7

/-- A state whose link 0 has a peer window, a DMA range and HDM over memory that answers at once. -/
def stIn : State :=
  let s := stL [(pgHOSTL 0, F.HOSTL_BAR2_BASE, tierNBase / twoMiB), (pgHOSTL 0, F.HOSTL_CFG_CXL_EN, 1),
    (pgHOSTL 0, F.HOSTL_HDM_BASE_BASE, tierNBase / 2 ^ 28), (pgHOSTL 0, F.HOSTL_HDM_SIZE_SIZE, 1)]
  let s := fputi (fputi (fputi s (pgHOSTL 0) F.HOSTL_PEER_ENABLE 0 1) (pgHOSTL 0) F.HOSTL_PEER_RD 0 1)
    (pgHOSTL 0) F.HOSTL_PEER_WR 0 1
  let s := fputi s (pgHOSTL 0) F.HOSTL_PEER_PBASE_LO 0 (tierNBase / 4096 % 2 ^ 32)
  let s := fputi s (pgHOSTL 0) F.HOSTL_PEER_PBASE_HI 0 (tierNBase / 4096 / 2 ^ 32)
  fputi (fputi s (pgHOSTL 0) F.HOSTL_DMA_LO_VALID 0 1) (pgHOSTL 0) F.HOSTL_DMA_HI_LIMIT 0 5

def stRoot : State :=
  let s := withF stIn [(pgHOSTL 0, F.HOSTL_CFG_MODE, 1), (pgHOSTL 0, F.HOSTL_PEERAP_BASE, 7)]
  { s with host := { s.host with role := [(0, ())] } }

theorem witness_InboundAccessesReachMemory : BusOpen stIn tierNBase 8 ∧ BusOpen stRoot 0x40 8 ∧ linkUp stIn 0 = true ∧
    fbiti stIn (pgHOSTL 0) F.HOSTL_PEER_ENABLE 0 = true ∧ fbiti stIn (pgHOSTL 0) F.HOSTL_PEER_WR 0 = true ∧
    fbiti stIn (pgHOSTL 0) F.HOSTL_PEER_RD 0 = true ∧ fbiti stIn (pgHOSTL 0) F.HOSTL_PEER_ENABLE 1 = false ∧
    8 ≤ peerLen stIn 0 0 ∧ peerBase stIn 0 0 = tierNBase ∧ mgetD stIn.host.peer 0 [] = [] ∧
    bar2Pa stIn 0 0 0 = some (tierNBase, none) ∧ bar2Refused stIn tierNBase 8 none = false ∧ linkEp stIn 0 = true ∧
    linkEp stRoot 0 = false ∧ dmaOk stRoot 0 0x40 8 = true ∧ 0x48 < fget stRoot (pgHOSTL 0) F.HOSTL_PEERAP_BASE * 2 ^ 36 ∧
    cxlOn stIn 0 = true ∧ hdmInside stIn 0 = true ∧ fget stIn (pgHOSTL 0) F.HOSTL_HDM_BASE_BASE * 2 ^ 28 = tierNBase ∧
    8 ≤ fget stIn (pgHOSTL 0) F.HOSTL_HDM_SIZE_SIZE * 2 ^ 28 :=
  ⟨busOpen_of _ _ _ (by decide +kernel), busOpen_of _ _ _ (by decide +kernel), by decide +kernel⟩

/-- An INLINE_WRITE of eight bytes to virtual 0x40, and XHOST commands between bus address 0 and virtual 0x40. -/
def stX (op : Nat) (fs : List (Nat × Nat)) : State :=
  { putStream (fputi (stL []) (pgHOSTL 0) F.HOSTL_VF_ENABLE 1 1) (.queue 0 0) { cache := [tbl0] } with
    cmds := [{ cmd0 op fs with payload := List.replicate 192 9 }] }

theorem witness_ExtendedCommandsMoveData :
    (let fs := [(128, 0x40), (176, 7)]
     let s := stX 0x70 fs
     reservedOk (cmd0 0x70 fs).word.toNat [(175, 128), (183, 176), (185, 184)] = true ∧ ctxFold s 0 = some 0 ∧
     fenced s 0 = false ∧ cbits (cmd0 0x70 fs) 183 176 = 7 ∧
     (match access s (.queue 0 0) {} 0 0x40 .wr with
      | .ok pa b => let q := streamAsker s (.queue 0 0) 0 b
        (unitWriteCheck s pa 8).isNone && !targetBusy s pa q &&
          (unitWrite (unhold s (.queue 0 0) 0) q pa (List.replicate 8 9) false .ok).2.isNone
      | _ => false) = true ∧ readByte (nextOf (.inlineWrite id0) s) (tierNBase + 0x47) = 9) ∧
    (let fs := [(192, 0x40), (240, 7)]
     let s := stX 0x72 fs
     reservedOk (cmd0 0x72 fs).word.toNat [(191, 128), (239, 192), (255, 240), (257, 256)] = true ∧ linkEp s 0 = true ∧
     (enabledVfs s).any (fun lv => lv.1 == 0 && (vfCtxIndex s lv.1 lv.2 0).isSome) = true ∧ linkUp s 0 = true ∧
     linkUp (fput s (pgHOSTL 0) F.HOSTL_CFG_UP 0) 0 = false ∧
     wrote (streamWrite s (.queue 0 0) {} 0 .wr false .ok (linePieces 0x40 8) (List.replicate 8 3) false) = true ∧
     gotBytes (streamRead s (.queue 0 0) {} 0 .rd .ok (linePieces 0x40 8) [] false) = some (List.replicate 8 0) ∧
     cxlOn s 0 = false ∧ cxlOn (fput s (pgHOSTL 0) F.HOSTL_CFG_CXL_EN 1) 0 = true ∧
     readByte (nextOf (.xhostRead id0 (.ok (List.replicate 8 3) false)) s) (tierNBase + 0x40) = 3) := by decide +kernel

theorem witness_OutsideAccessesReachTheirTargets : BusOpen stIn tierNBase 8 ∧
    (coreRuns stIn 0 0 = true ∧ inOneLine tierNBase 8 = true ∧ coreCheck stIn 0 0 (tierNBase - 1) 1 false = some 1 ∧
     (let s := fputi stIn (pgHOSTD 0) F.HOSTD_AUTH_SYS 0 1
      coreCheck s 0 0 tierNBase 8 false = none ∧ coreCheck s 0 0 tierNBase 8 true = none ∧ busOpenB s tierNBase 8 = true ∧
      (let how : CoreHow := ⟨.user, true, .clean, false⟩
       mayHold s 4 (lineOf tierNBase) = true ∧ getCopy s (lineOf tierNBase) 4 = none ∧
       (dirMates s (lineOf tierNBase)).length < 16 ∧ busWaits s tierNBase 8 (coreAsker 0 how) = false ∧
       cacheOf s (coreAsker 0 { how with wb := false }) (lineOf tierNBase) = none ∧ regionOf s 0 = .tierF ∧
       coreCheck s 0 0 0 8 false = none)) ∧
     atomOk tierNBase .add 8 = true ∧ fbit stIn (pgHOSTD 0) F.HOSTD_ERRLOG_VALID = false) ∧
    (linkEp stIn 0 = true ∧ fbiti (fputi stIn (pgHOSTL 0) F.HOSTL_VF_ENABLE 1 1) (pgHOSTL 0) F.HOSTL_VF_ENABLE 1 = true ∧
     (4096 : Nat) / 4096 < fgeti (fputi stIn (pgHOSTL 0) F.HOSTL_VF_COUNT 1 3) (pgHOSTL 0) F.HOSTL_VF_COUNT 1 ∧ heldOf stIn 0 = []) ∧
    crookOwner (fput stIn pgHERD F.CROOK_STS_OWNER 1) = 0 + 1 ∧
    (fbit stIn (pgSPAD 0) F.SPAD_STS_INIT_BUSY = false ∧ inKeep (storeOff 81 + 8) 8 = false ∧
     storeBusy stIn 0 (storeOff 81 + 8) 8 = false ∧ storeBusy stIn 0 (storeOff 81 + 0xFC0000) 8 = false ∧ inKeep (storeOff 81 + 0xFC0000) 8 = true) :=
  ⟨busOpen_of _ _ _ (by decide +kernel), by decide +kernel⟩

/-- Port 0 up, with this transmit state. -/
def stPort (x : PortSt) : State := putPort (withF stN [(pgNP 0, F.NP_STS_UP, 1)]) 0 x
/-- A request flit from package 5, to this package. -/
def flit0 (op : Nat) : Flit := { linkFlit op 0 0 0 with ftype := ftREQ, srcPkg := 5, tid := 3 }

theorem witness_NaregLinksDeliverFlits : portUp (stPort {}) 0 = true ∧
    (let f := flit0 1
     numbered f = true ∧ f.srcFold < 16 ∧ mayGo (getPort (stPort {}) 0) f = true ∧ f.lseq = (getPort (stPort {}) 0).rxNext ∧
     f.lseq ≠ (getPort (stPort { rxNext := 2 }) 0).rxNext ∧ flitHere (stPort {}) f = true ∧ opKnown f = true) ∧
    (getPort (stPort { loc := [flit0 1] }) 0).loc = [flit0 1] ∧ (getPort (stPort {}) 0).nakFlit = none ∧
    2 ≤ fget (stPort {}) (pgNP 0) F.NP_CFG_MAX_RETRY ∧
    (let g := { flit0 1 with dstPkg := 1 }
     let s := withF (stPort {}) [(pgFAB, F.FAB_SHAPE_EXTENT, 3)]
     flitHere s g = false ∧ vcSet g.vc ≠ 1 ∧
     (match nextPair s g (some 0) with
      | some (pair, h, _) => (pickPort s pair h.vc).isSome
      | none => false) = true ∧
     nextPair (withF s [(pgFAB, F.FAB_LINK_DOWN, 255)]) g (some 0) = none) := by decide +kernel

theorem witness_NaregLanesAndPorts : Rules (stPort {}) sysSrc ∧ portUp (stPort {}) 0 = true ∧
    fbit (stPort {}) (pgNP 0) F.NP_STS_SPARED = false ∧ fbit (stPort {}) (pgNP 0) F.NP_STS_DOWN = false ∧
    (getPort (stPort {}) 0).swap = none ∧ (getPort (stPort {}) 0).spareLost = false ∧
    fbit (withF (stPort {}) [(pgNP 0, F.NP_STS_SPARED, 1)]) (pgNP 0) F.NP_STS_SPARED = true ∧
    (getPort (stPort { swap := some 2, stopped := true, naking := true }) 0).swap = some 2 ∧
    fbit (withF (stPort {}) [(pgNP 1, F.NP_STS_DOWN, 1)]) (pgNP 1) F.NP_STS_DOWN = true ∧
    fbit (withF stN [(pgNP 0, F.NP_CFG_ENABLE, 1)]) (pgNP 0) F.NP_CFG_ENABLE = true ∧ portUp stN 0 = false :=
  ⟨rules_sys _, by decide +kernel⟩

/-- Import entry 0 gives package 5 the first page of tier N. -/
def stImp : State :=
  let pg := pgWIN
  let s := [(F.WIN_IN_ENABLE, 1), (F.WIN_IN_SRC_PKG, 5), (F.WIN_IN_RD, 1), (F.WIN_IN_WR, 1), (F.WIN_IN_ATOM, 1),
    (F.WIN_IN_PBASE_LO, tierNBase / 4096 % 2 ^ 32), (F.WIN_IN_PBASE_HI, tierNBase / 4096 / 2 ^ 32)].foldl
      (fun s e => fputi s pg e.1 0 e.2) (stPort {})
  { s with fab := { s.fab with inbox := [(0, flit0 1), (0, flit0 2), (0, flit0 3), (0, flit0 4)] } }

def rq (w : Option (List Byte)) : RemoteReq := { flitReq (flit0 1) with write := w, len := 8 }

theorem witness_RemoteRequestsAreServed : BusOpen stImp tierNBase 8 ∧ importCheck stImp (rq none) = some (tierNBase, 0) ∧
    importCheck stN (rq none) = none ∧ importCheck stImp (rq (some (List.replicate 8 1))) = some (tierNBase, 0) ∧
    importCheck stImp { rq none with atom := some (.add, 8, []) } = some (tierNBase, 0) ∧ busPlain stImp tierNBase 8 = true ∧
    atomOk tierNBase .add 8 = true ∧ (∀ op ∈ [1, 2, 3, 4], inboxPort stImp (flit0 op) ftREQ op = some 0 ∧
      (match (remoteServe stImp (flitReq (flit0 op))).2 with | .wait => false | _ => true) = true) ∧
    stImp.fab.held.any (fun e => e.2.1 == flit0 1) = false ∧ mget stImp.fab.atoms (atomKey 5 3) = none ∧
    (∀ op ∈ [1, 2, 3, 8, 9], let f : Flit := { flit0 op with ftype := ftRSP }
      inboxPort { stImp with fab := { stImp.fab with inbox := [(0, f)] } } f ftRSP op = some 0) ∧
    0 < fget stImp pgFAB F.FAB_XPORT_XRETRY :=
  ⟨busOpen_of _ _ _ (by decide +kernel), by decide +kernel⟩

/-- Event entry 0 with these words, armed or not. -/
def stEvt (ws : List Nat) (armed : Nat) : State :=
  let s := fput State.reset pgHERD F.HERD_EVTVALID_ARMED armed
  { s with herd := { s.herd with evt := (List.range ws.length).zip ws } }

/-- A master of the Herd ring with its slot 0 held by barrier 9, which no package has completed. -/
def stMaster (r : RingSt) (l : List (Nat × Field × Nat)) : State :=
  let s := withF State.reset ([(pgHERD, F.HERD_CTL_ROLE, 1)] ++ l)
  { s with herd := { s.herd with herd := r } }

theorem witness_EventsTicksAndBarriers : Rules State.reset sysSrc ∧ Untimed (stEvt [5, 0, 5, 1, 1] 0) ∧
    Untimed (stMaster { acting := 1 } [(pgHERD, F.HERD_CTL_JOIN, 1)]) ∧
    (evtWord (stEvt [5, 0, 5, 1, 1] 0) 0 2 = 5 ∧ evtBad (stEvt [5, 0, 5, 1, 1] 0) 0 = false ∧
     tickReached (stEvt [5, 0, 5, 1, 1] 0) 5 = false ∧ evtBad (stEvt [5, 0, 1] 0) 0 = true) ∧
    (evtDue (stEvt [0, 0, 3] 1) 0 1 = true ∧ evtTick (stEvt [0, 0, 3] 1) 0 * 256 = herdTime (stEvt [0, 0, 3] 1) ∧
     evtDue (stEvt [0, 0, 5] 1) 0 2 = true ∧ evtDue (stEvt [0, 0, 7] 1) 0 3 = true) ∧
    (let s := stMaster { acting := 1 } []
     ringRole s false = 1 ∧ ringJoined s false = false ∧ ringJoined s true = false ∧ s.herd.stopped = false ∧
     herdTime s + 256 < 2 ^ 64 ∧ ringJoined (stMaster { acting := 1 } [(pgHERD, F.HERD_CTL_JOIN, 1)]) false = true ∧
     ringActing s false = 1 ∧ (getRingSt s false).phase = 0 ∧ (getRingSt s false).wait = none) ∧
    (ctxFold stF (fgeti stF pgHERD F.HERD_BAR_CTX 0) = some 0 ∧ authOf stF (.pf 0) = .sys ∧
     tickReached State.reset 0 = true) ∧
    (let s := stMaster { acting := 1, slots := [{ bid := 9 }] } [(pgHERD, F.HERD_TIME_LO_TIME_LO, 4096 * 256)]
     (getRingSt s false).acting = 1 ∧ (lget (getRingSt s false).slots 0 {}).bid ≠ 0 ∧
     (lget (getRingSt s false).slots 0 {}).rel = none ∧ (lget (getRingSt s false).slots 0 {}).since + 4096 ≤ herdTick s) :=
  ⟨rules_sys _, by unfold Untimed; decide +kernel, by unfold Untimed; decide +kernel, by decide +kernel⟩

/-- A message of the master, and one of another package. -/
def msg0 (typ src : Nat) (payload : List Byte) : List Byte := msgBytes typ 1 src 0 7 payload
def stMsg : State := withF State.reset [(pgHERD, F.HERD_MASTERS_MASTER_PKG, 4), (pgHERD, F.HERD_MASTERS_HEAD_PKG, 4)]
/-- An event entry for tick 9 that adds 1 to tally 0 of context 0. -/
def evt9 : List Byte := leBytes 32 (9 + 5 * 2 ^ 64 + 2 ^ 128)

theorem witness_MessagesEpochsAndCrook : Rules stMsg sysSrc ∧ Untimed stMsg ∧
    (msg0 3 4 evt9).length = 220 ∧ msgFromMaster stMsg (msg0 3 4 evt9) = true ∧ msgLen (msg0 3 4 evt9) = 32 ∧
    (match evtPlace stMsg (slice (msgPayload (msg0 3 4 evt9)) 0 32) with
     | some (ok, s1) => ok && !tickReached s1 (evtTick s1 0)
     | none => false) = true ∧
    (let e : List Byte := leBytes 32 (9 + 3 * 2 ^ 64)
     msgType (msg0 1 4 e) = 1 ∧ bits (leNat (slice (msgPayload (msg0 1 4 e)) 8 4)) 3 1 = 1 ∧
     (match evtPlace stMsg (slice (msgPayload (msg0 1 4 e)) 0 32) with | some (ok, _) => ok | none => false) = true) ∧
    msgLen (msg0 2 4 (leBytes 6 0)) = 4 + 2 * 1 ∧
    (let p := leBytes 4 2000 ++ leBytes 8 9
     msgLen (msg0 4 4 p) = 12 ∧ leNat (slice (msgPayload (msg0 4 4 p)) 0 4) = 2000 ∧
     leNat (slice (msgPayload (msg0 4 4 p)) 4 8) = 9 ∧ tickReached stMsg 9 = false) ∧
    msgLen (msg0 5 4 (leBytes 20 0)) = 20 ∧ msgLen (msg0 7 4 [1, 0, 0]) = 3 ∧
    msgFromMaster stMsg (msg0 7 5 [1, 0, 0]) = false ∧ msgType (msg0 6 5 [1]) = 6 ∧ msgType (msg0 0x20 5 [1]) = 0x20 :=
  ⟨rules_sys _, by unfold Untimed; decide +kernel, by decide +kernel⟩

theorem witness_MessagesEpochsAndCrook_own :
    (let s : State := { stMsg with herd := { stMsg.herd with outbox := [(0, 0x20)] } }
     s.herd.send = [] ∧ msgType (outboxMsg s) ≠ 0 ∧ s.herd.stage = none) ∧
    (let m : HerdMsg := { bytes := msg0 0x20 4 [1], head := false, soft := true, flying := true }
     ({ stMsg with herd := { stMsg.herd with send := [m] } }.herd.send.find? fun x => x.flying) = some m ∧ m.tries < 3) ∧
    (let s : State := { stMsg with herd := { stMsg.herd with stage := some (5, 0, 0) } }
     s.herd.stage = some (5, 0, 0) ∧ s.herd.held = [] ∧ tickReached s 0 = true) ∧
    crookOwner stMsg = 0 ∧ crookOwner (nextOf (.crookCas 0 0 1) stMsg) = 1 := by decide +kernel

/-- A package that is on a ring, in this role and ring state. -/
def stRing (r : RingSt) : State :=
  stMaster r [(pgHERD, F.HERD_CTL_JOIN, 1), (pgHERD, lockedField false, 1)]
def tickB : List Byte := leBytes 8 100
def rcntB (ph pos pkg : Nat) : List Byte := leBytes 8 0 ++ leBytes 1 ph ++ leBytes 2 pos ++ leBytes 14 0 ++ leBytes 2 pkg
def tickF : List Byte := frameOf symTICK tickB false
def rcnt (ph pos pkg : Nat) : List Byte := frameOf symRCNT (rcntB ph pos pkg) false

theorem field_of (first : Nat) (b : List Byte) (sym n : Nat) (h : 1 ≤ sym ∧ sym - 1 + n ≤ 252) :
    frameField (frameOf first b false) sym n = leNat (slice b (sym - 1) n) := by
  obtain ⟨k, rfl⟩ : ∃ k, sym = k + 1 := ⟨sym - 1, by omega⟩
  exact frameField_frameOf first b false k n h.2

/-- Frames of the three kinds: good, with the fields that the recount and the ring's time read. -/
theorem frames_ok : frameGood tickF symTICK false = true ∧ frameField tickF 1 8 = 100 ∧ frameField tickF 33 1 = 0 ∧
    (∀ ph pos pkg, frameGood (rcnt ph pos pkg) symRCNT false = true) ∧ frameField (rcnt 1 3 0) 9 1 = 1 ∧
    frameField (rcnt 2 3 0) 9 1 = 2 ∧ frameField (rcnt 1 3 0) 25 2 = 0 := by
  refine ⟨frameGood_frameOf _ _ (by decide), ?_, ?_, fun _ _ _ => frameGood_frameOf _ _ (by decide), ?_, ?_, ?_⟩ <;>
    (first | rw [tickF] | rw [rcnt]) <;> rw [field_of _ _ _ _ (by decide)] <;> decide +kernel

theorem witness_RingsKeepTimeAndRecount : Rules State.reset sysSrc ∧ Untimed (stRing {}) ∧
    ringJoined State.reset false = false ∧ ringActing State.reset false ≠ 1 ∧ ringActing (stMaster { acting := 1 } []) false = 1 ∧
    (ringOn (stRing {}) false = true ∧ ringActing (stRing {}) false ≠ 1 ∧ (getRingSt (stRing {}) false).mute = false ∧
     timeRing (stRing {}) = some false ∧
     herdTick (stRing {}) < (100 * 256 + posDelay (stRing {}) false / 64) / 256 ∧
     frameGood tickF symTICK true = false ∧ selfPkg (stRing {}) = 0) ∧
    (let m := stRing { acting := 1 }
     ringOn m false = true ∧ (getRingSt m false).phase = 0 ∧ (getRingSt m false).wait = none) ∧
    (let w := stMaster { acting := 1, wait := some 0 } [(pgHERD, F.HERD_CTL_JOIN, 1), (pgHERD, lockedField false, 1),
       (pgHERD, F.HERD_TIME_LO_TIME_LO, 16 * 256)]
     ringOn w false = true ∧ (getRingSt w false).wait = some 0 ∧ 0 + 16 ≤ herdTick w ∧
     (getRingSt (nextOf (.recountStart false) w) false).phase = 1) ∧
    (let t := stMaster { acting := 2 } [(pgHERD, F.HERD_CTL_JOIN, 1), (pgHERD, F.HERD_TIME_LO_TIME_LO, 64 * 256),
       (pgHERD, holdoverField false, 0)]
     ringActing t false = 2 ∧ (getRingSt t false).heard + 64 ≤ herdTick t ∧ timeRing t = some false ∧
     (getRingSt t false).good + 4 ≤ herdTick t ∧ fbit t pgHERD (holdoverField false) = false) :=
  ⟨rules_sys _, by unfold Untimed; decide +kernel, by decide +kernel⟩

/-- A one-operation program, and a batch of two positions over it. -/
def progK (k : Nat) : List Byte := leBytes 32 0x101 ++ leBytes 32 (k + 2 ^ 16 + 2 ^ 32)
def jobD (op : Nat) : BitVec 1024 := BitVec.ofNat 1024 (op + 2 ^ 128 + 2 ^ 192 + (tierNBase + 0x4000) * 2 ^ 256 +
  (tierNBase + 0x6000) * 2 ^ 320 + 256 * 2 ^ 384 + (tierNBase + 0x7000) * 2 ^ 448 + (tierNBase + 0x3000) * 2 ^ 512)
def job0 (op : Nat) : JobSt := { desc := jobD op, prog := progK 2 }

/-- Ring 0 of host die 0 enabled, with its entry, program and index entries in tier N, and these jobs. -/
def stJob (op tail : Nat) (js : List JobSt) : State :=
  let s := [(F.RCFG_ENABLE, 1), (F.RBASE_HI_BASE_HI, tierNBase / 2 ^ 32), (F.RCBASE_HI_CBASE_HI, tierNBase / 2 ^ 32),
    (F.RCBASE_LO_CBASE_LO, 0x800), (F.CACHE_HI_SLOT_LOG2, 12)].foldl (fun s e => fputi s (pgINP 0) e.1 0 e.2) (stK 0 [])
  let e := leBytes 16 (tierNBase + 0x5000 + 2 ^ 48 + 16 * 2 ^ 64)
  let s := storeBytes (storeBytes (storeBytes s tierNBase (leBytes 128 (jobD op).toNat) false) (tierNBase + 0x3000) (progK 2) false)
    (tierNBase + 0x4000) (e ++ e) false
  putRing s 0 0 { tail := tail, jobs := js }

theorem witness_InputJobsMakeSamples_fetch : ∀ op ∈ [0, 1], let s := stJob op 1 []
    (getRing s 0 0).jobs = [] ∧ fbiti s (pgINP 0) F.RCFG_ENABLE 0 = true ∧ foldFetches s 0 = true ∧
    (getRing s 0 0).tail ≠ fgeti s (pgINP 0) F.RSTS_HEAD 0 ∧ jobRoom s 0 0 = true ∧
    fbit s (pgHOSTD 0) F.HOSTD_STS_IN_RESET = false ∧ busWaits s tierNBase 128 = false ∧ busPlain s tierNBase 128 = true ∧
    busDown s tierNBase 128 = false ∧
    (busRead s tierNBase 128 false).2.2 = false ∧ BitVec.ofNat 1024 (leNat (busRead s tierNBase 128 false).2.1) = jobD op ∧
    busWaits s (jbits (job0 op) 559 512) 288 = false ∧ busDown s (jbits (job0 op) 559 512) 32 = false ∧
    (readProg s (jbits (job0 op) 559 512)).2 = some (progK 2) ∧ jobCheck s 0 0 (job0 op) = none ∧ jOp (job0 op) = op ∧
    jobInside s 0 (tierNBase + 0x8000) 16 = true ∧ busOpenB s (tierNBase + 0x8000) 16 = true := by decide +kernel

def im0 : Image := ⟨1, 1, 8, [[[7]]]⟩
def stPos (xs : List PosSt) : State := stJob 1 1 [{ job0 1 with next := 1, pos := xs }]

theorem witness_InputJobsMakeSamples : Rules (stPos []) sysSrc ∧
    ((1 + 65536 - fgeti (stPos []) (pgINP 0) F.RSTS_HEAD 0) % 65536 ≤ jobRingSize (stPos []) 0 0 ∧
     jobRingSize (stPos []) 0 0 < (17 + 65536 - fgeti (stPos []) (pgINP 0) F.RSTS_HEAD 0) % 65536) ∧
    (let s := stPos []
     (ringGrant s 0).map (·.1) = some 0 ∧ findPos s 0 0 1 (fun x => x.stage == .start) = none ∧
     (match startable s 0 0 1 with
      | some (i, j) => i == 0 && !usesCache s 0 0 j && !busWaits s (tierNBase + 0x4000 + 16 * candidate j 1 0) 16 &&
          !busDown s (tierNBase + 0x4000 + 16 * candidate j 1 0) 16 &&
          (let r := busRead s (tierNBase + 0x4000 + 16 * candidate j 1 0) 16 false
           !r.2.2 && !indexBad s 0 r.2.1)
      | none => false) = true) ∧
    (let x : PosSt := { p := 0, stage := .decode, entry := tierNBase + 0x5000 + 2 ^ 48 + 16 * 2 ^ 64 }
     let s := stPos [x]
     (findPos s 0 0 0 (fun x => x.stage == .decode)).map (fun r => bits r.2.2.entry 47 0) = some (tierNBase + 0x5000) ∧
     bits x.entry 95 64 = 16 ∧ busWaits s (tierNBase + 0x5000) 16 = false ∧ busDown s (tierNBase + 0x5000) 16 = false ∧
     (busRead s (tierNBase + 0x5000) 16 false).2.2 = false) ∧
    (let s := stPos [{ p := 0, stage := .claim, img := some im0, free := some 0 }]
     (findPos s 0 0 0 (fun x => x.stage == .claim)).isSome = true ∧ ringCache s 0 0 = some (0, 4096, 1) ∧
     busDown s 0 (256 + (imageBytes im0 1).length) = false ∧ busWaits s 0 (256 + (imageBytes im0 1).length) = false ∧
     256 + (imageBytes im0 1).length ≤ 4096 ∧ slotPaOf (0, 4096, 1) 0 = 0 ∧
     (let r := busAtomic s 0 .cas 8 { bytes := leBytes 8 0 ++ leBytes 8 (2 ^ 48), poison := false }
      leNat r.2.1 = 0 ∧ r.2.2 = false) ∧
     shapeBad (progK 2) (firstFrame (job0 1) 0) im0 = false) ∧
    (∀ k ∈ [1, 2, 3, 4, 5, 6, 7], opCode (progOp (progK k) 0) = k) ∧
    (findPos (stPos [{ p := 0, stage := .ops, img := some im0 }]) 0 0 0 (fun x => x.stage == .ops)).isSome = true ∧
    (let s := stPos [{ p := 0, stage := .write, img := some im0 }]
     (findPos s 0 0 0 (fun x => x.stage == .write)).isSome = true ∧ 1 < jP0 (job0 1) + jCount (job0 1) ∧
     busDown s (tierNBase + 0x6000) 256 = false ∧ busDown s (tierNBase + 0x7000) 32 = false ∧
     busWaits s (tierNBase + 0x6000) 256 = false ∧ busWaits s (tierNBase + 0x7000) 32 = false) ∧
    (findPos (stPos [{ p := 0, stage := .decode }, { p := 1 }]) 0 0 0 (fun x => x.stage == .decode || x.stage == .start)).isSome
      = true := ⟨rules_sys _, by decide +kernel⟩

/-- Group 0 and source 0 of host die 0 enabled for fold 0, with a sound descriptor of time 0 in the source's ring. -/
def stLive : State :=
  let s := [(F.GRP_CFG_ENABLE, 1), (F.GRP_PERIOD_PERIOD, 1024), (F.GRP_HALF_HALF, 256), (F.GRP_OUT_HI_BASE_HI, tierNBase / 2 ^ 32),
    (F.SRC_CFG_ENABLE, 1), (F.SRC_RING_HI_BASE_HI, tierNBase / 2 ^ 32),
    (F.SRC_RING_LO_BASE_LO, 0x100)].foldl (fun s e => fputi s (pgINP 0) e.1 0 e.2) (stK 0 [])
  { storeBytes s (tierNBase + 0x2000) (leBytes 32 (2 ^ 80)) false with tallies := [(0, { val := 1 })] }

theorem witness_LiveStreamsFuse : Rules stLive sysSrc ∧ BusOpen stLive tierNBase 256 ∧
    fbiti stLive (pgINP 0) F.SRC_CFG_ENABLE 0 = true ∧ (getTally stLive 0 0).val.toNat % 2 ^ 32 = 1 ∧
    fgeti stLive (pgINP 0) F.SRC_NEXT_NEXT 0 + 1 = 1 ∧ leNat (busRead stLive (tierNBase + 0x2000) 32 false).2.1 = 2 ^ 80 ∧
    (busRead stLive (tierNBase + 0x2000) 32 false).2.2 = false ∧ ptpLatched stLive 0 = 0 ∧
    nearestInstant stLive 0 0 0 = some 0 ∧ (getGroup stLive 0 0).next = 0 ∧ mget (getGroup stLive 0 0).held 0 = none ∧
    fbiti stLive (pgINP 0) F.GRP_CFG_ENABLE 0 = true ∧
    closeAt stLive 0 0 0 ≤ herdTime (withF stLive [(pgHERD, F.HERD_TIME_LO_TIME_LO, 65536)]) ∧
    sourcesRead (fputi (withF stLive [(pgHERD, F.HERD_TIME_LO_TIME_LO, 65536)]) (pgINP 0) F.SRC_NEXT_NEXT 0 1) 0 0 = true ∧
    fbiti stLive (pgINP 0) F.GRP_CFG_ENABLE 1 = false ∧ groupOk stLive 0 0 = true ∧ groupOk stLive 0 1 = false ∧
    fbiti stLive (pgINP 0) F.SRC_CFG_ENABLE 1 = false ∧ sourceOk stLive 0 0 = true ∧
    sourceOk (fputi stLive (pgINP 0) F.SRC_CFG_FOLD 1 3) 0 1 = false :=
  ⟨rules_sys _, busOpen_of _ _ _ (by decide +kernel), by decide +kernel⟩

/-- Team entry 0: this package and its neighbour on axis 0, of fold 0. -/
def stTm (l : List (Nat × Field × Nat)) : State :=
  withF (stN) ([(pgFAB, F.FAB_SHAPE_EXTENT, 1), (pgFAB, F.FAB_TEAM_ENABLE, 1), (pgFAB, F.FAB_TEAM_EXTENT, 1),
    (pgFAB, F.FAB_TEAM_PEER_FOLDS, 1)] ++ l)
/-- A collective command of one BF16 element (FP32 in a gather) over axis 0, to launch at tick 5. -/
def kFs : List (Nat × Nat) := [(134, 1), (138, 1), (143, 1), (176, 31), (208, 0x3F800000), (448, 5)]
def k43 : Cmd := cmdP .running 0x43 [(134, 1), (154, 1)]
def col0 : ColSt := { id := id0, team := 0, cseq := 0, tile := 0, fold := 0 }
/-- The collective `x` of command `k43` in flight, and these flits received. -/
def stCol (x : ColSt) (fs : List Flit) : State :=
  let s := stTm []
  { s with cmds := [k43], fab := { s.fab with cols := [x], inbox := fs.map fun f => (0, f) } }
/-- A COL flit of that collective from rank 1. -/
def kf (op phase tid : Nat) (lag : Bool) : Flit :=
  { linkFlit op 0 0 0 with ftype := ftCOL, tid := tid, lag := lag, operand := phase * 2 ^ 32 + 2 ^ 40, srcPkg := 1 }

theorem witness_TeamsAndCollectivesRun_commands : Rules (stTm []) sysSrc ∧ (stTm []).herd.stage = none ∧
    (fgeti (stTm []) pgFAB F.FAB_TEAM_FOLD 1 = bits 1 4 1 ∧ fgeti (stTm []) pgFAB F.FAB_TEAM_TEAM_ID 1 = bits 1 20 5 ∧
     teamCheck (stTm []) 1 = some 4 ∧ teamCheck (fputi (stTm []) pgFAB F.FAB_TEAM_TEAM_ID 1 9) 1 = none) ∧
    (∀ op ∈ [0x40, 0x41, 0x42, 0x43, 0x44], let x := cmd0 op (if op < 0x44 then kFs else [(134, 1), (448, 5)])
      let s : State := { stTm [] with cmds := [x] }
      findCmd s id0 = some x ∧ cOp x = op ∧ ctxFold s 0 = some 0 ∧ fenced s 0 = false ∧ kBad s x = false ∧ kUnsup s x = false ∧
      kState s x = false ∧ kLaunch x = 5 ∧ herdTime s / 256 < 5 ∧ s.fab.aborted.contains (0, 0) = false) ∧
    findCol (stTm []) 0 (fgeti (stTm []) pgFAB F.FAB_TEAM_CSEQ 0) = none ∧
    (let s := stTm []
     { s with fab := { s.fab with aborted := [(0, 0)] } }.fab.aborted.contains (0, 0)) = true := ⟨rules_sys _, by decide +kernel⟩

theorem witness_TeamsAndCollectivesRun_flits :
    (let s := stCol col0 []
     findCol s 0 0 = some col0 ∧ findCmd s id0 = some k43 ∧ kLaunch k43 = 0 ∧ selfRank s 0 (kAxes k43) ≠ kRoot k43 ∧
     colComplete s col0 k43 = false ∧ nowUs s ≤ (colDeadline s col0).1 ∧ laggard s = false ∧
     (colDeadline s { col0 with launched := true }).1 < nowUs (withF s [(pgHERD, F.HERD_TIME_HI_TIME_HI, 1)])) ∧
    (let s := withF (stCol col0 []) [(pgFAB, F.FAB_LAG_SW, 1)]
     laggard s = true ∧ kAxes k43 = [0] ∧ ringNext s 0 0 0 (rankCoord s 0 [0] 0 (selfRank s 0 [0])) = 1 ∧
     rankCoord s 0 [0] 0 (selfRank s 0 [0]) = 0 ∧
     (match nextPair s (flitStart s { colFlit s col0 4 0 0 (rankPkg s 0 [0] (rankWith s 0 [0] (selfRank s 0 [0]) 0 1)) [] false
        with lag := true } (kSpread k43)) none with
      | some (pair, g, _) => (pickPort s pair g.vc).isSome
      | none => false) = true) ∧
    (let f := { kf 1 5 3 false with dstPkg := 1 }
     let x := { col0 with unacked := [f] }
     let s := stCol x []
     (x.unacked.filter fun h => h.tid == 3) = [f] ∧
     (match nextPair s (flitStart s { f with lag := lagMark s x } (kSpread k43)) none with
      | some (pair, g, _) => (pickPort s pair g.vc).isSome
      | none => false) = true) ∧
    (∀ op ∈ [1, 2, 3, 4, 5], let f := kf op 4 1 (op == 4)
      let s := stCol { col0 with unacked := [kf 1 4 7 false] } [f]
      inboxPort s f ftCOL op = some 0 ∧ flitTeam s f = some 0 ∧ flitCseq f = 0 ∧ (findCol s 0 0).isSome = true ∧
      (f.lag = true ↔ op = 4) ∧ ({ col0 with unacked := [kf 1 4 7 false] } : ColSt).seen.contains (flitPhase f, flitRank f, f.tid) = false) ∧
    (let f := kf 3 0 0 false
     let s : State := { stTm [] with fab := { (stTm []).fab with inbox := [(0, f)] } }
     inboxPort s f ftCOL 3 = some 0 ∧ flitTeam s f = some 0 ∧ findCol s 0 0 = none ∧ cseqPast s 0 0 = false ∧
     s.fab.aborted.contains (0, 0) = false) ∧
    (let f := kf 1 4 1 false
     let x := { col0 with seen := [(4, 1, 1)] }
     x.seen.contains (flitPhase f, flitRank f, f.tid) = true ∧ kGathers k43 = true ∧ flitPhase f = 4 + 0 ∧
     ringNext (stCol col0 []) 0 0 1 (rankCoord (stCol col0 []) 0 [0] 0 (selfRank (stCol col0 []) 0 [0])) =
       rankCoord (stCol col0 []) 0 [0] 0 (tagRank (stCol col0 []) k43 1)) := by decide +kernel

/-- SEQ_RUN of one micro-batch (two with `m` 1) with these budgets; EVAL from `ev`. -/
def sq (fs : List (Nat × Nat)) : Cmd := cmdP .running 0x68 ([(160, 1), (192, 1), (142, 1)] ++ fs)
def stSq (c : Cmd) (q : SeqSt) : State := { stF with cmds := [c], trn := { stF.trn with seqs := [(0, q)] } }
def sq0 : SeqSt := { id := id0, tF := 0, tB := 0, tO := 0 }

theorem witness_StepsSeedsAndSequencers : Rules stF sysSrc ∧
    (∀ tick ∈ [0, 5], let x := cmd0 0x64 [(128, 7), (192, tick)]
      let s := stC stF 0x64 [(128, 7), (192, tick)]
      findCmd s id0 = some x ∧ ctxFold s 0 = some 0 ∧ fenced s 0 = false ∧ cbits x 255 192 = tick ∧
      reservedOk x.word.toNat [(159, 128), (255, 192)] = true ∧ mget s.trn.pend 0 = none ∧ tickReached s tick = (tick == 0) ∧
      tickReached (withF s [(pgHERD, F.HERD_TIME_LO_TIME_LO, 5 * 256)]) tick = true) ∧
    (∀ now ∈ [0, 5], let u : State := { stC stF 0x64 [] with trn := { stF.trn with pend := [(0, id0)] } }
      let s := withF u [(pgCTX 0, F.CTX_STEP_TICK_LO_TICK_LO, 5), (pgHERD, F.HERD_TIME_LO_TIME_LO, now * 256)];
      mget s.trn.pend 0 = some id0 ∧ findCmd s id0 = some (cmd0 0x64 []) ∧ tickReached s
        (fpair s (pgCTX 0) F.CTX_STEP_TICK_LO_TICK_LO F.CTX_STEP_TICK_HI_TICK_HI 0) = (now == 5)) ∧
    (fbit stF (pgCTX 0) F.CTX_CFG_ENABLE = true ∧ fbit stF (pgCTX 1) F.CTX_CFG_ENABLE = false) ∧
    (let x := cmd0 0x68 [(160, 1), (192, 1), (310, 1)]
     let s := stC stF 0x68 [(160, 1), (192, 1), (310, 1)]
     findCmd s id0 = some x ∧ ctxFold s 0 = some 0 ∧ fenced s 0 = false ∧ mget s.trn.seqs 0 = none ∧
     cbits x 191 160 ≤ cbits x 223 192 ∧ x.word.toNat.testBit 310 = true ∧ ctxFold s (cbits x 319 311) = some 0 ∧
     reservedOk x.word.toNat [(135, 128), (141, 136), (147, 142), (153, 148), (159, 154), (191, 160), (223, 192), (287, 224),
       (293, 288), (309, 294), (310, 310), (319, 311), (325, 320)] = true) ∧
    (let s := stSq (sq []) sq0
     mget s.trn.seqs 0 = some sq0 ∧ findCmd s id0 = some (sq []) ∧ tickReached s (cbits (sq []) 287 224) = true ∧
     sq0.b < seqM (sq []) ∧ sq0.f < seqM (sq []) ∧ seqFits sq0 (sq []) = true) ∧
    (let q := { sq0 with f := 1, doneF := 1 }
     q.f = seqM (sq []) ∧ q.b < seqM (sq []) ∧ q.b < q.f ∧ q.b < q.doneF) ∧
    (let q := { sq0 with f := 1, doneF := 1 }
     let c := sq [(128, 1)]
     seqFits q c = false ∧ q.f < seqM c ∧ q.doneB = q.b ∧ q.b < seqM c ∧ q.b < q.f ∧ q.b < q.doneF) ∧
    (let q := { sq0 with f := 1, b := 1, doneF := 1, doneB := 1 }
     q.b = seqM (sq []) ∧ seqM (sq []) ≤ q.doneB ∧ (sq []).phase ≠ .done ∧ (sq []).word.toNat.testBit 310 = false ∧
     (sq [(310, 1)]).word.toNat.testBit 310 = true ∧ cbits (sq [(310, 1)]) 309 294 ≤ q.opt ∧
     (sq [(310, 1)]).word.toNat.testBit 10 = false) := ⟨rules_sys _, by decide +kernel⟩

/-- A run descriptor: program at 0x8000, `n` + 1 elements of one written-back stream of format 0 at 0x9000 in register 0. -/
def eDesc (n : Nat) : List Byte :=
  leBytes 256 (0x8000 + n * 2 ^ 128 + (0x9000 + 2 ^ 57 + 2 ^ 60) * 2 ^ (8 * 0x60))
def eProg : List Byte := leBytes 32 (1 + 2 ^ 24) ++ leBytes 4 0xF
def eRun (n : Nat) : EtchRun :=
  { id := id0, fold := 0, seed := 0, step := 0, loaded := true, desc := eDesc n, prog := [0xF], lens := (1, 0, 0) }
/-- Etch unit 0 of tile 0, with these bytes of its context's memory, this command and this run; the homes' counters are
frozen. -/
def stE (bs : List (Nat × List Byte)) (c : Cmd) (r : Option EtchRun) : State :=
  let s := bs.foldl (fun s e => storeBytes s (tierNBase + e.1) e.2 false) (withF (stM [.etch 0 0])
    ([0, 1, 2, 3].map fun t => (pgCOH t, F.CTL_CNT_FREEZE, 1)))
  let s : State := { s with cmds := [c] }
  match r with
  | some r => putEtch s 0 0 r
  | none => s
def pool0 (ready : Option Nat) : PoolRun :=
  { id := id0, tile := 0, fold := 0, seed := 0, step := 0, kind := 1, ready := ready, tally := 0, value := 0, team := 0, cseq := 0 }

theorem witness_EtchUnitsRun_start :
    (∀ k ∈ [0, 1], let fs := [(128, 0x4000), (176, k)]
      let s := stC stF 0x60 fs
      findCmd s id0 = some (cmd0 0x60 fs) ∧ ctxFold s 0 = some 0 ∧ fenced s 0 = false ∧ (cmd0 0x60 fs).tile < 4 ∧
      (cmd0 0x60 fs).engine < 8 ∧ cbits (cmd0 0x60 fs) 175 128 % 64 = 0 ∧ cbits (cmd0 0x60 fs) 177 176 = k ∧
      reservedOk (cmd0 0x60 fs).word.toNat [(175, 128), (177, 176), (183, 178), (189, 184), (207, 192), (271, 208)] = true) ∧
    (∀ code ∈ [0, 9], let c := cmdP .running 0x60 []
      let s := stC stF 0x60 []
      let s : State := { s with cmds := [c], trn := { s.trn with pool := [pool0 (some code)] } }
      (s.trn.pool.filter fun e => e.tile == 0) = [pool0 (some code)] ∧ findCmd s id0 = some c ∧ c.phase ≠ .done ∧
      (freeEngine s (.etch 0 0)).isSome = true) ∧
    (([pool0 none].filter fun e => e.tile == 0 && e.ready.isSome) = []) ∧
    (let c := cmdP .running 0x60 [(128, 0x4000)]
     let r := { eRun 0 with loaded := false }
     let s := stE [(0x4000, eDesc 0), (0x8000, eProg)] c (some r)
     let d := eDesc 0
     getEtch s 0 0 = some r ∧ findCmd s id0 = some c ∧
     gotBytes (etchRead s 0 0 0 (cbits c 175 128) 256 .ok) = some d ∧ etchBad d = false ∧ etchUnsup d = false ∧
     (let s1 := (etchRead s 0 0 0 (cbits c 175 128) 256 .ok).1
      gotBytes (etchRead s1 0 0 0 (etchProg d) 32 .ok) = some (slice eProg 0 32) ∧
      etchHeader (slice eProg 0 32) = some (1, 0, 0) ∧
      (let s2 := (etchRead s1 0 0 0 (etchProg d) 32 .ok).1
       gotBytes (etchRead s2 0 0 0 (etchProg d + 32) 4 .ok) = some (slice eProg 32 4) ∧
       etchWordOk (field (slice eProg 32 4) 0 4) (etchPhase (1, 0, 0) 0) (etchNormOut d != 0) = true ∧
       (etchTiers (etchRead s2 0 0 0 (etchProg d + 32) 4 .ok).1 0 0 0
          ((etchStreams d).flatMap fun e => (streamRanges e d).flatMap rangePages)).2 = some none ∧ etchScalLoad d = 0))) := by
  decide +kernel

theorem witness_EtchUnitsRun_blocks :
    (let r := eRun 0
     let s := stE [] (cmdP .running 0x60 []) (some r)
     getEtch s 0 0 = some r ∧ (match etchStreams r.desc with
      | [e] => !isQm e.fmt && etchLanes r.desc r.block == 1 &&
          (gotBytes (etchRead s 0 0 0 (e.addr + 64 * r.block * (elemBits e.fmt / 8)) (1 * (elemBits e.fmt / 8)) .ok)).isSome
      | _ => false) = true) ∧
    (∀ n ∈ [0, 64], let r := { eRun n with inBlock := true, elems := [List.replicate 64 0] }
      let s := stE [] (cmdP .running 0x60 []) (some r)
      let r1 := etchFinishBlock r
      let o := etchOut s 0 0 r1.id.ctx .ok ((((etchStreams r1.desc).filter (·.wb)).map (etchStore r1)).flatMap fun x =>
        x.outs.map fun o => (o.1, o.2, r1.poison))
      getEtch s 0 0 = some r ∧ etchNormOut r1.desc = 0 ∧ (match o.2 with | some (.ok _) => true | _ => false) = true ∧
      (r1.block + 1 = etchBlocks r1.desc ↔ n = 0) ∧ findCmd o.1 r1.id = some (cmdP .running 0x60 [])) ∧
    (∀ op ∈ [1, 2, 3, 4, 5, 6, 7, 8, 9, 10, 11, 12, 13, 14, 15, 16, 32, 33], ∀ d ∈ [0, 24],
      let r := { eRun 0 with inBlock := true, prog := [op + d * 2 ^ 6] }
      getEtch (stE [] (cmdP .running 0x60 []) (some r)) 0 0 = some r ∧ r.loaded = true ∧
      r.prog[r.pc]? = some (op + d * 2 ^ 6 + 0 * 2 ^ 11 + 0 * 2 ^ 16 + 0 * 2 ^ 21)) := by decide +kernel

/-- What a unit's output answered, and the commands after it. -/
def outOk (r : State × Option (Except (List Nat) (List Nat))) : Bool :=
  (match r.2 with | some (.ok _) => true | _ => false) && (match findCmd r.1 id0 with | some c => c.phase != .done | none => false)

theorem witness_EtchUnitsRun_combine : (let x := cmd0 0x61 [(128, 0x4000), (176, 0x5000), (240, 0x3F800000)]
    let s := stE [] x none
    findCmd s id0 = some x ∧ ctxFold s 0 = some 0 ∧ fenced s 0 = false ∧
    reservedOk x.word.toNat [(175, 128), (223, 176), (239, 224), (271, 240)] = true ∧
    multOk (BitVec.ofNat 32 (cbits x 271 240)) = true ∧ cbits x 239 224 + 1 = 1 ∧
    (match etchRead s 0 0 0 0x4000 32 .ok with
     | (s1, some (.ok (bs, p))) => let w := winHold ({} : WinRec) (winOfBytes (slice bs 0 32))
       outOk (etchOut s1 0 0 0 .ok [(0x5000, leBytes 4 (winRead fFP32 false 0x3F800000 w).1, p)])
     | _ => false) = true) := by decide +kernel

theorem witness_EtchUnitsRun_export : (let x := cmd0 0x62 [(128, 0x4000), (176, 0x5000), (224, 0x6000)]
    let s := stE [] x none
    findCmd s id0 = some x ∧ ctxFold s 0 = some 0 ∧ fenced s 0 = false ∧ cbits x 415 384 + 1 = 1 ∧
    reservedOk x.word.toNat [(175, 128), (223, 176), (271, 224), (303, 272), (308, 304), (375, 320), (415, 384), (471, 416)]
      = true ∧
    (match etchReads s 0 0 0 .ok [(0x4000, imageElemBytes 0 1), (0x5000, 0)] [] with
     | (s1, some (.ok [(es, p), (ss, q)])) => outOk (etchOut s1 0 0 0 .ok
         [(0x6000, imageHeader 0 0 (ctxStep s1 0) 0 1 1 (crc32c (es ++ ss)), p || q), (0x6040, es, p || q),
           (0x6040 + roundUp (imageElemBytes 0 1) 64, ss, p || q)])
     | _ => false) = true) := by decide +kernel

theorem witness_EtchUnitsRun_import : (let x := cmd0 0x63 [(128, 0x4000), (176, 0x5000), (224, 0x6000)]
    let es := List.replicate (imageElemBytes 0 1) (0 : Byte)
    let h := imageHeader 0 0 0 0 1 1 (crc32c es)
    let s := stE [(0x4000, h)] x none
    findCmd s id0 = some x ∧ ctxFold s 0 = some 0 ∧ fenced s 0 = false ∧ etchFmtOk 0 = true ∧ imageOk h = true ∧
    reservedOk x.word.toNat [(175, 128), (223, 176), (271, 224), (303, 272), (308, 304), (375, 320), (415, 384)] = true ∧
    gotBytes (etchRead s 0 0 0 0x4000 64 .ok) = some h ∧ imageOk (List.replicate 64 0) = false ∧
    gotBytes (etchRead (stE [] x none) 0 0 0 0x4000 64 .ok) = some (List.replicate 64 0) ∧
    (let s1 := (etchRead s 0 0 0 0x4000 64 .ok).1
     let s' := storeBytes s (tierNBase + 0x4000) h true
     (match etchRead s' 0 0 0 0x4000 64 .ok with | (_, some (.ok (_, p))) => p | _ => false) = true ∧
     (match etchReads s1 0 0 0 .ok [(0x4040, field h 0x28 4), (0x4040 + roundUp (field h 0x28 4) 64, field h 0x2C 4)] [] with
      | (s2, some (.ok [(es', false), (ss, false)])) => es' == es && ss == [] && outOk (etchOut s2 0 0 0 .ok
          [(0x5000, slice es 0 (elemBits 0 / 8), false), (0x6000, [], false)])
      | _ => false) = true ∧ field h 0x30 4 = crc32c es ∧ field h 8 4 = 0 ∧ bits (field h 4 4) 12 8 = 0 ∧
     bits (field h 0x10 8) 55 0 = 0 ∧ field h 0x18 4 = 1)) := by decide +kernel

/-- A state with these fields of the package's and of C-die 0's power pages. -/
def stW (l : List (Field × Nat)) (f : PwrSt → PwrSt := id) : State :=
  let s := withF stF (l.map fun e => (pgPWR, e.1, e.2))
  { s with pwr := f s.pwr }
def stWd (l : List (Field × Nat)) (f : PwrSt → PwrSt := id) : State :=
  let s := withF stF (l.map fun e => (pgPWRDIE 0, e.1, e.2))
  { s with pwr := f s.pwr }

theorem witness_PowerCommandsAct : Rules stF sysSrc ∧ clocksStopped stF = false ∧
    (let was := fget stF (pgPWRDIE 0) F.PWR_OPRETIRE_RETIRED
     was ||| (2 ^ (Nat.log2 4 + 1) - 1) ≠ was) ∧
    mget stF.pwr.goal 0 = none ∧ mget (stWd [] fun x => { x with goal := [(0, 700)] }).pwr.goal 0 = some 700 ∧
    fbit stF (pgPWRDIE 0) F.PWR_DIE_STS_DROOP = false ∧
    fbit (stWd [(F.PWR_DIE_STS_DROOP, 1)]) (pgPWRDIE 0) F.PWR_DIE_STS_DROOP = true ∧
    (∀ tj ∈ [90, 95, 98, 100, 105], let s := stWd [(F.PWR_DIE_STS_TJ, tj), (F.PWR_DIE_CTL_TJ_THROTTLE, 100)]
      fget s (pgPWRDIE 0) F.PWR_DIE_STS_TJ = tj ∧ fget s (pgPWRDIE 0) F.PWR_DIE_CTL_TJ_THROTTLE = 100 ∧
      clocksStopped s = false) ∧
    (let g := fget (stWd [(F.PWR_CPM_GUARD, 20)]) (pgPWRDIE 0) F.PWR_CPM_GUARD
     g ≤ min 20 255 ∧ min 19 255 < g) ∧
    (let t := stWd [] fun x => { x with goal := [(0, 700)] }
     opHeld t 0 = true ∧ opHeld stF 0 = false) ∧
    fbit stF pgPWR F.PWR_TRIP_VALID = false ∧ stF.pwr.alertLow = false ∧
    fbit (stW [(F.PWR_STS_ALERT, 1)]) pgPWR F.PWR_STS_ALERT = true ∧
    (let s := stW [(F.PWR_CAP_TICK_LO_TICK_LO, 5)]
     let tick := fpair s pgPWR F.PWR_CAP_TICK_LO_TICK_LO F.PWR_CAP_TICK_HI_TICK_HI 0
     tickReached s tick = false ∧ tickReached stF 0 = true ∧ min (max 1000 1400) 2800 ≠ 1000 ∧
     fpair stF pgPWR F.PWR_CAP_TICK_LO_TICK_LO F.PWR_CAP_TICK_HI_TICK_HI 0 = 0) ∧
    (∀ tick ∈ [0, 5], let s := stW [] fun x => { x with capNext := some (2000, tick) }
      s.pwr.capNext = some (2000, tick) ∧ tickReached s tick = (tick == 0)) ∧
    (∀ cd ∈ [(0, 16), (15, 16), (15, 1), (3, 8)], let s := stW [(F.PWR_STS_CEIL_CAP, cd.1), (F.PWR_STS_DUTY, cd.2)]
      fbit s pgPWR F.PWR_STS_ALERT = false ∧ clocksStopped s = false ∧ fget s pgPWR F.PWR_STS_CEIL_CAP = cd.1 ∧
      fget s pgPWR F.PWR_STS_DUTY = cd.2 ∧ 0 < fget s pgPWR F.PWR_CAP_CAP_W) ∧
    dieFold stF 0 = some 0 ∧ (TempUnit.tile 0) ≠ .cdie 0 ∧ tripAt 2 = 115 ∧ tripAt 1 = 125 :=
  ⟨rules_sys _, by decide +kernel⟩

/-- A fold reset of fold 0 in this phase. -/
def rst0 (ph : RstPhase) (cap : Bool) : FoldRst :=
  { phase := ph, cause := 2, unit := 0, detail := 0, dies := 1, time := 0, captured := cap }
def stR (ph : RstPhase) (cap : Bool) (cs : List Cmd) (l : List (Nat × Field × Nat)) : State :=
  let s := withF stF ([(pgFOLD 0, F.FOLD_STS_RESETTING, 1)] ++ l)
  { s with cmds := cs, rst := { s.rst with folds := [(0, rst0 ph cap)] } }

theorem witness_FaultsAreContained_watches :
    (let c := cmdP .head 0x10 []
     let s := withF { stF with cmds := [c] } [(pgCTX 0, F.QSTS_BLOCKED, 1)]
     findCmd s id0 = some c ∧ c.phase ≠ .done ∧ c.phase = .head ∧ fbiti s (pgCTX 0) F.QSTS_BLOCKED 0 = true ∧
     fget s (pgSHEEP (fgeti s (pgCTX 0) F.QCFG_HOME_TILE 0)) F.SHEEP_TMO0_QUEUE_MS ≠ 0) ∧
    (let c := cmdP .running 0x60 []
     let e : PoolRun := { id := id0, tile := 0, fold := 0, seed := 0, step := 0, kind := 1, tally := 0, value := 0, team := 0, cseq := 0 }
     let s : State := { stF with cmds := [c], trn := { stF.trn with pool := [e] } }
     findCmd s id0 = some c ∧ c.phase ≠ .head ∧ c.phase ≠ .done ∧ fget s (pgSHEEP c.tile) F.SHEEP_TMO0_QUEUE_MS ≠ 0 ∧
     (s.trn.pool.any fun r => r.id == id0 && r.ready.isNone) = true) ∧
    (let c := cmdP .running 0x10 []
     let k : PrepCore := ⟨0, 0, 0⟩
     let s := putCore (withF { stF with cmds := [c] } [(corePage k, F.PREP_STS_RUNNING, 1)]) k { cmd := id0 }
     findCmd s id0 = some c ∧ cOp c = 0x10 ∧ c.phase = .running ∧ k ∈ penCores c.die c.pen ∧ (getCore s k).cmd = id0 ∧
     fbit s (corePage k) F.PREP_STS_RUNNING = true) ∧
    (let st : StreamSt := { stall := some ⟨0, 0, 0, none, 0, 0, false⟩ }
     getStream (putStream stF (.etch 0 0) st) (.etch 0 0) = st ∧ st.stall.isSome = true) ∧
    fbit stF pgPWR F.PWR_STS_ALERT = false ∧
    (let r : HatchRun := { iss := ⟨0, .list 0 0, 0, 0, 0, none, 0⟩, fold := 0, vecs := [], vscales := [], vpoison := [] }
     (getHatch (putHatch stF 0 0 { run := some r }) 0 0).run = some r) ∧
    (∀ h ∈ [[], [(pgETCH 0 0, 0)]], let c := cmdP .running 0x60 []
      let r : EtchRun := { id := id0, fold := 0, seed := 0, step := 0 }
      let s := putEtch { stF with cmds := [c], rst := { stF.rst with hangs := h } } 0 0 r
      getEtch s 0 0 = some r ∧ findCmd s r.id = some c ∧ c.phase ≠ .done ∧ (mget s.rst.hangs (pgETCH 0 0)).isSome = !h.isEmpty) ∧
    (let c := cmdP .running 0x30 []
     let s := putDrv { stF with cmds := [c] } 0 0 { cmd := id0, fold := 0 }
     getDrv s 0 0 = some { cmd := id0, fold := 0 } ∧ findCmd s id0 = some c ∧ c.phase ≠ .done) ∧
    agentDead stF 0 = false ∧ owesAnswer stF 0 0 = false ∧ unitWorks stF (.vec 0 0) = false ∧
    (let s : State := { stF with coh := { stF.coh with txns := [(0, { req := .rdX 1, waiting := 1 })] } }
     owesAnswer s (homeOf s 0) 0 = true ∧ agentDead s 0 = false) ∧
    (∀ o ∈ [0, 4], let p : HubPkt := { pkt := ⟨7, .request, none, 0, 0, o, 64, false, true⟩, input := 0, since := 0 }
      let s : State := { withF stF [(pgFLT, F.FLT_CTL_AUTO, 0)] with hubs := [(0, { pkts := [p], stalled := [7] })] }
      (mgetD s.hubs 0 {}).pkts.find? (fun x => x.pkt.id == 7) = some p ∧ (mgetD s.hubs 0 {}).stalled.contains 7 = true ∧
      hubTarget 0 p.pkt = (if o = 0 then some 0 else none) ∧ foldOfDie s 0 = some 0 ∧ pkgStopped s = false ∧
      fbit s pgFLT F.FLT_CTL_AUTO = false ∧ fbit s (pgFOLD 0) F.FOLD_STS_RESETTING = false) ∧
    (let s := putPort stF 0 { replay := [linkFlit 1 0 0 0] }
     (getPort s 0).replay ≠ [] ∧ fbit s (pgNP 0) F.NP_STS_DOWN = false) ∧
    (let c := cmdP .running 0x43 []
     let x : ColSt := { id := id0, team := 0, cseq := 0, tile := 0, fold := 0 }
     let s : State := { stF with cmds := [c], fab := { stF.fab with cols := [x] } }
     (s.fab.cols.find? fun x => x.tile == 0) = some x ∧ findCmd s x.id = some c ∧ c.phase ≠ .done) := by decide +kernel

/-- A table whose segment 0 lies in tier F, as a stream holds it. -/
def tblF : SegTbl := ⟨0, leBytes 32 (0x3B + 0x3FFFF * 2 ^ 76) ++ List.replicate 480 0, List.replicate 16 0⟩

/-- `s` with a GiB of tier F, to which the stream `x` translates. -/
def onTierF (s : State) (x : StreamId) : State :=
  putStream (withF s [(pgPKG, F.PKG_BOOT_TIERF_READY, 1), (pgPKG, F.PKG_TIERF_SIZE_GIB, 1)]) x { cache := [tblF] }

/-- A unit's request that waits on tier F pauses its watch, and its own bound ends it. -/
theorem witness_FaultsAreContained_below :
    (let s := onTierF (stE [] (cmdP .running 0x60 [(128, 0x4000)]) (some { eRun 0 with loaded := false })) (.etch 0 0)
     (getEtch s 0 0).isSome = true ∧ (etchAsks s 0 0).any (askBelow s) = true ∧ watchPaused s (.etch 0 0) = true) ∧
    (let s := onTierF (stDrv 0x31 [(224, 7)]) (.drover 0 0)
     (getDrv s 0 0).isSome = true ∧ (engineBelow s 0 0).isSome = true) ∧
    (let x : ColSt := { col0 with launched := true, todo := [(0x40, List.replicate 8 1, false)] }
     let s := onTierF (stCol x []) (colStream x)
     (s.fab.cols.find? fun x => x.tile == 0 && (colAsks s x).any (askBelow s)) = some x ∧ findCmd s x.id = some k43 ∧
     k43.phase ≠ .done) ∧
    (let r : HatchRun := { iss := ⟨0, .list 0 0, 0, 0, 0, none, 0⟩, fold := 0, vecs := [], vscales := [], vpoison := [] }
     watchPaused (putHatch stF 0 0 { run := some r }) (.hatch 0 0) = false) ∧
    watchPaused (putEtch { stF with cmds := [cmdP .running 0x60 []] } 0 0 { id := id0, fold := 0, seed := 0, step := 0 })
      (.etch 0 0) = false ∧
    watchPaused (putDrv { stF with cmds := [cmdP .running 0x30 []] } 0 0 { cmd := id0, fold := 0 }) (.drover 0 0) = false := by
  decide +kernel

theorem witness_FaultsAreContained_resets : Rules stF sysSrc ∧ Untimed (stR .clear false [] []) ∧
    (foldEnabled stF 0 = true ∧ foldEnabled stF 1 = false ∧ fbit stF (pgFOLD 0) F.FOLD_STS_RESETTING = false ∧
     (∀ a ∈ [0, 1], fbit (withF stF [(pgFLT, F.FLT_CTL_AUTO, a)]) pgFLT F.FLT_CTL_AUTO = (a == 1)) ∧
     (1 : BitVec 16).toNat = 2 ^ 0 ∧ pkgStopped stF = false ∧
     pkgStopped (withF stF [(pgFLT, F.FLT_STS_PKG_FATAL, 1)]) = true) ∧
    (let c := cmdP .running 0x10 []
     let s := stR .abort false [c] []
     getFoldRst s 0 = some (rst0 .abort false) ∧ pkgStopped s = false ∧ findCmd s id0 = some c ∧ ofFold s 0 c = true) ∧
    (∀ b ∈ [false, true], let s := stR .drain b [] []
      getFoldRst s 0 = some (rst0 .drain b) ∧ foldDrained s 0 = true ∧ pkgStopped s = false ∧ (rst0 .drain b).drained = false) ∧
    (let s := stR .clear false [] []
     getFoldRst s 0 = some (rst0 .clear false) ∧ pkgStopped s = false ∧ diesClear s 1 = true ∧
     (s.rst.writes.filter fun w => w.1 == 0) = []) ∧
    captureArea (stR .drain false [] []) 0 1 = none ∧
    captureArea (stR .drain false [] [(pgMEMMAP, F.MEMMAP_STS_READY, 1), (pgMEMMAP, F.MEMMAP_STS_LIVE, 1),
      (pgFLT, F.FLT_CAP_LO_VALID, 1), (pgFLT, F.FLT_CAP_LO_BASE, tierNBase / 2 ^ 21)]) 0 1 = some tierNBase :=
  ⟨rules_sys _, by unfold Untimed; decide +kernel, by decide +kernel⟩

/-- A state whose sequencer, pins and running boot are these. -/
def stB (f : BootSt → BootSt) (l : List (Nat × Field × Nat)) : State :=
  let s := withF State.reset l
  { s with boot := f s.boot }

/-- A boot image with no payload. -/
def img0 : List Byte := leBytes 8 0x14C424F54 ++ (leBytes 8 0 ++ (sha384 [] ++ List.replicate 4032 0))

theorem img0_hash : (img0.drop 0x10).take 48 = sha384 [] := by
  have h : (sha384 []).length = 48 := by simp [sha384, shaPad, shaBlocks, shaBlock]
  have e : img0 = (leBytes 8 0x14C424F54 ++ leBytes 8 0) ++ (sha384 [] ++ List.replicate 4032 0) := by
    unfold img0; rw [List.append_assoc]
  rw [e, List.drop_left' (by rfl), List.take_left' h]

theorem img0_length : img0.length = 4096 := by
  have h : (sha384 []).length = 48 := by simp [sha384, shaPad, shaBlocks, shaBlock]
  unfold img0
  rw [List.length_append, List.length_append, List.length_append, h, List.length_replicate]; rfl

theorem img0_valid (s : State) (h : s.fuse.svnMin = 0) : imageValid s img0 true true = true := by
  have w0 : imgWord img0 0 = 0x4C424F54 := by rfl
  have w1 : imgWord img0 4 = 1 := by rfl
  have w3 : imgWord img0 12 = 0 := by rfl
  simp [imageValid, w0, w1, w3, img0_hash, img0_length, h]

theorem witness_PowerAndBootSequences_power :
    ((stB (fun b => { b with en := 2 ^ 7 }) []).boot.en.testBit (7 + (4 * 0 + 0)) = true ∧
     bits (1 : BitVec 24).toNat 7 0 ≠ crc8 [bits (1 : BitVec 24).toNat 23 16, bits (1 : BitVec 24).toNat 15 8]) ∧
    State.reset.boot.seq = .off ∧ State.reset.pwr.tripN = false ∧ State.reset.boot.hot < 2 ∧
    { State.reset with pwr := { State.reset.pwr with tripN := true } }.pwr.tripN = true ∧
    (∀ k ∈ [1, 7], (stB (fun b => { b with seq := .up k }) []).boot.seq = .up k ∧
      (stB (fun b => { b with seq := .up k }) []).boot.falling = false ∧
      (stB (fun b => { b with seq := .up k, falling := true }) []).boot.falling = true ∧
      railUpTo k 1 = true ∧ railUpTo k 0 = false) ∧
    (∀ l ∈ [2, 4], let s := { stB (fun b => { b with seq := .powered }) [] with fuse := { lcs := l } }
      s.boot.seq = .powered ∧ s.boot.running = false ∧ s.fuse.lcs = l) ∧
    (∀ k ∈ [1, 7], (stB (fun b => { b with seq := .down k }) []).boot.seq = .down k ∧ ∃ r < 23, (downRails k).testBit r = true) ∧
    (∀ d < 16, (getSpad State.reset d 81).locked = none) ∧ dieRailUp (withF stF [(pgPKG, F.PKG_RAILS_IN_WINDOW, 2 ^ 7)]) 0 = true ∧
    fbit State.reset pgHOSTP F.HOSTP_RET_EN = false ∧ fbit State.reset pgPKG F.PKG_LCS_PENDING = false ∧
    fbit State.reset pgPKG F.PKG_LCS_SVN_PEND = false ∧ State.reset.host.tampered = false ∧
    (retained (withF State.reset [(pgHOSTP, F.HOSTP_RET_EN, 1), (pgPKG, F.PKG_TIERF_SIZE_GIB, 64),
      (pgPKG, F.PKG_TIERF_VALID, 1)])).isSome = true ∧
    (let s := withF State.reset [(pgPKG, F.PKG_LCS_PENDING, 1), (pgPKG, F.PKG_LCS_PEND_TARGET, 4)]
     fbit s pgPKG F.PKG_LCS_PENDING = true ∧ fget s pgPKG F.PKG_LCS_PEND_TARGET = 4) ∧
    pkgStopped State.reset = false ∧ pkgStopped (withF State.reset [(pgFLT, F.FLT_STS_PKG_FATAL, 1)]) = true := by
  decide +kernel

theorem witness_PowerAndBootSequences_boot : Rules (withF State.reset [(pgHERD, F.CROOK_STS_OWNER, 1)]) (.pmc 0 true) ∧
    (∀ n ∈ [0, 3], let s := stB (fun b => { b with running := true, tried := [(0, n)] }) []
      s.boot.running = true ∧ s.fuse.lcs ≠ 4 ∧ mgetD s.boot.tried 0 0 = n ∧ s.fuse.svnMin = 0 ∧
      (fget s pgPKG F.PKG_BOOT_PMC_BOOTED).testBit 0 = false ∧ imageValid s [] true true = false ∧ mgetD s.boot.flash n [] = []) ∧
    imageValid (stB (fun b => { b with running := true, flash := [(0, img0)] }) []) img0 true true = true ∧
    mget (stB (fun b => { b with recovery := [(0, ())] }) []).boot.recovery 0 = some () ∧
    (let s := stB (fun b => { b with running := true }) []
     s.boot.running = true ∧ fbit s pgPKG F.PKG_ICT_STS_DONE = false ∧ ([⟨16, 0, [3, 4]⟩].all fun r : LinkTest => r.link < 38) = true) ∧
    (let s := withF State.reset [(pgPKG, F.PKG_BOOT_PHASE, 3)]
     phase s = 3 ∧ fbit s pgMEMMAP F.MEMMAP_CTL_LOCK = false ∧ fbit s pgPKG F.PKG_TIERF_VALID = false ∧ s.host.keeps = false) ∧
    usedChannels [] = (0, 0) ∧ usedChannels [(0, 0, 64), (1, 2, 32)] = (1, 32) ∧
    (∀ b ∈ [false, true], let s := withF State.reset [(pgPKG, F.PKG_TIERF_VALID, 1), (pgPKG, F.PKG_TIERF_SIZE_GIB, 64)]
      let s : State := { s with host := { s.host with keeps := b } }
      fbit s pgPKG F.PKG_TIERF_VALID = true ∧ fbit s pgPKG F.PKG_BOOT_TIERF_READY = false ∧ s.host.keeps = b) ∧
    lcsAllowed State.reset.fuse.lcs 3 = true ∧ lcsAllowed State.reset.fuse.lcs 1 = false :=
  ⟨⟨rfl, by decide +kernel⟩, by decide +kernel, img0_valid _ rfl, by decide +kernel⟩

theorem witness_FrameCrcIsBitSerial : (List.replicate 252 (0 : Byte)).length = 252 := by decide +kernel

/-! ## Ill-formed terms, one for each check -/

def uX (d p a q : Nat) (quarter : Bool) : Instr := .pass ⟨d, p, a, quarter, q⟩

theorem test_wf_units : ∀ i ∈ [Instr.storeClear 16 .powerUp, .runPoolReady 4, .hostdResetExit 2, .hatch 0 9, uX 16 0 0 0 false,
    uX 0 9 0 0 false, uX 0 0 8 0 false, uX 0 0 0 4 true, uX 0 0 0 1 false, .flitTransmit 16, .memcRefresh 12 0,
    .memcRefresh 0 64, .scrubLine 0 82 0 .clean, .droverLineResponse 0 16 .ok, .laneFail 0 9 0, .etchMov 0 8 0 0,
    .etchMov 0 0 32 0, .agentDead 6, .vtrn ⟨0, 0, 4⟩, .vsqrt ⟨0, 0, 0⟩ 32 0, .prepCompletionRead ⟨0, 0, 0⟩ 32],
    wellFormed i = false := by decide +kernel

theorem test_wf_entries : ∀ i ∈ [Instr.nop ⟨512, 0, 0⟩, .nop ⟨0, 8, 0⟩, .nop ⟨0, 0, 65536⟩, .segmentInvalidateDone 512,
    .queueFetch 0 ⟨8, .ok⟩, .foldAbortDone 16, .faultRecordWrite 0 32 false, .tallyAddReg sysSrc 0 64 0, .teamEnable sysSrc 64 0,
    .jobNop 0 16, .groupEnable sysSrc 0 8 0, .sourceDescriptorRead 0 64, .eventIrq 32, .opReqWrite sysSrc 0 16], wellFormed i = false := by
  decide +kernel

theorem test_wf_requesters : ∀ i ∈ [Instr.svnBump (.pmc 2 false), .svnBump (.pf 4), .svnBump (.vf 0 0), .svnBump (.vf 0 64),
    .svnBump (.core 2 0 .user), .svnBump (.core 0 48 .user), .pageLock sysSrc (2 ^ 20),
    .bar0Access 0 0 0 24 none, .peerDoorbell 0 16 0 []], wellFormed i = false := by decide +kernel

theorem test_wf_barrier : wellFormed (.barrierArrive sysSrc 16) = false := by decide +kernel
theorem test_wf_slot : wellFormed (.barrierSlotExpire false 4) = false := by decide +kernel
theorem test_wf_bus : wellFormed (.railctlFrame 4 0) = false := by decide +kernel
theorem test_wf_rail : wellFormed (.railOutOfWindow 0) = false ∧ wellFormed (.railOutOfWindow 23) = false := by decide +kernel
theorem test_wf_good : wellFormed (uX 15 8 7 3 true) = true ∧ wellFormed (.svnBump (.vf 3 63)) = true ∧
    wellFormed (.railOutOfWindow 22) = true := by decide +kernel

/-! ## The spec's worked examples -/

/-- 02_number_formats.md, the example after R68: 0x3DCCCCCD to BF16, by RNE and by two draws. -/
theorem test_narrow_bf16 : let x := ofFp32 0x3DCCCCCD
    narrow fBF16 false .rne x = (0x3DCD, false) ∧ narrow fBF16 false (.sr 0x3A07) x = (0x3DCD, false) ∧
    narrow fBF16 false (.sr 0x1200) x = (0x3DCC, false) ∧ narrow fBF16 false .rne (ofFp32 0x3F808000) = (0x3F80, false) ∧
    narrow fBF16 false .rne (ofFp32 0x3F818000) = (0x3F82, false) := by decide +kernel

/-- The example after R71: one SB4 block with tensor scale 0.5. -/
theorem test_encode_sb4 : let b := encBlock 0x0B 0x3F000000 none (([0x41200000, 0xC0200000, 0x3F4CCCCD, 0x40870000, 0x3ED80000,
      0, 0, 0] : List Word).map ofFp32)
    b.scale = 0x8B ∧ packElems 0x0B b.codes = [0xB7, 0x41, 0, 0] ∧ b.overflow = false := by decide +kernel

/-- The example after R73: QM2 code 0xF3 under scale 0x3A80. -/
theorem test_decode_qm2 : toFp32 (blockV 0x0D 0x3A80 0 0xF3) = 0x3A300000 := by decide +kernel

/-- The example after R81: 2^24 plus 1.0 twice, plain and compensated, and 2.0 in one group. -/
theorem test_accumulate : let one := groupSum [(.fin false 1 1, .fin false 1 1)]
    let two := groupSum [(.fin false 1 1, .fin false 1 1), (.fin false 1 1, .fin false 1 1)]
    let a : Acc := { acc := 0x4B800000 }
    (accAdd false false (accAdd false false a one) one).acc = 0x4B800000 ∧ (accAdd true false a one).err = 0x3F800000 ∧
    (accAdd true false (accAdd true false a one) one).err = 0x40000000 ∧ (accAdd false false a two).acc = 0x4B800001 := by
  decide +kernel

/-- The example after R86: four contributions, the record and its reading. -/
theorem test_window : let w := (([0x53800000, 0x3F800000, 0xD3800000, 1] : List Word).map ofFp32).foldl winAdd ({} : WinRec)
    winBytes w = List.replicate 16 0 ++ [1] ++ List.replicate 9 0 ++ [1] ++ List.replicate 5 0 ∧
    winRead fFP32 false 0x3F800000 w = (0x3F800000, false) := by decide +kernel

/-- The example after R190: where pa 0x100012345600 lies, and the next line. -/
theorem test_interleave : let m := { State.reset.memc with
      live := liveList State.reset, keys := [(0, 0x2D5), (4, 0x0B3), (9, 0x31E), (10, 0x1C4)] }
    let s : State := { State.reset with memc := m }
    chanOf s 0x100012345600 = some (172, 1553, 0) ∧ (chanOf s 0x100012345700).map (fun x => x.1 / 192) = some 1 := by
  decide +kernel

/-- The example of 13_training_support.md: SGDM8's program words and its FP32 values. -/
theorem test_sgdm8_words : 0x4 + 2 * 2 ^ 6 + 17 * 2 ^ 11 + 2 * 2 ^ 16 + 1 * 2 ^ 21 = 0x00228884 ∧
    (ewOp 0x4090C4, ewD 0x4090C4, ewA 0x4090C4, ewB 0x4090C4, ewC 0x4090C4) = (4, 3, 18, 0, 2) ∧
    (ewOp 0x38004, ewD 0x38004, ewA 0x38004, ewB 0x38004, ewC 0x38004) = (4, 0, 16, 3, 0) := by decide +kernel
theorem test_sgdm8_values : fp32Fma 0x3F600000 0x3F000000 0x3EC00000 = 0x3F500000 ∧
    fp32Fma 0xBA800000 0x3F500000 0x3F810000 = 0x3F80E600 ∧ (encBlock 0x0C 0 none [ofFp32 0x3F500000]).scale = 0x3F80 ∧
    (encBlock 0x0C 0 none [ofFp32 0x3F500000]).codes = [0x68] ∧
    (narrow fBF16 false (.sr 0x19FF) (ofFp32 0x3F80E600)).1 = 0x3F80 ∧
    (narrow fBF16 false (.sr 0x1A00) (ofFp32 0x3F80E600)).1 = 0x3F81 := by decide +kernel

/-- The example after R520: array A2 of pen P3 of C7, and its groups. -/
theorem test_page_index : pgMXA 7 3 2 = 0x20212 ∧ groupOf 0x20E73 = some (.pen 7 3) ∧ groupOf 0x20F07 = some (.die 7) ∧
    groupOf 0x20FF1 = some (.tile 1) ∧ groupOf 0x20FFF = some .package ∧ (groupLeaves State.reset 0x20E73).length = 8 := by
  decide +kernel

/-- The example after R546. -/
theorem test_rail_frame : railFrame 0 750 = 0x8BB907 ∧ crc8 [0x31, 0x32, 0x33, 0x34, 0x35, 0x36, 0x37, 0x38, 0x39] = 0xF4 := by
  decide +kernel

/-- The example after R571: three failed wires in separate groups of a hybrid-bond port. -/
theorem test_link_record : (linkRecord 0 0 [⟨0, 0, [0]⟩, ⟨0, 5, [5]⟩, ⟨0, 9, [9]⟩]).take 3 = [0x00030800, 0x00030003, 0] := by
  decide +kernel

/-- The example after R500: the delays of P1, P3 and P4. -/
theorem test_recount : recountDelay 1 24 4 835 808 = 25 ∧ recountDelay 2 384 4 835 808 = 461 ∧
    recountDelay 3 408 4 835 808 = 550 := by decide +kernel

end Sys2Proof.Tests
end

section
/-! Tallies and the completion of queue commands (R24, R143, R148, R150, R151, R153, R155): what a change of a tally, a
completion and the acceptance of a granted command do, one lemma each, and the obligation O23 from them. -/

namespace Sys2Proof.Machine

open Sys2Proof

/-! ## Commands in flight -/

theorem cbits_lt (x : Cmd) (hi lo : Nat) : cbits x hi lo < 2 ^ (hi + 1 - lo) := Nat.mod_lt _ (Nat.two_pow_pos _)

theorem id_of_findCmd {s : State} {id : CmdId} {x : Cmd} (h : findCmd s id = some x) : x.id = id :=
  eq_of_beq (List.find?_some h :)

/-- Looking a command up, after every command was changed by a map that keeps their ids. -/
theorem findCmd_of_cmds_map {s t : State} {g : Cmd → Cmd} (hg : ∀ y, (g y).id = y.id) (h : t.cmds = s.cmds.map g)
    (id : CmdId) : findCmd t id = (findCmd s id).map g := by
  unfold findCmd
  rw [h, List.find?_map]
  congr 2
  funext y
  simp [hg]

@[simp] theorem updCmd_tallies (s : State) (id : CmdId) (f : Cmd → Cmd) : (updCmd s id f).tallies = s.tallies := rfl
@[simp] theorem updCmd_mem (s : State) (id : CmdId) (f : Cmd → Cmd) : (updCmd s id f).mem = s.mem := rfl

theorem findCmd_updCmd_same {s : State} {id : CmdId} {x : Cmd} {f : Cmd → Cmd} (hf : ∀ y, (f y).id = y.id)
    (h : findCmd s id = some x) : findCmd (updCmd s id f) id = some (f x) := by
  rw [findCmd_of_cmds_map (g := fun y => if y.id == id then f y else y) (fun y => by split <;> simp [hf]) rfl, h]
  simp [id_of_findCmd h]

/-! ## Waiting heads that a tally's new value releases -/

/-- What a tally's new value `v` makes of command `x` (R151). -/
def released (s : State) (c t v : Nat) (x : Cmd) : Cmd :=
  if x.phase == .head && x.failed.isNone && cOp x == 0x20 && x.id.ctx == c && cbits x 133 128 == t &&
      decide (cbits x 255 192 ≤ v) && fenceOk s x then { x with met := true } else x

theorem releaseWaits_eq_map (s : State) (c t v : Nat) : releaseWaits s c t v = s.cmds.map (released s c t v) := rfl

section
variable (s : State) (c t v : Nat)

theorem released_eq_or (x : Cmd) : released s c t v x = x ∨ released s c t v x = { x with met := true } := by
  unfold released
  split
  · exact .inr rfl
  · exact .inl rfl

@[simp] theorem released_id (x : Cmd) : (released s c t v x).id = x.id := by
  rcases released_eq_or s c t v x with h | h <;> rw [h]

theorem released_of_not_head {x : Cmd} (h : x.phase ≠ .head) : released s c t v x = x := by
  simp [released, h]

theorem released_of_waits {x : Cmd} (hp : x.phase = .head) (hf : x.failed = none) (ho : cOp x = 0x20) (hc : x.id.ctx = c)
    (ht : cbits x 133 128 = t) (hv : cbits x 255 192 ≤ v) (hq : fenceOk s x = true) :
    released s c t v x = { x with met := true } := by
  simp [released, hp, hf, ho, hc, ht, hv, hq]

end

/-! ## Changing a tally -/

theorem getTally_congr {s t : State} (h : t.tallies = s.tallies) (c k : Nat) : getTally t c k = getTally s c k := by
  unfold getTally
  rw [h]

section
variable (s : State) (c t rise n v g : Nat) (x : TallySt)

@[simp] theorem riseTally_tallies : (riseTally s c t rise x).tallies = mput s.tallies (tallyKey c t) x := rfl
@[simp] theorem riseTally_mem : (riseTally s c t rise x).mem = s.mem := rfl
@[simp] theorem riseTally_regs : (riseTally s c t rise x).regs = s.regs := rfl
theorem riseTally_cmds : (riseTally s c t rise x).cmds = s.cmds.map (released s c t x.val.toNat) := rfl

theorem getTally_riseTally_same : getTally (riseTally s c t rise x) c t = x := by
  simp [getTally, mgetD]

theorem findCmd_riseTally (id : CmdId) :
    findCmd (riseTally s c t rise x) id = (findCmd s id).map (released s c t x.val.toNat) :=
  findCmd_of_cmds_map (released_id s c t _) (riseTally_cmds s c t rise x) id

/-- Only a head can be released: every other command stays as it is. -/
theorem findCmd_riseTally_of_not_head {id : CmdId} {y : Cmd} (h : findCmd s id = some y) (hp : y.phase ≠ .head) :
    findCmd (riseTally s c t rise x) id = some y := by
  rw [findCmd_riseTally, h, Option.map_some, released_of_not_head _ _ _ _ hp]

@[simp] theorem tallyAdd_mem : (tallyAdd s c t n).mem = s.mem := rfl
@[simp] theorem tallyAdd_regs : (tallyAdd s c t n).regs = s.regs := rfl
@[simp] theorem tallySet_mem : (tallySet s c t v g).mem = s.mem := rfl

theorem tallyAdd_cmds : (tallyAdd s c t n).cmds =
    s.cmds.map (released s c t (BitVec.ofNat 64 ((getTally s c t).val.toNat + n)).toNat) := rfl

theorem getTally_tallyAdd_val :
    (getTally (tallyAdd s c t n) c t).val = BitVec.ofNat 64 ((getTally s c t).val.toNat + n) := by
  rw [tallyAdd, getTally_riseTally_same]

theorem getTally_tallyAdd_gen : (getTally (tallyAdd s c t n) c t).gen = (getTally s c t).gen := by
  rw [tallyAdd, getTally_riseTally_same]

theorem mget_tallies_tallyAdd_ne {k : Nat} (h : k ≠ tallyKey c t) : mget (tallyAdd s c t n).tallies k = mget s.tallies k :=
  mget_mput_ne _ _ h.symm

theorem getTally_tallySet_val : (getTally (tallySet s c t v g) c t).val = BitVec.ofNat 64 v := by
  rw [tallySet, getTally_riseTally_same]

theorem getTally_tallySet_gen : (getTally (tallySet s c t v g) c t).gen = g % 256 := by
  rw [tallySet, getTally_riseTally_same]

/-- A TALLY_WAIT at the head of its queue whose target the sum reaches is released. -/
theorem findCmd_tallyAdd_of_waits {y : Cmd} (h : findCmd s y.id = some y) (hp : y.phase = .head) (hf : y.failed = none)
    (ho : cOp y = 0x20) (hq : fenceOk s y = true)
    (hv : cbits y 255 192 ≤ (BitVec.ofNat 64 ((getTally s y.id.ctx (cbits y 133 128)).val.toNat + n)).toNat) :
    findCmd (tallyAdd s y.id.ctx (cbits y 133 128) n) y.id = some { y with met := true } := by
  rw [tallyAdd, findCmd_riseTally, h, Option.map_some, released_of_waits _ _ _ _ hp hf ho rfl rfl hv hq]

/-- Every command stays, and at most its release is new. -/
theorem mem_tallyAdd_cmds {y : Cmd} (h : y ∈ s.cmds) :
    y ∈ (tallyAdd s c t n).cmds ∨ { y with met := true } ∈ (tallyAdd s c t n).cmds := by
  rw [tallyAdd_cmds]
  have hm := List.mem_map_of_mem (f := released s c t (BitVec.ofNat 64 ((getTally s c t).val.toNat + n)).toNat) h
  rcases released_eq_or s c t (BitVec.ofNat 64 ((getTally s c t).val.toNat + n)).toNat y with e | e
  · exact .inl (e ▸ hm)
  · exact .inr (e ▸ hm)

end

/-! ## Completion -/

theorem countFault_counts (s : State) (ctx code : Nat) : Counts s (countFault s ctx code) := by
  unfold countFault
  split
  · split
    · exact bump_counts ..
    · split
      · exact bump_counts ..
      · exact .refl s
  · exact .refl s

/-- Command `x` when its completion, at `s`, has recorded the status `r` (R144, R150). -/
def completed (s : State) (r : Res) (ok sig : Bool) (x : Cmd) : Cmd :=
  { x with phase := .done, res := r, time := herdTime s, signalled := sig && ok, stale := sig && !ok }

/-- The state in which command `x` has its status and has not signalled yet. -/
def recorded (s : State) (id : CmdId) (r : Res) (x : Cmd) : State :=
  updCmd (countFault s id.ctx r.code) id
    (completed s r ((getTally s id.ctx (cbits x 29 24)).gen == cGen x) (x.word.toNat.testBit 10))

section
variable {s : State} {id : CmdId} {x : Cmd} (r : Res)

@[simp] theorem recorded_tallies : (recorded s id r x).tallies = s.tallies := (countFault_counts ..).keeps_tallies
@[simp] theorem recorded_mem : (recorded s id r x).mem = s.mem := (countFault_counts ..).keeps_mem

theorem getTally_recorded (c t : Nat) : getTally (recorded s id r x) c t = getTally s c t :=
  getTally_congr (recorded_tallies r) c t

theorem findCmd_recorded (h : findCmd s id = some x) : findCmd (recorded s id r x) id =
    some (completed s r ((getTally s id.ctx (cbits x 29 24)).gen == cGen x) (x.word.toNat.testBit 10) x) := by
  refine findCmd_updCmd_same (fun _ => rfl) ?_
  unfold findCmd
  rw [(countFault_counts ..).keeps_cmds]
  exact h

theorem finishCmd_of_done (h : findCmd s id = some x) (hd : x.phase = .done) : finishCmd s id r = s := by
  simp [finishCmd, h, hd]

/-- The three ways in which a command completes: without a signal, with its tally's generation, or stale. -/
theorem finishCmd_of_not_done (h : findCmd s id = some x) (hd : x.phase ≠ .done) : finishCmd s id r =
    if x.word.toNat.testBit 10 = false then recorded s id r x
    else if (getTally s id.ctx (cbits x 29 24)).gen = cGen x then
      tallyAdd (recorded s id r x) id.ctx (cbits x 29 24) (cbits x 95 64)
    else bump (recorded s id r x) (pgCTX id.ctx) 8 := by
  simp only [finishCmd, h, beq_iff_eq, hd, if_false, Bool.not_eq_true']
  rfl

/-- A completed command keeps its record while its signal applies. -/
theorem findCmd_finishCmd (h : findCmd s id = some x) (hd : x.phase ≠ .done) : findCmd (finishCmd s id r) id =
    some (completed s r ((getTally s id.ctx (cbits x 29 24)).gen == cGen x) (x.word.toNat.testBit 10) x) := by
  have hr := findCmd_recorded r h
  rw [finishCmd_of_not_done r h hd]
  split
  · exact hr
  · split
    · exact findCmd_riseTally_of_not_head _ _ _ _ _ hr (by simp [completed])
    · unfold findCmd at hr ⊢
      rwa [bump_cmds]

theorem finishCmd_signal_val (h : findCmd s id = some x) (hd : x.phase ≠ .done) (hs : x.word.toNat.testBit 10 = true)
    (hg : (getTally s id.ctx (cbits x 29 24)).gen = cGen x) :
    (getTally (finishCmd s id r) id.ctx (cbits x 29 24)).val =
      BitVec.ofNat 64 ((getTally s id.ctx (cbits x 29 24)).val.toNat + cbits x 95 64) := by
  rw [finishCmd_of_not_done r h hd, if_neg (by simp [hs]), if_pos hg, getTally_tallyAdd_val, getTally_recorded]

theorem finishCmd_tallies (h : findCmd s id = some x) (hd : x.phase ≠ .done)
    (hn : x.word.toNat.testBit 10 = false ∨ (getTally s id.ctx (cbits x 29 24)).gen ≠ cGen x) :
    (finishCmd s id r).tallies = s.tallies := by
  rw [finishCmd_of_not_done r h hd]
  split
  · exact recorded_tallies r
  · next hs =>
    rw [if_neg (hn.resolve_left hs), bump_tallies, recorded_tallies]

theorem finishCmd_mem (h : findCmd s id = some x) (hd : x.phase ≠ .done) : (finishCmd s id r).mem = s.mem := by
  rw [finishCmd_of_not_done r h hd]
  split
  · exact recorded_mem r
  · split
    · rw [tallyAdd_mem, recorded_mem]
    · rw [bump_mem, recorded_mem]

end

/-! ## A granted command at its front-end -/

section
variable {s : State} {c : CmdId} {op f : Nat} {x : Cmd}

theorem withCmd_of_granted (h : Granted s c op f x) (go : Cmd → State) : withCmd s c op go = go x := by
  obtain ⟨hx, hp, ho, -, -⟩ := h
  simp [withCmd, hx, hp, ho]

theorem acceptCmd_of_granted (h : Granted s c op f x) {bad unsup state : Bool} (hb : bad = false) (hu : unsup = false)
    (hs : state = false) (go : Nat → State) : acceptCmd s c bad unsup state go = go f := by
  obtain ⟨-, -, -, hf, hn⟩ := h
  simp [acceptCmd, acceptance, hb, hu, hs, hf, hn]

theorem Granted.findCmd (h : Granted s c op f x) : Machine.findCmd s c = some x := h.1

theorem Granted.phase (h : Granted s c op f x) : x.phase = .granted := h.2.1

theorem Granted.findCmd_riseTally (h : Granted s c op f x) (k t rise : Nat) (v : TallySt) :
    Machine.findCmd (riseTally s k t rise v) c = some x :=
  findCmd_riseTally_of_not_head _ _ _ _ _ h.findCmd (by simp [h.phase])

theorem exec_nop (h : Granted s c 0x00 f x) (hr : reservedOk x.word.toNat [] = true) :
    exec (.nop c) s = .next (finishCmd s c {}) := by
  show execNop c s = _
  rw [execNop, withCmd_of_granted h, acceptCmd_of_granted h (by simp [hr]) rfl rfl]

theorem exec_tallyWait (h : Granted s c 0x20 f x) (hr : reservedOk x.word.toNat [(133, 128), (255, 192)] = true) :
    exec (.tallyWait c) s = .next (finishCmd s c {}) := by
  show execTallyWait c s = _
  have hh : (x.phase == .head && cOp x == 0x20) = false := by simp [h.phase]
  simp only [execTallyWait, h.findCmd, hh, Bool.false_eq_true, if_false]
  rw [withCmd_of_granted h, acceptCmd_of_granted h (by simp [hr]) rfl rfl]

theorem exec_tallyAdd (h : Granted s c 0x21 f x) (hr : reservedOk x.word.toNat [(133, 128), (255, 192)] = true) :
    exec (.tallyAdd c) s = .next (finishCmd (tallyAdd s c.ctx (cbits x 133 128) (cbits x 255 192)) c {}) := by
  show execTallyAdd c s = _
  rw [execTallyAdd, withCmd_of_granted h, acceptCmd_of_granted h (by simp [hr]) rfl rfl]

theorem exec_tallySet (h : Granted s c 0x22 f x)
    (hr : reservedOk x.word.toNat [(133, 128), (255, 192), (263, 256)] = true)
    (hv : cbits x 263 256 = (getTally s c.ctx (cbits x 133 128)).gen →
      (getTally s c.ctx (cbits x 133 128)).val.toNat ≤ cbits x 255 192) :
    exec (.tallySet c) s =
      .next (finishCmd (tallySet s c.ctx (cbits x 133 128) (cbits x 255 192) (cbits x 263 256)) c {}) := by
  show execTallySet c s = _
  rw [execTallySet, withCmd_of_granted h]
  exact congrArg _ (acceptCmd_of_granted h (by simp [hr]) rfl (by simpa using hv) _)

/-- A granted command that changes a tally and carries no signal leaves that tally as it changed it. -/
theorem getTally_finishCmd_riseTally (h : Granted s c op f x) (hs : x.word.toNat.testBit 10 = false) (r : Res)
    (k t rise : Nat) (v : TallySt) : getTally (finishCmd (riseTally s k t rise v) c r) k t = v := by
  rw [getTally_congr (finishCmd_tallies r (h.findCmd_riseTally ..) (by simp [h.phase]) (.inl hs)), getTally_riseTally_same]

theorem finishCmd_riseTally_mem (h : Granted s c op f x) (r : Res) (k t rise : Nat) (v : TallySt) :
    (finishCmd (riseTally s k t rise v) c r).mem = s.mem :=
  finishCmd_mem r (h.findCmd_riseTally ..) (by simp [h.phase])

end

/-- The TALLY_ADD register of a requester that may write it. -/
theorem exec_tallyAddReg {s : State} {src : Src} {ctx tally : Nat} (amount : BitVec 32) (hc : ctx < 512) (ht : tally < 64)
    (h : Rules s src) : exec (.tallyAddReg src ctx tally amount) s = .next (tallyAdd s ctx tally amount.toNat) := by
  show execTallyAddReg src ctx tally amount s = _
  rw [execTallyAddReg, if_pos ⟨hc, ht⟩, withPage_of_rules h]

/-- Settles O23: a completion in its three ways, each front-end command by its acceptance, and the register write by the
rules of a tally's change. -/
theorem completionsAndTallies : Obligations.CompletionsAndTallies := by
  unfold Obligations.CompletionsAndTallies
  refine ⟨?completion, fun c f x s h hr => exec_nop h hr, fun c f x s h hr => exec_tallyWait h hr, ?add, ?set, ?reg, ?release⟩
  case completion =>
    intro s id r x h
    refine ⟨finishCmd_of_done r h, fun hd => ⟨⟨_, findCmd_finishCmd r h hd, rfl, rfl, rfl, ?_⟩, finishCmd_signal_val r h hd,
      finishCmd_tallies r h hd, finishCmd_mem r h hd⟩⟩
    simp [completed]
  case add =>
    intro c f x s h hr
    refine ⟨_, exec_tallyAdd h hr, rfl, fun hs => ?_, finishCmd_riseTally_mem h ..⟩
    rw [tallyAdd, getTally_finishCmd_riseTally h hs]
  case set =>
    intro c f x s h hr hv
    refine ⟨_, exec_tallySet h hr hv, rfl, fun hs => ?_, finishCmd_riseTally_mem h ..⟩
    rw [tallySet, getTally_finishCmd_riseTally h hs]
    exact ⟨rfl, Nat.mod_eq_of_lt (cbits_lt x 263 256)⟩
  case reg =>
    intro src ctx tally amount s hc ht h
    exact ⟨_, exec_tallyAddReg amount hc ht h, getTally_tallyAdd_val .., getTally_tallyAdd_gen ..,
      fun k hk => mget_tallies_tallyAdd_ne _ _ _ _ hk, fun y hy => mem_tallyAdd_cmds _ _ _ _ hy,
      by rw [tallyAdd_cmds, List.length_map], tallyAdd_regs .., tallyAdd_mem ..⟩
  case release =>
    intro src amount s x h hc hx hp hf ho hq hv
    exact ⟨_, exec_tallyAddReg amount hc (cbits_lt x 133 128) h, findCmd_tallyAdd_of_waits _ _ hx hp hf ho hq hv⟩

end Sys2Proof.Machine
end

section
/-! Arbitration: the number that a round robin picks, the fold that a deficit round robin serves within its turns (R258), and
the packet that a hub output grants (R38, R39): the obligation O10. -/

namespace Sys2Proof.Machine

open Sys2Proof

/-! ## Round robin -/

/-- A fold that keeps the least number seen answers one of its numbers. -/
theorem foldl_least_mem {g : Option Nat → Nat → Option Nat} (hn : ∀ x, g none x = some x)
    (hs : ∀ x y, g (some y) x = some (min x y)) {l : List Nat} {m : Option Nat} {i : Nat} (h : l.foldl g m = some i) :
    m = some i ∨ i ∈ l := by
  induction l generalizing m with
  | nil => exact .inl h
  | cons x t ih =>
    rcases ih h with e | e
    · cases m with
      | none => exact .inr (by simp_all)
      | some y =>
        obtain rfl : min x y = i := by simpa [hs] using e
        rcases min_choice x y with k | k <;> simp [k]
    · exact .inr (List.mem_cons_of_mem _ e)

theorem foldl_least_isSome {g : Option Nat → Nat → Option Nat} (hn : ∀ x, g none x = some x)
    (hs : ∀ x y, g (some y) x = some (min x y)) {l : List Nat} {m : Option Nat} (h : m.isSome ∨ l ≠ []) :
    (l.foldl g m).isSome := by
  induction l generalizing m with
  | nil => simpa using h
  | cons x t ih => exact ih (.inl (by cases m <;> simp [hn, hs]))

/-- Round robin picks one of the numbers, where there are any. -/
theorem exists_rrPick (ptr : Nat) {xs : List Nat} (h : xs ≠ []) : ∃ i ∈ xs, rrPick ptr xs = some i := by
  have hp : (rrPick ptr xs).isSome := by
    rw [rrPick, Option.orElse_eq_or, Option.isSome_or, Bool.or_eq_true]
    exact .inr (foldl_least_isSome (fun _ => rfl) (fun _ _ => rfl) (.inr h))
  obtain ⟨i, hi⟩ := Option.isSome_iff_exists.1 hp
  refine ⟨i, ?_, hi⟩
  rw [rrPick, Option.orElse_eq_or, Option.or_eq_some_iff] at hi
  rcases hi with k | ⟨-, k⟩
  · exact List.mem_of_mem_filter
      ((foldl_least_mem (fun _ => rfl) (fun _ _ => rfl) k).resolve_left (Option.some_ne_none i).symm)
  · exact (foldl_least_mem (fun _ => rfl) (fun _ _ => rfl) k).resolve_left (Option.some_ne_none i).symm

/-! ## Deficit round robin -/

theorem mgetD_mput {α : Type} (m : FMap α) (k j : Nat) (v d : α) :
    mgetD (mput m k v) j d = if k = j then v else mgetD m j d := by
  unfold mgetD
  rw [mget_mput]
  split <;> rfl

/-- The turn passes on to the next fold, which receives its quantum. -/
def drrPass (q : Nat → Nat) (size : Nat → Option Nat) (a : Arb) : Arb :=
  { a with cur := (a.cur + 1) % 17
           deficit := mput a.deficit ((a.cur + 1) % 17) (drrReach q size a ((a.cur + 1) % 17)) }

/-- The turn's fold may be served: it has a share, and its deficit covers its head. -/
def drrServes (q : Nat → Nat) (size : Nat → Option Nat) (a : Arb) : Prop :=
  q a.cur ≠ 0 ∧ ∃ b, size a.cur = some b ∧ (b : Int) ≤ mgetD a.deficit a.cur 0

section
variable {q : Nat → Nat} {size : Nat → Option Nat} {a : Arb} {k f b : Nat}

/-- One turn: the fold that it reaches is served, or it passes on. -/
theorem drrGo_succ (k : Nat) : (drrServes q size a ∧ ∃ a', drrGo q size (k + 1) a = some (a.cur, a')) ∨
    (¬ drrServes q size a ∧ drrGo q size (k + 1) a = drrGo q size k (drrPass q size a)) := by
  by_cases hq : q a.cur = 0
  · exact .inr ⟨fun h => h.1 hq, by simp [drrGo, hq, drrPass]⟩
  · cases hs : size a.cur with
    | none => exact .inr ⟨by simp [drrServes, hs], by simp [drrGo, hs, drrPass]⟩
    | some b =>
      by_cases hd : (b : Int) ≤ mgetD a.deficit a.cur 0
      · exact .inl ⟨⟨hq, b, hs, hd⟩, by simp [drrGo, hq, hs, hd]⟩
      · exact .inr ⟨by simp [drrServes, hs, hd], by simp [drrGo, hq, hs, hd, drrPass]⟩

/-- A fold that is served has work. -/
theorem size_of_drrGo {a' : Arb} (h : drrGo q size k a = some (f, a')) : (size f).isSome := by
  induction k generalizing a with
  | zero => simp [drrGo] at h
  | succ k ih =>
    rcases drrGo_succ (q := q) (size := size) (a := a) k with ⟨⟨-, b, hs, -⟩, a'', e⟩ | ⟨-, e⟩
    · obtain ⟨rfl, -⟩ : a.cur = f ∧ a'' = a' := by simpa [e] using h
      simp [hs]
    · exact ih (e ▸ h)

/-- How many times the turn passes on before it reaches fold `f`. -/
def turnsTo (f cur : Nat) : Nat := if cur = f then 0 else (f + 17 - (cur + 1) % 17) % 17 + 1

theorem turnsTo_le (f cur : Nat) : turnsTo f cur ≤ 17 := by
  unfold turnsTo
  split <;> omega

theorem turnsTo_self_next (hf : f < 17) : turnsTo f ((f + 1) % 17) = 16 := by
  unfold turnsTo
  rw [if_neg (by omega)]
  omega

theorem turnsTo_next {cur : Nat} (hf : f < 17) (h : cur ≠ f) : turnsTo f ((cur + 1) % 17) + 1 = turnsTo f cur := by
  unfold turnsTo
  rw [if_neg h]
  split <;> omega

/-- The rounds of credit that `f` has still to come, when it takes `r` of them at its own turns from now on: it receives
one more on the way to its next turn, unless the turn is its own. -/
def roundsTo (f cur r : Nat) : Nat := if cur = f then r else r + 1

/-- Within the turns that bring fold `f`, which has a share and work, the credit that its head needs, some fold is served. -/
theorem drrGo_isSome (hf : f < 17) (hs : size f = some b) (hq : q f ≠ 0) {r : Nat}
    (hk : 17 * r + turnsTo f a.cur < k) (hb : (b : Int) ≤ mgetD a.deficit f 0 + (roundsTo f a.cur r * q f : Nat)) :
    (drrGo q size k a).isSome := by
  induction k generalizing a r with
  | zero => omega
  | succ k ih =>
    rcases drrGo_succ (q := q) (size := size) (a := a) k with ⟨-, a', e⟩ | ⟨hn, e⟩
    · simp [e]
    rw [e]
    by_cases hc : a.cur = f
    · subst hc
      have hd : ¬ (b : Int) ≤ mgetD a.deficit a.cur 0 := fun h => hn ⟨hq, b, hs, h⟩
      cases r with
      | zero => simp [roundsTo] at hb; exact absurd hb hd
      | succ r =>
        have hne : (a.cur + 1) % 17 ≠ a.cur := by omega
        refine ih (r := r) ?_ ?_
        · have := turnsTo_self_next hf
          simp only [drrPass, this]
          omega
        · simpa [drrPass, mgetD_mput, roundsTo, hne] using hb
    · have ht := turnsTo_next hf hc
      refine ih (r := r) (by simp only [drrPass]; omega) ?_
      simp only [drrPass, mgetD_mput]
      by_cases hn : (a.cur + 1) % 17 = f
      · simp only [hn, if_true, drrReach, hs, Option.isSome_some, roundsTo, if_neg hc] at hb ⊢
        push_cast at hb ⊢
        simp only [Int.ofNat_eq_natCast]
        linarith
      · simpa [hn, roundsTo, hc] using hb

end

theorem le_foldl_max {α : Type} (g : α → Nat) (l : List α) (m : Nat) :
    m ≤ l.foldl (fun m c => max m (g c)) m ∧ ∀ c ∈ l, g c ≤ l.foldl (fun m c => max m (g c)) m := by
  induction l generalizing m with
  | nil => simp
  | cons x t ih =>
    obtain ⟨h1, h2⟩ := ih (max m (g x))
    refine ⟨(le_max_left ..).trans h1, fun c hc => ?_⟩
    rcases List.mem_cons.1 hc with rfl | hc
    · exact (le_max_right ..).trans h1
    · exact h2 c hc

/-- What `drrPick` reads as the head of a fold is that of a candidate of this fold. -/
theorem candidate_of_size {cands : List (Nat × Nat)} {f b : Nat}
    (h : (cands.find? fun c => c.1 == f).map (·.2) = some b) : (f, b) ∈ cands := by
  obtain ⟨c, hc, rfl⟩ := Option.map_eq_some_iff.1 h
  obtain rfl : c.1 = f := eq_of_beq (List.find?_some hc :)
  exact List.mem_of_find?_eq_some hc

/-- The turns of a deficit round robin are enough to serve a fold with a share and work. -/
theorem drrTurns_suffice {q : Nat → Nat} (a : Arb) {cands : List (Nat × Nat)} {c : Nat × Nat} (hc : c ∈ cands)
    (hf : c.1 < 17) (hq : q c.1 ≠ 0) :
    (drrGo q (fun f => (cands.find? fun c => c.1 == f).map (·.2)) (drrTurns q a cands) a).isSome := by
  have hfind : (cands.find? fun x => x.1 == c.1).isSome := List.find?_isSome.2 ⟨c, hc, by simp⟩
  obtain ⟨b, hs⟩ := Option.isSome_iff_exists.1 (Option.isSome_map.trans hfind :
    ((cands.find? fun x => x.1 == c.1).map (·.2)).isSome = true)
  have hmax := (le_foldl_max (fun c => ((c.2 : Int) - mgetD a.deficit c.1 0).toNat / q c.1) cands 0).2 _ (candidate_of_size hs)
  have ht := turnsTo_le c.1 a.cur
  have hcover := Nat.lt_mul_div_succ ((b : Int) - mgetD a.deficit c.1 0).toNat (Nat.pos_of_ne_zero hq)
  refine drrGo_isSome hf hs hq (r := ((b : Int) - mgetD a.deficit c.1 0).toNat / q c.1 + 1) ?_ ?_
  · unfold drrTurns
    simp only [Int.ofNat_eq_natCast] at hmax ⊢
    omega
  · have hr : ((b : Int) - mgetD a.deficit c.1 0).toNat ≤
        roundsTo c.1 a.cur (((b : Int) - mgetD a.deficit c.1 0).toNat / q c.1 + 1) * q c.1 := by
      refine hcover.le.trans ((Nat.mul_comm ..).trans_le (Nat.mul_le_mul_right _ ?_))
      unfold roundsTo
      split <;> omega
    omega

/-- Where some fold has work, a deficit round robin picks a fold that has. -/
theorem exists_drrPick (q : Nat → Nat) (a : Arb) {cands : List (Nat × Nat)} (h : cands ≠ [])
    (hf : ∀ c ∈ cands, c.1 < 17) : ∃ f b a', (f, b) ∈ cands ∧ drrPick q a cands = some (f, a') := by
  unfold drrPick
  by_cases hq : cands.any fun c => q c.1 != 0
  · obtain ⟨c, hc, hqc⟩ := List.any_eq_true.1 hq
    obtain ⟨⟨f, a'⟩, hgo⟩ := Option.isSome_iff_exists.1 (drrTurns_suffice a hc (hf c hc) (by simpa using hqc))
    obtain ⟨b, hb⟩ := Option.isSome_iff_exists.1 (size_of_drrGo hgo)
    exact ⟨f, b, a', candidate_of_size hb, by rw [if_pos hq]; exact hgo⟩
  · obtain ⟨i, hi, hr⟩ := exists_rrPick (mgetD a.rr 100 0) (xs := cands.map fun c => c.1 + 1) (by simpa using h)
    obtain ⟨c, hc, rfl⟩ := List.mem_map.1 hi
    exact ⟨c.1, c.2, _, hc, by simp only [if_neg hq, hr]; rfl⟩

/-! ## The grant of a hub output -/

theorem mem_of_hubOldest {l : List HubPkt} {x : HubPkt} (h : hubOldest l = some x) : x ∈ l := by
  induction l generalizing x with
  | nil => cases h
  | cons y t ih =>
    rw [hubOldest] at h
    cases ht : hubOldest t with
    | none => simp_all
    | some z =>
      simp only [ht] at h
      split at h
      · simp_all
      · obtain rfl : z = x := by simpa using h
        exact List.mem_cons_of_mem _ (ih ht)

/-- The class that an output serves where nothing is urgent: the highest, but requests once they have lost 15 times (R38). -/
def hubClass (a : Arb) (c : List HubPkt) : Nat :=
  if (c.any fun x => x.pkt.cls == .request) && 15 ≤ a.lost then 0
  else c.foldl (fun m x => max m (classRank x.pkt.cls)) 0

/-- The eligible packets of that class. -/
def hubBest (a : Arb) (c : List HubPkt) : List HubPkt := c.filter fun x => classRank x.pkt.cls == hubClass a c

/-- The packet of a fold whose input has the turn (R38). -/
def hubTurn (a : Arb) (best : List HubPkt) (f : Nat) : Option HubPkt :=
  (rrPick (mgetD a.rr f 0) ((best.filter fun x => hubFold x == f).map fun x => x.input + 1)).bind fun i =>
    (best.filter fun x => hubFold x == f).find? fun x => x.input + 1 == i

/-- The folds with a packet in turn, and what it costs. -/
def hubHeads (a : Arb) (best : List HubPkt) : List (Nat × Nat) :=
  (List.range 17).filterMap fun f => (hubTurn a best f).map fun x => (f, x.pkt.bytes)

theorem mem_of_hubTurn {a : Arb} {best : List HubPkt} {f : Nat} {x : HubPkt} (h : hubTurn a best f = some x) : x ∈ best := by
  obtain ⟨i, -, hx⟩ := Option.bind_eq_some_iff.1 h
  exact List.mem_of_mem_filter (List.mem_of_find?_eq_some hx)

/-- A fold with a packet in the class has one in turn. -/
theorem exists_hubTurn (a : Arb) {best : List HubPkt} {x : HubPkt} (h : x ∈ best) :
    ∃ y, hubTurn a best (hubFold x) = some y := by
  have hx : x ∈ best.filter fun y => hubFold y == hubFold x := List.mem_filter.2 ⟨h, by simp⟩
  obtain ⟨i, hi, hr⟩ := exists_rrPick (mgetD a.rr (hubFold x) 0)
    (xs := (best.filter fun y => hubFold y == hubFold x).map fun y => y.input + 1) (List.ne_nil_of_mem (List.mem_map_of_mem hx))
  obtain ⟨y, hy, rfl⟩ := List.mem_map.1 hi
  have hz : ((best.filter fun z => hubFold z == hubFold x).find? fun z => z.input + 1 == y.input + 1).isSome :=
    List.find?_isSome.2 ⟨y, hy, by simp⟩
  obtain ⟨z, hz⟩ := Option.isSome_iff_exists.1 hz
  exact ⟨z, by rw [hubTurn, hr]; exact hz⟩

theorem mem_hubHeads {a : Arb} {best : List HubPkt} {f b : Nat} (h : (f, b) ∈ hubHeads a best) :
    f < 17 ∧ ∃ x, hubTurn a best f = some x := by
  obtain ⟨g, hg, e⟩ := List.mem_filterMap.1 h
  obtain ⟨x, hx, e⟩ := Option.map_eq_some_iff.1 e
  obtain ⟨rfl, -⟩ := Prod.mk.inj e
  exact ⟨List.mem_range.1 hg, x, hx⟩

theorem hubHeads_ne_nil {a : Arb} {best : List HubPkt} (h : best ≠ []) (hf : ∀ x ∈ best, hubFold x < 17) :
    hubHeads a best ≠ [] := by
  obtain ⟨x, hx⟩ := List.exists_mem_of_ne_nil _ h
  obtain ⟨y, hy⟩ := exists_hubTurn a hx
  exact List.ne_nil_of_mem (List.mem_filterMap.2 ⟨hubFold x, List.mem_range.2 (hf x hx), by rw [hy]; rfl⟩)

/-- Some packet attains the highest class. -/
theorem exists_foldl_classRank (c : List HubPkt) (m : Nat) :
    c.foldl (fun m x => max m (classRank x.pkt.cls)) m = m ∨
      ∃ x ∈ c, classRank x.pkt.cls = c.foldl (fun m x => max m (classRank x.pkt.cls)) m := by
  induction c generalizing m with
  | nil => exact .inl rfl
  | cons x t ih =>
    rcases ih (max m (classRank x.pkt.cls)) with h | ⟨y, hy, h⟩
    · rw [List.foldl_cons, h]
      rcases max_choice m (classRank x.pkt.cls) with k | k
      · exact .inl k
      · exact .inr ⟨x, List.mem_cons_self .., k.symm⟩
    · exact .inr ⟨y, List.mem_cons_of_mem _ hy, h⟩

theorem hubBest_ne_nil (a : Arb) {c : List HubPkt} (h : c ≠ []) : hubBest a c ≠ [] := by
  suffices ∃ x ∈ c, classRank x.pkt.cls = hubClass a c by
    obtain ⟨x, hx, e⟩ := this
    exact List.ne_nil_of_mem (List.mem_filter.2 ⟨hx, by simp [e]⟩)
  unfold hubClass
  split
  · next hr =>
    obtain ⟨x, hx, e⟩ := List.any_eq_true.1 (Bool.and_eq_true_iff.1 hr).1
    exact ⟨x, hx, by rw [eq_of_beq e]; rfl⟩
  · rcases exists_foldl_classRank c 0 with e | e
    · obtain ⟨x, hx⟩ := List.exists_mem_of_ne_nil _ h
      have := (le_foldl_max (fun x : HubPkt => classRank x.pkt.cls) c 0).2 x hx
      exact ⟨x, hx, by omega⟩
    · exact e

/-- The arbiter of an output. -/
def hubArb (s : State) (t output : Nat) : Arb := mgetD s.arbs (hubKey t output) {}

/-- That arbiter when requests have won or lost the choice of the class (R38). -/
def hubChosen (a : Arb) (c : List HubPkt) : Arb :=
  { a with lost := if (c.any fun x => x.pkt.cls == .request) && hubClass a c != 0 then a.lost + 1 else 0 }

/-- A packet leaves, and the output's arbiter is `a` from here on. -/
def hubSend (s : State) (t output now : Nat) (a : Arb) (x : HubPkt) : State :=
  hubLeave { s with arbs := mput s.arbs (hubKey t output) a } t output now x

section
variable {s : State} {t output now : Nat} {x : HubPkt}

theorem hubGrant_of_urgent (h : hubOldest ((hubReady s t output now).filter (·.pkt.urgent)) = some x) :
    hubGrant s t output now = hubSend s t output now (drrCharge (hubArb s t output) (hubFold x) x.pkt.bytes) x := by
  simp only [hubGrant, h]
  rfl

/-- Where nothing is urgent, the fold that the deficit round robin picks has a packet in turn, which leaves. -/
theorem hubGrant_of_turn {c : List HubPkt} {a b : Arb} {f : Nat} (hc : hubReady s t output now = c)
    (ha : hubArb s t output = a) (h : hubOldest (c.filter (·.pkt.urgent)) = none)
    (hd : drrPick (quantum s) (hubChosen a c) (hubHeads a (hubBest a c)) = some (f, b))
    (hx : hubTurn a (hubBest a c) f = some x) :
    hubGrant s t output now = hubSend s t output now { b with rr := mput b.rr f (x.input + 1) } x := by
  subst hc ha
  unfold hubChosen hubHeads hubTurn hubBest hubClass hubArb at hd
  unfold hubTurn hubBest hubClass hubArb at hx
  simp only [hubGrant, h, hd, hx]
  rfl

/-- An output with eligible packets lets one of them leave. -/
theorem exists_hubGrant (hne : hubReady s t output now ≠ []) (hf : ∀ x ∈ hubReady s t output now, hubFold x < 17) :
    ∃ x ∈ hubReady s t output now, ∃ a, hubGrant s t output now = hubSend s t output now a x := by
  cases hu : hubOldest ((hubReady s t output now).filter (·.pkt.urgent)) with
  | some x => exact ⟨x, List.mem_of_mem_filter (mem_of_hubOldest hu), _, hubGrant_of_urgent hu⟩
  | none =>
    obtain ⟨f, n, b, hm, hd⟩ := exists_drrPick (quantum s) (hubChosen (hubArb s t output) (hubReady s t output now))
      (hubHeads_ne_nil (a := hubArb s t output) (hubBest_ne_nil _ hne) fun x hx => hf x (List.mem_of_mem_filter hx))
      fun c hc => (mem_hubHeads hc).1
    obtain ⟨-, x, hx⟩ := mem_hubHeads hm
    exact ⟨x, List.mem_of_mem_filter (mem_of_hubTurn hx), _, hubGrant_of_turn rfl rfl hu hd hx⟩

theorem hubCredit_of_mem_hubReady (h : x ∈ hubReady s t output now) : hubCredit s t x.pkt = true := by
  have := (List.mem_filter.1 h).2
  simp only [Bool.and_eq_true] at this
  exact this.1.2

theorem exec_hubPacketGrant (ht : t < 4) (ho : output < hubPorts) (hf : outputFree s t output now = true) :
    exec (.hubPacketGrant t ⟨output, now⟩) s = .next (hubGrant s t output now) := by
  show execHubPacketGrant t ⟨output, now⟩ s = _
  rw [execHubPacketGrant, if_pos ⟨ht, ho, hf⟩]

end

/-- Settles O10: within its turns the deficit round robin reaches a fold whose packet it covers, so that an output with an
eligible packet grants one. What it charges is the packet's data alone, which is the model's choice (log 129). -/
theorem hubOutputGrantsOne : Obligations.HubOutputGrantsOne := by
  unfold Obligations.HubOutputGrantsOne
  intro tile output now s ht ho hfree hne hf
  rw [exec_hubPacketGrant ht ho hfree]
  constructor
  · obtain ⟨x, hx, a, e⟩ := exists_hubGrant hne hf
    exact ⟨x, a, hx, hubCredit_of_mem_hubReady hx, congrArg _ e⟩
  · exact fun x hu => ⟨_, rfl, congrArg _ (hubGrant_of_urgent hu)⟩

end Sys2Proof.Machine
end

section
/-! What counting and interrupts can reach, place by place, and what a write of a word or a group of pages leaves alone
(R45, R521, R532, R534, R537): facts for the register writes and reads. -/

namespace Sys2Proof.Machine

open Sys2Proof

/-! ## Counting and interrupts -/

/-- The places of the header that counting and interrupts write: CNT_OVF, ERR.CNT_OVF and IRQSTS.ERR. -/
def reportPlace (k : Nat) : Bool := k % 32768 == 12 * 32 || k % 32768 == 6 * 32 + 1 || k % 32768 == 9 * 32

/-- Of registers and counters, `t` differs from `s` in the places of reports, and in the counters of page `p`, of the
interrupt page and of the host links, at most. -/
structure Reports (p : Nat) (s t : State) : Prop where
  regs : ∀ k, reportPlace k = false → mget t.regs k = mget s.regs k
  cnt : ∀ k, k / 16 ≠ p → k / 16 ≠ pgIRQ → k / 16 < pgHOSTL 0 → mget t.cnt k = mget s.cnt k

theorem Reports.refl (p : Nat) (s : State) : Reports p s s := ⟨fun _ _ => rfl, fun _ _ _ _ => rfl⟩

theorem Reports.trans {p : Nat} {s t u : State} (h : Reports p s t) (k : Reports p t u) : Reports p s u :=
  ⟨fun j hj => (k.regs j hj).trans (h.regs j hj), fun j h1 h2 h3 => (k.cnt j h1 h2 h3).trans (h.cnt j h1 h2 h3)⟩

/-- The places are the same on every page. -/
theorem reportPlace_fieldKey (page off lo : Nat) : reportPlace (fieldKey page off lo) = reportPlace (fieldKey 0 off lo) := by
  have e : fieldKey page off lo % 32768 = fieldKey 0 off lo % 32768 := by
    unfold fieldKey
    omega
  unfold reportPlace
  rw [e]

/-- A put at one of those places. -/
theorem fput_reports (p : Nat) (s : State) (page : Nat) {f : Field} (v : Nat)
    (hf : f = F.CNT_OVF_OVF ∨ f = F.ERR_CNT_OVF ∨ f = F.IRQSTS_ERR) : Reports p s (fput s page f v) := by
  refine ⟨fun k hk => mget_mput_ne _ _ fun e => ?_, fun _ _ _ _ => rfl⟩
  have hp : reportPlace (fieldKey page (f.off + 0 * f.stride) f.lo) = true := by
    rcases hf with rfl | rfl | rfl <;> exact (reportPlace_fieldKey ..).trans (by decide)
  rw [e, hk] at hp
  cases hp

theorem bumpRaw_reports {p : Nat} (s : State) {page n : Nat} (k : Nat) (hn : n < 16)
    (hp : page = p ∨ page = pgIRQ ∨ pgHOSTL 0 ≤ page) : Reports p s (bumpRaw s page n k) := by
  have hc (c : Word64) : Reports p s { s with cnt := mput s.cnt (page * 16 + n) c } := by
    refine ⟨fun _ _ => rfl, fun j h1 h2 h3 => mget_mput_ne _ _ ?_⟩
    rintro rfl
    have : (page * 16 + n) / 16 = page := by omega
    rw [this] at h1 h2 h3
    omega
  unfold bumpRaw
  split
  · exact .refl p s
  · dsimp only
    split
    · exact hc _
    · exact (hc _).trans ((fput_reports p _ page _ (.inl rfl)).trans (fput_reports p _ page _ (.inr (.inl rfl))))

theorem emit_reports (p : Nat) (s : State) (o : Output) : Reports p s (emit s o) := ⟨fun _ _ => rfl, fun _ _ _ _ => rfl⟩

theorem sendMsix_reports (p : Nat) (s : State) (link vf vector : Nat) : Reports p s (sendMsix s link vf vector) := by
  unfold sendMsix
  split
  · exact emit_reports ..
  · exact bumpRaw_reports s 1 (by decide) (.inr (.inr (by unfold pgHOSTL pageOf; omega)))

theorem routeIrq_reports (p : Nat) (s : State) (page : Nat) : Reports p s (routeIrq s page) := by
  unfold routeIrq
  dsimp only
  split
  · exact bumpRaw_reports s 1 (by decide) (.inr (.inl rfl))
  · refine (bumpRaw_reports s (n := 0) 1 (by decide) (.inr (.inl rfl))).trans ?_
    split
    · exact emit_reports ..
    · exact emit_reports ..
    · exact (emit_reports ..).trans (emit_reports ..)
    · exact emit_reports ..
    · exact emit_reports ..
    · exact sendMsix_reports ..

theorem deliverIrq_reports (p : Nat) (s : State) (page q : Nat) : Reports p s (deliverIrq s page q) := by
  unfold deliverIrq
  split
  · exact .refl p s
  · split
    · exact (bumpRaw_reports s 1 (by decide) (.inr (.inl rfl))).trans (sendMsix_reports ..)
    · exact routeIrq_reports ..

theorem withIrq_reports (p : Nat) (s : State) (page q : Nat) (g : State → State) :
    Reports p (g s) (withIrq s page q g) := by
  unfold withIrq
  dsimp only
  split
  · exact deliverIrq_reports ..
  · exact .refl p _

/-- An ERR bit is put, and the rest is a report. -/
theorem setErr_reports (p : Nat) (s : State) (page bit : Nat) :
    Reports p (fput s page (errField bit) 1) (setErr s page bit) := by
  unfold setErr
  dsimp only
  split
  · exact .refl p _
  · exact (fput_reports p _ page 1 (.inr (.inr rfl))).trans (withIrq_reports p _ page 0 fun s => fput s page F.IRQSTS_ERR 1)

/-- A count is one of its own counter, and the rest is a report that touches no counter. -/
theorem bumpBy_reports (p : Nat) (s : State) (page n k : Nat) : Reports p (bumpRaw s page n k) (bumpBy s page n k) := by
  unfold bumpBy
  dsimp only
  split
  · exact (fput_reports p _ page 0 (.inr (.inl rfl))).trans
      ((fput_reports p _ page 1 (.inr (.inl rfl))).trans (setErr_reports p _ page 1))
  · exact .refl p _

theorem bump_reports {page : Nat} (s : State) {n : Nat} (hn : n < 16) : Reports page s (bump s page n) :=
  (bumpRaw_reports s 1 hn (.inl rfl)).trans (bumpBy_reports page s page n 1)

/-- A field that is no report reads as before. -/
theorem Reports.fgeti {p : Nat} {s t : State} (h : Reports p s t) (page : Nat) (f : Field) (i : Nat)
    (hf : reportPlace (fieldKey page (f.off + i * f.stride) f.lo) = false) : fgeti t page f i = Machine.fgeti s page f i := by
  unfold Machine.fgeti
  rw [h.regs _ hf]

/-- A counter of another page reads as before. -/
theorem Reports.counter {p : Nat} {s t : State} (h : Reports p s t) {page n : Nat} (hn : n < 16) (h1 : page ≠ p)
    (h2 : page ≠ pgIRQ) (h3 : page < pgHOSTL 0) : counter t page n = Machine.counter s page n := by
  have e : (page * 16 + n) / 16 = page := by omega
  unfold Machine.counter mgetD
  rw [h.cnt _ (by rwa [e]) (by rwa [e]) (by rwa [e])]

theorem counter_setErr (s : State) (page bit : Nat) {q n : Nat} (hn : n < 16) (h2 : q ≠ pgIRQ) (h3 : q < pgHOSTL 0) :
    counter (setErr s page bit) q n = counter s q n :=
  (setErr_reports pgIRQ s page bit).counter hn h2 h2 h3

/-- One count of a page whose counters are not frozen and whose counter no interrupt can move. -/
theorem counter_bump (s : State) {page n : Nat} (h : fbit s page F.CTL_CNT_FREEZE = false) (hn : n < 16)
    (h2 : page ≠ pgIRQ) (h3 : page < pgHOSTL 0) : counter (bump s page n) page n = (counter s page n + 1) % 2 ^ 64 :=
  ((bumpBy_reports pgIRQ s page n 1).counter hn h2 h2 h3).trans (counter_bumpRaw s page n 1 h)

/-- An ERR bit other than CNT_OVF is set. -/
theorem fget_setErr (s : State) (page : Nat) {bit : Nat} (h : bit ≠ 1) :
    fget (setErr s page bit) page (errField bit) = 1 := by
  have hp : reportPlace (fieldKey 0 ((errField bit).off + 0 * (errField bit).stride) (errField bit).lo) = false ∧
      fieldWidth (errField bit) = 1 := by
    unfold errField
    split
    · decide
    · exact absurd rfl h
    · decide
    · decide
  rw [fget, (setErr_reports 0 s page bit).fgeti page _ 0 ((reportPlace_fieldKey ..).trans hp.1)]
  refine (fget_fput_same s page _ 1 (by rw [hp.2]; decide)).trans ?_
  rw [hp.2]
  rfl

/-! ## Writes of one page -/

/-- `t` holds every register of page `p` as `s` does. -/
structure PageSame (p : Nat) (s t : State) : Prop where
  same : ∀ k, k / 32768 = p → mget t.regs k = mget s.regs k

theorem PageSame.refl (p : Nat) (s : State) : PageSame p s s := ⟨fun _ _ => rfl⟩

theorem PageSame.trans {p : Nat} {s t u : State} (h : PageSame p s t) (k : PageSame p t u) : PageSame p s u :=
  ⟨fun j hj => (k.same j hj).trans (h.same j hj)⟩

theorem PageSame.fgeti {p : Nat} {s t : State} (h : PageSame p s t) (f : Field) (i : Nat)
    (hf : f.off + i * f.stride < 4096 ∧ f.lo < 32) : fgeti t p f i = Machine.fgeti s p f i := by
  unfold Machine.fgeti
  rw [h.same _ (by unfold fieldKey; omega)]

theorem fputi_pageSame {p page : Nat} (s : State) {f : Field} {i : Nat} (v : Nat) (h : page ≠ p)
    (hf : f.off + i * f.stride < 4096 ∧ f.lo < 32) : PageSame p s (fputi s page f i v) := by
  refine ⟨fun k hk => mget_mput_ne _ _ fun e => ?_⟩
  unfold fieldKey at e
  omega

/-- Writes of one page after another, each of which leaves the other pages alone, reach a page as one write of its own. -/
theorem exists_foldl_pageSame {g : State → Nat → State} (hg : ∀ s m p, m ≠ p → PageSame p s (g s m)) {ms : List Nat}
    (hn : ms.Nodup) {p : Nat} (hp : p ∈ ms) (s : State) :
    ∃ t, PageSame p s t ∧ PageSame p (g t p) (ms.foldl g s) := by
  have skip : ∀ (l : List Nat) (u : State), p ∉ l → PageSame p u (l.foldl g u) := by
    intro l
    induction l with
    | nil => exact fun u _ => .refl p u
    | cons m l ih =>
      intro u hu
      rw [List.mem_cons, not_or] at hu
      exact (hg u m p (Ne.symm hu.1)).trans (ih _ hu.2)
  induction ms generalizing s with
  | nil => cases hp
  | cons m l ih =>
    rw [List.nodup_cons] at hn
    rcases List.mem_cons.1 hp with rfl | hl
    · exact ⟨s, .refl p s, skip l _ hn.1⟩
    · obtain ⟨t, h1, h2⟩ := ih hn.2 hl (g s m)
      exact ⟨t, (hg s m p (by rintro rfl; exact hn.1 hl)).trans h1, h2⟩

theorem foldl_pageSame {α : Type} {g : State → α → State} {p : Nat} {l : List α}
    (hg : ∀ s, ∀ m ∈ l, PageSame p s (g s m)) (s : State) : PageSame p s (l.foldl g s) := by
  induction l generalizing s with
  | nil => exact .refl p s
  | cons m l ih =>
    exact (hg s m (List.mem_cons_self ..)).trans (ih (fun s m hm => hg s m (List.mem_cons_of_mem _ hm)) _)

theorem foldl_counts {α : Type} {g : State → α → State} (hg : ∀ s m, Counts s (g s m)) (l : List α) (s : State) :
    Counts s (l.foldl g s) := by
  induction l generalizing s with
  | nil => exact .refl s
  | cons m l ih => exact (hg s m).trans (ih _)

/-- Nothing settles after a change of registers, counters and outputs that arms no event entry. -/
theorem settleHerd_of_counts {s t : State} (h : Untimed s) (hc : Counts s t) (hp : PageSame pgHERD s t ∨ BlockSame s t) :
    settleHerd t = t := by
  have ha : fget t pgHERD F.HERD_EVTVALID_ARMED = fget s pgHERD F.HERD_EVTVALID_ARMED :=
    hp.elim (fun k => k.fgeti _ 0 (by decide)) fun k => k.fgeti _ _ 0 (by decide)
  refine settleHerd_untimed ?_
  unfold Untimed at h ⊢
  rwa [hc.keeps_herd, hc.keeps_trn, hc.keeps_pwr, ha]

end Sys2Proof.Machine
end

section
/-! A write of a register word (R41, R521, R526, R527, R530): which words of a hub page hold which fields, what their fields
take, what a lock keeps, and what a narrow write is answered with: the obligation O6. -/

namespace Sys2Proof.Machine

open Sys2Proof

/-! ## Hub pages -/

section
variable {t : Nat} (ht : t < 4)
include ht

theorem blkOf_pgHUB : blkOf (pgHUB t) = 0x10 := by
  unfold blkOf pgHUB pageOf
  omega

theorem slotOf_pgHUB : slotOf (pgHUB t) = t := by
  unfold slotOf pgHUB pageOf
  omega

theorem leafExists_pgHUB (s : State) : leafExists s (pgHUB t) = true := by
  unfold leafExists
  rw [blkOf_pgHUB ht, slotOf_pgHUB ht]
  simp [leafCount, ht]

theorem groupOf_pgHUB : groupOf (pgHUB t) = none := by
  unfold groupOf
  rw [blkOf_pgHUB ht, slotOf_pgHUB ht]
  have h : ∀ n, 4 ≤ n → decide (n ≤ t) = false ∧ (t == n) = false := fun n hn =>
    ⟨decide_eq_false (by omega), beq_eq_false_iff_ne.2 (by omega)⟩
  simp [h]

end

theorem pgHUB_ne_of_lt {t p : Nat} (h : p < 0x10000) : pgHUB t ≠ p := by
  unfold pgHUB pageOf
  omega

/-! ## The parts of a word -/

/-- The bits that a field takes from a word that the mask covers whole. -/
theorem presented_bits {y held w : Nat} (hy : y < 2 ^ w) (h : held < 2 ^ w) :
    (y &&& (2 ^ w - 1)) ||| (held - (held &&& (2 ^ w - 1))) = y := by
  rw [Nat.and_two_pow_sub_one_eq_mod, Nat.and_two_pow_sub_one_eq_mod, Nat.mod_eq_of_lt h, Nat.mod_eq_of_lt hy,
    Nat.sub_self, Nat.or_zero]

/-- The fields whose present value another register selects (R499, R501, R505). -/
def selectedFields : List Field := [F.HERD_EVTDATA_DATA, F.HERD_MSGDATA_DATA, F.HERD_TBLDATA_LINK, F.HERD_TBLDATA_BYP]

theorem heldField_eq_fgeti {f : Field} (h : selectedFields.contains f = false) (s : State) (page i : Nat) :
    heldField s page f i = fgeti s page f i := by
  simp only [selectedFields, List.contains_cons, List.contains_nil, Bool.or_false, Bool.or_eq_false_iff] at h
  simp only [heldField, h, Bool.false_eq_true, if_false]

section
variable {s : State} {page off em : Nat} {l : List (Field × Nat)} (hl : wordFields (blkOf page) off = l)
  (hm : ∀ fi ∈ l, bits em fi.1.hi fi.1.lo = 2 ^ fieldWidth fi.1 - 1)
include hl hm

/-- The word presented where the mask covers every field whole: nothing of what is held stays. -/
theorem presentedWord_whole (v : Nat)
    (hh : ∀ fi ∈ l, fi.1.rst < 2 ^ fieldWidth fi.1 ∧ selectedFields.contains fi.1 = false) :
    presentedWord s page off v em = l.foldl (fun x fi => x + bits v fi.1.hi fi.1.lo * 2 ^ fi.1.lo) 0 := by
  unfold presentedWord
  rw [hl]
  refine List.foldl_ext _ _ _ fun x fi hfi => ?_
  have hb : bits v fi.1.hi fi.1.lo < 2 ^ fieldWidth fi.1 := Nat.mod_lt _ (Nat.two_pow_pos _)
  have hk : (if keepsValue fi.1 then heldField s page fi.1 fi.2 else 0) < 2 ^ fieldWidth fi.1 := by
    split
    · obtain ⟨hr, hn⟩ := hh fi hfi
      rw [heldField_eq_fgeti hn]
      exact fgeti_lt s page fi.1 fi.2 hr
    · exact Nat.two_pow_pos _
  dsimp only
  rw [hm fi hfi, presented_bits hb hk]

/-- Every field of a word takes its part where the mask covers them all. -/
theorem plainWord_whole (x : Nat) (hw : ∀ fi ∈ l, fieldWidth fi.1 ≠ 0) :
    plainWord s page off x em = l.foldl (fun s fi => plainField s page x fi) s := by
  unfold plainWord
  rw [hl]
  refine List.foldl_ext _ _ _ fun t fi hfi => if_neg ?_
  have := Nat.one_lt_two_pow (hw fi hfi)
  rw [hm fi hfi]
  omega

end

theorem plainField_of_keepsValue {f : Field} (h : keepsValue f = true) (s : State) (page x i : Nat) :
    plainField s page x (f, i) = fputi s page f i (bits x f.hi f.lo) := by
  unfold plainField
  cases hf : f.acc <;> simp_all [keepsValue]

theorem plainField_of_w1c {f : Field} (h : f.acc = .w1c) (s : State) (page x i : Nat) :
    plainField s page x (f, i) = fputi s page f i (fgeti s page f i - (fgeti s page f i &&& bits x f.hi f.lo)) := by
  simp only [plainField, h]

/-- A write with SYSTEM authority of fields that a locked page keeps: nothing is written, and the write is reported
(R530). -/
theorem leafWrite_locked {s : State} {w : Writer} {page off v mask : Nat} {bc : Bool} (fs : List Field) (hw : w.auth = .sys)
    (hfs : ((((wordFields (blkOf page) off).map (·.1)).filter fun f => hits f mask).filter fun f => f.acc != .ro && !f.hwRec) = fs)
    (ho : ∀ f ∈ fs, fieldOpen s w page f bc = true) (hc : ∀ f ∈ fs, coveredField f = false)
    (hl : pageLocked s page = true) (hr : ∀ f ∈ fs, (f.acc == .rwl) = true) (hne : fs ≠ []) (hk : page ≠ pgMEMMAP) :
    leafWrite s w page off v mask bc = setErr (bump s pgPKG 1) page 0 := by
  have e1 : (fs.filter fun f => fieldOpen s w page f bc) = fs := List.filter_eq_self.2 ho
  have e2 : fs.filter coveredField = [] := List.filter_eq_nil_iff.2 (by simpa using hc)
  have e3 : (fs.filter fun f => f.acc == .rwl) = fs := List.filter_eq_self.2 hr
  have e4 : (fs.filter fun f => f.acc != .rwl) = [] := List.filter_eq_nil_iff.2 (by simpa using hr)
  have hne' : fs.isEmpty = false := by simpa using hne
  unfold leafWrite
  simp only [hfs, hw, bne_self_eq_false, Bool.false_and, List.filter_false, List.isEmpty_nil, if_true, Bool.not_false,
    Bool.true_and, e1, e2, ite_self, Bool.true_or, List.filter_true, e3, hl, hne', Bool.false_or, e4, hk, false_and,
    if_false, Bool.false_eq_true, List.map_nil, List.foldl_nil]

/-! ## HUB_ARB_CTL -/

theorem wordFields_hubArbCtl :
    wordFields 0x10 0x100 = [(F.HUB_ARB_CTL_STARVE_LIMIT, 0), (F.HUB_ARB_CTL_STALL_MULT, 0)] := by decide

/-- The fields of HUB_ARB_CTL that take a write. -/
theorem hubArbCtl_live {page : Nat} (hb : blkOf page = 0x10) :
    ((((wordFields (blkOf page) 0x100).map (·.1)).filter fun f => hits f (2 ^ 32 - 1)).filter fun f => f.acc != .ro && !f.hwRec) =
      [F.HUB_ARB_CTL_STARVE_LIMIT, F.HUB_ARB_CTL_STALL_MULT] := by
  rw [hb, wordFields_hubArbCtl]
  decide

/-- HUB_ARB_CTL after a write of its word. -/
def putHubArbCtl (s : State) (page v : Nat) : State :=
  fput (fput s page F.HUB_ARB_CTL_STARVE_LIMIT (v % 2 ^ 16)) page F.HUB_ARB_CTL_STALL_MULT (v / 2 ^ 16 % 2 ^ 4)

theorem putHubArbCtl_counts (s : State) (page v : Nat) : Counts s (putHubArbCtl s page v) := rfl

theorem fget_putHubArbCtl_starveLimit (s : State) (page v : Nat) :
    fget (putHubArbCtl s page v) page F.HUB_ARB_CTL_STARVE_LIMIT = v % 2 ^ 16 := by
  have hk := fieldKey_word (page := page) (off := 0x100) (off' := 0x100) (lo := 16) (lo' := 0) (by decide) (by decide)
    (.inr (by decide))
  exact (fgeti_fputi_ne _ _ hk).trans ((fget_fput_same s page _ _ (by decide)).trans (Nat.mod_mod ..))

theorem fget_putHubArbCtl_stallMult (s : State) (page v : Nat) :
    fget (putHubArbCtl s page v) page F.HUB_ARB_CTL_STALL_MULT = v / 2 ^ 16 % 2 ^ 4 :=
  (fget_fput_same _ page _ _ (by decide)).trans (Nat.mod_mod ..)

section
variable {s : State} {w : Writer} {page : Nat} (v : Nat) (hw : w.auth = .sys) (hb : blkOf page = 0x10)
include hw hb

/-- Both fields of HUB_ARB_CTL take their part of a word. -/
theorem leafWrite_hubArbCtl (hl : pageLocked s page = false) :
    leafWrite s w page 0x100 v (2 ^ 32 - 1) false = putHubArbCtl s page v := by
  have hf : wordFields (blkOf page) 0x100 = [(F.HUB_ARB_CTL_STARVE_LIMIT, 0), (F.HUB_ARB_CTL_STALL_MULT, 0)] := by
    rw [hb, wordFields_hubArbCtl]
  have hq : pairLo page 0x100 = false ∧ pairLo page 0xFC = false := by simp [pairLo, hb]
  rw [leafWrite_sys _ hw (hubArbCtl_live hb) (em := 0xFFFFF)
    (by simpa using ⟨fieldOpen_sys hw (by decide), fieldOpen_sys hw (by decide)⟩)
    (by decide) (.inl hl) (by omega) (by decide) (by decide), presentedWord_whole hf (by decide) v (by decide)]
  unfold pairWrite blockWrite
  rw [if_neg (by simp [hq]), if_neg (by simp), if_neg (by omega), hb]
  refine (plainWord_whole hf (by decide) _ (by decide)).trans ?_
  have h1 : bits (0 + bits v 15 0 * 2 ^ 0 + bits v 19 16 * 2 ^ 16) 15 0 = v % 2 ^ 16 := by
    simp only [bits]
    omega
  have h2 : bits (0 + bits v 15 0 * 2 ^ 0 + bits v 19 16 * 2 ^ 16) 19 16 = v / 2 ^ 16 % 2 ^ 4 := by
    simp only [bits]
    omega
  simp only [List.foldl_cons, List.foldl_nil, plainField_of_keepsValue (show keepsValue F.HUB_ARB_CTL_STARVE_LIMIT = true from rfl),
    plainField_of_keepsValue (show keepsValue F.HUB_ARB_CTL_STALL_MULT = true from rfl)]
  exact congrArg₂ (fun a b => fput (fput s page F.HUB_ARB_CTL_STARVE_LIMIT a) page F.HUB_ARB_CTL_STALL_MULT b) h1 h2

theorem leafWrite_hubArbCtl_locked (hl : pageLocked s page = true) (hk : page ≠ pgMEMMAP) :
    leafWrite s w page 0x100 v (2 ^ 32 - 1) false = setErr (bump s pgPKG 1) page 0 :=
  leafWrite_locked _ hw (hubArbCtl_live hb)
    (by simpa using ⟨fieldOpen_sys hw (by decide), fieldOpen_sys hw (by decide)⟩) (by decide) hl (by decide) (by decide) hk

end

/-! ## Writes by a requester -/

/-- A write to an address of register space, of a width that an access has. -/
theorem exec_registerWrite (src : Src) {page off width : Nat} (v : BitVec 64) (s : State) (hp : page < 2 ^ 20)
    (ho : off < 4096) (hw : width = 8 ∨ width = 16 ∨ width = 32 ∨ width = 64) :
    exec (.registerWrite src (regBase + page * 4096 + off) width v) s =
      .next (settleHerd (srcWrite s src page off width v.toNat)) := by
  show execRegisterWrite src _ width v s = _
  have hpage : (regBase + page * 4096 + off - regBase) / 4096 = page := by omega
  have hoff : (regBase + page * 4096 + off - regBase) % 4096 = off := by omega
  rw [execRegisterWrite, if_neg (by omega), hpage, hoff]

/-- The crook lets the requester's register write through, whichever register it is for. -/
theorem srcWrite_of_rules {s : State} {src : Src} (h : Rules s src) (page off width v : Nat) :
    srcWrite s src page off width v = regWrite s (writerOf s src) page off width v := by
  unfold srcWrite
  split
  · rfl
  · exact guarded_of_rules h _

/-- A narrow write to an existing page is discarded and reported (R527). -/
theorem regWrite_narrow {s : State} (w : Writer) {page off width : Nat} (v : Nat) (hs : scrapped s = false)
    (hp : pageExists s page = true) (hw : width = 8 ∨ width = 16) (ho : off % (width / 8) = 0) :
    regWrite s w page off width v = narrowFault s page := by
  unfold regWrite
  rw [if_neg (by simp [hs]), if_neg (by omega), if_neg (by simp [hp]), if_pos (by omega)]

/-- A write of one word of a page that exists. -/
theorem regWrite_word {s : State} (w : Writer) {page off : Nat} (v : BitVec 32) (hs : scrapped s = false)
    (hp : pageExists s page = true) (ho : off % 4 = 0) :
    regWrite s w page off 32 v.toNat = pageWrite s w page off v.toNat (2 ^ 32 - 1) := by
  unfold regWrite
  rw [if_neg (by simp [hs]), if_neg (by omega), if_neg (by simp [hp]), if_neg (by omega), Nat.mod_eq_of_lt v.isLt]
  exact if_neg (by omega)

theorem narrowFault_counts (s : State) (page : Nat) : Counts s (narrowFault s page) := by
  unfold narrowFault
  split
  · exact (setErr_counts ..).trans (bump_counts ..)
  · exact bump_counts ..

theorem narrowFault_blockSame (s : State) (page : Nat) : BlockSame s (narrowFault s page) := by
  unfold narrowFault
  split
  · exact (setErr_blockSame ..).trans (bump_blockSame ..)
  · exact bump_blockSame ..

/-- ERR.NARROW of the page is set. -/
theorem fget_narrowFault {s : State} {page : Nat} (h : leafExists s page = true) :
    fget (narrowFault s page) page F.ERR_NARROW = 1 := by
  unfold narrowFault
  rw [if_pos h, fget, (bump_reports _ (by decide)).fgeti page _ 0 ((reportPlace_fieldKey ..).trans (by decide))]
  exact fget_setErr s page (bit := 3) (by decide)

/-- Setting an ERR bit freezes no counters. -/
theorem fbit_cntFreeze_setErr (s : State) (page bit p : Nat) :
    fbit (setErr s page bit) p F.CTL_CNT_FREEZE = fbit s p F.CTL_CNT_FREEZE := by
  have he : ¬ fieldKey page ((errField bit).off + 0 * (errField bit).stride) (errField bit).lo =
      fieldKey p (F.CTL_CNT_FREEZE.off + 0 * F.CTL_CNT_FREEZE.stride) F.CTL_CNT_FREEZE.lo := by
    have hl : (errField bit).lo < 32 ∧ (errField bit).off + 0 * (errField bit).stride = 0x18 := by
      unfold errField
      split <;> decide
    rw [hl.2, fieldKey_eq_iff (by decide) (by decide) hl.1 (by decide)]
    exact fun h => absurd h.2.1 (by decide)
  unfold fbit fget
  rw [(setErr_reports 0 s page bit).fgeti p _ 0 ((reportPlace_fieldKey ..).trans (by decide)), fput, fgeti_fputi_ne s 1 he]

/-- A narrow access is counted on the PKG page. -/
theorem counter_narrowFault (s : State) (page : Nat) (h : fbit s pgPKG F.CTL_CNT_FREEZE = false) :
    counter (narrowFault s page) pgPKG 2 = (counter s pgPKG 2 + 1) % 2 ^ 64 := by
  unfold narrowFault
  split
  · rw [counter_bump _ ((fbit_cntFreeze_setErr ..).trans h) (by decide) (by decide) (by decide),
      counter_setErr _ _ _ (by decide) (by decide) (by decide)]
  · exact counter_bump _ h (by decide) (by decide) (by decide)

/-! ## The three writes of HUB_ARB_CTL -/

section
variable {src : Src} {t : Nat} {s : State} (v : BitVec 64) (ht : t < 4) (hr : Rules s src) (hs : scrapped s = false)
  (hu : Untimed s)
include ht hr hs hu

theorem exec_registerWrite_hubArbCtl (hl : fbit s (pgHUB t) F.CTL_LOCK = false) :
    exec (.registerWrite src (regBase + pgHUB t * 4096 + 0x100) 32 v) s =
      .next (putHubArbCtl s (pgHUB t) (v.toNat % 2 ^ 32)) := by
  have hk : pageLocked s (pgHUB t) = false := by simp [pageLocked, hl, pgHUB_ne_of_lt (show pgMEMMAP < 0x10000 by decide)]
  have hp : PageSame pgHERD s (putHubArbCtl s (pgHUB t) (v.toNat % 2 ^ 32)) :=
    have hne : pgHUB t ≠ pgHERD := pgHUB_ne_of_lt (by decide)
    (fputi_pageSame s _ hne (by decide)).trans (fputi_pageSame _ _ hne (by decide))
  rw [exec_registerWrite src v s (by unfold pgHUB pageOf; omega) (by decide) (by decide),
    srcWrite_leaf hr _ hs (leafExists_pgHUB ht s) (groupOf_pgHUB ht) (by decide) (.inl (by rw [blkOf_pgHUB ht]; decide)),
    leafWrite_hubArbCtl _ ((writerOf_auth ..).trans hr.1) (blkOf_pgHUB ht) hk,
    settleHerd_of_counts hu (putHubArbCtl_counts ..) (.inl hp)]

theorem exec_registerWrite_hubArbCtl_locked (hl : fbit s (pgHUB t) F.CTL_LOCK = true) :
    exec (.registerWrite src (regBase + pgHUB t * 4096 + 0x100) 32 v) s =
      .next (setErr (bump s pgPKG 1) (pgHUB t) 0) := by
  rw [exec_registerWrite src v s (by unfold pgHUB pageOf; omega) (by decide) (by decide),
    srcWrite_leaf hr _ hs (leafExists_pgHUB ht s) (groupOf_pgHUB ht) (by decide) (.inl (by rw [blkOf_pgHUB ht]; decide)),
    leafWrite_hubArbCtl_locked _ ((writerOf_auth ..).trans hr.1) (blkOf_pgHUB ht) (by simp [pageLocked, hl])
      (pgHUB_ne_of_lt (by decide)),
    settleHerd_of_counts hu ((bump_counts ..).trans (setErr_counts ..))
      (.inr ((bump_blockSame ..).trans (setErr_blockSame ..)))]

theorem exec_registerWrite_hubArbCtl_narrow {width : Nat} (hw : width = 8 ∨ width = 16) :
    exec (.registerWrite src (regBase + pgHUB t * 4096 + 0x100) width v) s = .next (narrowFault s (pgHUB t)) := by
  rw [exec_registerWrite src v s (by unfold pgHUB pageOf; omega) (by decide) (by omega),
    srcWrite_of_rules hr, regWrite_narrow _ _ hs (by simp [pageExists, leafExists_pgHUB ht s]) hw (by rcases hw with rfl | rfl <;> rfl),
    settleHerd_of_counts hu (narrowFault_counts ..) (.inr (narrowFault_blockSame ..))]

end

/-- Settles O6, for HUB_ARB_CTL of each hub: a write of its word, of its word under the page's lock, and a narrower one. -/
theorem registerWriteAndLock : Obligations.RegisterWriteAndLock := by
  unfold Obligations.RegisterWriteAndLock
  intro src t v s ht hr hs hu
  have locked : BlockSame s (setErr (bump s pgPKG 1) (pgHUB t) 0) := (bump_blockSame ..).trans (setErr_blockSame ..)
  have narrow : BlockSame s (narrowFault s (pgHUB t)) := narrowFault_blockSame ..
  refine ⟨fun hl => ⟨_, exec_registerWrite_hubArbCtl v ht hr hs hu hl, ?limit, ?mult, rfl, rfl⟩,
    fun hl hf => ⟨_, exec_registerWrite_hubArbCtl_locked v ht hr hs hu hl, locked.fgeti _ _ 0 (by decide),
      locked.fgeti _ _ 0 (by decide), ?lockErr, ?lockCount, ((bump_counts ..).trans (setErr_counts ..)).keeps_mem⟩,
    fun width hw hf => ⟨_, exec_registerWrite_hubArbCtl_narrow v ht hr hs hu hw, narrow.fgeti _ _ 0 (by decide), ?narrowErr,
      counter_narrowFault s _ hf, (narrowFault_counts ..).keeps_mem⟩⟩
  case limit =>
    rw [fget_putHubArbCtl_starveLimit]
    omega
  case mult =>
    rw [fget_putHubArbCtl_stallMult]
    omega
  case lockErr => exact beq_iff_eq.2 (fget_setErr _ _ (bit := 0) (by decide))
  case lockCount =>
    rw [counter_setErr _ _ _ (by decide) (by decide) (by decide), counter_bump s hf (by decide) (by decide) (by decide)]
  case narrowErr => exact beq_iff_eq.2 (fget_narrowFault (leafExists_pgHUB ht s))

end Sys2Proof.Machine
end

section
/-! A _LO word that is held, a write of a group page that reaches its members, and a write of the pod or system page that
waits for its tick (R45, R46, R49, R506, R536): the obligation O8. -/

namespace Sys2Proof.Machine

open Sys2Proof

/-! ## A held word -/

theorem leafWrite_epochTickLo {s : State} {w : Writer} (value : BitVec 32) (hw : w.auth = .sys) :
    leafWrite s w pgHERD 0x134 value.toNat (2 ^ 32 - 1) false =
      { s with pairHeld := mput s.pairHeld (pgHERD * 1024 + 0x134 / 4) value } := by
  have hf : wordFields (blkOf pgHERD) 0x134 = [(F.HERD_EPOCH_TICK_LO_TICK_LO, 0)] := by decide
  have hv : 0 + bits value.toNat 31 0 * 2 ^ 0 = value.toNat := by
    have := value.isLt
    simp only [bits]
    omega
  rw [leafWrite_sys [F.HERD_EPOCH_TICK_LO_TICK_LO] hw (by decide) (em := 2 ^ 32 - 1)
    (by simpa using fieldOpen_sys hw (by decide)) (by decide) (.inr (by decide)) (by omega) (by decide) (by decide),
    presentedWord_whole hf (by decide) _ (by decide)]
  unfold pairWrite
  rw [if_pos ⟨by omega, by decide⟩, List.foldl_cons, List.foldl_nil]
  refine (congrArg (fun x => { s with pairHeld := mput s.pairHeld (pgHERD * 1024 + 0x134 / 4) (BitVec.ofNat 32 x) }) hv).trans ?_
  rw [BitVec.ofNat_toNat, BitVec.setWidth_eq]

theorem exec_pairLoWrite_epochTick {s : State} {src : Src} (value : BitVec 32) (hr : Rules s src)
    (hs : scrapped s = false) (hu : Untimed s) :
    exec (.pairLoWrite src pgHERD 0x134 value) s =
      .next { s with pairHeld := mput s.pairHeld (pgHERD * 1024 + 0x134 / 4) value } := by
  show execPairLoWrite src pgHERD 0x134 value s = _
  rw [execPairLoWrite, if_pos (by decide), srcWrite_leaf hr _ hs rfl (by decide) (by decide) (.inl (by decide)),
    Nat.mod_eq_of_lt value.isLt, leafWrite_epochTickLo value ((writerOf_auth ..).trans hr.1)]
  exact congrArg _ (settleHerd_untimed hu)

/-! ## Words of the header that a group passes to its members -/

/-- The mask bits of a page's errors take a word's low bits. -/
theorem leafWrite_errMask {s : State} {w : Writer} {page : Nat} {bc : Bool} (v : Nat) (hw : w.auth = .sys) :
    leafWrite s w page 0x1C v (2 ^ 32 - 1) bc = fput s page F.ERRMASK_MASK (v % 16) := by
  have hf : wordFields (blkOf page) 0x1C = [(F.ERRMASK_MASK, 0)] := (wordFields_header _ (by decide)).trans (by decide)
  have hv : bits (0 + bits v 3 0 * 2 ^ 0) 3 0 = v % 16 := by
    simp only [bits]
    omega
  rw [leafWrite_sys [F.ERRMASK_MASK] hw (by rw [hf]; decide) (em := 15)
    (by simpa using fieldOpen_sys hw (by decide)) (by decide) (.inr (by decide)) (by omega) (by decide) (by decide),
    presentedWord_whole (em := 15) hf (by decide) _ (by decide), pairWrite_header (by decide)]
  refine (plainWord_whole (em := 15) hf (by decide) _ (by decide)).trans ?_
  rw [List.foldl_cons, List.foldl_nil, plainField_of_keepsValue (by decide)]
  exact congrArg (fput s page F.ERRMASK_MASK) hv

/-- The error bits by number: bit `b` of ERR, which a written 1 clears. -/
theorem errField_of_lt {b : Nat} (h : b < 4) : errField b = .mk 0xFF 0x18 0 1 b b .w1c 0 false false false := by
  interval_cases b <;> rfl

/-- A written error bit is cleared. -/
def clearErrBit (s : State) (page v b : Nat) : State :=
  fput s page (errField b) (fget s page (errField b) - (fget s page (errField b) &&& bits v b b))

/-- ERR after a write of its word. -/
def clearErr (s : State) (page v : Nat) : State := (List.range 4).foldl (fun s b => clearErrBit s page v b) s

theorem bits_self (v b : Nat) : bits v b b = (v.testBit b).toNat := by
  rw [bits, Nat.add_sub_cancel_left, Nat.toNat_testBit, Nat.pow_one]

theorem fget_clearErrBit_same (s : State) (page v : Nat) {b : Nat} (hb : b < 4) :
    fget (clearErrBit s page v b) page (errField b) = if v.testBit b then 0 else fget s page (errField b) := by
  have hw : fieldWidth (errField b) = 1 ∧ (errField b).rst = 0 := by
    rw [errField_of_lt hb]
    exact ⟨Nat.add_sub_cancel_left .., rfl⟩
  have hlt := fgeti_lt s page (errField b) 0 (by rw [hw.1, hw.2]; decide)
  rw [hw.1] at hlt
  rw [clearErrBit, fget_fput_same s page _ _ (by rw [hw.1]; decide), hw.1, bits_self]
  change fget s page (errField b) < 2 ^ 1 at hlt
  cases v.testBit b <;> interval_cases fget s page (errField b) <;> rfl

theorem fget_clearErrBit_ne (s : State) (page v : Nat) {b c : Nat} (hb : b < 4) (hc : c < 4) (h : b ≠ c) :
    fget (clearErrBit s page v b) page (errField c) = fget s page (errField c) := by
  refine fgeti_fputi_ne s _ ?_
  rw [errField_of_lt hb, errField_of_lt hc]
  dsimp only
  exact fieldKey_word (by omega) (by omega) (.inr h)

theorem fget_clearErrBit (s : State) (page v : Nat) {b c : Nat} (hb : b < 4) (hc : c < 4) :
    fget (clearErrBit s page v b) page (errField c) =
      if b = c ∧ v.testBit b then 0 else fget s page (errField c) := by
  by_cases h : b = c
  · subst h
    simp [fget_clearErrBit_same s page v hb]
  · simp [fget_clearErrBit_ne s page v hb hc h, h]

theorem fget_clearErr (s : State) (page v : Nat) {b : Nat} (hb : b < 4) :
    fget (clearErr s page v) page (errField b) = if v.testBit b then 0 else fget s page (errField b) := by
  show fget (clearErrBit (clearErrBit (clearErrBit (clearErrBit s page v 0) page v 1) page v 2) page v 3) page (errField b) = _
  simp only [fget_clearErrBit _ _ _ (show 3 < 4 by decide) hb, fget_clearErrBit _ _ _ (show 2 < 4 by decide) hb,
    fget_clearErrBit _ _ _ (show 1 < 4 by decide) hb, fget_clearErrBit _ _ _ (show 0 < 4 by decide) hb]
  interval_cases b <;> simp

/-- The written error bits of a page are cleared. -/
theorem leafWrite_err {s : State} {w : Writer} {page : Nat} {bc : Bool} (v : Nat) (hw : w.auth = .sys) :
    leafWrite s w page 0x18 v (2 ^ 32 - 1) bc = clearErr s page v := by
  have hf : wordFields (blkOf page) 0x18 = (List.range 4).map fun b => (errField b, 0) :=
    (wordFields_header _ (by decide)).trans (by decide)
  have hv : ∀ b, b < 4 → bits (((List.range 4).map fun b => (errField b, 0)).foldl
      (fun x fi => x + bits v fi.1.hi fi.1.lo * 2 ^ fi.1.lo) 0) b b = bits v b b := by
    intro b hb
    show bits (0 + bits v 0 0 * 2 ^ 0 + bits v 1 1 * 2 ^ 1 + bits v 2 2 * 2 ^ 2 + bits v 3 3 * 2 ^ 3) b b = _
    simp only [bits]
    interval_cases b <;> omega
  rw [leafWrite_sys ((List.range 4).map errField) hw (by rw [hf]; decide) (em := 15)
    (by simpa using fun b hb => fieldOpen_sys hw (by interval_cases b <;> decide)) (by decide) (.inr (by decide))
    (by omega) (by decide) (by decide),
    presentedWord_whole (em := 15) hf (by decide) _ (by decide), pairWrite_header (by decide)]
  refine (plainWord_whole (em := 15) hf (by decide) _ (by decide)).trans ?_
  rw [List.foldl_map, clearErr]
  refine List.foldl_ext _ _ _ fun t b hb => ?_
  have hb := List.mem_range.1 hb
  have he := errField_of_lt hb
  rw [plainField_of_w1c (by rw [he]), clearErrBit, ← hv b hb, he]
  rfl

/-! ## The hubs' package group page -/

/-- The package group page of the hubs. -/
def pgHUBGroup : Nat := pageOf 0x10 0xFFF

/-- The four hub pages. -/
def hubPages : List Nat := (List.range 4).map pgHUB

theorem groupLeaves_pgHUBGroup (s : State) : groupLeaves s pgHUBGroup = hubPages := by
  have h : groupLeaves s pgHUBGroup = hubPages.filter (leafExists s) := rfl
  rw [h, List.filter_eq_self]
  intro p hp
  obtain ⟨t, ht, rfl⟩ := List.mem_map.1 hp
  exact leafExists_pgHUB (List.mem_range.1 ht) s

theorem membersFor_pgHUBGroup (s : State) {w : Writer} (hw : w.auth = .sys) : membersFor s w pgHUBGroup = hubPages := by
  unfold membersFor
  rw [groupLeaves_pgHUBGroup, List.filter_eq_self]
  exact fun _ _ => by rw [hw]; rfl

/-- A write of a header word that a group passes to its members (R45): each member takes it in turn. -/
theorem srcWrite_pgHUBGroup {s : State} {src : Src} (h : Rules s src) (hs : scrapped s = false) {off : Nat}
    (ho : off = 0x18 ∨ off = 0x1C) (v : BitVec 32) : srcWrite s src pgHUBGroup off 32 v.toNat =
      hubPages.foldl (fun u m => leafWrite u (writerOf s src) m off v.toNat (2 ^ 32 - 1) true) s := by
  have hn : nativeFields pgHUBGroup off = [] := if_neg (by decide)
  have hg : groupPasses off = true := by rcases ho with rfl | rfl <;> rfl
  have hp : pageExists s pgHUBGroup = true := by simp [pageExists, show (groupOf pgHUBGroup).isSome from rfl]
  rw [srcWrite_of_rules h, regWrite_word _ v hs hp (by omega)]
  show groupWriteLocal s (writerOf s src) pgHUBGroup off v.toNat (2 ^ 32 - 1) = _
  unfold groupWriteLocal
  rw [if_neg (by simp [hn]), if_neg (by omega), if_pos hg]
  simp only [show ¬ off = 0x30 by omega, show ¬ off = 0x10 by omega, false_and, if_false]
  rw [membersFor_pgHUBGroup _ ((writerOf_auth ..).trans h.1)]

theorem exec_groupPageWrite_errMask {s : State} {src : Src} (h : Rules s src) (hs : scrapped s = false) (v : BitVec 32) :
    exec (.groupPageWrite src pgHUBGroup 0x1C v) s =
      .next (settleHerd (hubPages.foldl (fun u m => fput u m F.ERRMASK_MASK (v.toNat % 16)) s)) := by
  show execGroupPageWrite src pgHUBGroup 0x1C v s = _
  rw [execGroupPageWrite, if_pos (by decide), srcWrite_pgHUBGroup h hs (.inr rfl)]
  simp only [leafWrite_errMask v.toNat ((writerOf_auth ..).trans h.1)]

theorem exec_groupErrClear {s : State} {src : Src} (h : Rules s src) (hs : scrapped s = false) (v : BitVec 32) :
    exec (.groupErrClear src pgHUBGroup v) s = .next (settleHerd (hubPages.foldl (fun u m => clearErr u m v.toNat) s)) := by
  show execGroupErrClear src pgHUBGroup v s = _
  rw [execGroupErrClear, if_pos (by decide), srcWrite_pgHUBGroup h hs (.inl rfl)]
  simp only [leafWrite_err v.toNat ((writerOf_auth ..).trans h.1)]

theorem clearErr_counts (s : State) (page v : Nat) : Counts s (clearErr s page v) :=
  foldl_counts (fun s b => counts_fput s page (errField b) _) _ s

theorem clearErr_pageSame (s : State) {page p : Nat} (v : Nat) (h : page ≠ p) : PageSame p s (clearErr s page v) := by
  refine foldl_pageSame (fun s b hb => fputi_pageSame s _ h ?_) s
  rw [errField_of_lt (List.mem_range.1 hb)]
  dsimp only
  have := List.mem_range.1 hb
  omega

theorem fput_errMask_pageSame (s : State) {page p : Nat} (v : Nat) (h : page ≠ p) :
    PageSame p s (fput s page F.ERRMASK_MASK v) := fputi_pageSame s v h (by decide)

/-- What writes the hub pages one after another, and each page alone, settles nothing. -/
theorem settleHerd_foldl_hubPages {s : State} (hu : Untimed s) {g : State → Nat → State} (hc : ∀ s m, Counts s (g s m))
    (hg : ∀ s m p, m ≠ p → PageSame p s (g s m)) : settleHerd (hubPages.foldl g s) = hubPages.foldl g s := by
  refine settleHerd_of_counts hu (foldl_counts hc _ s) (.inl (foldl_pageSame (fun s m hm => hg s m _ ?_) s))
  obtain ⟨t, -, rfl⟩ := List.mem_map.1 hm
  exact pgHUB_ne_of_lt (by decide)

theorem pgHUB_mem_hubPages {t : Nat} (h : t < 4) : pgHUB t ∈ hubPages := List.mem_map_of_mem (List.mem_range.2 h)

theorem groupPageWrite_errMask_answers {s : State} {src : Src} (h : Rules s src) (hs : scrapped s = false) (hu : Untimed s)
    (v : BitVec 32) : Answers (.groupPageWrite src pgHUBGroup 0x1C v) s fun u =>
      (∀ t, t < 4 → fget u (pgHUB t) F.ERRMASK_MASK = v.toNat % 16) ∧ u.mem = s.mem := by
  have hg : ∀ (s : State) m p, m ≠ p → PageSame p s (fput s m F.ERRMASK_MASK (v.toNat % 16)) :=
    fun s m p hm => fput_errMask_pageSame s _ hm
  have hc : ∀ (s : State) m, Counts s (fput s m F.ERRMASK_MASK (v.toNat % 16)) := fun s m => counts_fput ..
  refine ⟨_, exec_groupPageWrite_errMask h hs v, ?_⟩
  rw [settleHerd_foldl_hubPages hu hc hg]
  refine ⟨fun t ht => ?_, (foldl_counts hc _ s).keeps_mem⟩
  obtain ⟨u, -, h2⟩ := exists_foldl_pageSame hg (by decide) (pgHUB_mem_hubPages ht) s
  rw [fget, h2.fgeti _ 0 (by decide)]
  exact (fget_fput_same u _ _ _ (by decide)).trans (Nat.mod_mod ..)

theorem groupErrClear_answers {s : State} {src : Src} (h : Rules s src) (hs : scrapped s = false) (hu : Untimed s)
    (v : BitVec 32) : Answers (.groupErrClear src pgHUBGroup v) s fun u =>
      (∀ t b, t < 4 → b < 4 → fget u (pgHUB t) (errField b) =
        if v.toNat.testBit b then 0 else fget s (pgHUB t) (errField b)) ∧ u.mem = s.mem := by
  have hg : ∀ (s : State) m p, m ≠ p → PageSame p s (clearErr s m v.toNat) := fun s m p hm => clearErr_pageSame s _ hm
  have hc : ∀ (s : State) m, Counts s (clearErr s m v.toNat) := fun s m => clearErr_counts ..
  refine ⟨_, exec_groupErrClear h hs v, ?_⟩
  rw [settleHerd_foldl_hubPages hu hc hg]
  refine ⟨fun t b ht hb => ?_, (foldl_counts hc _ s).keeps_mem⟩
  have hf : (errField b).off + 0 * (errField b).stride < 4096 ∧ (errField b).lo < 32 := by
    rw [errField_of_lt hb]
    dsimp only
    omega
  obtain ⟨u, h1, h2⟩ := exists_foldl_pageSame hg (by decide) (pgHUB_mem_hubPages ht) s
  rw [fget, h2.fgeti _ 0 hf]
  refine (fget_clearErr u _ _ hb).trans ?_
  rw [fget, h1.fgeti _ 0 hf, fget]

/-! ## The pod and system pages -/

theorem length_leBytes (n x : Nat) : (leBytes n x).length = n := by
  induction n generalizing x with
  | zero => rfl
  | succ n ih => simp [leBytes, ih]

theorem leNat_leBytes (n x : Nat) : leNat (leBytes n x) = x % 256 ^ n := by
  induction n generalizing x with
  | zero => simp [leBytes, leNat, Nat.mod_one]
  | succ n ih =>
    rw [leBytes, leNat, ih, BitVec.toNat_ofNat, pow_succ' 256 n]
    exact Nat.mod_mul.symm

/-- A word of a byte string made of words. -/
theorem leNat_word (ws : List Nat) (w : Nat) :
    leNat (((ws.flatMap (leBytes 4)).drop (4 * w)).take 4) = ws.getD w 0 % 2 ^ 32 := by
  induction ws generalizing w with
  | nil => simp [leNat]
  | cons x t ih =>
    have hx := length_leBytes 4 x
    rw [List.flatMap_cons]
    cases w with
    | zero =>
      rw [Nat.mul_zero, List.drop_zero, List.take_append_of_le_length hx.ge, List.take_of_length_le hx.le, leNat_leBytes]
      rfl
    | succ w =>
      rw [List.drop_append, List.drop_eq_nil_of_le (by omega), List.nil_append, hx, show 4 * (w + 1) - 4 = 4 * w by omega, ih]
      rfl

/-- The words of the event entry that a write of the pod or system page leaves. -/
def podWords (tick off v : Nat) : List Nat := [tick, tick / 2 ^ 32, 3, pgPKG + off / 4 * 2 ^ 20, v, 2 ^ 32 - 1, 0, 0]

theorem podEntry_eq_words (tick off v : Nat) : podEntry tick off v = (podWords tick off v).flatMap (leBytes 4) := by
  simp [podEntry, podWords, leBytes, Nat.div_div_eq_div_mul]

/-- Eight words put at one entry read back. -/
theorem mgetD_foldl_mput {α : Type} (g : Nat → α) (b n : Nat) (m : FMap α) (d : α) {w : Nat} (hw : w < n) :
    mgetD ((List.range n).foldl (fun m w => mput m (b + w) (g w)) m) (b + w) d = g w := by
  induction n with
  | zero => omega
  | succ n ih =>
    rw [List.range_succ, List.foldl_append, List.foldl_cons, List.foldl_nil, mgetD_mput]
    split
    · next e => rw [show n = w by omega]
    · exact ih (by omega)

/-- Event entry `n` holds the words of `e`. -/
def putEvtEntry (s : State) (n : Nat) (e : List Byte) : State :=
  putHerd s fun h => { h with
    evt := (List.range 8).foldl (fun m w => mput m (n * 8 + w) (leNat ((e.drop (4 * w)).take 4))) h.evt }

theorem evtPlace_of_free {s : State} {n : Nat} (e : List Byte) (h : evtFree s = some n) :
    evtPlace s e = some (!evtBad (putEvtEntry s n e) n, evtArm (putEvtEntry s n e) n) := by
  rw [evtPlace, h]
  rfl

theorem evtWord_putEvtEntry (s : State) (n : Nat) (ws : List Nat) {w : Nat} (hw : w < 8) :
    evtWord (putEvtEntry s n (ws.flatMap (leBytes 4))) n w = ws.getD w 0 % 2 ^ 32 :=
  (mgetD_foldl_mput (fun w => leNat (((ws.flatMap (leBytes 4)).drop (4 * w)).take 4)) (n * 8) 8 s.herd.evt 0 hw).trans
    (leNat_word ws w)

/-- That entry is one that may be armed. -/
theorem evtBad_podEntry (s : State) (n : Nat) {tick off v : Nat} (ho : off < 4096) :
    evtBad (putEvtEntry s n (podEntry tick off v)) n = false := by
  have hw : ∀ w, w < 8 → evtWord (putEvtEntry s n (podEntry tick off v)) n w = (podWords tick off v).getD w 0 % 2 ^ 32 := by
    rw [podEntry_eq_words]
    exact fun w => evtWord_putEvtEntry s n _
  have hctrl : evtWord (putEvtEntry s n (podEntry tick off v)) n 2 = 3 := hw 2 (by decide)
  have haddr : evtWord (putEvtEntry s n (podEntry tick off v)) n 3 < 2 ^ 30 := by
    have hpg : pgPKG = 0 := rfl
    rw [hw 3 (by decide)]
    simp only [podWords, List.getD_cons_succ, List.getD_cons_zero]
    omega
  have h6 : evtWord (putEvtEntry s n (podEntry tick off v)) n 6 = 0 := hw 6 (by decide)
  have h7 : evtWord (putEvtEntry s n (podEntry tick off v)) n 7 = 0 := hw 7 (by decide)
  have hact : bits 3 3 1 = 1 ∧ bits 3 31 4 = 0 := by decide
  unfold evtBad
  simp only [hctrl, h6, h7, hact.1, hact.2]
  simpa using haddr

/-- A write of the pod or system page, with entry 0 free: it is sent, and stands armed in that entry. -/
theorem podWrite_of_free {s : State} (system : Bool) {off : Nat} (v tick : Nat) (ho : off < 4096) (h : evtFree s = some 0) :
    podWrite s system off v tick = forBits (putEvtEntry (msgQueue s false false (msgBytes 0x01 0x01 (selfPkg s)
      (if system then 0xFFFF else 0xFFFE) 0 (podEntry tick off v))) 0 (podEntry tick off v)) pgHERD F.HERD_EVTVALID_ARMED 1 := by
  have hf : evtFree (msgQueue s false false (msgBytes 0x01 0x01 (selfPkg s) (if system then 0xFFFF else 0xFFFE) 0
      (podEntry tick off v))) = some 0 := h
  rw [podWrite, evtPlace_of_free _ hf]
  show evtArm _ 0 = _
  rw [evtArm, evtBad_podEntry _ _ ho]
  rfl

theorem Untimed.fget_armed {s : State} (h : Untimed s) : fget s pgHERD F.HERD_EVTVALID_ARMED = 0 := by
  obtain ⟨-, ha, -⟩ := h
  exact ha

theorem evtFree_untimed {s : State} (h : Untimed s) : evtFree s = some 0 := by
  simp only [evtFree, evtArmed, h.fget_armed]
  decide

section
variable {s : State} (system : Bool) {off tick : Nat} (v : Nat) (hu : Untimed s) (ho : off < 4096)
include hu ho

theorem fget_armed_podWrite : fget (podWrite s system off v tick) pgHERD F.HERD_EVTVALID_ARMED = 1 := by
  rw [podWrite_of_free system v tick ho (evtFree_untimed hu), forBits, fget_fput_same _ _ _ _ (by decide)]
  show (fget s pgHERD F.HERD_EVTVALID_ARMED ||| 1) % _ = 1
  rw [hu.fget_armed]
  rfl

theorem evtTick_podWrite (ht : tick < 2 ^ 64) : evtTick (podWrite s system off v tick) 0 = tick := by
  rw [podWrite_of_free system v tick ho (evtFree_untimed hu), podEntry_eq_words]
  refine (congrArg₂ (fun a b => a + b * 2 ^ 32) (evtWord_putEvtEntry _ 0 _ (show 0 < 8 by decide))
    (evtWord_putEvtEntry _ 0 _ (show 1 < 8 by decide))).trans ?_
  show tick % 2 ^ 32 + tick / 2 ^ 32 % 2 ^ 32 * 2 ^ 32 = tick
  omega

theorem tickReached_podWrite (n : Nat) : tickReached (podWrite s system off v tick) n = tickReached s n := by
  have hk : ∀ (u : State) (f : Field), f = F.HERD_TIME_LO_TIME_LO ∨ f = F.HERD_TIME_HI_TIME_HI →
      fgeti (forBits u pgHERD F.HERD_EVTVALID_ARMED 1) pgHERD f 0 = fgeti u pgHERD f 0 := fun u f hf =>
    fgeti_fputi_ne u _ (by rcases hf with rfl | rfl <;> decide)
  rw [podWrite_of_free system v tick ho (evtFree_untimed hu)]
  unfold tickReached herdTime fpair
  rw [hk _ _ (.inl rfl), hk _ _ (.inr rfl)]
  rfl

/-- The entry's tick is all that waits. -/
theorem dueTicks_podWrite (ht : tick < 2 ^ 64) : dueTicks (podWrite s system off v tick) = [tick] := by
  have he : (List.range 32).filter (evtArmed (podWrite s system off v tick)) = [0] := by
    have : evtArmed (podWrite s system off v tick) = fun n => Nat.testBit 1 n := by
      funext n
      rw [evtArmed, fget_armed_podWrite system v hu ho]
    rw [this]
    decide
  have h1 := evtTick_podWrite system v hu ho ht
  unfold dueTicks
  rw [he, List.map_singleton, h1, podWrite_of_free system v tick ho (evtFree_untimed hu)]
  obtain ⟨hs, -, hp, hc, hl⟩ := hu
  simp [putEvtEntry, msgQueue, putHerd, hs, hp, hc, hl]

end

/-- The write settles nothing before its tick. -/
theorem exec_podGroupWrite {s : State} {src : Src} (system : Bool) {off tick : Nat} (value : BitVec 32) (hr : Rules s src)
    (hu : Untimed s) (h4 : off % 4 = 0) (ht : tick < 2 ^ 64) (hn : tickReached s tick = false) :
    exec (.podGroupWrite src system off value tick) s = .next (podWrite s system (off % 4096) value.toNat tick) := by
  have hb : off % 4096 < 4096 := Nat.mod_lt _ (by decide)
  show execPodGroupWrite src system off value tick s = _
  rw [execPodGroupWrite, if_pos h4, withSys_of_rules hr, settleHerd_of_none]
  rw [dueTicks_podWrite system _ hu hb ht, List.filter_singleton, tickReached_podWrite system _ hu hb, hn]
  rfl

/-- Settles O8. That a write of the pod or system page stands in an entry of the package's own is the model's choice
(log 81). -/
theorem pairGroupAndPodWrites : Obligations.PairGroupAndPodWrites := by
  unfold Obligations.PairGroupAndPodWrites
  intro src value s hr hs hu
  refine ⟨exec_pairLoWrite_epochTick value hr hs hu, groupPageWrite_errMask_answers hr hs hu value,
    groupErrClear_answers hr hs hu value, fun system off tick ho ht hn => ?_⟩
  have hb : off % 4096 < 4096 := Nat.mod_lt _ (by decide)
  refine ⟨_, exec_podGroupWrite system value hr hu ho ht hn, rfl, ?_, evtTick_podWrite system _ hu hb ht, ?_, ?_⟩
  · rw [evtArmed, fget_armed_podWrite system _ hu hb]
    rfl
  · rw [podWrite_of_free system _ tick hb (evtFree_untimed hu)]
    exact List.length_append
  · rw [podWrite_of_free system _ tick hb (evtFree_untimed hu)]
    rfl

end Sys2Proof.Machine
end

section
/-! Reads of register words (R49, R520, R524, R533, R536): counters and pairs latch, an absent page reads as zero, a group page
answers for its members, and the pod and system pages answer what was collected: the obligation O7. -/

namespace Sys2Proof.Machine

open Sys2Proof

section
variable {s : State} {w : Writer} {page off : Nat}

/-! ## A read and its answer -/

/-- A read of one word of a page that exists. -/
theorem regRead_word (hs : scrapped s = false) (hp : pageExists s page = true) (ho : off % 4 = 0) :
    regRead s w page off 32 = ((pageRead s w page off).1 % 2 ^ 32, (pageRead s w page off).2) := by
  unfold regRead
  rw [if_neg (by simp [hs]), if_neg (by omega), if_neg (by simp [hp])]
  simp only [ho, Nat.sub_zero, Nat.zero_mul, Nat.pow_zero, Nat.div_one]
  exact if_neg (by omega)

/-- The answer of a page of the package's own. -/
theorem regReadReply_local (hr : remotePage page = false) : regReadReply s w page off 32 =
    reply (regRead s w page off 32).2 (leBytes 4 (regRead s w page off 32).1) := by
  unfold regReadReply
  rw [hr]
  rfl

theorem regReadReply_word (hs : scrapped s = false) (hp : pageExists s page = true) (ho : off % 4 = 0)
    (hr : remotePage page = false) : regReadReply s w page off 32 =
      reply (pageRead s w page off).2 (leBytes 4 ((pageRead s w page off).1 % 2 ^ 32)) := by
  rw [regReadReply_local hr, regRead_word hs hp ho]

theorem remotePage_of_groupOf_none (h : groupOf page = none) : remotePage page = false := by
  unfold remotePage
  rw [h]
  rfl

theorem pageRead_leaf (hw : w.auth = .sys) (hg : groupOf page = none) : pageRead s w page off = leafRead s w page off := by
  unfold pageRead
  rw [hg]
  exact if_pos (by rw [wordAllowed, hw])

/-! ## Counters -/

/-- The low word of a counter that is not held (R533): the counter is latched, and its low half read. -/
theorem leafRead_counter_live {n : Nat} (hn : n < 16) (hh : fbit s page F.CNT_SNAP_HELD = false) :
    leafRead s w page (0x40 + n * 8) = (counter s page n % 2 ^ 32, latchCnt s page n (counter s page n)) := by
  have hi : ((0x40 + n * 8) % 8 == 4) = false := beq_eq_false_iff_ne.2 (by omega)
  have hk : (0x40 + n * 8 - 0x40) / 8 = n := by omega
  have hc : (BitVec.ofNat 64 (counter s page n)).toNat = counter s page n := by
    rw [counter, BitVec.ofNat_toNat, BitVec.setWidth_eq]
  unfold leafRead cntRead
  rw [if_pos (by omega)]
  simp only [hk, hh, hi, Bool.or_self, Bool.false_eq_true, if_false]
  simp only [latchCnt, mgetD, mget_mput_same, Option.getD_some, hc]

/-- The low word of a counter that is held: the low half of its latch. -/
theorem leafRead_counter_held {n : Nat} (hn : n < 16) (hh : fbit s page F.CNT_SNAP_HELD = true) :
    leafRead s w page (0x40 + n * 8) = ((mgetD s.latch (page * 16 + n) 0).toNat % 2 ^ 32, s) := by
  have hi : ((0x40 + n * 8) % 8 == 4) = false := beq_eq_false_iff_ne.2 (by omega)
  have hk : (0x40 + n * 8 - 0x40) / 8 = n := by omega
  unfold leafRead cntRead
  rw [if_pos (by omega)]
  simp only [hk, hh, hi, Bool.or_true, Bool.false_eq_true, if_true, if_false]

end

section
variable {src : Src} {page : Nat} {s : State} (hs : scrapped s = false) (hw : authOf s src = .sys)
include hs hw

/-- A read of the low word of a counter of a leaf page. -/
theorem exec_counterLowRead {n : Nat} (hn : n < 16) (hp : leafExists s page = true) (hg : groupOf page = none) :
    exec (.counterLowRead src page n) s = .next (reply (leafRead s (writerOf s src) page (0x40 + n * 8)).2
      (leBytes 4 ((leafRead s (writerOf s src) page (0x40 + n * 8)).1 % 2 ^ 32))) := by
  show execCounterLowRead src page n s = _
  rw [execCounterLowRead, Nat.mod_eq_of_lt hn, regReadReply_word hs (by simp [pageExists, hp]) (by omega)
    (remotePage_of_groupOf_none hg), pageRead_leaf ((writerOf_auth ..).trans hw) hg]

theorem exec_counterLowRead_live {n : Nat} (hn : n < 16) (hp : leafExists s page = true) (hg : groupOf page = none)
    (hh : fbit s page F.CNT_SNAP_HELD = false) : exec (.counterLowRead src page n) s =
      .next (reply (latchCnt s page n (counter s page n)) (leBytes 4 (counter s page n % 2 ^ 32))) := by
  rw [exec_counterLowRead hs hw hn hp hg, leafRead_counter_live hn hh, Nat.mod_mod]

theorem exec_counterLowRead_held {n : Nat} (hn : n < 16) (hp : leafExists s page = true) (hg : groupOf page = none)
    (hh : fbit s page F.CNT_SNAP_HELD = true) : exec (.counterLowRead src page n) s =
      .next (reply s (leBytes 4 ((mgetD s.latch (page * 16 + n) 0).toNat % 2 ^ 32))) := by
  rw [exec_counterLowRead hs hw hn hp hg, leafRead_counter_held hn hh, Nat.mod_mod]

end

/-! ## Herd time -/

/-- A word of one field that its chapter does not form from other state reads what the field holds. -/
theorem storedWord_single {s : State} {page : Nat} {f : Field} (h : f.acc ≠ .wo) (hl : f.lo = 0) :
    storedWord s page [(f, 0)] = fget s page f := by
  have : (f.acc != .wo) = true := bne_iff_ne.2 h
  simp [storedWord, this, hl, fget]

theorem leafValue_herdTimeLo (s : State) (w : Writer) :
    leafValue s w pgHERD 0x118 = fget s pgHERD F.HERD_TIME_LO_TIME_LO :=
  have hf : wordFields (blkOf pgHERD) 0x118 = [(F.HERD_TIME_LO_TIME_LO, 0)] := by decide
  (congrArg (storedWord s pgHERD) hf).trans (storedWord_single (by decide) rfl)

theorem leafValue_herdTimeHi (s : State) (w : Writer) :
    leafValue s w pgHERD 0x11C = fget s pgHERD F.HERD_TIME_HI_TIME_HI :=
  have hf : wordFields (blkOf pgHERD) 0x11C = [(F.HERD_TIME_HI_TIME_HI, 0)] := by decide
  (congrArg (storedWord s pgHERD) hf).trans (storedWord_single (by decide) rfl)

/-- Herd time is its two words. -/
theorem herdTime_words (s : State) : fget s pgHERD F.HERD_TIME_LO_TIME_LO = herdTime s % 2 ^ 32 ∧
    fget s pgHERD F.HERD_TIME_HI_TIME_HI = herdTime s / 2 ^ 32 := by
  have hlo : fget s pgHERD F.HERD_TIME_LO_TIME_LO < 2 ^ 32 := fgeti_lt s pgHERD _ 0 (by decide)
  have ht : herdTime s = fget s pgHERD F.HERD_TIME_LO_TIME_LO * 2 ^ 0 + fget s pgHERD F.HERD_TIME_HI_TIME_HI * 2 ^ 32 := rfl
  omega

/-- A read of HERD_TIME_LO latches the high word (R536). -/
theorem exec_pairLoRead_herdTime {src : Src} {s : State} (hs : scrapped s = false) (hw : authOf s src = .sys) :
    exec (.pairLoRead src pgHERD 0x118) s =
      .next (reply { s with pairLatch := mput s.pairLatch (pgHERD * 1024 + 0x11C / 4) (BitVec.ofNat 32 (herdTime s / 2 ^ 32)) }
        (leBytes 4 (herdTime s % 2 ^ 32))) := by
  have hl : leafRead s (writerOf s src) pgHERD 0x118 = (herdTime s % 2 ^ 32,
      { s with pairLatch := mput s.pairLatch (pgHERD * 1024 + 0x11C / 4) (BitVec.ofNat 32 (herdTime s / 2 ^ 32)) }) := by
    unfold leafRead
    rw [if_neg (by omega), if_pos ⟨by omega, by decide⟩]
    simp only [Nat.reduceAdd, leafValue_herdTimeLo, leafValue_herdTimeHi, herdTime_words]
  show execPairLoRead src pgHERD 0x118 s = _
  rw [execPairLoRead, if_pos (by decide), regReadReply_word hs rfl (by decide) (by decide),
    pageRead_leaf ((writerOf_auth ..).trans hw) (by decide), hl, Nat.mod_mod]

/-! ## Absent pages -/

theorem groupOf_of_absent {s : State} {page : Nat} (h : pageExists s page = false) : groupOf page = none := by
  simpa using (Bool.or_eq_false_iff.1 h).2

/-- A read of an absent page answers zero and is counted (R520). -/
theorem exec_absentPageAccess_read {src : Src} {s : State} {page : Nat} (off : Nat) (hs : scrapped s = false)
    (hp : pageExists s page = false) :
    exec (.absentPageAccess src page off false) s = .next (reply (bump s pgPKG 0) [0, 0, 0, 0]) := by
  have hr : regRead s (writerOf s src) page (off % 4096 / 4 * 4) 32 = (0, bump s pgPKG 0) := by
    unfold regRead
    rw [if_neg (by simp [hs]), if_neg (by omega), if_pos (by simp [hp])]
  show execAbsentPageAccess src page off false s = _
  rw [execAbsentPageAccess, if_neg (by simp [hp]), if_neg (by decide),
    regReadReply_local (remotePage_of_groupOf_none (groupOf_of_absent hp)), hr, show leBytes 4 0 = [0, 0, 0, 0] by decide]

/-- A write of an absent page is discarded and counted (R520). -/
theorem exec_absentPageAccess_write {src : Src} {s : State} {page : Nat} (off : Nat) (h : Rules s src)
    (hs : scrapped s = false) (hp : pageExists s page = false) :
    exec (.absentPageAccess src page off true) s = .next (bump s pgPKG 0) := by
  show execAbsentPageAccess src page off true s = _
  rw [execAbsentPageAccess, if_neg (by simp [hp]), if_pos rfl, srcWrite_of_rules h]
  unfold regWrite
  rw [if_neg (by simp [hs]), if_neg (by omega), if_pos (by simp [hp])]

/-! ## Group pages -/

/-- ERRMASK of the hubs' package group page reads as hub 0's (R524). -/
theorem exec_groupPageRead_errMask {src : Src} {s : State} (hs : scrapped s = false) (hw : authOf s src = .sys) :
    exec (.groupPageRead src pgHUBGroup 0x1C) s = .next (reply s (leBytes 4 (fget s (pgHUB 0) F.ERRMASK_MASK))) := by
  have hf : wordFields (blkOf (pgHUB 0)) 0x1C = [(F.ERRMASK_MASK, 0)] := by decide
  have hv : leafValue s (writerOf s src) (pgHUB 0) 0x1C = fget s (pgHUB 0) F.ERRMASK_MASK :=
    (congrArg (storedWord s (pgHUB 0)) hf).trans (storedWord_single (by decide) rfl)
  have hlt : fget s (pgHUB 0) F.ERRMASK_MASK < 2 ^ 4 := fgeti_lt s (pgHUB 0) _ 0 (by decide)
  have hn : nativeFields pgHUBGroup 0x1C = [] := if_neg (by decide)
  have hr : pageRead s (writerOf s src) pgHUBGroup 0x1C = (fget s (pgHUB 0) F.ERRMASK_MASK, s) := by
    show groupRead s (writerOf s src) pgHUBGroup 0x1C = _
    unfold groupRead
    rw [membersFor_pgHUBGroup s ((writerOf_auth ..).trans hw), if_neg (by simp [hn]), if_neg (by omega), if_neg (by omega),
      if_neg (by omega), if_pos (by omega), ← hv]
    rfl
  show execGroupPageRead src pgHUBGroup 0x1C s = _
  rw [execGroupPageRead, if_pos (by decide), regReadReply_word hs (by simp [pageExists, show (groupOf pgHUBGroup).isSome from rfl])
    (by decide) (by decide), hr, Nat.mod_eq_of_lt (hlt.trans (by decide))]

/-- A word of the pod or system page answers what the last collection brought, with its Herd time (R49). -/
theorem groupPageRead_pod_answers {src : Src} {s : State} {page off : Nat} (hs : scrapped s = false)
    (hw : authOf s src = .sys) (h4 : off % 4 = 0) (ho : 0x100 ≤ off) (hp : page = pageOf 0 0xFFD ∨ page = pageOf 0 0xFFE) :
    Answers (.groupPageRead src page off) s fun t => t.herd = s.herd ∧ t.mem = s.mem ∧ t.resp.time = some s.herd.podTime ∧
      t.resp.data = leBytes 4 (Config.podWord s.herd.podAt (page * 1024 + off / 4)).toNat := by
  have hg : groupOf page = some .system ∨ groupOf page = some .pod := by
    rcases hp with rfl | rfl
    · exact .inl (by decide)
    · exact .inr (by decide)
  have hsome : isGroup page = true := by
    unfold isGroup
    rcases hg with h | h <;> rw [h] <;> rfl
  have hremote : remotePage page = true := by
    unfold remotePage
    rcases hg with h | h <;> rw [h] <;> rfl
  have hr : pageRead s (writerOf s src) page off = ((Config.podWord s.herd.podAt (page * 1024 + off / 4)).toNat, s) := by
    have hpod : podRead s page off = ((Config.podWord s.herd.podAt (page * 1024 + off / 4)).toNat, s) := if_neg (by omega)
    have ha : (writerOf s src).auth = .sys := (writerOf_auth ..).trans hw
    unfold pageRead
    rcases hg with h | h <;> rw [h] <;> exact (if_pos ha).trans hpod
  refine ⟨regReadReply s (writerOf s src) page off 32, ?_, ?_⟩
  · show execGroupPageRead src page off s = _
    rw [execGroupPageRead, if_pos hsome]
  · unfold regReadReply
    rw [regRead_word hs (Bool.or_eq_true_iff.2 (.inr hsome)) h4, hremote, hr, if_pos rfl]
    exact ⟨rfl, rfl, rfl, congrArg (leBytes 4) (Nat.mod_eq_of_lt (BitVec.isLt _))⟩

/-- Settles O7. The value of a word of the pod or system page is a free value of its collection (log 81). -/
theorem readsLatchAndAnswer : Obligations.ReadsLatchAndAnswer := by
  unfold Obligations.ReadsLatchAndAnswer
  intro src page s hw hs
  exact ⟨fun n hn hp hg hh => exec_counterLowRead_live hs hw hn hp hg hh,
    fun n hn hp hg hh => exec_counterLowRead_held hs hw hn hp hg hh,
    exec_pairLoRead_herdTime hs hw,
    fun off hp => exec_absentPageAccess_read off hs hp,
    fun off hp hr => exec_absentPageAccess_write off hr hs hp,
    exec_groupPageRead_errMask hs hw,
    fun off h4 ho _ hp => groupPageRead_pod_answers hs hw h4 ho hp⟩

end Sys2Proof.Machine
end

section
/-! Window records (R84): the order in which records are combined does not matter, and the obligation O59. -/

namespace Sys2Proof.Machine

open Sys2Proof

theorem winMerge_comm (a b : WinRec) : winMerge a b = winMerge b a := by
  simp only [winMerge, Nat.add_comm, Bool.or_comm]

/-- A count that is cut at 0xFFFF twice is cut as the sum of all three. -/
theorem winMerge_assoc (a b c : WinRec) : winMerge (winMerge a b) c = winMerge a (winMerge b c) := by
  have hunder : min (min (a.under + b.under) 0xFFFF + c.under) 0xFFFF =
      min (a.under + min (b.under + c.under) 0xFFFF) 0xFFFF := by omega
  simp only [winMerge, hunder, Nat.mod_add_mod, Nat.add_mod_mod, Nat.add_assoc, Bool.or_assoc]

/-- Settles O59. -/
theorem windowRecordsCombine : Obligations.WindowRecordsCombine := by
  unfold Obligations.WindowRecordsCombine
  intro a b c
  exact ⟨rfl, Nat.min_comm .., rfl, rfl, rfl, rfl, rfl, winMerge_comm a b, winMerge_assoc a b c⟩

end Sys2Proof.Machine
end

section
/-! Reads at a store's port (R164, R173): a read of a range outside the keep region, whatever errors and poison it meets, gives
the bytes that memory holds, and leaves memory and the vector registers as they are. -/

namespace Sys2Proof.Machine

open Sys2Proof

/-! ## What reports leave -/

/-- `t` holds the same memory and the same vector registers as `s`. -/
def SameData (s t : State) : Prop := t.mem = s.mem ∧ t.undefs = s.undefs ∧ t.vregs = s.vregs

theorem SameData.refl (s : State) : SameData s s := ⟨rfl, rfl, rfl⟩

theorem SameData.trans {s t u : State} (h : SameData s t) (k : SameData t u) : SameData s u := by
  obtain ⟨h1, h2, h3⟩ := h
  obtain ⟨k1, k2, k3⟩ := k
  exact ⟨k1.trans h1, k2.trans h2, k3.trans h3⟩

theorem Counts.sameData {s t : State} (h : Counts s t) : SameData s t := ⟨h.keeps_mem, h.keeps_undefs, h.keeps_vregs⟩

theorem SameData.ite {s t u : State} {c : Prop} [Decidable c] (h : SameData s t) (k : SameData s u) :
    SameData s (if c then t else u) := by
  split
  · exact h
  · exact k

theorem readByte_congr {s t : State} (hm : t.mem = s.mem) (hu : t.undefs = s.undefs) (a : Nat) :
    readByte t a = readByte s a := by
  unfold readByte blankByte
  rw [hm, hu]

theorem SameData.readByte {s t : State} (h : SameData s t) (a : Nat) : readByte t a = readByte s a :=
  readByte_congr h.1 h.2.1 a

theorem SameData.readBytes {s t : State} (h : SameData s t) (pa n : Nat) : readBytes t pa n = readBytes s pa n :=
  List.map_congr_left fun _ _ => h.readByte _

theorem spadLog_counts (s : State) (d st cls off : Nat) (ue poisonRead : Bool) :
    Counts s (spadLog s d st cls off ue poisonRead) := by
  unfold spadLog
  dsimp only
  split
  · exact .refl s
  · refine Counts.trans ?_ (setLogged_counts ..)
    rfl

theorem meetFlaw_single_counts (cls d st : Nat) (s : State) {p : Nat × Flaw} (h : p.2 = .single) :
    Counts s (meetFlaw cls d st s p) := by
  unfold meetFlaw
  rw [h]
  exact (bump_counts ..).trans (spadLog_counts ..)

theorem meetFlaw_sameData (cls d st : Nat) (s : State) (p : Nat × Flaw) : SameData s (meetFlaw cls d st s p) := by
  by_cases h : p.2 = .single
  · exact (meetFlaw_single_counts cls d st s h).sameData
  · have hput : SameData s (putSpad s d st { getSpad s d st with flaws := mput (getSpad s d st).flaws p.1 .met }) :=
      ⟨rfl, rfl, rfl⟩
    unfold meetFlaw
    split
    · contradiction
    · exact hput.trans ((bump_counts ..).trans (spadLog_counts ..)).sameData

theorem foldl_meetFlaw_sameData (cls d st : Nat) (fs : List (Nat × Flaw)) (s : State) :
    SameData s (fs.foldl (meetFlaw cls d st) s) := by
  induction fs generalizing s with
  | nil => exact .refl s
  | cons p t ih => exact (meetFlaw_sameData cls d st s p).trans (ih _)

theorem foldl_meetFlaw_counts (cls d st : Nat) {fs : List (Nat × Flaw)} (h : ∀ p ∈ fs, p.2 = .single) (s : State) :
    Counts s (fs.foldl (meetFlaw cls d st) s) := by
  induction fs generalizing s with
  | nil => exact .refl s
  | cons p t ih =>
    rw [List.forall_mem_cons] at h
    exact (meetFlaw_single_counts cls d st s h.1).trans (ih h.2 _)

/-! ## The pieces of a range -/

/-- Where piece `i` of a range begins when the range is cut at the multiples of `w`. -/
def cut (w off n i : Nat) : Nat := min (off + n) (max off ((off / w + i) * w))

theorem cut_zero (w off n : Nat) : cut w off n 0 = off := by
  have := Nat.div_mul_le_self off w
  rw [cut, Nat.add_zero]
  omega

theorem le_cut (w off n i : Nat) : off ≤ cut w off n i := by
  unfold cut
  omega

theorem cut_le (w off n i : Nat) : cut w off n i ≤ off + n := Nat.min_le_left ..

theorem cut_mono (w off n i : Nat) : cut w off n i ≤ cut w off n (i + 1) := by
  have : (off / w + i) * w ≤ (off / w + (i + 1)) * w := Nat.mul_le_mul_right w (by omega)
  unfold cut
  omega

/-- The lines that a range of `n > 0` bytes touches. -/
def lineCount (off n : Nat) : Nat := (off + n - 1) / 256 + 1 - off / 256

theorem linePieces_eq_cuts {n : Nat} (off : Nat) (hn : 0 < n) : linePieces off n =
    (List.range (lineCount off n)).map fun i => (cut 256 off n i, cut 256 off n (i + 1) - cut 256 off n i) := by
  unfold linePieces
  rw [if_neg (by omega)]
  refine List.map_congr_left fun i hi => ?_
  have := List.mem_range.1 hi
  unfold cut
  ext <;> simp only <;> omega

theorem cut_lineCount {n : Nat} (off : Nat) (hn : 0 < n) : cut 256 off n (lineCount off n) = off + n := by
  unfold cut lineCount
  omega

/-- A part of a range that keeps out of the keep region does so too. -/
theorem inKeep_part {off n lo m : Nat} (h : inKeep off n = false) (h1 : off ≤ lo) (h2 : lo + m ≤ off + n) :
    inKeep lo m = false := by
  simp only [inKeep, Bool.and_eq_false_iff, decide_eq_false_iff_not] at h ⊢
  omega

theorem inKeep_cut {off n : Nat} (w i : Nat) (h : inKeep off n = false) :
    inKeep (cut w off n i) (cut w off n (i + 1) - cut w off n i) = false := by
  have h1 := le_cut w off n i
  have h2 := cut_le w off n (i + 1)
  have h3 := cut_mono w off n i
  exact inKeep_part h h1 (by omega)

/-- What one step after another keeps up with holds after the last of `k` steps. -/
theorem foldl_range_rec {α : Type} {f : α → Nat → α} {P : Nat → α → Prop} {a : α} {k : Nat} (h0 : P 0 a)
    (hs : ∀ i x, i < k → P i x → P (i + 1) (f x i)) : P k ((List.range k).foldl f a) := by
  induction k with
  | zero => exact h0
  | succ k ih =>
    rw [List.range_succ, List.foldl_append, List.foldl_cons, List.foldl_nil]
    exact hs k _ (Nat.lt_succ_self k) (ih fun i x hi => hs i x (Nat.lt_succ_of_lt hi))

/-! ## Reads -/

theorem readBytes_add (s : State) (pa m n : Nat) : readBytes s pa (m + n) = readBytes s pa m ++ readBytes s (pa + m) n := by
  simp only [readBytes, List.range_add, List.map_append, List.map_map, Function.comp_def, Nat.add_assoc]

theorem lineRead_gives (s : State) (d cls : Nat) (secure : Bool) {off n : Nat} (h : inKeep off n = false) :
    SameData s (lineRead s d cls secure off n).1 ∧
      (lineRead s d cls secure off n).2.data = readBytes s (aperPa d off) n := by
  have hs : SameData s (lineRead s d cls secure off n).1 := by
    have hmet (fs : List (Nat × Flaw)) : SameData s (fs.foldl (meetFlaw cls d (storeAt off)) (bump s (pgSPAD d) 3)) :=
      (bump_counts ..).sameData.trans (foldl_meetFlaw_sameData ..)
    have hcount (fs : List (Nat × Flaw)) (b : Bool) (k : Nat) :
        SameData s (if b then fs.foldl (meetFlaw cls d (storeAt off)) (bump s (pgSPAD d) 3)
          else bumpBy (fs.foldl (meetFlaw cls d (storeAt off)) (bump s (pgSPAD d) 3)) (pgSPAD d) 2 k) :=
      (hmet fs).ite ((hmet fs).trans (bumpBy_counts ..).sameData)
    unfold lineRead
    simp only [h, Bool.false_and, Bool.false_eq_true, if_false]
    split
    · exact ((hcount ..).trans (spadLog_counts ..).sameData).ite (hcount ..)
    · exact hcount ..
  refine ⟨hs, ?_⟩
  rw [← hs.readBytes]
  unfold lineRead
  simp only [h, Bool.false_and, Bool.false_eq_true, if_false]

theorem portRead_gives (s : State) (d cls : Nat) (secure : Bool) {off n : Nat} (h : inKeep off n = false) :
    SameData s (portRead s d cls secure off n).1 ∧
      (portRead s d cls secure off n).2.data = readBytes s (aperPa d off) n := by
  rcases Nat.eq_zero_or_pos n with rfl | hn
  · exact ⟨.refl s, rfl⟩
  have hend : readBytes s (aperPa d off) n = readBytes s (aperPa d off) (cut 256 off n (lineCount off n) - off) := by
    rw [cut_lineCount off hn, Nat.add_sub_cancel_left]
  unfold portRead
  rw [linePieces_eq_cuts off hn, List.foldl_map, hend]
  refine foldl_range_rec (P := fun i (x : State × PortRd) =>
    SameData s x.1 ∧ x.2.data = readBytes s (aperPa d off) (cut 256 off n i - off)) ?_ ?_
  · exact ⟨.refl s, by rw [cut_zero, Nat.sub_self]; rfl⟩
  · rintro i ⟨t, r⟩ - ⟨ht, hr⟩
    obtain ⟨hl, hb⟩ := lineRead_gives t d cls secure (inKeep_cut 256 i h)
    have h1 := le_cut 256 off n i
    have h2 := cut_mono 256 off n i
    have hsum : cut 256 off n (i + 1) - off = (cut 256 off n i - off) + (cut 256 off n (i + 1) - cut 256 off n i) := by
      omega
    have hpa : aperPa d off + (cut 256 off n i - off) = aperPa d (cut 256 off n i) := by
      unfold aperPa
      omega
    refine ⟨ht.trans hl, ?_⟩
    rw [hsum, readBytes_add, hpa, ← ht.readBytes (aperPa d (cut 256 off n i)), ← hb]
    exact congrArg (· ++ _) hr

end Sys2Proof.Machine
end

section
/-! Plain writes at a store's port (R164, R171, R174): every byte outside the range stays, and where each granule that the
range touches can be read, the bytes are written. -/

namespace Sys2Proof.Machine

open Sys2Proof

/-! ## Writing bytes -/

/-- A write of bytes changes what memory lists, and nothing else. -/
theorem writeBytes_eq_setMem (s : State) (pa : Nat) (bs : List Byte) :
    writeBytes s pa bs = { s with mem := (writeBytes s pa bs).mem } := by
  induction bs generalizing s pa with
  | nil => rfl
  | cons b t ih => exact ih (writeByte s pa b) (pa + 1)

section
variable (s : State) (pa : Nat) (bs : List Byte)

@[simp] theorem writeBytes_undefs : (writeBytes s pa bs).undefs = s.undefs := by rw [writeBytes_eq_setMem]
@[simp] theorem writeBytes_poison : (writeBytes s pa bs).poison = s.poison := by rw [writeBytes_eq_setMem]
@[simp] theorem writeBytes_spads : (writeBytes s pa bs).spads = s.spads := by rw [writeBytes_eq_setMem]
@[simp] theorem writeBytes_vregs : (writeBytes s pa bs).vregs = s.vregs := by rw [writeBytes_eq_setMem]

end

theorem holdsAt_writeBytes (s : State) (pa : Nat) (bs : List Byte) : HoldsAt (writeBytes s pa bs) pa bs := by
  induction bs generalizing s pa with
  | nil => exact fun i hi => absurd hi (Nat.not_lt_zero i)
  | cons b t ih =>
    intro i hi
    cases i with
    | zero => exact (readByte_writeBytes_out _ _ _ _ (.inl (Nat.lt_succ_self pa))).trans (readByte_writeByte_same s pa b)
    | succ i =>
      have := ih (writeByte s pa b) (pa + 1) i (Nat.lt_of_succ_lt_succ hi)
      rwa [Nat.add_right_comm, Nat.add_assoc] at this

/-! ## Granules that can be read -/

/-- The granule is not poisoned, and every flaw listed for it is one that the code corrects. -/
def GranClean (s : State) (d g : Nat) : Prop :=
  poisonAt s (aperPa d (g * 8)) = false ∧ ∀ e ∈ (getSpad s d (storeAt (g * 8))).flaws, e.1 = g → e.2 = .single

/-- So is each granule that a range of a die's aperture touches. -/
def Clean (s : State) (d off n : Nat) : Prop := ∀ g, g * 8 < off + n → off < g * 8 + 8 → GranClean s d g

/-- Each store of the die lists a granule's flaw once, as the puts and deletions of the map leave it. -/
def FlawsRise (s : State) (d : Nat) : Prop := ∀ st, rising (getSpad s d st).flaws = true

theorem flawsRise_reset (d : Nat) : FlawsRise State.reset d := fun _ => rfl

theorem mem_of_mget {α : Type} {m : FMap α} {k : Nat} {v : α} (h : mget m k = some v) : (k, v) ∈ m := by
  induction m with
  | nil => simp [mget] at h
  | cons e t ih =>
    obtain ⟨j, w⟩ := e
    simp only [mget] at h
    split at h
    · next hj => simp_all
    · exact List.mem_cons_of_mem _ (ih h)

theorem mget_of_mem_rising {α : Type} {m : FMap α} {e : Nat × α} (hm : rising m = true) (h : e ∈ m) :
    mget m e.1 = some e.2 := by
  induction m with
  | nil => simp at h
  | cons x t ih =>
    obtain ⟨j, w⟩ := x
    obtain ⟨hlt, ht⟩ := (rising_cons j w t).1 hm
    rcases List.mem_cons.1 h with rfl | h
    · simp [mget]
    · rw [mget, if_neg (hlt e h).ne, ih ht h]

theorem granBad_of_granClean {s : State} {d g : Nat} (h : GranClean s d g) : granBad s d (storeAt (g * 8)) g = false := by
  obtain ⟨hp, hf⟩ := h
  unfold granBad
  rw [hp, Bool.false_or]
  cases hm : mget (getSpad s d (storeAt (g * 8))).flaws g with
  | none => rfl
  | some f =>
    obtain rfl : f = .single := hf _ (mem_of_mget hm) rfl
    rfl

theorem clean_of_whole {s : State} {d off n : Nat} (h : Whole s d off n) (hr : FlawsRise s d) : Clean s d off n := by
  intro g h1 h2
  have hg := h g h1 h2
  unfold granBad at hg
  rw [Bool.or_eq_false_iff] at hg
  obtain ⟨hp, hf⟩ := hg
  refine ⟨hp, fun e he hk => ?_⟩
  rw [← hk, mget_of_mem_rising (hr _) (hk ▸ he)] at hf
  cases hs : e.2 <;> simp_all

theorem GranClean.congr {s t : State} {d g : Nat} (h : GranClean s d g) (hp : t.poison = s.poison)
    (hs : t.spads = s.spads) : GranClean t d g := by
  unfold GranClean poisonAt getSpad at h ⊢
  rwa [hp, hs]

theorem granClean_setPoison {s : State} {d g : Nat} (pa : Nat) (h : GranClean s d g) :
    GranClean (setPoison s pa false) d g := by
  obtain ⟨hp, hf⟩ := h
  refine ⟨?_, hf⟩
  have hd : (setPoison s pa false).poison = mdel s.poison (poisonKey pa) := rfl
  unfold poisonAt at hp ⊢
  rw [hd, mget_mdel]
  split
  · rfl
  · exact hp

/-- A granule's store no longer lists a flaw for it. -/
def clearFlaw (d gran : Nat) (s : State) : State :=
  putSpad s d (storeAt (gran * 8))
    { getSpad s d (storeAt (gran * 8)) with flaws := mdel (getSpad s d (storeAt (gran * 8))).flaws gran }

theorem granClean_clearFlaw {s : State} {d g : Nat} (gran : Nat) (h : GranClean s d g) :
    GranClean (clearFlaw d gran s) d g := by
  obtain ⟨hp, hf⟩ := h
  refine ⟨hp, fun e he hk => ?_⟩
  unfold clearFlaw getSpad putSpad at he
  rw [mgetD_mput] at he
  split at he
  · next hkey =>
    have hst : storeAt (gran * 8) = storeAt (g * 8) := by
      unfold spadKey at hkey
      omega
    exact hf e (List.mem_of_mem_filter (hst ▸ he)) hk
  · exact hf e he hk

/-! ## What a write at a port does -/

/-- From `s` to `t`, bytes were written from an aperture offset of a die on, where its granules could be read. -/
structure PortWrote (d : Nat) (s t : State) (off : Nat) (bs : List Byte) : Prop where
  vregs : t.vregs = s.vregs
  outside : SameOutside s t (aperPa d off) bs.length
  holds : Clean s d off bs.length → HoldsAt t (aperPa d off) bs
  clean : Clean s d off bs.length → ∀ g, GranClean s d g → GranClean t d g

theorem PortWrote.of_counts {d : Nat} {s t : State} (off : Nat) (h : Counts s t) : PortWrote d s t off [] where
  vregs := h.keeps_vregs
  outside a _ := h.sameData.readByte a
  holds _ i hi := absurd hi (Nat.not_lt_zero i)
  clean _ _ hg := hg.congr h.keeps_poison h.keeps_spads

theorem PortWrote.append {d : Nat} {s t u : State} {off : Nat} {a b : List Byte} (h : PortWrote d s t off a)
    (k : PortWrote d t u (off + a.length) b) : PortWrote d s u off (a ++ b) := by
  have hpa : aperPa d (off + a.length) = aperPa d off + a.length := (Nat.add_assoc ..).symm
  have hfst (hc : Clean s d off (a ++ b).length) : Clean s d off a.length := fun g h1 h2 =>
    hc g (by rw [List.length_append]; omega) h2
  have hsnd (hc : Clean s d off (a ++ b).length) : Clean t d (off + a.length) b.length := fun g h1 h2 =>
    h.clean (hfst hc) g (hc g (by rw [List.length_append]; omega) (by omega))
  refine ⟨k.vregs.trans h.vregs, fun x hx => ?_, fun hc i hi => ?_,
    fun hc g hg => k.clean (hsnd hc) g (h.clean (hfst hc) g hg)⟩
  · rw [List.length_append] at hx
    exact (k.outside x (by omega)).trans (h.outside x (by omega))
  · rcases Nat.lt_or_ge i a.length with hia | hia
    · rw [k.outside _ (by omega), h.holds (hfst hc) i hia, lget, lget, List.getD_append _ _ _ _ hia]
    · rw [List.length_append] at hi
      have := k.holds (hsnd hc) (i - a.length) (by omega)
      rw [hpa, Nat.add_assoc, Nat.add_sub_cancel' hia] at this
      rw [this, lget, lget, List.getD_append_right _ _ _ _ hia]

/-- Reports before a write do not change what it wrote. -/
theorem PortWrote.after_counts {d : Nat} {s t u : State} {off : Nat} {bs : List Byte} (h : Counts s t)
    (k : PortWrote d t u off bs) : PortWrote d s u off bs :=
  (PortWrote.of_counts off h).append k

/-- Reports after a write do not either. -/
theorem PortWrote.before_counts {d : Nat} {s t u : State} {off : Nat} {bs : List Byte} (h : PortWrote d s t off bs)
    (k : Counts t u) : PortWrote d s u off bs := by
  have := h.append (.of_counts _ k)
  rwa [List.append_nil] at this

/-! ## Granule by granule -/

theorem portWrote_writeBytes (d : Nat) (s : State) (off gran : Nat) (bs : List Byte) :
    PortWrote d s (clearFlaw d gran (writeBytes s (aperPa d off) bs)) off bs where
  vregs := writeBytes_vregs ..
  outside a ha := readByte_writeBytes_out s _ a bs ha
  holds _ := holdsAt_writeBytes s _ bs
  clean _ _ hg := granClean_clearFlaw gran (hg.congr (writeBytes_poison ..) (writeBytes_spads ..))

theorem PortWrote.setPoison {d : Nat} {s t : State} {off : Nat} {bs : List Byte} (h : PortWrote d s t off bs) (pa : Nat) :
    PortWrote d s (setPoison t pa false) off bs where
  vregs := h.vregs
  outside := h.outside
  holds := h.holds
  clean hc g hg := granClean_setPoison pa (h.clean hc g hg)

theorem viewed_plain {old bs : List Byte} (h : old.length = bs.length) :
    ((old.zip bs).map fun e => viewByte 0 e.1 e.2) = bs :=
  List.map_snd_zip h.ge

/-- The state in which a write to part of a granule has met the granule's flaws. -/
def metGran (s : State) (d cls gran off n : Nat) : State :=
  (flawsIn (getSpad s d (storeAt (gran * 8))) off n).foldl (meetFlaw cls d (storeAt (gran * 8))) s

/-- A plain write of unpoisoned bytes into a granule: the whole of it, or part of it after a read. -/
theorem granWrite_plain (s : State) (met : Bool) (d cls gran off : Nat) (bs : List Byte) :
    granWrite d cls 0 false (s, met) gran off bs =
      if off = gran * 8 ∧ bs.length = 8 then
        (setPoison (clearFlaw d gran (writeBytes s (aperPa d off) bs)) (aperPa d off) false, met)
      else if granBad (metGran s d cls gran off bs.length) d (storeAt (gran * 8)) gran then
        (metGran s d cls gran off bs.length, true)
      else (clearFlaw d gran (writeBytes (metGran s d cls gran off bs.length) (aperPa d off) bs), met) := by
  have hv : ∀ u pa, ((readBytes u pa bs.length).zip bs).map (fun e => viewByte 0 e.1 e.2) = bs := fun u pa =>
    viewed_plain (by simp [readBytes])
  unfold granWrite
  simp only [true_and, hv, Bool.false_eq_true, if_false]
  rfl

/-- Where every flaw of the granule is one that the code corrects, meeting them is only reported. -/
theorem metGran_counts {s : State} {d gran off n : Nat} (cls : Nat) (h : GranClean s d gran) (h1 : gran * 8 ≤ off)
    (h2 : off + n ≤ gran * 8 + 8) : Counts s (metGran s d cls gran off n) := by
  obtain ⟨-, hf⟩ := h
  refine foldl_meetFlaw_counts _ _ _ (fun p hp => ?_) s
  obtain ⟨hm, hr⟩ := List.mem_filter.1 hp
  simp only [Bool.and_eq_true, decide_eq_true_eq] at hr
  exact hf p hm (by omega)

theorem portWrote_granWrite (s : State) (met : Bool) (d cls : Nat) {gran off : Nat} {bs : List Byte} (h0 : 0 < bs.length)
    (h1 : gran * 8 ≤ off) (h2 : off + bs.length ≤ gran * 8 + 8) :
    PortWrote d s (granWrite d cls 0 false (s, met) gran off bs).1 off bs := by
  have hmet : SameData s (metGran s d cls gran off bs.length) := foldl_meetFlaw_sameData ..
  have hclean (hc : Clean s d off bs.length) : GranClean s d gran := hc gran (by omega) (by omega)
  have hcounts (hc : Clean s d off bs.length) := metGran_counts cls (hclean hc) h1 h2
  rw [granWrite_plain]
  split
  · exact (portWrote_writeBytes ..).setPoison _
  · split
    · next hbad =>
      have hnot : ¬ Clean s d off bs.length := fun hc => by
        rw [granBad_of_granClean ((hclean hc).congr (hcounts hc).keeps_poison (hcounts hc).keeps_spads)] at hbad
        contradiction
      exact ⟨hmet.2.2, fun a _ => hmet.readByte a, fun hc => absurd hc hnot, fun hc => absurd hc hnot⟩
    · have hw := portWrote_writeBytes d (metGran s d cls gran off bs.length) off gran bs
      exact ⟨hw.vregs.trans hmet.2.2, fun a ha => (hw.outside a ha).trans (hmet.readByte a),
        fun _ => holdsAt_writeBytes _ _ bs, fun hc => (hw.after_counts (hcounts hc)).clean hc⟩

/-! ## Piece by piece -/

theorem slice_eq_take {bs : List Byte} {off n : Nat} (h : off + n ≤ bs.length) : slice bs off n = (bs.drop off).take n := by
  simp only [slice, List.length_take, List.length_drop]
  rw [show n - min n (bs.length - off) = 0 by omega, List.replicate_zero, List.append_nil]

theorem slice_add {bs : List Byte} {m n : Nat} (h : m + n ≤ bs.length) :
    slice bs 0 (m + n) = slice bs 0 m ++ slice bs m n := by
  rw [slice_eq_take (by omega), slice_eq_take (by omega), slice_eq_take h, List.drop_zero, List.take_add]

/-- Pieces that are written one after another are written as one. -/
theorem PortWrote.pieces {α : Type} {d w off k : Nat} {bs : List Byte} {f : α → Nat → α} {st : α → State}
    (hk : cut w off bs.length k = off + bs.length)
    (h : ∀ a i, i < k → PortWrote d (st a) (st (f a i)) (cut w off bs.length i)
      (slice bs (cut w off bs.length i - off) (cut w off bs.length (i + 1) - cut w off bs.length i))) (a : α) :
    PortWrote d (st a) (st ((List.range k).foldl f a)) off bs := by
  have hall : slice bs 0 (cut w off bs.length k - off) = bs := by
    rw [hk, Nat.add_sub_cancel_left, slice_eq_take (by omega), List.drop_zero, List.take_length]
  rw [← hall]
  refine foldl_range_rec (P := fun i x => PortWrote d (st a) (st x) off (slice bs 0 (cut w off bs.length i - off))) ?_ ?_
  · rw [cut_zero, Nat.sub_self]
    exact .of_counts off (.refl _)
  · intro i x hi hx
    have h1 := le_cut w off bs.length i
    have h2 := cut_mono w off bs.length i
    have h3 := cut_le w off bs.length (i + 1)
    have hsum : cut w off bs.length (i + 1) - off =
        (cut w off bs.length i - off) + (cut w off bs.length (i + 1) - cut w off bs.length i) := by omega
    rw [hsum, slice_add (by omega)]
    refine hx.append ?_
    rw [slice_length, Nat.add_sub_cancel' h1]
    exact h x i hi

theorem portWrote_lineStore (s : State) (d cls : Nat) (secure : Bool) {off : Nat} {bs : List Byte} (h0 : 0 < bs.length)
    (hk : inKeep off bs.length = false) : PortWrote d s (lineStore s d cls secure 0 off bs false).1 off bs := by
  unfold lineStore
  simp only [hk, Bool.false_and, Bool.false_eq_true, if_false, if_true]
  refine (PortWrote.pieces (w := 8) (st := Prod.fst (β := Bool)) ?_ ?_ (_, false)).after_counts
    (bumpBy_counts s (pgSPAD d) 3 (if lockedWrite 0 off bs.length then 2 else 1))
  · unfold cut
    omega
  · rintro ⟨t, met⟩ i hi
    have hlo : cut 8 off bs.length i = max off ((off / 8 + i) * 8) := by
      unfold cut
      omega
    have hhi : cut 8 off bs.length (i + 1) = min (off + bs.length) ((off / 8 + i) * 8 + 8) := by
      unfold cut
      omega
    rw [hlo, hhi]
    refine portWrote_granWrite t met d cls ?_ ?_ ?_
    · rw [slice_length]
      omega
    · omega
    · rw [slice_length]
      omega

theorem portWrote_portWrite (s : State) (d cls : Nat) (secure : Bool) {off : Nat} {bs : List Byte}
    (hk : inKeep off bs.length = false) : PortWrote d s (portWrite s d cls secure 0 off bs false).1 off bs := by
  rcases Nat.eq_zero_or_pos bs.length with h | hn
  · obtain rfl := List.length_eq_zero_iff.1 h
    exact .of_counts off (.refl s)
  unfold portWrite
  rw [linePieces_eq_cuts off hn, List.foldl_map]
  refine PortWrote.pieces (w := 256) (st := Prod.fst (β := PortWr)) (cut_lineCount off hn) ?_ (s, {})
  rintro ⟨t, r⟩ i hi
  refine portWrote_lineStore t d cls secure ?_ ?_
  · rw [slice_length]
    unfold cut
    unfold lineCount at hi
    omega
  · rw [slice_length]
    exact inKeep_cut 256 i hk

end Sys2Proof.Machine
end

section
/-! Vector instructions that reduce, transpose, load and store (R64, R72, R73, R88, R132 to R134): what each does to vector
registers and memory, one theorem for each clause of O20. VST.N and VBENC write their bytes where the granules they touch can
be read and each store of the die lists a granule's flaw once (`FlawsRise`), which the clauses of O20 do not ask. -/

namespace Sys2Proof.Machine

open Sys2Proof

/-! ## A core that runs, and its accesses -/

theorem withCore_of_runs {s : State} {c : PrepCore} (h : Runs s c) (f : PrepSt → State) :
    withCore s c f = f (getCore s c) := by
  obtain ⟨hok, hrun, hclk⟩ := h
  simp [withCore, hok, hrun, hclk]

theorem coreAccess_of_reaches {s : State} {c : PrepCore} {off n : Nat} (h : Reaches s c off n) (go : Nat → State) :
    coreAccess s c off n go = go (corePa c off) := by
  obtain ⟨hin, hkeep, hbusy, hlast⟩ := h
  simp [coreAccess, hin, hkeep, hbusy, hlast, corePa]

/-- What a core reaches ends where the die store does. -/
theorem end_le_of_coreReaches {c : PrepCore} {off n : Nat} (hc : coreOk c = true) (h : coreReaches c off n = true) :
    off + n ≤ 0x7C00000 := by
  simp only [coreOk, coreReaches, Bool.and_eq_true, Bool.or_eq_true, decide_eq_true_eq] at hc h
  omega

section
variable {s : State} {c : PrepCore} {off n : Nat} (hc : coreOk c = true)
include hc

/-- The die and aperture offset of a core's address. -/
theorem corePa_place (h : coreReaches c off n = true) :
    (corePa c off - spadBase) / 0x8000000 = c.die ∧ (corePa c off - spadBase) % 0x8000000 = off := by
  have := end_le_of_coreReaches hc h
  have hsub : corePa c off - spadBase = c.die * 0x8000000 + off := by
    unfold corePa
    omega
  omega

theorem coreRead_gives (t : State) (h : Reaches s c off n) :
    SameData t (coreRead t c (corePa c off) n).1 ∧ (coreRead t c (corePa c off) n).2 = readBytes t (corePa c off) n := by
  obtain ⟨hin, hkeep, -, -⟩ := h
  obtain ⟨hd, ho⟩ := corePa_place hc hin
  obtain ⟨hs, hb⟩ := portRead_gives t c.die 4 false hkeep
  have hp : paRead t 4 (corePa c off) n = portRead t c.die 4 false off n := by rw [paRead, hd, ho]
  unfold coreRead corePoison
  rw [hp]
  refine ⟨hs.trans ?_, hb⟩
  exact SameData.ite (counts_fput ..).sameData (.refl _)

theorem portWrote_coreWrite (t : State) {bs : List Byte} (hn : bs.length = n) (h : Reaches s c off n) :
    PortWrote c.die t (coreWrite t c 0 (corePa c off) bs) off bs := by
  subst hn
  obtain ⟨hin, hkeep, -, -⟩ := h
  obtain ⟨hd, ho⟩ := corePa_place hc hin
  have hw := portWrote_portWrite t c.die 4 false hkeep
  have hp : paWrite t 4 0 (corePa c off) bs false = portWrite t c.die 4 false 0 off bs false := by rw [paWrite, hd, ho]
  unfold coreWrite corePoison
  rw [hp]
  dsimp only
  split
  · exact hw.before_counts (counts_fput ..)
  · exact hw

end

/-! ## Vector registers, and what counting leaves -/

theorem getVreg_congr {s t : State} (h : t.vregs = s.vregs) (c : PrepCore) (r : Nat) : getVreg t c r = getVreg s c r := by
  unfold getVreg
  rw [h]

theorem getVreg_putVreg (s : State) (c : PrepCore) (d r : Nat) (v : List Word) :
    getVreg (putVreg s c d v) c r = if d % 32 = r % 32 then v else getVreg s c r := by
  have hkey : vregKey c d = vregKey c r ↔ d % 32 = r % 32 := by
    unfold vregKey
    omega
  exact (mgetD_mput ..).trans (if_congr hkey rfl rfl)

theorem getVreg_putVreg_same (s : State) (c : PrepCore) (d : Nat) (v : List Word) : getVreg (putVreg s c d v) c d = v := by
  rw [getVreg_putVreg, if_pos rfl]

theorem retire_sameData (s : State) (c : PrepCore) : SameData s (retire s c) := by
  refine SameData.trans ?_ (bump_counts ..).sameData
  exact ⟨rfl, rfl, rfl⟩

theorem vecRetire_sameData (s : State) (c : PrepCore) (n : Nat) : SameData s (vecRetire s c n) :=
  ((bump_counts ..).trans (bump_counts ..)).sameData.trans (retire_sameData ..)

theorem vecOverflow_sameData (s : State) (c : PrepCore) (n : Nat) : SameData s (vecOverflow s c n) := ⟨rfl, rfl, rfl⟩

/-! ## VRSUM and VTRN -/

theorem lget_lset_zero {l : List Word} (h : 0 < l.length) (v : Word) : lget (lset l 0 v) 0 0 = v := by
  cases l with
  | nil => contradiction
  | cons x t => rfl

theorem lget_lset_zero_pos (l : List Word) (v : Word) {i : Nat} (h : 0 < i) : lget (lset l 0 v) i 0 = lget l i 0 := by
  obtain ⟨j, rfl⟩ : ∃ j, i = j + 1 := ⟨i - 1, by omega⟩
  cases l with
  | nil => rfl
  | cons x t => rfl

theorem vrsum_answers {s : State} {core : PrepCore} {d : Nat} (a : Nat) (h : Runs s core)
    (hd : (getVreg s core d).length = 32) : Answers (.vrsum core d a) s fun t =>
      lget (getVreg t core d) 0 0 = treeSum (getVreg s core a) ∧
      (∀ l, 0 < l → lget (getVreg t core d) l 0 = lget (getVreg s core d) l 0) ∧ t.mem = s.mem := by
  refine ⟨_, rfl, ?_⟩
  rw [withCore_of_runs h]
  obtain ⟨hm, -, hv⟩ := (bump_counts (putVreg s core d (lset (getVreg s core d) 0 (treeSum (getVreg s core a))))
    (pgVecOf core) 0).sameData.trans (vecRetire_sameData _ core 2)
  rw [getVreg_congr hv, getVreg_putVreg_same]
  exact ⟨lget_lset_zero (by omega) _, fun l hl => lget_lset_zero_pos _ _ hl, hm⟩

/-- Registers that are written one after another each hold their own. -/
theorem getVreg_foldl_putVreg (s : State) (c : PrepCore) (f : Nat → List Word) {n r : Nat} (hn : n ≤ 32) (hr : r < n) :
    getVreg ((List.range n).foldl (fun t i => putVreg t c i (f i)) s) c r = f r := by
  refine foldl_range_rec (P := fun n t => n ≤ 32 → r < n → getVreg t c r = f r) ?_ ?_ hn hr
  · exact fun _ h => absurd h (Nat.not_lt_zero r)
  · intro i t _ ih hi hr
    rw [getVreg_putVreg]
    split
    · rw [show i = r by omega]
    · exact ih (by omega) (by omega)

theorem foldl_putVreg_mem (s : State) (c : PrepCore) (f : Nat → List Word) (n : Nat) :
    ((List.range n).foldl (fun t i => putVreg t c i (f i)) s).mem = s.mem :=
  foldl_range_rec (P := fun _ (t : State) => t.mem = s.mem) rfl fun _ _ _ h => h

/-- Lane `l` of row `r` of a table of 32 rows of 32 lanes. -/
theorem lget_table (g : Nat → Nat → Word) {r l : Nat} (hr : r < 32) (hl : l < 32) :
    lget (lget ((List.range 32).map fun r => (List.range 32).map (g r)) r []) l 0 = g r l := by
  simp [lget, List.getD_eq_getElem?_getD, hr, hl]

theorem vtrn_answers {s : State} {core : PrepCore} (h : Runs s core) : Answers (.vtrn core) s fun t =>
    (∀ r l, r < 32 → l < 32 → lget (getVreg t core r) l 0 = lget (getVreg s core l) r 0) ∧ t.mem = s.mem := by
  refine ⟨_, rfl, ?_⟩
  rw [withCore_of_runs h]
  obtain ⟨hm, -, hv⟩ := vecRetire_sameData ((List.range 32).foldl (fun s' r => putVreg s' core r
    (lget ((List.range 32).map fun r => (List.range 32).map fun l => lget (getVreg s core l) r 0) r [])) s) core 3
  refine ⟨fun r l hr hl => ?_, hm.trans (foldl_putVreg_mem ..)⟩
  rw [getVreg_congr hv, getVreg_foldl_putVreg s core _ (Nat.le_refl 32) hr]
  exact lget_table (fun r l => lget (getVreg s core l) r 0) hr hl

/-! ## Loads -/

/-- The formats of VBENC and VBDEC fill a register with whole blocks, each with one byte of scale. -/
theorem blockFmt_shape {fmt : Nat} {ts : Word} (hf : blockFmtOk fmt ts = true) :
    isBlock fmt = true ∧ 32 / blockElems fmt * blockElems fmt = 32 ∧ vecScales fmt = 32 / blockElems fmt := by
  simp only [blockFmtOk, Bool.and_eq_true, decide_eq_true_eq] at hf
  obtain ⟨⟨-, hlo⟩, hhi⟩ := hf
  interval_cases fmt <;> decide

/-- What a load puts into its register: its lanes, widened (R64). -/
def loadedLanes (s : State) (c : PrepCore) (fmt off so : Nat) (ts : Word) (sat : Bool) : List Word :=
  (widenLanes fmt ts sat (readBytes s (corePa c off) (vecBytes fmt))
    (if isBlock fmt then readBytes s (corePa c so) (vecScales fmt) else [])).map fun e => BitVec.ofNat 32 e.1

/-- The reports of a load, after its register is written. -/
theorem loadReports_sameData (s : State) (c : PrepCore) (cnt n : Nat) : SameData s (vecRetire
    (vecOverflow (if cnt = 0 then bumpBy s (pgVecOf c) 6 n else bump s (pgVecOf c) 0) c n) c cnt) :=
  ((bumpBy_counts ..).sameData.ite (bump_counts ..).sameData).trans
    ((vecOverflow_sameData ..).trans (vecRetire_sameData ..))

/-- A register written over the memory of `s` stays with that memory. -/
theorem loaded_of_sameData {s u t : State} {c : PrepCore} {d : Nat} {v : List Word} (hu : SameData s u)
    (ht : SameData (putVreg u c d v) t) : getVreg t c d = v ∧ t.mem = s.mem := by
  obtain ⟨hm, -, hv⟩ := ht
  exact ⟨(getVreg_congr hv c d).trans (getVreg_putVreg_same ..), hm.trans hu.1⟩

theorem vecLoad_loads {s : State} {c : PrepCore} (hc : coreOk c = true) (cnt d : Nat) {fmt off so : Nat} (ts : Word)
    (sat : Bool) (ho : Reaches s c off (vecBytes fmt)) (hso : isBlock fmt = true → Reaches s c so (vecScales fmt)) :
    getVreg (vecLoad s c cnt d fmt off so ts sat) c d = loadedLanes s c fmt off so ts sat ∧
      (vecLoad s c cnt d fmt off so ts sat).mem = s.mem := by
  obtain ⟨hs, hb⟩ := coreRead_gives hc s ho
  unfold vecLoad loadedLanes
  simp only [coreAccess_of_reaches ho, hb]
  by_cases hblk : isBlock fmt = true
  · obtain ⟨hs', hb'⟩ := coreRead_gives hc (coreRead s c (corePa c off) (vecBytes fmt)).1 (hso hblk)
    simp only [hblk, if_true, coreAccess_of_reaches (hso hblk), hb', hs.readBytes]
    exact loaded_of_sameData (hs.trans hs') (loadReports_sameData ..)
  · simp only [hblk, Bool.false_eq_true, if_false]
    exact loaded_of_sameData hs (loadReports_sameData ..)

section
variable {s : State} {core : PrepCore} {fmt off so : Nat} {ts : Word} (d : Nat) (h : Runs s core)
include h

theorem vldW_answers (sat : Bool) (hf : vecFmtOk fmt ts = true) (ho : Reaches s core off (vecBytes fmt))
    (hso : isBlock fmt = true → Reaches s core so (vecScales fmt)) :
    Answers (.vldW core d fmt off so ts sat) s fun t =>
      getVreg t core d = loadedLanes s core fmt off so ts sat ∧ t.mem = s.mem := by
  refine ⟨_, rfl, ?_⟩
  rw [withCore_of_runs h, if_pos hf]
  exact vecLoad_loads h.1 0 d ts sat ho hso

theorem vbdec_answers (hf : blockFmtOk fmt ts = true) (ho : Reaches s core off (vecBytes fmt))
    (hso : Reaches s core so (vecScales fmt)) : Answers (.vbdec core d fmt off so ts) s fun t =>
      getVreg t core d = (widenLanes fmt ts false (readBytes s (corePa core off) (vecBytes fmt))
        (readBytes s (corePa core so) (vecScales fmt))).map (fun e => BitVec.ofNat 32 e.1) ∧ t.mem = s.mem := by
  obtain ⟨hblk, -, -⟩ := blockFmt_shape hf
  have hl := vecLoad_loads h.1 4 d ts false ho fun _ => hso
  rw [loadedLanes, if_pos hblk] at hl
  refine ⟨_, rfl, ?_⟩
  rw [withCore_of_runs h, if_pos hf]
  exact hl

end

/-! ## Stores -/

theorem length_mapIdx {α β : Type} (f : Nat → α → β) (i : Nat) (l : List α) : (mapIdx f i l).length = l.length := by
  induction l generalizing i with
  | nil => rfl
  | cons a t ih => rw [mapIdx, List.length_cons, List.length_cons, ih]

theorem length_packElems {fmt : Nat} {cs : List Nat} (h : cs.length = 32) : (packElems fmt cs).length = vecBytes fmt := by
  unfold packElems vecBytes
  rw [length_leBytes, h]
  omega

/-- A block has a code for each of its values. -/
theorem length_encBlock_codes (fmt : Nat) (ts : Word) (draws : Option (Nat → Nat)) (vs : List FpV) :
    (encBlock fmt ts draws vs).codes.length = vs.length := by
  unfold encBlock
  dsimp only
  split
  all_goals
    split
    · simp
    · split
      · simp
      · simp [length_mapIdx]

theorem drawGuard_of_ok (s : State) (c : PrepCore) {sr : Option SrKey} (go : State)
    (h : ∀ k, sr = some k → purposeOk k.purpose = true ∧ k.coord + 31 < 2 ^ 56) : drawGuard s c sr go = go := by
  cases sr with
  | none => rfl
  | some k =>
    obtain ⟨hp, hk⟩ := h k rfl
    simp only [drawGuard, hp, Bool.not_true, Bool.false_eq_true, if_false]
    exact if_neg (by omega)

/-- The reports of a store, after its bytes are written. -/
theorem storeReports_sameData (s : State) (c : PrepCore) (sr : Option SrKey) (n : Nat) :
    SameData s (if sr.isSome then bumpBy (bumpBy (vecOverflow s c n) (pgVecOf c) 6 n) (pgVecOf c) 7 32
      else bumpBy (vecOverflow s c n) (pgVecOf c) 6 n) :=
  have h : SameData s (bumpBy (vecOverflow s c n) (pgVecOf c) 6 n) :=
    (vecOverflow_sameData s c n).trans (bumpBy_counts ..).sameData
  (h.trans (bumpBy_counts ..).sameData).ite h

section
variable {s : State} {core : PrepCore} {a fmt off : Nat}

/-- The codes of a register's lanes, narrowed (R67, R88). -/
def narrowedLanes (s : State) (c : PrepCore) (a fmt : Nat) (sat : Bool) (sr : Option SrKey) : List (Nat × Bool) :=
  mapIdx (fun l w => narrow (elemFmt fmt) sat
    (match sr with | some k => .sr (laneDraw s c k l) | none => .rne) (ofFp32 w)) 0 (getVreg s c a)

/-- The bytes that VST.N writes. -/
def narrowedBytes (s : State) (c : PrepCore) (a fmt : Nat) (sat : Bool) (sr : Option SrKey) : List Byte :=
  packElems fmt ((narrowedLanes s c a fmt sat sr).map (·.1))

theorem length_narrowedBytes (sat : Bool) (sr : Option SrKey) (ha : (getVreg s core a).length = 32) :
    (narrowedBytes s core a fmt sat sr).length = vecBytes fmt :=
  length_packElems (by rw [List.length_map, narrowedLanes, length_mapIdx, ha])

theorem vstN_answers (so : Nat) (ts : Word) (sat : Bool) {sr : Option SrKey} (h : Runs s core) (hr : FlawsRise s core.die)
    (hk : fmtKnown fmt = true) (hp : isBlock fmt = false) (ho : Reaches s core off (vecBytes fmt))
    (hsr : ∀ k, sr = some k → purposeOk k.purpose = true ∧ k.coord + 31 < 2 ^ 56)
    (hw : Whole s core.die off (vecBytes fmt)) (ha : (getVreg s core a).length = 32) :
    Answers (.vstN core a fmt off so ts sat sr) s fun t =>
      HoldsAt t (corePa core off) (narrowedBytes s core a fmt sat sr) ∧
      SameOutside s t (corePa core off) (vecBytes fmt) ∧ t.vregs = s.vregs := by
  have hlen := length_narrowedBytes (fmt := fmt) sat sr ha
  have hwrote := portWrote_coreWrite h.1 s hlen ho
  have hclean := clean_of_whole hw hr
  rw [← hlen] at hclean
  refine ⟨_, rfl, ?_⟩
  rw [withCore_of_runs h, if_neg (by simp [hk, hp]), drawGuard_of_ok s core _ hsr, coreAccess_of_reaches ho]
  have hrep := (storeReports_sameData (coreWrite s core 0 (corePa core off) (narrowedBytes s core a fmt sat sr)) core sr
    ((narrowedLanes s core a fmt sat sr).filter (·.2)).length).trans (vecRetire_sameData _ core 0)
  refine ⟨fun i hi => (hrep.readByte _).trans (hwrote.holds hclean i hi), fun x hx => ?_, hrep.2.2.trans hwrote.vregs⟩
  exact (hrep.readByte x).trans (hwrote.outside x (by rwa [hlen]))

/-- A stochastic draw of a reserved purpose stops the core before it writes (R88). -/
theorem exec_vstN_reserved (so : Nat) (ts : Word) (sat : Bool) {k : SrKey} (h : Runs s core) (hk : fmtKnown fmt = true)
    (hp : isBlock fmt = false) (hr : purposeOk k.purpose = false) :
    exec (.vstN core a fmt off so ts sat (some k)) s = .next (stopCore s core stBAD 1 0) := by
  show execVstN core a fmt off so ts sat (some k) s = _
  simp only [execVstN, withCore_of_runs h, drawGuard, hk, hp, hr, Bool.not_false, Bool.not_true, Bool.and_self,
    Bool.false_eq_true, if_false, if_true]

/-- So does a draw for a coordinate of 2^56 or more. -/
theorem exec_vstN_coordinate (so : Nat) (ts : Word) (sat : Bool) {k : SrKey} (h : Runs s core) (hk : fmtKnown fmt = true)
    (hp : isBlock fmt = false) (hr : purposeOk k.purpose = true) (hc : 2 ^ 56 ≤ k.coord + 31) :
    exec (.vstN core a fmt off so ts sat (some k)) s = .next (stopCore s core stUNSUP 6 0) := by
  show execVstN core a fmt off so ts sat (some k) s = _
  simp only [execVstN, withCore_of_runs h, drawGuard, hk, hp, hr, hc, Bool.not_false, Bool.not_true, Bool.and_self,
    Bool.false_eq_true, if_false, if_true]

/-- The blocks of a register (R69 to R74). -/
def encodedBlocks (s : State) (c : PrepCore) (a fmt : Nat) (ts : Word) (sr : Option SrKey) : List EncBlock :=
  (List.range (32 / blockElems fmt)).map fun b =>
    encBlock fmt ts (sr.map fun k i => laneDraw s c k (b * blockElems fmt + i))
      ((((getVreg s c a).map ofFp32).drop (b * blockElems fmt)).take (blockElems fmt))

/-- The bytes that VBENC writes: the blocks' elements, and their scales. -/
def blockBytes (s : State) (c : PrepCore) (a fmt : Nat) (ts : Word) (sr : Option SrKey) : List Byte :=
  packElems fmt ((encodedBlocks s c a fmt ts sr).flatMap (·.codes))
def blockScales (s : State) (c : PrepCore) (a fmt : Nat) (ts : Word) (sr : Option SrKey) : List Byte :=
  (encodedBlocks s c a fmt ts sr).map fun b => BitVec.ofNat 8 b.scale

/-- The blocks of a register have a code for each of its lanes. -/
theorem length_encodedBlocks_codes {ts : Word} (sr : Option SrKey) (hf : blockFmtOk fmt ts = true)
    (ha : (getVreg s core a).length = 32) : ((encodedBlocks s core a fmt ts sr).flatMap (·.codes)).length = 32 := by
  obtain ⟨-, h32, -⟩ := blockFmt_shape hf
  have hblock : ∀ b ∈ List.range (32 / blockElems fmt), (encBlock fmt ts
      (sr.map fun k i => laneDraw s core k (b * blockElems fmt + i))
      ((((getVreg s core a).map ofFp32).drop (b * blockElems fmt)).take (blockElems fmt))).codes.length = blockElems fmt := by
    intro b hb
    have hle : (b + 1) * blockElems fmt ≤ 32 / blockElems fmt * blockElems fmt :=
      Nat.mul_le_mul_right _ (List.mem_range.1 hb)
    rw [Nat.succ_mul, h32] at hle
    rw [length_encBlock_codes, List.length_take, List.length_drop, List.length_map, ha]
    omega
  rw [encodedBlocks, List.flatMap_map, List.length_flatMap, List.map_congr_left hblock, List.map_const', List.sum_replicate,
    List.length_range, smul_eq_mul, h32]

theorem vbenc_answers {so : Nat} {ts : Word} {sr : Option SrKey} (h : Runs s core)
    (hsr : ∀ k, sr = some k → purposeOk k.purpose = true ∧ k.coord + 31 < 2 ^ 56) (hf : blockFmtOk fmt ts = true)
    (ho : Reaches s core off (vecBytes fmt)) (hso : Reaches s core so (vecScales fmt))
    (ha : (getVreg s core a).length = 32) :
    Answers (.vbenc core a fmt off so ts sr) s fun t =>
      (∀ x, (x < corePa core off ∨ corePa core off + vecBytes fmt ≤ x) →
        (x < corePa core so ∨ corePa core so + vecScales fmt ≤ x) → readByte t x = readByte s x) ∧ t.vregs = s.vregs ∧
      (FlawsRise s core.die → Whole s core.die off (vecBytes fmt) → Whole s core.die so (vecScales fmt) →
        (off + vecBytes fmt ≤ so ∨ so + vecScales fmt ≤ off) →
        HoldsAt t (corePa core off) (blockBytes s core a fmt ts sr) ∧
        HoldsAt t (corePa core so) (blockScales s core a fmt ts sr)) := by
  obtain ⟨-, -, hscales⟩ := blockFmt_shape hf
  have hlen : (blockBytes s core a fmt ts sr).length = vecBytes fmt :=
    length_packElems (length_encodedBlocks_codes sr hf ha)
  have hslen : (blockScales s core a fmt ts sr).length = vecScales fmt := by
    rw [blockScales, List.length_map, encodedBlocks, List.length_map, List.length_range, hscales]
  have hcodes := portWrote_coreWrite h.1 s hlen ho
  have hscale := portWrote_coreWrite h.1 (coreWrite s core 0 (corePa core off) (blockBytes s core a fmt ts sr)) hslen hso
  refine ⟨_, rfl, ?_⟩
  rw [withCore_of_runs h, if_neg (by simp [hf]), drawGuard_of_ok s core _ hsr, coreAccess_of_reaches hso,
    coreAccess_of_reaches ho]
  have hrep := (storeReports_sameData (coreWrite (coreWrite s core 0 (corePa core off) (blockBytes s core a fmt ts sr))
    core 0 (corePa core so) (blockScales s core a fmt ts sr)) core sr
    (((List.range (32 / blockElems fmt)).map fun b => overflowed fmt ts
      ((((getVreg s core a).map ofFp32).drop (b * blockElems fmt)).take (blockElems fmt))).foldl (· + ·) 0)).trans
    ((bump_counts _ (pgVecOf core) 0).sameData.trans (vecRetire_sameData _ core 4))
  refine ⟨fun x hx hx' => ?_, hrep.2.2.trans (hscale.vregs.trans hcodes.vregs),
    fun hr hw hw' hdis => ⟨fun i hi => ?_, fun i hi => ?_⟩⟩
  · exact (hrep.readByte x).trans ((hscale.outside x (by rwa [hslen])).trans (hcodes.outside x (by rwa [hlen])))
  · have hout : corePa core off + i < corePa core so ∨ corePa core so + vecScales fmt ≤ corePa core off + i := by
      rw [hlen] at hi
      unfold corePa
      omega
    have hclean := clean_of_whole hw hr
    rw [← hlen] at hclean
    exact (hrep.readByte _).trans ((hscale.outside _ (by rwa [hslen])).trans (hcodes.holds hclean i hi))
  · have hclean := clean_of_whole hw hr
    have hclean' := clean_of_whole hw' hr
    rw [← hlen] at hclean
    rw [← hslen] at hclean'
    exact (hrep.readByte _).trans (hscale.holds (fun g h1 h2 => hcodes.clean hclean g (hclean' g h1 h2)) i hi)

end

end Sys2Proof.Machine
end

section
/-! A vector store at a granule whose flaws are listed twice: the refutation of O20. -/

namespace Sys2Proof.Machine

open Sys2Proof

/-- Core 0 of pen 0 of die 0. -/
def firstCore : PrepCore := ⟨0, 0, 0⟩

/-- The core runs, its first vector register holds 1.0 in every lane, and its first array store lists granule 0 with a
single-bit error and, behind that, with an uncorrectable one. -/
def twiceFlawed : State :=
  putVreg (putSpad (fput (fput State.reset (pgSPAD 0) F.SPAD_STS_INIT_BUSY 0) (corePage firstCore) F.PREP_STS_RUNNING 1) 0 0
    { flaws := [(0, .single), (0, .double)] }) firstCore 0 (List.replicate 32 fp32One)

theorem runs_twiceFlawed : Runs twiceFlawed firstCore := by
  unfold Runs
  decide +kernel

theorem reaches_twiceFlawed : Reaches twiceFlawed firstCore 4 (vecBytes 3) := by
  unfold Reaches
  decide +kernel

/-- Every granule counts as readable: of granule 0 the entry found first is the correctable one. -/
theorem whole_twiceFlawed : Whole twiceFlawed 0 4 (vecBytes 3) := by
  have h : ∀ g, g < 5 → granBad twiceFlawed 0 (storeAt (g * 8)) g = false := by decide +kernel
  intro g hg _
  exact h g (by rw [show vecBytes 3 = 32 from rfl] at hg; omega)

/-- A VST.N of E4M3 at offset 4 writes part of granule 0: the port meets both entries, and the byte stays 0. -/
theorem readByte_vstN_twiceFlawed : (match exec (.vstN firstCore 0 3 4 0 0 false none) twiceFlawed with
    | .next t => readByte t (corePa firstCore 4) | _ => 0) = 0 := by decide +kernel

theorem not_flawsRise_twiceFlawed : ¬ FlawsRise twiceFlawed 0 := fun h => absurd (h 0) (by decide +kernel)

/-- Refutes O20, by its clause of VST.N: `Whole` looks a granule up, and so sees only the first entry of a list of flaws that
names a granule twice, while the port meets each entry of the list. What fails is a state whose list does not rise, which the
puts and deletions of the model do not leave; with `FlawsRise` as a premise the clause holds (`vstN_answers`), and so does that
of VBENC (`vbenc_answers`), and the others hold as they stand. -/
theorem not_vectorReduceTransposeLoadStore : ¬ Obligations.VectorReduceTransposeLoadStore := by
  unfold Obligations.VectorReduceTransposeLoadStore
  intro h
  obtain ⟨-, -, -, -, hstore, -, -⟩ := h firstCore 0 0 twiceFlawed runs_twiceFlawed
  obtain ⟨t, ht, hold, -, -⟩ := hstore 3 4 0 0 false none (by decide) (by decide) reaches_twiceFlawed
    (by simp) whole_twiceFlawed (by decide +kernel)
  have hkept := readByte_vstN_twiceFlawed
  rw [ht] at hkept
  have hone := hold 0 (by decide +kernel)
  rw [Nat.add_zero] at hone
  exact absurd (hone.symm.trans hkept) (by decide +kernel)

end Sys2Proof.Machine
end

section
/-! The state of the matrix arrays: what a unit's state and its array's control read after a change, and which changes leave
every array alone (reports, completions, reads at a store's port). -/

namespace Sys2Proof.Machine

open Sys2Proof

/-! ## A unit's state and its array's control -/

section
variable (s : State) (u : ArrayUnit) (a : ArrSt) (d p k : Nat) (c : ArrCtl)

@[simp] theorem putArr_mem : (putArr s u a).mem = s.mem := rfl
@[simp] theorem putArr_regs : (putArr s u a).regs = s.regs := rfl
@[simp] theorem putCtl_mem : (putCtl s d p k c).mem = s.mem := rfl

@[simp] theorem getArr_putArr_same : getArr (putArr s u a) u = a := by
  simp [getArr, putArr, mgetD]

@[simp] theorem getCtl_putCtl_same : getCtl (putCtl s d p k c) d p k = c := by
  simp [getCtl, putCtl, mgetD]

@[simp] theorem getArr_putCtl : getArr (putCtl s d p k c) u = getArr s u := rfl

end

/-- Another unit's state, or the same unit's, after a change of one. -/
theorem getArr_putArr (s : State) (u v : ArrayUnit) (a : ArrSt) :
    getArr (putArr s u a) v = if arrUnit u = arrUnit v then a else getArr s v := mgetD_mput ..

theorem getArr_congr {s t : State} (h : t.arrs = s.arrs) (u : ArrayUnit) : getArr t u = getArr s u := by
  unfold getArr
  rw [h]

theorem getCtl_congr {s t : State} (h : t.arrCtl = s.arrCtl) (d p a : Nat) : getCtl t d p a = getCtl s d p a := by
  unfold getCtl
  rw [h]

/-- No two units that exist have the same number. -/
theorem arrUnit_ne {u v : ArrayUnit} (hu : unitOk u = true) (hv : unitOk v = true)
    (h : (u.die, u.pen, u.arr) ≠ (v.die, v.pen, v.arr)) : arrUnit u ≠ arrUnit v := by
  simp only [unitOk, Bool.and_eq_true, decide_eq_true_eq] at hu hv
  obtain ⟨⟨⟨-, hup⟩, hua⟩, huq⟩ := hu
  obtain ⟨⟨⟨-, hvp⟩, hva⟩, hvq⟩ := hv
  have hlt (w : ArrayUnit) (h : (if w.quarter then decide (w.qid < 4) else w.qid == 0) = true) :
      (if w.quarter then w.qid + 1 else 0) < 5 := by
    split
    · next hw =>
      rw [if_pos hw, decide_eq_true_eq] at h
      omega
    · decide
  have h1 := hlt u huq
  have h2 := hlt v hvq
  simp only [ne_eq, Prod.mk.injEq] at h
  unfold arrUnit arrKey
  omega

/-! ## Changes that leave every array alone -/

/-- The arrays of `t`, their controls and the fuses are those of `s`. -/
structure ArraysKept (s t : State) : Prop where
  arrs : t.arrs = s.arrs
  ctl : t.arrCtl = s.arrCtl
  fuse : t.fuse = s.fuse

theorem ArraysKept.refl (s : State) : ArraysKept s s := ⟨rfl, rfl, rfl⟩

theorem ArraysKept.trans {s t u : State} (h : ArraysKept s t) (k : ArraysKept t u) : ArraysKept s u :=
  ⟨k.arrs.trans h.arrs, k.ctl.trans h.ctl, k.fuse.trans h.fuse⟩

/-- The same, the later change named first. -/
theorem ArraysKept.after {s t u : State} (k : ArraysKept t u) (h : ArraysKept s t) : ArraysKept s u := h.trans k

theorem Counts.arraysKept {s t : State} (h : Counts s t) : ArraysKept s t :=
  ⟨h.keeps_arrs, h.keeps_arrCtl, h.keeps_fuse⟩

theorem ArraysKept.getArr {s t : State} (h : ArraysKept s t) (u : ArrayUnit) : getArr t u = Machine.getArr s u :=
  getArr_congr h.arrs u

theorem ArraysKept.getCtl {s t : State} (h : ArraysKept s t) (d p a : Nat) : getCtl t d p a = Machine.getCtl s d p a :=
  getCtl_congr h.ctl d p a

theorem ArraysKept.ite {s t u : State} {c : Prop} [Decidable c] (h : ArraysKept s t) (k : ArraysKept s u) :
    ArraysKept s (if c then t else u) := by
  split
  · exact h
  · exact k

theorem foldl_arraysKept {α : Type} {g : State → α → State} (hg : ∀ s x, ArraysKept s (g s x)) (l : List α) (s : State) :
    ArraysKept s (l.foldl g s) :=
  List.foldlRecOn (motive := ArraysKept s) _ _ (.refl s) fun _ h x _ => h.trans (hg _ x)

/-! ### Completions -/

theorem riseTally_arraysKept (s : State) (c t rise : Nat) (x : TallySt) : ArraysKept s (riseTally s c t rise x) :=
  ⟨rfl, rfl, rfl⟩

theorem tallyAdd_arraysKept (s : State) (c t n : Nat) : ArraysKept s (tallyAdd s c t n) := riseTally_arraysKept ..

theorem updCmd_arraysKept (s : State) (id : CmdId) (f : Cmd → Cmd) : ArraysKept s (updCmd s id f) := ⟨rfl, rfl, rfl⟩

theorem finishCmd_arraysKept (s : State) (id : CmdId) (r : Res) : ArraysKept s (finishCmd s id r) := by
  have h (f : Cmd → Cmd) : ArraysKept s (updCmd (countFault s id.ctx r.code) id f) :=
    (updCmd_arraysKept ..).after (countFault_counts ..).arraysKept
  unfold finishCmd
  split
  · exact .refl s
  · exact .ite (.refl s) (.ite (h _) (.ite ((tallyAdd_arraysKept ..).after (h _)) ((bump_counts ..).arraysKept.after (h _))))

theorem listCheckEnd_arraysKept (s : State) (d p : Nat) : ArraysKept s (listCheckEnd s d p) := by
  unfold listCheckEnd
  split
  · exact .refl s
  · exact .ite (.refl s) ((finishCmd_arraysKept ..).after ⟨rfl, rfl, rfl⟩)

theorem descDone_arraysKept (s : State) (x : Issue) (r : Res) : ArraysKept s (descDone s x r) := by
  unfold descDone
  split
  · exact finishCmd_arraysKept ..
  · exact (countFault_counts ..).arraysKept.after ⟨rfl, rfl, rfl⟩
  · split
    · exact .refl s
    · exact (listCheckEnd_arraysKept ..).after ⟨rfl, rfl, rfl⟩

/-- Late records are told, and leave the unit's state as it is but for themselves. -/
theorem getArr_flushLate (s : State) (u : ArrayUnit) :
    ∃ late, getArr (flushLate s u) u = { getArr s u with late := late } := by
  unfold flushLate
  exact ⟨_, ((foldl_arraysKept (fun s (e : Issue × Res) => descDone_arraysKept s e.1 e.2) _ _).getArr u).trans
    (getArr_putArr_same ..)⟩


/-! ### Reads at a store's port -/

/-- From `s` to `t` there are reports and what the stores record of their errors, and nothing else. -/
def ReadAt (s t : State) : Prop :=
  t = { s with regs := t.regs, cnt := t.cnt, out := t.out, fltLog := t.fltLog, spads := t.spads }

theorem ReadAt.refl (s : State) : ReadAt s s := rfl

theorem ReadAt.trans {s t u : State} (h : ReadAt s t) (k : ReadAt t u) : ReadAt s u := by
  unfold ReadAt at h k ⊢
  rw [k, h]

theorem Counts.readAt {s t : State} (h : Counts s t) : ReadAt s t := by
  unfold Counts at h
  unfold ReadAt
  rw [h]

theorem ReadAt.mem {s t : State} (h : ReadAt s t) : t.mem = s.mem := by
  unfold ReadAt at h
  rw [h]

theorem ReadAt.poison {s t : State} (h : ReadAt s t) : t.poison = s.poison := by
  unfold ReadAt at h
  rw [h]

theorem ReadAt.arraysKept {s t : State} (h : ReadAt s t) : ArraysKept s t := by
  unfold ReadAt at h
  rw [h]
  exact ⟨rfl, rfl, rfl⟩

theorem ReadAt.ite {s t u : State} {c : Prop} [Decidable c] (h : ReadAt s t) (k : ReadAt s u) :
    ReadAt s (if c then t else u) := by
  split
  · exact h
  · exact k

theorem foldl_readAt {α : Type} {g : State → α → State} (hg : ∀ s x, ReadAt s (g s x)) (l : List α) (s : State) :
    ReadAt s (l.foldl g s) :=
  List.foldlRecOn (motive := ReadAt s) _ _ (.refl s) fun _ h x _ => h.trans (hg _ x)

theorem meetFlaw_readAt (cls d st : Nat) (s : State) (p : Nat × Flaw) : ReadAt s (meetFlaw cls d st s p) := by
  unfold meetFlaw
  split
  · exact ((bump_counts ..).trans (spadLog_counts ..)).readAt
  · exact ReadAt.trans (t := putSpad s d st { getSpad s d st with flaws := mput (getSpad s d st).flaws p.1 .met }) rfl
      ((bump_counts ..).trans (spadLog_counts ..)).readAt

theorem lineRead_readAt (s : State) (d cls : Nat) (secure : Bool) (off n : Nat) :
    ReadAt s (lineRead s d cls secure off n).1 := by
  have hb : ReadAt s (bump s (pgSPAD d) 3) := (bump_counts ..).readAt
  have hmet (fs : List (Nat × Flaw)) : ReadAt s (fs.foldl (meetFlaw cls d (storeAt off)) (bump s (pgSPAD d) 3)) :=
    hb.trans (foldl_readAt (meetFlaw_readAt _ _ _) ..)
  have hcount (fs : List (Nat × Flaw)) (b : Bool) (k : Nat) :
      ReadAt s (if b then fs.foldl (meetFlaw cls d (storeAt off)) (bump s (pgSPAD d) 3)
        else bumpBy (fs.foldl (meetFlaw cls d (storeAt off)) (bump s (pgSPAD d) 3)) (pgSPAD d) 2 k) :=
    (hmet fs).ite ((hmet fs).trans (bumpBy_counts ..).readAt)
  unfold lineRead
  dsimp only
  split
  · exact hb.trans (bump_counts ..).readAt
  · dsimp only
    split
    · exact ((hcount ..).trans (spadLog_counts ..).readAt).ite (hcount ..)
    · exact hcount ..

theorem portRead_readAt (s : State) (d cls : Nat) (secure : Bool) (off n : Nat) :
    ReadAt s (portRead s d cls secure off n).1 := by
  unfold portRead
  exact List.foldlRecOn (motive := fun acc : State × PortRd => ReadAt s acc.1) _ _ (.refl s)
    fun _ h _ _ => h.trans (lineRead_readAt ..)

theorem paRead_readAt (s : State) (cls pa n : Nat) : ReadAt s (paRead s cls pa n).1 := portRead_readAt ..

end Sys2Proof.Machine
end

section
/-! Passes on an array (R97, R100 to R102, R104, R110): acceptance, the fetch and the broadcast of stationary sets, and
completion; the obligation O11. -/

namespace Sys2Proof.Machine

open Sys2Proof

/-! ## Acceptance -/

/-- Taking a descriptor out of where it waits changes, of any unit, only what waits. -/
theorem getArr_putArr_unitDrop (s : State) (u v : ArrayUnit) (x : Issue) : ∃ back again fifo,
    getArr (putArr s u (unitDrop (getArr s u) x)) v =
      { getArr s v with back := back, again := again, fifo := fifo } := by
  rw [getArr_putArr]
  split
  · next h =>
    have hv : getArr s v = getArr s u := by rw [getArr, getArr, h]
    rw [hv]
    exact ⟨_, _, _, rfl⟩
  · exact ⟨_, _, _, rfl⟩

/-- No check of a descriptor looks at what waits (R97). -/
theorem passCheck_putArr_unitDrop (s : State) (u : ArrayUnit) (x : Issue) (d p : Nat) (y : Issue) :
    passCheck (putArr s u (unitDrop (getArr s u) x)) d p y = passCheck s d p y := by
  obtain ⟨_, _, _, h⟩ := getArr_putArr_unitDrop s u (passUnit d p y) x
  unfold passCheck passState
  dsimp only
  rw [h]
  rfl

theorem passAccept_of_checked {s : State} {u : ArrayUnit} {x : Issue} (hn : unitNext s u = some x)
    (hc : (getCtl s u.die u.pen u.arr).checking = false) (hx : x.slot = none)
    (hl : ((getArr s u).passes.filter fun p => !allEntered p).length < 2)
    (hp : portBad (getCtl s u.die u.pen u.arr) u x = false) (hk : passCheck s u.die u.pen x = none)
    (hf : fenced s ((ctxFold s x.ctx).getD 0) = false) :
    passAccept s u = putArr (putArr s u (unitDrop (getArr s u) x)) u (passClaim (unitDrop (getArr s u) x)
      { id := x.num, iss := x, fold := (ctxFold s x.ctx).getD 0 }) := by
  unfold passAccept
  simp only [hn, hc, hx, Option.isSome_none, Bool.or_self, Bool.false_or, decide_eq_true_eq, Nat.not_le.2 hl, if_false,
    hp, Bool.false_eq_true, passCheck_putArr_unitDrop, hk, getArr_putArr_same]
  exact if_neg (ne_true_of_eq_false hf)

theorem length_passClaim (a : ArrSt) (p : Pass) : (passClaim a p).passes.length = a.passes.length + 1 := by
  simp [passClaim]

/-! ## Stationary sets -/

theorem readSet_readAt (s : State) (u : ArrayUnit) (x : Issue) (pid step : Nat) : ReadAt s (readSet s u x pid step).1 :=
  (paRead_readAt ..).trans (paRead_readAt ..)

theorem stationaryFetch_of_ready {s : State} {u : ArrayUnit} {p : Pass} (hs : arrStopped s u = false)
    (hg : (getArr s u).staging = none) (hb : arrStoreBusy s u = false) (hp : fetchFor (getArr s u).passes = some p) :
    stationaryFetch s u = putArr (readSet s u p.iss p.id p.fetchStep).1 u
      { updPass (getArr s u) p.id (fun p => { p with fetchStep := p.fetchStep + 1 }) with
        staging := some (readSet s u p.iss p.id p.fetchStep).2 } := by
  unfold stationaryFetch
  simp [hs, hg, hb, hp, (readSet_readAt ..).arraysKept.getArr]

/-- The bank that the next set goes into: bank 0 first, then the one not used last (R101). -/
def nextBank (a : ArrSt) : Nat := match a.bankLast with | none => 0 | some l => 1 - l

theorem rowBroadcast_first {s : State} {u : ArrayUnit} {cyc : Nat} {x : StatSet} (hs : arrStopped s u = false)
    (hx : (getArr s u).staging = some x) (h0 : x.rows = 0) (hn : setNeeded (getArr s u) (nextBank (getArr s u)) = false)
    (hi : ∀ i, (getBank (getArr s u) (nextBank (getArr s u))).lastEntry = some i → i + (side u.quarter - 1) ≤ cyc)
    (hq : ∀ q ∈ (getArr s u).passes, q.stop = none) :
    rowBroadcast s u cyc = putArr s u
      { putBank (getArr s u) (nextBank (getArr s u))
          { x with rows := 1, row0 := cyc, before := (getArr s u).bankLast } with
        bankLast := some (nextBank (getArr s u))
        staging := some { x with rows := 1, row0 := cyc, before := (getArr s u).bankLast } } := by
  have hany : ((getArr s u).passes.any fun p => p.id == x.forPass && p.stop.isSome) = false := by
    simp +contextual [hq]
  unfold rowBroadcast
  simp only [hx, hs, Bool.false_eq_true, if_false, h0, if_true, hany, Bool.or_false]
  refine if_neg ?_
  rw [Bool.or_eq_true, not_or, Bool.not_eq_true, Bool.not_eq_true', Bool.not_eq_false]
  refine ⟨hn, ?_⟩
  split
  · rfl
  · next i h => exact decide_eq_true (hi i h)

theorem rowBroadcast_next {s : State} {u : ArrayUnit} {x : StatSet} (hs : arrStopped s u = false)
    (hx : (getArr s u).staging = some x) (h0 : x.rows ≠ 0) : rowBroadcast s u (x.row0 + x.rows) =
      if x.rows + 1 = side u.quarter then
        bump (putArr s u { getArr s u with staging := none }) (pgMXA u.die u.pen u.arr) 4
      else putArr s u { getArr s u with staging := some { x with rows := x.rows + 1 } } := by
  unfold rowBroadcast
  simp [hx, hs, h0]

/-! ## Completion -/

theorem passComplete_of_done {s : State} {u : ArrayUnit} {p : Pass} {ps : List Pass} (hs : arrStopped s u = false)
    (hp : (getArr s u).passes = p :: ps) (hu : allUpdated p = true) (hd : allDrained p = true) : passComplete s u =
      flushLate (descDone (bump (dropPass s u p.id) (pgMXA u.die u.pen u.arr) 5) p.iss (passRes p)) u := by
  unfold passComplete
  simp [hp, hs, hu, hd]

/-- Settles O11: acceptance, the fetch, both parts of the broadcast and completion, each by its own lemma. -/
theorem passesAcceptedStagedAndCompleted : Obligations.PassesAcceptedStagedAndCompleted := by
  unfold Obligations.PassesAcceptedStagedAndCompleted
  intro u s hu
  refine ⟨?accept, ?fetch, ?first, ?next, ?complete⟩
  case accept =>
    intro x hn hc hx hl hp hk hf
    refine ⟨putArr _ u _, congrArg _ ((if_pos hu).trans (passAccept_of_checked hn hc hx hl hp hk hf)), ?_, ?_, rfl, rfl⟩
    · rw [getArr_putArr_same]
    · rw [getArr_putArr_same, length_passClaim]
      rfl
  case fetch =>
    intro p hs hg hb hp
    have hr := readSet_readAt s u p.iss p.id p.fetchStep
    refine ⟨putArr _ u _, congrArg _ ((if_pos hu).trans (stationaryFetch_of_ready hs hg hb hp)), ?_, hr.mem, hr.poison⟩
    rw [getArr_putArr_same]
  case first =>
    intro x cyc b hs hx h0 hb hn hi hq
    obtain rfl : b = nextBank (getArr s u) := hb
    refine ⟨putArr _ u _, congrArg _ ((if_pos hu).trans (rowBroadcast_first hs hx h0 hn hi hq)), ?_, ?_, rfl⟩
    · rw [getArr_putArr_same]
    · rw [getArr_putArr_same]
  case next =>
    intro x hs hx h0
    have hstep := rowBroadcast_next hs hx h0
    refine ⟨fun hlt => ?_, fun hlast => ?_⟩
    · rw [if_neg hlt.ne] at hstep
      exact ⟨putArr _ u _, congrArg _ ((if_pos hu).trans hstep), by rw [getArr_putArr_same], rfl, rfl⟩
    · rw [if_pos hlast] at hstep
      refine ⟨bump (putArr _ u _) _ _, congrArg _ ((if_pos hu).trans hstep), ?_, bump_mem ..⟩
      rw [(bump_counts ..).arraysKept.getArr, getArr_putArr_same]
  case complete =>
    intro p ps hs hp hup hd
    exact congrArg _ ((if_pos hu).trans (passComplete_of_done hs hp hup hd))

end Sys2Proof.Machine
end

section
/-! Wavefronts (R92, R94, R98, R99, R102, R106, R108): how one enters an array, when the cycle is a bubble, and how it updates
its accumulator row; the obligation O12. -/

namespace Sys2Proof.Machine

open Sys2Proof

/-! ## Cycles with a pass in flight -/

section
variable (s : State) (u : ArrayUnit) (cyc : Nat)

/-- Of the unit, counting changes the clock only. -/
theorem getArr_countCycles : ∃ clk, getArr (countCycles s u cyc) u = { getArr s u with clk := clk } := by
  unfold countCycles
  dsimp only
  split
  · exact ⟨_, rfl⟩
  · exact ⟨_, ((bumpBy_counts ..).arraysKept.getArr u).trans (getArr_putArr_same ..)⟩

theorem countCycles_mem : (countCycles s u cyc).mem = s.mem := by
  unfold countCycles
  dsimp only
  split
  · rfl
  · exact bumpBy_mem ..

theorem countCycles_spads : (countCycles s u cyc).spads = s.spads := by
  unfold countCycles
  dsimp only
  split
  · rfl
  · exact bumpBy_spads ..

theorem countCycles_blockSame : BlockSame s (countCycles s u cyc) := by
  unfold countCycles
  dsimp only
  split
  · exact .refl s
  · exact (BlockSame.of_regs (putArr_regs ..)).trans (bumpBy_blockSame ..)

end

/-- Whether a store is to be reached is said by its die's status and its own record. -/
theorem storeBusy_congr {s t : State} (h : BlockSame s t) (hs : t.spads = s.spads) (d off n : Nat) :
    storeBusy t d off n = storeBusy s d off n := by
  unfold storeBusy fbit fget getSpad
  rw [h.fgeti _ F.SPAD_STS_INIT_BUSY 0 (by decide), h.fgeti _ F.SPAD_STS_KEEP_WIPING 0 (by decide), hs]

theorem arrStoreBusy_countCycles (s : State) (u : ArrayUnit) (cyc : Nat) :
    arrStoreBusy (countCycles s u cyc) u = arrStoreBusy s u :=
  storeBusy_congr (countCycles_blockSame ..) (countCycles_spads ..) ..

/-! ## Entry -/

theorem initRow_readAt (s : State) (u : ArrayUnit) (x : Issue) (i : Nat) : ReadAt s (initRow s u x i).1 := by
  unfold initRow
  split
  · exact .refl s
  · dsimp only
    split
    · exact (paRead_readAt ..).trans (paRead_readAt ..)
    · exact paRead_readAt ..
  · exact .refl s

/-- The elements of each column that the next wavefront of a pass reduces: the last step of a pass masks the rest (R94). -/
def waveElems (u : ArrayUnit) (p : Pass) : Nat :=
  if p.s + 1 = pSteps p.iss then pKLast p.iss else side u.quarter * fmtClass (pFmtW p.iss)

/-- The wavefront that a pass enters with the set of bank `b` and the stream buffer's `v`; `init` is what it makes of its row
first. -/
def waveOf (u : ArrayUnit) (p : Pass) (cyc : Nat) (set : StatSet) (v : FeedVec) (init : Option AccRow) : Wave :=
  { pass := p.id, row := pAccBase p.iss + p.i, entry := cyc, init := init
    groups := (List.range (pNValid p.iss)).map fun c => columnGroups p.iss (side u.quarter) (waveElems u p) c set
      v.data v.scales
    poison := set.poison || v.poison }

/-- What the first wavefront of a row makes of it, before it enters (R108). -/
def enterInit (s : State) (u : ArrayUnit) (p : Pass) : State × Option AccRow :=
  if p.s = 0 && !p.resumed then initRow s u p.iss p.i else (s, none)

theorem enterInit_readAt (s : State) (u : ArrayUnit) (p : Pass) : ReadAt s (enterInit s u p).1 := by
  unfold enterInit
  split
  · exact initRow_readAt ..
  · exact .refl s

/-- A unit's state when wavefront `w` of pass `p` has entered with bank `b` and has taken `v` from the stream buffer. -/
def waveEntered (a : ArrSt) (p : Pass) (cyc b : Nat) (v : FeedVec) (w : Wave) : ArrSt :=
  let t := putBank (updPass { a with stream := a.stream.filter fun y => y != v } p.id fun q =>
    { q with s := if p.i + 1 = pVectors p.iss then q.s + 1 else q.s
             i := if p.i + 1 = pVectors p.iss then 0 else q.i + 1
             entered := q.entered + 1
             bank := if pReuse p.iss then some b else none }) b { getBank a b with lastEntry := some cyc }
  { t with waves := t.waves ++ [w], lastEnter := some cyc }

section
variable (a : ArrSt) (p : Pass) (cyc b : Nat) (v : FeedVec) (w : Wave)

theorem putBank_waves (x : StatSet) : (putBank a b x).waves = a.waves := by
  unfold putBank
  split <;> rfl

theorem putBank_rows (x : StatSet) : (putBank a b x).rows = a.rows := by
  unfold putBank
  split <;> rfl

theorem waveEntered_waves : (waveEntered a p cyc b v w).waves = a.waves ++ [w] :=
  congrArg (· ++ [w]) (putBank_waves ..)

theorem waveEntered_rows : (waveEntered a p cyc b v w).rows = a.rows := putBank_rows ..

end

/-- The cycle comes after the last entry (R98). -/
def afterLast (a : ArrSt) (cyc : Nat) : Bool := match a.lastEnter with | some l => l < cyc | none => true

theorem afterLast_iff {a : ArrSt} {cyc : Nat} : afterLast a cyc = true ↔ ∀ l, a.lastEnter = some l → l < cyc := by
  unfold afterLast
  split <;> simp_all

section
variable {s : State} {u : ArrayUnit} {cyc : Nat} {p : Pass} {before : List Pass} (hs : arrStopped s u = false)
  (hq : ∀ q ∈ (getArr s u).passes, q.stop = none) (hl : ∀ l, (getArr s u).lastEnter = some l → l < cyc)
  (hp : enterNext [] (getArr s u).passes = some (p, before))
include hs hq hl

theorem wavefrontEnter_guard : (arrStopped s u || !afterLast (getArr s u) cyc ||
    (getArr s u).passes.any fun p => p.stop.isSome) = false := by
  have hany : ((getArr s u).passes.any fun p => p.stop.isSome) = false := by
    simp +contextual [hq]
  rw [hs, hany, afterLast_iff.2 hl]
  rfl

include hp

theorem wavefrontEnter_bubble (hb : bankFor (getArr s u) p cyc = none ∨
      ((getArr s u).stream.find? fun v => v.pass == p.id && v.s == p.s && v.i == p.i) = none) :
    wavefrontEnter s u cyc = bump (countCycles s u cyc) (pgMXA u.die u.pen u.arr) 2 := by
  obtain ⟨clk, hclk⟩ := getArr_countCycles s u cyc
  have hbank : bankFor (getArr (countCycles s u cyc) u) p cyc = bankFor (getArr s u) p cyc := by
    rw [hclk]
    rfl
  have hstream : (getArr (countCycles s u cyc) u).stream = (getArr s u).stream := by rw [hclk]
  have hg := wavefrontEnter_guard hs hq hl
  unfold wavefrontEnter
  refine (if_neg (ne_true_of_eq_false hg)).trans ?_
  rw [hp]
  dsimp only
  rw [hbank, hstream]
  rcases hb with h | h
  · rw [h]
  · split
    · rfl
    · rw [h]

theorem wavefrontEnter_enters {b : Nat} {v : FeedVec} (hb : bankFor (getArr s u) p cyc = some b)
    (hv : ((getArr s u).stream.find? fun v => v.pass == p.id && v.s == p.s && v.i == p.i) = some v)
    (hr : rowUndrained before (pAccBase p.iss + p.i) = false) (hi : pInit p.iss = 2 → arrStoreBusy s u = false) :
    ∃ c k, wavefrontEnter s u cyc = bumpBy (bump (putCtl (putArr (enterInit (countCycles s u cyc) u p).1 u
      (waveEntered (getArr (countCycles s u cyc) u) p cyc b v
        (waveOf u p cyc (getBank (getArr s u) b) v (enterInit (countCycles s u cyc) u p).2))) u.die u.pen u.arr c)
      (pgMXA u.die u.pen u.arr) 1) (pgMXA u.die u.pen u.arr) 12 k := by
  obtain ⟨clk, hclk⟩ := getArr_countCycles s u cyc
  have hbank : bankFor (getArr (countCycles s u cyc) u) p cyc = bankFor (getArr s u) p cyc := by
    rw [hclk]
    rfl
  have hset : getBank (getArr (countCycles s u cyc) u) b = getBank (getArr s u) b := by
    rw [hclk]
    rfl
  rw [← show (getArr (countCycles s u cyc) u).stream = (getArr s u).stream by rw [hclk]] at hv
  have hinit := (enterInit_readAt (countCycles s u cyc) u p).arraysKept.getArr u
  have hbusy : (rowUndrained before (pAccBase p.iss + p.i) ||
      (decide (p.s = 0) && !p.resumed && decide (pInit p.iss = 2) && arrStoreBusy (countCycles s u cyc) u)) = false := by
    rw [hr, Bool.false_or, arrStoreBusy_countCycles]
    by_cases h : pInit p.iss = 2
    · rw [hi h, Bool.and_false]
    · simp [h]
  have hg := wavefrontEnter_guard hs hq hl
  let prods := (getCtl (enterInit (countCycles s u cyc) u p).1 u.die u.pen u.arr).prodRem +
    waveElems u p * pNValid p.iss
  unfold wavefrontEnter
  refine ⟨{ getCtl (enterInit (countCycles s u cyc) u p).1 u.die u.pen u.arr with prodRem := prods % 256 }, prods / 256,
    (if_neg (ne_true_of_eq_false hg)).trans ?_⟩
  rw [hp]
  dsimp only
  rw [hbank, hb]
  dsimp only
  rw [hv]
  dsimp only
  rw [if_neg (ne_true_of_eq_false hbusy), ← hset]
  unfold enterInit at hinit ⊢
  rw [hinit]
  rfl

end

/-! ## The accumulator buffer -/

theorem mapIdx_map {α β γ : Type} {f : Nat → α → β} {g : β → γ} {h : α → γ} (hf : ∀ i x, g (f i x) = h x) (i : Nat)
    (l : List α) : (mapIdx f i l).map g = l.map h := by
  induction l generalizing i with
  | nil => rfl
  | cons x t ih => exact congrArg₂ _ (hf i x) (ih _)

theorem errRow_ne (q : Bool) (r : Nat) : errRow q r ≠ r := by
  unfold errRow
  split <;> omega

section
variable (a : ArrSt) (q : Bool) (mode r : Nat) (x : AccRow)

/-- The words of a row are those its storage holds, in every mode (R107). -/
theorem getRow_accs : (getRow a q mode r).cells.map (·.acc) = (storedRow a q r).cells.map (·.acc) := by
  unfold getRow
  dsimp only
  split
  · exact List.map_map ..
  · exact mapIdx_map (by intros; rfl) ..

theorem mget_putRow_same : mget (putRow a q mode r x).rows r =
    some { x with cells := x.cells.map fun c => { c with err := 0 } } := by
  unfold putRow
  dsimp only
  split
  · exact mget_mput_same ..
  · exact (mget_mput_ne _ _ (errRow_ne q r)).trans (mget_mput_same ..)

/-- A buffer in which a row was stored last reads that row's words back. -/
theorem getRow_accs_of_stored {b : ArrSt} (h : mget b.rows r = mget (putRow a q mode r x).rows r) :
    (getRow b q mode r).cells.map (·.acc) = x.cells.map (·.acc) := by
  rw [getRow_accs, storedRow, mgetD, h, mget_putRow_same]
  exact List.map_map ..

theorem mget_putRow_of_notMem {k : Nat} (h : k ∉ rowStorage q mode r) :
    mget (putRow a q mode r x).rows k = mget a.rows k := by
  unfold rowStorage at h
  unfold putRow
  dsimp only
  split at h
  · next hm =>
    rw [if_pos hm]
    exact mget_mput_ne _ _ (by simpa [eq_comm] using h)
  · next hm =>
    rw [if_neg hm]
    simp only [List.mem_cons, List.not_mem_nil, or_false, not_or] at h
    exact (mget_mput_ne _ _ (Ne.symm h.2)).trans (mget_mput_ne _ _ (Ne.symm h.1))

end

/-- What a row stores depends on the buffer alone. -/
theorem putRow_rows_congr {a b : ArrSt} (hr : b.rows = a.rows) (hb : b.blank = a.blank) (q : Bool) (mode r : Nat)
    (x : AccRow) : (putRow b q mode r x).rows = (putRow a q mode r x).rows := by
  unfold putRow storedRow
  dsimp only
  rw [hr, hb]
  split <;> rfl

theorem getRow_congr {a b : ArrSt} (hr : b.rows = a.rows) (hb : b.blank = a.blank) (q : Bool) (mode r : Nat) :
    getRow b q mode r = getRow a q mode r := by
  unfold getRow storedRow
  rw [hr, hb]

theorem meetRow_of_unflawed {s : State} {u : ArrayUnit} {mode r : Nat}
    (h : ∀ k ∈ rowStorage u.quarter mode r, mget (getArr s u).flaws k = none) : meetRow s u mode r = s := by
  unfold meetRow
  refine List.foldlRecOn (motive := (· = s)) _ _ rfl fun t ht k hk => ?_
  rw [ht]
  dsimp only
  rw [h k hk]

/-! ## The update -/

theorem counts_ite {s t v : State} {c : Prop} [Decidable c] (h : Counts s t) (k : Counts s v) :
    Counts s (if c then t else v) := by
  split
  · exact h
  · exact k

/-- A unit's state when wavefront `w` of pass `p`, the oldest, has made `r` of its row (R106, R108). -/
def rowUpdated (a : ArrSt) (q : Bool) (p : Pass) (w : Wave) (ws : List Wave) (r : AccRow) : ArrSt :=
  let a := updPass a p.id fun p =>
    { p with updates := p.updates + 1
             conds := if r.poison then p.conds ++ [stPOISON] else p.conds }
  let a := if w.init.isSome then { a with owner := mput a.owner w.row (p.iss.ctx, pMode p.iss) } else a
  { freshRow (putRow a q (pMode p.iss) w.row r) q (pMode p.iss) w.row with waves := ws }

theorem rowUpdated_rows (a : ArrSt) (q : Bool) (p : Pass) (w : Wave) (ws : List Wave) (r : AccRow) :
    (rowUpdated a q p w ws r).rows = (putRow a q (pMode p.iss) w.row r).rows := by
  unfold rowUpdated
  dsimp only
  split
  · exact putRow_rows_congr (by rfl) (by rfl) ..
  · exact putRow_rows_congr (by rfl) (by rfl) ..

theorem accumulatorUpdate_of_due {s : State} {u : ArrayUnit} {w : Wave} {ws : List Wave} {p : Pass}
    (hs : arrStopped s u = false) (hw : (getArr s u).waves = w :: ws)
    (hp : ((getArr s u).passes.find? fun p => p.id == w.pass) = some p)
    (hf : ∀ k ∈ rowStorage u.quarter (pMode p.iss) w.row, mget (getArr s u).flaws k = none) :
    ∃ t, t.mem = s.mem ∧ (∃ clk, getArr t u = { getArr s u with clk := clk }) ∧
      Counts (putArr t u (rowUpdated (getArr t u) u.quarter p w ws
        (updateRow (pMode p.iss != 0) (w.init.getD (getRow (getArr t u) u.quarter (pMode p.iss) w.row)) w)))
        (accumulatorUpdate s u ⟨w.entry + tailOf u.quarter, []⟩) := by
  have hflip : getArr (putArr s u (flipRows (getArr s u) [])) u = getArr s u := getArr_putArr_same ..
  have hstop : arrStopped (putArr s u (flipRows (getArr s u) [])) u = false := hs
  have hcount := getArr_countCycles (putArr s u (flipRows (getArr s u) [])) u (w.entry + tailOf u.quarter)
  rw [hflip] at hcount
  have hmet : (if w.init.isSome then countCycles (putArr s u (flipRows (getArr s u) [])) u (w.entry + tailOf u.quarter)
      else meetRow (countCycles (putArr s u (flipRows (getArr s u) [])) u (w.entry + tailOf u.quarter)) u
        (pMode p.iss) w.row) =
      countCycles (putArr s u (flipRows (getArr s u) [])) u (w.entry + tailOf u.quarter) := by
    obtain ⟨clk, hclk⟩ := hcount
    split
    · rfl
    · exact meetRow_of_unflawed (by rwa [hclk])
  refine ⟨countCycles (putArr s u (flipRows (getArr s u) [])) u (w.entry + tailOf u.quarter),
    (countCycles_mem ..).trans (putArr_mem ..), hcount, ?_⟩
  unfold accumulatorUpdate
  dsimp only
  rw [hflip, hw]
  dsimp only
  rw [hstop, if_neg (by simp), hp]
  dsimp only
  rw [hmet]
  exact counts_ite (bump_counts ..) (.refl _)

theorem exec_wavefrontEnter {u : ArrayUnit} (hu : unitOk u = true) (cyc : Nat) (s : State) :
    exec (.wavefrontEnter u cyc) s = .next (wavefrontEnter s u cyc) := congrArg Host.Outcome.next (if_pos hu)

theorem exec_accumulatorUpdate {u : ArrayUnit} (hu : unitOk u = true) (cyc : AccCyc) (s : State) :
    exec (.accumulatorUpdate u cyc) s = .next (accumulatorUpdate s u cyc) := congrArg Host.Outcome.next (if_pos hu)

/-- Settles O12: the wavefront that enters, the bubble, and the update of the oldest wavefront's row. -/
theorem wavefrontsEnterAndUpdate : Obligations.WavefrontsEnterAndUpdate := by
  unfold Obligations.WavefrontsEnterAndUpdate
  intro u cyc s hu hs
  refine ⟨?enter, ?bubble, ?update⟩
  case enter =>
    intro p before b v hq hl hp hb hv hr hi
    obtain ⟨c, k, ht⟩ := wavefrontEnter_enters hs hq hl hp hb hv hr hi
    obtain ⟨clk, hclk⟩ := getArr_countCycles s u cyc
    refine ⟨_, (exec_wavefrontEnter hu cyc s).trans (congrArg _ ht),
      waveOf u p cyc (getBank (getArr s u) b) v (enterInit (countCycles s u cyc) u p).2, ?_⟩
    rw [getArr_congr ((bumpBy_arrs ..).trans (bump_arrs ..)), getArr_putCtl, getArr_putArr_same, waveEntered_waves,
      waveEntered_rows, hclk, bumpBy_mem, bump_mem, putCtl_mem, putArr_mem, (enterInit_readAt ..).mem, countCycles_mem]
    exact ⟨rfl, rfl, rfl, rfl, rfl, rfl, rfl, rfl, rfl⟩
  case bubble =>
    intro p before hq hl hp hb
    rw [exec_wavefrontEnter hu, wavefrontEnter_bubble hs hq hl hp hb]
  case update =>
    intro w ws p r hw hcyc hp hf hr
    subst hcyc hr
    obtain ⟨t, hmem, ⟨clk, hclk⟩, hcounts⟩ := accumulatorUpdate_of_due hs hw hp hf
    have hrows : (getArr t u).rows = (getArr s u).rows := by rw [hclk]
    have hblank : (getArr t u).blank = (getArr s u).blank := by rw [hclk]
    rw [getRow_congr hrows hblank] at hcounts
    refine ⟨_, exec_accumulatorUpdate hu _ s, ?_⟩
    beta_reduce
    rw [hcounts.arraysKept.getArr, getArr_putArr_same, rowUpdated_rows, putRow_rows_congr hrows hblank]
    refine ⟨rfl, rfl, getRow_accs_of_stored (getArr s u) _ _ _ _ ?_, fun k hk => mget_putRow_of_notMem _ _ _ _ _ hk,
      hcounts.keeps_mem.trans hmem⟩
    rw [rowUpdated_rows, putRow_rows_congr hrows hblank]

end Sys2Proof.Machine
end

section
/-! Preemption in place (R115, R116, R119, R120, R577): a stopped pass whose save is written leaves its array, and a saved pass
whose record is sound goes on; the obligation O15. -/

namespace Sys2Proof.Machine

open Sys2Proof

/-! ## A stopped pass leaves -/

theorem updPass_ids (a : ArrSt) (id : Nat) {f : Pass → Pass} (hf : ∀ q, (f q).id = q.id) :
    (updPass a id f).passes.map (·.id) = a.passes.map (·.id) := by
  refine (List.map_map ..).trans (List.map_congr_left fun q _ => ?_)
  show (if q.id == id then f q else q).id = q.id
  split
  · exact hf q
  · rfl

/-- Discarding a staged set keeps the passes, but for the step that the one it was for fetches next, and what waits. -/
theorem dropStaged_keeps (a : ArrSt) : (dropStaged a).passes.map (·.id) = a.passes.map (·.id) ∧
    (dropStaged a).again = a.again ∧ (dropStaged a).nextPass = a.nextPass := by
  unfold dropStaged
  split
  · exact ⟨rfl, rfl, rfl⟩
  · dsimp only
    split
    · exact ⟨rfl, rfl, rfl⟩
    · split
      · exact ⟨updPass_ids _ _ fun _ => rfl, rfl, rfl⟩
      · unfold putBank
        split <;> exact ⟨updPass_ids { a with staging := none } _ fun _ => rfl, rfl, rfl⟩

/-- Taking passes out by their numbers, of the passes or of their numbers. -/
theorem filter_ids (l : List Pass) (id : Nat) :
    (l.filter fun q => q.id != id).map (·.id) = (l.map (·.id)).filter (· != id) :=
  (List.filter_map (f := Pass.id) (p := (· != id))).symm

theorem getArr_stopLeaves (s : State) (u : ArrayUnit) (p : Pass) :
    (getArr (stopLeaves s u p) u).passes.map (·.id) = ((getArr s u).passes.filter fun q => q.id != p.id).map (·.id) ∧
      (getArr (stopLeaves s u p) u).again = (getArr s u).again ∧
      (getArr (stopLeaves s u p) u).nextPass = (getArr s u).nextPass := by
  obtain ⟨hids, hagain, hnext⟩ := dropStaged_keeps (getArr s u)
  unfold stopLeaves dropPass
  simp only [getArr_putArr_same]
  refine ⟨?_, hagain, hnext⟩
  show ((dropStaged (getArr s u)).passes.filter fun q => q.id != p.id).map (·.id) = _
  rw [filter_ids, filter_ids, hids]

/-- A pass whose record is written: the record is returned (R154), or the pass waits, behind what waits now, to resume (R577). -/
def passSaved (s : State) (u : ArrayUnit) (p : Pass) (slot : Nat × Nat) : State :=
  if pReturn p.iss then descDone s p.iss { resOf (passConds p ++ [stPREEMPTED]) with note := slot.2 }
  else
    let a := getArr s u
    putArr s u { a with
      again := a.again ++ [{ iss := { p.iss with slot := some (slot.1, []), num := a.nextPass }
                             cmds := (s.cmds.filter (waitsAtInput s u)).map (·.id) }]
      nextPass := a.nextPass + 1 }

theorem passSaved_passes (s : State) (u : ArrayUnit) (p : Pass) (slot : Nat × Nat) :
    (getArr (passSaved s u p slot) u).passes = (getArr s u).passes := by
  unfold passSaved
  split
  · rw [(descDone_arraysKept ..).getArr]
  · dsimp only
    rw [getArr_putArr_same]

theorem passSaved_again {s : State} {u : ArrayUnit} {p : Pass} {slot : Nat × Nat} (h : pReturn p.iss = false) :
    ∃ g, (getArr (passSaved s u p slot) u).again = (getArr s u).again ++ [g] ∧
      g.iss = { p.iss with slot := some (slot.1, []), num := (getArr s u).nextPass } := by
  unfold passSaved
  rw [h, if_neg Bool.false_ne_true]
  dsimp only
  rw [getArr_putArr_same]
  exact ⟨_, rfl, rfl⟩

/-- The save of a stopped pass that has no wavefront on the way: rows and flags, then the record (R115, R119). -/
theorem preemptSave_of_saved {s s1 s2 : State} {u : ArrayUnit} {p : Pass} (hs : arrStopped s u = false)
    (hp : ((getArr s u).passes.find? fun p => p.stop.isSome) = some p) (hd : p.dead = false)
    (hw : ∀ w ∈ (getArr s u).waves, w.pass ≠ p.id)
    (h1 : saveGo u p.iss.ctx (passSlot s u p).1 (savePieces s u p).2 (savePieces s u p).1 = (s1, some (.ok ())))
    (h2 : saveGo u p.iss.ctx (passSlot s u p).1 [(0, resumeRecord u p true, false)] s1 = (s2, some (.ok ()))) :
    preemptSave s u = flushLate (passSaved (bump (stopLeaves s2 u p) (pgMXA u.die u.pen u.arr) 7) u p (passSlot s u p)) u := by
  obtain ⟨⟨hfz, -⟩, hclk⟩ : (arrFrozen s u.die u.pen u.arr = false ∧ (getCtl s u.die u.pen u.arr).offline = false) ∧
      clocksStopped s = false := by
    simpa only [arrStopped, Bool.or_eq_false_iff] using hs
  have hany : ((getArr s u).waves.any fun w => w.pass == p.id) = false := by
    simpa using hw
  unfold preemptSave passSaved
  simp only [hp, hfz, hclk, hd, hs, hany, h1, h2, Bool.or_self, Bool.false_eq_true, if_false]
  split
  · rfl
  · rfl

/-! ## A saved pass goes on -/

theorem restoreRows_passes (a : ArrSt) (q : Bool) (x : Issue) (accB flagB errB : List Byte) (bad : Nat → Bool) :
    (restoreRows a q x accB flagB errB bad).passes = a.passes := by
  unfold restoreRows
  refine List.foldlRecOn (motive := fun b : ArrSt => b.passes = a.passes) _ _ rfl fun b hb i _ => ?_
  unfold freshRow putRow
  dsimp only
  split
  · exact hb
  · exact hb

/-- Only another package's data is taken in turn from a row's answer. -/
theorem respRest_ok (s : State) (x : StreamId) (ctx va n : Nat) : respRest s x ctx va n .ok = .ok := rfl

theorem restoreGo_of_read {s s2 s3 : State} {u : ArrayUnit} {x : Issue} {slot : Nat} {r accB flagB : List Byte}
    {pz1 pz2 : Bool} (hm : pMode x = 0)
    (h1 : slotRead s u .ok x.ctx (slot + 0x5000 + pAccBase x * (4 * side u.quarter)) (pVectors x * 4 * side u.quarter) =
      (s2, some (.ok (accB, pz1))))
    (h2 : slotRead s2 u .ok x.ctx (slot + 0x1000 + pAccBase x * (side u.quarter / 4)) (pVectors x * (side u.quarter / 4)) =
      (s3, some (.ok (flagB, pz2)))) :
    ∃ p, (getArr (restoreGo s u x slot r .ok) u).passes = (getArr s3 u).passes ++ [p] ∧
      p.iss = { x with slot := none } ∧ p.resumed = true ∧ p.s = field r 0x44 1 ∧ p.i = field r 0x44 4 / 256 % 4096 ∧
      p.entered = field r 0x48 4 ∧ p.stop = none := by
  unfold restoreGo
  simp only [h1, h2, hm, respRest_ok, if_true]
  rw [getArr_congr ((bumpBy_arrs ..).trans (bump_arrs ..)), getArr_putArr_same]
  unfold passClaim
  dsimp only
  rw [restoreRows_passes, getArr_putArr_same]
  exact ⟨_, rfl, rfl, rfl, rfl, rfl, rfl, rfl⟩

/-- A pass whose turn to resume in place has come, on an array that runs, with its rows free and its record sound (R116). -/
theorem resumeHead_of_sound {s s1 : State} {u : ArrayUnit} {x : Issue} {slot : Nat} {r : List Byte}
    (hn : unitNext s u = some x) (hx : x.slot = some (slot, [])) (hc : (getCtl s u.die u.pen u.arr).checking = false)
    (hf : arrFrozen s u.die u.pen u.arr = false) (hk : clocksStopped s = false)
    (ho : (getCtl s u.die u.pen u.arr).offline = false) (hq : (getCtl s u.die u.pen u.arr).quarter = u.quarter)
    (hu : rowsInUse (getArr s u) u.quarter x = false)
    (hl : ((getArr s u).passes.filter fun p => !allEntered p).length < 2) (hr : pReuse x = false)
    (h : slotRead s u .ok x.ctx slot 128 = (s1, some (.ok (r, false)))) (hb : recordBad r = false) :
    resumeHead s u .ok = restoreGo s1 u x slot r .ok := by
  unfold resumeHead
  simp only [hn, hx, hc, hf, hk, ho, hq, hu, hr, h, hb, decide_eq_true_eq, Nat.not_le.2 hl, bne_self_eq_false,
    Bool.false_and, Bool.or_self, Bool.false_or, Bool.false_eq_true, if_false, respRest_ok]

theorem exec_preemptSave {u : ArrayUnit} (hu : unitOk u = true) (s : State) :
    exec (.preemptSave u) s = .next (preemptSave s u) := congrArg Host.Outcome.next (if_pos hu)

theorem exec_resumeInPlace {u : ArrayUnit} (hu : unitOk u = true) (resp : LineResp) (s : State) :
    exec (.resumeInPlace ⟨u, resp⟩) s = .next (resumeHead s u resp) := congrArg Host.Outcome.next (if_pos hu)

/-- Settles O15: a saved pass leaves its array and waits behind what waits there, and a sound record is taken up again. -/
theorem preemptedPassesSaveAndResume : Obligations.PreemptedPassesSaveAndResume := by
  unfold Obligations.PreemptedPassesSaveAndResume
  intro u s hu
  refine ⟨?save, ?resume⟩
  case save =>
    intro p stop s1 s2 hs hp _ hd hw h1 h2
    have hleft : ArraysKept (stopLeaves s2 u p) (bump (stopLeaves s2 u p) (pgMXA u.die u.pen u.arr) 7) :=
      (bump_counts ..).arraysKept
    obtain ⟨hids, hagain, hnext⟩ := getArr_stopLeaves s2 u p
    obtain ⟨late, hlate⟩ := getArr_flushLate
      (passSaved (bump (stopLeaves s2 u p) (pgMXA u.die u.pen u.arr) 7) u p (passSlot s u p)) u
    refine ⟨_, (exec_preemptSave hu s).trans (congrArg _ (preemptSave_of_saved hs hp hd hw h1 h2)), ?_, fun hr => ?_⟩
    · rw [hlate, passSaved_passes, hleft.getArr, hids]
    · obtain ⟨g, hg, hiss⟩ := passSaved_again (s := bump (stopLeaves s2 u p) (pgMXA u.die u.pen u.arr) 7) (u := u)
        (slot := passSlot s u p) hr
      rw [hleft.getArr, hagain] at hg
      rw [hleft.getArr, hnext] at hiss
      exact ⟨g, by rw [hlate]; exact hg, hiss⟩
  case resume =>
    intro x slot r s1 s2 s3 accB flagB pz1 pz2 hn hx hc hf hk ho hq hu' hl hm hr h hb h1 h2
    exact ⟨_, (exec_resumeInPlace hu .ok s).trans (congrArg _ (resumeHead_of_sound hn hx hc hf hk ho hq hu' hl hr h hb)),
      restoreGo_of_read hm h1 h2⟩

end Sys2Proof.Machine
end

section
/-! What coherent lines and streams leave alone: a read or a write at a line's home or at an agent, and an access of a stream,
change no array, no array's control and no fuse. -/

namespace Sys2Proof.Machine

open Sys2Proof

theorem ArraysKept.ite_fst {α : Type} {s : State} {a b : State × α} {c : Prop} [Decidable c] (h : ArraysKept s a.1)
    (k : ArraysKept s b.1) : ArraysKept s (if c then a else b).1 := by
  split
  · exact h
  · exact k

/-! ## Memory and the records of lines -/

section
variable (s : State) (pa : Nat) (bs : List Byte) (p : Bool)

theorem storeBytes_arraysKept : ArraysKept s (storeBytes s pa bs p) := by
  have hw : ArraysKept s (writeBytes s pa bs) := by
    rw [writeBytes_eq_setMem]
    exact ⟨rfl, rfl, rfl⟩
  have hmark (t : State) (n : Nat) : ArraysKept t (poisonRange t pa n) := by
    induction n generalizing t with
    | zero => exact .refl t
    | succ n ih => exact (ih _).after ⟨rfl, rfl, rfl⟩
  have hclear (t : State) (n : Nat) : ArraysKept t (unpoisonWhole t pa n) := by
    unfold unpoisonWhole
    dsimp only
    exact .ite (.refl t) (foldl_arraysKept (fun _ _ => by exact ⟨rfl, rfl, rfl⟩) ..)
  exact .ite (hw.trans (hmark ..)) (hw.trans (hclear ..))

end

section
variable (s : State) (line agent : Nat)

theorem putCoh_arraysKept (f : CohSt → CohSt) : ArraysKept s (putCoh s f) := ⟨rfl, rfl, rfl⟩

theorem putCopy_arraysKept (c : Option Copy) : ArraysKept s (putCopy s line agent c) := putCoh_arraysKept ..

theorem dirPut_arraysKept (vec : Nat) (sole : Bool) : ArraysKept s (dirPut s line vec sole) := putCoh_arraysKept ..

theorem setPoison_arraysKept (pa : Nat) (p : Bool) : ArraysKept s (setPoison s pa p) := ⟨rfl, rfl, rfl⟩

theorem cohError_arraysKept (pg cause : Nat) : ArraysKept s (cohError s pg cause agent line) := by
  unfold cohError
  exact .ite (.refl s) ((setLogged_counts ..).arraysKept.after ⟨rfl, rfl, rfl⟩)

theorem poisonLine_arraysKept : ArraysKept s (poisonLine s line agent) :=
  (setPoison_arraysKept ..).trans ((bump_counts ..).arraysKept.trans (cohError_arraysKept ..))

theorem resolveDead_arraysKept : ArraysKept s (resolveDead s line agent) := by
  have h (f : CohSt → CohSt) := putCoh_arraysKept s f
  unfold resolveDead
  dsimp only
  split
  · exact h _
  · refine .ite (h _) (.ite ?_ ((h _).trans (dirPut_arraysKept ..)))
    exact (h _).trans ((putCoh_arraysKept ..).trans ((poisonLine_arraysKept ..).trans (dirPut_arraysKept ..)))

/-! ## A line's home -/

theorem homeTouch_arraysKept : ArraysKept s (homeTouch s line) := by
  unfold homeTouch
  dsimp only
  split
  · exact (bump_counts ..).arraysKept.trans (putCoh_arraysKept ..)
  · exact (bump_counts ..).arraysKept.after ⟨rfl, rfl, rfl⟩

theorem homeWrite_arraysKept (data : List Byte) (poison : Bool) : ArraysKept s (homeWrite s line data poison) :=
  .ite (homeTouch_arraysKept ..) ((homeTouch_arraysKept ..).trans (storeBytes_arraysKept ..))

theorem homeAccept_arraysKept : ArraysKept s (homeAccept s line) :=
  (bump_counts ..).arraysKept.trans ((putCoh_arraysKept ..).trans
    (foldl_arraysKept (fun t a => resolveDead_arraysKept t line a) ..))

theorem snoopNow_arraysKept (k : Snoop) : ArraysKept s (snoopNow s k line agent).1 := by
  have hb : ArraysKept s (bump s (pgCOH (homeOf s line)) 1) := (bump_counts ..).arraysKept
  have hnone (t : State) : ArraysKept t (if isOwner t agent line then bump t (pgCOH (homeOf s line)) 3 else t) :=
    .ite (bump_counts ..).arraysKept (.refl t)
  have hforward (t : State) (c : Option Copy) :
      ArraysKept t (putCopy (bump t (pgCOH (homeOf s line)) 2) line agent c) :=
    (bump_counts ..).arraysKept.trans (putCopy_arraysKept ..)
  unfold snoopNow
  dsimp only
  split
  · exact hb.trans (hnone _)
  · split <;> dsimp only
    · exact hb.trans (hnone _)
    · exact hb
    · exact hb
    · exact hb.trans ((putCopy_arraysKept ..).trans (hnone _))
    · exact hb.trans ((putCopy_arraysKept ..).trans (hnone _))
    · exact hb.trans (hforward ..)
    · exact hb.trans (hforward ..)
    · exact hb.trans (hforward ..)
    · exact hb.trans ((homeWrite_arraysKept ..).trans (putCopy_arraysKept ..))
    · exact hb.trans ((homeWrite_arraysKept ..).trans (hforward ..))
    · exact hb.trans (hforward ..)
    · exact hb.trans (hforward ..)

theorem homeGive_arraysKept : ArraysKept s (homeGive s line).1 := homeTouch_arraysKept ..

theorem foldl_snoopNow_arraysKept (k : Snoop) (l : List Nat) :
    ArraysKept s (l.foldl (fun s a => (snoopNow s k line a).1) s) :=
  foldl_arraysKept (fun t a => snoopNow_arraysKept t line a k) ..

theorem homeInvalidate_arraysKept : ArraysKept s (homeInvalidate s line) := by
  unfold homeInvalidate
  split
  · exact .refl s
  · exact (foldl_snoopNow_arraysKept ..).trans (dirPut_arraysKept ..)

theorem homeTake_arraysKept : ArraysKept s (homeTake s line) :=
  (homeAccept_arraysKept ..).trans (homeInvalidate_arraysKept ..)

theorem homeRoom_arraysKept : ArraysKept s (homeRoom s line) := by
  unfold homeRoom
  refine .ite (.refl s) (.ite (.refl s) ?_)
  split
  · exact .refl s
  · exact (bump_counts ..).arraysKept.trans (homeInvalidate_arraysKept ..)

theorem unreadable_arraysKept : ArraysKept s (unreadable s line) :=
  ((bump_counts ..).trans (bump_counts ..)).arraysKept.trans ((cohError_arraysKept ..).trans (dirPut_arraysKept ..))

theorem homeEcc_arraysKept (e : HomeEcc) : ArraysKept s (homeEcc s line e) := by
  cases e with
  | clean => exact .refl s
  | corrected => exact (bump_counts ..).arraysKept
  | data => exact (setPoison_arraysKept ..).trans ((bump_counts ..).arraysKept.trans (cohError_arraysKept ..))
  | directory => exact .refl s
  | memory => exact setPoison_arraysKept ..

theorem homeFound_arraysKept (e : HomeEcc) : ArraysKept s (homeFound s line e) := by
  unfold homeFound
  split
  · exact (unreadable_arraysKept ..).trans (homeInvalidate_arraysKept ..)
  · exact homeEcc_arraysKept ..

theorem homeRead_arraysKept : ArraysKept s (homeRead s line).1 := by
  have ha := homeAccept_arraysKept s line
  unfold homeRead
  dsimp only
  split
  · have hs := ha.trans (snoopNow_arraysKept (homeAccept s line) line (ownerOf (homeAccept s line) line) .cur)
    split
    · exact hs
    · exact .ite (hs.trans (homeGive_arraysKept ..)) (hs.trans ((homeGive_arraysKept ..).trans (dirPut_arraysKept ..)))
  · exact ha.trans (homeGive_arraysKept ..)

/-! ## An agent -/

theorem visitorEcc_arraysKept (e : Ecc) : ArraysKept s (visitorEcc s agent line e) := by
  unfold visitorEcc
  split
  · exact .refl s
  · exact .refl s
  · exact .ite (bump_counts ..).arraysKept (.refl s)
  · refine .ite (.refl s) ?_
    have h : ArraysKept s (cohError (bump s (pgCOH agent) 12) (pgCOH agent) 3 agent line) :=
      (bump_counts ..).arraysKept.trans (cohError_arraysKept ..)
    dsimp only
    split
    · exact h.trans (putCopy_arraysKept ..)
    · exact h.trans (putCopy_arraysKept ..)
    · exact h.trans (putCopy_arraysKept ..)
    · exact h

theorem agentFetch_arraysKept (sole : Bool) : ArraysKept s (agentFetch s agent line sole).1 := by
  have h : ArraysKept s (homeRoom (homeAccept s line) line) :=
    (homeAccept_arraysKept ..).trans (homeRoom_arraysKept ..)
  have hgive (t : State) (c : Copy) : ArraysKept t (putCopy (homeGive t line).1 line agent (some c)) :=
    (homeGive_arraysKept ..).trans (putCopy_arraysKept ..)
  unfold agentFetch
  dsimp only
  split
  · exact h.trans ((dirPut_arraysKept ..).trans (hgive ..))
  · split
    · exact h.trans ((foldl_snoopNow_arraysKept ..).trans ((dirPut_arraysKept ..).trans (hgive ..)))
    · exact h.trans ((dirPut_arraysKept ..).trans (hgive ..))
  · split
    · exact h.trans (hgive ..)
    · have hs (k : Snoop) (o : Nat) := h.trans (snoopNow_arraysKept (homeRoom (homeAccept s line) line) line o k)
      split
      · split <;> dsimp only
        · exact (hs ..).trans ((dirPut_arraysKept ..).trans (putCopy_arraysKept ..))
        · exact (hs ..).trans ((dirPut_arraysKept ..).trans (putCopy_arraysKept ..))
      · exact .ite_fst ((hs ..).trans ((dirPut_arraysKept ..).trans (hgive ..)))
          ((hs ..).trans ((dirPut_arraysKept ..).trans (hgive ..)))

theorem agentHold_arraysKept (sole : Bool) (h : HomeEcc) (v : Ecc) : ArraysKept s (agentHold s agent line sole h v).1 := by
  have hv := visitorEcc_arraysKept s line agent v
  have hfetch (b : Bool) : ArraysKept s (agentFetch (homeFound (visitorEcc s agent line v) line h) agent line b).1 :=
    hv.trans ((homeFound_arraysKept ..).trans (agentFetch_arraysKept ..))
  unfold agentHold
  dsimp only
  split
  · split
    · exact hfetch _
    · exact hv
  · exact hfetch _

theorem agentYield_arraysKept : ArraysKept s (agentYield s agent line) := by
  have h : ArraysKept s (putCopy s line agent none) := putCopy_arraysKept ..
  unfold agentYield
  split
  · exact .refl s
  · refine .ite (h.trans ?_) h
    exact (homeWrite_arraysKept ..).trans ((bump_counts ..).arraysKept.trans (dirPut_arraysKept ..))

end

/-! ## Coherent reads and writes -/

section
variable (s : State) (q : Asker) (pa : Nat) (h : HomeEcc) (v : Ecc)

theorem cohRead_arraysKept (n : Nat) : ArraysKept s (cohRead s q pa n h v).1 := by
  unfold cohRead
  dsimp only
  split
  · exact agentHold_arraysKept ..
  · exact (homeFound_arraysKept ..).trans (homeRead_arraysKept ..)

theorem homeStore_arraysKept (bs : List Byte) (p : Bool) : ArraysKept s (homeStore s pa bs p).1 := by
  have h : ArraysKept s (homeTouch (homeTake s (lineOf pa)) (lineOf pa)) :=
    (homeTake_arraysKept ..).trans (homeTouch_arraysKept ..)
  unfold homeStore
  dsimp only
  split
  · exact h
  · exact h.trans (storeBytes_arraysKept ..)

theorem cohWrite_arraysKept (bs : List Byte) (p : Bool) : ArraysKept s (cohWrite s q pa bs p h v).1 := by
  unfold cohWrite
  dsimp only
  split
  · split <;> dsimp only
    · exact agentHold_arraysKept ..
    · exact (agentHold_arraysKept ..).trans (putCopy_arraysKept ..)
  · exact (visitorEcc_arraysKept ..).trans ((agentYield_arraysKept ..).trans
      ((homeFound_arraysKept ..).trans (homeStore_arraysKept ..)))
  · exact (homeFound_arraysKept ..).trans (homeStore_arraysKept ..)

end

/-! ## Streams -/

section
variable (s : State) (x : StreamId) (c va : Nat)

theorem putStream_arraysKept (st : StreamSt) : ArraysKept s (putStream s x st) := ⟨rfl, rfl, rfl⟩

theorem inFlight_arraysKept (p : Place) : ArraysKept s (inFlight s x c va p) := by
  unfold inFlight
  split
  · exact .ite (.refl s) (putStream_arraysKept ..)
  · exact putStream_arraysKept ..

theorem unhold_arraysKept : ArraysKept s (unhold s x c) := by
  unfold unhold
  dsimp only
  split
  · exact .ite (.refl s) (putStream_arraysKept ..)
  · exact .ite (.refl s) (putStream_arraysKept ..)

theorem segErr_arraysKept (seg cause : Nat) : ArraysKept s (segErr s c seg cause) := by
  unfold segErr
  exact .ite (.refl s) ((setLogged_counts ..).arraysKept.after ⟨rfl, rfl, rfl⟩)

theorem stallStream_arraysKept (f seg cause cookie : Nat) : ArraysKept s (stallStream s x f c seg va cause cookie) := by
  unfold stallStream
  dsimp only
  split
  · exact (bump_counts ..).arraysKept.trans (putStream_arraysKept ..)
  · split
    · exact putStream_arraysKept ..
    · exact (bump_counts ..).arraysKept.trans ⟨rfl, rfl, rfl⟩

/-- The access leaves every array alone, whether it goes through or not. -/
def AccessKeeps (s : State) (r : Acc1) : Prop :=
  match r with
  | .wait t => ArraysKept s t
  | .fail _ t => ArraysKept s t
  | .ok _ _ => True
  | .comp _ _ => True

theorem AccessKeeps.ite {s : State} {a b : Acc1} {c : Prop} [Decidable c] (h : AccessKeeps s a) (k : AccessKeeps s b) :
    AccessKeeps s (if c then a else b) := by
  split
  · exact h
  · exact k

theorem accessPlace_keeps (who : Who) (f : Nat) (p : Place) : AccessKeeps s (accessPlace s x who f c va p) := by
  unfold accessPlace
  dsimp only
  refine .ite (.ite (.refl s) ((putStream_arraysKept ..).trans (bump_counts ..).arraysKept)) ?_
  split
  · exact .ite (putStream_arraysKept ..) trivial
  · trivial

theorem access_keeps (who : Who) (k : AccKind) : AccessKeeps s (access s x who c va k) := by
  unfold access
  dsimp only
  split
  · exact .refl s
  · split
    · exact putStream_arraysKept ..
    · refine .ite (.refl s) ?_
      split
      · exact accessPlace_keeps ..
      · refine .ite (segErr_arraysKept ..) ?_
        split
        · exact putStream_arraysKept ..
        · split
          · exact accessPlace_keeps ..
          · exact stallStream_arraysKept ..
          · unfold AccessKeeps
            dsimp only
            split
            · exact (putStream_arraysKept ..).trans (segErr_arraysKept ..)
            · exact putStream_arraysKept ..

end

section
variable (s : State) (q : Asker) (pa n : Nat) (resp : LineResp)

theorem windowAsk_arraysKept (w o : Nat) (write : Option (List Byte)) (p : Bool) :
    ArraysKept s (windowAsk s q w o n write p) := ((bump_counts ..).trans (counts_emit ..)).arraysKept

theorem windowRefused_arraysKept (code : Nat) : ArraysKept s (windowRefused s q code) :=
  .ite (bump_counts ..).arraysKept (.refl s)

theorem unitRead_arraysKept : ArraysKept s (unitRead s q pa n resp).1 := by
  have hline : ArraysKept s (cohRead s q pa n (respCodes resp).1 (respCodes resp).2).1 := cohRead_arraysKept ..
  unfold unitRead
  dsimp only
  split
  · exact .refl s
  · exact .refl s
  · split
    · exact .refl s
    · split
      · exact (windowAsk_arraysKept ..).trans (windowRefused_arraysKept ..)
      · exact windowAsk_arraysKept ..
      · exact windowAsk_arraysKept ..
      · exact windowAsk_arraysKept ..
  · split
    · exact hline
    · exact (bump_counts ..).arraysKept
  · split
    · exact (portRead_readAt ..).arraysKept
    · exact (portRead_readAt ..).arraysKept
  · split
    · exact .refl s
    · split
      · exact .refl s
      · exact hline
  · exact hline

end

theorem streamRead_arraysKept (s : State) (x : StreamId) (who : Who) (c : Nat) (k : AccKind) (resp : LineResp)
    (l : List (Nat × Nat)) (bs : List Byte) (p : Bool) : ArraysKept s (streamRead s x who c k resp l bs p).1 := by
  induction l generalizing s resp bs p with
  | nil => exact .refl s
  | cons e t ih =>
    obtain ⟨va, n⟩ := e
    have ha := access_keeps s x c va who k
    unfold streamRead
    split
    · next h =>
      rw [h] at ha
      exact ha
    · exact .refl s
    · next h =>
      rw [h] at ha
      exact ha
    · dsimp only
      split
      · exact inFlight_arraysKept ..
      · split
        · exact unhold_arraysKept ..
        · have hr (q : Asker) (pa : Nat) : ArraysKept s (unitRead (unhold s x c) q pa n resp).1 :=
            (unhold_arraysKept ..).trans (unitRead_arraysKept ..)
          split
          · exact hr ..
          · exact (hr ..).trans (ih ..)

end Sys2Proof.Machine
end

section
/-! GEN_FENCE, RETIRE, PREEMPT and RESUME (R114, R120, R153, R154, R156, R157): each acts once its checks pass; the obligation
O24. -/

namespace Sys2Proof.Machine

open Sys2Proof

/-! ## Acceptance -/

/-- A command of a fold that is not fenced, no check of which fails, is accepted; the state may be one after its reads. -/
theorem acceptCmd_of_passed {t : State} {c : CmdId} {f : Nat} (hf : ctxFold t c.ctx = some f) (hn : fenced t f = false)
    {bad unsup state : Bool} (hb : bad = false) (hu : unsup = false) (hs : state = false) (go : Nat → State) :
    acceptCmd t c bad unsup state go = go f := by
  simp [acceptCmd, acceptance, hb, hu, hs, hf, hn]

section
variable {s : State} {c : CmdId} {f : Nat} {x : Cmd}

/-! ## GEN_FENCE and RETIRE -/

theorem exec_genFence {g : Nat × Option Nat} (h : Granted s c 0x28 f x)
    (hr : reservedOk x.word.toNat [(147, 128), (167, 160)] = true) (hg : genGroup x = some g) :
    exec (.genFence c) s = .next (finishCmd s c {}) := by
  show execGenFence c s = _
  have hh : (x.phase == .head && cOp x == 0x28) = false := by simp [h.phase]
  simp only [execGenFence, h.findCmd, hh, Bool.false_eq_true, if_false]
  rw [withCmd_of_granted h, acceptCmd_of_granted h (by simp [hr, hg]) rfl rfl]

theorem exec_retire {g : Nat × Option Nat} (h : Granted s c 0x29 f x)
    (hr : reservedOk x.word.toNat [(147, 128), (167, 160)] = true) (hg : genGroup x = some g)
    (hn : cbits x 167 160 ≠ cGen x) {acc : State × Nat}
    (ha : acc = (groupPens g).foldl (retireList c.ctx (cbits x 167 160))
      ((groupPens g).foldl (retireFifos c.ctx (cbits x 167 160)) (retireCmds c.ctx (cbits x 167 160) g (s, 0)))) :
    exec (.retire c) s = .next (finishCmd acc.1 c { note := min acc.2 0xFFFF }) := by
  subst ha
  show execRetire c s = _
  rw [execRetire, withCmd_of_granted h]
  dsimp only
  rw [acceptCmd_of_granted h (by simp [hr, hg]) rfl (by simpa using hn), hg]

/-! ## PREEMPT -/

theorem exec_preempt {p : Pass} (h : Granted s c 0x18 f x) (hr : reservedOk x.word.toNat [(133, 128)] = true)
    (hq : quarterBad x = false)
    (he : arrayExists s.fuse.gradeB ((cmdUnit x).die * 72 + (cmdUnit x).pen * 8 + (cmdUnit x).arr) = true)
    (hd : foldHasDie s f (cmdUnit x).die = true) (hp : passInFlight (getArr s (cmdUnit x)) = some p)
    (hc : p.iss.ctx = c.ctx) (hv : fbit s (pgCTX c.ctx) F.CTX_SAVE_HI_SAVE_VALID = true) :
    exec (.preempt c) s = .next (finishCmd (if checkRuns s (cmdUnit x).die (cmdUnit x).pen (cmdUnit x).arr ||
      (getCtl s (cmdUnit x).die (cmdUnit x).pen (cmdUnit x).arr).offline then s else preemptDecide s (cmdUnit x) p) c {}) := by
  obtain ⟨-, -, -, hf, -⟩ := id h
  show execPreempt c s = _
  rw [execPreempt, withCmd_of_granted h, preemptCmd]
  rw [acceptCmd_of_granted h (by simp [hr, hq]) (by simp [he]) (by simp [hf, hd, hp, hc, hv]), hp]

theorem mem_of_passInFlight {a : ArrSt} {p : Pass} (h : passInFlight a = some p) : p ∈ a.passes := by
  unfold passInFlight at h
  split at h
  · next q hq =>
    obtain rfl : q = p := Option.some.inj h
    exact List.mem_of_find?_eq_some hq
  · exact List.mem_of_getLast? h

/-- A pass with more than 4096 cycles left stops at the save area named now (R114). -/
theorem preemptDecide_stops {u : ArrayUnit} {p : Pass} (hp : p ∈ (getArr s u).passes) (hs : p.stop = none)
    (hd : p.decided = false) (hl : 4096 < pSteps p.iss * pVectors p.iss - p.entered + tailOf u.quarter)
    (hv : fbit s (pgCTX p.iss.ctx) F.CTX_SAVE_HI_SAVE_VALID = true) :
    ∃ q ∈ (getArr (preemptDecide s u p) u).passes, q.id = p.id ∧ q.stop = some (saveArea s p.iss.ctx, herdTime s) := by
  unfold preemptDecide
  simp only [hs, hd, hv, Option.isSome_none, Bool.or_self, Bool.false_eq_true, if_false, Bool.not_true, Bool.or_false,
    decide_eq_true_eq, Nat.not_le.2 hl, getArr_putArr_same]
  exact ⟨_, List.mem_map_of_mem hp, by simp, by simp⟩

/-! ## RESUME -/

theorem exec_resume {resp : LineResp} {r : List Byte} {s1 : State} (h : Granted s c 0x19 f x)
    (hr : reservedOk x.word.toNat [(133, 128), (239, 192)] = true) (hq : quarterBad x = false)
    (hs : cbits x 239 192 % 4096 = 0)
    (hread : streamRead s (.queue c.ctx c.q) {} c.ctx .rd resp [(cbits x 239 192, 128)] [] false = (s1, some (.ok (r, false))))
    (hb : recordBad r = false)
    (he : arrayExists s1.fuse.gradeB ((cmdUnit x).die * 72 + (cmdUnit x).pen * 8 + (cmdUnit x).arr) = true)
    (hst : resumeState s1 c (cmdUnit x) r ⟨recordDesc r, .cmd c, 0, c.ctx, cGen x, some (cbits x 239 192, r), 0⟩ = false)
    (hf : ctxFold s1 c.ctx = some f) (hn : fenced s1 f = false) (hl : (getArr s1 (cmdUnit x)).fifo.length < fifoDepth) :
    exec (.resume ⟨c, resp⟩) s = .next (updCmd (putArr s1 (cmdUnit x) { getArr s1 (cmdUnit x) with
      fifo := (getArr s1 (cmdUnit x)).fifo ++ [⟨recordDesc r, .cmd c, 0, c.ctx, cGen x, some (cbits x 239 192, r),
        (getArr s1 (cmdUnit x)).nextPass⟩]
      nextPass := (getArr s1 (cmdUnit x)).nextPass + 1 }) c fun y => { y with phase := .running }) := by
  have hfuse : s1.fuse = s.fuse := by
    have := (streamRead_arraysKept s (.queue c.ctx c.q) {} c.ctx .rd resp [(cbits x 239 192, 128)] [] false).fuse
    rwa [hread] at this
  have hh : (x.phase == .running && cOp x == 0x19) = false := by simp [h.phase]
  show execResume ⟨c, resp⟩ s = _
  simp only [execResume, h.findCmd, hh, Bool.false_eq_true, if_false]
  rw [withCmd_of_granted h, resumeCmd]
  simp only [hr, hq, hs, hread, Bool.not_true, bne_self_eq_false, Bool.or_self, Bool.false_eq_true, if_false]
  rw [acceptCmd_of_passed hf hn hb (by simp [← hfuse, he]) hst]
  simp only [pushUnit, Nat.not_le.2 hl, if_false]

end

/-- Settles O24, one lemma for each command; a RESUME reads its record through the queue's stream, which leaves the fuses and
so the arrays that exist as they are. -/
theorem generationAndPreemptionCommands : Obligations.GenerationAndPreemptionCommands := by
  unfold Obligations.GenerationAndPreemptionCommands
  refine ⟨?fence, ?retire, ?preempt, ?resume⟩
  case fence => exact fun c f x g s h hr hg => exec_genFence h hr hg
  case retire => exact fun c f x g acc s h hr hg hn ha => exec_retire h hr hg hn ha
  case preempt =>
    intro c f x p s h hr hq he hd hp hc hv
    refine ⟨exec_preempt h hr hq he hd hp hc hv, fun hs hdec hl => ?_⟩
    have := preemptDecide_stops (mem_of_passInFlight hp) hs hdec hl (by rwa [hc])
    rwa [hc] at this
  case resume =>
    intro c resp f x r s1 s h hr hq hs hread hb he hst hf hn hl
    refine ⟨_, exec_resume h hr hq hs hread hb he hst hf hn hl, ?_, rfl⟩
    rw [(updCmd_arraysKept ..).getArr, getArr_putArr_same]

end Sys2Proof.Machine
end

section
/-! A fold-reach fault (R463 to R465) changes no array, no array's control and no fuse: what it stops are queues, rings, windows
and teams. -/

namespace Sys2Proof.Machine

open Sys2Proof

/-! ## Writes at a store's port and from a bus -/

theorem granWrite_arraysKept (d cls view : Nat) (p : Bool) (acc : State × Bool) (gran off : Nat) (bs : List Byte) :
    ArraysKept acc.1 (granWrite d cls view p acc gran off bs).1 := by
  have hw (t : State) (pa : Nat) (bs : List Byte) : ArraysKept t (writeBytes t pa bs) := by
    rw [writeBytes_eq_setMem]
    exact ⟨rfl, rfl, rfl⟩
  have hput (t : State) (st : Nat) (x : SpadSt) : ArraysKept t (putSpad t d st x) := ⟨rfl, rfl, rfl⟩
  have hmet (fs : List (Nat × Flaw)) : ArraysKept acc.1 (fs.foldl (meetFlaw cls d (storeAt (gran * 8))) acc.1) :=
    (foldl_readAt (meetFlaw_readAt _ _ _) ..).arraysKept
  unfold granWrite
  dsimp only
  split
  · exact (hw ..).trans ((hput ..).trans (setPoison_arraysKept ..))
  · split
    · exact hmet _
    · dsimp only
      exact .ite ((hmet _).trans ((hw ..).trans ((hput ..).trans (setPoison_arraysKept ..))))
        ((hmet _).trans ((hw ..).trans (hput ..)))

theorem lineStore_arraysKept (s : State) (d cls : Nat) (secure : Bool) (view off : Nat) (bs : List Byte) (p : Bool) :
    ArraysKept s (lineStore s d cls secure view off bs p).1 := by
  have hb := (bumpBy_counts s (pgSPAD d) 3 (if lockedWrite view off bs.length then 2 else 1)).arraysKept
  unfold lineStore
  dsimp only
  split
  · exact hb.trans (bump_counts ..).arraysKept
  · exact List.foldlRecOn (motive := fun acc : State × Bool => ArraysKept s acc.1) _ _
      (.ite hb (hb.trans (bump_counts ..).arraysKept)) fun _ h _ _ => h.trans (granWrite_arraysKept ..)

theorem portWrite_arraysKept (s : State) (d cls : Nat) (secure : Bool) (view off : Nat) (bs : List Byte) (p : Bool) :
    ArraysKept s (portWrite s d cls secure view off bs p).1 := by
  unfold portWrite
  exact List.foldlRecOn (motive := fun acc : State × PortWr => ArraysKept s acc.1) _ _ (.refl s)
    fun _ h _ _ => h.trans (lineStore_arraysKept ..)

theorem busWriteLine_arraysKept (s : State) (pa : Nat) (bs : List Byte) (p keep : Bool) (q : Asker) (h : HomeEcc) :
    ArraysKept s (busWriteLine s pa bs p keep q h).1 := by
  unfold busWriteLine
  dsimp only
  split
  · exact portWrite_arraysKept ..
  · exact .ite_fst (cohWrite_arraysKept ..) (bump_counts ..).arraysKept
  · exact cohWrite_arraysKept ..
  · exact cohWrite_arraysKept ..
  · exact .refl s

theorem busWrite_arraysKept (s : State) (pa : Nat) (bs : List Byte) (p keep : Bool) :
    ArraysKept s (busWrite s pa bs p keep).1 := by
  unfold busWrite
  exact List.foldlRecOn (motive := fun acc : State × Bool => ArraysKept s acc.1) _ _ (.refl s)
    fun _ h _ _ => h.trans (busWriteLine_arraysKept ..)

/-! ## Lines whose contents are undefined -/

theorem recallLine_arraysKept (s : State) (line : Nat) : ArraysKept s (recallLine s line) := by
  unfold recallLine
  dsimp only
  split
  · exact (storeBytes_arraysKept ..).trans ⟨rfl, rfl, rfl⟩
  · exact ⟨rfl, rfl, rfl⟩

theorem recallRange_arraysKept (s : State) (pa n : Nat) : ArraysKept s (recallRange s pa n) :=
  .ite (.refl s) (foldl_arraysKept (fun _ _ => recallLine_arraysKept ..) ..)

theorem makeUndef_arraysKept (s : State) (lo hi : Nat) : ArraysKept s (makeUndef s lo hi) := ⟨rfl, rfl, rfl⟩

theorem undefLines_arraysKept (s : State) (lo hi : Nat) : ArraysKept s (undefLines s lo hi) :=
  (foldl_arraysKept recallLine_arraysKept ..).trans (makeUndef_arraysKept ..)

theorem undefVa_arraysKept (s : State) (x : StreamId) (ctx va n : Nat) : ArraysKept s (undefVa s x ctx va n) := by
  unfold undefVa
  split
  · exact .refl s
  · refine foldl_arraysKept (fun t l => ?_) ..
    split
    · exact .ite (.refl t) (undefLines_arraysKept ..)
    · exact undefLines_arraysKept ..
    · exact .refl t

theorem undefRange_arraysKept (s : State) (x : StreamId) (who : Who) (ctx va n : Nat) :
    ArraysKept s (undefRange s x who ctx va n) := by
  unfold undefRange
  refine foldl_arraysKept (fun t l => ?_) ..
  split
  · exact .ite ((recallRange_arraysKept ..).trans (makeUndef_arraysKept ..)) (.refl t)
  · exact .refl t

/-! ## Flits and collectives -/

theorem routeFlit_arraysKept (s : State) (f : Flit) (inPort : Option Nat) : ArraysKept s (routeFlit s f inPort) := by
  have hput (t : State) (p : Nat) (x : PortSt) : ArraysKept t (putPort t p x) := ⟨rfl, rfl, rfl⟩
  unfold routeFlit
  split
  · exact (bump_counts ..).arraysKept
  · next pair g det _ =>
    have hd : ArraysKept s (if det then bump s pgFAB 2 else s) := .ite (bump_counts ..).arraysKept (.refl s)
    dsimp only
    split
    · exact hd.trans (bump_counts ..).arraysKept
    · split
      · exact hd.trans (hput ..)
      · exact hd.trans (hput ..)

theorem sendFlit_arraysKept (s : State) (f : Flit) (spread : Bool) : ArraysKept s (sendFlit s f spread) := by
  have hdraw : ArraysKept s (drawVia s f.dstPkg).2 := ⟨rfl, rfl, rfl⟩
  exact ArraysKept.trans (.ite (hdraw.trans (bump_counts ..).arraysKept) (.refl s)) (routeFlit_arraysKept ..)

theorem sendAborts_arraysKept (s : State) (x : ColSt) (ax : List Nat) : ArraysKept s (sendAborts s x ax) := by
  unfold sendAborts
  refine foldl_arraysKept (fun t i => foldl_arraysKept (fun v y => ?_) ..) ..
  exact .ite (.refl v) ((bump_counts ..).arraysKept.trans (sendFlit_arraysKept ..))

theorem colUndef_arraysKept (s : State) (x : ColSt) : ArraysKept s (colUndef s x) := by
  unfold colUndef
  split
  · exact .refl s
  · exact foldl_arraysKept (fun _ _ => undefRange_arraysKept ..) ..

theorem colEnd_arraysKept (s : State) (x : ColSt) (r : Res) : ArraysKept s (colEnd s x r) := by
  have hb (t : State) (pg n : Nat) : ArraysKept t (bump t pg n) := (bump_counts ..).arraysKept
  have hcount (t : State) : ArraysKept t (if r.code = stOVERFLOW then bump t (pgCOLL x.tile 0) 11
      else if r.code = stNOTE then bump t (pgCOLL x.tile 0) 12
      else if r.code = stABORT then bump t (pgCOLL x.tile 0) 13 else if r.code = stPEER then bump t pgFAB 11 else t) :=
    .ite (hb ..) (.ite (hb ..) (.ite (hb ..) (.ite (hb ..) (.refl t))))
  have h : ArraysKept s (if r.code = stTIER then colUndef s x else s) := .ite (colUndef_arraysKept ..) (.refl s)
  unfold colEnd
  refine h.trans (ArraysKept.trans ?_ ((hb ..).trans ((hcount _).trans (finishCmd_arraysKept ..))))
  exact ⟨rfl, rfl, rfl⟩

theorem colFoldReset_arraysKept (s : State) (f : Nat) : ArraysKept s (colFoldReset s f) := by
  unfold colFoldReset
  refine (foldl_arraysKept (fun t x => ?_) ..).trans (foldl_arraysKept (fun t n => ?_) ..)
  · exact (sendAborts_arraysKept ..).trans (colEnd_arraysKept ..)
  · exact .ite (counts_fputi ..).arraysKept (.refl t)

theorem undefCol_arraysKept (s : State) (x : ColSt) : ArraysKept s (undefCol s x) := by
  unfold undefCol
  split
  · exact .refl s
  · dsimp only
    refine .ite (.ite ?_ (.refl s)) ?_
    · exact foldl_arraysKept (fun _ _ => undefVa_arraysKept ..) ..
    · exact foldl_arraysKept (fun _ _ => undefVa_arraysKept ..) ..

/-! ## Windows and job rings -/

theorem windowsFoldReset_arraysKept (s : State) (f : Nat) : ArraysKept s (windowsFoldReset s f) := by
  have hput (t : State) (g : FabSt → FabSt) : ArraysKept t (putFab t g) := ⟨rfl, rfl, rfl⟩
  unfold windowsFoldReset
  refine (hput ..).trans ((foldl_arraysKept (fun _ _ => sendFlit_arraysKept ..) ..).trans
    ((foldl_arraysKept (fun _ _ => (counts_fputi ..).arraysKept) ..).trans (foldl_arraysKept (fun t _ => ?_) ..)))
  exact .ite (counts_fputi ..).arraysKept (.refl t)

theorem putRing_arraysKept (s : State) (h f : Nat) (r : JobRing) : ArraysKept s (putRing s h f r) := ⟨rfl, rfl, rfl⟩

theorem postJobs_arraysKept (s : State) (h f : Nat) (l : List JobSt) : ArraysKept s (postJobs s h f l) := by
  have hwrite (t : State) (b : Bool) (pa : Nat) (bs : List Byte) :
      ArraysKept t (if b then (busWrite t pa bs false false).1 else t) := .ite (busWrite_arraysKept ..) (.refl t)
  have htally (t : State) (k c n : Nat) : ArraysKept t (if k = 1 then tallyAdd t c n 1 else t) :=
    .ite (tallyAdd_arraysKept ..) (.refl t)
  induction l generalizing s with
  | nil => exact putRing_arraysKept ..
  | cons j t ih =>
    unfold postJobs
    split
    · exact putRing_arraysKept ..
    · exact .ite (putRing_arraysKept ..) ((putRing_arraysKept ..).trans ((hwrite ..).trans ((htally ..).trans (ih _))))

theorem inpFoldReset_arraysKept (s : State) (f : Nat) : ArraysKept s (inpFoldReset s f) := by
  unfold inpFoldReset
  refine foldl_arraysKept (fun t h => ?_) ..
  refine (counts_fputi ..).arraysKept.trans ((putRing_arraysKept ..).trans ((postJobs_arraysKept ..).trans
    ((foldl_arraysKept (fun v _ => ?_) ..).trans (foldl_arraysKept (fun v _ => ?_) ..))))
  · exact .ite (counts_fputi ..).arraysKept (.refl v)
  · exact .ite (counts_fputi ..).arraysKept (.refl v)

/-! ## The fold stops -/

theorem dropHead_arraysKept (s : State) (c q : Nat) : ArraysKept s (dropHead s c q) := by
  unfold dropHead
  split
  · exact ⟨rfl, rfl, rfl⟩
  · exact .refl s

theorem foldStop_arraysKept (s : State) (f : Nat) : ArraysKept s (foldStop s f) := by
  unfold foldStop
  refine (counts_fput ..).arraysKept.trans ((foldl_arraysKept (fun _ _ => foldl_arraysKept (fun _ _ => dropHead_arraysKept ..) ..) ..).trans
    ((windowsFoldReset_arraysKept ..).trans ((foldl_arraysKept (fun _ _ => foldl_arraysKept (fun t _ => ?_) ..) ..).trans
    ((inpFoldReset_arraysKept ..).trans ((foldl_arraysKept undefCol_arraysKept ..).trans (colFoldReset_arraysKept ..))))))
  exact .ite (counts_fputi ..).arraysKept (.refl t)

theorem resetStart_arraysKept (s : State) (f cause unit detail : Nat) : ArraysKept s (resetStart s f cause unit detail) := by
  have hput (t : State) (x : FoldRst) : ArraysKept t (putFoldRst t f x) := ⟨rfl, rfl, rfl⟩
  unfold resetStart
  exact .ite (bump_counts ..).arraysKept
    ((counts_fput ..).arraysKept.trans ((hput ..).trans (foldStop_arraysKept ..)))

theorem foldFault_arraysKept (s : State) (f cause unit detail : Nat) : ArraysKept s (foldFault s f cause unit detail) :=
  .ite (resetStart_arraysKept ..) (.ite (bump_counts ..).arraysKept
    ((counts_forBits ..).trans (raiseEvent_counts ..)).arraysKept)

theorem dieFault_arraysKept (s : State) (d cause unit : Nat) : ArraysKept s (dieFault s d cause unit) := by
  have hdraw : ArraysKept s (drawFree s).2 := ⟨rfl, rfl, rfl⟩
  unfold dieFault
  split
  · exact hdraw.trans ((bump_counts ..).arraysKept.trans (foldFault_arraysKept ..))
  · exact .refl s

end Sys2Proof.Machine
end

section
/-! Modes, freezes, faults and self-checks of an array (R111, R113, R117, R123, R124): the obligation O14. -/

namespace Sys2Proof.Machine

open Sys2Proof

/-! ## Quarter mode -/

theorem exec_mxaCfgWrite {s : State} {src : Src} {d p a : Nat} (hd : d < 16) (hp : p < 9) (ha : a < 8) (h : Rules s src)
    (he : leafExists s (pgMXA d p a) = true) (q : Bool) :
    exec (.mxaCfgWrite src d p a q) s = .next (fputb s (pgMXA d p a) F.MXA_CFG_QUARTER q) := by
  show execMxaCfgWrite src d p a q s = _
  rw [execMxaCfgWrite, if_pos ⟨he, hd, hp, ha⟩, withPage_of_rules h]

/-- A one-bit field reads the bit that was put. -/
theorem fbit_fputb_same (s : State) (page : Nat) {f : Field} (b : Bool) (hf : fieldWidth f = 1) :
    fbit (fputb s page f b) page f = b := by
  unfold fbit fputb
  rw [fget_fput_same _ _ _ _ (by omega), hf]
  cases b <;> rfl

section
variable (s : State) (u v : ArrayUnit)

/-- A switch of the mode leaves the passes of every unit and the owners of its rows (R108). -/
theorem getArr_blurUnit_keeps : (getArr (blurUnit s u) v).passes = (getArr s v).passes ∧
    (getArr (blurUnit s u) v).owner = (getArr s v).owner := by
  unfold blurUnit
  rw [getArr_putArr]
  split
  · next h =>
    rw [show getArr s v = getArr s u by rw [getArr, getArr, h]]
    exact ⟨rfl, rfl⟩
  · exact ⟨rfl, rfl⟩

theorem getArr_blurUnit_of_ne {s : State} {u v : ArrayUnit} (h : arrUnit u ≠ arrUnit v) :
    getArr (blurUnit s u) v = getArr s v := (getArr_putArr ..).trans (if_neg h)

end

/-- The units of an array's mode lie on that array, and there are no others of their numbers. -/
theorem modeUnits_unitOk {s : State} {d p a : Nat} (hd : d < 16) (hp : p < 9) (ha : a < 8) {u : ArrayUnit}
    (h : u ∈ modeUnits s d p a) : unitOk u = true ∧ (u.die, u.pen, u.arr) = (d, p, a) := by
  unfold modeUnits at h
  split at h
  · obtain ⟨q, hq, rfl⟩ := List.mem_map.1 h
    have := List.mem_range.1 hq
    simp [unitOk, hd, hp, ha, this]
  · obtain rfl := List.mem_singleton.1 h
    simp [unitOk, hd, hp, ha]

/-- What a switch of an array's mode does: the mode is the one that MXA_CFG requests, and the rest of the control stays (R111). -/
structure Switched (d p a : Nat) (s t : State) : Prop where
  quarter : (getCtl t d p a).quarter = fbit s (pgMXA d p a) F.MXA_CFG_QUARTER
  kept : ∀ u, (getArr t u).passes = (getArr s u).passes ∧ (getArr t u).owner = (getArr s u).owner
  others : ∀ u, unitOk u = true → (u.die, u.pen, u.arr) ≠ (d, p, a) → getArr t u = getArr s u
  regs : t.regs = s.regs
  mem : t.mem = s.mem

theorem modeSwitch_switched {s : State} {d p a : Nat} (hd : d < 16) (hp : p < 9) (ha : a < 8)
    (hidle : ∀ u ∈ unitsOf d p a, (getArr s u).passes = []) (hl : heldByList s d p a = false)
    (hf : arrFrozen s d p a = false) : Switched d p a s (modeSwitch s d p a) := by
  have hall : ((unitsOf d p a).all fun u => (getArr s u).passes.isEmpty) = true := by
    simp +contextual [hidle]
  unfold modeSwitch
  simp only [hall, hl, hf, Bool.not_false, Bool.and_self, Bool.true_and]
  split
  · refine List.foldlRecOn (motive := Switched d p a s) _ _ ⟨?_, fun _ => ⟨rfl, rfl⟩, fun _ _ _ => rfl, rfl, rfl⟩ ?_
    · rw [getCtl_putCtl_same]
    · intro t ht u hu
      obtain ⟨hu', hplace⟩ := modeUnits_unitOk hd hp ha hu
      refine ⟨ht.quarter, fun v => ?_, fun v hv hne => ?_, ht.regs, ht.mem⟩
      · obtain ⟨h1, h2⟩ := getArr_blurUnit_keeps t u v
        exact ⟨h1.trans (ht.kept v).1, h2.trans (ht.kept v).2⟩
      · rw [getArr_blurUnit_of_ne (arrUnit_ne hu' hv (hplace ▸ hne.symm)), ht.others v hv hne]
  · next h =>
    exact ⟨by simpa using h, fun _ => ⟨rfl, rfl⟩, fun _ _ _ => rfl, rfl, rfl⟩

/-! ## Freeze -/

section
variable {s : State} {d p a : Nat} (hd : d < 16) (hp : p < 9) (ha : a < 8)
include hd hp ha

theorem exec_quarterModeSwitch : exec (.quarterModeSwitch d p a) s = .next (modeSwitch s d p a) :=
  congrArg Host.Outcome.next (if_pos ⟨hd, hp, ha⟩)

theorem exec_arrayFreeze :
    exec (.arrayFreeze d p a) s = .next (putCtl s d p a { getCtl s d p a with frozen := true }) :=
  congrArg Host.Outcome.next (if_pos ⟨hd, hp, ha⟩)

end

/-- One count of `k`, of a page whose counters are not frozen and whose counter no interrupt can move. -/
theorem counter_bumpBy {s : State} {page n : Nat} (k : Nat) (h : fbit s page F.CTL_CNT_FREEZE = false) (hn : n < 16)
    (h2 : page ≠ pgIRQ) (h3 : page < pgHOSTL 0) : counter (bumpBy s page n k) page n = (counter s page n + k) % 2 ^ 64 :=
  ((bumpBy_reports pgIRQ s page n k).counter hn h2 h2 h3).trans (counter_bumpRaw s page n k h)

/-- A count leaves another page's counters, where no interrupt moves them. -/
theorem counter_bumpBy_of_ne (s : State) {page q m n : Nat} (k : Nat) (hm : m < 16) (hn : n < 16) (h1 : q ≠ page)
    (h2 : q ≠ pgIRQ) (h3 : q < pgHOSTL 0) : counter (bumpBy s page m k) q n = counter s q n :=
  ((bumpRaw_reports s k hm (.inl rfl)).trans (bumpBy_reports page s page m k)).counter hn h1 h2 h3

/-- The state of an array that resumes after `n` frozen cycles (R113): they are counted on its page, and on its die's power page
with the last array of the die (R453). -/
def unfrozen (s : State) (d p a n : Nat) : State :=
  let t := bumpBy (putCtl s d p a { getCtl s d p a with frozen := false }) (pgMXA d p a) 3 n
  if dutyFrozen t d then t else bumpBy t (pgPWRDIE d) 3 n

theorem exec_arrayFreezeRelease {s : State} {d p a : Nat} (hd : d < 16) (hp : p < 9) (ha : a < 8) (n : Nat)
    (h : (getCtl s d p a).frozen = true) :
    exec (.arrayFreezeRelease d p a n) s = .next (unfrozen s d p a n) :=
  congrArg Host.Outcome.next (if_pos ⟨hd, hp, ha, h⟩)

theorem unfrozen_counts (s : State) (d p a n : Nat) :
    Counts (putCtl s d p a { getCtl s d p a with frozen := false }) (unfrozen s d p a n) :=
  counts_ite (bumpBy_counts ..) ((bumpBy_counts ..).trans (bumpBy_counts ..))

theorem counter_unfrozen {s : State} {d p a : Nat} (n : Nat) (hd : d < 16) (hp : p < 9) (ha : a < 8)
    (h : fbit s (pgMXA d p a) F.CTL_CNT_FREEZE = false) :
    counter (unfrozen s d p a n) (pgMXA d p a) 3 = (counter s (pgMXA d p a) 3 + n) % 2 ^ 64 := by
  obtain ⟨h1, h2, h3⟩ : pgMXA d p a ≠ pgPWRDIE d ∧ pgMXA d p a ≠ pgIRQ ∧ pgMXA d p a < pgHOSTL 0 := by
    unfold pgMXA pgPWRDIE pgIRQ pgHOSTL pageOf
    omega
  have hmxa : counter (bumpBy (putCtl s d p a { getCtl s d p a with frozen := false }) (pgMXA d p a) 3 n) (pgMXA d p a) 3 =
      (counter s (pgMXA d p a) 3 + n) % 2 ^ 64 := counter_bumpBy n h (by decide) h2 h3
  unfold unfrozen
  dsimp only
  split
  · exact hmxa
  · rw [counter_bumpBy_of_ne _ _ (by decide) (by decide) h1 h2 h3, hmxa]

/-! ## Faults and self-checks -/

theorem exec_arrayFault {s : State} {u : ArrayUnit} {cause : Nat} (hu : unitOk u = true)
    (he : arrayExists s.fuse.gradeB (u.die * 72 + u.pen * 8 + u.arr) = true)
    (ho : (getCtl s u.die u.pen u.arr).offline = false) (hc : (getCtl s u.die u.pen u.arr).checking = false)
    (h1 : 1 ≤ cause) (h4 : cause ≤ 4) (shared : Bool) :
    exec (.arrayFault u cause shared) s = .next (arrayFault s u cause shared) := by
  show execArrayFault u cause shared s = _
  have hcheck : checkRuns s u.die u.pen u.arr = false := by
    rw [checkRuns, hc, Bool.false_and]
  rw [execArrayFault, if_neg (by simp [hu, he, ho]; omega), hcheck, if_neg Bool.false_ne_true]

theorem arrayFault_checking (s : State) (u : ArrayUnit) (cause : Nat) (shared : Bool) :
    (getCtl (arrayFault s u cause shared) u.die u.pen u.arr).checking = true := by
  unfold arrayFault
  exact congrArg ArrCtl.checking (getCtl_putCtl_same ..)

section
variable {s : State} {u : ArrayUnit} (hu : unitOk u = true) (hc : checkRuns s u.die u.pen u.arr = true)
  (hs : arrStopped s u = false)
include hu hc hs

theorem exec_arraySelfCheckEnd_passed : exec (.arraySelfCheckEnd u true) s =
    .next (putCtl s u.die u.pen u.arr { getCtl s u.die u.pen u.arr with checking := false }) :=
  congrArg Host.Outcome.next (if_neg (by simp [hu, hc, hs]))

theorem exec_arraySelfCheckEnd_failed : exec (.arraySelfCheckEnd u false) s = .next (checkFails s u) := by
  show execArraySelfCheckEnd u false s = _
  rw [execArraySelfCheckEnd, if_neg (by simp [hu, hc, hs]), if_neg Bool.false_ne_true]

end

theorem arrayStops_offline (s : State) (u : ArrayUnit) :
    (getCtl (arrayStops s u) u.die u.pen u.arr).offline = true := by
  unfold arrayStops
  exact congrArg ArrCtl.offline (getCtl_putCtl_same ..)

theorem arrayOffline_arraysKept (s : State) (u : ArrayUnit) : ArraysKept (arrayStops s u) (arrayOffline s u) := by
  have hlist (t : State) (m : FMap Unit) : ArraysKept t { t with offline := m } := ⟨rfl, rfl, rfl⟩
  unfold arrayOffline
  exact (hlist ..).trans ((bump_counts ..).arraysKept.trans (dieFault_arraysKept ..))

/-- A failed self-check takes the array offline, whatever the fold's fault then stops (R117, R460). -/
theorem checkFails_offline (s : State) (u : ArrayUnit) :
    (getCtl (checkFails s u) u.die u.pen u.arr).offline = true := by
  unfold checkFails
  rw [(arrayOffline_arraysKept ..).getCtl]
  exact arrayStops_offline ..

/-- Settles O14, one lemma for each of the commands. -/
theorem arrayModesFreezesAndFaults : Obligations.ArrayModesFreezesAndFaults := by
  unfold Obligations.ArrayModesFreezesAndFaults
  intro d p a s hd hp ha
  refine ⟨?request, ?switch, ?freeze, ?release, ?fault, ?check⟩
  case request =>
    exact fun src q h he => ⟨_, exec_mxaCfgWrite hd hp ha h he q, fbit_fputb_same _ _ _ rfl, rfl, rfl, rfl⟩
  case switch =>
    intro hidle hl hf
    have h := modeSwitch_switched hd hp ha hidle hl hf
    exact ⟨_, exec_quarterModeSwitch hd hp ha, h.quarter,
      fun u hu => ⟨(h.kept u).1.trans (hidle u hu), (h.kept u).2⟩, h.others, h.regs, h.mem⟩
  case freeze =>
    exact ⟨_, exec_arrayFreeze hd hp ha, congrArg ArrCtl.frozen (getCtl_putCtl_same ..), rfl, rfl, rfl⟩
  case release =>
    intro n h
    have hcounts := unfrozen_counts s d p a n
    refine ⟨_, exec_arrayFreezeRelease hd hp ha n h, ?_, hcounts.keeps_arrs, hcounts.keeps_mem,
      fun hfz => counter_unfrozen n hd hp ha hfz⟩
    exact congrArg ArrCtl.frozen ((hcounts.arraysKept.getCtl ..).trans (getCtl_putCtl_same ..))
  case fault =>
    rintro u cause shared hu rfl rfl rfl he ho hc h1 h4
    exact ⟨_, exec_arrayFault hu he ho hc h1 h4 shared, rfl, arrayFault_checking ..⟩
  case check =>
    rintro u hu rfl rfl rfl hc hs
    refine ⟨⟨_, exec_arraySelfCheckEnd_passed hu hc hs, ?_, rfl, rfl⟩, _, exec_arraySelfCheckEnd_failed hu hc hs,
      checkFails_offline ..⟩
    exact congrArg ArrCtl.checking (getCtl_putCtl_same ..)

end Sys2Proof.Machine
end

section
/-! Fields of a page and the stores' ports after a write: facts for the clears, the folds and the ports' cycles. -/

namespace Sys2Proof.Machine

open Sys2Proof

/-! ## Fields after a write -/

theorem fget_fput_ne (s : State) (page : Nat) {f f' : Field} (v : Nat)
    (h : f.lo < 32 ∧ f'.lo < 32 ∧ (f.off / 4 ≠ f'.off / 4 ∨ f.lo ≠ f'.lo)) :
    fget (fput s page f v) page f' = fget s page f' := by
  obtain ⟨hl, hl', hne⟩ := h
  exact fgeti_fputi_ne s v (fieldKey_word hl hl' (by rwa [Nat.zero_mul, Nat.zero_mul]))

theorem fbit_fput_ne (s : State) (page : Nat) {f f' : Field} (v : Nat)
    (h : f.lo < 32 ∧ f'.lo < 32 ∧ (f.off / 4 ≠ f'.off / 4 ∨ f.lo ≠ f'.lo)) :
    fbit (fput s page f v) page f' = fbit s page f' := by
  rw [fbit, fget_fput_ne s page v h, fbit]

theorem PageSame.fget {p : Nat} {s t : State} (h : PageSame p s t) {f : Field} (hf : f.off < 4096 ∧ f.lo < 32) :
    fget t p f = Machine.fget s p f := h.fgeti f 0 (by rwa [Nat.zero_mul])

theorem PageSame.fbit {p : Nat} {s t : State} (h : PageSame p s t) {f : Field} (hf : f.off < 4096 ∧ f.lo < 32) :
    fbit t p f = Machine.fbit s p f := congrArg (· == 1) (h.fget hf)

theorem PageSame.of_regs {p : Nat} {s t : State} (h : t.regs = s.regs) : PageSame p s t := ⟨fun _ _ => by rw [h]⟩

theorem fput_pageSame {p page : Nat} (s : State) {f : Field} (v : Nat) (h : page ≠ p) (hf : f.off < 4096 ∧ f.lo < 32) :
    PageSame p s (fput s page f v) := fputi_pageSame s v h (by rwa [Nat.zero_mul])

theorem pgSPAD_ne {d e : Nat} (h : d ≠ e) : pgSPAD d ≠ pgSPAD e := by
  unfold pgSPAD pageOf
  omega

/-- What one of the elements brings about and the others leave alone holds after all of them. -/
theorem foldl_of_mem {α β : Type} {g : β → α → β} {P : β → Prop} {l : List α} {a : α} (ha : a ∈ l) (hset : ∀ b, P (g b a))
    (hkeep : ∀ b, ∀ x ∈ l, x ≠ a → P b → P (g b x)) (b : β) : P (l.foldl g b) := by
  classical
  have hall (b : β) (m : List α) (hm : ∀ x ∈ m, x ∈ l) (hb : P b) : P (m.foldl g b) :=
    List.foldlRecOn (motive := P) m g hb fun b hb x hx =>
      if hxa : x = a then hxa ▸ hset b else hkeep b x (hm x hx) hxa hb
  obtain ⟨l₁, l₂, rfl⟩ := List.append_of_mem ha
  rw [List.foldl_append, List.foldl_cons]
  exact hall _ l₂ (fun x hx => List.mem_append_right _ (List.mem_cons_of_mem _ hx)) (hset _)

/-! ## The stores' ports -/

theorem getSpad_putSpad (s : State) (d e st st' : Nat) (x : SpadSt) :
    getSpad (putSpad s d st x) e st' = if spadKey d st = spadKey e st' then x else getSpad s e st' := mgetD_mput ..

theorem getSpad_congr {s t : State} (h : t.spads = s.spads) (d st : Nat) : getSpad t d st = getSpad s d st := by
  unfold getSpad
  rw [h]

@[simp] theorem putSpad_mem (s : State) (d st : Nat) (x : SpadSt) : (putSpad s d st x).mem = s.mem := rfl

end Sys2Proof.Machine
end

section
/-! What the clearing of memory ranges and of a die's stores leaves (R178), and the wipe of the keep regions (R180): the
obligation O28. -/

namespace Sys2Proof.Machine

open Sys2Proof

/-! ## A zeroed range -/

/-- What is left of an undefined range outside [lo, hi). -/
def undefOutside (lo hi : Nat) (u : Nat × Nat × Nat) : List (Nat × Nat × Nat) :=
  (if u.1 < min u.2.1 lo then [(u.1, min u.2.1 lo, u.2.2)] else []) ++
    (if max u.1 hi < u.2.1 then [(max u.1 hi, u.2.1, u.2.2)] else [])

theorem undefTag_append (us vs : List (Nat × Nat × Nat)) (a : Nat) :
    undefTag (us ++ vs) a = (undefTag us a).or (undefTag vs a) := by
  unfold undefTag
  rw [List.find?_append]
  cases List.find? _ us <;> rfl

theorem undefTag_singleton (l r tag a : Nat) : undefTag [(l, r, tag)] a = if l ≤ a ∧ a < r then some tag else none := by
  by_cases h : l ≤ a ∧ a < r <;> simp [undefTag, h]

theorem undefTag_undefOutside (lo hi : Nat) (u : Nat × Nat × Nat) (a : Nat) :
    undefTag (undefOutside lo hi u) a = if lo ≤ a ∧ a < hi then none else undefTag [u] a := by
  obtain ⟨l, r, tag⟩ := u
  have hpart (x y : Nat) : undefTag (if x < y then [(x, y, tag)] else []) a = if x ≤ a ∧ a < y then some tag else none := by
    split
    · exact undefTag_singleton ..
    · rw [if_neg (by omega)]
      rfl
  rw [undefOutside, undefTag_append]
  dsimp only
  rw [hpart, hpart, undefTag_singleton]
  by_cases hin : l ≤ a ∧ a < r
  · rw [if_pos hin]
    rcases Nat.lt_or_ge a lo with h | h
    · rw [if_pos (by omega), Option.some_or, if_neg (by omega)]
    · rw [if_neg (by omega), Option.none_or]
      by_cases h' : hi ≤ a
      · rw [if_pos (by omega), if_neg (by omega)]
      · rw [if_neg (by omega), if_pos (by omega)]
  · rw [if_neg hin, if_neg (by omega), if_neg (by omega), Option.none_or, ite_self]

theorem undefTag_flatMap_undefOutside (lo hi : Nat) (us : List (Nat × Nat × Nat)) (a : Nat) :
    undefTag (us.flatMap (undefOutside lo hi)) a = if lo ≤ a ∧ a < hi then none else undefTag us a := by
  induction us with
  | nil => exact (ite_self _).symm
  | cons u us ih =>
    rw [List.flatMap_cons, undefTag_append, undefTag_undefOutside, ih]
    split
    · rfl
    · exact (undefTag_append [u] us a).symm

/-- A zeroed range reads 0, and every other byte as before. -/
theorem readByte_zeroRange (s : State) (lo hi a : Nat) :
    readByte (zeroRange s lo hi) a = if lo ≤ a ∧ a < hi then 0 else readByte s a := by
  have hm : mget (zeroRange s lo hi).mem a = if lo ≤ a ∧ a < hi then none else mget s.mem a := by
    refine (mget_mkeep s.mem (fun a => a < lo || hi ≤ a) a).trans ?_
    by_cases h : lo ≤ a ∧ a < hi
    · rw [if_pos h, if_neg (by simp; omega)]
    · rw [if_neg h, if_pos (by simp; omega)]
  have hu : undefTag (zeroRange s lo hi).undefs a = if lo ≤ a ∧ a < hi then none else undefTag s.undefs a :=
    undefTag_flatMap_undefOutside lo hi s.undefs a
  unfold readByte blankByte
  rw [hm, hu]
  split <;> rfl

/-! ## The clear of a die's stores -/

theorem readByte_clearAperture (s : State) (d lo hi a : Nat) :
    readByte (clearAperture s d lo hi) a =
      if spadBase + d * 0x8000000 + lo ≤ a ∧ a < spadBase + d * 0x8000000 + hi then 0 else readByte s a :=
  readByte_zeroRange ..

theorem clearAperture_sameOutside (s : State) (d lo : Nat) {hi : Nat} (hhi : hi ≤ spadBytes) :
    SameOutside s (clearAperture s d lo hi) (spadBase + d * 0x8000000) spadBytes := fun a ha => by
  rw [readByte_clearAperture, if_neg (by omega)]

/-- The state in which a clear has begun: the die's stores are busy, and their ports hold nothing but what the keep region
keeps. -/
def clearBegun (s : State) (d : Nat) (keep : Bool) : State :=
  { fput s (pgSPAD d) F.SPAD_STS_INIT_BUSY 1 with
    spads := (List.range 82).foldl (fun m st =>
      mput m (spadKey d st) (clearPort (st == 81 && keep) (mgetD m (spadKey d st) {}))) s.spads }

theorem readByte_clearBegun (s : State) (d : Nat) (keep : Bool) (a : Nat) : readByte (clearBegun s d keep) a = readByte s a :=
  readByte_congr rfl rfl a

theorem storeClear_whole (s : State) (d : Nat) {cause : ClearCause} (h : cause = .packageReset ∨ cause = .powerUp) :
    storeClear s d cause = clearAperture (clearBegun s d false) d 0 spadBytes := by
  rcases h with rfl | rfl <;> rfl

theorem storeClear_part (s : State) (d : Nat) {cause : ClearCause} (h : cause = .foldReset ∨ cause = .foldChange) :
    storeClear s d cause = clearAperture (clearAperture (clearBegun s d true) d 0 0x7BC0000) d 0x7C00000 spadBytes := by
  rcases h with rfl | rfl <;> rfl

section
variable (s : State) (d : Nat) (cause : ClearCause)

theorem storeClear_regs : (storeClear s d cause).regs = (fput s (pgSPAD d) F.SPAD_STS_INIT_BUSY 1).regs := by
  cases cause <;> rfl

theorem storeClear_initBusy : fbit (storeClear s d cause) (pgSPAD d) F.SPAD_STS_INIT_BUSY = true :=
  ((PageSame.of_regs (storeClear_regs s d cause)).fbit (by decide)).trans (fbit_fputb_same s _ true rfl)

/-- A clear writes no page but its die's. -/
theorem storeClear_pageSame {p : Nat} (h : pgSPAD d ≠ p) : PageSame p s (storeClear s d cause) :=
  (fput_pageSame s 1 h (by decide)).trans (.of_regs (storeClear_regs s d cause))

theorem storeClear_sameOutside : SameOutside s (storeClear s d cause) (spadBase + d * 0x8000000) spadBytes := fun a ha => by
  have hwhole (h : cause = .packageReset ∨ cause = .powerUp) : readByte (storeClear s d cause) a = readByte s a := by
    rw [storeClear_whole s d h, clearAperture_sameOutside _ _ _ (by decide) a ha, readByte_clearBegun]
  have hpart (h : cause = .foldReset ∨ cause = .foldChange) : readByte (storeClear s d cause) a = readByte s a := by
    rw [storeClear_part s d h, clearAperture_sameOutside _ _ _ (by decide) a ha,
      clearAperture_sameOutside _ _ _ (by decide) a ha, readByte_clearBegun]
  cases cause with
  | powerUp => exact hwhole (.inr rfl)
  | packageReset => exact hwhole (.inl rfl)
  | foldReset => exact hpart (.inl rfl)
  | foldChange => exact hpart (.inr rfl)

end

theorem readByte_storeClear_whole (s : State) (d : Nat) {cause : ClearCause} (h : cause = .packageReset ∨ cause = .powerUp)
    {o : Nat} (ho : o < spadBytes) : readByte (storeClear s d cause) (spadBase + d * 0x8000000 + o) = 0 := by
  rw [storeClear_whole s d h, readByte_clearAperture, if_pos (by omega)]

theorem readByte_storeClear_part (s : State) (d : Nat) {cause : ClearCause} (h : cause = .foldReset ∨ cause = .foldChange)
    {o : Nat} (ho : o < 0x7C00000) : readByte (storeClear s d cause) (spadBase + d * 0x8000000 + o) =
      if o < 0x7BC0000 then 0 else readByte s (spadBase + d * 0x8000000 + o) := by
  rw [storeClear_part s d h, readByte_clearAperture, if_neg (by omega),
    readByte_clearAperture, readByte_clearBegun]
  exact if_congr (by omega) rfl rfl

/-! ## The end of a clear -/

theorem foldActivate_counts (s : State) (f : Nat) : Counts s (foldActivate s f) := by
  unfold foldActivate
  dsimp only
  split
  · exact counts_fput ..
  · exact .refl s

theorem foldActivate_pageSame (s : State) {f p : Nat} (h : pgFOLD f ≠ p) : PageSame p s (foldActivate s f) := by
  unfold foldActivate
  dsimp only
  split
  · exact fput_pageSame s 1 h (by decide)
  · exact .refl p s

theorem pgFOLD_ne_pgSPAD {d : Nat} (hd : d < 16) (f : Nat) : pgFOLD f ≠ pgSPAD d := by
  unfold pgFOLD pgSPAD pageOf
  omega

theorem storeClearDone_answers (s : State) {d : Nat} (hd : d < 16) : Answers (.storeClearDone d) s fun t =>
    fbit t (pgSPAD d) F.SPAD_STS_INIT_BUSY = false ∧ t.mem = s.mem := by
  have hpage : PageSame (pgSPAD d) (fput s (pgSPAD d) F.SPAD_STS_INIT_BUSY 0)
      ((List.range 16).foldl foldActivate (fput s (pgSPAD d) F.SPAD_STS_INIT_BUSY 0)) :=
    foldl_pageSame (fun s f _ => foldActivate_pageSame s (pgFOLD_ne_pgSPAD hd f)) _
  refine ⟨_, congrArg Host.Outcome.next (if_pos hd), ?_, (foldl_counts foldActivate_counts ..).keeps_mem⟩
  exact (hpage.fbit (by decide)).trans (fbit_fputb_same s _ false rfl)

/-! ## The wipe of the keep regions -/

/-- A locked access in its first cycle at a die store completes, before a wipe begins (R180). -/
def lockedEnded (s : State) (d : Nat) : State :=
  match (getSpad s d 81).locked with
  | some r =>
    let s := putSpad s d 81 { getSpad s d 81 with locked := none }
    if r.who == .scrub then scrubEnd s d 81 r else spadReqWrite s d 81 r (r.write.getD [])
  | none => s

/-- The state in which the wipe of a die's keep region has begun: its lines have fresh check bits. -/
def wipeBegun (cause : Nat) (s : State) (d : Nat) : State :=
  let s := putSpad s d 81 { getSpad s d 81 with flaws := (getSpad s d 81).flaws.filter fun p => !inKeep (p.1 * 8) 8 }
  let s := fput (fput s (pgSPAD d) F.SPAD_STS_KEEP_WIPING 1) (pgSPAD d) F.SPAD_STS_WIPE_CAUSE cause
  fput s (pgSPAD d) F.SPAD_STS_WIPE_COUNT (min (fget s (pgSPAD d) F.SPAD_STS_WIPE_COUNT + 1) 0xFF)

/-- The wipe of one die's keep region. -/
def wipeDie (cause : Nat) (s : State) (d : Nat) : State := clearAperture (wipeBegun cause s d) d 0x7BC0000 0x7C00000

theorem keepWipe_eq (s : State) (cause : Nat) : keepWipe s cause =
    ((List.range 16).filter (dieRailUp s)).foldl (fun s d => wipeDie cause (lockedEnded s d) d) s := rfl

theorem lockedEnded_of_none {s : State} {d : Nat} (h : (getSpad s d 81).locked = none) : lockedEnded s d = s := by
  unfold lockedEnded
  rw [h]

/-- No locked access is in its first cycle at a die store. -/
def Unlocked (s : State) : Prop := ∀ e, e < 16 → (getSpad s e 81).locked = none

theorem unlocked_wipeDie {s : State} (h : Unlocked s) (cause : Nat) {d : Nat} (hd : d < 16) :
    Unlocked (wipeDie cause s d) := by
  intro e he
  have hs : getSpad (wipeDie cause s d) e 81 = getSpad (putSpad s d 81
      { getSpad s d 81 with flaws := (getSpad s d 81).flaws.filter fun p => !inKeep (p.1 * 8) 8 }) e 81 := getSpad_congr rfl ..
  rw [hs, getSpad_putSpad]
  split
  · exact h d hd
  · exact h e he

/-- Where no locked access waits, a wipe is one of each die whose rail is up. -/
theorem keepWipe_unlocked {s : State} (h : Unlocked s) (cause : Nat) :
    keepWipe s cause = ((List.range 16).filter (dieRailUp s)).foldl (wipeDie cause) s := by
  have hl : ∀ e ∈ (List.range 16).filter (dieRailUp s), e < 16 := fun e he => List.mem_range.1 (List.mem_of_mem_filter he)
  rw [keepWipe_eq]
  generalize (List.range 16).filter (dieRailUp s) = l at hl
  induction l generalizing s with
  | nil => rfl
  | cons d l ih =>
    have hd : d < 16 := hl d (List.mem_cons_self ..)
    rw [List.foldl_cons, List.foldl_cons, lockedEnded_of_none (h d hd)]
    exact ih (unlocked_wipeDie h cause hd) fun e he => hl e (List.mem_cons_of_mem _ he)

/-- A die's keep region is being wiped, for a cause, and reads 0. -/
structure KeepWiped (cause d : Nat) (t : State) : Prop where
  wiping : fbit t (pgSPAD d) F.SPAD_STS_KEEP_WIPING = true
  cause : fget t (pgSPAD d) F.SPAD_STS_WIPE_CAUSE = cause
  zero : ∀ o, 0x7BC0000 ≤ o → o < 0x7C00000 → readByte t (spadBase + d * 0x8000000 + o) = 0

theorem readByte_wipeDie (cause : Nat) (s : State) (d a : Nat) : readByte (wipeDie cause s d) a =
    if spadBase + d * 0x8000000 + 0x7BC0000 ≤ a ∧ a < spadBase + d * 0x8000000 + 0x7C00000 then 0 else readByte s a := by
  exact (readByte_clearAperture ..).trans (if_congr Iff.rfl rfl (readByte_congr rfl rfl a))

theorem keepWiped_wipeDie {cause : Nat} (hc : cause < 4) (s : State) (d : Nat) : KeepWiped cause d (wipeDie cause s d) where
  wiping := by
    refine (fbit_fput_ne _ _ _ (by decide)).trans ((fbit_fput_ne _ _ _ (by decide)).trans ?_)
    exact fbit_fputb_same _ _ true rfl
  cause := by
    refine (fget_fput_ne _ _ _ (by decide)).trans ((fget_fput_same _ _ _ _ (by decide)).trans ?_)
    exact Nat.mod_eq_of_lt hc
  zero o h1 h2 := by rw [readByte_wipeDie, if_pos (by omega)]

theorem wipeDie_pageSame (cause : Nat) (s : State) {d p : Nat} (h : pgSPAD d ≠ p) : PageSame p s (wipeDie cause s d) := by
  have hput (t : State) {f : Field} (v : Nat) (hf : f.off < 4096 ∧ f.lo < 32) : PageSame p t (fput t (pgSPAD d) f v) :=
    fput_pageSame t v h hf
  refine PageSame.trans (t := wipeBegun cause s d) ?_ (.of_regs rfl)
  unfold wipeBegun
  refine PageSame.trans ?_ (hput _ _ (by decide))
  refine PageSame.trans ?_ (hput _ _ (by decide))
  refine PageSame.trans ?_ (hput _ _ (by decide))
  exact .of_regs rfl

/-- The wipe of another die writes neither this die's page nor its keep region. -/
theorem KeepWiped.wipeDie {cause c d e : Nat} {s : State} (h : KeepWiped cause d s) (hne : e ≠ d) :
    KeepWiped cause d (wipeDie c s e) := by
  have hpage : PageSame (pgSPAD d) s (Machine.wipeDie c s e) := wipeDie_pageSame c s (pgSPAD_ne hne)
  refine ⟨(hpage.fbit (by decide)).trans h.wiping, (hpage.fget (by decide)).trans h.cause, fun o h1 h2 => ?_⟩
  rw [readByte_wipeDie, if_neg (by omega), h.zero o h1 h2]

section
variable {s : State} (h : Unlocked s)
include h

theorem keepWiped_keepWipe {cause d : Nat} (hc : cause < 4) (hd : d < 16) (hr : dieRailUp s d = true) :
    KeepWiped cause d (keepWipe s cause) := by
  rw [keepWipe_unlocked h]
  exact foldl_of_mem (List.mem_filter.2 ⟨List.mem_range.2 hd, hr⟩) (fun t => keepWiped_wipeDie hc t d)
    (fun t e _ hne hw => hw.wipeDie hne) s

theorem readByte_keepWipe_out (cause : Nat) {a : Nat} (ha : a < spadBase ∨ spadBase + 0x80000000 ≤ a) :
    readByte (keepWipe s cause) a = readByte s a := by
  rw [keepWipe_unlocked h]
  refine List.foldlRecOn (motive := fun t => readByte t a = readByte s a) _ _ rfl fun t ht e he => ?_
  have := List.mem_range.1 (List.mem_of_mem_filter he)
  rw [readByte_wipeDie, if_neg (by omega), ht]

end

theorem keepWipeDone_answers (s : State) {d : Nat} (hd : d < 16) : Answers (.keepWipeDone d) s fun t =>
    fbit t (pgSPAD d) F.SPAD_STS_KEEP_WIPING = false ∧ t.mem = s.mem := by
  refine ⟨_, rfl, ?_⟩
  by_cases hw : fbit s (pgSPAD d) F.SPAD_STS_KEEP_WIPING = true
  · rw [if_pos ⟨hd, hw⟩]
    refine ⟨?_, (bumpBy_counts ..).keeps_mem⟩
    exact (congrArg (· == 1) (fgeti_bumpBy _ _ _ 0 (by decide) ..)).trans (fbit_fputb_same s _ false rfl)
  · rw [if_neg fun k => hw k.2]
    exact ⟨by simpa using hw, rfl⟩

/-- Settles O28: a clear of all the stores and one that spares the keep region, its end, the wipe and its end. -/
theorem storesClearAndKeepRegionsWipe : Obligations.StoresClearAndKeepRegionsWipe := by
  unfold Obligations.StoresClearAndKeepRegionsWipe
  intro d s hd
  have hexec (cause : ClearCause) : exec (.storeClear d cause) s = .next (storeClear s d cause) :=
    congrArg Host.Outcome.next (if_pos hd)
  refine ⟨?whole, ?part, storeClearDone_answers s hd, ?wipe, keepWipeDone_answers s hd⟩
  case whole =>
    exact fun cause h => ⟨_, hexec cause, storeClear_initBusy .., fun o ho => readByte_storeClear_whole s d h ho,
      storeClear_sameOutside s d cause⟩
  case part =>
    refine fun cause h => ⟨_, hexec cause, storeClear_initBusy .., fun o ho => ?_, fun o h1 h2 => ?_,
      storeClear_sameOutside s d cause⟩
    · rw [readByte_storeClear_part s d h (by omega), if_pos ho]
    · rw [readByte_storeClear_part s d h h2, if_neg (by omega)]
  case wipe =>
    intro cause hr h
    have hc : (match cause with | .tamper => 1 | .lifeCycle => 2) < 4 := by cases cause <;> decide
    obtain ⟨hwiping, hcause, hzero⟩ := keepWiped_keepWipe h hc hd hr
    exact ⟨_, rfl, hwiping, hcause, hzero, fun a ha => readByte_keepWipe_out h _ ha⟩

end Sys2Proof.Machine
end

section
/-! Enabling and disabling folds and contexts (R178, R239, R241): the obligation O35. That a context's enable takes effect in
an active fold is the model's reading of R241 (log 115). -/

namespace Sys2Proof.Machine

open Sys2Proof

/-! ## Enabling a fold -/

/-- The causes of a refused enable fit their field. -/
theorem foldCheck_lt {s : State} {f cause : Nat} (h : foldCheck s f = some cause) : cause < 8 := by
  unfold foldCheck at h
  dsimp only at h
  split_ifs at h <;> cases h <;> decide

/-- The state in which an accepted fold's dies have begun to clear. -/
def foldClearing (s : State) (f : Nat) : State :=
  (setBitsOf 16 (fget s (pgFOLD f) F.FOLD_DIES_DIES)).foldl (fun t d => storeClear t d .foldChange)
    (fput s (pgFOLD f) F.FOLD_CTL_ENABLE 1)

theorem mem_setBitsOf {n x i : Nat} : i ∈ setBitsOf n x ↔ i < n ∧ x.testBit i = true := by
  rw [setBitsOf, List.mem_filter, List.mem_range]

theorem foldEnable_accepted {s : State} {f : Nat} (he : foldEnabled s f = false) (hc : foldCheck s f = none) :
    foldEnable s f = foldActivate (foldClearing s f) f := by
  have hd : fget (fput s (pgFOLD f) F.FOLD_CTL_ENABLE 1) (pgFOLD f) F.FOLD_DIES_DIES = fget s (pgFOLD f) F.FOLD_DIES_DIES :=
    fget_fput_ne _ _ _ (by decide)
  unfold foldEnable
  rw [if_neg (by rw [he]; decide), hc]
  dsimp only
  rw [hd]
  rfl

theorem foldEnable_refused {s : State} {f cause : Nat} (he : foldEnabled s f = false) (hc : foldCheck s f = some cause) :
    foldEnable s f = foldRefuse s f cause := by
  unfold foldEnable
  rw [if_neg (by rw [he]; decide), hc]

section
variable (s : State) (f : Nat)

/-- The clearing of the dies leaves the fold's own page as the enable left it. -/
theorem foldClearing_pageSame : PageSame (pgFOLD f) (fput s (pgFOLD f) F.FOLD_CTL_ENABLE 1) (foldClearing s f) :=
  foldl_pageSame (fun t _ hd => storeClear_pageSame t _ _ (pgFOLD_ne_pgSPAD (mem_setBitsOf.1 hd).1 f).symm) _

theorem foldEnabled_foldClearing : foldEnabled (foldClearing s f) f = true :=
  ((foldClearing_pageSame s f).fbit (by decide)).trans (fbit_fputb_same s _ true rfl)

theorem foldActive_foldClearing : foldActive (foldClearing s f) f = foldActive s f :=
  ((foldClearing_pageSame s f).fbit (by decide)).trans (fbit_fput_ne _ _ _ (by decide))

theorem fget_dies_foldClearing : fget (foldClearing s f) (pgFOLD f) F.FOLD_DIES_DIES = fget s (pgFOLD f) F.FOLD_DIES_DIES :=
  ((foldClearing_pageSame s f).fget (by decide)).trans (fget_fput_ne _ _ _ (by decide))

theorem initBusy_foldClearing {d : Nat} (hd : d ∈ setBitsOf 16 (fget s (pgFOLD f) F.FOLD_DIES_DIES)) :
    fbit (foldClearing s f) (pgSPAD d) F.SPAD_STS_INIT_BUSY = true :=
  foldl_of_mem (P := fun t => fbit t (pgSPAD d) F.SPAD_STS_INIT_BUSY = true) hd (fun t => storeClear_initBusy t d _)
    (fun t _ _ hne ht => ((storeClear_pageSame t _ _ (pgSPAD_ne hne)).fbit (by decide)).trans ht) _

theorem readByte_foldClearing_out {a : Nat} (ha : a < spadBase ∨ spadBase + 0x80000000 ≤ a) :
    readByte (foldClearing s f) a = readByte s a := by
  refine List.foldlRecOn (motive := fun t => readByte t a = readByte s a) _ _ (readByte_congr rfl rfl a) fun t ht d hd => ?_
  have hlt := (mem_setBitsOf.1 hd).1
  have hout : a < spadBase + d * 0x8000000 ∨ spadBase + d * 0x8000000 + spadBytes ≤ a := by
    have : spadBytes = 0x7C00000 := rfl
    omega
  rw [storeClear_sameOutside t d _ a hout, ht]

end

theorem foldEnabled_foldActivate (s : State) (f : Nat) : foldEnabled (foldActivate s f) f = foldEnabled s f := by
  unfold foldActivate
  dsimp only
  split
  · exact fbit_fput_ne _ _ _ (by decide)
  · rfl

/-- A fold with a die that is being cleared does not become active. -/
theorem foldActivate_of_busy {s : State} {f d : Nat} (hd : d ∈ setBitsOf 16 (fget s (pgFOLD f) F.FOLD_DIES_DIES))
    (hb : fbit s (pgSPAD d) F.SPAD_STS_INIT_BUSY = true) : foldActivate s f = s := by
  unfold foldActivate
  refine if_neg fun h => ?_
  rw [Bool.and_eq_true, List.all_eq_true] at h
  have := h.2 d hd
  rw [hb] at this
  exact absurd this (by decide)

/-- A fold with dies has one of the sixteen. -/
theorem exists_mem_dies {s : State} {f : Nat} (h : fget s (pgFOLD f) F.FOLD_DIES_DIES ≠ 0) :
    ∃ d, d ∈ setBitsOf 16 (fget s (pgFOLD f) F.FOLD_DIES_DIES) := by
  obtain ⟨d, hd⟩ := Nat.exists_testBit_of_ne_zero h
  have hlt : fget s (pgFOLD f) F.FOLD_DIES_DIES < 2 ^ 16 := fgeti_lt s _ F.FOLD_DIES_DIES 0 (by decide)
  refine ⟨d, mem_setBitsOf.2 ⟨?_, hd⟩⟩
  by_contra hge
  rw [Nat.testBit_lt_two_pow (hlt.trans_le (Nat.pow_le_pow_right (by decide) (by omega)))] at hd
  cases hd

/-! ## Refusals -/

section
variable (s : State) (f : Nat) {cause : Nat} (hc : cause < 8)

theorem foldEnabled_foldRefuse (cause : Nat) : foldEnabled (foldRefuse s f cause) f = foldEnabled s f :=
  (fbit_fput_ne _ _ _ (by decide)).trans (fbit_fput_ne _ _ _ (by decide))

theorem cfgErr_foldRefuse (cause : Nat) : fbit (foldRefuse s f cause) (pgFOLD f) F.FOLD_STS_CFG_ERR = true :=
  (fbit_fput_ne _ _ _ (by decide)).trans (fbit_fputb_same s _ true rfl)

include hc in
theorem cfgCause_foldRefuse : fget (foldRefuse s f cause) (pgFOLD f) F.FOLD_STS_CFG_CAUSE = cause :=
  (fget_fput_same _ _ _ _ (by decide)).trans (Nat.mod_eq_of_lt hc)

end

/-! ## Contexts -/

theorem contextEnable_active {s : State} {c f : Nat} (hf : ctxFold s c = some f) (ha : foldActive s f = true) :
    contextEnable s c = fput s (pgCTX c) F.CTX_CFG_ENABLE 1 := by
  unfold contextEnable
  rw [hf]
  exact if_pos ha

theorem contextEnable_inactive {s : State} {c : Nat} (h : ∀ f, ctxFold s c = some f → foldActive s f = false) :
    contextEnable s c = segErr s c 0 5 := by
  unfold contextEnable
  cases hf : ctxFold s c with
  | none => rfl
  | some f => exact if_neg (Bool.eq_false_iff.1 (h f hf))

/-- A context's first segment error is recorded, and nothing but its page's record and header changes. -/
theorem segErr_records {s : State} {c seg cause : Nat} (hv : fbit s (pgCTX c) F.CTX_SEGERR_VALID = false) (hc : cause < 8) :
    fbit (segErr s c seg cause) (pgCTX c) F.CTX_CFG_ENABLE = fbit s (pgCTX c) F.CTX_CFG_ENABLE ∧
      fbit (segErr s c seg cause) (pgCTX c) F.CTX_SEGERR_VALID = true ∧
      fget (segErr s c seg cause) (pgCTX c) F.CTX_SEGERR_CAUSE = cause ∧ (segErr s c seg cause).mem = s.mem := by
  have he : segErr s c seg cause = setLogged (fput (fput (fput s (pgCTX c) F.CTX_SEGERR_VALID 1) (pgCTX c)
      F.CTX_SEGERR_SEG seg) (pgCTX c) F.CTX_SEGERR_CAUSE cause) (pgCTX c) := if_neg (by rw [hv]; decide)
  have hget (t : State) {g : Field} (hg : 256 ≤ g.off + 0 * g.stride ∧ g.off + 0 * g.stride < 4096 ∧ g.lo < 32) :
      fget (setLogged t (pgCTX c)) (pgCTX c) g = fget t (pgCTX c) g := fgeti_setErr t (pgCTX c) g 0 hg ..
  have hbit (t : State) {g : Field} (hg : 256 ≤ g.off + 0 * g.stride ∧ g.off + 0 * g.stride < 4096 ∧ g.lo < 32) :
      fbit (setLogged t (pgCTX c)) (pgCTX c) g = fbit t (pgCTX c) g := congrArg (· == 1) (hget t hg)
  rw [he]
  refine ⟨?enable, ?valid, ?cause, (setLogged_counts ..).keeps_mem⟩
  case enable =>
    rw [hbit _ (by decide), fbit_fput_ne _ _ _ (by decide), fbit_fput_ne _ _ _ (by decide), fbit_fput_ne _ _ _ (by decide)]
  case valid =>
    rw [hbit _ (by decide), fbit_fput_ne _ _ _ (by decide), fbit_fput_ne _ _ _ (by decide)]
    exact fbit_fputb_same s _ true rfl
  case cause =>
    rw [hget _ (by decide), fget_fput_same _ _ _ _ (by decide)]
    exact Nat.mod_eq_of_lt hc

/-! ## The commands -/

section
variable {s : State} {src : Src} (h : Rules s src)
include h

theorem exec_foldEnable {f : Nat} (hf : f < 16) : exec (.foldEnable src f) s = .next (foldEnable s f) :=
  congrArg Host.Outcome.next ((if_pos hf).trans (withSys_of_rules h _))

theorem exec_foldDisable {f : Nat} (hf : f < 16) : exec (.foldDisable src f) s = .next (foldDisable s f) :=
  congrArg Host.Outcome.next ((if_pos hf).trans (withSys_of_rules h _))

theorem exec_contextEnable {c : Nat} (hc : c < 512) : exec (.contextEnable src c) s = .next (contextEnable s c) :=
  congrArg Host.Outcome.next ((if_pos hc).trans (withPage_of_rules h _ _))

theorem exec_contextDisable {c : Nat} (hc : c < 512) :
    exec (.contextDisable src c) s = .next (fput s (pgCTX c) F.CTX_CFG_ENABLE 0) :=
  congrArg Host.Outcome.next ((if_pos hc).trans (withPage_of_rules h _ _))

end

/-- Settles O35: a fold's enable accepted and refused, its disable the same, a context's enable in an active fold and
elsewhere, and a context's disable. -/
theorem foldsAndContextsEnable : Obligations.FoldsAndContextsEnable := by
  unfold Obligations.FoldsAndContextsEnable
  intro src s h
  refine ⟨fun f hf he => ⟨?accepted, ?refused⟩, ?disabled, ?inUse, ?active, ?inactive, ?ended⟩
  case accepted =>
    intro hc
    refine ⟨_, (exec_foldEnable h hf).trans (congrArg _ (foldEnable_accepted he hc)), ?_, ?_, ?_, ?_⟩
    · exact (foldEnabled_foldActivate ..).trans (foldEnabled_foldClearing s f)
    · intro d hd hbit
      exact ((foldActivate_pageSame _ (pgFOLD_ne_pgSPAD hd f)).fbit (by decide)).trans
        (initBusy_foldClearing s f (mem_setBitsOf.2 ⟨hd, hbit⟩))
    · intro hdies
      obtain ⟨d, hd⟩ := exists_mem_dies hdies
      rw [foldActivate_of_busy (by rwa [fget_dies_foldClearing]) (initBusy_foldClearing s f hd)]
      exact foldActive_foldClearing s f
    · exact fun a ha => ((foldActivate_counts ..).sameData.readByte a).trans (readByte_foldClearing_out s f ha)
  case refused =>
    intro cause hc
    exact ⟨_, (exec_foldEnable h hf).trans (congrArg _ (foldEnable_refused he hc)), (foldEnabled_foldRefuse ..).trans he,
      cfgErr_foldRefuse .., cfgCause_foldRefuse s f (foldCheck_lt hc), rfl⟩
  case disabled =>
    intro f hf hu
    refine ⟨_, (exec_foldDisable h hf).trans (congrArg _ (if_neg (by rw [hu]; decide))), ?_,
      fbit_fputb_same _ _ false rfl, rfl⟩
    exact (fbit_fput_ne _ _ _ (by decide)).trans (fbit_fputb_same s _ false rfl)
  case inUse =>
    exact fun f hf hu => ⟨_, (exec_foldDisable h hf).trans (congrArg _ (if_pos hu)), foldEnabled_foldRefuse ..,
      cfgErr_foldRefuse .., cfgCause_foldRefuse s f (by decide), rfl⟩
  case active =>
    exact fun c f hc hf ha => ⟨_, (exec_contextEnable h hc).trans (congrArg _ (contextEnable_active hf ha)),
      fbit_fputb_same s _ true rfl, rfl⟩
  case inactive =>
    exact fun c hc hf hv => ⟨_, (exec_contextEnable h hc).trans (congrArg _ (contextEnable_inactive hf)),
      segErr_records hv (by decide)⟩
  case ended =>
    exact fun c hc => ⟨_, exec_contextDisable h hc, fbit_fputb_same s _ false rfl, rfl⟩

end Sys2Proof.Machine
end

section
/-! Accesses within one line of a store (R164, R173, R179): where stores lie, what leaves their ports but for the flaws that
they list, and reads. -/

namespace Sys2Proof.Machine

open Sys2Proof

/-! ## Stores and their ports -/

theorem storeAt_storeOff {st o : Nat} (hst : st < 82) (ho : o < storeSize st) : storeAt (storeOff st + o) = st := by
  unfold storeAt storeOff
  unfold storeSize at ho
  split_ifs at ho ⊢ <;> omega

theorem reqOff_end_le {st : Nat} {r : SpadReq} (hst : st < 82) (h : r.off + r.len ≤ storeSize st) :
    reqOff st r + r.len ≤ 0x7C00000 := by
  unfold reqOff storeOff
  unfold storeSize at h
  split_ifs at h ⊢ <;> omega

theorem reqOff_mod (st : Nat) (r : SpadReq) : reqOff st r % 256 = r.off % 256 := by
  unfold reqOff storeOff
  split_ifs <;> omega

/-- Of the stores' ports, `t` differs from `s` in the flaws listed at most. -/
structure FlawsOnly (s t : State) : Prop where
  port : ∀ e k, getSpad t e k = { getSpad s e k with flaws := (getSpad t e k).flaws }

theorem FlawsOnly.of_spads {s t : State} (h : t.spads = s.spads) : FlawsOnly s t := ⟨fun e k => by rw [getSpad_congr h]⟩

theorem FlawsOnly.trans {s t u : State} (h : FlawsOnly s t) (k : FlawsOnly t u) : FlawsOnly s u :=
  ⟨fun e i => by rw [k.port e i, h.port e i]⟩

theorem FlawsOnly.locked {s t : State} (h : FlawsOnly s t) (e k : Nat) : (getSpad t e k).locked = (getSpad s e k).locked := by
  rw [h.port]

theorem FlawsOnly.scrub {s t : State} (h : FlawsOnly s t) (e k : Nat) : (getSpad t e k).scrub = (getSpad s e k).scrub := by
  rw [h.port]

theorem Counts.flawsOnly {s t : State} (h : Counts s t) : FlawsOnly s t := .of_spads h.keeps_spads

theorem putSpad_flawsOnly (s : State) (d st : Nat) (fs : FMap Flaw) :
    FlawsOnly s (putSpad s d st { getSpad s d st with flaws := fs }) := by
  refine ⟨fun e k => ?_⟩
  rw [getSpad_putSpad]
  split
  · next h =>
    have : getSpad s d st = getSpad s e k := congrArg (mgetD s.spads · {}) h
    rw [this]
  · rfl

theorem FlawsOnly.ite {s t u : State} {c : Prop} [Decidable c] (h : FlawsOnly s t) (k : FlawsOnly s u) :
    FlawsOnly s (if c then t else u) := by
  split
  · exact h
  · exact k

theorem meetFlaw_flawsOnly (cls d st : Nat) (s : State) (p : Nat × Flaw) : FlawsOnly s (meetFlaw cls d st s p) := by
  unfold meetFlaw
  dsimp only
  split
  · exact ((bump_counts ..).trans (spadLog_counts ..)).flawsOnly
  · exact (putSpad_flawsOnly ..).trans ((bump_counts ..).trans (spadLog_counts ..)).flawsOnly

theorem foldl_meetFlaw_flawsOnly (cls d st : Nat) (fs : List (Nat × Flaw)) (s : State) :
    FlawsOnly s (fs.foldl (meetFlaw cls d st) s) :=
  List.foldlRecOn (motive := FlawsOnly s) _ _ (.of_spads rfl) fun _ h _ _ => h.trans (meetFlaw_flawsOnly ..)

/-! ## The pieces of a line -/

theorem linePieces_line {off n : Nat} (h0 : 1 ≤ n) (hl : off % 256 + n ≤ 256) : linePieces off n = [(off, n)] := by
  have hc : (off + n - 1) / 256 + 1 - off / 256 = 1 := by omega
  have h1 : max off (off / 256 * 256) = off := by omega
  have h2 : min (off + n) ((off / 256 + 1) * 256) - off = n := by omega
  simp [linePieces, hc, h1, h2, show n ≠ 0 by omega]

theorem portRead_line (s : State) (d cls : Nat) (secure : Bool) {off n : Nat} (h0 : 1 ≤ n) (hl : off % 256 + n ≤ 256) :
    portRead s d cls secure off n = lineRead s d cls secure off n := by
  simp [portRead, linePieces_line h0 hl]

theorem portWrite_line (s : State) (d cls : Nat) (secure : Bool) (view : Nat) {off : Nat} {bs : List Byte} (p : Bool)
    (h0 : 1 ≤ bs.length) (hl : off % 256 + bs.length ≤ 256) :
    portWrite s d cls secure view off bs p = lineStore s d cls secure view off bs p := by
  have hs : slice bs 0 bs.length = bs := by rw [slice_eq_take (by omega), List.drop_zero, List.take_length]
  simp [portWrite, linePieces_line h0 hl, hs]

/-! ## Reads of one line -/

theorem lineRead_sound {s : State} (d cls : Nat) (secure : Bool) {off n : Nat} (hk : inKeep off n = false)
    (hf : flawsIn (getSpad s d (storeAt off)) off n = []) (hp : poisonedIn s (aperPa d off) n = []) :
    lineRead s d cls secure off n = (bump s (pgSPAD d) 3, { data := readBytes s (aperPa d off) n }) := by
  have hb := bump_counts s (pgSPAD d) 3
  have hf' : flawsIn (getSpad (bump s (pgSPAD d) 3) d (storeAt off)) off n = [] := by
    rw [getSpad_congr hb.keeps_spads, hf]
  have hp' : poisonedIn (bump s (pgSPAD d) 3) (aperPa d off) n = [] := by
    rw [← hp, poisonedIn, poisonedIn, hb.keeps_poison]
  simp [lineRead, hk, hf', hp', hb.sameData.readBytes]

theorem lineRead_refused (s : State) (d : Nat) {cls : Nat} {secure : Bool} {off n : Nat} (hk : inKeep off n = true)
    (ha : keepAllows cls secure = false) : lineRead s d cls secure off n =
      (bump (bump s (pgSPAD d) 3) (pgSPAD d) 12, { data := List.replicate n 0, refused := true }) := by
  simp [lineRead, hk, ha]

end Sys2Proof.Machine
end

section
/-! Writes within one line of a store, in any view and with any poison bit (R171, R174): every byte outside the range stays,
and each granule that can be read, or that a plain write covers whole, is written as the view says. -/

namespace Sys2Proof.Machine

open Sys2Proof

/-! ## Ranges that a write can change -/

/-- Each granule that a range touches can be read, but for those that a plain write covers whole. -/
def Ready (s : State) (d view off n : Nat) : Prop :=
  ∀ g, g * 8 < off + n → off < g * 8 + 8 → (view = 0 ∧ off ≤ g * 8 ∧ g * 8 + 8 ≤ off + n) ∨ GranClean s d g

theorem Clean.ready {s : State} {d off n : Nat} (h : Clean s d off n) (view : Nat) : Ready s d view off n :=
  fun g h1 h2 => .inr (h g h1 h2)

theorem ready_of_whole_granules (s : State) (d : Nat) {off n : Nat} (ho : off % 8 = 0) (hn : n % 8 = 0) : Ready s d 0 off n :=
  fun g h1 h2 => .inl ⟨rfl, by omega, by omega⟩

/-- The bytes of a range read as a write in a view leaves them. -/
def Viewed (view : Nat) (s t : State) (pa : Nat) (bs : List Byte) : Prop :=
  ∀ i, i < bs.length → readByte t (pa + i) = viewByte view (readByte s (pa + i)) (lget bs i 0)

/-! ## Granules beside a write -/

theorem granClean_putFlaws {s : State} {d st g : Nat} {fs : FMap Flaw} (h : GranClean s d g)
    (hfs : ∀ e ∈ fs, e.1 = g → e ∈ (getSpad s d st).flaws) :
    GranClean (putSpad s d st { getSpad s d st with flaws := fs }) d g := by
  obtain ⟨hp, hf⟩ := h
  refine ⟨hp, fun e he hg => ?_⟩
  rw [getSpad_putSpad] at he
  split at he
  · next hk =>
    have hst : storeAt (g * 8) = st := by
      unfold spadKey at hk
      omega
    exact hf e (hst ▸ hfs e he hg) hg
  · exact hf e he hg

/-- The errors that a write to a granule meets leave the other granules readable. -/
theorem granClean_metGran {s : State} {d g gran off n : Nat} (cls : Nat) (hne : g ≠ gran) (h1 : gran * 8 ≤ off)
    (h2 : off + n ≤ gran * 8 + 8) (h : GranClean s d g) : GranClean (metGran s d cls gran off n) d g := by
  have hmem : ∀ p ∈ flawsIn (getSpad s d (storeAt (gran * 8))) off n, p.1 = gran := fun p hp => by
    have := (List.mem_filter.1 hp).2
    simp only [Bool.and_eq_true, decide_eq_true_eq] at this
    omega
  refine List.foldlRecOn (motive := fun t => GranClean t d g) _ _ h fun t ht p hp => ?_
  by_cases hs : p.2 = .single
  · have hc := meetFlaw_single_counts cls d (storeAt (gran * 8)) t hs
    exact ht.congr hc.keeps_poison hc.keeps_spads
  · have hput := granClean_putFlaws (st := storeAt (gran * 8))
      (fs := mput (getSpad t d (storeAt (gran * 8))).flaws p.1 .met) ht fun e he hg => (mem_mput he).resolve_left fun h => by
        rw [h, hmem p hp] at hg
        exact hne hg.symm
    unfold meetFlaw
    split
    · contradiction
    · have hc := (bump_counts (putSpad t d (storeAt (gran * 8)) { getSpad t d (storeAt (gran * 8)) with
        flaws := mput (getSpad t d (storeAt (gran * 8))).flaws p.1 .met }) (pgSPAD d) 1).trans
          (spadLog_counts _ d (storeAt (gran * 8)) cls (p.1 * 8) true false)
      exact hput.congr hc.keeps_poison hc.keeps_spads

theorem poisonKey_aperPa {d off : Nat} (hd : d < 16) (ho : off < 0x8000000) :
    poisonKey (aperPa d off) = spadBase / 8 + d * 0x1000000 + off / 8 := by
  have hin : isSpadPa (aperPa d off) = true := by
    unfold isSpadPa aperPa
    simp only [Bool.and_eq_true, decide_eq_true_eq]
    omega
  rw [poisonKey, if_pos hin]
  unfold aperPa spadBase
  omega

/-- Another granule's poison bit leaves a granule readable. -/
theorem granClean_setPoison_ne {s : State} {d g off : Nat} (p : Bool) (hd : d < 16) (ho : off < 0x8000000)
    (hg : g * 8 < 0x8000000) (hne : off / 8 ≠ g) (h : GranClean s d g) : GranClean (setPoison s (aperPa d off) p) d g := by
  cases p with
  | false => exact granClean_setPoison _ h
  | true =>
    refine ⟨?_, h.2⟩
    have hk : poisonKey (aperPa d off) ≠ poisonKey (aperPa d (g * 8)) := by
      rw [poisonKey_aperPa hd ho, poisonKey_aperPa hd hg]
      omega
    have hp := h.1
    unfold poisonAt at hp ⊢
    rwa [show (setPoison s (aperPa d off) true).poison = mput s.poison (poisonKey (aperPa d off)) () from rfl,
      mget_mput_ne _ _ hk]

/-! ## One granule -/

/-- The bytes of a range as a view's write leaves them. -/
def viewedBytes (view : Nat) (s : State) (pa : Nat) (bs : List Byte) : List Byte :=
  ((readBytes s pa bs.length).zip bs).map fun e => viewByte view e.1 e.2

theorem length_viewedBytes (view : Nat) (s : State) (pa : Nat) (bs : List Byte) :
    (viewedBytes view s pa bs).length = bs.length := by
  simp [viewedBytes, readBytes]

theorem lget_viewedBytes (view : Nat) (s : State) (pa : Nat) {bs : List Byte} {i : Nat} (hi : i < bs.length) :
    lget (viewedBytes view s pa bs) i 0 = viewByte view (readByte s (pa + i)) (lget bs i 0) := by
  simp [viewedBytes, lget, readBytes, hi]

/-- A write into a granule: the whole of it plainly, or part of it or in a view after a read, where it can be read. -/
theorem granWrite_eq (s : State) (met p : Bool) (d cls view gran off : Nat) (bs : List Byte) :
    granWrite d cls view p (s, met) gran off bs =
      if view = 0 ∧ off = gran * 8 ∧ bs.length = 8 then
        (setPoison (clearFlaw d gran (writeBytes s (aperPa d off) bs)) (aperPa d off) p, met)
      else if granBad (metGran s d cls gran off bs.length) d (storeAt (gran * 8)) gran then
        (metGran s d cls gran off bs.length, true)
      else
        let t := clearFlaw d gran (writeBytes (metGran s d cls gran off bs.length) (aperPa d off)
          (viewedBytes view (metGran s d cls gran off bs.length) (aperPa d off) bs))
        (if p then setPoison t (aperPa d off) true else t, met) := rfl

/-- From `s` to `t`, bytes were written in a view into a granule from an aperture offset on, where it could be read or was
written plainly as a whole; the other granules that could be read still can. -/
structure GranStored (d view gran : Nat) (s t : State) (off : Nat) (bs : List Byte) : Prop where
  ports : FlawsOnly s t
  outside : SameOutside s t (aperPa d off) bs.length
  viewed : (view = 0 ∧ off = gran * 8 ∧ bs.length = 8) ∨ GranClean s d gran → Viewed view s t (aperPa d off) bs
  clean : ∀ g, g ≠ gran → g * 8 < 0x8000000 → GranClean s d g → GranClean t d g

theorem GranStored.setPoison {d view gran : Nat} {s t : State} {off : Nat} {bs : List Byte}
    (h : GranStored d view gran s t off bs) (p : Bool) (hd : d < 16) (ho : off < 0x8000000) (hg : off / 8 = gran) :
    GranStored d view gran s (setPoison t (aperPa d off) p) off bs where
  ports := h.ports.trans (.of_spads rfl)
  outside a ha := (readByte_congr rfl rfl a).trans (h.outside a ha)
  viewed hr i hi := (readByte_congr rfl rfl _).trans (h.viewed hr i hi)
  clean g hne hlt hc := granClean_setPoison_ne p hd ho hlt (fun e => hne (e.symm.trans hg)) (h.clean g hne hlt hc)

/-- Bytes are written over a granule whose errors have been met, and its flaws are done with. -/
theorem granStored_writeBytes {d view gran : Nat} {s u : State} {off : Nat} {bs xs : List Byte} (hdata : SameData s u)
    (hports : FlawsOnly s u) (hclean : ∀ g, g ≠ gran → GranClean s d g → GranClean u d g) (hlen : xs.length = bs.length)
    (hx : ∀ i, i < bs.length → lget xs i 0 = viewByte view (readByte s (aperPa d off + i)) (lget bs i 0)) :
    GranStored d view gran s (clearFlaw d gran (writeBytes u (aperPa d off) xs)) off bs where
  ports := hports.trans ((FlawsOnly.of_spads (writeBytes_spads ..)).trans (putSpad_flawsOnly ..))
  outside a ha := by
    refine (readByte_congr rfl rfl a).trans ((readByte_writeBytes_out u _ a xs ?_).trans (hdata.readByte a))
    rwa [hlen]
  viewed _ i hi := by
    refine (readByte_congr rfl rfl _).trans ((holdsAt_writeBytes u _ xs i ?_).trans (hx i hi))
    rwa [hlen]
  clean g hne _ hc := granClean_clearFlaw gran ((hclean g hne hc).congr (writeBytes_poison ..) (writeBytes_spads ..))

theorem granStored_granWrite (s : State) (met p : Bool) {d : Nat} (cls view : Nat) {gran off : Nat} {bs : List Byte}
    (hd : d < 16) (h0 : 0 < bs.length) (h1 : gran * 8 ≤ off) (h2 : off + bs.length ≤ gran * 8 + 8) (ho : off < 0x8000000) :
    GranStored d view gran s (granWrite d cls view p (s, met) gran off bs).1 off bs := by
  have hmet : SameData s (metGran s d cls gran off bs.length) := foldl_meetFlaw_sameData ..
  have hports : FlawsOnly s (metGran s d cls gran off bs.length) := foldl_meetFlaw_flawsOnly ..
  have hclean (g : Nat) (hne : g ≠ gran) (h : GranClean s d g) := granClean_metGran cls hne h1 h2 h
  rw [granWrite_eq]
  split
  · next hw =>
    refine GranStored.setPoison (granStored_writeBytes (.refl s) (.of_spads rfl) (fun _ _ h => h) rfl fun i _ => ?_)
      p hd ho (by omega)
    rw [hw.1]
    rfl
  · next hw =>
    split
    · next hbad =>
      refine ⟨hports, fun a _ => hmet.readByte a, fun h => ?_, fun g hne _ h => hclean g hne h⟩
      have hc := h.resolve_left hw
      have hcounts := metGran_counts cls hc h1 h2
      rw [granBad_of_granClean (hc.congr hcounts.keeps_poison hcounts.keeps_spads)] at hbad
      contradiction
    · have hstored := granStored_writeBytes (view := view) (off := off) (bs := bs) hmet hports hclean
        (length_viewedBytes view (metGran s d cls gran off bs.length) (aperPa d off) bs) fun i hi => by
          rw [lget_viewedBytes _ _ _ hi, hmet.readByte]
      cases p with
      | false => exact hstored
      | true => exact hstored.setPoison true hd ho (by omega)

/-! ## One line -/

/-- What a write within a line of a store's aperture, outside the keep region, does to the bytes. -/
structure LineStored (d view : Nat) (s t : State) (off : Nat) (bs : List Byte) : Prop where
  ports : FlawsOnly s t
  outside : SameOutside s t (aperPa d off) bs.length
  viewed : Ready s d view off bs.length → Viewed view s t (aperPa d off) bs

theorem LineStored.after_counts {d view : Nat} {s t u : State} {off : Nat} {bs : List Byte} (h : Counts s t)
    (k : LineStored d view t u off bs) : LineStored d view s u off bs where
  ports := h.flawsOnly.trans k.ports
  outside a ha := (k.outside a ha).trans (h.sameData.readByte a)
  viewed hr i hi := by
    have hrt : Ready t d view off bs.length := fun g h1 h2 =>
      (hr g h1 h2).imp_right fun hg => hg.congr h.keeps_poison h.keeps_spads
    rw [k.viewed hrt i hi, h.sameData.readByte]

theorem lget_slice {bs : List Byte} {k n i : Nat} (hi : i < n) : lget (slice bs k n) i 0 = lget bs (k + i) 0 := by
  rw [lget, List.getD_eq_getElem?_getD, slice_getElem? _ _ _ _ hi, Option.getD_some, lget, List.getD_eq_getElem?_getD]

/-- The first bytes of a range, up to offset `c`, have been written, and the granules from `g` on have not been reached. -/
structure StoredTo (d view : Nat) (s t : State) (off : Nat) (bs : List Byte) (c g : Nat) : Prop where
  ports : FlawsOnly s t
  outside : SameOutside s t (aperPa d off) (c - off)
  viewed : Ready s d view off bs.length → ∀ i, i < c - off →
    readByte t (aperPa d off + i) = viewByte view (readByte s (aperPa d off + i)) (lget bs i 0)
  clean : ∀ k, g ≤ k → k * 8 < 0x8000000 → GranClean s d k → GranClean t d k

/-- The next granule's part is written. -/
theorem StoredTo.next {d view : Nat} {s t u : State} {off : Nat} {bs : List Byte} {lo up g : Nat}
    (h : StoredTo d view s t off bs lo g) (k : GranStored d view g t u lo (slice bs (lo - off) (up - lo)))
    (hlo : lo = max off (g * 8)) (hup : up = min (off + bs.length) (g * 8 + 8)) (hle : lo < up) (hg : g * 8 < 0x8000000) :
    StoredTo d view s u off bs up (g + 1) := by
  have hpa : aperPa d lo = aperPa d off + (lo - off) := by
    unfold aperPa
    omega
  have hout := k.outside
  have hview := k.viewed
  rw [slice_length, hpa] at hout
  rw [slice_length, hpa] at hview
  refine ⟨h.ports.trans k.ports, fun a ha => ?_, fun hr i hi => ?_,
    fun j hj hlt hc => k.clean j (by omega) hlt (h.clean j (by omega) hlt hc)⟩
  · rw [hout a (by omega), h.outside a (by omega)]
  · rcases Nat.lt_or_ge i (lo - off) with hi' | hi'
    · rw [hout _ (by omega), h.viewed hr i hi']
    · have hready : (view = 0 ∧ lo = g * 8 ∧ up - lo = 8) ∨ GranClean t d g :=
        (hr g (by omega) (by omega)).imp (fun hw => ⟨hw.1, by omega, by omega⟩) fun hc => h.clean g (Nat.le_refl g) hg hc
      have := hview hready (i - (lo - off)) (by rw [slice_length]; omega)
      rw [Nat.add_assoc, Nat.add_sub_cancel' hi', lget_slice (by omega), Nat.add_sub_cancel' hi'] at this
      rw [this, h.outside _ (by omega)]

/-- The write of the part of a range that falls into its `i`-th granule. -/
def writeGran (d cls view : Nat) (p : Bool) (off : Nat) (bs : List Byte) (acc : State × Bool) (i : Nat) : State × Bool :=
  let g := off / 8 + i
  let lo := max off (g * 8)
  let hi := min (off + bs.length) (g * 8 + 8)
  granWrite d cls view p acc g lo (slice bs (lo - off) (hi - lo))

/-- The granules that a range touches. -/
def granCount (off n : Nat) : Nat := (off + n + 7) / 8 - off / 8

/-- The reports that a write outside the keep region begins with (R182). -/
def writeCounted (s : State) (d view off n : Nat) : State :=
  let s := bumpBy s (pgSPAD d) 3 (if lockedWrite view off n then 2 else 1)
  if view = 0 then s else bump s (pgSPAD d) 10

theorem writeCounted_counts (s : State) (d view off n : Nat) : Counts s (writeCounted s d view off n) :=
  counts_ite (bumpBy_counts ..) ((bumpBy_counts ..).trans (bump_counts ..))

theorem lineStore_outside_keep (s : State) (d cls : Nat) (secure : Bool) (view : Nat) {off : Nat} {bs : List Byte} (p : Bool)
    (hk : inKeep off bs.length = false) : (lineStore s d cls secure view off bs p).1 =
      ((List.range (granCount off bs.length)).foldl (writeGran d cls view p off bs)
        (writeCounted s d view off bs.length, false)).1 := by
  unfold lineStore
  simp only [hk, Bool.false_and, Bool.false_eq_true, if_false]
  rfl

theorem storedTo_foldl_writeGran (s : State) {d : Nat} (cls view : Nat) (p : Bool) {off : Nat} {bs : List Byte} (hd : d < 16)
    (h0 : 1 ≤ bs.length) (hend : off + bs.length ≤ 0x7C00000) {k : Nat} (hk : k ≤ granCount off bs.length) :
    StoredTo d view s ((List.range k).foldl (writeGran d cls view p off bs) (s, false)).1 off bs (cut 8 off bs.length k)
      (off / 8 + k) := by
  refine foldl_range_rec
    (P := fun i (acc : State × Bool) => StoredTo d view s acc.1 off bs (cut 8 off bs.length i) (off / 8 + i)) ?_ ?_
  · rw [cut_zero]
    exact ⟨.of_spads rfl, fun _ _ => rfl, fun _ i hi => absurd hi (by omega), fun _ _ _ h => h⟩
  · rintro i ⟨t, met⟩ hi h
    have hin : off / 8 + i < (off + bs.length + 7) / 8 := by
      unfold granCount at hk
      omega
    have hlo : cut 8 off bs.length i = max off ((off / 8 + i) * 8) := by
      unfold cut
      omega
    have hhi : cut 8 off bs.length (i + 1) = min (off + bs.length) ((off / 8 + i) * 8 + 8) := by
      unfold cut
      omega
    have hlt : cut 8 off bs.length i < cut 8 off bs.length (i + 1) := by omega
    refine h.next ?_ hlo hhi hlt (by omega)
    rw [hlo, hhi]
    exact granStored_granWrite t met p cls view hd (by rw [slice_length]; omega) (by omega)
      (by rw [slice_length]; omega) (by omega)

theorem lineStored_lineStore (s : State) {d : Nat} (cls : Nat) (secure : Bool) (view : Nat) {off : Nat} {bs : List Byte}
    (p : Bool) (hd : d < 16) (h0 : 1 ≤ bs.length) (hend : off + bs.length ≤ 0x7C00000) (hk : inKeep off bs.length = false) :
    LineStored d view s (lineStore s d cls secure view off bs p).1 off bs := by
  have hcut : cut 8 off bs.length (granCount off bs.length) - off = bs.length := by
    unfold cut granCount
    omega
  rw [lineStore_outside_keep s d cls secure view p hk]
  refine .after_counts (writeCounted_counts s d view off bs.length) ?_
  obtain ⟨hports, hout, hview, -⟩ := storedTo_foldl_writeGran (writeCounted s d view off bs.length) cls view p hd h0 hend
    (Nat.le_refl (granCount off bs.length))
  rw [hcut] at hout hview
  exact ⟨hports, hout, hview⟩

end Sys2Proof.Machine
end

section
/-! A turn of a store's port (R164, R167, R168, R170): a request that asks alone is granted, and a locked access takes its
second cycle. -/

namespace Sys2Proof.Machine

open Sys2Proof

/-! ## What a turn leaves -/

/-- `t` is `s` after a turn of a store's port, but for the access itself: reports, and who asks and has lost. -/
structure PortTurn (d st : Nat) (s t : State) : Prop where
  data : SameData s t
  poison : t.poison = s.poison
  flaws : ∀ e k, (getSpad t e k).flaws = (getSpad s e k).flaws
  unlocked : (getSpad t d st).locked = none

theorem PortTurn.before_counts {d st : Nat} {s t u : State} (h : PortTurn d st s t) (k : Counts t u) : PortTurn d st s u where
  data := h.data.trans k.sameData
  poison := k.keeps_poison.trans h.poison
  flaws e i := by rw [getSpad_congr k.keeps_spads, h.flaws]
  unlocked := by rw [getSpad_congr k.keeps_spads, h.unlocked]

theorem PortTurn.trans {d st : Nat} {s t u : State} (h : PortTurn d st s t) (k : PortTurn d st t u) : PortTurn d st s u where
  data := h.data.trans k.data
  poison := k.poison.trans h.poison
  flaws e i := (k.flaws e i).trans (h.flaws e i)
  unlocked := k.unlocked

/-- A port's record is put that lists the same flaws and holds no locked access. -/
theorem PortTurn.putSpad {d st : Nat} {s t : State} {x : SpadSt} (hd : SameData s t) (hp : t.poison = s.poison)
    (hf : ∀ e k, (getSpad t e k).flaws = (getSpad s e k).flaws) (hx : x.flaws = (getSpad t d st).flaws)
    (hl : x.locked = none) : PortTurn d st s (putSpad t d st x) where
  data := hd.trans ⟨rfl, rfl, rfl⟩
  poison := hp
  flaws e k := by
    rw [getSpad_putSpad]
    split
    · next h =>
      have he : getSpad t d st = getSpad t e k := congrArg (mgetD t.spads · {}) h
      rw [hx, he, hf]
    · exact hf e k
  unlocked := by rw [getSpad_putSpad, if_pos rfl, hl]

theorem spadStalls_counts (s : State) (d st : Nat) (rs : List SpadReq) (won : Option Nat) : ∃ lost,
    Counts (putSpad s d st { getSpad s d st with lost := lost }) (spadStalls s d st rs won) :=
  ⟨_, foldl_counts (fun _ _ => bump_counts ..) _ _⟩

/-- One request of one line, not one that finds its own place, asks alone at a store's free port (R164, R167). -/
structure Alone (s : State) (d st : Nat) (r : SpadReq) : Prop where
  ready : fbit s (pgSPAD d) F.SPAD_STS_INIT_BUSY = false
  unlocked : (getSpad s d st).locked = none
  rest : (getSpad s d st).rest = []
  who : r.who ≠ .feed ∧ r.who ≠ .scrub ∧ r.who ≠ .mark
  pos : 1 ≤ r.len
  line : r.off % 256 + r.len ≤ 256
  fits : r.off + r.len ≤ storeSize st
  clean : r.ecc = .clean
  wiping : fbit s (pgSPAD d) F.SPAD_STS_KEEP_WIPING = false ∨ inKeep (reqOff st r) r.len = false

theorem Alone.storeAt_reqOff {s : State} {d st : Nat} {r : SpadReq} (h : Alone s d st r) (hst : st < 82) :
    storeAt (reqOff st r) = st := by
  have := h.pos
  have := h.fits
  exact storeAt_storeOff hst (by omega)

theorem reqAsks_of_alone {s : State} {d st : Nat} {r : SpadReq} (h : Alone s d st r) : reqAsks s d st r = true := by
  obtain ⟨-, -, -, ⟨hfeed, hscrub, hmark⟩, hpos, hline, hfits, -, hwiping⟩ := h
  have hlen : min r.len (256 - r.off % 256) = r.len := by omega
  have hw : (fbit s (pgSPAD d) F.SPAD_STS_KEEP_WIPING && inKeep (storeOff st + r.off) r.len) = false := by
    rw [Bool.and_eq_false_iff]
    exact hwiping
  unfold reqAsks
  split
  · contradiction
  · contradiction
  · contradiction
  · rw [hlen, hw]
    simp [hpos, hfits]

theorem longest_mem {lost : FMap Nat} {rs : List SpadReq} {r : SpadReq} (h : longest lost rs = some r) : r ∈ rs := by
  have hall : ∀ y, longest lost rs = some y → y ∈ rs := by
    refine List.foldlRecOn (motive := fun m : Option SpadReq => ∀ y, m = some y → y ∈ rs) _ _ (fun _ hy => by cases hy) ?_
    rintro (_ | z) hz x hx y hy
    · cases hy
      exact hx
    · dsimp only at hy
      split at hy
      · cases hy
        exact hx
      · exact hz y hy
  exact hall r h

theorem classPick_single (x : SpadSt) (c : Nat) (r : SpadReq) : classPick x c [r] = some r := by
  unfold classPick
  split
  · rfl
  · obtain ⟨i, hi, hp⟩ := exists_rrPick (mgetD x.rr c 0) (xs := [spadNum r.who + 1]) (List.cons_ne_nil _ _)
    obtain rfl := List.mem_singleton.1 hi
    simp [hp]

theorem find_spadClass (w : SpadWho) : ((List.range 6).find? fun c => spadClass w == c) = some (spadClass w) := by
  cases w <;> rfl

/-- A request that asks alone is chosen, by whichever step of the choice. -/
theorem spadPick_single (s : State) (d : Nat) (x : SpadSt) (r : SpadReq) :
    ∃ urgent, spadPick s d x [r] = some (r, urgent) := by
  unfold spadPick
  dsimp only
  split
  · next y hy =>
    have := longest_mem hy
    obtain rfl : y = r := by
      simpa using (List.mem_append.1 this).elim List.mem_of_mem_filter List.mem_of_mem_filter
    exact ⟨true, rfl⟩
  · split
    · next y hy =>
      obtain rfl : y = r := by simpa using List.mem_of_mem_filter (longest_mem hy)
      exact ⟨true, rfl⟩
    · have hf : ((List.range 6).find? fun c => [r].any fun r => spadClass r.who == c) = some (spadClass r.who) := by
        simpa using find_spadClass r.who
      rw [hf]
      simp [classPick_single]

theorem reqSplit_line {r : SpadReq} (h : r.off % 256 + r.len ≤ 256) : reqSplit r = (r, none) := by
  unfold reqSplit
  exact if_pos (by omega)

theorem spadGrant_line (s : State) (d st : Nat) {r : SpadReq} (hw : r.who ≠ .feed ∧ r.who ≠ .scrub ∧ r.who ≠ .mark)
    (h : r.off % 256 + r.len ≤ 256) : spadGrant s d st r =
      accessGrant (putSpad s d st { getSpad s d st with rest := (getSpad s d st).rest ++ [] }) d st r := by
  obtain ⟨hfeed, hscrub, hmark⟩ := hw
  unfold spadGrant
  split
  · contradiction
  · contradiction
  · contradiction
  · rw [reqSplit_line h]
    rfl

/-- The port's record once it is granted to one of the requests. -/
def grantedPort (y : SpadSt) (r : SpadReq) (urgent : Bool) : SpadSt :=
  { y with
    rest := y.rest.filter fun z => z != r
    rr := if urgent then y.rr else mput y.rr (spadClass r.who) (spadNum r.who + 1) }

/-- The state in which the port is granted to one of the requests. -/
def portGranted (s : State) (d st : Nat) (rs : List SpadReq) (r : SpadReq) (urgent : Bool) : State :=
  let s := spadStalls s d st rs (some (spadNum r.who))
  let s := putSpad s d st (grantedPort (getSpad s d st) r urgent)
  if urgent then bump s (pgSPAD d) 9 else s

theorem portCycle_granted {s : State} {d st : Nat} {r : SpadReq} {urgent : Bool} (h : Alone s d st r)
    (hp : spadPick s d (getSpad s d st) [r] = some (r, urgent)) :
    portCycle s d st [r] = spadGrant (portGranted s d st [r] r urgent) d st r := by
  have hasks := reqAsks_of_alone h
  unfold portCycle
  dsimp only
  rw [if_neg (by rw [h.ready]; decide), h.rest, h.unlocked]
  simp only [List.any_nil, Bool.not_false, List.nil_append, List.filter_singleton, hasks, cond_true, hp]
  rfl

theorem portTurn_spadStalls {s : State} {d st : Nat} (rs : List SpadReq) (won : Option Nat)
    (h : (getSpad s d st).locked = none) : PortTurn d st s (spadStalls s d st rs won) := by
  obtain ⟨lost, hc⟩ := spadStalls_counts s d st rs won
  have hput := PortTurn.putSpad (d := d) (st := st) (x := { getSpad s d st with lost := lost }) (.refl s) rfl
    (fun _ _ => rfl) rfl h
  exact hput.before_counts hc

theorem portTurn_portGranted {s : State} {d st : Nat} (rs : List SpadReq) (r : SpadReq) (urgent : Bool)
    (h : (getSpad s d st).locked = none) : PortTurn d st s (portGranted s d st rs r urgent) := by
  have ht := portTurn_spadStalls rs (some (spadNum r.who)) h
  have hput := PortTurn.putSpad (x := grantedPort (getSpad (spadStalls s d st rs (some (spadNum r.who))) d st) r urgent)
    ht.data ht.poison ht.flaws rfl ht.unlocked
  exact hput.before_counts (counts_ite (bump_counts _ _ _) (.refl _))

/-- What a cycle of the port does with a request that asks alone: after the turn, its access. -/
theorem portCycle_alone {s : State} {d st : Nat} {r : SpadReq} (h : Alone s d st r) :
    ∃ t, PortTurn d st s t ∧ portCycle s d st [r] = accessGrant t d st r := by
  obtain ⟨urgent, hpick⟩ := spadPick_single s d (getSpad s d st) r
  have ht := portTurn_portGranted [r] r urgent h.unlocked
  refine ⟨_, ?_, (portCycle_granted h hpick).trans (spadGrant_line _ d st h.who h.line)⟩
  exact .putSpad ht.data ht.poison ht.flaws rfl ht.unlocked

/-- The second cycle of a locked write: after the turn, its write. -/
theorem portCycle_locked {s : State} {d st : Nat} {r : SpadReq} {bs : List Byte} (reqs : List SpadReq)
    (hb : fbit s (pgSPAD d) F.SPAD_STS_INIT_BUSY = false) (hl : (getSpad s d st).locked = some r) (hw : r.who ≠ .scrub)
    (hr : r.write = some bs) : ∃ t, PortTurn d st s t ∧ portCycle s d st reqs = spadReqWrite t d st r bs := by
  have hfree := PortTurn.putSpad (d := d) (st := st) (x := { getSpad s d st with locked := none }) (.refl s) rfl
    (fun _ _ => rfl) rfl rfl
  unfold portCycle
  dsimp only
  rw [if_neg (by rw [hb]; decide), hl]
  dsimp only
  rw [if_neg (by simpa using hw), hr]
  exact ⟨_, hfree.trans (portTurn_spadStalls _ none hfree.unlocked), rfl⟩

/-! ## The access -/

theorem accessGrant_read (t : State) (d st : Nat) {r : SpadReq} (hc : r.ecc = .clean) (hw : r.write = none) :
    accessGrant t d st r = spadReqRead t d st r := by
  unfold accessGrant
  rw [hc, hw]
  rfl

theorem accessGrant_locked (t : State) (d st : Nat) {r : SpadReq} (hc : r.ecc = .clean) (hl : reqLocked r = true) :
    accessGrant t d st r = putSpad t d st { getSpad t d st with locked := some r } := by
  unfold accessGrant
  split
  · next hw =>
    rw [reqLocked, hw] at hl
    cases hl
  · rw [if_pos hl, hc]
    rfl

theorem accessGrant_write (t : State) (d st : Nat) {r : SpadReq} {bs : List Byte} (hc : r.ecc = .clean)
    (hw : r.write = some bs) (hl : reqLocked r = false) : accessGrant t d st r = spadReqWrite t d st r bs := by
  unfold accessGrant
  rw [hc, hw]
  exact if_neg (by rw [hl]; decide)

/-- What a read tells its requester. -/
def readResp (x : PortRd) : Resp := { data := x.data, poison := x.poison, code := if x.refused then stPERM else 0 }

theorem spadReqRead_line (t : State) (d st : Nat) {r : SpadReq} (h0 : 1 ≤ r.len) (hl : r.off % 256 + r.len ≤ 256) :
    spadReqRead t d st r = { (lineRead t d (spadClass r.who) r.secure (reqOff st r) r.len).1 with
      resp := readResp (lineRead t d (spadClass r.who) r.secure (reqOff st r) r.len).2 } := by
  unfold spadReqRead
  rw [portRead_line t d _ _ h0 (by rwa [reqOff_mod])]
  rfl

theorem LineStored.before_resp {d view : Nat} {s t : State} {off : Nat} {bs : List Byte} (h : LineStored d view s t off bs)
    (x : Resp) : LineStored d view s { t with resp := x } off bs where
  ports := h.ports.trans (.of_spads rfl)
  outside := h.outside
  viewed := h.viewed

theorem lineStored_spadReqWrite (t : State) {d st : Nat} {r : SpadReq} (bs : List Byte) (hd : d < 16) (hst : st < 82)
    (h0 : 1 ≤ r.len) (hl : r.off % 256 + r.len ≤ 256) (hf : r.off + r.len ≤ storeSize st)
    (hk : inKeep (reqOff st r) r.len = false) :
    LineStored d r.view t (spadReqWrite t d st r bs) (reqOff st r) (slice bs 0 r.len) := by
  have hlen := slice_length bs 0 r.len
  unfold spadReqWrite
  rw [portWrite_line t d _ _ _ _ (by rwa [hlen]) (by rwa [hlen, reqOff_mod])]
  have hend := reqOff_end_le hst hf
  exact (lineStored_lineStore t _ _ _ _ hd (by rwa [hlen]) (by rwa [hlen]) (by rwa [hlen])).before_resp _

/-- What a turn of the port leaves readable. -/
theorem PortTurn.granClean {d st e g : Nat} {s t : State} (h : PortTurn d st s t) (hg : GranClean s e g) :
    GranClean t e g := by
  unfold GranClean poisonAt at hg ⊢
  rwa [h.poison, h.flaws]

theorem PortTurn.ready {d st e view off n : Nat} {s t : State} (h : PortTurn d st s t) (hr : Ready s e view off n) :
    Ready t e view off n := fun g h1 h2 => (hr g h1 h2).imp_right h.granClean

/-- The bytes that a write leaves, counted from before the turn. -/
theorem LineStored.after_turn {d st view : Nat} {s t u : State} {off : Nat} {bs : List Byte} (ht : PortTurn d st s t)
    (h : LineStored d view t u off bs) : SameOutside s u (aperPa d off) bs.length ∧
      (Ready s d view off bs.length → Viewed view s u (aperPa d off) bs) := by
  refine ⟨fun a ha => (h.outside a ha).trans (ht.data.readByte a), fun hr i hi => ?_⟩
  rw [h.viewed (ht.ready hr) i hi, ht.data.readByte]

end Sys2Proof.Machine
end

section
/-! The commands of a store's port (R164, R170, R171, R173, R174, R176, R179): what a lone request, the second cycle of a
locked access, a poison-marking write and a scrub do; and the refutation of O27. -/

namespace Sys2Proof.Machine

open Sys2Proof

/-! ## The commands -/

theorem exec_spadPortGrant {d st : Nat} (hd : d < 16) (hst : st < 82) (reqs : List SpadReq) (s : State) :
    exec (.spadPortGrant d st reqs) s = .next (portCycle s d st reqs) := congrArg Host.Outcome.next (if_pos ⟨hd, hst⟩)

section
variable {s : State} {d st : Nat} {r : SpadReq} (hd : d < 16) (hst : st < 82) (h : Alone s d st r)
include hd hst h

/-- A read of sound granules answers their bytes. -/
theorem spadPortGrant_read_answers (hk : inKeep (reqOff st r) r.len = false) (hw : r.write = none)
    (hf : flawsIn (getSpad s d st) (reqOff st r) r.len = []) (hp : poisonedIn s (aperPa d (reqOff st r)) r.len = []) :
    Answers (.spadPortGrant d st [r]) s fun t =>
      t.resp = { data := readBytes s (aperPa d (reqOff st r)) r.len } ∧ t.mem = s.mem := by
  obtain ⟨t, ht, he⟩ := portCycle_alone h
  have hf' : flawsIn (getSpad t d (storeAt (reqOff st r))) (reqOff st r) r.len = [] := by
    rw [h.storeAt_reqOff hst, ← hf, flawsIn, flawsIn, ht.flaws]
  have hp' : poisonedIn t (aperPa d (reqOff st r)) r.len = [] := by rw [← hp, poisonedIn, poisonedIn, ht.poison]
  rw [accessGrant_read t d st h.clean hw, spadReqRead_line t d st h.pos h.line, lineRead_sound d _ _ hk hf' hp'] at he
  refine ⟨_, (exec_spadPortGrant hd hst [r] s).trans (congrArg _ he), ?_, (bump_counts ..).keeps_mem.trans ht.data.1⟩
  exact congrArg (fun bs => ({ data := bs } : Resp)) (ht.data.readBytes _ _)

/-- A read of the keep region by a requester that may not is refused. -/
theorem spadPortGrant_keep_answers (hk : inKeep (reqOff st r) r.len = true) (hw : r.write = none)
    (ha : keepAllows (spadClass r.who) r.secure = false) : Answers (.spadPortGrant d st [r]) s fun t =>
      t.resp = { data := List.replicate r.len 0, code := stPERM } ∧ t.mem = s.mem := by
  obtain ⟨t, ht, he⟩ := portCycle_alone h
  rw [accessGrant_read t d st h.clean hw, spadReqRead_line t d st h.pos h.line, lineRead_refused t d hk ha] at he
  have hc := (bump_counts t (pgSPAD d) 3).trans (bump_counts (bump t (pgSPAD d) 3) (pgSPAD d) 12)
  exact ⟨_, (exec_spadPortGrant hd hst [r] s).trans (congrArg _ he), rfl, hc.keeps_mem.trans ht.data.1⟩

/-- A plain write of whole granules writes its bytes, whatever it finds there. -/
theorem spadPortGrant_write_answers {bs : List Byte} (hk : inKeep (reqOff st r) r.len = false) (hw : r.write = some bs)
    (hv : r.view = 0) (ho : r.off % 8 = 0) (hn : r.len % 8 = 0) : Answers (.spadPortGrant d st [r]) s fun t =>
      HoldsAt t (aperPa d (reqOff st r)) (slice bs 0 r.len) ∧ SameOutside s t (aperPa d (reqOff st r)) r.len := by
  obtain ⟨t, ht, he⟩ := portCycle_alone h
  have hl : reqLocked r = false := by
    rw [reqLocked, hw, lockedWrite, hv, ho, show (r.off + r.len) % 8 = 0 by omega]
    rfl
  rw [accessGrant_write t d st h.clean hw hl] at he
  obtain ⟨hout, hview⟩ := (lineStored_spadReqWrite t bs hd hst h.pos h.line h.fits hk).after_turn ht
  have hmod := reqOff_mod st r
  rw [hv] at hview
  rw [slice_length] at hout
  refine ⟨_, (exec_spadPortGrant hd hst [r] s).trans (congrArg _ he), hview ?_, hout⟩
  exact ready_of_whole_granules s d (by omega) (by rwa [slice_length])

/-- A locked access takes the port. -/
theorem spadPortGrant_locks_answers (hl : reqLocked r = true) : Answers (.spadPortGrant d st [r]) s fun t =>
    (getSpad t d st).locked = some r ∧ t.mem = s.mem := by
  obtain ⟨t, ht, he⟩ := portCycle_alone h
  rw [accessGrant_locked t d st h.clean hl] at he
  refine ⟨_, (exec_spadPortGrant hd hst [r] s).trans (congrArg _ he), ?_, ht.data.1⟩
  rw [getSpad_putSpad, if_pos rfl]

end

/-- In its second cycle a locked write within a line of the store writes its bytes, each as its view says, and frees the
port. -/
theorem spadPortGrant_locked_answers {s : State} {d st : Nat} {r : SpadReq} {bs : List Byte} (reqs : List SpadReq)
    (hd : d < 16) (hst : st < 82) (hb : fbit s (pgSPAD d) F.SPAD_STS_INIT_BUSY = false)
    (hlocked : (getSpad s d st).locked = some r) (hw : r.who ≠ .scrub) (hr : r.write = some bs) (h0 : 1 ≤ r.len)
    (hl : r.off % 256 + r.len ≤ 256) (hf : r.off + r.len ≤ storeSize st) (hk : inKeep (reqOff st r) r.len = false) :
    Answers (.spadPortGrant d st reqs) s fun t => (getSpad t d st).locked = none ∧
      SameOutside s t (aperPa d (reqOff st r)) r.len ∧
      (Clean s d (reqOff st r) r.len → ∀ i, i < r.len → readByte t (aperPa d (reqOff st r) + i) =
        viewByte r.view (readByte s (aperPa d (reqOff st r) + i)) (lget bs i 0)) := by
  obtain ⟨t, ht, he⟩ := portCycle_locked reqs hb hlocked hw hr
  have hstored := lineStored_spadReqWrite t bs hd hst h0 hl hf hk
  obtain ⟨hout, hview⟩ := hstored.after_turn ht
  rw [slice_length] at hout hview
  refine ⟨_, (exec_spadPortGrant hd hst reqs s).trans (congrArg _ he), (hstored.ports.locked d st).trans ht.unlocked, hout,
    fun hc i hi => ?_⟩
  rw [hview (hc.ready _) i (by rwa [slice_length]), lget_slice hi, Nat.zero_add]

/-- The granule is poisoned, and its flaw is done with. -/
def granMarked (s : State) (d st g : Nat) : State :=
  setPoison (putSpad s d st { getSpad s d st with flaws := mdel (getSpad s d st).flaws g }) (aperPa d (g * 8)) true

/-- A granule whose error came to light is poisoned by the write that asks for it. -/
theorem poisonMarkWrite_answers {s : State} {d st n g : Nat} (hd : d < 16) (hst : st < 82) (hn : n * 8 < storeSize st)
    (hg : g = storeOff st / 8 + n) (hm : mget (getSpad s d st).flaws g = some .met) (hb : storeBusy s d (g * 8) 8 = false) :
    Answers (.poisonMarkWrite d st n) s fun t =>
      poisonAt t (aperPa d (g * 8)) = true ∧ mget (getSpad t d st).flaws g = none ∧ t.mem = s.mem := by
  have hc := bump_counts (granMarked s d st g) (pgSPAD d) 3
  have he : markGranule s d st n = bump (granMarked s d st g) (pgSPAD d) 3 := by
    subst hg
    exact if_pos (by simp [hm, hb])
  have hput : getSpad (granMarked s d st g) d st = { getSpad s d st with flaws := mdel (getSpad s d st).flaws g } :=
    (getSpad_putSpad ..).trans (if_pos rfl)
  refine ⟨_, congrArg Host.Outcome.next (if_pos ⟨hd, hst, hn⟩), ?_⟩
  rw [he]
  refine ⟨?_, ?_, hc.keeps_mem⟩
  · rw [poisonAt, hc.keeps_poison]
    exact congrArg Option.isSome (mget_mput_same ..)
  · rw [getSpad_congr hc.keeps_spads, hput, mget_mdel, if_pos rfl]

theorem addFlaw_flawsOnly (s : State) (d st gran : Nat) (e : Ecc) : FlawsOnly s (addFlaw s d st gran e) := by
  unfold addFlaw
  cases e with
  | clean => exact .of_spads rfl
  | corrected => exact .ite (.of_spads rfl) (putSpad_flawsOnly ..)
  | uncorrectable =>
    have hundef : FlawsOnly s (makeUndef s (aperPa d (gran * 8)) (aperPa d (gran * 8 + 8))) := .of_spads rfl
    exact .ite (.of_spads rfl) (hundef.trans (putSpad_flawsOnly ..))

theorem addFlaw_mem (s : State) (d st gran : Nat) {e : Ecc} (he : e ≠ .uncorrectable) :
    (addFlaw s d st gran e).mem = s.mem := by
  unfold addFlaw
  cases e with
  | clean => rfl
  | corrected =>
    dsimp only
    split <;> rfl
  | uncorrectable => contradiction

/-- The state in which a scrub's line is chosen and the flips that its read will find are there. -/
def scrubFound (s : State) (d st gran : Nat) (e : Ecc) : State :=
  let x := getSpad s d st
  let s := putSpad s d st { x with scrub := (x.scrub + 1) % (storeSize st / 256) }
  addFlaw s d st ((storeOff st + x.scrub * 256) / 8 + gran % 32) e

/-- The state in which a scrub has read its line. -/
def scrubRead (s : State) (d st gran : Nat) (e : Ecc) : State :=
  let off := storeOff st + (getSpad s d st).scrub * 256
  let s := bump (scrubFound s d st gran e) (pgSPAD d) 3
  let bad := poisonedIn s (aperPa d off) 256
  let s := (flawsIn (getSpad s d st) off 256).foldl (meetFlaw 5 d st) s
  if bad.isEmpty then s else bumpBy s (pgSPAD d) 2 bad.length

/-- A scrub of a line with a single-bit error holds the port to write the line back; one of another line does not. -/
theorem scrubLine_enabled {s : State} {d st : Nat} (gran : Nat) (e : Ecc)
    (hen : fbit s (pgSPAD d) F.SPAD_ARB_SCRUB_EN = true)
    (hb : storeBusy s d (storeOff st + (getSpad s d st).scrub * 256) 256 = false) :
    scrubLine s d st gran e = scrubRead s d st gran e ∨ scrubLine s d st gran e =
      putSpad (scrubRead s d st gran e) d st { getSpad (scrubRead s d st gran e) d st with
        locked := some (scrubBack (getSpad s d st).scrub) } := by
  unfold scrubLine
  dsimp only
  rw [if_neg (by simp [hen, hb])]
  split
  · exact .inr rfl
  · exact .inl rfl

/-- The read itself only reports, and notes the errors that it meets. -/
theorem scrubRead_keeps (s : State) (d st gran : Nat) (e : Ecc) :
    FlawsOnly (scrubFound s d st gran e) (scrubRead s d st gran e) ∧
      SameData (scrubFound s d st gran e) (scrubRead s d st gran e) := by
  have hb := bump_counts (scrubFound s d st gran e) (pgSPAD d) 3
  have hports (fs : List (Nat × Flaw)) := hb.flawsOnly.trans (foldl_meetFlaw_flawsOnly 5 d st fs _)
  have hdata (fs : List (Nat × Flaw)) := hb.sameData.trans (foldl_meetFlaw_sameData 5 d st fs _)
  exact ⟨.ite (hports _) ((hports _).trans (bumpBy_counts ..).flawsOnly),
    .ite (hdata _) ((hdata _).trans (bumpBy_counts ..).sameData)⟩

theorem scrubRead_scrub (s : State) (d st gran : Nat) (e : Ecc) :
    (getSpad (scrubRead s d st gran e) d st).scrub = ((getSpad s d st).scrub + 1) % (storeSize st / 256) := by
  rw [(scrubRead_keeps s d st gran e).1.scrub, scrubFound, (addFlaw_flawsOnly ..).scrub, getSpad_putSpad, if_pos rfl]

theorem scrubRead_mem (s : State) (d st gran : Nat) {e : Ecc} (he : e ≠ .uncorrectable) :
    (scrubRead s d st gran e).mem = s.mem :=
  (scrubRead_keeps s d st gran e).2.1.trans (addFlaw_mem _ d st _ he)

/-- A scrub advances to the next line; only an error that the code cannot correct changes memory. -/
theorem scrubLine_answers {s : State} {d st : Nat} (gran : Nat) (e : Ecc) (hd : d < 16) (hst : st < 82)
    (hen : fbit s (pgSPAD d) F.SPAD_ARB_SCRUB_EN = true)
    (hb : storeBusy s d (storeOff st + (getSpad s d st).scrub * 256) 256 = false) :
    Answers (.scrubLine d st gran e) s fun t => (getSpad t d st).scrub = ((getSpad s d st).scrub + 1) % (storeSize st / 256) ∧
      (e ≠ .uncorrectable → t.mem = s.mem) := by
  have hscrub := scrubRead_scrub s d st gran e
  have hmem (he : e ≠ .uncorrectable) := scrubRead_mem s d st gran he
  refine ⟨_, congrArg Host.Outcome.next (if_pos ⟨hd, hst⟩), ?_⟩
  rcases scrubLine_enabled gran e hen hb with h | h
  · rw [h]
    exact ⟨hscrub, hmem⟩
  · rw [h, getSpad_putSpad, if_pos rfl, putSpad_mem]
    exact ⟨hscrub, hmem⟩

/-! ## A locked access at a granule whose flaws are listed twice -/

/-- A write of byte 4 of the first array store by its pen's first core. -/
def partWrite : SpadReq :=
  { who := .prep 0, arrived := 0, off := 4, len := 1, write := some [1], view := 0, poison := false, secure := false
    ecc := .clean, eccAt := 0 }

/-- It holds the port of a store that lists granule 0 with a single-bit error and, behind that, with an uncorrectable one. -/
def twiceFlawedLocked : State :=
  putSpad twiceFlawed 0 0 { getSpad twiceFlawed 0 0 with locked := some partWrite }

theorem locked_twiceFlawedLocked : fbit twiceFlawedLocked (pgSPAD 0) F.SPAD_STS_INIT_BUSY = false ∧
    (getSpad twiceFlawedLocked 0 0).locked = some partWrite ∧ inKeep (reqOff 0 partWrite) partWrite.len = false := by
  decide +kernel

/-- Every granule counts as readable: of granule 0 the entry found first is the correctable one. -/
theorem whole_twiceFlawedLocked : Whole twiceFlawedLocked 0 (reqOff 0 partWrite) partWrite.len := by
  have h0 : granBad twiceFlawedLocked 0 (storeAt (0 * 8)) 0 = false := by decide +kernel
  intro g hg _
  obtain rfl : g = 0 := by
    rw [show reqOff 0 partWrite + partWrite.len = 5 from rfl] at hg
    omega
  exact h0

/-- The write meets both entries, and leaves the byte as it was. -/
theorem readByte_twiceFlawedLocked : readByte twiceFlawedLocked (aperPa 0 (reqOff 0 partWrite)) = 0 ∧
    readByte (portCycle twiceFlawedLocked 0 0 []) (aperPa 0 (reqOff 0 partWrite)) = 0 := by decide +kernel

/-- Refutes O27, by its clause of a locked access's second cycle: `Whole` looks a granule up, and so sees only the first entry
of a list of flaws that names a granule twice, while the port meets each entry of the list and then leaves the granule as it
is. What fails is a state whose list does not rise, which the puts and deletions of the model do not leave. The clause holds
(`spadPortGrant_locked_answers`) for an access within a line of its store, as one to which a port was granted is, where the
range is `Clean`; with `FlawsRise` it is so wherever it is `Whole` (`clean_of_whole`). The other clauses hold as they stand:
`spadPortGrant_read_answers`, `spadPortGrant_write_answers`, `spadPortGrant_locks_answers`, `spadPortGrant_keep_answers`,
`poisonMarkWrite_answers` and `scrubLine_answers`. -/
theorem not_storePortPerformsAccesses : ¬ Obligations.StorePortPerformsAccesses := by
  unfold Obligations.StorePortPerformsAccesses
  intro h
  obtain ⟨hready, hlocked, hkeep⟩ := locked_twiceFlawedLocked
  obtain ⟨-, hsecond, -, -⟩ := h 0 0 twiceFlawedLocked (by decide) (by decide) hready
  obtain ⟨t, ht, -, -, hview⟩ := hsecond partWrite [1] [] hlocked (by decide) rfl hkeep
  obtain ⟨hold, hkept⟩ := readByte_twiceFlawedLocked
  have hwrote := hview whole_twiceFlawedLocked 0 (by decide)
  rw [exec_spadPortGrant (by decide) (by decide)] at ht
  cases ht
  rw [Nat.add_zero, hold, hkept] at hwrote
  exact absurd hwrote (by decide)

end Sys2Proof.Machine
end

section
/-! The map of tier N (R186 to R190, R196): one place for each line, and keys that are drawn apart and stay: the obligation
O31. -/

namespace Sys2Proof.Machine

open Sys2Proof

/-! ## Places of lines -/

/-- Two lines of one row of a region whose table entries agree are the same line. -/
theorem eq_of_rotated {l l' n h : Nat} (hn : 0 < n) (hq : l / n = l' / n) (hr : (l % n + h) % n = (l' % n + h) % n) :
    l = l' := by
  have hmod : l % n ≡ l' % n [MOD n] := Nat.ModEq.add_right_cancel' h hr
  have hr' : l % n = l' % n := hmod.eq_of_lt_of_lt (Nat.mod_lt l hn) (Nat.mod_lt l' hn)
  rw [← Nat.div_add_mod l n, hq, hr', Nat.div_add_mod]

/-- The entry of a table at which a line lies, whatever key turns it, tells the lines of one row apart. -/
theorem eq_of_getElem?_rotated {tbl : List Nat} (ht : tbl.Nodup) {l l' h ch : Nat} (hq : l / tbl.length = l' / tbl.length)
    (hl : tbl[(l % tbl.length + h) % tbl.length]? = some ch) (hl' : tbl[(l' % tbl.length + h) % tbl.length]? = some ch) :
    l = l' := by
  have hi := (List.getElem?_eq_some_iff.1 hl).1
  have hn : 0 < tbl.length := Nat.pos_of_ne_zero fun e => by omega
  exact eq_of_rotated hn hq ((List.getElem?_inj hi ht).1 (hl.trans hl'.symm))

/-- The line of tier N that an address lies in. -/
def tierLine (pa : Nat) : Nat := (pa - tierNBase) / 256

theorem div_eq_of_tierLine {pa pa' : Nat} (h : tierNBase ≤ pa) (h' : tierNBase ≤ pa') (e : tierLine pa = tierLine pa') :
    pa / 256 = pa' / 256 := by
  unfold tierLine at e
  unfold tierNBase at h h' e
  omega

/-- The turn of row `q` of zone `z`. -/
def rowTurn (s : State) (z q : Nat) : Nat := keyHash s (zoneSalt s z) q

/-- A line of the global region: its row is the channel's line. -/
structure InGlobal (s : State) (l ch line : Nat) : Prop where
  row : l / s.memc.live.length = line
  below : line < globalRows s
  entry : s.memc.live[(l % s.memc.live.length + rowTurn s (line / 65536) line) % s.memc.live.length]? = some ch

/-- A line of a tile's local region: its row follows the channel's global rows. -/
structure InLocal (s : State) (l ch line t : Nat) : Prop where
  start : localBase s t ≤ l
  row : globalRows s + (l - localBase s t) / (tileLive s t).length = line
  entry : (tileLive s t)[((l - localBase s t) % (tileLive s t).length +
    rowTurn s (63 - (line - globalRows s) / 65536) (line - globalRows s)) % (tileLive s t).length]? = some ch

section
variable {s : State} {pa ch line z : Nat}

/-- An address with a place lies in the global region or in some tile's local region. -/
theorem chanOf_cases (h : chanOf s pa = some (ch, line, z)) :
    InGlobal s (tierLine pa) ch line ∨ ∃ t, InLocal s (tierLine pa) ch line t := by
  unfold chanOf at h
  dsimp only at h
  split at h
  · cases h
  · next hp =>
    split at h
    · next hg =>
      obtain ⟨c, hc, e⟩ := Option.map_eq_some_iff.1 h
      cases e
      exact .inl ⟨rfl, Nat.div_lt_of_lt_mul hg, hc⟩
    · obtain ⟨t, -, ht⟩ := List.exists_of_findSome?_eq_some h
      split at ht
      · next hb =>
        obtain ⟨c, hc, e⟩ := Option.map_eq_some_iff.1 ht
        cases e
        exact .inr ⟨t, hb.2.1, rfl, by rw [Nat.add_sub_cancel_left]; exact hc⟩
      · cases ht

theorem InGlobal.unique {l l' : Nat} (hn : s.memc.live.Nodup) (h : InGlobal s l ch line) (h' : InGlobal s l' ch line) :
    l = l' := eq_of_getElem?_rotated hn (h.row.trans h'.row.symm) h.entry h'.entry

/-- The channel of a local region's line is of the region's tile. -/
theorem InLocal.tile {l t : Nat} (h : InLocal s l ch line t) : ch / 192 = t := by
  have hm := List.mem_of_getElem? h.entry
  exact eq_of_beq (List.mem_filter.1 hm).2

theorem InLocal.unique {l l' t t' : Nat} (hn : s.memc.live.Nodup) (h : InLocal s l ch line t) (h' : InLocal s l' ch line t') :
    l = l' := by
  obtain rfl : t = t' := h.tile.symm.trans h'.tile
  have e := eq_of_getElem?_rotated (hn.filter _) (Nat.add_left_cancel (h.row.trans h'.row.symm)) h.entry h'.entry
  have := h.start
  have := h'.start
  omega

theorem InLocal.not_global {l l' t : Nat} (h : InLocal s l ch line t) (h' : InGlobal s l' ch line) : False :=
  absurd h'.below (Nat.not_lt.2 (h.row ▸ Nat.le_add_right ..))

/-- One line lies at each line of a channel. -/
theorem tierLine_unique {pa' z' : Nat} (hn : s.memc.live.Nodup) (h : chanOf s pa = some (ch, line, z))
    (h' : chanOf s pa' = some (ch, line, z')) : tierLine pa = tierLine pa' := by
  rcases chanOf_cases h with hg | ⟨t, hl⟩ <;> rcases chanOf_cases h' with hg' | ⟨t', hl'⟩
  · exact hg.unique hn hg'
  · exact (hl'.not_global hg).elim
  · exact (hl.not_global hg').elim
  · exact hl.unique hn hl'

end

/-! ## Drawn keys -/

/-- The words that the exclusive or of some of the words given can be. -/
def spanSet : List Nat → Finset Nat
  | [] => {0}
  | w :: t => spanSet t ∪ (spanSet t).image (· ^^^ w)

theorem mem_spanSet {ws : List Nat} {x : Nat} : x ∈ spanSet ws ↔ inSpan ws x = true := by
  induction ws generalizing x with
  | nil => simp [spanSet, inSpan]
  | cons w t ih =>
    have hx : x ∈ (spanSet t).image (· ^^^ w) ↔ x ^^^ w ∈ spanSet t := by
      rw [Finset.mem_image]
      constructor
      · rintro ⟨y, hy, rfl⟩
        rwa [Nat.xor_assoc, Nat.xor_self, Nat.xor_zero]
      · exact fun hy => ⟨_, hy, by rw [Nat.xor_assoc, Nat.xor_self, Nat.xor_zero]⟩
    rw [spanSet, Finset.mem_union, hx, ih, ih, inSpan, Bool.or_eq_true]

theorem card_spanSet_le (ws : List Nat) : (spanSet ws).card ≤ 2 ^ ws.length := by
  induction ws with
  | nil => exact le_rfl
  | cons w t ih =>
    have hu := Finset.card_union_le (spanSet t) ((spanSet t).image (· ^^^ w))
    have hi := Finset.card_image_le (s := spanSet t) (f := (· ^^^ w))
    rw [spanSet, List.length_cons, pow_succ]
    omega

/-- Nine words span 512 of the 1,024, so a word is always left to draw. -/
theorem keyChoices_ne_nil (ws : List Nat) : keyChoices ws ≠ [] := by
  have hcard : (spanSet (ws.take 9)).card < (Finset.range 1024).card := by
    refine (card_spanSet_le _).trans_lt ?_
    rw [Finset.card_range]
    exact (Nat.pow_le_pow_right (by decide) (List.length_take_le 9 ws)).trans_lt (by decide)
  obtain ⟨x, hx, hout⟩ := Finset.exists_mem_notMem_of_card_lt_card hcard
  rw [mem_spanSet, Bool.not_eq_true] at hout
  exact List.ne_nil_of_mem (List.mem_filter.2 ⟨List.mem_range.2 (Finset.mem_range.1 hx), by rw [hout]; rfl⟩)

/-- The word drawn next is one of the choices that the words before it leave. -/
theorem drawnKeys_succ (d k n : Nat) : ∃ w ∈ keyChoices (drawnKeys d k n), drawnKeys d k (n + 1) = w :: drawnKeys d k n := by
  have hlt := Nat.mod_lt (Config.freeKey d (k * 22 + n)).toNat (List.length_pos_iff.2 (keyChoices_ne_nil (drawnKeys d k n)))
  refine ⟨_, List.getElem_mem hlt, ?_⟩
  rw [drawnKeys, List.getElem?_eq_getElem hlt]
  rfl

theorem inSpan_of_mem_keyChoices {ws : List Nat} {w : Nat} (h : w ∈ keyChoices ws) : inSpan (ws.take 9) w = false := by
  simpa using (List.mem_filter.1 h).2

theorem keyWord_drawn {s : State} {k i : Nat} (h : mget s.memc.keys (k * 22 + i) = none) :
    keyWord s k i = ((drawnKeys s.memc.keyDraw k (i + 1)).head?).getD 0 := by
  rw [keyWord, h]

theorem inSpan_keyWord {s : State} {k i : Nat} (h : mget s.memc.keys (k * 22 + i) = none) :
    inSpan ((drawnKeys s.memc.keyDraw k i).take 9) (keyWord s k i) = false := by
  obtain ⟨w, hw, e⟩ := drawnKeys_succ s.memc.keyDraw k i
  rw [keyWord_drawn h, e]
  exact inSpan_of_mem_keyChoices hw

/-! ## Locked keys -/

theorem keyWrite_of_locked {s : State} (v : Nat) (h : pageLocked s pgMEMMAP = true) : keyWrite s v = s := by
  unfold keyWrite
  simp [h]

/-- Settles O31: the line that lies at a place is one of the global region or of the tile of the place's channel; a drawn word
is one of the choices left, of which there are always some; and a key's write asks for an unlocked page. -/
theorem interleaveIsInjective : Obligations.InterleaveIsInjective := by
  unfold Obligations.InterleaveIsInjective
  refine ⟨?place, fun s k i => inSpan_keyWord, fun s v => keyWrite_of_locked v⟩
  case place =>
    intro s pa pa' ch line z z' hn _ hpa hpa' h h'
    exact div_eq_of_tierLine hpa hpa' (tierLine_unique hn h h')

end Sys2Proof.Machine
end

section
/-! A stack's temperature, the memory map's lock, the zeroing of tier N, salts and the imbalance monitor's windows (R189, R190,
R195, R202, R204): the obligation O30. -/

namespace Sys2Proof.Machine

open Sys2Proof

/-- A block register reads as before. -/
theorem BlockSame.fget {s t : State} (h : BlockSame s t) (page : Nat) {f : Field}
    (hf : 256 ≤ f.off ∧ f.off < 4096 ∧ f.lo < 32) : fget t page f = Machine.fget s page f :=
  h.fgeti page f 0 (by rwa [Nat.zero_mul])

/-! ## Temperature -/

/-- The page shows a reading, and the time at the old level is counted. -/
def thermShown (s : State) (stack temp : Nat) : State :=
  let pg := pgMEMC stack
  let l := fget s pg F.MEMC_THERM_LEVEL
  fput (fput (if l = 0 then s else bumpBy s pg (9 + l) 32) pg F.MEMC_THERM_TEMP (min temp 255)) pg F.MEMC_THERM_VALID 1

/-- The level becomes another, which is an event. -/
def thermMoved (s : State) (stack l : Nat) : State :=
  if l = fget s (pgMEMC stack) F.MEMC_THERM_LEVEL then s
  else raiseEvent (fput s (pgMEMC stack) F.MEMC_THERM_LEVEL l) (pgMEMC stack)

section
variable (s : State) (stack temp : Nat)

theorem thermShown_mem : (thermShown s stack temp).mem = s.mem := by
  unfold thermShown
  dsimp only
  split <;> simp

theorem thermMoved_mem (l : Nat) : (thermMoved s stack l).mem = s.mem := by
  unfold thermMoved
  split <;> simp

/-- A block register beside TEMP and VALID reads as before. -/
theorem fget_thermShown_ne {f : Field} (hf : 256 ≤ f.off ∧ f.off < 4096 ∧ f.lo < 32)
    (h : F.MEMC_THERM_TEMP.off / 4 ≠ f.off / 4 ∨ F.MEMC_THERM_TEMP.lo ≠ f.lo ∧ F.MEMC_THERM_VALID.lo ≠ f.lo) :
    fget (thermShown s stack temp) (pgMEMC stack) f = fget s (pgMEMC stack) f := by
  unfold thermShown
  dsimp only
  rw [fget_fput_ne _ _ _ ⟨by decide, hf.2.2, h.imp id And.right⟩, fget_fput_ne _ _ _ ⟨by decide, hf.2.2, h.imp id And.left⟩]
  split
  · rfl
  · exact (bumpBy_blockSame ..).fget _ hf

theorem thermAt_thermShown (l : Nat) : thermAt (thermShown s stack temp) stack l = thermAt s stack l := by
  unfold thermAt
  split
  · exact fget_thermShown_ne _ _ _ (by decide) (by decide)
  · exact fget_thermShown_ne _ _ _ (by decide) (by decide)
  · exact fget_thermShown_ne _ _ _ (by decide) (by decide)
  · rfl

theorem level_thermShown : fget (thermShown s stack temp) (pgMEMC stack) F.MEMC_THERM_LEVEL =
    fget s (pgMEMC stack) F.MEMC_THERM_LEVEL := fget_thermShown_ne _ _ _ (by decide) (by decide)

theorem thermLevel_thermShown : thermLevel (thermShown s stack temp) stack temp = thermLevel s stack temp := by
  unfold thermLevel
  simp only [thermAt_thermShown, level_thermShown, fget_thermShown_ne s stack temp (f := F.MEMC_THRESH_HYST) (by decide) (by decide)]

theorem thermRead_below_trip {temp : Nat} (h : temp < tripAt 2) :
    thermRead s stack temp = thermMoved (thermShown s stack temp) stack (thermLevel s stack temp) := by
  rw [thermMoved, ← thermLevel_thermShown, level_thermShown]
  unfold thermRead
  dsimp only
  rw [if_neg (by simp; omega)]
  rfl

theorem temp_thermShown : fget (thermShown s stack temp) (pgMEMC stack) F.MEMC_THERM_TEMP = min temp 255 := by
  unfold thermShown
  dsimp only
  rw [fget_fput_ne _ _ _ (by decide), fget_fput_same _ _ _ _ (by decide)]
  exact Nat.mod_eq_of_lt ((min_le_right ..).trans_lt (by decide))

theorem valid_thermShown : fbit (thermShown s stack temp) (pgMEMC stack) F.MEMC_THERM_VALID = true := by
  unfold thermShown fbit
  dsimp only
  rw [fget_fput_same _ _ _ _ (by decide)]
  rfl

/-- A block register beside LEVEL reads as before. -/
theorem fget_thermMoved_ne (l : Nat) {f : Field} (hf : 256 ≤ f.off ∧ f.off < 4096 ∧ f.lo < 32)
    (h : F.MEMC_THERM_LEVEL.off / 4 ≠ f.off / 4 ∨ F.MEMC_THERM_LEVEL.lo ≠ f.lo) :
    fget (thermMoved s stack l) (pgMEMC stack) f = fget s (pgMEMC stack) f := by
  unfold thermMoved
  split
  · rfl
  · exact ((raiseEvent_blockSame ..).fget _ hf).trans (fget_fput_ne _ _ _ ⟨by decide, hf.2.2, h⟩)

theorem level_thermMoved {l : Nat} (h : l < 4) :
    fget (thermMoved s stack l) (pgMEMC stack) F.MEMC_THERM_LEVEL = l := by
  unfold thermMoved
  split
  · next e => exact e.symm
  · refine ((raiseEvent_blockSame ..).fget _ (by decide)).trans ((fget_fput_same _ _ _ _ (by decide)).trans ?_)
    exact Nat.mod_eq_of_lt h

theorem thermLevel_lt : thermLevel s stack temp < 4 := by
  have hl : fget s (pgMEMC stack) F.MEMC_THERM_LEVEL < 4 := fgeti_lt s _ F.MEMC_THERM_LEVEL 0 (by decide)
  unfold thermLevel
  dsimp only
  split_ifs <;> omega

theorem memcThermRead_answers {stack : Nat} (hs : stack < 12) {temp : Nat} (ht : temp < tripAt 2) :
    Answers (.memcThermRead stack temp) s fun t =>
      fget t (pgMEMC stack) F.MEMC_THERM_TEMP = min temp 255 ∧ fbit t (pgMEMC stack) F.MEMC_THERM_VALID = true ∧
      fget t (pgMEMC stack) F.MEMC_THERM_LEVEL = thermLevel s stack temp ∧ t.mem = s.mem := by
  refine ⟨_, congrArg Host.Outcome.next ((if_pos hs).trans (thermRead_below_trip s stack ht)), ?_, ?_, ?_, ?_⟩
  · exact (fget_thermMoved_ne _ _ _ (by decide) (by decide)).trans (temp_thermShown ..)
  · exact (congrArg (· == 1) (fget_thermMoved_ne _ _ _ (by decide) (by decide))).trans (valid_thermShown ..)
  · exact level_thermMoved _ _ (thermLevel_lt ..)
  · exact (thermMoved_mem ..).trans (thermShown_mem ..)

end

/-! ## The map's lock and the zeroing of tier N -/

theorem length_liveList_le (s : State) : (liveList s).length ≤ 768 :=
  (List.length_filter_le ..).trans_eq (by decide +kernel)

/-- The tables and the page after a lock. -/
def mapLocked (s : State) : State :=
  let live := liveList s
  let s := putMemc s fun m => { m with live := live, split := min (fget s pgMEMMAP F.MEMMAP_CTL_LOCAL_SPLIT) 32 }
  let s := fput (fput s pgMEMMAP F.MEMMAP_CTL_LOCK 1) pgMEMMAP F.CTL_LOCK 1
  let s := fput (fput s pgMEMMAP F.MEMMAP_STS_LIVE live.length) pgMEMMAP F.MEMMAP_STS_BUILT 1
  fput s pgMEMMAP F.MEMMAP_TLIVE_TILE_LIVE (((List.range 4).map fun t => (tileLive s t).length * 2 ^ (8 * t)).foldl (· + ·) 0)

theorem exec_memmapLock {src : Src} {s : State} (h : Rules s src) (hl : fbit s pgMEMMAP F.MEMMAP_CTL_LOCK = false) :
    exec (.memmapLock src) s = .next (mapLocked s) := by
  refine congrArg Host.Outcome.next ((withSys_of_rules h mapLock).trans ?_)
  unfold mapLock
  rw [if_neg (by simp [hl])]
  rfl

theorem pageLocked_mapLocked (s : State) : pageLocked (mapLocked s) pgMEMMAP = true := by
  unfold pageLocked mapLocked
  dsimp only
  rw [fbit_fput_ne _ _ _ (by decide), fbit_fput_ne _ _ _ (by decide), fbit_fput_ne _ _ _ (by decide), fbit,
    fget_fput_same _ _ _ _ (by decide)]
  rfl

theorem built_mapLocked (s : State) : fbit (mapLocked s) pgMEMMAP F.MEMMAP_STS_BUILT = true := by
  unfold mapLocked
  dsimp only
  rw [fbit_fput_ne _ _ _ (by decide), fbit, fget_fput_same _ _ _ _ (by decide)]
  rfl

theorem live_mapLocked (s : State) : fget (mapLocked s) pgMEMMAP F.MEMMAP_STS_LIVE = (liveList s).length := by
  unfold mapLocked
  dsimp only
  rw [fget_fput_ne _ _ _ (by decide), fget_fput_ne _ _ _ (by decide), fget_fput_same _ _ _ _ (by decide)]
  exact Nat.mod_eq_of_lt ((length_liveList_le s).trans_lt (by decide))

theorem exec_tierNZeroDone {s : State} (hb : fbit s pgMEMMAP F.MEMMAP_STS_BUILT = true)
    (hr : fbit s pgMEMMAP F.MEMMAP_STS_READY = false) : exec .tierNZeroDone s =
      .next (fput (zeroRange s tierNBase (tierNBase + s.memc.live.length * 2 ^ 30)) pgMEMMAP F.MEMMAP_STS_READY 1) :=
  congrArg Host.Outcome.next (if_pos (by rw [hb, hr]; rfl))

theorem readByte_fputi (s : State) (page : Nat) (f : Field) (i v a : Nat) : readByte (fputi s page f i v) a = readByte s a := rfl

theorem readByte_fput (s : State) (page : Nat) (f : Field) (v a : Nat) : readByte (fput s page f v) a = readByte s a := rfl

theorem fbit_fput_one (s : State) (page : Nat) {f : Field} (hf : fieldWidth f = 1) : fbit (fput s page f 1) page f = true := by
  rw [fbit, fget_fput_same _ _ _ _ (by rw [hf]; decide), hf]
  rfl

/-- The zeroed range is that of the live channels. -/
theorem tierNZeroDone_answers {s : State} (hb : fbit s pgMEMMAP F.MEMMAP_STS_BUILT = true)
    (hr : fbit s pgMEMMAP F.MEMMAP_STS_READY = false) : Answers .tierNZeroDone s fun t =>
      fbit t pgMEMMAP F.MEMMAP_STS_READY = true ∧ (∀ o, o < s.memc.live.length * 2 ^ 30 → readByte t (tierNBase + o) = 0) ∧
      SameOutside s t tierNBase (s.memc.live.length * 2 ^ 30) := by
  refine ⟨_, exec_tierNZeroDone hb hr, fbit_fput_one _ _ rfl, fun o ho => ?_, fun a ha => ?_⟩
  · rw [readByte_fput, readByte_zeroRange, if_pos ⟨Nat.le_add_right .., Nat.add_lt_add_left ho _⟩]
  · rw [readByte_fput, readByte_zeroRange, if_neg fun k => ha.elim (Nat.not_lt.2 k.1) (Nat.not_le.2 k.2)]

/-! ## Salts -/

theorem readByte_makeUndef_outside (s : State) {lo hi a : Nat} (h : a < lo ∨ hi ≤ a) :
    readByte (makeUndef s lo hi) a = readByte s a := by
  have hm : mget (makeUndef s lo hi).mem a = mget s.mem a :=
    (mget_mkeep s.mem (fun a => a < lo || hi ≤ a) a).trans (if_pos (by simpa using h))
  have hu : undefTag (makeUndef s lo hi).undefs a = undefTag s.undefs a := by
    refine (undefTag_append [(lo, hi, s.free)] s.undefs a).trans ?_
    rw [undefTag_singleton, if_neg (by omega), Option.none_or]
  unfold readByte blankByte
  rw [hm, hu]

/-- No agent holds a line, and none is on its way. -/
def Uncached (s : State) : Prop := s.coh.copies = [] ∧ s.coh.fly = []

theorem undefRegion_uncached {s : State} (h : Uncached s) (lo hi : Nat) : undefRegion s lo hi = makeUndef s lo hi := by
  unfold undefRegion
  rw [h.1, h.2]
  rfl

/-- Regions that lose their contents leave every byte outside them. -/
theorem readByte_foldl_undefRegion (rs : List (Nat × Nat)) {s : State} (h : Uncached s) {a : Nat}
    (ha : ∀ r ∈ rs, a < r.1 ∨ r.2 ≤ a) :
    readByte (rs.foldl (fun s r => undefRegion s r.1 r.2) s) a = readByte s a := by
  induction rs generalizing s with
  | nil => rfl
  | cons r rs ih =>
    obtain ⟨hr, hrs⟩ := List.forall_mem_cons.1 ha
    rw [List.foldl_cons, undefRegion_uncached h, ih (by exact h) hrs, readByte_makeUndef_outside s hr]

theorem zsaltWrite_answers {src : Src} {m : Nat} (v : BitVec 32) {s : State} (hm : m < 8) (h : Rules s src) :
    Answers (.zsaltWrite src m v) s fun t =>
      fgeti t pgMEMMAP F.MEMMAP_ZSALT_SALT m = v.toNat % 2 ^ fieldWidth F.MEMMAP_ZSALT_SALT ∧
      (s.coh.copies = [] → s.coh.fly = [] →
        ∀ a, (∀ j r, j < 8 → r ∈ zoneRanges s (8 * m + j) → a < r.1 ∨ r.2 ≤ a) → readByte t a = readByte s a) := by
  refine ⟨_, congrArg Host.Outcome.next ((if_pos hm).trans (withSys_of_rules h _)),
    fgeti_fputi_same _ _ _ _ _ (by decide), fun hc hf a ha => ?_⟩
  refine (readByte_fputi ..).trans (readByte_foldl_undefRegion _ ⟨hc, hf⟩ fun r hr => ?_)
  obtain ⟨j, hj, hr⟩ := List.mem_flatMap.1 hr
  exact ha j r (List.mem_range.1 hj) hr

/-! ## The imbalance monitor -/

/-- A window with too few accesses clears the counts and the run. -/
theorem imbEnd_of_few {s : State} (h : (s.memc.imb.map (·.2)).foldl (· + ·) 0 < s.memc.live.length * 1024) :
    imbEnd s = putMemc s fun m =>
      { m with imb := [], imbZone := [], imbFold := [], busiest := mostCounted s.memc.imb, run := 0 } := by
  unfold imbEnd
  simp [Nat.not_le.2 h]

theorem imbWindowEnd_answers {s : State} (he : fbit s pgMEMMAP F.MEMMAP_IMB_IMB_EN = true)
    (h : (s.memc.imb.map (·.2)).foldl (· + ·) 0 < s.memc.live.length * 1024) :
    Answers .imbWindowEnd s fun t => t.memc.imb = [] ∧ t.memc.run = 0 ∧ t.regs = s.regs ∧ t.mem = s.mem :=
  ⟨_, congrArg Host.Outcome.next ((if_pos he).trans (imbEnd_of_few h)), rfl, rfl, rfl, rfl⟩

/-- Settles O30, one lemma for each of the five commands. -/
theorem stackHeatMapAndWindows : Obligations.StackHeatMapAndWindows := by
  unfold Obligations.StackHeatMapAndWindows
  refine ⟨?reading, ?lock, ?zeroed, ?salt, ?window⟩
  case reading => exact fun stack temp s hs ht => memcThermRead_answers s hs ht
  case lock =>
    exact fun src s h hl => ⟨_, exec_memmapLock h hl, rfl, rfl, pageLocked_mapLocked s, built_mapLocked s, live_mapLocked s, rfl⟩
  case zeroed => exact fun s hb hr => tierNZeroDone_answers hb hr
  case salt => exact fun src m v s hm h => zsaltWrite_answers v hm h
  case window => exact fun s he h => imbWindowEnd_answers he h

end Sys2Proof.Machine
end

section
/-! A fold-reach fault (R463 to R465) writes, of the pages of the units of tiles and dies, headers and error logs only: no mark
of a bad channel (R199) changes with it. -/

namespace Sys2Proof.Machine

open Sys2Proof

/-! ## Registers of units -/

/-- The place of a block register of a unit of a tile or a C-die (block types 0x10 to 0x2F), outside the words 0x108 to 0x118
that hold error logs. -/
def UnitPlace (k : Nat) : Prop :=
  0x10000 ≤ k / 32768 ∧ k / 32768 < 0x30000 ∧ 64 ≤ k / 32 % 1024 ∧ (k / 32 % 1024 < 66 ∨ 70 < k / 32 % 1024)

/-- `t` holds those registers as `s` does. -/
structure UnitRegsKept (s t : State) : Prop where
  same : ∀ k, UnitPlace k → mget t.regs k = mget s.regs k

theorem UnitRegsKept.refl (s : State) : UnitRegsKept s s := ⟨fun _ _ => rfl⟩

theorem UnitRegsKept.trans {s t u : State} (h : UnitRegsKept s t) (k : UnitRegsKept t u) : UnitRegsKept s u :=
  ⟨fun j hj => (k.same j hj).trans (h.same j hj)⟩

theorem UnitRegsKept.after {s t u : State} (k : UnitRegsKept t u) (h : UnitRegsKept s t) : UnitRegsKept s u := h.trans k

theorem UnitRegsKept.of_regs {s t : State} (h : t.regs = s.regs) : UnitRegsKept s t := ⟨fun _ _ => by rw [h]⟩

theorem BlockSame.unitRegsKept {s t : State} (h : BlockSame s t) : UnitRegsKept s t := ⟨fun k hk => h.same k hk.2.2.1⟩

theorem UnitRegsKept.ite {s t u : State} {c : Prop} [Decidable c] (h : UnitRegsKept s t) (k : UnitRegsKept s u) :
    UnitRegsKept s (if c then t else u) := by
  split
  · exact h
  · exact k

theorem UnitRegsKept.ite_fst {α : Type} {s : State} {a b : State × α} {c : Prop} [Decidable c] (h : UnitRegsKept s a.1)
    (k : UnitRegsKept s b.1) : UnitRegsKept s (if c then a else b).1 := by
  split
  · exact h
  · exact k

theorem foldl_unitRegsKept_of_mem {α : Type} {g : State → α → State} {l : List α}
    (hg : ∀ s, ∀ x ∈ l, UnitRegsKept s (g s x)) (s : State) : UnitRegsKept s (l.foldl g s) :=
  List.foldlRecOn (motive := UnitRegsKept s) l g (.refl s) fun _ h x hx => h.trans (hg _ x hx)

theorem foldl_unitRegsKept {α : Type} {g : State → α → State} (hg : ∀ s x, UnitRegsKept s (g s x)) (l : List α) (s : State) :
    UnitRegsKept s (l.foldl g s) := foldl_unitRegsKept_of_mem (fun s x _ => hg s x) s

theorem foldl_regs {α : Type} {g : State → α → State} (hg : ∀ s x, (g s x).regs = s.regs) (l : List α) (s : State) :
    (l.foldl g s).regs = s.regs :=
  List.foldlRecOn (motive := fun t : State => t.regs = s.regs) l g rfl fun _ h x _ => (hg _ x).trans h

theorem bump_unitRegsKept (s : State) (page n : Nat) : UnitRegsKept s (bump s page n) := (bump_blockSame ..).unitRegsKept

theorem bumpBy_unitRegsKept (s : State) (page n k : Nat) : UnitRegsKept s (bumpBy s page n k) :=
  (bumpBy_blockSame ..).unitRegsKept

theorem setLogged_unitRegsKept (s : State) (page : Nat) : UnitRegsKept s (setLogged s page) :=
  (setErr_blockSame ..).unitRegsKept

theorem fputi_unitRegsKept {s : State} {page : Nat} {f : Field} {i v : Nat}
    (h : ¬ UnitPlace (fieldKey page (f.off + i * f.stride) f.lo)) : UnitRegsKept s (fputi s page f i v) :=
  ⟨fun _ hk => mget_mput_ne _ _ fun e => h (e ▸ hk)⟩

/-- A field of a page of the package or of a host die, a context or a fold. -/
theorem fputi_unitRegsKept_page (s : State) {page : Nat} {f : Field} {i : Nat} (v : Nat)
    (h : 0x30000 ≤ page ∨ page < 0x10000 ∧ f.off + i * f.stride < 4096 ∧ f.lo < 32) :
    UnitRegsKept s (fputi s page f i v) := by
  refine fputi_unitRegsKept fun k => ?_
  unfold UnitPlace fieldKey at k
  omega

theorem fput_unitRegsKept_page (s : State) {page : Nat} {f : Field} (v : Nat)
    (h : 0x30000 ≤ page ∨ page < 0x10000 ∧ f.off < 4096 ∧ f.lo < 32) : UnitRegsKept s (fput s page f v) :=
  fputi_unitRegsKept_page s v (by rwa [Nat.zero_mul])

/-- A field of an error log. -/
theorem fput_unitRegsKept_log (s : State) (page : Nat) {f : Field} (v : Nat)
    (h : 66 ≤ f.off / 4 ∧ f.off / 4 ≤ 70 ∧ f.lo < 32) : UnitRegsKept s (fput s page f v) := by
  refine fputi_unitRegsKept (i := 0) fun k => ?_
  unfold UnitPlace fieldKey at k
  omega

theorem logFault_unitRegsKept (s : State) (typ cause unit detail : Nat) :
    UnitRegsKept s (logFault s typ cause unit detail) := by
  have hfield (t : State) {f : Field} (v : Nat) (hf : f.off < 4096 ∧ f.lo < 32) : UnitRegsKept t (fput t pgFLT f v) :=
    fput_unitRegsKept_page t v (.inr ⟨by decide, hf⟩)
  have hlog (m : FMap (BitVec 128)) (v : Nat) :
      UnitRegsKept s (bump (fput { s with fltLog := m } pgFLT F.FLT_LOGPTR_TAIL v) pgFLT 10) :=
    ((hfield _ _ (by decide)).trans (bump_unitRegsKept ..)).after (.of_regs rfl)
  exact .ite ((hlog ..).trans ((hfield _ _ (by decide)).trans ((hfield _ _ (by decide)).trans (bump_unitRegsKept ..))))
    (hlog ..)

/-! ## Memory and lines whose contents are undefined -/

/-- `t` is `s` but for marks of poison. -/
def PoisonOnly (s t : State) : Prop := t = { s with poison := t.poison }

theorem PoisonOnly.trans {s t u : State} (h : PoisonOnly s t) (k : PoisonOnly t u) : PoisonOnly s u := by
  unfold PoisonOnly at *
  rw [k, h]

theorem storeBytes_poisonOnly (s : State) (pa : Nat) (bs : List Byte) (p : Bool) :
    PoisonOnly (writeBytes s pa bs) (storeBytes s pa bs p) := by
  have hset (t : State) (a : Nat) (b : Bool) : PoisonOnly t (setPoison t a b) := rfl
  have hmark (t : State) (n : Nat) : PoisonOnly t (poisonRange t pa n) := by
    induction n generalizing t with
    | zero => rfl
    | succ n ih => exact (hset ..).trans (ih _)
  have hclear (t : State) (n : Nat) : PoisonOnly t (unpoisonWhole t pa n) := by
    unfold unpoisonWhole
    dsimp only
    generalize (if isSpadPa pa then 8 else 256) = g
    split
    · rfl
    · exact List.foldlRecOn (motive := PoisonOnly t) _ _ rfl fun _ h _ _ => h.trans (hset ..)
  unfold storeBytes
  dsimp only
  split
  · exact hmark ..
  · exact hclear ..

theorem storeBytes_regs (s : State) (pa : Nat) (bs : List Byte) (p : Bool) : (storeBytes s pa bs p).regs = s.regs := by
  rw [storeBytes_poisonOnly, writeBytes_eq_setMem]

theorem recallLine_regs (s : State) (line : Nat) : (recallLine s line).regs = s.regs := by
  unfold recallLine
  dsimp only
  split
  · exact storeBytes_regs ..
  · rfl

theorem recallRange_regs (s : State) (pa n : Nat) : (recallRange s pa n).regs = s.regs := by
  unfold recallRange
  split
  · rfl
  · exact foldl_regs (fun _ _ => recallLine_regs ..) ..

theorem undefLines_regs (s : State) (lo hi : Nat) : (undefLines s lo hi).regs = s.regs := foldl_regs recallLine_regs ..

theorem undefVa_regs (s : State) (x : StreamId) (ctx va n : Nat) : (undefVa s x ctx va n).regs = s.regs := by
  unfold undefVa
  split
  · rfl
  · refine foldl_regs (fun t l => ?_) ..
    split
    · split
      · rfl
      · exact undefLines_regs ..
    · exact undefLines_regs ..
    · rfl

theorem undefRange_regs (s : State) (x : StreamId) (who : Who) (ctx va n : Nat) :
    (undefRange s x who ctx va n).regs = s.regs := by
  unfold undefRange
  refine foldl_regs (fun t l => ?_) ..
  split
  · split
    · exact recallRange_regs ..
    · rfl
  · rfl

theorem storeBytes_unitRegsKept (s : State) (pa : Nat) (bs : List Byte) (p : Bool) :
    UnitRegsKept s (storeBytes s pa bs p) := .of_regs (storeBytes_regs ..)

theorem setPoison_unitRegsKept (s : State) (pa : Nat) (p : Bool) : UnitRegsKept s (setPoison s pa p) :=
  .of_regs (setPoison_regs ..)

/-! ## A line's home and its agents -/

section
variable (s : State) (line agent : Nat)

theorem putCoh_unitRegsKept (f : CohSt → CohSt) : UnitRegsKept s (putCoh s f) := .of_regs rfl

theorem putCopy_unitRegsKept (c : Option Copy) : UnitRegsKept s (putCopy s line agent c) := putCoh_unitRegsKept ..

theorem dirPut_unitRegsKept (vec : Nat) (sole : Bool) : UnitRegsKept s (dirPut s line vec sole) := putCoh_unitRegsKept ..

theorem cohError_unitRegsKept (pg cause : Nat) : UnitRegsKept s (cohError s pg cause agent line) := by
  have hlog (t : State) {f : Field} (v : Nat) (hf : 66 ≤ f.off / 4 ∧ f.off / 4 ≤ 70 ∧ f.lo < 32) :
      UnitRegsKept t (fput t pg f v) := fput_unitRegsKept_log t pg v hf
  unfold cohError
  exact .ite (.refl s) ((hlog s _ (by decide)).trans ((hlog _ _ (by decide)).trans ((hlog _ _ (by decide)).trans
    ((hlog _ _ (by decide)).trans ((hlog _ _ (by decide)).trans (setLogged_unitRegsKept ..))))))

theorem poisonLine_unitRegsKept : UnitRegsKept s (poisonLine s line agent) :=
  (setPoison_unitRegsKept ..).trans ((bump_unitRegsKept ..).trans (cohError_unitRegsKept ..))

theorem resolveDead_unitRegsKept : UnitRegsKept s (resolveDead s line agent) := by
  have h (f : CohSt → CohSt) := putCoh_unitRegsKept s f
  unfold resolveDead
  dsimp only
  split
  · exact h _
  · refine .ite (h _) (.ite ?_ ((h _).trans (dirPut_unitRegsKept ..)))
    exact (h _).trans ((putCoh_unitRegsKept ..).trans ((poisonLine_unitRegsKept ..).trans (dirPut_unitRegsKept ..)))

theorem homeTouch_unitRegsKept : UnitRegsKept s (homeTouch s line) := by
  unfold homeTouch
  dsimp only
  split
  · exact (bump_unitRegsKept ..).trans (putCoh_unitRegsKept ..)
  · exact (bump_unitRegsKept ..).after (.of_regs rfl)

theorem homeWrite_unitRegsKept (data : List Byte) (poison : Bool) : UnitRegsKept s (homeWrite s line data poison) :=
  .ite (homeTouch_unitRegsKept ..) ((homeTouch_unitRegsKept ..).trans (storeBytes_unitRegsKept ..))

theorem homeAccept_unitRegsKept : UnitRegsKept s (homeAccept s line) :=
  (bump_unitRegsKept ..).trans ((putCoh_unitRegsKept ..).trans
    (foldl_unitRegsKept (fun t a => resolveDead_unitRegsKept t line a) ..))

theorem snoopNow_unitRegsKept (k : Snoop) : UnitRegsKept s (snoopNow s k line agent).1 := by
  have hb := bump_unitRegsKept s (pgCOH (homeOf s line)) 1
  have hput (t : State) (c : Option Copy) := putCopy_unitRegsKept t line agent c
  have hnone (t : State) : UnitRegsKept t (if isOwner t agent line then bump t (pgCOH (homeOf s line)) 3 else t) :=
    .ite (bump_unitRegsKept ..) (.refl t)
  have hforward (t : State) (c : Option Copy) :
      UnitRegsKept t (putCopy (bump t (pgCOH (homeOf s line)) 2) line agent c) := (bump_unitRegsKept ..).trans (hput ..)
  unfold snoopNow
  dsimp only
  split
  · exact hb.trans (hnone _)
  · split <;> dsimp only
    · exact hb.trans (hnone _)
    · exact hb
    · exact hb
    · exact hb.trans ((hput ..).trans (hnone _))
    · exact hb.trans ((hput ..).trans (hnone _))
    · exact hb.trans (hforward ..)
    · exact hb.trans (hforward ..)
    · exact hb.trans (hforward ..)
    · exact hb.trans ((homeWrite_unitRegsKept ..).trans (hput ..))
    · exact hb.trans ((homeWrite_unitRegsKept ..).trans (hforward ..))
    · exact hb.trans (hforward ..)
    · exact hb.trans (hforward ..)

theorem foldl_snoopNow_unitRegsKept (k : Snoop) (l : List Nat) :
    UnitRegsKept s (l.foldl (fun s a => (snoopNow s k line a).1) s) :=
  foldl_unitRegsKept (fun t a => snoopNow_unitRegsKept t line a k) ..

theorem homeInvalidate_unitRegsKept : UnitRegsKept s (homeInvalidate s line) := by
  unfold homeInvalidate
  split
  · exact .refl s
  · exact (foldl_snoopNow_unitRegsKept ..).trans (dirPut_unitRegsKept ..)

theorem homeRoom_unitRegsKept : UnitRegsKept s (homeRoom s line) := by
  unfold homeRoom
  refine .ite (.refl s) (.ite (.refl s) ?_)
  split
  · exact .refl s
  · exact (bump_unitRegsKept ..).trans (homeInvalidate_unitRegsKept ..)

theorem unreadable_unitRegsKept : UnitRegsKept s (unreadable s line) :=
  ((bump_blockSame ..).trans (bump_blockSame ..)).unitRegsKept.trans
    ((cohError_unitRegsKept ..).trans (dirPut_unitRegsKept ..))

theorem homeEcc_unitRegsKept (e : HomeEcc) : UnitRegsKept s (homeEcc s line e) := by
  cases e with
  | clean => exact .refl s
  | corrected => exact bump_unitRegsKept ..
  | data => exact (setPoison_unitRegsKept ..).trans ((bump_unitRegsKept ..).trans (cohError_unitRegsKept ..))
  | directory => exact .refl s
  | memory => exact setPoison_unitRegsKept ..

theorem homeFound_unitRegsKept (e : HomeEcc) : UnitRegsKept s (homeFound s line e) := by
  unfold homeFound
  split
  · exact (unreadable_unitRegsKept ..).trans (homeInvalidate_unitRegsKept ..)
  · exact homeEcc_unitRegsKept ..

theorem visitorEcc_unitRegsKept (e : Ecc) : UnitRegsKept s (visitorEcc s agent line e) := by
  unfold visitorEcc
  split
  · exact .refl s
  · exact .refl s
  · exact .ite (bump_unitRegsKept ..) (.refl s)
  · refine .ite (.refl s) ?_
    have h : UnitRegsKept s (cohError (bump s (pgCOH agent) 12) (pgCOH agent) 3 agent line) :=
      (bump_unitRegsKept ..).trans (cohError_unitRegsKept ..)
    dsimp only
    split
    · exact h.trans (putCopy_unitRegsKept ..)
    · exact h.trans (putCopy_unitRegsKept ..)
    · exact h.trans (putCopy_unitRegsKept ..)
    · exact h

theorem agentFetch_unitRegsKept (sole : Bool) : UnitRegsKept s (agentFetch s agent line sole).1 := by
  have h : UnitRegsKept s (homeRoom (homeAccept s line) line) :=
    (homeAccept_unitRegsKept ..).trans (homeRoom_unitRegsKept ..)
  have hdir (t : State) (v : Nat) (b : Bool) := dirPut_unitRegsKept t line v b
  have hput (t : State) (c : Copy) := putCopy_unitRegsKept t line agent (some c)
  have hgive (t : State) (c : Copy) : UnitRegsKept t (putCopy (homeGive t line).1 line agent (some c)) :=
    (homeTouch_unitRegsKept ..).trans (hput ..)
  unfold agentFetch
  dsimp only
  split
  · exact h.trans ((hdir ..).trans (hgive ..))
  · split
    · exact h.trans ((foldl_snoopNow_unitRegsKept ..).trans ((hdir ..).trans (hgive ..)))
    · exact h.trans ((hdir ..).trans (hgive ..))
  · split
    · exact h.trans (hgive ..)
    · have hs (k : Snoop) (o : Nat) := h.trans (snoopNow_unitRegsKept (homeRoom (homeAccept s line) line) line o k)
      split
      · split <;> dsimp only
        · exact (hs ..).trans ((hdir ..).trans (hput ..))
        · exact (hs ..).trans ((hdir ..).trans (hput ..))
      · exact .ite_fst ((hs ..).trans ((hdir ..).trans (hgive ..))) ((hs ..).trans ((hdir ..).trans (hgive ..)))

theorem agentHold_unitRegsKept (sole : Bool) (h : HomeEcc) (v : Ecc) :
    UnitRegsKept s (agentHold s agent line sole h v).1 := by
  have hv := visitorEcc_unitRegsKept s line agent v
  have hfetch (b : Bool) : UnitRegsKept s (agentFetch (homeFound (visitorEcc s agent line v) line h) agent line b).1 :=
    hv.trans ((homeFound_unitRegsKept ..).trans (agentFetch_unitRegsKept ..))
  unfold agentHold
  dsimp only
  split
  · split
    · exact hfetch _
    · exact hv
  · exact hfetch _

theorem agentYield_unitRegsKept : UnitRegsKept s (agentYield s agent line) := by
  have h := putCopy_unitRegsKept s line agent none
  unfold agentYield
  split
  · exact .refl s
  · refine .ite (h.trans ?_) h
    exact (homeWrite_unitRegsKept ..).trans ((bump_unitRegsKept ..).trans (dirPut_unitRegsKept ..))

end

section
variable (s : State) (q : Asker) (pa : Nat) (bs : List Byte) (p : Bool) (h : HomeEcc)

theorem homeStore_unitRegsKept : UnitRegsKept s (homeStore s pa bs p).1 := by
  have h : UnitRegsKept s (homeTouch (homeTake s (lineOf pa)) (lineOf pa)) :=
    (homeAccept_unitRegsKept ..).trans ((homeInvalidate_unitRegsKept ..).trans (homeTouch_unitRegsKept ..))
  unfold homeStore
  dsimp only
  split
  · exact h
  · exact h.trans (storeBytes_unitRegsKept ..)

theorem cohWrite_unitRegsKept (v : Ecc) : UnitRegsKept s (cohWrite s q pa bs p h v).1 := by
  unfold cohWrite
  dsimp only
  split
  · split <;> dsimp only
    · exact agentHold_unitRegsKept ..
    · exact (agentHold_unitRegsKept ..).trans (putCopy_unitRegsKept ..)
  · exact (visitorEcc_unitRegsKept ..).trans ((agentYield_unitRegsKept ..).trans
      ((homeFound_unitRegsKept ..).trans (homeStore_unitRegsKept ..)))
  · exact (homeFound_unitRegsKept ..).trans (homeStore_unitRegsKept ..)

end

/-! ## Writes at a store's port and from a bus -/

theorem spadLog_unitRegsKept (s : State) (d st cls off : Nat) (ue poisonRead : Bool) :
    UnitRegsKept s (spadLog s d st cls off ue poisonRead) := by
  have hlog (t : State) {f : Field} (v : Nat) (hf : 66 ≤ f.off / 4 ∧ f.off / 4 ≤ 70 ∧ f.lo < 32) :
      UnitRegsKept t (fput t (pgSPAD d) f v) := fput_unitRegsKept_log t _ v hf
  exact .ite (.refl s) ((hlog s _ (by decide)).trans ((hlog _ _ (by decide)).trans ((hlog _ _ (by decide)).trans
    ((hlog _ _ (by decide)).trans ((hlog _ _ (by decide)).trans ((hlog _ _ (by decide)).trans (setLogged_unitRegsKept ..)))))))

theorem meetFlaw_unitRegsKept (cls d st : Nat) (s : State) (e : Nat × Flaw) : UnitRegsKept s (meetFlaw cls d st s e) := by
  unfold meetFlaw
  dsimp only
  split
  · exact (bump_unitRegsKept ..).trans (spadLog_unitRegsKept ..)
  · exact ((bump_unitRegsKept ..).trans (spadLog_unitRegsKept ..)).after (.of_regs rfl)

theorem granWrite_unitRegsKept (d cls view : Nat) (p : Bool) (acc : State × Bool) (gran off : Nat) (bs : List Byte) :
    UnitRegsKept acc.1 (granWrite d cls view p acc gran off bs).1 := by
  have hw (t : State) (pa : Nat) (bs : List Byte) : UnitRegsKept t (writeBytes t pa bs) :=
    .of_regs (by rw [writeBytes_eq_setMem])
  have hput (t : State) (st : Nat) (x : SpadSt) : UnitRegsKept t (putSpad t d st x) := .of_regs rfl
  have hmet (fs : List (Nat × Flaw)) : UnitRegsKept acc.1 (fs.foldl (meetFlaw cls d (storeAt (gran * 8))) acc.1) :=
    foldl_unitRegsKept (meetFlaw_unitRegsKept _ _ _) ..
  unfold granWrite
  dsimp only
  split
  · exact (hw ..).trans ((hput ..).trans (setPoison_unitRegsKept ..))
  · split
    · exact hmet _
    · dsimp only
      exact .ite ((hmet _).trans ((hw ..).trans ((hput ..).trans (setPoison_unitRegsKept ..))))
        ((hmet _).trans ((hw ..).trans (hput ..)))

theorem lineStore_unitRegsKept (s : State) (d cls : Nat) (secure : Bool) (view off : Nat) (bs : List Byte) (p : Bool) :
    UnitRegsKept s (lineStore s d cls secure view off bs p).1 := by
  have hb := bumpBy_unitRegsKept s (pgSPAD d) 3 (if lockedWrite view off bs.length then 2 else 1)
  unfold lineStore
  dsimp only
  split
  · exact hb.trans (bump_unitRegsKept ..)
  · exact List.foldlRecOn (motive := fun acc : State × Bool => UnitRegsKept s acc.1) _ _
      (.ite hb (hb.trans (bump_unitRegsKept ..))) fun _ h _ _ => h.trans (granWrite_unitRegsKept ..)

theorem portWrite_unitRegsKept (s : State) (d cls : Nat) (secure : Bool) (view off : Nat) (bs : List Byte) (p : Bool) :
    UnitRegsKept s (portWrite s d cls secure view off bs p).1 := by
  unfold portWrite
  exact List.foldlRecOn (motive := fun acc : State × PortWr => UnitRegsKept s acc.1) _ _ (.refl s)
    fun _ h _ _ => h.trans (lineStore_unitRegsKept ..)

theorem busWriteLine_unitRegsKept (s : State) (pa : Nat) (bs : List Byte) (p keep : Bool) (q : Asker) (h : HomeEcc) :
    UnitRegsKept s (busWriteLine s pa bs p keep q h).1 := by
  unfold busWriteLine
  dsimp only
  split
  · exact portWrite_unitRegsKept ..
  · exact .ite_fst (cohWrite_unitRegsKept ..) (bump_unitRegsKept ..)
  · exact cohWrite_unitRegsKept ..
  · exact cohWrite_unitRegsKept ..
  · exact .refl s

theorem busWrite_unitRegsKept (s : State) (pa : Nat) (bs : List Byte) (p keep : Bool) :
    UnitRegsKept s (busWrite s pa bs p keep).1 := by
  unfold busWrite
  exact List.foldlRecOn (motive := fun acc : State × Bool => UnitRegsKept s acc.1) _ _ (.refl s)
    fun _ h _ _ => h.trans (busWriteLine_unitRegsKept ..)

/-! ## Flits, commands and collectives -/

theorem sendFlit_unitRegsKept (s : State) (f : Flit) (spread : Bool) : UnitRegsKept s (sendFlit s f spread) := by
  have hroute (t : State) (g : Flit) : UnitRegsKept t (routeFlit t g none) := by
    unfold routeFlit
    split
    · exact bump_unitRegsKept ..
    · next det _ =>
      have hput (u : State) (p : Nat) (x : PortSt) : UnitRegsKept u (putPort u p x) := .of_regs rfl
      have hd : UnitRegsKept t (if det then bump t pgFAB 2 else t) := .ite (bump_unitRegsKept ..) (.refl t)
      dsimp only
      split
      · exact hd.trans (bump_unitRegsKept ..)
      · exact hd.trans (hput ..)
  have hdraw : UnitRegsKept s (drawVia s f.dstPkg).2 := .of_regs rfl
  exact UnitRegsKept.trans (.ite (hdraw.trans (bump_unitRegsKept ..)) (.refl s)) (hroute ..)

theorem finishCmd_unitRegsKept (s : State) (id : CmdId) (r : Res) : UnitRegsKept s (finishCmd s id r) := by
  have hcount : UnitRegsKept s (countFault s id.ctx r.code) := by
    unfold countFault
    split
    · exact .ite (bump_unitRegsKept ..) (.ite (bump_unitRegsKept ..) (.refl s))
    · exact .refl s
  have hupd (g : Cmd → Cmd) : UnitRegsKept s (updCmd (countFault s id.ctx r.code) id g) := hcount.trans (.of_regs rfl)
  have htally (t : State) (c k n : Nat) : UnitRegsKept t (tallyAdd t c k n) := .of_regs (tallyAdd_regs ..)
  unfold finishCmd
  split
  · exact .refl s
  · exact .ite (.refl s) (.ite (hupd _) (.ite ((hupd _).trans (htally ..)) ((hupd _).trans (bump_unitRegsKept ..))))

theorem colEnd_unitRegsKept (s : State) (x : ColSt) (r : Res) : UnitRegsKept s (colEnd s x r) := by
  have hb (t : State) (pg n : Nat) := bump_unitRegsKept t pg n
  have hundef : UnitRegsKept s (colUndef s x) := by
    unfold colUndef
    split
    · exact .refl s
    · exact .of_regs (foldl_regs (fun _ _ => undefRange_regs ..) ..)
  have h : UnitRegsKept s (if r.code = stTIER then colUndef s x else s) := .ite hundef (.refl s)
  have hcount (t : State) : UnitRegsKept t (if r.code = stOVERFLOW then bump t (pgCOLL x.tile 0) 11
      else if r.code = stNOTE then bump t (pgCOLL x.tile 0) 12
      else if r.code = stABORT then bump t (pgCOLL x.tile 0) 13 else if r.code = stPEER then bump t pgFAB 11 else t) :=
    .ite (hb ..) (.ite (hb ..) (.ite (hb ..) (.ite (hb ..) (.refl t))))
  unfold colEnd
  exact h.trans (((hb ..).trans ((hcount _).trans (finishCmd_unitRegsKept ..))).after (.of_regs rfl))

theorem colFoldReset_unitRegsKept (s : State) (f : Nat) : UnitRegsKept s (colFoldReset s f) := by
  have haborts (t : State) (x : ColSt) (ax : List Nat) : UnitRegsKept t (sendAborts t x ax) := by
    unfold sendAborts
    refine foldl_unitRegsKept (fun u i => foldl_unitRegsKept (fun v y => ?_) ..) ..
    exact .ite (.refl v) ((bump_unitRegsKept ..).trans (sendFlit_unitRegsKept ..))
  unfold colFoldReset
  refine (foldl_unitRegsKept (fun t x => ?_) ..).trans (foldl_unitRegsKept_of_mem (fun t n hn => .ite ?_ (.refl t)) _)
  · exact (haborts ..).trans (colEnd_unitRegsKept ..)
  · have := List.mem_range.1 hn
    exact fputi_unitRegsKept_page t 0 (.inr ⟨by decide, by simp only [F.FAB_TEAM_ENABLE]; omega, by decide⟩)

theorem undefCol_regs (s : State) (x : ColSt) : (undefCol s x).regs = s.regs := by
  unfold undefCol
  split
  · rfl
  · dsimp only
    split
    · split
      · exact foldl_regs (fun _ _ => undefVa_regs ..) ..
      · rfl
    · exact foldl_regs (fun _ _ => undefVa_regs ..) ..

/-! ## Windows and job rings -/

theorem windowsFoldReset_unitRegsKept (s : State) (f : Nat) : UnitRegsKept s (windowsFoldReset s f) := by
  have hput (t : State) (g : FabSt → FabSt) : UnitRegsKept t (putFab t g) := .of_regs rfl
  unfold windowsFoldReset
  refine (hput ..).trans ((foldl_unitRegsKept (fun _ _ => sendFlit_unitRegsKept ..) ..).trans
    ((foldl_unitRegsKept_of_mem (fun t w hw => ?_) _).trans (foldl_unitRegsKept_of_mem (fun t i hi => .ite ?_ (.refl t)) _)))
  · have := (mem_setBitsOf.1 hw).1
    exact fputi_unitRegsKept_page t 0 (.inr ⟨by decide, by simp only [F.WIN_OUT_ENABLE]; omega, by decide⟩)
  · have := List.mem_range.1 hi
    exact fputi_unitRegsKept_page t 0 (.inr ⟨by decide, by simp only [F.WIN_IN_ENABLE]; omega, by decide⟩)

theorem postJobs_unitRegsKept (s : State) (h f : Nat) (l : List JobSt) : UnitRegsKept s (postJobs s h f l) := by
  have hput (t : State) (r : JobRing) : UnitRegsKept t (putRing t h f r) := .of_regs rfl
  have hwrite (t : State) (b : Bool) (pa : Nat) (bs : List Byte) :
      UnitRegsKept t (if b then (busWrite t pa bs false false).1 else t) := .ite (busWrite_unitRegsKept ..) (.refl t)
  have htally (t : State) (k c n : Nat) : UnitRegsKept t (if k = 1 then tallyAdd t c n 1 else t) :=
    .ite (.of_regs (tallyAdd_regs ..)) (.refl t)
  induction l generalizing s with
  | nil => exact hput ..
  | cons j t ih =>
    unfold postJobs
    split
    · exact hput ..
    · exact .ite (hput ..) ((hput ..).trans ((hwrite ..).trans ((htally ..).trans (ih _))))

theorem inpFoldReset_unitRegsKept (s : State) (f : Nat) : UnitRegsKept s (inpFoldReset s f) := by
  have hput (t : State) (h : Nat) (r : JobRing) : UnitRegsKept t (putRing t h f r) := .of_regs rfl
  have hfield (t : State) (h : Nat) (g : Field) (i : Nat) : UnitRegsKept t (fputi t (pgINP h) g i 0) :=
    fputi_unitRegsKept_page t 0 (.inl (by unfold pgINP pageOf; omega))
  unfold inpFoldReset
  refine foldl_unitRegsKept (fun t h => ?_) ..
  exact (hfield ..).trans ((hput ..).trans ((postJobs_unitRegsKept ..).trans
    ((foldl_unitRegsKept (fun v _ => .ite (hfield ..) (.refl v)) ..).trans
      (foldl_unitRegsKept (fun v _ => .ite (hfield ..) (.refl v)) ..))))

/-! ## The fold stops -/

theorem dropHead_unitRegsKept (s : State) (c q : Nat) : UnitRegsKept s (dropHead s c q) := by
  unfold dropHead
  split
  · exact (fputi_unitRegsKept_page (page := pgCTX c) _ _ (.inl (by unfold pgCTX pageOf; omega))).after (.of_regs rfl)
  · exact .refl s

theorem foldStop_unitRegsKept (s : State) (f : Nat) : UnitRegsKept s (foldStop s f) := by
  have hfold (t : State) (g : Field) (v : Nat) : UnitRegsKept t (fput t (pgFOLD f) g v) :=
    fput_unitRegsKept_page t v (.inl (by unfold pgFOLD pageOf; omega))
  have hpeer (t : State) (l w : Nat) : UnitRegsKept t (fputi t (pgHOSTL l) F.HOSTL_PEER_ENABLE w 0) :=
    fputi_unitRegsKept_page t 0 (.inl (by unfold pgHOSTL pageOf; omega))
  unfold foldStop
  exact (hfold ..).trans
    ((foldl_unitRegsKept (fun _ _ => foldl_unitRegsKept (fun _ _ => dropHead_unitRegsKept ..) ..) ..).trans
    ((windowsFoldReset_unitRegsKept ..).trans
    ((foldl_unitRegsKept (fun _ _ => foldl_unitRegsKept (fun t _ => .ite (hpeer ..) (.refl t)) ..) ..).trans
    ((inpFoldReset_unitRegsKept ..).trans
    ((colFoldReset_unitRegsKept ..).after (.of_regs (foldl_regs undefCol_regs ..)))))))

theorem foldFault_unitRegsKept (s : State) (f cause unit detail : Nat) :
    UnitRegsKept s (foldFault s f cause unit detail) := by
  have hfatal (v : Nat) : UnitRegsKept s (fput s pgFLT F.FLT_FOLDFATAL_FOLD v) :=
    fput_unitRegsKept_page s v (.inr (by decide))
  have hstart : UnitRegsKept s (resetStart s f cause unit detail) :=
    .ite (bump_unitRegsKept ..) ((hfatal _).trans ((foldStop_unitRegsKept ..).after (.of_regs rfl)))
  exact .ite hstart (.ite (bump_unitRegsKept ..) ((hfatal _).trans (raiseEvent_blockSame ..).unitRegsKept))

end Sys2Proof.Machine
end

section
/-! The memory controllers (R185, R194, R197 to R200, R203, R205): the order of arrivals, the access that an idle controller
performs, and channels that go bad: the obligation O29. -/

namespace Sys2Proof.Machine

open Sys2Proof

/-! ## Arrivals -/

theorem arrivalIn_perm (x : MemAccess) (l : List MemAccess) : (arrivalIn x l).Perm (x :: l) := by
  induction l with
  | nil => exact .refl _
  | cons y t ih =>
    rw [arrivalIn]
    split
    · exact (ih.cons y).trans (.swap x y t)
    · exact .refl _

theorem arrivalIn_sorted (x : MemAccess) {l : List MemAccess} (h : l.Pairwise fun a b => a.input ≤ b.input) :
    (arrivalIn x l).Pairwise fun a b => a.input ≤ b.input := by
  induction l with
  | nil => exact List.pairwise_singleton ..
  | cons y t ih =>
    obtain ⟨hy, ht⟩ := List.pairwise_cons.1 h
    rw [arrivalIn]
    split
    · next hx =>
      refine List.pairwise_cons.2 ⟨fun z hz => ?_, ih ht⟩
      rcases List.mem_cons.1 ((arrivalIn_perm x t).mem_iff.1 hz) with rfl | hz
      · exact hx
      · exact hy z hz
    · next hx =>
      refine List.pairwise_cons.2 ⟨fun z hz => ?_, h⟩
      rcases List.mem_cons.1 hz with rfl | hz
      · omega
      · have := hy z hz
        omega

theorem arrivalOrder_perm (l : List MemAccess) : (arrivalOrder l).Perm l := by
  have go (l acc : List MemAccess) : (l.foldl (fun acc x => arrivalIn x acc) acc).Perm (l ++ acc) := by
    induction l generalizing acc with
    | nil => exact .refl _
    | cons x t ih => exact (ih _).trans (((arrivalIn_perm x acc).append_left t).trans List.perm_middle)
  exact (go l []).trans (.of_eq (List.append_nil l))

theorem arrivalOrder_sorted (l : List MemAccess) : (arrivalOrder l).Pairwise fun a b => a.input ≤ b.input :=
  List.foldlRecOn (motive := fun l : List MemAccess => l.Pairwise fun a b => a.input ≤ b.input) l _ .nil
    fun _ h x _ => arrivalIn_sorted x h

/-! ## A hub cycle at a controller -/

section
variable (s : State) (stack : Nat)

theorem memcWaiting_putWaiting (l : List MemAccess) : memcWaiting (putWaiting s stack l) stack = l :=
  (mgetD_mput ..).trans (if_pos rfl)

/-- The accesses of a cycle have arrived. -/
def arrived (accs : List MemAccess) : State := putWaiting s stack (memcWaiting s stack ++ arrivalOrder accs)

theorem memcWaiting_arrived (accs : List MemAccess) :
    memcWaiting (arrived s stack accs) stack = memcWaiting s stack ++ arrivalOrder accs := memcWaiting_putWaiting ..

variable {s stack} {accs : List MemAccess} (hs : stack < 12) (hf : ∀ x ∈ accs, accFits s stack x = true)
include hs hf

theorem exec_memcAccess (serve : Option Nat) (ecc : MemEcc) : exec (.memcAccess stack ⟨accs, serve⟩ ecc) s =
    .next (match serve with
      | some choice => if fget s (pgMEMC stack) F.MEMC_THERM_LEVEL = 3 then arrived s stack accs
          else memcServe (arrived s stack accs) stack choice ecc
      | none => arrived s stack accs) := by
  refine congrArg Host.Outcome.next ((if_pos hs).trans ?_)
  unfold memcCycle
  rw [List.filter_eq_self.2 hf]
  cases serve <;> rfl

theorem memcAccess_arrivals_answers (ecc : MemEcc) : Answers (.memcAccess stack ⟨accs, none⟩ ecc) s fun t =>
    (∃ l, l.Perm accs ∧ l.Pairwise (fun x y => x.input ≤ y.input) ∧ memcWaiting t stack = memcWaiting s stack ++ l) ∧
    t.mem = s.mem :=
  ⟨_, exec_memcAccess hs hf none ecc,
    ⟨arrivalOrder accs, arrivalOrder_perm accs, arrivalOrder_sorted accs, memcWaiting_arrived ..⟩, rfl⟩

end

/-! ## The access that an idle controller performs -/

/-- The turn of an access that waits alone: nothing waits any more, and the arbiter has moved on. -/
def served (s : State) (stack : Nat) (a : Arb) : State :=
  putWaiting { s with arbs := mput s.arbs (memcKey stack) a } stack []

theorem chanOf_served (s : State) (stack : Nat) (a : Arb) (pa : Nat) : chanOf (served s stack a) pa = chanOf s pa := rfl

/-- The access of fold `f` that may be performed, where the controller chooses `choice` of its lines. -/
def memcTurn (ready : List MemAccess) (choice f : Nat) : Option MemAccess :=
  (ready.filter fun x => accFold x == f)[choice % (ready.filter fun x => accFold x == f).length]?

/-- The folds that have such an access, with its size. -/
def memcHeads (ready : List MemAccess) (choice : Nat) : List (Nat × Nat) :=
  (List.range 17).filterMap fun f => (memcTurn ready choice f).map fun x => (f, x.len)

theorem memcTurn_alone (acc : MemAccess) (choice f : Nat) :
    memcTurn [acc] choice f = if accFold acc = f then some acc else none := by
  unfold memcTurn
  by_cases h : accFold acc = f
  · rw [List.filter_cons_of_pos (by simpa using h), if_pos h]
    exact congrArg _ (Nat.mod_one _)
  · rw [List.filter_cons_of_neg (by simpa using h), if_neg h]
    rfl

theorem mem_memcHeads_alone {acc : MemAccess} {choice : Nat} {c : Nat × Nat} :
    c ∈ memcHeads [acc] choice ↔ accFold acc < 17 ∧ c = (accFold acc, acc.len) := by
  unfold memcHeads
  simp only [List.mem_filterMap, List.mem_range, memcTurn_alone]
  constructor
  · rintro ⟨f, hf, h⟩
    split at h
    · next e =>
      cases h
      exact ⟨e ▸ hf, by rw [e]⟩
    · cases h
  · rintro ⟨hf, rfl⟩
    exact ⟨_, hf, by rw [if_pos rfl]; rfl⟩

theorem memcServe_of_turn {s : State} {stack choice f : Nat} {acc : MemAccess} {a : Arb} {ch line zone : Nat} (ecc : MemEcc)
    (hw : memcWaiting s stack = [acc])
    (hd : drrPick (quantum s) (mgetD s.arbs (memcKey stack) {}) (memcHeads [acc] choice) = some (f, a))
    (ht : memcTurn [acc] choice f = some acc) (hc : chanOf s acc.pa = some (ch, line, zone)) :
    memcServe s stack choice ecc = memcAccess (served s stack a) ch line zone acc ecc := by
  have hready : memcReady (memcWaiting s stack) = [acc] := by rw [hw]; rfl
  have herase : [acc].erase acc = [] := List.erase_cons_head ..
  have hc' := (chanOf_served s stack a acc.pa).trans hc
  unfold memcHeads memcTurn at hd
  unfold memcTurn at ht
  unfold served at hc' ⊢
  unfold memcServe
  dsimp only
  rw [hready, hd]
  dsimp only
  rw [ht]
  dsimp only
  rw [hw, herase, hc']

/-- The one access that waits is performed. -/
theorem memcServe_alone {s : State} {stack : Nat} {acc : MemAccess} {ch line zone : Nat} (choice : Nat) (ecc : MemEcc)
    (hw : memcWaiting s stack = [acc]) (hf : accFold acc < 17) (hc : chanOf s acc.pa = some (ch, line, zone)) :
    ∃ a, memcServe s stack choice ecc = memcAccess (served s stack a) ch line zone acc ecc := by
  obtain ⟨f, b, a, hmem, hdrr⟩ := exists_drrPick (quantum s) (mgetD s.arbs (memcKey stack) {})
    (List.ne_nil_of_mem ((mem_memcHeads_alone (choice := choice)).2 ⟨hf, rfl⟩))
    fun c hc => (mem_memcHeads_alone.1 hc).2 ▸ hf
  obtain ⟨-, hfb⟩ := mem_memcHeads_alone.1 hmem
  cases hfb
  exact ⟨a, memcServe_of_turn ecc hw hdrr ((memcTurn_alone ..).trans (if_pos rfl)) hc⟩

theorem chanBad_congr {s t : State} (h : t.regs = s.regs) (ch : Nat) : chanBad t ch = chanBad s ch := by
  unfold chanBad fget fgeti
  rw [h]

theorem poisonAt_congr {s t : State} (h : t.poison = s.poison) (pa : Nat) : poisonAt t pa = poisonAt s pa := by
  unfold poisonAt
  rw [h]

/-- The monitor counts in three places of its own. -/
theorem imbCount_eq (s : State) (ch zone : Nat) (acc : MemAccess) : ∃ i z f, imbCount s ch zone acc =
    putMemc s fun m => { m with imb := i, imbZone := z, imbFold := f } := by
  unfold imbCount
  split
  · exact ⟨s.memc.imb, s.memc.imbZone, s.memc.imbFold, rfl⟩
  · unfold putMemc
    dsimp only
    split
    · exact ⟨_, _, _, rfl⟩
    · split
      · split
        · exact ⟨_, _, _, rfl⟩
        · exact ⟨_, _, _, rfl⟩
      · exact ⟨_, _, _, rfl⟩

/-- Counts of an access, and its channel's direction. -/
theorem accCount_eq (s : State) (ch : Nat) (acc : MemAccess) : ∃ t d, Counts s t ∧
    accCount s ch acc = putMemc t fun m => { m with lastDir := d } := by
  have hsize : Counts s (if acc.len = 256 then bump s (pgMEMC (ch / 64)) (if acc.write.isSome then 1 else 0)
      else bump s (pgMEMC (ch / 64)) 2) := counts_ite (bump_counts ..) (bump_counts ..)
  have hburst {t : State} (h : Counts s t) : Counts s (if acc.write.isSome then
      bumpBy t (pgMEMC (ch / 64)) 3 (partBursts acc.pa acc.len) else t) := counts_ite (h.trans (bumpBy_counts ..)) h
  refine ⟨_, _, ?_, rfl⟩
  split
  · exact counts_ite (hburst hsize) ((hburst hsize).trans (bump_counts ..))
  · exact hburst hsize

theorem imbCount_regs (s : State) (ch zone : Nat) (acc : MemAccess) : (imbCount s ch zone acc).regs = s.regs := by
  obtain ⟨i, z, f, e⟩ := imbCount_eq s ch zone acc
  rw [e]
  rfl

theorem imbCount_live (s : State) (ch zone : Nat) (acc : MemAccess) :
    (imbCount s ch zone acc).memc.live = s.memc.live := by
  obtain ⟨i, z, f, e⟩ := imbCount_eq s ch zone acc
  rw [e]
  rfl

/-- A controller meets a line as `s` holds it, and nothing else waits there. -/
structure MeetsLine (stack : Nat) (s t : State) : Prop where
  waiting : memcWaiting t stack = []
  mem : t.mem = s.mem
  undefs : t.undefs = s.undefs
  poison : t.poison = s.poison

theorem meetsLine_served (stack : Nat) (s : State) (l : List MemAccess) (a : Arb) :
    MeetsLine stack s (served (putWaiting s stack l) stack a) := ⟨memcWaiting_putWaiting .., rfl, rfl, rfl⟩

theorem MeetsLine.imbCount {stack : Nat} {s t : State} (h : MeetsLine stack s t) (ch zone : Nat) (acc : MemAccess) :
    MeetsLine stack s (imbCount t ch zone acc) := by
  obtain ⟨i, z, f, e⟩ := imbCount_eq t ch zone acc
  rw [e]
  exact ⟨h.waiting, h.mem, h.undefs, h.poison⟩

theorem MeetsLine.accCount {stack : Nat} {s t : State} (h : MeetsLine stack s t) (ch : Nat) (acc : MemAccess) :
    MeetsLine stack s (accCount t ch acc) := by
  obtain ⟨u, d, hu, e⟩ := accCount_eq t ch acc
  rw [e]
  refine ⟨?_, hu.keeps_mem.trans h.mem, hu.keeps_undefs.trans h.undefs, hu.keeps_poison.trans h.poison⟩
  exact (congrArg (fun m : MemcSt => mgetD m.waiting stack []) hu.keeps_memc).trans h.waiting

section
variable {s : State} {ch line zone : Nat} {acc : MemAccess}

theorem chanBad_imbCount (s : State) (ch zone : Nat) (acc : MemAccess) (c : Nat) :
    chanBad (imbCount s ch zone acc) c = chanBad s c := chanBad_congr (imbCount_regs ..) c

theorem memcAccess_of_bad (h : chanBad s ch = true) (ecc : MemEcc) :
    memcAccess s ch line zone acc ecc = accBad (imbCount s ch zone acc) ch acc :=
  if_pos ((chanBad_imbCount ..).trans h)

theorem memcAccess_clean (h : chanBad s ch = false) : memcAccess s ch line zone acc .clean =
    accData (accCount (imbCount s ch zone acc) ch acc) ch line acc .clean :=
  if_neg (by rw [chanBad_imbCount, h]; exact Bool.false_ne_true)

theorem memcAccess_parity (h : chanBad s ch = false) : memcAccess s ch line zone acc (.parity true) =
    accBad (chanFail (memcLog (imbCount s ch zone acc) ch line 2 true) ch 2) ch acc :=
  if_neg (by rw [chanBad_imbCount, h]; exact Bool.false_ne_true)

/-! ## What an access answers -/

theorem accBad_read (s : State) (ch : Nat) (hw : acc.write = none) :
    (accBad s ch acc).resp = { data := List.replicate acc.len 0, poison := true } := by
  unfold accBad
  rw [hw]
  rfl

theorem accBad_write (s : State) (ch : Nat) {bs : List Byte} (hw : acc.write = some bs) :
    (accBad s ch acc).resp = { code := stPOISON } := by
  unfold accBad
  rw [hw]
  rfl

theorem accBad_mem (s : State) (ch : Nat) (acc : MemAccess) : (accBad s ch acc).mem = s.mem := by
  unfold accBad
  split <;> simp

theorem accBad_unitRegsKept (s : State) (ch : Nat) (acc : MemAccess) : UnitRegsKept s (accBad s ch acc) := by
  have hresp (t : State) (r : Resp) : UnitRegsKept t { t with resp := r } := .of_regs rfl
  unfold accBad
  exact .ite ((bump_unitRegsKept ..).trans (hresp ..)) ((bump_unitRegsKept ..).trans ((bump_unitRegsKept ..).trans (hresp ..)))

theorem readByte_storeBytes (s : State) (pa : Nat) (bs : List Byte) (p : Bool) (a : Nat) :
    readByte (storeBytes s pa bs p) a = readByte (writeBytes s pa bs) a := by
  rw [storeBytes_poisonOnly]
  rfl

theorem storeBytes_memc (s : State) (pa : Nat) (bs : List Byte) (p : Bool) : (storeBytes s pa bs p).memc = s.memc := by
  rw [storeBytes_poisonOnly, writeBytes_eq_setMem]

theorem accData_read (line : Nat) (hw : acc.write = none) (hp : poisonAt s acc.pa = false) :
    accData s ch line acc .clean = { s with resp := { data := readBytes s acc.pa acc.len } } := by
  unfold accData accEcc
  rw [hw]
  dsimp only
  rw [hp]
  rfl

theorem accData_write (line : Nat) {bs : List Byte} (hw : acc.write = some bs)
    (hp : acc.len = 256 ∨ poisonAt s acc.pa = false) :
    accData s ch line acc .clean = { storeBytes s acc.pa bs acc.poison with resp := {} } := by
  have hwhole : ¬ (acc.len < 256 && poisonAt s acc.pa) = true := by
    rcases hp with h | h
    · rw [h]
      exact Bool.false_ne_true
    · rw [h, Bool.and_false]
      exact Bool.false_ne_true
  unfold accData accEcc
  rw [hw]
  dsimp only
  rw [ite_self, if_neg hwhole]

end

/-! ## Channels that go bad -/

theorem UnitRegsKept.chanBad {s t : State} (h : UnitRegsKept s t) (ch : Nat) (hc : ch < 768) :
    chanBad t ch = Machine.chanBad s ch := by
  have hword (f : Field) (hf : f.off + 0 * f.stride = 0x100 ∨ f.off + 0 * f.stride = 0x104) (hl : f.lo = 0) :
      fget t (pgMEMC (ch / 64)) f = fget s (pgMEMC (ch / 64)) f := by
    unfold fget fgeti
    rw [h.same _ (by unfold UnitPlace fieldKey pgMEMC pageOf; omega)]
  unfold Machine.chanBad
  dsimp only
  rw [hword _ (.inl rfl) rfl, hword _ (.inr rfl) rfl]

theorem memcLog_unitRegsKept (s : State) (ch line cause : Nat) (ue : Bool) : UnitRegsKept s (memcLog s ch line cause ue) := by
  have hlog (t : State) {f : Field} (v : Nat) (hf : 66 ≤ f.off / 4 ∧ f.off / 4 ≤ 70 ∧ f.lo < 32) :
      UnitRegsKept t (fput t (pgMEMC (ch / 64)) f v) := fput_unitRegsKept_log t _ v hf
  exact .ite (.refl s) ((hlog s _ (by decide)).trans ((hlog _ _ (by decide)).trans ((hlog _ _ (by decide)).trans
    ((hlog _ _ (by decide)).trans ((hlog _ _ (by decide)).trans (setLogged_unitRegsKept ..))))))

theorem memcLog_counts (s : State) (ch line cause : Nat) (ue : Bool) : Counts s (memcLog s ch line cause ue) := by
  refine counts_ite (.refl s) (Counts.trans ?_ (setLogged_counts ..))
  rfl

/-- The state with a channel's mark set. -/
def chanMarked (s : State) (ch : Nat) : State :=
  if ch % 64 < 32 then forBits s (pgMEMC (ch / 64)) F.MEMC_BAD_LO_BAD (2 ^ (ch % 64))
  else forBits s (pgMEMC (ch / 64)) F.MEMC_BAD_HI_BAD (2 ^ (ch % 64 - 32))

theorem testBit_forBits (s : State) (page : Nat) (f : Field) {b : Nat} (hb : b < fieldWidth f) (hf : fieldWidth f ≤ 64) :
    (fget (forBits s page f (2 ^ b)) page f).testBit b = true := by
  unfold forBits
  rw [fget_fput_same _ _ _ _ hf, Nat.testBit_mod_two_pow, Nat.testBit_or, Nat.testBit_two_pow_self]
  simp [hb]

theorem chanBad_chanMarked (s : State) (ch : Nat) : chanBad (chanMarked s ch) ch = true := by
  unfold chanBad chanMarked
  dsimp only
  split
  · next h => exact testBit_forBits _ _ F.MEMC_BAD_LO_BAD h (by decide)
  · have hb : ch % 64 - 32 < fieldWidth F.MEMC_BAD_HI_BAD := by
      change ch % 64 - 32 < 32
      omega
    exact testBit_forBits _ _ _ hb (by decide)

/-- A channel that fails is marked, whatever folds its failure reaches. -/
theorem chanBad_chanFail {s : State} {ch : Nat} (cause : Nat) (hc : ch < 768) (hb : chanBad s ch = false)
    (hl : ch ∈ s.memc.live) : chanBad (chanFail s ch cause) ch = true := by
  have hcont : s.memc.live.contains ch = true := List.contains_iff_mem.2 hl
  refine UnitRegsKept.chanBad (s := chanMarked s ch) ?_ ch hc |>.trans (chanBad_chanMarked s ch)
  unfold chanFail
  rw [if_neg (by rw [hb, hcont]; exact Bool.false_ne_true)]
  exact (logFault_unitRegsKept ..).trans
    (foldl_unitRegsKept (fun _ _ => (bump_unitRegsKept ..).trans (foldFault_unitRegsKept ..)) ..)

theorem memcCmdTimeout_answers {s : State} {stack chan : Nat} (hs : stack < 12) (hc : chan < 64)
    (hl : stack * 64 + chan ∈ s.memc.live) (hb : chanBad s (stack * 64 + chan) = false) :
    Answers (.memcCmdTimeout stack chan) s fun t => chanBad t (stack * 64 + chan) = true := by
  have hch : stack * 64 + chan < 768 := by omega
  have hlog := memcLog_unitRegsKept s (stack * 64 + chan) 0 3 false
  refine ⟨_, congrArg Host.Outcome.next (if_pos ⟨hs, hc, List.contains_iff_mem.2 hl, by rw [hb]; rfl⟩), ?_⟩
  exact chanBad_chanFail 3 hch ((hlog.chanBad _ hch).trans hb) (by rwa [(memcLog_counts ..).keeps_memc])

/-! ## Scrub and refresh -/

theorem memcScrub_answers {s : State} {stack chan : Nat} (hs : stack < 12) (hc : chan < 64)
    (hl : stack * 64 + chan ∈ s.memc.live) (hb : chanBad s (stack * 64 + chan) = false)
    (ht : fget s (pgMEMC stack) F.MEMC_THERM_LEVEL ≠ 3) : Answers (.memcScrub stack chan .clean) s fun t =>
      mgetD t.memc.scrub (stack * 64 + chan) 0 = (mgetD s.memc.scrub (stack * 64 + chan) 0 + 1) % 2 ^ 22 ∧
      t.mem = s.mem ∧ t.poison = s.poison := by
  refine ⟨_, congrArg Host.Outcome.next (if_pos ⟨hs, hc, List.contains_iff_mem.2 hl, by rw [hb]; rfl, ht⟩), ?_⟩
  have hcount (u : State) (pg : Nat) := bump_counts u pg 9
  refine ⟨?_, (hcount ..).keeps_mem, (hcount ..).keeps_poison⟩
  exact (congrArg (fun m : MemcSt => mgetD m.scrub _ 0) (hcount ..).keeps_memc).trans ((mgetD_mput ..).trans (if_pos rfl))

theorem exec_memcRefresh {s : State} {stack chan : Nat} (hs : stack < 12) (hc : chan < 64) :
    exec (.memcRefresh stack chan) s = .next (bump s (pgMEMC stack) 8) := congrArg Host.Outcome.next (if_pos ⟨hs, hc⟩)

/-! ## The commands -/

theorem channel_of_accFits {s : State} {stack ch line zone : Nat} {acc : MemAccess} (h : accFits s stack acc = true)
    (hc : chanOf s acc.pa = some (ch, line, zone)) : ch / 64 = stack := by
  unfold accFits at h
  rw [Bool.and_eq_true, hc] at h
  exact eq_of_beq h.2

theorem length_of_accFits {s : State} {stack : Nat} {acc : MemAccess} {bs : List Byte} (h : accFits s stack acc = true)
    (hw : acc.write = some bs) : bs.length = acc.len := by
  unfold accFits at h
  simp only [Bool.and_eq_true, hw] at h
  obtain ⟨⟨⟨⟨-, hlen⟩, -⟩, -⟩, -⟩ := h
  exact eq_of_beq hlen

theorem memcWaiting_arrived_alone {s : State} {stack : Nat} {acc : MemAccess} (h : memcWaiting s stack = []) :
    memcWaiting (arrived s stack [acc]) stack = [acc] := by
  rw [memcWaiting_arrived, h]
  rfl

section
variable {s : State} {stack : Nat} {acc : MemAccess} {ch line zone : Nat} (choice : Nat) (hs : stack < 12)
  (hw : memcWaiting s stack = []) (hfit : accFits s stack acc = true)
include hs hw hfit

theorem memcAccess_critical_answers (hl : fget s (pgMEMC stack) F.MEMC_THERM_LEVEL = 3) (ecc : MemEcc) :
    Answers (.memcAccess stack ⟨[acc], some choice⟩ ecc) s fun t => memcWaiting t stack = [acc] ∧ t.resp = s.resp ∧
      t.mem = s.mem :=
  ⟨_, (exec_memcAccess hs (by simpa using hfit) (some choice) ecc).trans (congrArg _ (if_pos hl)),
    memcWaiting_arrived_alone hw, rfl, rfl⟩

variable (hf : accFold acc < 17) (hc : chanOf s acc.pa = some (ch, line, zone))
  (hl : fget s (pgMEMC stack) F.MEMC_THERM_LEVEL ≠ 3)
include hf hc hl

theorem exec_memcAccess_alone (ecc : MemEcc) : ∃ a, exec (.memcAccess stack ⟨[acc], some choice⟩ ecc) s =
    .next (memcAccess (served (arrived s stack [acc]) stack a) ch line zone acc ecc) := by
  obtain ⟨a, e⟩ := memcServe_alone (s := arrived s stack [acc]) choice ecc (memcWaiting_arrived_alone hw) hf hc
  exact ⟨a, (exec_memcAccess hs (by simpa using hfit) (some choice) ecc).trans (congrArg _ ((if_neg hl).trans e))⟩

theorem memcAccess_bad_answers (hb : chanBad s ch = true) (ecc : MemEcc) :
    Answers (.memcAccess stack ⟨[acc], some choice⟩ ecc) s fun t => t.mem = s.mem ∧
      (acc.write = none → t.resp = { data := List.replicate acc.len 0, poison := true }) ∧
      (∀ bs, acc.write = some bs → t.resp = { code := stPOISON }) := by
  obtain ⟨a, e⟩ := exec_memcAccess_alone choice hs hw hfit hf hc hl ecc
  have hbad := memcAccess_of_bad (line := line) (zone := zone) (acc := acc)
    ((chanBad_congr (t := served (arrived s stack [acc]) stack a) rfl ch).trans hb) ecc
  refine ⟨_, e.trans (congrArg Host.Outcome.next hbad), ?_, accBad_read _ ch, fun bs => accBad_write _ ch⟩
  exact (accBad_mem ..).trans ((meetsLine_served stack s _ a).imbCount ch zone acc).mem

variable (hb : chanBad s ch = false)
include hb

/-- Parity errors that come back mark the channel, which then answers as a bad one. -/
theorem memcAccess_parity_answers (hr : acc.write = none) (hlive : ch ∈ s.memc.live) :
    Answers (.memcAccess stack ⟨[acc], some choice⟩ (.parity true)) s fun t =>
      chanBad t ch = true ∧ t.resp = { data := List.replicate acc.len 0, poison := true } := by
  have hch : ch < 768 := by
    have := channel_of_accFits hfit hc
    omega
  obtain ⟨a, e⟩ := exec_memcAccess_alone choice hs hw hfit hf hc hl (.parity true)
  refine ⟨_, e.trans (congrArg _ (memcAccess_parity hb)), ?_, accBad_read _ ch hr⟩
  rw [(accBad_unitRegsKept ..).chanBad ch hch]
  refine chanBad_chanFail 2 hch ?_ ?_
  · exact ((memcLog_unitRegsKept ..).chanBad ch hch).trans ((chanBad_imbCount ..).trans hb)
  · rw [(memcLog_counts ..).keeps_memc, imbCount_live]
    exact hlive

theorem exec_memcAccess_clean : ∃ v, MeetsLine stack s v ∧
    exec (.memcAccess stack ⟨[acc], some choice⟩ .clean) s = .next (accData v ch line acc .clean) := by
  obtain ⟨a, e⟩ := exec_memcAccess_alone choice hs hw hfit hf hc hl .clean
  exact ⟨_, ((meetsLine_served ..).imbCount ch zone acc).accCount ch acc, e.trans (congrArg _ (memcAccess_clean hb))⟩

theorem memcAccess_read_answers (hr : acc.write = none) (hp : poisonAt s acc.pa = false) :
    Answers (.memcAccess stack ⟨[acc], some choice⟩ .clean) s fun t => memcWaiting t stack = [] ∧
      t.resp = { data := readBytes s acc.pa acc.len } ∧ t.mem = s.mem := by
  obtain ⟨v, hv, e⟩ := exec_memcAccess_clean choice hs hw hfit hf hc hl hb
  refine ⟨_, e.trans (congrArg _ (accData_read line hr ((poisonAt_congr hv.poison _).trans hp))), hv.waiting, ?_, hv.mem⟩
  exact congrArg (fun bs : List Byte => ({ data := bs } : Resp))
    (List.map_congr_left fun i _ => readByte_congr hv.mem hv.undefs _)

theorem memcAccess_write_answers {bs : List Byte} (hr : acc.write = some bs)
    (hp : acc.len = 256 ∨ poisonAt s acc.pa = false) :
    Answers (.memcAccess stack ⟨[acc], some choice⟩ .clean) s fun t => memcWaiting t stack = [] ∧
      HoldsAt t acc.pa bs ∧ SameOutside s t acc.pa acc.len ∧ t.resp = {} := by
  obtain ⟨v, hv, e⟩ := exec_memcAccess_clean choice hs hw hfit hf hc hl hb
  have hp' := hp.imp_right (poisonAt_congr hv.poison acc.pa).trans
  refine ⟨_, e.trans (congrArg _ (accData_write line hr hp')), ?_, fun i hi => ?_, fun a ha => ?_, rfl⟩
  · exact (congrArg (fun m : MemcSt => mgetD m.waiting stack []) (storeBytes_memc ..)).trans hv.waiting
  · exact (readByte_storeBytes v acc.pa bs acc.poison _).trans (holdsAt_writeBytes v acc.pa bs i hi)
  · rw [← length_of_accFits hfit hr] at ha
    exact (readByte_storeBytes v acc.pa bs acc.poison a).trans
      ((readByte_writeBytes_out v acc.pa a bs ha).trans (readByte_congr hv.mem hv.undefs a))

end

/-- Settles O29: arrivals, the one access in each of its cases, and the commands of a channel. -/
theorem memoryControllersAccess : Obligations.MemoryControllersAccess := by
  unfold Obligations.MemoryControllersAccess
  intro stack s hs
  refine ⟨?arrivals, ?access, ?channel, ?refresh⟩
  case arrivals => exact fun accs ecc hfit => memcAccess_arrivals_answers hs hfit ecc
  case access =>
    intro acc ch line zone choice hw hfit hf hc
    refine ⟨fun hl => memcAccess_critical_answers choice hs hw hfit hl, fun hl hb => ⟨?read, ?write, ?parity⟩,
      fun hl hb => ⟨?badRead, ?badWrite⟩⟩
    case read => exact memcAccess_read_answers choice hs hw hfit hf hc hl hb
    case write => exact fun bs => memcAccess_write_answers choice hs hw hfit hf hc hl hb
    case parity => exact memcAccess_parity_answers choice hs hw hfit hf hc hl hb
    case badRead =>
      intro hr ecc
      obtain ⟨t, ht, hmem, hread, -⟩ := memcAccess_bad_answers choice hs hw hfit hf hc hl hb ecc
      exact ⟨t, ht, hread hr, hmem⟩
    case badWrite =>
      intro bs ecc hr
      obtain ⟨t, ht, hmem, -, hwrite⟩ := memcAccess_bad_answers choice hs hw hfit hf hc hl hb ecc
      exact ⟨t, ht, hwrite bs hr, hmem⟩
  case channel =>
    exact fun chan hch hlive hb => ⟨memcCmdTimeout_answers hs hch hlive hb, memcScrub_answers hs hch hlive hb⟩
  case refresh => exact fun chan hch => exec_memcRefresh hs hch

end Sys2Proof.Machine
end

section
/-! What an access of a line, a store or a stream, and what a completion, can change of the state: each said once for the
operations that make it up, so that the rest of the state is as before by one rewrite. -/

namespace Sys2Proof.Machine

open Sys2Proof

/-! ## Accesses -/

/-- `t` differs from `s` in what accesses change at most: registers, counters, outputs and the fault log, free values drawn,
memory and poison, the coherent lines, the stores' ports and the streams. -/
def AccessOnly (s t : State) : Prop := t = { s with
  regs := t.regs, cnt := t.cnt, out := t.out, fltLog := t.fltLog, free := t.free, mem := t.mem, poison := t.poison
  coh := t.coh, spads := t.spads, streams := t.streams }

theorem AccessOnly.refl (s : State) : AccessOnly s s := rfl

theorem AccessOnly.trans {s t u : State} (h : AccessOnly s t) (k : AccessOnly t u) : AccessOnly s u := by
  unfold AccessOnly at h k ⊢
  rw [k, h]

theorem Counts.accessOnly {s t : State} (h : Counts s t) : AccessOnly s t := by
  unfold Counts at h
  unfold AccessOnly
  rw [h]

theorem AccessOnly.ite {s t u : State} {c : Prop} [Decidable c] (h : AccessOnly s t) (k : AccessOnly s u) :
    AccessOnly s (if c then t else u) := by
  split
  · exact h
  · exact k

theorem AccessOnly.ite_fst {α : Type} {s : State} {a b : State × α} {c : Prop} [Decidable c] (h : AccessOnly s a.1)
    (k : AccessOnly s b.1) : AccessOnly s (if c then a else b).1 := by
  split
  · exact h
  · exact k

theorem foldl_accessOnly {α : Type} {g : State → α → State} (hg : ∀ s x, AccessOnly s (g s x)) (l : List α) (s : State) :
    AccessOnly s (l.foldl g s) :=
  List.foldlRecOn (motive := AccessOnly s) l g (.refl s) fun _ h x _ => h.trans (hg _ x)

theorem foldl_accessOnly_fst {α β : Type} {g : State × β → α → State × β} (hg : ∀ a x, AccessOnly a.1 (g a x).1)
    (l : List α) (a : State × β) : AccessOnly a.1 (l.foldl g a).1 :=
  List.foldlRecOn (motive := fun b : State × β => AccessOnly a.1 b.1) l g (.refl a.1) fun _ h x _ => h.trans (hg _ x)

section
variable {s t : State} (h : AccessOnly s t)
include h

theorem AccessOnly.keeps_cmds : t.cmds = s.cmds := by
  unfold AccessOnly at h
  exact h ▸ rfl

theorem AccessOnly.keeps_moves : t.moves = s.moves := by
  unfold AccessOnly at h
  exact h ▸ rfl

theorem AccessOnly.keeps_waits : t.waits = s.waits := by
  unfold AccessOnly at h
  exact h ▸ rfl

theorem AccessOnly.keeps_scheds : t.scheds = s.scheds := by
  unfold AccessOnly at h
  exact h ▸ rfl

theorem AccessOnly.keeps_host : t.host = s.host := by
  unfold AccessOnly at h
  exact h ▸ rfl

theorem AccessOnly.findCmd (id : CmdId) : findCmd t id = Machine.findCmd s id := by
  unfold Machine.findCmd
  rw [h.keeps_cmds]

end

/-! ## A line's home and its agents -/

section
variable (s : State) (line agent : Nat)

theorem putCoh_accessOnly (f : CohSt → CohSt) : AccessOnly s (putCoh s f) := rfl

theorem putCopy_accessOnly (c : Option Copy) : AccessOnly s (putCopy s line agent c) := rfl

theorem dirPut_accessOnly (vec : Nat) (sole : Bool) : AccessOnly s (dirPut s line vec sole) := rfl

theorem setPoison_accessOnly (pa : Nat) (p : Bool) : AccessOnly s (setPoison s pa p) := rfl

theorem storeBytes_accessOnly (pa : Nat) (bs : List Byte) (p : Bool) : AccessOnly s (storeBytes s pa bs p) := by
  have hp := storeBytes_poisonOnly s pa bs p
  have hw := writeBytes_eq_setMem s pa bs
  unfold PoisonOnly at hp
  rw [hw] at hp
  unfold AccessOnly
  rw [hp]

theorem cohError_counts (pg cause : Nat) : Counts s (cohError s pg cause agent line) := by
  unfold cohError
  refine counts_ite (.refl s) (Counts.trans ?_ (setLogged_counts ..))
  rfl

theorem poisonLine_accessOnly : AccessOnly s (poisonLine s line agent) :=
  (setPoison_accessOnly s (line * 256) true).trans ((bump_counts ..).trans (cohError_counts ..)).accessOnly

theorem resolveDead_accessOnly : AccessOnly s (resolveDead s line agent) := by
  have h (f : CohSt → CohSt) := putCoh_accessOnly s f
  unfold resolveDead
  dsimp only
  split
  · exact h _
  · refine .ite (h _) (.ite ?_ ((h _).trans (dirPut_accessOnly ..)))
    exact (h _).trans ((putCoh_accessOnly ..).trans ((poisonLine_accessOnly ..).trans (dirPut_accessOnly ..)))

theorem homeTouch_accessOnly : AccessOnly s (homeTouch s line) := by
  unfold homeTouch
  dsimp only
  split
  · exact (bump_counts ..).accessOnly.trans (putCoh_accessOnly ..)
  · exact AccessOnly.trans (t := { s with free := s.free + 1 }) rfl (bump_counts ..).accessOnly

theorem homeWrite_accessOnly (data : List Byte) (poison : Bool) : AccessOnly s (homeWrite s line data poison) :=
  .ite (homeTouch_accessOnly ..) ((homeTouch_accessOnly ..).trans (storeBytes_accessOnly ..))

theorem homeAccept_accessOnly : AccessOnly s (homeAccept s line) :=
  (bump_counts ..).accessOnly.trans ((putCoh_accessOnly ..).trans
    (foldl_accessOnly (fun t a => resolveDead_accessOnly t line a) ..))

theorem snoopNow_accessOnly (k : Snoop) : AccessOnly s (snoopNow s k line agent).1 := by
  have hb : AccessOnly s (bump s (pgCOH (homeOf s line)) 1) := (bump_counts ..).accessOnly
  have hput (t : State) (c : Option Copy) := putCopy_accessOnly t line agent c
  have hnone (t : State) : AccessOnly t (if isOwner t agent line then bump t (pgCOH (homeOf s line)) 3 else t) :=
    .ite (bump_counts ..).accessOnly (.refl t)
  have hforward (t : State) (c : Option Copy) :
      AccessOnly t (putCopy (bump t (pgCOH (homeOf s line)) 2) line agent c) := (bump_counts ..).accessOnly.trans (hput ..)
  unfold snoopNow
  dsimp only
  split
  · exact hb.trans (hnone _)
  · split <;> dsimp only
    · exact hb.trans (hnone _)
    · exact hb
    · exact hb
    · exact hb.trans ((hput ..).trans (hnone _))
    · exact hb.trans ((hput ..).trans (hnone _))
    · exact hb.trans (hforward ..)
    · exact hb.trans (hforward ..)
    · exact hb.trans (hforward ..)
    · exact hb.trans ((homeWrite_accessOnly ..).trans (hput ..))
    · exact hb.trans ((homeWrite_accessOnly ..).trans (hforward ..))
    · exact hb.trans (hforward ..)
    · exact hb.trans (hforward ..)

theorem foldl_snoopNow_accessOnly (k : Snoop) (l : List Nat) :
    AccessOnly s (l.foldl (fun s a => (snoopNow s k line a).1) s) :=
  foldl_accessOnly (fun t a => snoopNow_accessOnly t line a k) ..

theorem homeInvalidate_accessOnly : AccessOnly s (homeInvalidate s line) := by
  unfold homeInvalidate
  split
  · exact .refl s
  · exact (foldl_snoopNow_accessOnly ..).trans (dirPut_accessOnly ..)

theorem homeTake_accessOnly : AccessOnly s (homeTake s line) :=
  (homeAccept_accessOnly ..).trans (homeInvalidate_accessOnly ..)

theorem homeRoom_accessOnly : AccessOnly s (homeRoom s line) := by
  unfold homeRoom
  refine .ite (.refl s) (.ite (.refl s) ?_)
  split
  · exact .refl s
  · exact (bump_counts ..).accessOnly.trans (homeInvalidate_accessOnly ..)

theorem homeFound_accessOnly (e : HomeEcc) : AccessOnly s (homeFound s line e) := by
  have hpoison := setPoison_accessOnly s (line * 256) true
  unfold homeFound homeEcc
  split
  · refine .trans ?_ (homeInvalidate_accessOnly ..)
    exact ((bump_counts ..).trans ((bump_counts ..).trans (cohError_counts ..))).accessOnly.trans (dirPut_accessOnly ..)
  · dsimp only
    split
    · exact .refl s
    · exact (bump_counts ..).accessOnly
    · exact hpoison.trans ((bump_counts ..).trans (cohError_counts ..)).accessOnly
    · exact .refl s
    · exact hpoison

theorem homeRead_accessOnly : AccessOnly s (homeRead s line).1 := by
  have ha := homeAccept_accessOnly s line
  unfold homeRead
  dsimp only
  split
  · have hs := ha.trans (snoopNow_accessOnly (homeAccept s line) line (ownerOf (homeAccept s line) line) .cur)
    dsimp only [homeGive]
    split
    · exact hs
    · exact .ite (hs.trans (homeTouch_accessOnly ..)) (hs.trans ((homeTouch_accessOnly ..).trans (dirPut_accessOnly ..)))
  · exact ha.trans (homeTouch_accessOnly ..)

theorem visitorEcc_accessOnly (e : Ecc) : AccessOnly s (visitorEcc s agent line e) := by
  unfold visitorEcc
  split
  · exact .refl s
  · exact .refl s
  · exact .ite (bump_counts ..).accessOnly (.refl s)
  · have h : AccessOnly s (cohError (bump s (pgCOH agent) 12) (pgCOH agent) 3 agent line) :=
      ((bump_counts ..).trans (cohError_counts ..)).accessOnly
    refine .ite (.refl s) ?_
    dsimp only
    split
    · exact h.trans (putCopy_accessOnly ..)
    · exact h.trans (putCopy_accessOnly ..)
    · exact h.trans (putCopy_accessOnly ..)
    · exact h

theorem agentFetch_accessOnly (sole : Bool) : AccessOnly s (agentFetch s agent line sole).1 := by
  have h : AccessOnly s (homeRoom (homeAccept s line) line) :=
    (homeAccept_accessOnly ..).trans (homeRoom_accessOnly ..)
  have hdir (t : State) (v : Nat) (b : Bool) := dirPut_accessOnly t line v b
  have hput (t : State) (c : Copy) := putCopy_accessOnly t line agent (some c)
  have hgive (t : State) (c : Copy) : AccessOnly t (putCopy (homeGive t line).1 line agent (some c)) :=
    (homeTouch_accessOnly ..).trans (hput ..)
  unfold agentFetch
  dsimp only
  split
  · exact h.trans ((hdir ..).trans (hgive ..))
  · split
    · exact h.trans ((foldl_snoopNow_accessOnly ..).trans ((hdir ..).trans (hgive ..)))
    · exact h.trans ((hdir ..).trans (hgive ..))
  · split
    · exact h.trans (hgive ..)
    · have hs (k : Snoop) (o : Nat) := h.trans (snoopNow_accessOnly (homeRoom (homeAccept s line) line) line o k)
      split
      · split <;> dsimp only
        · exact (hs ..).trans ((hdir ..).trans (hput ..))
        · exact (hs ..).trans ((hdir ..).trans (hput ..))
      · exact .ite_fst ((hs ..).trans ((hdir ..).trans (hgive ..))) ((hs ..).trans ((hdir ..).trans (hgive ..)))

theorem agentHold_accessOnly (sole : Bool) (h : HomeEcc) (v : Ecc) : AccessOnly s (agentHold s agent line sole h v).1 := by
  have hv := visitorEcc_accessOnly s line agent v
  have hfetch (b : Bool) : AccessOnly s (agentFetch (homeFound (visitorEcc s agent line v) line h) agent line b).1 :=
    hv.trans ((homeFound_accessOnly ..).trans (agentFetch_accessOnly ..))
  unfold agentHold
  dsimp only
  split
  · split
    · exact hfetch _
    · exact hv
  · exact hfetch _

theorem agentYield_accessOnly : AccessOnly s (agentYield s agent line) := by
  have h := putCopy_accessOnly s line agent none
  unfold agentYield
  split
  · exact .refl s
  · refine .ite (h.trans ?_) h
    exact (homeWrite_accessOnly ..).trans ((bump_counts ..).accessOnly.trans (dirPut_accessOnly ..))

end

/-! ## Reads and writes of lines, of blocks and of streams -/

section
variable (s : State) (q : Asker) (pa : Nat) (bs : List Byte) (p : Bool) (h : HomeEcc) (v : Ecc)

theorem cohRead_accessOnly (n : Nat) : AccessOnly s (cohRead s q pa n h v).1 := by
  unfold cohRead
  dsimp only
  split
  · exact agentHold_accessOnly ..
  · exact (homeFound_accessOnly ..).trans (homeRead_accessOnly ..)

theorem homeStore_accessOnly : AccessOnly s (homeStore s pa bs p).1 := by
  have h : AccessOnly s (homeTouch (homeTake s (lineOf pa)) (lineOf pa)) :=
    (homeTake_accessOnly ..).trans (homeTouch_accessOnly ..)
  unfold homeStore
  dsimp only
  split
  · exact h
  · exact h.trans (storeBytes_accessOnly ..)

theorem cohWrite_accessOnly : AccessOnly s (cohWrite s q pa bs p h v).1 := by
  unfold cohWrite
  dsimp only
  split
  · split <;> dsimp only
    · exact agentHold_accessOnly ..
    · exact (agentHold_accessOnly ..).trans (putCopy_accessOnly ..)
  · exact (visitorEcc_accessOnly ..).trans ((agentYield_accessOnly ..).trans
      ((homeFound_accessOnly ..).trans (homeStore_accessOnly ..)))
  · exact (homeFound_accessOnly ..).trans (homeStore_accessOnly ..)

theorem cohWrites_accessOnly : AccessOnly s (cohWrites s q pa bs p).1 := by
  refine foldl_accessOnly_fst (fun _ _ => ?_) _ (s, false)
  exact cohWrite_accessOnly ..

theorem readSectors_accessOnly (n : Nat) : AccessOnly s (readSectors s q pa n).1 := by
  refine foldl_accessOnly_fst (fun _ _ => ?_) _ (s, [], false)
  exact cohRead_accessOnly ..

theorem readBlock_accessOnly (off : Nat) (resp : LineResp) : AccessOnly s (readBlock s q pa off resp).1 := by
  have hm := cohRead_accessOnly s q (mapPa pa off) (respCodes resp).1 (respCodes resp).2 1
  unfold readBlock
  dsimp only
  split
  · exact hm
  · exact .ite_fst (hm.trans (readSectors_accessOnly ..)) (hm.trans (readSectors_accessOnly ..))

theorem writeBlock_accessOnly (off : Nat) : AccessOnly s (writeBlock s q pa off bs p).1 :=
  (cohWrites_accessOnly ..).trans (cohWrite_accessOnly ..)

end

/-! ## Completions -/

/-- `t` differs from `s` in what completions change at most: registers, counters, outputs and the fault log, the commands in
flight, the tallies and what waits for them. -/
def CompletesOnly (s t : State) : Prop := t = { s with
  regs := t.regs, cnt := t.cnt, out := t.out, fltLog := t.fltLog, cmds := t.cmds, tallies := t.tallies, trn := t.trn }

theorem CompletesOnly.refl (s : State) : CompletesOnly s s := rfl

theorem CompletesOnly.trans {s t u : State} (h : CompletesOnly s t) (k : CompletesOnly t u) : CompletesOnly s u := by
  unfold CompletesOnly at h k ⊢
  rw [k, h]

theorem Counts.completesOnly {s t : State} (h : Counts s t) : CompletesOnly s t := by
  unfold Counts at h
  unfold CompletesOnly
  rw [h]

section
variable {s t : State} (h : CompletesOnly s t)
include h

theorem CompletesOnly.keeps_mem : t.mem = s.mem := by
  unfold CompletesOnly at h
  exact h ▸ rfl

theorem CompletesOnly.keeps_undefs : t.undefs = s.undefs := by
  unfold CompletesOnly at h
  exact h ▸ rfl

theorem CompletesOnly.keeps_poison : t.poison = s.poison := by
  unfold CompletesOnly at h
  exact h ▸ rfl

theorem CompletesOnly.keeps_memc : t.memc = s.memc := by
  unfold CompletesOnly at h
  exact h ▸ rfl

theorem CompletesOnly.keeps_coh : t.coh = s.coh := by
  unfold CompletesOnly at h
  exact h ▸ rfl

theorem CompletesOnly.keeps_drvs : t.drvs = s.drvs := by
  unfold CompletesOnly at h
  exact h ▸ rfl

theorem CompletesOnly.keeps_moves : t.moves = s.moves := by
  unfold CompletesOnly at h
  exact h ▸ rfl

theorem CompletesOnly.keeps_scheds : t.scheds = s.scheds := by
  unfold CompletesOnly at h
  exact h ▸ rfl

theorem CompletesOnly.keeps_host : t.host = s.host := by
  unfold CompletesOnly at h
  exact h ▸ rfl

end

theorem updCmd_completesOnly (s : State) (id : CmdId) (f : Cmd → Cmd) : CompletesOnly s (updCmd s id f) := rfl

theorem tallyAdd_completesOnly (s : State) (c t n : Nat) : CompletesOnly s (tallyAdd s c t n) := rfl

theorem finishCmd_completesOnly (s : State) (id : CmdId) (r : Res) : CompletesOnly s (finishCmd s id r) := by
  have h (f : Cmd → Cmd) : CompletesOnly s (updCmd (countFault s id.ctx r.code) id f) :=
    (countFault_counts ..).completesOnly.trans (updCmd_completesOnly ..)
  unfold finishCmd
  split
  · exact .refl s
  · dsimp only
    split
    · exact .refl s
    · split
      · exact h _
      · split
        · exact (h _).trans (tallyAdd_completesOnly ..)
        · exact (h _).trans (bump_counts ..).completesOnly

theorem countFault_blockSame (s : State) (ctx code : Nat) : BlockSame s (countFault s ctx code) := by
  unfold countFault
  split
  · split
    · exact bump_blockSame ..
    · split
      · exact bump_blockSame ..
      · exact .refl s
  · exact .refl s

theorem tallyAdd_blockSame (s : State) (c t n : Nat) : BlockSame s (tallyAdd s c t n) := .of_regs rfl

theorem finishCmd_blockSame (s : State) (id : CmdId) (r : Res) : BlockSame s (finishCmd s id r) := by
  have h (f : Cmd → Cmd) : BlockSame s (updCmd (countFault s id.ctx r.code) id f) :=
    (countFault_blockSame ..).trans (.of_regs rfl)
  unfold finishCmd
  split
  · exact .refl s
  · dsimp only
    split
    · exact .refl s
    · split
      · exact h _
      · split
        · exact (h _).trans (tallyAdd_blockSame ..)
        · exact (h _).trans (bump_blockSame ..)

end Sys2Proof.Machine
end

section
/-! Chunk records (R227, R236, R268, R276, R281): where a record lies, what its home answers while no agent holds its line, and
what a change of it writes. -/

namespace Sys2Proof.Machine

open Sys2Proof

/-! ## The map of tier N -/

/-- `t` has the block registers and the memory controllers of `s`, and so the same map of memory. -/
structure MapSame (s t : State) : Prop where
  block : BlockSame s t
  memc : t.memc = s.memc

section
variable {s t : State} (h : MapSame s t)
include h

theorem MapSame.fgeti (page : Nat) (f : Field) (i : Nat)
    (hf : 256 ≤ f.off + i * f.stride ∧ f.off + i * f.stride < 4096 ∧ f.lo < 32) : fgeti t page f i = Machine.fgeti s page f i := h.block.fgeti page f i hf

theorem MapSame.fget (page : Nat) (f : Field) (hf : 256 ≤ f.off ∧ f.off < 4096 ∧ f.lo < 32) :
    fget t page f = Machine.fget s page f := h.block.fgeti page f 0 (by omega)

theorem MapSame.fbit (page : Nat) (f : Field) (hf : 256 ≤ f.off ∧ f.off < 4096 ∧ f.lo < 32) :
    fbit t page f = Machine.fbit s page f := by
  unfold Machine.fbit
  rw [h.fget page f hf]

theorem MapSame.regionOf (pa : Nat) : regionOf t pa = Machine.regionOf s pa := by
  unfold Machine.regionOf tierFBytes tierNBytes
  rw [h.fbit _ _ (by decide), h.fget _ _ (by decide), h.fbit _ _ (by decide), h.fget _ _ (by decide)]

theorem MapSame.zoneSalt {z : Nat} (hz : z < 64) : zoneSalt t z = Machine.zoneSalt s z := by
  unfold Machine.zoneSalt
  rw [h.fgeti _ F.MEMMAP_ZSALT_SALT (z / 8) (by
    show 256 ≤ 0x140 + z / 8 * 4 ∧ 0x140 + z / 8 * 4 < 4096 ∧ 0 < 32
    omega)]

theorem MapSame.rowTurn {z : Nat} (hz : z < 64) (q : Nat) : rowTurn t z q = Machine.rowTurn s z q := by
  unfold Machine.rowTurn keyHash keyWord
  rw [h.memc, h.zoneSalt hz]

theorem MapSame.chanOf (pa : Nat) : chanOf t pa = Machine.chanOf s pa := by
  have hrows : globalRows t = globalRows s := by
    unfold globalRows
    rw [h.memc]
  have hlocal : localRows t = localRows s := by
    unfold localRows
    rw [h.memc]
  have hlines : globalLines t = globalLines s := by
    unfold globalLines
    rw [hrows, h.memc]
  have hlive (u : Nat) : tileLive t u = tileLive s u := by
    unfold tileLive
    rw [h.memc]
  have hbase (u : Nat) : localBase t u = localBase s u := by
    unfold localBase
    simp only [hlines, hlive, hlocal]
  have hturn {z : Nat} (hz : z < 64) (q : Nat) : keyHash t (Machine.zoneSalt t z) q = keyHash s (Machine.zoneSalt s z) q :=
    h.rowTurn hz q
  unfold Machine.chanOf
  simp only [h.memc, hrows, hlocal, hlines, hlive, hbase]
  split
  · rfl
  · split
    · next hg =>
      rw [hturn]
      have : (pa - tierNBase) / 256 / s.memc.live.length < globalRows s := Nat.div_lt_of_lt_mul hg
      unfold globalRows at this
      omega
    · have hback (i q : Nat) : keyHash t (Machine.zoneSalt t (63 - i)) q = keyHash s (Machine.zoneSalt s (63 - i)) q :=
        hturn (by omega) q
      simp only [hback]

theorem MapSame.paBad (pa : Nat) : paBad t pa = Machine.paBad s pa := by
  have hbad (ch : Nat) : chanBad t ch = chanBad s ch := by
    unfold chanBad
    simp only [h.fget _ F.MEMC_BAD_LO_BAD (by decide), h.fget _ F.MEMC_BAD_HI_BAD (by decide)]
  unfold Machine.paBad
  simp only [h.chanOf, hbad]

theorem MapSame.homeOf (line : Nat) : homeOf t line = Machine.homeOf s line := by
  unfold Machine.homeOf
  rw [h.regionOf, h.chanOf]

theorem MapSame.cacheOf_chunkAsker (tile line : Nat) :
    cacheOf t (chunkAsker tile) line = cacheOf s (chunkAsker tile) line := by
  unfold cacheOf chunkAsker agentDead
  simp only [h.fget _ F.COH_CFG_VISIT_MODE (by decide), h.fget _ F.COH_STS_DEAD (by decide), h.homeOf]

/-- The words of the sixteen folds' chunk tables are block registers. -/
theorem MapSame.chunkBase {f : Nat} (hf : f < 16) : chunkBase t f = Machine.chunkBase s f := by
  unfold Machine.chunkBase fpair
  rw [h.fgeti _ F.DRV_CHUNKTBL_LO_BASE_LO f (by
    show 256 ≤ 0x200 + f * 8 ∧ 0x200 + f * 8 < 4096 ∧ 5 < 32
    omega), h.fgeti _ F.DRV_CHUNKTBL_HI_BASE_HI f (by
    show 256 ≤ 0x204 + f * 8 ∧ 0x204 + f * 8 < 4096 ∧ 0 < 32
    omega)]

theorem MapSame.chunkPa {f : Nat} (hf : f < 16) (k : Nat) : chunkPa t f k = Machine.chunkPa s f k := by
  unfold Machine.chunkPa
  rw [h.chunkBase hf]

theorem MapSame.foldRegions (f : Nat) : foldRegions t f = Machine.foldRegions s f := by
  have hlo {n : Nat} (hn : n < 8) (g : Field) (hg : g.off = 0x140 ∧ g.stride = 8 ∧ g.lo < 32) :
      Machine.fgeti t (pgFOLD f) g n = Machine.fgeti s (pgFOLD f) g n := h.fgeti _ g n (by
    obtain ⟨ho, hs, hl⟩ := hg
    rw [ho, hs]
    omega)
  have hhi {n : Nat} (hn : n < 8) (g : Field) (hg : g.off = 0x144 ∧ g.stride = 8 ∧ g.lo < 32) :
      Machine.fgeti t (pgFOLD f) g n = Machine.fgeti s (pgFOLD f) g n := h.fgeti _ g n (by
    obtain ⟨ho, hs, hl⟩ := hg
    rw [ho, hs]
    omega)
  have hvalid : (List.range 8).filter (fun n => fbiti t (pgFOLD f) F.FOLD_REGION_LO_VALID n) =
      (List.range 8).filter (fun n => fbiti s (pgFOLD f) F.FOLD_REGION_LO_VALID n) :=
    List.filter_congr fun n hn => by
      unfold fbiti
      rw [hlo (List.mem_range.1 hn) _ (by decide)]
  unfold Machine.foldRegions
  rw [hvalid]
  refine List.map_congr_left fun n hn => ?_
  have hn := List.mem_range.1 (List.mem_of_mem_filter hn)
  unfold fbiti
  rw [hlo hn F.FOLD_REGION_LO_BASE (by decide), hhi hn F.FOLD_REGION_HI_LIMIT (by decide),
    hhi hn F.FOLD_REGION_HI_COMP (by decide)]

theorem MapSame.chunkInside (f r : Nat) : chunkInside t f r = Machine.chunkInside s f r := by
  unfold Machine.chunkInside inPlainRegions inCompRegions
  simp only [h.foldRegions]

end

theorem MapSame.refl (s : State) : MapSame s s := ⟨.refl s, rfl⟩

theorem MapSame.trans {s t u : State} (h : MapSame s t) (k : MapSame t u) : MapSame s u :=
  ⟨h.block.trans k.block, k.memc.trans h.memc⟩

/-! ## Records that stay -/

/-- From `s` to `t` neither memory, nor its map, nor the directory changed, and so no chunk record did. -/
structure RecordsKept (s t : State) : Prop extends MapSame s t where
  mem : t.mem = s.mem
  undefs : t.undefs = s.undefs
  poison : t.poison = s.poison
  dir : t.coh.dir = s.coh.dir

theorem RecordsKept.refl (s : State) : RecordsKept s s := ⟨.refl s, rfl, rfl, rfl, rfl⟩

theorem RecordsKept.trans {s t u : State} (h : RecordsKept s t) (k : RecordsKept t u) : RecordsKept s u :=
  ⟨h.toMapSame.trans k.toMapSame, k.mem.trans h.mem, k.undefs.trans h.undefs, k.poison.trans h.poison, k.dir.trans h.dir⟩

theorem RecordsKept.readByte {s t : State} (h : RecordsKept s t) (a : Nat) : readByte t a = Machine.readByte s a :=
  readByte_congr h.mem h.undefs a

theorem RecordsKept.dirGet {s t : State} (h : RecordsKept s t) (line : Nat) : dirGet t line = Machine.dirGet s line := by
  unfold Machine.dirGet
  rw [h.dir]

theorem CompletesOnly.recordsKept {s t : State} (h : CompletesOnly s t) (hb : BlockSame s t) : RecordsKept s t :=
  ⟨⟨hb, h.keeps_memc⟩, h.keeps_mem, h.keeps_undefs, h.keeps_poison, by rw [h.keeps_coh]⟩

theorem bump_recordsKept (s : State) (page n : Nat) : RecordsKept s (bump s page n) :=
  (bump_counts ..).completesOnly.recordsKept (bump_blockSame ..)

theorem finishCmd_recordsKept (s : State) (id : CmdId) (r : Res) : RecordsKept s (finishCmd s id r) :=
  (finishCmd_completesOnly ..).recordsKept (finishCmd_blockSame ..)

/-! ## A home that no agent's copy concerns -/

/-- What a home keeps beside its directory is no record. -/
theorem putCoh_recordsKept (s : State) {g : CohSt → CohSt} (hg : ∀ c, (g c).dir = c.dir) : RecordsKept s (putCoh s g) :=
  ⟨⟨.of_regs rfl, rfl⟩, rfl, rfl, rfl, hg s.coh⟩

section
variable {s : State} {line : Nat} (h : dirGet s line = none)
include h

theorem resolveDead_recordsKept (agent : Nat) : RecordsKept s (resolveDead s line agent) := by
  have e : resolveDead s line agent = putCoh s fun c => { c with copies := mdel c.copies (copyKey line agent) } := by
    have hd : dirGet (putCoh s fun c => { c with copies := mdel c.copies (copyKey line agent) }) line = none := h
    unfold resolveDead
    dsimp only
    rw [hd]
  rw [e]
  exact putCoh_recordsKept s fun _ => rfl

theorem homeAccept_recordsKept : RecordsKept s (homeAccept s line) := by
  unfold homeAccept
  refine List.foldlRecOn (motive := RecordsKept s) _ _ ?_ fun t ht a _ =>
    ht.trans (resolveDead_recordsKept ((ht.dirGet line).trans h) a)
  exact (bump_recordsKept ..).trans (putCoh_recordsKept _ fun _ => rfl)

theorem homeTake_recordsKept : RecordsKept s (homeTake s line) := by
  have ha := homeAccept_recordsKept h
  unfold homeTake homeInvalidate
  rw [ha.dirGet line, h]
  exact ha

end

theorem homeTouch_recordsKept (s : State) (line : Nat) : RecordsKept s (homeTouch s line) := by
  unfold homeTouch
  dsimp only
  split
  · exact (bump_recordsKept ..).trans (putCoh_recordsKept _ fun _ => rfl)
  · exact RecordsKept.trans (t := { s with free := s.free + 1 }) ⟨⟨.of_regs rfl, rfl⟩, rfl, rfl, rfl, rfl⟩
      (bump_recordsKept ..)

/-! ## Bytes of a line -/

theorem length_readBytes (s : State) (pa n : Nat) : (readBytes s pa n).length = n := by simp [readBytes]

/-- The slice of a line's bytes at an address of the line. -/
theorem slice_readBytes_line (s : State) {pa n : Nat} (h : pa % 256 + n ≤ 256) :
    slice (readBytes s (lineOf pa * 256) 256) (pa % 256) n = readBytes s pa n := by
  have hpa : lineOf pa * 256 + pa % 256 = pa := Nat.div_add_mod' pa 256
  have hlen : 256 = pa % 256 + (n + (256 - pa % 256 - n)) := by omega
  have hsplit : readBytes s (lineOf pa * 256) 256 =
      readBytes s (lineOf pa * 256) (pa % 256) ++ (readBytes s pa n ++ readBytes s (pa + n) (256 - pa % 256 - n)) := by
    refine (congrArg (readBytes s (lineOf pa * 256)) hlen).trans ?_
    rw [readBytes_add, readBytes_add, hpa]
  rw [slice_eq_take (by rwa [length_readBytes]), hsplit, List.drop_left' (length_readBytes ..),
    List.take_left' (length_readBytes ..)]

theorem leNat_lt (bs : List Byte) : leNat bs < 256 ^ bs.length := by
  induction bs with
  | nil => exact Nat.one_pos
  | cons b t ih =>
    have := b.isLt
    rw [leNat, List.length_cons, pow_succ]
    omega

/-- A store of part of a line outside the scratchpad apertures clears no poison. -/
theorem storeBytes_part (s : State) {pa : Nat} {bs : List Byte} (ha : isSpadPa pa = false) (hn : bs.length < 256) :
    storeBytes s pa bs false = writeBytes s pa bs := by
  unfold storeBytes unpoisonWhole
  simp only [ha, Bool.false_eq_true, if_false]
  split
  · rfl
  · have hk : (pa + bs.length - roundUp pa 256) / 256 = 0 := by
      unfold roundUp
      omega
    rw [hk]
    rfl

theorem readBytes_writeBytes_same (s : State) (pa : Nat) (bs : List Byte) :
    readBytes (writeBytes s pa bs) pa bs.length = bs := by
  refine List.ext_getElem (length_readBytes ..) fun i _ hi => ?_
  have := holdsAt_writeBytes s pa bs i hi
  simp only [readBytes, List.getElem_map, List.getElem_range]
  rw [this, lget, List.getD_eq_getElem _ _ hi]

/-! ## Records at their home -/

/-- What memory holds in the place of a chunk's record. -/
def recordAt (s : State) (f k : Nat) : Nat := leNat (readBytes s (chunkPa s f k) 32)

/-- A chunk's record is at its home: in tier N, sound, with no agent's copy of its line, and not behind the tile's agent. -/
structure RecordHome (s : State) (tile f k : Nat) : Prop where
  tier : tierOfAddr (chunkBase s f) = 0
  region : regionOf s (chunkPa s f k) = .tierN
  agent : cacheOf s (chunkAsker tile) (lineOf (chunkPa s f k)) = none
  dir : dirGet s (lineOf (chunkPa s f k)) = none
  poison : poisonAt s (lineOf (chunkPa s f k) * 256) = false
  good : paBad s (lineOf (chunkPa s f k) * 256) = false

theorem RecordsKept.recordHome {s t : State} {tile f k : Nat} (h : RecordsKept s t) (hf : f < 16)
    (hr : RecordHome s tile f k) : RecordHome t tile f k where
  tier := by rw [h.chunkBase hf, hr.tier]
  region := by rw [h.chunkPa hf, h.regionOf, hr.region]
  agent := by rw [h.chunkPa hf, h.cacheOf_chunkAsker, hr.agent]
  dir := by rw [h.chunkPa hf, h.dirGet, hr.dir]
  poison := by rw [h.chunkPa hf, poisonAt_congr h.poison, hr.poison]
  good := by rw [h.chunkPa hf, h.paBad, hr.good]

theorem RecordsKept.recordAt {s t : State} (h : RecordsKept s t) {f : Nat} (hf : f < 16) (k : Nat) :
    recordAt t f k = Machine.recordAt s f k := by
  unfold Machine.recordAt
  rw [h.chunkPa hf]
  exact congrArg leNat (List.map_congr_left fun i _ => h.readByte _)

theorem tierN_of_regionOf {s : State} {pa : Nat} (h : regionOf s pa = .tierN) :
    tierNBase ≤ pa ∧ pa < tierNBase + 2 ^ 40 := by
  have hlive : fget s pgMEMMAP F.MEMMAP_STS_LIVE < 2 ^ 10 := fgeti_lt s pgMEMMAP F.MEMMAP_STS_LIVE 0 (by decide)
  have hbytes : tierNBytes s ≤ 2 ^ 40 := by
    unfold tierNBytes
    split
    · calc fget s pgMEMMAP F.MEMMAP_STS_LIVE * 2 ^ 30 ≤ 2 ^ 10 * 2 ^ 30 := Nat.mul_le_mul_right _ hlive.le
        _ = 2 ^ 40 := by decide
    · exact Nat.zero_le _
  unfold regionOf at h
  split at h
  · cases h
  · split at h
    · next hn =>
      simp only [Bool.and_eq_true, decide_eq_true_eq] at hn
      omega
    · split at h
      · dsimp only at h
        split at h <;> cases h
      · split at h
        · cases h
        · split at h
          · cases h
          · split at h <;> cases h

theorem isSpadPa_of_tierN {s : State} {pa : Nat} (h : regionOf s pa = .tierN) : isSpadPa pa = false := by
  have := (tierN_of_regionOf h).2
  unfold tierNBase at this
  unfold isSpadPa spadBase
  rw [Bool.and_eq_false_iff, decide_eq_false_iff_not]
  omega

/-- The mark of a bad channel is the same for every byte of a line of tier N. -/
theorem paBad_line {s : State} {pa : Nat} (h : tierNBase ≤ pa) : paBad s (lineOf pa * 256) = paBad s pa := by
  have e : (lineOf pa * 256 - tierNBase) / 256 = (pa - tierNBase) / 256 := by
    unfold tierNBase at h ⊢
    unfold lineOf
    omega
  unfold paBad chanOf
  rw [e]

/-- A record's 32 bytes lie in one line. -/
theorem chunkPa_mod (s : State) (f k : Nat) : chunkPa s f k % 256 + 32 ≤ 256 := by
  have e : ∃ m, chunkPa s f k = 32 * m := by
    refine ⟨fgeti s pgDRVPKG F.DRV_CHUNKTBL_LO_BASE_LO f + fgeti s pgDRVPKG F.DRV_CHUNKTBL_HI_BASE_HI f * 2 ^ 27 + k, ?_⟩
    show fgeti s pgDRVPKG F.DRV_CHUNKTBL_LO_BASE_LO f * 2 ^ 5 + fgeti s pgDRVPKG F.DRV_CHUNKTBL_HI_BASE_HI f * 2 ^ 32 + k * 32 = _
    omega
  obtain ⟨m, e⟩ := e
  omega

theorem recordAt_lt (s : State) (f k : Nat) : recordAt s f k < 256 ^ 32 := by
  have := leNat_lt (readBytes s (chunkPa s f k) 32)
  rwa [length_readBytes] at this

/-! ## A read of a record -/

/-- What a read of a record leaves at the line's home. -/
def homeAsked (s : State) (line : Nat) : State := homeTouch (homeAccept s line) line

section
variable {s : State} {tile f k : Nat}

theorem homeAsked_recordsKept {line : Nat} (h : dirGet s line = none) : RecordsKept s (homeAsked s line) :=
  (homeAccept_recordsKept h).trans (homeTouch_recordsKept ..)

/-- A read at the home of a line that no agent holds gives what memory holds there. -/
theorem chunkRead_at_home (hb : tierOfAddr (chunkBase s f) = 0) (hr : regionOf s (chunkPa s f k) = .tierN)
    (ha : cacheOf s (chunkAsker tile) (lineOf (chunkPa s f k)) = none) (hd : dirGet s (lineOf (chunkPa s f k)) = none) :
    chunkRead s tile f k = (homeAsked s (lineOf (chunkPa s f k)),
      if poisonAt s (lineOf (chunkPa s f k) * 256) || paBad s (lineOf (chunkPa s f k) * 256) then .error stPOISON
      else .ok (recordAt s f k)) := by
  have hk := homeAccept_recordsKept hd
  have hread : cohRead s (chunkAsker tile) (chunkPa s f k) 32 .clean .clean =
      (homeAsked s (lineOf (chunkPa s f k)), readBytes s (chunkPa s f k) 32,
        poisonAt s (lineOf (chunkPa s f k) * 256) || paBad s (lineOf (chunkPa s f k) * 256)) := by
    have hbytes : readBytes (homeAccept s (lineOf (chunkPa s f k))) (lineOf (chunkPa s f k) * 256) 256 =
        readBytes s (lineOf (chunkPa s f k) * 256) 256 := List.map_congr_left fun i _ => hk.readByte _
    have hgive : homeRead s (lineOf (chunkPa s f k)) = (homeAsked s (lineOf (chunkPa s f k)),
        readBytes s (lineOf (chunkPa s f k) * 256) 256,
        poisonAt s (lineOf (chunkPa s f k) * 256) || paBad s (lineOf (chunkPa s f k) * 256)) := by
      unfold homeRead
      dsimp only
      rw [hk.dirGet, hd]
      dsimp only [homeGive, homeLine]
      rw [hbytes, poisonAt_congr hk.poison, hk.paBad]
      rfl
    unfold cohRead
    dsimp only
    rw [ha]
    dsimp only [homeFound, homeEcc]
    rw [hgive, slice_readBytes_line s (chunkPa_mod s f k)]
  unfold chunkRead recordAt
  simp only [hb, hr, hread, bne_self_eq_false, Bool.or_self, Bool.false_eq_true, if_false]
  split <;> rfl

theorem RecordHome.chunkRead (h : RecordHome s tile f k) :
    chunkRead s tile f k = (homeAsked s (lineOf (chunkPa s f k)), .ok (recordAt s f k)) := by
  rw [chunkRead_at_home h.tier h.region h.agent h.dir, h.poison, h.good]
  rfl

/-- A record that its home gives, with no agent's copy in the way, is at its home. -/
theorem recordHome_of_chunkRead {r : Nat} (h : (Machine.chunkRead s tile f k).2 = .ok r)
    (ha : cacheOf s (chunkAsker tile) (lineOf (chunkPa s f k)) = none) (hd : dirGet s (lineOf (chunkPa s f k)) = none) :
    RecordHome s tile f k ∧ recordAt s f k = r := by
  have hplace : tierOfAddr (chunkBase s f) = 0 ∧ regionOf s (chunkPa s f k) = .tierN := by
    by_contra hno
    unfold Machine.chunkRead at h
    dsimp only at h
    rw [not_and_or] at hno
    rw [if_pos (by simpa using hno)] at h
    exact absurd h (by simp)
  obtain ⟨hb, hr⟩ := hplace
  rw [chunkRead_at_home hb hr ha hd] at h
  dsimp only at h
  split at h
  · exact absurd h (by simp)
  · next hsound =>
    rw [Bool.not_eq_true, Bool.or_eq_false_iff] at hsound
    obtain ⟨hp, hg⟩ := hsound
    exact ⟨⟨hb, hr, ha, hd, hp, hg⟩, Except.ok.inj h⟩

/-! ## A change of a record -/

/-- What the home does before it changes a record. -/
def homeTaken (s : State) (line : Nat) : State := bump (homeTouch (homeTake s line) line) (pgCOH (homeOf s line)) 7

theorem homeTaken_recordsKept {line : Nat} (h : dirGet s line = none) : RecordsKept s (homeTaken s line) :=
  (homeTake_recordsKept h).trans ((homeTouch_recordsKept ..).trans (bump_recordsKept ..))

theorem RecordHome.chunkWrite (h : RecordHome s tile f k) (r : Nat) : Machine.chunkWrite s tile f k r =
    writeBytes (homeTaken s (lineOf (chunkPa s f k))) (chunkPa s f k) (leBytes 32 r) := by
  have hk := homeTaken_recordsKept h.dir
  have hgood : paBad (homeTaken s (lineOf (chunkPa s f k))) (chunkPa s f k) = false := by
    rw [hk.paBad, ← paBad_line (tierN_of_regionOf h.region).1, h.good]
  unfold homeTaken at hgood ⊢
  unfold Machine.chunkWrite
  dsimp only
  rw [h.agent]
  dsimp only
  rw [hgood, if_neg Bool.false_ne_true]
  refine storeBytes_part _ (isSpadPa_of_tierN h.region) ?_
  rw [length_leBytes]
  decide

/-- From `s` to `t` the record was set, at its home, and no other byte of memory changed. -/
structure RecordSet (s t : State) (tile f k r : Nat) : Prop where
  home : RecordHome t tile f k
  holds : recordAt t f k = r
  outside : SameOutside s t (chunkPa s f k) 32

theorem recordSet_chunkWrite (h : RecordHome s tile f k) (hf : f < 16) {r : Nat} (hr : r < 256 ^ 32) :
    RecordSet s (Machine.chunkWrite s tile f k r) tile f k r := by
  have hk := homeTaken_recordsKept h.dir
  have hw := writeBytes_eq_setMem (homeTaken s (lineOf (chunkPa s f k))) (chunkPa s f k) (leBytes 32 r)
  have hlen := length_leBytes 32 r
  have hmap : MapSame s (Machine.chunkWrite s tile f k r) := by
    refine hk.toMapSame.trans ?_
    rw [h.chunkWrite, hw]
    exact ⟨.of_regs rfl, rfl⟩
  have hdir : (Machine.chunkWrite s tile f k r).coh.dir = s.coh.dir := by
    rw [h.chunkWrite, hw]
    exact hk.dir
  have hpoison : (Machine.chunkWrite s tile f k r).poison = s.poison := by
    rw [h.chunkWrite, hw]
    exact hk.poison
  refine ⟨⟨?tier, ?region, ?agent, ?dir, ?poison, ?good⟩, ?holds, ?outside⟩
  case tier => rw [hmap.chunkBase hf, h.tier]
  case region => rw [hmap.chunkPa hf, hmap.regionOf, h.region]
  case agent => rw [hmap.chunkPa hf, hmap.cacheOf_chunkAsker, h.agent]
  case dir =>
    rw [hmap.chunkPa hf, dirGet, hdir]
    exact h.dir
  case poison => rw [hmap.chunkPa hf, poisonAt_congr hpoison, h.poison]
  case good => rw [hmap.chunkPa hf, hmap.paBad, h.good]
  case holds =>
    have hread := readBytes_writeBytes_same (homeTaken s (lineOf (chunkPa s f k))) (chunkPa s f k) (leBytes 32 r)
    rw [hlen] at hread
    rw [recordAt, hmap.chunkPa hf, h.chunkWrite, hread, leNat_leBytes, Nat.mod_eq_of_lt hr]
  case outside =>
    intro a ha
    rw [h.chunkWrite, readByte_writeBytes_out _ _ _ _ (by rwa [hlen]), hk.readByte]

theorem RecordSet.before {t u : State} {r : Nat} (h : RecordSet t u tile f k r) (hf : f < 16) (hk : RecordsKept s t) :
    RecordSet s u tile f k r :=
  ⟨h.home, h.holds, fun a ha => (h.outside a (by rwa [hk.chunkPa hf])).trans (hk.readByte a)⟩

theorem RecordSet.after {t u : State} {r : Nat} (h : RecordSet s t tile f k r) (hf : f < 16) (hk : RecordsKept t u) :
    RecordSet s u tile f k r :=
  ⟨hk.recordHome hf h.home, (hk.recordAt hf k).trans h.holds, fun a ha => (hk.readByte a).trans (h.outside a ha)⟩

theorem RecordSet.chunkRead {t : State} {r : Nat} (h : RecordSet s t tile f k r) : (Machine.chunkRead t tile f k).2 = .ok r :=
  (congrArg Prod.snd h.home.chunkRead).trans (congrArg Except.ok h.holds)

end

theorem chunkRead_accessOnly (s : State) (tile f k : Nat) : AccessOnly s (chunkRead s tile f k).1 := by
  have h := cohRead_accessOnly s (chunkAsker tile) (chunkPa s f k) .clean .clean 32
  unfold chunkRead
  exact .ite_fst (.refl s) (.ite_fst h h)

theorem chunkWrite_accessOnly (s : State) (tile f k r : Nat) : AccessOnly s (chunkWrite s tile f k r) := by
  have hhome (t : State) (line pg : Nat) : AccessOnly t (bump (homeTouch (homeTake t line) line) pg 7) :=
    (homeTake_accessOnly ..).trans ((homeTouch_accessOnly ..).trans (bump_counts ..).accessOnly)
  unfold chunkWrite
  dsimp only
  split
  · have hy (a : Nat) := agentYield_accessOnly s (lineOf (chunkPa s f k)) a
    exact .ite ((hy _).trans (hhome ..)) ((hy _).trans ((hhome ..).trans (storeBytes_accessOnly ..)))
  · exact .ite (hhome ..) ((hhome ..).trans (storeBytes_accessOnly ..))

end Sys2Proof.Machine
end

section
/-! Chunk commands and the ends of moves (R227 to R229, R581): what PROMOTE, RELEASE, EVICT and the end of a move do to a
record at its home, one theorem for each clause of O33. The clauses of a move's end bound its fold, which O33 does not. -/

namespace Sys2Proof.Machine

open Sys2Proof

/-! ## Fields of a record -/

/-- A number whose bits [hi:lo] were set: those above and below stay. -/
theorem setBits_eq (x v : Nat) {hi lo : Nat} (h : lo ≤ hi) : setBits x hi lo v =
    x / 2 ^ (hi + 1) * 2 ^ (hi + 1) + v % 2 ^ (hi + 1 - lo) * 2 ^ lo + x % 2 ^ lo := by
  have hpow : 2 ^ (hi + 1) = 2 ^ lo * 2 ^ (hi + 1 - lo) := by rw [← pow_add, Nat.add_sub_cancel' (by omega)]
  have hx := Nat.div_add_mod' x (2 ^ lo)
  have hy := Nat.div_add_mod' (x / 2 ^ lo) (2 ^ (hi + 1 - lo))
  have hz : x / 2 ^ (hi + 1) * 2 ^ (hi + 1) = x / 2 ^ lo / 2 ^ (hi + 1 - lo) * 2 ^ (hi + 1 - lo) * 2 ^ lo := by
    rw [Nat.div_div_eq_div_mul, hpow, mul_assoc, mul_comm (2 ^ (hi + 1 - lo))]
  have hsum : x / 2 ^ lo * 2 ^ lo = x / 2 ^ (hi + 1) * 2 ^ (hi + 1) + bits x hi lo * 2 ^ lo := by
    rw [hz, ← add_mul]
    exact congrArg (· * 2 ^ lo) hy.symm
  unfold setBits
  omega

theorem setBits_lt {x hi lo n : Nat} (v : Nat) (hx : x < 2 ^ n) (h : lo ≤ hi) (hn : hi < n) : setBits x hi lo v < 2 ^ n := by
  have hlow : v % 2 ^ (hi + 1 - lo) * 2 ^ lo + x % 2 ^ lo < 2 ^ (hi + 1) := by
    have hv : v % 2 ^ (hi + 1 - lo) + 1 ≤ 2 ^ (hi + 1 - lo) := Nat.mod_lt _ (Nat.two_pow_pos _)
    have hm := Nat.mul_le_mul_right (2 ^ lo) hv
    rw [← pow_add, Nat.sub_add_cancel (by omega), add_mul, one_mul] at hm
    have := Nat.mod_lt x (Nat.two_pow_pos lo)
    omega
  have hpow : 2 ^ n = 2 ^ (n - (hi + 1)) * 2 ^ (hi + 1) := by rw [← pow_add, Nat.sub_add_cancel hn]
  have hhigh : x / 2 ^ (hi + 1) + 1 ≤ 2 ^ (n - (hi + 1)) :=
    Nat.div_lt_of_lt_mul (by rwa [mul_comm, ← hpow])
  have hm := Nat.mul_le_mul_right (2 ^ (hi + 1)) hhigh
  rw [← hpow, add_mul, one_mul] at hm
  rw [setBits_eq x v h]
  omega

/-- Fields below the bits that were set stay. -/
theorem bits_setBits_below (x v : Nat) {hi lo b a : Nat} (h : lo ≤ hi) (hb : b < lo) (hab : a ≤ b) :
    bits (setBits x hi lo v) b a = bits x b a := by
  have hfield (y : Nat) : bits y b a = y % 2 ^ (b + 1) / 2 ^ a := by
    rw [← Nat.add_sub_cancel' (show a ≤ b + 1 by omega), pow_add, Nat.mod_mul_right_div_self]
    rfl
  have hlo : 2 ^ (b + 1) ∣ 2 ^ lo := pow_dvd_pow 2 hb
  have hhi : 2 ^ (b + 1) ∣ 2 ^ (hi + 1) := pow_dvd_pow 2 (by omega)
  have hmod : setBits x hi lo v ≡ x [MOD 2 ^ (b + 1)] := by
    rw [setBits_eq x v h]
    have hz : x / 2 ^ (hi + 1) * 2 ^ (hi + 1) + v % 2 ^ (hi + 1 - lo) * 2 ^ lo ≡ 0 [MOD 2 ^ (b + 1)] :=
      (Nat.modEq_zero_iff_dvd.mpr (Dvd.dvd.add (Dvd.dvd.mul_left hhi _) (Dvd.dvd.mul_left hlo _)))
    simpa using hz.add ((Nat.mod_modEq x (2 ^ lo)).of_dvd hlo)
  rw [hfield, hfield, hmod]

/-! ### The fields of a chunk record -/

section
variable (r v : Nat)

theorem bits_ckSet_below {hi lo b a : Nat} (h : lo ≤ hi) (hb : b < lo) (hab : a ≤ b) : bits (ckSet r hi lo v) b a = bits r b a :=
  bits_setBits_below r v h hb hab

@[simp] theorem ckLow_ckSetRef : ckLow (ckSetRef r v) = ckLow r := bits_ckSet_below r v (by decide) (by decide) (by decide)
@[simp] theorem ckLow_ckSetState : ckLow (ckSetState r v) = ckLow r := bits_ckSet_below r v (by decide) (by decide) (by decide)
@[simp] theorem ckLow_ckSetHolder : ckLow (ckSetHolder r v) = ckLow r :=
  bits_ckSet_below r v (by decide) (by decide) (by decide)
@[simp] theorem ckHigh_ckSetRef : ckHigh (ckSetRef r v) = ckHigh r := bits_ckSet_below r v (by decide) (by decide) (by decide)
@[simp] theorem ckHigh_ckSetState : ckHigh (ckSetState r v) = ckHigh r :=
  bits_ckSet_below r v (by decide) (by decide) (by decide)
@[simp] theorem ckHigh_ckSetHolder : ckHigh (ckSetHolder r v) = ckHigh r :=
  bits_ckSet_below r v (by decide) (by decide) (by decide)

@[simp] theorem ckLen_ckSetRef : ckLen (ckSetRef r v) = ckLen r :=
  congrArg (fun n => (n + 1) * 4096) (bits_ckSet_below r v (by decide) (by decide) (by decide))
@[simp] theorem ckLen_ckSetState : ckLen (ckSetState r v) = ckLen r :=
  congrArg (fun n => (n + 1) * 4096) (bits_ckSet_below r v (by decide) (by decide) (by decide))
@[simp] theorem ckLen_ckSetHolder : ckLen (ckSetHolder r v) = ckLen r :=
  congrArg (fun n => (n + 1) * 4096) (bits_ckSet_below r v (by decide) (by decide) (by decide))

/-- A record with a field set is again one of 32 bytes. -/
theorem ckSet_lt {r : Nat} (h : r < 256 ^ 32) {hi lo : Nat} (hl : lo ≤ hi) (hh : hi < 256) : ckSet r hi lo v < 256 ^ 32 := by
  have e : 256 ^ 32 = 2 ^ 256 := (pow_mul 2 8 32).symm
  rw [e] at h ⊢
  exact setBits_lt v h hl hh

theorem ckSetState_lt {r : Nat} (h : r < 256 ^ 32) : ckSetState r v < 256 ^ 32 := ckSet_lt v h (by decide) (by decide)
theorem ckSetRef_lt {r : Nat} (h : r < 256 ^ 32) : ckSetRef r v < 256 ^ 32 := ckSet_lt v h (by decide) (by decide)
theorem ckSetHolder_lt {r : Nat} (h : r < 256 ^ 32) : ckSetHolder r v < 256 ^ 32 := ckSet_lt v h (by decide) (by decide)

end

/-! ## A chunk action on an open record -/

/-- A command's context is of one of the sixteen folds. -/
theorem ctxFold_lt {s : State} {c f : Nat} (h : ctxFold s c = some f) : f < 16 := by
  unfold ctxFold at h
  split at h
  · exact Option.some.inj h ▸ fgeti_lt s (pgCTX c) F.CTX_CFG_FOLD 0 (by decide)
  · cases h

section
variable {s : State} {tile f k r : Nat} (h : RecordOpen s tile f k r)
include h

theorem RecordOpen.home : RecordHome s tile f k ∧ recordAt s f k = r := by
  obtain ⟨-, hr, -, ha, hd⟩ := h
  exact recordHome_of_chunkRead hr ha hd

theorem RecordOpen.lt : r < 256 ^ 32 := by
  obtain ⟨-, rfl⟩ := h.home
  exact recordAt_lt ..

theorem RecordOpen.asked_recordsKept : RecordsKept s (homeAsked s (lineOf (chunkPa s f k))) :=
  homeAsked_recordsKept h.home.1.dir

theorem RecordOpen.asked_accessOnly : AccessOnly s (homeAsked s (lineOf (chunkPa s f k))) := by
  have he : (chunkRead s tile f k).1 = homeAsked s (lineOf (chunkPa s f k)) := congrArg Prod.fst h.home.1.chunkRead
  exact he ▸ chunkRead_accessOnly s tile f k

/-- The record is set by the write that follows its reading. -/
theorem RecordOpen.recordSet (hf : f < 16) {r' : Nat} (hr : r' < 256 ^ 32) :
    RecordSet s (chunkWrite (homeAsked s (lineOf (chunkPa s f k))) tile f k r') tile f k r' :=
  (recordSet_chunkWrite (h.asked_recordsKept.recordHome hf h.home.1) hf hr).before hf h.asked_recordsKept

theorem RecordOpen.write_accessOnly (r' : Nat) :
    AccessOnly s (chunkWrite (homeAsked s (lineOf (chunkPa s f k))) tile f k r') :=
  h.asked_accessOnly.trans (chunkWrite_accessOnly ..)

end

/-- An action whose record is open applies R228 to what it read. -/
theorem chunkDo_of_open {s : State} {a : ChunkAct} {r : Nat} (h : RecordOpen s a.tile a.fold a.chunk r) :
    chunkDo s a = chunkAct (homeAsked s (lineOf (chunkPa s a.fold a.chunk))) a r := by
  obtain ⟨hhome, hr⟩ := h.home
  obtain ⟨hw, -, hs, -, -⟩ := h
  unfold chunkDo
  rw [hw, if_neg Bool.false_ne_true]
  dsimp only
  rw [hhome.chunkRead]
  dsimp only
  rw [hr, if_pos hs]

/-! ## Chunk commands -/

section
variable {s : State} {c : CmdId} {op f : Nat} {x : Cmd} (h : Granted s c op f x)
include h

theorem Granted.opcode : cOp x = op := h.2.2.1

/-- A granted command's context is of one of the sixteen folds. -/
theorem Granted.fold_lt : f < 16 := ctxFold_lt h.2.2.2.1

/-- What a Drover command counts when it ends in its own row changes no more than counters do. -/
theorem Granted.withDrv (go : Cmd → State) : Counts (go x) (withDrv s c op go) ∧ BlockSame (go x) (withDrv s c op go) := by
  unfold Machine.withDrv
  rw [withCmd_of_granted h]
  dsimp only
  split
  · split
    · exact ⟨.refl _, .refl _⟩
    · split
      · exact ⟨(bump_counts ..).trans (bump_counts ..), (bump_blockSame ..).trans (bump_blockSame ..)⟩
      · split
        · exact ⟨(bump_counts ..).trans (bump_counts ..), (bump_blockSame ..).trans (bump_blockSame ..)⟩
        · exact ⟨bump_counts .., bump_blockSame ..⟩
  · exact ⟨.refl _, .refl _⟩

end

/-- The chunk action that a chunk command asks for: 0 PROMOTE, 1 RELEASE, 2 EVICT. -/
def cmdAct (f op : Nat) (c : CmdId) (x : Cmd) : ChunkAct :=
  ⟨op, f, cbits x 143 128, op == 0 && x.word.toNat.testBit 144, c.ctx, x.tile, x.engine, .cmd c⟩

/-- A command that a move of its chunk keeps. -/
def cmdHeld (y : Cmd) : Cmd := { y with phase := .running, engine := noEngine }

/-- The move that an action begins on the record `r`. -/
def moveOf (a : ChunkAct) (r : Nat) (up : Bool) : ChunkMove :=
  ⟨a.fold, a.chunk, up, a.tile, a.engine, a.writable, a.ctx, a.by_, ckLow r, ckComp r, ckHigh r, ckLen r⟩

theorem beginMove_moves (s : State) (a : ChunkAct) (r : Nat) (up : Bool) :
    (beginMove s a r up).moves = s.moves ++ [moveOf a r up] := rfl

/-- A granted chunk command that passes its checks, on a record that is open. -/
structure ChunkReady (s : State) (c : CmdId) (op f : Nat) (x : Cmd) (r : Nat) : Prop where
  granted : Granted s c op f x
  inside : cbits x 143 128 < chunkCount s f
  room : waitsFull s x.tile = false
  reserved : reservedOk x.word.toNat (vNamed op) = true
  opened : RecordOpen s x.tile f (cbits x 143 128) r

section
variable {s t : State} {c : CmdId} {op f r n : Nat} {x : Cmd} (h : ChunkReady s c op f x r)
include h

/-- The state in which the command's action is decided. -/
theorem ChunkReady.chunkDo : chunkDo s (cmdAct f n c x) =
    chunkAct (homeAsked s (lineOf (chunkPa s f (cbits x 143 128)))) (cmdAct f n c x) r := chunkDo_of_open h.opened

theorem ChunkReady.chunkCmd_done {res : Res} (hd : Machine.chunkDo s (cmdAct f n c x) = .done t res) :
    chunkCmd s c x n = finishCmd t c res := by
  obtain ⟨-, -, hop, hf, -⟩ := h.granted
  have hin := Nat.not_le.mpr h.inside
  unfold chunkCmd
  simp only [h.room, Bool.false_and, Bool.false_eq_true, if_false]
  rw [acceptCmd_of_granted h.granted (by simp [hop, h.reserved, hf, hin]) rfl rfl]
  simp only [cmdAct] at hd
  rw [hd]

theorem ChunkReady.chunkCmd_move (hd : Machine.chunkDo s (cmdAct f n c x) = .move t) :
    chunkCmd s c x n = updCmd t c cmdHeld := by
  obtain ⟨-, -, hop, hf, -⟩ := h.granted
  have hin := Nat.not_le.mpr h.inside
  unfold chunkCmd
  simp only [h.room, Bool.false_and, Bool.false_eq_true, if_false]
  rw [acceptCmd_of_granted h.granted (by simp [hop, h.reserved, hf, hin]) rfl rfl]
  simp only [cmdAct] at hd
  rw [hd]
  rfl

/-- A chunk command that its action ends at once, having left the commands as they were. -/
theorem ChunkReady.ended {res : Res} (hd : Machine.chunkDo s (cmdAct f n c x) = .done t res) (ht : AccessOnly s t) :
    Ended (withDrv s c op fun x => chunkCmd s c x n) c res ∧ RecordsKept t (withDrv s c op fun x => chunkCmd s c x n) ∧
      (withDrv s c op fun x => chunkCmd s c x n).moves = s.moves := by
  obtain ⟨hcounts, hblock⟩ := h.granted.withDrv fun x => chunkCmd s c x n
  have hfind : findCmd t c = some x := (ht.findCmd c).trans h.granted.findCmd
  have hdone := findCmd_finishCmd res hfind (by simp [h.granted.phase])
  simp only [h.chunkCmd_done hd] at hcounts hblock
  refine ⟨⟨_, (hcounts.accessOnly.findCmd c).trans hdone, rfl, rfl⟩, ?_, ?_⟩
  · exact (finishCmd_recordsKept ..).trans (hcounts.completesOnly.recordsKept hblock)
  · rw [hcounts.keeps_moves, (finishCmd_completesOnly ..).keeps_moves, ht.keeps_moves]

/-- A chunk command that begins a move. -/
theorem ChunkReady.moving {u : State} {a : ChunkAct} {r' : Nat} {up : Bool}
    (hd : Machine.chunkDo s (cmdAct f n c x) = .move (beginMove u a r' up)) (hu : AccessOnly s u) :
    Running (withDrv s c op fun x => chunkCmd s c x n) c ∧ RecordsKept u (withDrv s c op fun x => chunkCmd s c x n) ∧
      (withDrv s c op fun x => chunkCmd s c x n).moves = s.moves ++ [moveOf a r' up] := by
  obtain ⟨hcounts, hblock⟩ := h.granted.withDrv fun x => chunkCmd s c x n
  have hfind : findCmd (beginMove u a r' up) c = some x := (hu.findCmd c).trans h.granted.findCmd
  simp only [h.chunkCmd_move hd] at hcounts hblock
  refine ⟨⟨_, (hcounts.accessOnly.findCmd c).trans (findCmd_updCmd_same (fun _ => rfl) hfind), rfl⟩, ?_, ?_⟩
  · exact RecordsKept.trans (t := updCmd (beginMove u a r' up) c cmdHeld) ⟨⟨.of_regs rfl, rfl⟩, rfl, rfl, rfl, rfl⟩
      (hcounts.completesOnly.recordsKept hblock)
  · rw [hcounts.keeps_moves, ← hu.keeps_moves]
    exact beginMove_moves ..

end

/-! ### PROMOTE, RELEASE and EVICT, one theorem each -/

section
variable {s : State} {c : CmdId} {f r : Nat} {x : Cmd}

theorem promote_answers (h : ChunkReady s c 0x38 f x r) (hlow : ckState r = 0) (href : ckRef r ≠ 0xFFFF)
    (hin : chunkInside s f r = true) :
    Answers (.promote c) s fun t => Running t c ∧
      (chunkRead t x.tile f (cbits x 143 128)).2 = .ok (ckSetHolder (ckSetState (ckSetRef r (ckRef r + 1)) 1) c.ctx) ∧
      (∃ m, t.moves = s.moves ++ [m] ∧ m.fold = f ∧ m.chunk = cbits x 143 128 ∧ m.up = true ∧ m.low = ckLow r ∧
        m.high = ckHigh r ∧ m.len = ckLen r ∧ m.by_ = .cmd c) ∧ SameOutside s t (chunkPa s f (cbits x 143 128)) 32 := by
  have hf := h.granted.fold_lt
  have ho := h.opened
  have hact := h.chunkDo (n := 0)
  simp only [chunkAct, cmdAct, href, if_false, hlow, ho.asked_recordsKept.chunkInside, hin, Bool.not_true,
    Bool.false_eq_true] at hact
  obtain ⟨hrun, hkept, hmoves⟩ := h.moving (n := 0) hact (ho.write_accessOnly _)
  have hset := (ho.recordSet hf (ckSetHolder_lt c.ctx (ckSetState_lt 1 (ckSetRef_lt (ckRef r + 1) ho.lt)))).after hf hkept
  exact ⟨_, rfl, hrun, hset.chunkRead, ⟨_, hmoves, rfl, rfl, rfl, by simp [moveOf], by simp [moveOf], by simp [moveOf], rfl⟩, hset.outside⟩

theorem release_answers (h : ChunkReady s c 0x39 f x r) (href : ckRef r ≠ 0) :
    Answers (.release c) s fun t => Ended t c {} ∧
      (chunkRead t x.tile f (cbits x 143 128)).2 = .ok (ckSetRef r (ckRef r - 1)) ∧ t.moves = s.moves ∧
      SameOutside s t (chunkPa s f (cbits x 143 128)) 32 := by
  have hf := h.granted.fold_lt
  have ho := h.opened
  have hact := h.chunkDo (n := 1)
  simp only [chunkAct, cmdAct, href, if_false] at hact
  obtain ⟨hend, hkept, hmoves⟩ := h.ended (n := 1) hact (ho.write_accessOnly _)
  have hset := (ho.recordSet hf (ckSetRef_lt (ckRef r - 1) ho.lt)).after hf hkept
  exact ⟨_, rfl, hend, hset.chunkRead, hmoves, hset.outside⟩

theorem evict_dirty_answers (h : ChunkReady s c 0x3A f x r) (hhigh : ckState r = 2) (href : ckRef r = 0)
    (hdirty : r.testBit 147 = true) (hin : chunkInside s f r = true) :
    Answers (.evict c) s fun t => Running t c ∧
      (chunkRead t x.tile f (cbits x 143 128)).2 = .ok (ckSetHolder (ckSetState r 3) c.ctx) ∧
      (∃ m, t.moves = s.moves ++ [m] ∧ m.fold = f ∧ m.chunk = cbits x 143 128 ∧ m.up = false ∧ m.by_ = .cmd c) ∧
      SameOutside s t (chunkPa s f (cbits x 143 128)) 32 := by
  have hf := h.granted.fold_lt
  have ho := h.opened
  have hact := h.chunkDo (n := 2)
  simp only [chunkAct, cmdAct, hhigh, href, ne_eq, not_true_eq_false, if_false, hdirty, if_true,
    ho.asked_recordsKept.chunkInside, hin, Bool.not_true, Bool.false_eq_true] at hact
  obtain ⟨hrun, hkept, hmoves⟩ := h.moving (n := 2) hact (ho.write_accessOnly _)
  have hset := (ho.recordSet hf (ckSetHolder_lt c.ctx (ckSetState_lt 3 ho.lt))).after hf hkept
  exact ⟨_, rfl, hrun, hset.chunkRead, ⟨_, hmoves, rfl, rfl, rfl, rfl⟩, hset.outside⟩

theorem evict_low_answers (h : ChunkReady s c 0x3A f x r) (hlow : ckState r = 0) :
    Answers (.evict c) s fun t => Ended t c {} ∧ t.mem = s.mem ∧ t.moves = s.moves := by
  have hact := h.chunkDo (n := 2)
  simp only [chunkAct, cmdAct, hlow] at hact
  obtain ⟨hend, hkept, hmoves⟩ := h.ended (n := 2) hact h.opened.asked_accessOnly
  exact ⟨_, rfl, hend, hkept.mem.trans h.opened.asked_recordsKept.mem, hmoves⟩

end

end Sys2Proof.Machine
end

section
/-! The end of a chunk's move (R228, R229, R581): what the move's data change, and how its end settles the record, one theorem
for each clause of O33. Their fold is one of the part's sixteen, which O33 does not ask. -/

namespace Sys2Proof.Machine

open Sys2Proof

/-! ## The data of a move -/

section
variable (s : State) (m : ChunkMove)

theorem droverLog_counts (t e cause ctx pa : Nat) : Counts s (droverLog s t e cause ctx pa) := by
  unfold droverLog
  refine counts_ite (.refl s) (Counts.trans ?_ (setLogged_counts ..))
  exact (((counts_fput ..).trans (counts_fput ..)).trans (counts_fput ..)).trans ((counts_fput ..).trans (counts_fput ..))

theorem AccessOnly.bump {s t : State} (h : AccessOnly s t) (page n : Nat) : AccessOnly s (bump t page n) :=
  h.trans (bump_counts ..).accessOnly

theorem AccessOnly.bumpBy {s t : State} (h : AccessOnly s t) (page n k : Nat) : AccessOnly s (bumpBy t page n k) :=
  h.trans (bumpBy_counts ..).accessOnly

theorem copyLine_accessOnly (acc : State × Bool) (src dst : Nat) : AccessOnly acc.1 (copyLine m acc src dst).1 := by
  unfold copyLine
  dsimp only
  exact (((cohRead_accessOnly ..).trans (cohWrite_accessOnly ..)).bump ..).bump .. |>.bump ..

theorem moveBlock_accessOnly (acc : State × Bool) (b : Nat) : AccessOnly acc.1 (moveBlock m acc b).1 := by
  unfold moveBlock
  dsimp only
  split
  · split
    · have hblock := readBlock_accessOnly acc.1 (chunkAsker m.tile) m.low (b * 4096) .ok
      generalize readBlock acc.1 (chunkAsker m.tile) m.low (b * 4096) .ok = r at hblock ⊢
      have hread := ((hblock.bump (pgDRV m.tile (moveEngine m)) 3).bumpBy (pgDRV m.tile (moveEngine m)) 5 r.2.sectors).bumpBy
        (pgDRV m.tile (moveEngine m)) 2 16
      exact (AccessOnly.ite (hread.trans (droverLog_counts ..).accessOnly) hread).trans (cohWrites_accessOnly ..)
    · have hread := readSectors_accessOnly acc.1 (chunkAsker m.tile) (m.high + b * 4096) 16
      dsimp only
      exact (((hread.trans (writeBlock_accessOnly ..)).bump ..).bumpBy ..).bumpBy ..
  · exact foldl_accessOnly_fst (fun _ _ => .ite_fst (copyLine_accessOnly ..) (copyLine_accessOnly ..)) _ acc

theorem moveData_accessOnly : AccessOnly s (moveData s m).1 :=
  foldl_accessOnly_fst (moveBlock_accessOnly m) _ (s, false)

theorem moveFailed_accessOnly : AccessOnly s (moveFailed s m) := by
  refine foldl_accessOnly (fun t b => ?_) _ s
  have hdraw : AccessOnly t (drawFree t).2 := rfl
  exact .ite hdraw (hdraw.trans (moveBlock_accessOnly m ((drawFree t).2, false) b))

theorem moveRun_accessOnly (code : Nat) : AccessOnly s (moveRun s m code).1 := by
  unfold moveRun
  exact .ite_fst ((AccessOnly.ite (.refl s) (droverLog_counts ..).accessOnly).trans (moveFailed_accessOnly ..))
    (moveData_accessOnly s m)

end

/-! ## Ends of what asked -/

theorem drvDone_completesOnly (s : State) (tile engine : Nat) (id : CmdId) (r : Res) :
    CompletesOnly s (drvDone s tile engine id r) := by
  unfold drvDone
  refine CompletesOnly.trans (Counts.completesOnly ?_) (finishCmd_completesOnly ..)
  exact counts_ite ((bump_counts ..).trans (bump_counts ..))
    (counts_ite ((bump_counts ..).trans (bump_counts ..)) (bump_counts ..))

theorem drvDone_recordsKept (s : State) (tile engine : Nat) (id : CmdId) (r : Res) :
    RecordsKept s (drvDone s tile engine id r) := by
  unfold drvDone
  dsimp only
  refine RecordsKept.trans ?_ (finishCmd_recordsKept ..)
  split
  · exact (bump_recordsKept ..).trans (bump_recordsKept ..)
  · split
    · exact (bump_recordsKept ..).trans (bump_recordsKept ..)
    · exact bump_recordsKept ..

/-- A command that is told its end has its completion. -/
theorem ended_drvDone {s : State} {id : CmdId} {x : Cmd} (h : findCmd s id = some x) (hp : x.phase ≠ .done) (tile engine : Nat)
    (r : Res) : Ended (drvDone s tile engine id r) id r := by
  unfold drvDone
  dsimp only
  refine ⟨_, findCmd_finishCmd r (x := x) ?_ hp, rfl, rfl⟩
  refine Eq.trans ?_ h
  refine (Counts.accessOnly ?_).findCmd id
  exact counts_ite ((bump_counts ..).trans (bump_counts ..))
    (counts_ite ((bump_counts ..).trans (bump_counts ..)) (bump_counts ..))

/-! ## Links that hold no write -/

theorem peerDrain_idle {s : State} {link : Nat} (h : heldOf s link = []) : peerDrain s link = putPeer s link [] := by
  unfold peerDrain
  rw [h]
  rfl

/-- Where no link holds a write, letting the held writes go changes the links at most. -/
theorem drainPeers_idle {s : State} (h : ∀ link, heldOf s link = []) : ∃ host, drainPeers s = { s with host := host } := by
  have hold : (∃ host, drainPeers s = { s with host := host }) ∧ ∀ link, heldOf (drainPeers s) link = [] := by
    refine List.foldlRecOn (motive := fun t => (∃ host, t = { s with host := host }) ∧ ∀ link, heldOf t link = []) _
      peerDrain ⟨⟨s.host, rfl⟩, h⟩ ?_
    rintro t ⟨⟨host, rfl⟩, ht⟩ link -
    rw [peerDrain_idle (ht link)]
    refine ⟨⟨_, rfl⟩, fun j => ?_⟩
    show mgetD (mput _ link []) j [] = []
    rw [mgetD_mput]
    split
    · rfl
    · exact ht j
  exact hold.1

/-! ## The end of a move -/

/-- The state once a move's engine and ranges are released and its waits taken. -/
def moveClosed (s : State) (m : ChunkMove) : State := (takeWaits (endMove s m) m.fold m.chunk).2

theorem moveClosed_recordsKept (s : State) (m : ChunkMove) : RecordsKept s (moveClosed s m) :=
  ⟨⟨.of_regs rfl, rfl⟩, rfl, rfl, rfl, rfl⟩

/-- The counter of finished moves, by direction. -/
def moveCounter (up : Bool) : Nat := if up then 12 else 13

/-- The state in which the end of a move reads its record. -/
def moveDone (s : State) (m : ChunkMove) (code : Nat) : State :=
  bump (moveRun s m code).1 (pgDRV m.tile (moveEngine m)) (moveCounter m.up)

theorem moveDone_accessOnly (s : State) (m : ChunkMove) (code : Nat) : AccessOnly s (moveDone s m code) :=
  (moveRun_accessOnly ..).trans (bump_counts ..).accessOnly

/-- A move of command `id` that can end: nothing waits on its chunk and no link holds a write, and its record, which reads
`r`, is free and at its home. -/
structure MoveEnds (s : State) (f k : Nat) (up : Bool) (m : ChunkMove) (id : CmdId) (x : Cmd) (r code : Nat) : Prop where
  fold : f < 16
  move : findMove s f k up = some m
  asker : m.by_ = .cmd id
  cmd : findCmd s id = some x
  phase : x.phase ≠ .done
  alone : ∀ w ∈ s.waits, w.fold ≠ f ∨ w.chunk ≠ k
  idle : ∀ link, heldOf s link = []
  free : moveWaits s m = false
  record : (chunkRead (moveDone s m code) m.tile f k).2 = .ok r
  agent : cacheOf (moveDone s m code) (chunkAsker m.tile) (lineOf (chunkPa (moveDone s m code) f k)) = none
  dir : dirGet (moveDone s m code) (lineOf (chunkPa (moveDone s m code) f k)) = none

theorem of_findMove {s : State} {f k : Nat} {up : Bool} {m : ChunkMove} (h : findMove s f k up = some m) :
    m.fold = f ∧ m.chunk = k ∧ m.up = up := by
  simpa [and_assoc] using List.find?_some h

section
variable {s : State} {f k : Nat} {up : Bool} {m : ChunkMove} {id : CmdId} {x : Cmd} {r code : Nat}
  (h : MoveEnds s f k up m id x r code)
include h

theorem MoveEnds.home : RecordHome (moveDone s m code) m.tile f k ∧ recordAt (moveDone s m code) f k = r :=
  recordHome_of_chunkRead h.record h.agent h.dir

theorem MoveEnds.lt : r < 256 ^ 32 := by
  obtain ⟨-, rfl⟩ := h.home
  exact recordAt_lt ..

/-- Nothing waits on the chunk. -/
theorem MoveEnds.no_waits {t : State} (ht : AccessOnly s t) : (takeWaits (endMove t m) m.fold m.chunk).1 = [] := by
  obtain ⟨rfl, rfl, -⟩ := of_findMove h.move
  show (t.waits.filter _) = []
  rw [ht.keeps_waits, List.filter_eq_nil_iff]
  intro w hw
  have := h.alone w hw
  simpa [imp_iff_not_or] using this

/-- The state that the reading of the record leaves. -/
theorem MoveEnds.read : chunkRead (moveDone s m code) m.tile m.fold m.chunk =
    (homeAsked (moveDone s m code) (lineOf (chunkPa (moveDone s m code) f k)), .ok r) := by
  obtain ⟨rfl, rfl, -⟩ := of_findMove h.move
  obtain ⟨hhome, rfl⟩ := h.home
  exact hhome.chunkRead

/-- The state when the move is closed, its record not settled yet. -/
theorem MoveEnds.closed_recordsKept {t : State} {o : Except Nat Nat}
    (ht : chunkRead (moveDone s m code) m.tile m.fold m.chunk = (t, o)) :
    RecordsKept (moveDone s m code) (moveClosed t m) ∧ AccessOnly s t := by
  have ha := (moveDone_accessOnly s m code).trans (chunkRead_accessOnly (moveDone s m code) m.tile m.fold m.chunk)
  rw [ht] at ha
  rw [h.read] at ht
  obtain ⟨rfl, -⟩ := Prod.mk.inj ht
  exact ⟨(homeAsked_recordsKept h.dir).trans (moveClosed_recordsKept ..), ha⟩

/-- A move that ends as its record is set to `r'` and its command told `res`: the command has its completion, the move is
gone, and the record reads `r'`. -/
theorem MoveEnds.settled {t : State} {o : Except Nat Nat} (ht : chunkRead (moveDone s m code) m.tile m.fold m.chunk = (t, o))
    {r' : Nat} (hr : r' < 256 ^ 32) (res : Res) {u : State}
    (hu : u = drainPeers (chunkTell (chunkWrite (moveClosed t m) m.tile m.fold m.chunk r') m.tile m.engine m.by_ res)) :
    Ended u id res ∧ findMove u f k up = none ∧ (chunkRead u m.tile f k).2 = .ok r' := by
  obtain ⟨hfold, hchunk, -⟩ := of_findMove h.move
  obtain ⟨hkept, haccess⟩ := h.closed_recordsKept ht
  have hwrite := chunkWrite_accessOnly (moveClosed t m) m.tile m.fold m.chunk r'
  have hset := recordSet_chunkWrite (hkept.recordHome h.fold h.home.1) h.fold hr
  rw [hfold, hchunk] at hu hwrite
  rw [h.asker] at hu
  generalize chunkWrite (moveClosed t m) m.tile f k r' = w at hu hwrite hset
  change u = drainPeers (drvDone w m.tile m.engine id res) at hu
  have hdone := drvDone_completesOnly w m.tile m.engine id res
  have hfind : findCmd w id = some x :=
    (hwrite.findCmd id).trans ((show findCmd (moveClosed t m) id = findCmd t id from rfl).trans ((haccess.findCmd id).trans h.cmd))
  have hend := ended_drvDone hfind h.phase m.tile m.engine res
  have hheld (link : Nat) : heldOf (drvDone w m.tile m.engine id res) link = [] := by
    unfold heldOf
    rw [hdone.keeps_host, hwrite.keeps_host]
    show mgetD t.host.peer link [] = []
    rw [haccess.keeps_host]
    exact h.idle link
  obtain ⟨host, hdrain⟩ := drainPeers_idle hheld
  have hafter : RecordsKept w u := by
    rw [hu, hdrain]
    exact RecordsKept.trans (drvDone_recordsKept ..) ⟨⟨.of_regs rfl, rfl⟩, rfl, rfl, rfl, rfl⟩
  have hmoves : u.moves = t.moves.filter fun y => !(y.fold == m.fold && y.chunk == m.chunk) := by
    rw [hu, hdrain]
    exact hdone.keeps_moves.trans hwrite.keeps_moves
  refine ⟨?ended, ?gone, (hset.after h.fold hafter).chunkRead⟩
  case ended =>
    rw [hu, hdrain]
    exact hend
  case gone =>
    unfold findMove
    rw [hmoves, List.find?_eq_none]
    intro y hy
    have hother := List.of_mem_filter hy
    rw [hfold, hchunk, Bool.not_eq_true'] at hother
    rw [hother, Bool.false_and]
    exact Bool.false_ne_true

end

/-! ## The record a move leaves (R228) -/

/-- What the command of a move that ended with `code` is told. -/
def moveTold (code : Nat) : Res := if code = 0 then {} else chunkRes code

/-- What a copy up that ended with `code` makes of the record `r`: HIGH, or LOW with one reference less. -/
def copyUpRecord (m : ChunkMove) (r code : Nat) : Nat :=
  if code = 0 then ckSet (ckSet (ckSetState r 2) 147 147 (bitN m.writable)) 148 148 0
  else ckSet (ckSetState (ckSetRef r (ckRef r - 1)) 0) 148 148 0

/-- What a write-back that ended with `code` makes of the record `r`: LOW, or HIGH after an error other than poison. -/
def writeBackRecord (r code : Nat) : Nat :=
  ckSet (ckSetState r (if code = 0 ∨ code = stPOISON then 0 else 2)) 149 149 0

theorem copyUpRecord_lt (m : ChunkMove) {r : Nat} (h : r < 256 ^ 32) (code : Nat) : copyUpRecord m r code < 256 ^ 32 := by
  unfold copyUpRecord
  split
  · exact ckSet_lt _ (ckSet_lt _ (ckSetState_lt _ h) (by decide) (by decide)) (by decide) (by decide)
  · exact ckSet_lt _ (ckSetState_lt _ (ckSetRef_lt _ h)) (by decide) (by decide)

theorem writeBackRecord_lt {r : Nat} (h : r < 256 ^ 32) (code : Nat) : writeBackRecord r code < 256 ^ 32 :=
  ckSet_lt _ (ckSetState_lt _ h) (by decide) (by decide)

section
variable {s t u : State} {m : ChunkMove} {r code c : Nat} (hfree : moveWaits s m = false) (hrun : moveRun s m code = (u, c))
  (hread : chunkRead (bump u (pgDRV m.tile (moveEngine m)) (moveCounter m.up)) m.tile m.fold m.chunk = (t, .ok r))
  (hws : (takeWaits (endMove t m) m.fold m.chunk).1 = [])
include hfree hrun hread hws

/-- A copy up that nothing waits for settles its record and tells its command. -/
theorem copyUpEnd_alone (hup : m.up = true) : copyUpEnd s m code =
    chunkTell (chunkWrite (moveClosed t m) m.tile m.fold m.chunk (copyUpRecord m r c)) m.tile m.engine m.by_ (moveTold c) := by
  simp only [hup, moveCounter, if_true] at hread
  rw [copyUpEnd]
  simp only [hfree, hrun, hread, hws, Bool.false_eq_true, if_false, List.filter_nil, List.foldl_nil, applyEvicts, if_true]
  by_cases hc : c = 0
  · simp only [hc, if_true, copyUpRecord, moveTold, moveClosed]
  · simp only [hc, if_false, copyUpRecord, moveTold, moveClosed]

/-- A write-back that nothing waits for settles its record and tells its command. -/
theorem writeBackEnd_alone (hup : m.up = false) : writeBackEnd s m code =
    chunkTell (chunkWrite (moveClosed t m) m.tile m.fold m.chunk (writeBackRecord r c)) m.tile m.engine m.by_ (moveTold c) := by
  simp only [hup, moveCounter, Bool.false_eq_true, if_false] at hread
  rw [writeBackEnd]
  simp only [hfree, hrun, hread, hws, Bool.false_eq_true, if_false, List.filter_nil, List.foldl_nil]
  by_cases hc : c = 0 ∨ c = stPOISON
  · rw [if_neg (by tauto)]
    simp only [hc, if_true, writeBackRecord, moveTold, moveClosed]
  · rw [if_pos (by tauto)]
    simp only [hc, if_false, writeBackRecord, moveTold, moveClosed]

end

section
variable {s : State} {f k : Nat} {m : ChunkMove} {id : CmdId} {x : Cmd} {r code : Nat}

theorem chunkCopyUpEnd_answers (h : MoveEnds s f k true m id x r code) :
    Answers (.chunkCopyUpEnd f k code) s fun t => Ended t id (moveTold (moveRun s m code).2) ∧ findMove t f k true = none ∧
      (chunkRead t m.tile f k).2 = .ok (copyUpRecord m r (moveRun s m code).2) := by
  obtain ⟨-, -, hup⟩ := of_findMove h.move
  refine ⟨drainPeers (copyUpEnd s m code), ?_, h.settled h.read (copyUpRecord_lt m h.lt _) _ ?_⟩
  · show execChunkCopyUpEnd f k code s = _
    rw [execChunkCopyUpEnd, h.move]
  · rw [copyUpEnd_alone h.free Prod.mk.eta.symm h.read (h.no_waits (h.closed_recordsKept h.read).2) hup]

theorem chunkWritebackEnd_answers (h : MoveEnds s f k false m id x r code) :
    Answers (.chunkWritebackEnd f k code) s fun t => Ended t id (moveTold (moveRun s m code).2) ∧ findMove t f k false = none ∧
      (chunkRead t m.tile f k).2 = .ok (writeBackRecord r (moveRun s m code).2) := by
  obtain ⟨-, -, hup⟩ := of_findMove h.move
  refine ⟨drainPeers (writeBackEnd s m code), ?_, h.settled h.read (writeBackRecord_lt h.lt _) _ ?_⟩
  · show execChunkWritebackEnd f k code s = _
    rw [execChunkWritebackEnd, h.move]
  · rw [writeBackEnd_alone h.free Prod.mk.eta.symm h.read (h.no_waits (h.closed_recordsKept h.read).2) hup]

end

end Sys2Proof.Machine
end

section
/-! Tier schedules (R230 to R234): what SCHED_RUN, the start of an entry and SCHED_CANCEL do, one theorem for each clause of O34.
The clause of an entry bounds the fold of its run, which O34 does not. -/

namespace Sys2Proof.Machine

open Sys2Proof

/-! ## Commands that another's completion leaves -/

theorem findCmd_updCmd_ne {s : State} {id id' : CmdId} (hn : id ≠ id') {f : Cmd → Cmd} (hf : ∀ y, (f y).id = y.id) :
    findCmd (updCmd s id' f) id = findCmd s id := by
  rw [findCmd_of_cmds_map (g := fun y => if y.id == id' then f y else y) (fun y => by split <;> simp [hf]) rfl]
  cases hx : findCmd s id with
  | none => rfl
  | some x =>
    have : x.id ≠ id' := id_of_findCmd hx ▸ hn
    simp [this]

/-- A command past its head, other than the one that completes or done before, stays as it is. -/
theorem findCmd_finishCmd_kept {s : State} {id id' : CmdId} {x : Cmd} (h : findCmd s id = some x) (hp : x.phase ≠ .head)
    (hk : id ≠ id' ∨ x.phase = .done) (r : Res) : findCmd (finishCmd s id' r) id = some x := by
  by_cases he : id = id'
  · subst he
    rwa [finishCmd_of_done r h (hk.resolve_left (not_not.mpr rfl))]
  · cases hy : findCmd s id' with
    | none =>
      unfold finishCmd
      rwa [hy]
    | some y =>
      by_cases hd : y.phase = .done
      · rwa [finishCmd_of_done r hy hd]
      · have hr : findCmd (recorded s id' r y) id = some x := by
          unfold recorded
          refine (findCmd_updCmd_ne he ?_).trans (((countFault_counts ..).accessOnly.findCmd id).trans h)
          exact fun _ => rfl
        rw [finishCmd_of_not_done r hy hd]
        split
        · exact hr
        · split
          · exact findCmd_riseTally_of_not_head _ _ _ _ _ hr hp
          · exact ((bump_counts ..).accessOnly.findCmd id).trans hr

theorem findCmd_drvDone_kept {s : State} {id id' : CmdId} {x : Cmd} (h : findCmd s id = some x) (hp : x.phase ≠ .head)
    (hk : id ≠ id' ∨ x.phase = .done) (tile engine : Nat) (r : Res) : findCmd (drvDone s tile engine id' r) id = some x := by
  unfold drvDone
  refine findCmd_finishCmd_kept (Eq.trans ((Counts.accessOnly ?_).findCmd id) h) hp hk r
  exact counts_ite ((bump_counts ..).trans (bump_counts ..))
    (counts_ite ((bump_counts ..).trans (bump_counts ..)) (bump_counts ..))

/-- A command that is under way, or ended as a canceller does. -/
def EndsClean (s : State) (id : CmdId) : Prop :=
  ∃ x, findCmd s id = some x ∧ (x.phase = .running ∨ x.phase = .done ∧ x.res = {})

theorem EndsClean.drvDone {s : State} {id : CmdId} (h : EndsClean s id) (tile engine : Nat) {id' : CmdId} {r : Res}
    (hr : id ≠ id' ∨ r = {}) : EndsClean (drvDone s tile engine id' r) id := by
  obtain ⟨x, hx, hp⟩ := h
  have hhead : x.phase ≠ .head := by rcases hp with hp | ⟨hp, -⟩ <;> simp [hp]
  by_cases hk : id ≠ id' ∨ x.phase = .done
  · exact ⟨x, findCmd_drvDone_kept hx hhead hk tile engine r, hp⟩
  · obtain ⟨he, hd⟩ := not_or.mp hk
    rw [not_not] at he
    subst he
    obtain ⟨y, hy, hdone, hres⟩ := ended_drvDone hx hd tile engine r
    exact ⟨y, hy, .inr ⟨hdone, hres.trans (hr.resolve_left (not_not.mpr rfl))⟩⟩

theorem EndsClean.finishCmd {s : State} {id : CmdId} (h : EndsClean s id) : Ended (finishCmd s id {}) id {} := by
  obtain ⟨x, hx, hp | ⟨hd, hr⟩⟩ := h
  · exact ⟨_, findCmd_finishCmd {} hx (by simp [hp]), rfl, rfl⟩
  · exact ⟨x, by rwa [finishCmd_of_done {} hx hd], hd, hr⟩

/-! ## Runs -/

/-- Looking a run up after it was changed by a map that keeps ids. -/
theorem find_updSched {s : State} {id : CmdId} {r : SchedSt} {g : SchedSt → SchedSt} (hg : ∀ q, (g q).id = q.id)
    (h : s.scheds.find? (fun q => q.id == id) = some r) :
    (updSched s id g).scheds.find? (fun q => q.id == id) = some (g r) := by
  have hid : (r.id == id) = true := (List.find?_some h :)
  show (s.scheds.map fun q => if q.id == id then g q else q).find? _ = _
  rw [List.find?_map]
  have hsame : ((fun q : SchedSt => q.id == id) ∘ fun q => if q.id == id then g q else q) = fun q => q.id == id := by
    funext q
    simp only [Function.comp]
    split <;> simp [hg]
  rw [hsame, h, Option.map_some, if_pos hid]

theorem updSched_recordsKept (s : State) (id : CmdId) (g : SchedSt → SchedSt) : RecordsKept s (updSched s id g) :=
  ⟨⟨.of_regs rfl, rfl⟩, rfl, rfl, rfl, rfl⟩

/-- A run with entries to start that is not cancelled does not end. -/
theorem schedCheckEnd_of_more {s : State} {id : CmdId} {r : SchedSt} (h : s.scheds.find? (fun q => q.id == id) = some r)
    (hn : r.next < r.entries.length) (hc : r.cancelled = false) : schedCheckEnd s id = s := by
  unfold schedCheckEnd
  rw [h]
  simp [hn, hc]

/-! ## SCHED_RUN -/

theorem schedRun_answers {s s1 : State} {c : CmdId} {resp : LineResp} {rest : LineResp} {f : Nat} {x : Cmd} {bs : List Byte}
    {es : List (BitVec 256)} (h : Granted s c 0x34 f x) (hr : reservedOk x.word.toNat (vNamed 0x34) = true)
    (ht : cbits x 175 128 % 32 = 0) (hroom : (s.scheds.filter fun r => r.tile == x.tile).length < 4)
    (hread : droverRead s x.tile x.engine c.ctx resp (linePieces (cbits x 175 128) ((cbits x 191 176 + 1) * 32)) [] [] =
      .ok s1 bs [] rest)
    (hx : findCmd s1 c = some x) (hf : ctxFold s1 c.ctx = some f) (hn : fenced s1 f = false)
    (hes : es = (List.range (cbits x 191 176 + 1)).map (fun i => BitVec.ofNat 256 (field bs (i * 32) 32)))
    (hgood : ∀ e ∈ es, entryBad s1 f e = false) :
    Answers (.schedRun ⟨c, resp⟩) s fun t => t.scheds = s1.scheds ++ [{ id := c, fold := f, tile := x.tile, entries := es }] ∧
      Running t c ∧ t.mem = s1.mem := by
  have hany : es.any (entryBad s1 f) = false := by simpa using hgood
  have hgo : schedRun s c x resp = updCmd { s1 with
      scheds := s1.scheds ++ [{ id := c, fold := f, tile := x.tile, entries := es }] } c cmdHeld := by
    unfold schedRun
    simp only [hr, ht, Bool.not_true, bne_self_eq_false, Bool.or_self, Bool.false_eq_true, if_false, Nat.not_le.mpr hroom, hread,
      ← hes, hf, Option.getD_some]
    rw [acceptCmd_of_passed hf hn hany rfl rfl]
    rfl
  obtain ⟨hcounts, -⟩ := h.withDrv fun y => schedRun s c y resp
  simp only [hgo] at hcounts
  have hfind : findCmd { s1 with scheds := s1.scheds ++ [{ id := c, fold := f, tile := x.tile, entries := es }] } c = some x := hx
  exact ⟨_, rfl, hcounts.keeps_scheds,
    ⟨cmdHeld x, (hcounts.accessOnly.findCmd c).trans (findCmd_updCmd_same (fun _ => rfl) hfind), rfl⟩, hcounts.keeps_mem⟩

/-! ## The start of an entry -/

/-- The end of an entry that leaves its run others to start: the run has its result, and no record changes. -/
theorem entryDone_of_more {s : State} {id : CmdId} {e code : Nat} {r : SchedSt} {c : Cmd}
    (h : s.scheds.find? (fun q => q.id == id) = some r) (hc : findCmd s id = some c) (hn : r.next < r.entries.length)
    (hk : r.cancelled = false) : RecordsKept s (entryDone s id e code) ∧
      ∃ q, (entryDone s id e code).scheds.find? (fun q => q.id == id) = some q ∧ q.next = r.next ∧
        q.results = r.results ++ [(e, code)] ∧ q.entries = r.entries := by
  unfold entryDone
  rw [h, hc]
  dsimp only
  generalize hl : entryDue s c (lget r.entries e 0) false = late
  generalize hg : (fun r : SchedSt => ({ r with
    inflight := r.inflight.filter (· != e)
    results := r.results ++ [(e, code)]
    late := if late then r.late ++ [e] else r.late } : SchedSt)) = g
  have hb : Counts s (if late = true then bump s (pgDRV r.tile 0) 14 else s) := counts_ite (bump_counts ..) (.refl s)
  have hbk : RecordsKept s (if late = true then bump s (pgDRV r.tile 0) 14 else s) := by
    split
    · exact bump_recordsKept ..
    · exact .refl s
  generalize (if late = true then bump s (pgDRV r.tile 0) 14 else s) = t at hb hbk ⊢
  have hfind := find_updSched (s := t) (g := g) (by subst hg; exact fun _ => rfl) (by rwa [hb.keeps_scheds])
  have hkept := hbk.trans (updSched_recordsKept t id g)
  have htally : ∀ u, RecordsKept s u → u.scheds.find? (fun q => q.id == id) = some (g r) →
      RecordsKept s (schedCheckEnd u id) ∧
      ∃ q, (schedCheckEnd u id).scheds.find? (fun q => q.id == id) = some q ∧ q.next = r.next ∧
        q.results = r.results ++ [(e, code)] ∧ q.entries = r.entries := by
    intro u hu hq
    rw [schedCheckEnd_of_more hq (by subst hg; exact hn) (by subst hg; exact hk)]
    exact ⟨hu, g r, hq, by subst hg; exact ⟨rfl, rfl, rfl⟩⟩
  split
  · exact htally _ (hkept.trans ((tallyAdd_completesOnly ..).recordsKept (tallyAdd_blockSame ..))) hfind
  · exact htally _ hkept hfind

/-- A RELEASE entry's action. -/
def releaseEntry (r : SchedSt) (c : CmdId) (e : BitVec 256) (engine : Nat) : ChunkAct :=
  ⟨1, r.fold, bits e.toNat 15 0, e.toNat.testBit 18, c.ctx, r.tile, engine, .entry c r.next⟩

/-- The next entry of a run of one of the part's folds, a RELEASE that is due and whose record is open, drops a reference. -/
theorem schedEntryStart_answers {s : State} {id : CmdId} {r : SchedSt} {c : Cmd} {e : BitVec 256} {k rec_ : Nat}
    (hfold : r.fold < 16) (hr : s.scheds.find? (fun q => q.id == id) = some r) (hc : findCmd s id = some c)
    (hlive : r.cancelled = false) (hmore : r.next + 1 < r.entries.length)
    (hroom : r.inflight.length < cbits c 201 198 + 1) (hwaits : waitsFull s r.tile = false) (he : e = lget r.entries r.next 0)
    (hdue : entryDue s c e true = true) (hop : bits e.toNat 17 16 = 1) (hk : k = bits e.toNat 15 0)
    (ho : RecordOpen s r.tile r.fold k rec_) (href : ckRef rec_ ≠ 0) :
    Answers (.schedEntryStart id) s fun t => SameOutside s t (chunkPa s r.fold k) 32 ∧
      (chunkRead t r.tile r.fold k).2 = .ok (ckSetRef rec_ (ckRef rec_ - 1)) ∧
      ∃ q, t.scheds.find? (fun q => q.id == id) = some q ∧ q.next = r.next + 1 ∧ q.results = r.results ++ [(r.next, 0)] ∧
        q.entries = r.entries := by
  subst he hk
  generalize hw : chunkWrite (homeAsked s (lineOf (chunkPa s r.fold (bits (lget r.entries r.next 0).toNat 15 0)))) r.tile r.fold
    (bits (lget r.entries r.next 0).toNat 15 0) (ckSetRef rec_ (ckRef rec_ - 1)) = w
  have hset := ho.recordSet hfold (ckSetRef_lt (ckRef rec_ - 1) ho.lt)
  have haccess := ho.write_accessOnly (ckSetRef rec_ (ckRef rec_ - 1))
  rw [hw] at hset haccess
  have hact (engine : Nat) : chunkDo s (releaseEntry r id (lget r.entries r.next 0) engine) = .done w {} := by
    refine (chunkDo_of_open (a := releaseEntry r id (lget r.entries r.next 0) engine) ho).trans ?_
    simp only [chunkAct, releaseEntry, href, if_false, hw]
  have hstarted := find_updSched (s := w) (g := fun q => { q with next := r.next + 1, inflight := q.inflight ++ [r.next] })
    (fun _ => rfl) (by rw [haccess.keeps_scheds]; exact hr)
  have hstep : entryStart s id =
      entryDone (updSched w id fun q => { q with next := r.next + 1, inflight := q.inflight ++ [r.next] }) id r.next 0 := by
    simp only [releaseEntry] at hact
    unfold entryStart
    simp only [hr, hc, hlive, hwaits, hdue, hop, hact, Bool.or_false, Bool.not_true, Bool.false_eq_true, if_false,
      Nat.not_le.mpr (Nat.lt_of_succ_lt hmore), Nat.not_le.mpr hroom, decide_false]
  obtain ⟨hkept, q, hq, hnext, hres, hent⟩ := entryDone_of_more (e := r.next) (code := 0) hstarted
    ((haccess.findCmd id).trans hc) hmore hlive
  have hend := (hset.after hfold (updSched_recordsKept ..)).after hfold hkept
  refine ⟨entryStart s id, rfl, ?_⟩
  rw [hstep]
  exact ⟨hend.outside, hend.chunkRead, q, hq, hnext, hres, hent⟩

/-! ## SCHED_CANCEL -/

/-- What cancellers are told at the end of a run: every command that ends clean still does, and one that is done stays so. -/
theorem foldl_drvDone (tile : Nat) (l : List CmdId) (s : State) :
    CompletesOnly s (l.foldl (fun s c => drvDone s tile 0 c {}) s) ∧
    (∀ id, EndsClean s id → EndsClean (l.foldl (fun s c => drvDone s tile 0 c {}) s) id) ∧
    ∀ id x, findCmd s id = some x → x.phase = .done →
      findCmd (l.foldl (fun s c => drvDone s tile 0 c {}) s) id = some x := by
  induction l generalizing s with
  | nil => exact ⟨.refl s, fun _ h => h, fun _ _ h _ => h⟩
  | cons c l ih =>
    obtain ⟨hc, he, hd⟩ := ih (drvDone s tile 0 c {})
    exact ⟨(drvDone_completesOnly ..).trans hc, fun id h => he id (h.drvDone tile 0 (.inr rfl)),
      fun id x h hp => hd id x (findCmd_drvDone_kept h (by simp [hp]) (.inr hp) tile 0 {}) hp⟩

/-- A cancelled run, the only one, with nothing in flight ends. -/
theorem schedCheckEnd_of_cancelled {s : State} {r : SchedSt} (hs : s.scheds = [r]) (hi : r.inflight = [])
    (hk : r.cancelled = true) : ∃ res, schedCheckEnd s r.id =
      r.cancellers.foldl (fun s c => drvDone s r.tile 0 c {}) (drvDone { s with scheds := [] } r.tile 0 r.id res) := by
  have hnone : [r].filter (fun q => q.id != r.id) = [] := by simp
  unfold schedCheckEnd
  simp only [hs, hi, hk, List.find?_cons, beq_self_eq_true, List.isEmpty_nil, Bool.not_true, Bool.and_false, Bool.or_self,
    Bool.false_eq_true, if_false, hnone]
  exact ⟨_, rfl⟩

/-- It is gone then, its command is done, and another command that ends clean still does. -/
theorem schedCheckEnd_ends {s : State} {r : SchedSt} {y : Cmd} {c : CmdId} (hs : s.scheds = [r]) (hi : r.inflight = [])
    (hk : r.cancelled = true) (hy : findCmd s r.id = some y) (hp : y.phase ≠ .done) (hc : EndsClean s c) (hn : r.id ≠ c) :
    CompletesOnly { s with scheds := [] } (schedCheckEnd s r.id) ∧ EndsClean (schedCheckEnd s r.id) c ∧
      ∃ z, findCmd (schedCheckEnd s r.id) r.id = some z ∧ z.phase = .done := by
  obtain ⟨res, he⟩ := schedCheckEnd_of_cancelled hs hi hk
  have hdone := drvDone_completesOnly { s with scheds := [] } r.tile 0 r.id res
  have hends : EndsClean (drvDone { s with scheds := [] } r.tile 0 r.id res) c :=
    EndsClean.drvDone (s := { s with scheds := [] }) hc r.tile 0 (.inl hn.symm)
  obtain ⟨z, hz, hzp, -⟩ := ended_drvDone (s := { s with scheds := [] }) hy hp r.tile 0 res
  obtain ⟨hfold, hclean, hkept⟩ := foldl_drvDone r.tile r.cancellers (drvDone { s with scheds := [] } r.tile 0 r.id res)
  rw [he]
  exact ⟨hdone.trans hfold, hclean c hends, z, hkept _ z hz hzp, hzp⟩

/-- A run with an entry in flight does not end. -/
theorem schedCheckEnd_of_inflight {s : State} {id : CmdId} {r : SchedSt} (h : s.scheds.find? (fun q => q.id == id) = some r)
    (hi : r.inflight ≠ []) : schedCheckEnd s id = s := by
  unfold schedCheckEnd
  rw [h]
  simp [hi]

/-- The state in which SCHED_CANCEL, under way, looks whether the run that it cancelled has ended. -/
def schedCancelled (s : State) (c : CmdId) (r : SchedSt) : State :=
  updSched (updCmd s c cmdHeld) r.id fun r => { r with cancelled := true }

section
variable {s : State} {c : CmdId} {f : Nat} {x y : Cmd} {r : SchedSt} (h : Granted s c 0x35 f x)
  (hr : reservedOk x.word.toNat (vNamed 0x35) = true) (hn : r.id ≠ c) (hctx : r.id.ctx = c.ctx) (hs : s.scheds = [r])
  (hy : findCmd s r.id = some y) (hp : y.phase ≠ .done) (htag : cbits y 47 32 = cbits x 143 128)
include h hr hn hctx hs hy hp htag

omit hn hp in
/-- SCHED_CANCEL of the only run, which its context owns and whose tag it names, waits for the run or ends with it. -/
theorem exec_schedCancel : ∃ t, exec (.schedCancel c) s = .next t ∧
    Counts (if (schedCheckEnd (schedCancelled s c r) r.id).scheds.any (fun q => q.id == r.id) then
      updSched (schedCheckEnd (schedCancelled s c r) r.id) r.id fun r => { r with cancellers := r.cancellers ++ [c] }
      else finishCmd (schedCheckEnd (schedCancelled s c r) r.id) c {}) t := by
  refine ⟨_, rfl, ?_⟩
  have hhit (p : SchedSt → Bool) (hp : p r = true) : s.scheds.find? p = some r := by rw [hs, List.find?_cons, hp]
  refine Counts.trans ?_ (h.withDrv _).1
  dsimp only
  rw [hhit _ ?_, acceptCmd_of_granted h (state := (some r).isNone) (by simp [hr]) rfl rfl]
  · exact .refl _
  · simp [hctx, hy, htag]

theorem schedCancel_answers : Answers (.schedCancel c) s fun t => t.mem = s.mem ∧
    (r.inflight ≠ [] → Running t c ∧ t.scheds = [{ r with cancelled := true, cancellers := r.cancellers ++ [c] }]) ∧
    (r.inflight = [] → Ended t c {} ∧ t.scheds = [] ∧ ∃ z, findCmd t r.id = some z ∧ z.phase = .done) := by
  have hheld : findCmd (schedCancelled s c r) c = some (cmdHeld x) := findCmd_updCmd_same (fun _ => rfl) h.findCmd
  have hrun : findCmd (schedCancelled s c r) r.id = some y :=
    (findCmd_updCmd_ne (f := cmdHeld) hn fun _ => rfl).trans hy
  have hsched : (schedCancelled s c r).scheds = [{ r with cancelled := true }] := by
    show s.scheds.map _ = _
    simp [hs]
  obtain ⟨t, ht, hcounts⟩ := exec_schedCancel h hr hctx hs hy htag
  refine ⟨t, ht, ?_⟩
  by_cases hi : r.inflight = []
  · obtain ⟨honly, hclean, z, hz, hzp⟩ := schedCheckEnd_ends (r := { r with cancelled := true }) hsched hi rfl hrun hp
      ⟨_, hheld, .inl rfl⟩ hn
    dsimp only at honly hclean hz
    generalize schedCheckEnd (schedCancelled s c r) r.id = u at hcounts honly hclean hz
    have hnone : u.scheds = [] := honly.keeps_scheds
    rw [hnone, List.any_nil, if_neg Bool.false_ne_true] at hcounts
    have hfinish := finishCmd_completesOnly u c {}
    obtain ⟨w, hw, hwp, hwr⟩ := hclean.finishCmd
    refine ⟨?_, fun hne => absurd hi hne, fun _ =>
      ⟨⟨w, (hcounts.accessOnly.findCmd c).trans hw, hwp, hwr⟩, ?_, z, ?_, hzp⟩⟩
    · exact hcounts.keeps_mem.trans (hfinish.keeps_mem.trans honly.keeps_mem)
    · exact hcounts.keeps_scheds.trans (hfinish.keeps_scheds.trans hnone)
    · exact (hcounts.accessOnly.findCmd r.id).trans (findCmd_finishCmd_kept hz (by simp [hzp]) (.inl hn) {})
  · have hfind : (schedCancelled s c r).scheds.find? (fun q => q.id == r.id) = some { r with cancelled := true } := by
      simp [hsched]
    rw [schedCheckEnd_of_inflight hfind hi, hsched, if_pos (by simp)] at hcounts
    refine ⟨hcounts.keeps_mem, fun _ => ⟨⟨cmdHeld x, (hcounts.accessOnly.findCmd c).trans hheld, rfl⟩, ?_⟩,
      fun he => absurd he hi⟩
    refine hcounts.keeps_scheds.trans ?_
    show (schedCancelled s c r).scheds.map _ = _
    simp [hsched]

end

end Sys2Proof.Machine
end

section
/-! A fold past the sixteen that the part has (R238): the words of its chunk table lie in other pages. O33 and O34 do not bound
the fold of a move or of a run, and fail there. -/

namespace Sys2Proof.Machine

open Sys2Proof

/-- The command that asked. -/
def strayCmd : Cmd := { id := ⟨0, 0, 0⟩, word := 0, phase := .running }

/-- The place of fold 452's chunk table is the word of IRQSTS of page 0x15000, the number of an engine of "tile 256". It says
0x1000, so that the table is the start of tier N; record 0 is LOW with one reference. The home's counters are frozen, for
whether an access after the first hits the home store is a free value. -/
def strayTable : State :=
  let s := fput (fput State.reset pgMEMMAP F.MEMMAP_STS_READY 1) pgMEMMAP F.MEMMAP_STS_LIVE 1
  let s := fputi s pgDRVPKG F.DRV_CHUNKTBL_HI_BASE_HI 452 0x1000
  { fput (fput s (pgCOH 256) F.COH_CFG_VISIT_MODE 0) (pgCOH 0) F.CTL_CNT_FREEZE 1 with
    mem := [(tierNBase + 20, 1)]
    cmds := [strayCmd] }

/-- The record of the chunk. -/
def strayRecord : Nat := 2 ^ 160

/-! ## A schedule -/

/-- A run of two entries, of which the first releases chunk 0. -/
def strayRun : SchedSt := { id := strayCmd.id, fold := 452, tile := 256, entries := [BitVec.ofNat 256 (2 ^ 16), 0] }

/-- It is to start its first entry, late; one more count of late entries wraps the counter, and raises IRQSTS. -/
def strayScheduled : State :=
  { strayTable with cnt := [(pgDRV 256 0 * 16 + 14, BitVec.ofNat 64 (2 ^ 64 - 1))], scheds := [strayRun] }

theorem recordOpen_strayScheduled : RecordOpen strayScheduled strayRun.tile strayRun.fold 0 strayRecord := by
  unfold RecordOpen
  decide +kernel

theorem startable_strayScheduled : strayScheduled.scheds.find? (fun q => q.id == strayCmd.id) = some strayRun ∧
    findCmd strayScheduled strayCmd.id = some strayCmd ∧ strayRun.inflight.length < cbits strayCmd 201 198 + 1 ∧
    waitsFull strayScheduled strayRun.tile = false ∧
    entryDue strayScheduled strayCmd (BitVec.ofNat 256 (2 ^ 16)) true = true ∧ ckRef strayRecord ≠ 0 := by decide +kernel

theorem releases_strayRun : bits (BitVec.ofNat 256 (2 ^ 16)).toNat 17 16 = 1 ∧
    0 = bits (BitVec.ofNat 256 (2 ^ 16)).toNat 15 0 := by decide +kernel

/-- The late count has moved the table out of tier N. -/
theorem chunkRead_strayScheduled :
    (chunkRead (entryStart strayScheduled strayCmd.id) strayRun.tile strayRun.fold 0).2 = .error stHOLE := by decide +kernel

/-- Refutes O34, by its clause of an entry's start: it does not bound the fold of the run, and past the part's sixteen folds the
place of a chunk table lies in other pages. There the count of a late entry, wrapping, raises the IRQSTS that the table's base
is read from, and the record is no longer where it was. A run of the model has its context's fold, and for such a fold the
clause holds (`schedEntryStart_answers`). The other clauses hold as they stand: `schedRun_answers` and `schedCancel_answers`. -/
theorem not_schedulesRunAndCancel : ¬ Obligations.SchedulesRunAndCancel := by
  unfold Obligations.SchedulesRunAndCancel
  rintro ⟨-, hstart, -⟩
  obtain ⟨hrun, hcmd, hroom, hwaits, hdue, href⟩ := startable_strayScheduled
  obtain ⟨hop, hchunk⟩ := releases_strayRun
  obtain ⟨t, ht, -, hread, -⟩ := hstart strayCmd.id strayRun strayCmd (BitVec.ofNat 256 (2 ^ 16)) 0 strayRecord strayScheduled
    hrun hcmd (by decide) rfl (by decide) hroom hwaits rfl hdue hop hchunk recordOpen_strayScheduled href
  obtain rfl : entryStart strayScheduled strayCmd.id = t := Host.Outcome.next.inj ht
  cases chunkRead_strayScheduled.symm.trans hread

/-! ## A move -/

/-- A copy up of the chunk, of no bytes. -/
def strayMove : ChunkMove := ⟨452, 0, true, 256, 0, false, 0, .cmd strayCmd.id, 0, false, 0, 0⟩

/-- It is to end; one more count of completed commands wraps the counter, and raises IRQSTS. -/
def strayMoving : State :=
  { strayTable with cnt := [(pgDRV 256 0 * 16, BitVec.ofNat 64 (2 ^ 64 - 1))], moves := [strayMove] }

/-- What the end of the move reads its record in. -/
def strayMoved : State := bump (moveRun strayMoving strayMove 0).1 (pgDRV strayMove.tile (moveEngine strayMove)) 12

theorem moving_strayMoving : findMove strayMoving 452 0 true = some strayMove ∧
    findCmd strayMoving strayCmd.id = some strayCmd ∧ moveWaits strayMoving strayMove = false ∧
    (moveRun strayMoving strayMove 0).2 = 0 := by decide +kernel

theorem record_strayMoved : (chunkRead strayMoved strayMove.tile 452 0).2 = .ok strayRecord ∧
    cacheOf strayMoved (chunkAsker strayMove.tile) (lineOf (chunkPa strayMoved 452 0)) = none ∧
    dirGet strayMoved (lineOf (chunkPa strayMoved 452 0)) = none := by decide +kernel

/-- The count of the completed command has moved the table out of tier N. -/
theorem chunkRead_strayMoving :
    (chunkRead (drainPeers (copyUpEnd strayMoving strayMove 0)) strayMove.tile 452 0).2 = .error stHOLE := by decide +kernel

/-- Refutes O33, by its clauses of a move's end: they do not bound the fold of the move, and past the part's sixteen folds the
place of a chunk table lies in other pages. There the count of the completed command, wrapping, raises the IRQSTS that the
table's base is read from, and the record is no longer where it was. A move of the model has its command's fold, and for such a
fold the four clauses hold (`chunkCopyUpEnd_answers`, `chunkWritebackEnd_answers`). The clauses of the commands hold as they
stand: `promote_answers`, `release_answers`, `evict_dirty_answers` and `evict_low_answers`. -/
theorem not_chunkCommandsAndMoves : ¬ Obligations.ChunkCommandsAndMoves := by
  unfold Obligations.ChunkCommandsAndMoves
  rintro ⟨-, hend⟩
  obtain ⟨hmove, hcmd, hwaits, hcode⟩ := moving_strayMoving
  obtain ⟨hread, hcache, hdir⟩ := record_strayMoved
  obtain ⟨hup, -⟩ := hend 452 0 true strayMove strayCmd.id strayCmd strayRecord 0 strayMoving
    (moveRun strayMoving strayMove 0).1 0 strayMoved hmove rfl hcmd (by decide) (fun w hw => absurd hw List.not_mem_nil) (fun _ => rfl) hwaits
    (Prod.ext rfl hcode) rfl hread hcache hdir
  obtain ⟨t, ht, -, -, hrecord⟩ := hup rfl rfl
  have hexec : exec (.chunkCopyUpEnd 452 0 0) strayMoving = .next (drainPeers (copyUpEnd strayMoving strayMove 0)) := by
    show execChunkCopyUpEnd 452 0 0 strayMoving = _
    rw [execChunkCopyUpEnd, hmove]
  obtain rfl : drainPeers (copyUpEnd strayMoving strayMove 0) = t := Host.Outcome.next.inj (hexec.symm.trans ht)
  cases chunkRead_strayMoving.symm.trans hrecord

end Sys2Proof.Machine
end

section
/-! Drover commands (R212 to R219, R237): the start of COPY, FILL and TILE on their engine, and the write of a row that lies in
one line of a store, one theorem for each clause of O32. The row is written where the granules it touches are `Clean`, which
`Whole` gives where each store of the die lists a granule's flaw once (`clean_of_whole`); O32 does not ask that. -/

namespace Sys2Proof.Machine

open Sys2Proof

/-! ## Acceptance -/

/-- The state in which a Drover command runs on its engine. -/
def droverStarted (s : State) (c : CmdId) (f : Nat) (x : Cmd) : State :=
  updCmd (putDrv s x.tile x.engine { cmd := c, fold := f }) c fun c => { c with phase := .running }

section
variable {s : State} {c : CmdId} {op f : Nat} {x : Cmd} (h : Granted s c op f x)
include h

/-- A Drover command that passes its checks starts at its first destination byte. -/
theorem droverStart_starts (hgo : droverStart s c x = droverStarted s c f x) :
    getDrv (withDrv s c op fun x => droverStart s c x) x.tile x.engine = some { cmd := c, fold := f } ∧
      Running (withDrv s c op fun x => droverStart s c x) c ∧ (withDrv s c op fun x => droverStart s c x).mem = s.mem := by
  obtain ⟨hcounts, -⟩ := h.withDrv fun x => droverStart s c x
  simp only [hgo] at hcounts
  have hfind : findCmd (droverStarted s c f x) c = some { x with phase := .running } :=
    findCmd_updCmd_same (f := fun c => { c with phase := .running }) (fun _ => rfl) h.findCmd
  refine ⟨?_, ⟨_, (hcounts.accessOnly.findCmd c).trans hfind, rfl⟩, hcounts.keeps_mem⟩
  unfold getDrv
  rw [hcounts.keeps_drvs]
  exact mget_mput_same ..

end

section
variable {s : State} {c : CmdId} {f : Nat} {x : Cmd}

theorem copy_answers (h : Granted s c 0x30 f x) (hr : reservedOk x.word.toNat (vNamed 0x30) = true) (hv : vView x ≠ 3)
    (hl : vView x ≠ 0 → vLeavesSpad s x = false) (ho : vOverlap x = false) :
    Answers (.copy c) s fun t => getDrv t x.tile x.engine = some { cmd := c, fold := f } ∧ Running t c ∧ t.mem = s.mem := by
  have hop := h.opcode
  refine ⟨_, rfl, droverStart_starts h ?_⟩
  have hplace : (vView x != 0 && vLeavesSpad s x) = false := by
    by_cases hz : vView x = 0 <;> simp [hz, hl]
  unfold droverStart
  rw [hop]
  exact acceptCmd_of_granted h (by simp [hr, hv]) (by simp [hplace, ho]) rfl _

theorem fill_answers (h : Granted s c 0x31 f x) (hr : reservedOk x.word.toNat (vNamed 0x31) = true) (hv : vView x ≠ 3)
    (hl : vView x ≠ 0 → vLeavesSpad s x = false) :
    Answers (.fill c) s fun t => getDrv t x.tile x.engine = some { cmd := c, fold := f } ∧ Running t c ∧ t.mem = s.mem := by
  have hop := h.opcode
  refine ⟨_, rfl, droverStart_starts h ?_⟩
  have hplace : (vView x != 0 && vLeavesSpad s x) = false := by
    by_cases hz : vView x = 0 <;> simp [hz, hl]
  have ho : vOverlap x = false := by simp [vOverlap, hop]
  unfold droverStart
  rw [hop]
  exact acceptCmd_of_granted h (by simp [hr, hv]) (by simp [hplace, ho]) rfl _

theorem tile_answers (h : Granted s c 0x32 f x) (hr : reservedOk x.word.toNat (vNamed 0x32) = true)
    (hk : fmtKnown (vFmt x) = true) (hs : cbits x 336 335 < 2) (hc : fmtClass (vFmt x) ≠ 0) (ho : vOverlap x = false) :
    Answers (.tile c) s fun t => getDrv t x.tile x.engine = some { cmd := c, fold := f } ∧ Running t c ∧ t.mem = s.mem := by
  have hop := h.opcode
  refine ⟨_, rfl, droverStart_starts h ?_⟩
  unfold droverStart
  rw [hop]
  exact acceptCmd_of_granted h (by simp [hr, hk, Nat.not_le.mpr hs]) (by simp [hc, ho]) rfl _

end

/-! ## A store's place -/

theorem isSpadPa_iff {pa : Nat} : isSpadPa pa = true ↔ 0x200000000000 ≤ pa ∧ pa < 0x200080000000 := by
  unfold isSpadPa
  rw [Bool.and_eq_true, decide_eq_true_iff, decide_eq_true_iff]
  exact .rfl

/-- Where an address of a scratchpad aperture lies depends on no register. -/
theorem regionOf_congr_of_isSpadPa {pa : Nat} (h : isSpadPa pa = true) (s t : State) : regionOf t pa = regionOf s pa := by
  have hplace (u : State) : ¬ pa < tierFBytes u ∧ (tierNBase ≤ pa && pa < tierNBase + tierNBytes u) = false := by
    have hf := fgeti_lt u pgPKG F.PKG_TIERF_SIZE_GIB 0 (by decide)
    have hn := fgeti_lt u pgMEMMAP F.MEMMAP_STS_LIVE 0 (by decide)
    change fget u pgPKG F.PKG_TIERF_SIZE_GIB < 2 ^ 12 at hf
    change fget u pgMEMMAP F.MEMMAP_STS_LIVE < 2 ^ 10 at hn
    have hpa : 0x200000000000 ≤ pa := (isSpadPa_iff.1 h).1
    constructor
    · unfold tierFBytes
      split <;> omega
    · rw [Bool.and_eq_false_iff, decide_eq_false_iff_not, decide_eq_false_iff_not]
      unfold tierNBytes tierNBase
      split <;> omega
  obtain ⟨hf, hn⟩ := hplace s
  obtain ⟨hf', hn'⟩ := hplace t
  unfold regionOf
  rw [if_neg hf, if_neg hf', hn, hn']

/-- The place that a store's region names is the address. -/
theorem aperPa_of_regionOf {s : State} {pa d off : Nat} (hs : isSpadPa pa = true) (h : regionOf s pa = .spad d off) :
    aperPa d off = pa := by
  obtain ⟨hlo, hhi⟩ := isSpadPa_iff.1 hs
  unfold regionOf at h
  split at h
  · cases h
  · split at h
    · cases h
    · split at h
      · dsimp only at h
        split at h
        · obtain ⟨rfl, rfl⟩ := Region.spad.inj h
          unfold aperPa spadBase
          omega
        · cases h
      · next hno => exact absurd hs hno

/-! ## Plain writes at a store's port -/

/-- A write into a granule that can be read meets nothing. -/
theorem granWrite_met_of_granClean {s : State} {d gran off : Nat} {bs : List Byte} (met : Bool) (cls : Nat)
    (h : GranClean s d gran) (h1 : gran * 8 ≤ off) (h2 : off + bs.length ≤ gran * 8 + 8) :
    (granWrite d cls 0 false (s, met) gran off bs).2 = met := by
  have hcounts := metGran_counts cls h h1 h2
  rw [granWrite_plain, granBad_of_granClean (h.congr hcounts.keeps_poison hcounts.keeps_spads)]
  split
  · rfl
  · rfl

/-- A write within a line whose granules can be read meets nothing and is not refused. -/
theorem lineStore_met_of_clean {s : State} {d off : Nat} {bs : List Byte} (cls : Nat) (secure : Bool) (h0 : 0 < bs.length)
    (hk : inKeep off bs.length = false) (h : Clean s d off bs.length) : (lineStore s d cls secure 0 off bs false).2 = {} := by
  unfold lineStore
  simp only [hk, Bool.false_and, Bool.false_eq_true, if_false, if_true]
  have hb := bumpBy_counts s (pgSPAD d) 3 (if lockedWrite 0 off bs.length then 2 else 1)
  refine congrArg (fun m : Bool => ({ met := m } : PortWr)) ?_
  refine (List.foldlRecOn (motive := fun a : State × Bool => (∀ g, GranClean s d g → GranClean a.1 d g) ∧ a.2 = false) _ _
    ⟨fun g hg => hg.congr hb.keeps_poison hb.keeps_spads, rfl⟩ ?_).2
  rintro ⟨t, met⟩ ⟨hclean, rfl⟩ i hi
  rw [List.mem_range] at hi
  have hgran : GranClean t d (off / 8 + i) := hclean _ (h _ (by omega) (by omega))
  have h1 : (off / 8 + i) * 8 ≤ max off ((off / 8 + i) * 8) := Nat.le_max_right ..
  have hlen := slice_length bs (max off ((off / 8 + i) * 8) - off)
    (min (off + bs.length) ((off / 8 + i) * 8 + 8) - max off ((off / 8 + i) * 8))
  refine ⟨fun g hg => ?_, granWrite_met_of_granClean _ _ hgran h1 (by rw [hlen]; omega)⟩
  refine (portWrote_granWrite t false d cls (by rw [hlen]; omega) h1 (by rw [hlen]; omega)).clean (fun g' hl hr => ?_) g
    (hclean g hg)
  rw [hlen] at hl
  obtain rfl : g' = off / 8 + i := by omega
  exact hgran

/-- So does a write over any lines of a store. -/
theorem portWrite_met_of_clean {s : State} {d off : Nat} {bs : List Byte} (cls : Nat) (secure : Bool)
    (hk : inKeep off bs.length = false) (h : Clean s d off bs.length) : (portWrite s d cls secure 0 off bs false).2 = {} := by
  rcases Nat.eq_zero_or_pos bs.length with hz | hn
  · obtain rfl := List.length_eq_zero_iff.1 hz
    rfl
  unfold portWrite
  rw [linePieces_eq_cuts off hn, List.foldl_map]
  refine (List.foldlRecOn (motive := fun a : State × PortWr => (∀ g, GranClean s d g → GranClean a.1 d g) ∧ a.2 = {}) _ _
    ⟨fun _ hg => hg, rfl⟩ ?_).2
  rintro ⟨t, r⟩ ⟨hclean, rfl⟩ i hi
  rw [List.mem_range] at hi
  have hlo := le_cut 256 off bs.length i
  have hhi := cut_le 256 off bs.length (i + 1)
  have hlen := slice_length bs (cut 256 off bs.length i - off) (cut 256 off bs.length (i + 1) - cut 256 off bs.length i)
  have hpos : 0 < (slice bs (cut 256 off bs.length i - off) (cut 256 off bs.length (i + 1) - cut 256 off bs.length i)).length := by
    rw [hlen]
    unfold cut
    unfold lineCount at hi
    omega
  have hkeep := hlen.symm ▸ inKeep_cut 256 i hk
  have hpiece : Clean t d (cut 256 off bs.length i)
      (slice bs (cut 256 off bs.length i - off) (cut 256 off bs.length (i + 1) - cut 256 off bs.length i)).length := by
    intro g hl hr
    rw [hlen] at hl
    exact hclean g (h g (by omega) (by omega))
  dsimp only
  rw [lineStore_met_of_clean cls secure hpos hkeep hpiece]
  exact ⟨fun g hg => (portWrote_lineStore t d cls secure hpos hkeep).clean hpiece g (hclean g hg), rfl⟩

/-! ## A row in one line -/

/-- The bytes of a row, with their places from `y` on. -/
def placedBytes (y n : Nat) (b : Nat → Byte) : List (Nat × Byte) := (List.range n).map fun i => (y + i, b i)

theorem byteRuns_placedBytes (y n : Nat) (b : Nat → Byte) :
    byteRuns (placedBytes y (n + 1) b) = [(y, (List.range (n + 1)).map b)] := by
  induction n generalizing y b with
  | zero => rfl
  | succ n ih =>
    have htail : placedBytes y (n + 1 + 1) b = (y, b 0) :: placedBytes (y + 1) (n + 1) fun i => b (i + 1) := by
      unfold placedBytes
      rw [List.range_succ_eq_map, List.map_cons, List.map_map]
      refine congrArg _ (List.map_congr_left fun i _ => ?_)
      simp only [Function.comp, Nat.succ_eq_add_one, Prod.mk.injEq, and_true]
      omega
    rw [htail, byteRuns, ih, List.range_succ_eq_map (n := n + 1), List.map_cons, List.map_map]
    simp

/-- Bytes one after another are read as one range. -/
theorem joinRanges_bytes (a n : Nat) : joinRanges ((List.range (n + 1)).map fun i => (a + i, 1)) = [(a, n + 1)] := by
  induction n generalizing a with
  | zero => rfl
  | succ n ih =>
    have htail : (List.range (n + 1 + 1)).map (fun i => (a + i, 1)) =
        (a, 1) :: (List.range (n + 1)).map fun i => (a + 1 + i, 1) := by
      rw [List.range_succ_eq_map, List.map_cons, List.map_map]
      refine congrArg _ (List.map_congr_left fun i _ => ?_)
      simp only [Function.comp, Nat.succ_eq_add_one, Prod.mk.injEq, and_true]
      omega
    rw [htail, joinRanges, ih]
    dsimp only
    rw [if_pos (by omega)]
    congr 2
    omega

theorem filterMap_range_lt {α : Type} (g : Nat → α) {n m : Nat} (h : n ≤ m) :
    (List.range m).filterMap (fun i => if i < n then some (g i) else none) = (List.range n).map g := by
  obtain ⟨k, rfl⟩ := Nat.exists_eq_add_of_le h
  rw [List.range_add, List.filterMap_append]
  have hin : (List.range n).filterMap (fun i => if i < n then some (g i) else none) = (List.range n).map g := by
    rw [← List.filterMap_eq_map]
    refine List.filterMap_congr fun i hi => ?_
    rw [if_pos (List.mem_range.1 hi)]
    rfl
  have hout : ((List.range k).map (n + ·)).filterMap (fun i => if i < n then some (g i) else none) = [] := by
    rw [List.filterMap_eq_nil_iff]
    intro i hi
    obtain ⟨j, -, rfl⟩ := List.mem_map.1 hi
    rw [if_neg (by omega)]
  rw [hin, hout, List.append_nil]

section
variable {c : Cmd} (hop : cOp c ≠ 0x32) (hrows : vRows c = 1)
include hop

theorem vDest_of_ne_tile (scales : Bool) : vDest c scales = ⟨vDst c, vRows c, vRowLen c, vDstPitch c⟩ := by
  rw [vDest, if_neg hop]

include hrows

/-- The only row of a command maps its bytes in order. -/
theorem rowAt_one (y : Nat) : rowAt (vDest c false) y = if y < vRowLen c then some (0, y) else none := by
  have hr : (if vDstPitch c = 0 then 1 - 1 else min (y / vDstPitch c) (1 - 1)) = 0 := by
    split <;> simp
  rw [vDest_of_ne_tile hop, hrows]
  unfold rowAt
  dsimp only
  rw [hr, Nat.zero_mul, Nat.zero_add, Nat.sub_zero]

/-- Past the only row no destination byte follows. -/
theorem nextByte_one {y : Nat} (h : vRowLen c ≤ y) : nextByte (vDest c false) y = none := by
  unfold nextByte
  rw [rowAt_one hop hrows, if_neg (Nat.not_lt.mpr h)]
  dsimp only
  rw [vDest_of_ne_tile hop, hrows]
  simp

theorem lineBytes_one {m : Nat} (h : vRowLen c ≤ m) : lineBytes c false 0 m =
    (List.range (vRowLen c)).map fun i => (0 + i, srcOf c false 0 (0 + i)) := by
  rw [← filterMap_range_lt _ h]
  unfold lineBytes
  rw [Nat.sub_zero]
  refine List.filterMap_congr fun i _ => ?_
  rw [rowAt_one hop hrows, Nat.zero_add]
  split <;> rfl

end

/-! ## What an engine's accesses change -/

theorem unhold_streams (s : State) (x : StreamId) (c : Nat) : ∃ st, unhold s x c = { s with streams := st } := by
  unfold unhold
  dsimp only
  split
  · split
    · exact ⟨_, rfl⟩
    · exact ⟨_, rfl⟩
  · split
    · exact ⟨_, rfl⟩
    · exact ⟨_, rfl⟩

theorem accessPlace_part (s : State) (x : StreamId) (part : Bool) (f c va : Nat) (p : Place) :
    accessPlace s x { drover := true, part := part } f c va p = accessPlace s x { drover := true } f c va p := by
  cases p <;> rfl

/-- A compressed place is not a plain one. -/
theorem accessPlace_comp (s : State) (x : StreamId) (who : Who) (f c va base v : Nat) {pa : Nat} {bias : Bool} :
    accessPlace s x who f c va (.comp base v) ≠ .ok pa bias := by
  unfold accessPlace
  dsimp only
  split
  · split
    · split <;> simp
    · simp
  · simp

/-- Only the translation to a compressed place depends on how much of a block the access covers. -/
theorem xlateTbl_part (t : SegTbl) (va : Nat) (k : AccKind) (part : Bool) :
    xlateTbl t { drover := true, part := part } va k = xlateTbl t { drover := true } va k ∨
      ∃ base v, xlateTbl t { drover := true } va k = .to (.comp base v) := by
  unfold xlateTbl
  split
  · exact .inl rfl
  · next i _ =>
    cases hcomp : (segDesc t.bytes i).testBit 7 with
    | false => exact .inl (by simp only [hcomp, Bool.false_eq_true, if_false])
    | true => grind

/-- An access that goes to a plain place does so whatever part of a block it covers. -/
theorem access_part {s : State} {x : StreamId} {c va : Nat} {k : AccKind} {pa : Nat} {bias : Bool}
    (h : access s x { drover := true } c va k = .ok pa bias) (part : Bool) :
    access s x { drover := true, part := part } c va k = .ok pa bias := by
  revert h
  unfold access
  simp only [accessPlace_part]
  cases hfind : (getStream s x).cache.find? (fun e => e.ctx == c) with
  | none => exact id
  | some e =>
    rcases xlateTbl_part e va k part with he | ⟨base, v, hc⟩
    · simp only [he]
      exact id
    · have hplace (f : Nat) : accessPlace s x { drover := true } f c va (.comp base v) ≠ .ok pa bias :=
        accessPlace_comp s x _ f c va base v
      simp only [hc]
      repeat' split
      all_goals simp [hplace]

theorem granWrite_accessOnly (d cls view : Nat) (p : Bool) (acc : State × Bool) (gran off : Nat) (bs : List Byte) :
    AccessOnly acc.1 (granWrite d cls view p acc gran off bs).1 := by
  have hw (t : State) (pa : Nat) (bs : List Byte) : AccessOnly t (writeBytes t pa bs) := by
    rw [writeBytes_eq_setMem]
    rfl
  have hput (t : State) (st : Nat) (x : SpadSt) : AccessOnly t (putSpad t d st x) := rfl
  have hmet (fs : List (Nat × Flaw)) : AccessOnly acc.1 (fs.foldl (meetFlaw cls d (storeAt (gran * 8))) acc.1) := by
    refine foldl_accessOnly (fun t e => ?_) fs acc.1
    have := meetFlaw_readAt cls d (storeAt (gran * 8)) t e
    unfold ReadAt at this
    unfold AccessOnly
    rw [this]
  unfold granWrite
  dsimp only
  split
  · exact (hw ..).trans ((hput ..).trans (setPoison_accessOnly ..))
  · split
    · exact hmet _
    · dsimp only
      exact .ite ((hmet _).trans ((hw ..).trans ((hput ..).trans (setPoison_accessOnly ..))))
        ((hmet _).trans ((hw ..).trans (hput ..)))

theorem lineStore_accessOnly (s : State) (d cls : Nat) (secure : Bool) (view off : Nat) (bs : List Byte) (p : Bool) :
    AccessOnly s (lineStore s d cls secure view off bs p).1 := by
  have hb := (bumpBy_counts s (pgSPAD d) 3 (if lockedWrite view off bs.length then 2 else 1)).accessOnly
  unfold lineStore
  dsimp only
  split
  · exact hb.trans (bump_counts ..).accessOnly
  · exact (AccessOnly.ite hb (hb.trans (bump_counts ..).accessOnly)).trans
      (foldl_accessOnly_fst (fun _ _ => granWrite_accessOnly ..) _ _)

theorem portWrite_accessOnly (s : State) (d cls : Nat) (secure : Bool) (view off : Nat) (bs : List Byte) (p : Bool) :
    AccessOnly s (portWrite s d cls secure view off bs p).1 := by
  refine foldl_accessOnly_fst (fun _ _ => ?_) _ (s, ({} : PortWr))
  exact lineStore_accessOnly ..

theorem unitRead_accessOnly (s : State) (q : Asker) (pa n : Nat) (resp : LineResp) : AccessOnly s (unitRead s q pa n resp).1 := by
  have hline : AccessOnly s (cohRead s q pa n (respCodes resp).1 (respCodes resp).2).1 := cohRead_accessOnly ..
  have hport (d off : Nat) : AccessOnly s (portRead s d q.cls false off n).1 := by
    have := portRead_readAt s d q.cls false off n
    unfold ReadAt at this
    unfold AccessOnly
    rw [this]
  have hask (w o : Nat) : AccessOnly s (windowAsk s q w o n none false) :=
    ((bump_counts ..).trans (counts_emit ..)).accessOnly
  have hrefused (w o e : Nat) : AccessOnly s (windowRefused (windowAsk s q w o n none false) q e) :=
    (hask w o).trans (counts_ite (bump_counts ..) (.refl _)).accessOnly
  unfold unitRead
  dsimp only
  split
  · exact .refl s
  · exact .refl s
  · refine .ite_fst (.refl s) ?_
    split
    · exact hrefused ..
    · exact hask ..
    · exact hask ..
    · exact hask ..
  · exact .ite_fst hline (bump_counts ..).accessOnly
  · exact .ite_fst (hport ..) (hport ..)
  · split
    · exact .refl s
    · exact .ite_fst (.refl s) hline
  · exact hline

/-! ## The end of a command -/

/-- A command without conditions ends in success and frees its engine. -/
theorem droverEnd_clean (s : State) (t e : Nat) (r : DrvRun) : droverEnd s t e r [] =
    finishCmd (bump { s with drvs := mdel s.drvs (t * 16 + e) } (pgDRV t e) 0) r.cmd {} := rfl

theorem droverEnd_clean_completesOnly (s : State) (t e : Nat) (r : DrvRun) :
    CompletesOnly { s with drvs := mdel s.drvs (t * 16 + e) } (droverEnd s t e r []) := by
  rw [droverEnd_clean]
  exact (bump_counts ..).completesOnly.trans (finishCmd_completesOnly ..)

theorem ended_droverEnd_clean {s : State} {r : DrvRun} {x : Cmd} (h : findCmd s r.cmd = some x) (hp : x.phase ≠ .done)
    (t e : Nat) : Ended (droverEnd s t e r []) r.cmd {} := by
  rw [droverEnd_clean]
  refine ⟨_, findCmd_finishCmd {} (x := x) ?_ hp, rfl, rfl⟩
  exact ((bump_counts ..).accessOnly.findCmd r.cmd).trans h

theorem exec_droverLineResponse {t e : Nat} (ht : t < 4) (he : e < 16) (resp : LineResp) (s : State) :
    exec (.droverLineResponse t e resp) s = .next (droverStep s t e resp) := by
  show execDroverLineResponse t e resp s = _
  rw [execDroverLineResponse, if_pos ⟨ht, he⟩]

/-! ## The line of a row -/

/-- An engine whose command is one plain row within a line of a store, at a place that is not busy (R213, R216). -/
structure RowReady (s : State) (t e : Nat) (r : DrvRun) (c : Cmd) (d off pa : Nat) (bias : Bool) : Prop where
  tile : t < 4
  engine : e < 16
  run : getDrv s t e = some r
  line : r.line = 0
  scales : r.scales = false
  codes : r.codes = []
  cmd : findCmd s r.cmd = some c
  phase : c.phase ≠ .done
  opcode : cOp c ≠ 0x32
  view : vView c = 0
  rows : vRows c = 1
  fits : vDst c % 256 + vRowLen c ≤ 256
  target : access s (.drover t e) { drover := true } c.id.ctx (vDst c) .wr = .ok pa bias
  free : targetBusy s pa (droverAsker s t e c.id.ctx 0 bias) = false
  store : isSpadPa pa = true
  region : regionOf s pa = .spad d off
  open_ : inKeep off (vRowLen c) = false

/-- Data without poison gives a run no conditions. -/
theorem droverMeets_nil (r : DrvRun) : droverMeets r [] = r := by simp [droverMeets]

/-- One past the line of the row, as a place past its base. -/
def rowLine (c : Cmd) : Nat := vDst c / 256 * 256 + 256 - vDst c

/-- What the write of a row counts on its engine's page. -/
def rowCounted (s : State) (t e pa : Nat) : State :=
  if tierOfAddr pa == 1 then bump (bump s (pgDRV t e) 2) (pgDRV t e) 6 else bump s (pgDRV t e) 2

theorem rowCounted_counts (s : State) (t e pa : Nat) : Counts s (rowCounted s t e pa) :=
  counts_ite ((bump_counts ..).trans (bump_counts ..)) (bump_counts ..)

section
variable {s : State} {t e : Nat} {r : DrvRun} {c : Cmd} {d off pa : Nat} {bias : Bool} (h : RowReady s t e r c d off pa bias)
include h

theorem RowReady.le_rowLine : vRowLen c ≤ rowLine c := by
  have := h.fits
  unfold rowLine
  omega

theorem RowReady.run_eq : { cmd := r.cmd, fold := r.fold, codes := r.codes, seen := r.seen } = r := by
  have hl := h.line
  have hs := h.scales
  cases r
  subst hl hs
  rfl

/-- The write of a row whose granules can be read. -/
theorem RowReady.unitWrite_eq {u : State} {bs : List Byte} (resp : LineResp) (hn : bs.length = vRowLen c)
    (hc : Clean u d off (vRowLen c)) : unitWrite u (droverAsker s t e c.id.ctx 0 bias) pa bs false resp =
      ((portWrite u d (droverAsker s t e c.id.ctx 0 bias).cls false 0 off bs false).1, none) := by
  have hmet := portWrite_met_of_clean (droverAsker s t e c.id.ctx 0 bias).cls false (bs := bs) (hn ▸ h.open_) (hn ▸ hc)
  unfold unitWrite
  rw [regionOf_congr_of_isSpadPa h.store s u, h.region]
  dsimp only
  rw [show (droverAsker s t e c.id.ctx 0 bias).view = 0 from rfl, hmet]
  rfl

/-- An engine whose data is at hand writes its row, and is past its line. -/
theorem RowReady.droverPut_eq {u : State} {b : Nat → Byte} {resp resp' : LineResp}
    (hg : gather s t e c false 0 (rowLine c) resp = (.ok u [] [] resp', placedBytes 0 (vRowLen c) b))
    (hc : Clean (unhold u (.drover t e) c.id.ctx) d off (vRowLen c)) : droverPut s t e c r resp = .next (rowLine c)
      (rowCounted (portWrite (unhold u (.drover t e) c.id.ctx) d (droverAsker s t e c.id.ctx 0 bias).cls false 0 off
        ((List.range (vRowLen c)).map b) false).1 t e pa) r := by
  have hwrite := h.unitWrite_eq (bs := (List.range (vRowLen c)).map b) resp' (by simp) hc
  have hruns : byteRuns (placedBytes 0 (vRowLen c) b) = [(0, (List.range (vRowLen c)).map b)] := byteRuns_placedBytes 0 _ b
  have hacc (part : Bool) := access_part h.target part
  have hbase : (vDest c false).base = vDst c := by rw [vDest_of_ne_tile h.opcode]
  unfold rowLine at hg ⊢
  unfold droverPut
  simp only [h.line, h.scales, h.view, h.opcode, hbase, if_false, if_true, Nat.add_zero, bne_self_eq_false, Bool.false_eq_true,
    hacc, h.free, hg, hruns, writeRuns, Nat.sub_self, hwrite, droverMeets_nil, List.append_nil]
  rw [h.run_eq]
  rfl

/-- It was the command's last line: the engine is free, the command ends in success, and memory holds the row. -/
theorem RowReady.writes {u : State} {b : Nat → Byte} {resp resp' : LineResp}
    (hg : gather s t e c false 0 (rowLine c) resp = (.ok u [] [] resp', placedBytes 0 (vRowLen c) b)) (hu : AccessOnly s u)
    (hc : Clean u d off (vRowLen c)) : Answers (.droverLineResponse t e resp) s fun w =>
      HoldsAt w pa ((List.range (vRowLen c)).map b) ∧ SameOutside u w pa (vRowLen c) ∧ getDrv w t e = none ∧
        Ended w r.cmd {} := by
  obtain ⟨st, hst⟩ := unhold_streams u (.drover t e) c.id.ctx
  have hunhold : AccessOnly u (unhold u (.drover t e) c.id.ctx) := by
    rw [hst]
    rfl
  have hread (a : Nat) : readByte (unhold u (.drover t e) c.id.ctx) a = readByte u a := by
    rw [hst]
    rfl
  have hclean : Clean (unhold u (.drover t e) c.id.ctx) d off (vRowLen c) := by
    rw [hst]
    exact fun g h1 h2 => (hc g h1 h2).congr rfl rfl
  have hput := h.droverPut_eq hg hclean
  have hlen : ((List.range (vRowLen c)).map b).length = vRowLen c := by simp
  have hwrote := portWrote_portWrite (unhold u (.drover t e) c.id.ctx) d (droverAsker s t e c.id.ctx 0 bias).cls false
    (off := off) (bs := (List.range (vRowLen c)).map b) (hlen.symm ▸ h.open_)
  have hport := portWrite_accessOnly (unhold u (.drover t e) c.id.ctx) d (droverAsker s t e c.id.ctx 0 bias).cls false 0 off
    ((List.range (vRowLen c)).map b) false
  generalize portWrite (unhold u (.drover t e) c.id.ctx) d (droverAsker s t e c.id.ctx 0 bias).cls false 0 off
    ((List.range (vRowLen c)).map b) false = v at hput hwrote hport
  have hcounts := rowCounted_counts v.1 t e pa
  have hall := hu.trans (hunhold.trans (hport.trans hcounts.accessOnly))
  have hstep : droverStep s t e resp = droverEnd (rowCounted v.1 t e pa) t e r [] := by
    unfold droverStep
    simp only [h.run, h.cmd, hput]
    unfold droverAfter
    rw [h.scales, nextByte_one h.opcode h.rows h.le_rowLine]
    simp only [h.opcode, false_and, if_false, h.codes]
  have hdone := droverEnd_clean_completesOnly (rowCounted v.1 t e pa) t e r
  have hbyte (a : Nat) : readByte (droverEnd (rowCounted v.1 t e pa) t e r []) a = readByte v.1 a :=
    (readByte_congr hdone.keeps_mem hdone.keeps_undefs a).trans (hcounts.sameData.readByte a)
  have haper := aperPa_of_regionOf h.store h.region
  refine ⟨droverEnd (rowCounted v.1 t e pa) t e r [], ?_, ?holds, ?outside, ?free,
    ended_droverEnd_clean ((hall.findCmd r.cmd).trans h.cmd) h.phase t e⟩
  · rw [exec_droverLineResponse h.tile h.engine, hstep]
  case holds =>
    have := hwrote.holds (hlen.symm ▸ hclean)
    rw [haper] at this
    exact fun i hi => (hbyte _).trans (this i hi)
  case outside =>
    have := hwrote.outside
    rw [haper, hlen] at this
    exact fun a ha => (hbyte a).trans ((this a ha).trans (hread a))
  case free =>
    unfold getDrv
    rw [hdone.keeps_drvs]
    exact (mget_mdel ..).trans (if_pos rfl)

end

/-! ## FILL and COPY -/

/-- FILL's pattern of byte `i` of a row. -/
def fillByte (c : Cmd) (i : Nat) : Byte := BitVec.ofNat 8 (cbits c 511 384 / 2 ^ (8 * (i % 16)))

/-- Each byte of COPY's row is the byte of the source in its place. -/
theorem byteFrom_copy {c : Cmd} (hop : cOp c = 0x30) {bs : List Byte} (hlen : bs.length = vRowLen c) {i : Nat}
    (hi : i < vRowLen c) : byteFrom [(vSrc c, bs)] (srcOf c false 0 i) = lget bs i 0 := by
  have hsrc : srcOf c false 0 i = some ⟨vSrc c + i, 1, 0, 0xFF⟩ := by simp [srcOf, hop]
  have hin : (vSrc c ≤ vSrc c + i && vSrc c + i + 1 ≤ vSrc c + bs.length) = true := by
    simp only [Bool.and_eq_true, decide_eq_true_eq]
    omega
  have hfield : field bs i 1 = (lget bs i 0).toNat := by
    unfold field
    rw [slice_eq_take (by omega), List.take_one, List.head?_drop, lget, List.getD_eq_getElem?_getD]
    rw [List.getElem?_eq_getElem (by omega)]
    simp [leNat]
  rw [hsrc]
  unfold byteFrom
  simp only [List.find?_cons, hin, Nat.add_sub_cancel_left, hfield, pow_zero, Nat.div_one]
  rw [Nat.mod_eq_of_lt (lget bs i 0).isLt, BitVec.ofNat_toNat, BitVec.setWidth_eq]

/-- What the read of COPY's line counts on its engine's page. -/
def lineCounted (s : State) (t e pa : Nat) : State :=
  if tierOfAddr pa == 1 then bump (bump s (pgDRV t e) 1) (pgDRV t e) 5 else bump s (pgDRV t e) 1

theorem lineCounted_counts (s : State) (t e pa : Nat) : Counts s (lineCounted s t e pa) :=
  counts_ite ((bump_counts ..).trans (bump_counts ..)) (bump_counts ..)

section
variable {s : State} {t e : Nat} {r : DrvRun} {c : Cmd} {d off pa : Nat} {bias : Bool} (h : RowReady s t e r c d off pa bias)
include h

theorem RowReady.gather_fill (hop : cOp c = 0x31) (resp : LineResp) :
    gather s t e c false 0 (rowLine c) resp = (.ok s [] [] resp, placedBytes 0 (vRowLen c) (fillByte c)) := by
  unfold gather
  simp only [hop, if_true, lineBytes_one h.opcode h.rows h.le_rowLine, List.map_map]
  refine congrArg _ (List.map_congr_left fun i hi => ?_)
  rw [List.mem_range] at hi
  simp only [Function.comp, rowAt_one h.opcode h.rows, Nat.zero_add, if_pos hi, Option.getD_some]
  rfl

theorem droverLineResponse_fill_answers (hop : cOp c = 0x31) (hc : Clean s d off (vRowLen c)) (resp : LineResp) :
    Answers (.droverLineResponse t e resp) s fun u =>
      (∀ i, i < vRowLen c → readByte u (pa + i) = BitVec.ofNat 8 (cbits c 511 384 / 2 ^ (8 * (i % 16)))) ∧
      SameOutside s u pa (vRowLen c) ∧ getDrv u t e = none ∧ Ended u r.cmd {} := by
  obtain ⟨u, hu, hholds, hrest⟩ := h.writes (h.gather_fill hop resp) (.refl s) hc
  refine ⟨u, hu, fun i hi => ?_, hrest⟩
  rw [hholds i (by simpa using hi)]
  simp [lget, hi, fillByte]

section
variable {spa : Nat} {sbias : Bool} {bs : List Byte} {s1 : State} {resp : LineResp} (hop : cOp c = 0x30)
  (hsrc : vSrc c % 256 + vRowLen c ≤ 256)
  (hacc : access s (.drover t e) { drover := true } c.id.ctx (vSrc c) .rd = .ok spa sbias)
  (hbusy : targetBusy s spa (droverAsker s t e c.id.ctx 0 sbias) = false) (hans : unanswered s spa resp = false)
  (hread : unitRead (unhold s (.drover t e) c.id.ctx) (droverAsker s t e c.id.ctx 0 sbias) spa (vRowLen c) resp =
    (s1, .ok (bs, false))) (hlen : bs.length = vRowLen c)
include hop hsrc hacc hbusy hans hread hlen

/-- COPY's source, in one line, gives the row's data. -/
theorem RowReady.gather_copy : gather s t e c false 0 (rowLine c) resp =
    (.ok (lineCounted s1 t e spa) [] [] (respAfter s spa (vRowLen c) resp),
      placedBytes 0 (vRowLen c) fun i => lget bs i 0) := by
  have hpos : 1 ≤ vRowLen c := Nat.le_add_left ..
  have hline : droverRead s t e c.id.ctx resp (linePieces (vSrc c) (vRowLen c)) [] [] =
      .ok (lineCounted s1 t e spa) bs [] (respAfter s spa (vRowLen c) resp) := by
    rw [linePieces_line hpos hsrc]
    simp only [droverRead, hacc, hbusy, hans, hread, Bool.or_self, Bool.false_eq_true, if_false, List.append_nil, List.nil_append]
    rfl
  have hneed : joinRanges ((lineBytes c false 0 (rowLine c)).filterMap fun b => b.2.map fun x => (x.va, x.n)) =
      [(vSrc c, vRowLen c)] := by
    have hmap : (lineBytes c false 0 (rowLine c)).filterMap (fun b => b.2.map fun x => (x.va, x.n)) =
        (List.range (vRowLen c)).map fun i => (vSrc c + i, 1) := by
      rw [lineBytes_one h.opcode h.rows h.le_rowLine, List.filterMap_map, ← List.filterMap_eq_map]
      refine List.filterMap_congr fun i _ => ?_
      simp [srcOf, hop]
    rw [hmap]
    exact joinRanges_bytes ..
  unfold gather
  simp only [hop, show (0x30 : Nat) ≠ 0x31 by decide, if_false, hneed, readRanges, hline, List.nil_append]
  refine congrArg _ ?_
  rw [lineBytes_one h.opcode h.rows h.le_rowLine, List.map_map]
  refine List.map_congr_left fun i hi => ?_
  simp only [Function.comp, Nat.zero_add]
  rw [byteFrom_copy hop hlen (List.mem_range.1 hi)]

theorem droverLineResponse_copy_answers (hc : Clean s1 d off (vRowLen c)) :
    Answers (.droverLineResponse t e resp) s fun u => HoldsAt u pa bs ∧ SameOutside s1 u pa (vRowLen c) ∧
      getDrv u t e = none ∧ Ended u r.cmd {} := by
  obtain ⟨st, hst⟩ := unhold_streams s (.drover t e) c.id.ctx
  have hcounts := lineCounted_counts s1 t e spa
  have hunhold : AccessOnly s (unhold s (.drover t e) c.id.ctx) := by
    rw [hst]
    rfl
  have hunit := unitRead_accessOnly (unhold s (.drover t e) c.id.ctx) (droverAsker s t e c.id.ctx 0 sbias) spa (vRowLen c) resp
  rw [hread] at hunit
  have hbytes : (List.range (vRowLen c)).map (fun i => lget bs i 0) = bs := by
    refine List.ext_getElem (by simp [hlen]) fun i h1 h2 => ?_
    simp [lget, List.getElem?_eq_getElem h2]
  obtain ⟨u, hu, hholds, hout, hrest⟩ := h.writes (h.gather_copy hop hsrc hacc hbusy hans hread hlen)
    (hunhold.trans (hunit.trans hcounts.accessOnly)) fun g h1 h2 => (hc g h1 h2).congr hcounts.keeps_poison hcounts.keeps_spads
  rw [hbytes] at hholds
  exact ⟨u, hu, hholds, fun a ha => (hout a ha).trans (hcounts.sameData.readByte a), hrest⟩

end

end

/-! ## A granule whose flaws are listed twice -/

/-- A FILL of one byte, 1, at virtual address 4. -/
def fillCmd : Cmd := { id := ⟨0, 0, 0⟩, word := BitVec.ofNat 512 (0x31 + 4 * 2 ^ 176 + 2 ^ 384), phase := .running }

/-- It runs on engine 0 of tile 0; its row lies at offset 4 of die 0, in granule 0, whose flaws are listed twice. -/
def fillFlawed : State :=
  putDrv (putStream { fput twiceFlawed (pgCTX 0) F.CTX_CFG_FOLD_VALID 1 with cmds := [fillCmd] } (.drover 0 0)
    { past := some { ctx := 0, va := 4, place := .plain (spadBase + 4) false } }) 0 0 { cmd := ⟨0, 0, 0⟩, fold := 0 }

theorem fill_fillFlawed : getDrv fillFlawed 0 0 = some { cmd := ⟨0, 0, 0⟩, fold := 0 } ∧
    findCmd fillFlawed ⟨0, 0, 0⟩ = some fillCmd ∧ vView fillCmd = 0 ∧ vRows fillCmd = 1 ∧ vRowLen fillCmd = 1 ∧
    vDst fillCmd = 4 ∧ cOp fillCmd = 0x31 ∧ regionOf fillFlawed (spadBase + 4) = .spad 0 4 ∧
    targetBusy fillFlawed (spadBase + 4) (droverAsker fillFlawed 0 0 0 0 false) = false := by decide +kernel

theorem access_fillFlawed : access fillFlawed (.drover 0 0) { drover := true } 0 4 .wr = .ok (spadBase + 4) false := by
  rfl

theorem whole_fillFlawed : Whole fillFlawed 0 4 1 := by
  have h0 : granBad fillFlawed 0 (storeAt (0 * 8)) 0 = false := by decide +kernel
  intro g hg _
  obtain rfl : g = 0 := by omega
  exact h0

/-- The byte of the pattern is 1, and the write leaves 0. -/
theorem fillByte_fillCmd : fillByte fillCmd 0 = 1 := by decide +kernel

theorem readByte_fillFlawed : readByte (droverStep fillFlawed 0 0 .ok) (spadBase + 4 + 0) = 0 := by decide +kernel

/-- Refutes O32, by its clause of FILL: `Whole` looks a granule up, and so sees only the first entry of a list of flaws that
names a granule twice, while the write meets each entry of the list and then leaves the granule as it is. What fails is a state
whose list does not rise, which the puts and deletions of the model do not leave. The clauses of a row in one line hold
(`droverLineResponse_fill_answers`, `droverLineResponse_copy_answers`) where the range is `Clean`; with `FlawsRise` it is so
wherever it is `Whole` (`clean_of_whole`). The clauses of the start hold as they stand: `copy_answers`, `fill_answers` and
`tile_answers`. -/
theorem not_droverCommandsRunLineByLine : ¬ Obligations.DroverCommandsRunLineByLine := by
  unfold Obligations.DroverCommandsRunLineByLine
  intro h
  obtain ⟨-, -, -, hline⟩ := h
  obtain ⟨hrun, hcmd, hview, hrows, hlen, hdst, hop, hregion, hbusy⟩ := fill_fillFlawed
  obtain ⟨hfill, -⟩ := hline 0 0 _ fillCmd 0 4 (spadBase + 4) false .ok fillFlawed (by decide) (by decide) hrun rfl rfl rfl hcmd
    (by decide) hview hrows (by rw [hlen, hdst]; decide) (by rw [hdst]; exact access_fillFlawed) hbusy (by decide) hregion
    (by rw [hlen]; decide)
  obtain ⟨u, hu, hholds, -⟩ := hfill hop (by rw [hlen]; exact whole_fillFlawed)
  obtain rfl : droverStep fillFlawed 0 0 .ok = u :=
    Host.Outcome.next.inj ((exec_droverLineResponse (by decide) (by decide) .ok fillFlawed).symm.trans hu)
  have hone := hholds 0 (by rw [hlen]; decide)
  exact absurd (readByte_fillFlawed.symm.trans (hone.trans fillByte_fillCmd)) (by decide)

end Sys2Proof.Machine
end

section
/-! Accesses to a line at its home, by a requester whose tile keeps no copy (R197, R200, R268, R276, R280): where nothing but
memory holds the line and its bytes are sound, a read answers them, and a write or an atomic changes its own bytes alone. -/

namespace Sys2Proof.Machine

open Sys2Proof

/-! ## Lines of the memory tiers -/

/-- Bytes of one line of a memory tier, sound, and held by no agent (R197, R200, R271). -/
structure SoundAtHome (s : State) (pa n : Nat) : Prop where
  pos : 1 ≤ n
  fits : pa % 256 + n ≤ 256
  tier : regionOf s pa = .tierN ∨ regionOf s pa = .tierF
  sound : poisonAt s pa = false
  good : paBad s pa = false
  dir : dirGet s (lineOf pa) = none

theorem tierF_of_regionOf {s : State} {pa : Nat} (h : regionOf s pa = .tierF) : pa < tierNBase := by
  have hsize : fget s pgPKG F.PKG_TIERF_SIZE_GIB < 2 ^ 12 := fgeti_lt s pgPKG F.PKG_TIERF_SIZE_GIB 0 (by decide)
  have hbytes : tierFBytes s ≤ 2 ^ 42 := by
    unfold tierFBytes
    split
    · calc fget s pgPKG F.PKG_TIERF_SIZE_GIB * 2 ^ 30 ≤ 2 ^ 12 * 2 ^ 30 := Nat.mul_le_mul_right _ hsize.le
        _ = 2 ^ 42 := by decide
    · exact Nat.zero_le _
  have hlt : pa < tierFBytes s := by
    by_contra hno
    unfold regionOf at h
    rw [if_neg hno] at h
    split at h
    · cases h
    · split at h
      · dsimp only at h
        split at h <;> cases h
      · split at h
        · cases h
        · split at h
          · cases h
          · split at h <;> cases h
  unfold tierNBase
  omega

section
variable {s : State} {pa n : Nat} (h : SoundAtHome s pa n)
include h

theorem SoundAtHome.isSpadPa : isSpadPa pa = false := by
  rcases h.tier with ht | ht
  · exact isSpadPa_of_tierN ht
  · have := tierF_of_regionOf ht
    unfold tierNBase at this
    unfold Machine.isSpadPa spadBase
    rw [Bool.and_eq_false_iff, decide_eq_false_iff_not]
    omega

/-- Below the scratchpad apertures poison is kept by lines. -/
theorem SoundAtHome.poisonKey_eq {a : Nat} (ha : a / 256 = pa / 256) : poisonKey a = poisonKey pa := by
  have hs := h.isSpadPa
  have hsa : Machine.isSpadPa a = false := by
    unfold Machine.isSpadPa spadBase at hs ⊢
    rw [Bool.and_eq_false_iff, decide_eq_false_iff_not, decide_eq_false_iff_not] at hs ⊢
    omega
  unfold poisonKey
  rw [hs, hsa, if_neg Bool.false_ne_true, if_neg Bool.false_ne_true, ha]

theorem SoundAtHome.poisonAt_of_line {a : Nat} (ha : a / 256 = pa / 256) : poisonAt s a = false := by
  have := h.sound
  unfold poisonAt at this ⊢
  rwa [h.poisonKey_eq ha]

theorem SoundAtHome.paBad_line : paBad s (lineOf pa * 256) = false := by
  rcases h.tier with ht | ht
  · rw [Machine.paBad_line (tierN_of_regionOf ht).1, h.good]
  · have hpa := tierF_of_regionOf ht
    have e : (lineOf pa * 256 - tierNBase) / 256 = (pa - tierNBase) / 256 := by
      unfold lineOf
      omega
    have hg := h.good
    unfold paBad chanOf at hg ⊢
    rwa [e]

theorem SoundAtHome.homeLine : homeLine s (lineOf pa) = (readBytes s (lineOf pa * 256) 256, false) := by
  have hline : lineOf pa * 256 / 256 = pa / 256 := by
    unfold lineOf
    omega
  unfold Machine.homeLine
  rw [h.poisonAt_of_line hline, h.paBad_line]
  rfl

theorem SoundAtHome.partPoisoned {k : Nat} (hk : 1 ≤ k) (hkn : k ≤ n) : partPoisoned s pa k = false := by
  have hfits := h.fits
  unfold Machine.partPoisoned
  rw [h.sound, h.poisonAt_of_line (a := pa + k - 1) (by omega), Bool.and_false, Bool.and_false]
  rfl

/-- What changes neither memory nor its map nor the directory leaves the bytes sound. -/
theorem SoundAtHome.kept {t : State} (k : RecordsKept s t) : SoundAtHome t pa n where
  pos := h.pos
  fits := h.fits
  tier := by rw [k.regionOf]; exact h.tier
  sound := (poisonAt_congr k.poison pa).trans h.sound
  good := by rw [k.paBad, h.good]
  dir := by rw [k.dirGet, h.dir]

end

theorem RecordsKept.readBytes {s t : State} (h : RecordsKept s t) (pa n : Nat) : readBytes t pa n = Machine.readBytes s pa n :=
  List.map_congr_left fun i _ => h.readByte (pa + i)

theorem RecordsKept.sameOutside {s t u : State} (h : RecordsKept s t) {pa n : Nat} (k : SameOutside t u pa n) :
    SameOutside s u pa n := fun a ha => (k a ha).trans (h.readByte a)

/-! ## Stores of bytes -/

theorem sameOutside_storeBytes (s : State) (pa : Nat) (bs : List Byte) (p : Bool) :
    SameOutside s (storeBytes s pa bs p) pa bs.length := fun a ha =>
  (readByte_storeBytes ..).trans (readByte_writeBytes_out s pa a bs ha)

theorem holdsAt_storeBytes (s : State) (pa : Nat) (bs : List Byte) (p : Bool) : HoldsAt (storeBytes s pa bs p) pa bs :=
  fun i hi => (readByte_storeBytes ..).trans (holdsAt_writeBytes s pa bs i hi)

/-! ## Reads, writes and atomics -/

/-- What a write's home does before it stores. -/
def homeReady (s : State) (line : Nat) : State := homeTouch (homeTake s line) line

theorem homeReady_recordsKept {s : State} {line : Nat} (hd : dirGet s line = none) : RecordsKept s (homeReady s line) :=
  (homeTake_recordsKept hd).trans (homeTouch_recordsKept ..)

/-- The bytes that an atomic leaves. -/
def atomicBytes (s : State) (pa : Nat) (op : AtomOp) (size : Nat) (args : List Byte) : List Byte :=
  leBytes size (atomicOp op size (leNat (readBytes s pa size)) args)

section
variable {s : State} {pa n : Nat} {q : Asker} (h : SoundAtHome s pa n)
include h

theorem SoundAtHome.homeRead : homeRead s (lineOf pa) =
    (homeAsked s (lineOf pa), Machine.readBytes s (lineOf pa * 256) 256, false) := by
  have hk := homeAccept_recordsKept h.dir
  have hg : Machine.homeLine (homeAccept s (lineOf pa)) (lineOf pa) = _ := (h.kept hk).homeLine
  unfold Machine.homeRead
  dsimp only
  rw [hk.dirGet, h.dir]
  dsimp only [homeGive]
  rw [hg, hk.readBytes]
  rfl

theorem SoundAtHome.cohRead (hq : cacheOf s q (lineOf pa) = none) :
    cohRead s q pa n .clean .clean = (homeAsked s (lineOf pa), Machine.readBytes s pa n, false) := by
  unfold Machine.cohRead
  dsimp only
  rw [hq]
  dsimp only [homeFound, homeEcc]
  rw [h.homeRead, slice_readBytes_line s h.fits]

theorem SoundAtHome.cohWrite {bs : List Byte} (hn : bs.length = n) (hq : cacheOf s q (lineOf pa) = none) (p : Bool) :
    cohWrite s q pa bs p .clean .clean = (storeBytes (homeReady s (lineOf pa)) pa bs p, none) := by
  have ht := h.kept (homeReady_recordsKept h.dir)
  have hfree : (paBad (homeReady s (lineOf pa)) pa ||
      Machine.partPoisoned (homeReady s (lineOf pa)) pa bs.length) = false := by
    rw [ht.good, ht.partPoisoned (by rw [hn]; exact h.pos) hn.le]
    rfl
  unfold Machine.cohWrite
  dsimp only
  rw [hq]
  dsimp only [homeFound, homeEcc]
  exact if_neg (by rw [← homeReady, hfree]; decide)

theorem SoundAtHome.cohAtomic (hq : cacheOf s q (lineOf pa) = none) (op : AtomOp) (x : AtomArg) :
    ∃ t, cohAtomic s q pa op n x .clean = (t, Machine.readBytes s pa n, false) ∧
      HoldsAt t pa (atomicBytes s pa op n x.bytes) ∧ SameOutside s t pa n := by
  have hk := homeTaken_recordsKept h.dir
  have hg := (h.kept hk).homeLine
  have hpoison (t : State) : ∀ a, readByte (if x.poison then setPoison t pa true else t) a = readByte t a := by
    intro a
    split <;> rfl
  have hlen : (atomicBytes s pa op n x.bytes).length = n := length_leBytes ..
  refine ⟨if x.poison then setPoison (writeBytes (homeTaken s (lineOf pa)) pa (atomicBytes s pa op n x.bytes)) pa true
    else writeBytes (homeTaken s (lineOf pa)) pa (atomicBytes s pa op n x.bytes), ?_, ?_, ?_⟩
  · unfold Machine.cohAtomic
    dsimp only
    rw [hq]
    dsimp only [homeFound, homeEcc, homeAtomic]
    rw [(homeTake_recordsKept h.dir).homeOf, ← homeTaken, hg, if_neg Bool.false_ne_true, hk.readBytes]
    rfl
  · exact fun i hi => (hpoison ..).trans (holdsAt_writeBytes _ pa _ i hi)
  · refine hk.sameOutside fun a ha => (hpoison ..).trans (readByte_writeBytes_out _ pa a _ ?_)
    rwa [hlen]

end

end Sys2Proof.Machine
end

section
/-! Segment tables and fault records (R247 to R250, R253, R585): fills, invalidations, records and replies: the obligation O36. -/

namespace Sys2Proof.Machine

open Sys2Proof

/-! ## Streams -/

theorem getStream_putStream_same (s : State) (x : StreamId) (st : StreamSt) : getStream (putStream s x st) x = st :=
  (mgetD_mput ..).trans (if_pos rfl)

/-! ## Fills -/

/-- The end of a fill, once both lines return, for any reading and storing of the stream. -/
theorem fillEnd_of_reads {s0 s1 s2 : State} {x : StreamId} {c pa0 pa1 n : Nat} {resp : LineResp} {a b : List Byte} {p q : Bool}
    {k : Asker} {st : StreamSt} {chk : List Byte → List Nat} {put : State → StreamId → StreamSt → State} {o : Option Nat}
    {read : State → Asker → Nat → Nat → LineResp → State × Except Nat (List Byte × Bool)} (hr : o = none)
    (h1 : read s0 k pa0 256 resp = (s1, .ok (a, p))) (h2 : read s1 k pa1 256 .ok = (s2, .ok (b, q))) :
    (let fail (s : State) (code : Nat) : State := put s x { st with want := none, dead := some (st.wantVa, code) }
     match (generalizing := false) o with
     | some code => fail s0 code
     | none =>
       let a := read s0 k pa0 256 resp
       let b := read a.1 k pa1 256 .ok
       match a.2, b.2 with
       | .error code, _ => fail b.1 code
       | _, .error code => fail b.1 code
       | .ok (x0, p0), .ok (x1, p1) =>
         if p0 || p1 then fail b.1 stPOISON
         else
           let keep := (st.cache.filter fun e => e.ctx != c).take n
           put b.1 x { st with want := none, cache := ⟨c, x0 ++ x1, chk (x0 ++ x1)⟩ :: keep }) =
    if p || q then put s2 x { st with want := none, dead := some (st.wantVa, stPOISON) }
    else put s2 x { st with want := none, cache := ⟨c, a ++ b, chk (a ++ b)⟩ :: (st.cache.filter fun e => e.ctx != c).take n } := by
  rw [hr, h1]
  dsimp only
  rw [h2]

/-- A fill whose two lines return: poisoned, or with the table's bytes. -/
theorem tableFill_of_reads {s s1 s2 : State} {x : StreamId} {c f : Nat} {resp : LineResp} {a b : List Byte} {p q : Bool} {k : Asker}
    (hw : (getStream s x).want = some c) (hf : ctxFold s c = some f) (hin : segTblInside s c f = true)
    (hk : k = { tile := some (streamTile s x), fold := f })
    (hfree : ∀ o, o = 0 ∨ o = 256 → lineHeld s {} (segTblPa s c + o) = false ∧ targetBusy s (segTblPa s c + o) k = false)
    (hr : respError resp = none) (h1 : unitRead (bump s (pgFOLD f) 0) k (segTblPa s c) 256 resp = (s1, .ok (a, p)))
    (h2 : unitRead s1 k (segTblPa s c + 256) 256 .ok = (s2, .ok (b, q))) : tableFill s x c resp =
      if p || q then putStream s2 x { getStream s x with want := none, dead := some ((getStream s x).wantVa, stPOISON) }
      else putStream s2 x { getStream s x with want := none, cache := ⟨c, a ++ b, segChecks s f (a ++ b)⟩ ::
        ((getStream s x).cache.filter fun e => e.ctx != c).take ((streamKey x).2 - 1) } := by
  subst hk
  have hwait : ([segTblPa s c, segTblPa s c + 256].any fun a =>
      lineHeld s {} a || targetBusy s a { tile := some (streamTile s x), fold := f }) = false := by
    obtain ⟨l0, t0⟩ := hfree 0 (.inl rfl)
    obtain ⟨l1, t1⟩ := hfree 256 (.inr rfl)
    rw [Nat.add_zero] at l0 t0
    simp only [List.any_cons, List.any_nil, l0, t0, l1, t1, Bool.or_self]
  refine Eq.trans ?_ (fillEnd_of_reads (x := x) (c := c) (n := (streamKey x).2 - 1) (st := getStream s x) (chk := segChecks s f)
    (put := putStream) hr h1 h2)
  unfold tableFill
  rw [if_neg (by simp [hw]), hf]
  refine (if_neg (by rw [hin]; decide)).trans ((if_neg (by rw [hwait]; decide)).trans ?_)
  cases respError resp <;> rfl

/-! ## Invalidations -/

theorem dropTables_clear (s : State) (c : Nat) : ∀ e ∈ (dropTables s c).streams,
    e.2.want ≠ some c ∧ ∀ w ∈ e.2.cache, w.ctx ≠ c := by
  intro e he
  obtain ⟨e0, -, rfl⟩ := List.mem_map.1 he
  refine ⟨?_, fun w hw => by simpa using (List.mem_filter.1 hw).2⟩
  dsimp only
  split
  · exact fun h => nomatch h
  · next h => exact fun k => h (by simp [k])

theorem segInvalidate_counts (s : State) (c : Nat) : ∃ t, Counts s t ∧ segInvalidate s c = dropTables t c ∧
    fget t (pgCTX c) F.CTX_SEGINV_STS_ISSUED = (fget s (pgCTX c) F.CTX_SEGINV_STS_ISSUED + 1) % 65536 := by
  have hcount : ∃ u, Counts s u ∧ BlockSame s u ∧
      segInvalidate s c = dropTables (fput u (pgCTX c) F.CTX_SEGINV_STS_ISSUED (fget u (pgCTX c) F.CTX_SEGINV_STS_ISSUED + 1)) c := by
    unfold segInvalidate
    split
    · exact ⟨_, bump_counts .., bump_blockSame .., rfl⟩
    · exact ⟨s, .refl s, .refl s, rfl⟩
  obtain ⟨u, hc, hb, e⟩ := hcount
  refine ⟨_, hc.trans (counts_fput ..), e, (fget_fput_same _ _ _ _ (by decide)).trans ?_⟩
  rw [fget, hb.fgeti _ _ 0 (by decide)]
  rfl

/-! ## Fault records -/

theorem length_faultRecord (i : Nat) (x : SlotSt) : (faultRecord i x).length = 32 := length_leBytes ..

/-- The place of the next record of a fold's fault ring. -/
def recordPa (s : State) (f : Nat) : Nat :=
  fpair s (pgFOLD f) F.FOLD_FQBASE_LO_BASE_LO F.FOLD_FQBASE_HI_BASE_HI 0 +
    fget s (pgFOLD f) F.FOLD_FQTAIL_TAIL % fqSize s f * 32

/-- A record lies in one line. -/
theorem recordPa_fits (s : State) (f : Nat) : recordPa s f % 256 + 32 ≤ 256 := by
  have e : ∃ m, recordPa s f = 32 * m := by
    refine ⟨fget s (pgFOLD f) F.FOLD_FQBASE_LO_BASE_LO + fget s (pgFOLD f) F.FOLD_FQBASE_HI_BASE_HI * 2 ^ 27 +
      fget s (pgFOLD f) F.FOLD_FQTAIL_TAIL % fqSize s f, ?_⟩
    show fget s (pgFOLD f) F.FOLD_FQBASE_LO_BASE_LO * 2 ^ 5 + fget s (pgFOLD f) F.FOLD_FQBASE_HI_BASE_HI * 2 ^ 32 +
      fget s (pgFOLD f) F.FOLD_FQTAIL_TAIL % fqSize s f * 32 = _
    omega
  obtain ⟨m, e⟩ := e
  omega

/-- Where no newer copy of a byte stands anywhere, its poison is its home's. -/
theorem poisonAt_of_curPoison {s : State} {pa n : Nat} (hn : 1 ≤ n) (h : curPoison s pa n = false) (hh : AtHome s pa n) :
    poisonAt s pa = false := by
  have h0 := List.any_eq_false.1 h 0 (List.mem_range.2 hn)
  have hnew := hh 0 hn
  rw [hnew] at h0
  simpa using h0

/-- The slot and FQTAIL tell that a record of the fault ring is written. -/
def recordPut (s : State) (f i tail : Nat) (x : SlotSt) : State :=
  fput (putSlot s f i { x with written := true, held := false }) (pgFOLD f) F.FOLD_FQTAIL_TAIL (tail + 1)

/-- An event tells the fold of it too. -/
def recordTold (s : State) (f i tail : Nat) (x : SlotSt) : State :=
  raiseEvent (bump (recordPut s f i tail x) (pgFOLD f) 1) (pgFOLD f)

theorem recordTold_counts (s : State) (f i tail : Nat) (x : SlotSt) :
    Counts (recordPut s f i tail x) (recordTold s f i tail x) := (bump_counts ..).trans (raiseEvent_counts ..)

theorem recordTold_sameData (s : State) (f i tail : Nat) (x : SlotSt) : SameData s (recordTold s f i tail x) :=
  SameData.trans ⟨rfl, rfl, rfl⟩ (recordTold_counts ..).sameData

theorem fqtail_recordTold (s : State) (f i tail : Nat) (x : SlotSt) :
    fget (recordTold s f i tail x) (pgFOLD f) F.FOLD_FQTAIL_TAIL = (tail + 1) % 65536 := by
  have hb : BlockSame (recordPut s f i tail x) (recordTold s f i tail x) := (bump_blockSame ..).trans (raiseEvent_blockSame ..)
  rw [hb.fget _ (by decide)]
  exact fget_fput_same _ _ _ _ (by decide)

theorem slot_recordTold (s : State) (f i tail : Nat) (x : SlotSt) :
    mget (mgetD (recordTold s f i tail x).folds f {}).slots i = some { x with written := true, held := false } := by
  have e : (recordPut s f i tail x).folds = mput s.folds f { mgetD s.folds f {} with
      slots := mput (mgetD s.folds f {}).slots i { x with written := true, held := false } } := rfl
  rw [(recordTold_counts ..).keeps_folds, e, mgetD_mput, if_pos rfl, mget_mput, if_pos rfl]

section
variable {s : State} {f i : Nat} {x : SlotSt} (hx : mget (mgetD s.folds f {}).slots i = some x) (hw : x.written = false)
  (hroom : (fget s (pgFOLD f) F.FOLD_FQTAIL_TAIL + 65536 - fget s (pgFOLD f) F.FOLD_FQHEAD_HEAD) % 65536 < fqSize s f)
  (hreg : regionOf s (recordPa s f) = .tierN ∨ regionOf s (recordPa s f) = .tierF ∧ tierFDown s (recordPa s f) = false)
  (hplain : inPlainRegions s f (recordPa s f) (recordPa s f + 32) = true) (hcur : curPoison s (recordPa s f) 32 = false)
  (hbad : paBad s (recordPa s f) = false) (hhome : AtHome s (recordPa s f) 32)
  (hdir : dirGet s (lineOf (recordPa s f)) = none) (hheld : lineHeld s {} (recordPa s f) = false)
  (hbusy : targetBusy s (recordPa s f) = false)

include hreg hcur hbad hhome hdir

theorem soundAtHome_recordPa : SoundAtHome s (recordPa s f) 32 where
  pos := by decide
  fits := recordPa_fits s f
  tier := hreg.imp_right And.left
  sound := poisonAt_of_curPoison (by decide) hcur hhome
  good := hbad
  dir := hdir

include hx hw hroom hplain hheld hbusy

theorem recordWrite_of_room : recordWrite s f i false =
    recordTold (storeBytes (homeReady s (lineOf (recordPa s f))) (recordPa s f) (faultRecord i x) false) f i
      (fget s (pgFOLD f) F.FOLD_FQTAIL_TAIL) x := by
  have hstore := (soundAtHome_recordPa hreg hcur hbad hhome hdir).cohWrite (q := { fold := f }) (length_faultRecord i x) rfl false
  have htier : (regionOf s (recordPa s f) == .tierN || regionOf s (recordPa s f) == .tierF) = true := by
    obtain h | ⟨h, -⟩ := hreg <;> rw [h] <;> rfl
  have hdown : (regionOf s (recordPa s f) == .tierF && tierFDown s (recordPa s f)) = false := by
    obtain h | ⟨-, h⟩ := hreg <;> rw [h]
    · rfl
    · exact Bool.and_false _
  unfold recordWrite
  rw [hx]
  dsimp only
  rw [← recordPa, hw, if_neg Bool.false_ne_true, if_neg (Nat.not_le.2 hroom), hheld, hbusy, if_neg (by decide), htier, hplain,
    hcur, hbad, hdown, if_neg (by decide), hstore]
  rfl

/-- A record that finds its place goes there, and changes nothing else. -/
theorem recordWrite_records : HoldsAt (recordWrite s f i false) (recordPa s f) (faultRecord i x) ∧
    SameOutside s (recordWrite s f i false) (recordPa s f) 32 := by
  rw [recordWrite_of_room hx hw hroom hreg hplain hcur hbad hhome hdir hheld hbusy]
  have hread := (recordTold_sameData (storeBytes (homeReady s (lineOf (recordPa s f))) (recordPa s f) (faultRecord i x) false) f i
    (fget s (pgFOLD f) F.FOLD_FQTAIL_TAIL) x).readByte
  refine ⟨fun j hj => (hread _).trans (holdsAt_storeBytes _ _ _ _ j hj), fun a ha => (hread a).trans ?_⟩
  refine (homeReady_recordsKept hdir).sameOutside (sameOutside_storeBytes _ _ _ _) a ?_
  rwa [length_faultRecord]

end

/-! ## The ring's base -/

/-- A fold's new base, before its held records are tried again. -/
def fqBased (s : State) (f : Nat) (hi : Bool) (v : Nat) : State :=
  if hi then fput (fput s (pgFOLD f) F.FOLD_FQBASE_HI_BASE_HI (bits v 15 0)) (pgFOLD f) F.FOLD_FQBASE_HI_LOG2 (bits v 19 16)
  else fput s (pgFOLD f) F.FOLD_FQBASE_LO_BASE_LO (bits v 31 5)

theorem fqBaseWrite_of_noneHeld {s : State} {f : Nat} (h : ∀ e ∈ (mgetD s.folds f {}).slots, e.2.held = false) (hi : Bool)
    (v : Nat) : fqBaseWrite s f hi v = fqBased s f hi v := by
  have hfolds : (fqBased s f hi v).folds = s.folds := by
    cases hi <;> rfl
  unfold fqBaseWrite
  dsimp only
  rw [← fqBased, hfolds, List.filter_eq_nil_iff.2 fun e he => by rw [h e he]; decide]
  rfl

theorem baseLo_fqBased (s : State) (f : Nat) (v : BitVec 32) :
    fget (fqBased s f false v.toNat) (pgFOLD f) F.FOLD_FQBASE_LO_BASE_LO = v.toNat / 32 := by
  refine (fget_fput_same _ _ _ _ (by decide)).trans ?_
  show v.toNat / 32 % 2 ^ 27 % 2 ^ 27 = _
  omega

theorem baseHi_fqBased (s : State) (f : Nat) (v : BitVec 32) :
    fget (fqBased s f true v.toNat) (pgFOLD f) F.FOLD_FQBASE_HI_BASE_HI = v.toNat % 65536 ∧
      fget (fqBased s f true v.toNat) (pgFOLD f) F.FOLD_FQBASE_HI_LOG2 = v.toNat / 65536 % 16 := by
  refine ⟨(fget_fput_ne _ _ _ (by decide)).trans ((fget_fput_same _ _ _ _ (by decide)).trans ?_),
    (fget_fput_same _ _ _ _ (by decide)).trans ?_⟩
  · show v.toNat / 1 % 2 ^ 16 % 2 ^ 16 = _
    omega
  · show v.toNat / 2 ^ 16 % 2 ^ 4 % 2 ^ 4 = _
    omega

/-! ## Replies -/

/-- A field of another word of its page is not in the way of a write. -/
theorem fget_fput_word (s : State) {page page' : Nat} {g g' : Field} (v : Nat)
    (h : g.off < 4096 ∧ g'.off < 4096 ∧ g.lo < 32 ∧ g'.lo < 32 ∧ g.off / 4 ≠ g'.off / 4) :
    fget (fput s page g v) page' g' = fget s page' g' := by
  obtain ⟨hg, hg', hl, hl', hne⟩ := h
  by_cases hp : page = page'
  · subst hp
    exact fget_fput_ne s page v ⟨hl, hl', .inl hne⟩
  · exact (fput_pageSame s v hp ⟨hg, hl⟩).fget ⟨hg', hl'⟩

theorem segErr_counts (s : State) (c seg cause : Nat) : Counts s (segErr s c seg cause) :=
  counts_ite (.refl s) (setLogged_counts ..)

theorem fget_segErr (s : State) (c seg cause : Nat) (page : Nat) {g : Field} (h : 256 ≤ g.off ∧ g.off < 4096 ∧ g.lo < 32 ∧
    g.off / 4 ≠ 0x187) : fget (segErr s c seg cause) page g = fget s page g := by
  obtain ⟨h1, h2, h3, h4⟩ := h
  unfold segErr
  split
  · rfl
  · have hword {g0 : Field} (h0 : g0.off < 4096 ∧ g0.lo < 32 ∧ g0.off / 4 = 0x187) (u : State) (v : Nat) :
        fget (fput u (pgCTX c) g0 v) page g = fget u page g :=
      fget_fput_word u v ⟨h0.1, h2, h0.2.1, h3, by rw [h0.2.2]; exact h4.symm⟩
    rw [setLogged, (setErr_blockSame ..).fget _ (by omega), hword (by decide), hword (by decide), hword (by decide)]

theorem ctxFold_segErr (s : State) (c seg cause c' : Nat) : ctxFold (segErr s c seg cause) c' = ctxFold s c' := by
  unfold ctxFold fbit
  rw [fget_segErr s c seg cause _ (by decide), fget_segErr s c seg cause _ (by decide)]

theorem ctxFold_bump (s : State) (page n c : Nat) : ctxFold (bump s page n) c = ctxFold s c := by
  unfold ctxFold fbit
  rw [(bump_blockSame ..).fget _ (by decide), (bump_blockSame ..).fget _ (by decide)]

theorem onSlot_congr {s t : State} (h : ∀ c, ctxFold t c = ctxFold s c) (f : Nat) (i : Option Nat) (x : StreamSt) :
    onSlot t f i x = onSlot s f i x := by
  unfold onSlot
  cases x.stall with
  | none => rfl
  | some y => exact congrArg (fun z => !y.hold && y.slot == i && z == some f) (h y.ctx)

/-- What a reply leaves of an entry of the streams: one that waits on the slot fetches its table again, or ends; one that
waits for a slot tries again. -/
def slotAnswered (s : State) (f i : Nat) (x : SlotSt) (decline : Bool) (e : Nat × StreamSt) : Nat × StreamSt :=
  if onSlot s f (some i) e.2 then
    let va := (e.2.stall.map (·.va)).getD 0
    if decline then (e.1, { e.2 with stall := none, dead := some (va, stSEG) })
    else (e.1, { e.2 with stall := none, want := some x.ctx, wantVa := va, cache := e.2.cache.filter fun t => t.ctx != x.ctx })
  else if onSlot s f none e.2 then (e.1, { e.2 with stall := none })
  else e

/-- The slot is free, and its streams have their answer. -/
def replied (s : State) (f i : Nat) (x : SlotSt) (decline : Bool) : State :=
  { s with
    streams := s.streams.map (slotAnswered s f i x decline)
    folds := mput s.folds f { mgetD s.folds f {} with slots := mdel (mgetD s.folds f {}).slots i } }

section
variable {s : State} {f i : Nat} {x : SlotSt}

theorem faultReply_of_seq_ne (hx : mget (mgetD s.folds f {}).slots i = some x) {q : Nat} (hq : x.seq ≠ q) (decline : Bool) :
    faultReply s f i q decline = bump s (pgFOLD f) 4 := by
  unfold faultReply
  dsimp only
  rw [hx]
  exact if_pos (by simpa using hq)

/-- A reply with the slot's sequence number: reports apart, the slot is free and its streams are answered. -/
theorem faultReply_of_seq (hx : mget (mgetD s.folds f {}).slots i = some x) (decline : Bool) :
    ∃ t, Counts s t ∧ (∀ c, ctxFold t c = ctxFold s c) ∧ faultReply s f i x.seq decline = replied t f i x decline := by
  have hlogged : ∃ t, Counts s t ∧ (∀ c, ctxFold t c = ctxFold s c) ∧
      t = if decline then segErr (bump s (pgFOLD f) 3) x.ctx x.seg 4 else s := by
    refine ⟨_, ?_, fun c => ?_, rfl⟩
    · exact counts_ite ((bump_counts ..).trans (segErr_counts ..)) (.refl s)
    · split
      · rw [ctxFold_segErr, ctxFold_bump]
      · rfl
  obtain ⟨t, hc, hf, ht⟩ := hlogged
  refine ⟨t, hc, hf, ?_⟩
  unfold faultReply
  dsimp only
  rw [hx]
  refine (if_neg (by simp)).trans ?_
  rw [← ht]
  unfold replied
  rw [hc.keeps_folds]
  rfl

theorem slot_replied (decline : Bool) : mget (mgetD (replied s f i x decline).folds f {}).slots i = none := by
  show mget (FoldSt.slots (mgetD (mput _ f _) f {})) i = none
  rw [mgetD_mput, if_pos rfl, mget_mdel, if_pos rfl]

theorem slotAnswered_replay {e : Nat × StreamSt} (h : onSlot s f (some i) e.2 = true) :
    (slotAnswered s f i x false e).1 = e.1 ∧ (slotAnswered s f i x false e).2.stall = none ∧
      (slotAnswered s f i x false e).2.want = some x.ctx ∧ (slotAnswered s f i x false e).2.dead = e.2.dead := by
  unfold slotAnswered
  rw [if_pos h, if_neg Bool.false_ne_true]
  exact ⟨rfl, rfl, rfl, rfl⟩

theorem slotAnswered_decline {e : Nat × StreamSt} (h : onSlot s f (some i) e.2 = true) :
    (slotAnswered s f i x true e).1 = e.1 ∧ (slotAnswered s f i x true e).2.stall = none ∧
      (slotAnswered s f i x true e).2.dead = e.2.stall.map fun y => (y.va, stSEG) := by
  unfold slotAnswered
  rw [if_pos h, if_pos rfl]
  refine ⟨rfl, rfl, ?_⟩
  unfold onSlot at h
  cases hs : e.2.stall with
  | none => rw [hs] at h; exact nomatch h
  | some y => rfl

end

/-! ## The commands -/

theorem exec_segmentInvalidate {s : State} {src : Src} (h : Rules s src) {c : Nat} (hc : c < 512) :
    exec (.segmentInvalidate src c) s = .next (segInvalidate s c) :=
  congrArg Host.Outcome.next ((if_pos hc).trans (withPage_of_rules h _ _))

theorem exec_faultRecordWrite {s : State} {f i : Nat} {x : SlotSt} (hf : f < 16)
    (hx : mget (mgetD s.folds f {}).slots i = some x) (hh : x.held = false) :
    exec (.faultRecordWrite f i false) s = .next (recordWrite s f i false) := by
  show Host.Outcome.next _ = _
  rw [hx]
  exact congrArg Host.Outcome.next (if_neg (by rw [hh]; simpa using hf))

section
variable {s : State} {src : Src} (h : Rules s src) {f : Nat} (hf : f < 16)
include h hf

theorem exec_fqbaseWrite (hi : Bool) (v : BitVec 32) :
    exec (.fqbaseWrite src f hi v) s = .next (fqBaseWrite s f hi v.toNat) :=
  congrArg Host.Outcome.next ((if_pos hf).trans (withPage_of_rules h _ _))

theorem exec_faultReplyReplay (i : Nat) (q : BitVec 8) :
    exec (.faultReplyReplay src f i q) s = .next (faultReply s f i q.toNat false) :=
  congrArg Host.Outcome.next ((if_pos hf).trans (withPage_of_rules h _ _))

theorem exec_faultReplyDecline (i : Nat) (q : BitVec 8) :
    exec (.faultReplyDecline src f i q) s = .next (faultReply s f i q.toNat true) :=
  congrArg Host.Outcome.next ((if_pos hf).trans (withPage_of_rules h _ _))

end

/-- Settles O36: a fill caches its table or ends the access, an invalidation drops it and its end waits for the accesses
under it, a record goes to the ring, a new base, and replies with the slot's sequence number and with another. -/
theorem segmentTablesAndFaultRecords : Obligations.SegmentTablesAndFaultRecords := by
  unfold Obligations.SegmentTablesAndFaultRecords
  refine ⟨⟨?fill, ?invalidate, ?waits, ?ends⟩, ?record, ?base, ?reply⟩
  case fill =>
    intro x c f resp a p b q k s s1 s2 hw hf hin hk hfree hr h1 h2
    refine ⟨_, rfl, ?_⟩
    rw [tableFill_of_reads hw hf hin hk hfree hr h1 h2]
    cases hpq : p || q with
    | true =>
      rw [if_pos rfl]
      refine ⟨rfl, by rw [getStream_putStream_same], fun hp hq => ?_, fun _ => by rw [getStream_putStream_same]; exact ⟨rfl, rfl⟩⟩
      rw [hp, hq] at hpq
      exact nomatch hpq
    | false =>
      rw [if_neg Bool.false_ne_true]
      exact ⟨rfl, by rw [getStream_putStream_same], fun _ _ => by rw [getStream_putStream_same]; exact ⟨rfl, rfl⟩, nofun⟩
  case invalidate =>
    intro src c s hc h
    obtain ⟨t, hcounts, e, hissued⟩ := segInvalidate_counts s c
    refine ⟨_, (exec_segmentInvalidate h hc).trans (congrArg _ e), hcounts.keeps_mem, hissued, dropTables_clear t c⟩
  case waits =>
    exact fun c s ho => congrArg Host.Outcome.next (if_neg (by simp [ho]))
  case ends =>
    intro c s hc hd ho
    refine ⟨_, congrArg Host.Outcome.next (if_pos (by simp [hc, hd, ho])), rfl, rfl, fget_fput_same _ _ _ _ (by decide)⟩
  case record =>
    rintro f i x pa s hf hx hh hw hroom rfl hreg hplain hcur hbad hhome hdir hheld hbusy
    have e := recordWrite_of_room hx hw hroom hreg hplain hcur hbad hhome hdir hheld hbusy
    obtain ⟨hholds, hout⟩ := recordWrite_records hx hw hroom hreg hplain hcur hbad hhome hdir hheld hbusy
    refine ⟨_, exec_faultRecordWrite hf hx hh, hholds, hout, ?_, ?_⟩
    · rw [e, fqtail_recordTold]
    · rw [e, slot_recordTold]
  case base =>
    intro src f v s hf h hnone
    obtain ⟨hhi, hlog⟩ := baseHi_fqBased s f v
    exact ⟨⟨_, (exec_fqbaseWrite h hf false v).trans (congrArg _ (fqBaseWrite_of_noneHeld hnone ..)), baseLo_fqBased s f v, rfl⟩,
      ⟨_, (exec_fqbaseWrite h hf true v).trans (congrArg _ (fqBaseWrite_of_noneHeld hnone ..)), hhi, hlog, rfl⟩⟩
  case reply =>
    intro src f i x q s hf h hx
    refine ⟨fun hq => ⟨?replay, ?decline⟩, fun hq => ⟨?_, ?_⟩⟩
    case replay =>
      obtain ⟨t, hc, hctx, e⟩ := faultReply_of_seq hx false
      rw [hq] at e
      refine ⟨_, (exec_faultReplyReplay h hf i q).trans (congrArg _ e), hc.keeps_mem, slot_replied .., fun a ha hon => ?_⟩
      rw [← onSlot_congr hctx] at hon
      exact ⟨_, List.mem_map_of_mem (hc.keeps_streams ▸ ha), slotAnswered_replay hon⟩
    case decline =>
      obtain ⟨t, hc, hctx, e⟩ := faultReply_of_seq hx true
      rw [hq] at e
      refine ⟨_, (exec_faultReplyDecline h hf i q).trans (congrArg _ e), hc.keeps_mem, slot_replied .., fun a ha hon => ?_⟩
      rw [← onSlot_congr hctx] at hon
      exact ⟨_, List.mem_map_of_mem (hc.keeps_streams ▸ ha), slotAnswered_decline hon⟩
    · rw [exec_faultReplyReplay h hf, faultReply_of_seq_ne hx hq]
    · rw [exec_faultReplyDecline h hf, faultReply_of_seq_ne hx hq]

end Sys2Proof.Machine
end

section
/-! Requests of other packages (R255, R256, R369, R370): what performing one reads, writes and updates, its answer, the table of
atomics, the responses and the requests sent again: the obligation O47. -/

namespace Sys2Proof.Machine

open Sys2Proof

/-! ## Accesses of a bus to one line at its home -/

section
variable {s : State} {pa n : Nat} (h : SoundAtHome s pa n)
include h

theorem SoundAtHome.pieces : linePieces pa n = [(pa, n)] := linePieces_line h.pos h.fits

theorem SoundAtHome.busRead : busRead s pa n false = (homeAsked s (lineOf pa), Machine.readBytes s pa n, false) := by
  have hline : busReadLine s pa n false {} .clean = Machine.cohRead s {} pa n .clean .clean := by
    unfold busReadLine
    obtain ht | ht := h.tier <;> rw [ht]
  unfold Machine.busRead
  rw [h.pieces, List.foldl_cons, List.foldl_nil, hline, h.cohRead rfl]
  rfl

theorem SoundAtHome.busWrite {bs : List Byte} (hn : bs.length = n) (p : Bool) :
    busWrite s pa bs p false = (storeBytes (homeReady s (lineOf pa)) pa bs p, false) := by
  have hline : busWriteLine s pa bs p false {} .clean = (storeBytes (homeReady s (lineOf pa)) pa bs p, false) := by
    unfold busWriteLine
    obtain ht | ht := h.tier <;> rw [ht] <;> dsimp only <;> rw [h.cohWrite hn rfl] <;> rfl
  have hall : slice bs (pa - pa) n = bs := by
    rw [Nat.sub_self]
    subst hn
    exact slice_append [] bs
  unfold Machine.busWrite
  rw [hn, h.pieces, List.foldl_cons, List.foldl_nil]
  dsimp only
  rw [hall, hline]
  rfl

theorem SoundAtHome.busAtomic (op : AtomOp) (x : AtomArg) : busAtomic s pa op n x = Machine.cohAtomic s {} pa op n x .clean := by
  unfold Machine.busAtomic
  obtain ht | ht := h.tier <;> rw [ht]

end

section
variable {s : State} {pa n : Nat} (h : BusOpen s pa n)
include h

theorem BusOpen.soundAtHome : SoundAtHome s pa n := by
  obtain ⟨hn, hline, htier, hbad, hcur, hhome, hdir, -⟩ := h
  exact ⟨hn, by omega, htier.imp_right And.left, poisonAt_of_curPoison hn hcur hhome, hbad, hdir⟩

theorem BusOpen.answers : busDown s pa n = false := by
  have hp := h.soundAtHome.pieces
  obtain ⟨-, -, htier, -⟩ := h
  unfold busDown
  rw [hp]
  obtain ht | ⟨-, hdown⟩ := htier
  · rw [ht]
    rfl
  · rw [List.any_cons, List.any_nil, hdown]
    exact Bool.and_false _

theorem BusOpen.free : busWaits s pa n = false := by
  obtain ⟨-, -, -, -, -, -, -, hfree⟩ := h
  exact hfree

end

/-! ## Requests performed -/

section
variable {s : State} {r : RemoteReq} {pa f n : Nat} (hi : importCheck s r = some (pa, f)) (hp : busPlain s pa n = true)
  (ho : BusOpen s pa n)

theorem BusOpen.counted {s : State} {pa n : Nat} (ho : BusOpen s pa n) : SoundAtHome (bump s pgWIN 0) pa n :=
  ho.soundAtHome.kept (bump_recordsKept ..)

include hi hp ho

theorem remoteServe_read (ha : r.atom = none) (hw : r.write = none) (hn : r.len = n) :
    remoteServe s r = (homeAsked (bump s pgWIN 0) (lineOf pa), .data (readBytes s pa n) false) := by
  unfold remoteServe
  rw [hi, ha, hw]
  dsimp only
  rw [hn, hp, if_neg (by decide), ho.answers, if_neg Bool.false_ne_true, ho.free, if_neg Bool.false_ne_true, ho.counted.busRead,
    (bump_recordsKept ..).readBytes]

theorem remoteServe_write {bs : List Byte} (ha : r.atom = none) (hw : r.write = some bs) (hv : r.view = 0) (hn : bs.length = n) :
    remoteServe s r = (storeBytes (homeReady (bump s pgWIN 0) (lineOf pa)) pa bs r.poison, .wack) := by
  unfold remoteServe
  rw [hi, ha, hw]
  dsimp only
  rw [hn, hp, if_neg (by decide), ho.answers, if_neg Bool.false_ne_true, ho.free, if_neg Bool.false_ne_true]
  obtain ht | ht := ho.counted.tier <;> rw [ht] <;> dsimp only <;> rw [hv, if_pos rfl, ho.counted.busWrite hn]

theorem remoteServe_atomic {op : AtomOp} {args : List Byte} (ha : r.atom = some (op, n, args)) (hok : atomOk pa op n = true) :
    ∃ t, remoteServe s r = (t, .aack (readBytes s pa n) false) ∧ HoldsAt t pa (atomicBytes s pa op n args) ∧
      SameOutside s t pa n := by
  have hk : RecordsKept s (bump s pgWIN 0) := bump_recordsKept ..
  obtain ⟨t, e, hholds, hout⟩ := ho.counted.cohAtomic (q := {}) rfl op { bytes := args, poison := r.poison }
  refine ⟨t, ?_, ?_, hk.sameOutside hout⟩
  · unfold remoteServe
    rw [hi, ha]
    dsimp only
    rw [hp, if_neg (by decide), ho.answers, if_neg Bool.false_ne_true, ho.free, if_neg Bool.false_ne_true, if_pos hok,
      ho.counted.busAtomic, e, hk.readBytes]
  · unfold atomicBytes at hholds ⊢
    rwa [hk.readBytes] at hholds

end

theorem exec_remoteRequestArrive {s t : State} {r : RemoteReq} {a : RemoteAns} (h : remoteServe s r = (t, a)) (ha : a ≠ .wait) :
    exec (.remoteRequestArrive r) s = .next { t with resp := ansResp a } := by
  show Host.Outcome.next _ = _
  rw [h]
  cases a with
  | wait => exact absurd rfl ha
  | _ => rfl

/-! ## What a request leaves alone -/

theorem ReadAt.accessOnly {s t : State} (h : ReadAt s t) : AccessOnly s t := by
  unfold ReadAt at h
  unfold AccessOnly
  rw [h]

theorem AccessOnly.keeps_fab {s t : State} (h : AccessOnly s t) : t.fab = s.fab := by
  unfold AccessOnly at h
  rw [h]

section
variable (s : State) (q : Asker) (pa : Nat) (h : HomeEcc)

theorem busReadLine_accessOnly (n : Nat) (keep : Bool) : AccessOnly s (busReadLine s pa n keep q h).1 := by
  unfold busReadLine
  split
  · exact (portRead_readAt ..).accessOnly
  · exact .ite_fst (cohRead_accessOnly ..) (bump_counts ..).accessOnly
  · exact cohRead_accessOnly ..
  · exact cohRead_accessOnly ..
  · exact .refl s

theorem busRead_accessOnly (n : Nat) (keep : Bool) : AccessOnly s (busRead s pa n keep q h).1 := by
  refine foldl_accessOnly_fst (fun _ _ => ?_) _ (s, [], false)
  exact busReadLine_accessOnly ..

theorem busWriteLine_accessOnly (bs : List Byte) (p keep : Bool) : AccessOnly s (busWriteLine s pa bs p keep q h).1 := by
  unfold busWriteLine
  dsimp only
  split
  · exact portWrite_accessOnly ..
  · exact .ite_fst (cohWrite_accessOnly ..) (bump_counts ..).accessOnly
  · exact cohWrite_accessOnly ..
  · exact cohWrite_accessOnly ..
  · exact .refl s

theorem busWrite_accessOnly (bs : List Byte) (p keep : Bool) : AccessOnly s (busWrite s pa bs p keep q h).1 := by
  refine foldl_accessOnly_fst (fun _ _ => ?_) _ (s, false)
  exact busWriteLine_accessOnly ..

theorem homeAtomic_accessOnly (op : AtomOp) (size : Nat) (x : AtomArg) : AccessOnly s (homeAtomic s pa op size x).1 := by
  have hw (t : State) (bs : List Byte) : AccessOnly t (writeBytes t pa bs) := by
    rw [writeBytes_eq_setMem]
    rfl
  have hb (n : Nat) : AccessOnly s (bump (homeTouch s (lineOf pa)) (pgCOH (homeOf s (lineOf pa))) n) :=
    (homeTouch_accessOnly ..).trans (bump_counts ..).accessOnly
  exact .ite_fst (hb 7) (.ite ((hb 7).trans ((hw ..).trans (setPoison_accessOnly ..))) ((hb 7).trans (hw ..)))

theorem copyAtomic_accessOnly (agent : Nat) (c : Copy) (op : AtomOp) (size : Nat) (args : List Byte) :
    AccessOnly s (copyAtomic s agent c pa op size args).1 := by
  unfold copyAtomic
  dsimp only
  split
  · exact .refl s
  · dsimp only
    exact putCopy_accessOnly ..

theorem cohAtomic_accessOnly (op : AtomOp) (size : Nat) (x : AtomArg) : AccessOnly s (cohAtomic s q pa op size x h).1 := by
  unfold cohAtomic
  dsimp only
  split
  · refine .ite_fst ?_ ?_
    · exact (agentHold_accessOnly ..).trans (copyAtomic_accessOnly ..)
    · exact (agentYield_accessOnly ..).trans ((homeFound_accessOnly ..).trans
        ((homeTake_accessOnly ..).trans (homeAtomic_accessOnly ..)))
  · exact (homeFound_accessOnly ..).trans ((homeTake_accessOnly ..).trans (homeAtomic_accessOnly ..))

theorem busAtomic_accessOnly (op : AtomOp) (size : Nat) (x : AtomArg) : AccessOnly s (busAtomic s pa op size x q h).1 := by
  unfold busAtomic
  split
  · exact .ite_fst (cohAtomic_accessOnly ..) (bump_counts ..).accessOnly
  · exact cohAtomic_accessOnly ..

end

theorem remoteServe_accessOnly (s : State) (r : RemoteReq) : AccessOnly s (remoteServe s r).1 := by
  have hb : AccessOnly s (bump s pgWIN 0) := (bump_counts ..).accessOnly
  unfold remoteServe
  split
  · exact (bump_counts ..).accessOnly
  · refine .ite_fst (.refl s) (.ite_fst (.refl s) (.ite_fst (.refl s) ?_))
    dsimp only
    split
    · exact .ite_fst (hb.trans (busAtomic_accessOnly ..)) hb
    · split
      · exact hb.trans (busWrite_accessOnly ..)
      · exact hb.trans (busWrite_accessOnly ..)
    · exact hb.trans (busRead_accessOnly ..)

/-! ## Flits taken and sent -/

/-- `t` differs from `s` in what the ports keep and in reports at most, free values drawn apart. -/
def PortsOnly (s t : State) : Prop := t = { s with
  regs := t.regs, cnt := t.cnt, out := t.out, fltLog := t.fltLog, free := t.free, fab := { s.fab with ports := t.fab.ports } }

theorem PortsOnly.refl (s : State) : PortsOnly s s := rfl

theorem PortsOnly.trans {s t u : State} (h : PortsOnly s t) (k : PortsOnly t u) : PortsOnly s u := by
  unfold PortsOnly at h k ⊢
  rw [k, h]

theorem Counts.portsOnly {s t : State} (h : Counts s t) : PortsOnly s t := by
  unfold Counts at h
  unfold PortsOnly
  rw [h]

theorem PortsOnly.ite {s t u : State} {c : Prop} [Decidable c] (h : PortsOnly s t) (k : PortsOnly s u) :
    PortsOnly s (if c then t else u) := by
  split
  · exact h
  · exact k

section
variable {s t : State} (h : PortsOnly s t)
include h

theorem PortsOnly.keeps_mem : t.mem = s.mem := by
  unfold PortsOnly at h
  rw [h]

theorem PortsOnly.keeps_inbox : t.fab.inbox = s.fab.inbox := by
  unfold PortsOnly at h
  rw [h]

theorem PortsOnly.keeps_atoms : t.fab.atoms = s.fab.atoms := by
  unfold PortsOnly at h
  rw [h]

theorem PortsOnly.keeps_reqs : t.fab.reqs = s.fab.reqs := by
  unfold PortsOnly at h
  rw [h]

end

theorem putPort_portsOnly (s : State) (p : Nat) (x : PortSt) : PortsOnly s (putPort s p x) := rfl

theorem routeFlit_portsOnly (s : State) (f : Flit) (inPort : Option Nat) : PortsOnly s (routeFlit s f inPort) := by
  unfold routeFlit
  split
  · exact (bump_counts ..).portsOnly
  · next pair g det _ =>
    have hd : PortsOnly s (if det then bump s pgFAB 2 else s) := .ite (bump_counts ..).portsOnly (.refl s)
    dsimp only
    split
    · exact hd.trans (bump_counts ..).portsOnly
    · split
      · exact hd.trans (putPort_portsOnly ..)
      · exact hd.trans (putPort_portsOnly ..)

theorem sendFlit_portsOnly (s : State) (f : Flit) (spread : Bool) : PortsOnly s (sendFlit s f spread) := by
  have hdraw : PortsOnly s (drawVia s f.dstPkg).2 := rfl
  exact PortsOnly.trans (.ite (hdraw.trans (bump_counts ..).portsOnly) (.refl s)) (routeFlit_portsOnly ..)

theorem takeFlit_mem (s : State) (p : Nat) (f : Flit) : (takeFlit s p f).mem = s.mem := rfl

theorem takeFlit_inbox (s : State) (p : Nat) (f : Flit) : (takeFlit s p f).fab.inbox = s.fab.inbox.erase (p, f) := rfl

/-! ## Request flits -/

/-- The answer of an ATOM is kept (R370). -/
def atomKept (s : State) (f g : Flit) : State :=
  putFab s fun b => { b with atoms := mput b.atoms (atomKey f.srcPkg f.tid) g }

section
variable {s : State} {f : Flit} {op p : Nat} (hp : inboxPort s f ftREQ op = some p)
  (hh : s.fab.held.any (fun e => e.2.1 == f) = false)
include hp hh

theorem serveFlit_answered {s1 : State} {a : RemoteAns} (hop : op = 4 → mget s.fab.atoms (atomKey f.srcPkg f.tid) = none ∧
    s.fab.atoms.length < 4096) (hs : remoteServe s (flitReq f) = (s1, a)) (ha : a ≠ .wait) : serveFlit s f op =
    sendFlit (takeFlit (if op = 4 then atomKept s1 f (respFlit s1 f a) else s1) p f) (respFlit s1 f a) false := by
  have hnone : (if op = 4 then mget s.fab.atoms (atomKey f.srcPkg f.tid) else none) = none := by
    split
    · next h => exact (hop h).1
    · rfl
  have hroom : (op = 4 && decide (4096 ≤ s.fab.atoms.length)) = false := by
    rw [Bool.and_eq_false_imp, decide_eq_true_iff]
    exact fun h => decide_eq_false (Nat.not_le.2 (hop h).2)
  unfold serveFlit
  rw [hp, hh]
  dsimp only [Option.orElse]
  rw [hnone]
  dsimp only
  rw [if_neg (by rw [hroom]; decide), hs]
  cases a with
  | wait => exact absurd rfl ha
  | _ => rfl

theorem serveFlit_repeated {g : Flit} (hop : op = 4) (hg : mget s.fab.atoms (atomKey f.srcPkg f.tid) = some g) :
    serveFlit s f op = sendFlit (bump (takeFlit s p f) pgFAB 1) g false := by
  unfold serveFlit
  rw [hp, hh]
  dsimp only [Option.orElse]
  rw [if_pos hop, hg]
  rfl

end

/-! ## Response flits -/

/-- The request that a response meets has ended. -/
def reqEnded (s : State) (p : Nat) (f : Flit) : State :=
  putFab (takeFlit s p f) fun b => { b with reqs := mdel b.reqs f.tid }

theorem response_of_req {s : State} {f : Flit} {op p : Nat} {o : Outst} (hp : inboxPort s f ftRSP op = some p)
    (ho : mget s.fab.reqs f.tid = some o) (go : State → Outst → State) : response s f op go = go (reqEnded s p f) o := by
  unfold response
  rw [hp]
  dsimp only
  rw [show mget (takeFlit s p f).fab.reqs f.tid = some o from ho]
  rfl

theorem reqEnded_ends (s : State) (p : Nat) (f : Flit) : mget (reqEnded s p f).fab.reqs f.tid = none ∧
    (reqEnded s p f).fab.inbox = s.fab.inbox.erase (p, f) ∧ (reqEnded s p f).mem = s.mem :=
  ⟨(mget_mdel ..).trans (if_pos rfl), takeFlit_inbox s p f, takeFlit_mem s p f⟩

/-- The counters of a core's host-access error. -/
def hostCounted (s : State) (h synd : Nat) (async : Bool) : State :=
  let s := bump s (pgHOSTD h) (if async then 1 else 0)
  if synd = 3 then bump s (pgHOSTD h) 2 else if synd = 4 then bump s (pgHOSTD h) 3 else s

/-- The log of a core's first host-access error. -/
def hostLogged (s : State) (h n synd : Nat) (async : Bool) (pa : Nat) : State :=
  if fbit s (pgHOSTD h) F.HOSTD_ERRLOG_VALID then s
  else
    let s := fput (fput (fput s (pgHOSTD h) F.HOSTD_ERRLOG_VALID 1) (pgHOSTD h) F.HOSTD_ERRLOG_SYND synd) (pgHOSTD h)
      F.HOSTD_ERRLOG_CORE n
    let s := fput (fputb s (pgHOSTD h) F.HOSTD_ERRLOG_ASYNC async) (pgHOSTD h) F.HOSTD_ERRADDR_LO_ADDR_LO (pa % 2 ^ 32)
    setLogged (fput s (pgHOSTD h) F.HOSTD_ERRADDR_HI_ADDR_HI (pa / 2 ^ 32)) (pgHOSTD h)

theorem hostErr_core (s : State) (h n synd : Nat) (m : Priv) (async : Bool) (pa : Nat) : hostErr s (.core h n m) synd async pa =
    hostLogged { hostCounted s h synd async with resp := { code := synd } } h n synd async pa := rfl

theorem hostCounted_counts (s : State) (h synd : Nat) (async : Bool) : Counts s (hostCounted s h synd async) := by
  have hb := bump_counts s (pgHOSTD h) (if async then 1 else 0)
  exact counts_ite (hb.trans (bump_counts ..)) (counts_ite (hb.trans (bump_counts ..)) hb)

theorem hostLogged_counts (s : State) (h n synd : Nat) (async : Bool) (pa : Nat) :
    Counts s (hostLogged s h n synd async pa) := by
  refine counts_ite (.refl s) (Counts.trans ?_ (setLogged_counts ..))
  rfl

/-- A host-access error answers with its code, and otherwise reports. -/
theorem hostErr_counts (s : State) (src : Src) (synd : Nat) (async : Bool) (pa : Nat) :
    Counts { s with resp := { code := synd } } (hostErr s src synd async pa) := by
  have hresp {u v : State} (h : Counts u v) : Counts { u with resp := { code := synd } } { v with resp := { code := synd } } := by
    unfold Counts at h ⊢
    rw [h]
  cases src with
  | core h n m =>
    rw [hostErr_core]
    exact (hresp (hostCounted_counts ..)).trans (hostLogged_counts ..)
  | _ => rfl

/-! ## Requests sent again -/

/-- One more try of a request is counted. -/
def reqTried (s : State) (tid : Nat) (o : Outst) : State :=
  putFab s fun b => { b with reqs := mput b.reqs tid { o with tries := o.tries + 1 } }

theorem exec_reqResendTimeout {s : State} {tid : Nat} {o : Outst} (ho : mget s.fab.reqs tid = some o) :
    exec (.reqResendTimeout tid) s = .next (if fget s pgFAB F.FAB_XPORT_XRETRY ≤ o.tries then s
      else sendFlit (bump (reqTried s tid o) pgFAB 0) o.flit false) := by
  show Host.Outcome.next _ = _
  rw [ho]
  rfl

/-- Settles O47: a request refused, a read, a write and an atomic that its import allows, request flits and repeated atomics,
the five responses, a request sent again, and the end of a kept answer. -/
theorem remoteRequestsAreServed : Obligations.RemoteRequestsAreServed := by
  unfold Obligations.RemoteRequestsAreServed
  refine ⟨fun r s => ⟨?refused, fun pa f hi => ⟨?read, ?write, ?atomic⟩⟩, ?flit, ?response, ?again, ?expire⟩
  case refused =>
    intro hi
    have hs : remoteServe s r = (bump s pgWIN 1, .refuse) := by
      unfold remoteServe
      rw [hi]
    exact ⟨_, exec_remoteRequestArrive hs nofun, rfl, (bump_counts ..).keeps_mem⟩
  case read =>
    intro ha hw hp ho
    refine ⟨_, exec_remoteRequestArrive (remoteServe_read hi hp ho ha hw rfl) nofun, rfl, ?_⟩
    exact ((bump_recordsKept ..).trans (homeAsked_recordsKept ho.counted.dir)).mem
  case write =>
    intro bs ha hw hv hpoison hp ho
    refine ⟨_, exec_remoteRequestArrive (remoteServe_write hi hp ho ha hw hv rfl) nofun, fun i h => holdsAt_storeBytes _ _ _ _ i h,
      ?_, rfl⟩
    exact ((bump_recordsKept ..).trans (homeReady_recordsKept ho.counted.dir)).sameOutside (sameOutside_storeBytes _ _ _ _)
  case atomic =>
    intro op size args ha hok hp ho
    obtain ⟨t, e, hholds, hout⟩ := remoteServe_atomic hi hp ho ha hok
    exact ⟨_, exec_remoteRequestArrive e nofun, rfl, hholds, hout⟩
  case flit =>
    intro f op p s1 a s hp hh hs ha
    refine ⟨?rd, ?wr, ?wrpart, ?atom, ?repeated⟩
    case rd =>
      rintro rfl
      exact congrArg Host.Outcome.next (serveFlit_answered hp hh nofun hs ha)
    case wr =>
      rintro rfl
      exact congrArg Host.Outcome.next (serveFlit_answered hp hh nofun hs ha)
    case wrpart =>
      rintro rfl
      exact congrArg Host.Outcome.next (serveFlit_answered hp hh nofun hs ha)
    case atom =>
      rintro rfl hnone hroom
      have hfab : s1.fab = s.fab := by
        have := (remoteServe_accessOnly s (flitReq f)).keeps_fab
        rwa [hs] at this
      have hsent := sendFlit_portsOnly (takeFlit (atomKept s1 f (respFlit s1 f a)) p f) (respFlit s1 f a) false
      refine ⟨_, congrArg Host.Outcome.next (serveFlit_answered hp hh (fun _ => ⟨hnone, hroom⟩) hs ha), hsent.keeps_mem,
        hsent.keeps_inbox.trans ?_, ?_⟩
      · rw [← hfab]
        rfl
      · refine (congrArg (mget · _) hsent.keeps_atoms).trans ?_
        exact (mget_mput ..).trans (if_pos rfl)
    case repeated =>
      rintro g rfl hg
      have hsent := (bump_counts (takeFlit s p f) pgFAB 1).portsOnly.trans (sendFlit_portsOnly _ g false)
      exact ⟨_, congrArg Host.Outcome.next (serveFlit_repeated hp hh rfl hg), hsent.keeps_mem, hsent.keeps_inbox,
        hsent.keeps_atoms⟩
  case response =>
    intro f op p o s hp ho
    obtain ⟨hreq, hin, hmem⟩ := reqEnded_ends s p f
    have herr {i : Instr} {src : Src} {synd pa : Nat} {async : Bool} (e : exec i s = .next (hostErr (reqEnded s p f) src synd async pa)) :
        Answers i s fun t => (mget t.fab.reqs f.tid = none ∧ t.fab.inbox = s.fab.inbox.erase (p, f) ∧ t.mem = s.mem) ∧
          t.resp = { code := synd } := by
      have hc := hostErr_counts (reqEnded s p f) src synd async pa
      refine ⟨_, e, ⟨?_, ?_, hc.keeps_mem⟩, hc.keeps_resp⟩
      · rw [hc.keeps_fab]
        exact hreq
      · rw [hc.keeps_fab]
        exact hin
    refine ⟨?rdata, ?wack, ?aack, ?refuse, ?fail⟩
    case rdata =>
      rintro rfl hpoison
      refine ⟨_, congrArg Host.Outcome.next ((response_of_req hp ho _).trans (if_neg (by rw [hpoison]; decide))),
        ⟨hreq, hin, hmem⟩, rfl⟩
    case wack =>
      rintro rfl
      exact ⟨_, congrArg Host.Outcome.next (response_of_req hp ho _), ⟨hreq, hin, hmem⟩, rfl⟩
    case aack =>
      rintro rfl
      exact ⟨_, congrArg Host.Outcome.next (response_of_req hp ho _), ⟨hreq, hin, hmem⟩, rfl⟩
    case refuse =>
      rintro rfl
      exact herr (congrArg Host.Outcome.next (response_of_req hp ho _))
    case fail =>
      rintro rfl
      exact herr (congrArg Host.Outcome.next (response_of_req hp ho _))
  case again =>
    refine fun tid o s ho => ⟨fun ht => ?_, fun ht => (exec_reqResendTimeout ho).trans (congrArg _ (if_pos ht))⟩
    have hsent := (bump_counts (reqTried s tid o) pgFAB 0).portsOnly.trans (sendFlit_portsOnly _ o.flit false)
    refine ⟨_, (exec_reqResendTimeout ho).trans (congrArg _ (if_neg (Nat.not_le.2 ht))), ?_, hsent.keeps_mem⟩
    rw [hsent.keeps_reqs]
    exact (mget_mput ..).trans (if_pos rfl)
  case expire =>
    exact fun srcPkg tid s => ⟨_, rfl, (mget_mdel ..).trans (if_pos rfl), rfl, rfl⟩

end Sys2Proof.Machine
end

section
/-! Registers that stay (R457 to R476): accesses of lines, stores and links, and completions, change of the registers page headers
and the error logs of units only, and a clear of a store its own page. -/

namespace Sys2Proof.Machine

open Sys2Proof

/-! ## Registers of some places -/

/-- `t` holds the registers of some places as `s` does. -/
structure KeptAt (P : Nat → Prop) (s t : State) : Prop where
  same : ∀ k, P k → mget t.regs k = mget s.regs k

section
variable {P : Nat → Prop} {s t u : State}

theorem KeptAt.refl (s : State) : KeptAt P s s := ⟨fun _ _ => rfl⟩

theorem KeptAt.trans (h : KeptAt P s t) (k : KeptAt P t u) : KeptAt P s u :=
  ⟨fun j hj => (k.same j hj).trans (h.same j hj)⟩

theorem KeptAt.after (k : KeptAt P t u) (h : KeptAt P s t) : KeptAt P s u := h.trans k

theorem KeptAt.of_regs (h : t.regs = s.regs) : KeptAt P s t := ⟨fun _ _ => by rw [h]⟩

theorem KeptAt.mono {Q : Nat → Prop} (h : KeptAt P s t) (hq : ∀ k, Q k → P k) : KeptAt Q s t := ⟨fun k hk => h.same k (hq k hk)⟩

theorem BlockSame.keptAt (h : BlockSame s t) (hp : ∀ k, P k → 64 ≤ k / 32 % 1024) : KeptAt P s t :=
  ⟨fun k hk => h.same k (hp k hk)⟩

theorem KeptAt.ite {c : Prop} [Decidable c] (h : KeptAt P s t) (k : KeptAt P s u) : KeptAt P s (if c then t else u) := by
  split
  · exact h
  · exact k

theorem KeptAt.ite_fst {α : Type} {a b : State × α} {c : Prop} [Decidable c] (h : KeptAt P s a.1) (k : KeptAt P s b.1) :
    KeptAt P s (if c then a else b).1 := by
  split
  · exact h
  · exact k

theorem KeptAt.fgeti (h : KeptAt P s t) {page i : Nat} {f : Field} (hk : P (fieldKey page (f.off + i * f.stride) f.lo)) :
    fgeti t page f i = Machine.fgeti s page f i := by
  unfold Machine.fgeti
  rw [h.same _ hk]

theorem KeptAt.fget (h : KeptAt P s t) {page : Nat} {f : Field} (hk : P (fieldKey page f.off f.lo)) :
    fget t page f = Machine.fget s page f := h.fgeti (i := 0) (by rwa [Nat.zero_mul])

theorem KeptAt.fbit (h : KeptAt P s t) {page : Nat} {f : Field} (hk : P (fieldKey page f.off f.lo)) :
    fbit t page f = Machine.fbit s page f := congrArg (· == 1) (h.fget hk)

theorem fputi_keptAt (s : State) {page i : Nat} {f : Field} (v : Nat) (h : ¬ P (fieldKey page (f.off + i * f.stride) f.lo)) :
    KeptAt P s (fputi s page f i v) := ⟨fun _ hk => mget_mput_ne _ _ fun e => h (e ▸ hk)⟩

theorem fput_keptAt (s : State) {page : Nat} {f : Field} (v : Nat) (h : ¬ P (fieldKey page f.off f.lo)) :
    KeptAt P s (fput s page f v) := fputi_keptAt (i := 0) s v (by rwa [Nat.zero_mul])

theorem foldl_keptAt_of_mem {α : Type} {g : State → α → State} {l : List α} (hg : ∀ s, ∀ x ∈ l, KeptAt P s (g s x)) (s : State) :
    KeptAt P s (l.foldl g s) :=
  List.foldlRecOn (motive := KeptAt P s) l g (.refl s) fun _ h x hx => h.trans (hg _ x hx)

theorem foldl_keptAt {α : Type} {g : State → α → State} (hg : ∀ s x, KeptAt P s (g s x)) (l : List α) (s : State) :
    KeptAt P s (l.foldl g s) := foldl_keptAt_of_mem (fun s x _ => hg s x) s

end

/-- A block register outside the error log of a unit of a tile, a die or a host. -/
def QuietPlace (k : Nat) : Prop :=
  64 ≤ k / 32 % 1024 ∧ (k / 32768 < 0x10000 ∨ k / 32 % 1024 < 66 ∨ 70 < k / 32 % 1024)

/-- From `s` to `t` only headers and error logs changed. -/
abbrev QuietKept (s t : State) : Prop := KeptAt QuietPlace s t

theorem BlockSame.quiet {s t : State} (h : BlockSame s t) : QuietKept s t := h.keptAt fun _ hk => hk.1

theorem bump_quiet (s : State) (page n : Nat) : QuietKept s (bump s page n) := (bump_blockSame ..).quiet

theorem bumpBy_quiet (s : State) (page n k : Nat) : QuietKept s (bumpBy s page n k) := (bumpBy_blockSame ..).quiet

theorem setLogged_quiet (s : State) (page : Nat) : QuietKept s (setLogged s page) := (setErr_blockSame ..).quiet

/-- A field of an error log. -/
theorem fput_quiet_log (s : State) {page : Nat} {f : Field} (v : Nat)
    (h : 0x10000 ≤ page ∧ 66 ≤ f.off / 4 ∧ f.off / 4 ≤ 70 ∧ f.lo < 32) : QuietKept s (fput s page f v) := by
  refine fput_keptAt s v fun k => ?_
  unfold QuietPlace fieldKey at k
  omega

theorem storeBytes_quiet (s : State) (pa : Nat) (bs : List Byte) (p : Bool) : QuietKept s (storeBytes s pa bs p) :=
  .of_regs (storeBytes_regs ..)

theorem setPoison_quiet (s : State) (pa : Nat) (p : Bool) : QuietKept s (setPoison s pa p) := .of_regs (setPoison_regs ..)

/-! ## A line's home and its agents -/

section
variable (s : State) (line agent : Nat)

theorem putCoh_quiet (f : CohSt → CohSt) : QuietKept s (putCoh s f) := .of_regs rfl

theorem putCopy_quiet (c : Option Copy) : QuietKept s (putCopy s line agent c) := putCoh_quiet ..

theorem dirPut_quiet (vec : Nat) (sole : Bool) : QuietKept s (dirPut s line vec sole) := putCoh_quiet ..

theorem cohError_quiet (n cause : Nat) : QuietKept s (cohError s (pgCOH n) cause agent line) := by
  have hlog (t : State) {f : Field} (v : Nat) (hf : 66 ≤ f.off / 4 ∧ f.off / 4 ≤ 70 ∧ f.lo < 32) :
      QuietKept t (fput t (pgCOH n) f v) := fput_quiet_log t v ⟨by unfold pgCOH pageOf; omega, hf⟩
  unfold cohError
  exact .ite (.refl s) ((hlog s _ (by decide)).trans ((hlog _ _ (by decide)).trans ((hlog _ _ (by decide)).trans
    ((hlog _ _ (by decide)).trans ((hlog _ _ (by decide)).trans (setLogged_quiet ..))))))

theorem poisonLine_quiet : QuietKept s (poisonLine s line agent) :=
  (setPoison_quiet ..).trans ((bump_quiet ..).trans (cohError_quiet ..))

theorem resolveDead_quiet : QuietKept s (resolveDead s line agent) := by
  have h (f : CohSt → CohSt) := putCoh_quiet s f
  unfold resolveDead
  dsimp only
  split
  · exact h _
  · refine .ite (h _) (.ite ?_ ((h _).trans (dirPut_quiet ..)))
    exact (h _).trans ((putCoh_quiet ..).trans ((poisonLine_quiet ..).trans (dirPut_quiet ..)))

theorem homeTouch_quiet : QuietKept s (homeTouch s line) := by
  unfold homeTouch
  dsimp only
  split
  · exact (bump_quiet ..).trans (putCoh_quiet ..)
  · exact (bump_quiet ..).after (.of_regs rfl)

theorem homeWrite_quiet (data : List Byte) (poison : Bool) : QuietKept s (homeWrite s line data poison) :=
  .ite (homeTouch_quiet ..) ((homeTouch_quiet ..).trans (storeBytes_quiet ..))

theorem homeAccept_quiet : QuietKept s (homeAccept s line) :=
  (bump_quiet ..).trans ((putCoh_quiet ..).trans
    (foldl_keptAt (fun t a => resolveDead_quiet t line a) ..))

theorem snoopNow_quiet (k : Snoop) : QuietKept s (snoopNow s k line agent).1 := by
  have hb := bump_quiet s (pgCOH (homeOf s line)) 1
  have hput (t : State) (c : Option Copy) := putCopy_quiet t line agent c
  have hnone (t : State) : QuietKept t (if isOwner t agent line then bump t (pgCOH (homeOf s line)) 3 else t) :=
    .ite (bump_quiet ..) (.refl t)
  have hforward (t : State) (c : Option Copy) :
      QuietKept t (putCopy (bump t (pgCOH (homeOf s line)) 2) line agent c) := (bump_quiet ..).trans (hput ..)
  unfold snoopNow
  dsimp only
  split
  · exact hb.trans (hnone _)
  · split <;> dsimp only
    · exact hb.trans (hnone _)
    · exact hb
    · exact hb
    · exact hb.trans ((hput ..).trans (hnone _))
    · exact hb.trans ((hput ..).trans (hnone _))
    · exact hb.trans (hforward ..)
    · exact hb.trans (hforward ..)
    · exact hb.trans (hforward ..)
    · exact hb.trans ((homeWrite_quiet ..).trans (hput ..))
    · exact hb.trans ((homeWrite_quiet ..).trans (hforward ..))
    · exact hb.trans (hforward ..)
    · exact hb.trans (hforward ..)

theorem foldl_snoopNow_quiet (k : Snoop) (l : List Nat) :
    QuietKept s (l.foldl (fun s a => (snoopNow s k line a).1) s) :=
  foldl_keptAt (fun t a => snoopNow_quiet t line a k) ..

theorem homeInvalidate_quiet : QuietKept s (homeInvalidate s line) := by
  unfold homeInvalidate
  split
  · exact .refl s
  · exact (foldl_snoopNow_quiet ..).trans (dirPut_quiet ..)

theorem homeRoom_quiet : QuietKept s (homeRoom s line) := by
  unfold homeRoom
  refine .ite (.refl s) (.ite (.refl s) ?_)
  split
  · exact .refl s
  · exact (bump_quiet ..).trans (homeInvalidate_quiet ..)

theorem unreadable_quiet : QuietKept s (unreadable s line) :=
  ((bump_blockSame ..).trans (bump_blockSame ..)).quiet.trans
    ((cohError_quiet ..).trans (dirPut_quiet ..))

theorem homeEcc_quiet (e : HomeEcc) : QuietKept s (homeEcc s line e) := by
  cases e with
  | clean => exact .refl s
  | corrected => exact bump_quiet ..
  | data => exact (setPoison_quiet ..).trans ((bump_quiet ..).trans (cohError_quiet ..))
  | directory => exact .refl s
  | memory => exact setPoison_quiet ..

theorem homeFound_quiet (e : HomeEcc) : QuietKept s (homeFound s line e) := by
  unfold homeFound
  split
  · exact (unreadable_quiet ..).trans (homeInvalidate_quiet ..)
  · exact homeEcc_quiet ..

theorem visitorEcc_quiet (e : Ecc) : QuietKept s (visitorEcc s agent line e) := by
  unfold visitorEcc
  split
  · exact .refl s
  · exact .refl s
  · exact .ite (bump_quiet ..) (.refl s)
  · refine .ite (.refl s) ?_
    have h : QuietKept s (cohError (bump s (pgCOH agent) 12) (pgCOH agent) 3 agent line) :=
      (bump_quiet ..).trans (cohError_quiet ..)
    dsimp only
    split
    · exact h.trans (putCopy_quiet ..)
    · exact h.trans (putCopy_quiet ..)
    · exact h.trans (putCopy_quiet ..)
    · exact h

theorem agentFetch_quiet (sole : Bool) : QuietKept s (agentFetch s agent line sole).1 := by
  have h : QuietKept s (homeRoom (homeAccept s line) line) :=
    (homeAccept_quiet ..).trans (homeRoom_quiet ..)
  have hdir (t : State) (v : Nat) (b : Bool) := dirPut_quiet t line v b
  have hput (t : State) (c : Copy) := putCopy_quiet t line agent (some c)
  have hgive (t : State) (c : Copy) : QuietKept t (putCopy (homeGive t line).1 line agent (some c)) :=
    (homeTouch_quiet ..).trans (hput ..)
  unfold agentFetch
  dsimp only
  split
  · exact h.trans ((hdir ..).trans (hgive ..))
  · split
    · exact h.trans ((foldl_snoopNow_quiet ..).trans ((hdir ..).trans (hgive ..)))
    · exact h.trans ((hdir ..).trans (hgive ..))
  · split
    · exact h.trans (hgive ..)
    · have hs (k : Snoop) (o : Nat) := h.trans (snoopNow_quiet (homeRoom (homeAccept s line) line) line o k)
      split
      · split <;> dsimp only
        · exact (hs ..).trans ((hdir ..).trans (hput ..))
        · exact (hs ..).trans ((hdir ..).trans (hput ..))
      · exact .ite_fst ((hs ..).trans ((hdir ..).trans (hgive ..))) ((hs ..).trans ((hdir ..).trans (hgive ..)))

theorem agentHold_quiet (sole : Bool) (h : HomeEcc) (v : Ecc) :
    QuietKept s (agentHold s agent line sole h v).1 := by
  have hv := visitorEcc_quiet s line agent v
  have hfetch (b : Bool) : QuietKept s (agentFetch (homeFound (visitorEcc s agent line v) line h) agent line b).1 :=
    hv.trans ((homeFound_quiet ..).trans (agentFetch_quiet ..))
  unfold agentHold
  dsimp only
  split
  · split
    · exact hfetch _
    · exact hv
  · exact hfetch _

theorem agentYield_quiet : QuietKept s (agentYield s agent line) := by
  have h := putCopy_quiet s line agent none
  unfold agentYield
  split
  · exact .refl s
  · refine .ite (h.trans ?_) h
    exact (homeWrite_quiet ..).trans ((bump_quiet ..).trans (dirPut_quiet ..))

end

section
variable (s : State) (q : Asker) (pa : Nat) (bs : List Byte) (p : Bool) (h : HomeEcc)

theorem homeRead_quiet (line : Nat) : QuietKept s (homeRead s line).1 := by
  have ha := homeAccept_quiet s line
  unfold homeRead
  dsimp only
  split
  · have hs := ha.trans (snoopNow_quiet (homeAccept s line) line (ownerOf (homeAccept s line) line) .cur)
    dsimp only [homeGive]
    split
    · exact hs
    · exact .ite (hs.trans (homeTouch_quiet ..)) (hs.trans ((homeTouch_quiet ..).trans (dirPut_quiet ..)))
  · exact ha.trans (homeTouch_quiet ..)

theorem cohRead_quiet (n : Nat) (v : Ecc) : QuietKept s (cohRead s q pa n h v).1 := by
  unfold cohRead
  dsimp only
  split
  · exact agentHold_quiet ..
  · exact (homeFound_quiet ..).trans (homeRead_quiet ..)

theorem homeTake_quiet (line : Nat) : QuietKept s (homeTake s line) :=
  (homeAccept_quiet ..).trans (homeInvalidate_quiet ..)

theorem homeStore_quiet : QuietKept s (homeStore s pa bs p).1 := by
  have h : QuietKept s (homeTouch (homeTake s (lineOf pa)) (lineOf pa)) :=
    (homeTake_quiet ..).trans (homeTouch_quiet ..)
  unfold homeStore
  dsimp only
  split
  · exact h
  · exact h.trans (storeBytes_quiet ..)

theorem cohWrite_quiet (v : Ecc) : QuietKept s (cohWrite s q pa bs p h v).1 := by
  unfold cohWrite
  dsimp only
  split
  · split <;> dsimp only
    · exact agentHold_quiet ..
    · exact (agentHold_quiet ..).trans (putCopy_quiet ..)
  · exact (visitorEcc_quiet ..).trans ((agentYield_quiet ..).trans
      ((homeFound_quiet ..).trans (homeStore_quiet ..)))
  · exact (homeFound_quiet ..).trans (homeStore_quiet ..)

end

/-! ## Writes at a store's port and from a bus -/

theorem spadLog_quiet (s : State) (d st cls off : Nat) (ue poisonRead : Bool) :
    QuietKept s (spadLog s d st cls off ue poisonRead) := by
  have hlog (t : State) {f : Field} (v : Nat) (hf : 66 ≤ f.off / 4 ∧ f.off / 4 ≤ 70 ∧ f.lo < 32) :
      QuietKept t (fput t (pgSPAD d) f v) := fput_quiet_log t v ⟨by unfold pgSPAD pageOf; omega, hf⟩
  exact .ite (.refl s) ((hlog s _ (by decide)).trans ((hlog _ _ (by decide)).trans ((hlog _ _ (by decide)).trans
    ((hlog _ _ (by decide)).trans ((hlog _ _ (by decide)).trans ((hlog _ _ (by decide)).trans (setLogged_quiet ..)))))))

theorem meetFlaw_quiet (cls d st : Nat) (s : State) (e : Nat × Flaw) : QuietKept s (meetFlaw cls d st s e) := by
  unfold meetFlaw
  dsimp only
  split
  · exact (bump_quiet ..).trans (spadLog_quiet ..)
  · exact ((bump_quiet ..).trans (spadLog_quiet ..)).after (.of_regs rfl)

theorem granWrite_quiet (d cls view : Nat) (p : Bool) (acc : State × Bool) (gran off : Nat) (bs : List Byte) :
    QuietKept acc.1 (granWrite d cls view p acc gran off bs).1 := by
  have hw (t : State) (pa : Nat) (bs : List Byte) : QuietKept t (writeBytes t pa bs) :=
    .of_regs (by rw [writeBytes_eq_setMem])
  have hput (t : State) (st : Nat) (x : SpadSt) : QuietKept t (putSpad t d st x) := .of_regs rfl
  have hmet (fs : List (Nat × Flaw)) : QuietKept acc.1 (fs.foldl (meetFlaw cls d (storeAt (gran * 8))) acc.1) :=
    foldl_keptAt (meetFlaw_quiet _ _ _) ..
  unfold granWrite
  dsimp only
  split
  · exact (hw ..).trans ((hput ..).trans (setPoison_quiet ..))
  · split
    · exact hmet _
    · dsimp only
      exact .ite ((hmet _).trans ((hw ..).trans ((hput ..).trans (setPoison_quiet ..))))
        ((hmet _).trans ((hw ..).trans (hput ..)))

theorem lineStore_quiet (s : State) (d cls : Nat) (secure : Bool) (view off : Nat) (bs : List Byte) (p : Bool) :
    QuietKept s (lineStore s d cls secure view off bs p).1 := by
  have hb := bumpBy_quiet s (pgSPAD d) 3 (if lockedWrite view off bs.length then 2 else 1)
  unfold lineStore
  dsimp only
  split
  · exact hb.trans (bump_quiet ..)
  · exact List.foldlRecOn (motive := fun acc : State × Bool => QuietKept s acc.1) _ _
      (.ite hb (hb.trans (bump_quiet ..))) fun _ h _ _ => h.trans (granWrite_quiet ..)

theorem portWrite_quiet (s : State) (d cls : Nat) (secure : Bool) (view off : Nat) (bs : List Byte) (p : Bool) :
    QuietKept s (portWrite s d cls secure view off bs p).1 := by
  unfold portWrite
  exact List.foldlRecOn (motive := fun acc : State × PortWr => QuietKept s acc.1) _ _ (.refl s)
    fun _ h _ _ => h.trans (lineStore_quiet ..)

theorem busWriteLine_quiet (s : State) (pa : Nat) (bs : List Byte) (p keep : Bool) (q : Asker) (h : HomeEcc) :
    QuietKept s (busWriteLine s pa bs p keep q h).1 := by
  unfold busWriteLine
  dsimp only
  split
  · exact portWrite_quiet ..
  · exact .ite_fst (cohWrite_quiet ..) (bump_quiet ..)
  · exact cohWrite_quiet ..
  · exact cohWrite_quiet ..
  · exact .refl s

theorem busWrite_quiet (s : State) (pa : Nat) (bs : List Byte) (p keep : Bool) :
    QuietKept s (busWrite s pa bs p keep).1 := by
  unfold busWrite
  exact List.foldlRecOn (motive := fun acc : State × Bool => QuietKept s acc.1) _ _ (.refl s)
    fun _ h _ _ => h.trans (busWriteLine_quiet ..)

end Sys2Proof.Machine
end

section
/-! Watches (R252, R457 to R461): what an expired watch of a queue head, a stream, a PEN_RUN or a unit ends, and a request below
that waits too long. -/

namespace Sys2Proof.Machine

open Sys2Proof

/-! ## Ends of commands -/

theorem ended_finishCmd {s : State} {id : CmdId} {x : Cmd} (h : findCmd s id = some x) (hp : x.phase ≠ .done) (r : Res) :
    Ended (finishCmd s id r) id r := ⟨_, findCmd_finishCmd r h hp, rfl, rfl⟩

section
variable {s t : State} (h : CompletesOnly s t)
include h

theorem CompletesOnly.keeps_rst : t.rst = s.rst := by
  unfold CompletesOnly at h
  rw [h]

theorem CompletesOnly.keeps_hatches : t.hatches = s.hatches := by
  unfold CompletesOnly at h
  rw [h]

theorem CompletesOnly.keeps_fab : t.fab = s.fab := by
  unfold CompletesOnly at h
  rw [h]

end

/-- What a completion tells the transport. -/
theorem finishCmd_trn (s : State) (id : CmdId) (r : Res) : (finishCmd s id r).trn = s.trn ∨
    ∃ c k v n, (finishCmd s id r).trn = tallyNotes s.trn c k v n := by
  have hcount : (countFault s id.ctx r.code).trn = s.trn := (countFault_counts ..).keeps_trn
  unfold finishCmd
  split
  · exact .inl rfl
  · dsimp only
    split
    · exact .inl rfl
    · split
      · exact .inl hcount
      · split
        · exact .inr ⟨_, _, _, _, congrArg (tallyNotes · _ _ _ _) hcount⟩
        · exact .inl ((bump_counts ..).keeps_trn.trans hcount)

theorem finishCmd_units (s : State) (id : CmdId) (r : Res) : (finishCmd s id r).trn.units = s.trn.units := by
  obtain h | ⟨c, k, v, n, h⟩ := finishCmd_trn s id r <;> rw [h]
  rfl

theorem finishCmd_pool {s : State} {id : CmdId} {r : Res} {e : PoolRun} (he : e ∈ (finishCmd s id r).trn.pool) :
    ∃ e' ∈ s.trn.pool, e.id = e'.id := by
  obtain h | ⟨c, k, v, n, h⟩ := finishCmd_trn s id r <;> rw [h] at he
  · exact ⟨e, he, rfl⟩
  · obtain ⟨e', he', rfl⟩ := List.mem_map.1 he
    exact ⟨e', he', by split <;> rfl⟩

theorem watchNote_counts (s : State) (t n page : Nat) : Counts s (watchNote s t n page) :=
  (bump_counts ..).trans (counts_fput ..)

theorem findCmd_dispatchCmd {s : State} {x : Cmd} (h : findCmd s x.id = some x) (ph : Phase) (engine : Nat) :
    ∃ y, findCmd (dispatchCmd s x ph engine) x.id = some y ∧ y.phase = ph := by
  have hput (u : State) (g : Cmd → Cmd) (hu : u.cmds = s.cmds) (hg : ∀ y, (g y).id = y.id) :
      findCmd (updCmd u x.id g) x.id = some (g x) := by
    refine findCmd_updCmd_same hg ?_
    unfold findCmd at h ⊢
    rwa [hu]
  unfold dispatchCmd
  exact ⟨_, hput _ _ rfl fun _ => rfl, rfl⟩

/-! ## Queue heads and run-pool entries -/

section
variable {s : State} {c : CmdId} {x : Cmd} (h : findCmd s c = some x)
include h

theorem queueWatchExpire_head (hh : x.phase = .head) (hb : fbiti s (pgCTX c.ctx) F.QSTS_BLOCKED c.q = true)
    (hq : fget s (pgSHEEP (fgeti s (pgCTX c.ctx) F.QCFG_HOME_TILE c.q)) F.SHEEP_TMO0_QUEUE_MS ≠ 0) :
    Answers (.queueWatchExpire c) s fun t => Ended t c (resOf [stTIMEOUT]) ∧ t.mem = s.mem := by
  have hheld : (x.phase == .head && fbiti s (pgCTX c.ctx) F.QSTS_BLOCKED c.q) = true := by rw [hh, hb]; rfl
  have hid : x.id = c := id_of_findCmd h
  obtain ⟨w, hw⟩ : ∃ w, w = watchNote s (fgeti s (pgCTX c.ctx) F.QCFG_HOME_TILE c.q) 0 (pgCTX c.ctx) := ⟨_, rfl⟩
  have hc : Counts s w := hw ▸ watchNote_counts ..
  have hfound : findCmd w x.id = some x := by rw [hid, hc.accessOnly.findCmd c, h]
  obtain ⟨y, hy, hgranted⟩ := findCmd_dispatchCmd hfound .granted noEngine
  rw [hid] at hy
  refine ⟨finishCmd (dispatchCmd w x .granted noEngine) c (resOf [stTIMEOUT]), ?_,
    ended_finishCmd hy (by rw [hgranted]; decide) _, (finishCmd_completesOnly ..).keeps_mem.trans hc.keeps_mem⟩
  show Host.Outcome.next _ = _
  rw [h]
  dsimp only
  rw [hheld, if_pos rfl, if_neg hq, if_pos rfl, hw]

theorem queueWatchExpire_pool (hp : x.phase ≠ .done) (hh : x.phase ≠ .head) (hq : fget s (pgSHEEP x.tile) F.SHEEP_TMO0_QUEUE_MS ≠ 0)
    (hpool : (s.trn.pool.any fun r => r.id == c && r.ready.isNone) = true) :
    Answers (.queueWatchExpire c) s fun t => Ended t c (resOf [stTIMEOUT]) ∧ (∀ r ∈ t.trn.pool, r.id ≠ c) ∧ t.mem = s.mem := by
  have hheld : (x.phase == .head && fbiti s (pgCTX c.ctx) F.QSTS_BLOCKED c.q) = false := by
    rw [beq_false_of_ne hh]
    rfl
  obtain ⟨w, hw⟩ : ∃ w, w = watchNote s x.tile 0 (pgETCH x.tile 0) := ⟨_, rfl⟩
  have hc : Counts s w := hw ▸ watchNote_counts ..
  refine ⟨finishCmd (putTrn w fun y => { y with pool := y.pool.filter fun r => r.id != c }) c (resOf [stTIMEOUT]), ?_,
    ended_finishCmd (x := x) ?_ hp _, fun r hr => ?_,
    (finishCmd_completesOnly ..).keeps_mem.trans hc.keeps_mem⟩
  · show Host.Outcome.next _ = _
    rw [h]
    dsimp only
    rw [hheld, if_neg Bool.false_ne_true, if_neg hq, if_neg Bool.false_ne_true, hpool, if_pos rfl, hw]
  · exact (hc.accessOnly.findCmd c).trans h
  · obtain ⟨r', hr', e⟩ := finishCmd_pool hr
    rw [e]
    simpa using (List.mem_filter.1 hr').2

end

/-! ## Streams -/

theorem streamWatchExpire_answers {s : State} {x : StreamId} {y : Stall} (h : (getStream s x).stall = some y) :
    Answers (.streamWatchExpire x) s fun t => getStream t x =
      { getStream s x with stall := none, dead := some (y.va, stTIMEOUT) } ∧ t.folds = s.folds ∧ t.mem = s.mem := by
  have hc := watchNote_counts s (streamUnit s x).1 1 (streamUnit s x).2
  refine ⟨putStream (watchNote s (streamUnit s x).1 1 (streamUnit s x).2) x
    { getStream s x with stall := none, dead := some (y.va, stTIMEOUT) }, ?_, getStream_putStream_same .., hc.keeps_folds,
    hc.keeps_mem⟩
  show Host.Outcome.next _ = _
  rw [h]

/-! ## Programs of pens -/

/-- A block register of page `p`. -/
def BlockPlace (p k : Nat) : Prop := k / 32768 = p ∧ 64 ≤ k / 32 % 1024

theorem blockPlace_field {p : Nat} {g : Field} (hg : 256 ≤ g.off ∧ g.off < 4096 ∧ g.lo < 32) :
    BlockPlace p (fieldKey p g.off g.lo) := by
  unfold BlockPlace fieldKey
  omega

theorem BlockSame.page {s t : State} (h : BlockSame s t) (p : Nat) : KeptAt (BlockPlace p) s t := h.keptAt fun _ hk => hk.2

theorem fputi_page {p page i : Nat} (s : State) {f : Field} (v : Nat) (h : page ≠ p) (hf : f.off + i * f.stride < 4096 ∧ f.lo < 32) :
    KeptAt (BlockPlace p) s (fputi s page f i v) := by
  refine fputi_keptAt s v fun k => ?_
  unfold BlockPlace fieldKey at k
  omega

theorem fput_page {p page : Nat} (s : State) {f : Field} (v : Nat) (h : page ≠ p) (hf : f.off < 4096 ∧ f.lo < 32) :
    KeptAt (BlockPlace p) s (fput s page f v) := fputi_page s v h (by rwa [Nat.zero_mul])

/-- A core's halt once its registers show it. -/
def haltShown (s : State) (c : PrepCore) (code : Nat) : State :=
  fput (fput (fput s (corePage c) F.PREP_STS_RUNNING 0) (corePage c) F.PREP_STS_HALTED 1) (corePage c) F.PREP_STS_HALT_CODE code

theorem haltCore_blockSame (s : State) (c : PrepCore) (code : Nat) : BlockSame (haltShown s c code) (haltCore s c code) := by
  have hupd (g : Cmd → Cmd) : BlockSame (haltShown s c code) (updCmd (haltShown s c code) (getCore s c).cmd g) := .of_regs rfl
  unfold haltCore
  dsimp only
  split
  · split
    · exact (hupd _).trans (finishCmd_blockSame ..)
    · exact hupd _
  · exact hupd _

theorem haltCore_completesOnly (s : State) (c : PrepCore) (code : Nat) : CompletesOnly s (haltCore s c code) := by
  have hupd (g : Cmd → Cmd) : CompletesOnly s (updCmd (haltShown s c code) (getCore s c).cmd g) := rfl
  unfold haltCore
  dsimp only
  split
  · split
    · exact (hupd _).trans (finishCmd_completesOnly ..)
    · exact hupd _
  · exact hupd _

theorem running_haltCore (s : State) (c : PrepCore) (code : Nat) :
    fbit (haltCore s c code) (corePage c) F.PREP_STS_RUNNING = false := by
  have hshown : fget (haltShown s c code) (corePage c) F.PREP_STS_RUNNING = 0 := by
    unfold haltShown
    rw [fget_fput_ne _ _ _ (by decide), fget_fput_ne _ _ _ (by decide), fget_fput_same _ _ _ _ (by decide)]
    rfl
  unfold fbit
  rw [(haltCore_blockSame ..).fget _ (by decide), hshown]
  rfl

/-- The registers of a core's fault. -/
def coreFault (s : State) (c : PrepCore) (cause off : Nat) : State :=
  let pg := corePage c
  let s := fput (fput s pg F.PREP_FAULT_VALID 1) pg F.PREP_FAULT_CAUSE cause
  let s := fput s pg F.PREP_FAULT_PC ((getCore s c).pc / 4)
  let s := fput s pg F.PREP_FAULT_CONTEXT (fget s pg F.PREP_STS_CONTEXT)
  if cause = 2 ∨ cause = 3 then fput s pg F.PREP_FADDR_OFFSET off else s

/-- A core's fault, logged under the VALID rule. -/
def stopLogged (s : State) (c : PrepCore) (cause off : Nat) : State :=
  let s := bump s (corePage c) 8
  if fbit s (corePage c) F.PREP_FAULT_VALID then s else setLogged (coreFault s c cause off) (corePage c)

theorem coreFault_counts (s : State) (c : PrepCore) (cause off : Nat) : Counts s (coreFault s c cause off) := by
  unfold coreFault
  dsimp only
  split <;> rfl

theorem stopLogged_counts (s : State) (c : PrepCore) (cause off : Nat) : Counts s (stopLogged s c cause off) :=
  counts_ite (bump_counts ..) ((bump_counts ..).trans ((coreFault_counts ..).trans (setLogged_counts ..)))

theorem stopCore_completesOnly (s : State) (c : PrepCore) (code cause off : Nat) :
    CompletesOnly s (stopCore s c code cause off) :=
  (stopLogged_counts ..).completesOnly.trans (haltCore_completesOnly ..)

section
variable {P : Nat → Prop} (hblock : ∀ k, P k → 64 ≤ k / 32 % 1024) {c : PrepCore}
  (hp : ∀ s (f : Field) v, 256 ≤ f.off ∧ f.off < 288 ∧ f.lo < 32 → KeptAt P s (fput s (corePage c) f v))
include hblock hp

omit hblock in
theorem coreFault_keptAt (s : State) (cause off : Nat) : KeptAt P s (coreFault s c cause off) := by
  have hput (v w : Nat) : KeptAt P s (fput (fput (fput (fput s (corePage c) F.PREP_FAULT_VALID 1) (corePage c)
      F.PREP_FAULT_CAUSE cause) (corePage c) F.PREP_FAULT_PC v) (corePage c) F.PREP_FAULT_CONTEXT w) :=
    (hp s _ _ (by decide)).trans ((hp _ _ _ (by decide)).trans ((hp _ _ _ (by decide)).trans (hp _ _ _ (by decide))))
  unfold coreFault
  exact .ite ((hput ..).trans (hp _ _ _ (by decide))) (hput ..)

/-- A core's stop writes registers of its page alone. -/
theorem stopCore_keptAt (s : State) (code cause off : Nat) : KeptAt P s (stopCore s c code cause off) := by
  have hb := (bump_blockSame s (corePage c) 8).keptAt hblock
  have hlog : KeptAt P s (stopLogged s c cause off) :=
    .ite hb (hb.trans ((coreFault_keptAt hp ..).trans ((setErr_blockSame ..).keptAt hblock)))
  have hshown (t : State) : KeptAt P t (haltShown t c code) :=
    (hp _ _ _ (by decide)).trans ((hp _ _ _ (by decide)).trans (hp _ _ _ (by decide)))
  exact hlog.trans ((hshown _).trans ((haltCore_blockSame ..).keptAt hblock))

end

theorem running_stopCore (s : State) (c k : PrepCore) (code cause off : Nat)
    (h : fbit s (corePage k) F.PREP_STS_RUNNING = false) :
    fbit (stopCore s c code cause off) (corePage k) F.PREP_STS_RUNNING = false := by
  by_cases hpage : corePage c = corePage k
  · rw [← hpage]
    exact running_haltCore ..
  · have hkept : KeptAt (BlockPlace (corePage k)) s (stopCore s c code cause off) :=
      stopCore_keptAt (fun _ hk => hk.2) (fun _ _ _ hf => fput_page _ _ hpage ⟨by omega, hf.2.2⟩) ..
    rw [hkept.fbit (blockPlace_field (by decide)), h]

theorem stopCores_completesOnly (s : State) (cores : List PrepCore) (code cause : Nat) :
    CompletesOnly s (stopCores s cores code cause) := by
  refine List.foldlRecOn (motive := CompletesOnly s) cores _ (.refl s) fun t h c _ => ?_
  split
  · exact h.trans (stopCore_completesOnly ..)
  · exact h

theorem running_stopCores {s : State} {cores : List PrepCore} {k : PrepCore} (hk : k ∈ cores) (code cause : Nat) :
    fbit (stopCores s cores code cause) (corePage k) F.PREP_STS_RUNNING = false := by
  refine foldl_of_mem (P := fun t : State => fbit t (corePage k) F.PREP_STS_RUNNING = false) hk (fun t => ?_) (fun t c _ _ ht => ?_) s
  · split
    · exact running_haltCore ..
    · next h => exact Bool.eq_false_iff.2 h
  · split
    · exact running_stopCore t c k code cause 0 ht
    · exact ht

theorem runWatchExpire_answers {s : State} {c : CmdId} {x : Cmd} (h : findCmd s c = some x) (ho : cOp x = 0x10)
    (hp : x.phase = .running) {k : PrepCore} (hk : k ∈ penCores x.die x.pen) (hc : (getCore s k).cmd = c)
    (hr : fbit s (corePage k) F.PREP_STS_RUNNING = true) :
    Answers (.runWatchExpire c) s fun t => fbit t (corePage k) F.PREP_STS_RUNNING = false ∧ t.mem = s.mem := by
  obtain ⟨mine, hm⟩ : ∃ mine, mine = (penCores x.die x.pen).filter fun k => (getCore s k).cmd == c &&
      fbit s (corePage k) F.PREP_STS_RUNNING := ⟨_, rfl⟩
  have hmem : k ∈ mine := hm ▸ List.mem_filter.2 ⟨hk, by rw [hc, hr, beq_self_eq_true]; rfl⟩
  have hne : mine.isEmpty = false := by
    cases mine with
    | nil => cases hmem
    | cons => rfl
  refine ⟨stopCores (watchNote s (x.die / 4) 2 (pgPENPREP x.die x.pen)) mine stTIMEOUT 4, ?_, running_stopCores hmem ..,
    (stopCores_completesOnly ..).keeps_mem.trans (watchNote_counts ..).keeps_mem⟩
  show Host.Outcome.next _ = _
  rw [h]
  dsimp only
  rw [← hm, ho, hp, hne]
  rfl

/-! ## Units -/

/-- `t` differs from `s` in reports, in what is kept of hangs and in the units that are offline. -/
def HangOnly (s t : State) : Prop := t = { s with
  regs := t.regs, cnt := t.cnt, out := t.out, fltLog := t.fltLog, rst := t.rst, offline := t.offline }

theorem HangOnly.trans {s t u : State} (h : HangOnly s t) (k : HangOnly t u) : HangOnly s u := by
  unfold HangOnly at h k ⊢
  rw [k, h]

theorem Counts.hangOnly {s t : State} (h : Counts s t) : HangOnly s t := by
  unfold Counts at h
  unfold HangOnly
  rw [h]

section
variable {s t : State} (h : HangOnly s t)
include h

theorem HangOnly.keeps_mem : t.mem = s.mem := by
  unfold HangOnly at h
  rw [h]

theorem HangOnly.keeps_drvs : t.drvs = s.drvs := by
  unfold HangOnly at h
  rw [h]

theorem HangOnly.keeps_trn : t.trn = s.trn := by
  unfold HangOnly at h
  rw [h]

theorem HangOnly.keeps_hatches : t.hatches = s.hatches := by
  unfold HangOnly at h
  rw [h]

theorem HangOnly.ended {id : CmdId} {r : Res} (he : Ended s id r) : Ended t id r := by
  have hc : t.cmds = s.cmds := by
    unfold HangOnly at h
    rw [h]
  obtain ⟨y, hy, hd⟩ := he
  refine ⟨y, ?_, hd⟩
  unfold findCmd at hy ⊢
  rwa [hc]

end

/-- A hang of a unit on page `page` of tile `t` is counted and logged, and its time kept (R459). -/
def hangTold (s : State) (t page : Nat) : State :=
  putRst (logFault (bump s (pgSHEEP t) 8) 0x13 0 (slotOf page) (blkOf page)) fun r =>
    { r with hangs := mput r.hangs page (herdTime (logFault (bump s (pgSHEEP t) 8) 0x13 0 (slotOf page) (blkOf page))) }

/-- The unit is offline (R460). -/
def unitGone (s : State) (t page : Nat) : State :=
  logFault (bump { s with offline := mput s.offline page () } (pgSHEEP t) 9) 0x07 0 (slotOf page) (blkOf page)

theorem putRst_hangOnly (s : State) (f : RstSt → RstSt) : HangOnly s (putRst s f) := rfl

theorem hangTold_hangOnly (s : State) (t page : Nat) : HangOnly s (hangTold s t page) :=
  ((bump_counts ..).trans (logFault_counts ..)).hangOnly.trans (putRst_hangOnly ..)

theorem hangs_hangTold (s : State) (t page : Nat) : (mget (hangTold s t page).rst.hangs page).isSome = true := by
  show (mget (mput _ page _) page).isSome = true
  rw [mget_mput, if_pos rfl]
  rfl

theorem unitGone_hangOnly (s : State) (t page : Nat) : HangOnly s (unitGone s t page) := by
  have hput : HangOnly s { s with offline := mput s.offline page () } := rfl
  exact hput.trans ((bump_counts ..).trans (logFault_counts ..)).hangOnly

theorem offline_unitGone (s : State) (t page : Nat) : (mget (unitGone s t page).offline page).isSome = true := by
  have e : (unitGone s t page).offline = mput s.offline page () :=
    ((bump_counts { s with offline := mput s.offline page () } (pgSHEEP t) 9).trans (logFault_counts ..)).keeps_offline
  rw [e, mget_mput, if_pos rfl]
  rfl

theorem unitExpire_of_idle {s : State} {u : UnitId} (h : watchPaused s u = true ∨ unitWorks s u = false) (again : Bool) :
    unitExpire s u again = s := by
  have hskip : (watchPaused s u || !unitWorks s u) = true := by
    obtain h | h := h <;> rw [h]
    · rfl
    · exact Bool.or_true _
  unfold unitExpire
  split
  · rfl
  · exact if_pos hskip

section
variable {s : State} {u : UnitId} {t row page : Nat} {die : Option Nat} (hr : unitReport u = some (t, row, page, die))
  (hp : watchPaused s u = false) (hw : unitWorks s u = true)
include hr hp hw

/-- A hang after which the unit stays in use. -/
theorem unitExpire_first : unitExpire s u false = hangTold (unitHang (watchNote s t row page) u) t page := by
  unfold unitExpire
  rw [hr]
  dsimp only
  rw [hp, hw, if_neg (by decide)]
  rfl

/-- A hang of a unit of no die: the second within 1 s takes it offline. -/
theorem unitExpire_again (hd : die = none) (hu : ∀ a, u ≠ .array a) : unitExpire s u true =
    if (mget (unitHang (watchNote s t row page) u).rst.hangs page).isSome then
      unitGone (hangTold (unitHang (watchNote s t row page) u) t page) t page
    else hangTold (unitHang (watchNote s t row page) u) t page := by
  subst hd
  have hhangs (v : State) : (logFault (bump v (pgSHEEP t) 8) 0x13 0 (slotOf page) (blkOf page)).rst = v.rst :=
    ((bump_counts ..).trans (logFault_counts ..)).keeps_rst
  unfold unitExpire
  rw [hr]
  dsimp only
  rw [hp, hw, if_neg (by decide), hhangs, Bool.true_and]
  generalize unitHang (watchNote s t row page) u = v
  unfold unitGone hangTold
  cases (mget v.rst.hangs page).isSome with
  | false => rfl
  | true =>
    rw [if_neg (by decide), if_pos rfl]
    cases u with
    | array a => exact absurd rfl (hu a)
    | _ => rfl

/-- Either way the hang of a unit of no die leaves what its command's end left, and a second one takes it offline. -/
theorem unitExpire_shared (hd : die = none) (hu : ∀ a, u ≠ .array a) (again : Bool) :
    HangOnly (unitHang (watchNote s t row page) u) (unitExpire s u again) ∧
      (again = true → (mget (unitHang (watchNote s t row page) u).rst.hangs page).isSome = true →
        (mget (unitExpire s u again).offline page).isSome = true) := by
  cases again with
  | false =>
    rw [unitExpire_first hr hp hw]
    exact ⟨hangTold_hangOnly .., nofun⟩
  | true =>
    rw [unitExpire_again hr hp hw hd hu]
    split
    · exact ⟨(hangTold_hangOnly ..).trans (unitGone_hangOnly ..), fun _ _ => offline_unitGone ..⟩
    · next h => exact ⟨hangTold_hangOnly .., fun _ h2 => absurd h2 h⟩

end

/-! ### Hatches -/

theorem listCheckEnd_hatches (s : State) (d p : Nat) : (listCheckEnd s d p).hatches = s.hatches := by
  unfold listCheckEnd
  split
  · rfl
  · dsimp only
    split
    · rfl
    · exact (finishCmd_completesOnly ..).keeps_hatches

theorem descDone_hatches (s : State) (x : Issue) (r : Res) : (descDone s x r).hatches = s.hatches := by
  unfold descDone
  split
  · exact (finishCmd_completesOnly ..).keeps_hatches
  · exact (countFault_counts ..).keeps_hatches
  · split
    · rfl
    · exact listCheckEnd_hatches ..

theorem getHatch_congr {s t : State} (h : t.hatches = s.hatches) (d p : Nat) : getHatch t d p = getHatch s d p := by
  unfold getHatch
  rw [h]

theorem getHatch_putHatch_same (s : State) (d p : Nat) (x : HatchSt) : getHatch (putHatch s d p x) d p = x :=
  (mgetD_mput ..).trans (if_pos rfl)

theorem run_flushHatch (s : State) (d p : Nat) : (getHatch (flushHatch s d p) d p).run = (getHatch s d p).run := by
  have hfold (l : List (Issue × Res)) (t : State) : (l.foldl (fun s e => descDone s e.1 e.2) t).hatches = t.hatches :=
    List.foldlRecOn (motive := fun u : State => u.hatches = t.hatches) l _ rfl fun _ h e _ => (descDone_hatches ..).trans h
  unfold flushHatch
  dsimp only
  rw [getHatch_congr (hfold ..), getHatch_putHatch_same]

theorem hatchLog_counts (s : State) (d p cause ctx : Nat) : Counts s (hatchLog s d p cause ctx) := by
  refine counts_ite (.refl s) (Counts.trans ?_ (setLogged_counts ..))
  rfl

theorem run_hatchEnd (s : State) (d p : Nat) (x : Issue) (r : Res) : (getHatch (hatchEnd s d p x r) d p).run = none := by
  have hcount (t : State) : Counts t (if r.code = stPOISON then bump t (pgHATCH d p) 5
      else if r.code = stTIER then bump t (pgHATCH d p) 6 else t) :=
    counts_ite (bump_counts ..) (counts_ite (bump_counts ..) (.refl t))
  unfold hatchEnd
  rw [run_flushHatch, getHatch_congr (descDone_hatches ..),
    getHatch_congr (((bump_counts ..).trans ((hcount _).trans (hatchLog_counts ..))).keeps_hatches), getHatch_putHatch_same]

theorem hatchWatch_answers {s : State} {d p : Nat} {r : HatchRun} (hd : d < 16) (hp : p < 9)
    (hpause : watchPaused s (.hatch d p) = false) (hr : (getHatch s d p).run = some r) :
    Answers (.unitWatchExpire (.hatch d p) false) s fun t => (getHatch t d p).run = none ∧
      (mget t.rst.hangs (pgHATCH d p)).isSome = true := by
  have hrep : unitReport (.hatch d p) = some (d / 4, 3, pgHATCH d p, some d) := by
    unfold unitReport
    simp [hd, hp]
  have hworks : unitWorks s (.hatch d p) = true := by
    unfold unitWorks
    simp [hr]
  obtain ⟨w, hw⟩ : ∃ w, w = watchNote s (d / 4) 3 (pgHATCH d p) := ⟨_, rfl⟩
  have hgone : (getHatch (unitHang w (.hatch d p)) d p).run = none := by
    have hsame : getHatch w d p = getHatch s d p := getHatch_congr (hw ▸ (watchNote_counts ..).keeps_hatches) d p
    unfold unitHang
    dsimp only
    rw [hsame, hr]
    exact run_hatchEnd ..
  refine ⟨_, congrArg Host.Outcome.next (unitExpire_first hrep hpause hworks), ?_, hangs_hangTold ..⟩
  rw [← hw, getHatch_congr (hangTold_hangOnly ..).keeps_hatches]
  exact hgone

/-! ### Etch units and Drover engines -/

/-- What an Etch unit's end leaves, but for its command's. -/
def etchLeft (s : State) (t u : Nat) (r : Res) : State :=
  let s := bump (putTrn s fun x => { x with units := mdel x.units (t * 8 + u) }) (pgETCH t u) 0
  if r.code = stPOISON then bump s (pgETCH t u) 8 else s

theorem etchEnd_eq (s : State) (t u : Nat) (id : CmdId) (r : Res) : etchEnd s t u id r = finishCmd (etchLeft s t u r) id r := rfl

theorem etchLeft_counts (s : State) (t u : Nat) (r : Res) :
    Counts (putTrn s fun x => { x with units := mdel x.units (t * 8 + u) }) (etchLeft s t u r) :=
  counts_ite ((bump_counts ..).trans (bump_counts ..)) (bump_counts ..)

theorem getEtch_etchEnd (s : State) (t u : Nat) (id : CmdId) (r : Res) : getEtch (etchEnd s t u id r) t u = none := by
  unfold getEtch
  rw [etchEnd_eq, finishCmd_units, (etchLeft_counts ..).keeps_trn]
  exact (mget_mdel ..).trans (if_pos rfl)

theorem etchEnd_mem (s : State) (t u : Nat) (id : CmdId) (r : Res) : (etchEnd s t u id r).mem = s.mem :=
  (finishCmd_completesOnly ..).keeps_mem.trans (etchLeft_counts ..).keeps_mem

theorem etchEnd_rst (s : State) (t u : Nat) (id : CmdId) (r : Res) : (etchEnd s t u id r).rst = s.rst :=
  (finishCmd_completesOnly ..).keeps_rst.trans (etchLeft_counts ..).keeps_rst

/-- What a Drover engine's end leaves, but for its command's. -/
def droverLeft (s : State) (t e : Nat) (r : Res) : State :=
  let s := bump { s with drvs := mdel s.drvs (t * 16 + e) } (pgDRV t e) 0
  if r.code = stTIER then bump s (pgDRV t e) 9 else if r.code = stPOISON then bump s (pgDRV t e) 10 else s

theorem droverEnd_eq (s : State) (t e : Nat) (r : DrvRun) (codes : List Nat) :
    droverEnd s t e r codes = finishCmd (droverLeft s t e (resOf codes)) r.cmd (resOf codes) := rfl

theorem droverLeft_counts (s : State) (t e : Nat) (r : Res) :
    Counts { s with drvs := mdel s.drvs (t * 16 + e) } (droverLeft s t e r) :=
  counts_ite ((bump_counts ..).trans (bump_counts ..)) (counts_ite ((bump_counts ..).trans (bump_counts ..)) (bump_counts ..))

theorem getDrv_droverEnd (s : State) (t e : Nat) (r : DrvRun) (codes : List Nat) : getDrv (droverEnd s t e r codes) t e = none := by
  unfold getDrv
  rw [droverEnd_eq, (finishCmd_completesOnly ..).keeps_drvs, (droverLeft_counts ..).keeps_drvs]
  exact (mget_mdel ..).trans (if_pos rfl)

theorem droverEnd_mem (s : State) (t e : Nat) (r : DrvRun) (codes : List Nat) : (droverEnd s t e r codes).mem = s.mem :=
  (finishCmd_completesOnly ..).keeps_mem.trans (droverLeft_counts ..).keeps_mem

section
variable {s : State} {id : CmdId} {x : Cmd} (h : findCmd s id = some x) (hp : x.phase ≠ .done)
include h hp

theorem ended_etchEnd (t u : Nat) (r : Res) : Ended (etchEnd s t u id r) id r :=
  ended_finishCmd (((etchLeft_counts ..).accessOnly.findCmd id).trans h) hp r

theorem ended_droverEnd (t e : Nat) {r : DrvRun} (hr : r.cmd = id) (codes : List Nat) :
    Ended (droverEnd s t e r codes) id (resOf codes) := by
  subst hr
  exact ended_finishCmd (((droverLeft_counts ..).accessOnly.findCmd r.cmd).trans h) hp _

end

theorem etchWatch_answers {s : State} {e u : Nat} {r : EtchRun} {c : Cmd} (he : e < 4) (hu : u < 8)
    (hpause : watchPaused s (.etch e u) = false) (hr : getEtch s e u = some r) (hc : findCmd s r.id = some c)
    (hp : c.phase ≠ .done) (again : Bool) : Answers (.unitWatchExpire (.etch e u) again) s fun t => getEtch t e u = none ∧
      Ended t r.id (resOf (r.codes ++ [stTIMEOUT])) ∧ t.mem = s.mem ∧
      (again = true → (mget s.rst.hangs (pgETCH e u)).isSome = true → (mget t.offline (pgETCH e u)).isSome = true) := by
  have hrep : unitReport (.etch e u) = some (e, 4, pgETCH e u, none) := by
    unfold unitReport
    simp [he, hu]
  have hworks : unitWorks s (.etch e u) = true := by
    unfold unitWorks
    simp [hr]
  obtain ⟨w, hw⟩ : ∃ w, w = watchNote s e 4 (pgETCH e u) := ⟨_, rfl⟩
  have hcounts : Counts s w := hw ▸ watchNote_counts ..
  have hhang : unitHang w (.etch e u) = idleStream (etchEnd w e u r.id (resOf (r.codes ++ [stTIMEOUT]))) (.etch e u) := by
    unfold unitHang
    dsimp only
    rw [hcounts.keeps_trn, show mget s.trn.units (e * 8 + u) = some r from hr]
  obtain ⟨hleft, hagain⟩ := unitExpire_shared hrep hpause hworks rfl nofun again
  rw [← hw, hhang] at hleft hagain
  refine ⟨_, rfl, ?_, hleft.ended ?_, ?_, fun ha hs => hagain ha ?_⟩
  · unfold getEtch
    rw [hleft.keeps_trn]
    exact getEtch_etchEnd ..
  · exact ended_etchEnd ((hcounts.accessOnly.findCmd r.id).trans hc) hp e u _
  · exact hleft.keeps_mem.trans ((etchEnd_mem ..).trans hcounts.keeps_mem)
  · show (mget (etchEnd ..).rst.hangs _).isSome = true
    rwa [etchEnd_rst, hcounts.keeps_rst]

theorem droverWatch_answers {s : State} {e u : Nat} {r : DrvRun} {c : Cmd} (he : e < 4) (hu : u < 16)
    (hpause : watchPaused s (.drover e u) = false) (hr : getDrv s e u = some r) (hc : findCmd s r.cmd = some c)
    (hp : c.phase ≠ .done) (again : Bool) : Answers (.unitWatchExpire (.drover e u) again) s fun t => getDrv t e u = none ∧
      Ended t r.cmd (resOf (r.codes ++ [stTIMEOUT])) ∧ t.mem = s.mem := by
  have hrep : unitReport (.drover e u) = some (e, 4, pgDRV e u, none) := by
    unfold unitReport
    simp [he, hu]
  have hworks : unitWorks s (.drover e u) = true := by
    unfold unitWorks
    simp [hr]
  obtain ⟨w, hw⟩ : ∃ w, w = watchNote s e 4 (pgDRV e u) := ⟨_, rfl⟩
  have hcounts : Counts s w := hw ▸ watchNote_counts ..
  have hhang : unitHang w (.drover e u) = idleStream (droverEnd w e u r (r.codes ++ [stTIMEOUT])) (.drover e u) := by
    have hsame : getDrv w e u = some r := by
      unfold getDrv at hr ⊢
      rwa [hcounts.keeps_drvs]
    unfold unitHang
    dsimp only
    rw [hsame]
  obtain ⟨hleft, -⟩ := unitExpire_shared hrep hpause hworks rfl nofun again
  rw [← hw, hhang] at hleft
  refine ⟨_, rfl, ?_, hleft.ended ?_, ?_⟩
  · unfold getDrv
    rw [hleft.keeps_drvs]
    exact getDrv_droverEnd ..
  · exact ended_droverEnd ((hcounts.accessOnly.findCmd r.cmd).trans hc) hp e u rfl _
  · exact hleft.keeps_mem.trans ((droverEnd_mem ..).trans hcounts.keeps_mem)

/-! ## Memory whose contents are undefined -/

/-- `t` differs from `s` in memory, its poison and undefined ranges, the copies of lines, and free values drawn. -/
def MemoryOnly (s t : State) : Prop := t = { s with
  mem := t.mem, undefs := t.undefs, poison := t.poison, coh := t.coh, free := t.free }

theorem MemoryOnly.refl (s : State) : MemoryOnly s s := rfl

theorem MemoryOnly.trans {s t u : State} (h : MemoryOnly s t) (k : MemoryOnly t u) : MemoryOnly s u := by
  unfold MemoryOnly at h k ⊢
  rw [k, h]

theorem MemoryOnly.ite {s t u : State} {c : Prop} [Decidable c] (h : MemoryOnly s t) (k : MemoryOnly s u) :
    MemoryOnly s (if c then t else u) := by
  split
  · exact h
  · exact k

theorem foldl_memoryOnly {α : Type} {g : State → α → State} (hg : ∀ s x, MemoryOnly s (g s x)) (l : List α) (s : State) :
    MemoryOnly s (l.foldl g s) :=
  List.foldlRecOn (motive := MemoryOnly s) l g (.refl s) fun _ h x _ => h.trans (hg _ x)

section
variable {s t : State} (h : MemoryOnly s t)
include h

theorem MemoryOnly.keeps_regs : t.regs = s.regs := by
  unfold MemoryOnly at h
  rw [h]

theorem MemoryOnly.keeps_rst : t.rst = s.rst := by
  unfold MemoryOnly at h
  rw [h]

theorem MemoryOnly.keeps_cmds : t.cmds = s.cmds := by
  unfold MemoryOnly at h
  rw [h]

theorem MemoryOnly.findCmd (id : CmdId) : findCmd t id = Machine.findCmd s id := by
  unfold Machine.findCmd
  rw [h.keeps_cmds]

end

section
variable (s : State)

theorem recallLine_memoryOnly (line : Nat) : MemoryOnly s (recallLine s line) := by
  have hcoh (t : State) (c : CohSt) : MemoryOnly t { t with coh := c } := rfl
  have hstore (bs : List Byte) (p : Bool) : MemoryOnly s (storeBytes s (line * 256) bs p) := by
    have hp := storeBytes_poisonOnly s (line * 256) bs p
    unfold PoisonOnly at hp
    rw [writeBytes_eq_setMem] at hp
    unfold MemoryOnly
    rw [hp]
  unfold recallLine
  dsimp only
  split
  · exact (hstore ..).trans (hcoh ..)
  · exact hcoh ..

theorem makeUndef_memoryOnly (lo hi : Nat) : MemoryOnly s (makeUndef s lo hi) := rfl

theorem undefLines_memoryOnly (lo hi : Nat) : MemoryOnly s (undefLines s lo hi) :=
  (foldl_memoryOnly recallLine_memoryOnly ..).trans (makeUndef_memoryOnly ..)

theorem recallRange_memoryOnly (pa n : Nat) : MemoryOnly s (recallRange s pa n) :=
  .ite (.refl s) (foldl_memoryOnly (fun _ _ => recallLine_memoryOnly ..) ..)

theorem undefRange_memoryOnly (x : StreamId) (who : Who) (ctx va n : Nat) : MemoryOnly s (undefRange s x who ctx va n) := by
  unfold undefRange
  refine foldl_memoryOnly (fun t l => ?_) ..
  split
  · exact .ite ((recallRange_memoryOnly ..).trans (makeUndef_memoryOnly ..)) (.refl t)
  · exact .refl t

theorem undefVa_memoryOnly (x : StreamId) (ctx va n : Nat) : MemoryOnly s (undefVa s x ctx va n) := by
  unfold undefVa
  split
  · exact .refl s
  · refine foldl_memoryOnly (fun t l => ?_) ..
    split
    · exact .ite (.refl t) (undefLines_memoryOnly ..)
    · exact undefLines_memoryOnly ..
    · exact .refl t

theorem colUndef_memoryOnly (x : ColSt) : MemoryOnly s (colUndef s x) := by
  unfold colUndef
  split
  · exact .refl s
  · exact foldl_memoryOnly (fun _ _ => undefRange_memoryOnly ..) ..

end

/-! ## Collectives that end -/

/-- What a collective's end leaves, but for its command's. -/
def colLeft (s : State) (x : ColSt) (r : Res) : State :=
  let s := if r.code = stTIER then colUndef s x else s
  let s := { s with trn := colNotes s.trn x.team x.cseq r.code }
  let s := putFab s fun b => { b with cols := b.cols.filter fun y => !(y.team == x.team && y.cseq == x.cseq) }
  let s := bump s (pgCOLL x.tile 0) 0
  if r.code = stOVERFLOW then bump s (pgCOLL x.tile 0) 11 else if r.code = stNOTE then bump s (pgCOLL x.tile 0) 12
  else if r.code = stABORT then bump s (pgCOLL x.tile 0) 13 else if r.code = stPEER then bump s pgFAB 11 else s

theorem colEnd_eq (s : State) (x : ColSt) (r : Res) : colEnd s x r = finishCmd (colLeft s x r) x.id r := rfl

/-- A collective's end, reports apart: the lines it may have written are undefined, and it is told and gone. -/
theorem colLeft_counts (s : State) (x : ColSt) (r : Res) : ∃ t, MemoryOnly s t ∧ Counts
    (putFab { t with trn := colNotes t.trn x.team x.cseq r.code } fun b =>
      { b with cols := b.cols.filter fun y => !(y.team == x.team && y.cseq == x.cseq) }) (colLeft s x r) := by
  have hb (t : State) (pg n : Nat) := bump_counts t pg n
  have hcount (t : State) : Counts t (if r.code = stOVERFLOW then bump t (pgCOLL x.tile 0) 11
      else if r.code = stNOTE then bump t (pgCOLL x.tile 0) 12
      else if r.code = stABORT then bump t (pgCOLL x.tile 0) 13 else if r.code = stPEER then bump t pgFAB 11 else t) :=
    counts_ite (hb ..) (counts_ite (hb ..) (counts_ite (hb ..) (counts_ite (hb ..) (.refl t))))
  exact ⟨if r.code = stTIER then colUndef s x else s, .ite (colUndef_memoryOnly ..) (.refl s), (hb ..).trans (hcount _)⟩

theorem findCol_colEnd (s : State) (x : ColSt) (r : Res) : findCol (colEnd s x r) x.team x.cseq = none := by
  obtain ⟨t, -, hc⟩ := colLeft_counts s x r
  unfold findCol
  rw [colEnd_eq, (finishCmd_completesOnly ..).keeps_fab, hc.keeps_fab]
  refine List.find?_eq_none.2 fun y hy hfound => ?_
  have hkept := (List.mem_filter.1 hy).2
  rw [hfound] at hkept
  exact nomatch hkept

theorem findCmd_colLeft (s : State) (x : ColSt) (r : Res) (id : CmdId) : findCmd (colLeft s x r) id = findCmd s id := by
  obtain ⟨t, ht, hc⟩ := colLeft_counts s x r
  exact (hc.accessOnly.findCmd id).trans (ht.findCmd id)

theorem ended_colEnd {s : State} {x : ColSt} {c : Cmd} (h : findCmd s x.id = some c) (hp : c.phase ≠ .done) (r : Res) :
    Ended (colEnd s x r) x.id r := ended_finishCmd ((findCmd_colLeft ..).trans h) hp r

/-! ## Requests below that wait too long -/

theorem etchTimeout_answers {s : State} {t e : Nat} (ht : t < 4) (he : e < 8) (hr : (getEtch s t e).isSome = true)
    (hb : (etchAsks s t e).any (askBelow s) = true) : Answers (.tierRequestTimeout (.etch t e)) s fun u =>
      exec (.etchBlock t e (.error stTIER)) s = .next u := by
  refine ⟨etchStep s t e (.error stTIER), ?_, congrArg Host.Outcome.next (if_pos ⟨ht, he⟩)⟩
  exact congrArg Host.Outcome.next ((if_pos ⟨ht, he, hb⟩).trans (if_pos hr))

theorem droverTimeout_answers {s : State} {t e pa : Nat} {r : DrvRun} (ht : t < 4) (he : e < 16) (hr : getDrv s t e = some r)
    (hb : engineBelow s t e = some pa) : Answers (.tierRequestTimeout (.drover t e)) s fun u =>
      exec (.droverLineResponse t e (.error stTIER)) (droverLog (bump s (pgDRV t e) 7) t e (tierCause pa true) r.cmd.ctx pa) =
        .next u := by
  refine ⟨droverStep (droverLog (bump s (pgDRV t e) 7) t e (tierCause pa true) r.cmd.ctx pa) t e (.error stTIER), ?_,
    congrArg Host.Outcome.next (if_pos ⟨ht, he⟩)⟩
  refine congrArg Host.Outcome.next ((if_pos ⟨ht, he⟩).trans ?_)
  unfold droverTimeout
  dsimp only
  rw [hb, hr]

theorem colTimeout_answers {s : State} {t e : Nat} {x : ColSt} {c : Cmd}
    (hx : (s.fab.cols.find? fun x => x.tile == t && (colAsks s x).any (askBelow s)) = some x) (hc : findCmd s x.id = some c)
    (hp : c.phase ≠ .done) : Answers (.tierRequestTimeout (.coll t e)) s fun u => findCol u x.team x.cseq = none ∧
      Ended u x.id (resOf (x.codes ++ [stTIER])) := by
  refine ⟨colEnd s x (resOf (x.codes ++ [stTIER])), ?_, findCol_colEnd .., ended_colEnd hc hp _⟩
  show Host.Outcome.next _ = _
  dsimp only
  rw [hx]

end Sys2Proof.Machine
end

section
/-! An agent that owes a snoop answer (R286 to R288): the home's transactions write headers and error logs only, so an agent
declared dead stays so. -/

namespace Sys2Proof.Machine

open Sys2Proof

/-! ## Transactions -/

section
variable (s : State) (line : Nat)

theorem resp_quiet (r : Resp) : QuietKept s { s with resp := r } := .of_regs rfl

theorem homeAtomic_quiet (op : AtomOp) (size : Nat) (x : AtomArg) : QuietKept s (homeAtomic s line op size x).1 := by
  have hw (t : State) (bs : List Byte) : QuietKept t (writeBytes t line bs) := .of_regs (by rw [writeBytes_eq_setMem])
  have hb (n : Nat) : QuietKept s (bump (homeTouch s (lineOf line)) (pgCOH (homeOf s (lineOf line))) n) :=
    (homeTouch_quiet ..).trans (bump_quiet ..)
  exact .ite_fst (hb 7) (.ite ((hb 7).trans ((hw ..).trans (setPoison_quiet ..))) ((hb 7).trans (hw ..)))

theorem homePerformWrite_quiet (mask : List Bool) (data : List Byte) (p : Bool) :
    QuietKept s (homePerformWrite s line mask data p) :=
  .ite ((homeTouch_quiet ..).trans (resp_quiet ..)) ((homeWrite_quiet ..).trans (resp_quiet ..))

theorem homePerformAtom_quiet (op : AtomOp) (size : Nat) (x : AtomArg) : QuietKept s (homePerformAtom s line op size x) :=
  (homeAtomic_quiet ..).trans (resp_quiet ..)

theorem sendMsg_quiet (m : CohMsg) : QuietKept s (sendMsg s m) := putCoh_quiet ..

theorem sendAgent_quiet (agent : Nat) (m : CohMsg) : QuietKept s (sendAgent s agent m) := .ite (bump_quiet ..) (sendMsg_quiet ..)

theorem putTxn_quiet (t : Txn) : QuietKept s (putTxn s line t) := putCoh_quiet ..

theorem snoopAll_quiet (vec : Nat) (k : Snoop) (t : Txn) : QuietKept s (snoopAll s line vec k t) :=
  (bumpBy_quiet ..).trans ((foldl_keptAt (fun _ _ => sendMsg_quiet ..) ..).trans (putTxn_quiet ..))

theorem grantHome_quiet (a : Nat) (g : CopySt) (t : Txn) : QuietKept s (grantHome s line a g t) :=
  (homeTouch_quiet ..).trans ((sendAgent_quiet ..).trans ((sendAgent_quiet ..).trans (putTxn_quiet ..)))

theorem grantCmp_quiet (a : Nat) (t : Txn) : QuietKept s (grantCmp s line a t) :=
  (sendAgent_quiet ..).trans (putTxn_quiet ..)

theorem txnEnd_quiet : QuietKept s (txnEnd s line) := by
  have h (f : CohSt → CohSt) := putCoh_quiet s f
  unfold txnEnd
  dsimp only
  split
  · exact .ite ((h _).trans (resolveDead_quiet ..)) (h _)
  · exact .ite ((h _).trans (resolveDead_quiet ..)) (h _)
  · exact h _

theorem awaitDone_quiet (a : Nat) : QuietKept s (awaitDone s line a) := .ite (txnEnd_quiet ..) (.refl s)

theorem settle_quiet : QuietKept s (settle s line) := by
  have hdir (v : Nat) (b : Bool) := dirPut_quiet s line v b
  have hgrant (u : State) (a : Nat) (g : CopySt) (t : Txn) : QuietKept u (awaitDone (grantHome u line a g t) line a) :=
    (grantHome_quiet ..).trans (awaitDone_quiet ..)
  have hcmp (u : State) (a : Nat) (t : Txn) : QuietKept u (awaitDone (grantCmp u line a t) line a) :=
    (grantCmp_quiet ..).trans (awaitDone_quiet ..)
  have hanswer (u : State) (r : Resp) : QuietKept u (txnEnd { u with resp := r } line) :=
    (resp_quiet ..).trans (txnEnd_quiet ..)
  unfold settle
  split
  · exact .refl s
  · refine .ite (.refl s) ?_
    dsimp only
    split
    · exact .ite ((hdir ..).trans (hcmp ..)) (.ite ((hdir ..).trans (hgrant ..)) ((hdir ..).trans (hgrant ..)))
    · exact .ite ((hdir ..).trans (hcmp ..)) ((hdir ..).trans (hgrant ..))
    · exact .ite (hanswer ..) (.ite ((homeTouch_quiet ..).trans (hanswer ..))
        ((homeTouch_quiet ..).trans ((dirPut_quiet ..).trans (hanswer ..))))
    · exact (hdir ..).trans ((homePerformWrite_quiet ..).trans (txnEnd_quiet ..))
    · exact (hdir ..).trans ((homePerformAtom_quiet ..).trans (txnEnd_quiet ..))
    · exact (hdir ..).trans (txnEnd_quiet ..)
    · exact (hdir ..).trans (txnEnd_quiet ..)

/-- A home's acceptance of a request, once the lookup has resolved the dead agents it finds. -/
theorem accept_quiet (r : CohReq) : QuietKept s (accept s line r) := by
  have hlook (u : State) (hu : QuietKept s u) : QuietKept s (if r == .recover then
      unreadable (((List.range 6).filter (agentDead u)).foldl (fun s a => resolveDead s line a) u) line
      else ((List.range 6).filter (agentDead u)).foldl (fun s a => resolveDead s line a) u) := by
    have hfold := hu.trans (foldl_keptAt (fun t a => resolveDead_quiet t line a) ((List.range 6).filter (agentDead u)) u)
    exact .ite (hfold.trans (unreadable_quiet ..)) hfold
  have hsettle (u : State) (t : Txn) : QuietKept u (settle (putTxn u line t) line) :=
    (putTxn_quiet ..).trans (settle_quiet ..)
  have hsnoop (u : State) (v : Nat) (k : Snoop) (t : Txn) : QuietKept u (settle (snoopAll u line v k t) line) :=
    (snoopAll_quiet ..).trans (settle_quiet ..)
  have hgrant (u : State) (a : Nat) (g : CopySt) (t : Txn) : QuietKept u (awaitDone (grantHome u line a g t) line a) :=
    (grantHome_quiet ..).trans (awaitDone_quiet ..)
  have hcount : QuietKept s (if (reqSource r).isSome then bump s (pgCOH (homeOf s line)) 0 else s) :=
    .ite (bump_quiet ..) (.refl s)
  have hfound := hlook _ (hcount.trans (putCoh_quiet _ fun c => { c with
    used := if (mget c.dir line).isSome then mput c.used line c.clock else c.used
    clock := c.clock + 1 }))
  unfold accept
  dsimp only
  split
  · exact hfound.trans (hsettle ..)
  · split
    · exact .ite (hfound.trans ((dirPut_quiet ..).trans (hgrant ..))) (.ite (hfound.trans (hgrant ..)) (hfound.trans (hsnoop ..)))
    · exact .ite (hfound.trans ((homeTouch_quiet ..).trans ((sendAgent_quiet ..).trans (hsnoop ..))))
        (.ite (hfound.trans (hgrant ..)) (hfound.trans (hsnoop ..)))
    · exact .ite (hfound.trans (hsnoop ..)) (hfound.trans (hsettle ..))
    · exact hfound.trans (hsnoop ..)

theorem makeRoom_quiet : QuietKept s (makeRoom s line) := by
  unfold makeRoom
  refine .ite (.refl s) ?_
  split
  · exact .refl s
  · exact (bump_quiet ..).trans (accept_quiet ..)

end

/-! ## Requests that wait -/

theorem pumpWaiting_quiet (l kept : List (Nat × CohReq)) (s : State) : QuietKept s (pumpWaiting s l kept) := by
  induction l generalizing s kept with
  | nil => exact putCoh_quiet ..
  | cons e rest ih =>
    have hroom := makeRoom_quiet s e.1
    unfold pumpWaiting
    exact .ite (ih ..) (.ite (.ite (hroom.trans (ih ..)) (hroom.trans ((accept_quiet ..).trans (ih ..))))
      ((accept_quiet ..).trans (ih ..)))

theorem arriveHeld_quiet (l kept : List (Nat × CohReq × HomeEcc)) (s : State) : QuietKept s (arriveHeld s l kept) := by
  induction l generalizing s kept with
  | nil => exact putCoh_quiet ..
  | cons e rest ih =>
    unfold arriveHeld
    exact .ite (ih ..) ((homeEcc_quiet ..).trans ((putCoh_quiet ..).trans (ih ..)))

theorem pumpN_quiet (n : Nat) (s : State) : QuietKept s (pumpN n s) := by
  induction n generalizing s with
  | zero => exact .refl s
  | succ n ih =>
    have h : QuietKept s (pumpWaiting (arriveHeld s s.coh.held []) (arriveHeld s s.coh.held []).coh.queue []) :=
      (arriveHeld_quiet ..).trans (pumpWaiting_quiet ..)
    exact .ite h (h.trans (ih _))

theorem pump_quiet (s : State) : QuietKept s (pump s) := pumpN_quiet ..

/-! ## A dead agent -/

section
variable (s : State) (agent line : Nat)

theorem answered_quiet (f : Txn → Txn) : QuietKept s (answered s agent line f) := by
  have hend (u : State) (t : Txn) : QuietKept u (pump (settle (putTxn u line t) line)) :=
    (putTxn_quiet ..).trans ((settle_quiet ..).trans (pump_quiet ..))
  unfold answered
  split
  · exact .refl s
  · dsimp only
    split
    · exact KeptAt.trans (.ite (sendAgent_quiet ..) (.refl s)) (hend ..)
    · exact hend ..

theorem answerForDead_quiet : QuietKept s (answerForDead s agent line) := by
  unfold answerForDead
  split
  · exact .refl s
  · refine .ite (KeptAt.trans (.ite ?_ (.refl s)) (answered_quiet ..)) (.refl s)
    exact KeptAt.trans (t := setFly s line none) (putCoh_quiet ..) (poisonLine_quiet ..)

/-- Every tile shows the agent dead. -/
def deadShown (s : State) : State :=
  (List.range 4).foldl (fun s t => fput (forBits s (pgCOH t) F.COH_STS_DEAD (2 ^ agent)) (pgCOH t) F.COH_STS_RECLAIM_BUSY 1)
    (logFault s 0x12 0 agent 0)

theorem agentDies_quiet (h : agentDead s agent = false) (ha : agent < 6) : QuietKept (deadShown agent s) (agentDies s agent) := by
  have hbusy (t : State) (l : List Nat) : QuietKept t (l.foldl (fun s l => match mget s.coh.txns l with
      | some t =>
        if t.granted && (t.req == .rdS agent || t.req == .rdX agent) && !(s.coh.msgs.any (msgFrom agent l))
        then pump (txnEnd s l) else s
      | none => s) t) := by
    refine foldl_keptAt (fun u l => ?_) ..
    split
    · exact .ite ((txnEnd_quiet ..).trans (pump_quiet ..)) (.refl u)
    · exact .refl u
  have hlines (t : State) (l : List Nat) : QuietKept t (l.foldl (fun s l =>
      if (mget s.coh.txns l).isSome || s.coh.msgs.any (msgFrom agent l) then s else resolveDead s l agent) t) :=
    foldl_keptAt (fun u _ => .ite (.refl u) (resolveDead_quiet ..)) ..
  have hskip : ¬ (agentDead s agent || decide (6 ≤ agent)) = true := by
    rw [h, Bool.false_or, decide_eq_true_iff]
    omega
  unfold agentDies
  rw [if_neg hskip]
  exact (foldl_keptAt (fun _ _ => bump_quiet ..) ..).trans ((putCoh_quiet ..).trans
    ((foldl_keptAt (fun _ _ => answerForDead_quiet ..) ..).trans ((hbusy ..).trans (hlines ..))))

end

theorem agentDead_deadShown (s : State) {agent : Nat} (ha : agent < 6) : agentDead (deadShown agent s) agent = true := by
  refine foldl_of_mem (P := fun t : State => agentDead t agent = true) (a := 0) (by decide) (fun t => ?_)
    (fun t x hx hne ht => ?_) _
  · unfold agentDead
    rw [fget_fput_ne _ _ _ (by decide)]
    exact testBit_forBits t _ _ (by exact ha) (by decide)
  · have hpage : pgCOH x ≠ pgCOH 0 := by
      unfold pgCOH pageOf
      omega
    have hsame : PageSame (pgCOH 0) t
        (fput (forBits t (pgCOH x) F.COH_STS_DEAD (2 ^ agent)) (pgCOH x) F.COH_STS_RECLAIM_BUSY 1) :=
      (fput_pageSame t _ hpage (by decide)).trans (fput_pageSame _ _ hpage (by decide))
    unfold agentDead at ht ⊢
    rwa [hsame.fget (by decide)]

theorem agentDead_agentDies {s : State} {agent : Nat} (h : agentDead s agent = false) (ha : agent < 6) :
    agentDead (agentDies s agent) agent = true := by
  have hplace : QuietPlace (fieldKey (pgCOH 0) F.COH_STS_DEAD.off F.COH_STS_DEAD.lo) := by
    unfold QuietPlace
    decide
  unfold agentDead
  rw [(agentDies_quiet s agent h ha).fget hplace]
  exact agentDead_deadShown s ha

theorem agentWatchExpire_answers {s : State} {tile a : Nat} (ht : tile < 4) (ha : a < 6) (ho : owesAnswer s tile a = true)
    (hd : agentDead s a = false) : Answers (.agentWatchExpire tile a) s fun t => agentDead t a = true := by
  refine ⟨_, congrArg Host.Outcome.next (if_pos ⟨ht, ha, ho⟩), agentDead_agentDies ?_ ha⟩
  have hnote : PageSame (pgCOH 0) (bump s (pgSHEEP tile) 5) (watchNote s tile 5 (pgCOH tile)) := by
    refine fput_pageSame _ _ ?_ (by decide)
    unfold pgSHEEP pgCOH pageOf
    omega
  unfold agentDead at hd ⊢
  rwa [hnote.fget (by decide), (bump_blockSame ..).fget _ (by decide)]

theorem agentWatchExpire_owesNothing {s : State} {tile a : Nat} (ho : owesAnswer s tile a = false) :
    exec (.agentWatchExpire tile a) s = .next s :=
  congrArg Host.Outcome.next (if_neg (by rw [ho]; exact fun h => nomatch h.2.2))

end Sys2Proof.Machine
end

section
/-! Faults of the package, of a port and of a fold that no reset follows (R360, R461 to R463, R470, R474). -/

namespace Sys2Proof.Machine

open Sys2Proof

/-! ## One field -/

/-- The place of a field. -/
def AtField (page : Nat) (f : Field) (k : Nat) : Prop := k = fieldKey page f.off f.lo

theorem atField_block {page : Nat} {f : Field} (h : 256 ≤ f.off ∧ f.off < 4096 ∧ f.lo < 32) {k : Nat} (hk : AtField page f k) :
    64 ≤ k / 32 % 1024 := by
  unfold AtField fieldKey at hk
  omega

theorem fput_atField {page page' : Nat} {f g : Field} (s : State) (v : Nat) (h : fieldKey page' g.off g.lo ≠ fieldKey page f.off f.lo) :
    KeptAt (AtField page f) s (fput s page' g v) := fput_keptAt s v h

theorem testBit_fget_forBits (s : State) (page : Nat) (f : Field) (v g : Nat) (h : fieldWidth f ≤ 64)
    (hr : f.rst < 2 ^ fieldWidth f) : (fget (forBits s page f v) page f).testBit g =
      ((fget s page f).testBit g || (decide (g < fieldWidth f) && v.testBit g)) := by
  have hlt : fget s page f < 2 ^ fieldWidth f := fgeti_lt s page f 0 hr
  unfold forBits
  rw [fget_fput_same _ _ _ _ h, Nat.testBit_mod_two_pow, Nat.testBit_or]
  by_cases hg : g < fieldWidth f
  · simp [hg]
  · have hout := Nat.testBit_lt_two_pow (hlt.trans_le (Nat.pow_le_pow_right (by decide) (Nat.le_of_not_lt hg)))
    simp [hg, hout]

theorem logFault_keptAt {P : Nat → Prop} (hblock : ∀ k, P k → 64 ≤ k / 32 % 1024)
    (htail : ¬ P (fieldKey pgFLT F.FLT_LOGPTR_TAIL.off F.FLT_LOGPTR_TAIL.lo))
    (hhead : ¬ P (fieldKey pgFLT F.FLT_LOGPTR_HEAD.off F.FLT_LOGPTR_HEAD.lo))
    (hovf : ¬ P (fieldKey pgFLT F.FLT_STS_LOG_OVF.off F.FLT_STS_LOG_OVF.lo)) (s : State) (typ cause unit detail : Nat) :
    KeptAt P s (logFault s typ cause unit detail) := by
  have hput (l : FMap (BitVec 128)) : KeptAt P s { s with fltLog := l } := .of_regs rfl
  have hbump (t : State) (n : Nat) : KeptAt P t (bump t pgFLT n) := (bump_blockSame ..).keptAt hblock
  have hentry (l : FMap (BitVec 128)) (v : Nat) :
      KeptAt P s (bump (fput { s with fltLog := l } pgFLT F.FLT_LOGPTR_TAIL v) pgFLT 10) :=
    (hput l).trans ((fput_keptAt _ _ htail).trans (hbump ..))
  unfold logFault logFaultAt
  exact .ite ((hentry ..).trans ((fput_keptAt _ _ hhead).trans ((fput_keptAt _ _ hovf).trans (hbump ..)))) (hentry ..)

/-- A fault page's field apart from the log's. -/
theorem logFault_atField {f : Field} (h : 256 ≤ f.off ∧ f.off < 4096 ∧ f.lo < 32)
    (hf : f.off / 4 ≠ 69 ∧ (f.off / 4 ≠ 65 ∨ f.lo ≠ 9)) (s : State) (typ cause unit detail : Nat) :
    KeptAt (AtField pgFLT f) s (logFault s typ cause unit detail) := by
  refine logFault_keptAt (fun _ hk => atField_block h hk) ?_ ?_ ?_ ..
  all_goals
    unfold AtField fieldKey
    simp only [F.FLT_LOGPTR_TAIL, F.FLT_LOGPTR_HEAD, F.FLT_STS_LOG_OVF]
    omega

/-- A page other than the fault page. -/
theorem logFault_page {p : Nat} (hp : p ≠ pgFLT) (s : State) (typ cause unit detail : Nat) :
    KeptAt (BlockPlace p) s (logFault s typ cause unit detail) := by
  refine logFault_keptAt (fun _ hk => hk.2) ?_ ?_ ?_ ..
  all_goals
    unfold BlockPlace fieldKey
    simp only [F.FLT_LOGPTR_TAIL, F.FLT_LOGPTR_HEAD, F.FLT_STS_LOG_OVF]
    omega

/-! ## Flits sent -/

theorem BlockSame.ite {s t u : State} {c : Prop} [Decidable c] (h : BlockSame s t) (k : BlockSame s u) :
    BlockSame s (if c then t else u) := by
  split
  · exact h
  · exact k

theorem routeFlit_blockSame (s : State) (f : Flit) (inPort : Option Nat) : BlockSame s (routeFlit s f inPort) := by
  have hput (u : State) (p : Nat) (x : PortSt) : BlockSame u (putPort u p x) := .of_regs rfl
  unfold routeFlit
  split
  · exact bump_blockSame ..
  · next det _ =>
    have hd : BlockSame s (if det then bump s pgFAB 2 else s) := .ite (bump_blockSame ..) (.refl s)
    dsimp only
    split
    · exact hd.trans (bump_blockSame ..)
    · split
      · exact hd.trans (hput ..)
      · exact hd.trans (hput ..)

theorem sendFlit_blockSame (s : State) (f : Flit) (spread : Bool) : BlockSame s (sendFlit s f spread) := by
  have hdraw : BlockSame s (drawVia s f.dstPkg).2 := .of_regs rfl
  exact BlockSame.trans (.ite (hdraw.trans (bump_blockSame ..)) (.refl s)) (routeFlit_blockSame ..)

theorem foldl_blockSame {α : Type} {g : State → α → State} (hg : ∀ s x, BlockSame s (g s x)) (l : List α) (s : State) :
    BlockSame s (l.foldl g s) :=
  List.foldlRecOn (motive := BlockSame s) l g (.refl s) fun _ h x _ => h.trans (hg _ x)

theorem foldl_portsOnly {α : Type} {g : State → α → State} (hg : ∀ s x, PortsOnly s (g s x)) (l : List α) (s : State) :
    PortsOnly s (l.foldl g s) :=
  List.foldlRecOn (motive := PortsOnly s) l g (.refl s) fun _ h x _ => h.trans (hg _ x)

theorem sendAborts_blockSame (s : State) (x : ColSt) (ax : List Nat) : BlockSame s (sendAborts s x ax) := by
  unfold sendAborts
  refine foldl_blockSame (fun u i => foldl_blockSame (fun v y => ?_) ..) ..
  exact .ite (.refl v) ((bump_blockSame ..).trans (sendFlit_blockSame ..))

theorem sendAborts_portsOnly (s : State) (x : ColSt) (ax : List Nat) : PortsOnly s (sendAborts s x ax) := by
  unfold sendAborts
  refine foldl_portsOnly (fun u i => foldl_portsOnly (fun v y => ?_) ..) ..
  exact .ite (.refl v) ((bump_counts ..).portsOnly.trans (sendFlit_portsOnly ..))

theorem PortsOnly.keeps_rst {s t : State} (h : PortsOnly s t) : t.rst = s.rst := by
  unfold PortsOnly at h
  rw [h]

/-! ## Package-fatal faults (R470, R474) -/

theorem putRst_mem (s : State) (g : RstSt → RstSt) : (putRst s g).mem = s.mem := rfl

theorem putRst_rst (s : State) (g : RstSt → RstSt) : (putRst s g).rst = g s.rst := rfl

/-- The fault is counted and logged. -/
def fatalLogged (s : State) (cause : Nat) : State := logFault (bump s pgFLT 8) 0x11 cause 0 0

/-- The status of the package and FAULT_N show the fault. -/
def fatalShown (s : State) (cause : Nat) : State :=
  fput (fput (putRst s fun r => { r with faultN := true, fatalAt := herdTime s }) pgFLT F.FLT_STS_PKG_FATAL 1)
    pgFLT F.FLT_STS_PKG_CAUSE cause

theorem fatalShown_mem (s : State) (cause : Nat) : (fatalShown s cause).mem = s.mem := by
  unfold fatalShown
  rw [fput_mem, fput_mem, putRst_mem]

theorem faultN_fatalShown (s : State) (cause : Nat) : (fatalShown s cause).rst.faultN = true := by
  unfold fatalShown
  rw [fput_rst, fput_rst, putRst_rst]

/-- Every collective is aborted. -/
def allAborted (s : State) : State :=
  s.fab.cols.foldl (fun s x => sendAborts s x (match findCmd s x.id with | some c => kAxes c | none => [])) s

theorem pkgFatal_eq (s : State) (cause : Nat) : pkgFatal s cause = if pkgStopped (fatalLogged s cause) then fatalLogged s cause
    else emit (emit (allAborted (fatalShown (fatalLogged s cause) cause)) (.irqPmc 0 pgFLT)) (.irqPmc 1 pgFLT) := rfl

theorem fatalLogged_counts (s : State) (cause : Nat) : Counts s (fatalLogged s cause) :=
  (bump_counts ..).trans (logFault_counts ..)

theorem fatalLogged_atField {f : Field} (h : 256 ≤ f.off ∧ f.off < 4096 ∧ f.lo < 32)
    (hf : f.off / 4 ≠ 69 ∧ (f.off / 4 ≠ 65 ∨ f.lo ≠ 9)) (s : State) (cause : Nat) :
    KeptAt (AtField pgFLT f) s (fatalLogged s cause) :=
  ((bump_blockSame ..).keptAt fun _ hk => atField_block h hk).trans (logFault_atField h hf ..)

theorem pkgStopped_fatalLogged (s : State) (cause : Nat) : pkgStopped (fatalLogged s cause) = pkgStopped s :=
  (fatalLogged_atField (f := F.FLT_STS_PKG_FATAL) (by decide) (by decide) s cause).fbit rfl

theorem allAborted_blockSame (s : State) : BlockSame s (allAborted s) := foldl_blockSame (fun _ _ => sendAborts_blockSame ..) ..

theorem allAborted_portsOnly (s : State) : PortsOnly s (allAborted s) := foldl_portsOnly (fun _ _ => sendAborts_portsOnly ..) ..

section
variable {s : State} {cause : Nat}

theorem pkgFatal_first (h : pkgStopped s = false) (hc : cause < 256) :
    pkgStopped (pkgFatal s cause) = true ∧ (pkgFatal s cause).rst.faultN = true ∧
      fget (pkgFatal s cause) pgFLT F.FLT_STS_PKG_CAUSE = cause ∧ Output.irqPmc 0 pgFLT ∈ (pkgFatal s cause).out ∧
      Output.irqPmc 1 pgFLT ∈ (pkgFatal s cause).out ∧ (pkgFatal s cause).mem = s.mem := by
  have hshown : fget (fatalShown (fatalLogged s cause) cause) pgFLT F.FLT_STS_PKG_FATAL = 1 :=
    (fget_fput_ne _ _ _ (by decide)).trans (fget_fput_same _ _ _ _ (by decide))
  have hcause : fget (fatalShown (fatalLogged s cause) cause) pgFLT F.FLT_STS_PKG_CAUSE = cause :=
    (fget_fput_same _ _ _ _ (by decide)).trans (Nat.mod_eq_of_lt hc)
  obtain ⟨u, hu⟩ : ∃ u, u = fatalShown (fatalLogged s cause) cause := ⟨_, rfl⟩
  have hmem : u.mem = s.mem := hu ▸ (fatalShown_mem ..).trans (fatalLogged_counts s cause).keeps_mem
  have hfault : u.rst.faultN = true := hu ▸ faultN_fatalShown ..
  rw [← hu] at hshown hcause
  rw [pkgFatal_eq, pkgStopped_fatalLogged, h, if_neg Bool.false_ne_true, ← hu]
  refine ⟨?_, ?_, ?_, ?_, ?_, (allAborted_portsOnly u).keeps_mem.trans hmem⟩
  · show (fget (allAborted u) pgFLT F.FLT_STS_PKG_FATAL == 1) = true
    rw [(allAborted_blockSame u).fget _ (by decide), hshown]
    rfl
  · show (allAborted u).rst.faultN = true
    rw [(allAborted_portsOnly u).keeps_rst, hfault]
  · exact ((allAborted_blockSame u).fget _ (by decide)).trans hcause
  · exact List.mem_cons_of_mem _ (List.mem_cons_self ..)
  · exact List.mem_cons_self ..

theorem pkgFatal_later (h : pkgStopped s = true) : pkgFatal s cause = fatalLogged s cause := by
  rw [pkgFatal_eq, pkgStopped_fatalLogged, h, if_pos rfl]

theorem packageFatal_answers (hlo : 0x10 ≤ cause) (hhi : cause ≤ 0x13) :
    (pkgStopped s = false → Answers (.packageFatal cause) s fun t => pkgStopped t = true ∧ t.rst.faultN = true ∧
      fget t pgFLT F.FLT_STS_PKG_CAUSE = cause ∧ Output.irqPmc 0 pgFLT ∈ t.out ∧ Output.irqPmc 1 pgFLT ∈ t.out ∧
      t.mem = s.mem) ∧
    (pkgStopped s = true → Answers (.packageFatal cause) s fun t => t.rst = s.rst ∧ t.mem = s.mem ∧
      fget t pgFLT F.FLT_STS_PKG_CAUSE = fget s pgFLT F.FLT_STS_PKG_CAUSE) := by
  have hexec : exec (.packageFatal cause) s = .next (pkgFatal s cause) := congrArg Host.Outcome.next (if_pos ⟨hlo, hhi⟩)
  refine ⟨fun h => ⟨_, hexec, pkgFatal_first h (by omega)⟩, fun h => ⟨_, hexec, ?_⟩⟩
  rw [pkgFatal_later h]
  exact ⟨(fatalLogged_counts ..).keeps_rst, (fatalLogged_counts ..).keeps_mem,
    (fatalLogged_atField (f := F.FLT_STS_PKG_CAUSE) (by decide) (by decide) s cause).fget rfl⟩

end

/-! ## Ports that go down (R360) -/

/-- A port is down and its flits are lost. -/
def portGone (s : State) (p cause lane : Nat) : State :=
  putPort (logFault (npLog (fput (fput s (pgNP p) F.NP_STS_DOWN 1) (pgNP p) F.NP_STS_UP 0) p cause lane) 0x06 cause p 0) p {}

/-- The pair of a port that is down, as FAB_LINK shows it. -/
def pairShown (s : State) (p : Nat) : State :=
  if (deadPairs s).testBit (pairOf p) then
    fput (forBits s pgFAB F.FAB_LINK_DOWN (2 ^ pairOf p)) pgFAB F.FAB_LINK_HALF
      (fget s pgFAB F.FAB_LINK_HALF - (fget s pgFAB F.FAB_LINK_HALF &&& 2 ^ pairOf p))
  else forBits s pgFAB F.FAB_LINK_HALF (2 ^ pairOf p)

/-- What waited at the port goes another way. -/
def flitsMoved (s : State) (p : Nat) (x : PortSt) : State :=
  let q := if p % 2 = 0 then p + 1 else p - 1
  if fbit s (pgNP q) F.NP_STS_DOWN then
    let came := p / 4 * 4 + (if pairOf p % 2 = 0 then 2 else 0)
    x.loc.foldl (fun s f => routeFlit s f none) (x.transit.foldl (fun s f => routeFlit s f (some came)) s)
  else
    let y := getPort s q
    putPort s q { y with transit := y.transit ++ x.transit, loc := y.loc ++ x.loc }

theorem portDown_of_up {s : State} {p : Nat} (h : fbit s (pgNP p) F.NP_STS_DOWN = false) (cause lane : Nat) :
    portDown s p cause lane = flitsMoved (pairShown (portGone s p cause lane) p) p (getPort s p) := by
  unfold portDown
  rw [if_neg (by rw [h]; decide)]
  rfl

theorem npLog_counts (s : State) (p cause lane : Nat) : Counts s (npLog s p cause lane) := by
  refine counts_ite (.refl s) (Counts.trans ?_ (setLogged_counts ..))
  rfl

theorem portGone_portsOnly (s : State) (p cause lane : Nat) : PortsOnly s (portGone s p cause lane) := by
  have hdown : Counts s (fput (fput s (pgNP p) F.NP_STS_DOWN 1) (pgNP p) F.NP_STS_UP 0) := rfl
  exact (hdown.trans ((npLog_counts ..).trans (logFault_counts ..))).portsOnly.trans (putPort_portsOnly ..)

theorem pairShown_counts (s : State) (p : Nat) : Counts s (pairShown s p) := counts_ite rfl rfl

theorem flitsMoved_portsOnly (s : State) (p : Nat) (x : PortSt) : PortsOnly s (flitsMoved s p x) :=
  .ite ((foldl_portsOnly (fun _ _ => routeFlit_portsOnly ..) ..).trans (foldl_portsOnly (fun _ _ => routeFlit_portsOnly ..) ..))
    (putPort_portsOnly ..)

theorem portDown_mem {s : State} {p : Nat} (h : fbit s (pgNP p) F.NP_STS_DOWN = false) (cause lane : Nat) :
    (portDown s p cause lane).mem = s.mem := by
  rw [portDown_of_up h]
  exact ((portGone_portsOnly ..).trans ((pairShown_counts ..).portsOnly.trans (flitsMoved_portsOnly ..))).keeps_mem

theorem flitsMoved_blockSame (s : State) (p : Nat) (x : PortSt) : BlockSame s (flitsMoved s p x) := by
  have hput (q : Nat) (y : PortSt) : BlockSame s (putPort s q y) := .of_regs rfl
  exact .ite ((foldl_blockSame (fun _ _ => routeFlit_blockSame ..) ..).trans
    (foldl_blockSame (fun _ _ => routeFlit_blockSame ..) ..)) (hput ..)

/-- A field of a port's status. -/
theorem npLog_status (s : State) (p cause lane : Nat) {f : Field} (hf : f.off / 4 = 65 ∧ f.lo < 32) :
    KeptAt (AtField (pgNP p) f) s (npLog s p cause lane) := by
  have hlog (t : State) {g : Field} (v : Nat) (hg : g.off / 4 = 66 ∧ g.lo < 32) :
      KeptAt (AtField (pgNP p) f) t (fput t (pgNP p) g v) := by
    refine fput_atField t v ?_
    unfold fieldKey
    omega
  unfold npLog
  exact .ite (.refl s) ((hlog s _ (by decide)).trans ((hlog _ _ (by decide)).trans ((hlog _ _ (by decide)).trans
    ((setErr_blockSame ..).keptAt fun _ hk => atField_block ⟨by omega, by omega, hf.2⟩ hk))))

/-- Once a port is marked, its status stays through the rest of its end. -/
theorem portDown_status {s : State} {p : Nat} (h : fbit s (pgNP p) F.NP_STS_DOWN = false) (cause lane : Nat) {f : Field}
    (hf : f.off / 4 = 65 ∧ f.lo < 32) : fget (portDown s p cause lane) (pgNP p) f =
      fget (fput (fput s (pgNP p) F.NP_STS_DOWN 1) (pgNP p) F.NP_STS_UP 0) (pgNP p) f := by
  have hplace : BlockPlace (pgNP p) (fieldKey (pgNP p) f.off f.lo) := blockPlace_field (by omega)
  have hput (t : State) : KeptAt (BlockPlace (pgNP p)) t (putPort t p {}) := .of_regs rfl
  have hfab (t : State) (g : Field) (v : Nat) (hg : g.off < 4096 ∧ g.lo < 32) :
      KeptAt (BlockPlace (pgNP p)) t (fput t pgFAB g v) := fput_page t v (by unfold pgFAB pgNP pageOf; omega) hg
  have hpair (t : State) : KeptAt (BlockPlace (pgNP p)) t (pairShown t p) :=
    .ite ((hfab _ _ _ (by decide)).trans (hfab _ _ _ (by decide))) (hfab _ _ _ (by decide))
  have hlogged (t : State) : KeptAt (BlockPlace (pgNP p)) t (logFault t 0x06 cause p 0) :=
    logFault_page (by unfold pgFLT pgNP pageOf; omega) ..
  rw [portDown_of_up h]
  unfold portGone
  rw [((flitsMoved_blockSame ..).page _).fget hplace, (hpair _).fget hplace, (hput _).fget hplace, (hlogged _).fget hplace,
    (npLog_status _ p cause lane hf).fget rfl]

theorem linkWatchExpire_answers {s : State} {p : Nat} (hp : p < 16) (hr : (getPort s p).replay ≠ [])
    (hd : fbit s (pgNP p) F.NP_STS_DOWN = false) : Answers (.linkWatchExpire p) s fun t =>
      fbit t (pgNP p) F.NP_STS_DOWN = true ∧ portUp t p = false ∧ t.mem = s.mem := by
  have hnote : KeptAt (BlockPlace (pgNP p)) s (watchNote s (p / 4) 7 (pgNP p)) :=
    ((bump_blockSame ..).page _).trans (fput_page _ _ (by unfold pgSHEEP pgNP pageOf; omega) (by decide))
  have hup : fbit (watchNote s (p / 4) 7 (pgNP p)) (pgNP p) F.NP_STS_DOWN = false := by
    rw [hnote.fbit (blockPlace_field (by decide)), hd]
  refine ⟨_, congrArg Host.Outcome.next (if_pos ⟨hp, hr, by rw [hd]; rfl⟩), ?_, ?_,
    (portDown_mem hup 4 0).trans (watchNote_counts ..).keeps_mem⟩
  · unfold fbit
    rw [portDown_status hup 4 0 (by decide), fget_fput_ne _ _ _ (by decide), fget_fput_same _ _ _ _ (by decide)]
    rfl
  · unfold portUp fbit
    rw [portDown_status hup 4 0 (by decide), fget_fput_same _ _ _ _ (by decide)]
    rfl

/-! ## Faults of a fold that no reset follows (R462, R463) -/

section
variable {s : State} {f : Nat}

theorem resetStart_counted (h : foldEnabled s f = false ∨ fbit s (pgFOLD f) F.FOLD_STS_RESETTING = true) (cause unit detail : Nat) :
    resetStart s f cause unit detail = bump s pgFLT 1 := by
  refine if_pos ?_
  obtain h | h := h <;> rw [h]
  · rfl
  · exact Bool.or_true _

theorem foldFault_counted (h : foldEnabled s f = false ∨ fbit s (pgFOLD f) F.FOLD_STS_RESETTING = true) (cause unit detail : Nat) :
    foldFault s f cause unit detail = bump s pgFLT 1 := by
  have hcond : (!foldEnabled s f || fbit s (pgFOLD f) F.FOLD_STS_RESETTING) = true := by
    obtain h | h := h <;> rw [h]
    · rfl
    · exact Bool.or_true _
  unfold foldFault
  rw [resetStart_counted h, if_pos hcond, ite_self]

theorem foldFault_reported (ha : fbit s pgFLT F.FLT_CTL_AUTO = false) (he : foldEnabled s f = true)
    (hr : fbit s (pgFOLD f) F.FOLD_STS_RESETTING = false) (cause unit detail : Nat) :
    foldFault s f cause unit detail = raiseEvent (forBits s pgFLT F.FLT_FOLDFATAL_FOLD (2 ^ f)) pgFLT := by
  unfold foldFault
  rw [ha, he, hr]
  rfl

/-- Without AUTO a fault of a fold reaches registers alone. -/
theorem foldFault_counts (ha : fbit s pgFLT F.FLT_CTL_AUTO = false) (cause unit detail : Nat) :
    Counts s (foldFault s f cause unit detail) := by
  have hput : Counts s (forBits s pgFLT F.FLT_FOLDFATAL_FOLD (2 ^ f)) := rfl
  unfold foldFault
  rw [ha, if_neg Bool.false_ne_true]
  exact counts_ite (bump_counts ..) (hput.trans (raiseEvent_counts ..))

/-- And of those of the fault page, FLT_FOLDFATAL. -/
theorem foldFault_atField (ha : fbit s pgFLT F.FLT_CTL_AUTO = false) {g : Field} (hg : 256 ≤ g.off ∧ g.off < 4096 ∧ g.lo < 32)
    (hne : fieldKey pgFLT F.FLT_FOLDFATAL_FOLD.off F.FLT_FOLDFATAL_FOLD.lo ≠ fieldKey pgFLT g.off g.lo)
    (cause unit detail : Nat) : KeptAt (AtField pgFLT g) s (foldFault s f cause unit detail) := by
  have hb {t u : State} (h : BlockSame t u) : KeptAt (AtField pgFLT g) t u := h.keptAt fun _ hk => atField_block hg hk
  unfold foldFault
  rw [ha, if_neg Bool.false_ne_true]
  exact .ite (hb (bump_blockSame ..)) ((fput_atField _ _ hne).trans (hb (raiseEvent_blockSame ..)))

theorem foldFatal_exec {cause unit detail : Nat} (hf : f < 16) (h2 : 2 ≤ cause) (h5 : cause ≤ 5) :
    exec (.foldFatal f cause unit detail) s = .next (foldFault s f cause unit detail) :=
  congrArg Host.Outcome.next (if_pos ⟨hf, h2, h5⟩)

theorem testBit_foldFault (ha : fbit s pgFLT F.FLT_CTL_AUTO = false) (he : foldEnabled s f = true)
    (hr : fbit s (pgFOLD f) F.FOLD_STS_RESETTING = false) (hf : f < 16) (cause unit detail g : Nat) :
    (fget (foldFault s f cause unit detail) pgFLT F.FLT_FOLDFATAL_FOLD).testBit g =
      ((fget s pgFLT F.FLT_FOLDFATAL_FOLD).testBit g || decide (g = f)) := by
  rw [foldFault_reported ha he hr, (raiseEvent_blockSame ..).fget _ (by decide),
    testBit_fget_forBits _ _ _ _ _ (by decide) (by decide), Nat.testBit_two_pow]
  congr 1
  change (decide (g < 16) && decide (f = g)) = decide (g = f)
  by_cases h : g = f
  · subst h
    simp [hf]
  · simp [h, Ne.symm h]

end

/-! ### Offline dies -/

theorem dieFault_sound {s : State} (ha : fbit s pgFLT F.FLT_CTL_AUTO = false) (d cause unit : Nat) :
    (dieFault s d cause unit).mem = s.mem ∧ fbit (dieFault s d cause unit) pgFLT F.FLT_CTL_AUTO = false ∧
      fget (dieFault s d cause unit) pgFLT F.FLT_OFFLINE_DIES = fget s pgFLT F.FLT_OFFLINE_DIES := by
  unfold dieFault
  split
  · next f _ =>
    obtain ⟨t, ht⟩ : ∃ t, t = bump (drawFree s).2 (pgSHEEP (d / 4)) 11 := ⟨_, rfl⟩
    have hdraw : BlockSame s (drawFree s).2 := .of_regs rfl
    have hblock : BlockSame s t := ht ▸ hdraw.trans (bump_blockSame ..)
    have hmem : t.mem = s.mem := ht ▸ (bump_counts (drawFree s).2 (pgSHEEP (d / 4)) 11).keeps_mem
    have hauto : fbit t pgFLT F.FLT_CTL_AUTO = false := (congrArg (· == 1) (hblock.fget _ (by decide))).trans ha
    dsimp only
    rw [← ht]
    exact ⟨(foldFault_counts hauto ..).keeps_mem.trans hmem,
      ((foldFault_atField hauto (g := F.FLT_CTL_AUTO) (by decide) (by decide) ..).fbit rfl).trans hauto,
      ((foldFault_atField hauto (g := F.FLT_OFFLINE_DIES) (by decide) (by decide) ..).fget rfl).trans
        (hblock.fget _ (by decide))⟩
  · exact ⟨rfl, ha, rfl⟩

theorem dieOfflineWrite_answers {s : State} {src : Src} (hs : Rules s src) (ha : fbit s pgFLT F.FLT_CTL_AUTO = false)
    (ds : BitVec 16) : Answers (.dieOfflineWrite src ds) s fun t =>
      fget t pgFLT F.FLT_OFFLINE_DIES = fget s pgFLT F.FLT_OFFLINE_DIES ||| ds.toNat ∧ t.mem = s.mem := by
  have hold : fget s pgFLT F.FLT_OFFLINE_DIES < 2 ^ 16 := fgeti_lt s pgFLT _ 0 (by decide)
  have hset : fget (forBits s pgFLT F.FLT_OFFLINE_DIES ds.toNat) pgFLT F.FLT_OFFLINE_DIES =
      fget s pgFLT F.FLT_OFFLINE_DIES ||| ds.toNat :=
    (fget_fput_same _ _ _ _ (by decide)).trans (Nat.mod_eq_of_lt (Nat.or_lt_two_pow hold ds.isLt))
  have hauto : fbit (forBits s pgFLT F.FLT_OFFLINE_DIES ds.toNat) pgFLT F.FLT_CTL_AUTO = false :=
    (fbit_fput_ne _ _ _ (by decide)).trans ha
  refine ⟨_, congrArg Host.Outcome.next (withSys_of_rules hs _), ?_⟩
  unfold offlineWrite
  dsimp only
  have hall := List.foldlRecOn (motive := fun t : State => t.mem = s.mem ∧ fbit t pgFLT F.FLT_CTL_AUTO = false ∧
      fget t pgFLT F.FLT_OFFLINE_DIES = fget s pgFLT F.FLT_OFFLINE_DIES ||| ds.toNat)
    ((setBitsOf 16 ds.toNat).filter fun d => !(fget s pgFLT F.FLT_OFFLINE_DIES).testBit d)
    (fun s d => dieFault (logFault s 0x05 3 d 0) d 5 (pageId pgFLT))
    (b := forBits s pgFLT F.FLT_OFFLINE_DIES ds.toNat) ⟨rfl, hauto, hset⟩ fun t ht d _ => by
      obtain ⟨hm, hauto, hoff⟩ := ht
      have hlog (g : Field) (hg : 256 ≤ g.off ∧ g.off < 4096 ∧ g.lo < 32) (hne : g.off / 4 ≠ 69 ∧ (g.off / 4 ≠ 65 ∨ g.lo ≠ 9)) :=
        logFault_atField hg hne t 0x05 3 d 0
      obtain ⟨hm', ha', ho'⟩ := dieFault_sound
        (((hlog F.FLT_CTL_AUTO (by decide) (by decide)).fbit rfl).trans hauto) d 5 (pageId pgFLT)
      exact ⟨hm'.trans ((logFault_counts ..).keeps_mem.trans hm), ha',
        ho'.trans (((hlog F.FLT_OFFLINE_DIES (by decide) (by decide)).fget rfl).trans hoff)⟩
  exact ⟨hall.2.2, hall.1⟩

/-! ### Packets that wait at a hub (R461) -/

theorem foldOfDie_congr {s t : State} (h : ∀ f, KeptAt (BlockPlace (pgFOLD f)) s t) (d : Nat) : foldOfDie t d = foldOfDie s d := by
  unfold foldOfDie foldEnabled
  congr 1
  funext f
  rw [(h f).fbit (blockPlace_field (by decide)), (h f).fget (blockPlace_field (by decide))]

theorem foldOfDie_enabled {s : State} {d f : Nat} (h : foldOfDie s d = some f) : f < 16 ∧ foldEnabled s f = true := by
  unfold foldOfDie at h
  have hon := List.find?_some h
  exact ⟨List.mem_range.1 (List.mem_of_find?_eq_some h), (Bool.and_eq_true_iff.1 hon).1⟩

section
variable {s : State} {tile id : Nat} {x : HubPkt} (ht : tile < 4)
  (hx : (mgetD s.hubs tile {}).pkts.find? (fun x => x.pkt.id == id) = some x) (hw : (mgetD s.hubs tile {}).stalled.contains id = true)

theorem watchNote_atField (s : State) (t n page : Nat) {p : Nat} (hp : pgSHEEP t ≠ p) {f : Field}
    (hf : 256 ≤ f.off ∧ f.off < 4096 ∧ f.lo < 32) : KeptAt (AtField p f) s (watchNote s t n page) := by
  refine ((bump_blockSame ..).keptAt fun _ hk => atField_block hf hk).trans (fput_atField _ _ ?_)
  unfold fieldKey
  simp only [F.SHEEP_LAST_UNIT]
  omega

include ht hx hw

theorem hubWatchExpire_package (hh : hubTarget tile x.pkt = none) (hs : pkgStopped s = false) :
    Answers (.hubWatchExpire tile id) s fun t =>
      pkgStopped t = true ∧ fget t pgFLT F.FLT_STS_PKG_CAUSE = 0x11 ∧ t.mem = s.mem := by
  obtain ⟨w, hwn⟩ : ∃ w, w = watchNote s tile 6 (pgHUB tile) := ⟨_, rfl⟩
  have hstopped : pkgStopped w = false := by
    have hkept := watchNote_atField s tile 6 (pgHUB tile) (p := pgFLT) (f := F.FLT_STS_PKG_FATAL)
      (by unfold pgSHEEP pgFLT pageOf; omega) (by decide)
    rw [hwn]
    exact (hkept.fbit rfl).trans hs
  have hmem : w.mem = s.mem := hwn ▸ (watchNote_counts ..).keeps_mem
  obtain ⟨hstop, -, hcause, -, -, hm⟩ := pkgFatal_first hstopped (cause := 0x11) (by decide)
  refine ⟨pkgFatal w 0x11, ?_, hstop, hcause, hm.trans hmem⟩
  show Host.Outcome.next _ = _
  rw [hx]
  dsimp only
  rw [hw, decide_eq_true ht, if_pos (Bool.and_self true), hh, hwn]
  rfl

theorem hubWatchExpire_fold {d f : Nat} (hh : hubTarget tile x.pkt = some d) (hf : foldOfDie s d = some f)
    (ha : fbit s pgFLT F.FLT_CTL_AUTO = false) (hr : fbit s (pgFOLD f) F.FOLD_STS_RESETTING = false) :
    Answers (.hubWatchExpire tile id) s fun t =>
      (fget t pgFLT F.FLT_FOLDFATAL_FOLD).testBit f = true ∧ t.rst.folds = s.rst.folds ∧ t.mem = s.mem := by
  obtain ⟨w, hwn⟩ : ∃ w, w = watchNote s tile 6 (pgHUB tile) := ⟨_, rfl⟩
  have hcounts : Counts s w := hwn ▸ watchNote_counts ..
  have hpage (p : Nat) (hp : pgSHEEP tile ≠ p) : KeptAt (BlockPlace p) s w := by
    rw [hwn]
    exact ((bump_blockSame ..).page _).trans (fput_page _ _ hp (by decide))
  have hfoldPage (g : Nat) : KeptAt (BlockPlace (pgFOLD g)) s w := hpage _ (by unfold pgSHEEP pgFOLD pageOf; omega)
  have hfound : foldOfDie w d = some f := (foldOfDie_congr hfoldPage d).trans hf
  obtain ⟨u, hu⟩ : ∃ u, u = bump w (pgSHEEP tile) 11 := ⟨_, rfl⟩
  have hcu : Counts s u := hu ▸ hcounts.trans (bump_counts ..)
  have hkept (p : Nat) (hp : pgSHEEP tile ≠ p) : KeptAt (BlockPlace p) s u := by
    rw [hu]
    exact (hpage p hp).trans ((bump_blockSame ..).page _)
  have hfold := hkept (pgFOLD f) (by unfold pgSHEEP pgFOLD pageOf; omega)
  obtain ⟨hlt, hmem⟩ := foldOfDie_enabled hf
  have hauto : fbit u pgFLT F.FLT_CTL_AUTO = false :=
    ((hkept pgFLT (by unfold pgSHEEP pgFLT pageOf; omega)).fbit (blockPlace_field (by decide))).trans ha
  have hen : foldEnabled u f = true := (hfold.fbit (blockPlace_field (by decide))).trans hmem
  have hres : fbit u (pgFOLD f) F.FOLD_STS_RESETTING = false := (hfold.fbit (blockPlace_field (by decide))).trans hr
  refine ⟨foldFault u f 4 (pageId (pgHUB tile)) (popcount d (fget w (pgFOLD f) F.FOLD_DIES_DIES)), ?_, ?_,
    congrArg RstSt.folds (hcu.trans (foldFault_counts hauto ..)).keeps_rst, (foldFault_counts hauto ..).keeps_mem.trans hcu.keeps_mem⟩
  · show Host.Outcome.next _ = _
    rw [hx]
    dsimp only
    rw [hw, decide_eq_true ht, if_pos (Bool.and_self true), hh, ← hwn, Option.bind_some, hfound, hu]
    rfl
  · rw [testBit_foldFault hauto hen hres hlt, decide_eq_true rfl, Bool.or_true]

end

end Sys2Proof.Machine
end

section
/-! A fold reset begins (R463 to R465): what the Stop phase leaves of the fold's status and of the record of its reset. -/

namespace Sys2Proof.Machine

open Sys2Proof

/-! ## Bits taken -/

theorem and_parity (x m : Nat) : (x &&& m) % 2 = x % 2 * (m % 2) := by
  rw [show (2 : Nat) = 2 ^ 1 from rfl, Nat.and_mod_two_pow, Nat.pow_one]
  obtain hx | hx := Nat.mod_two_eq_zero_or_one x
  · rw [hx, Nat.zero_and, Nat.zero_mul]
  · obtain hm | hm := Nat.mod_two_eq_zero_or_one m
    · rw [hm, Nat.and_zero, Nat.mul_zero]
    · rw [hx, hm]
      rfl

theorem testBit_sub_and (x m g : Nat) : (x - (x &&& m)).testBit g = (x.testBit g && !m.testBit g) := by
  induction g generalizing x m with
  | zero =>
    have hp := and_parity x m
    have hle : x &&& m ≤ x := Nat.and_le_left
    generalize x &&& m = a at *
    rw [Nat.testBit_zero, Nat.testBit_zero, Nat.testBit_zero]
    obtain hx | hx := Nat.mod_two_eq_zero_or_one x
    · rw [hx, Nat.zero_mul] at hp
      have : (x - a) % 2 = 0 := by omega
      rw [this, hx]
      rfl
    · obtain hm | hm := Nat.mod_two_eq_zero_or_one m
      · rw [hx, hm] at hp
        have : (x - a) % 2 = 1 := by omega
        rw [this, hx, hm]
        rfl
      · rw [hx, hm] at hp
        have : (x - a) % 2 = 0 := by omega
        rw [this, hm]
        simp
  | succ g ih =>
    have hp := and_parity x m
    have hle : x &&& m ≤ x := Nat.and_le_left
    have hhalf : (x - (x &&& m)) / 2 = x / 2 - (x / 2 &&& m / 2) := by
      rw [← Nat.and_div_two]
      have : x % 2 * (m % 2) ≤ x % 2 := (Nat.mul_le_mul_left _ (by omega)).trans_eq (Nat.mul_one _)
      omega
    rw [Nat.testBit_succ, Nat.testBit_succ, Nat.testBit_succ, hhalf, ih]

/-! ## What a stop keeps -/

/-- Where a fold shows that it resets, and its fatal faults. -/
def ResetPlace (f k : Nat) : Prop := AtField (pgFOLD f) F.FOLD_STS_RESETTING k ∨ AtField pgFLT F.FLT_FOLDFATAL_FOLD k

theorem resetPlace_quiet {f k : Nat} (h : ResetPlace f k) : QuietPlace k := by
  unfold QuietPlace
  obtain h | h := h
  · unfold AtField pgFOLD pageOf fieldKey at h
    simp only [F.FOLD_STS_RESETTING] at h
    omega
  · rw [h]
    decide

/-- The reset's status and the records of resets stay. -/
structure StopKept (f : Nat) (s t : State) : Prop where
  regs : KeptAt (ResetPlace f) s t
  rst : t.rst = s.rst

section
variable {f : Nat} {s t u : State}

theorem StopKept.refl (s : State) : StopKept f s s := ⟨.refl s, rfl⟩

theorem StopKept.trans (h : StopKept f s t) (k : StopKept f t u) : StopKept f s u := ⟨h.regs.trans k.regs, k.rst.trans h.rst⟩

theorem StopKept.of_quiet (h : QuietKept s t) (k : t.rst = s.rst) : StopKept f s t := ⟨h.mono fun _ => resetPlace_quiet, k⟩

theorem StopKept.of_block (h : BlockSame s t) (k : t.rst = s.rst) : StopKept f s t := .of_quiet h.quiet k

theorem StopKept.ite {c : Prop} [Decidable c] (h : StopKept f s t) (k : StopKept f s u) : StopKept f s (if c then t else u) := by
  split
  · exact h
  · exact k

theorem foldl_stopKept_of_mem {α : Type} {g : State → α → State} {l : List α} (hg : ∀ s, ∀ x ∈ l, StopKept f s (g s x)) (s : State) :
    StopKept f s (l.foldl g s) :=
  List.foldlRecOn (motive := StopKept f s) l g (.refl s) fun _ h x hx => h.trans (hg _ x hx)

theorem foldl_stopKept {α : Type} {g : State → α → State} (hg : ∀ s x, StopKept f s (g s x)) (l : List α) (s : State) :
    StopKept f s (l.foldl g s) := foldl_stopKept_of_mem (fun s x _ => hg s x) s

/-- A register of a page that is neither a fold's nor the fault page. -/
theorem fputi_stopKept (s : State) {page i : Nat} {g : Field} (v : Nat) (h : page < 0x41000 ∧ page ≠ pgFLT)
    (hg : g.off + i * g.stride < 4096 ∧ g.lo < 32) : StopKept f s (fputi s page g i v) := by
  refine ⟨fputi_keptAt s v fun k => ?_, rfl⟩
  obtain ⟨hp, hne⟩ := h
  obtain k | k := k
  · unfold AtField pgFOLD pageOf fieldKey at k
    simp only [F.FOLD_STS_RESETTING] at k
    omega
  · unfold AtField fieldKey at k
    simp only [F.FLT_FOLDFATAL_FOLD] at k
    omega

end

section
variable (s : State) (f : Nat)

theorem dropHead_stopKept {c q : Nat} (hc : c < 512) (hq : q < 8) : StopKept f s (dropHead s c q) := by
  unfold dropHead
  split
  · refine StopKept.trans (t := { s with cmds := s.cmds.filter _ }) (.of_block (.of_regs rfl) rfl) (fputi_stopKept _ _ ?_ ?_)
    · unfold pgCTX pgFLT pageOf
      omega
    · simp only [F.QSTS_HEAD]
      omega
  · exact .refl s

theorem sendFlit_stopKept (x : Flit) (spread : Bool) : StopKept f s (sendFlit s x spread) :=
  .of_block (sendFlit_blockSame ..) (sendFlit_portsOnly ..).keeps_rst

theorem windowsFoldReset_stopKept : StopKept f s (windowsFoldReset s f) := by
  have hput (g : FabSt → FabSt) : StopKept f s (putFab s g) := .of_block (.of_regs rfl) rfl
  unfold windowsFoldReset
  refine (hput _).trans ((foldl_stopKept (fun _ _ => sendFlit_stopKept ..) ..).trans
    ((foldl_stopKept_of_mem (fun t w hw => ?_) _).trans (foldl_stopKept_of_mem (fun t i hi => .ite ?_ (.refl t)) _)))
  · have := (mem_setBitsOf.1 hw).1
    exact fputi_stopKept t 0 (by decide) ⟨by simp only [F.WIN_OUT_ENABLE]; omega, by decide⟩
  · have := List.mem_range.1 hi
    exact fputi_stopKept t 0 (by decide) ⟨by simp only [F.WIN_IN_ENABLE]; omega, by decide⟩

theorem busWrite_stopKept (pa : Nat) (bs : List Byte) (p keep : Bool) : StopKept f s (busWrite s pa bs p keep).1 := by
  refine .of_quiet (busWrite_quiet ..) ?_
  have h := busWrite_accessOnly s {} pa .clean bs p keep
  unfold AccessOnly at h
  rw [h]

theorem postJobs_stopKept (h g : Nat) (l : List JobSt) : StopKept f s (postJobs s h g l) := by
  have hput (t : State) (r : JobRing) : StopKept f t (putRing t h g r) := .of_block (.of_regs rfl) rfl
  have hwrite (t : State) (b : Bool) (pa : Nat) (bs : List Byte) :
      StopKept f t (if b then (busWrite t pa bs false false).1 else t) := .ite (busWrite_stopKept ..) (.refl t)
  have htally (t : State) (k c n : Nat) : StopKept f t (if k = 1 then tallyAdd t c n 1 else t) :=
    .ite (.of_block (.of_regs (tallyAdd_regs ..)) rfl) (.refl t)
  induction l generalizing s with
  | nil => exact hput ..
  | cons j t ih =>
    unfold postJobs
    split
    · exact hput ..
    · exact .ite (hput ..) ((hput ..).trans ((hwrite ..).trans ((htally ..).trans (ih _))))

theorem inpFoldReset_stopKept (hf : f < 16) : StopKept f s (inpFoldReset s f) := by
  have hput (t : State) (h : Nat) (r : JobRing) : StopKept f t (putRing t h f r) := .of_block (.of_regs rfl) rfl
  unfold inpFoldReset
  refine foldl_stopKept_of_mem (fun t h hh => ?_) _
  have hfield (t : State) (g : Field) (i : Nat) (hg : g.off + i * g.stride < 4096 ∧ g.lo < 32) :
      StopKept f t (fputi t (pgINP h) g i 0) := by
    have := List.mem_range.1 hh
    exact fputi_stopKept t 0 (by unfold pgINP pgFLT pageOf; omega) hg
  refine (hfield _ _ _ ⟨by simp only [F.RCFG_ENABLE]; omega, by decide⟩).trans ((hput ..).trans ((postJobs_stopKept ..).trans
    ((foldl_stopKept_of_mem (fun v x hx => .ite ?_ (.refl v)) _).trans
      (foldl_stopKept_of_mem (fun v x hx => .ite ?_ (.refl v)) _))))
  · have := List.mem_range.1 hx
    exact hfield _ _ _ ⟨by simp only [F.SRC_CFG_ENABLE]; omega, by decide⟩
  · have := List.mem_range.1 hx
    exact hfield _ _ _ ⟨by simp only [F.GRP_CFG_ENABLE]; omega, by decide⟩

theorem undefCol_memoryOnly (x : ColSt) : MemoryOnly s (undefCol s x) := by
  unfold undefCol
  split
  · exact .refl s
  · dsimp only
    split
    · split
      · exact foldl_memoryOnly (fun _ _ => undefVa_memoryOnly ..) ..
      · exact .refl s
    · exact foldl_memoryOnly (fun _ _ => undefVa_memoryOnly ..) ..

theorem colLeft_blockSame (x : ColSt) (r : Res) : BlockSame s (colLeft s x r) := by
  have hb (t : State) (pg n : Nat) := bump_blockSame t pg n
  have hundef : BlockSame s (if r.code = stTIER then colUndef s x else s) :=
    .ite (.of_regs (colUndef_memoryOnly ..).keeps_regs) (.refl s)
  have hgone (t : State) : BlockSame t (putFab { t with trn := colNotes t.trn x.team x.cseq r.code } fun b =>
      { b with cols := b.cols.filter fun y => !(y.team == x.team && y.cseq == x.cseq) }) := .of_regs rfl
  have hcount (t : State) : BlockSame t (if r.code = stOVERFLOW then bump t (pgCOLL x.tile 0) 11
      else if r.code = stNOTE then bump t (pgCOLL x.tile 0) 12
      else if r.code = stABORT then bump t (pgCOLL x.tile 0) 13 else if r.code = stPEER then bump t pgFAB 11 else t) :=
    .ite (hb ..) (.ite (hb ..) (.ite (hb ..) (.ite (hb ..) (.refl t))))
  exact hundef.trans ((hgone _).trans ((hb ..).trans (hcount _)))

theorem colLeft_rst (x : ColSt) (r : Res) : (colLeft s x r).rst = s.rst := by
  obtain ⟨t, ht, hc⟩ := colLeft_counts s x r
  exact hc.keeps_rst.trans ht.keeps_rst

theorem colEnd_stopKept (x : ColSt) (r : Res) : StopKept f s (colEnd s x r) :=
  .of_block ((colLeft_blockSame ..).trans (finishCmd_blockSame ..))
    ((finishCmd_completesOnly ..).keeps_rst.trans (colLeft_rst ..))

theorem colFoldReset_stopKept : StopKept f s (colFoldReset s f) := by
  unfold colFoldReset
  refine (foldl_stopKept (fun t x => ?_) ..).trans (foldl_stopKept_of_mem (fun t n hn => .ite ?_ (.refl t)) _)
  · exact StopKept.trans (.of_block (sendAborts_blockSame ..) (sendAborts_portsOnly ..).keeps_rst) (colEnd_stopKept ..)
  · have := List.mem_range.1 hn
    exact fputi_stopKept t 0 (by decide) ⟨by simp only [F.FAB_TEAM_ENABLE]; omega, by decide⟩

/-! ## The Stop phase -/

/-- The fold shows that it resets. -/
def stopShown : State := fput s (pgFOLD f) F.FOLD_STS_RESETTING 1

theorem foldStop_stopKept (hf : f < 16) : StopKept f (stopShown s f) (foldStop s f) := by
  have hpeer (t : State) {l w : Nat} (hl : l < 4) (hw : w < 16) : StopKept f t (fputi t (pgHOSTL l) F.HOSTL_PEER_ENABLE w 0) :=
    fputi_stopKept t 0 (by unfold pgHOSTL pgFLT pageOf; omega) ⟨by simp only [F.HOSTL_PEER_ENABLE]; omega, by decide⟩
  have hheads (t : State) : StopKept f t ((foldCtxs t f).foldl (fun s c => (List.range 8).foldl (fun s q => dropHead s c q) s) t) :=
    foldl_stopKept_of_mem (fun v c hc => foldl_stopKept_of_mem (fun w q hq =>
      dropHead_stopKept w f (List.mem_range.1 (List.mem_filter.1 hc).1) (List.mem_range.1 hq)) v) t
  have hpeers (t : State) : StopKept f t ((List.range 4).foldl (fun s l => (List.range 16).foldl (fun s w =>
      if fgeti s (pgHOSTL l) F.HOSTL_PEER_ENABLE w == 1 && fgeti s (pgHOSTL l) F.HOSTL_PEER_FOLD w == f
      then fputi s (pgHOSTL l) F.HOSTL_PEER_ENABLE w 0 else s) s) t) :=
    foldl_stopKept_of_mem (fun v l hl => foldl_stopKept_of_mem (fun u w hw =>
      .ite (hpeer u (List.mem_range.1 hl) (List.mem_range.1 hw)) (.refl u)) v) t
  have hcols (t : State) (l : List ColSt) : StopKept f t (l.foldl undefCol t) :=
    foldl_stopKept (fun u x => .of_block (.of_regs (undefCol_memoryOnly u x).keeps_regs) (undefCol_memoryOnly u x).keeps_rst) l t
  unfold foldStop
  exact (hheads _).trans ((windowsFoldReset_stopKept ..).trans ((hpeers _).trans ((inpFoldReset_stopKept _ f hf).trans
    ((hcols ..).trans (colFoldReset_stopKept ..)))))

end

/-! ## The start of a reset -/

/-- A fold's fatal fault is taken. -/
def fatalTaken (s : State) (f : Nat) : State :=
  fput s pgFLT F.FLT_FOLDFATAL_FOLD (fget s pgFLT F.FLT_FOLDFATAL_FOLD - (fget s pgFLT F.FLT_FOLDFATAL_FOLD &&& 2 ^ f))

theorem testBit_fatalTaken (s : State) (f : Nat) : (fget (fatalTaken s f) pgFLT F.FLT_FOLDFATAL_FOLD).testBit f = false := by
  unfold fatalTaken
  rw [fget_fput_same _ _ _ _ (by decide), Nat.testBit_mod_two_pow, testBit_sub_and, Nat.testBit_two_pow_self, Bool.not_true,
    Bool.and_false, Bool.and_false]

/-- What is kept of the reset of a fold that starts (R463). -/
def rstRecord (s : State) (f cause unit detail : Nat) : FoldRst :=
  { cause := cause, unit := unit, detail := detail, dies := fget s (pgFOLD f) F.FOLD_DIES_DIES
    time := herdTime (fatalTaken s f)
    engines := ((sharedRecords (fatalTaken s f) f).filter fun e => e.1 / 65536 == 0x16).map (·.2) }

section
variable {s : State} {f : Nat} (he : foldEnabled s f = true) (hr : fbit s (pgFOLD f) F.FOLD_STS_RESETTING = false)
include he hr

theorem resetStart_of_enabled (cause unit detail : Nat) : resetStart s f cause unit detail =
    foldStop (putFoldRst (fatalTaken s f) f (rstRecord s f cause unit detail)) f := by
  unfold resetStart
  rw [he, hr, if_neg (by decide)]
  unfold rstRecord fatalTaken
  rfl

/-- A reset starts at Abort, with what its trigger gave; the fold shows it, and its fatal fault is taken. -/
theorem resetStart_begins (hf : f < 16) (cause unit detail : Nat) :
    fbit (resetStart s f cause unit detail) (pgFOLD f) F.FOLD_STS_RESETTING = true ∧
      (fget (resetStart s f cause unit detail) pgFLT F.FLT_FOLDFATAL_FOLD).testBit f = false ∧
      getFoldRst (resetStart s f cause unit detail) f = some (rstRecord s f cause unit detail) := by
  rw [resetStart_of_enabled he hr]
  obtain ⟨v, hv⟩ : ∃ v, v = putFoldRst (fatalTaken s f) f (rstRecord s f cause unit detail) := ⟨_, rfl⟩
  have hput : getFoldRst v f = some (rstRecord s f cause unit detail) := by
    rw [hv]
    exact (mget_mput ..).trans (if_pos rfl)
  have hfatal : (fget v pgFLT F.FLT_FOLDFATAL_FOLD).testBit f = false := by
    rw [hv]
    exact testBit_fatalTaken s f
  have hkept := foldStop_stopKept v f hf
  rw [← hv]
  refine ⟨?_, ?_, ?_⟩
  · exact (hkept.regs.fbit (.inl rfl)).trans (fbit_fputb_same v _ true rfl)
  · rw [hkept.regs.fget (.inr rfl)]
    have hpage : KeptAt (BlockPlace pgFLT) v (stopShown v f) := fput_page v 1 (by unfold pgFOLD pgFLT pageOf; omega) (by decide)
    rwa [hpage.fget (blockPlace_field (by decide))]
  · unfold getFoldRst
    rw [hkept.rst]
    exact hput

end

section
variable {s : State} {f : Nat} (hf : f < 16)
include hf

theorem foldFatal_answers {cause unit detail : Nat} (h2 : 2 ≤ cause) (h5 : cause ≤ 5) :
    (foldEnabled s f = true → fbit s (pgFOLD f) F.FOLD_STS_RESETTING = false →
      (fbit s pgFLT F.FLT_CTL_AUTO = false → Answers (.foldFatal f cause unit detail) s fun t =>
        (∀ g, (fget t pgFLT F.FLT_FOLDFATAL_FOLD).testBit g =
          ((fget s pgFLT F.FLT_FOLDFATAL_FOLD).testBit g || decide (g = f))) ∧ t.rst = s.rst ∧ t.mem = s.mem) ∧
      (fbit s pgFLT F.FLT_CTL_AUTO = true → Answers (.foldFatal f cause unit detail) s fun t =>
        fbit t (pgFOLD f) F.FOLD_STS_RESETTING = true ∧ ∃ x, getFoldRst t f = some x ∧ x.phase = .abort ∧
          x.cause = cause ∧ x.unit = unit ∧ x.detail = detail ∧ x.dies = fget s (pgFOLD f) F.FOLD_DIES_DIES)) ∧
    (foldEnabled s f = false ∨ fbit s (pgFOLD f) F.FOLD_STS_RESETTING = true →
      Answers (.foldFatal f cause unit detail) s fun t => t.rst = s.rst ∧ t.cmds = s.cmds ∧ t.mem = s.mem) := by
  have hexec := foldFatal_exec (s := s) (unit := unit) (detail := detail) hf h2 h5
  refine ⟨fun he hr => ⟨fun ha => ⟨_, hexec, ?_⟩, fun ha => ⟨_, hexec, ?_⟩⟩, fun h => ⟨_, hexec, ?_⟩⟩
  · have hc := foldFault_counts (f := f) ha cause unit detail
    exact ⟨fun g => testBit_foldFault ha he hr hf cause unit detail g, hc.keeps_rst, hc.keeps_mem⟩
  · obtain ⟨hshown, -, hrec⟩ := resetStart_begins he hr hf cause unit detail
    unfold foldFault
    rw [if_pos ha]
    exact ⟨hshown, _, hrec, rfl, rfl, rfl, rfl, rfl⟩
  · have hc := bump_counts s pgFLT 1
    rw [foldFault_counted h]
    exact ⟨hc.keeps_rst, hc.keeps_cmds, hc.keeps_mem⟩

theorem setBitsOf_two_pow : setBitsOf 16 (2 ^ f) = [f] := by
  unfold setBitsOf
  simp only [Nat.testBit_two_pow]
  interval_cases f <;> decide

theorem foldReset_answers {src : Src} {fs : BitVec 16} (hs : Rules s src) (hfs : fs.toNat = 2 ^ f) (he : foldEnabled s f = true)
    (hr : fbit s (pgFOLD f) F.FOLD_STS_RESETTING = false) : Answers (.foldReset src fs none) s fun t =>
      fbit t (pgFOLD f) F.FOLD_STS_RESETTING = true ∧ (fget t pgFLT F.FLT_FOLDFATAL_FOLD).testBit f = false ∧
      ∃ x, getFoldRst t f = some x ∧ x.phase = .abort ∧ x.cause = 1 ∧ x.dies = fget s (pgFOLD f) F.FOLD_DIES_DIES := by
  obtain ⟨hshown, htaken, hrec⟩ := resetStart_begins he hr hf 1 0 0
  refine ⟨resetStart s f 1 0 0, ?_, hshown, htaken, _, hrec, rfl, rfl, rfl⟩
  show Host.Outcome.next _ = _
  dsimp only
  rw [hs.1]
  dsimp only
  rw [guarded_of_rules hs, hfs, setBitsOf_two_pow hf]
  rfl

end

end Sys2Proof.Machine
end

section
/-! The Abort phase (R465, R466): the units that stop keep the contexts' folds and lose no command, so every command of the fold
ends. -/

namespace Sys2Proof.Machine

open Sys2Proof

/-! ## What the units' stops keep -/

/-- CTX_CFG of a context. -/
def CtxCfgPlace (k : Nat) : Prop := k / 32 % 1024 = 0x180

/-- Every context keeps its fold, and the same commands are in flight. -/
structure AbortKept (s t : State) : Prop where
  regs : KeptAt CtxCfgPlace s t
  ids : t.cmds.map Cmd.id = s.cmds.map Cmd.id

section
variable {s t u : State}

theorem AbortKept.refl (s : State) : AbortKept s s := ⟨.refl s, rfl⟩

theorem AbortKept.trans (h : AbortKept s t) (k : AbortKept t u) : AbortKept s u := ⟨h.regs.trans k.regs, k.ids.trans h.ids⟩

theorem AbortKept.of_quiet (h : QuietKept s t) (k : t.cmds = s.cmds) : AbortKept s t := by
  refine ⟨h.mono fun j hj => ?_, by rw [k]⟩
  unfold CtxCfgPlace at hj
  unfold QuietPlace
  omega

theorem AbortKept.of_block (h : BlockSame s t) (k : t.cmds = s.cmds) : AbortKept s t := .of_quiet h.quiet k

theorem AbortKept.of_regs (h : t.regs = s.regs) (k : t.cmds = s.cmds) : AbortKept s t := .of_block (.of_regs h) k

theorem AbortKept.ite {c : Prop} [Decidable c] (h : AbortKept s t) (k : AbortKept s u) : AbortKept s (if c then t else u) := by
  split
  · exact h
  · exact k

theorem foldl_abortKept {α : Type} {g : State → α → State} (hg : ∀ s x, AbortKept s (g s x)) (l : List α) (s : State) :
    AbortKept s (l.foldl g s) :=
  List.foldlRecOn (motive := AbortKept s) l g (.refl s) fun _ h x _ => h.trans (hg _ x)

theorem AbortKept.ctxFold (h : AbortKept s t) (c : Nat) : ctxFold t c = Machine.ctxFold s c := by
  have hplace {f : Field} (hf : f.off = 0x600 ∧ f.lo < 32) : CtxCfgPlace (fieldKey (pgCTX c) f.off f.lo) := by
    unfold CtxCfgPlace fieldKey
    omega
  unfold Machine.ctxFold
  rw [h.regs.fbit (hplace (by decide)), h.regs.fget (hplace (by decide))]

theorem AbortKept.ofFold (h : AbortKept s t) (f : Nat) {c d : Cmd} (hc : d.id = c.id) : ofFold t f d = Machine.ofFold s f c := by
  unfold Machine.ofFold
  rw [h.ctxFold, hc]

theorem findCmd_isSome (s : State) (id : CmdId) : (findCmd s id).isSome = true ↔ id ∈ s.cmds.map Cmd.id := by
  unfold findCmd
  rw [List.find?_isSome, List.mem_map]
  exact ⟨fun ⟨x, hx, h⟩ => ⟨x, hx, eq_of_beq h⟩, fun ⟨x, hx, h⟩ => ⟨x, hx, beq_iff_eq.2 h⟩⟩

theorem AbortKept.findCmd (h : AbortKept s t) {id : CmdId} (hs : (Machine.findCmd s id).isSome = true) :
    (Machine.findCmd t id).isSome = true := by
  rw [findCmd_isSome] at hs ⊢
  rwa [h.ids]

end

section
variable (s : State)

theorem fput_abortKept {page : Nat} {g : Field} (v : Nat) (h : g.off / 4 % 1024 ≠ 0x180 ∧ g.lo < 32) :
    AbortKept s (fput s page g v) := by
  refine ⟨fput_keptAt s v fun k => ?_, rfl⟩
  unfold CtxCfgPlace fieldKey at k
  omega

theorem bump_abortKept (page n : Nat) : AbortKept s (bump s page n) := .of_block (bump_blockSame ..) (bump_counts ..).keeps_cmds

theorem updCmd_abortKept (id : CmdId) {g : Cmd → Cmd} (hg : ∀ y, (g y).id = y.id) : AbortKept s (updCmd s id g) := by
  refine ⟨.of_regs rfl, ?_⟩
  show (s.cmds.map _).map Cmd.id = _
  rw [List.map_map]
  refine List.map_congr_left fun y _ => ?_
  show (if y.id == id then g y else y).id = y.id
  split
  · exact hg y
  · rfl

theorem tallyAdd_abortKept (c k n : Nat) : AbortKept s (tallyAdd s c k n) := by
  refine ⟨.of_regs (tallyAdd_regs ..), ?_⟩
  rw [tallyAdd_cmds, List.map_map]
  exact List.map_congr_left fun y _ => released_id ..

theorem finishCmd_abortKept (id : CmdId) (r : Res) : AbortKept s (finishCmd s id r) := by
  cases hx : findCmd s id with
  | none =>
    unfold finishCmd
    rw [hx]
    exact .refl s
  | some x =>
    by_cases hd : x.phase = .done
    · rw [finishCmd_of_done r hx hd]
      exact .refl s
    · have hcount : AbortKept s (countFault s id.ctx r.code) := by
        refine .of_block ?_ (countFault_counts ..).keeps_cmds
        unfold countFault
        split
        · exact .ite (bump_blockSame ..) (.ite (bump_blockSame ..) (.refl s))
        · exact .refl s
      have hrec : AbortKept s (recorded s id r x) := hcount.trans (updCmd_abortKept _ id fun _ => rfl)
      rw [finishCmd_of_not_done r hx hd]
      exact .ite hrec (.ite (hrec.trans (tallyAdd_abortKept ..)) (hrec.trans (bump_abortKept ..)))

theorem MemoryOnly.abortKept {s t : State} (h : MemoryOnly s t) : AbortKept s t := .of_regs h.keeps_regs h.keeps_cmds

/-! ## Units of the fold's dies -/

theorem haltCore_abortKept (c : PrepCore) (code : Nat) : AbortKept s (haltCore s c code) := by
  have hshown : AbortKept s (haltShown s c code) := ((fput_abortKept s _ (by decide)).trans
    ((fput_abortKept _ _ (by decide)).trans (fput_abortKept _ _ (by decide))))
  have hupd (l : List Nat) : AbortKept s (updCmd (haltShown s c code) (getCore s c).cmd fun y =>
      { y with left := y.left - 1, codes := y.codes ++ l }) := hshown.trans (updCmd_abortKept _ _ fun _ => rfl)
  unfold haltCore
  dsimp only
  split
  · exact .ite ((hupd _).trans (finishCmd_abortKept ..)) (hupd _)
  · exact hupd _

theorem stopLogged_abortKept (c : PrepCore) (cause off : Nat) : AbortKept s (stopLogged s c cause off) := by
  refine ⟨.ite ?_ ?_, by rw [(stopLogged_counts ..).keeps_cmds]⟩
  · exact (bump_abortKept ..).regs
  · exact (bump_abortKept ..).regs.trans ((coreFault_keptAt (fun t f v hf => (fput_abortKept t v ⟨by omega, hf.2.2⟩).regs) ..).trans
      (AbortKept.of_quiet (setLogged_quiet ..) (setLogged_counts ..).keeps_cmds).regs)

theorem stopCore_abortKept (c : PrepCore) (code cause off : Nat) : AbortKept s (stopCore s c code cause off) :=
  (stopLogged_abortKept ..).trans (haltCore_abortKept ..)

theorem listShow_abortKept (d p : Nat) : AbortKept s (listShow s d p) := by
  have hput (t : State) (g : Field) (v : Nat) (hg : g.off / 4 % 1024 ≠ 0x180 ∧ g.lo < 32) :
      AbortKept t (fput t (pgPENPREP d p) g v) := fput_abortKept t v hg
  unfold listShow
  dsimp only
  split
  · exact (hput _ _ _ (by decide)).trans (hput _ _ _ (by decide))
  · exact (hput _ _ _ (by decide)).trans ((hput _ _ _ (by decide)).trans
      ((hput _ _ _ (by decide)).trans (hput _ _ _ (by decide))))

/-- The cores of a fold's dies stop. -/
def coresStopped (s : State) (dies : Nat) : State :=
  s.preps.foldl (fun s e =>
    let c : PrepCore := ⟨e.1 / 36, e.1 / 4 % 9, e.1 % 4⟩
    if dies.testBit c.die && fbit s (corePage c) F.PREP_STS_RUNNING then stopCore s c stFOLDRESET 5 0 else s) s

/-- The arrays, hatches and list sequencers of a fold's dies run nothing. -/
def diesIdled (s : State) (dies : Nat) : State :=
  { s with
    arrs := s.arrs.map fun e => if !dies.testBit (e.1 / 360) then e
      else (e.1, { e.2 with fifo := [], passes := [], waves := [], staging := none, stream := [], back := [], again := [],
                            late := [] })
    hatches := s.hatches.map fun e => if !dies.testBit (e.1 / 9) then e else (e.1, { e.2 with fifo := [], run := none, late := [] })
    lists := mkeep s.lists fun k => !dies.testBit (k / 9) }

theorem abortDies_eq (dies : Nat) : ∃ gone : List Nat, abortDies s dies =
    gone.foldl (fun s k => listShow s (k / 9) (k % 9)) (diesIdled (coresStopped s dies) dies) := ⟨_, rfl⟩

theorem abortDies_abortKept (dies : Nat) : AbortKept s (abortDies s dies) := by
  have hcores : AbortKept s (coresStopped s dies) :=
    foldl_abortKept (fun t _ => .ite (stopCore_abortKept ..) (.refl t)) s.preps s
  have hidled (t : State) : AbortKept t (diesIdled t dies) := .of_regs rfl rfl
  obtain ⟨gone, h⟩ := abortDies_eq s dies
  rw [h]
  exact hcores.trans ((hidled _).trans (foldl_abortKept (fun t k => listShow_abortKept t (k / 9) (k % 9)) gone _))

/-! ## Drover engines, moves and schedules -/

theorem idleStream_abortKept (x : StreamId) : AbortKept s (idleStream s x) := .of_regs rfl rfl

theorem droverEnd_abortKept (t e : Nat) (r : DrvRun) (codes : List Nat) : AbortKept s (droverEnd s t e r codes) := by
  have hleft : AbortKept s (droverLeft s t e (resOf codes)) := by
    have hgone : AbortKept s { s with drvs := mdel s.drvs (t * 16 + e) } := .of_regs rfl rfl
    have hb (u : State) (n : Nat) := bump_abortKept u (pgDRV t e) n
    exact (hgone.trans (hb ..)).trans (.ite (hb ..) (.ite (hb ..) (.refl _)))
  exact hleft.trans (finishCmd_abortKept ..)

theorem drvDone_abortKept (t e : Nat) (id : CmdId) (r : Res) : AbortKept s (drvDone s t e id r) := by
  have hb (u : State) (pg n : Nat) := bump_abortKept u pg n
  unfold drvDone
  exact (hb ..).trans (AbortKept.trans (.ite (hb ..) (.ite (hb ..) (.refl _))) (finishCmd_abortKept ..))

theorem chunkRead_abortKept (tile f i : Nat) : AbortKept s (chunkRead s tile f i).1 := by
  refine .of_quiet ?_ (chunkRead_accessOnly ..).keeps_cmds
  unfold chunkRead
  exact .ite_fst (.refl s) (.ite_fst (cohRead_quiet ..) (cohRead_quiet ..))

theorem chunkWrite_abortKept (tile f i r : Nat) : AbortKept s (chunkWrite s tile f i r) := by
  refine .of_quiet ?_ (chunkWrite_accessOnly ..).keeps_cmds
  have hhome (t : State) (line pg : Nat) : QuietKept t (bump (homeTouch (homeTake t line) line) pg 7) :=
    (homeTake_quiet ..).trans ((homeTouch_quiet ..).trans (bump_quiet ..))
  have hput (t : State) (line pg : Nat) (b : Bool) (pa : Nat) (bs : List Byte) :
      QuietKept t (if b then bump (homeTouch (homeTake t line) line) pg 7
        else storeBytes (bump (homeTouch (homeTake t line) line) pg 7) pa bs false) :=
    .ite (hhome ..) ((hhome ..).trans (storeBytes_quiet ..))
  unfold chunkWrite
  dsimp only
  split
  · exact (agentYield_quiet ..).trans (hput ..)
  · exact hput ..

end

/-- What a run has written of some rows is undefined. -/
def rowsUndef (x : StreamId) (ctx : Nat) (g : Rows) (upto : Nat) (s : State) : State :=
  (List.range g.rows).foldl (fun s r =>
    if r * g.pitch < upto then undefVa s x ctx (g.base + r * g.pitch) (min g.len (upto - r * g.pitch)) else s) s

/-- A Drover engine's run stops (R466). -/
def runAborted (s : State) (e : Nat × DrvRun) : State :=
  let t := e.1 / 16
  let n := e.1 % 16
  let s := if (engineBelow s t n).isSome then putRst s fun r => { r with late := mput r.late (lateEngine t n) () } else s
  match findCmd s e.2.cmd with
  | none => s
  | some c =>
    let x : StreamId := .drover t n
    let g := vDest c false
    let s := if e.2.scales then rowsUndef x c.id.ctx (vDest c true) e.2.line (rowsUndef x c.id.ctx g (g.hi - g.base) s)
      else rowsUndef x c.id.ctx g e.2.line s
    idleStream (droverEnd s t n e.2 (e.2.codes ++ [stFOLDRESET])) x

/-- What asked for a chunk's move ends. -/
def askerTold (s : State) (t e : Nat) (b : ChunkBy) : State :=
  match b with
  | .cmd id => drvDone s t e id (resOf [stFOLDRESET])
  | .entry _ _ => s

/-- A chunk's move stops. -/
def moveAborted (s : State) (m : ChunkMove) : State :=
  askerTold (undefLines (endMove s m) (moveDest m).1 (moveDest m).2) m.tile m.engine m.by_

/-- The fold's wait lists and schedules are gone. -/
def waitsGone (s : State) (f : Nat) : State :=
  { s with waits := s.waits.filter fun w => w.fold != f, scheds := s.scheds.filter fun r => r.fold != f }

/-- A schedule's commands end. -/
def schedAborted (s : State) (r : SchedSt) : State := (r.id :: r.cancellers).foldl (fun s c => askerTold s r.tile 0 (.cmd c)) s

/-- An Etch unit's run stops. -/
def etchAborted (s : State) (e : Nat × EtchRun) : State :=
  idleStream (etchEnd s (e.1 / 8) (e.1 % 8) e.2.id (resOf (e.2.codes ++ [stFOLDRESET]))) (.etch (e.1 / 8) (e.1 % 8))

/-- The fold's runs and moves stop. -/
def movesAborted (s : State) (f : Nat) : State :=
  let s := (s.drvs.filter fun e => e.2.fold == f).foldl runAborted s
  (s.moves.filter fun m => m.fold == f).foldl moveAborted s

/-- The fold's wait lists and schedules end. -/
def schedsAborted (s : State) (f : Nat) : State :=
  (s.scheds.filter fun r => r.fold == f).foldl schedAborted
    ((s.waits.filter fun w => w.fold == f).foldl (fun s w => askerTold s w.tile noEngine w.by_) (waitsGone s f))

section
variable (s : State)

theorem rowsUndef_abortKept (x : StreamId) (ctx : Nat) (g : Rows) (upto : Nat) : AbortKept s (rowsUndef x ctx g upto s) :=
  foldl_abortKept (fun t _ => .ite (undefVa_memoryOnly ..).abortKept (.refl t)) _ s

theorem runAborted_abortKept (e : Nat × DrvRun) : AbortKept s (runAborted s e) := by
  have hlate : AbortKept s (if (engineBelow s (e.1 / 16) (e.1 % 16)).isSome then
      putRst s fun r => { r with late := mput r.late (lateEngine (e.1 / 16) (e.1 % 16)) () } else s) :=
    .ite (.of_regs rfl rfl) (.refl s)
  unfold runAborted
  dsimp only
  split
  · exact hlate
  · refine hlate.trans (AbortKept.trans (.ite ?_ (rowsUndef_abortKept ..))
      ((droverEnd_abortKept ..).trans (idleStream_abortKept ..)))
    exact (rowsUndef_abortKept ..).trans (rowsUndef_abortKept ..)

theorem askerTold_abortKept (t e : Nat) (b : ChunkBy) : AbortKept s (askerTold s t e b) := by
  cases b with
  | cmd id => exact drvDone_abortKept ..
  | entry _ _ => exact .refl s

theorem moveAborted_abortKept (m : ChunkMove) : AbortKept s (moveAborted s m) := by
  have hend : AbortKept s (endMove s m) := .of_regs rfl rfl
  exact hend.trans ((undefLines_memoryOnly ..).abortKept.trans (askerTold_abortKept ..))

theorem schedAborted_abortKept (r : SchedSt) : AbortKept s (schedAborted s r) :=
  foldl_abortKept (fun t c => askerTold_abortKept t r.tile 0 (.cmd c)) (r.id :: r.cancellers) s

theorem schedsAborted_abortKept (f : Nat) : AbortKept s (schedsAborted s f) := by
  have hgone : AbortKept s (waitsGone s f) := .of_regs rfl rfl
  unfold schedsAborted
  exact hgone.trans ((foldl_abortKept (fun u (w : ChunkWait) => askerTold_abortKept u w.tile noEngine w.by_) _ _).trans
    (foldl_abortKept schedAborted_abortKept _ _))

/-- At last every chunk becomes LOW (R228). -/
theorem abortDrover_chunks (f : Nat) : ∃ low : State → Nat → State, abortDrover s f =
    (List.range (chunkCount (schedsAborted (movesAborted s f) f) f)).foldl low (schedsAborted (movesAborted s f) f) ∧
      ∀ t i, AbortKept t (low t i) := by
  refine ⟨_, rfl, fun t i => ?_⟩
  have hread := chunkRead_abortKept t 0 f i
  generalize chunkRead t 0 f i = rd at hread ⊢
  obtain ⟨u, r⟩ := rd
  cases r with
  | ok r =>
    dsimp only at hread ⊢
    generalize ckSet _ _ _ _ = low
    exact .ite hread (hread.trans (chunkWrite_abortKept ..))
  | error _ => exact hread

theorem abortDrover_abortKept (f : Nat) : AbortKept s (abortDrover s f) := by
  have hmoves : AbortKept s (movesAborted s f) :=
    (foldl_abortKept runAborted_abortKept _ s).trans (foldl_abortKept moveAborted_abortKept _ _)
  obtain ⟨low, h, hlow⟩ := abortDrover_chunks s f
  rw [h]
  exact hmoves.trans ((schedsAborted_abortKept ..).trans (foldl_abortKept hlow _ _))

/-! ## Etch units -/

theorem etchEnd_abortKept (t u : Nat) (id : CmdId) (r : Res) : AbortKept s (etchEnd s t u id r) := by
  have hgone : AbortKept s (putTrn s fun x => { x with units := mdel x.units (t * 8 + u) }) := .of_regs rfl rfl
  have hb (v : State) (n : Nat) := bump_abortKept v (pgETCH t u) n
  have hleft : AbortKept s (etchLeft s t u r) := (hgone.trans (hb ..)).trans (.ite (hb ..) (.refl _))
  exact hleft.trans (finishCmd_abortKept ..)

/-- The run pools, the sequencers and the STEP_SETs without the fold's. -/
def poolsLeft (s : State) (f : Nat) : State :=
  putTrn s fun x => { x with
    pool := x.pool.filter fun r => r.fold != f
    seqs := mkeep x.seqs fun c => !(ctxFold s c == some f)
    pend := mkeep x.pend fun c => !(ctxFold s c == some f) }

theorem abortEtch_eq (f : Nat) : abortEtch s f = 
    poolsLeft ((s.trn.units.filter fun e => e.2.fold == f).foldl etchAborted s) f := rfl

theorem abortEtch_abortKept (f : Nat) : AbortKept s (abortEtch s f) := by
  have hput (t : State) : AbortKept t (poolsLeft t f) := .of_regs rfl rfl
  have hrun (t : State) (e : Nat × EtchRun) : AbortKept t (etchAborted t e) :=
    (etchEnd_abortKept ..).trans (idleStream_abortKept ..)
  rw [abortEtch_eq]
  exact (foldl_abortKept hrun _ s).trans (hput ..)

/-- The units' stops. -/
theorem unitsStopped_abortKept (f dies : Nat) : AbortKept s (abortEtch (abortDrover (abortDies s dies) f) f) :=
  (abortDies_abortKept ..).trans ((abortDrover_abortKept ..).trans (abortEtch_abortKept ..))

end

/-! ## The fold's commands -/

/-- What has become of a command that is told its end: it has ended, if it is there. -/
def DoneIfThere (t : State) (id : CmdId) : Prop := ∀ y, findCmd t id = some y → y.phase = .done

theorem doneIfThere_finishCmd (t : State) (id : CmdId) (r : Res) : DoneIfThere (finishCmd t id r) id := by
  intro y hy
  cases hx : findCmd t id with
  | none =>
    have hs : finishCmd t id r = t := by
      unfold finishCmd
      rw [hx]
    rw [hs, hx] at hy
    cases hy
  | some x =>
    by_cases hd : x.phase = .done
    · rw [finishCmd_of_done r hx hd, hx] at hy
      cases hy
      exact hd
    · rw [findCmd_finishCmd r hx hd] at hy
      cases hy
      rfl

theorem DoneIfThere.finishCmd {t : State} {id : CmdId} (h : DoneIfThere t id) (id' : CmdId) (r : Res) :
    DoneIfThere (finishCmd t id' r) id := by
  intro y hy
  have hthere : (findCmd t id).isSome = true := by
    rw [findCmd_isSome, ← (finishCmd_abortKept t id' r).ids, ← findCmd_isSome, hy]
    rfl
  obtain ⟨x, hx⟩ := Option.isSome_iff_exists.1 hthere
  have hd := h x hx
  rw [findCmd_finishCmd_kept hx (by rw [hd]; decide) (.inr hd)] at hy
  cases hy
  exact hd

/-- Every command of the fold ends with FOLD_RESET and the conditions it has met. -/
def cmdsEnded (s : State) (f : Nat) (met : List (CmdId × Nat)) : State :=
  (s.cmds.filter (ofFold s f)).foldl (fun s c =>
    let cond := ((met.find? fun m => m.1 == c.id).map (·.2)).getD 0
    finishCmd s c.id (withConds (resOf (c.codes ++ [stFOLDRESET])) cond)) s

theorem cmdsEnded_abortKept (s : State) (f : Nat) (met : List (CmdId × Nat)) : AbortKept s (cmdsEnded s f met) :=
  foldl_abortKept (fun _ _ => finishCmd_abortKept ..) _ s

theorem done_cmdsEnded {s : State} {f : Nat} {id : CmdId} {c : Cmd} (hc : findCmd s id = some c) (hf : ofFold s f c = true)
    (met : List (CmdId × Nat)) : ∃ y, findCmd (cmdsEnded s f met) id = some y ∧ y.phase = .done := by
  have hid : c.id = id := id_of_findCmd hc
  have hmem : c ∈ s.cmds.filter (ofFold s f) := List.mem_filter.2 ⟨List.mem_of_find?_eq_some hc, hf⟩
  have hdone : DoneIfThere (cmdsEnded s f met) id :=
    foldl_of_mem (P := fun t => DoneIfThere t id) hmem (fun t => hid ▸ doneIfThere_finishCmd t c.id _)
      (fun t x _ _ ht => DoneIfThere.finishCmd ht x.id _) s
  obtain ⟨y, hy⟩ := Option.isSome_iff_exists.1 ((cmdsEnded_abortKept s f met).findCmd (id := id) (by rw [hc]; rfl))
  exact ⟨y, hy, hdone y hy⟩

/-- The conditions that the fold's commands have met. -/
def metConds (s : State) (f : Nat) : List (CmdId × Nat) := (s.cmds.filter (ofFold s f)).map fun c => (c.id, descConds s c.id)

/-- The engine records at Abort. -/
def abortRecs (s : State) (f : Nat) (x : FoldRst) : List (List Byte) :=
  sortRecs (dieRecords s f x.dies ++ sharedRecords s f ++ x.engines.map fun r => (field r 0 4, r))

/-- The fold's units have stopped, and its commands have ended. -/
def workEnded (s : State) (f dies : Nat) : State := cmdsEnded (abortEtch (abortDrover (abortDies s dies) f) f) f (metConds s f)

theorem foldAbort_eq (s : State) (f : Nat) (x : FoldRst) : foldAbort s f x =
    putFoldRst (freeSlots (workEnded s f x.dies) f) f { x with phase := .drain, engines := abortRecs s f x } := by
  unfold foldAbort workEnded cmdsEnded metConds abortRecs
  rfl

theorem done_workEnded {s : State} {f dies : Nat} {id : CmdId} {c : Cmd} (hc : findCmd s id = some c) (hf : ofFold s f c = true) :
    ∃ y, findCmd (workEnded s f dies) id = some y ∧ y.phase = .done := by
  have hkept := unitsStopped_abortKept s f dies
  obtain ⟨d, hd⟩ := Option.isSome_iff_exists.1 (hkept.findCmd (id := id) (by rw [hc]; rfl))
  exact done_cmdsEnded hd ((hkept.ofFold f ((id_of_findCmd hd).trans (id_of_findCmd hc).symm)).trans hf) _

theorem findCmd_putFoldRst (s : State) (f : Nat) (x : FoldRst) (id : CmdId) : findCmd (putFoldRst s f x) id = findCmd s id := rfl

theorem findCmd_freeSlots (s : State) (f : Nat) (id : CmdId) : findCmd (freeSlots s f) id = findCmd s id := rfl

theorem getFoldRst_putFoldRst (s : State) (f : Nat) (x : FoldRst) : getFoldRst (putFoldRst s f x) f = some x :=
  (mget_mput ..).trans (if_pos rfl)

theorem foldAbortDone_answers {s : State} {f : Nat} {x : FoldRst} (hx : getFoldRst s f = some x) (hp : x.phase = .abort)
    (hs : pkgStopped s = false) : Answers (.foldAbortDone f) s fun t =>
      (∃ y, getFoldRst t f = some y ∧ y.phase = .drain ∧ y.dies = x.dies ∧ y.cause = x.cause) ∧
      ∀ id c, findCmd s id = some c → ofFold s f c = true → ∃ y, findCmd t id = some y ∧ y.phase = .done := by
  have hexec : exec (.foldAbortDone f) s = .next (foldAbort s f x) := by
    show Host.Outcome.next _ = _
    rw [hx]
    dsimp only
    rw [hp, hs]
    rfl
  rw [foldAbort_eq] at hexec
  refine ⟨_, hexec, ⟨{ x with phase := .drain, engines := abortRecs s f x }, getFoldRst_putFoldRst .., rfl, rfl, rfl⟩,
    fun id c hc hf => ?_⟩
  rw [findCmd_putFoldRst, findCmd_freeSlots]
  exact done_workEnded hc hf

end Sys2Proof.Machine
end

section
/-! Capture, drain and clear (R465, R468, R470 to R473): a fold's dies clear once the capture and the drain have both ended. -/

namespace Sys2Proof.Machine

open Sys2Proof

/-! ## A record kept -/

section
variable (s : State) (f : Nat) (x : FoldRst)

theorem putFoldRst_mem : (putFoldRst s f x).mem = s.mem := rfl

theorem putFoldRst_reqs : (putFoldRst s f x).fab.reqs = s.fab.reqs := rfl

theorem putFoldRst_memc : (putFoldRst s f x).memc = s.memc := rfl

theorem fgeti_putFoldRst (page : Nat) (g : Field) (i : Nat) : fgeti (putFoldRst s f x) page g i = fgeti s page g i := rfl

theorem pkgStopped_putFoldRst : pkgStopped (putFoldRst s f x) = pkgStopped s := rfl

end

/-! ## The clear begins -/

theorem storeClear_rst (s : State) (d : Nat) (cause : ClearCause) : (storeClear s d cause).rst = s.rst := by
  cases cause <;> rfl

section
variable {s : State} {f : Nat} {x : FoldRst} (hx : getFoldRst s f = some x)
include hx

theorem clearStart_waits (h : (x.captured && x.drained) = false) : clearStart s f = s := by
  unfold clearStart
  rw [hx]
  refine if_neg ?_
  rw [Bool.and_assoc (x.phase == .drain), h, Bool.and_false, Bool.false_and]
  exact Bool.false_ne_true

/-- The state in which the dies of a reset have begun to clear. -/
def clearsBegun (s : State) (f : Nat) (x : FoldRst) : State :=
  (setBitsOf 16 x.dies).foldl (fun s d => storeClear s d .foldReset) (putFoldRst s f { x with phase := .clear })

theorem clearStart_begins (hp : x.phase = .drain) (hc : x.captured = true) (hd : x.drained = true) (hs : pkgStopped s = false) :
    clearStart s f = clearsBegun s f x := by
  unfold clearStart clearsBegun
  rw [hx]
  dsimp only
  rw [hp, hc, hd, hs]
  rfl

omit hx in
theorem initBusy_clearsBegun (s : State) (f : Nat) (x : FoldRst) {d : Nat} (hd : d < 16) (hb : x.dies.testBit d = true) :
    fbit (clearsBegun s f x) (pgSPAD d) F.SPAD_STS_INIT_BUSY = true :=
  foldl_of_mem (P := fun t => fbit t (pgSPAD d) F.SPAD_STS_INIT_BUSY = true) (mem_setBitsOf.2 ⟨hd, hb⟩)
    (fun t => storeClear_initBusy t d _)
    (fun t _ _ hne ht => ((storeClear_pageSame t _ _ (pgSPAD_ne hne)).fbit (by decide)).trans ht) _

omit hx in
theorem getFoldRst_clearsBegun (s : State) (f : Nat) (x : FoldRst) :
    getFoldRst (clearsBegun s f x) f = some { x with phase := .clear } := by
  refine List.foldlRecOn (motive := fun t => getFoldRst t f = some { x with phase := .clear }) _ _
    (getFoldRst_putFoldRst ..) fun t ht d _ => ?_
  unfold getFoldRst at ht ⊢
  rwa [storeClear_rst]

end

/-- Clears of the dies that a reset names, and its record in phase Clear. -/
def Clearing (t : State) (f : Nat) (x : FoldRst) : Prop :=
  (∀ d, d < 16 → x.dies.testBit d = true → fbit t (pgSPAD d) F.SPAD_STS_INIT_BUSY = true) ∧
    ∃ y, getFoldRst t f = some y ∧ y.phase = .clear ∧ y.dies = x.dies

theorem clearing_of_drained {s : State} {f : Nat} {x : FoldRst} (hp : x.phase = .drain) (hc : x.captured = true)
    (hs : pkgStopped s = false) : Clearing (clearStart (putFoldRst s f { x with drained := true }) f) f x := by
  rw [clearStart_begins (getFoldRst_putFoldRst ..) (by exact hp) (by exact hc) rfl ((pkgStopped_putFoldRst ..).trans hs)]
  exact ⟨fun d hd hb => initBusy_clearsBegun _ f _ hd hb, _, getFoldRst_clearsBegun .., rfl, rfl⟩

theorem clearStart_uncaptured (s : State) (f : Nat) {x : FoldRst} (hc : x.captured = false) :
    clearStart (putFoldRst s f { x with drained := true }) f = putFoldRst s f { x with drained := true } :=
  clearStart_waits (getFoldRst_putFoldRst ..) (by rw [hc]; rfl)

/-! ## The drain ends (R468) -/

theorem foldDrainDone_exec {s : State} {f : Nat} {x : FoldRst} (hx : getFoldRst s f = some x) (hp : x.phase = .drain)
    (hd : x.drained = false) (hs : pkgStopped s = false) (hdr : foldDrained s f = true) :
    exec (.foldDrainDone f) s = .next (clearStart (putFoldRst s f { x with drained := true }) f) := by
  have hcond : (x.phase == .drain && !x.drained && foldDrained s f && !pkgStopped s) = true := by rw [hp, hd, hs, hdr]; rfl
  show Host.Outcome.next _ = _
  rw [hx]
  dsimp only
  rw [if_pos hcond]

/-- A controller's queue loses the fold's requests. -/
def queueDropped (f : Nat) (s : State) (k : Nat) : State :=
  let n := (foldQueued s f k).length
  if n = 0 then s
  else bumpBy (putWaiting s k ((memcWaiting s k).filter fun x => x.fold != some f)) pgFLT 6 n

/-- The fold's requests to other packages are not waited for. -/
def requestsDropped (s : State) (f : Nat) : State :=
  let gone := s.fab.reqs.filter fun e => e.2.flit.srcFold == f
  putRst (putFab s fun b => { b with reqs := b.reqs.filter fun e => e.2.flit.srcFold != f }) fun r =>
    { r with late := gone.foldl (fun m e => mput m (lateWindow e.1) ()) r.late }

theorem dropRequests_eq (s : State) (f : Nat) : dropRequests s f =
    requestsDropped ((List.range 12).foldl (queueDropped f) s) f := by
  unfold dropRequests requestsDropped queueDropped
  rfl

theorem requestsDropped_mem (s : State) (f : Nat) : (requestsDropped s f).mem = s.mem := rfl

theorem requestsDropped_memc (s : State) (f : Nat) : (requestsDropped s f).memc = s.memc := rfl

theorem requestsDropped_regs (s : State) (f : Nat) : (requestsDropped s f).regs = s.regs := rfl

theorem requestsDropped_reqs (s : State) (f : Nat) :
    (requestsDropped s f).fab.reqs = s.fab.reqs.filter fun e => e.2.flit.srcFold != f := rfl

theorem foldQueued_congr {s t : State} (h : t.memc = s.memc) (f k : Nat) : foldQueued t f k = foldQueued s f k := by
  unfold foldQueued memcWaiting
  rw [h]

/-- The drop of queued requests keeps memory and the registers. -/
theorem queueDropped_kept (f : Nat) (s : State) (k : Nat) : (queueDropped f s k).mem = s.mem ∧ BlockSame s (queueDropped f s k) := by
  unfold queueDropped
  dsimp only
  split
  · exact ⟨rfl, .refl s⟩
  · obtain ⟨l, hl⟩ : ∃ l, l = (memcWaiting s k).filter fun x => x.fold != some f := ⟨_, rfl⟩
    rw [← hl]
    have hput : BlockSame s (putWaiting s k l) := .of_regs rfl
    exact ⟨(bumpBy_counts ..).keeps_mem, hput.trans (bumpBy_blockSame ..)⟩

theorem dropRequests_kept (s : State) (f : Nat) : (dropRequests s f).mem = s.mem ∧ BlockSame s (dropRequests s f) := by
  have hqueues := List.foldlRecOn (motive := fun t : State => t.mem = s.mem ∧ BlockSame s t) (List.range 12) (queueDropped f)
    (b := s) ⟨rfl, .refl s⟩ fun t ⟨hm, hb⟩ k _ =>
      ⟨(queueDropped_kept f t k).1.trans hm, hb.trans (queueDropped_kept f t k).2⟩
  obtain ⟨hm, hb⟩ := hqueues
  rw [dropRequests_eq]
  exact ⟨(requestsDropped_mem ..).trans hm, hb.trans (.of_regs (requestsDropped_regs ..))⟩

theorem memcWaiting_bumpBy (s : State) (page n k stack : Nat) : memcWaiting (bumpBy s page n k) stack = memcWaiting s stack := by
  unfold memcWaiting
  rw [(bumpBy_counts ..).keeps_memc]

theorem memcWaiting_putWaiting_ne (s : State) {j k : Nat} (h : j ≠ k) (l : List MemAccess) :
    memcWaiting (putWaiting s j l) k = memcWaiting s k := (mgetD_mput ..).trans (if_neg h)

theorem foldQueued_queueDropped_same (f : Nat) (s : State) (k : Nat) : foldQueued (queueDropped f s k) f k = [] := by
  unfold queueDropped
  dsimp only
  split
  · next h => exact List.eq_nil_of_length_eq_zero h
  · unfold foldQueued
    rw [memcWaiting_bumpBy, memcWaiting_putWaiting, List.filter_filter, List.filter_eq_nil_iff]
    intro y _
    cases hy : y.fold == some f <;> simp [bne, hy]

theorem foldQueued_queueDropped_ne (f : Nat) (s : State) {j k : Nat} (h : j ≠ k) :
    foldQueued (queueDropped f s j) f k = foldQueued s f k := by
  unfold queueDropped
  dsimp only
  split
  · rfl
  · unfold foldQueued
    rw [memcWaiting_bumpBy, memcWaiting_putWaiting_ne _ h]

theorem foldQueued_dropRequests (s : State) (f : Nat) {k : Nat} (hk : k < 12) : foldQueued (dropRequests s f) f k = [] := by
  rw [dropRequests_eq, foldQueued_congr (requestsDropped_memc ..)]
  exact foldl_of_mem (P := fun t => foldQueued t f k = []) (List.mem_range.2 hk) (fun t => foldQueued_queueDropped_same f t k)
    (fun t j _ hne ht => (foldQueued_queueDropped_ne f t hne).trans ht) s

theorem reqs_dropRequests (s : State) (f : Nat) : ∀ e ∈ (dropRequests s f).fab.reqs, e.2.flit.srcFold ≠ f := fun e he => by
  rw [dropRequests_eq, requestsDropped_reqs] at he
  simpa using (List.mem_filter.1 he).2

/-- The limit's run-out, counted. -/
def limitCounted (s : State) (removed : Nat) : State := bumpBy (bump s pgFLT 5) pgFLT 6 removed

theorem limitCounted_mem (s : State) (removed : Nat) : (limitCounted s removed).mem = s.mem :=
  ((bump_counts ..).trans (bumpBy_counts ..)).keeps_mem

theorem pkgStopped_limit (s : State) (f removed : Nat) : pkgStopped (dropRequests (limitCounted s removed) f) = pkgStopped s := by
  have h : BlockSame s (dropRequests (limitCounted s removed) f) :=
    ((bump_blockSame ..).trans (bumpBy_blockSame ..)).trans (dropRequests_kept ..).2
  exact congrArg (· == 1) (h.fget _ (by decide))

theorem drainLimitExpire_exec {s : State} {f : Nat} {x : FoldRst} (hx : getFoldRst s f = some x) (hp : x.phase = .drain)
    (hd : x.drained = false) (hs : pkgStopped s = false) (n : Nat) : exec (.drainLimitExpire f n) s =
      .next (clearStart (putFoldRst (dropRequests (limitCounted s n) f) f { x with drained := true }) f) := by
  have hcond : (x.phase == .drain && !x.drained && !pkgStopped s) = true := by rw [hp, hd, hs]; rfl
  show Host.Outcome.next _ = _
  rw [hx]
  dsimp only
  rw [if_pos hcond]
  rfl

theorem drain_answers {s : State} {f : Nat} {x : FoldRst} (hx : getFoldRst s f = some x) (hs : pkgStopped s = false)
    (hp : x.phase = .drain) (hd : x.drained = false) :
    (foldDrained s f = true → x.captured = false → Answers (.foldDrainDone f) s fun t =>
      getFoldRst t f = some { x with drained := true } ∧ t.mem = s.mem) ∧
    (foldDrained s f = true → x.captured = true → Answers (.foldDrainDone f) s fun t => Clearing t f x) ∧
    (∀ n, x.captured = true → Answers (.drainLimitExpire f n) s fun t => Clearing t f x) ∧
    (∀ n, x.captured = false → Answers (.drainLimitExpire f n) s fun t =>
      getFoldRst t f = some { x with drained := true } ∧ (∀ k, k < 12 → foldQueued t f k = []) ∧
      (∀ e ∈ t.fab.reqs, e.2.flit.srcFold ≠ f) ∧ t.mem = s.mem) := by
  refine ⟨fun hdr hc => ⟨_, foldDrainDone_exec hx hp hd hs hdr, ?_⟩, fun hdr hc => ⟨_, foldDrainDone_exec hx hp hd hs hdr, ?_⟩,
    fun n hc => ⟨_, drainLimitExpire_exec hx hp hd hs n, ?_⟩, fun n hc => ⟨_, drainLimitExpire_exec hx hp hd hs n, ?_⟩⟩
  · rw [clearStart_uncaptured s f hc]
    exact ⟨getFoldRst_putFoldRst .., putFoldRst_mem ..⟩
  · exact clearing_of_drained hp hc hs
  · exact clearing_of_drained hp hc ((pkgStopped_limit ..).trans hs)
  · rw [clearStart_uncaptured _ f hc]
    beta_reduce
    rw [putFoldRst_mem, putFoldRst_reqs, (dropRequests_kept ..).1, limitCounted_mem]
    refine ⟨getFoldRst_putFoldRst .., fun k hk => ?_, reqs_dropRequests _ f, rfl⟩
    rw [foldQueued_congr (putFoldRst_memc ..)]
    exact foldQueued_dropRequests _ f hk

/-! ## The capture ends (R470) -/

theorem foldCaptureDone_exec {s : State} {f : Nat} {x : FoldRst} (hx : getFoldRst s f = some x) (hp : x.phase = .drain)
    (hc : x.captured = false) (hd : x.drained = false) :
    exec (.foldCaptureDone f) s = .next (putFoldRst (capture s f x) f { x with captured := true }) := by
  have hwaits : clearStart (putFoldRst (capture s f x) f { x with captured := true }) f =
      putFoldRst (capture s f x) f { x with captured := true } :=
    clearStart_waits (getFoldRst_putFoldRst ..) (by rw [hd]; rfl)
  have hcond : (x.phase == .drain && !x.captured) = true := by rw [hp, hc]; rfl
  show Host.Outcome.next _ = _
  rw [hx]
  dsimp only
  rw [if_pos hcond, hwaits]

/-- The capture's number is counted last. -/
theorem captureWrite_counts_last (s : State) (f lo : Nat) (x : FoldRst) : ∃ u n, captureWrite s f lo x =
    bumpBy (bump (fputi u pgFLT F.FLT_CAP_HI_SEQ f (fgeti s pgFLT F.FLT_CAP_HI_SEQ f + 1)) pgFLT 2) pgFLT 4 n := by
  unfold captureWrite
  exact ⟨_, _, rfl⟩

theorem seq_captureWrite (s : State) {f : Nat} (hf : f < 16) (lo : Nat) (x : FoldRst) :
    fgeti (captureWrite s f lo x) pgFLT F.FLT_CAP_HI_SEQ f = (fgeti s pgFLT F.FLT_CAP_HI_SEQ f + 1) % 65536 := by
  have hoff : 256 ≤ F.FLT_CAP_HI_SEQ.off + f * F.FLT_CAP_HI_SEQ.stride ∧
      F.FLT_CAP_HI_SEQ.off + f * F.FLT_CAP_HI_SEQ.stride < 4096 ∧ F.FLT_CAP_HI_SEQ.lo < 32 := by
    simp only [F.FLT_CAP_HI_SEQ]
    omega
  obtain ⟨u, n, h⟩ := captureWrite_counts_last s f lo x
  rw [h, fgeti_bumpBy _ _ _ _ hoff, fgeti_bump _ _ _ _ hoff, fgeti_fputi_same _ _ _ _ _ (by decide)]
  rfl

theorem capture_answers {s : State} {f : Nat} {x : FoldRst} (hx : getFoldRst s f = some x) (hp : x.phase = .drain)
    (hc : x.captured = false) (hd : x.drained = false) :
    (captureArea s f x.dies = none → Answers (.foldCaptureDone f) s fun t =>
      getFoldRst t f = some { x with captured := true } ∧ fbit t pgFLT F.FLT_STS_CAP_SKIP = true ∧ t.mem = s.mem) ∧
    (∀ lo, captureArea s f x.dies = some lo → f < 16 → Answers (.foldCaptureDone f) s fun t =>
      getFoldRst t f = some { x with captured := true } ∧
      fgeti t pgFLT F.FLT_CAP_HI_SEQ f = (fgeti s pgFLT F.FLT_CAP_HI_SEQ f + 1) % 65536) := by
  have hexec := foldCaptureDone_exec hx hp hc hd
  unfold capture at hexec
  refine ⟨fun ha => ?_, fun lo ha hf => ?_⟩
  · rw [ha] at hexec
    refine ⟨_, hexec, getFoldRst_putFoldRst .., ?_, ?_⟩
    · exact (congrArg (· == 1) ((fgeti_putFoldRst ..).trans ((bump_blockSame ..).fget _ (by decide)))).trans
        (fbit_fputb_same s _ true rfl)
    · exact (putFoldRst_mem ..).trans (bump_counts ..).keeps_mem
  · rw [ha] at hexec
    exact ⟨_, hexec, getFoldRst_putFoldRst .., (fgeti_putFoldRst ..).trans (seq_captureWrite s hf lo x)⟩

end Sys2Proof.Machine
end

section
/-! Release (R462, R465, R466, R470): the fold's contexts and dies are as new, its commands are gone, and it has lost its offline
dies. -/

namespace Sys2Proof.Machine

open Sys2Proof

/-! ## What a release keeps -/

/-- A fold's dies, the dies offline, and the armed event entries. -/
def ReleasePlace (f k : Nat) : Prop :=
  AtField (pgFOLD f) F.FOLD_DIES_DIES k ∨ AtField pgFLT F.FLT_OFFLINE_DIES k ∨ AtField pgHERD F.HERD_EVTVALID_ARMED k

/-- `t` differs from `s` in what a release clears at most: queues, streams, tallies, fault slots, the dies' units, training, power
and reports. -/
def ReleaseOnly (s t : State) : Prop := t = { s with
  regs := t.regs, cnt := t.cnt, out := t.out, fltLog := t.fltLog, queues := t.queues, streams := t.streams, tallies := t.tallies
  folds := t.folds, arrs := t.arrs, arrCtl := t.arrCtl, preps := t.preps, trn := t.trn, pwr := t.pwr }

/-- A release of part of a fold keeps these places, and nothing comes to wait for a tick. -/
structure ReleaseKept (f : Nat) (s t : State) : Prop where
  regs : KeptAt (ReleasePlace f) s t
  rest : ReleaseOnly s t
  pend : s.trn.pend = [] → t.trn.pend = []
  cap : t.pwr.capNext = s.pwr.capNext

theorem releasePlace_block {f k : Nat} (h : ReleasePlace f k) : 64 ≤ k / 32 % 1024 := by
  obtain h | h | h := h
  · exact atField_block (by decide) h
  · exact atField_block (by decide) h
  · exact atField_block (by decide) h

theorem Counts.releaseOnly {s t : State} (h : Counts s t) : ReleaseOnly s t := by
  unfold Counts at h
  unfold ReleaseOnly
  rw [h]

section
variable {f : Nat} {s t u : State}

theorem ReleaseOnly.trans (h : ReleaseOnly s t) (k : ReleaseOnly t u) : ReleaseOnly s u := by
  unfold ReleaseOnly at h k ⊢
  rw [k, h]

section
variable (h : ReleaseOnly s t)
include h

theorem ReleaseOnly.keeps_mem : t.mem = s.mem := by
  unfold ReleaseOnly at h
  rw [h]

theorem ReleaseOnly.keeps_cmds : t.cmds = s.cmds := by
  unfold ReleaseOnly at h
  rw [h]

theorem ReleaseOnly.keeps_herd : t.herd = s.herd := by
  unfold ReleaseOnly at h
  rw [h]

end

theorem ReleaseKept.refl (s : State) : ReleaseKept f s s := ⟨.refl s, rfl, id, rfl⟩

theorem ReleaseKept.trans (h : ReleaseKept f s t) (k : ReleaseKept f t u) : ReleaseKept f s u :=
  ⟨h.regs.trans k.regs, h.rest.trans k.rest, fun e => k.pend (h.pend e), k.cap.trans h.cap⟩

theorem ReleaseKept.of_counts (hr : KeptAt (ReleasePlace f) s t) (h : Counts s t) : ReleaseKept f s t :=
  ⟨hr, h.releaseOnly, fun e => by rw [h.keeps_trn, e], by rw [h.keeps_pwr]⟩

theorem ReleaseKept.ite {c : Prop} [Decidable c] (h : ReleaseKept f s t) (k : ReleaseKept f s u) :
    ReleaseKept f s (if c then t else u) := by
  split
  · exact h
  · exact k

theorem foldl_releaseKept {α : Type} {g : State → α → State} {l : List α} (hg : ∀ s, ∀ x ∈ l, ReleaseKept f s (g s x)) (s : State) :
    ReleaseKept f s (l.foldl g s) :=
  List.foldlRecOn (motive := ReleaseKept f s) l g (.refl s) fun _ h x hx => h.trans (hg _ x hx)

end

section
variable (f : Nat) (s : State)

/-- A register of a page that is not a fold's, the fault page or the Herd page. -/
theorem fputi_releaseKept {page i : Nat} {g : Field} (v : Nat) (h : page < 0x41000 ∧ page ≠ pgFLT ∧ page ≠ pgHERD)
    (hg : g.off + i * g.stride < 4096 ∧ g.lo < 32) : ReleaseKept f s (fputi s page g i v) := by
  refine .of_counts (fputi_keptAt s v fun k => ?_) (counts_fputi ..)
  obtain ⟨hp, hflt, hherd⟩ := h
  obtain k | k | k := k
  · unfold AtField pgFOLD pageOf fieldKey at k
    simp only [F.FOLD_DIES_DIES] at k
    omega
  · unfold AtField fieldKey at k
    simp only [F.FLT_OFFLINE_DIES] at k
    omega
  · unfold AtField fieldKey at k
    simp only [F.HERD_EVTVALID_ARMED] at k
    omega

theorem fput_releaseKept {page : Nat} {g : Field} (v : Nat) (h : page < 0x41000 ∧ page ≠ pgFLT ∧ page ≠ pgHERD)
    (hg : g.off < 4096 ∧ g.lo < 32) : ReleaseKept f s (fput s page g v) := fputi_releaseKept f s v h (by rwa [Nat.zero_mul])

theorem bump_releaseKept (page n : Nat) : ReleaseKept f s (bump s page n) :=
  .of_counts ((bump_blockSame ..).keptAt fun _ hk => releasePlace_block hk) (bump_counts ..)

/-! ## Contexts -/

theorem pgCTX_other {c : Nat} (hc : c < 512) : pgCTX c < 0x41000 ∧ pgCTX c ≠ pgFLT ∧ pgCTX c ≠ pgHERD := by
  unfold pgCTX pgFLT pgHERD pageOf
  omega

theorem releaseQueue_releaseKept {c q : Nat} (hc : c < 512) (hq : q < 8) : ReleaseKept f s (releaseQueue s c q) := by
  have hput (t : State) (g : Field) (v : Nat) (hg : g.off + q * g.stride < 4096 ∧ g.lo < 32) :
      ReleaseKept f t (fputi t (pgCTX c) g q v) := fputi_releaseKept f t v (pgCTX_other hc) hg
  have hring (t : State) (x : QueueSt) (k : StreamId) (y : StreamSt) : ReleaseKept f t (putStream (putQueue t c q x) k y) :=
    ⟨.of_regs rfl, rfl, id, rfl⟩
  have hoff {g : Field} (hg : g.stride = 0x20 ∧ g.off < 0x200 ∧ g.lo < 32) : g.off + q * g.stride < 4096 ∧ g.lo < 32 := by
    obtain ⟨hs, ho, hl⟩ := hg
    rw [hs]
    omega
  unfold releaseQueue
  exact (hput s _ _ (hoff (by decide))).trans ((hput _ _ _ (hoff (by decide))).trans ((hput _ _ _ (hoff (by decide))).trans
    ((hput _ _ _ (hoff (by decide))).trans (hring ..))))

theorem dropTables_releaseKept (c : Nat) : ReleaseKept f s (dropTables s c) := ⟨.of_regs rfl, rfl, id, rfl⟩

theorem trnCtxReset_releaseKept {c : Nat} (hc : c < 512) : ReleaseKept f s (trnCtxReset s c) := by
  have hput (t : State) (g : Field) (v : Nat) (hg : g.off < 4096 ∧ g.lo < 32) : ReleaseKept f t (fput t (pgCTX c) g v) :=
    fput_releaseKept f t v (pgCTX_other hc) hg
  have hgone : ReleaseKept f s (putTrn s fun x => { x with seqs := mdel x.seqs c, pend := mdel x.pend c }) :=
    ⟨.of_regs rfl, rfl, fun e => by show mdel s.trn.pend c = []; rw [e]; rfl, rfl⟩
  have hpair (t : State) (v w : Nat) : ReleaseKept f t
      (fputi (fputi t (pgCTX c) F.CTX_STEP_TICK_LO_TICK_LO 0 v) (pgCTX c) F.CTX_STEP_TICK_HI_TICK_HI 0 w) :=
    (fputi_releaseKept f t v (pgCTX_other hc) (by decide)).trans (fputi_releaseKept f _ w (pgCTX_other hc) (by decide))
  unfold trnCtxReset
  exact hgone.trans ((hput _ _ _ (by decide)).trans ((hput _ _ _ (by decide)).trans ((hput _ _ _ (by decide)).trans
    ((hput _ _ _ (by decide)).trans ((hput _ _ _ (by decide)).trans ((hput _ _ _ (by decide)).trans (hpair ..)))))))

theorem releaseCtx_releaseKept {c : Nat} (hc : c < 512) : ReleaseKept f s (releaseCtx s c) := by
  have hput (t : State) (g : Field) (v : Nat) (hg : g.off < 4096 ∧ g.lo < 32) : ReleaseKept f t (fput t (pgCTX c) g v) :=
    fput_releaseKept f t v (pgCTX_other hc) hg
  have htallies (t : State) (m : FMap TallySt) : ReleaseKept f t { t with tallies := m } := ⟨.of_regs rfl, rfl, id, rfl⟩
  have hqueues : ReleaseKept f s ((List.range 8).foldl (fun s q => releaseQueue s c q) s) :=
    foldl_releaseKept (fun t _ hq => releaseQueue_releaseKept f t hc (List.mem_range.1 hq)) s
  unfold releaseCtx
  exact hqueues.trans ((htallies ..).trans ((hput _ _ _ (by decide)).trans ((dropTables_releaseKept ..).trans
    ((trnCtxReset_releaseKept _ _ hc).trans (hput _ _ _ (by decide))))))

theorem freeSlots_releaseKept (g : Nat) : ReleaseKept f s (freeSlots s g) := ⟨.of_regs rfl, rfl, id, rfl⟩

/-! ## Dies -/

theorem releaseDie_releaseKept (d : Nat) : ReleaseKept f s (releaseDie s d) := ⟨.of_regs rfl, rfl, id, rfl⟩

theorem opSettle_releaseKept {d : Nat} (hd : d < 16) : ReleaseKept f s (opSettle s d) := by
  have hput (t : State) (g : Field) (v : Nat) (hg : g.off < 4096 ∧ g.lo < 32) : ReleaseKept f t (fput t (pgPWRDIE d) g v) :=
    fput_releaseKept f t v (by unfold pgPWRDIE pgFLT pgHERD pageOf; omega) hg
  have hgoal (t : State) (v : Nat) : ReleaseKept f t (putPwr t fun p => { p with goal := mput p.goal d v }) :=
    ⟨.of_regs rfl, rfl, id, rfl⟩
  unfold opSettle
  refine .ite (.refl s) (ReleaseKept.trans (.ite ((hput _ _ _ (by decide)).trans (bump_releaseKept ..)) (.refl s))
    (ReleaseKept.trans (.ite (.refl _) (hgoal ..)) (hput _ _ _ (by decide))))

theorem opFoldReset_releaseKept (dies : Nat) : ReleaseKept f s (opFoldReset s dies) := by
  unfold opFoldReset
  refine foldl_releaseKept (fun t d hd => ?_) s
  have hlt := (mem_setBitsOf.1 hd).1
  exact (fput_releaseKept f t 0 (by unfold pgPWRDIE pgFLT pgHERD pageOf; omega) (by decide)).trans
    (opSettle_releaseKept f _ hlt)

end

/-! ## The release -/

/-- The fold's commands are gone. -/
def cmdsGone (s : State) (f : Nat) : State := { s with cmds := s.cmds.filter fun c => !ofFold s f c }

/-- The fold's contexts and dies are as new. -/
def workReleased (s : State) (f dies : Nat) : State :=
  opFoldReset ((setBitsOf 16 dies).foldl releaseDie (freeSlots ((foldCtxs s f).foldl releaseCtx s) f)) dies

/-- An offline die has left the fold (R462). -/
def diesLeft (s : State) (f : Nat) : State :=
  fput s (pgFOLD f) F.FOLD_DIES_DIES
    (fget s (pgFOLD f) F.FOLD_DIES_DIES - (fget s (pgFOLD f) F.FOLD_DIES_DIES &&& fget s pgFLT F.FLT_OFFLINE_DIES))

/-- The fold shows that it resets no more. -/
def resetOver (s : State) (f : Nat) : State :=
  fput (putRst s fun r => { r with folds := mdel r.folds f }) (pgFOLD f) F.FOLD_STS_RESETTING 0

/-- The log and the interrupt tell the release. -/
def releaseTold (s : State) (f : Nat) (x : FoldRst) : State :=
  raiseEvent (bump (logFault s 0x10 x.cause f x.detail) pgFLT 0) (pgFOLD f)

theorem foldRelease_eq (s : State) (f : Nat) (x : FoldRst) : foldRelease s f x =
    releaseTold (resetOver (diesLeft (workReleased (cmdsGone s f) f x.dies) f) f) f x := by
  unfold foldRelease workReleased cmdsGone diesLeft resetOver releaseTold
  rfl

theorem workReleased_releaseKept (f : Nat) (s : State) (dies : Nat) : ReleaseKept f s (workReleased s f dies) := by
  have hctxs : ReleaseKept f s ((foldCtxs s f).foldl releaseCtx s) :=
    foldl_releaseKept (fun t _ hc => releaseCtx_releaseKept f t (List.mem_range.1 (List.mem_filter.1 hc).1)) s
  unfold workReleased
  exact hctxs.trans ((freeSlots_releaseKept ..).trans
    ((foldl_releaseKept (fun t d _ => releaseDie_releaseKept f t d) _).trans (opFoldReset_releaseKept ..)))

section
variable (s : State) (f : Nat)

theorem testBit_diesLeft (d : Nat) : (fget (diesLeft s f) (pgFOLD f) F.FOLD_DIES_DIES).testBit d =
    ((fget s (pgFOLD f) F.FOLD_DIES_DIES).testBit d && !(fget s pgFLT F.FLT_OFFLINE_DIES).testBit d) := by
  have hlt : fget s (pgFOLD f) F.FOLD_DIES_DIES < 2 ^ fieldWidth F.FOLD_DIES_DIES :=
    fgeti_lt s (pgFOLD f) _ 0 (by decide)
  unfold diesLeft
  rw [fget_fput_same _ _ _ _ (by decide), Nat.mod_eq_of_lt ((Nat.sub_le ..).trans_lt hlt), testBit_sub_and]

theorem dies_resetOver : fget (resetOver s f) (pgFOLD f) F.FOLD_DIES_DIES = fget s (pgFOLD f) F.FOLD_DIES_DIES :=
  fget_fput_ne _ _ _ (by decide)

theorem resetting_resetOver : fbit (resetOver s f) (pgFOLD f) F.FOLD_STS_RESETTING = false := fbit_fputb_same _ _ false rfl

theorem getFoldRst_resetOver : getFoldRst (resetOver s f) f = none := (mget_mdel ..).trans (if_pos rfl)

/-- The fold's own page and the record of its reset are all that then changes. -/
theorem resetOver_counts : Counts (putRst s fun r => { r with folds := mdel r.folds f }) (resetOver (diesLeft s f) f) := by
  have hput (t : State) : Counts (putRst t fun r => { r with folds := mdel r.folds f }) (resetOver t f) := counts_fput ..
  have hdies (v : Nat) : Counts (putRst s fun r => { r with folds := mdel r.folds f })
      (putRst (fput s (pgFOLD f) F.FOLD_DIES_DIES v) fun r => { r with folds := mdel r.folds f }) := rfl
  exact (hdies _).trans (hput _)

theorem resetOver_armed : KeptAt (AtField pgHERD F.HERD_EVTVALID_ARMED) s (resetOver (diesLeft s f) f) := by
  have hput (t : State) (g : Field) (v : Nat) (hg : g.off < 4096 ∧ g.lo < 32) :
      KeptAt (AtField pgHERD F.HERD_EVTVALID_ARMED) t (fput t (pgFOLD f) g v) := by
    refine fput_atField t v ?_
    unfold pgFOLD pageOf fieldKey
    simp only [F.HERD_EVTVALID_ARMED]
    have : pgHERD = 0x7000 := rfl
    omega
  have hrst (t : State) (g : RstSt → RstSt) : KeptAt (AtField pgHERD F.HERD_EVTVALID_ARMED) t (putRst t g) := .of_regs rfl
  exact (hput _ _ _ (by decide)).trans ((hrst ..).trans (hput _ _ _ (by decide)))

theorem releaseTold_counts (x : FoldRst) : Counts s (releaseTold s f x) :=
  (logFault_counts ..).trans ((bump_counts ..).trans (raiseEvent_counts ..))

theorem releaseTold_page {p : Nat} (hp : p ≠ pgFLT) (x : FoldRst) : KeptAt (BlockPlace p) s (releaseTold s f x) :=
  (logFault_page hp ..).trans (((bump_blockSame ..).trans (raiseEvent_blockSame ..)).page p)

end

/-- Once a fold is released: no reset of it goes on, its offline dies and its commands have left it. -/
structure Released (s : State) (f : Nat) (t : State) : Prop where
  ended : getFoldRst t f = none
  shown : fbit t (pgFOLD f) F.FOLD_STS_RESETTING = false
  dies : ∀ d, (fget t (pgFOLD f) F.FOLD_DIES_DIES).testBit d =
    ((fget s (pgFOLD f) F.FOLD_DIES_DIES).testBit d && !(fget s pgFLT F.FLT_OFFLINE_DIES).testBit d)
  cmds : ∀ c ∈ t.cmds, ofFold s f c = false
  mem : t.mem = s.mem

/-- The release once the fold's contexts and dies are as new. -/
def releaseShown (s : State) (f : Nat) (x : FoldRst) : State := releaseTold (resetOver (diesLeft s f) f) f x

theorem releaseShown_counts (s : State) (f : Nat) (x : FoldRst) :
    Counts (putRst s fun r => { r with folds := mdel r.folds f }) (releaseShown s f x) :=
  (resetOver_counts ..).trans (releaseTold_counts ..)

theorem putRst_cmds (s : State) (g : RstSt → RstSt) : (putRst s g).cmds = s.cmds := rfl

theorem foldRelease_released (s : State) (f : Nat) (x : FoldRst) : Released s f (foldRelease s f x) := by
  obtain ⟨hregs, hrest, -, -⟩ := workReleased_releaseKept f (cmdsGone s f) x.dies
  rw [foldRelease_eq]
  generalize workReleased (cmdsGone s f) f x.dies = u at hregs hrest ⊢
  have hall := releaseShown_counts u f x
  have hpage := releaseTold_page (resetOver (diesLeft u f) f) f (p := pgFOLD f) (by unfold pgFOLD pgFLT pageOf; omega) x
  refine ⟨?_, ?_, fun d => ?_, fun c hc => ?_, hall.keeps_mem.trans hrest.keeps_mem⟩
  · unfold getFoldRst
    rw [(releaseTold_counts ..).keeps_rst]
    exact getFoldRst_resetOver ..
  · rw [hpage.fbit (blockPlace_field (by decide)), resetting_resetOver]
  · rw [hpage.fget (blockPlace_field (by decide)), dies_resetOver, testBit_diesLeft, hregs.fget (.inl rfl),
      hregs.fget (.inr (.inl rfl))]
    rfl
  · have hleft : c ∈ (cmdsGone s f).cmds := by rwa [← hrest.keeps_cmds, ← putRst_cmds u, ← hall.keeps_cmds]
    simpa using (List.mem_filter.1 hleft).2

theorem foldRelease_untimed {s : State} (h : Untimed s) (f : Nat) (x : FoldRst) : Untimed (foldRelease s f x) := by
  obtain ⟨hregs, hrest, hpend, hcap⟩ := workReleased_releaseKept f (cmdsGone s f) x.dies
  rw [foldRelease_eq]
  generalize workReleased (cmdsGone s f) f x.dies = u at hregs hrest hpend hcap ⊢
  have hall := releaseShown_counts u f x
  have hherd : (releaseShown u f x).herd = s.herd := hall.keeps_herd.trans hrest.keeps_herd
  have harmed : fget (releaseShown u f x) pgHERD F.HERD_EVTVALID_ARMED = fget s pgHERD F.HERD_EVTVALID_ARMED := by
    unfold releaseShown
    rw [(releaseTold_page _ f (by decide) x).fget (blockPlace_field (by decide)), (resetOver_armed u f).fget rfl,
      hregs.fget (.inr (.inr rfl))]
    rfl
  obtain ⟨hstage, hev, hp, hc, hrel⟩ := h
  refine ⟨?_, harmed.trans hev, ?_, ?_, ?_⟩
  · exact (congrArg HerdSt.stage hherd).trans hstage
  · exact (congrArg TrnSt.pend hall.keeps_trn).trans (hpend hp)
  · exact (congrArg PwrSt.capNext hall.keeps_pwr).trans (hcap.trans hc)
  · exact (congrArg HerdSt.rel hherd).trans hrel

theorem foldClearDone_answers {s : State} {f : Nat} {x : FoldRst} (hx : getFoldRst s f = some x) (hs : pkgStopped s = false)
    (hp : x.phase = .clear) (hd : diesClear s x.dies = true) (hw : (s.rst.writes.filter fun w => w.1 == f) = []) (hu : Untimed s) :
    Answers (.foldClearDone f) s fun t => getFoldRst t f = none ∧ fbit t (pgFOLD f) F.FOLD_STS_RESETTING = false ∧
      (∀ d, (fget t (pgFOLD f) F.FOLD_DIES_DIES).testBit d = ((fget s (pgFOLD f) F.FOLD_DIES_DIES).testBit d &&
        !(fget s pgFLT F.FLT_OFFLINE_DIES).testBit d)) ∧ (∀ c ∈ t.cmds, ofFold s f c = false) ∧ t.mem = s.mem := by
  have hcond : (x.phase == .clear && diesClear s x.dies && !pkgStopped s) = true := by rw [hp, hd, hs]; rfl
  have hrel := foldRelease_released s f x
  have huntimed := foldRelease_untimed hu f x
  obtain ⟨u, hv⟩ : ∃ u, u = foldRelease s f x := ⟨_, rfl⟩
  rw [← hv] at hrel huntimed
  have hsettled : settleHerd (putRst u fun r => { r with writes := r.writes.filter fun w => w.1 != f }) =
      putRst u fun r => { r with writes := r.writes.filter fun w => w.1 != f } := settleHerd_untimed huntimed
  obtain ⟨hended, hshown, hdies, hcmds, hmem⟩ := hrel
  refine ⟨putRst u fun r => { r with writes := r.writes.filter fun w => w.1 != f }, ?_, hended, hshown, hdies, hcmds, hmem⟩
  show Host.Outcome.next _ = _
  rw [hx]
  dsimp only
  rw [if_pos hcond, hw, ← hv]
  exact congrArg Host.Outcome.next hsettled

end Sys2Proof.Machine
end

section
/-! The containment of faults (R252, R457 to R474): the obligation O57, from the parts above. -/

namespace Sys2Proof.Machine

open Sys2Proof

/-- Settles O57: watches and time-outs end what they guard (unitWorks says when a unit is watched, log 179), the phases of a fold
reset follow one another, a reset by write having cause 1 and taking the fold's fatal fault (log 53), FOLD_CLEAR_DONE standing for
the dies' self-checks (log 60), an offline die leaving the fold at Release (log 54), and a package-fatal fault is shown once. -/
theorem faultsAreContained : Obligations.FaultsAreContained := by
  unfold Obligations.FaultsAreContained
  intro s
  refine ⟨?commands, ?streams, fun u again h => congrArg Host.Outcome.next (unitExpire_of_idle h again), ?units, ?agents, ?hubs,
    fun p hp hr hd => linkWatchExpire_answers hp hr hd, ?below, fun f cause unit detail hf h2 h5 => foldFatal_answers hf h2 h5,
    fun src fs f hs hf hfs he hr => foldReset_answers hf hs hfs he hr, ?phases,
    fun cause hlo hhi => packageFatal_answers hlo hhi, fun src ds hs ha => dieOfflineWrite_answers hs ha ds⟩
  case commands =>
    intro c x hx hd
    exact ⟨fun hp hb hq => queueWatchExpire_head hx hp hb hq, fun hp hq hpool => queueWatchExpire_pool hx hd hp hq hpool,
      fun ho hp k hk hc hr => runWatchExpire_answers hx ho hp hk hc hr⟩
  case streams =>
    rintro x st y rfl hy
    exact streamWatchExpire_answers hy
  case units =>
    intro again
    refine ⟨?_, fun e u r c he hu hpause hr hc hp => etchWatch_answers he hu hpause hr hc hp again,
      fun e u r c he hu hpause hr hc hp => droverWatch_answers he hu hpause hr hc hp again⟩
    rintro d p r hd hp hpause hr rfl
    exact hatchWatch_answers hd hp hpause hr
  case agents =>
    exact fun tile a ht ha => ⟨fun ho hd => agentWatchExpire_answers ht ha ho hd, fun ho => agentWatchExpire_owesNothing ho⟩
  case hubs =>
    exact fun tile id x ht hx hw => ⟨fun hh hs => hubWatchExpire_package ht hx hw hh hs,
      fun d f hh hf ha hr => hubWatchExpire_fold ht hx hw hh hf ha hr⟩
  case below =>
    exact fun tile e ht => ⟨fun he hr hb => etchTimeout_answers ht he hr hb, fun r pa he hr hb => droverTimeout_answers ht he hr hb,
      fun x c hx hc hp => colTimeout_answers hx hc hp⟩
  case phases =>
    intro f x hx
    exact ⟨fun hs => ⟨fun hp => foldAbortDone_answers hx hp hs, fun hp hd => drain_answers hx hs hp hd,
      fun hp hd hw hu => foldClearDone_answers hx hs hp hd hw hu⟩, fun hp hc hd => capture_answers hx hp hc hd⟩

end Sys2Proof.Machine
end
